-- ==== Sys2Proof/Word.lean ====
section
/-! DEFINITION. Words, bytes and tokens of the Hexelle Kloeb, and the plainest reads of their bits. -/

namespace Sys2Proof

abbrev Byte := BitVec 8
abbrev Word32 := BitVec 32
abbrev Word64 := BitVec 64

/-- A token (R27): 16 lanes of 32 bits, lane l at bits [32l+31:32l], a lane-valid mask and a null flag.
Element e of a type of width w lies at bits [we+w-1:we] (R99), and byte k of the 64-byte card at [8k+7:8k]. -/
structure Token where
  data : BitVec 512
  mask : BitVec 16
  null : Bool
  deriving DecidableEq, Repr, Inhabited

/-- Bits [lo+len-1:lo] of x as a number. -/
def bitsOf (x lo len : Nat) : Nat := (x >>> lo) % 2 ^ len

/-- The signed reading of the low w bits of x. -/
def signedOf (w x : Nat) : Int := if x % 2 ^ w < 2 ^ (w - 1) then (x % 2 ^ w : Nat) else ((x % 2 ^ w : Nat) : Int) - 2 ^ w

/-- The low w bits of an exact integer. -/
def wrapTo (w : Nat) (x : Int) : Nat := (x % (2 : Int) ^ w).toNat

/-- Five status bits in the layout of Table 2.10: NV, DZ, OF, UF, NX from bit 4 down. -/
abbrev Flags := BitVec 5

end Sys2Proof
end

