-- ==== Sys2Proof/Syntax.lean ====
section
/-! DEFINITION. The steps of the Hexelle Kloeb as data: block instructions with the fields of their word
(R60, R68), seeds with their husk (R74), and the events of the table of operations. -/

namespace Sys2Proof

/-- The fields of a stage word (Tables 3.4 and 3.6); bit [24] is zero in every word that decodes. -/
structure StageW where
  pm : BitVec 2
  ty : BitVec 4
  t0 : BitVec 9
  t1 : BitVec 9
  sub : BitVec 3
  rnd : BitVec 2
  sat : BitVec 1
  bimm : BitVec 1
  aux : BitVec 8
  imm : BitVec 16
  deriving DecidableEq, Repr, Inhabited

/-- The fields of a memory word (Tables 3.4 and 3.8). -/
structure MemW where
  pm : BitVec 2
  ty : BitVec 4
  t0 : BitVec 9
  t1 : BitVec 9
  scope : BitVec 3
  strong : BitVec 1
  ordk : BitVec 2
  ordered : BitVec 1
  ordno : BitVec 7
  recid : BitVec 6
  off : BitVec 12
  deriving DecidableEq, Repr, Inhabited

/-- The fields of a control-point word (Tables 3.4 and 3.9); MODE stands in the constructor. -/
structure CpW where
  pm : BitVec 2
  ty : BitVec 4
  t0 : BitVec 9
  t1 : BitVec 9
  t2 : BitVec 9
  t3 : BitVec 9
  param : BitVec 10
  deriving DecidableEq, Repr, Inhabited

/-- The fields of a reorder word (Tables 3.4 and 3.10). -/
structure ReW where
  pm : BitVec 2
  ty : BitVec 4
  t0 : BitVec 9
  t1 : BitVec 9
  innerM1 : BitVec 8
  outerM1 : BitVec 8
  istride : BitVec 8
  ostride : BitVec 8
  deriving DecidableEq, Repr, Inhabited

/-- The fields of an engine-port word (Tables 3.4 and 3.10) but SUB, which the constructor gives or carries. -/
structure EpW where
  pm : BitVec 2
  ty : BitVec 4
  t0 : BitVec 9
  t1 : BitVec 9
  escope : BitVec 3
  params : BitVec 21
  deriving DecidableEq, Repr, Inhabited

/-- The husk of a seed (Table 3.13) but SOP, which the constructor gives. -/
structure Husk where
  fmt : BitVec 4
  comp : BitVec 4
  rmode : BitVec 2
  rsel : BitVec 22
  link : BitVec 32
  plen : BitVec 16
  rows16 : BitVec 8
  cols16 : BitVec 8
  accrow : BitVec 12
  abuf : BitVec 4
  hchk : BitVec 8
  deriving DecidableEq, Repr, Inhabited

/-- Who writes a system register (R308, R382): a task at a level on a core, or system software or the host
for a partition and function. -/
structure RegBy where
  core : Nat
  task : Nat
  part : Nat
  fn : Nat
  system : Bool
  deriving DecidableEq, Repr, Inhabited

/-- One flit of the pod protocol (R405): the header of Table 25.4 and payload bytes 16 to 255. -/
structure Flit where
  hdr : BitVec 128
  payload : List Byte
  deriving DecidableEq, Repr, Inhabited

/-- What a remote request asks for (R404, R407): a load, a store, an atomic by opcode, a message (R303),
a barrier arrival of pod scope (R301), the deposits of one kvsend layer (R285), an `await` (R160), with its threshold, the cards of a
collective, or the word that a participant has written all it was to (R297). -/
inductive RemoteOp where
  | load (bytes : Nat)
  | store (bytes : List Byte)
  | atomic (op : Nat) (ty : Nat) (operand expected : Nat)
  | message (core chan : Nat) (words : List Word32)
  | barrier (id key count : Nat) (err : Bool)
  | deposit (bytes : List Byte)
  | accept (e0 n pppl nlayl : Nat)
  | layer
  | await (ty threshold : Nat)
  | written (rank key : Nat)
  | collective (rank key : Nat) (form : List Nat) (elems : List (Nat × Bool))
  deriving DecidableEq, Repr, Inhabited

/-- A request to another package or from one (R404): the other package, the pod group of the source's partition, and the address in the
address space of the destination partition. -/
structure RemoteReq where
  pkg : Nat
  podPart : Nat
  va : Nat
  op : RemoteOp
  deriving DecidableEq, Repr, Inhabited

/-- A firmware image as the ROM finds it (R410): its digest, and whether its signature verifies. -/
structure Image where
  digest : BitVec 512
  sigOk : Bool
  deriving DecidableEq, Repr, Inhabited

/-- One partition of a configuration block (R403, R404). -/
structure PartCfg where
  num : Nat
  quads : List Nat
  fns : List Nat
  podPart : Nat
  deriving DecidableEq, Repr, Inhabited

/-- The stored delays of one channel (R358, R412 step 3). -/
structure DelayCfg where
  chan : Nat
  rd : BitVec 512
  wr : BitVec 512
  sp : Word32
  repair : Word32
  deriving DecidableEq, Repr, Inhabited

/-- A configuration block as the firmware reads it (R412): what its checks find, the IDDIGEST it names, and the values it sets; with it what
the training of the stacks that do not pass with the stored delays comes to (R354): the delays found, and the stacks that do not train. -/
structure ConfigBlock where
  sigOk : Bool
  device : BitVec 512
  version : Nat
  lenOk : Bool
  parts : List PartCfg
  delays : List DelayCfg
  trained : List DelayCfg
  untrained : List Nat
  drszl : List Nat
  dshr : List Nat
  sweeplen : List Nat
  swtherm : List Nat
  dutyratio : List Nat
  aithresh : Word32
  lifttime : Word32
  grantmax : Word32
  oppoint : Nat
  hipt : Bool
  pabudget : List Nat
  digest : BitVec 512
  signer : BitVec 512
  layout : BitVec 512
  deriving DecidableEq, Repr, Inhabited

/-- One SPDM request in the mailbox (R414): its bytes, and the signature and hash algorithms it asks for. -/
structure SpdmMsg where
  bytes : List Byte
  mldsa87 : Bool
  sha3 : Bool
  slot : Nat
  deriving DecidableEq, Repr, Inhabited

/-- The steps of the part: one constructor for each row of the table of operations and events (R80, R85; 95).
Block instructions carry the fields of their word, seeds their husk, events what names them. -/
inductive Instr where
  | vadd (w : StageW) -- R111
  | vsub (w : StageW) -- R111
  | vaddsat (w : StageW) -- R111
  | vsubsat (w : StageW) -- R111
  | vmul (w : StageW) -- R111
  | vmulhi (w : StageW) -- R111
  | vmad (w : StageW) -- R111
  | vneg (w : StageW) -- R111
  | vabs (w : StageW) -- R111
  | vmin (w : StageW) -- R111
  | vmax (w : StageW) -- R111
  | vand (w : StageW) -- R111
  | vor (w : StageW) -- R111
  | vxor (w : StageW) -- R111
  | vandn (w : StageW) -- R111
  | vshl (w : StageW) -- R112
  | vshr (w : StageW) -- R112
  | vsra (w : StageW) -- R112
  | vrotl (w : StageW) -- R112
  | vclz (w : StageW) -- R113
  | vpopc (w : StageW) -- R113
  | vcmp (w : StageW) -- R114
  | vsel (w : StageW) -- R115
  | vext (w : StageW) -- R116
  | vbfx (w : StageW) -- R116
  | vbfi (w : StageW) -- R116
  | const (w : StageW) -- R117
  | dup (w : StageW) -- R117
  | rdb (w : StageW) -- R117
  | wrb (w : StageW) -- R118
  | itr (w : StageW) -- R117
  | lidx (w : StageW) -- R117
  | mkpred (w : StageW) -- R119
  | nul (w : StageW) -- R117
  | lred (w : StageW) -- R120
  | lscan (w : StageW) -- R121
  | lbcast (w : StageW) -- R122
  | lshift (w : StageW) -- R123
  | lperm (w : StageW) -- R124
  | lpack (w : StageW) -- R125
  | lcount (w : StageW) -- R126
  | fadd (w : StageW) -- R129
  | fsub (w : StageW) -- R129
  | fmul (w : StageW) -- R129
  | fma (w : StageW) -- R129
  | fnma (w : StageW) -- R129
  | fmin (w : StageW) -- R130
  | fmax (w : StageW) -- R130
  | fabs (w : StageW) -- R130
  | fneg (w : StageW) -- R130
  | fcpsgn (w : StageW) -- R130
  | fcmp (w : StageW) -- R131
  | fclass (w : StageW) -- R132
  | frnd (w : StageW) -- R133
  | fscaleb (w : StageW) -- R133
  | fgetexp (w : StageW) -- R133
  | fgetman (w : StageW) -- R133
  | frcp (w : StageW) -- R134
  | frsq (w : StageW) -- R134
  | fsqrt (w : StageW) -- R134
  | fexp2 (w : StageW) -- R134
  | flog2 (w : StageW) -- R134
  | ftanh (w : StageW) -- R134
  | fsin (w : StageW) -- R134
  | fcos (w : StageW) -- R134
  | fsigm (w : StageW) -- R134
  | smref (w : StageW) -- R136
  | smexp (w : StageW) -- R137
  | cvt (w : StageW) -- R138
  | cvti (w : StageW) -- R139
  | cvtf (w : StageW) -- R138
  | blkpack (w : StageW) -- R140
  | blkunpack (w : StageW) -- R141
  | blkscale (w : StageW) -- R142
  | bpc (w : StageW) -- R144
  | bpx (w : StageW) -- R145
  | ldSp (w : MemW) -- R153
  | stSp (w : MemW) -- R153
  | ldD (w : MemW) -- R153
  | stD (w : MemW) -- R153
  | ldt (w : MemW) -- R154
  | stt (w : MemW) -- R154
  | ldg (w : MemW) -- R155
  | stg (w : MemW) -- R155
  | cbpush (w : MemW) -- R158
  | cbpop (w : MemW) -- R158
  | cbpeek (w : MemW) -- R158
  | cbstat (w : MemW) -- R159
  | fence (w : MemW) -- R161
  | aadd (w : MemW) -- R162
  | amin (w : MemW) -- R162
  | amax (w : MemW) -- R162
  | aand (w : MemW) -- R162
  | aor (w : MemW) -- R162
  | axor (w : MemW) -- R162
  | axchg (w : MemW) -- R162
  | acas (w : MemW) -- R162
  | aaddw (w : MemW) -- R165
  | await (w : MemW) -- R165
  | afadd (w : MemW) -- R164
  | steer (w : CpW) -- R171
  | carry (w : CpW) -- R172
  | inv (w : CpW) -- R173
  | mergeSel (w : CpW) -- R175
  | mergeAny (w : CpW) -- R175
  | fan (w : CpW) -- R171
  | join (w : CpW) -- R171
  | order (w : CpW) -- R174
  | exitSel (w : CpW) -- R178
  | exitCall (w : CpW) -- R178
  | exitRet (w : CpW) -- R178
  | exitJump (w : CpW) -- R178
  | exitBr (w : CpW) -- R178
  | gatePass (w : CpW) -- R175
  | gateBrk (w : CpW) -- R176
  | nulchkIsnull (w : CpW) -- R175
  | nulchkPresent (w : CpW) -- R175
  | reord (w : ReW) -- R183
  | xpose (w : ReW) -- R184
  | corner (w : ReW) -- R185
  | mlatch (w : EpW) (sub : BitVec 8) -- R199
  | mstream (w : EpW) (sub : BitVec 8) -- R200
  | mdrain (w : EpW) (sub : BitVec 8) -- R202
  | accclr (w : EpW) (sub : BitVec 8) -- R203
  | accscale (w : EpW) (sub : BitVec 8) -- R203
  | accld (w : EpW) (sub : BitVec 8) -- R203
  | accst (w : EpW) (sub : BitVec 8) -- R203
  | mxv (w : EpW) (sub : BitVec 8) -- R205
  | munfold (w : EpW) (sub : BitVec 8) -- R201
  | brd (w : EpW) -- R226
  | bsum (w : EpW) -- R228
  | bflt (w : EpW) -- R228
  | bdep (w : EpW) -- R229
  | bupdIadd (w : EpW) -- R230
  | bupdFadd (w : EpW) -- R230
  | bupdImin (w : EpW) -- R230
  | bupdImax (w : EpW) -- R230
  | bupdAnd (w : EpW) -- R230
  | bupdOr (w : EpW) -- R230
  | bupdXor (w : EpW) -- R230
  | bupdSet (w : EpW) -- R230
  | bmac (w : EpW) -- R233
  | batt (w : EpW) -- R228
  | bclone (w : EpW) -- R231
  | bcfg (w : EpW) -- R238
  | bcancel (w : EpW) -- R235
  | bwait (w : EpW) -- R236
  | wdrive (w : EpW) -- R243
  | bstandRd (w : EpW) -- R234
  | bstandSum (w : EpW) -- R234
  | bstandFlt (w : EpW) -- R234
  | bstandAtt (w : EpW) -- R234
  | cursor (w : EpW) -- R237
  | copy (w : EpW) (sub : BitVec 8) -- R296
  | coll (w : EpW) (sub : BitVec 8) -- R297
  | ringx (w : EpW) (sub : BitVec 8) -- R298
  | kvopen (w : EpW) -- R275
  | kvfork (w : EpW) -- R275
  | kvreserve (w : EpW) -- R276
  | kvwin (w : EpW) -- R278
  | kvcommit (w : EpW) -- R281
  | kvabort (w : EpW) -- R281
  | kvlen (w : EpW) -- R282
  | kvclose (w : EpW) -- R283
  | kvsend (w : EpW) (sub : BitVec 8) -- R285
  | kvarm (w : EpW) -- R284
  | kvsnap (w : EpW) -- R280
  | barA (w : EpW) -- R302
  | barW (w : EpW) -- R302
  | barAw (w : EpW) -- R302
  | barLv (w : EpW) -- R302
  | msend (w : EpW) -- R303
  | bind (w : EpW) -- R304
  | yield (w : EpW) -- R305
  | yieldWait (w : EpW) -- R305
  | endTask (w : EpW) -- R305
  | waitseq (w : EpW) -- R306
  | trap (w : EpW) -- R307
  | eret (w : EpW) -- R338
  | sysrd (w : EpW) -- R308
  | syswr (w : EpW) -- R308
  | tlbinvPg (w : EpW) -- R380
  | tlbinvAll (w : EpW) -- R380
  | launch (w : EpW) -- R310
  | pmrd (w : EpW) -- R311
  | smm (h : Husk) -- R255
  | smmz (h : Husk) -- R255
  | svec (h : Husk) -- R256
  | sbias (h : Husk) -- R256
  | snorm (h : Husk) -- R256
  | sact (h : Husk) -- R257
  | sdrain (h : Husk) -- R257
  | sjump (h : Husk) -- R260
  | scall (h : Husk) -- R260
  | sexit (h : Husk) -- R260
  | sbar (h : Husk) -- R259
  | spad (h : Husk) -- R259
  | sembed (h : Husk) -- R258
  | tokenArrival (core slot port : Nat) -- R64
  | phaseEnd (core : Nat) -- R181
  | messageArrival (n : Nat) -- R40
  | waitOrphan (core : Nat) -- R47
  | memoryResponse (core task n : Nat) -- R160
  | storeDrain (core n : Nat) -- R317
  | l1Evict (core loc : Nat) -- R317
  | awaitPoll (core task n : Nat) -- R165
  | awaitTimeout (core task n : Nat) -- R165
  | podFenceComplete (switch : Nat) -- R329
  | cardStart (core task chain seq : Nat) -- R327
  | cardFault (core task chain seq : Nat) -- R207
  | cardComplete (core task chain seq : Nat) -- R293
  | tileTaskTake (quad : Nat) -- R299
  | powerGrant (die : Nat) -- R393
  | forcedGrant (die n : Nat) -- R393
  | pass (chan : Nat) -- R222
  | refreshSlot (chan : Nat) -- R210
  | directSlot (chan : Nat) -- R356
  | riderAdmit (ticket chan : Nat) -- R220
  | riderAlight (ticket : Nat) -- R224
  | kvsendLayerFlag (send : Nat) -- R285
  | seedIntake (core : Nat) -- R249
  | seedStart (core task : Nat) -- R252
  | taskRetire (core task : Nat) -- R305
  | recordTake (fn queue : Nat) -- R383
  | pickPass -- R389
  | lift (job : Nat) -- R388
  | deferExpiry (job : Nat) -- R339
  | cutComplete (job : Nat) -- R340
  | sweeplenWrite (chan : Nat) (v : Word32) -- R212
  | dshrWrite (chan : Nat) (v : Word32) -- R356
  | trainRequest (chan : Nat) -- R367
  | trainExit (chan : Nat) -- R367
  | trcmdReadTest (chan : Nat) (seed : BitVec 16) -- R368
  | trcmdWriteTest (chan : Nat) (seed : BitVec 16) -- R368
  | trainingTestDone (chan : Nat) (lanes : Word64) (spares : BitVec 2) -- R368
  | repairWrite (chan : Nat) (v : Word32) -- R358
  | ptrootWrite (part : Nat) (v : Word64) -- R371
  | kvPoolWrite (part reg : Nat) (v : Word64) -- R266
  | pabudgetWrite (die : Nat) (v : Word32) -- R416
  | oppointWrite (v : Word32) -- R415
  | oppointChangeDone -- R415
  | sysregWrite (by_ : RegBy) (num : Nat) (v : BitVec 512) -- R308
  | lqtailWrite (fn queue : Nat) (v : Word32) -- R382
  | lqsizeWrite (fn queue : Nat) (v : Word32) -- R382
  | lqbaseWrite (fn queue : Nat) (v : Word64) -- R382
  | winbaseWrite (fn : Nat) (v : Word64) -- R400
  | winerrClear (fn : Nat) (v : Word64) -- R399
  | hostWindowWrite (fn off : Nat) (bytes : List Byte) (poisoned : Bool) -- R400
  | hostWindowRead (fn off len : Nat) -- R400
  | hostAtomicopRequest (fn : Nat) -- R397
  | hostCompletionTimeout (core task n : Nat) -- R398
  | msixUnmask (fn vec : Nat) -- R401
  | functionLevelReset (fn : Nat) -- R402
  | vfEnableClear -- R402
  | remoteRequest (r : RemoteReq) -- R404
  | flitData (port : Nat) (f : Flit) -- R406
  | flitIdle (port : Nat) (f : Flit) -- R405
  | flitReplayRequest (port : Nat) (f : Flit) -- R406
  | flitLinkControl (port : Nat) (f : Flit) -- R405
  | portUp (port switch swport : Nat) -- R408
  | reset (img : Image) -- R410
  | bootcmdImage (img : Image) -- R410
  | bootcmdConfig (blk : ConfigBlock) -- R412
  | getVersion (m : SpdmMsg) -- R414
  | getCapabilities (m : SpdmMsg) -- R414
  | negotiateAlgorithms (m : SpdmMsg) -- R414
  | getDigests (m : SpdmMsg) -- R414
  | getCertificate (m : SpdmMsg) -- R414
  | challenge (m : SpdmMsg) -- R414
  | getMeasurements (m : SpdmMsg) -- R414
  | frzLAssert -- R417
  | freezectlWrite (v : Word32) -- R417
  | frzLRelease -- R418
  | resume -- R418
  | writeCombiningSend (n : Nat) -- R330
  deriving DecidableEq, Repr

/-- A register of a function's configuration space (Table 25.1, R401, R402). -/
inductive CfgReg where
  | numVfs
  | vfEnable
  | msixControl
  | uncorrectableStatus
  | serialLow
  | serialHigh
  deriving DecidableEq, Repr, Inhabited

/-- A request of the host to a function that the table of operations does not name: a read or write of BAR0 by offset, length and
data (R399), of the configuration space (R397), or one that uses a capability the device has not (R397). -/
inductive HostReq where
  | read (off len : Nat)
  | write (off len : Nat) (v : Word64)
  | cfgRead (r : CfgReg)
  | cfgWrite (r : CfgReg) (v : Word32)
  | other
  deriving DecidableEq, Repr, Inhabited

/-- One move of the abstract machine (R314). `fire` lets the node of a slot of a core's running phase fire, `seed`
executes the seed at the head of the running task's buffer, `ev` is a step of the table that is no block
instruction and no seed. The others are the model's own: one compute cycle of a core (R33, R47), one row or unit
of a started card (R204), an idle slot of a channel (R210), an error arising in a sector (R361), a sensor reading (R360), a status
write that has waited (R386), a kv transaction performed by its unit (R273), the write of another package's atomic (R322), a fill of an
L1 that no read makes, of a location in a compute-region page or in another (R317), a line that an L2 slice takes, with its tag and runs, or
drops (R154, R362), an idle flit sent on a port (R405), the packages
that a port reaches no more (R408), a request of the host (R397, R399), and the end of a boot command's check (R411). -/
inductive Move where
  | fire (core slot : Nat)
  | seed (core : Nat)
  | ev (i : Instr)
  | cycle (core : Nat)
  | cardRow (core task chain seq : Nat)
  | idleSlot (chan : Nat)
  | upset (sector : Nat) (corrected : Bool)
  | sensor (stack : Nat) (temp : Nat)
  | statusWrite (n : Nat)
  | kvTurn (core task : Nat) (held : Bool) (n : Nat)
  | homeWrite (n : Nat)
  | fill (core loc : Nat) (plain : Bool)
  | l2Fill (tag : Option (Nat × Nat × Nat)) (runs : List (Nat × Nat))
  | l2Drop (slice n : Nat)
  | idleFlit (port : Nat)
  | reach (port : Nat) (lost : List Nat)
  | host (fn : Nat) (r : HostReq)
  | bootCheck
  deriving DecidableEq, Repr, Inhabited

end Sys2Proof
end

