-- ==== Sys2Proof/Config.lean ====
section
/-! DEFINITION. What the spec leaves open: free values, each an uninterpreted constant with no body. -/

namespace Sys2Proof.Config

/-- The move made where State.moves names none: R314 lets any enabled move come next (log entry 4). -/
opaque choice : Nat → Move

/-- The raw pick of a special function by function number, format code and operand bits (R134: a fixed function of
the operand bits). The meaning maps it into the window that the bound of Table 7.4 leaves (log entry 5). -/
opaque special : Nat → Nat → Nat → Nat

/-- The digest of the identity public key, derived from the unclonable function at boot (R413; log entry 6). -/
opaque idDigest : BitVec 512

/-- The digest of the boot ROM, its first measurement (Table 26.3; log entry 6). -/
opaque romDigest : BitVec 512

/-- The bytes a pre-emption image puts into the save area: R342 names what it holds and no layout (log entry 7). -/
opaque imageByte : Nat → Nat → Byte

/-- Whether the key of the identity certificate in flash matches the key derived at this boot (R413; log entry 6). -/
opaque certMatches : Bool

/-- The bytes of an SPDM response by request code, request, the measurements held, the descriptor bit RECOV, and whether the identity
certificate is presented (R413, R414; log entry 6). -/
opaque spdmResponse : Nat → List Byte → List (Nat × BitVec 512) → Bool → Bool → List Byte

/-- The image that bytes of the boot buffer hold, as the firmware finds it (R410, R411; log entry 6). -/
opaque imageOf : List Byte → Image

/-- The configuration block that bytes of the boot buffer hold, as the firmware finds it (R411, R412; log entry 6). -/
opaque blockOf : List Byte → ConfigBlock

/-- The device serial number (Table 25.1; log entry 6). -/
opaque serial : BitVec 64

/-- The lanes of a channel that pass a test, and its spare lanes, by channel, kind (write), seed and the delays in force for the physical
lanes and the spares (R368; log entry 14). -/
opaque passes : Nat → Bool → BitVec 16 → BitVec 512 → Word32 → Word64 × BitVec 2

/-- The buffer that the payload of a data flit takes at the receiver, whose credit is returned (Table 25.4; log entry 8). -/
opaque flitChannel : List Byte → Nat

/-- The hash of destination package and PA[39:8] that selects a pod port (R407; log entry 8). -/
opaque portHash : Nat → Nat → Nat

/-- The payload bytes of a data flit by step and place: R405 gives the flit its size and no layout (log entry 12). -/
opaque flitByte : Nat → Nat → Byte

/-- The value the spec does not state, by the counter of uses (log entry 9). -/
opaque freeWord : Nat → Nat

/-- The router path that a firing's token takes from a slot to a target: R64 has every target but a chain wire go through the
routers, and names no path (log entry 101). -/
opaque routerPath : Nat → Nat → Nat

/-- A block of 16 bytes as one reading shows what another wrote, by the two readings and the block: the cipher of a stack,
whose keys no instruction or register reads (R365; log entry 80). -/
opaque cipher : Nat → Nat → Nat → Nat → Nat

end Sys2Proof.Config
end

