-- ==== Sys2Proof/WellFormed.lean ====
section
/-! DEFINITION. Which words are legal by their own fields (R60, R62, R67 to R69, R80 to R85): the checks 3 to 6
of Table 4.6 that no other word of the block bears on. Each answers the reason code of the first failure. -/

namespace Sys2Proof

/-! Type codes (R62, Table 3.5). -/

/-- Element width of a type code (Table 3.5; hx4 elements are 4 bits wide). -/
def typeWidth : Nat → Nat
  | 0 => 32 | 1 => 16 | 2 => 16 | 3 => 8 | 4 => 8 | 5 => 4 | 6 => 4 | 7 => 8 | 8 => 8 | 9 => 16 | 10 => 16
  | 11 => 32 | 12 => 32 | 13 => 64 | 14 => 64 | _ => 32

/-- Elements per token of a type code (Table 5.6). -/
def elemsPerToken (t : Nat) : Nat := 512 / typeWidth t

/-- I of Table 4.2: the integer types, codes 7 to 14. -/
def isInt (t : Nat) : Bool := 7 ≤ t && t ≤ 14

/-- The signed integer types: i8, i16, i32, i64. -/
def isSigned (t : Nat) : Bool := t == 7 || t == 9 || t == 11 || t == 13

/-- F of Table 4.2: fp32, bf16 and fp16. -/
def isF (t : Nat) : Bool := t ≤ 2

/-- F, F8 or e2m1: every floating-point format but hx4. -/
def isFloat (t : Nat) : Bool := t ≤ 5

/-- i32, n32, i64, n64. -/
def isWide (t : Nat) : Bool := 11 ≤ t && t ≤ 14

/-- i64 and n64. -/
def is64 (t : Nat) : Bool := t == 13 || t == 14

/-- The weight and activation types of Table 4.4: bf16, fp16, e4m3, e5m2, e2m1, hx4, i8. -/
def isMatrixType (t : Nat) : Bool := 1 ≤ t && t ≤ 7

/-- The ratio of element widths of a conversion (R138). -/
def widthRatio (t u : Nat) : Nat := max (typeWidth t) (typeWidth u) / min (typeWidth t) (typeWidth u)

/-! Stage words. -/

/-- Whether the opcode takes an immediate in place of port b (Table 4.2). -/
def stageTakesImm (op : Nat) : Bool :=
  (0x01 ≤ op && op ≤ 0x07) || (0x0A ≤ op && op ≤ 0x13) || op == 0x16 || (0x18 ≤ op && op ≤ 0x1A) ||
    (0x30 ≤ op && op ≤ 0x36) || op == 0x39 || op == 0x3A || op == 0x3D

/-- Check 4 of Table 4.6 for a stage word: TYPE and second type by Table 4.2, and Table 3.7 when BIMM = 1 where the opcode takes an
immediate; BIMM = 1 elsewhere fails check 6 (Table 7.11). -/
def stageTypeOk (op : Nat) (w : StageW) : Bool :=
  let t := w.ty.toNat
  let u := w.aux.toNat % 16
  let byTable :=
    if op ≤ 0x04 || op == 0x0A || op == 0x0B then isInt t
    else if op == 0x06 then isInt t && !is64 t
    else if op == 0x05 || op == 0x07 || op == 0x08 || op == 0x09 then isInt t
    else if op ≤ 0x0F then isInt t || t == 15
    else if op ≤ 0x15 then isInt t
    else if op == 0x16 then isInt t || isF t
    else if op == 0x17 then t != 6
    else if op ≤ 0x1A then isWide t
    else if op == 0x20 then t != 6
    else if op == 0x21 then true
    else if op == 0x22 || op == 0x23 then isWide t
    else if op == 0x24 || op == 0x25 then t == 11 || t == 12
    else if op == 0x26 then isInt t || isF t
    else if op == 0x27 then t == 0
    else if op == 0x28 || op == 0x29 then isInt t || isF t
    else if op ≤ 0x2D then t != 6
    else if op == 0x2E then t == 15
    else if op ≤ 0x48 then isF t
    else if op ≤ 0x4A then t == 0
    else if op == 0x50 then (isFloat t && isInt u) || (isInt t && isFloat u)
    else if op == 0x51 then isInt t && isInt u && t != u
    else if op == 0x52 then isFloat t && isFloat u && t != u
    else if op == 0x53 then t == 6 && isF u
    else if op == 0x54 then isF t && u == 6
    else if op == 0x55 then t == 6
    else t == 12
  let byImm := w.bimm.toNat == 0 || !(op == 0x20 || stageTakesImm op) ||
    (if t == 6 then false
     else if t == 3 || t == 4 || t == 7 || t == 8 then w.imm.toNat < 256
     else if t == 5 then w.imm.toNat < 16
     else if t == 15 then w.imm.toNat < 2
     else true)
  byTable && byImm

/-- Whether Table 4.2 gives the opcode any rounding mode. -/
def stageRndOk (op : Nat) (w : StageW) : Bool :=
  w.rnd.toNat == 0 ||
    (0x30 ≤ op && op ≤ 0x34) || op == 0x3C || op == 0x42 || op == 0x50 || op == 0x52 || op == 0x53 ||
    ((op == 0x28 || op == 0x29) && isF w.ty.toNat)

/-- Whether Table 4.2 gives the opcode SAT. -/
def stageSatOk (op : Nat) (w : StageW) : Bool :=
  w.sat.toNat == 0 || op == 0x05 || op == 0x07 || op == 0x08 || op == 0x09 || op == 0x10 ||
    (0x50 ≤ op && op ≤ 0x53)

/-- BIMM by Table 4.2, and IMM16 zero when BIMM = 0 (R69). -/
def stageBimmOk (op : Nat) (w : StageW) : Bool :=
  if op == 0x20 then w.bimm.toNat == 1
  else (w.bimm.toNat == 0 || stageTakesImm op) && (w.bimm.toNat == 1 || w.imm.toNat == 0)

/-- SUB by the variant table of the instruction (R84, R121, R123, R138, R140, R141). -/
def stageSubOk (op : Nat) (w : StageW) : Bool :=
  let n := w.sub.toNat
  let t := w.ty.toNat
  let u := w.aux.toNat % 16
  if op == 0x29 || op == 0x2B then n ≤ 1
  else if 0x50 ≤ op && op ≤ 0x52 then widthRatio t u ≤ 8 && n < widthRatio t u
  else if op == 0x53 then true
  else if op == 0x54 then t == 0 || n < 4
  else n == 0

/-- AUX by the variant table of the instruction (R84, R114, R117, R120, R122, R123, R131, R69). -/
def stageAuxOk (op : Nat) (w : StageW) : Bool :=
  let a := w.aux.toNat
  let t := w.ty.toNat
  if op == 0x16 then a ≤ 5
  else if op == 0x22 || op == 0x23 then a ≤ 15
  else if op == 0x28 || op == 0x29 then a ≤ (if isF t then 2 else 5)
  else if op == 0x2A then a < elemsPerToken t
  else if op == 0x2B then (a ≤ 15 || 241 ≤ a) && (!is64 t || a % 2 == 0)
  else if op == 0x3A then a ≤ 9
  else if 0x50 ≤ op && op ≤ 0x54 then a < 16
  else a == 0

/-- The checks 3, 4 and 6 of Table 4.6 on a stage word with this opcode. -/
def stageReason (op : Nat) (w : StageW) : Option Nat :=
  if w.pm.toNat == 3 then some 2
  else if !stageTypeOk op w then some 3
  else if !(stageRndOk op w && stageSatOk op w && stageBimmOk op w && stageSubOk op w && stageAuxOk op w) then some 5
  else if op == 0x23 && !(w.t0.toNat == 0x1FF && w.t1.toNat == 0x1FF) then some 6
  else none

/-! Memory words. -/

/-- Check 4 for a memory word (Table 4.3). -/
def memTypeOk (op t : Nat) : Bool :=
  if op ≤ 0x7A then true
  else if op == 0x7B then t == 12
  else if op == 0x7C then t == 0
  else if op == 0x8A then t == 0
  else isWide t

/-- Check 5 for a memory word: SCOPE by Table 4.3. -/
def memScopeOk (op sc : Nat) : Bool :=
  if op == 0x70 || op == 0x71 || (0x78 ≤ op && op ≤ 0x7B) then sc == 0 else sc ≤ 5

/-- Check 6 for a memory word: STRONG, ORDK, ORDNO, RECID and OFFSET (Table 4.3, R68, R82, R156, R169). -/
def memFieldsOk (op : Nat) (w : MemW) : Bool :=
  let k := w.ordk.toNat
  let sp := op == 0x70 || op == 0x71 || (0x78 ≤ op && op ≤ 0x7B)
  (!sp || (w.strong.toNat == 0 && k == 0)) &&
  (if op == 0x72 || op == 0x74 || op == 0x76 || op == 0x89 then k ≤ 1
   else if op == 0x73 || op == 0x75 || op == 0x77 then k == 0 || k == 2
   else if op == 0x7C then k != 0
   else true) &&
  (w.ordered.toNat == 1 || w.ordno.toNat == 0) &&
  (if 0x78 ≤ op && op ≤ 0x7A then w.recid.toNat ≤ 30 else if op == 0x7B then w.recid.toNat ≤ 31 else true) &&
  (if op == 0x7C then w.recid.toNat == 0 && w.off.toNat == 0
   else if op == 0x78 || op == 0x79 || op == 0x7B then w.off.toNat == 0 else true)

def memReason (op : Nat) (w : MemW) : Option Nat :=
  if w.pm.toNat == 3 then some 2
  else if !memTypeOk op w.ty.toNat then some 3
  else if !memScopeOk op w.scope.toNat then some 4
  else if !memFieldsOk op w then some 5
  else none

/-! Control-point words. -/

/-- PARAM by Table 9.1 for an opcode and mode; for `exit` in `call` and `jump` mode the register is in [3:0]. -/
def cpParamOk (op mode p : Nat) : Bool :=
  if op == 0xA1 || op == 0xA2 then mode == 0
  else if op == 0xA3 || op == 0xA9 then mode ≤ 1 && p == 0
  else if op == 0xA5 then mode == 0 && (p == 1 || p == 3 || p == 5 || p == 7)
  else if op == 0xA6 then mode == 0 && p ≤ 3
  else if op == 0xA7 then mode ≤ 4 && (if mode == 1 || mode == 3 then p < 16 else p == 0)
  else if op == 0xA8 then mode ≤ 1 && p == 0
  else mode == 0 && p == 0

def cpReason (op mode : Nat) (w : CpW) : Option Nat :=
  if w.pm.toNat != 0 then some 2
  else if w.ty.toNat != 0 then some 3
  else if !cpParamOk op mode w.param.toNat then some 5
  else if op == 0xA7 && !(w.t0.toNat == 0x1FF && w.t1.toNat == 0x1FF && w.t2.toNat == 0x1FF && w.t3.toNat == 0x1FF) then some 6
  else none

/-! Reorder words. -/

/-- The group size S in elements (R182 to R185). -/
def reorderGroup (op : Nat) (w : ReW) : Nat :=
  if op == 0xB2 then elemsPerToken w.ty.toNat * elemsPerToken w.ty.toNat
  else (w.innerM1.toNat + 1) * (w.outerM1.toNat + 1)

def reorderFieldsOk (op : Nat) (w : ReW) : Bool :=
  (if op == 0xB1 then w.istride.toNat == 0 && w.ostride.toNat == 0
   else if op == 0xB2 then w.innerM1.toNat == 0 && w.outerM1.toNat == 0 && w.istride.toNat == 0 && w.ostride.toNat == 0
   else true) &&
  reorderGroup op w * typeWidth w.ty.toNat ≤ 131072 && reorderGroup op w % elemsPerToken w.ty.toNat == 0

def reorderReason (op : Nat) (w : ReW) : Option Nat :=
  if w.pm.toNat == 3 then some 2
  else if w.ty.toNat == 6 then some 3
  else if !reorderFieldsOk op w then some 5
  else none

/-! Engine-port words. -/

/-- SUB by Tables 10.1, 11.3, 14.7 and R271, R294. -/
def epSubOk (op sub : Nat) : Bool :=
  if op == 0xBF then sub ≤ 3
  else if 0xB8 ≤ op && op ≤ 0xC0 then sub ≤ 1
  else if op == 0xCC then sub ≤ 7
  else if op == 0xD4 then sub ≤ 3
  else if 0xD8 ≤ op && op ≤ 0xDA then sub ≤ 1
  else if op == 0xE3 then sub ≤ 1
  else if op == 0xF0 then sub ≤ 3
  else if op == 0xF3 || op == 0xFA then sub ≤ 1
  else sub == 0

/-- TYPE by Table 4.4. -/
def epTypeOk (op t : Nat) : Bool :=
  if op == 0xB8 || op == 0xB9 || op == 0xBF || op == 0xC0 then isMatrixType t
  else if op == 0xBA then t == 0 || (t != 5 && isMatrixType t)
  else if op == 0xBD || op == 0xBE then t ≤ 1
  else t == 0

/-- ESCOPE by Table 4.4. -/
def epScopeOk (op sc : Nat) : Bool :=
  if op == 0xD8 then sc ≤ 5
  else if op == 0xD9 then 1 ≤ sc && sc ≤ 5
  else if op == 0xDA then sc == 1 || sc == 2
  else if op == 0xF0 || op == 0xF1 then sc ≤ 4
  else sc == 0

/-- Whether the opcode's two target fields must hold 0x1FF (R242, R300). -/
def epNoTarget (op : Nat) : Bool := op == 0xD3 || op == 0xF3 || op == 0xF4 || op == 0xF6 || op == 0xF7

def epReason (op sub : Nat) (w : EpW) : Option Nat :=
  if w.pm.toNat == 3 || (0xF0 ≤ op && w.pm.toNat != 0) then some 2
  else if !epTypeOk op w.ty.toNat then some 3
  else if !epScopeOk op w.escope.toNat then some 4
  else if !(epSubOk op sub && w.params.toNat == 0) then some 5
  else if epNoTarget op && !(w.t0.toNat == 0x1FF && w.t1.toNat == 0x1FF) then some 6
  else none

/-! Husks. -/

/-- FMT by Table 4.5. -/
def seedFmtOk (sop f : Nat) : Bool :=
  if sop == 1 || sop == 2 then isMatrixType f
  else if sop == 3 || sop == 4 then f ≤ 2
  else if sop == 5 then f ≤ 1
  else if sop == 6 then f ≤ 4
  else if sop == 7 then f ≤ 4 || f == 6
  else if sop ≤ 12 then f == 0
  else f ≤ 3 || f == 6

/-- COMP by Table 4.5. -/
def seedCompOk (sop c : Nat) : Bool := c == 0 || (c == 1 && (sop ≤ 5 || sop == 13))

/-- RSEL by Table 3.14, every bit not listed being zero. -/
def routeOk (rmode rsel : Nat) : Bool :=
  match rmode with
  | 0 => rsel < 512
  | 1 => rsel < 128
  | 2 => bitsOf rsel 15 5 ≤ bitsOf rsel 10 5 && bitsOf rsel 20 2 < 4 && bitsOf rsel 4 6 == 0
  | _ => rsel % 1048576 == 0

/-- The 15 covered bytes of a husk, from [127:120] down (R77). -/
def Husk.covered (sop : Nat) (h : Husk) : List Nat :=
  let n := sop * 2 ^ 120 + h.fmt.toNat * 2 ^ 116 + h.comp.toNat * 2 ^ 112 + h.rmode.toNat * 2 ^ 110 + h.rsel.toNat * 2 ^ 88
    + h.link.toNat * 2 ^ 56 + h.plen.toNat * 2 ^ 40 + h.rows16.toNat * 2 ^ 32 + h.cols16.toNat * 2 ^ 24
    + h.accrow.toNat * 2 ^ 12 + h.abuf.toNat * 2 ^ 8
  (List.range 15).map fun i => bitsOf n (120 - 8 * i) 8

/-- One step of the CRC-8 of R77 for a byte. -/
def crc8Byte (crc v : Nat) : Nat :=
  (List.range 8).foldl (fun c _ => if c / 128 % 2 == 1 then (c * 2 % 256) ^^^ 7 else c * 2 % 256) (crc ^^^ v)

/-- HCHK of R77. -/
def Husk.crc (sop : Nat) (h : Husk) : Nat := (h.covered sop).foldl crc8Byte 0

def huskOk (sop : Nat) (h : Husk) : Bool :=
  h.crc sop == h.hchk.toNat && seedFmtOk sop h.fmt.toNat && seedCompOk sop h.comp.toNat &&
    routeOk h.rmode.toNat h.rsel.toNat && 1 ≤ h.plen.toNat

/-! Instructions. -/

/-- The opcode of a block instruction or the seed opcode of a seed (Tables 4.1 and 4.5); 0 for an event. -/
def Instr.op : Instr → Nat
  | .vadd _ => 0x01 | .vsub _ => 0x02 | .vaddsat _ => 0x03 | .vsubsat _ => 0x04 | .vmul _ => 0x05
  | .vmulhi _ => 0x06 | .vmad _ => 0x07 | .vneg _ => 0x08 | .vabs _ => 0x09 | .vmin _ => 0x0A
  | .vmax _ => 0x0B | .vand _ => 0x0C | .vor _ => 0x0D | .vxor _ => 0x0E | .vandn _ => 0x0F
  | .vshl _ => 0x10 | .vshr _ => 0x11 | .vsra _ => 0x12 | .vrotl _ => 0x13 | .vclz _ => 0x14
  | .vpopc _ => 0x15 | .vcmp _ => 0x16 | .vsel _ => 0x17 | .vext _ => 0x18 | .vbfx _ => 0x19
  | .vbfi _ => 0x1A | .const _ => 0x20 | .dup _ => 0x21 | .rdb _ => 0x22 | .wrb _ => 0x23
  | .itr _ => 0x24 | .lidx _ => 0x25 | .mkpred _ => 0x26 | .nul _ => 0x27 | .lred _ => 0x28
  | .lscan _ => 0x29 | .lbcast _ => 0x2A | .lshift _ => 0x2B | .lperm _ => 0x2C | .lpack _ => 0x2D
  | .lcount _ => 0x2E | .fadd _ => 0x30 | .fsub _ => 0x31 | .fmul _ => 0x32 | .fma _ => 0x33
  | .fnma _ => 0x34 | .fmin _ => 0x35 | .fmax _ => 0x36 | .fabs _ => 0x37 | .fneg _ => 0x38
  | .fcpsgn _ => 0x39 | .fcmp _ => 0x3A | .fclass _ => 0x3B | .frnd _ => 0x3C | .fscaleb _ => 0x3D
  | .fgetexp _ => 0x3E | .fgetman _ => 0x3F | .frcp _ => 0x40 | .frsq _ => 0x41 | .fsqrt _ => 0x42
  | .fexp2 _ => 0x43 | .flog2 _ => 0x44 | .ftanh _ => 0x45 | .fsin _ => 0x46 | .fcos _ => 0x47
  | .fsigm _ => 0x48 | .smref _ => 0x49 | .smexp _ => 0x4A | .cvt _ => 0x50 | .cvti _ => 0x51
  | .cvtf _ => 0x52 | .blkpack _ => 0x53 | .blkunpack _ => 0x54 | .blkscale _ => 0x55 | .bpc _ => 0x56
  | .bpx _ => 0x57 | .ldSp _ => 0x70 | .stSp _ => 0x71 | .ldD _ => 0x72 | .stD _ => 0x73
  | .ldt _ => 0x74 | .stt _ => 0x75 | .ldg _ => 0x76 | .stg _ => 0x77 | .cbpush _ => 0x78
  | .cbpop _ => 0x79 | .cbpeek _ => 0x7A | .cbstat _ => 0x7B | .fence _ => 0x7C | .aadd _ => 0x80
  | .amin _ => 0x81 | .amax _ => 0x82 | .aand _ => 0x83 | .aor _ => 0x84 | .axor _ => 0x85
  | .axchg _ => 0x86 | .acas _ => 0x87 | .aaddw _ => 0x88 | .await _ => 0x89 | .afadd _ => 0x8A
  | .steer _ => 0xA0 | .carry _ => 0xA1 | .inv _ => 0xA2 | .mergeSel _ => 0xA3 | .mergeAny _ => 0xA3
  | .fan _ => 0xA4 | .join _ => 0xA5 | .order _ => 0xA6 | .exitSel _ => 0xA7 | .exitCall _ => 0xA7
  | .exitRet _ => 0xA7 | .exitJump _ => 0xA7 | .exitBr _ => 0xA7 | .gatePass _ => 0xA8 | .gateBrk _ => 0xA8
  | .nulchkIsnull _ => 0xA9 | .nulchkPresent _ => 0xA9 | .reord _ => 0xB0 | .xpose _ => 0xB1 | .corner _ => 0xB2
  | .mlatch _ _ => 0xB8 | .mstream _ _ => 0xB9 | .mdrain _ _ => 0xBA | .accclr _ _ => 0xBB | .accscale _ _ => 0xBC
  | .accld _ _ => 0xBD | .accst _ _ => 0xBE | .mxv _ _ => 0xBF | .munfold _ _ => 0xC0 | .brd _ => 0xC8
  | .bsum _ => 0xC9 | .bflt _ => 0xCA | .bdep _ => 0xCB | .bupdIadd _ => 0xCC | .bupdFadd _ => 0xCC
  | .bupdImin _ => 0xCC | .bupdImax _ => 0xCC | .bupdAnd _ => 0xCC | .bupdOr _ => 0xCC | .bupdXor _ => 0xCC
  | .bupdSet _ => 0xCC | .bmac _ => 0xCD | .batt _ => 0xCE | .bclone _ => 0xCF | .bcfg _ => 0xD0
  | .bcancel _ => 0xD1 | .bwait _ => 0xD2 | .wdrive _ => 0xD3 | .bstandRd _ => 0xD4 | .bstandSum _ => 0xD4
  | .bstandFlt _ => 0xD4 | .bstandAtt _ => 0xD4 | .cursor _ => 0xD5 | .copy _ _ => 0xD8 | .coll _ _ => 0xD9
  | .ringx _ _ => 0xDA | .kvopen _ => 0xDB | .kvfork _ => 0xDC | .kvreserve _ => 0xDD | .kvwin _ => 0xDE
  | .kvcommit _ => 0xDF | .kvabort _ => 0xE0 | .kvlen _ => 0xE1 | .kvclose _ => 0xE2 | .kvsend _ _ => 0xE3
  | .kvarm _ => 0xE4 | .kvsnap _ => 0xE5 | .barA _ => 0xF0 | .barW _ => 0xF0 | .barAw _ => 0xF0
  | .barLv _ => 0xF0 | .msend _ => 0xF1 | .bind _ => 0xF2 | .yield _ => 0xF3 | .yieldWait _ => 0xF3
  | .endTask _ => 0xF4 | .waitseq _ => 0xF5 | .trap _ => 0xF6 | .eret _ => 0xF7 | .sysrd _ => 0xF8
  | .syswr _ => 0xF9 | .tlbinvPg _ => 0xFA | .tlbinvAll _ => 0xFA | .launch _ => 0xFB | .pmrd _ => 0xFC
  | .smm _ => 0x01 | .smmz _ => 0x02 | .svec _ => 0x03 | .sbias _ => 0x04 | .snorm _ => 0x05
  | .sact _ => 0x06 | .sdrain _ => 0x07 | .sjump _ => 0x08 | .scall _ => 0x09 | .sexit _ => 0x0A
  | .sbar _ => 0x0B | .spad _ => 0x0C | .sembed _ => 0x0D
  | _ => 0

/-- MODE of a control point and SUB of an engine-port instruction, where the constructor fixes or carries it. -/
def Instr.variant : Instr → Nat
  | .mergeAny _ => 1 | .exitCall _ => 1 | .exitRet _ => 2 | .exitJump _ => 3 | .exitBr _ => 4 | .gateBrk _ => 1
  | .nulchkPresent _ => 1
  | .mlatch _ n => n.toNat | .mstream _ n => n.toNat | .mdrain _ n => n.toNat | .accclr _ n => n.toNat
  | .accscale _ n => n.toNat | .accld _ n => n.toNat | .accst _ n => n.toNat | .mxv _ n => n.toNat | .munfold _ n => n.toNat
  | .bupdFadd _ => 1 | .bupdImin _ => 2 | .bupdImax _ => 3 | .bupdAnd _ => 4 | .bupdOr _ => 5 | .bupdXor _ => 6 | .bupdSet _ => 7
  | .bstandSum _ => 1 | .bstandFlt _ => 2 | .bstandAtt _ => 3
  | .copy _ n => n.toNat | .coll _ n => n.toNat | .ringx _ n => n.toNat | .kvsend _ n => n.toNat
  | .barW _ => 1 | .barAw _ => 2 | .barLv _ => 3 | .yieldWait _ => 1 | .tlbinvAll _ => 1
  | _ => 0

/-- The fields of a block instruction or seed, by class. -/
inductive Fields where
  | stage (w : StageW)
  | mem (w : MemW)
  | cp (w : CpW)
  | re (w : ReW)
  | ep (w : EpW)
  | seed (h : Husk)
  | event
  deriving DecidableEq, Repr

def Instr.fields : Instr → Fields
  | .vadd w => .stage w | .vsub w => .stage w | .vaddsat w => .stage w | .vsubsat w => .stage w
  | .vmul w => .stage w | .vmulhi w => .stage w | .vmad w => .stage w | .vneg w => .stage w
  | .vabs w => .stage w | .vmin w => .stage w | .vmax w => .stage w | .vand w => .stage w
  | .vor w => .stage w | .vxor w => .stage w | .vandn w => .stage w | .vshl w => .stage w
  | .vshr w => .stage w | .vsra w => .stage w | .vrotl w => .stage w | .vclz w => .stage w
  | .vpopc w => .stage w | .vcmp w => .stage w | .vsel w => .stage w | .vext w => .stage w
  | .vbfx w => .stage w | .vbfi w => .stage w | .const w => .stage w | .dup w => .stage w
  | .rdb w => .stage w | .wrb w => .stage w | .itr w => .stage w | .lidx w => .stage w
  | .mkpred w => .stage w | .nul w => .stage w | .lred w => .stage w | .lscan w => .stage w
  | .lbcast w => .stage w | .lshift w => .stage w | .lperm w => .stage w | .lpack w => .stage w
  | .lcount w => .stage w | .fadd w => .stage w | .fsub w => .stage w | .fmul w => .stage w
  | .fma w => .stage w | .fnma w => .stage w | .fmin w => .stage w | .fmax w => .stage w
  | .fabs w => .stage w | .fneg w => .stage w | .fcpsgn w => .stage w | .fcmp w => .stage w
  | .fclass w => .stage w | .frnd w => .stage w | .fscaleb w => .stage w | .fgetexp w => .stage w
  | .fgetman w => .stage w | .frcp w => .stage w | .frsq w => .stage w | .fsqrt w => .stage w
  | .fexp2 w => .stage w | .flog2 w => .stage w | .ftanh w => .stage w | .fsin w => .stage w
  | .fcos w => .stage w | .fsigm w => .stage w | .smref w => .stage w | .smexp w => .stage w
  | .cvt w => .stage w | .cvti w => .stage w | .cvtf w => .stage w | .blkpack w => .stage w
  | .blkunpack w => .stage w | .blkscale w => .stage w | .bpc w => .stage w | .bpx w => .stage w
  | .ldSp w => .mem w | .stSp w => .mem w | .ldD w => .mem w | .stD w => .mem w
  | .ldt w => .mem w | .stt w => .mem w | .ldg w => .mem w | .stg w => .mem w
  | .cbpush w => .mem w | .cbpop w => .mem w | .cbpeek w => .mem w | .cbstat w => .mem w
  | .fence w => .mem w | .aadd w => .mem w | .amin w => .mem w | .amax w => .mem w
  | .aand w => .mem w | .aor w => .mem w | .axor w => .mem w | .axchg w => .mem w
  | .acas w => .mem w | .aaddw w => .mem w | .await w => .mem w | .afadd w => .mem w
  | .steer w => .cp w | .carry w => .cp w | .inv w => .cp w | .mergeSel w => .cp w
  | .mergeAny w => .cp w | .fan w => .cp w | .join w => .cp w | .order w => .cp w
  | .exitSel w => .cp w | .exitCall w => .cp w | .exitRet w => .cp w | .exitJump w => .cp w
  | .exitBr w => .cp w | .gatePass w => .cp w | .gateBrk w => .cp w | .nulchkIsnull w => .cp w
  | .nulchkPresent w => .cp w | .reord w => .re w | .xpose w => .re w | .corner w => .re w
  | .mlatch w _ => .ep w | .mstream w _ => .ep w | .mdrain w _ => .ep w | .accclr w _ => .ep w
  | .accscale w _ => .ep w | .accld w _ => .ep w | .accst w _ => .ep w | .mxv w _ => .ep w
  | .munfold w _ => .ep w | .brd w => .ep w | .bsum w => .ep w | .bflt w => .ep w
  | .bdep w => .ep w | .bupdIadd w => .ep w | .bupdFadd w => .ep w | .bupdImin w => .ep w
  | .bupdImax w => .ep w | .bupdAnd w => .ep w | .bupdOr w => .ep w | .bupdXor w => .ep w
  | .bupdSet w => .ep w | .bmac w => .ep w | .batt w => .ep w | .bclone w => .ep w
  | .bcfg w => .ep w | .bcancel w => .ep w | .bwait w => .ep w | .wdrive w => .ep w
  | .bstandRd w => .ep w | .bstandSum w => .ep w | .bstandFlt w => .ep w | .bstandAtt w => .ep w
  | .cursor w => .ep w | .copy w _ => .ep w | .coll w _ => .ep w | .ringx w _ => .ep w
  | .kvopen w => .ep w | .kvfork w => .ep w | .kvreserve w => .ep w | .kvwin w => .ep w
  | .kvcommit w => .ep w | .kvabort w => .ep w | .kvlen w => .ep w | .kvclose w => .ep w
  | .kvsend w _ => .ep w | .kvarm w => .ep w | .kvsnap w => .ep w | .barA w => .ep w
  | .barW w => .ep w | .barAw w => .ep w | .barLv w => .ep w | .msend w => .ep w
  | .bind w => .ep w | .yield w => .ep w | .yieldWait w => .ep w | .endTask w => .ep w
  | .waitseq w => .ep w | .trap w => .ep w | .eret w => .ep w | .sysrd w => .ep w
  | .syswr w => .ep w | .tlbinvPg w => .ep w | .tlbinvAll w => .ep w | .launch w => .ep w
  | .pmrd w => .ep w | .smm w => .seed w | .smmz w => .seed w | .svec w => .seed w
  | .sbias w => .seed w | .snorm w => .seed w | .sact w => .seed w | .sdrain w => .seed w
  | .sjump w => .seed w | .scall w => .seed w | .sexit w => .seed w | .sbar w => .seed w
  | .spad w => .seed w | .sembed w => .seed w
  | _ => .event

/-- Well-formed by its own fields: legal for a block instruction (Table 4.6, checks 3 to 6), checked for a husk
(Table 3.15), and always for an event, whose operands come from outside. -/
def Instr.wf (i : Instr) : Bool :=
  match i.fields with
  | .stage w => (stageReason i.op w).isNone
  | .mem w => (memReason i.op w).isNone
  | .cp w => (cpReason i.op i.variant w).isNone
  | .re w => (reorderReason i.op w).isNone
  | .ep w => (epReason i.op i.variant w).isNone
  | .seed h => huskOk i.op h
  | .event => true

end Sys2Proof
end

