-- ==== Sys2Proof/Decode.lean ====
section
/-! DEFINITION. Reading words and husks (R60, R68, R74, Tables 3.4 to 3.10 and 3.13), rejecting by name what no
row of Tables 4.1 and 4.5 gives, and the encoder written from the same tables. -/

namespace Sys2Proof

/-- Why a word or husk is read as no instruction. -/
inductive DecodeError where
  /-- The empty-slot word of R60. -/
  | empty
  /-- Opcode 0x00 with another bit set (R60). -/
  | emptyNotZero
  /-- A reserved cell of Table 4.1. -/
  | reservedOpcode
  /-- Bit [24] of a stage word is set (Table 3.6). -/
  | stageZeroBit
  /-- MODE is in no variant table of the control point (R84). -/
  | reservedMode
  /-- SUB is in no variant table of the engine-port instruction (R84). -/
  | reservedSub
  /-- SOP is no seed opcode (R85). -/
  | reservedSeed
  deriving DecidableEq, Repr

/-- The number that bytes in ascending address order hold (R55). -/
def leNat : List Byte → Nat
  | [] => 0
  | b :: bs => b.toNat + 256 * leNat bs

/-- Byte k of a number (R55). -/
def byteOf (x k : Nat) : Byte := BitVec.ofNat 8 (x / 256 ^ k)

/-- The n bytes of a number in ascending address order (R55). -/
def leBytes (n x : Nat) : List Byte := (List.range n).map (byteOf x)

/-- OPCODE (Table 3.4). -/
def wordOp (x : BitVec 64) : Nat := (x.extractLsb' 56 8).toNat

/-- A stage word by Tables 3.4 and 3.6. -/
def readStage (x : BitVec 64) : StageW where
  pm := x.extractLsb' 54 2
  ty := x.extractLsb' 50 4
  t0 := x.extractLsb' 41 9
  t1 := x.extractLsb' 32 9
  sub := x.extractLsb' 29 3
  rnd := x.extractLsb' 27 2
  sat := x.extractLsb' 26 1
  bimm := x.extractLsb' 25 1
  aux := x.extractLsb' 16 8
  imm := x.extractLsb' 0 16

/-- A memory word by Tables 3.4 and 3.8. -/
def readMem (x : BitVec 64) : MemW where
  pm := x.extractLsb' 54 2
  ty := x.extractLsb' 50 4
  t0 := x.extractLsb' 41 9
  t1 := x.extractLsb' 32 9
  scope := x.extractLsb' 29 3
  strong := x.extractLsb' 28 1
  ordk := x.extractLsb' 26 2
  ordered := x.extractLsb' 25 1
  ordno := x.extractLsb' 18 7
  recid := x.extractLsb' 12 6
  off := x.extractLsb' 0 12

/-- A control-point word by Tables 3.4 and 3.9. -/
def readCp (x : BitVec 64) : CpW where
  pm := x.extractLsb' 54 2
  ty := x.extractLsb' 50 4
  t0 := x.extractLsb' 41 9
  t1 := x.extractLsb' 32 9
  t2 := x.extractLsb' 19 9
  t3 := x.extractLsb' 10 9
  param := x.extractLsb' 0 10

/-- A reorder word by Tables 3.4 and 3.10. -/
def readRe (x : BitVec 64) : ReW where
  pm := x.extractLsb' 54 2
  ty := x.extractLsb' 50 4
  t0 := x.extractLsb' 41 9
  t1 := x.extractLsb' 32 9
  innerM1 := x.extractLsb' 24 8
  outerM1 := x.extractLsb' 16 8
  istride := x.extractLsb' 8 8
  ostride := x.extractLsb' 0 8

/-- An engine-port word by Tables 3.4 and 3.10. -/
def readEp (x : BitVec 64) : EpW where
  pm := x.extractLsb' 54 2
  ty := x.extractLsb' 50 4
  t0 := x.extractLsb' 41 9
  t1 := x.extractLsb' 32 9
  escope := x.extractLsb' 21 3
  params := x.extractLsb' 0 21

/-- A husk by Table 3.13. -/
def readHusk (x : BitVec 128) : Husk where
  fmt := x.extractLsb' 116 4
  comp := x.extractLsb' 112 4
  rmode := x.extractLsb' 110 2
  rsel := x.extractLsb' 88 22
  link := x.extractLsb' 56 32
  plen := x.extractLsb' 40 16
  rows16 := x.extractLsb' 32 8
  cols16 := x.extractLsb' 24 8
  accrow := x.extractLsb' 12 12
  abuf := x.extractLsb' 8 4
  hchk := x.extractLsb' 0 8

/-- The stage rows of Table 4.1. -/
def stageInstr (op : Nat) (w : StageW) : Except DecodeError Instr :=
  match op with
  | 0x01 => .ok (.vadd w) | 0x02 => .ok (.vsub w) | 0x03 => .ok (.vaddsat w)
  | 0x04 => .ok (.vsubsat w) | 0x05 => .ok (.vmul w) | 0x06 => .ok (.vmulhi w)
  | 0x07 => .ok (.vmad w) | 0x08 => .ok (.vneg w) | 0x09 => .ok (.vabs w)
  | 0x0A => .ok (.vmin w) | 0x0B => .ok (.vmax w) | 0x0C => .ok (.vand w)
  | 0x0D => .ok (.vor w) | 0x0E => .ok (.vxor w) | 0x0F => .ok (.vandn w)
  | 0x10 => .ok (.vshl w) | 0x11 => .ok (.vshr w) | 0x12 => .ok (.vsra w)
  | 0x13 => .ok (.vrotl w) | 0x14 => .ok (.vclz w) | 0x15 => .ok (.vpopc w)
  | 0x16 => .ok (.vcmp w) | 0x17 => .ok (.vsel w) | 0x18 => .ok (.vext w)
  | 0x19 => .ok (.vbfx w) | 0x1A => .ok (.vbfi w) | 0x20 => .ok (.const w)
  | 0x21 => .ok (.dup w) | 0x22 => .ok (.rdb w) | 0x23 => .ok (.wrb w)
  | 0x24 => .ok (.itr w) | 0x25 => .ok (.lidx w) | 0x26 => .ok (.mkpred w)
  | 0x27 => .ok (.nul w) | 0x28 => .ok (.lred w) | 0x29 => .ok (.lscan w)
  | 0x2A => .ok (.lbcast w) | 0x2B => .ok (.lshift w) | 0x2C => .ok (.lperm w)
  | 0x2D => .ok (.lpack w) | 0x2E => .ok (.lcount w) | 0x30 => .ok (.fadd w)
  | 0x31 => .ok (.fsub w) | 0x32 => .ok (.fmul w) | 0x33 => .ok (.fma w)
  | 0x34 => .ok (.fnma w) | 0x35 => .ok (.fmin w) | 0x36 => .ok (.fmax w)
  | 0x37 => .ok (.fabs w) | 0x38 => .ok (.fneg w) | 0x39 => .ok (.fcpsgn w)
  | 0x3A => .ok (.fcmp w) | 0x3B => .ok (.fclass w) | 0x3C => .ok (.frnd w)
  | 0x3D => .ok (.fscaleb w) | 0x3E => .ok (.fgetexp w) | 0x3F => .ok (.fgetman w)
  | 0x40 => .ok (.frcp w) | 0x41 => .ok (.frsq w) | 0x42 => .ok (.fsqrt w)
  | 0x43 => .ok (.fexp2 w) | 0x44 => .ok (.flog2 w) | 0x45 => .ok (.ftanh w)
  | 0x46 => .ok (.fsin w) | 0x47 => .ok (.fcos w) | 0x48 => .ok (.fsigm w)
  | 0x49 => .ok (.smref w) | 0x4A => .ok (.smexp w) | 0x50 => .ok (.cvt w)
  | 0x51 => .ok (.cvti w) | 0x52 => .ok (.cvtf w) | 0x53 => .ok (.blkpack w)
  | 0x54 => .ok (.blkunpack w) | 0x55 => .ok (.blkscale w) | 0x56 => .ok (.bpc w)
  | 0x57 => .ok (.bpx w)
  | _ => .error .reservedOpcode

/-- The memory rows of Table 4.1. -/
def memInstr (op : Nat) (w : MemW) : Except DecodeError Instr :=
  match op with
  | 0x70 => .ok (.ldSp w) | 0x71 => .ok (.stSp w) | 0x72 => .ok (.ldD w)
  | 0x73 => .ok (.stD w) | 0x74 => .ok (.ldt w) | 0x75 => .ok (.stt w)
  | 0x76 => .ok (.ldg w) | 0x77 => .ok (.stg w) | 0x78 => .ok (.cbpush w)
  | 0x79 => .ok (.cbpop w) | 0x7A => .ok (.cbpeek w) | 0x7B => .ok (.cbstat w)
  | 0x7C => .ok (.fence w) | 0x80 => .ok (.aadd w) | 0x81 => .ok (.amin w)
  | 0x82 => .ok (.amax w) | 0x83 => .ok (.aand w) | 0x84 => .ok (.aor w)
  | 0x85 => .ok (.axor w) | 0x86 => .ok (.axchg w) | 0x87 => .ok (.acas w)
  | 0x88 => .ok (.aaddw w) | 0x89 => .ok (.await w) | 0x8A => .ok (.afadd w)
  | _ => .error .reservedOpcode

/-- The control-point row of Table 4.1, MODE by the variant tables of 09. -/
def cpInstr (op mode : Nat) (w : CpW) : Except DecodeError Instr :=
  match op, mode with
  | 0xA0, 0 => .ok (.steer w)
  | 0xA1, 0 => .ok (.carry w)
  | 0xA2, 0 => .ok (.inv w)
  | 0xA3, 0 => .ok (.mergeSel w)
  | 0xA3, 1 => .ok (.mergeAny w)
  | 0xA4, 0 => .ok (.fan w)
  | 0xA5, 0 => .ok (.join w)
  | 0xA6, 0 => .ok (.order w)
  | 0xA7, 0 => .ok (.exitSel w)
  | 0xA7, 1 => .ok (.exitCall w)
  | 0xA7, 2 => .ok (.exitRet w)
  | 0xA7, 3 => .ok (.exitJump w)
  | 0xA7, 4 => .ok (.exitBr w)
  | 0xA8, 0 => .ok (.gatePass w)
  | 0xA8, 1 => .ok (.gateBrk w)
  | 0xA9, 0 => .ok (.nulchkIsnull w)
  | 0xA9, 1 => .ok (.nulchkPresent w)
  | 0xA0, _ => .error .reservedMode
  | 0xA1, _ => .error .reservedMode
  | 0xA2, _ => .error .reservedMode
  | 0xA3, _ => .error .reservedMode
  | 0xA4, _ => .error .reservedMode
  | 0xA5, _ => .error .reservedMode
  | 0xA6, _ => .error .reservedMode
  | 0xA7, _ => .error .reservedMode
  | 0xA8, _ => .error .reservedMode
  | 0xA9, _ => .error .reservedMode
  | _, _ => .error .reservedOpcode

/-- The reorder rows of Table 4.1. -/
def reInstr (op : Nat) (w : ReW) : Except DecodeError Instr :=
  match op with
  | 0xB0 => .ok (.reord w) | 0xB1 => .ok (.xpose w) | 0xB2 => .ok (.corner w)
  | _ => .error .reservedOpcode

/-- The engine-port rows of Table 4.1, SUB by the variant tables of 10 to 14. -/
def epInstr (op : Nat) (sub : BitVec 8) (w : EpW) : Except DecodeError Instr :=
  match op with
  | 0xB8 => .ok (.mlatch w sub)
  | 0xB9 => .ok (.mstream w sub)
  | 0xBA => .ok (.mdrain w sub)
  | 0xBB => .ok (.accclr w sub)
  | 0xBC => .ok (.accscale w sub)
  | 0xBD => .ok (.accld w sub)
  | 0xBE => .ok (.accst w sub)
  | 0xBF => .ok (.mxv w sub)
  | 0xC0 => .ok (.munfold w sub)
  | 0xC8 => if sub.toNat = 0 then .ok (.brd w) else .error .reservedSub
  | 0xC9 => if sub.toNat = 0 then .ok (.bsum w) else .error .reservedSub
  | 0xCA => if sub.toNat = 0 then .ok (.bflt w) else .error .reservedSub
  | 0xCB => if sub.toNat = 0 then .ok (.bdep w) else .error .reservedSub
  | 0xCC =>
    match sub.toNat with
    | 0 => .ok (.bupdIadd w)
    | 1 => .ok (.bupdFadd w)
    | 2 => .ok (.bupdImin w)
    | 3 => .ok (.bupdImax w)
    | 4 => .ok (.bupdAnd w)
    | 5 => .ok (.bupdOr w)
    | 6 => .ok (.bupdXor w)
    | 7 => .ok (.bupdSet w)
    | _ => .error .reservedSub
  | 0xCD => if sub.toNat = 0 then .ok (.bmac w) else .error .reservedSub
  | 0xCE => if sub.toNat = 0 then .ok (.batt w) else .error .reservedSub
  | 0xCF => if sub.toNat = 0 then .ok (.bclone w) else .error .reservedSub
  | 0xD0 => if sub.toNat = 0 then .ok (.bcfg w) else .error .reservedSub
  | 0xD1 => if sub.toNat = 0 then .ok (.bcancel w) else .error .reservedSub
  | 0xD2 => if sub.toNat = 0 then .ok (.bwait w) else .error .reservedSub
  | 0xD3 => if sub.toNat = 0 then .ok (.wdrive w) else .error .reservedSub
  | 0xD4 =>
    match sub.toNat with
    | 0 => .ok (.bstandRd w)
    | 1 => .ok (.bstandSum w)
    | 2 => .ok (.bstandFlt w)
    | 3 => .ok (.bstandAtt w)
    | _ => .error .reservedSub
  | 0xD5 => if sub.toNat = 0 then .ok (.cursor w) else .error .reservedSub
  | 0xD8 => .ok (.copy w sub)
  | 0xD9 => .ok (.coll w sub)
  | 0xDA => .ok (.ringx w sub)
  | 0xDB => if sub.toNat = 0 then .ok (.kvopen w) else .error .reservedSub
  | 0xDC => if sub.toNat = 0 then .ok (.kvfork w) else .error .reservedSub
  | 0xDD => if sub.toNat = 0 then .ok (.kvreserve w) else .error .reservedSub
  | 0xDE => if sub.toNat = 0 then .ok (.kvwin w) else .error .reservedSub
  | 0xDF => if sub.toNat = 0 then .ok (.kvcommit w) else .error .reservedSub
  | 0xE0 => if sub.toNat = 0 then .ok (.kvabort w) else .error .reservedSub
  | 0xE1 => if sub.toNat = 0 then .ok (.kvlen w) else .error .reservedSub
  | 0xE2 => if sub.toNat = 0 then .ok (.kvclose w) else .error .reservedSub
  | 0xE3 => .ok (.kvsend w sub)
  | 0xE4 => if sub.toNat = 0 then .ok (.kvarm w) else .error .reservedSub
  | 0xE5 => if sub.toNat = 0 then .ok (.kvsnap w) else .error .reservedSub
  | 0xF0 =>
    match sub.toNat with
    | 0 => .ok (.barA w)
    | 1 => .ok (.barW w)
    | 2 => .ok (.barAw w)
    | 3 => .ok (.barLv w)
    | _ => .error .reservedSub
  | 0xF1 => if sub.toNat = 0 then .ok (.msend w) else .error .reservedSub
  | 0xF2 => if sub.toNat = 0 then .ok (.bind w) else .error .reservedSub
  | 0xF3 =>
    match sub.toNat with
    | 0 => .ok (.yield w)
    | 1 => .ok (.yieldWait w)
    | _ => .error .reservedSub
  | 0xF4 => if sub.toNat = 0 then .ok (.endTask w) else .error .reservedSub
  | 0xF5 => if sub.toNat = 0 then .ok (.waitseq w) else .error .reservedSub
  | 0xF6 => if sub.toNat = 0 then .ok (.trap w) else .error .reservedSub
  | 0xF7 => if sub.toNat = 0 then .ok (.eret w) else .error .reservedSub
  | 0xF8 => if sub.toNat = 0 then .ok (.sysrd w) else .error .reservedSub
  | 0xF9 => if sub.toNat = 0 then .ok (.syswr w) else .error .reservedSub
  | 0xFA =>
    match sub.toNat with
    | 0 => .ok (.tlbinvPg w)
    | 1 => .ok (.tlbinvAll w)
    | _ => .error .reservedSub
  | 0xFB => if sub.toNat = 0 then .ok (.launch w) else .error .reservedSub
  | 0xFC => if sub.toNat = 0 then .ok (.pmrd w) else .error .reservedSub
  | _ => .error .reservedOpcode

/-- The rows of Table 4.5. -/
def seedInstr (op : Nat) (w : Husk) : Except DecodeError Instr :=
  match op with
  | 0x01 => .ok (.smm w) | 0x02 => .ok (.smmz w) | 0x03 => .ok (.svec w)
  | 0x04 => .ok (.sbias w) | 0x05 => .ok (.snorm w) | 0x06 => .ok (.sact w)
  | 0x07 => .ok (.sdrain w) | 0x08 => .ok (.sjump w) | 0x09 => .ok (.scall w)
  | 0x0A => .ok (.sexit w) | 0x0B => .ok (.sbar w) | 0x0C => .ok (.spad w)
  | 0x0D => .ok (.sembed w)
  | _ => .error .reservedSeed

/-- The instruction of a configuration word: its class by the opcode range (R61), its fields by the class. -/
def decode (x : BitVec 64) : Except DecodeError Instr :=
  let op := wordOp x
  if op = 0 then (if x = 0#64 then .error .empty else .error .emptyNotZero)
  else if op < 0x70 then
    (if x.extractLsb' 24 1 = 0#1 then stageInstr op (readStage x) else
      match stageInstr op (readStage x) with
      | .ok _ => .error .stageZeroBit
      | .error e => .error e)
  else if op < 0xA0 then memInstr op (readMem x)
  else if op < 0xB0 then cpInstr op (x.extractLsb' 28 4).toNat (readCp x)
  else if op < 0xB8 then reInstr op (readRe x)
  else epInstr op (x.extractLsb' 24 8) (readEp x)

/-- The seed of a husk (R74, Table 4.5). -/
def decodeHusk (x : BitVec 128) : Except DecodeError Instr :=
  seedInstr (x.extractLsb' 120 8).toNat (readHusk x)

/-- The instruction that bytes in ascending address order hold: 8 bytes a configuration word, 16 a husk (R55). -/
def decodeBytes (bs : List Byte) : Option Instr :=
  if bs.length = 8 then (decode (BitVec.ofNat 64 (leNat bs))).toOption
  else if bs.length = 16 then (decodeHusk (BitVec.ofNat 128 (leNat bs))).toOption
  else none

/-- The host's question: rows of up to 64 bits are configuration words, rows of up to 128 bits husks, stored
little-endian (R55). The table gives its rows no bits, and an event has no encoding. -/
def decodeTableWord (nbits w : Nat) : Option Instr :=
  if nbits ≤ 64 then decodeBytes (leBytes 8 w) else if nbits ≤ 128 then decodeBytes (leBytes 16 w) else none

/-! The encoder. -/

def encodeStage (op : Nat) (w : StageW) : BitVec 64 :=
  BitVec.ofNat 8 op ++ w.pm ++ w.ty ++ w.t0 ++ w.t1 ++ w.sub ++ w.rnd ++ w.sat ++ w.bimm ++ 0#1 ++ w.aux ++ w.imm

def encodeMem (op : Nat) (w : MemW) : BitVec 64 :=
  BitVec.ofNat 8 op ++ w.pm ++ w.ty ++ w.t0 ++ w.t1 ++ w.scope ++ w.strong ++ w.ordk ++ w.ordered ++ w.ordno ++ w.recid ++ w.off

def encodeCp (op mode : Nat) (w : CpW) : BitVec 64 :=
  BitVec.ofNat 8 op ++ w.pm ++ w.ty ++ w.t0 ++ w.t1 ++ BitVec.ofNat 4 mode ++ w.t2 ++ w.t3 ++ w.param

def encodeRe (op : Nat) (w : ReW) : BitVec 64 :=
  BitVec.ofNat 8 op ++ w.pm ++ w.ty ++ w.t0 ++ w.t1 ++ w.innerM1 ++ w.outerM1 ++ w.istride ++ w.ostride

def encodeEp (op sub : Nat) (w : EpW) : BitVec 64 :=
  BitVec.ofNat 8 op ++ w.pm ++ w.ty ++ w.t0 ++ w.t1 ++ BitVec.ofNat 8 sub ++ w.escope ++ w.params

def encodeHusk (sop : Nat) (h : Husk) : BitVec 128 :=
  BitVec.ofNat 8 sop ++ h.fmt ++ h.comp ++ h.rmode ++ h.rsel ++ h.link ++ h.plen ++ h.rows16 ++ h.cols16 ++ h.accrow ++ h.abuf ++ h.hchk

/-- The configuration word of a block instruction; none for a seed and for an event. -/
def encode (i : Instr) : Option (BitVec 64) :=
  match i.fields with
  | .stage w => some (encodeStage i.op w)
  | .mem w => some (encodeMem i.op w)
  | .cp w => some (encodeCp i.op i.variant w)
  | .re w => some (encodeRe i.op w)
  | .ep w => some (encodeEp i.op i.variant w)
  | .seed _ => none
  | .event => none

/-- The husk of a seed. -/
def encodeSeed (i : Instr) : Option (BitVec 128) :=
  match i.fields with
  | .seed h => some (encodeHusk i.op h)
  | _ => none

end Sys2Proof
end

