-- ==== Sys2Proof/Machine/Tab.lean ====
section
/-! DEFINITION. Sparse tables: lists of (key, value) pairs in rising key order, with a default for keys not listed. -/

namespace Sys2Proof.Machine

/-- The value of a key, if listed. -/
def tabFind {α : Type} : List (Nat × α) → Nat → Option α
  | [], _ => none
  | (k, v) :: t, key => if key = k then some v else tabFind t key

/-- The value of a key, d where it is not listed. -/
def tabGet {α : Type} (d : α) (t : List (Nat × α)) (key : Nat) : α := (tabFind t key).getD d

/-- Lists v under key, keeping the order. -/
def tabPut {α : Type} : List (Nat × α) → Nat → α → List (Nat × α)
  | [], key, v => [(key, v)]
  | (k, u) :: t, key, v =>
    if key < k then (key, v) :: (k, u) :: t
    else if key = k then (key, v) :: t
    else (k, u) :: tabPut t key v

/-- Drops a key. -/
def tabDel {α : Type} : List (Nat × α) → Nat → List (Nat × α)
  | [], _ => []
  | (k, u) :: t, key => if key = k then tabDel t key else (k, u) :: tabDel t key

/-- Drops a key whose new value is the default, lists it otherwise. -/
def tabSet {α : Type} [DecidableEq α] (d : α) (t : List (Nat × α)) (key : Nat) (v : α) : List (Nat × α) :=
  if v = d then tabDel t key else tabPut t key v

/-- Changes the value of a key. -/
def tabMod {α : Type} (d : α) (t : List (Nat × α)) (key : Nat) (f : α → α) : List (Nat × α) :=
  tabPut t key (f (tabGet d t key))

end Sys2Proof.Machine
end

