-- ==== Sys2Proof/Machine/State.lean ====
section
/-! DEFINITION. The state of the package as plain data (R50, R52, R314 and the registers of 21 to 26), its faults and
refusals, and the state right after reset. Sparse tables list what differs from a default; the defaults of the fields
are their reset values. -/

namespace Sys2Proof.Machine

/-- Why a step can stop. The faults of Table 16.1 are no such stop: a fault is taken by its task (R336). -/
inductive Fault where
  /-- A move that names no unit of the package: raised by step and by the events. Safe: the hardware makes no such move. -/
  | noSuchUnit
  /-- A slot that holds no instruction was asked to fire: raised by step. Safe: an empty slot never fires (R60). -/
  | noInstruction
  deriving DecidableEq, Repr

/-- Why an instruction has no meaning here. -/
inductive Refusal where
  /-- An instruction that is not modelled, by its mnemonic: raised by exec. Safe: the machine stops. -/
  | notModelled (mnemonic : String)
  deriving DecidableEq, Repr

/-! Nodes and phases (R27 to R37). -/

/-- A node of a running or held phase (R33, R187): the iteration it fires next, its port queues, its stall counters in
the layout of Table 2.2, the carried or held value of `carry` and `inv`, and the inputs or outputs of a group. -/
structure Node where
  iter : Nat := 0
  qa : List Token := []
  qb : List Token := []
  qc : List Token := []
  qp : List Token := []
  stall : Word64 := 0
  value : Token := ⟨0, 0, true⟩
  group : List Token := []
  deriving DecidableEq, Repr, Inhabited

/-- Where an outstanding access stands: to be checked again after a fault of its response (R167), fired, issued, or
done with its tokens formed (R317, R318). -/
inductive AccStage where
  | refire
  | fired
  | issued
  | done
  deriving DecidableEq, Repr, Inhabited

/-- One location, aligned 8-byte unit or scratchpad byte run that an access still has to read or write: the memory key and
length, the virtual address, where the bytes go in the result, the bytes to store or read, whether it has been performed (of an
atomic at a pipe, whether it has been read, R322), and the reading of its page (R365). -/
structure Piece where
  key : Nat
  len : Nat
  va : Nat
  pos : Nat
  data : Nat
  doneP : Bool
  view : Nat := 0
  deriving DecidableEq, Repr, Inhabited

/-- A run of bytes that an engine or rider reaches: its memory key, its length, and the reading of its page (R365). -/
structure MemRun where
  key : Nat
  len : Nat
  view : Nat := 0
  deriving DecidableEq, Repr, Inhabited

/-- An outstanding access of a memory element (R147, R317): its operation and word, the firing's iteration, the
operand tokens it consumed (given back when a response faults, R167), its pieces, what it has read, its lane mask,
the stamps of its firing and issue, the switches whose fences it waits for (R329), whether it is a registered or a
polling wait (R165), the tokens formed, and the reference times at which a wait registered and last read its word (R165). An access to
a host location that is issued is a read in flight on its link (Table 15.1). -/
structure Access where
  op : Nat
  w : MemW
  iter : Nat
  ops : List (Nat × Token)
  nullA : Bool
  stage : AccStage
  pieces : List Piece
  mask : BitVec 16
  firedAt : Nat
  issuedAt : Nat
  fences : List Nat
  waiting : Bool
  poll : Bool
  out0 : Option Token
  out1 : Option Token
  since : Nat := 0
  readAt : Nat := 0
  deriving DecidableEq, Repr, Inhabited

/-- A token an engine-port node still owes: its iteration, and the token once known (R147, R194). -/
structure Owed where
  iter : Nat
  key : Nat
  tok : Option (Token × Token)
  deriving DecidableEq, Repr, Inhabited

/-- A kv transaction sent to a sequence unit and not yet performed (R273): its opcode, SUB and card, the iteration and stamp of its firing,
the key under which its node owes the result, and whether it faulted and is to be sent again. -/
structure KvReq where
  op : Nat
  sub : Nat
  card : BitVec 512
  iter : Nat
  key : Nat
  stamp : Nat
  again : Bool := false
  deriving DecidableEq, Repr, Inhabited

/-- What the deciding firing of `exit` chose (R178): `ret` has LR take the b12 of the phase end (R181, R261). -/
structure ExitRes where
  pc : Nat
  lr : Option Nat := none
  b12 : Option Word64 := none
  ret : Bool := false
  deriving DecidableEq, Repr, Inhabited

/-- A phase of a task (R35, R36): its block, the iteration count, the start values of the block registers, the break
of `gate brk`, the deciding firings made, the `wrb` writes by register with their iteration, and its nodes. Tokens on
wires stand under slot × 4 + port; `epFences` lists, by slot, the switches whose fences a release of EP3 waits for (R329);
`kvReqs` lists the kv transactions under way (R273). -/
structure Phase where
  addr : Nat
  hdr : BitVec 128
  words : List Word64
  n : Nat
  starts : List Word64
  num : Nat
  handler : Bool
  brk : Option Nat := none
  exitRes : Option ExitRes := none
  yieldOp : Option Bool := none
  endOp : Bool := false
  wdrive : Option (BitVec 512) := none
  eretOp : Option Bool := none
  wrbs : List (Nat × Nat × Word64) := []
  nodes : List (Nat × Node) := []
  wires : List (Nat × List Token) := []
  accs : List (Nat × List Access) := []
  owed : List (Nat × List Owed) := []
  epFences : List (Nat × List Nat) := []
  kvReqs : List KvReq := []
  deriving DecidableEq, Repr, Inhabited

/-- A configuration context: the block loaded in it (R34, R52). -/
structure Ctx where
  addr : Nat
  hdr : BitVec 128
  words : List Word64
  deriving DecidableEq, Repr, Inhabited

/-! Tasks, cards and chains (R38, R50, R289). -/

/-- The states of Table 2.3. -/
inductive TaskSt where
  | ready
  | running
  | idle
  | trapped
  | ended
  deriving DecidableEq, Repr, Inhabited

/-- Where a card stands (R291 to R293, R207). -/
inductive CardSt where
  | waiting
  | started
  | withheld
  | complete
  deriving DecidableEq, Repr, Inhabited

/-- The fields of a fault record before it is packed (Table 16.2); a fault that waits to be taken keeps whether a handler
phase issued the work that raised it (R337). -/
structure FrecIn where
  cls : Nat
  src : Nat := 0
  slot : Nat := 0
  gen : Nat := 0
  acc : Nat := 0
  preq : Bool := false
  detail : Nat := 0
  iter : Nat := 0
  stall : Word64 := 0
  addr : Nat := 0
  seqno : Nat := 0
  info : Nat := 0
  pc : Nat := 0
  inHandler : Bool := false
  deriving DecidableEq, Repr, Inhabited

/-- A unit that an EP2 card has read: its bytes, whether it was lost and the channels of that (Table 10.7), and whether no path led to
its package (R408). -/
structure UnitIn where
  x : Nat
  lost : Bool := false
  mask : BitVec 384 := 0
  gone : Bool := false
  deriving DecidableEq, Repr, Inhabited

/-- A card of a chain (R289, R291, R327): its sequence number, opcode, SUB, TYPE and ESCOPE, its bits, the exponent
operand of `accscale`, whether a handler phase issued it, its place in card order and its stamp; where it stands, its
rows, units or steps done, whether leave was asked and given; the records and the tile it holds while it runs; the
stall counters of its generators, by number (log entry 109) and whether it made a row in this cycle; the status and channel mask it will report, what it wrote, and a fault its generator
withholds, with whether the task has taken it; the completion word of a copy with the value that the atomic on it has read (R322); whether the riders of an EP2 card have boarded, the
units of its source that it has read and not yet passed on (R327), and the switches whose fences the release at its completion waits
for (R329). -/
structure Card where
  seq : Nat
  op : Nat
  sub : Nat
  ty : Nat := 0
  stalls : List (Nat × Word64) := []
  rowed : Bool := false
  escope : Nat := 0
  card : BitVec 512 := 0
  arg : Token := ⟨0, 0, true⟩
  handler : Bool := false
  order : Nat := 0
  stamp : Nat := 0
  st : CardSt := .waiting
  prog : Nat := 0
  asked : Bool := false
  leave : Bool := false
  recs : List (Nat × BitVec 512) := []
  tile : List (List Nat) := []
  relatch : Bool := false
  bank : Nat := 0
  bankDone : Bool := true
  ticket : Option Nat := none
  status : Word32 := 0
  chmask : BitVec 384 := 0
  wrote : List (Nat × Nat) := []
  fault : Option FrecIn := none
  taken : Bool := false
  unit : Nat := 0
  deposit : Option Nat := none
  args : List Nat := []
  cwHeld : Option (MemRun × Nat) := none
  boarded : Bool := false
  block : List UnitIn := []
  fences : Option (List Nat) := none
  deriving DecidableEq, Repr, Inhabited

/-- A completed card's number, status word and channel mask (R289). -/
structure CardDone where
  seq : Nat
  status : Word32
  chmask : BitVec 384
  misses : Nat := 0
  deriving DecidableEq, Repr, Inhabited

/-- One chain (R289). -/
structure Chain where
  tail : Nat := 0
  done : Nat := 0
  cards : List Card := []
  hist : List CardDone := []
  deriving DecidableEq, Repr, Inhabited

/-- The latched tile of a task (R198, R208): the tile's elements as patterns by (row, column), its shape and type, whether
the next card must latch it again, and the card that latched it with its record. -/
structure Latched where
  valid : Bool := false
  ty : Nat := 0
  rows : Nat := 0
  cols : Nat := 0
  elems : List (List Nat) := []
  again : Bool := false
  card : BitVec 512 := 0
  lrec : BitVec 512 := 0
  deriving DecidableEq, Repr, Inhabited

/-- A seed in a task's buffer (R249, R250): its address, husk, lines received by number and lines in all, its slot in the
buffer, where its bytes stand, and whether its commit has already freed that slot, where its operation goes on (R259). -/
structure SeedBuf where
  addr : Nat
  husk : BitVec 128
  got : List Nat
  plen : Nat
  slot : Nat
  freed : Bool := false
  deriving DecidableEq, Repr, Inhabited

/-- The seed state of a joined task (Table 12.2), with the accepted seeds, whether a seed executes, blocks run between
seeds (`scall`), an `sbar` waits, power leave was asked and given, and whether a control seed has committed in this cycle, whose EXPECT
no husk meets yet (Table 12.8). -/
structure SeedSt where
  joined : Bool := false
  entering : Bool := false
  card : BitVec 512 := 0
  expect : Nat := 0
  hold : Bool := false
  m : Nat := 0
  astrm1 : Nat := 0
  brec0 : Nat := 0
  idrec : Nat := 0
  kc : List (Nat × Nat) := []
  vc : Nat := 0
  miss : Word32 := 0
  buf : List SeedBuf := []
  running : Bool := false
  inBlocks : Bool := false
  waitBar : Option Nat := none
  asked : Bool := false
  leave : Bool := false
  turned : Bool := false
  deriving DecidableEq, Repr, Inhabited

/-- What a task keeps of a ring (R298): the step cards issued, the steps completed and the ring size they were completed in. -/
structure Ring where
  issued : Nat := 0
  step : Nat := 0
  size : Nat := 0
  deriving DecidableEq, Repr, Inhabited

/-- A card of a collective that a task of another package has issued (R297), with its elements in order and whether each is lost, and the
instance it is bound to while its writes there are not all made. -/
structure RemoteColl where
  pkg : Nat
  podPart : Nat
  rank : Nat
  key : Nat
  form : List Nat
  elems : List (Nat × Bool)
  order : Nat
  unit : Nat := 0
  deriving DecidableEq, Repr, Inhabited

/-- A task resident on a core, or in an image (Table 2.9): its registers and shares, its contexts, running and held
phase, chains, tile and seed state, the barriers it arrived at (with the round) and left, its rings by ESCOPE, the faults
still to be taken (R239, R337, those recorded at a cut by R340), the core's cycle count when its cut was asked for and whether it
has begun (R339), the riders to be boarded again (R239: sequence number, kind with bit 18 for one whose fault `eret` returns from,
card), and the standing riders that have ended. -/
structure Task where
  job : Nat
  rank : Nat
  part : Nat
  fn : Nat
  sys : Bool
  prio : Nat
  st : TaskSt
  pc : Nat
  lr : Nat := 0
  b : List Word64
  fpstat : Flags := 0
  fpen : Flags := 0
  frec : BitVec 512 := 0
  nctx : Nat := 1
  acc : List Nat := []
  keep : List Nat := []
  recs : BitVec 64 := 0
  bufs : BitVec 32 := 0
  ctxs : List Ctx := []
  phase : Option Phase := none
  held : Option Phase := none
  phases : Nat := 0
  firings : Nat := 0
  chains : List (Nat × Chain) := []
  latched : Latched := {}
  seed : SeedSt := {}
  arrived : List (Nat × Nat) := []
  left : List Nat := []
  discard : BitVec 384 := 0
  passed : Nat := 0
  woken : Bool := false
  rings : List (Nat × Ring) := []
  deferred : List FrecIn := []
  askedAt : Nat := 0
  cutting : Bool := false
  reboard : List (Nat × Nat × BitVec 512) := []
  standEnds : List CardDone := []
  deriving DecidableEq, Repr, Inhabited

/-! Cores (R52). -/

/-- A message channel: its queue of 384-bit messages with the scope of each sender, its binding (R40, R303, R304), and the
saved task (job, rank) that keeps it bound (R344). -/
structure Chan where
  queue : List (BitVec 384 × Nat) := []
  task : Option Nat := none
  prio : Nat := 0
  handler : Nat := 0
  held : Option (Nat × Nat) := none
  deriving DecidableEq, Repr, Inhabited

/-- A circular buffer: its descriptor in the layout of Table 8.6, and the slots claimed and not counted in FILLED yet,
in claim order, each with whether it is complete (R157). One never placed has one slot, which is free (Table 8.6). What a cycle
changes is not seen in it (R157): FILLED and FREE as they stood at its start where they have changed, and what has been added to each. -/
structure CBuf where
  desc : BitVec 256 := BitVec.ofNat 256 (2 ^ 80)
  claims : List (Nat × Bool) := []
  start : Option (Nat × Nat) := none
  added : Nat × Nat := (0, 0)
  deriving DecidableEq, Repr, Inhabited

/-- A pending store of one location, or of the two of an 8-byte access (R314, R317): its memory key, the bytes it writes, its
task slot, scope, place in program order (phase, iteration, order number) and stamp, the element that waits for its drain
(phase, slot, iteration), whether it is weak, so that it carries Relaxed Ordering to a host (R330) and takes the L2 pipe (R316),
whether its firing writes its whole sector (R361), the reading of its page (R365), and the address, element and iteration that a fault of its drain
names once its token has left (R404, R408; log entry 118). -/
structure PStore where
  key : Nat
  be : BitVec 8
  data : Word64
  task : Nat
  scope : Nat
  ord : Option (Nat × Nat × Nat)
  stamp : Nat
  waiter : Option (Nat × Nat × Nat)
  ro : Bool
  whole : Bool
  view : Nat := 0
  va : Nat := 0
  slot : Nat := 0
  iter : Nat := 0
  deriving DecidableEq, Repr, Inhabited

/-- A line of a feed that has reached a core (R78, R249): its virtual address, bytes, the check it failed (0 none), whether
it is uncorrectable, whether its route names the core, and whether every line of its seed has X and is correctable. -/
structure SeedLine where
  va : Nat
  data : Nat
  bad : Nat
  unc : Bool
  named : Bool
  xok : Bool
  clean : Bool
  deriving DecidableEq, Repr, Inhabited

/-- One core (Table 2.11). `lastPicks` is the slot picked last by priority (R41), `l1` lists the copies of its L1 by location,
`blocks` the images that its block cache holds by partition and address; `refTime` is the reference counter of R415 in 408ths of a
cycle of 2.1 GHz; `firedNow` lists the slots fired in this cycle (R33),
`faultNow` the tasks that took a fault or trap in it (R54), and `wasOut` says whether an item of Table 2.7 was outstanding at
its start (R47). -/
structure Core where
  tasks : List (Nat × Task) := []
  running : Option Nat := none
  lastPicks : List (Nat × Nat) := []
  handlerOwner : Option Nat := none
  handlerCtx : Option Ctx := none
  chans : List (Nat × Chan) := []
  bufs : List (Nat × CBuf) := []
  recs : List (Nat × BitVec 512) := []
  acc : List (Nat × BitVec 512) := []
  l1 : List (Nat × Word32) := []
  stores : List PStore := []
  blocks : List (Nat × Ctx) := []
  seedIn : List SeedLine := []
  waitlimit : Word32 := 0x00100000
  orphan : Nat := 0
  cycles : Word64 := 0
  refTime : Nat := 0
  firedNow : List Nat := []
  faultNow : List Nat := []
  wasOut : Bool := false
  deriving DecidableEq, Repr, Inhabited

/-! Quads, dies, stacks and channels (R53, R210 to R213, R299, R354 to R369, R375). -/

/-- A TLB entry (R376): the page it maps and the leaf's bits. -/
structure TlbEntry where
  part : Nat
  va : Nat
  size : Nat
  leaf : Word64
  base : Nat
  deriving DecidableEq, Repr, Inhabited

/-- A walk-cache entry (R375): a table entry of a level, keyed by the VA bits above that level's index. -/
structure WalkEntry where
  part : Nat
  level : Nat
  prefixKey : Nat
  entry : Word64
  deriving DecidableEq, Repr, Inhabited

/-- A tile task taken from the ring (R299): its record's address and bytes, its place in card order, once its rows are written its
completion word with the value that the atomic on it has read (R322), and whether power leave was asked and given (R393). -/
structure TileTask where
  addr : Nat
  record : BitVec 1024
  order : Nat
  cwHeld : Option (MemRun × Nat) := none
  asked : Bool := false
  leave : Bool := false
  deriving DecidableEq, Repr, Inhabited

/-- One quad: TLB and walk cache, most recently used first (R375, R376), TTBASE and TTSIZE (Table 14.10), the ring
position and the tile tasks in progress (R299). -/
structure Quad where
  tlb : List TlbEntry := []
  walks : List WalkEntry := []
  ttbase : Word64 := 0
  ttsize : Word32 := 0
  ttpos : Nat := 0
  ttasks : List TileTask := []
  deriving DecidableEq, Repr, Inhabited

/-- One stack (Table 21.4): TEMP, SWTHERM and DUTYRATIO. -/
structure Stack where
  temp : Nat := 0
  limit : Nat := 95
  ratio : Nat := 8
  deriving DecidableEq, Repr, Inhabited

/-- A rider kernel loaded in a tile (R238): its header and words. -/
structure Kernel where
  hdr : BitVec 128
  words : List Word64
  deriving DecidableEq, Repr, Inhabited

/-- One channel (R210 to R213, Tables 11.1, 21.3): the slot counts, cursor and revolution, SWEEPLEN in force and
pending, CHSTAT and DIRCFG fields, duty ratio in force, ECNT and UEADDR, the training registers, kernels, the direct
requests outstanding, and the highest ticket considered by partition. -/
structure Channel where
  slot : Nat := 0
  dutyPos : Nat := 0
  cursor : Nat := 0
  rev : Nat := 0
  len : Nat := 0x780000
  lenReg : Nat := 0x780000
  pend : Bool := false
  train : Bool := false
  dpend : Bool := false
  oos : Bool := false
  owner : Nat := 0x7F
  drszl : Nat := 7
  dshr : Nat := 4
  dshrReg : Nat := 4
  duty : Nat := 0
  ecnt : Word32 := 0
  ueaddr : Word32 := 0
  trctl : Bool := false
  test : Option (Bool × BitVec 16) := none
  trres : BitVec 96 := 0
  rddly : BitVec 512 := BitVec.ofNat 512 0x20202020202020202020202020202020202020202020202020202020202020202020202020202020202020202020202020202020202020202020202020202020
  wrdly : BitVec 512 := BitVec.ofNat 512 0x20202020202020202020202020202020202020202020202020202020202020202020202020202020202020202020202020202020202020202020202020202020
  spdly : Word32 := 0x20202020
  repair : Word32 := 0
  kernels : List (Nat × Kernel) := []
  direct : Nat := 0
  deriving DecidableEq, Repr, Inhabited

/-- A request for power leave (R393): its weight and PRIO, the card that asks (chain 3 a seed, chain 4 the tile task of the core's quad at
the record address `seq`), or the rider by its ticket, and the time of the
reference counter of its core when it was made. -/
structure LeaveReq where
  weight : Nat
  prio : Nat
  core : Nat
  task : Nat
  chain : Nat
  seq : Nat
  ticket : Option Nat := none
  since : Nat := 0
  deriving DecidableEq, Repr, Inhabited

/-- One die: PABUDGET (Table 26.5), the kvarm table of its sequence unit, flag words by descriptor keys (R284), and waiting leave requests (R393). -/
structure Die where
  budget : Nat := 512
  inuse : Nat := 0
  arms : List (Nat × MemRun) := []
  leaves : List LeaveReq := []
  deriving DecidableEq, Repr, Inhabited

/-! Partitions, functions, jobs (R266, R336, R371, R382, R399, R403). -/

/-- One partition: PTROOT, TRAPBASE, PODPART, the kv pool registers (Table 13.1), the ticket counter (R218), its quads and functions, and the addresses of its open sequences. -/
structure Part where
  quads : List Nat := []
  fns : List Nat := []
  ptroot : Word64 := 0
  trapbase : Word64 := 0
  podpart : Nat := 0
  kvpd : Word64 := 0
  kvpg : Word64 := 0
  kvnpages : Word64 := 0
  kvfreehd : Word64 := 0xFFFFFF
  kvfree : Word64 := 0
  kvreserve : Word64 := 0
  tickets : Nat := 0
  seqs : List Nat := []
  deriving DecidableEq, Repr, Inhabited

/-- One launch queue (Table 23.1). -/
structure LaunchQ where
  base : Word64 := 0
  size : Nat := 0
  rderr : Bool := false
  sterr : Bool := false
  head : Word32 := 0
  tail : Word32 := 0
  posts : List (Nat × Nat) := []
  deriving DecidableEq, Repr, Inhabited

/-- One PCIe function (R397 to R403): enabled, partition, window base and WINERR, its queues, and its MSI-X vectors,
each masked (so at reset) and pending; the address and data of each vector's message (R401), its MSI-X message control and its AER
uncorrectable error status (Table 25.1). -/
structure Fn where
  en : Bool := false
  part : Nat := 0
  winbase : Word64 := 0
  winerr : Word64 := 0
  queues : List (Nat × LaunchQ) := []
  msix : List (Nat × Bool × Bool) := []
  msixMsg : List (Nat × Word64 × Word32) := []
  msixControl : BitVec 16 := 0
  uncorrectable : Word32 := 0
  deriving DecidableEq, Repr, Inhabited

/-- Where a job stands in the job table (R383, R388 to R391). -/
inductive JobSt where
  | ready
  | placed
  | cutting
  | saved
  deriving DecidableEq, Repr, Inhabited

/-- One task's image (R342): the task, the core it left, its descriptors and records by number, its accumulator rows by their
place in the allotment, the bytes and the poisoned sectors of its keep map by scratchpad address, its channels with
their priority and handler, and whether it held the handler context (R344). -/
structure TaskImage where
  task : Task
  core : Nat
  bufs : List (Nat × CBuf)
  recs : List (Nat × BitVec 512)
  acc : List (Nat × BitVec 512)
  bytes : List Host.Cell
  bad : List Nat
  chans : List (Nat × Nat × Nat)
  handler : Bool := false
  deriving DecidableEq, Repr, Inhabited

/-- One job of the job table: its record and footprint block (R384), its function, queue and partition, its place in taking
order, its state, how long it has waited as its LIFT events show, in the unit of LIFTTIME (R388), its holding priority and place in placing order, its images, and
the ended tasks, with their cores, whose shares it holds until it retires (R44). -/
structure Job where
  record : BitVec 1024
  fp : BitVec 256 := 0
  fn : Nat
  queue : Nat
  part : Nat
  order : Nat
  st : JobSt := .ready
  waited : Nat := 0
  holding : Nat := 0
  placed : Nat := 0
  images : List (Nat × TaskImage) := []
  ended : List (Nat × Task) := []
  deriving DecidableEq, Repr, Inhabited

/-- A barrier (R43, R301, R302) of a gang, or of a pod key: rounds completed, arrivals so far, the count of the open
round (0: the current participants), its ERRARR, and the completed rounds that had it. -/
structure Barrier where
  done : Nat := 0
  arrivals : Nat := 0
  count : Nat := 0
  err : Bool := false
  errs : List Nat := []
  deriving DecidableEq, Repr, Inhabited

/-! Riders (R214 to R240). -/

/-- A line a kernel has been given and not yet answered: its offset in the range, the revolution, and poison. -/
structure FedLine where
  offset : Nat
  rev : Nat
  bad : Bool
  deriving DecidableEq, Repr, Inhabited

/-- A rider's share of one channel: its lines as (line, offset in the range) and those still to act on, the clone's
destination lines still to write, admission, the lines missed at passes, the delivery queue (R232), the kernel it
captured at admission with the lines in it (R227), its fold with the lanes that have received (R228), and the
revolution and place in time of its last pass. -/
structure RiderChan where
  lines : List (Nat × Nat) := []
  todo : List (Nat × Nat) := []
  dest : List (Nat × Nat) := []
  admitted : Bool := false
  gone : Bool := false
  queue : List (Nat × Nat × Bool) := []
  kernel : Option Phase := none
  fed : List FedLine := []
  folded : Nat := 0
  fold : List Token := []
  lastRev : Nat := 0
  lastAt : Nat := 0
  deriving DecidableEq, Repr, Inhabited

/-- A rider (R217, R218), a standing rider's translation (R234), or a feed (R245). `kind`: 0 boarded by a task, 1 an
engine's reader or deposit (copy, `mxv`, kvsend), 2 a sequence unit's clone, 3 a feed. It keeps its partition and
ticket, opcode and SUB, the card, the task by job, rank, core and slot, its sequence number, the operands copied at
boarding (256-byte lines or tokens), landing runs by offset with their record's format, the word it increments, the layout records
of a `bmac` or `mxv` as they stood at its start (R312), the offsets whose pages have X and those whose pages
are of a compute region (of its range, and of what it writes to), the weight lines of a `bmac` or `mxv`, what its channels hold, what it
has read (or will write) by offset, the sectors of it that are lost, the bytes of a line that an engine's deposit writes (all where not listed) and those
gathered so far, its status, and its completion word with the value that the atomic on it has read (R322). -/
structure Rider where
  part : Nat
  ticket : Nat
  op : Nat
  sub : Nat := 0
  card : BitVec 512 := 0
  kind : Nat := 0
  job : Nat := 0
  rank : Nat := 0
  core : Nat := 0
  task : Nat := 0
  handler : Bool := false
  seq : Nat := 0
  chans : List (Nat × RiderChan) := []
  operand : List Nat := []
  land : List (Nat × List MemRun) := []
  landFmt : Nat := 8
  cw : Option MemRun := none
  recs : List (Nat × BitVec 512) := []
  xbits : List Nat := []
  plain : List Nat := []
  plainDest : List Nat := []
  wlines : List Nat := []
  masks : List (Nat × Nat) := []
  pending : List (Nat × Nat × Nat) := []
  data : List (Nat × Nat) := []
  bad : List (Nat × Nat) := []
  status : Word32 := 0
  misses : Nat := 0
  chmask : BitVec 384 := 0
  flags : Flags := 0
  cancelled : Bool := false
  standing : Bool := false
  parent : Option Nat := none
  anchor : Option (Nat × Nat) := none
  asked : Bool := false
  leave : Bool := false
  alit : Bool := false
  page : Nat := 0
  cwHeld : Option (MemRun × Nat) := none
  deriving DecidableEq, Repr, Inhabited

/-- A `kvsend` in progress (R285): its task and card, its partition and core, the pages (source, destination) of its
entries, the layer being sent with the number still to send, the reorder, and the riders of the layer. The flag has a key while
the destination is in this package; `cwHeld` is the flag word with the value that the atomic on it has read (R322). -/
structure KvSend where
  part : Nat
  core : Nat
  job : Nat
  rank : Nat
  seq : Nat
  seqVa : Nat
  card : BitVec 512
  pages : List (Nat × Nat)
  nlayl : Nat
  layer : Nat
  left : Nat
  reader : Option Nat := none
  writer : Option Nat := none
  dst : Option Nat
  cwHeld : Option (MemRun × Nat) := none
  deriving DecidableEq, Repr, Inhabited

/-! Host and pod (R397 to R408). -/

/-- A write on its way to host memory (R330): the job it is of, the host address and bytes, whether it carries Relaxed
Ordering, the function whose Requester ID it carries (R398), and what a release of its task asks of it (R321): the task's rank, the scope, stamp and place in program order. -/
structure HostWrite where
  job : Nat
  addr : Nat
  bytes : List Byte
  ro : Bool
  rank : Nat := 0
  scope : Nat := 5
  stamp : Nat := 0
  ord : Option (Nat × Nat × Nat) := none
  fn : Nat := 0
  deriving DecidableEq, Repr, Inhabited

/-- What a request of the host or of another package is answered: its bytes, Completer Abort, Unsupported Request, a refusal
for ownership (R404), or uncorrectable data (R397 to R400). -/
inductive Reply where
  | data (bytes : List Byte)
  | abort
  | unsupported
  | ownership
  | uncorrectable
  deriving DecidableEq, Repr, Inhabited

/-- An atomic of another package that stands at a controller pipe between its read and its write (R322, R407): its word, the value read
and the one to write, whether it wakes waits (R165), and the reply to its package. -/
structure HomeAtom where
  run : MemRun
  new : Nat
  wakes : Bool
  pkg : Nat
  reply : Reply
  deriving DecidableEq, Repr, Inhabited

/-- A line that an L2 slice holds (R154, R362): its tensor tag, TID and tile coordinates, or none where its tag is the linear address, and the
runs of its 256 bytes, the lowest first. What the bytes hold is the home value, which the memory holds. -/
structure L2Line where
  tag : Option (Nat × Nat × Nat)
  runs : List (Nat × Nat)
  deriving DecidableEq, Repr, Inhabited

/-- A wait of another package registered at a controller here (R165, R407): its package, word, TYPE and threshold. -/
structure RemoteWait where
  pkg : Nat
  run : MemRun
  ty : Nat
  threshold : Nat
  deriving DecidableEq, Repr, Inhabited

/-- A boot command being checked (R411): CMD and the LEN bytes of the boot buffer. -/
structure BootCmd where
  cmd : Nat
  bytes : List Byte
  deriving DecidableEq, Repr, Inhabited

/-- One pod port (R405, R406, R408): whether it is up, the switch and switch port it leads to, replays; the number of the
next flit to send and of the next one expected; the flits sent and not acknowledged, how often each of these has been
replayed by its number, the credits held and those to be returned by channel, the flits put on the wire, the payloads passed upward, and
the packages that it does not reach. -/
structure Port where
  up : Bool := false
  switch : Nat := 0
  swport : Nat := 0
  replays : Nat := 0
  nextSeq : Nat := 0
  expect : Nat := 0
  unacked : List Flit := []
  replayed : List (Nat × Nat) := []
  credits : List (Nat × Nat) := []
  owed : List (Nat × Nat) := []
  cut : List Nat := []
  sent : List Flit := []
  received : List (List Byte) := []
  deriving DecidableEq, Repr, Inhabited

/-- A write of a job's status block that has still to be made (R386): the job, its partition, function and record, and the block. -/
structure StatusWrite where
  job : Nat
  part : Nat
  fn : Nat
  record : BitVec 1024
  block : Nat
  deriving DecidableEq, Repr, Inhabited

/-- A message under way to a channel (R40, R303), with the sender whose completion token waits: its job, rank and token key. -/
structure Message where
  core : Nat
  chan : Nat
  scope : Nat
  data : BitVec 384
  job : Nat := 0
  rank : Nat := 0
  key : Nat := 0
  deriving DecidableEq, Repr, Inhabited

/-- The phases of start-up (R410 to R412). -/
inductive Boot where
  | rom
  | recovery
  | config
  | running
  deriving DecidableEq, Repr, Inhabited

/-- The state of the package. -/
structure State where
  /-- Bytes by memory key (log entry 3), in the canonical form of `Memory.wf`. -/
  mem : List Host.Cell := []
  /-- Poisoned 32 B sectors by key / 32 (R361). -/
  poison : List (Nat × Bool) := []
  /-- Errors that a read of a sector will meet, true for corrected ones (R361). -/
  latent : List (Nat × Bool) := []
  /-- The reading under which each 16-byte block of HBM4 was written last (R365): 1 as it stands, in a compute region, or p + 2
  enciphered under the key of partition p. -/
  views : List (Nat × Nat) := []
  /-- The lines that each L2 slice holds, oldest first (R362). -/
  l2 : List (Nat × List L2Line) := []
  cores : List (Nat × Core) := []
  quads : List (Nat × Quad) := []
  stks : List (Nat × Stack) := []
  chans : List (Nat × Channel) := []
  dies : List (Nat × Die) := []
  parts : List (Nat × Part) := []
  fns : List (Nat × Fn) := []
  jobs : List (Nat × Job) := []
  jobOrder : Nat := 0
  placeOrder : Nat := 0
  /-- Whether a pick pass is to be made (R389). -/
  passDue : Bool := false
  /-- The taking order of the job placed most recently, by its level (R389). -/
  lastPlaced : List (Nat × Nat) := []
  /-- The job a pre-emption effort is made for, and the gangs still to cut (R391). -/
  effort : Option (Nat × List Nat) := none
  cardOrder : Nat := 0
  stamp : Nat := 0
  barriers : List (Nat × Barrier) := []
  riders : List (Nat × Rider) := []
  kvsends : List (Nat × KvSend) := []
  /-- The status writes that wait for what a release waits for, oldest first (R386). -/
  statusOut : List StatusWrite := []
  messages : List Message := []
  hostWc : List HostWrite := []
  hostLink : List HostWrite := []
  ports : List (Nat × Port) := []
  remoteOut : List RemoteReq := []
  /-- The replies to requests of other packages, by package (R404). -/
  remoteReply : List (Nat × Reply) := []
  /-- The atomics of other packages that have read and not yet written (R322). -/
  homeAtoms : List HomeAtom := []
  /-- The waits of other packages that are registered here (R165, R407). -/
  remoteWaits : List RemoteWait := []
  /-- The cards of other packages that no instance of a collective has gathered yet (R297). -/
  remoteColls : List RemoteColl := []
  /-- The last reply to a request of the host (R397, R400). -/
  hostReply : Option Reply := none
  /-- NumVFs and VF Enable of the physical function's SR-IOV capability (Table 25.1, R402). -/
  sriov : Nat × Bool := (0, false)
  msixSent : List (Nat × Nat) := []
  boot : Boot := .rom
  /-- The boot buffer (R411), bytes by offset in the form of `Memory.wf`. -/
  bootBuf : List Host.Cell := []
  bootstat : Word32 := 0
  /-- The boot command being checked (BOOTSTAT.BUSY, R411). -/
  bootBusy : Option BootCmd := none
  pkgId : Nat := 0
  measure : List (Nat × BitVec 512) := []
  spdmVersion : Bool := false
  spdmCaps : Bool := false
  spdmAlgs : Option (Bool × Bool) := none
  spdmResp : List Byte := []
  /-- The mailbox (R414), bytes by offset in the form of `Memory.wf`. -/
  mailbox : List Host.Cell := []
  oppoint : Nat := 0
  oppointReg : Nat := 0
  hipt : Bool := false
  lifttime : Word32 := 0x3E8
  aithresh : Word32 := 0x0381C07E
  grantmax : Word32 := 0x10000
  freezePin : Bool := false
  freezeReg : Bool := false
  /-- The requests of the host and of the pod held during a freeze, in the order they arrived (R417). -/
  heldMoves : List Move := []
  /-- Which core and slot the step fires (log entry 4). -/
  focus : Nat × Nat := (0, 0)
  /-- Whether the move being made meets something it has to wait for, so that it is not made now (log entry 117). -/
  mustWait : Bool := false
  /-- The chosen next moves (log entry 4). -/
  moves : List Move := []
  /-- Steps made, to which the free values are applied (log entry 4). -/
  tick : Nat := 0
  deriving DecidableEq, Repr, Inhabited

/-- The state right after reset: every field at its reset value (the defaults above). -/
def State.reset : State := {}

end Sys2Proof.Machine
end

