-- ==== Sys2Proof/Machine/Mem.lean ====
section
/-! DEFINITION. Bytes of memory, poison (R361), the regions of a channel (R355), and translation (R149, R370 to R378). -/

namespace Sys2Proof.Machine

/-! Memory keys (log entry 3). -/

def keyScratch (core a : Nat) : Nat := 2 ^ 64 + core * 2 ^ 21 + a
def keyRemote (pod pkg pa : Nat) : Nat := 2 ^ 72 + pod % 65536 * 2 ^ 55 + pkg * 2 ^ 47 + pa
def keyHost (a : Nat) : Nat := 2 ^ 80 + a

/-- A key of a local physical address. -/
def isLocal (key : Nat) : Bool := key < 2 ^ 40
def isScratch (key : Nat) : Bool := 2 ^ 64 ≤ key && key < 2 ^ 72
def isRemote (key : Nat) : Bool := 2 ^ 72 ≤ key && key < 2 ^ 80
def isHost (key : Nat) : Bool := 2 ^ 80 ≤ key

/-- The byte at a key; an unlisted byte reads as 0 (log entry 1). -/
def memByte (m : List Host.Cell) (key : Nat) : Byte := tabGet 0 m key

/-- Storing a byte; storing 0 unlists the key. -/
def memSet (m : List Host.Cell) (key : Nat) (b : Byte) : List Host.Cell := tabSet 0 m key b

/-- The canonical form: keys strictly rising, no byte listed that an unlisted one would read as. -/
def Memory.wf : List Host.Cell → Bool
  | [] => true
  | [(_, b)] => b != 0
  | (k, b) :: (k', b') :: t => b != 0 && decide (k < k') && Memory.wf ((k', b') :: t)

/-- n bytes from a key as a number, lowest byte first (R55). -/
def memRead (m : List Host.Cell) : Nat → Nat → Nat
  | _, 0 => 0
  | key, n + 1 => (memByte m key).toNat + 256 * memRead m (key + 1) n

/-- Storing n bytes of a number, lowest byte first. -/
def memWrite (m : List Host.Cell) : Nat → Nat → Nat → List Host.Cell
  | _, 0, _ => m
  | key, n + 1, x => memWrite (memSet m key (BitVec.ofNat 8 x)) (key + 1) n (x / 256)

/-- Storing a list of bytes. -/
def memWriteBytes (m : List Host.Cell) : Nat → List Byte → List Host.Cell
  | _, [] => m
  | key, b :: bs => memWriteBytes (memSet m key b) (key + 1) bs

/-! Parts of the state by number. -/

def State.core (s : State) (c : Nat) : Core := tabGet {} s.cores c
def State.setCore (s : State) (c : Nat) (x : Core) : State := { s with cores := tabPut s.cores c x }
def State.chan (s : State) (c : Nat) : Channel := tabGet {} s.chans c
def State.setChan (s : State) (c : Nat) (x : Channel) : State := { s with chans := tabPut s.chans c x }
def State.quad (s : State) (q : Nat) : Quad := tabGet {} s.quads q
def State.setQuad (s : State) (q : Nat) (x : Quad) : State := { s with quads := tabPut s.quads q x }
def State.partn (s : State) (p : Nat) : Part := tabGet {} s.parts p
def State.setPart (s : State) (p : Nat) (x : Part) : State := { s with parts := tabPut s.parts p x }
def State.fnOf (s : State) (f : Nat) : Fn := tabGet {} s.fns f
def State.setFn (s : State) (f : Nat) (x : Fn) : State := { s with fns := tabPut s.fns f x }
def State.die (s : State) (d : Nat) : Die := tabGet {} s.dies d
def State.setDie (s : State) (d : Nat) (x : Die) : State := { s with dies := tabPut s.dies d x }
def State.stk (s : State) (k : Nat) : Stack := tabGet {} s.stks k
def State.setStk (s : State) (k : Nat) (x : Stack) : State := { s with stks := tabPut s.stks k x }
def State.job? (s : State) (j : Nat) : Option Job := tabFind s.jobs j
def State.setJob (s : State) (j : Nat) (x : Job) : State := { s with jobs := tabPut s.jobs j x }
def State.task? (s : State) (c t : Nat) : Option Task := tabFind (s.core c).tasks t
def State.setTask (s : State) (c t : Nat) (x : Task) : State := s.setCore c { s.core c with tasks := tabPut (s.core c).tasks t x }
def State.rider? (s : State) (k : Nat) : Option Rider := tabFind s.riders k
def State.setRider (s : State) (k : Nat) (x : Rider) : State := { s with riders := tabPut s.riders k x }
def State.kernelOf (s : State) (ch k : Nat) : Option Kernel := tabFind (s.chan ch).kernels k

/-! Places of cores and channels (R53, R355). -/

def quadOfCore (c : Nat) : Nat := c / 4
def dieOfCore (c : Nat) : Nat := c / 128
def chanOfPa (pa : Nat) : Nat := pa / 2 ^ 31
def quadOfChan (c : Nat) : Nat := c / 3
def stackOfChan (c : Nat) : Nat := c / 32

/-- The size of a channel's swept region in bytes (R355). -/
def sweptSize (ch : Channel) : Nat := 2 ^ 31 - 2 ^ (ch.drszl + 20)

/-- Whether the bytes pa to pa + n - 1 lie wholly in the direct (or the swept) region of one channel. -/
def inRegion (s : State) (swept : Bool) (pa n : Nat) : Bool :=
  let c := chanOfPa pa
  let off := pa % 2 ^ 31
  let z := sweptSize (s.chan c)
  c < 384 && off + n ≤ 2 ^ 31 && (if swept then off + n ≤ z else z ≤ off)

/-! Poison (R361). -/

/-- Whether any sector that holds bytes of a run is poisoned. -/
def poisoned (s : State) (key n : Nat) : Bool :=
  (List.range ((key + n - 1) / 32 + 1 - key / 32)).any fun i => tabGet false s.poison (key / 32 + i)

/-- The poison bits after a run is written: a sector covered whole takes `p`, one covered in part keeps its bit or takes `p`. -/
def poisonAfter (s : State) (key n : Nat) (p : Bool) : List (Nat × Bool) :=
  if n = 0 then s.poison
  else (List.range ((key + n - 1) / 32 + 1 - key / 32)).foldl (fun m i =>
    let sec := key / 32 + i
    let whole : Bool := key ≤ 32 * sec && 32 * sec + 32 ≤ key + n
    tabSet false m sec (p || (!whole && tabGet false m sec))) s.poison

/-- The latent errors left after a run is written: fresh check bits in the sectors covered whole. -/
def latentAfter (s : State) (key n : Nat) : List (Nat × Bool) :=
  s.latent.filter fun e => !(key ≤ 32 * e.1 && 32 * e.1 + 32 ≤ key + n)

/-- Writing n bytes at a key, poisoned or clean (R361). -/
def writeRun (s : State) (key n x : Nat) (p : Bool) : State :=
  { s with mem := memWrite s.mem key n x, poison := poisonAfter s key n p, latent := latentAfter s key n }

/-- A sector written whole, by however many moves: fresh data with fresh check bits (R361). -/
def freshSector (s : State) (sec : Nat) : State :=
  { s with poison := tabSet false s.poison sec false, latent := tabDel s.latent sec }

/-- Records an uncorrectable line in UEADDR (R361). -/
def noteUncorrectable (s : State) (pa : Nat) : State :=
  let c := chanOfPa pa
  s.setChan c { s.chan c with ueaddr := BitVec.ofNat 32 (pa % 2 ^ 31 / 256 * 256 + 1) }

/-- Counts a corrected error in ECNT (R361). -/
def noteCorrected (s : State) (pa : Nat) : State :=
  let c := chanOfPa pa
  let e := (s.chan c).ecnt
  s.setChan c { s.chan c with ecnt := if e.toNat = 2 ^ 32 - 1 then e else e + 1 }

/-- What reading the lines of a run finds (R361): latent errors are corrected and counted, or poison the sector. -/
def readCheck (s : State) (key n : Nat) : State :=
  (s.latent.filter fun e => key / 256 ≤ e.1 / 8 && e.1 / 8 ≤ (key + n - 1) / 256).foldl (fun s e =>
    let s' := { s with latent := tabDel s.latent e.1 }
    if e.2 then noteCorrected s' (32 * e.1)
    else noteUncorrectable { s' with poison := tabSet false s'.poison e.1 true } (32 * e.1)) s

/-! The cipher of the stacks (R365). -/

/-- The blocks of 16 bytes that hold bytes of a run. -/
def blocksOf (key n : Nat) : List Nat := (List.range ((key + n - 1) / 16 + 1 - key / 16)).map fun i => key / 16 + i

/-- A block's bytes as a reading shows them; a block that nothing has written shows the same to every reading. -/
def shownBlock (s : State) (view blk : Nat) : Nat :=
  let x := memRead s.mem (16 * blk) 16
  match tabFind s.views blk with
  | some v => if v = view then x else Config.cipher v view blk x % 2 ^ 128
  | none => x

/-- The bytes of a run as a reading shows them; no reading (0) where the cipher has no part. -/
def viewRead (s : State) (view key n : Nat) : Nat :=
  if view = 0 || (blocksOf key n).all (fun b => (tabFind s.views b).all fun v => v == view) then memRead s.mem key n
  else leNat ((List.range n).map fun i => byteOf (shownBlock s view ((key + i) / 16)) ((key + i) % 16))

/-- Puts the blocks of a run under a reading: a write enciphers the blocks it touches anew. -/
def takeView (s : State) (view key n : Nat) : State :=
  if view = 0 || n = 0 then s
  else (blocksOf key n).foldl (fun s b =>
    { s with mem := if (tabFind s.views b).any fun v => v != view then memWrite s.mem (16 * b) 16 (shownBlock s view b) else s.mem
             views := tabPut s.views b view }) s

/-- Writing n bytes under a reading (R361, R365). -/
def writeView (s : State) (view key n x : Nat) (p : Bool) : State := writeRun (takeView s view key n) key n x p

/-! The controller pipes (R356, R367). -/

/-- Whether the channel of a location takes requests of a scope now: those of package scope and wider come to its controller. -/
def pipeOpen (s : State) (key scope : Nat) : Bool :=
  !(isLocal key && 3 ≤ scope) ||
    (let ch := s.chan (chanOfPa key)
     !ch.train && !ch.trctl && ch.direct < 48)

/-- The move being made has to wait: what it would leave is dropped, and it may be made again later (R356, R367; log entry 117). -/
def holdMove (s : State) : State := { s with mustWait := true }

/-- A part of a move that has to wait is left for later, the rest of the move being made. -/
def tryPart (f : State → State) (s : State) : State :=
  let u := f { s with mustWait := false }
  if u.mustWait then s else { u with mustWait := s.mustWait }

/-- A request made at a controller pipe is outstanding until a direct slot carries it (R356). -/
def countDirect (s : State) (key scope : Nat) : State :=
  if isLocal key && 3 ≤ scope then
    let c := chanOfPa key
    s.setChan c { s.chan c with direct := (s.chan c).direct + 1 }
  else s

/-- The requests that the reads of one move make one after another, each once the one before has been answered: the last place of the
controller serves them in turn (R356, R375; log entry 117). -/
def countInTurn (s : State) (key : Nat) : State :=
  let c := chanOfPa key
  if isLocal key && (s.chan c).direct < 47 then s.setChan c { s.chan c with direct := (s.chan c).direct + 1 } else s

/-! Atomics at the pipes (R322). -/

def isAtomicOp (op : Nat) : Bool := 0x80 ≤ op && op ≤ 0x8A && op != 0x89

/-- The pipe of a home that performs the accesses of a scope: 1 the L2 pipe, which weak accesses take too, 2 the controller pipe
(R316). -/
def pipeOf (scope : Nat) : Nat := if scope ≤ 2 then 1 else 2

/-- The words of the atomics that the device itself makes and those of other packages, between their read and their write, each with its pipe:
the completion words of riders, sequence units and copies, and the requests of other packages, at the controller pipe; those of tile tasks
at the L2 pipe (R299, R322, R407). -/
def deviceAtomics (s : State) : List (Nat × MemRun) :=
  let at_ := fun (pipe : Nat) (w : Option (MemRun × Nat)) => (w.map fun x => (pipe, x.1)).toList
  (s.riders.flatMap fun e => at_ 2 e.2.cwHeld) ++ (s.kvsends.flatMap fun e => at_ 2 e.2.cwHeld) ++
    (s.cores.flatMap fun e => e.2.tasks.flatMap fun x => x.2.chains.flatMap fun y => y.2.cards.flatMap fun k => at_ 2 k.cwHeld) ++
    (s.quads.flatMap fun e => e.2.ttasks.flatMap fun t => at_ 1 t.cwHeld) ++ s.homeAtoms.map fun h => (2, h.run)

/-- Whether an atomic stands between its read and its write at a pipe of a run: no other move of that pipe may come between (R322). -/
def pipeHeld (s : State) (pipe key n : Nat) : Bool :=
  isLocal key && ((deviceAtomics s).any fun w => w.1 == pipe && w.2.key < key + n && key < w.2.key + w.2.len) || isLocal key && s.cores.any fun e => e.2.tasks.any fun x => (x.2.phase.toList ++ x.2.held.toList).any fun ph => ph.accs.any fun y => y.2.any fun a =>
    isAtomicOp a.op && a.stage == .issued && pipeOf a.w.scope.toNat == pipe && a.pieces.any fun p => p.doneP && p.key < key + n && key < p.key + p.len

/-! Host memory (R330). -/

/-- Whether host memory can be read now: every earlier posted write performed, none to the location buffered (R330). -/
def hostReady (s : State) (key n : Nat) : Bool :=
  !isHost key || (s.hostLink.isEmpty && s.hostWc.all fun h => !(keyHost h.addr < key + n && key < keyHost h.addr + h.bytes.length))

/-- Whether an access of a scope may be made at its home now (R322, R330, R356). -/
def homeOpen (s : State) (key n scope : Nat) : Bool :=
  pipeOpen s key scope && hostReady s key n && !pipeHeld s (pipeOf scope) key n

/-! Translation. -/

/-- A fault found by a check: its class of Table 16.1, DETAIL, ACC and the address (Table 16.2). -/
structure FaultInfo where
  cls : Nat
  detail : Nat := 0
  acc : Nat := 0
  addr : Nat := 0
  info : Nat := 0
  deriving DecidableEq, Repr, Inhabited

/-- Fields of a page entry (Table 22.3). -/
def peBit (e : Word64) (i : Nat) : Bool := e.getLsbD i
def pePart (e : Word64) : Nat := (e.extractLsb' 57 6).toNat
def peTgt (e : Word64) : Nat := (e.extractLsb' 55 2).toNat
def pePkg (e : Word64) : Nat := (e.extractLsb' 47 8).toNat
def peOa (e : Word64) : Nat := (e.extractLsb' 12 35).toNat * 4096
def peR (e : Word64) : Bool := peBit e 1
def peW (e : Word64) : Bool := peBit e 2
def peX (e : Word64) : Bool := peBit e 3
def peSwept (e : Word64) : Bool := peBit e 8
def peCreg (e : Word64) : Bool := peBit e 9
def peCow (e : Word64) : Bool := peBit e 11

/-- The reading of a leaf's lines (R365): a compute-region page stands in plaintext, any other local one under its partition's key. -/
def leafView (e : Word64) : Nat := if peTgt e != 0 then 0 else if peCreg e then 1 else pePart e + 2

/-- Bytes that a leaf at a level maps (R374). -/
def levelSize (l : Nat) : Nat := 2 ^ (12 + 9 * l)

/-- The table index of an address at a level (Table 22.1). -/
def vaIndex (va l : Nat) : Nat := bitsOf va (12 + 9 * l) 9

/-- The group rule of R374 for the 16 entries around an entry with CONT = 1. -/
def groupMerges (es : List Word64) (size : Nat) : Bool :=
  match es with
  | [] => false
  | e0 :: _ =>
    let rest := fun (e : Word64) => e.toNat - peOa e
    es.length == 16 && peOa e0 % (16 * size) == 0 &&
    ((es.zip (List.range 16)).all fun p =>
      peBit p.1 0 && peBit p.1 7 && peBit p.1 10 && rest p.1 == rest e0 && peOa p.1 == peOa e0 + p.2 * size)

/-- Whether an entry found at a level is reserved (Table 22.4), the group rule apart. -/
def entryReserved (s : State) (l : Nat) (e : Word64) : Bool :=
  let leaf := peBit e 7
  peBit e 63 || peBit e 4 || peBit e 5 || peBit e 6 ||
  (3 ≤ l && leaf) || (l == 0 && !leaf) ||
  (!leaf && (e.toNat != peOa e + 1 || !inRegion s false (peOa e) 4096)) ||
  (leaf && l == 2 && (peSwept e || peBit e 10)) ||
  (leaf && peOa e % levelSize l != 0) ||
  (leaf && peTgt e == 0 && (pePkg e != 0 || 2 ^ 40 ≤ peOa e || !inRegion s (peSwept e) (peOa e) (levelSize l))) ||
  (leaf && peTgt e == 1 && peCreg e) ||
  (leaf && peTgt e == 2 && (pePkg e != 0 || peSwept e || peCreg e)) ||
  (leaf && peTgt e == 3)

/-- What a walk ends in (R373): a leaf with the page it maps, or a fault. -/
inductive WalkEnd where
  | leaf (e : Word64) (va size base : Nat)
  | fault (f : FaultInfo)
  deriving DecidableEq, Repr, Inhabited

/-- The entry of a table at a PA, read at its home for a partition (R375). -/
def readEntry (s : State) (part table i : Nat) : Word64 := BitVec.ofNat 64 (viewRead s (part + 2) (table + 8 * i) 8)

/-- A walk from a table down the levels l = n - 1 to 0, with the table entries it met (R370, R373, R374). An entry that is
uncorrectable, or a group of 16 in which one is, ends it like any read of such data (Table 8.11; log entry 102). -/
def walkFrom (s : State) (part va : Nat) : Nat → Nat → List (Nat × Word64) → WalkEnd × List (Nat × Word64)
  | 0, _, met => (.fault { cls := 0x03, addr := va }, met)
  | n + 1, table, met =>
    let e := readEntry s part table (vaIndex va n)
    if poisoned s (table + 8 * vaIndex va n) 8 then (.fault { cls := 0x09, addr := va }, met)
    else if !peBit e 0 then (.fault { cls := 0x03, addr := va }, met)
    else if entryReserved s n e then (.fault { cls := 0x05, detail := n, addr := va }, met)
    else if peBit e 7 then
      let size := levelSize n
      let first := vaIndex va n / 16 * 16
      let group := (List.range 16).map fun i => readEntry s part table (first + i)
      let merged := peBit e 10 && groupMerges group size
      if peBit e 10 && poisoned s (table + 8 * first) 128 then (.fault { cls := 0x09, addr := va }, met)
      else if n == 0 && peSwept e && !merged then (.fault { cls := 0x05, detail := n, addr := va }, met)
      else if merged then (.leaf e (va / (16 * size) * (16 * size)) (16 * size) (peOa e / (16 * size) * (16 * size)), met)
      else (.leaf e (va / size * size) size (peOa e), met)
    else if (s.chan (chanOfPa (peOa e))).owner != part then (.fault { cls := 0x0E, addr := va }, met)
    else walkFrom s part va n (peOa e) (met ++ [(n, e)])

/-- The entries that a walk from a table reads, by PA (R375). -/
def walkReads (s : State) (part va : Nat) : Nat → Nat → List Nat
  | 0, _ => []
  | n + 1, table =>
    let e := readEntry s part table (vaIndex va n)
    (table + 8 * vaIndex va n) :: (if !peBit e 0 || peBit e 7 || entryReserved s n e then [] else walkReads s part va n (peOa e))

/-- The bits of an address that select the entry of a level. -/
def walkKey (va l : Nat) : Nat := va / levelSize l

/-- The walk-cache entry of a level for an address, if held. -/
def walkHit (q : Quad) (part va l : Nat) : Option WalkEntry :=
  q.walks.find? fun w => w.part == part && w.level == l && w.prefixKey == walkKey va l

/-- Keeps at most k entries that satisfy p, the first ones (R375, R376: least recently used goes first). -/
def keepFirst {α : Type} (p : α → Bool) : Nat → List α → List α
  | _, [] => []
  | k, x :: xs => if p x then (match k with | 0 => keepFirst p 0 xs | k + 1 => x :: keepFirst p k xs) else x :: keepFirst p k xs

/-- The walk cache with a table entry put first. -/
def fillWalk (q : Quad) (part va : Nat) (m : Nat × Word64) : Quad :=
  let w : WalkEntry := ⟨part, m.1, walkKey va m.1, m.2⟩
  let rest := q.walks.filter fun x => !(x.part == part && x.level == m.1 && x.prefixKey == w.prefixKey)
  { q with walks := keepFirst (fun x => x.level == m.1) 32 (w :: rest) }

/-- Where a walk of a quad begins: the lowest level whose table the walk cache supplies, else the root (R375). -/
def walkStart (s : State) (quad part va : Nat) : Nat × Nat :=
  ([1, 2, 3, 4].findSome? fun l => (walkHit (s.quad quad) part va l).map fun w => (l, peOa w.entry)).getD (5, peOa (s.partn part).ptroot)

/-- What the reads of a walk do at their homes: each is a direct request that checks its line (R356, R361, R375). -/
def walkRequests (s : State) (keys : List Nat) : State := keys.foldl (fun s k => countInTurn (readCheck s k 8) k) s

/-- What a walk gives that a controller makes wait: no fault of Table 16.1, since its move is not made. -/
def notYet : FaultInfo := { cls := 0 }

/-- A walk for an address of a partition by a quad's walker: it starts at the lowest level that the walk cache
supplies (R375), which becomes the most recently used of its level, and fills the walk cache; a walk that faults leaves its good
table entries there (R376). Its reads are one move (DESIGN CHOICE, log entry 117), which waits for their controllers (R356, R367). -/
def walk (s : State) (quad part va : Nat) : WalkEnd × State :=
  let root := (s.partn part).ptroot
  let start := walkStart s quad part va
  let keys := walkReads s part va start.1 start.2
  if !peBit root 0 then (.fault { cls := 0x03, addr := va }, s)
  else if !keys.all (fun k => pipeOpen s k 3) then (.fault notYet, holdMove s)
  else
    let s := walkRequests s keys
    let r := walkFrom s part va start.1 start.2 []
    let used := (walkHit (s.quad quad) part va start.1).toList.map fun w => (w.level, w.entry)
    (r.1, s.setQuad quad ((used ++ r.2).foldl (fun q m => fillWalk q part va m) (s.quad quad)))

/-- What an address of a partition resolves to: its leaf, its key, and how far the page runs. -/
structure Place where
  key : Nat
  leaf : Word64
  left : Nat
  deriving DecidableEq, Repr, Inhabited

/-- The key that a leaf and a base give an address of a partition of a pod group (R374): on another package an address of the partition of
that group there (R404). -/
def leafKey (pod : Nat) (leaf : Word64) (addr : Nat) : Nat :=
  match peTgt leaf with
  | 0 => addr
  | 1 => keyRemote pod (pePkg leaf) addr
  | _ => keyHost addr

/-- Whether a TLB entry maps an address of a partition. -/
def TlbEntry.hits (t : TlbEntry) (part va : Nat) : Bool := t.part == part && t.va ≤ va && va < t.va + t.size

/-- Whether an address can be looked up now: in the TLB, or by a walk whose entries' controllers take requests (R356). -/
def walkOpen (s : State) (quad part va : Nat) : Bool :=
  (s.quad quad).tlb.any (fun t => t.hits part va) || !peBit (s.partn part).ptroot 0 ||
    (let start := walkStart s quad part va
     (walkReads s part va start.1 start.2).all fun k => pipeOpen s k 3)

/-- A lookup through the quad's TLB, filled by a walk that ends in a leaf (R376), once PTROOT enables translation (R371). -/
def lookup (s : State) (quad part va : Nat) : Except FaultInfo Place × State :=
  let q := s.quad quad
  let hit := fun (t : TlbEntry) => t.hits part va
  let place := fun (leaf : Word64) (pva size base : Nat) => (⟨leafKey (s.partn part).podpart leaf (base + (va - pva)), leaf, pva + size - va⟩ : Place)
  match if peBit (s.partn part).ptroot 0 then q.tlb.find? hit else none with
  | some t =>
    (.ok (place t.leaf t.va t.size t.base), s.setQuad quad { q with tlb := t :: q.tlb.filter (fun x => !(hit x)) })
  | none =>
    match walk s quad part va with
    | (.fault f, s') => (.error f, s')
    | (.leaf e pva size base, s') =>
      let q' := s'.quad quad
      (.ok (place e pva size base), s'.setQuad quad { q' with tlb := (⟨part, pva, size, e, base⟩ :: q'.tlb).take 2048 })

/-- A boarding walk, through the walk caches alone (R379). -/
def lookupNoFill (s : State) (quad part va : Nat) : Except FaultInfo Place × State :=
  match walk s quad part va with
  | (.fault f, s') => (.error f, s')
  | (.leaf e pva size base, s') => (.ok ⟨leafKey (s'.partn part).podpart e (base + (va - pva)), e, pva + size - va⟩, s')

/-- What an access needs of its leaf (Table 22.5), with the ACC code its fault carries; whether it may reach a swept leaf of another
package, as a card may (R379), and whether its walk is a boarding's, which fills no TLB (R379). -/
structure Need where
  r : Bool := false
  w : Bool := false
  x : Bool := false
  acc : Nat := 0
  hostOk : Bool := true
  remoteOk : Bool := true
  podSwept : Bool := false
  boards : Bool := false
  deriving DecidableEq, Repr, Inhabited

def needRead : Need := { r := true }
def needWrite : Need := { w := true, acc := 1 }
/-- What the completion word of a copy or tile task needs, in a direct region: its `aaddw` reads and writes, and R166 has none of host
memory (Tables 14.5, 14.9 and 22.5). -/
def needWord : Need := { r := true, w := true, acc := 1, hostOk := false }
/-- What a boarding needs of a place that the rider will write (Table 11.7): no walk of it fills a TLB (R379). -/
def needBoard : Need := { w := true, acc := 1, boards := true }
def needExec : Need := { x := true, acc := 2 }

/-- The checks 4 to 7 of Table 8.11 on a leaf (R377, R378). -/
def checkLeaf (s : State) (part : Nat) (nd : Need) (va : Nat) (pl : Place) : Option FaultInfo :=
  let e := pl.leaf
  let f := fun c => some ({ cls := c, acc := nd.acc, addr := va } : FaultInfo)
  if (nd.r && !peR e) || (nd.w && !peW e) || (nd.x && !peX e) then
    some { cls := 0x04, acc := if nd.r && !peR e && nd.w then 0 else nd.acc, addr := va }
  else if (peTgt e == 2 && !nd.hostOk) || (peTgt e == 1 && !nd.remoteOk) then f 0x04
  else if pePart e != part then some { cls := 0x0E, addr := va }
  else if peTgt e == 0 && (s.chan (chanOfPa pl.key)).owner != part then some { cls := 0x0E, addr := va }
  else if peSwept e && !(nd.podSwept && peTgt e == 1) then some { cls := 0x06, addr := va }
  else if nd.w && peCow e then some { cls := 0x08, addr := va }
  else none

/-- Translation of one address with its checks; the scratchpad window is no concern of it (R149). -/
def translate (s : State) (quad part : Nat) (nd : Need) (va : Nat) : Except FaultInfo Place × State :=
  match (if nd.boards then lookupNoFill s quad part va else lookup s quad part va) with
  | (.error f, s') => (.error { f with acc := nd.acc }, s')
  | (.ok pl, s') => match checkLeaf s' part nd va pl with
    | some f => (.error f, s')
    | none => (.ok pl, s')

/-- Whether an address lies in the scratchpad window (R149). -/
def inWindow (va : Nat) : Bool := va < 0x180000

/-- Whether an address lies in the hole above the window (R149). -/
def inHole (va : Nat) : Bool := 0x180000 ≤ va && va < 0x200000

end Sys2Proof.Machine
end

