-- ==== Sys2Proof/Machine/Float.lean ====
section
/-! DEFINITION. Number formats, exact values and rounding (R91 to R104, R108), and the enclosures from which the
special functions take their admissible results (R134). Types are named by their codes (Table 3.5). -/

namespace Sys2Proof.Machine

/-! Status bits (Table 2.10). -/

def nvFlag : Flags := 16#5
def dzFlag : Flags := 8#5
def ofFlag : Flags := 4#5
def ufFlag : Flags := 2#5
def nxFlag : Flags := 1#5

/-! Formats (Table 5.1). -/

/-- Mantissa bits. -/
def fmtMant : Nat → Nat
  | 0 => 23 | 1 => 7 | 2 => 10 | 3 => 3 | 4 => 2 | _ => 1

/-- Exponent bias. -/
def fmtBias : Nat → Nat
  | 0 => 127 | 1 => 127 | 2 => 15 | 3 => 7 | 4 => 15 | _ => 1

/-- The pattern of the largest finite magnitude. -/
def fmtMax : Nat → Nat
  | 0 => 0x7F7FFFFF | 1 => 0x7F7F | 2 => 0x7BFF | 3 => 0x7E | 4 => 0x7B | _ => 7

def fmtHasInf (t : Nat) : Bool := t == 0 || t == 1 || t == 2 || t == 4
def fmtHasNan (t : Nat) : Bool := t ≤ 4

/-- The canonical NaN (R93). -/
def fmtNan : Nat → Nat
  | 0 => 0x7FC00000 | 1 => 0x7FC0 | 2 => 0x7E00 | 3 => 0x7F | _ => 0x7E

/-- The weight of one unit of the last place of a subnormal, as a power of two: 1 - bias - mantissa bits. -/
def fmtMinExp (t : Nat) : Int := 1 - (fmtBias t : Int) - (fmtMant t : Int)

/-- The sign bit of a pattern. -/
def fmtSign (t x : Nat) : Bool := x / 2 ^ (typeWidth t - 1) % 2 == 1

/-- The magnitude bits of a pattern. -/
def fmtMag (t x : Nat) : Nat := x % 2 ^ (typeWidth t - 1)

/-! Exact values. -/

/-- What a pattern decodes to: a NaN with its sign and whether it is signalling, an infinity, or (-1)^neg m 2^e. -/
inductive Val where
  | nan (neg sig : Bool)
  | inf (neg : Bool)
  | fin (neg : Bool) (m : Nat) (e : Int)
  deriving DecidableEq, Repr, Inhabited

def Val.isNan : Val → Bool
  | .nan _ _ => true
  | _ => false

def Val.isSnan : Val → Bool
  | .nan _ s => s
  | _ => false

def Val.isInf : Val → Bool
  | .inf _ => true
  | _ => false

def Val.isZero : Val → Bool
  | .fin _ m _ => m == 0
  | _ => false

def Val.neg? : Val → Bool
  | .nan n _ => n
  | .inf n => n
  | .fin n _ _ => n

def Val.negate : Val → Val
  | .nan n s => .nan (!n) s
  | .inf n => .inf (!n)
  | .fin n m e => .fin (!n) m e

def Val.zero : Val := .fin false 0 0

/-- The value of the magnitude pattern `mag` counted in representable steps from zero. -/
def magVal (t mag : Nat) : Nat × Int :=
  let mb := fmtMant t
  if mag / 2 ^ mb = 0 then (mag, fmtMinExp t)
  else (mag % 2 ^ mb + 2 ^ mb, fmtMinExp t + (mag / 2 ^ mb : Nat) - 1)

/-- Decoding of a floating-point pattern (R91, R92, R94). -/
def decodeFloat (t x : Nat) : Val :=
  let s := fmtSign t x
  let mag := fmtMag t x
  let mb := fmtMant t
  if t = 5 ∧ mag = 0 then .zero
  else if t = 3 then (if mag = 0x7F then .nan s false else .fin s (magVal t mag).1 (magVal t mag).2)
  else if fmtHasInf t ∧ mag > fmtMax t then
    (if mag = fmtMax t + 1 then .inf s else .nan s (mag / 2 ^ (mb - 1) % 2 == 0))
  else .fin s (magVal t mag).1 (magVal t mag).2

/-- The integer value of an element (R97). -/
def decodeInt (t x : Nat) : Int := if isSigned t then signedOf (typeWidth t) x else (x % 2 ^ typeWidth t : Nat)

/-- The exact value of an integer. -/
def Val.ofInt (n : Int) : Val := .fin (n < 0) n.natAbs 0

/-- The exact value of an element of any type but hx4. -/
def decodeElem (t x : Nat) : Val := if isInt t then Val.ofInt (decodeInt t x) else decodeFloat t x

/-- m 2^sh, floored when sh < 0. -/
def shiftNat (m : Nat) (sh : Int) : Nat := if 0 ≤ sh then m * 2 ^ sh.toNat else m / 2 ^ (-sh).toNat

/-- Whether m 2^sh is no integer. -/
def shiftLost (m : Nat) (sh : Int) : Bool := !(decide (0 ≤ sh)) && m % 2 ^ (-sh).toNat != 0

/-- m 2^sh rounded to an integer in mode m of R100 for a value of sign neg. -/
def roundShift (rnd : Nat) (neg : Bool) (m : Nat) (sh : Int) : Nat :=
  let q := shiftNat m sh
  if shiftLost m sh then
    let half := 2 ^ ((-sh).toNat - 1)
    let r := m % 2 ^ (-sh).toNat
    let up := match rnd with
      | 0 => r > half || (r == half && q % 2 == 1)
      | 1 => false
      | 2 => !neg
      | _ => neg
    if up then q + 1 else q
  else q

/-- The exponent of the last place that t keeps for the value m 2^e, m nonzero (RoundUnbounded of R100). -/
def lastPlace (t m : Nat) (e : Int) : Int := max ((Nat.log2 m : Int) + e - fmtMant t) (fmtMinExp t)

/-- The number of representable steps of the magnitude k 2^q, k at most 2^(mantissa bits + 1). -/
def stepsOf (t k : Nat) (q : Int) : Nat := (q - fmtMinExp t).toNat * 2 ^ fmtMant t + k

/-- What Round gives (R100 to R102): the pattern, the status it raises and whether the element is out of range. -/
structure Rounded where
  bits : Nat
  flags : Flags
  out : Bool
  deriving DecidableEq, Repr, Inhabited

def signBit (t : Nat) (neg : Bool) : Nat := if neg then 2 ^ (typeWidth t - 1) else 0

/-- Status of a finite, in-range result: R101's detection after rounding. -/
def roundStatus (t steps : Nat) (inexact : Bool) : Flags :=
  if inexact then (if steps < 2 ^ fmtMant t then ufFlag ||| nxFlag else nxFlag) else 0

/-- Round (R100) into a floating-point format. -/
def roundFloat (t : Nat) (rnd : Nat) (sat : Bool) (v : Val) : Rounded :=
  match v with
  | .nan neg sig =>
    if fmtHasNan t then ⟨fmtNan t, if sig then nvFlag else 0, false⟩ else ⟨signBit t neg + fmtMax t, nvFlag, true⟩
  | .inf neg =>
    if fmtHasInf t && !sat then ⟨signBit t neg + fmtMax t + 1, 0, false⟩ else ⟨signBit t neg + fmtMax t, nxFlag, true⟩
  | .fin neg m e =>
    if m = 0 then ⟨if t = 5 then 0 else signBit t neg, 0, false⟩
    else
      let q := lastPlace t m e
      let steps := stepsOf t (roundShift rnd neg m (e - q)) q
      if steps ≤ fmtMax t then
        ⟨(if t = 5 && steps == 0 then 0 else signBit t neg + steps), roundStatus t steps (shiftLost m (e - q)), false⟩
      else if fmtHasInf t && !sat && (rnd == 0 || (rnd == 2 && !neg) || (rnd == 3 && neg)) then
        ⟨signBit t neg + fmtMax t + 1, ofFlag ||| nxFlag, true⟩
      else ⟨signBit t neg + fmtMax t, ofFlag ||| nxFlag, true⟩

/-- The least and the greatest integer of a type (R97). -/
def intMin (t : Nat) : Int := if isSigned t then -(2 ^ (typeWidth t - 1) : Int) else 0
def intMax (t : Nat) : Int := if isSigned t then 2 ^ (typeWidth t - 1) - 1 else 2 ^ typeWidth t - 1

/-- Saturate of R97. -/
def saturate (t : Nat) (x : Int) : Int := max (intMin t) (min (intMax t) x)

/-- The pattern of an integer in a type. -/
def encodeInt (t : Nat) (x : Int) : Nat := wrapTo (typeWidth t) x

/-- Round and Saturate into an integer type (R102, R139). The range is asked of the rounded value (DEDUCED, log entry 125). -/
def roundInt (t : Nat) (rnd : Nat) (v : Val) : Rounded :=
  match v with
  | .nan neg _ => ⟨encodeInt t (if neg then intMin t else intMax t), nvFlag, true⟩
  | .inf neg => ⟨encodeInt t (if neg then intMin t else intMax t), nvFlag, true⟩
  | .fin neg m e =>
    let k : Int := roundShift rnd neg m e
    let x := if neg then -k else k
    if x = saturate t x then ⟨encodeInt t x, if shiftLost m e then nxFlag else 0, false⟩
    else ⟨encodeInt t (saturate t x), nvFlag, true⟩

/-! Exact arithmetic. -/

/-- The signed integer a finite value is at exponent e, e at most its own. -/
def alignTo (neg : Bool) (m : Nat) (e' e : Int) : Int :=
  let k : Int := (m * 2 ^ (e' - e).toNat : Nat)
  if neg then -k else k

/-- An exact sum; the second part says that the operation was invalid (∞ - ∞). A zero sum takes R100's sign. -/
def addVal (rnd : Nat) : Val → Val → Val × Bool
  | .nan n _, _ => (.nan n false, false)
  | _, .nan n _ => (.nan n false, false)
  | .inf a, .inf b => if a = b then (.inf a, false) else (.nan false false, true)
  | .inf a, _ => (.inf a, false)
  | _, .inf b => (.inf b, false)
  | .fin na ma ea, .fin nb mb eb =>
    let e := min ea eb
    let s := alignTo na ma ea e + alignTo nb mb eb e
    if s = 0 then
      (if na = nb then (.fin na 0 0, false) else (.fin (rnd == 3) 0 0, false))
    else (.fin (s < 0) s.natAbs e, false)

/-- An exact product; the second part says that the operation was invalid (0 × ∞). -/
def mulVal : Val → Val → Val × Bool
  | .nan n _, _ => (.nan n false, false)
  | _, .nan n _ => (.nan n false, false)
  | .inf a, .inf b => (.inf (a != b), false)
  | .inf a, .fin nb mb _ => if mb = 0 then (.nan false false, true) else (.inf (a != nb), false)
  | .fin na ma _, .inf b => if ma = 0 then (.nan false false, true) else (.inf (na != b), false)
  | .fin na ma ea, .fin nb mb eb => (.fin (na != nb) (ma * mb) (ea + eb), false)

/-- a × 2^n. -/
def scaleVal (n : Int) : Val → Val
  | .fin s m e => .fin s m (e + n)
  | v => v

/-- The numeric order of two values that are no NaN: -1, 0 or 1, with -0 equal to +0. -/
def cmpVal : Val → Val → Int
  | .inf a, .inf b => if a = b then 0 else if a then -1 else 1
  | .inf a, _ => if a then -1 else 1
  | _, .inf b => if b then 1 else -1
  | .fin na ma ea, .fin nb mb eb =>
    let e := min ea eb
    let d := alignTo na ma ea e - alignTo nb mb eb e
    if d = 0 then 0 else if d < 0 then -1 else 1
  | _, _ => 0

/-- Signalling operands raise NV (R101). -/
def snanFlags (vs : List Val) : Flags := if vs.any Val.isSnan then nvFlag else 0

/-- A rounded arithmetic result with the status of its operands. -/
def arith (t rnd : Nat) (ops : List Val) (r : Val × Bool) : Nat × Flags :=
  let y := roundFloat t rnd false r.1
  (y.bits, y.flags ||| snanFlags ops ||| (if r.2 then nvFlag else 0))

def faddBits (t rnd a b : Nat) : Nat × Flags :=
  arith t rnd [decodeFloat t a, decodeFloat t b] (addVal rnd (decodeFloat t a) (decodeFloat t b))

/-- The smaller (or larger) of two elements by R130: -0 below +0, a NaN yields the other operand. -/
def minMaxBits (t : Nat) (wantMax : Bool) (a b : Nat) : Nat × Flags :=
  let va := decodeFloat t a
  let vb := decodeFloat t b
  let fl := snanFlags [va, vb]
  if va.isNan && vb.isNan then (fmtNan t, fl)
  else if va.isNan then (b, fl)
  else if vb.isNan then (a, fl)
  else
    let c := cmpVal va vb
    let aLess := if c = 0 then va.neg? && !vb.neg? else decide (c < 0)
    let bLess := if c = 0 then vb.neg? && !va.neg? else decide (0 < c)
    (if wantMax then (if aLess then b else a) else (if bLess then b else a), fl)

/-- ScalePow2 of R108 on an fp32 pattern: zeros, infinities and NaN patterns unchanged. -/
def scalePow2 (a : Nat) (n : Int) : Nat :=
  match decodeFloat 0 a with
  | .fin s m e => if m = 0 then a else (roundFloat 0 0 false (.fin s m (e + n))).bits
  | _ => a

/-- Poison of R104 for one element of a type other than hx4. -/
def poisonElem (t : Nat) : Nat :=
  if t ≤ 4 then fmtNan t else if t = 5 then 8 else if t = 15 then 0
  else if isSigned t then encodeInt t (intMin t) else encodeInt t (intMax t)

/-! hx4 (R95). -/

/-- The exact value of an element code under SCALE and EXTRA. -/
def decodeHx4 (code scale extra : Nat) : Val :=
  if scale = 0xFF then .nan false false
  else scaleVal ((scale : Int) - 127) (if code = 8 then decodeFloat 3 extra else decodeFloat 5 code)

/-! Special functions: fixed-point enclosures with `fpBits` fraction bits. -/

def fpBits : Nat := 512

/-- 1 in fixed point. -/
def fpOne : Int := 2 ^ fpBits

/-- The error allowed for in every enclosure: 2^-380. -/
def fpSlack : Nat := 2 ^ (fpBits - 380)

/-- Σ_{k<n} s^k x^(2k+1)/(2k+1) with x = 1/d, by terms; s = -1 gives atan(1/d), s = 1 atanh(1/d). -/
def atanSeries (s : Int) (d : Nat) : Nat → Nat → Int → Int
  | 0, _, _ => 0
  | n + 1, k, p => p / (2 * k + 1 : Nat) + s * atanSeries s d n (k + 1) (p / (d * d : Nat))

/-- π by Machin's formula. -/
def fpPi : Int := 16 * atanSeries (-1) 5 120 0 (fpOne / 5) - 4 * atanSeries (-1) 239 40 0 (fpOne / 239)

/-- ln 2 = 2 atanh(1/3). -/
def fpLn2 : Int := 2 * atanSeries 1 3 170 0 (fpOne / 3)

/-- e^x for 0 ≤ x < 1 by its series. -/
def fpExpSeries (x : Int) : Nat → Nat → Int → Int
  | 0, _, _ => 0
  | n + 1, k, p => p + fpExpSeries x n (k + 1) (p * x / fpOne / (k + 1 : Nat))

def fpExp01 (x : Int) : Int := fpExpSeries x 120 0 fpOne

/-- e^y as (fixed-point mantissa, binary exponent). -/
def fpExp (y : Int) : Int × Int :=
  let k := y / fpLn2
  (fpExp01 (y - k * fpLn2), k)

/-- A fixed-point value from a mantissa and an exponent, floored. -/
def fpShift (x : Int) (k : Int) : Int := if 0 ≤ k then x * 2 ^ k.toNat else x / 2 ^ (-k).toNat

/-- sin x = Σ (-1)^j x^(2j+1)/(2j+1)!, cos x with the even terms. -/
def fpTrigSeries (x2 : Int) : Nat → Nat → Int → Int
  | 0, _, _ => 0
  | n + 1, k, p => p - fpTrigSeries x2 n (k + 2) (p * x2 / fpOne / ((k + 1) * (k + 2) : Nat))

def fpSin (x : Int) : Int := fpTrigSeries (x * x / fpOne) 90 1 x
def fpCos (x : Int) : Int := fpTrigSeries (x * x / fpOne) 90 0 fpOne

/-- 2 atanh z = ln((1+z)/(1-z)), 0 ≤ z ≤ 1/3. -/
def fpAtanhSeries (z2 : Int) : Nat → Nat → Int → Int
  | 0, _, _ => 0
  | n + 1, k, p => p / (2 * k + 1 : Nat) + fpAtanhSeries z2 n (k + 1) (p * z2 / fpOne)

/-- ln x for 1 ≤ x < 2. -/
def fpLn12 (x : Int) : Int :=
  let z := (x - fpOne) * fpOne / (x + fpOne)
  2 * fpAtanhSeries (z * z / fpOne) 170 0 z

/-- A finite value in fixed point, its magnitude cut at 2^11 (beyond it every function here has left the range). -/
def fpOfClamped (neg : Bool) (m : Nat) (e : Int) : Int :=
  let big : Bool := m != 0 && decide (11 ≤ (Nat.log2 m : Int) + e)
  let k : Int := if big then 2 ^ (fpBits + 11) else shiftNat m (e + fpBits)
  if neg then -k else k

/-- A magnitude enclosure: the exact |f| lies in [lo 2^e, hi 2^e], and f has the sign neg. -/
structure Encl where
  neg : Bool
  lo : Nat
  hi : Nat
  e : Int
  deriving Repr, Inhabited

/-- The enclosure of a fixed-point result x 2^k. -/
def enclOf (x : Int) (k : Int) : Encl := ⟨x < 0, x.natAbs - fpSlack, x.natAbs + fpSlack, k - fpBits⟩

/-- An enclosure, at 2^-fpBits, of a value whose magnitude is below 1: its upper end stays below 1 too. -/
def Encl.belowOne (c : Encl) : Encl := { c with hi := min c.hi (2 ^ fpBits - 1) }

/-- Enclosures of the functions of Table 7.4 for a finite operand that Table 7.5 does not decide, by opcode. -/
def specialEncl (op : Nat) (neg : Bool) (m : Nat) (e : Int) : Encl :=
  let x := fpOfClamped neg m e
  match op with
  | 0x40 => ⟨neg, 2 ^ 512 / m, 2 ^ 512 / m + 1, -e - 512⟩
  | 0x41 =>
    let odd : Int := e % 2
    let mm := m * 2 ^ odd.toNat
    let s := Nat.sqrt (2 ^ 600 / mm)
    ⟨false, s, s + 1, -(e - odd) / 2 - 300⟩
  | 0x43 =>
    let n := x / fpOne
    enclOf (fpExp01 ((x - n * fpOne) * fpLn2 / fpOne)) n
  | 0x44 =>
    let lg := Nat.log2 m
    let mant := fpOne * (m : Int) / 2 ^ lg
    enclOf (((lg : Int) + e) * fpOne + fpLn12 mant * fpOne / fpLn2) 0
  | 0x45 =>
    let ex := fpExp (-2 * (x.natAbs : Int))
    let q := fpShift ex.1 ex.2
    let r := (fpOne - q) * fpOne / (fpOne + q)
    (enclOf (if neg then -r else r) 0).belowOne
  | 0x46 =>
    let a : Int := shiftNat m (e + fpBits)
    let r := fpSin (a % (2 * fpPi))
    (enclOf (if neg then -r else r) 0).belowOne
  | 0x47 =>
    let a : Int := shiftNat m (e + fpBits)
    (enclOf (fpCos (a % (2 * fpPi))) 0).belowOne
  | _ =>
    let ex := fpExp (-(x.natAbs : Int))
    let q := fpShift ex.1 ex.2
    (enclOf (if neg then q * fpOne / (fpOne + q) else fpOne * fpOne / (fpOne + q)) 0).belowOne

/-- The bound of Table 7.4: ulps, and the exponent of the absolute bound where one applies. -/
def specialBound (op t : Nat) (m : Nat) (e : Int) : Nat × Option Int :=
  let wide := t = 0
  match op with
  | 0x40 | 0x41 => (1, none)
  | 0x44 =>
    let lg := (Nat.log2 m : Int) + e
    let inBand : Bool := lg == -1 || lg == 0 || (lg == 1 && m == 2 ^ Nat.log2 m)
    (if wide then 2 else 1, if wide && inBand then some (-22) else none)
  | 0x46 | 0x47 => (if wide then 2 else 1, some (if wide then -23 else -8))
  | 0x48 => (if wide then 2 else 1, if wide then some (-24) else none)
  | _ => (if wide then 2 else 1, none)

/-- Steps of the largest representable magnitude at or below (up = false) or the smallest at or above k 2^e. -/
def stepsAt (t : Nat) (up : Bool) (k : Nat) (e : Int) : Nat :=
  if k = 0 then 0
  else
    let q := lastPlace t k e
    min (stepsOf t (roundShift (if up then 2 else 1) false k (e - q)) q) (fmtMax t + 1)

/-- The signed count of steps of an end of the window: the least step at or above x 2^e (up) or the greatest at or below. -/
def ordAt (t : Nat) (up : Bool) (x : Int) (e : Int) : Int :=
  if 0 ≤ x then (stepsAt t up x.natAbs e : Int) else -(stepsAt t (!up) x.natAbs e : Int)

/-- The window of admissible results around an enclosure, as signed steps (R134): every value within the bound of
some value of the enclosure. -/
def specialWindow (t : Nat) (b : Nat × Option Int) (c : Encl) : Int × Int :=
  let q := if c.hi = 0 then fmtMinExp t else lastPlace t c.hi c.e
  let base := min c.e (min q (match b.2 with | some k => k | none => q))
  let ulps : Int := (b.1 * 2 ^ (q - base).toNat : Nat)
  let w : Int := match b.2 with
    | some k => max ulps ((2 ^ (k - base).toNat : Nat) : Int)
    | none => ulps
  let lo : Int := (c.lo * 2 ^ (c.e - base).toNat : Nat)
  let hi : Int := (c.hi * 2 ^ (c.e - base).toNat : Nat)
  if c.neg then (ordAt t true (-hi - w) base, ordAt t false (-lo + w) base)
  else (ordAt t true (lo - w) base, ordAt t false (hi + w) base)

/-- The pattern of a signed step count; a zero takes the sign of the exact value. -/
def bitsOfOrd (t : Nat) (neg : Bool) (o : Int) : Nat :=
  if o = 0 then signBit t neg else signBit t (o < 0) + o.natAbs

/-- A result chosen in a window, with the status of R134: NX, UF below the minimum normal, OF at an infinity. -/
def pickSpecial (t : Nat) (pick : Nat) (neg : Bool) (w : Int × Int) : Nat × Flags :=
  let o : Int := w.1 + ((pick % ((w.2 - w.1).toNat + 1) : Nat) : Int)
  let fl := if o.natAbs > fmtMax t then ofFlag ||| nxFlag
    else if o.natAbs < 2 ^ fmtMant t then ufFlag ||| nxFlag else nxFlag
  (bitsOfOrd t neg o, fl)

/-- The binary logarithm of a value that is a power of two. -/
def powerOfTwo? (m : Nat) (e : Int) : Option Int :=
  if m ≠ 0 ∧ m = 2 ^ Nat.log2 m then some ((Nat.log2 m : Int) + e) else none

/-- An integer as a value of TYPE where it is representable and the rounding loses nothing. -/
def exactBits? (t : Nat) (v : Val) : Option Nat :=
  let r := roundFloat t 0 false v
  if r.flags = 0 ∧ ¬ r.out then some r.bits else none

/-- The integer a finite value is, where it is one. -/
def intOf? (neg : Bool) (m : Nat) (e : Int) : Option Int :=
  if shiftLost m e then none
  else if m = 0 then some 0
  else if 24 ≤ (Nat.log2 m : Int) + e then none
  else some (if neg then -(shiftNat m e : Int) else shiftNat m e)

/-- The exact finite cases of R135 for a nonzero finite operand, by opcode. -/
def specialExact? (op t : Nat) (neg : Bool) (m : Nat) (e : Int) : Option Nat :=
  match op with
  | 0x40 => (powerOfTwo? m e).bind fun k => exactBits? t (.fin neg 1 (-k))
  | 0x41 => (powerOfTwo? m e).bind fun k => if k % 2 = 0 then exactBits? t (.fin false 1 (-(k / 2))) else none
  | 0x43 => (intOf? neg m e).bind fun n => exactBits? t (.fin false 1 n)
  | 0x44 => (powerOfTwo? m e).bind fun k => exactBits? t (Val.ofInt k)
  | _ => none

/-- Table 7.5 by opcode: the results of zeros, infinities and operands outside a function's domain. -/
def specialTable (op t : Nat) : Val → Option (Nat × Flags)
  | .nan _ s => some (fmtNan t, if s then nvFlag else 0)
  | .inf n =>
    match op with
    | 0x40 => some (signBit t n, 0)
    | 0x41 => some (if n then (fmtNan t, nvFlag) else (0, 0))
    | 0x43 => some (if n then 0 else fmtMax t + 1, 0)
    | 0x44 => some (if n then (fmtNan t, nvFlag) else (fmtMax t + 1, 0))
    | 0x45 => some ((roundFloat t 0 false (.fin n 1 0)).bits, 0)
    | 0x46 | 0x47 => some (fmtNan t, nvFlag)
    | _ => some (if n then 0 else (roundFloat t 0 false (.fin false 1 0)).bits, 0)
  | .fin n m e =>
    if m = 0 then
      match op with
      | 0x40 | 0x41 => some (signBit t n + fmtMax t + 1, dzFlag)
      | 0x44 => some (signBit t true + fmtMax t + 1, dzFlag)
      | 0x45 | 0x46 => some (signBit t n, 0)
      | 0x43 | 0x47 => some ((roundFloat t 0 false (.fin false 1 0)).bits, 0)
      | _ => some ((roundFloat t 0 false (.fin false 1 (-1))).bits, 0)
    else if n && (op == 0x41 || op == 0x44) then some (fmtNan t, nvFlag)
    else (specialExact? op t n m e).map fun b => (b, 0)

/-- A special function of R134 but `fsqrt`, on an operand pattern of TYPE. -/
def specialBits (op t x : Nat) : Nat × Flags :=
  let v := decodeFloat t x
  match specialTable op t v with
  | some r => r
  | none =>
    match v with
    | .fin n m e =>
      let c := specialEncl op n m e
      pickSpecial t (Config.special op t x) c.neg (specialWindow t (specialBound op t m e) c)
    | _ => (fmtNan t, 0)

/-- The exact square root as a value that rounds as it does: 120 root bits and a sticky bit. -/
def sqrtVal (m : Nat) (e : Int) : Val :=
  let odd : Int := e % 2
  let mm := m * 2 ^ odd.toNat * 2 ^ 240
  let s := Nat.sqrt mm
  .fin false (2 * s + (if s * s = mm then 0 else 1)) ((e - odd) / 2 - 121)

/-- `fsqrt` (R134, R135). -/
def sqrtBits (t rnd x : Nat) : Nat × Flags :=
  match decodeFloat t x with
  | .nan _ s => (fmtNan t, if s then nvFlag else 0)
  | .inf n => if n then (fmtNan t, nvFlag) else (x, 0)
  | .fin n m e =>
    if m = 0 then (x, 0)
    else if n then (fmtNan t, nvFlag)
    else
      let r := roundFloat t rnd false (sqrtVal m e)
      (r.bits, r.flags)

/-- `smexp` (R137) on fp32 patterns. -/
def smexpBits (a u : Nat) : Nat × Flags :=
  let va := decodeFloat 0 a
  let vu := decodeFloat 0 u
  if va.isNan || vu.isNan then (fmtNan 0, snanFlags [va, vu])
  else
    match addVal 0 va vu.negate with
    | (.nan _ _, _) => (fmtNan 0, nvFlag)
    | (.inf n, _) => (if n then 0 else fmtMax 0 + 1, 0)
    | (.fin n m e, _) =>
      if m = 0 then (0x3F800000, 0)
      else match specialExact? 0x43 0 n m e with
        | some b => (b, 0)
        | none =>
          let c := specialEncl 0x43 n m e
          pickSpecial 0 (Config.special 0x4A a u) c.neg (specialWindow 0 (specialBound 0x43 0 m e) c)

end Sys2Proof.Machine
end

