-- ==== Sys2Proof/Machine/Flags.lean ====
section
/-! DEFINITION. Comparisons, classes and the status they raise (R51, R114, R131, R132). -/

namespace Sys2Proof.Machine

/-- The condition codes 0 to 5 of R114 and Table 7.3 on an order of -1, 0 or 1. -/
def condHolds (code : Nat) (c : Int) : Bool :=
  match code with
  | 0 => c == 0
  | 1 => c != 0
  | 2 => decide (c < 0)
  | 3 => decide (c ≤ 0)
  | 4 => decide (0 < c)
  | _ => decide (0 ≤ c)

/-- The sign of a difference. -/
def signOf (d : Int) : Int := if d < 0 then -1 else if d = 0 then 0 else 1

def allOnes (w : Nat) : Nat := 2 ^ w - 1

def boolElem (w : Nat) (p : Bool) : Nat := if p then allOnes w else 0

/-- One element of `vcmp` (R114). -/
def vcmpBits (t code a b : Nat) : Nat × Flags :=
  if isF t then
    let va := decodeFloat t a
    let vb := decodeFloat t b
    let q := va.isNan || vb.isNan
    (boolElem (typeWidth t) (if q then code == 1 else condHolds code (cmpVal va vb)),
      if va.isSnan || vb.isSnan || (q && 2 ≤ code) then nvFlag else 0)
  else (boolElem (typeWidth t) (condHolds code (signOf (decodeInt t a - decodeInt t b))), 0)

/-- The place of a pattern in the IEEE 754 totalOrder (Table 7.3, code 8). -/
def totalKey (t x : Nat) : Int := if fmtSign t x then -(fmtMag t x : Int) - 1 else fmtMag t x

/-- One element of `fcmp` (R131). -/
def fcmpBits (t code a b : Nat) : Nat × Flags :=
  let va := decodeFloat t a
  let vb := decodeFloat t b
  let q := va.isNan || vb.isNan
  let r := match code with
    | 6 => q
    | 7 => !q
    | 8 => decide (totalKey t a < totalKey t b)
    | 9 => a == b
    | _ => if q then code == 1 else condHolds code (cmpVal va vb)
  (boolElem (typeWidth t) r, if code ≤ 7 then snanFlags [va, vb] else 0)

/-- The class bit of R132. -/
def fclassBits (t a : Nat) : Nat :=
  match decodeFloat t a with
  | .nan _ s => if s then 2 ^ 8 else 2 ^ 9
  | .inf n => if n then 1 else 2 ^ 7
  | .fin n m _ =>
    if m = 0 then (if n then 2 ^ 3 else 2 ^ 4)
    else if fmtMag t a < 2 ^ fmtMant t then (if n then 2 ^ 2 else 2 ^ 5)
    else (if n then 2 ^ 1 else 2 ^ 6)

/-- Whether status bits raised by a firing include one that FPEN enables (R51, R103). -/
def trapsOn (fpen raised : Flags) : Bool := fpen &&& raised != 0

end Sys2Proof.Machine
end

