-- ==== Sys2Proof/Machine/Operands.lean ====
section
/-! DEFINITION. Tokens as operands and results: element packing (R99), lane-valid masks (R28), the immediate token
(Table 3.7), predicate values (R66), and the hx4 pair of tokens (R96). -/

namespace Sys2Proof

/-- Element e of type t (R99). -/
def Token.elem (x : Token) (t e : Nat) : Nat := bitsOf x.data.toNat (e * typeWidth t) (typeWidth t)

/-- Lane l as a 32-bit word. -/
def Token.lane (x : Token) (l : Nat) : Nat := bitsOf x.data.toNat (32 * l) 32

end Sys2Proof

namespace Sys2Proof.Machine

/-- A null token (R29). -/
def nullToken : Token := ⟨0, 0, true⟩

/-- Bit l of a lane-valid mask. -/
def maskBit (m : BitVec 16) (l : Nat) : Bool := m.getLsbD l

/-- Whether element e of type t lies in valid lanes; for a 64-bit type both lanes of the pair (R99). -/
def elemValid (t : Nat) (m : BitVec 16) (e : Nat) : Bool :=
  if is64 t then maskBit m (2 * e) && maskBit m (2 * e + 1) else maskBit m (e * typeWidth t / 32)

/-- A number made of elements of width w, element 0 lowest. -/
def packElems (w : Nat) (xs : List Nat) : Nat := xs.foldr (fun x acc => x % 2 ^ w + 2 ^ w * acc) 0

/-- A mask from a predicate on lanes. -/
def maskOf (f : Nat → Bool) : BitVec 16 := BitVec.ofNat 16 (packElems 1 ((List.range 16).map fun l => (f l).toNat))

/-- A mask that holds both lanes of a 64-bit pair or neither (R99). -/
def pairMask (m : BitVec 16) : BitVec 16 := maskOf fun l => maskBit m (l / 2 * 2) && maskBit m (l / 2 * 2 + 1)

/-- The low n bits set. -/
def lowMask (n : Nat) : BitVec 16 := maskOf fun l => l < n

/-- A token of type t whose elements in valid lanes are given by f, every other element zero (R28). -/
def tokenOf (t : Nat) (m : BitVec 16) (f : Nat → Nat) : Token :=
  ⟨BitVec.ofNat 512 (packElems (typeWidth t) ((List.range (elemsPerToken t)).map fun e => if elemValid t m e then f e else 0)), m, false⟩

/-- A token of 32-bit lanes. -/
def laneToken (m : BitVec 16) (f : Nat → Nat) : Token := tokenOf 12 m f

/-- A token with all lanes valid that carries one word in every lane. -/
def splat (x : Nat) : Token := laneToken 0xFFFF#16 fun _ => x

/-- A card or status token from a number, all lanes valid. -/
def dataToken (x : Nat) : Token := ⟨BitVec.ofNat 512 x, 0xFFFF#16, false⟩

/-- A completion token: valid lane 0 holding zero, not null (R160). -/
def oneLane (x : Nat) : Token := laneToken 1#16 fun _ => x

/-- The immediate token of Table 3.7. -/
def immToken (t : Nat) (imm : BitVec 16) : Token :=
  let v := imm.toNat
  let x := if t = 0 then v * 65536
    else if t = 11 ∨ t = 13 then wrapTo (typeWidth t) (signedOf 16 v)
    else if t = 15 then v % 2
    else v
  tokenOf t 0xFFFF#16 fun _ => x

/-- A token that a node of TYPE pred produces: an element is bit 0 of its lane, and bits [31:1] are zero (R98). -/
def predForm (t : Nat) (x : Token) : Token :=
  if t = 15 then { x with data := x.data &&& BitVec.ofNat 512 (packElems 32 (List.replicate 16 1)) } else x

/-- The predicate value of a non-null token (R66). -/
def predValue (x : Token) : Bool := (List.range 16).any fun l => maskBit x.mask l && x.data.getLsbD (32 * l)

/-- What a stage firing reads: its operand tokens, its iteration, and the start value of the register it names. -/
structure StageIn where
  a : Token
  b : Token
  c : Token
  iter : Nat
  reg : Word64
  deriving Repr, Inhabited

/-- What a stage firing gives: a token for target 0, one for target 1, and the status it raises. -/
structure StageOut where
  out0 : Option Token
  out1 : Option Token
  flags : Flags
  deriving DecidableEq, Repr, Inhabited

/-- One token for every target. -/
def StageOut.both (x : Token) (fl : Flags) : StageOut := ⟨some x, some x, fl⟩

/-- R28's mask of a result of type t. -/
def resultMask (t : Nat) (ops : List Token) : BitVec 16 :=
  let m := ops.foldl (fun m x => m &&& x.mask) 0xFFFF#16
  if is64 t then pairMask m else m

/-- The elementwise model of R109: f on the elements of every valid lane, and the status they raise. -/
def elementwise (t : Nat) (ops : List Token) (f : List Nat → Nat × Flags) : StageOut :=
  let m := resultMask t ops
  let rs := (List.range (elemsPerToken t)).map fun e =>
    if elemValid t m e then f (ops.map fun x => x.elem t e) else (0, 0)
  .both ⟨BitVec.ofNat 512 (packElems (typeWidth t) (rs.map Prod.fst)), m, false⟩ (rs.foldl (fun a r => a ||| r.2) 0)

/-- An elementwise operation that raises no status (R110). -/
def elementwiseQuiet (t : Nat) (ops : List Token) (f : List Nat → Nat) : StageOut := elementwise t ops fun xs => (f xs, 0)

/-! hx4 in tokens (R96). -/

/-- The code of element i of block j of a data token. -/
def hx4Code (d : Token) (j i : Nat) : Nat := bitsOf d.data.toNat ((32 * j + i) * 4) 4

/-- SCALE and EXTRA of block j of a side token (Table 5.4). -/
def sideScale (x : Token) (j : Nat) : Nat := bitsOf x.data.toNat (32 * j) 8
def sideExtra (x : Token) (j : Nat) : Nat := bitsOf x.data.toNat (32 * j + 8) 8

/-- The 18 bytes of block j of a token pair (R95, R96). -/
def hx4Bytes (d side : Token) (j : Nat) : List Byte :=
  (List.range 16).map (fun k => BitVec.ofNat 8 (bitsOf d.data.toNat (128 * j + 8 * k) 8)) ++
    [BitVec.ofNat 8 (sideScale side j), BitVec.ofNat 8 (sideExtra side j)]

/-- The data token of up to four blocks of 18 bytes, given as numbers of 144 bits, with its lane-valid mask. -/
def hx4DataToken (m : BitVec 16) (blocks : List Nat) : Token :=
  ⟨BitVec.ofNat 512 (packElems 128 (blocks.map fun x => x % 2 ^ 128)), m, false⟩

/-- The side token of up to four blocks of 18 bytes. -/
def hx4SideToken (m : BitVec 16) (blocks : List Nat) : Token :=
  ⟨BitVec.ofNat 512 (packElems 32 (blocks.map fun x => bitsOf x 128 16)), m, false⟩

end Sys2Proof.Machine
end

