-- ==== Sys2Proof/Machine/StageInt.lean ====
section
/-! DEFINITION. The integer, logic, move and lane instructions as functions of their word and operands (06).
A stage of a block and a rider pipe run the same functions. -/

namespace Sys2Proof.Machine

/-- Wrap, or Sat where the SAT field is set (R111). -/
def wrapOrSat (w : StageW) (x : Int) : Nat :=
  let t := w.ty.toNat
  encodeInt t (if w.sat = 1#1 then saturate t x else x)

/-- A two-operand integer instruction from its exact result. -/
def intBin (w : StageW) (x : StageIn) (f : Int → Int → Nat) : StageOut :=
  let t := w.ty.toNat
  elementwiseQuiet t [x.a, x.b] fun
    | [p, q] => f (decodeInt t p) (decodeInt t q)
    | _ => 0

def intUn (w : StageW) (x : StageIn) (f : Int → Nat) : StageOut :=
  elementwiseQuiet w.ty.toNat [x.a] fun
    | [p] => f (decodeInt w.ty.toNat p)
    | _ => 0

def stVadd (w : StageW) (x : StageIn) : StageOut := intBin w x fun a b => encodeInt w.ty.toNat (a + b)
def stVsub (w : StageW) (x : StageIn) : StageOut := intBin w x fun a b => encodeInt w.ty.toNat (a - b)
def stVaddsat (w : StageW) (x : StageIn) : StageOut := intBin w x fun a b => encodeInt w.ty.toNat (saturate w.ty.toNat (a + b))
def stVsubsat (w : StageW) (x : StageIn) : StageOut := intBin w x fun a b => encodeInt w.ty.toNat (saturate w.ty.toNat (a - b))
def stVmul (w : StageW) (x : StageIn) : StageOut := intBin w x fun a b => wrapOrSat w (a * b)
def stVmulhi (w : StageW) (x : StageIn) : StageOut :=
  intBin w x fun a b => encodeInt w.ty.toNat (a * b / 2 ^ typeWidth w.ty.toNat)

def stVmad (w : StageW) (x : StageIn) : StageOut :=
  let t := w.ty.toNat
  elementwiseQuiet t [x.a, x.b, x.c] fun
    | [p, q, r] => wrapOrSat w (decodeInt t p * decodeInt t q + decodeInt t r)
    | _ => 0

def stVneg (w : StageW) (x : StageIn) : StageOut := intUn w x fun a => wrapOrSat w (-a)
def stVabs (w : StageW) (x : StageIn) : StageOut := intUn w x fun a => wrapOrSat w (a.natAbs : Nat)
def stVmin (w : StageW) (x : StageIn) : StageOut := intBin w x fun a b => encodeInt w.ty.toNat (min a b)
def stVmax (w : StageW) (x : StageIn) : StageOut := intBin w x fun a b => encodeInt w.ty.toNat (max a b)

/-- A bitwise instruction; for pred on bit 0 alone (R98, R111). -/
def bitwise (w : StageW) (x : StageIn) (f : Nat → Nat → Nat) : StageOut :=
  let t := w.ty.toNat
  elementwiseQuiet t [x.a, x.b] fun
    | [p, q] => if t = 15 then f (p % 2) (q % 2) % 2 else f p q
    | _ => 0

def stVand (w : StageW) (x : StageIn) : StageOut := bitwise w x fun a b => a &&& b
def stVor (w : StageW) (x : StageIn) : StageOut := bitwise w x fun a b => a ||| b
def stVxor (w : StageW) (x : StageIn) : StageOut := bitwise w x fun a b => a ^^^ b
def stVandn (w : StageW) (x : StageIn) : StageOut := bitwise w x fun a b => a &&& (b ^^^ allOnes (typeWidth w.ty.toNat))

/-- A shift by the unsigned amount in port b (R112). -/
def shiftOp (w : StageW) (x : StageIn) (f : Nat → Nat → Nat) : StageOut :=
  elementwiseQuiet w.ty.toNat [x.a, x.b] fun
    | [p, s] => f p s
    | _ => 0

/-- a × 2^s with the exponent cut where the exact product has left every range (R112). -/
def shlExact (wd : Nat) (a : Int) (s : Nat) : Int := a * 2 ^ min s (2 * wd)

def stVshl (w : StageW) (x : StageIn) : StageOut :=
  shiftOp w x fun p s => wrapOrSat w (shlExact (typeWidth w.ty.toNat) (decodeInt w.ty.toNat p) s)
def stVshr (w : StageW) (x : StageIn) : StageOut :=
  shiftOp w x fun p s => if typeWidth w.ty.toNat ≤ s then 0 else p >>> s
def stVsra (w : StageW) (x : StageIn) : StageOut :=
  let wd := typeWidth w.ty.toNat
  shiftOp w x fun p s => wrapTo wd (signedOf wd p / 2 ^ min s wd)
def stVrotl (w : StageW) (x : StageIn) : StageOut :=
  let wd := typeWidth w.ty.toNat
  shiftOp w x fun p s => ((p <<< (s % wd)) ||| (p >>> (wd - s % wd))) % 2 ^ wd

/-- Leading zeros of a w-bit element (R113). -/
def clz (w x : Nat) : Nat := if x = 0 then w else w - 1 - Nat.log2 x

/-- One bits of a w-bit element (R113). -/
def popc (w x : Nat) : Nat := (List.range w).foldl (fun n i => n + x / 2 ^ i % 2) 0

def stVclz (w : StageW) (x : StageIn) : StageOut :=
  elementwiseQuiet w.ty.toNat [x.a] fun xs => clz (typeWidth w.ty.toNat) (xs.headD 0)
def stVpopc (w : StageW) (x : StageIn) : StageOut :=
  elementwiseQuiet w.ty.toNat [x.a] fun xs => popc (typeWidth w.ty.toNat) (xs.headD 0)

def stVcmp (w : StageW) (x : StageIn) : StageOut :=
  elementwise w.ty.toNat [x.a, x.b] fun
    | [p, q] => vcmpBits w.ty.toNat w.aux.toNat p q
    | _ => (0, 0)

/-- R115; for pred bit 0 of c is tested and bit 0 is written (R98). -/
def stVsel (w : StageW) (x : StageIn) : StageOut :=
  let pr : Bool := w.ty.toNat = 15
  elementwiseQuiet w.ty.toNat [x.a, x.b, x.c] fun
    | [p, q, c] =>
      let r := if (if pr then c % 2 else c) = 0 then q else p
      if pr then r % 2 else r
    | _ => 0

/-! Bitfields (R116). -/

/-- Extend of R116: the low n bits of x, filled by the signedness of t. -/
def extendField (t n x : Nat) : Nat := if isSigned t then wrapTo (typeWidth t) (signedOf n x) else x % 2 ^ n

def stVext (w : StageW) (x : StageIn) : StageOut :=
  let t := w.ty.toNat
  elementwiseQuiet t [x.a, x.b] fun
    | [a, k] =>
      let n := k % 256
      if n = 0 then 0 else if typeWidth t ≤ n then a else extendField t n a
    | _ => 0

def stVbfx (w : StageW) (x : StageIn) : StageOut :=
  let t := w.ty.toNat
  let wd := typeWidth t
  elementwiseQuiet t [x.a, x.b] fun
    | [a, k] =>
      let pos := k % 256
      let len := bitsOf k 8 8
      if wd ≤ pos ∨ len = 0 then 0 else extendField t (min len (wd - pos)) (a >>> pos)
    | _ => 0

def stVbfi (w : StageW) (x : StageIn) : StageOut :=
  let t := w.ty.toNat
  let wd := typeWidth t
  elementwiseQuiet t [x.a, x.b, x.c] fun
    | [a, k, c] =>
      let pos := k % 256
      let len := bitsOf k 8 8
      if wd ≤ pos ∨ len = 0 then a
      else
        let m := min len (wd - pos)
        a - bitsOf a pos m * 2 ^ pos + c % 2 ^ m * 2 ^ pos
    | _ => 0

/-! Moves (R117, R119). -/

def stConst (w : StageW) (_ : StageIn) : StageOut := .both (immToken w.ty.toNat w.imm) 0
def stDup (_ : StageW) (x : StageIn) : StageOut := .both x.a 0
def stRdb (w : StageW) (x : StageIn) : StageOut := .both (tokenOf w.ty.toNat 0xFFFF#16 fun _ => x.reg.toNat % 2 ^ typeWidth w.ty.toNat) 0
/-- `wrb` emits no token; the write is recorded by its firing (R118). -/
def stWrb (_ : StageW) (_ : StageIn) : StageOut := ⟨none, none, 0⟩
def stItr (_ : StageW) (x : StageIn) : StageOut := .both (splat x.iter) 0
def stLidx (_ : StageW) (_ : StageIn) : StageOut := .both (laneToken 0xFFFF#16 id) 0
def stNul (_ : StageW) (_ : StageIn) : StageOut := .both nullToken 0

/-- Whether an element counts as nonzero for `mkpred`: a float zero of either sign is zero (R119). -/
def elemNonzero (t x : Nat) : Bool := if isF t then !(decodeFloat t x).isZero else x != 0

def stMkpred (w : StageW) (x : StageIn) : StageOut :=
  let t := w.ty.toNat
  .both (laneToken x.a.mask fun l =>
    if is64 t then (elemNonzero t (x.a.elem t (l / 2))).toNat
    else ((List.range (32 / typeWidth t)).any fun i => elemNonzero t (x.a.elem t (l * (32 / typeWidth t) + i))).toNat) 0

/-- The value that `wrb` records (R118), none where lane 0 or pair 0 is not valid. -/
def wrbValue (w : StageW) (a : Token) : Option Word64 :=
  let t := w.ty.toNat
  if elemValid t a.mask 0 then
    some (BitVec.ofNat 64 (if t = 11 then wrapTo 64 (signedOf 32 (a.lane 0)) else a.elem t 0))
  else none

/-! Lane operations (R120 to R126). -/

/-- The valid elements of a token in ascending index. -/
def validElems (t : Nat) (x : Token) : List Nat :=
  (List.range (elemsPerToken t)).filterMap fun e => if elemValid t x.mask e then some (x.elem t e) else none

/-- The identity of a function code in TYPE (R120). -/
def redIdentity (t code : Nat) : Nat :=
  if isF t then (match code with | 1 => fmtMax t + 1 | 2 => signBit t true + fmtMax t + 1 | _ => 0)
  else match code with
    | 1 => encodeInt t (intMax t)
    | 2 => encodeInt t (intMin t)
    | 3 => allOnes (typeWidth t)
    | _ => 0

/-- Comb of R120 on elements of type t. -/
def redComb (t code rnd a b : Nat) : Nat × Flags :=
  if isF t then (match code with | 1 => minMaxBits t false a b | 2 => minMaxBits t true a b | _ => faddBits t rnd a b)
  else
    let x := decodeInt t a
    let y := decodeInt t b
    (match code with
      | 0 => encodeInt t (x + y)
      | 1 => encodeInt t (min x y)
      | 2 => encodeInt t (max x y)
      | 3 => a &&& b
      | 4 => a ||| b
      | _ => a ^^^ b, 0)

/-- One round of the fixed pairing of R120. -/
def redRound (f : Nat → Nat → Nat × Flags) : List Nat → List Nat × Flags
  | a :: b :: rest =>
    let r := f a b
    let s := redRound f rest
    (r.1 :: s.1, r.2 ||| s.2)
  | xs => (xs, 0)

/-- The fixed tree of R120, by rounds. -/
def redTree (f : Nat → Nat → Nat × Flags) : Nat → List Nat → Flags → List Nat × Flags
  | 0, xs, fl => (xs, fl)
  | n + 1, xs, fl =>
    if xs.length ≤ 1 then (xs, fl)
    else
      let r := redRound f xs
      redTree f n r.1 (fl ||| r.2)

/-- The type a reduction is made in: 8- and 16-bit integers are widened (R120). -/
def redType (t : Nat) : Nat := if isInt t && typeWidth t < 32 then (if isSigned t then 11 else 12) else t

/-- An element widened by the signedness of its type. -/
def widenElem (t x : Nat) : Nat := if redType t = t then x else encodeInt (redType t) (decodeInt t x)

def stLred (w : StageW) (x : StageIn) : StageOut :=
  let t := w.ty.toNat
  let rt := redType t
  let code := w.aux.toNat
  let r := redTree (redComb rt code w.rnd.toNat) 7 ((validElems t x.a).map (widenElem t)) 0
  let v := r.1.headD (widenElem t (redIdentity t code))
  .both ⟨BitVec.ofNat 512 v, if is64 t then 3#16 else 1#16, false⟩ r.2

/-- One step of a scan: the running value before an element, and what the element contributes (R121). -/
def scanStep (f : Nat → Nat → Nat × Flags) (acc : Option Nat) (x : Nat) : Nat × Flags :=
  match acc with
  | none => (x, 0)
  | some a => f a x

/-- The results of a scan by element: inclusive or exclusive, none for elements of invalid lanes. -/
def scanElems (f : Nat → Nat → Nat × Flags) (excl : Bool) (ident : Nat) : Option Nat → List (Option Nat) → List Nat × Flags
  | _, [] => ([], 0)
  | acc, none :: xs =>
    let r := scanElems f excl ident acc xs
    (0 :: r.1, r.2)
  | acc, some x :: xs =>
    let s := scanStep f acc x
    let r := scanElems f excl ident (some s.1) xs
    ((if excl then acc.getD ident else s.1) :: r.1, s.2 ||| r.2)

/-- The elements an exclusive scan combines: the last one is combined by none (R121). -/
def scanInputs (t : Nat) (x : Token) : List (Option Nat) :=
  (List.range (elemsPerToken t)).map fun e => if elemValid t x.mask e then some (x.elem t e) else none

def stLscan (w : StageW) (x : StageIn) : StageOut :=
  let t := w.ty.toNat
  let f := redComb t w.aux.toNat w.rnd.toNat
  let excl : Bool := w.sub.toNat = 1
  let ins := scanInputs t x.a
  let r := scanElems f excl (redIdentity t w.aux.toNat) none ins
  let valids := ins.filterMap id
  let fl := if excl then (scanElems f excl 0 none (valids.dropLast.map some)).2 else r.2
  .both ⟨BitVec.ofNat 512 (packElems (typeWidth t) r.1), resultMask t [x.a], false⟩ fl

def stLbcast (w : StageW) (x : StageIn) : StageOut :=
  let t := w.ty.toNat
  let e := w.aux.toNat
  .both (predForm t (if elemValid t x.a.mask e then tokenOf t 0xFFFF#16 fun _ => x.a.elem t e else laneToken 0#16 fun _ => 0)) 0

/-- The source lane of result lane i for a shift by s (R123). -/
def shiftSource (wrap : Bool) (s : Int) (i : Nat) : Option Nat :=
  let j : Int := (i : Int) - s
  if wrap then some (j % 16).toNat else if 0 ≤ j ∧ j < 16 then some j.toNat else none

/-- A token of TYPE t whose lane i is a lane of x, or zero and invalid. R123 to R125 move whole lanes; what they produce keeps R98 and
R99 all the same: a pred element is bit 0 alone, and a 64-bit pair is valid whole or not at all (DEDUCED, log entry 114). -/
def selectLanes (t : Nat) (x : Token) (src : Nat → Option Nat) : Token :=
  let ok := fun i => match src i with | some j => maskBit x.mask j | none => false
  let m := maskOf ok
  predForm t (laneToken (if is64 t then pairMask m else m) fun i => match src i with | some j => x.lane j | none => 0)

def stLshift (w : StageW) (x : StageIn) : StageOut :=
  .both (selectLanes w.ty.toNat x.a (shiftSource (w.sub.toNat = 1) (signedOf 8 w.aux.toNat))) 0

def stLperm (w : StageW) (x : StageIn) : StageOut :=
  if is64 w.ty.toNat then
    let src := fun i =>
      let p := i / 2
      let q := x.b.lane (2 * p) % 8
      if maskBit x.b.mask (2 * p) && maskBit x.a.mask (2 * q) && maskBit x.a.mask (2 * q + 1) then some (2 * q + i % 2) else none
    .both (selectLanes w.ty.toNat x.a src) 0
  else .both (selectLanes w.ty.toNat x.a fun i => if maskBit x.b.mask i then some (x.b.lane i % 16) else none) 0

def stLpack (w : StageW) (x : StageIn) : StageOut :=
  let two := is64 w.ty.toNat
  let picked := (List.range 16).filter fun l =>
    if two then
      let p := l / 2 * 2
      maskBit x.a.mask p && maskBit x.a.mask (p + 1) && maskBit x.b.mask p && x.b.lane p % 2 == 1
    else maskBit x.a.mask l && maskBit x.b.mask l && x.b.lane l % 2 == 1
  .both (selectLanes w.ty.toNat x.a fun i => picked[i]?) 0

def stLcount (_ : StageW) (x : StageIn) : StageOut :=
  .both (oneLane ((List.range 16).foldl (fun n l => n + (maskBit x.a.mask l && x.a.lane l % 2 == 1).toNat) 0)) 0

end Sys2Proof.Machine
end

