-- ==== Sys2Proof/Machine/StageFloat.lean ====
section
/-! DEFINITION. The floating-point instructions, special functions and soft-maximum helpers (R129 to R137) as
functions of their word and operands. -/

namespace Sys2Proof.Machine

/-- An elementwise instruction on one, two or three patterns of TYPE. -/
def fl1 (w : StageW) (x : StageIn) (f : Nat → Nat × Flags) : StageOut :=
  elementwise w.ty.toNat [x.a] fun
    | [p] => f p
    | _ => (0, 0)

def fl2 (w : StageW) (x : StageIn) (f : Nat → Nat → Nat × Flags) : StageOut :=
  elementwise w.ty.toNat [x.a, x.b] fun
    | [p, q] => f p q
    | _ => (0, 0)

def fl3 (w : StageW) (x : StageIn) (f : Nat → Nat → Nat → Nat × Flags) : StageOut :=
  elementwise w.ty.toNat [x.a, x.b, x.c] fun
    | [p, q, r] => f p q r
    | _ => (0, 0)

/-- a × b + c with one rounding, the product's sign turned when `neg` is set (R129). -/
def fmaBits (t rnd : Nat) (neg : Bool) (a b c : Nat) : Nat × Flags :=
  let va := decodeFloat t a
  let vb := decodeFloat t b
  let vc := decodeFloat t c
  let p := mulVal va vb
  let s := addVal rnd (if neg then p.1.negate else p.1) vc
  arith t rnd [va, vb, vc] (s.1, p.2 || s.2)

def stFadd (w : StageW) (x : StageIn) : StageOut := fl2 w x fun a b => faddBits w.ty.toNat w.rnd.toNat a b
def stFsub (w : StageW) (x : StageIn) : StageOut := fl2 w x fun a b =>
  let t := w.ty.toNat
  arith t w.rnd.toNat [decodeFloat t a, decodeFloat t b] (addVal w.rnd.toNat (decodeFloat t a) (decodeFloat t b).negate)
def stFmul (w : StageW) (x : StageIn) : StageOut := fl2 w x fun a b =>
  let t := w.ty.toNat
  arith t w.rnd.toNat [decodeFloat t a, decodeFloat t b] (mulVal (decodeFloat t a) (decodeFloat t b))
def stFma (w : StageW) (x : StageIn) : StageOut := fl3 w x (fmaBits w.ty.toNat w.rnd.toNat false)
def stFnma (w : StageW) (x : StageIn) : StageOut := fl3 w x (fmaBits w.ty.toNat w.rnd.toNat true)

def stFmin (w : StageW) (x : StageIn) : StageOut := fl2 w x (minMaxBits w.ty.toNat false)
def stFmax (w : StageW) (x : StageIn) : StageOut := fl2 w x (minMaxBits w.ty.toNat true)
def stFabs (w : StageW) (x : StageIn) : StageOut := fl1 w x fun a => (fmtMag w.ty.toNat a, 0)
def stFneg (w : StageW) (x : StageIn) : StageOut := fl1 w x fun a =>
  (fmtMag w.ty.toNat a + signBit w.ty.toNat (!fmtSign w.ty.toNat a), 0)
def stFcpsgn (w : StageW) (x : StageIn) : StageOut := fl2 w x fun a b =>
  (fmtMag w.ty.toNat a + signBit w.ty.toNat (fmtSign w.ty.toNat b), 0)
def stFcmp (w : StageW) (x : StageIn) : StageOut := fl2 w x (fcmpBits w.ty.toNat w.aux.toNat)
def stFclass (w : StageW) (x : StageIn) : StageOut := fl1 w x fun a => (fclassBits w.ty.toNat a, 0)

/-- `frnd` of R133. -/
def frndBits (t rnd a : Nat) : Nat × Flags :=
  match decodeFloat t a with
  | .nan _ s => (fmtNan t, if s then nvFlag else 0)
  | .inf _ => (a, 0)
  | .fin n m e => ((roundFloat t 0 false (.fin n (roundShift rnd n m e) 0)).bits, 0)

/-- The scaling exponent of `fscaleb`: truncated toward zero and clamped (R133). -/
def scaleAmount : Val → Int
  | .nan _ _ => 0
  | .inf n => if n then -1100 else 1100
  | .fin n m e =>
    let k : Int := if 12 ≤ (Nat.log2 m : Int) + e then 1100 else min 1100 (shiftNat m e : Nat)
    if n then -k else k

def fscalebBits (t a b : Nat) : Nat × Flags :=
  let va := decodeFloat t a
  let vb := decodeFloat t b
  if vb.isNan then (fmtNan t, snanFlags [va, vb])
  else arith t 0 [va, vb] (scaleVal (scaleAmount vb) va, false)

def fgetexpBits (t a : Nat) : Nat × Flags :=
  match decodeFloat t a with
  | .nan _ s => (fmtNan t, if s then nvFlag else 0)
  | .inf _ => (fmtMax t + 1, 0)
  | .fin _ m e =>
    if m = 0 then (signBit t true + fmtMax t + 1, dzFlag)
    else ((roundFloat t 0 false (Val.ofInt ((Nat.log2 m : Int) + e))).bits, 0)

def fgetmanBits (t a : Nat) : Nat × Flags :=
  match decodeFloat t a with
  | .nan _ s => (fmtNan t, if s then nvFlag else 0)
  | .inf _ => (fmtNan t, nvFlag)
  | .fin n m _ =>
    if m = 0 then (a, 0) else ((roundFloat t 0 false (.fin n m (-(Nat.log2 m : Int)))).bits, 0)

def stFrnd (w : StageW) (x : StageIn) : StageOut := fl1 w x (frndBits w.ty.toNat w.rnd.toNat)
def stFscaleb (w : StageW) (x : StageIn) : StageOut := fl2 w x (fscalebBits w.ty.toNat)
def stFgetexp (w : StageW) (x : StageIn) : StageOut := fl1 w x (fgetexpBits w.ty.toNat)
def stFgetman (w : StageW) (x : StageIn) : StageOut := fl1 w x (fgetmanBits w.ty.toNat)

/-! Special functions (R134). -/

def stFrcp (w : StageW) (x : StageIn) : StageOut := fl1 w x (specialBits 0x40 w.ty.toNat)
def stFrsq (w : StageW) (x : StageIn) : StageOut := fl1 w x (specialBits 0x41 w.ty.toNat)
def stFsqrt (w : StageW) (x : StageIn) : StageOut := fl1 w x (sqrtBits w.ty.toNat w.rnd.toNat)
def stFexp2 (w : StageW) (x : StageIn) : StageOut := fl1 w x (specialBits 0x43 w.ty.toNat)
def stFlog2 (w : StageW) (x : StageIn) : StageOut := fl1 w x (specialBits 0x44 w.ty.toNat)
def stFtanh (w : StageW) (x : StageIn) : StageOut := fl1 w x (specialBits 0x45 w.ty.toNat)
def stFsin (w : StageW) (x : StageIn) : StageOut := fl1 w x (specialBits 0x46 w.ty.toNat)
def stFcos (w : StageW) (x : StageIn) : StageOut := fl1 w x (specialBits 0x47 w.ty.toNat)
def stFsigm (w : StageW) (x : StageIn) : StageOut := fl1 w x (specialBits 0x48 w.ty.toNat)

/-- Ceil of R136: a NaN is passed on, an infinity is itself. -/
def ceilBits (a : Nat) : Nat :=
  match decodeFloat 0 a with
  | .fin n m e => (roundFloat 0 0 false (.fin n (roundShift 2 n m e) 0)).bits
  | _ => a

/-- `smref` (R136): Max(u, Ceil(a)) with a zero result +0. Where u is a quiet NaN, "the other port's value" is taken as Ceil(a), the
operand of Max, and not as a itself (DESIGN CHOICE, log entry 115). -/
def smrefBits (a u : Nat) : Nat × Flags :=
  let r := minMaxBits 0 true u (ceilBits a)
  (if fmtMag 0 r.1 = 0 then 0 else r.1, r.2)

def stSmref (w : StageW) (x : StageIn) : StageOut := fl2 w x smrefBits
def stSmexp (w : StageW) (x : StageIn) : StageOut := fl2 w x smexpBits

end Sys2Proof.Machine
end

