-- ==== Sys2Proof/Machine/StageConv.lean ====
section
/-! DEFINITION. Conversions, hx4 block instructions and the bit-plane codec (R138 to R145) as functions of their
word and operands. -/

namespace Sys2Proof.Machine

/-- The source element that result element e is converted from (R138), none for a filler of a narrowing part. -/
def convSource (t u part e : Nat) : Option Nat :=
  if typeWidth t < typeWidth u then
    (let k := part * elemsPerToken u
     if k ≤ e ∧ e < k + elemsPerToken u then some (e - k) else none)
  else if typeWidth u < typeWidth t then some (part * elemsPerToken t + e)
  else some e

/-- The elements that lie, whole or in half, in lane l. -/
def elemsOfLane (t l : Nat) : List Nat :=
  if is64 t then [l / 2] else (List.range (32 / typeWidth t)).map fun i => l * (32 / typeWidth t) + i

/-- The lanes that hold element e. -/
def lanesOfElem (t e : Nat) : List Nat := if is64 t then [2 * e, 2 * e + 1] else [e * typeWidth t / 32]

/-- The overflow token of R102: null when no lane is out of range. -/
def overflowToken (lanes : List Nat) : Token :=
  if lanes.isEmpty then nullToken else oneLane (maskOf fun l => lanes.contains l).toNat

/-- A conversion by part with the value of each element given by f (R138). -/
def convert (w : StageW) (x : StageIn) (f : Nat → Rounded) : StageOut :=
  let t := w.ty.toNat
  let u := w.aux.toNat % 16
  let src := convSource t u w.sub.toNat
  let m := maskOf fun l => (elemsOfLane t l).all fun e => match src e with
    | some k => elemValid u x.a.mask k
    | none => true
  let rs : List (Nat × Option (Nat × Rounded)) := (List.range (elemsPerToken t)).map fun e =>
    match src e with
    | some k => if elemValid t m e then (let r := f (x.a.elem u k); (r.bits, some (k, r))) else (0, none)
    | none => (0, none)
  let outs := rs.flatMap fun r => match r.2 with
    | some (k, y) => if y.out then lanesOfElem u k else []
    | none => []
  ⟨some ⟨BitVec.ofNat 512 (packElems (typeWidth t) (rs.map Prod.fst)), m, false⟩, some (overflowToken outs),
    rs.foldl (fun a r => match r.2 with | some (_, y) => a ||| y.flags | none => a) 0⟩

/-- The value of one element of `cvt` or `cvtf` (R139). -/
def convElem (t u rnd : Nat) (sat : Bool) (x : Nat) : Rounded :=
  if isInt t then roundInt t rnd (decodeElem u x) else roundFloat t rnd sat (decodeElem u x)

def stCvt (w : StageW) (x : StageIn) : StageOut :=
  convert w x (convElem w.ty.toNat (w.aux.toNat % 16) w.rnd.toNat (w.sat = 1#1))

def stCvtf (w : StageW) (x : StageIn) : StageOut :=
  convert w x fun p => roundFloat w.ty.toNat w.rnd.toNat (w.sat = 1#1) (decodeFloat (w.aux.toNat % 16) p)

/-- One element of `cvti`: wrapped or saturated, out of range by its value, no status (R102, R139). -/
def cvtiElem (t u : Nat) (sat : Bool) (p : Nat) : Rounded :=
  let v := decodeInt u p
  ⟨encodeInt t (if sat then saturate t v else v), 0, saturate t v != v⟩

def stCvti (w : StageW) (x : StageIn) : StageOut := convert w x (cvtiElem w.ty.toNat (w.aux.toNat % 16) (w.sat = 1#1))

/-! hx4 blocks (R140 to R142). -/

/-- A nonnegative dyadic m 2^e compared with another: whether the first is below the second. -/
def magLt (a b : Nat × Int) : Bool :=
  let e := min a.2 b.2
  a.1 * 2 ^ (a.2 - e).toNat < b.1 * 2 ^ (b.2 - e).toNat

/-- |x - y| of two finite values. -/
def absDiff (x y : Val) : Nat × Int :=
  match addVal 0 x y.negate with
  | (.fin _ m e, _) => (m, e)
  | _ => (0, 0)

/-- A packed block: SCALE, EXTRA and 32 codes. -/
structure Hx4Block where
  scale : Nat
  extra : Nat
  codes : List Nat
  deriving DecidableEq, Repr, Inhabited

/-- The exact magnitude of a finite value, zero for others. -/
def magOf : Val → Nat × Int
  | .fin _ m e => (m, e)
  | _ => (0, 0)

/-- The scale exponent s of R140 from the largest finite magnitude. -/
def blockScale (amax : Nat × Int) : Int :=
  if amax.1 = 0 then -127 else max (-127) (min 127 ((Nat.log2 amax.1 : Int) + amax.2 - 2))

/-- Whether a value is finite. -/
def Val.isFin : Val → Bool
  | .fin _ _ _ => true
  | _ => false

/-- The code of a non-finite element with SAT = 1: zero for a NaN, ±6 for an infinity (R140). -/
def nonfiniteCode : Val → Nat
  | .inf n => if n then 15 else 7
  | _ => 0

/-- The block that R140 forms from 32 values. -/
def packBlock (rnd : Nat) (sat : Bool) (xs : List Val) : Hx4Block :=
  if !sat && xs.any (fun v => !v.isFin) then ⟨0xFF, 0, List.replicate 32 0⟩
  else
    let amax := (xs.filter Val.isFin).foldl (fun a v => if magLt a (magOf v) then magOf v else a) (0, 0)
    let s := blockScale amax
    let ys := xs.map (scaleVal (-s))
    let cs := ys.map fun y => if y.isFin then (roundFloat 5 rnd true y).bits else nonfiniteCode y
    let errs := (ys.zip cs).map fun p => if p.1.isFin then absDiff p.1 (decodeFloat 5 p.2) else (0, 0)
    let worst := errs.foldl (fun a e => if magLt a e then e else a) (0, 0)
    if worst.1 = 0 then ⟨(s + 127).toNat, 0, cs⟩
    else
      let k := errs.findIdx fun e => !magLt e worst
      let extra := (roundFloat 3 rnd true (ys.getD k .zero)).bits
      let codes := ((ys.zip cs).zip errs).map fun p =>
        if p.1.1.isFin && magLt (absDiff p.1.1 (decodeFloat 3 extra)) p.2 then 8 else p.1.2
      ⟨(s + 127).toNat, extra, codes⟩

/-- Status of a packed block (R140): NV, and NX where a value is clamped or its element decodes to another value, as every finite one
of a NaN block does. -/
def packStatus (sat : Bool) (xs : List Val) (b : Hx4Block) : Flags :=
  (xs.zip b.codes).foldl (fun a p => a ||| match p.1 with
    | .nan _ _ => nvFlag
    | .inf _ => if sat then nxFlag else nvFlag
    | .fin n m e => match decodeHx4 p.2 b.scale b.extra with
      | .fin n' m' e' => if (absDiff (.fin n m e) (.fin n' m' e')).1 = 0 then 0 else nxFlag
      | _ => nxFlag) 0

/-- The 18 bytes of a block as a number of 144 bits (Table 5.3). -/
def Hx4Block.num (b : Hx4Block) : Nat := packElems 4 b.codes + b.scale * 2 ^ 128 + b.extra * 2 ^ 136

/-- A token from a mask and a number. -/
def rawToken (m : BitVec 16) (x : Nat) : Token := ⟨BitVec.ofNat 512 x, m, false⟩

/-- The source elements of `blkpack` with the port and lane of each. -/
def packSources (u : Nat) (x : StageIn) : List (Nat × Nat × Nat) :=
  if u = 0 then (List.range 16).map (fun e => (0, e, x.a.elem 0 e)) ++ (List.range 16).map (fun e => (1, e, x.b.elem 0 e))
  else (List.range 32).map fun e => (0, e / 2, x.a.elem u e)

def stBlkpack (w : StageW) (x : StageIn) : StageOut :=
  let u := w.aux.toNat % 16
  let j := w.sub.toNat % 4
  let sat : Bool := w.sat = 1#1
  let srcs := packSources u x
  let lv := fun p l => maskBit (if p = 0 then x.a.mask else x.b.mask) l
  let valid := srcs.all fun q => lv q.1 q.2.1
  let xs := srcs.map fun q => if lv q.1 q.2.1 then decodeFloat u q.2.2 else .zero
  let b := packBlock w.rnd.toNat sat xs
  let main := if w.sub.toNat < 4 then
      rawToken (maskOf fun l => valid || l / 4 != j) (if valid then packElems 4 b.codes * 2 ^ (128 * j) else 0)
    else rawToken (maskOf fun l => l < 4 && (valid || l != j)) (if valid then (b.scale + 256 * b.extra) * 2 ^ (32 * j) else 0)
  let outOf := fun p => (srcs.zip xs).filterMap fun q => if q.1.1 = p && !q.2.isFin then some q.1.2.1 else none
  let ovf := if !valid || ((outOf 0).isEmpty && (outOf 1).isEmpty) then nullToken
    else if u = 0 then laneToken 3#16 fun l => if l ≤ 1 then (maskOf fun k => (outOf l).contains k).toNat else 0
    else overflowToken (outOf 0)
  ⟨some main, some ovf, if valid then packStatus sat xs b else 0⟩

/-- Block, first element and data lane of result element e of `blkunpack` (R141). -/
def unpackPlace (t part e : Nat) : Nat × Nat := if t = 0 then (part / 2, 16 * (part % 2) + e) else (part, e)

def stBlkunpack (w : StageW) (x : StageIn) : StageOut :=
  let t := w.ty.toNat
  let pl := unpackPlace t w.sub.toNat
  let m := maskOf fun l => (elemsOfLane t l).all fun e =>
    maskBit x.a.mask (4 * (pl e).1 + (pl e).2 / 8) && maskBit x.b.mask (pl e).1
  let rs := (List.range (elemsPerToken t)).map fun e =>
    if elemValid t m e then
      let j := (pl e).1
      let r := roundFloat t 0 false (decodeHx4 (hx4Code x.a j (pl e).2) (sideScale x.b j) (sideExtra x.b j))
      (r.bits, r.flags)
    else (0, 0)
  .both ⟨BitVec.ofNat 512 (packElems (typeWidth t) (rs.map Prod.fst)), m, false⟩ (rs.foldl (fun a r => a ||| r.2) 0)

/-- One lane of `blkscale` (R142). -/
def blkscaleLane (scale : Nat) (d : Int) : Nat × Flags :=
  if scale = 0xFF then (0xFF, 0)
  else
    let v : Int := (scale : Int) + d
    if 254 < v then (254, ofFlag ||| nxFlag) else if v < 0 then (0, ufFlag ||| nxFlag) else (v.toNat, 0)

def stBlkscale (_ : StageW) (x : StageIn) : StageOut :=
  let m := x.a.mask &&& x.b.mask
  let rs := (List.range 4).map fun j =>
    if maskBit m j then
      let r := blkscaleLane (sideScale x.a j) (signedOf 32 (x.b.lane j))
      (r.1 + 256 * sideExtra x.a j, r.2)
    else (0, 0)
  .both ⟨BitVec.ofNat 512 (packElems 32 (rs.map Prod.fst)), m, false⟩ (rs.foldl (fun a r => a ||| r.2) 0)

/-! The bit-plane codec (R143 to R145), on the words of a whole group. -/

/-- The 64 words of a group of up to four tokens; words of invalid lanes are 0 when `masked` is set. -/
def groupWords (masked : Bool) (xs : List Token) : List Nat :=
  (List.range 64).map fun i => match xs[i / 16]? with
    | some x => if !masked || maskBit x.mask (i % 16) then x.lane (i % 16) else 0
    | none => 0

/-- Plane b of the 64 deltas. -/
def planeOf (d : List Nat) (b : Nat) : Nat := packElems 1 (d.map fun x => x / 2 ^ b % 2)

/-- `bpc` on 64 words: the stream S and the map M (R144). -/
def bpcCode (ws : List Nat) : List Nat × Nat :=
  let d := (ws.zip (0 :: ws)).map fun p => (p.1 + 2 ^ 32 - p.2) % 2 ^ 32
  let q := fun b => if b = 31 then planeOf d 31 else planeOf d b ^^^ planeOf d (b + 1)
  ((List.range 32).flatMap fun b => if q b = 0 then [] else [q b % 2 ^ 32, q b / 2 ^ 32],
   packElems 1 ((List.range 32).map fun b => if q b = 0 then 0 else 1))

/-- The planes Q from plane b = 32 - n up, taken from the stream by the map (R145). -/
def bpxPlanes (m : Nat) : Nat → List Nat → List Nat
  | 0, _ => []
  | n + 1, s =>
    if m / 2 ^ (31 - n) % 2 = 1 then (s.getD 0 0 + 2 ^ 32 * s.getD 1 0) :: bpxPlanes m n (s.drop 2)
    else 0 :: bpxPlanes m n s

/-- `bpx` on the stream words and the map: the 64 words (R145). -/
def bpxDecode (s : List Nat) (m : Nat) : List Nat :=
  let q := bpxPlanes m 32 s
  let p := (q.reverse.foldl (fun (acc : List Nat) x => match acc with
    | [] => [x]
    | y :: ys => (x ^^^ y) :: y :: ys) [])
  let d := (List.range 64).map fun i => packElems 1 (p.map fun pl => pl / 2 ^ i % 2)
  (d.foldl (fun (acc : List Nat × Nat) x => let w := (acc.2 + x) % 2 ^ 32; (acc.1 ++ [w], w)) ([], 0)).1

/-- Lanes 16t to 16t + 15 of a list of words, with the mask of R144. -/
def streamToken (s : List Nat) (t : Nat) : Token :=
  laneToken (maskOf fun l => 16 * t + l < s.length) fun l => s.getD (16 * t + l) 0

/-- The tokens of the four firings of a group of `bpc` with the map token, all null for a null group (R143, R144). -/
def bpcGroup (xs : List Token) : List Token × Token :=
  if xs.any Token.null then (List.replicate 4 nullToken, nullToken)
  else
    let c := bpcCode (groupWords true xs)
    ((List.range 4).map (streamToken c.1), oneLane c.2)

/-- The tokens of the four firings of a group of `bpx` (R143, R145). -/
def bpxGroup (xs : List Token) (m : Token) : List Token :=
  if xs.any Token.null || m.null || !maskBit m.mask 0 then List.replicate 4 nullToken
  else
    let ws := bpxDecode (groupWords false xs) (m.lane 0)
    (List.range 4).map fun t => laneToken 0xFFFF#16 fun l => ws.getD (16 * t + l) 0

end Sys2Proof.Machine
end

