-- ==== Sys2Proof/Machine/Stage.lean ====
section
/-! DEFINITION. The stage instructions by name, for the rider pipes, which run the same functions (06, R227). -/

namespace Sys2Proof.Machine

/-- The word and the function of a stage instruction but the codec, whose function is on groups (R143). -/
def stageFn : Instr → Option (StageW × (StageW → StageIn → StageOut))
  | .vadd w => some (w, stVadd)
  | .vsub w => some (w, stVsub)
  | .vaddsat w => some (w, stVaddsat)
  | .vsubsat w => some (w, stVsubsat)
  | .vmul w => some (w, stVmul)
  | .vmulhi w => some (w, stVmulhi)
  | .vmad w => some (w, stVmad)
  | .vneg w => some (w, stVneg)
  | .vabs w => some (w, stVabs)
  | .vmin w => some (w, stVmin)
  | .vmax w => some (w, stVmax)
  | .vand w => some (w, stVand)
  | .vor w => some (w, stVor)
  | .vxor w => some (w, stVxor)
  | .vandn w => some (w, stVandn)
  | .vshl w => some (w, stVshl)
  | .vshr w => some (w, stVshr)
  | .vsra w => some (w, stVsra)
  | .vrotl w => some (w, stVrotl)
  | .vclz w => some (w, stVclz)
  | .vpopc w => some (w, stVpopc)
  | .vcmp w => some (w, stVcmp)
  | .vsel w => some (w, stVsel)
  | .vext w => some (w, stVext)
  | .vbfx w => some (w, stVbfx)
  | .vbfi w => some (w, stVbfi)
  | .const w => some (w, stConst)
  | .dup w => some (w, stDup)
  | .rdb w => some (w, stRdb)
  | .wrb w => some (w, stWrb)
  | .itr w => some (w, stItr)
  | .lidx w => some (w, stLidx)
  | .mkpred w => some (w, stMkpred)
  | .nul w => some (w, stNul)
  | .lred w => some (w, stLred)
  | .lscan w => some (w, stLscan)
  | .lbcast w => some (w, stLbcast)
  | .lshift w => some (w, stLshift)
  | .lperm w => some (w, stLperm)
  | .lpack w => some (w, stLpack)
  | .lcount w => some (w, stLcount)
  | .fadd w => some (w, stFadd)
  | .fsub w => some (w, stFsub)
  | .fmul w => some (w, stFmul)
  | .fma w => some (w, stFma)
  | .fnma w => some (w, stFnma)
  | .fmin w => some (w, stFmin)
  | .fmax w => some (w, stFmax)
  | .fabs w => some (w, stFabs)
  | .fneg w => some (w, stFneg)
  | .fcpsgn w => some (w, stFcpsgn)
  | .fcmp w => some (w, stFcmp)
  | .fclass w => some (w, stFclass)
  | .frnd w => some (w, stFrnd)
  | .fscaleb w => some (w, stFscaleb)
  | .fgetexp w => some (w, stFgetexp)
  | .fgetman w => some (w, stFgetman)
  | .frcp w => some (w, stFrcp)
  | .frsq w => some (w, stFrsq)
  | .fsqrt w => some (w, stFsqrt)
  | .fexp2 w => some (w, stFexp2)
  | .flog2 w => some (w, stFlog2)
  | .ftanh w => some (w, stFtanh)
  | .fsin w => some (w, stFsin)
  | .fcos w => some (w, stFcos)
  | .fsigm w => some (w, stFsigm)
  | .smref w => some (w, stSmref)
  | .smexp w => some (w, stSmexp)
  | .cvt w => some (w, stCvt)
  | .cvti w => some (w, stCvti)
  | .cvtf w => some (w, stCvtf)
  | .blkpack w => some (w, stBlkpack)
  | .blkunpack w => some (w, stBlkunpack)
  | .blkscale w => some (w, stBlkscale)
  | _ => none

/-- The operand ports of a stage opcode (Tables 6.1, 6.4, 7.1, 7.2 and the descriptions of 06 and 07), before BIMM
and PM: one bit each for a, b, c. -/
def stagePorts (op : Nat) (w : StageW) : List Nat :=
  if op == 0x20 || op == 0x22 || op == 0x24 || op == 0x25 || op == 0x27 then []
  else if op == 0x07 || op == 0x17 || op == 0x1A || op == 0x33 || op == 0x34 then [0, 1, 2]
  else if op == 0x08 || op == 0x09 || op == 0x14 || op == 0x15 || op == 0x21 || op == 0x23 || op == 0x26 ||
      op == 0x28 || op == 0x29 || op == 0x2A || op == 0x2B || op == 0x2E || op == 0x37 || op == 0x38 || op == 0x3B ||
      op == 0x3C || op == 0x3E || op == 0x3F || (0x40 ≤ op && op ≤ 0x48) || op == 0x50 || op == 0x51 || op == 0x52 ||
      op == 0x56 then [0]
  else if op == 0x53 then (if w.aux.toNat % 16 = 0 then [0, 1] else [0])
  else [0, 1]

/-- The ports that need a token: port b is replaced by the immediate when BIMM = 1 (R30, R69). -/
def stageNeeds (op : Nat) (w : StageW) : List Nat :=
  (stagePorts op w).filter fun p => !(p == 1 && w.bimm == 1#1)

end Sys2Proof.Machine
end

