-- ==== Sys2Proof/Machine/Load.lean ====
section
/-! DEFINITION. Headers, the ports an instruction gives (R65), and the load-time checks of a block or kernel
(R56 to R65, R73, R79, Table 4.6, R86 to R90). -/

namespace Sys2Proof.Machine

/-! Header fields (Table 3.2). -/

def hdrKind (h : BitVec 128) : Nat := (h.extractLsb' 124 4).toNat
def hdrVersion (h : BitVec 128) : Nat := (h.extractLsb' 120 4).toNat
def hdrCount (h : BitVec 128) : Nat := (h.extractLsb' 113 7).toNat + 1
def hdrItsrc (h : BitVec 128) : Bool := h.getLsbD 112
def hdrItval (h : BitVec 128) : Nat := (h.extractLsb' 96 16).toNat
def hdrLivein (h : BitVec 128) (r : Nat) : Bool := h.getLsbD (80 + r)
def hdrLiveout (h : BitVec 128) (r : Nat) : Bool := h.getLsbD (64 + r)
def hdrOrdmem (h : BitVec 128) : Bool := h.getLsbD 9
def hdrLeaf (h : BitVec 128) : Bool := h.getLsbD 6
def hdrDefer (h : BitVec 128) : Bool := h.getLsbD 5

/-- The signed offset of successor k in units of 16 B. -/
def hdrSucc (h : BitVec 128) (k : Nat) : Int := signedOf 18 (h.extractLsb' (46 - 18 * k) 18).toNat

/-- The address that successor k names (R57). -/
def succAddr (addr : Nat) (h : BitVec 128) (k : Nat) : Nat := wrapTo 57 ((addr : Int) + 16 * hdrSucc h k)

/-- Check 0 of Table 4.6: Table 3.2 and the header-field limits of R59, for the kind the use needs (R86). -/
def headerOk (kernel : Bool) (h : BitVec 128) : Bool :=
  let k := hdrKind h
  k == (if kernel then 1 else 0) && hdrVersion h == 1 && h.extractLsb' 8 1 == 0#1 && h.extractLsb' 0 5 == 0#5 &&
  (!hdrItsrc h || hdrItval h < 16) &&
  (!kernel || (hdrCount h ≤ 48 && h.extractLsb' 0 113 == 0#113))

/-! Raw fields of a word. -/

def wPm (x : Word64) : Nat := (x.extractLsb' 54 2).toNat
def wTy (x : Word64) : Nat := (x.extractLsb' 50 4).toNat
def wMode (x : Word64) : Nat := (x.extractLsb' 28 4).toNat
def wSub (x : Word64) : Nat := (x.extractLsb' 24 8).toNat
def noTarget : Nat := 0x1FF

/-- The target fields of a word that name a port, in order (R63, Table 3.9). -/
def wTargets (x : Word64) : List Nat :=
  let op := wordOp x
  let ts := [(x.extractLsb' 41 9).toNat, (x.extractLsb' 32 9).toNat] ++
    (if 0xA0 ≤ op && op < 0xB0 then [(x.extractLsb' 19 9).toNat, (x.extractLsb' 10 9).toNat] else [])
  ts.filter (· != noTarget)

/-- The class of a slot by R61: 0 stage, 1 memory, 2 control point, 3 reorder, 4 to 7 engine ports EP0 to EP3. -/
def slotClass (slot : Nat) : Nat :=
  if slot < 96 then 0 else if slot < 112 then 1 else if slot < 120 then 2 else if slot < 124 then 3 else slot - 120

/-- The class of an opcode by R61. -/
def opClass (op : Nat) : Nat :=
  if op < 0x70 then 0 else if op < 0xA0 then 1 else if op < 0xB0 then 2 else if op < 0xB8 then 3
  else if op < 0xC8 then 4 else if op < 0xD8 then 5 else if op < 0xF0 then 6 else 7

/-- Whether Table 4.1 gives an opcode. -/
def opAssigned (op : Nat) : Bool :=
  (1 ≤ op && op ≤ 0x1A) || (0x20 ≤ op && op ≤ 0x2E) || (0x30 ≤ op && op ≤ 0x4A) || (0x50 ≤ op && op ≤ 0x57) ||
  (0x70 ≤ op && op ≤ 0x7C) || (0x80 ≤ op && op ≤ 0x8A) || (0xA0 ≤ op && op ≤ 0xA9) || (0xB0 ≤ op && op ≤ 0xB2) ||
  (0xB8 ≤ op && op ≤ 0xC0) || (0xC8 ≤ op && op ≤ 0xD5) || (0xD8 ≤ op && op ≤ 0xE5) || (0xF0 ≤ op && op ≤ 0xFC)

/-- The reason of checks 3 to 6 by the fields of a word alone (Table 4.6). -/
def fieldReason (x : Word64) : Option Nat :=
  let op := wordOp x
  match opClass op with
  | 0 => match stageReason op (readStage x) with
    | none => if x.extractLsb' 24 1 == 0#1 then none else some 5
    | some r => if 5 < r && x.extractLsb' 24 1 != 0#1 then some 5 else some r
  | 1 => memReason op (readMem x)
  | 2 => cpReason op (wMode x) (readCp x)
  | 3 => reorderReason op (readRe x)
  | _ => epReason op (wSub x) (readEp x)

/-- The data ports a word's description gives (Tables 6.1 to 14.7): those it needs, and those it takes when wired. -/
def dataPorts (x : Word64) : List Nat × List Nat :=
  let op := wordOp x
  let hx4 : Bool := wTy x == 6
  match opClass op with
  | 0 => (stageNeeds op (readStage x), [])
  | 1 =>
    if op == 0x71 || op == 0x73 || op == 0x75 then (if hx4 then [0, 1, 2] else [0, 1], [])
    else if op == 0x77 then ([0, 1], [])
    else if op == 0x78 then (if hx4 then [0, 1] else [0], [])
    else if op == 0x79 || op == 0x7B || op == 0x7C then ([], [0])
    else if op == 0x87 || op == 0x89 then ([0, 1, 2], [])
    else if 0x80 ≤ op then ([0, 1], [])
    else ([0], [])
  | 2 =>
    if op == 0xA1 then ([0, 1], [])
    else if op == 0xA3 then ([0, 1], [])
    else if op == 0xA5 then ((List.range 3).filter fun p => (x.extractLsb' 0 10).toNat / 2 ^ p % 2 == 1, [])
    else ([0], [])
  | 3 => ([0], [])
  | 4 => (if op == 0xBC then [0, 1] else [0], [])
  | 7 => (if op == 0xF1 || op == 0xF9 then [0, 1] else [0], [])
  | _ => ([0], [])

/-- Whether port p belongs to the instruction by nature (Table 9.1). -/
def naturalP (x : Word64) : Bool :=
  let op := wordOp x
  op == 0xA0 || op == 0xA8 || (op == 0xA3 && wMode x == 0)

/-- Whether a word gives a port (R65). -/
def givesPort (x : Word64) (p : Nat) : Bool :=
  if p == 3 then wPm x != 0 || naturalP x else (dataPorts x).1.contains p || (dataPorts x).2.contains p

/-- The occupied slots of a block with their words. -/
def blockSlots (words : List Word64) : List (Nat × Word64) :=
  ((List.range words.length).zip words).filter fun p => p.2 != 0#64

/-- How many target fields of the block name a port. -/
def producers (slots : List (Nat × Word64)) (tgt : Nat) : Nat :=
  slots.foldl (fun n p => n + (wTargets p.2).count tgt) 0

/-- The port of a kernel that the tile fills: the line quarters and operand tokens (R227). -/
def tileFed (x : Word64) (slot p : Nat) : Bool :=
  slot % 6 == 0 && slot < 24 && (p == 0 || (p == 1 && !((readStage x).bimm == 1#1)))

/-- Check 7 of Table 4.6 for one word (R63 to R65, R227, R241, R300): its targets. -/
def targetsOk (kernel : Bool) (words : List Word64) (slots : List (Nat × Word64)) (slot : Nat) (x : Word64) : Bool :=
  let ts := wTargets x
  ts.Nodup && ts.all fun t =>
    if kernel && t == 0x1FC then producers slots t ≤ 4
    else
      let y := words.getD (t / 4) 0
      t / 4 < words.length && y != 0 && t / 4 != slot && t % 4 < 4 && (kernel || !(t / 4 == 127 && t % 4 == 3)) &&
      givesPort y (t % 4) && producers slots t ≤ 1

/-- A kernel's required ports are all fed (R227). -/
def kernelFed (slots : List (Nat × Word64)) (slot : Nat) (x : Word64) : Bool :=
  ((dataPorts x).1 ++ (if wPm x != 0 then [3] else [])).all fun p =>
    1 ≤ producers slots (4 * slot + p) || (p < 3 && tileFed x slot p)

/-- Check 6 where it bears on other words and the header: R58, R59, R73, R176, R179, LEAF (R188) and R242. Of two words that bar each other the
one named here fails (DEDUCED, log entry 18). -/
def contextReason (kernel : Bool) (h : BitVec 128) (slots : List (Nat × Word64)) (slot : Nat) (x : Word64) : Option Nat :=
  let op := wordOp x
  let earlier := slots.filter fun p => p.1 < slot
  let bad :=
    if op == 0x22 || op == 0x23 then
      let r := (readStage x).aux.toNat
      kernel || !(if op == 0x22 then hdrLivein h r else hdrLiveout h r)
    else if opClass op == 1 then
      let w := readMem x
      w.ordered == 1#1 && (!hdrOrdmem h ||
        slots.any (fun p => p.1 != slot && opClass (wordOp p.2) == 1 && (readMem p.2).ordered == 1#1 && (readMem p.2).ordno == w.ordno) ||
        (wTargets x).any (fun t => slots.any fun p => p.1 == t / 4 && opClass (wordOp p.2) == 1 &&
          (readMem p.2).ordered == 1#1 && (readMem p.2).ordno.toNat < w.ordno.toNat))
    else if op == 0xA7 then
      earlier.any (fun p => wordOp p.2 == 0xA7) ||
        ((wMode x == 1 || wMode x == 3) && !hdrLivein h (x.extractLsb' 0 4).toNat) || (wMode x == 1 && hdrLeaf h)
    else if op == 0xA8 && wMode x == 1 then earlier.any fun p => wordOp p.2 == 0xA8 && wMode p.2 == 1
    else if op == 0xD3 then slots.any fun p => wordOp p.2 == 0xA7
    else false
  if bad then some 5 else none

/-- The reason of the first failing check of a word in its slot, if any (Table 4.6, R86). -/
def wordReason (kernel : Bool) (h : BitVec 128) (words : List Word64) (slots : List (Nat × Word64)) (slot : Nat) (x : Word64) : Option Nat :=
  let op := wordOp x
  if !opAssigned op then some 0
  else if opClass op != slotClass slot || (kernel && opClass op != 0) then some 1
  else match fieldReason x with
    | some r => if r ≤ 5 then some r else
        (match contextReason kernel h slots slot x with
          | some r => some r
          | none => some 6)
    | none => match contextReason kernel h slots slot x with
      | some r => some r
      | none => if targetsOk kernel words slots slot x && (!kernel || kernelFed slots slot x) then none else some 6

/-- The first failing word of a block or kernel: slot (0xFF for the header), opcode and reason (R86, R88). -/
def checkBlock (kernel : Bool) (h : BitVec 128) (words : List Word64) : Option (Nat × Nat × Nat) :=
  if !headerOk kernel h then some (0xFF, 0, 7)
  else
    let slots := blockSlots words
    slots.findSome? fun p => (wordReason kernel h words slots p.1 p.2).map fun r => (p.1, wordOp p.2, r)

/-- The failure word of Table 4.8. -/
def failureWord (core : Nat) (f : Nat × Nat × Nat) : Nat :=
  (core / 128) * 2 ^ 30 + (core / 4 % 32) * 2 ^ 25 + (core % 4) * 2 ^ 23 + f.1 * 2 ^ 15 + f.2.1 * 2 ^ 7 + f.2.2 * 8

/-- Reads a run of n bytes at a virtual address through translation with X, page by page (R55, R377), host memory
once every earlier posted write has been performed (R330). -/
def fetchBytes (part quad : Nat) (va : Nat) : Nat → State → Except FaultInfo Nat × State
  | 0, s => (.ok 0, s)
  | n + 1, s =>
    if inWindow va || inHole va then (.error { cls := 0x03, acc := 2, addr := va }, s)
    else match translate s quad part needExec va with
      | (.error f, s') => (.error f, s')
      | (.ok pl, s') =>
        let s' := if hostReady s' pl.key 8 then readCheck s' pl.key 8 else holdMove s'
        if poisoned s' pl.key 8 then (.error { cls := 0x09, acc := 2, addr := va }, s')
        else match fetchBytes part quad (va + 8) n s' with
          | (.error f, s'') => (.error f, s'')
          | (.ok rest, s'') => (.ok (viewRead s' (leafView pl.leaf) pl.key 8 + 2 ^ 64 * rest), s'')

/-- The words that follow a header, lowest slot first. -/
def splitWords (n x : Nat) : List Word64 := (List.range n).map fun i => BitVec.ofNat 64 (x / 2 ^ (64 * i))

/-- A block or kernel image as loaded from memory and checked (R86, R87): the header and words, or the fault. -/
def loadImage (kernel : Bool) (core part va : Nat) (s : State) : Except FaultInfo (BitVec 128 × List Word64) × State :=
  match fetchBytes part (quadOfCore core) va 2 s with
  | (.error f, s') => (.error f, s')
  | (.ok hx, s') =>
    let h := BitVec.ofNat 128 hx
    if !headerOk kernel h then (.error { cls := 0x01, addr := va, info := failureWord core (0xFF, 0, 7) }, s') else
    match fetchBytes part (quadOfCore core) (va + 16) (hdrCount h) s' with
    | (.error f, s'') => (.error f, s'')
    | (.ok wx, s'') =>
      let ws := splitWords (hdrCount h) wx
      match checkBlock kernel h ws with
      | some f => (.error { cls := 0x01, addr := va, info := failureWord core f }, s'')
      | none => (.ok (h, ws), s'')

/-- The key of an image in a block cache, by partition and address. -/
def blockKey (part va : Nat) : Nat := 2 ^ 57 * part + va

/-- A block loaded through a core's block cache (R34, R52). The spec gives no rule by which an image held there follows later
writes of its bytes: a load that finds one runs it or what memory holds now, by a free value (DESIGN CHOICE, log entry 98). -/
def loadBlock (core part va : Nat) (s : State) : Except FaultInfo (BitVec 128 × List Word64) × State :=
  match loadImage false core part va s with
  | (.error f, s) => (.error f, s)
  | (.ok (h, ws), s) =>
    let k := blockKey part va
    let fill := (.ok (h, ws), s.setCore core { s.core core with blocks := tabPut (s.core core).blocks k ⟨va, h, ws⟩ })
    match tabFind (s.core core).blocks k with
    | some x => if Config.freeWord s.tick % 2 = 1 then (.ok (x.hdr, x.words), s) else fill
    | none => fill

end Sys2Proof.Machine
end

