-- ==== Sys2Proof/Machine/Ops.lean ====
section
/-! DEFINITION. The shared operations of the fabric: the node a step fires, its ports and targets (R30, R31, R64),
firing a stage, the fault record, taking a fault and returning from it (R335 to R338), the end of a gang, the task
picker and the start of an activation (R35, R41). -/

namespace Sys2Proof.Machine

/-! The node in focus. -/

/-- What a firing acts on: the core, its running task and phase, and the node of the slot in focus. -/
structure Foc where
  c : Nat
  slot : Nat
  t : Nat
  core : Core
  task : Task
  ph : Phase
  nd : Node
  deriving Repr, Inhabited

def nodeOf (ph : Phase) (slot : Nat) : Node := tabGet {} ph.nodes slot
def wordAt (ph : Phase) (slot : Nat) : Word64 := ph.words.getD slot 0

/-- The node of the slot in focus, where its core runs a phase that no cut stops (R340 step 1). -/
def foc? (s : State) : Option Foc :=
  let core := s.core s.focus.1
  core.running.bind fun t => (tabFind core.tasks t).bind fun task => if task.cutting then none else task.phase.map fun ph =>
    ⟨s.focus.1, s.focus.2, t, core, task, ph, nodeOf ph s.focus.2⟩

/-- The iterations of the phase: n, or up to the break of `gate brk` (R176). -/
def phaseEnd (ph : Phase) : Nat :=
  match ph.brk with
  | some k => k + 1
  | none => ph.n

/-- The slot of the block's `gate brk`, if it has one (R176). -/
def gateSlot? (ph : Phase) : Option Nat :=
  (List.range 8).findSome? fun i => let x := wordAt ph (112 + i)
    if wordOp x == 0xA8 && wMode x == 1 then some (112 + i) else none

/-- The instructions that act in their deciding firing (R176, Table 14.7). -/
def deciding (op : Nat) : Bool := op == 0xA7 || op == 0xD3 || op == 0xF3 || op == 0xF4 || op == 0xF7

/-- Whether the phase lets the node of a slot fire its next iteration (R30, R36, R176). -/
def mayFire (ph : Phase) (slot : Nat) : Bool :=
  let k := (nodeOf ph slot).iter
  k < phaseEnd ph && (match gateSlot? ph with
    | none => true
    | some g => g == slot || (if deciding (wordOp (wordAt ph slot)) then k < (nodeOf ph g).iter else k ≤ (nodeOf ph g).iter))

/-- Whether a firing for the node's next iteration decides (R178). -/
def isDeciding (ph : Phase) (nd : Node) : Bool := nd.iter + 1 == phaseEnd ph

/-! Ports, targets and wires (R31, R63, R64). -/

def portQ (nd : Node) : Nat → List Token
  | 0 => nd.qa
  | 1 => nd.qb
  | 2 => nd.qc
  | _ => nd.qp

def setPortQ (nd : Node) (p : Nat) (q : List Token) : Node :=
  match p with
  | 0 => { nd with qa := q }
  | 1 => { nd with qb := q }
  | 2 => { nd with qc := q }
  | _ => { nd with qp := q }

def setNode (ph : Phase) (slot : Nat) (nd : Node) : Phase := { ph with nodes := tabPut ph.nodes slot nd }

/-- Tokens queued at a port or on the wire to it. -/
def portLoad (ph : Phase) (tgt : Nat) : Nat :=
  (portQ (nodeOf ph (tgt / 4)) (tgt % 4)).length + (tabGet [] ph.wires tgt).length

/-- Every port that a node's targets name has a free entry (R30). -/
def haveSpace (ph : Phase) (slot : Nat) : Bool := (wTargets (wordAt ph slot)).all fun t => portLoad ph t < 4

/-- Whether a target is a chain wire (R64). -/
def isChain (slot tgt : Nat) : Bool := slot < 96 && tgt / 4 < 96 && tgt / 4 == slot + 1 && slot % 6 != 5

/-- A token sent from a slot to a target: a chain wire delivers at once, the routers later (R64). -/
def sendTok (ph : Phase) (slot tgt : Nat) (x : Token) : Phase :=
  if tgt == noTarget then ph
  else if isChain slot tgt && (tabGet [] ph.wires tgt).isEmpty then
    let nd := nodeOf ph (tgt / 4)
    setNode ph (tgt / 4) (setPortQ nd (tgt % 4) (portQ nd (tgt % 4) ++ [x]))
  else { ph with wires := tabPut ph.wires tgt (tabGet [] ph.wires tgt ++ [x]) }

/-- A token for a target field, if there is one. -/
def sendOpt (ph : Phase) (slot : Nat) (tgt : BitVec 9) : Option Token → Phase
  | none => ph
  | some x => sendTok ph slot tgt.toNat x

/-- One token from the head of each of the ports. -/
def heads (nd : Node) (ports : List Nat) : Option (List (Nat × Token)) :=
  ports.mapM fun p => (portQ nd p).head?.map fun x => (p, x)

/-- The queues with one token taken from each of the ports. -/
def popPorts (nd : Node) (ports : List Nat) : Node := ports.foldl (fun nd p => setPortQ nd p (portQ nd p).tail) nd

/-- The token of a port among those taken. -/
def tokAt (ops : List (Nat × Token)) (p : Nat) : Token := ((ops.find? fun x => x.1 == p).map Prod.snd).getD nullToken

/-- Whether the operands act as null: a null token on a port, or a predicate that does not match (R29, R66). -/
def actsNull (pm : Nat) (ops : List (Nat × Token)) : Bool :=
  ops.any (fun x => x.2.null) ||
  (pm != 0 && (ops.find? fun x => x.1 == 3).any fun x => predValue x.2 != (pm == 1))

/-- The ports a word requires, p included when PM ≠ 0 (R30). -/
def withPred (pm : Nat) (ports : List Nat) : List Nat := if pm = 0 then ports else ports ++ [3]

/-- Writes a phase back into its task. -/
def putPhase (s : State) (c t : Nat) (ph : Phase) : State :=
  match s.task? c t with
  | some task => s.setTask c t { task with phase := some ph }
  | none => s

/-- A firing made: the phase written back, the firing counted, and the count of R47 back to zero. -/
def fired (s : State) (f : Foc) (ph : Phase) : State :=
  let core := s.core f.c
  match tabFind core.tasks f.t with
  | some task => s.setCore f.c { core with orphan := 0, firedNow := f.slot :: core.firedNow, tasks := tabPut core.tasks f.t { task with phase := some ph, firings := task.firings + 1 } }
  | none => s

/-! The fault record (Table 16.2). -/

/-- FREC from its fields. -/
def mkFrec (x : FrecIn) : BitVec 512 :=
  BitVec.ofNat 512 (x.cls % 256 + (x.src % 16) * 2 ^ 8 + (x.slot % 128) * 2 ^ 12 + (x.gen % 4) * 2 ^ 19
    + (if x.cls = 3 ∨ x.cls = 4 ∨ x.cls = 5 then x.acc % 4 else 0) * 2 ^ 21
    + x.preq.toNat * 2 ^ 23 + (x.detail % 256) * 2 ^ 24 + (x.iter % 2 ^ 32) * 2 ^ 32 + x.stall.toNat * 2 ^ 64
    + (x.addr % 2 ^ 57) * 2 ^ 128 + (x.seqno % 2 ^ 64) * 2 ^ 192 + (x.info % 2 ^ 32) * 2 ^ 256 + (x.pc % 2 ^ 57) * 2 ^ 288)

def frecAddr (r : BitVec 512) : Nat := (r.extractLsb' 128 57).toNat
def frecPc (r : BitVec 512) : Nat := (r.extractLsb' 288 57).toNat
def frecSetPc (r : BitVec 512) (pc : Nat) : BitVec 512 :=
  BitVec.ofNat 512 (r.toNat - (r.extractLsb' 288 57).toNat * 2 ^ 288 + pc % 2 ^ 57 * 2 ^ 288)

/-! Launch record fields the core operations read (Table 23.2). -/

def lrBits (r : BitVec 1024) (lo len : Nat) : Nat := (r.extractLsb' lo len).toNat
def lrStat (r : BitVec 1024) : Nat := lrBits r 128 57
def lrIrq (r : BitVec 1024) : Bool := r.getLsbD 418
def lrVec (r : BitVec 1024) : Nat := lrBits r 407 11
def lrSave (r : BitVec 1024) : Nat := lrBits r 64 57
def lrPrio (r : BitVec 1024) : Nat := lrBits r 57 7

/-! Messages to the host and the status block (R386, R401). -/

/-- Whether a vector of a function is masked: by its own bit, by the function's, or because MSI-X is not enabled (R401; the bits of the
message control PRESUMED from the PCIe base specification, log entry 121). -/
def vectorMasked (f : Fn) (vec : Nat) : Bool := (tabGet (true, false) f.msix vec).1 || f.msixControl.getLsbD 14 || !f.msixControl.getLsbD 15

/-- The pending message of a vector is sent where nothing masks it: its table entry's data goes to its table entry's address as a posted
write without Relaxed Ordering, behind what has been sent before it (R401). -/
def sendPending (s : State) (fn vec : Nat) : State :=
  let f := s.fnOf fn
  let e := tabGet (true, false) f.msix vec
  let m := tabGet (0, 0) f.msixMsg vec
  if !e.2 || vectorMasked f vec then s
  else
    let w : HostWrite := { job := 2 ^ 64, addr := m.1.toNat, bytes := (List.range 4).map fun i => m.2.extractLsb' (8 * i) 8, ro := false, fn := fn }
    { s.setFn fn { f with msix := tabPut f.msix vec (e.1, false) } with msixSent := s.msixSent ++ [(fn, vec)], hostLink := s.hostLink ++ [w] }

/-- An MSI-X message of a function: sent, or its pending bit set while the vector is masked (R401). -/
def sendMsix (s : State) (fn vec : Nat) : State :=
  let f := s.fnOf fn
  sendPending (s.setFn fn { f with msix := tabPut f.msix vec ((tabGet (true, false) f.msix vec).1, true) }) fn vec

/-- An address resolved by the package for a partition, through no cache: the walk's reads take their turns at the controllers and
check their lines like any walk's (R356, R361, R375, R379). -/
def resolve (s : State) (part va : Nat) : Except FaultInfo Place × State :=
  let root := (s.partn part).ptroot
  let keys := walkReads s part va 5 (peOa root)
  if !peBit root 0 then (.error { cls := 0x03, addr := va }, s)
  else if !keys.all (fun k => pipeOpen s k 3) then (.error notYet, holdMove s)
  else
    let s := walkRequests s keys
    (match (walkFrom s part va 5 (peOa root) []).1 with
      | .fault f => .error f
      | .leaf e pva size base => .ok ⟨leafKey (s.partn part).podpart e (base + (va - pva)), e, pva + size - va⟩, s)

/-- A resolved address that passes the checks of Table 8.11. -/
def resolveFor (s : State) (part : Nat) (nd : Need) (va : Nat) : Except FaultInfo Place × State :=
  if inWindow va || inHole va then (.error { cls := 0x03, acc := nd.acc, addr := va }, s)
  else
    let r := resolve s part va
    (match r.1 with
      | .error f => .error { f with acc := nd.acc }
      | .ok pl => match checkLeaf r.2 part nd va pl with
        | some f => .error f
        | none => .ok pl, r.2)

/-- The job of the task that a slot holds. -/
def jobAt (core : Core) (t : Nat) : Nat := ((tabFind core.tasks t).map Task.job).getD 0

/-- The number under which the stores of a task go on once it has left its slot: no slot's, and with its job in it. -/
def leftStores (j t : Nat) : Nat := 4 * (j + 1) + t

/-- The job that a pending store is of. -/
def storeJob (core : Core) (p : PStore) : Nat := if p.task < 4 then jobAt core p.task else p.task / 4 - 1

/-- Whether every store of a job has been performed. -/
def jobSettled (s : State) (j : Nat) : Bool :=
  s.cores.all (fun e => e.2.stores.all fun p => storeJob e.2 p != j) && (s.hostWc ++ s.hostLink).all fun h => h.job != j

/-- A write of a status block, then its MSI-X message (R386): it waits for its walk and its controller like any store. -/
def putStatus (s : State) (w : StatusWrite) : State :=
  match resolveFor s w.part needWrite (lrStat w.record) with
  | (.error _, s) => s
  | (.ok pl, s) =>
    if !homeOpen s pl.key 32 3 then holdMove s
    else
      let s := writeView (countDirect s pl.key 3) (leafView pl.leaf) pl.key 32 w.block false
      if lrIrq w.record then sendMsix s w.fn (lrVec w.record) else s

/-- Whether a status write may be made: it is a release, so the stores of its job come before it, and the writes before it (R386). -/
def statusReady (s : State) (n : Nat) (w : StatusWrite) : Bool :=
  jobSettled s w.job && (s.statusOut.take n).all fun x => x.job != w.job

/-- Status write n, which waited, is made. -/
def statusMove (n : Nat) (s : State) : State :=
  match s.statusOut[n]? with
  | some w => if statusReady s n w then putStatus { s with statusOut := s.statusOut.eraseIdx n } w else s
  | none => s

/-- The status block of a job with a code (Table 23.3): written at once where nothing has to come before it, else by a later move. -/
def writeStatus (s : State) (j : Job) (code fail freclo addr : Nat) : State :=
  if lrStat j.record = 0 then s
  else
    let w : StatusWrite := ⟨j.order, j.part, j.fn, j.record, code + fail * 2 ^ 32 + freclo * 2 ^ 64 + addr * 2 ^ 128⟩
    tryPart (statusMove s.statusOut.length) { s with statusOut := s.statusOut ++ [w] }

/-! The end of tasks and gangs (R43, R44, R305, R337). -/

/-- Unbinds a task's channels, their queues kept (R305). -/
def unbindTask (core : Core) (t : Nat) : Core :=
  { core with chans := core.chans.map fun e => if e.2.task = some t then (e.1, { e.2 with task := none, prio := 0, handler := 0 }) else e }

/-- A task leaves its slot: its channels, its pending waits for the fabric and the handler context; its stores drain on. -/
def leaveSlot (core : Core) (t : Nat) (task : Task) : Core :=
  let core := unbindTask core t
  { core with
    tasks := tabDel core.tasks t
    running := if core.running = some t then none else core.running
    handlerOwner := if core.handlerOwner = some t then none else core.handlerOwner
    seedIn := if task.seed.joined then [] else core.seedIn
    stores := core.stores.map fun p => if p.task = t then { p with task := leftStores task.job t, waiter := none } else p }

/-- Frees the descriptors and records of a task on a core (R44): its rows and its descriptors keep what they hold until another task
is placed with them (R197, R346), and its records are zero. Whether a record that `syswr` wrote without its being declared is zero too
is left open: it keeps what it holds (DESIGN CHOICE, log entry 112). -/
def freeShares (core : Core) (task : Task) : Core :=
  { core with recs := core.recs.filter fun e => !task.recs.getLsbD e.1 }

/-- Frees a task slot and what the task holds. -/
def freeTask (core : Core) (t : Nat) (task : Task) : Core := freeShares (leaveSlot core t task) task

/-- Frees what the ended tasks of a gang held until it left its cores (R44). -/
def freeEnded (s : State) (job : Job) : State := job.ended.foldl (fun s e => s.setCore e.1 (freeShares (s.core e.1) e.2)) s

/-- The channels that the saved tasks of a job keep bound are unbound, their queues kept (R344). -/
def releaseHeld (s : State) (j : Nat) : State :=
  let free := fun (x : Nat × Chan) => if x.2.held.any (fun h => h.1 == j) then (x.1, { x.2 with held := none }) else x
  { s with cores := s.cores.map fun e => (e.1, { e.2 with chans := e.2.chans.map free }) }

/-- The task slots of a core that hold tasks of a job. -/
def jobSlots (core : Core) (j : Nat) : List (Nat × Task) := core.tasks.filter fun e => e.2.job == j

/-- The kinds that `bcancel`, a cut and the end of a gang cancel: readers, kernel riders, standing riders and feeds (R235,
R239, R402). -/
def cancellable (op : Nat) : Bool := op == 0xC8 || op == 0xC9 || op == 0xCA || op == 0xCE || op == 0xD4

/-- A rider cancelled: it acts at no further pass, delivers nothing more, and leaves a channel where it still acts at that channel's next
pass, at once where it was not yet admitted (R235). One whose completion word is being counted has nothing left to cancel. -/
def Rider.cancel (r : Rider) : Rider :=
  if r.cwHeld.isSome then r
  else { r with cancelled := true, chans := r.chans.map fun x =>
      (x.1, { x.2 with queue := [], gone := x.2.gone || !x.2.admitted || r.standing }) }

/-- Cancels the riders, by key, that p picks. -/
def cancelRiders (s : State) (p : Nat → Rider → Bool) : State :=
  { s with riders := s.riders.map fun e => if p e.1 e.2 then (e.1, e.2.cancel) else e }

/-! Power leave given back (R393). -/

/-- A grant is returned. -/
def returnLeave (s : State) (die weight : Nat) : State :=
  let d := s.die die
  s.setDie die { d with inuse := d.inuse - weight }

/-- Drops the requests of a task that leaves its core. -/
def dropLeaves (s : State) (c t : Nat) : State :=
  let d := s.die (dieOfCore c)
  s.setDie (dieOfCore c) { d with leaves := d.leaves.filter fun r => !(r.core == c && r.task == t && r.ticket.isNone) }

/-- The units of leave that a task's cards and its seed hold. -/
def leaveHeld (task : Task) : Nat :=
  (task.chains.foldl (fun n e => e.2.cards.foldl (fun n k => if k.leave then n + (if e.1 = 0 then 4 else 2) else n) n) 0)
    + (if task.seed.leave then 4 else 0)

/-- What a task that leaves its core gives back of power leave. -/
def giveBack (s : State) (c t : Nat) (task : Task) : State := returnLeave (dropLeaves s c t) (dieOfCore c) (leaveHeld task)

/-- Drops every task of a job from the cores. -/
def dropTasks (s : State) (j : Nat) : State :=
  let s := s.cores.foldl (fun s e => (jobSlots e.2 j).foldl (fun s x => giveBack s e.1 x.1 x.2) s) s
  { s with cores := s.cores.map fun e => (e.1, (jobSlots e.2 j).foldl (fun core x => freeTask core x.1 x.2) e.2) }

/-- Barrier keys: a gang's barriers stand at 2^40 job + 2^20 place + 16 scope + id. -/
def barrierOfJob (j key : Nat) : Bool := key / 2 ^ 40 == j + 1

/-- A deposit of an engine with every line let go, in the bytes gathered for it so far (R296). -/
def Rider.letGo (r : Rider) : Rider :=
  let lines := (List.range r.wlines.length).map fun o => (o, tabGet (0, 0) r.pending o)
  { r with data := lines.map fun e => (e.1, e.2.1), masks := lines.map fun e => (e.1, e.2.2) }

/-- The deposits of a job's engines run on with what they hold (R402). -/
def letDepositsGo (s : State) (j : Nat) : State :=
  { s with riders := s.riders.map fun e => if e.2.kind == 1 && e.2.op == 0xCF && e.2.job == j && e.2.data.isEmpty then (e.1, e.2.letGo) else e }

/-- A job leaves the job table with its whole gang, without the waits of R305 (R44, R337, R402): its cancellable riders are
cancelled, and the others run on to alighting. -/
def dropGang (s : State) (j : Nat) (job : Job) : State :=
  let s := letDepositsGo (releaseHeld (freeEnded (dropTasks s j) job) j) j
  let s := cancelRiders s fun _ r => r.job == j && r.kind != 1 && r.kind != 2 && cancellable r.op
  let s := (s.riders.filter fun e => e.2.job == j && e.2.standing && e.2.leave).foldl (fun s e => returnLeave s (dieOfCore e.2.core) 1) s
  { s with riders := s.riders.filter (fun e => !(e.2.job == j && e.2.standing)), kvsends := s.kvsends.filter (fun e => e.2.job != j)
           barriers := s.barriers.filter (fun e => !barrierOfJob j e.1), jobs := tabDel s.jobs j, passDue := true }

/-- The whole gang ends at once and its status is written (R44, R337). -/
def endGang (s : State) (j : Nat) (code freclo addr : Nat) : State :=
  match s.job? j with
  | none => s
  | some job => writeStatus (dropGang s j job) job code 0 freclo addr

/-! Taking a fault or trap, and returning (R334 to R338). -/

/-- A task takes a fault or trap (R336): FREC, b14 and b15, the phase held, the program counter at the handler. A
second fault inside a handler, and a fault with TRAPBASE 0, end the gang (R337). The spec leaves open whether a task that a
message has made ready, and that takes a fault of one of its cards before it is picked, still receives the message at a later
pick: here it does not, and the message stays in its queue (DESIGN CHOICE, log entry 94). -/
def takeFault (s : State) (c t : Nat) (x : FrecIn) (inHandler : Bool) : State :=
  match s.task? c t with
  | none => s
  | some task =>
    let base := (s.partn task.part).trapbase
    let preq : Bool := match s.job? task.job with
      | some j => j.st == .cutting
      | none => false
    let fr := mkFrec { x with preq := preq }
    if inHandler || base = 0 then endGang s task.job 0x09 (fr.toNat % 2 ^ 64) (frecAddr fr)
    else
      let task' := { task with
        st := .trapped
        frec := fr
        b := (task.b.set 14 (BitVec.ofNat 64 fr.toNat)).set 15 (BitVec.ofNat 64 (frecAddr fr))
        held := task.phase
        phase := none
        woken := false
        seed := { task.seed with running := false }
        pc := base.toNat % 2 ^ 57 / 16 * 16 }
      let s := s.setTask c t task'
      let core := s.core c
      s.setCore c { core with running := if core.running = some t then none else core.running, faultNow := t :: core.faultNow }

/-- The return of `eret` (R338): the held phase resumes, or the next pick loads the block at FREC.PC, or a joined task that
trapped with no held phase returns to its seeds; the task is ready and the handler context free. -/
def returnFrom (s : State) (c t : Nat) (restart : Bool) : State :=
  match s.task? c t with
  | none => s
  | some task =>
    let held := if restart then none else task.held
    let pc := match held with
      | some ph => ph.addr
      | none => frecPc task.frec
    let seed := if !restart && task.held.isNone then { task.seed with inBlocks := false } else task.seed
    let s := s.setTask c t { task with st := .ready, phase := held, held := none, pc := pc, seed := seed }
    let core := s.core c
    s.setCore c { core with running := none, handlerOwner := none }

/-- A fault of the firing in focus (R334): nothing is consumed or sent, and the phase is held. -/
def nodeFault (s : State) (f : Foc) (i : FaultInfo) : State :=
  takeFault s f.c f.t
    { cls := i.cls, src := 0, slot := f.slot, acc := i.acc, detail := i.detail, iter := f.nd.iter, stall := f.nd.stall,
      addr := i.addr, info := i.info, pc := f.ph.addr } f.ph.handler

/-! The L1 (R317). -/

/-- Forget: the L1 drops every copy (Table 15.2). -/
def forgetL1 (s : State) (c : Nat) : State := s.setCore c { s.core c with l1 := [] }

/-- The forget of an acquire at a scope: none at core scope. -/
def acquireAt (s : State) (c scope : Nat) : State := if scope = 0 then s else forgetL1 s c

/-! The task picker and the start of an activation (R35, R41, R181). -/

/-- The channels bound to a task slot, in ascending number. -/
def boundChans (core : Core) (t : Nat) : List (Nat × Chan) := core.chans.filter fun e => e.2.task == some t

/-- Pick priority (R41). -/
def pickPrio (core : Core) (t : Nat) (task : Task) : Nat :=
  match boundChans core t with
  | [] => task.prio
  | cs => cs.foldl (fun m e => max m e.2.prio) 0

/-- A task between the seeds of its chain: its next phase is the seed at its buffer head. -/
def seedMode (task : Task) : Bool := task.seed.joined && !task.seed.inBlocks && !task.seed.entering

/-- Whether an EP0 card of the task has not completed. -/
def ep0Busy (task : Task) : Bool := !(tabGet {} task.chains 0).cards.isEmpty

/-- The seed at the head of the buffer, once complete (R252). -/
def seedHead (task : Task) : Option SeedBuf := task.seed.buf.head?.bind fun b => if b.got.length = b.plen then some b else none

def isMatrixSeed (b : SeedBuf) : Bool := let sop := (b.husk.extractLsb' 120 8).toNat; sop == 1 || sop == 2

/-- A task whose next block is known, or whose next seed may start (R252). -/
def blockKnown (task : Task) : Bool :=
  task.phase.isSome || !seedMode task ||
    (!ep0Busy task && (seedHead task).any fun b => !isMatrixSeed b || task.seed.leave)

/-- The candidates of R41 by task slot; a task with a rider still to board again fires nothing before (R239). -/
def candidates (core : Core) : List (Nat × Task) :=
  core.tasks.filter fun e => !e.2.cutting && e.2.reboard.all (fun x => x.2.1.testBit 18) && match e.2.st with
    | .ready => blockKnown e.2
    | .trapped => core.handlerOwner.isNone || core.handlerOwner == some e.1
    | _ => false

/-- The candidate that R41 chooses: one passed over eight times first, those that came to eight earlier and of one pick the lowest slot
before the others, else the highest pick priority, round-robin. -/
def choosePick (core : Core) : Option Nat :=
  let cs := candidates core
  match cs.foldl (fun (best : Option (Nat × Task)) e => if 8 ≤ e.2.passed && best.all (fun b => b.2.passed < e.2.passed) then some e else best) none with
  | some e => some e.1
  | none =>
    let top := cs.foldl (fun m e => max m (pickPrio core e.1 e.2)) 0
    let best := (cs.filter fun e => pickPrio core e.1 e.2 == top).map Prod.fst
    ((List.range 4).map fun i => (tabGet 3 core.lastPicks top + 1 + i) % 4).find? fun t => best.contains t

/-- A task stands behind its equals of pick priority: the round-robin of that priority goes on after its slot (R38, R41). -/
def standBehind (core : Core) (t : Nat) (task : Task) : Core :=
  { core with lastPicks := tabPut core.lastPicks (pickPrio core t task) t }

/-- The pass-over counts after a pick of t, which then stands behind its equals. The spec leaves open whether picks at which a
task is no candidate break its run of 8 consecutive pass-overs: here they leave its count as it is (DESIGN CHOICE, log entry
95). -/
def countPasses (core : Core) (t : Nat) : Core :=
  let cs := (candidates core).map Prod.fst
  let core := match tabFind core.tasks t with
    | some task => standBehind core t task
    | none => core
  { core with tasks := core.tasks.map fun e =>
      if e.1 = t then (e.1, { e.2 with passed := 0 }) else if cs.contains e.1 then (e.1, { e.2 with passed := e.2.passed + 1 }) else e }

/-- The channel whose message a woken task takes: the highest priority that holds one, ties to the lowest number (R305). -/
def messageChan (core : Core) (t : Nat) : Option (Nat × Chan) :=
  (boundChans core t).foldl (fun best e =>
    if e.2.queue.isEmpty then best
    else match best with
      | none => some e
      | some b => if b.2.prio < e.2.prio then some e else best) none

/-- The delivery of a message at a pick (R40, R305): b0 to b5, the handler address, and an acquire at the sender's scope. A
joined task runs the handler's blocks. -/
def takeMessage (s : State) (c t : Nat) : State :=
  match s.task? c t with
  | none => s
  | some task =>
    match messageChan (s.core c) t with
    | none => s.setTask c t { task with woken := false }
    | some (n, ch) =>
      let m := ch.queue.headD (0, 0)
      let b := (List.range 6).foldl (fun b i => b.set i (m.1.extractLsb' (64 * i) 64)) task.b
      let s := s.setTask c t { task with woken := false, b := b, pc := ch.handler, seed := { task.seed with inBlocks := task.seed.joined } }
      let core := s.core c
      acquireAt (s.setCore c { core with chans := tabPut core.chans n { ch with queue := ch.queue.tail } }) c m.2

/-- The iteration count of an activation (R35). -/
def iterCount (h : BitVec 128) (b : List Word64) : Nat :=
  if hdrItsrc h then (b.getD (hdrItval h % 16) 0).toNat % 2 ^ 32 else hdrItval h

/-- Starts an activation of a loaded block (R35). -/
def startPhase (s : State) (c t : Nat) (task : Task) (addr : Nat) (h : BitVec 128) (ws : List Word64) : State :=
  let handler : Bool := task.st == .trapped
  let ph : Phase := { addr := addr, hdr := h, words := ws, n := iterCount h task.b, starts := task.b, num := task.phases + 1, handler := handler }
  let s := s.setTask c t { task with phase := some ph, phases := task.phases + 1, st := if handler then .trapped else .running }
  s.setCore c { s.core c with running := some t, orphan := 0 }

/-- Gives the fabric to a picked task: its phase goes on, or its next block is found or loaded and started (R34, R181);
a failed load leaves the context that it was to reload empty, and is charged to the task (R87, R180). -/
def giveFabric (s : State) (c t : Nat) : State :=
  match s.task? c t with
  | none => s
  | some task =>
    let trapped : Bool := task.st == .trapped
    let core := s.core c
    let s := if trapped then s.setCore c { core with handlerOwner := some t } else s
    match task.phase with
    | some _ =>
      let s := s.setTask c t { task with st := if trapped then .trapped else .running }
      s.setCore c { s.core c with running := some t, orphan := 0 }
    | none =>
      if seedMode task && !trapped then
        let s := s.setTask c t { task with st := .running, phases := task.phases + 1, seed := { task.seed with running := true } }
        s.setCore c { s.core c with running := some t, orphan := 0 }
      else
      let held := if trapped then (s.core c).handlerCtx.toList else task.ctxs
      match held.find? fun x => x.addr == task.pc with
      | some x =>
        startPhase s c t (if trapped then task else { task with ctxs := x :: task.ctxs.filter fun y => y.addr != x.addr }) x.addr x.hdr x.words
      | none =>
        match loadBlock c task.part task.pc s with
        | (.ok (h, ws), s) =>
          let x : Ctx := ⟨task.pc, h, ws⟩
          let s := if trapped then s.setCore c { s.core c with handlerCtx := some x } else s
          startPhase s c t (if trapped then task else { task with ctxs := (x :: task.ctxs).take task.nctx }) x.addr h ws
        | (.error f, s) =>
          let s := if trapped then s.setCore c { s.core c with handlerCtx := none } else s.setTask c t { task with ctxs := task.ctxs.take (task.nctx - 1) }
          takeFault s c t { cls := f.cls, src := 4, acc := f.acc, detail := f.detail, addr := f.addr, info := f.info, pc := task.pc } trapped

/-- The task picker, where the fabric is free (R41); a load that faults frees it for the next pick. -/
def pickTask : Nat → State → Nat → State
  | 0, s, _ => s
  | n + 1, s, c =>
    let core := s.core c
    if core.running.isSome then s
    else match choosePick core with
      | none => s
      | some t =>
        let s := s.setCore c (countPasses core t)
        let s := match s.task? c t with
          | some task => if task.woken then takeMessage s c t else s
          | none => s
        let s := giveFabric s c t
        if (s.core c).running.isSome then s else pickTask n s c

/-- The pick of a core, made where its cycle ends, so that whatever becomes ready or arrives in the cycle counts for it (R40, R41, Table
2.12); with room for every resident task to fault once at its load and once in its handler. A load whose walks or bytes have to wait
leaves the pick for a later cycle. -/
def pick (s : State) (c : Nat) : State := tryPart (fun s => pickTask 9 s c) s

/-! Firing a stage (R28 to R30, R103). -/

/-- Status bits raised by a firing: FPSTAT keeps them, and one that FPEN enables faults the firing (R51, R103). -/
def raiseFlags (s : State) (c t : Nat) (fl : Flags) : State :=
  match s.task? c t with
  | some task => s.setTask c t { task with fpstat := task.fpstat ||| fl }
  | none => s

/-- Whether a node can fire: its iteration is allowed, its operands wait, its targets have space (R30). -/
def readyOps (f : Foc) (ports : List Nat) : Option (List (Nat × Token)) :=
  if mayFire f.ph f.slot && haveSpace f.ph f.slot then heads f.nd ports else none

/-- The node after a firing: operands consumed, the next iteration due. -/
def advance (nd : Node) (ports : List Nat) : Node := { popPorts nd ports with iter := nd.iter + 1 }

/-- A `wrb` of an iteration: of several iterations the highest remains (R35, R118). Of two nodes that write one register in
the same iteration the one that fires last remains (DESIGN CHOICE, log entry 96: the spec names the highest iteration alone). -/
def putWrb (ph : Phase) (r k : Nat) (v : Word64) : Phase :=
  match tabFind ph.wrbs r with
  | some (j, _) => if k < j then ph else { ph with wrbs := tabPut ph.wrbs r (k, v) }
  | none => { ph with wrbs := tabPut ph.wrbs r (k, v) }

/-- One firing of a stage instruction: null operands give null tokens (R29), else f's tokens and status. -/
def fireStage (op : Nat) (w : StageW) (g : StageW → StageIn → StageOut) (s : State) : Host.Outcome State Fault Refusal :=
  match foc? s with
  | none => .next s
  | some f =>
    let ports := withPred w.pm.toNat (stageNeeds op w)
    match readyOps f ports with
    | none => .next s
    | some ops =>
      let nullOp := actsNull w.pm.toNat ops
      let b := if w.bimm = 1#1 then immToken w.ty.toNat w.imm else tokAt ops 1
      let out := if nullOp then StageOut.both nullToken 0
        else g w ⟨tokAt ops 0, b, tokAt ops 2, f.nd.iter, f.ph.starts.getD (w.aux.toNat % 16) 0⟩
      if trapsOn f.task.fpen out.flags then
        .next (nodeFault (raiseFlags s f.c f.t out.flags) f { cls := 0x0C, detail := (f.task.fpen &&& out.flags).toNat })
      else
        let ph := setNode f.ph f.slot (advance f.nd ports)
        let ph := if op = 0x23 then
            (match (if nullOp then none else wrbValue w (tokAt ops 0)) with
              | some v => putWrb ph (w.aux.toNat % 16) f.nd.iter v
              | none => ph)
          else sendOpt (sendOpt ph f.slot w.t0 out.out0) f.slot w.t1 out.out1
        .next (fired (raiseFlags s f.c f.t out.flags) f ph)

end Sys2Proof.Machine
end

