-- ==== Sys2Proof/Machine/Control.lean ====
section
/-! DEFINITION. Control points, reorder elements and the firing of the codec's groups (R143, R170 to R188). -/

namespace Sys2Proof.Machine

/-! Control points (R170 to R176). -/

/-- One token to each of the four targets of a control point. -/
def sendFour (ph : Phase) (slot : Nat) (w : CpW) (x01 x23 : Token) : Phase :=
  [(w.t0, x01), (w.t1, x01), (w.t2, x23), (w.t3, x23)].foldl (fun ph e => sendTok ph slot e.1.toNat e.2) ph

/-- A firing of a control point: the result of the consumed operands goes to its targets (R170). -/
def fireCp (ports : Foc → List Nat) (g : Foc → List (Nat × Token) → Phase → Phase) (s : State) : Host.Outcome State Fault Refusal :=
  match foc? s with
  | none => .next s
  | some f =>
    let ps := ports f
    match readyOps f ps with
    | none => .next s
    | some ops => .next (fired s f (g f ops (setNode f.ph f.slot (advance f.nd ps))))

/-- `steer` (R171, R175). -/
def cpSteer (w : CpW) (f : Foc) (ops : List (Nat × Token)) (ph : Phase) : Phase :=
  let a := tokAt ops 0
  let p := tokAt ops 3
  if a.null || p.null then sendFour ph f.slot w nullToken nullToken
  else if predValue p then sendFour ph f.slot w a nullToken
  else sendFour ph f.slot w nullToken a

/-- Whether iteration k resets under period r (R172, R173). -/
def resetsAt (w : CpW) (k : Nat) : Bool := k == 0 || (w.param.toNat != 0 && k % w.param.toNat == 0)

/-- A control point that emits and keeps one value. -/
def keepAndSend (w : CpW) (f : Foc) (ph : Phase) (v : Token) : Phase :=
  let nd := nodeOf ph f.slot
  sendFour (setNode ph f.slot { nd with value := v }) f.slot w v v

def carryPorts (f : Foc) : List Nat := if f.nd.iter = 0 then [0] else [0, 1]

/-- `carry` (R172). -/
def cpCarry (w : CpW) (f : Foc) (ops : List (Nat × Token)) (ph : Phase) : Phase :=
  let b := tokAt ops 1
  keepAndSend w f ph (if resetsAt w f.nd.iter then tokAt ops 0 else if b.null then f.nd.value else b)

/-- `inv` (R173). -/
def cpInv (w : CpW) (f : Foc) (ops : List (Nat × Token)) (ph : Phase) : Phase :=
  keepAndSend w f ph (if resetsAt w f.nd.iter then tokAt ops 0 else f.nd.value)

/-- `merge sel` (R175). -/
def cpMergeSel (w : CpW) (f : Foc) (ops : List (Nat × Token)) (ph : Phase) : Phase :=
  let p := tokAt ops 3
  let v := if p.null then nullToken else if predValue p then tokAt ops 0 else tokAt ops 1
  sendFour ph f.slot w v v

/-- `merge any` (R175). -/
def cpMergeAny (w : CpW) (f : Foc) (ops : List (Nat × Token)) (ph : Phase) : Phase :=
  let v := if (tokAt ops 0).null then tokAt ops 1 else tokAt ops 0
  sendFour ph f.slot w v v

def cpFan (w : CpW) (f : Foc) (ops : List (Nat × Token)) (ph : Phase) : Phase :=
  sendFour ph f.slot w (tokAt ops 0) (tokAt ops 0)

/-- A completion token (R148). -/
def completion : Token := oneLane 1

def joinPorts (w : CpW) (_ : Foc) : List Nat := (List.range 3).filter fun p => w.param.getLsbD p

def cpJoin (w : CpW) (f : Foc) (ops : List (Nat × Token)) (ph : Phase) : Phase :=
  let v := if ops.any fun x => x.2.null then nullToken else completion
  sendFour ph f.slot w v v

/-- The delay of `order`. -/
def orderDelay (w : CpW) : Nat := w.param.toNat + 1

def orderPorts (w : CpW) (f : Foc) : List Nat := if f.nd.iter < orderDelay w then [] else [0]

/-- `order` (R174). -/
def cpOrder (w : CpW) (f : Foc) (ops : List (Nat × Token)) (ph : Phase) : Phase :=
  let v := if f.nd.iter < orderDelay w then completion else tokAt ops 0
  sendFour ph f.slot w v v

/-- Whether the predicate operand of a gate holds; a null one does not (R175, R176). -/
def gateOpen (ops : List (Nat × Token)) : Bool := !(tokAt ops 3).null && predValue (tokAt ops 3)

def cpGate (w : CpW) (f : Foc) (ops : List (Nat × Token)) (ph : Phase) : Phase :=
  let v := if gateOpen ops then tokAt ops 0 else nullToken
  sendFour ph f.slot w v v

/-- `nulchk` (R175). -/
def cpNulchk (present : Bool) (w : CpW) (f : Foc) (ops : List (Nat × Token)) (ph : Phase) : Phase :=
  let v := splat (if (tokAt ops 0).null != present then 1 else 0)
  sendFour ph f.slot w v v

/-! Reorder elements (R182 to R186). -/

/-- Tokens in a group. -/
def groupTokens (op : Nat) (w : ReW) : Nat := reorderGroup op w / elemsPerToken w.ty.toNat

/-- The input element that output element m of a group takes (R183 to R185). -/
def reorderSource (op : Nat) (w : ReW) (m : Nat) : Nat :=
  let i := w.innerM1.toNat + 1
  let e := elemsPerToken w.ty.toNat
  if op = 0xB0 then
    (((m % i : Nat) : Int) * signedOf 8 w.istride.toNat + ((m / i : Nat) : Int) * signedOf 8 w.ostride.toNat) % (reorderGroup op w : Nat) |>.toNat
  else if op = 0xB1 then
    let r := w.outerM1.toNat + 1
    m % r * i + m / r
  else m % e * e + m / e

/-- Output token t of a gathered group, missing inputs being zero and invalid (R182, R186). -/
def reorderToken (op : Nat) (w : ReW) (ins : List Token) (t : Nat) : Token :=
  if ins.any Token.null then nullToken
  else
    let ty := w.ty.toNat
    let e := elemsPerToken ty
    let src := fun i => reorderSource op w (t * e + i)
    let ok := fun j => match ins[j / e]? with
      | some x => elemValid ty x.mask (j % e)
      | none => false
    let val := fun j => match ins[j / e]? with
      | some x => x.elem ty (j % e)
      | none => 0
    let m := maskOf fun l => if is64 ty then ok (src (l / 2))
      else (List.range (32 / typeWidth ty)).all fun q => ok (src (l * (32 / typeWidth ty) + q))
    predForm ty (tokenOf ty m fun i => val (src i))

/-- The outputs of the iterations of a group, sent to both targets in its last firing; the group buffer is empty again. R30
asks one free entry of a target, R31 gives a port four, and R182 has all outputs leave the element in that firing: those that
the port has no room for wait in order behind it (DESIGN CHOICE, log entry 97). -/
def flushReorder (op : Nat) (w : ReW) (ph : Phase) (slot : Nat) : Phase :=
  let nd := nodeOf ph slot
  (List.range nd.group.length).foldl (fun ph t =>
    let x := reorderToken op w nd.group t
    sendTok (sendTok ph slot w.t0.toNat x) slot w.t1.toNat x) (setNode ph slot { nd with group := [] })

/-- After a break, the partly gathered groups of nodes that have fired their last iteration are completed (R176, R182). -/
def flushGroups (ph : Phase) : Phase :=
  (List.range 4).foldl (fun ph i =>
    let slot := 120 + i
    let x := wordAt ph slot
    if x != 0 && phaseEnd ph ≤ (nodeOf ph slot).iter && !(nodeOf ph slot).group.isEmpty then flushReorder (wordOp x) (readRe x) ph slot else ph) ph

/-- A firing of a reorder element. -/
def fireReorder (op : Nat) (w : ReW) (s : State) : Host.Outcome State Fault Refusal :=
  match foc? s with
  | none => .next s
  | some f =>
    let ps := withPred w.pm.toNat [0]
    match readyOps f ps with
    | none => .next s
    | some ops =>
      let x := if actsNull w.pm.toNat ops then nullToken else tokAt ops 0
      let nd := advance f.nd ps
      let ph := setNode f.ph f.slot { nd with group := nd.group ++ [x] }
      let last : Bool := (nodeOf ph f.slot).group.length == groupTokens op w || nd.iter == phaseEnd ph
      .next (fired s f (if last then flushReorder op w ph f.slot else ph))

/-- `gate brk` (R176). -/
def cpGateBrk (w : CpW) (f : Foc) (ops : List (Nat × Token)) (ph : Phase) : Phase :=
  let ph := cpGate w f ops ph
  if gateOpen ops then flushGroups { ph with brk := some f.nd.iter } else ph

/-! Exit (R178 to R180). -/

/-- The choice of a deciding firing by MODE (Table 9.2); the alignment faults of R180 and R261 where they apply. A ret to an even address that is
no multiple of 16 loads the block there as it stands, and so does an eret (DESIGN CHOICE, log entry 124). -/
def exitChoice (mode : Nat) (w : CpW) (f : Foc) (a : Token) : Except FaultInfo ExitRes :=
  let s := fun k => succAddr f.ph.addr f.ph.hdr k
  let x := a.lane 0
  let bn := (f.ph.starts.getD (w.param.toNat % 16) 0).toNat % 2 ^ 57
  if a.null || !maskBit a.mask 0 then .ok { pc := s 0 }
  else match mode with
    | 0 => .ok { pc := if x = 0 then s 0 else if x = 1 then s 1 else s 2 }
    | 1 => if bn % 16 ≠ 0 then .error { cls := 0x02, addr := bn } else .ok { pc := bn, lr := some (s 0), b12 := some (BitVec.ofNat 64 f.task.lr) }
    | 2 => if f.task.lr % 2 = 1 && !f.task.seed.joined then .error { cls := 0x02, addr := f.task.lr } else .ok { pc := f.task.lr, ret := true }
    | 3 => if bn % 16 ≠ 0 then .error { cls := 0x02, addr := bn } else .ok { pc := bn }
    | _ => .ok { pc := if predValue a then s 1 else s 0 }

/-- A firing of `exit`: only the deciding one acts (R178). -/
def fireExit (mode : Nat) (w : CpW) (s : State) : Host.Outcome State Fault Refusal :=
  match foc? s with
  | none => .next s
  | some f =>
    match readyOps f [0] with
    | none => .next s
    | some ops =>
      let ph := setNode f.ph f.slot (advance f.nd [0])
      if !isDeciding f.ph f.nd then .next (fired s f ph)
      else match exitChoice mode w f (tokAt ops 0) with
        | .error i => .next (nodeFault s f i)
        | .ok r => .next (fired s f { ph with exitRes := some r })

/-! The codec's groups (R143). -/

/-- The tokens of a port of the group that starts at the node's next iteration, p acting as a null where it does not match. -/
def groupInputs (pm : Nat) (nd : Node) (r : Nat) : Option (List Token) :=
  if nd.qa.length < r || (pm != 0 && nd.qp.length < r) then none
  else some ((List.range r).map fun i =>
    let a := nd.qa.getD i nullToken
    let p := nd.qp.getD i nullToken
    if pm != 0 && (p.null || predValue p != (pm == 1)) then nullToken else a)

/-- A firing of `bpc` or `bpx`: the first of a group waits for all its tokens and forms its outputs (R143 to R145). The map leaves on
target 1 at that firing alone; a null group leaves target 1 one null token there, and its other firings send target 1 nothing (DESIGN
CHOICE, log entry 116). -/
def fireCodec (unpack : Bool) (w : StageW) (s : State) : Host.Outcome State Fault Refusal :=
  match foc? s with
  | none => .next s
  | some f =>
    let k := f.nd.iter
    let first : Bool := k % 4 == 0
    let ps := withPred w.pm.toNat (if unpack && first then [0, 1] else [0])
    match readyOps f ps with
    | none => .next s
    | some ops =>
      let nd := advance f.nd ps
      if first then
        match groupInputs w.pm.toNat f.nd (min 4 (phaseEnd f.ph - k)) with
        | none => .next s
        | some ins =>
          let g := if unpack then (bpxGroup ins (tokAt ops 1), nullToken) else bpcGroup ins
          let x := g.1.headD nullToken
          let ph := sendTok (setNode f.ph f.slot { nd with group := g.1.tail }) f.slot w.t0.toNat x
          .next (fired s f (sendTok ph f.slot w.t1.toNat (if unpack then x else g.2)))
      else
        let x := f.nd.group.headD nullToken
        let ph := sendTok (setNode f.ph f.slot { nd with group := f.nd.group.tail }) f.slot w.t0.toNat x
        .next (fired s f (if unpack then sendTok ph f.slot w.t1.toNat x else ph))

end Sys2Proof.Machine
end

