-- ==== Sys2Proof/Machine/Flit.lean ====
section
/-! DEFINITION. The pod ports (R405 to R408): flits and their CRC, sending, receiving, replay, and a port going down. -/

namespace Sys2Proof.Machine

/-! The CRC-32 of the IEEE polynomial over bytes, lowest bit first. -/

def crcBit (c : BitVec 32) : BitVec 32 := if c.getLsbD 0 then (c >>> 1) ^^^ 0xEDB88320#32 else c >>> 1
def crcByte (c : BitVec 32) (b : Byte) : BitVec 32 := crcBit (crcBit (crcBit (crcBit (crcBit (crcBit (crcBit (crcBit (c ^^^ b.setWidth 32))))))))
def crc32 (bs : List Byte) : BitVec 32 := (bs.foldl crcByte 0xFFFFFFFF#32) ^^^ 0xFFFFFFFF#32

/-! The flit header (Table 25.4). -/

def flSeq (f : Flit) : Nat := (f.hdr.extractLsb' 116 12).toNat
def flAck (f : Flit) : Nat := (f.hdr.extractLsb' 104 12).toNat
def flKind (f : Flit) : Nat := (f.hdr.extractLsb' 102 2).toNat
def flCredit (f : Flit) (i : Nat) : Nat := (f.hdr.extractLsb' (64 + 8 * i) 8).toNat

/-- The CRC that a flit's bytes 4 to 255 have. -/
def flitCrc (f : Flit) : BitVec 32 := crc32 (((List.range 12).map fun i => f.hdr.extractLsb' (32 + 8 * i) 8) ++ f.payload)
def flitOk (f : Flit) : Bool := f.hdr.extractLsb' 0 32 == flitCrc f

/-- A flit of a kind with its numbers and the credits it returns, its CRC made. -/
def mkFlit (seq ack kind : Nat) (payload : List Byte) (credits : List Nat := []) : Flit :=
  let h := seq % 4096 * 2 ^ 116 + ack % 4096 * 2 ^ 104 + kind % 4 * 2 ^ 102
    + (List.range 4).foldl (fun n i => n + credits.getD i 0 % 256 * 2 ^ (64 + 8 * i)) 0
  let f : Flit := { hdr := BitVec.ofNat 128 h, payload := payload }
  { f with hdr := BitVec.ofNat 128 (h + (flitCrc f).toNat) }

/-! Ports. -/

def State.port (s : State) (p : Nat) : Port := tabGet {} s.ports p
def State.setPort (s : State) (p : Nat) (x : Port) : State := { s with ports := tabPut s.ports p x }

/-- The ports that are up. -/
def upPorts (s : State) : List (Nat × Port) := s.ports.filter fun e => e.2.up

/-- Whether some port leads to the pod (R408). -/
def podReachable (s : State) : Bool := !(upPorts s).isEmpty

/-- Whether an up port reaches a package (R408). -/
def podReach (s : State) (pkg : Nat) : Bool := (upPorts s).any fun e => !e.2.cut.contains pkg

/-- The package of a remote key. -/
def pkgOfKey (key : Nat) : Nat := (key - keyRemote 0 0 0) / 2 ^ 47 % 256

/-- The credits a port returns with its next flit, up to 255 of each buffer, and what it still owes then (Table 25.4). -/
def owedNow (x : Port) : List Nat := (List.range 4).map fun i => min 255 (tabGet 0 x.owed i)
def owedAfter (x : Port) : List (Nat × Nat) := (List.range 4).foldl (fun m i => tabSet 0 m i (tabGet 0 x.owed i - 255)) []

/-- A payload sent on a port: the flit is kept until it is acknowledged, the last 1,024 of them (R406). -/
def sendPayload (x : Port) (payload : List Byte) : Port :=
  let f := mkFlit x.nextSeq x.expect 0 payload (owedNow x)
  let u := x.unacked ++ [f]
  { x with owed := owedAfter x, nextSeq := (x.nextSeq + 1) % 4096, unacked := u.drop (u.length - 1024), sent := x.sent ++ [f] }

/-- IDLE_FLIT: a port sends an idle flit, which takes no number and returns credits (R405, R417). -/
def idleFlitMove (p : Nat) (s : State) : State :=
  let x := s.port p
  if x.up then s.setPort p { x with owed := owedAfter x, sent := x.sent ++ [mkFlit x.nextSeq x.expect 1 (List.replicate 240 0) (owedNow x)] } else s

/-- A remote request goes on the port that its package and PA[39:8] select among the up ports that reach it (R407, R408). -/
def podSend (s : State) (pkg pa : Nat) : State :=
  let ups := (upPorts s).filter fun e => !e.2.cut.contains pkg
  match ups[Config.portHash pkg (pa / 256 % 2 ^ 32) % ups.length]? with
  | some e => s.setPort e.1 (sendPayload e.2 ((List.range 240).map (Config.flitByte s.tick)))
  | none => s

/-- A request on a remote key. -/
def podSendKey (s : State) (key : Nat) : State :=
  if isRemote key then podSend s (pkgOfKey key) (key % 2 ^ 40) else s

/-! Receiving (R405, R406). -/

/-- The flits still to be acknowledged once the far end expects a number. -/
def unackedFrom (ack : Nat) (l : List Flit) : List Flit := l.filter fun f => (flSeq f + 4096 - ack) % 4096 < 2048

/-- Acknowledgement and credits of a good flit. -/
def takeHeader (x : Port) (f : Flit) : Port :=
  { x with unacked := unackedFrom (flAck f) x.unacked
           replayed := x.replayed.filter fun e => (e.1 + 4096 - flAck f) % 4096 < 2048
           credits := (List.range 4).foldl (fun c i => tabSet 0 c i (tabGet 0 c i + flCredit f i)) x.credits }

/-- A replay request naming the number expected. -/
def askReplay (x : Port) : Port := { x with sent := x.sent ++ [mkFlit x.nextSeq x.expect 2 (List.replicate 240 0)] }

/-- A data flit is passed upward once, in order; the buffer it took is given back as a credit (Table 25.4; log entry 8). -/
def takeData (x : Port) (f : Flit) : Port :=
  { x with expect := (x.expect + 1) % 4096, received := x.received ++ [f.payload], owed := tabMod 0 x.owed (Config.flitChannel f.payload % 4) (· + 1) }

/-- A flit at a port: one whose CRC fails, whatever its KIND reads, and a data flit whose SEQ is not the one expected, is discarded, and a replay
asked for (R406). -/
def receiveFlit (kind p : Nat) (f : Flit) (g : Port → Port) (s : State) : State :=
  let x := s.port p
  if !x.up then s
  else if !flitOk f then s.setPort p (askReplay x)
  else if flKind f != kind then s
  else if kind = 0 && flSeq f != x.expect then s.setPort p (askReplay x)
  else s.setPort p (g (takeHeader x f))

/-! Replay, and a port going down (R406, R408). -/

/-- The flits resent from a number, each replayed once more. -/
def resend (x : Port) (n : Nat) : Port :=
  let u := unackedFrom n x.unacked
  if u.isEmpty then x
  else { x with
    unacked := u
    sent := x.sent ++ u
    replays := x.replays + 1
    replayed := u.foldl (fun m g => tabPut m (flSeq g) (tabGet 0 x.replayed (flSeq g) + 1)) [] }

/-- The fences that wait for a switch that no up port leads to are resent by the new path (R409). -/
def moveFences (s : State) (old new : Nat) : State :=
  if (upPorts s).any fun e => e.2.switch == old then s
  else
    let moved := fun (l : List Nat) => if l.contains old then (l.map fun w => if w = old then new else w).eraseDups else l
    let go := fun (ph : Phase) => { ph with
      accs := ph.accs.map fun e => (e.1, e.2.map fun a => { a with fences := moved a.fences })
      epFences := ph.epFences.map fun e => (e.1, moved e.2) }
    let card := fun (k : Card) => { k with fences := k.fences.map moved }
    { s with cores := s.cores.map fun e => (e.1, { e.2 with tasks := e.2.tasks.map fun x =>
        (x.1, { x.2 with phase := x.2.phase.map go, held := x.2.held.map go
                         chains := x.2.chains.map fun y => (y.1, { y.2 with cards := y.2.cards.map card }) }) }) }

/-- The unacknowledged flits of down ports are sent on an up port, the lowest; they wait while there is none (R406, R408). -/
def resendDown (s : State) : State :=
  match upPorts s with
  | e :: _ =>
    let fs : List Flit := (s.ports.filter fun (y : Nat × Port) => !y.2.up).flatMap fun (y : Nat × Port) => y.2.unacked
    let drop := fun (y : Nat × Port) => if y.2.up then y else (y.1, { y.2 with unacked := [] })
    let s := { s with ports := s.ports.map drop }
    s.setPort e.1 (fs.foldl (fun y (f : Flit) => sendPayload y f.payload) e.2)
  | [] => s

/-- A port goes down: its unacknowledged flits are sent on another up port, and so are the fences that waited for its switch. -/
def portDown (s : State) (p : Nat) : State :=
  let x := s.port p
  let s := resendDown (s.setPort p { x with up := false, replayed := [] })
  match upPorts s with
  | e :: _ => moveFences s x.switch e.2.switch
  | [] => s

/-- FLIT_REPLAY_REQUEST: the flits from ACK are resent; a port that replays one flit eight times goes down (R406). -/
def replayRequest (p : Nat) (f : Flit) (s : State) : State :=
  let s := receiveFlit 2 p f (fun x => resend x (flAck f)) s
  if (s.port p).replayed.any fun e => 8 ≤ e.2 then portDown s p else s

/-- PORT_UP (R408): the port leads to a switch, and its numbers begin anew; flits that no port could resend are sent now (R406). -/
def portUpMove (p sw swport : Nat) (s : State) : State :=
  let x := s.port p
  if 18 ≤ p || x.up then s
  else
    let waiting := x.unacked
    let y := waiting.foldl (fun y f => sendPayload y f.payload)
      { x with up := true, switch := sw % 256, swport := swport % 256, nextSeq := 0, expect := 0, unacked := [], replayed := [], credits := [], owed := [], cut := [] }
    resendDown (s.setPort p y)

/-- REACH: the packages that a port reaches no more (R408). -/
def reachMove (p : Nat) (lost : List Nat) (s : State) : State := s.setPort p { s.port p with cut := lost }

end Sys2Proof.Machine
end

