-- ==== Sys2Proof/Machine/MemElem.lean ====
section
/-! DEFINITION. Memory elements: addresses and checks (R149 to R155, R167), the moves of their accesses in the
abstract machine (R160 to R166, R314 to R324, R328 to R331), and the events that make those moves. -/

namespace Sys2Proof.Machine

/-! Layout records (Table 8.2). -/

def recBase (r : BitVec 512) : Nat := (r.extractLsb' 0 57).toNat
def recFmt (r : BitVec 512) : Nat := (r.extractLsb' 57 4).toNat
def recNdim (r : BitVec 512) : Nat := (r.extractLsb' 61 4).toNat + 1
def recMem (r : BitVec 512) : Bool := r.getLsbD 65
def recCreg (r : BitVec 512) : Bool := r.getLsbD 66
def recTid (r : BitVec 512) : Nat := (r.extractLsb' 67 16).toNat
def recTiler (r : BitVec 512) : Nat := (r.extractLsb' 83 3).toNat
def recTilec (r : BitVec 512) : Nat := (r.extractLsb' 86 3).toNat
def recExt (r : BitVec 512) (d : Nat) : Nat := (r.extractLsb' (90 + 42 * d) 16).toNat + 1
def recStride (r : BitVec 512) (d : Nat) : Int := signedOf 22 (r.extractLsb' (106 + 42 * d) 22).toNat
def recWrap (r : BitVec 512) (d : Nat) : Nat := (r.extractLsb' (128 + 42 * d) 4).toNat

/-- The linear record (R150). -/
def linearRecord : BitVec 512 := BitVec.ofNat 512 (8 * 2 ^ 57 + 65535 * 2 ^ 90)

/-- A core's layout record: record 0 is linear unless a launch or a `syswr` set it, others are zero (R150, R169). -/
def recOf (core : Core) (n : Nat) : BitVec 512 := tabGet (if n = 0 then linearRecord else 0) core.recs n

/-- PackedBytes of R151: c elements of a format from a token boundary. -/
def packedBytes (fmt c : Nat) : Nat := if fmt = 6 then c / 32 * 18 else c * typeWidth fmt / 8

/-- A coordinate under the wrap of its dimension. -/
def wrapCoord (r : BitVec 512) (d c : Nat) : Nat := if recWrap r d = 0 then c else c % 2 ^ recWrap r d

/-- The bytes a coordinate adds in its dimension (R151, R296). -/
def coordBytes (r : BitVec 512) (d c : Nat) : Int :=
  if d = 0 then packedBytes (recFmt r) (wrapCoord r 0 c) else (wrapCoord r d c : Nat) * recStride r d

/-- TokenAddress of R151 from the element index e, dimension d on: only the outermost dimension is unbounded. -/
def addrFrom (r : BitVec 512) (d : Nat) : Nat → Nat → Int
  | 0, _ => 0
  | 1, e => coordBytes r d e
  | n + 2, e => coordBytes r d (e % recExt r d) + addrFrom r (d + 1) (n + 1) (e / recExt r d)

/-- The byte address of token t through a record (R151). -/
def tokenAddress (r : BitVec 512) (t : Nat) : Nat :=
  wrapTo 57 ((recBase r : Int) + addrFrom r 0 (recNdim r) (t * elemsPerToken (recFmt r)))

/-! What an access moves, and the checks of its firing. -/

def isLoadOp (op : Nat) : Bool := op == 0x70 || op == 0x72 || op == 0x74 || op == 0x76
def isStoreOp (op : Nat) : Bool := op == 0x71 || op == 0x73 || op == 0x75 || op == 0x77
def isTokenOp (op : Nat) : Bool := 0x70 ≤ op && op ≤ 0x75

def acquires (w : MemW) : Bool := w.ordk.getLsbD 0
def releases (w : MemW) : Bool := w.ordk.getLsbD 1

/-- A run of bytes to access: virtual address, length, position in the result, and the bytes to store. -/
structure Run where
  va : Nat
  len : Nat
  pos : Nat
  data : Nat
  deriving DecidableEq, Repr, Inhabited

/-- A 32-bit word or 64-bit pair of a token from its lane. -/
def laneVal (x : Token) (lane n : Nat) : Nat := bitsOf x.data.toNat (32 * lane) (8 * n)

/-- Whether the lanes of an n-byte value from a lane are valid. -/
def laneOk (x : Token) (lane n : Nat) : Bool := maskBit x.mask lane && (n == 4 || maskBit x.mask (lane + 1))

/-- The bytes of an element that atomics, `ldg` and `stg` move: 4, or 8 for i64 and n64. -/
def unitBytes (w : MemW) : Nat := if is64 w.ty.toNat then 8 else 4

/-- Whether the lanes that have to be read are valid (R147). -/
def lanesRead (op : Nat) (w : MemW) (ops : List (Nat × Token)) (trigger : Bool) : Bool :=
  let a := tokAt ops 0
  let u := unitBytes w
  if op == 0x76 || op == 0x77 then true
  else if op == 0x78 then true
  else if op == 0x79 || op == 0x7B || op == 0x7C then !trigger || maskBit a.mask 0
  else if op == 0x89 then maskBit a.mask 0 && laneOk (tokAt ops 1) 0 u && maskBit (tokAt ops 2).mask 0
  else if op == 0x87 then maskBit a.mask 0 && laneOk (tokAt ops 1) 0 u && laneOk (tokAt ops 2) 0 u
  else if 0x80 ≤ op then maskBit a.mask 0 && laneOk (tokAt ops 1) 0 u
  else maskBit a.mask 0

/-- The token address of a token access. -/
def tokenVa (r : BitVec 512) (w : MemW) (ops : List (Nat × Token)) : Nat :=
  tokenAddress r ((tokAt ops 0).lane 0 + w.off.toNat)

/-- The runs of a token store: whole valid lanes, or whole valid hx4 blocks (R153). A store with no valid lane has no run, so only
check 1 of Table 8.11 is made of it (DESIGN CHOICE, log entry 103). A lane of TYPE pred is moved as it stands (DEDUCED, log entry 114). -/
def storeRuns (w : MemW) (va : Nat) (ops : List (Nat × Token)) : List Run :=
  let b := tokAt ops 1
  if w.ty.toNat = 6 then
    (List.range 4).filterMap fun j =>
      if ((List.range 4).all fun l => maskBit b.mask (4 * j + l)) && maskBit (tokAt ops 2).mask j then
        some ⟨va + 18 * j, 18, 18 * j, bitsOf b.data.toNat (128 * j) 128 + bitsOf (tokAt ops 2).data.toNat (32 * j) 16 * 2 ^ 128⟩
      else none
  else (List.range 16).filterMap fun l => if maskBit b.mask l then some ⟨va + 4 * l, 4, 4 * l, b.lane l⟩ else none

/-- The runs of a firing: what it reads or writes, by its operation (R151 to R155, R162, R165). -/
def runsOf (op : Nat) (w : MemW) (r : BitVec 512) (ops : List (Nat × Token)) : List Run :=
  let a := tokAt ops 0
  let u := unitBytes w
  if isTokenOp op then
    let va := tokenVa r w ops
    if isLoadOp op then [⟨va, if w.ty.toNat = 6 then 72 else 64, 0, 0⟩] else storeRuns w va ops
  else if op == 0x76 || op == 0x77 then
    (List.range (64 / u)).filterMap fun i =>
      let lane := i * (u / 4)
      if maskBit a.mask lane && (op == 0x76 || laneOk (tokAt ops 1) lane u) then
        some ⟨(recBase r + a.lane lane + 4 * w.off.toNat) % 2 ^ 57, u, 4 * lane, laneVal (tokAt ops 1) lane u⟩
      else none
  else if 0x80 ≤ op then [⟨(recBase r + a.lane 0 + w.off.toNat * u) % 2 ^ 57, u, 0, laneVal (tokAt ops 1) 0 u⟩]
  else []

/-- Check 1 of Table 8.11 (R152, R154, R155). -/
def misaligned (op : Nat) (w : MemW) (r : BitVec 512) (ops : List (Nat × Token)) (runs : List Run) : Bool :=
  if isTokenOp op then
    let fmt := recFmt r
    let hx4 : Bool := w.ty.toNat == 6
    recExt r 0 % elemsPerToken fmt != 0 || hx4 != (fmt == 6) || tokenVa r w ops % (if hx4 then 8 else 64) != 0 ||
      ((op == 0x74 || op == 0x75) && packedBytes fmt (2 ^ (recTiler r + recTilec r)) != 256)
  else runs.any fun x => x.va % unitBytes w != 0

/-- The bytes of a run that a 4-byte location holds, as pieces with their offset from the run (R314, R153). -/
def locationsOf (va len : Nat) : List (Nat × Nat) :=
  (List.range ((va + len - 1) / 4 + 1 - va / 4)).map fun i =>
    let lo := max va (4 * (va / 4 + i))
    let hi := min (va + len) (4 * (va / 4 + i) + 4)
    (lo - va, hi - lo)

/-- Pieces of a run at a key: one at the bank for the scratchpad and for aligned 8-byte units, else by location. -/
def piecesOf (x : Run) (off len key view : Nat) (whole : Bool) : List Piece :=
  let cut := fun o n => (⟨key + (o - off), n, x.va + o, x.pos + o, bitsOf x.data (8 * o) (8 * n), false, view⟩ : Piece)
  if whole then [cut off len] else (locationsOf (x.va + off) len).map fun p => cut (off + p.1) p.2

/-- The order of a fault class among the checks 2 to 7 of Table 8.11. -/
def checkOrder (cls : Nat) : Nat :=
  match cls with
  | 0x03 => 2 | 0x05 => 3 | 0x04 => 4 | 0x0E => 5 | 0x06 => 6 | _ => 7

/-- The fault of the earlier check; of two of one order the first. -/
def firstFault (a : Option FaultInfo) (b : FaultInfo) : Option FaultInfo :=
  match a with
  | none => some b
  | some x => if checkOrder b.cls < checkOrder x.cls then some b else some x

/-- What a memory operation needs of a page (Table 22.5, R163, R166). -/
def needOf (op : Nat) (w : MemW) : Need :=
  if isLoadOp op then needRead
  else if isStoreOp op then needWrite
  else if op == 0x89 then needRead
  else { r := true, w := true, acc := 1, hostOk := w.scope.toNat == 5 && (op == 0x80 || op == 0x88 || op == 0x86 || op == 0x87) }

/-- The pieces of two parts of a firing, or the fault that Table 8.11 puts first. -/
def joinPieces (a b : Except FaultInfo (List Piece)) : Except FaultInfo (List Piece) :=
  match a, b with
  | .ok x, .ok y => .ok (x ++ y)
  | .error f, .ok _ => .error f
  | .ok _, .error g => .error g
  | .error f, .error g => .error ((firstFault (some f) g).getD f)

/-- Pieces of one run after translation: of each page it lies in, every page checked (R167). `ldt` and `stt` in the window fault as
translation, as order 2 of Table 8.11 has it, where R154 says alignment (DESIGN CHOICE, log entry 104). -/
def resolveRun (op : Nat) (w : MemW) (c part : Nat) (s : State) (x : Run) : Except FaultInfo (List Piece) × State :=
  let nd := needOf op w
  let bad := fun (va : Nat) => (.error { cls := 0x03, acc := nd.acc, addr := va } : Except FaultInfo (List Piece))
  let last := x.va + x.len - 1
  if inWindow x.va then
    (if (op == 0x74 || op == 0x75) || !inWindow last then bad x.va else .ok (piecesOf x 0 x.len (keyScratch c x.va) 0 true), s)
  else if inHole x.va || op == 0x70 || op == 0x71 then (bad x.va, s)
  else
    let part1 := fun (r : Except FaultInfo Place) (off len : Nat) => r.map fun pl => piecesOf x off len pl.key (leafView pl.leaf) (!isTokenOp op)
    let r := translate s (quadOfCore c) part nd x.va
    let head := 4096 - x.va % 4096
    if x.len ≤ head then (part1 r.1 0 x.len, r.2)
    else
      let r2 := translate r.2 (quadOfCore c) part nd ((x.va + head) % 2 ^ 57)
      (joinPieces (part1 r.1 0 head) (part1 r2.1 head (x.len - head)), r2.2)

/-- Pieces of every run, or the fault that Table 8.11 puts first. -/
def resolveRuns (op : Nat) (w : MemW) (c part : Nat) (s : State) : List Run → Except FaultInfo (List Piece) × State
  | [] => (.ok [], s)
  | x :: xs =>
    let r := resolveRun op w c part s x
    let rest := resolveRuns op w c part r.2 xs
    (joinPieces r.1 rest.1, rest.2)

/-- The checks 1 to 7 of Table 8.11 for a firing, with the pieces it will access (R167). -/
def checkAccess (op : Nat) (w : MemW) (c part : Nat) (ops : List (Nat × Token)) (s : State) : Except FaultInfo (List Piece) × State :=
  let r := recOf (s.core c) w.recid.toNat
  let runs := runsOf op w r ops
  if misaligned op w r ops runs then
    (.error { cls := 0x02, addr := if isTokenOp op then tokenVa r w ops else
      ((runs.find? fun x => x.va % unitBytes w != 0).map Run.va).getD 0 }, s)
  else resolveRuns op w c part s runs

/-- Whether the walks that a firing's checks need can be made now (R356, R375). -/
def checksOpen (op : Nat) (w : MemW) (c part : Nat) (ops : List (Nat × Token)) (s : State) : Bool :=
  (runsOf op w (recOf (s.core c) w.recid.toNat) ops).all fun x =>
    inWindow x.va || (walkOpen s (quadOfCore c) part x.va && walkOpen s (quadOfCore c) part ((x.va + x.len - 1) % 2 ^ 57))

/-- The lane-valid mask of a result (R153, R155, R162). -/
def accessMask (op : Nat) (w : MemW) (ops : List (Nat × Token)) : BitVec 16 :=
  if op == 0x76 then
    (if is64 w.ty.toNat then maskOf fun l => maskBit (tokAt ops 0).mask (l / 2 * 2) else (tokAt ops 0).mask)
  else 0xFFFF#16

/-- The tokens of a firing that makes no access (R148). -/
def nullResult (op : Nat) : Token :=
  if isStoreOp op || op == 0x78 || op == 0x7C then completion
  else if 0x80 ≤ op then laneToken 0#16 fun _ => 0
  else nullToken

/-! Outstanding accesses. -/

def accsOf (ph : Phase) (slot : Nat) : List Access := tabGet [] ph.accs slot
def setAccs (ph : Phase) (slot : Nat) (l : List Access) : Phase :=
  { ph with accs := if l.isEmpty then tabDel ph.accs slot else tabPut ph.accs slot l }

/-- Lets the tokens of an element leave in iteration order: those of its oldest accesses that are done (R147). -/
def flushElem (ph : Phase) (slot : Nat) : Nat → Phase
  | 0 => ph
  | n + 1 =>
    match accsOf ph slot with
    | a :: rest =>
      if a.stage == .done then
        flushElem (sendOpt (sendOpt (setAccs ph slot rest) slot a.w.t0 a.out0) slot a.w.t1 a.out1) slot n
      else ph
    | [] => ph

def flushAll (ph : Phase) (slot : Nat) : Phase := flushElem ph slot (accsOf ph slot).length

/-- An access done with one token for both targets. -/
def Access.finish (a : Access) (x : Token) : Access := { a with stage := .done, waiting := false, out0 := some x, out1 := some x }

/-- Room at every target for the tokens of the firings outstanding and one more (R30, R340). -/
def memSpace (ph : Phase) (slot outstanding : Nat) : Bool :=
  (wTargets (wordAt ph slot)).all fun t => portLoad ph t + outstanding < 4

/-- The ports of a memory word: an optional trigger counts where some target names it (R147). -/
def memPorts (ph : Phase) (slot : Nat) (pm : Nat) : List Nat :=
  let x := wordAt ph slot
  let d := dataPorts x
  let opt := d.2.filter fun p => 1 ≤ producers (blockSlots ph.words) (4 * slot + p)
  withPred pm (d.1 ++ opt)

/-- The operands of a memory firing that may be made. -/
def readyMem (f : Foc) (ports : List Nat) : Option (List (Nat × Token)) :=
  if mayFire f.ph f.slot && memSpace f.ph f.slot (accsOf f.ph f.slot).length then heads f.nd ports else none

/-- Switches of the source's paths: those that a port in use leads to (R329). -/
def pathSwitches (s : State) : List Nat := ((s.ports.filter fun e => e.2.up).map fun e => e.2.switch).eraseDups

/-- The access of a firing, checks passed. -/
def newAccess (s : State) (op : Nat) (w : MemW) (f : Foc) (ops : List (Nat × Token)) (nullOp : Bool) (pieces : List Piece) : Access :=
  { op := op, w := w, iter := f.nd.iter, ops := ops, nullA := nullOp, stage := .fired, pieces := pieces
    mask := accessMask op w ops, firedAt := s.stamp, issuedAt := 0
    fences := if releases w && (w.scope.toNat == 4 || w.scope.toNat == 5) && !nullOp then pathSwitches s else []
    waiting := false, poll := false, out0 := none, out1 := none }

/-- One firing of a memory element that reads or writes memory: the checks 1 to 7 of Table 8.11 are made and the access
joins the issue queue (R167, R317). A null firing makes no access; an ordered one still takes its turn (R72, R148). -/
def fireMem (op : Nat) (w : MemW) (s : State) : Host.Outcome State Fault Refusal :=
  match foc? s with
  | none => .next s
  | some f =>
    let ports := memPorts f.ph f.slot w.pm.toNat
    match readyMem f ports with
    | none => .next s
    | some ops =>
      let nullOp := actsNull w.pm.toNat ops || !lanesRead op w ops (ports.contains 0)
      let place := fun (s : State) (a : Access) =>
        let ph := setNode f.ph f.slot (advance f.nd ports)
        fired s f (flushAll (setAccs ph f.slot (accsOf ph f.slot ++ [a])) f.slot)
      if nullOp then
        let a := newAccess s op w f ops true []
        .next (place s (if w.ordered = 1#1 then a else a.finish (nullResult op)))
      else if !checksOpen op w f.c f.task.part ops s then .next s
      else match checkAccess op w f.c f.task.part ops s with
        | (.error i, s) => .next (nodeFault s f i)
        | (.ok ps, s) => .next (place s (newAccess s op w f ops false ps))

/-! When an access may issue (R70 to R72, R317 to R321). -/

/-- The place of an ordered access in issue order. -/
def ordKey (a : Access) : Nat × Nat := (a.iter, a.w.ordno.toNat)

def ordLt (x y : Nat × Nat) : Bool := x.1 < y.1 || (x.1 == y.1 && x.2 < y.2)

def unissued (a : Access) : Bool := a.stage == .fired || a.stage == .refire

/-- The next iteration that an element has not issued. -/
def nextUnissued (ph : Phase) (slot : Nat) : Nat :=
  match (accsOf ph slot).find? unissued with
  | some a => a.iter
  | none => (nodeOf ph slot).iter

/-- Whether an access is the first its element has not issued, and, if ordered, whether its turn has come (R70, R72). -/
def hasTurn (ph : Phase) (slot : Nat) (a : Access) : Bool :=
  nextUnissued ph slot == a.iter &&
  (a.w.ordered == 0#1 || (List.range 16).all fun i =>
    let m := 96 + i
    let x := wordAt ph m
    m == slot || x == 0 || (readMem x).ordered == 0#1 ||
      ordLt (ordKey a) (nextUnissued ph m, (readMem x).ordno.toNat) || phaseEnd ph ≤ nextUnissued ph m)

/-- Whether two accesses touch a common byte. -/
def overlaps (a b : Access) : Bool :=
  a.pieces.any fun p => b.pieces.any fun q => p.key < q.key + q.len && q.key < p.key + p.len

/-- Whether an earlier ordered access holds this one back: an acquire or a strong access before a strong one whose token
has not left (R319, R320), or one that overlaps and is not yet performed (R72). -/
def heldBack (ph : Phase) (a : Access) : Bool :=
  a.w.ordered == 1#1 && ph.accs.any fun e => e.2.any fun b =>
    b.w.ordered == 1#1 && ordLt (ordKey b) (ordKey a) && !b.nullA &&
      (acquires b.w || (b.w.strong == 1#1 && a.w.strong == 1#1 && b.op != 0x7C && a.op != 0x7C) ||
        (b.stage != .done && overlaps a b))

/-- Whether a pending store or issued atomic of a place in program order counts as earlier than a release (R160, R321). -/
def beforeRelease (ph : Phase) (a : Access) (stamp : Nat) (ord : Option (Nat × Nat × Nat)) : Bool :=
  stamp < a.firedAt || (match ord with
    | some (n, k) => a.w.ordered == 1#1 && n == ph.num && ordLt k (ordKey a)
    | none => false)

/-- Whether a release of a scope waits for a store or atomic of a scope: of its own and narrower ones, a fence of every one
(R321). -/
def waitsFor (fence : Bool) (own scope : Nat) : Bool := fence || scope ≤ own

/-- The place of an access in program order, where it is ordered (R315). -/
def progPlace (ph : Phase) (a : Access) : Option (Nat × Nat × Nat) := if a.w.ordered = 1#1 then some (ph.num, ordKey a) else none

/-- The scope of an access for a release: core scope in the scratchpad window, whatever SCOPE holds (R149). -/
def ownScope (a : Access) : Nat := if a.pieces.any fun p => isScratch p.key then 0 else a.w.scope.toNat

/-- Whether an issued access has not reached the place that a release of a scope asks: an atomic not performed, or a scratchpad
store not yet at its bank. A fence of core scope waits for the atomics of core scope alone, since for the others issue is enough
(R161, R321). -/
def notReached (fence : Bool) (own : Nat) (a : Access) : Bool :=
  a.stage == .issued && !a.nullA &&
    ((isAtomicOp a.op && waitsFor (fence && own != 0) own (ownScope a)) || (isStoreOp a.op && a.pieces.any fun p => isScratch p.key && !p.doneP))

/-- Whether every store and atomic of a task that counts as earlier, by its stamp and its place in program order, and that a release
of a scope waits for has reached the place of that scope: the core's pending stores for core scope, else the home, host memory
for a host location (R160, R161, R316, R321). -/
def earlierDone (s : State) (c t own : Nat) (fence : Bool) (before : Nat → Option (Nat × Nat × Nat) → Bool) : Bool :=
  let core := s.core c
  match tabFind core.tasks t with
  | none => true
  | some task =>
    (task.phase.toList ++ task.held.toList).all (fun ph => ph.accs.all fun e => e.2.all fun a =>
      !(notReached fence own a && before a.issuedAt (progPlace ph a))) &&
    (own == 0 ||
      (core.stores.all (fun p => !(p.task == t && waitsFor fence own p.scope && before p.stamp p.ord)) &&
       (s.hostWc ++ s.hostLink).all fun h => !(h.job == task.job && h.rank == task.rank && waitsFor fence own h.scope && before h.stamp h.ord)))

/-- Whether every kv transaction of a task that counts as earlier, and that a release of a scope waits for, has been performed (R273, R321).
The transactions themselves do not wait for one another so (R395). -/
def kvDone (s : State) (c t own : Nat) (fence : Bool) (before : Nat → Bool) : Bool :=
  !waitsFor fence own 3 || (s.task? c t).all fun task =>
    (task.phase.toList ++ task.held.toList).all fun ph => ph.kvReqs.all fun q => !before q.stamp

/-- The wait of a release of system scope for the write-combining buffer and the links (R330). -/
def hostSettled (s : State) (own : Nat) : Bool := own != 5 || (s.hostWc.isEmpty && s.hostLink.isEmpty)

/-- The waits of a release made by a memory element (R321, R329, R330). -/
def releaseReady (s : State) (c t : Nat) (ph : Phase) (a : Access) : Bool :=
  !releases a.w ||
    (earlierDone s c t a.w.scope.toNat (a.op == 0x7C) (beforeRelease ph a) && kvDone s c t a.w.scope.toNat (a.op == 0x7C) (· < a.firedAt) && a.fences.isEmpty && hostSettled s a.w.scope.toNat)

/-- The waits of a release that is made as it fires (Table 15.4), the fences of R329 apart. -/
def storesOut (s : State) (c t scope : Nat) : Bool := earlierDone s c t scope false (fun _ _ => true) && kvDone s c t scope false (fun _ => true) && hostSettled s scope

def mayIssue (s : State) (c t : Nat) (ph : Phase) (slot : Nat) (a : Access) : Bool :=
  hasTurn ph slot a && !heldBack ph a && releaseReady s c t ph a

/-! Values (Table 15.2). -/

/-- Bytes that a pending store's locations span. -/
def PStore.span (p : PStore) : Nat := if p.be.toNat < 16 then 4 else 8

/-- Whether a pending store's locations meet a run. -/
def PStore.meets (p : PStore) (key n : Nat) : Bool := key < p.key + p.span && p.key < key + n

/-- The byte that a pending store writes at a key, if it writes it. -/
def PStore.byte? (p : PStore) (key : Nat) : Option Byte :=
  if p.key ≤ key && key < p.key + 8 && p.be.getLsbD (key - p.key) then some (byteOf p.data.toNat (key - p.key)) else none

/-- The bytes of a location after the core's pending stores to it, oldest first. -/
def overPending (stores : List PStore) (loc base : Nat) : Nat :=
  (stores.filter fun p => p.meets loc 4).foldl (fun v p => leNat ((List.range 4).map fun i => (p.byte? (loc + i)).getD (byteOf v i))) base

/-- Whether pending stores of the core write every byte of a location: its value is then theirs, and no read is made (Table 15.2). -/
def coveredByPending (stores : List PStore) (loc : Nat) : Bool :=
  (List.range 4).all fun i => stores.any fun p => (p.byte? (loc + i)).isSome

/-- A fill copies the locations of a 64-byte line that its slice of the L1 holds no copy of; uncorrectable ones stay out. A slice of
16 KiB that is full takes none: the copy a fill makes is then evicted at once, a move that R317 allows at any time (R363; log
entry 105). -/
def fillLine (s : State) (c loc view : Nat) : State :=
  let core := s.core c
  let line := loc / 64 * 64
  if 4080 < core.l1.countP (fun e => e.1 / 64 % 4 == loc / 64 % 4) then s
  else
    let l1 := (List.range 16).foldl (fun l i =>
      let k := line + 4 * i
      if (tabFind l k).isSome || poisoned s k 4 || pipeHeld s 1 k 4 then l else tabPut l k (BitVec.ofNat 32 (viewRead s view k 4))) core.l1
    s.setCore c { core with l1 := l1 }

/-- Reads a location (Table 15.2): its value, whether it was uncorrectable, and the state with any fill. Pending stores of the core
that cover it give the value; else they go over the L1 copy for a read at the core, filled where none is held, or over the home
value. -/
def readLoc (s : State) (c loc view : Nat) (atCore : Bool) : Nat × Bool × State :=
  let core := s.core c
  if coveredByPending core.stores loc then (overPending core.stores loc 0, false, s)
  else match if atCore && isLocal loc then tabFind core.l1 loc else none with
  | some v => (overPending core.stores loc v.toNat, false, s)
  | none =>
    let s := readCheck s loc 4
    if poisoned s loc 4 then (0, true, s)
    else (overPending core.stores loc (viewRead s view loc 4), false, if atCore && isLocal loc then fillLine s c loc view else s)

/-- Reads n bytes at a key inside locations: at the bank for the scratchpad (R324), else location by location. -/
def readBytes (s : State) (c key n view : Nat) (atCore : Bool) : Nat × Bool × State :=
  if isScratch key then (memRead s.mem key n, poisoned s key n, s)
  else
    let r := (locationsOf key n).foldl (fun (acc : List Byte × Bool × State) p =>
      let a := key + p.1
      let loc := a / 4 * 4
      let v := readLoc acc.2.2 c loc view atCore
      (acc.1 ++ (List.range p.2).map (fun i => byteOf v.1 (a % 4 + i)), acc.2.1 || v.2.1, v.2.2)) ([], false, s)
    (leNat r.1, r.2.1, r.2.2)

/-- Whether an access reads at the core (Table 15.2): weak, or of core scope. -/
def readsAtCore (a : Access) : Bool := a.w.scope.toNat == 0 || (a.w.strong == 0#1 && !acquires a.w)

/-- The scope at which a load's request reaches its home. -/
def loadScope (a : Access) : Nat := if readsAtCore a then 0 else a.w.scope.toNat

/-- Whether the pieces of one firing write every byte of a 32-byte sector (R361; log entry 13). -/
def writesSector (ps : List Piece) (sec : Nat) : Bool :=
  (List.range 32).all fun i => ps.any fun p => p.key ≤ 32 * sec + i && 32 * sec + i < p.key + p.len

/-- The pending store of a piece (R317), among the pieces of its firing: of one location, or of the two of an 8-byte unit, which
drain in one move (R314). -/
def pendingOf (ps : List Piece) (t scope stamp : Nat) (ord : Option (Nat × Nat × Nat)) (waiter : Option (Nat × Nat × Nat)) (ro : Bool) (at_ : Nat × Nat) (p : Piece) : PStore :=
  { key := p.key / 4 * 4, be := BitVec.ofNat 8 ((2 ^ p.len - 1) * 2 ^ (p.key % 4)), data := BitVec.ofNat 64 (p.data % 2 ^ (8 * p.len) * 2 ^ (8 * (p.key % 4)))
    task := t, scope := scope, ord := ord, stamp := stamp, waiter := waiter, ro := ro, whole := writesSector ps (p.key / 32), view := p.view
    va := p.va, slot := at_.1, iter := at_.2 }

/-- Stores of one firing to different bytes of one location are one store of it (R153, R314): of two hx4 blocks that share one. -/
def joinPending (ps : List PStore) : List PStore :=
  ps.foldl (fun acc p => match acc.getLast? with
    | some q => if q.key == p.key && q.be &&& p.be == 0 then acc.dropLast ++ [{ q with be := q.be ||| p.be, data := q.data ||| p.data }] else acc ++ [p]
    | none => [p]) []

/-- Stores join the pending stores and update the L1 copies held (R317). -/
def addPending (core : Core) (ps : List PStore) : Core :=
  { core with
    stores := core.stores ++ ps
    l1 := core.l1.map fun e => (e.1, BitVec.ofNat 32 (overPending ps e.1 e.2.toNat)) }

/-! Finishing an access. -/

/-- The tokens of a load from its pieces (R96, R98, R153). An `ldg` of TYPE hx4 forms no side token and sends what it gathered to both
targets (DESIGN CHOICE, log entry 106: R147 has an hx4 load emit one, R155 names none). -/
def loadTokens (a : Access) : Token × Token :=
  let x := a.pieces.foldl (fun n p => n + p.data * 2 ^ (8 * p.pos)) 0
  if isTokenOp a.op && a.w.ty.toNat == 6 then
    let bs := (List.range 4).map fun j => bitsOf x (144 * j) 144
    (hx4DataToken 0xFFFF#16 bs, hx4SideToken 0xF#16 bs)
  else
    let t := predForm a.w.ty.toNat ⟨BitVec.ofNat 512 x, a.mask, false⟩
    (t, t)

/-- The token of an atomic: the old word (R162). -/
def oldToken (w : MemW) (old : Nat) : Token :=
  if is64 w.ty.toNat then rawToken 3#16 (old % 2 ^ 64) else rawToken 1#16 (old % 2 ^ 32)

/-- The token of an `await`: the value and the status (R165). -/
def awaitToken (w : MemW) (v status : Nat) : Token :=
  if is64 w.ty.toNat then rawToken 7#16 (v + status * 2 ^ 64) else rawToken 3#16 (v + status * 2 ^ 32)

/-- The new word of an atomic, none where nothing is written (Table 8.8, R164). -/
def atomicNew (op ty old b cmp : Nat) : Option Nat :=
  let x := decodeInt ty old
  let y := decodeInt ty b
  match op with
  | 0x80 => some (encodeInt ty (x + y))
  | 0x88 => some (encodeInt ty (x + y))
  | 0x81 => some (encodeInt ty (min x y))
  | 0x82 => some (encodeInt ty (max x y))
  | 0x83 => some (old &&& b)
  | 0x84 => some (old ||| b)
  | 0x85 => some (old ^^^ b)
  | 0x86 => some b
  | 0x87 => if old = cmp then some b else none
  | _ => some (faddBits 0 0 old b).1

/-- Whether a value satisfies a threshold (R165). -/
def satisfies (ty v h : Nat) : Bool := decide (decodeInt ty h ≤ decodeInt ty v)

/-- The place of a home that performs the accesses of a scope, by kind and number: the home L2 slice (R362), or the channel's
controller. -/
def homePlace (scope pa : Nat) : Nat × Nat :=
  if scope ≤ 2 then (2, 4 * quadOfChan (chanOfPa pa) + (pa / 256 % 4) ^^^ (pa / 1024 % 4)) else (3, chanOfPa pa)

/-- The place of performance of a wait or atomic (Table 8.7): a bank of a scratchpad (R149), a slice of the core's L1 (R363), the
home's place, that of another package, or host memory. -/
def placeOf (c scope key : Nat) : Nat × Nat :=
  if isScratch key then (let a := key % 2 ^ 21
    (0, 256 * ((key - 2 ^ 64) / 2 ^ 21) + 64 * bitsOf a 19 2 + bitsOf a 6 6))
  else if scope = 0 then (1, 4 * c + key / 64 % 4)
  else if isHost key then (6, 0)
  else if isRemote key then (let h := homePlace scope (key % 2 ^ 47)
    (h.1 + 2, 2 ^ 20 * ((key - 2 ^ 72) / 2 ^ 47) + h.2))
  else homePlace scope key

/-! The L2 (R154, R362). -/

/-- The lines of a slice: 2 MiB in lines of 256 B. -/
def l2Lines : Nat := 8192

/-- Whether two lines hold a byte in common. -/
def L2Line.meets (a b : L2Line) : Bool := a.runs.any fun x => b.runs.any fun y => x.1 < y.1 + y.2 && y.1 < x.1 + x.2

/-- The slice that a line belongs to: the home slice of its lowest address. -/
def l2Home (x : L2Line) : Nat := (homePlace 2 ((x.runs.head?.map Prod.fst).getD 0)).2

/-- Whether a line can be held: 256 bytes of local direct memory, and without a tensor tag those of one aligned line. -/
def l2Valid (s : State) (x : L2Line) : Bool :=
  x.runs.foldl (fun n r => n + r.2) 0 == 256 && x.runs.all (fun r => isLocal r.1 && inRegion s false r.1 r.2) &&
    (x.tag.isSome || x.runs.all fun r => r.1 % 256 == 0 && r.2 == 256)

/-- L2_FILL: a slice takes a line. What any slice holds of its bytes under another tag is written back and dropped first, and of a slice that
is full its oldest line (R154). -/
def l2FillMove (tag : Option (Nat × Nat × Nat)) (runs : List (Nat × Nat)) (s : State) : State :=
  let x : L2Line := ⟨tag, runs⟩
  let held := tabGet [] s.l2 (l2Home x)
  if !l2Valid s x || held.contains x then s
  else
    let kept := s.l2.map fun e => (e.1, e.2.filter fun y => !y.meets x)
    let mine := tabGet [] kept (l2Home x)
    { s with l2 := tabPut kept (l2Home x) (mine.drop (mine.length + 1 - l2Lines) ++ [x]) }

/-- L2_DROP: a slice writes a line back and drops it. -/
def l2DropMove (slice n : Nat) (s : State) : State := { s with l2 := tabPut s.l2 slice ((tabGet [] s.l2 slice).eraseIdx n) }

/-- The place of performance of an access. -/
def Access.place (a : Access) (c : Nat) : Nat × Nat := placeOf c a.w.scope.toNat ((a.pieces.head?.map Piece.key).getD 0)

/-- Wakes the registered waits, those of other packages among them, on a word that a value of `aaddw` at their place satisfies (R165). Words are compared by address, so
an `aaddw` of one width wakes a wait of the other (DESIGN CHOICE, log entry 107). -/
def wakeWaits (s : State) (place : Nat × Nat) (key v : Nat) : State :=
  let wake := fun (c : Nat) (a : Access) =>
    if a.op == 0x89 && a.waiting && !a.poll && a.pieces.any (fun p => p.key == key) && a.place c == place &&
        satisfies a.w.ty.toNat v (laneVal (tokAt a.ops 1) 0 (unitBytes a.w)) then a.finish (awaitToken a.w v 0) else a
  let inPhase := fun (c : Nat) (ph : Phase) =>
    ph.accs.foldl (fun ph e => flushAll (setAccs ph e.1 (e.2.map (wake c))) e.1) ph
  let woke := fun (c : Nat) (ph : Phase) => ph.accs.any fun e => e.2.any fun a => acquires a.w && a.w.scope.toNat != 0 && (wake c a).stage != a.stage
  let met := fun (w : RemoteWait) => w.run.key == key && placeOf 0 3 key == place && satisfies w.ty v w.threshold
  let told := (s.remoteWaits.filter met).map fun w => (w.pkg, Reply.data ((List.range w.run.len).map fun i => BitVec.ofNat 8 (v / 256 ^ i)))
  { s with remoteWaits := s.remoteWaits.filter fun w => !met w
           remoteReply := s.remoteReply ++ told
           cores := s.cores.map fun e =>
      let hit := e.2.tasks.any fun x => (x.2.phase.toList ++ x.2.held.toList).any (woke e.1)
      (e.1, { e.2 with
        l1 := if hit then [] else e.2.l1
        tasks := e.2.tasks.map fun x => (x.1, { x.2 with phase := x.2.phase.map (inPhase e.1), held := x.2.held.map (inPhase e.1) }) }) }

/-- Which phase of a task an access belongs to: the running one, or the held one. -/
def phaseAt (task : Task) (heldP : Bool) : Option Phase := if heldP then task.held else task.phase

def setPhaseAt (s : State) (c t : Nat) (heldP : Bool) (ph : Phase) : State :=
  match s.task? c t with
  | some task => s.setTask c t (if heldP then { task with held := some ph } else { task with phase := some ph })
  | none => s

/-- An outstanding access by core, task, whether its phase is held, element and index. -/
structure AccRef where
  c : Nat
  t : Nat
  heldP : Bool
  slot : Nat
  idx : Nat
  deriving DecidableEq, Repr, Inhabited

/-- The reference that the number of a response names: piece in [4:0], index in [10:5], element in [14:11], held in [15]. -/
def accRef (c t n : Nat) : AccRef := ⟨c, t, n / 32768 % 2 == 1, 96 + n / 2048 % 16, n / 32 % 64⟩

def accFind (s : State) (r : AccRef) : Option (Phase × Access) :=
  (s.task? r.c r.t).bind fun task => (phaseAt task r.heldP).bind fun ph => ((accsOf ph r.slot)[r.idx]?).map fun a => (ph, a)

/-- Writes an access back and lets the tokens leave that can; an acquire that is done forgets first (R317). -/
def accStore (s : State) (r : AccRef) (a : Access) : State :=
  let s := if a.stage == .done && acquires a.w && !a.nullA then acquireAt s r.c a.w.scope.toNat else s
  match s.task? r.c r.t with
  | none => s
  | some task => match phaseAt task r.heldP with
    | none => s
    | some ph => setPhaseAt s r.c r.t r.heldP (flushAll (setAccs ph r.slot ((accsOf ph r.slot).set r.idx a)) r.slot)

/-- A fault of a response (R167): the access will be checked again, and the fault is taken where the phase runs; one that
a cut waits for is recorded with SRC 5 (R340), one of a held phase is met again after the return. -/
def responseFault (s : State) (r : AccRef) (a : Access) (i : FaultInfo) : State :=
  let s := accStore s r { a with stage := .refire, pieces := a.pieces.map fun p => { p with doneP := false } }
  match s.task? r.c r.t with
  | none => s
  | some task => match phaseAt task r.heldP with
    | none => s
    | some ph =>
      let x : FrecIn := { cls := i.cls, slot := r.slot, acc := i.acc, detail := i.detail, iter := a.iter, stall := (nodeOf ph r.slot).stall, addr := i.addr, pc := ph.addr }
      if task.cutting then s.setTask r.c r.t { task with deferred := task.deferred ++ [{ x with src := 5, inHandler := ph.handler }] }
      else if r.heldP || (s.core r.c).running != some r.t then s
      else takeFault s r.c r.t x ph.handler

/-! The moves. -/

/-- How a store's token leaves: at its issue when weak or of core scope, else at its drain (Table 15.3). -/
def leavesAtIssue (w : MemW) : Bool := w.scope.toNat == 0 || (w.strong == 0#1 && !releases w)

/-- A store whose every part has been performed, or has left at its issue, is done (Table 15.3). -/
def storeDone (a : Access) : Access := if a.pieces.all Piece.doneP then a.finish completion else a

/-- Issue (Table 15.2). A store of direct memory joins the pending stores; a `fence` is done; the others await their moves. -/
def issueAcc (s : State) (r : AccRef) (ph : Phase) (a : Access) : State :=
  let stamp := s.stamp
  let s := { s with stamp := stamp + 1 }
  let a := { a with stage := .issued, issuedAt := stamp }
  if a.nullA then accStore s r (a.finish (nullResult a.op))
  else if a.op == 0x7C then accStore s r (a.finish completion)
  else if isStoreOp a.op then
    let direct := a.pieces.filter fun p => !isScratch p.key
    let early := leavesAtIssue a.w
    let ps := joinPending (direct.map (pendingOf direct r.t a.w.scope.toNat stamp (progPlace ph a)
      (if early then none else some (ph.num, r.slot, a.iter)) (a.w.strong == 0#1 && !releases a.w) (r.slot, a.iter)))
    let s := s.setCore r.c (addPending (s.core r.c) ps)
    accStore s r (storeDone { a with pieces := a.pieces.map fun p => { p with doneP := p.doneP || (early && !isScratch p.key) } })
  else if a.pieces.isEmpty then accStore s r (a.finish (rawToken a.mask 0))
  else accStore s r a

/-- Whether a request on a key finds no path to its package (R408). -/
def unreachable (s : State) (key : Nat) : Bool := isRemote key && !podReach s (pkgOfKey key)

/-- Whether another package answers a request made now with ownership (R404), which its own state decides: a free value here (log entry 12). -/
def podRefuses (s : State) : Bool := Config.freeWord (2 ^ 64 + s.tick) % 2 == 1

/-- Whether another package refuses a request on a key. -/
def remoteRefused (s : State) (key : Nat) : Bool := isRemote key && podRefuses s

/-- What keeps an access to a key from being made: no path to its package, or that package's refusal. -/
def remoteFault (s : State) (key : Nat) : Option Nat :=
  if unreachable s key then some 0x09 else if remoteRefused s key then some 0x0E else none

/-- An ordered access performed at the home drops the core's copies of what it touched, a move R317 allows at any time, so
that a later ordered access that overlaps it takes effect after it (R72). -/
def dropCopies (s : State) (c : Nat) (a : Access) (p : Piece) : State :=
  if a.w.ordered = 1#1 && isLocal p.key then
    let core := s.core c
    s.setCore c { core with l1 := core.l1.filter fun e => !(p.key < e.1 + 4 && e.1 < p.key + p.len) }
  else s

/-- Pieces of a scratchpad store written at the bank, poison following (R361). -/
def bankWrite (s : State) (ps : List Piece) : State :=
  let s := ps.foldl (fun s p => writeRun s p.key p.len p.data false) s
  ps.foldl (fun s p => if writesSector ps (p.key / 32) then freshSector s (p.key / 32) else s) s

/-- A move of a scratchpad store at its bank: a token store writes all its bytes in one (R153, R364), an `stg` a lane, after the
lower lanes of the same bytes (R155). -/
def moveScratch (s : State) (r : AccRef) (a : Access) (k : Nat) (p : Piece) : State :=
  if isTokenOp a.op then
    accStore (bankWrite s a.pieces) r (storeDone { a with pieces := a.pieces.map fun p => { p with doneP := true } })
  else if (a.pieces.take k).any fun q => !q.doneP && p.key < q.key + q.len && q.key < p.key + p.len then s
  else
    let a := { a with pieces := a.pieces.set k { p with doneP := true } }
    let s := writeRun s p.key p.len p.data false
    let sec := p.key / 32
    accStore (if writesSector (a.pieces.filter fun q => q.doneP && isScratch q.key) sec then freshSector s sec else s) r (storeDone a)

/-- A piece of a load read, or of a scratchpad store written at the bank; the last one forms the tokens. -/
def movePiece (s : State) (r : AccRef) (a : Access) (k : Nat) : State :=
  match a.pieces[k]? with
  | none => s
  | some p =>
    if p.doneP then s
    else if isStoreOp a.op then
      if isScratch p.key then moveScratch s r a k p else s
    else if !homeOpen s p.key p.len (loadScope a) then s
    else if (remoteFault s p.key).isSome then responseFault s r a { cls := (remoteFault s p.key).getD 0, addr := p.va }
    else
      let s := podSendKey (countDirect s p.key (loadScope a)) p.key
      let v := readBytes s r.c p.key p.len p.view (readsAtCore a)
      if v.2.1 then responseFault v.2.2 r a { cls := 0x09, addr := p.va }
      else
        let s := if readsAtCore a then v.2.2 else dropCopies v.2.2 r.c a p
        let a := { a with pieces := a.pieces.set k { p with doneP := true, data := v.1 } }
        if a.pieces.all Piece.doneP then
          let t := loadTokens a
          accStore s r { a with stage := .done, out0 := some t.1, out1 := some t.2 }
        else accStore s r a

/-- Whether the core still has a pending store to bytes of a location run. -/
def pendingAt (core : Core) (key n : Nat) : Bool := core.stores.any fun p => p.meets key n

/-- Whether an access to a key is performed at the core (Table 8.7): one of core scope, the scratchpad apart. -/
def performedAtCore (a : Access) (key : Nat) : Bool := a.w.scope.toNat == 0 && !isScratch key

/-- The write of an atomic that read `old` and writes x: among the core's pending stores for core scope (Table 15.2), else at its
place; its token leaves, and `aaddw` wakes the waits there (R165). -/
def writeAtomic (s : State) (r : AccRef) (a : Access) (p : Piece) (ord : Option (Nat × Nat × Nat)) (old x : Nat) : State :=
  let s := if performedAtCore a p.key then s.setCore r.c (addPending (s.core r.c) [pendingOf [] r.t 0 a.issuedAt ord none false (r.slot, a.iter) { p with data := x }])
    else dropCopies (writeView s p.view p.key p.len x false) r.c a p
  let s := accStore s r (a.finish (oldToken a.w old))
  if a.op == 0x88 then wakeWaits s (a.place r.c) p.key x else s

/-- An atomic at the core, at its bank, or at its home (R162, R317). One at a pipe of a local home reads in one move and writes in a
later one; a failed `acas` ends at its read (R322). -/
def moveAtomic (s : State) (r : AccRef) (ph : Phase) (a : Access) (p : Piece) : State :=
  let scope := a.w.scope.toNat
  let atCore := performedAtCore a p.key
  let new := fun (old : Nat) => atomicNew a.op a.w.ty.toNat old (laneVal (tokAt a.ops 1) 0 p.len) (laneVal (tokAt a.ops 2) 0 p.len)
  if p.doneP then
    (match new p.data with
      | some x => writeAtomic s r a p (progPlace ph a) p.data x
      | none => accStore s r (a.finish (oldToken a.w p.data)))
  else if !atCore && !isScratch p.key && (pendingAt (s.core r.c) p.key p.len || !homeOpen s p.key p.len scope) then s
  else if (remoteFault s p.key).isSome then responseFault s r a { cls := (remoteFault s p.key).getD 0, addr := p.va }
  else
    let s := podSendKey (if atCore then s else countDirect s p.key scope) p.key
    let v := readBytes s r.c p.key p.len p.view atCore
    if v.2.1 then responseFault v.2.2 r a { cls := 0x09, addr := p.va }
    else match new v.1 with
      | none => accStore v.2.2 r (a.finish (oldToken a.w v.1))
      | some x =>
        if isLocal p.key && !atCore then accStore v.2.2 r { a with pieces := [{ p with doneP := true, data := v.1 }] }
        else writeAtomic v.2.2 r a p (progPlace ph a) v.1 x

/-- A write that a pass makes comes between no read and write of an atomic at the L2 pipe: an atomic on its bytes that stands halfway
there is made anew, its read after the write (R322, R325). -/
def restartAtomics (s : State) (ks : List MemRun) : State :=
  let hit := fun (key n : Nat) => isLocal key && ks.any fun k => k.key < key + n && key < k.key + k.len
  let acc := fun (a : Access) => if isAtomicOp a.op && a.stage == .issued && pipeOf a.w.scope.toNat == 1 then
    { a with pieces := a.pieces.map fun p => if hit p.key p.len then { p with doneP := false } else p } else a
  let go := fun (ph : Phase) => { ph with accs := ph.accs.map fun e => (e.1, e.2.map acc) }
  { s with cores := s.cores.map fun e => (e.1, { e.2 with tasks := e.2.tasks.map fun x => (x.1, { x.2 with phase := x.2.phase.map go, held := x.2.held.map go }) })
           quads := s.quads.map fun e => (e.1, { e.2 with ttasks := e.2.ttasks.map fun t =>
             if (t.cwHeld.any fun w => hit w.1.key w.1.len) then { t with cwHeld := none } else t }) }

/-- Registered waits at a place (R165). -/
def waitsAt (s : State) (place : Nat × Nat) : Nat :=
  s.cores.foldl (fun n e => e.2.tasks.foldl (fun n x => (x.2.phase.toList ++ x.2.held.toList).foldl (fun n ph =>
    ph.accs.foldl (fun n y => n + (y.2.countP fun a => a.waiting && !a.poll && a.place e.1 == place)) n) n) n)
    (s.remoteWaits.countP fun w => placeOf 0 3 w.run.key == place)

/-- A read of an `await`'s word: at registration, at a poll, or at expiry (R165). `final` ends the wait. A wait beyond the 256 that a place
registers polls (DESIGN CHOICE, log entry 127). -/
def moveAwait (s : State) (r : AccRef) (a : Access) (p : Piece) (final : Bool) : State :=
  let scope := a.w.scope.toNat
  let now := (s.core r.c).refTime
  if !homeOpen s p.key p.len scope then s
  else if (remoteFault s p.key).isSome then responseFault s r a { cls := (remoteFault s p.key).getD 0, addr := p.va }
  else
    let s := podSendKey (countDirect s p.key scope) p.key
    let v := readBytes s r.c p.key p.len p.view (performedAtCore a p.key)
    if v.2.1 then responseFault v.2.2 r a { cls := 0x09, addr := p.va }
    else
      let s := v.2.2
      let h := laneVal (tokAt a.ops 1) 0 p.len
      if satisfies a.w.ty.toNat v.1 h then accStore s r (a.finish (awaitToken a.w v.1 0))
      else if final || (tokAt a.ops 2).lane 0 = 0 then accStore s r (a.finish (awaitToken a.w v.1 1))
      else if a.waiting then accStore s r { a with readAt := now }
      else accStore s r { a with waiting := true, poll := isHost p.key || 256 ≤ waitsAt s (a.place r.c), since := now, readAt := now }

/-- Cycles of the 2.1 GHz clock since a reference time of a core (R415). -/
def elapsed (core : Core) (since : Nat) : Nat := (core.refTime - since) / 408

/-- MEMORY_RESPONSE: the next move of one outstanding access: its check again after a fault, its issue, or the move of one
of its pieces at its place (R160, R317). -/
def memoryResponse (c t n : Nat) (s : State) : State :=
  let r := accRef c t n
  match accFind s r with
  | none => s
  | some (ph, a) =>
    match a.stage with
    | .done => s
    | .refire =>
      if r.heldP || (s.core c).running != some t then s
      else match s.task? c t with
        | none => s
        | some task => if !checksOpen a.op a.w c task.part a.ops s then s else match checkAccess a.op a.w c task.part a.ops s with
          | (.ok ps, s) => accStore s r { a with stage := .fired, pieces := ps }
          | (.error i, s) => responseFault s r a i
    | .fired =>
      if !a.fences.isEmpty && !podReachable s then responseFault s r a { cls := 0x09 }
      else if !mayIssue s c t ph r.slot a then s
      else match if isStoreOp a.op then a.pieces.find? fun p => unreachable s p.key else none with
        | some p => responseFault s r a { cls := 0x09, acc := 1, addr := p.va }
        | none => issueAcc s r ph a
    | .issued =>
      if a.waiting then s
      else match a.pieces.head? with
        | none => s
        | some p =>
          if isAtomicOp a.op then moveAtomic s r ph a p
          else if a.op == 0x89 then moveAwait s r a p false
          else movePiece s r a (n % 32)

/-- AWAIT_POLL: a polling wait reads its word, 1,024 cycles after its last read (R165, R166). -/
def awaitPollMove (c t n : Nat) (s : State) : State :=
  let r := accRef c t n
  match accFind s r with
  | some (_, a) => if a.op == 0x89 && a.waiting && a.poll && 1024 ≤ elapsed (s.core c) a.readAt then (match a.pieces.head? with
      | some p => moveAwait s r a p false
      | none => s) else s
  | none => s

/-- AWAIT_TIMEOUT: the word is read once more and the wait ends, once its timeout has passed, in units of 256 cycles (R49, R165). -/
def awaitTimeoutMove (c t n : Nat) (s : State) : State :=
  let r := accRef c t n
  match accFind s r with
  | some (_, a) => if a.op == 0x89 && a.waiting && 256 * (tokAt a.ops 2).lane 0 ≤ elapsed (s.core c) a.since then (match a.pieces.head? with
      | some p => moveAwait s r a p true
      | none => s) else s
  | none => s

/-- The element that waited for its last drain is done, once its scratchpad lanes are written too (Table 15.3). -/
def drainWaiter (s : State) (c t : Nat) (w : Nat × Nat × Nat) : State :=
  if (s.core c).stores.any fun p => p.task == t && p.waiter == some w then s
  else match s.task? c t with
    | none => s
    | some task =>
      let go := fun (ph : Phase) =>
        if ph.num = w.1 then
          flushAll (setAccs ph w.2.1 ((accsOf ph w.2.1).map fun a => if a.iter == w.2.2 && a.stage == .issued then
            storeDone { a with pieces := a.pieces.map fun p => { p with doneP := p.doneP || !isScratch p.key } } else a)) w.2.1
        else ph
      s.setTask c t { task with phase := task.phase.map go, held := task.held.map go }

/-- The bytes that a pending store writes, as runs of consecutive ones at an offset. -/
def storeBytes (p : PStore) : List (Nat × List Byte) :=
  (List.range 8).foldr (fun i rs =>
    if p.be.getLsbD i then (match rs with
      | (o, bs) :: t => if o = i + 1 then (i, byteOf p.data.toNat i :: bs) :: t else (i, [byteOf p.data.toNat i]) :: rs
      | [] => [(i, [byteOf p.data.toNat i])])
    else rs) []

/-- The append of a pending store to its home (R316), the bytes it enables. The last append of a firing that writes the
whole sector clears the sector's poison (R361); `rest` holds the core's other pending stores. -/
def appendHome (s : State) (p : PStore) (rest : List PStore) : State :=
  let s := (storeBytes p).foldl (fun s b => writeView s p.view (p.key + b.1) b.2.length (leNat b.2) false) s
  if p.whole && !rest.any (fun q => q.stamp == p.stamp && q.task == p.task && q.key / 32 == p.key / 32) then freshSector s (p.key / 32)
  else s

/-- The element that waits for a drain, as an outstanding access. -/
def waiterRef (s : State) (c t : Nat) (w : Nat × Nat × Nat) : Option (AccRef × Access) :=
  (s.task? c t).bind fun task => [false, true].findSome? fun h => (phaseAt task h).bind fun ph =>
    if ph.num = w.1 then
      let i := (accsOf ph w.2.1).findIdx fun a => a.iter == w.2.2 && a.stage == .issued
      ((accsOf ph w.2.1)[i]?).map fun a => ({ c := c, t := t, heldP := h, slot := w.2.1, idx := i }, a)
    else none

/-- The scope that names the pipe of a pending store's drain: a weak one to a local location takes the L2 pipe (R316). -/
def drainScope (p : PStore) : Nat := if p.ro && isLocal p.key then min p.scope 1 else p.scope

/-- The posted writes of a pending store to a host location, one for each run of bytes (R330). -/
def hostWrites (core : Core) (p : PStore) : List HostWrite :=
  (storeBytes p).map fun b => { job := storeJob core p, addr := p.key - keyHost 0 + b.1, bytes := b.2, ro := p.ro,
                                rank := ((tabFind core.tasks p.task).map Task.rank).getD 0, scope := p.scope, stamp := p.stamp, ord := p.ord
                                fn := ((tabFind core.tasks p.task).map Task.fn).getD 0 }

/-- Whether two writes to host memory touch a common byte. -/
def HostWrite.meets (a b : HostWrite) : Bool := a.addr < b.addr + b.bytes.length && b.addr < a.addr + a.bytes.length

/-- Whether a pending store writes bytes that the write-combining buffer still holds: a posted write waits for them, since the writes of
a core to one location are performed in program order (R155, Table 8.7). -/
def behindWc (s : State) (core : Core) (p : PStore) : Bool :=
  !p.ro && isHost p.key && (hostWrites core p).any fun h => s.hostWc.any h.meets

/-- A store whose token has left meets an ownership refusal or finds no path as it drains (R404, R408): its task takes the fault of the
element that made it, at once where its phase runs, else as a fault that waits for it (DESIGN CHOICE, log entry 118). -/
def lateFault (s : State) (c : Nat) (p : PStore) (cls : Nat) : State :=
  match s.task? c p.task with
  | none => s
  | some task =>
    let x : FrecIn := { cls := cls, slot := p.slot, acc := 1, iter := p.iter, addr := p.va, pc := (task.phase.map Phase.addr).getD task.pc }
    if task.cutting || (s.core c).running != some p.task || task.phase.isNone then s.setTask c p.task { task with deferred := task.deferred ++ [{ x with src := if task.cutting then 5 else 0 }] }
    else takeFault s c p.task { x with stall := ((task.phase.map fun ph => (nodeOf ph p.slot).stall)).getD 0 } (task.phase.any Phase.handler)

/-- STORE_DRAIN: pending store n of a core, the oldest to its location, reaches its home; one to a host leaves for the
write-combining buffer or the link (R317, R328, R330). From 65536 on n names a write on the link, which host memory
performs when every earlier write without Relaxed Ordering has been, and every earlier one of a byte of its own. -/
def storeDrainMove (c n : Nat) (s : State) : State :=
  if 65536 ≤ n then
    match s.hostLink[n - 65536]? with
    | none => s
    | some h =>
      if (s.hostLink.take (n - 65536)).all (fun x => x.ro && !x.meets h) then
        { s with mem := memWriteBytes s.mem (keyHost h.addr) h.bytes, hostLink := s.hostLink.eraseIdx (n - 65536) }
      else s
  else
    let core := s.core c
    match core.stores[n]? with
    | none => s
    | some p =>
      if (core.stores.take n).any fun q => q.meets p.key p.span then s
      else if !pipeOpen s p.key (drainScope p) || pipeHeld s (pipeOf (drainScope p)) p.key p.span || behindWc s core p then s
      else match if (remoteFault s p.key).isSome then p.waiter.bind (waiterRef s c p.task) else none with
      | some (r, a) => responseFault (s.setCore c { core with stores := core.stores.eraseIdx n }) r a { cls := (remoteFault s p.key).getD 0, acc := 1, addr := ((a.pieces.find? fun x => x.key / 4 * 4 == p.key).map Piece.va).getD 0 }
      | none =>
        let s := s.setCore c { core with stores := core.stores.eraseIdx n }
        let s := if isHost p.key then
            let hs := hostWrites core p
            if p.ro then { s with hostWc := s.hostWc ++ hs } else { s with hostLink := s.hostLink ++ hs }
          else if (remoteFault s p.key).isSome then lateFault s c p ((remoteFault s p.key).getD 0)
          else appendHome (podSendKey (countDirect s p.key (drainScope p)) p.key) p (core.stores.eraseIdx n)
        match p.waiter with
        | some w => drainWaiter s c p.task w
        | none => s

/-- WRITE_COMBINING_SEND: a buffered write leaves as a posted write with Relaxed Ordering (R330), the earlier ones of a byte of its own
first (R155). -/
def wcSend (n : Nat) (s : State) : State :=
  match s.hostWc[n]? with
  | some h => if (s.hostWc.take n).any h.meets then s else { s with hostWc := s.hostWc.eraseIdx n, hostLink := s.hostLink ++ [{ h with ro := true }] }
  | none => s

/-- FILL: a slice of a core's L1 takes a copy of a location of its partition that it holds none of, though no read asks for it (Table 15.2,
R317): in a page of a compute region (`plain`) or in another. -/
def fillMove (c loc : Nat) (plain : Bool) (s : State) : State :=
  let key := loc / 4 * 4
  let part := (s.chan (chanOfPa key)).owner
  if !isLocal key || !inRegion s false key 4 || !(s.partn part).quads.contains (quadOfCore c) || (tabFind (s.core c).l1 key).isSome then s
  else fillLine (readCheck s key 4) c key (if plain then 1 else part + 2)

/-- L1_EVICT: the L1 drops the copy of one location (R317). -/
def evictMove (c loc : Nat) (s : State) : State := s.setCore c { s.core c with l1 := tabDel (s.core c).l1 loc }

/-- POD_FENCE_COMPLETE: a switch has counted through every store received before the fences sent to it (R329). -/
def podFenceMove (sw : Nat) (s : State) : State :=
  let left := fun (c : Core) (t : Nat) (b : PStore → Bool) => c.stores.any fun p => p.task == t && isRemote p.key && b p
  let go := fun (c : Core) (t : Nat) (ph : Phase) => { ph with
    accs := ph.accs.map fun e => (e.1, e.2.map fun a =>
      if left c t fun p => waitsFor (a.op == 0x7C) a.w.scope.toNat p.scope && beforeRelease ph a p.stamp p.ord then a
      else { a with fences := a.fences.filter (· != sw) })
    epFences := ph.epFences.map fun e => (e.1, if left c t fun p => p.scope ≤ 5 then e.2 else e.2.filter (· != sw)) }
  let card := fun (k : Card) => { k with fences := k.fences.map fun l => l.filter (· != sw) }
  { s with cores := s.cores.map fun e => (e.1, { e.2 with tasks := e.2.tasks.map fun x =>
      (x.1, { x.2 with phase := x.2.phase.map (go e.2 x.1), held := x.2.held.map (go e.2 x.1)
                       chains := x.2.chains.map fun y => (y.1, { y.2 with cards := y.2.cards.map card }) }) }) }

end Sys2Proof.Machine
end

