-- ==== Sys2Proof/Machine/CircBuf.lean ====
section
/-! DEFINITION. Circular buffers (R156 to R159) and their four instructions. -/

namespace Sys2Proof.Machine

/-! Descriptor fields (Table 8.6). -/

def cbBase (d : BitVec 256) : Nat := (d.extractLsb' 0 21).toNat
def cbTokens (d : BitVec 256) : Nat := (d.extractLsb' 21 10).toNat + 1
def cbSlots (d : BitVec 256) : Nat := (d.extractLsb' 32 11).toNat + 1
def cbFilled (d : BitVec 256) : Nat := (d.extractLsb' 64 12).toNat
def cbFree (d : BitVec 256) : Nat := (d.extractLsb' 80 12).toNat
def cbRdSlot (d : BitVec 256) : Nat := (d.extractLsb' 128 11).toNat
def cbRdTok (d : BitVec 256) : Nat := (d.extractLsb' 144 10).toNat
def cbWrSlot (d : BitVec 256) : Nat := (d.extractLsb' 192 11).toNat
def cbWrTok (d : BitVec 256) : Nat := (d.extractLsb' 208 10).toNat

/-- The descriptor with new counts and pointers. -/
def cbWith (d : BitVec 256) (filled free rdSlot rdTok wrSlot wrTok : Nat) : BitVec 256 :=
  BitVec.ofNat 256 (d.toNat % 2 ^ 64 + filled * 2 ^ 64 + free * 2 ^ 80 + rdSlot * 2 ^ 128 + rdTok * 2 ^ 144
    + wrSlot * 2 ^ 192 + wrTok * 2 ^ 208)

/-- A descriptor as placement loads it (R156). -/
def cbInit (image : BitVec 256) : BitVec 256 :=
  let keep := cbBase image + (cbTokens image - 1) * 2 ^ 21 + (cbSlots image - 1) * 2 ^ 32
  cbWith (BitVec.ofNat 256 keep) 0 (cbSlots image) 0 0 0 0

/-- Scratchpad address of a token of a slot. -/
def cbAddr (d : BitVec 256) (slot tok : Nat) : Nat := cbBase d + 64 * (slot * cbTokens d + tok)

/-- The next slot to claim in ring order (R157): the free slots end before the slot being read. -/
def cbNextClaim (d : BitVec 256) : Nat := (cbRdSlot d + cbSlots d - cbFree d % cbSlots d) % cbSlots d

/-- A buffer after a change of its descriptor and claims, with the counts of the cycle's start and what the cycle has added (R157). -/
def CBuf.change (b : CBuf) (d : BitVec 256) (claims : List (Nat × Bool)) : CBuf :=
  { desc := d, claims := claims, start := b.start <|> some (cbFilled b.desc, cbFree b.desc)
    added := (b.added.1 + (cbFilled d - cbFilled b.desc), b.added.2 + (cbFree d - cbFree b.desc)) }

/-- The slots that may be begun, or claimed, in this cycle: those of FILLED, or FREE, without what the cycle has added (R157). -/
def CBuf.filled (b : CBuf) : Nat := cbFilled b.desc - b.added.1
def CBuf.free (b : CBuf) : Nat := cbFree b.desc - b.added.2

/-- A buffer in a new cycle: every change of the last one is seen. -/
def CBuf.settle (b : CBuf) : CBuf := { b with start := none, added := (0, 0) }

/-- Claims a slot for one delivery or for a push, where FREE allows it (R157). -/
def cbClaim (b : CBuf) : Option (Nat × CBuf) :=
  let d := b.desc
  if b.free = 0 then none
  else
    let slot := cbNextClaim d
    let next := if cbWrTok d = 0 then (slot + 1) % cbSlots d else cbWrSlot d
    some (slot, b.change (cbWith d (cbFilled d) (cbFree d - 1) (cbRdSlot d) (cbRdTok d) next (cbWrTok d)) (b.claims ++ [(slot, false)]))

/-- A claimed slot is complete; FILLED takes the completed slots that no earlier claim precedes (R157). -/
def cbComplete (b : CBuf) (slot : Nat) : CBuf :=
  let cs := b.claims.map fun e => if e.1 = slot then (e.1, true) else e
  let n := (cs.takeWhile Prod.snd).length
  let d := b.desc
  b.change (cbWith d (cbFilled d + n) (cbFree d) (cbRdSlot d) (cbRdTok d) (cbWrSlot d) (cbWrTok d)) (cs.drop n)

/-- Where the next token of `cbpush` goes, and the buffer after it: a slot is claimed at its first token and complete at
its last (R157, R158). -/
def cbPushTok (b : CBuf) : Option (Nat × CBuf) :=
  let claimed := if cbWrTok b.desc = 0 then cbClaim b else some (cbWrSlot b.desc, b)
  claimed.map fun e =>
    let d := e.2.desc
    let tok := cbWrTok d
    let at_ := cbAddr d e.1 tok
    if tok + 1 < cbTokens d then
      (at_, { e.2 with desc := cbWith d (cbFilled d) (cbFree d) (cbRdSlot d) (cbRdTok d) e.1 (tok + 1) })
    else
      let b := { e.2 with desc := cbWith d (cbFilled d) (cbFree d) (cbRdSlot d) (cbRdTok d) (cbNextClaim d) 0 }
      (at_, cbComplete b e.1)

/-- Whether the token k tokens after the read position lies in a slot that is begun or filled (R158). -/
def cbHas (b : CBuf) (k : Nat) : Bool :=
  (cbRdTok b.desc + k) / cbTokens b.desc < b.filled + (if cbRdTok b.desc = 0 then 0 else 1)

/-- The scratchpad address of the token k tokens after the read position. -/
def cbReadAddr (d : BitVec 256) (k : Nat) : Nat :=
  cbAddr d ((cbRdSlot d + (cbRdTok d + k) / cbTokens d) % cbSlots d) ((cbRdTok d + k) % cbTokens d)

/-- The buffer after one token is read: a slot is begun at its first read and free at its last (R157). -/
def cbPopTok (b : CBuf) : CBuf :=
  let d := b.desc
  let filled := if cbRdTok d = 0 then cbFilled d - 1 else cbFilled d
  if cbRdTok d + 1 < cbTokens d then
    b.change (cbWith d filled (cbFree d) (cbRdSlot d) (cbRdTok d + 1) (cbWrSlot d) (cbWrTok d)) b.claims
  else
    b.change (cbWith d filled (cbFree d + 1) ((cbRdSlot d + 1) % cbSlots d) 0 (cbWrSlot d) (cbWrTok d)) b.claims

def bufOf (core : Core) (n : Nat) : CBuf := tabGet {} core.bufs n

def setBuf (s : State) (c n : Nat) (b : CBuf) : State := s.setCore c { s.core c with bufs := tabPut (s.core c).bufs n b }

/-- The bytes of a token with those of invalid lanes zero (R158). -/
def validBytes (x : Token) : Nat :=
  (List.range 16).foldl (fun n l => if maskBit x.mask l then n + x.lane l * 2 ^ (32 * l) else n) 0

/-- Claims one slot, writes a delivery into it at the bank, zero beyond its bytes, and completes it (R157, R324). -/
def cbDeliver (s : State) (c n x : Nat) : Option State :=
  (cbClaim (bufOf (s.core c) n)).map fun e =>
    let d := e.2.desc
    let s := writeRun s (keyScratch c (cbAddr d e.1 0)) (64 * cbTokens d) x false
    setBuf s c n (cbComplete e.2 e.1)

/-- The counter under which a buffer holds a node's next firing, if it does (R158): 2 where `cbpush` must claim a slot and none is
free, 3 where the token that `cbpop` or `cbpeek` needs lies in no slot that is filled or begun. -/
def cbHolds (core : Core) (x : Word64) (nd : Node) : Option Nat :=
  let w := readMem x
  let b := bufOf core w.recid.toNat
  let m := if w.ty.toNat = 6 then 2 else 1
  let op := wordOp x
  if op == 0x78 then (if ((List.range m).foldl (fun (o : Option CBuf) _ => o.bind fun b => (cbPushTok b).map Prod.snd) (some b)).isNone then some 2 else none)
  else if op == 0x79 then (if cbHas b (m - 1) then none else some 3)
  else if op == 0x7A then (if (nd.qa.head?.any fun a => cbHas b (a.lane 0 + w.off.toNat + m - 1)) then none else some 3)
  else none

/-! The instructions. -/

/-- The tokens of a buffer access: two for hx4. -/
def cbCount (w : MemW) : Nat := if w.ty.toNat = 6 then 2 else 1

/-- The tokens of a type read at the given addresses, data then side (R96, R98). -/
def cbTokensAt (s : State) (c ty : Nat) (addrs : List Nat) : Token × Token :=
  let t := fun (a : Nat) => predForm ty ⟨BitVec.ofNat 512 (memRead s.mem (keyScratch c a) 64), 0xFFFF#16, false⟩
  match addrs with
  | [a] => (t a, t a)
  | a :: b :: _ => (t a, laneToken 0xF#16 fun l => if l < 4 then (t b).lane l % 2 ^ 16 else 0)
  | [] => (nullToken, nullToken)

/-- What a buffer instruction does at its firing: it stalls, faults, or gives its tokens with the state after. -/
inductive CbResult where
  | stall
  | bad (i : FaultInfo)
  | ok (s : State) (x y : Token)

/-- `cbpush` (R158). ADDR of an alignment fault is the buffer's BASE (DESIGN CHOICE, log entry 126). -/
def cbPush (w : MemW) (f : Foc) (ops : List (Nat × Token)) (s : State) : CbResult :=
  let n := w.recid.toNat
  let b := bufOf (s.core f.c) n
  if w.ty.toNat = 6 && cbTokens b.desc % 2 == 1 then .bad { cls := 0x02, acc := 1, addr := cbBase b.desc }
  else
    let xs := if w.ty.toNat = 6 then [tokAt ops 0, tokAt ops 1] else [tokAt ops 0]
    let r := xs.foldl (fun (st : Option (CBuf × State)) x => st.bind fun st =>
      (cbPushTok st.1).map fun e => (e.2, writeRun st.2 (keyScratch f.c e.1) 64 (validBytes x) false)) (some (b, s))
    match r with
    | none => .stall
    | some (b, s) => .ok (setBuf s f.c n b) completion completion

/-- `cbpop`, and `cbpeek` at a distance (R158). ADDR of an alignment fault is the buffer's BASE (DESIGN CHOICE, log entry 126). -/
def cbRead (pop : Bool) (w : MemW) (f : Foc) (ops : List (Nat × Token)) (s : State) : CbResult :=
  let n := w.recid.toNat
  let b := bufOf (s.core f.c) n
  let d := b.desc
  let k := if pop then 0 else (tokAt ops 0).lane 0 + w.off.toNat
  let m := cbCount w
  if m == 2 && cbTokens d % 2 == 1 then .bad { cls := 0x02, addr := cbBase d }
  else if cbTokens d * cbSlots d ≤ k then .bad { cls := 0x02, addr := cbBase d }
  else if !cbHas b (k + m - 1) then .stall
  else
    let addrs := (List.range m).map fun i => cbReadAddr d (k + i)
    match addrs.find? fun a => poisoned s (keyScratch f.c a) 64 with
    | some a => .bad { cls := 0x09, addr := a }
    | none =>
      let t := cbTokensAt s f.c w.ty.toNat addrs
      let b := if pop then (List.range m).foldl (fun b _ => cbPopTok b) b else b
      .ok (setBuf s f.c n b) t.1 t.2

/-- `cbstat` (R159): the counts as they stood at the start of the cycle (R157). -/
def cbStat (w : MemW) (f : Foc) (s : State) : CbResult :=
  let b := bufOf (s.core f.c) w.recid.toNat
  let d := b.desc
  let n := b.start.getD (cbFilled d, cbFree d)
  let v := [n.1, n.2, cbSlots d, cbRdSlot d, cbRdTok d, cbWrSlot d, cbWrTok d]
  let x := laneToken 0x7F#16 fun l => v.getD l 0
  .ok s x x

/-- The bytes of a buffer, as what an access to it touches (R72). -/
def bufPiece (f : Foc) (n : Nat) : List Piece :=
  let d := (bufOf f.core n).desc
  [⟨keyScratch f.c (cbBase d), 64 * cbTokens d * cbSlots d, cbBase d, 0, 0, true, 0⟩]

/-- One firing of a buffer instruction: an undeclared descriptor faults first (R156); an ordered firing waits for its
turn (R72), and a release for its stores (R321). The tokens leave in iteration order (R147). A null firing takes no fault (R148; DESIGN CHOICE,
log entry 126). -/
def fireCb (op : Nat) (g : MemW → Foc → List (Nat × Token) → State → CbResult) (w : MemW) (s : State) : Host.Outcome State Fault Refusal :=
  match foc? s with
  | none => .next s
  | some f =>
    let ports := memPorts f.ph f.slot w.pm.toNat
    match readyMem f ports with
    | none => .next s
    | some ops =>
      let nullOp := actsNull w.pm.toNat ops || ((op == 0x79 || op == 0x7B) && ports.contains 0 && !maskBit (tokAt ops 0).mask 0) ||
        (op == 0x7A && !maskBit (tokAt ops 0).mask 0)
      let a := newAccess s op w f ops nullOp (bufPiece f w.recid.toNat)
      if w.ordered == 1#1 && !(hasTurn f.ph f.slot a && !heldBack f.ph a) then .next s
      else if !nullOp && !releaseReady s f.c f.t f.ph a then .next s
      else
        let place := fun (s : State) (x y : Token) =>
          let ph := setNode f.ph f.slot (advance f.nd ports)
          let a := { a with stage := .done, out0 := some x, out1 := some y }
          .next (fired s f (flushAll (setAccs ph f.slot (accsOf ph f.slot ++ [a])) f.slot))
        if nullOp then place s (nullResult op) (nullResult op)
        else if !f.task.bufs.getLsbD w.recid.toNat then .next (nodeFault s f { cls := 0x0D })
        else match g w f ops s with
          | .stall => .next s
          | .bad i => .next (nodeFault s f i)
          | .ok s x y => place (if acquires w then acquireAt s f.c w.scope.toNat else s) x y

end Sys2Proof.Machine
end

