-- ==== Sys2Proof/Machine/Deliver.lean ====
section
/-! DEFINITION. What engines, riders and cards share: the owner of a piece of work, resolved byte runs (R167), engine-port
nodes and the tokens they owe (R194), chains and completion (R289, R293), power leave (R393) and completion words. -/

namespace Sys2Proof.Machine

/-! The task a card or rider belongs to, resident or saved. -/

/-- The core and slot where the task of a job and rank is resident. -/
def findTask (s : State) (j rank : Nat) : Option (Nat × Nat) :=
  s.cores.findSome? fun e => (e.2.tasks.find? fun x => x.2.job == j && x.2.rank == rank).map fun x => (e.1, x.1)

/-- Changes the task of a job and rank, resident or in its image (R289). -/
def modTask (s : State) (j rank : Nat) (f : Task → Task) : State :=
  match findTask s j rank with
  | some (c, t) => (match s.task? c t with
    | some task => s.setTask c t (f task)
    | none => s)
  | none => match s.job? j with
    | some job => s.setJob j { job with images := job.images.map fun e => if e.1 = rank then (e.1, { e.2 with task := f e.2.task }) else e }
    | none => s

/-- The task of a job and rank, resident or in its image. -/
def getTask (s : State) (j rank : Nat) : Option Task :=
  match findTask s j rank with
  | some (c, t) => s.task? c t
  | none => (s.job? j).bind fun job => (tabFind job.images rank).map TaskImage.task

/-! Byte runs of engines. -/

/-- The runs of two parts of an access, or the fault that Table 8.11 puts first. -/
def joinRuns (a b : Except FaultInfo (List MemRun)) : Except FaultInfo (List MemRun) :=
  match a, b with
  | .ok x, .ok y => .ok (x ++ y)
  | .error f, .ok _ => .error f
  | .ok _, .error g => .error g
  | .error f, .error g => .error ((firstFault (some f) g).getD f)

/-- The keys of n bytes at an address, every page checked (Table 8.11, orders 2 to 7). -/
def runKeys (c part : Nat) (nd : Need) (va n : Nat) (s : State) : Except FaultInfo (List MemRun) × State :=
  let bad := fun (a : Nat) => (.error { cls := 0x03, acc := nd.acc, addr := a } : Except FaultInfo (List MemRun))
  if inWindow va then (if inWindow (va + n - 1) then .ok [⟨keyScratch c va, n, 0⟩] else bad va, s)
  else if inHole va then (bad va, s)
  else
    let run := fun (r : Except FaultInfo Place) (len : Nat) => r.map fun pl => [(⟨pl.key, len, leafView pl.leaf⟩ : MemRun)]
    let r := translate s (quadOfCore c) part nd va
    let head := 4096 - va % 4096
    if n ≤ head then (run r.1 n, r.2)
    else
      let r2 := translate r.2 (quadOfCore c) part nd ((va + head) % 2 ^ 57)
      (joinRuns (run r.1 head) (run r2.1 (n - head)), r2.2)

/-- The keys of n bytes in a direct region, which the scratchpad window never is (R149). -/
def directKeys (c part : Nat) (nd : Need) (va n : Nat) (s : State) : Except FaultInfo (List MemRun) × State :=
  if inWindow va then (.error { cls := 0x03, acc := nd.acc, addr := va }, s) else runKeys c part nd va n s

/-- The bytes of a list of runs as one number, lowest first. -/
def readKeys (s : State) : List MemRun → Nat
  | [] => 0
  | k :: t => viewRead s k.view k.key k.len + 2 ^ (8 * k.len) * readKeys s t

def keysPoisoned (s : State) (ks : List MemRun) : Bool := ks.any fun k => poisoned s k.key k.len

/-- What reading a list of runs finds (R361). -/
def checkKeys (s : State) (ks : List MemRun) : State := ks.foldl (fun s k => readCheck s k.key k.len) s

/-- Writes a number over a list of runs. -/
def writeKeys (s : State) : List MemRun → Nat → Bool → State
  | [], _, _ => s
  | k :: t, x, p => writeKeys (writeView s k.view k.key k.len (x % 2 ^ (8 * k.len)) p) t (x / 2 ^ (8 * k.len)) p

/-- The requests that runs on other packages make (R407). -/
def podSendRuns (s : State) (ks : List MemRun) : State := ks.foldl (fun s k => podSendKey s k.key) s

/-- Reads n bytes at an address as an engine does: the home value or the bank, poison faulting (R327). -/
def engineRead (c part va n : Nat) (s : State) : Except FaultInfo Nat × State :=
  match runKeys c part needRead va n s with
  | (.error f, s) => (.error f, s)
  | (.ok ks, s) =>
    let s := checkKeys s ks
    if keysPoisoned s ks then (.error { cls := 0x09, addr := va }, s) else (.ok (readKeys s ks), s)

/-! Completion words. -/

/-- Whether an `aaddw` of a scope can be made on a word now: its controller takes it, and no atomic stands halfway at its pipe (R322,
R356). -/
def cwOpen (s : State) (w : MemRun) (scope : Nat) : Bool := homeOpen s w.key w.len scope

/-- The write of `aaddw.n32.s.rel` of a scope with operand 1 on a word whose value was read (R224, R296, R299), waking the waits at its
place. -/
def cwWrite (s : State) (w : MemRun) (scope old : Nat) : State :=
  let v := (old + 1) % 2 ^ 32
  wakeWaits (writeView s w.view w.key 4 v false) (placeOf 0 scope w.key) w.key v

/-- What a move of an `aaddw` on a completion word comes to: it waits, it has read the word, or it has written it. -/
inductive CwOut where
  | waits
  | read (old : Nat) (s : State)
  | written (s : State)

/-- The next move of an `aaddw` on a completion word: its read, or, once that has been made, its write (R322). One on another package's
word is one request (R407). A word in a poisoned sector counts on from the bytes that stand there, the sector poisoned still (R361; log
entry 102). -/
def cwMove (s : State) (w : MemRun) (scope : Nat) : CwOut :=
  if !cwOpen s w scope then .waits
  else
    let s := countDirect (readCheck s w.key w.len) w.key scope
    let v := viewRead s w.view w.key 4
    if isLocal w.key then .read v s else .written (cwWrite (podSendKey s w.key) w scope v)

/-! Tokens owed by an engine-port node. -/

def owedOf (ph : Phase) (slot : Nat) : List Owed := tabGet [] ph.owed slot

def setOwed (ph : Phase) (slot : Nat) (l : List Owed) : Phase :=
  { ph with owed := if l.isEmpty then tabDel ph.owed slot else tabPut ph.owed slot l }

/-- Lets the tokens of a node leave in iteration order, those known. -/
def flushOwedN (ph : Phase) (slot : Nat) : Nat → Phase
  | 0 => ph
  | n + 1 => match owedOf ph slot with
    | o :: rest => (match o.tok with
      | some (x, y) =>
        let w := readEp (wordAt ph slot)
        flushOwedN (sendOpt (sendOpt (setOwed ph slot rest) slot w.t0 (some x)) slot w.t1 (some y)) slot n
      | none => ph)
    | [] => ph

def flushOwed (ph : Phase) (slot : Nat) : Phase := flushOwedN ph slot (owedOf ph slot).length

/-- The operands of an engine-port firing that may be made; every token owed has its space (R30). -/
def readyEp (f : Foc) (ports : List Nat) : Option (List (Nat × Token)) :=
  if mayFire f.ph f.slot && memSpace f.ph f.slot (owedOf f.ph f.slot).length then heads f.nd ports else none

/-- A firing made by an engine-port node, with a token now, or one owed under a key. -/
def epFired (s : State) (f : Foc) (ports : List Nat) (key : Nat) (tok : Option Token) : State :=
  let ph := setNode f.ph f.slot (advance f.nd ports)
  fired s f (flushOwed (setOwed ph f.slot (owedOf ph f.slot ++ [⟨f.nd.iter, key, tok.map fun x => (x, x)⟩])) f.slot)

/-- The key of a card's completion token. -/
def cardKey (chain seq : Nat) : Nat := chain * 2 ^ 64 + seq

/-- A token owed under a key becomes known, in the running and the held phase. -/
def settleOwed (task : Task) (slot key : Nat) (x : Token) : Task :=
  let go := fun (ph : Phase) =>
    flushOwed (setOwed ph slot ((owedOf ph slot).map fun o => if o.key = key ∧ o.tok = none then { o with tok := some (x, x) } else o)) slot
  { task with phase := task.phase.map go, held := task.held.map go }

/-! Chains (R289). -/

def chainOf (task : Task) (k : Nat) : Chain := tabGet {} task.chains k

/-- The issue token of a card (R194). -/
def issueToken (seq : Nat) : Token := laneToken 3#16 fun l => if l = 0 then seq % 2 ^ 32 else if l = 1 then seq / 2 ^ 32 % 2 ^ 32 else 0

/-- The completion token of a card, and of `waitseq` and `bwait` with lane 3 (R194, R236, R306). -/
def doneToken (seq lane2 lane3 : Nat) (mask : BitVec 384) : Token :=
  laneToken 0xFFFF#16 fun l => if l = 0 then seq % 2 ^ 32 else if l = 1 then seq / 2 ^ 32 % 2 ^ 32 else if l = 2 then lane2
    else if l = 3 then lane3 else (mask.extractLsb' (32 * (l - 4)) 32).toNat

/-- A card joins a chain under the next sequence number (R289). -/
def appendCard (task : Task) (k : Nat) (card : Card) : Task :=
  let ch := chainOf task k
  { task with chains := tabPut task.chains k { ch with tail := ch.tail + 1, cards := ch.cards ++ [{ card with seq := ch.tail + 1 }] } }

/-- The completed number of a chain: every card numbered so or below has completed. -/
def chainDone (ch : Chain) : Nat := ch.cards.foldl (fun m c => min m (c.seq - 1)) ch.tail

/-- A card leaves its chain, complete; the chain keeps the last 64 statuses (R289). -/
def retireCard (task : Task) (k : Nat) (d : CardDone) : Task :=
  let ch := chainOf task k
  let cards := ch.cards.filter fun c => c.seq != d.seq
  let ch := { ch with cards := cards, hist := (d :: ch.hist).take 64 }
  { task with chains := tabPut task.chains k { ch with done := chainDone ch } }

def setCard (task : Task) (k : Nat) (card : Card) : Task :=
  let ch := chainOf task k
  { task with chains := tabPut task.chains k { ch with cards := ch.cards.map fun c => if c.seq = card.seq then card else c } }

def cardOf (task : Task) (k seq : Nat) : Option Card := (chainOf task k).cards.find? fun c => c.seq == seq

/-! Power leave (R393). -/

/-- A request for leave, at the time of its core. -/
def askLeave (s : State) (die : Nat) (r : LeaveReq) : State :=
  let d := s.die die
  s.setDie die { d with leaves := d.leaves ++ [{ r with since := (s.core r.core).refTime }] }

def prioOf (s : State) (j : Nat) : Nat :=
  match s.job? j with
  | some job => lrPrio job.record
  | none => 0

/-- The tile task of a quad whose record stands at an address has its leave. -/
def tileLeave (s : State) (q addr : Nat) : State :=
  let x := s.quad q
  s.setQuad q { x with ttasks := x.ttasks.map fun t => if t.addr = addr then { t with leave := true } else t }

/-- A granted request: the card, tile task, seed or rider that asked has its leave. -/
def applyLeave (s : State) (r : LeaveReq) : State :=
  if r.chain = 4 then tileLeave s (quadOfCore r.core) r.seq else
  match r.ticket with
  | some k => (match s.rider? k with
    | some rd => s.setRider k { rd with leave := true }
    | none => s)
  | none => match s.task? r.core r.task with
    | none => s
    | some task =>
      if r.chain = 3 then s.setTask r.core r.task { task with seed := { task.seed with leave := true } }
      else match cardOf task r.chain r.seq with
        | some card => s.setTask r.core r.task (setCard task r.chain { card with leave := true })
        | none => s

/-- Whether a request goes before another: of higher PRIO, of one PRIO the earlier, of one cycle the lower core number (R393). -/
def leaveBefore (a b : LeaveReq) : Bool :=
  b.prio < a.prio || (a.prio == b.prio && (a.since < b.since || (a.since == b.since && a.core < b.core)))

/-- The request whose turn it is. -/
def nextLeave (d : Die) : Option LeaveReq :=
  d.leaves.foldl (fun best r => match best with
    | none => some r
    | some b => if leaveBefore r b then some r else some b) none

/-- Whether a request has waited GRANTMAX cycles of the 2.1 GHz clock (R393, R415). -/
def leaveForced (s : State) (r : LeaveReq) : Bool := s.grantmax.toNat ≤ elapsed (s.core r.core) r.since

/-- Whether a request of a core has waited so long, and is to be granted at once. -/
def leaveDue (s : State) (c : Nat) : Bool := (s.die (dieOfCore c)).leaves.any fun r => r.core == c && leaveForced s r

def grantLeave (s : State) (die : Nat) (r : LeaveReq) : State :=
  let d := s.die die
  applyLeave (s.setDie die { d with leaves := d.leaves.erase r, inuse := d.inuse + r.weight }) r

/-- POWER_GRANT: the first request in order, while it fits the budget. -/
def powerGrant (die : Nat) (s : State) : State :=
  let d := s.die die
  match nextLeave d with
  | some r => if d.inuse + r.weight ≤ d.budget then grantLeave s die r else s
  | none => s

/-- FORCED_GRANT: request n, which has waited GRANTMAX cycles, is granted at once, whatever the budget; of two asked for in one
cycle that of the lower core goes first (Table 23.9). -/
def forcedGrant (die n : Nat) (s : State) : State :=
  match (s.die die).leaves[n]? with
  | some r => if leaveForced s r && !((s.die die).leaves.any fun y => y.since == r.since && y.core < r.core && leaveForced s y) then grantLeave s die r else s
  | none => s

end Sys2Proof.Machine
end

