-- ==== Sys2Proof/Machine/Husk.lean ====
section
/-! DEFINITION. Seeds as a feed brings them (R74 to R78, R245): husk fields, successors, checks, routes, and the lines that
reach the cores of joined tasks. -/

namespace Sys2Proof.Machine

/-! Husk fields (Table 3.13). -/

def hkSop (h : BitVec 128) : Nat := (h.extractLsb' 120 8).toNat
def hkOf (h : BitVec 128) : Husk := readHusk h
def hkLink (h : BitVec 128) : Int := signedOf 32 (h.extractLsb' 56 32).toNat
def hkPlen (h : BitVec 128) : Nat := (h.extractLsb' 40 16).toNat

/-- The address of the successor of a seed at A (R75). -/
def seedSuccessor (a : Nat) (h : BitVec 128) : Nat :=
  if hkLink h = 0 then (a + 256 * hkPlen h) % 2 ^ 57 else wrapTo 57 ((a : Int) + 256 * hkLink h)

/-- The payload bytes of a number of elements of a format (R151). -/
def payloadBytes (fmt n : Nat) : Nat := if fmt = 6 then n / 32 * 18 else (n * typeWidth fmt + 7) / 8

/-- The raw payload length that Table 12.5 requires. -/
def rawLength (sop : Nat) (h : Husk) : Nat :=
  let rows := 16 * h.rows16.toNat
  let cols := 16 * h.cols16.toNat
  let f := h.fmt.toNat
  match sop with
  | 1 => payloadBytes f (rows * cols)
  | 2 => payloadBytes f (rows * cols)
  | 3 => payloadBytes f cols
  | 4 => payloadBytes f cols
  | 5 => payloadBytes f (cols + 1)
  | 6 => 16
  | 7 => 0
  | 8 => 16
  | 9 => 8
  | 10 => 8
  | 11 => 16
  | 12 => 16
  | _ => payloadBytes f (rows * cols)

/-- The first check of Table 3.15 that a husk fails, 0 for none. -/
def huskCheck (x : BitVec 128) : Nat :=
  let sop := hkSop x
  let h := hkOf x
  if h.crc sop != h.hchk.toNat then 1
  else if !(1 ≤ sop && sop ≤ 13) then 2
  else if !seedFmtOk sop h.fmt.toNat || 2 ≤ h.comp.toNat || !seedCompOk sop h.comp.toNat then 3
  else if !routeOk h.rmode.toNat h.rsel.toNat then 4
  else if h.plen.toNat = 0 || (h.comp = 0#4 && 256 * h.plen.toNat - 16 < rawLength sop h) then 5
  else 0

/-- Whether a route names a core (Table 3.14). -/
def routeNames (h : Husk) (core : Nat) : Bool :=
  let sel := h.rsel.toNat
  let quad := core / 4
  match h.rmode.toNat with
  | 0 => core == sel
  | 1 => quad == sel
  | 2 => core / 128 == bitsOf sel 20 2 && bitsOf sel 15 5 ≤ quad % 32 && quad % 32 ≤ bitsOf sel 10 5 && sel.testBit (core % 4)
  | _ => core / 128 == bitsOf sel 20 2

/-! Feed card fields (Table 12.1). -/

def fcVbase (r : BitVec 512) : Nat := (r.extractLsb' 0 57).toNat
def fcLines (r : BitVec 512) : Nat := (r.extractLsb' 64 24).toNat + 1
def fcEntry (r : BitVec 512) : Nat := (r.extractLsb' 96 57).toNat
def fcM (r : BitVec 512) : Nat := (r.extractLsb' 160 9).toNat + 1
def fcAstrm1 (r : BitVec 512) : Nat := (r.extractLsb' 176 8).toNat
def fcBrec0 (r : BitVec 512) : Nat := (r.extractLsb' 184 6).toNat
def fcIdrec (r : BitVec 512) : Nat := (r.extractLsb' 192 6).toNat

/-- The place of a line of a rider's range, by its offset: its channel and line. -/
def lineOfOffset (r : Rider) (o : Nat) : Option (Nat × Nat) :=
  r.chans.findSome? fun e => (e.2.lines.find? fun l => l.2 == o).map fun l => (e.1, l.1)

/-- Whether a line holds an uncorrectable error, met already or at its next read. -/
def linePoisoned (s : State) (p : Nat × Nat) : Bool :=
  let pa := p.1 * 2 ^ 31 + 256 * p.2
  poisoned s pa 256 || (List.range 8).any fun i => tabFind s.latent (pa / 32 + i) == some false

/-- The reading of a line of a rider's range, or of what it writes to, by its offset (R365). -/
def Rider.view (r : Rider) (offset : Nat) : Nat := if r.plain.contains offset then 1 else r.part + 2
def Rider.viewDest (r : Rider) (offset : Nat) : Nat := if r.plainDest.contains offset then 1 else r.part + 2

/-- The line of a feed at an offset as it reaches the cores of the partition (R78, R249): bad seeds and uncorrectable
lines go to every core. -/
def seedLine (s : State) (r : Rider) (offset pa core : Nat) : SeedLine :=
  let x := viewRead s (r.view offset) pa 256
  let h := BitVec.ofNat 128 (x % 2 ^ 128)
  let unc := poisoned s pa 256
  let bad := if unc then 0 else huskCheck h
  let os := (List.range (max 1 (hkPlen h))).map (offset + ·)
  { va := (fcVbase r.card + 256 * offset) % 2 ^ 57, data := x, bad := bad, unc := unc
    named := unc || bad != 0 || routeNames (hkOf h) core
    xok := os.all fun o => fcLines r.card ≤ o || r.xbits.contains o
    clean := os.all fun o => (lineOfOffset r o).all fun p => !linePoisoned s p }

/-- Whether a task is joined to the feed that a rider is, or is a turn of. -/
def joinedTo (r : Rider) (task : Task) : Bool :=
  task.seed.joined && task.job == r.job && fcVbase task.seed.card == fcVbase r.card && fcLines task.seed.card == fcLines r.card

/-- A feed's line reaches every core of its partition that holds a joined task, of this feed or another (R76, R78, R245, R249). -/
def feedLine (s : State) (r : Rider) (offset pa : Nat) : State :=
  { s with cores := s.cores.map fun e =>
      if (s.partn r.part).quads.contains (quadOfCore e.1) && e.2.tasks.any fun x => x.2.seed.joined then (e.1, { e.2 with seedIn := e.2.seedIn ++ [seedLine s r offset pa e.1] }) else e }

/-- Whether a turn of a feed is the one of highest ticket aboard a channel that has a line still to pass (R245). -/
def highestTurn (s : State) (r : Rider) (ch : Nat) (line : Nat × Nat) : Bool :=
  s.riders.all fun e => e.2.parent != r.parent || e.2.standing || e.2.ticket ≤ r.ticket ||
    (tabFind e.2.chans ch).all fun x => !(x.admitted && !x.gone && x.todo.contains line)

/-- What a turn of a feed does as it passes a line of its range. -/
def feedAct (s : State) (r : Rider) (ch pa offset : Nat) : State :=
  if r.cancelled || !highestTurn s r ch (pa % 2 ^ 31 / 256, offset) then s else feedLine s r offset pa

end Sys2Proof.Machine
end

