-- ==== Sys2Proof/Machine/Sweep.lean ====
section
/-! DEFINITION. The sweep: slots and the cursor (R210 to R213, R356, R360, R367), rider kernels (R227), the acts of riders
on the lines they pass (R222 to R233), admission (R220) and standing anchors (R234). -/

namespace Sys2Proof.Machine

/-! Rider card fields (Table 11.5). -/

def rcVbase (r : BitVec 512) : Nat := (r.extractLsb' 0 57).toNat
def rcLines (r : BitVec 512) : Nat := (r.extractLsb' 64 24).toNat + 1
def rcCbn (r : BitVec 512) : Nat := (r.extractLsb' 96 6).toNat
def rcLrec (r : BitVec 512) : Nat := (r.extractLsb' 102 6).toNat
def rcLand (r : BitVec 512) : Bool := r.getLsbD 108
def rcCw (r : BitVec 512) : Bool := r.getLsbD 109
def rcKid (r : BitVec 512) : Nat := (r.extractLsb' 110 4).toNat
def rcOpn (r : BitVec 512) : Nat := (r.extractLsb' 114 3).toNat
def rcFtype (r : BitVec 512) : Nat := (r.extractLsb' 117 4).toNat
def rcFold (r : BitVec 512) : Nat := (r.extractLsb' 121 3).toNat
def rcSaddr (r : BitVec 512) : Nat := (r.extractLsb' 128 21).toNat
def rcAnchor (r : BitVec 512) : Nat := (r.extractLsb' 160 24).toNat
def rcCwaddr (r : BitVec 512) : Nat := (r.extractLsb' 192 57).toNat
def rcDbase (r : BitVec 512) : Nat := (r.extractLsb' 256 57).toNat

def riderKey (part ticket : Nat) : Nat := part * 2 ^ 64 + ticket

/-- The kind of rider that a `bstand` is of, by SUB (Table 11.3). -/
def standKind (sub : Nat) : Nat := if sub = 0 then 0xC8 else if sub = 1 then 0xC9 else if sub = 2 then 0xCA else 0xCE

def isKernelOp (op : Nat) : Bool := op == 0xC9 || op == 0xCA || op == 0xCE
def needsPipe (op : Nat) : Bool := isKernelOp op || op == 0xCD

/-! Slots of a channel (R210, R356, R360). -/

inductive SlotKind where
  | refresh
  | direct
  | idle
  | advancing
  deriving DecidableEq, Repr, Inhabited

/-- The kind of a channel's next slot by its number alone: refresh, direct, or neither (R210, R356). -/
def slotByNumber (ch : Channel) : SlotKind :=
  if ch.slot % 32 = 31 then .refresh
  else
    let n := ch.slot / 32 * 31 + ch.slot % 32
    let d := 2 ^ ch.dshr
    if n % d = d - 1 then .direct else .advancing

/-- The kind of the slot that comes next: every slot of a channel in training is idle (R367), and the last I of each 16 + I slots
that are neither refresh nor direct ones are (R360). -/
def nextSlot (ch : Channel) : SlotKind :=
  if ch.train then .idle
  else if slotByNumber ch = .advancing ∧ 16 ≤ ch.dutyPos % (16 + ch.duty) then .idle
  else slotByNumber ch

/-- PERIODMAX (R357). -/
def periodMax (ch : Channel) : Nat :=
  let d := 2 ^ ch.dshr
  let num := ch.len * (16 + ch.duty) * 32 * d
  let den := 16 * 31 * (d - 1)
  (num + den - 1) / den + 3

/-- The riders aboard a channel. -/
def aboard (s : State) (c : Nat) : List (Nat × Rider) :=
  s.riders.filter fun e => !e.2.standing && (tabFind e.2.chans c).any fun x => x.admitted && !x.gone && !(x.todo.isEmpty && x.dest.isEmpty)

/-- Whether a rider holds a length change or training back on a channel: one aboard, or standing there (R220, R369). -/
def someAboard (s : State) (c : Nat) : Bool :=
  !(aboard s c).isEmpty || s.riders.any fun e => e.2.standing && !e.2.cancelled && (tabFind e.2.chans c).isSome

/-! Kernels (R227). -/

/-- The nodes that target `emit`, in ascending slot order. -/
def emitters (words : List Word64) : List Nat :=
  ((blockSlots words).filter fun p => (wTargets p.2).contains 0x1FC).map Prod.fst

/-- A kernel's token goes to a port at once; one for `emit` waits under its producer. -/
def kernelSend (ph : Phase) (slot tgt : Nat) (x : Token) : Phase :=
  if tgt = noTarget then ph
  else if tgt = 0x1FC then { ph with wires := tabPut ph.wires (512 + slot) (tabGet [] ph.wires (512 + slot) ++ [x]) }
  else
    let nd := nodeOf ph (tgt / 4)
    setNode ph (tgt / 4) (setPortQ nd (tgt % 4) (portQ nd (tgt % 4) ++ [x]))

def kernelSend2 (ph : Phase) (slot : Nat) (w : StageW) (x y : Option Token) : Phase :=
  let ph := match x with
    | some x => kernelSend ph slot w.t0.toNat x
    | none => ph
  match y with
  | some y => kernelSend ph slot w.t1.toNat y
  | none => ph

/-- Room at the ports that a kernel node targets; `emit` always takes. -/
def kernelSpace (ph : Phase) (slot : Nat) : Bool :=
  (wTargets (wordAt ph slot)).all fun t => t == 0x1FC || portLoad ph t < 4

/-- One firing of a kernel node, with the status it raises (R227). A firing that gives a producer of `emit` no token counts as a null
one there, so that the tokens of one line stay together. -/
def kernelFire (ph : Phase) (slot : Nat) : Option (Phase × Flags) :=
  let x := wordAt ph slot
  let nd := nodeOf ph slot
  let w := readStage x
  let op := wordOp x
  if x = 0 || ph.n ≤ nd.iter || !kernelSpace ph slot then none
  else if op = 0x56 || op = 0x57 then
    let unpack : Bool := op == 0x57
    let first : Bool := nd.iter % 4 == 0
    let ps := withPred w.pm.toNat (if unpack && first then [0, 1] else [0])
    (heads nd ps).bind fun ops =>
      let nd' := advance nd ps
      if first then (groupInputs w.pm.toNat nd (min 4 (ph.n - nd.iter))).map fun ins =>
          let g := if unpack then (bpxGroup ins (tokAt ops 1), nullToken) else bpcGroup ins
          let v := g.1.headD nullToken
          (kernelSend2 (setNode ph slot { nd' with group := g.1.tail }) slot w (some v) (some (if unpack then v else g.2)), 0)
      else
        let v := nd.group.headD nullToken
        let y := if unpack then some v else if w.t1.toNat = 0x1FC then some nullToken else none
        some (kernelSend2 (setNode ph slot { nd' with group := nd.group.tail }) slot w (some v) y, 0)
  else match decode x with
    | .error _ => none
    | .ok i => (stageFn i).bind fun p =>
      let ps := withPred w.pm.toNat (stageNeeds op w)
      (heads nd ps).map fun ops =>
        let b := if w.bimm = 1#1 then immToken w.ty.toNat w.imm else tokAt ops 1
        let out := if actsNull w.pm.toNat ops then StageOut.both nullToken 0
          else p.2 w ⟨tokAt ops 0, b, tokAt ops 2, nd.iter, 0⟩
        (kernelSend2 (setNode ph slot (advance nd ps)) slot w out.out0 out.out1, out.flags)

/-- Rounds of firing over the slots until the fuel ends. -/
def kernelRun : Nat → Phase → Flags → Phase × Flags
  | 0, ph, fl => (ph, fl)
  | n + 1, ph, fl =>
    let r := (List.range 48).foldl (fun (a : Phase × Flags) slot => match kernelFire a.1 slot with
      | some x => (x.1, a.2 ||| x.2)
      | none => a) (ph, fl)
    if r.1 = ph then (ph, fl) else kernelRun n r.1 r.2

/-- A line and the operand tokens reach the kernel's fed ports (R227). -/
def kernelFeed (ph : Phase) (line : Option Nat) (operand : List Nat) : Phase :=
  (List.range 4).foldl (fun ph q =>
    let slot := 6 * q
    let x := wordAt ph slot
    let slots := blockSlots ph.words
    let needs := stageNeeds (wordOp x) (readStage x)
    let put := fun (ph : Phase) (p : Nat) (v : Token) =>
      let nd := nodeOf ph slot
      setNode ph slot (setPortQ nd p (portQ nd p ++ [v]))
    let raw := fun (v : Nat) => (⟨BitVec.ofNat 512 v, 0xFFFF#16, false⟩ : Token)
    if x = 0 then ph
    else
      let ph := if needs.contains 0 && producers slots (4 * slot) = 0 then
          put ph 0 (match line with
            | some v => raw (bitsOf v (512 * q) 512)
            | none => nullToken) else ph
      if needs.contains 1 && producers slots (4 * slot + 1) = 0 then
        put ph 1 (match operand[q]? with
          | some v => raw v
          | none => nullToken) else ph) ph

/-- A started kernel for n lines. -/
def kernelStart (k : Kernel) (n : Nat) : Phase :=
  { addr := 0, hdr := k.hdr, words := k.words, n := n, starts := [], num := 0, handler := false }

/-- The tokens emitted for the oldest line, one by producer, once all are there; none of a kernel that emits nothing. -/
def kernelTake (ph : Phase) : Option (List Token × Phase) :=
  let es := emitters ph.words
  let qs := es.map fun e => tabGet [] ph.wires (512 + e)
  if qs.any List.isEmpty then none
  else some (qs.map fun q => q.headD nullToken,
    { ph with wires := es.foldl (fun w e => tabPut w (512 + e) (tabGet [] w (512 + e)).tail) ph.wires })

/-! Folds (R228). -/

/-- One lane of a `bsum` fold under FOLD and FTYPE (R120). -/
def foldLane (fold ty x y : Nat) : Nat :=
  match fold with
  | 0 => if ty = 0 then (faddBits 0 0 x y).1 else encodeInt ty (decodeInt ty x + decodeInt ty y)
  | 1 => if ty = 0 then (minMaxBits 0 false x y).1 else encodeInt ty (min (decodeInt ty x) (decodeInt ty y))
  | 2 => if ty = 0 then (minMaxBits 0 true x y).1 else encodeInt ty (max (decodeInt ty x) (decodeInt ty y))
  | 3 => x &&& y
  | 4 => x ||| y
  | _ => x ^^^ y

/-- A token of one producer, or another channel's partial, folded into a partial: a lane starts at the identity (R228, log entry 119). -/
def foldToken (fold ty : Nat) (acc x : Token) : Token :=
  if x.null then acc
  else
    let has := fun l => !acc.null && maskBit acc.mask l
    laneToken (maskOf fun l => has l || maskBit x.mask l) fun l =>
      let old := if has l then acc.lane l else redIdentity ty fold
      if maskBit x.mask l then foldLane fold ty old (x.lane l) else if has l then old else 0

def foldSum (fold ty : Nat) (acc xs : List Token) : List Token :=
  (List.range (max acc.length xs.length)).map fun i => foldToken fold ty (acc.getD i nullToken) (xs.getD i nullToken)

def plusInf : Nat := 0x7F800000
def minusInf : Nat := 0xFF800000

/-- The integer that a finite fp32 pattern truncates to. -/
def refInt (x : Nat) : Int :=
  match decodeFloat 0 x with
  | .fin neg m e =>
    let k : Int := if 0 ≤ e then (m * 2 ^ e.toNat : Nat) else (m / 2 ^ (-e).toNat : Nat)
    if neg then -k else k
  | _ => 0

/-- A reference exponent lane truncated toward zero, as an fp32 pattern, none for a NaN (R228). -/
def refExp (x : Nat) : Option Nat :=
  match decodeFloat 0 x with
  | .nan _ _ => none
  | .inf neg => some (if neg then minusInf else plusInf)
  | .fin _ _ _ => some (roundFloat 0 0 false (Val.ofInt (refInt x))).bits

/-- The exponent x − v by which a value of reference x is scaled to the reference v ≥ x: anything below −2,000 leaves zero of every
fp32 value. None for ∞ − ∞, of which R228 states no result. -/
def refGap (x v : Nat) : Option Int :=
  if x = plusInf ∧ v = plusInf then none else if x = minusInf ∨ v = plusInf then some (-2000) else some (max (refInt x - refInt v) (-2000))

/-- One lane of `batt` once its reference u is above −∞: the sum x, of reference u, with a value y of reference e (R228). The sum that
∞ − ∞ leaves unstated is a free value of the operands (DESIGN CHOICE, log entry 108). -/
def attSum (u e x y : Nat) : Nat :=
  let v := (minMaxBits 0 true u e).1
  match refGap u v, refGap e v with
  | some a, some b => (faddBits 0 0 (scalePow2 x a) (scalePow2 y b)).1
  | _, _ => Config.freeWord (packElems 32 [u, e, x, y]) % 2 ^ 32

/-- `batt`: the fold of a partial (U then sums) with new tokens of the same form (R228). U of a lane not yet received is
invalid. -/
def foldAtt (acc xs : List Token) : List Token :=
  let u := acc.getD 0 nullToken
  let e0 := xs.getD 0 nullToken
  let n := max acc.length xs.length
  if e0.null then acc
  else
    let ex := fun l => if maskBit e0.mask l then refExp (e0.lane l) else none
    let valOf := fun (i l : Nat) => let x := xs.getD i nullToken
      if x.null || !maskBit x.mask l then 0 else x.lane l
    let uOk := fun l => !u.null && maskBit u.mask l
    let m := maskOf fun l => uOk l || (ex l).isSome
    (List.range n).map fun i => laneToken m fun l =>
      match ex l with
      | none => if uOk l then (acc.getD i nullToken).lane l else 0
      | some e =>
        if !uOk l || u.lane l = minusInf then (if i = 0 then e else valOf i l)
        else if i = 0 then (minMaxBits 0 true (u.lane l) e).1
        else attSum (u.lane l) e ((acc.getD i nullToken).lane l) (valOf i l)

/-- The start value of the lanes of a fold (R228): the identity of R120, or −∞ for U and +0 for the sums of `batt`. -/
def foldStart (r : Rider) (i : Nat) : Nat :=
  let op := if r.op = 0xD4 then standKind r.sub else r.op
  if op = 0xCE then (if i = 0 then minusInf else 0) else redIdentity (rcFtype r.card) (rcFold r.card)

/-- Token i of a fold with the start value in the lanes that got nothing. -/
def foldStarted (r : Rider) (i : Nat) (x : Token) : Token :=
  rawToken 0xFFFF#16 (packElems 32 ((List.range 16).map fun l => if !x.null && maskBit x.mask l then x.lane l else foldStart r i))

/-- A channel's tokens folded into its partial. -/
def foldInto (r : Rider) (acc xs : List Token) : List Token :=
  let op := if r.op = 0xD4 then standKind r.sub else r.op
  if op = 0xCE then foldAtt acc xs else foldSum (rcFold r.card) (rcFtype r.card) acc xs

/-! Deliveries (R225). -/

/-- The tag token (Table 11.10). -/
def tagBytes (line chan : Nat) (masks : List Nat) (poison : Bool) (rev : Nat) : Nat :=
  line % 2 ^ 32 + chan * 2 ^ 32 + (List.range 4).foldl (fun n i => n + masks.getD i 0 % 2 ^ 16 * 2 ^ (64 + 32 * i)) 0
    + poison.toNat * 2 ^ 192 + rev % 2 ^ 32 * 2 ^ 224

/-- The slot of a kernel's tokens: the tag, then each token's valid bytes, a null one zero. -/
def tokensSlot (tag : Nat) (xs : List Token) : Nat :=
  tag + (List.range xs.length).foldl (fun n i => let x := xs.getD i nullToken
    if x.null then n else n + validBytes x * 2 ^ (512 * (i + 1))) 0

def tokenMasks (xs : List Token) : List Nat := xs.map fun x => if x.null then 0 else x.mask.toNat

/-- Marks the sectors of a delivered slot that hold data of poisoned sectors (R361). -/
def poisonSlot (s : State) (key : Nat) (sectors : Nat) : State :=
  { s with poison := (List.range 8).foldl (fun m i => if sectors / 2 ^ i % 2 = 1 then tabSet false m (key / 32 + 2 + i) true else m) s.poison }

/-- One delivery into a free slot of buffer CBN (R225): `bad` marks poisoned sectors of the line. -/
def deliverSlot (s : State) (c n x bad : Nat) : Option State :=
  let slot := cbNextClaim (bufOf (s.core c) n).desc
  let key := keyScratch c (cbAddr (bufOf (s.core c) n).desc slot 0)
  (cbDeliver s c n x).map fun s => poisonSlot s key bad

/-- A delivery queue moves into the buffer as far as slots are free. -/
def drainQueue (s : State) (c n : Nat) : List (Nat × Nat × Bool) → State × List (Nat × Nat × Bool)
  | [] => (s, [])
  | q :: rest => match deliverSlot s c n q.1 q.2.1 with
    | some s => drainQueue s c n rest
    | none => (s, q :: rest)

/-- Empties what it can of a rider's queue at a channel. -/
def drainRider (s : State) (key ch : Nat) : State :=
  match s.rider? key with
  | none => s
  | some r => match tabFind r.chans ch with
    | none => s
    | some x =>
      let d := drainQueue s r.core (rcCbn r.card) x.queue
      d.1.setRider key { r with chans := tabPut r.chans ch { x with queue := d.2 } }

/-! The acts of riders on a line. -/

/-- Which of the eight sectors of a line are poisoned. -/
def lineBad (s : State) (pa : Nat) : Nat :=
  (List.range 8).foldl (fun n i => if tabGet false s.poison (pa / 32 + i) then n + 2 ^ i else n) 0

def lineOf (s : State) (view pa : Nat) : Nat := viewRead s view pa 256

def linePa (c line : Nat) : Nat := c * 2 ^ 31 + 256 * line

/-- The bytes of a poisoned line in a format (R104). -/
def poisonLine (fmt : Nat) : Nat :=
  if fmt = 6 then (List.range 14).foldl (fun n i => n + 0xFF * 2 ^ (144 * i + 128)) 0 % 2 ^ 2048
  else packElems (typeWidth fmt) (List.replicate (2048 / typeWidth fmt) (poisonElem fmt))

/-- ERR for an uncorrectable line on a channel (Table 11.12, Table 11.13). -/
def markErr (r : Rider) (ch : Nat) (part_ : Bool) : Rider :=
  { r with status := r.status ||| 1 ||| (if part_ then 2 else 0), chmask := r.chmask ||| (1 <<< ch) }

/-- One word of an update (R230). -/
def updWord (sub w o : Nat) : Nat :=
  match sub with
  | 0 => (w + o) % 2 ^ 32
  | 1 => (faddBits 0 0 w o).1
  | 2 => encodeInt 11 (min (decodeInt 11 w) (decodeInt 11 o))
  | 3 => encodeInt 11 (max (decodeInt 11 w) (decodeInt 11 o))
  | 4 => w &&& o
  | 5 => w ||| o
  | 6 => w ^^^ o
  | _ => o

def updLine (sub line operand : Nat) : Nat :=
  packElems 32 ((List.range 64).map fun j => updWord sub (bitsOf line (32 * j) 32) (bitsOf operand (32 * j) 32))

/-- What kernel tokens of one answered line do: a delivery, nothing, or a fold. -/
def kernelAnswer (r : Rider) (op ch : Nat) (x : RiderChan) (fl : FedLine) (xs : List Token) : RiderChan :=
  if op = 0xCA then
    if xs.all Token.null then x
    else { x with queue := x.queue ++ [(tokensSlot (tagBytes fl.offset ch (tokenMasks xs) fl.bad fl.rev) xs, 0, true)] }
  else { x with fold := foldInto r x.fold xs, folded := x.folded + 1 }

/-- Takes every line's tokens that the kernel has emitted. -/
def kernelDrain (r : Rider) (op ch : Nat) : Nat → RiderChan → RiderChan
  | 0, x => x
  | n + 1, x => match x.kernel.bind kernelTake, x.fed with
    | some (xs, ph), fl :: rest => kernelDrain r op ch n (kernelAnswer r op ch { x with kernel := some ph, fed := rest } fl xs)
    | _, _ => x

/-- The sectors that are lost of what a rider holds for an offset (R361). -/
def lostSectors (r : Rider) (o : Nat) : Nat := r.bad.foldl (fun m e => if e.1 = o then m ||| e.2 else m) 0

/-- Sets the poison of the sectors of a line that a mask names (R361). -/
def poisonSectors (s : State) (pa m : Nat) : State :=
  { s with poison := (List.range 8).foldl (fun l i => if m.testBit i then tabSet false l (pa / 32 + i) true else l) s.poison }

/-- A rider's act on one of its lines, given by its offset, with the line at pa as riders of lower ticket left it; none
where it misses the line (R232). -/
def actLine (s : State) (key ch pa offset rev : Nat) : Option State :=
  match s.rider? key with
  | none => some s
  | some r => match tabFind r.chans ch with
    | none => some s
    | some x =>
      let op := if r.op = 0xD4 then standKind r.sub else r.op
      let bad := lineBad s pa
      let line := lineOf s (r.view offset) pa
      let write := fun (x : Nat) (p : Bool) => writeView s (r.view offset) pa 256 x p
      let put := fun (s : State) (r : Rider) (x : RiderChan) => some (s.setRider key { r with chans := tabPut r.chans ch x })
      if r.kind = 3 then some (feedAct s r ch pa offset)
      else if r.kind = 1 && op = 0xC8 || op = 0xCD then
        let r := { r with data := tabPut r.data offset line }
        put s (if bad = 0 then r else { markErr r ch (op == 0xCD) with bad := r.bad ++ [(offset, if op = 0xCD then 255 else bad)] }) x
      else if op = 0xC8 then
        if rcLand r.card then
          let runs := tabGet [] r.land offset
          let s := restartAtomics (writeKeys (podSendRuns s runs) runs (if bad = 0 then line else poisonLine r.landFmt) (bad != 0)) runs
          put s (if bad = 0 then r else markErr r ch true) x
        else if 16 ≤ x.queue.length then none
        else
          let tag := tagBytes offset ch [0xFFFF, 0, 0, 0] (bad != 0) rev
          let slot := tag + (if bad = 0 then line * 2 ^ 512 else 0)
          put s (if bad = 0 then r else markErr r ch true) { x with queue := x.queue ++ [(slot, bad, true)] }
      else if isKernelOp op then
        if op = 0xCA && 16 ≤ x.queue.length then none
        else
          let ph := x.kernel.getD (kernelStart ⟨0, []⟩ 0)
          let k := kernelRun 64 (kernelFeed ph (if bad = 0 then some line else none) r.operand) 0
          let x := { x with kernel := some k.1, fed := x.fed ++ [⟨offset, rev, bad != 0⟩] }
          let r := { r with flags := r.flags ||| k.2 }
          put s (if bad = 0 then r else markErr r ch false) (kernelDrain r op ch 8 x)
      else if op = 0xCB then
        put (poisonSectors (write (r.operand.getD offset 0) false) pa (lostSectors r offset)) r x
      else if op = 0xCC then
        if bad = 0 then put (write (updLine r.sub line (r.operand.headD 0)) false) r x
        else put s (markErr r ch false) x
      else if op = 0xCF then
        let r := { r with data := tabPut r.data offset line }
        put s (if bad = 0 then r else { markErr r ch true with bad := r.bad ++ [(offset, 255)] }) x
      else some s

/-- A byte mask of 256 bits as a mask of 2,048. -/
def spreadMask (m : Nat) : Nat := packElems 8 ((List.range 256).map fun i => if m.testBit i then 255 else 0)

/-- The poison bits of a line after the bytes of a mask are written, poisoned or clean (R361): a sector written whole takes `p`, one
written in part keeps its bit or takes `p`. -/
def linePoison (s : State) (pa m : Nat) (p : Bool) : List (Nat × Bool) :=
  (List.range 8).foldl (fun l i =>
    let w := bitsOf m (32 * i) 32
    let sec := pa / 32 + i
    if w = 0 then l else tabSet false l sec (p || (w != 2 ^ 32 - 1 && tabGet false l sec))) s.poison

/-- A clone writes a destination line whose source it has read at an earlier act (R231), and an engine's deposit a line
whose bytes are known: those it covers (R223, R296). -/
def writeClone (s : State) (key pa offset : Nat) : State :=
  match s.rider? key with
  | none => s
  | some r =>
    let x := tabGet 0 r.data offset
    let view := r.viewDest offset
    match tabFind r.masks offset with
    | none => if lostSectors r offset != 0 then writeView s view pa 256 (poisonLine 8) true else writeView s view pa 256 x false
    | some m =>
      let full := spreadMask m
      let y := (lineOf s view pa &&& (2 ^ 2048 - 1 - full)) ||| (x &&& full)
      poisonSectors { writeView s view pa 256 y false with poison := linePoison s pa m false } pa (lostSectors r offset)

/-- Whether a clone of lower ticket has still to write a line of a channel (R231). -/
def cloneHolds (s : State) (part ticket ch line : Nat) : Bool :=
  s.riders.any fun e => e.2.op == 0xCF && e.2.part == part && e.2.ticket < ticket && !e.2.cancelled &&
    (tabFind e.2.chans ch).any fun x => x.dest.any fun d => d.1 == line

/-- Everything one rider does at the pass of a line, in ascending offset (R222, R231, R240): its clone destinations whose
sources were read at earlier passes, then its own lines. A line that a clone of lower ticket has still to write waits (R231). -/
def riderPass (s : State) (ch line rev : Nat) (key : Nat) : State :=
  match s.rider? key with
  | none => s
  | some r0 =>
    let x0 := tabGet {} r0.chans ch
    if cloneHolds s r0.part r0.ticket ch line then s
    else
      let ready := (x0.dest.filter fun d => d.1 == line && (tabFind r0.data d.2).isSome)
      let s := ready.foldl (fun s d => writeClone s key (linePa ch line) d.2) s
      let s := if ready.isEmpty then s else s.setRider key { r0 with chans := tabPut r0.chans ch { x0 with dest := x0.dest.filter fun d => !ready.contains d } }
      let mine := (x0.todo.filter fun e => e.1 == line)
      mine.foldl (fun s e =>
        match actLine s key ch (linePa ch line) e.2 rev with
        | none => (match s.rider? key with
          | some r => s.setRider key { r with misses := r.misses + 1, status := r.status ||| 8 }
          | none => s)
        | some s => (match s.rider? key with
          | some r =>
            let x := tabGet {} r.chans ch
            s.setRider key { r with chans := tabPut r.chans ch { x with todo := x.todo.filter fun t => t != e, lastRev := rev, lastAt := (s.chan ch).slot } }
          | none => s)) s

/-! Admission (R220). -/

/-- Whether a channel holds admissions back for a rider. -/
def heldBackAt (s : State) (ch : Nat) (r : Rider) : Bool :=
  let x := s.chan ch
  x.pend || x.train || x.trctl ||
    ((r.kind == 1 || r.kind == 2) && 16 ≤ s.riders.countP fun e => (e.2.kind == 1 || e.2.kind == 2) && !e.2.alit && (tabFind e.2.chans ch).any fun y => y.admitted && !y.gone)

/-- Whether a ticket's turn has come on a channel. -/
def turnAt (s : State) (ch : Nat) (r : Rider) : Bool :=
  s.riders.all fun e => e.2.part != r.part || e.2.standing || r.ticket ≤ e.2.ticket ||
    (tabFind e.2.chans ch).all fun y => y.admitted || y.gone

/-- The rider is aboard a channel: it captures its kernel there, and `bcfg` replaces the channel's kernel (R238). -/
def admitAt (s : State) (key ch : Nat) (r : Rider) (x : RiderChan) : State :=
  let s := { s with stamp := s.stamp + 1 }
  if r.op = 0xD0 then
    let c := s.chan ch
    let kern : Kernel := ⟨BitVec.ofNat 128 (r.operand.headD 0), r.operand.tail.map (BitVec.ofNat 64)⟩
    (s.setChan ch { c with kernels := tabPut c.kernels r.sub kern }).setRider key { r with chans := tabPut r.chans ch { x with admitted := true } }
  else
    let op := if r.op = 0xD4 then standKind r.sub else r.op
    let k := if isKernelOp op then (s.kernelOf ch (rcKid r.card)).map fun k => kernelStart k x.lines.length else none
    s.setRider key { r with chans := tabPut r.chans ch { x with admitted := true, kernel := k } }

/-- RIDER_ADMIT: a ticket is admitted to a channel of its range in its turn (R220), with leave where it needs it (R393). -/
def riderAdmit (key ch : Nat) (s : State) : State :=
  match s.rider? key with
  | none => s
  | some r => match tabFind r.chans ch with
    | none => s
    | some x =>
      let op := if r.op = 0xD4 then standKind r.sub else r.op
      if r.standing || x.admitted || x.gone || !turnAt s ch r || heldBackAt s ch r then s
      else if r.kind = 0 && needsPipe op && !(match r.parent with
        | some pk => (s.rider? pk).any Rider.leave
        | none => r.leave) then s
      else admitAt s key ch r x

/-! Standing riders (R234). -/

/-- A new ticket of a partition (R218). -/
def takeTicket (s : State) (part : Nat) : Nat × State :=
  let p := s.partn part
  (p.tickets, s.setPart part { p with tickets := (p.tickets + 1) % 2 ^ 64 })

/-- A new instance of a standing rider, admitted at once where no lower ticket waits. -/
def boardAgain (s : State) (parentKey : Nat) (p : Rider) : State :=
  let t := takeTicket s p.part
  let key := riderKey p.part t.1
  let r : Rider := { p with ticket := t.1, standing := false, parent := some parentKey, chans := p.chans.map fun e =>
      (e.1, { lines := e.2.lines, todo := e.2.lines }), status := 0, misses := 0, chmask := 0, flags := 0, data := [], bad := [] }
  let s := t.2.setRider key r
  p.chans.foldl (fun s e => riderAdmit key e.1 s) s

/-- Standing riders whose anchor line a pass is: each boards again. -/
def anchorsAt (s : State) (ch line : Nat) : State :=
  (s.riders.filter fun e => e.2.standing && !e.2.cancelled && e.2.anchor == some (ch, line)).foldl (fun s e => boardAgain s e.1 e.2) s

/-! Cancelled riders leave a channel at its next pass (R235). -/

/-- At a pass of a channel the cancelled riders aboard leave it before any acts. -/
def leaveCancelled (s : State) (ch : Nat) : State :=
  { s with riders := s.riders.map fun e =>
      if e.2.cancelled then (e.1, { e.2 with chans := e.2.chans.map fun x => if x.1 = ch then (x.1, { x.2 with gone := true, todo := [], dest := [] }) else x }) else e }

/-! Wraps (R211 to R213, R356, R360, R367). -/

/-- The duty ratio at a wrap (R360). -/
def dutyAt (st : Stack) (duty : Nat) : Nat :=
  if st.limit < st.temp then st.ratio else if st.temp + 5 < st.limit then 0 else if duty = 0 then 0 else st.ratio

/-- What takes effect at a wrap of a channel. -/
def atWrap (s : State) (ch : Nat) : State :=
  let x := s.chan ch
  let free : Bool := !someAboard s ch
  let duty := dutyAt (s.stk (stackOfChan ch)) x.duty
  let x := { x with rev := (x.rev + 1) % 2 ^ 48, dshr := x.dshrReg, dpend := false, duty := duty, dutyPos := if duty = x.duty then x.dutyPos else 0 }
  let x := if x.pend && free then { x with len := x.lenReg, pend := false } else x
  let x := if x.trctl && free && x.direct = 0 then { x with train := true } else x
  s.setChan ch x

/-! Slots. -/

def stepSlot (x : Channel) : Channel := { x with slot := x.slot + 1 }

/-- REFRESH_SLOT (R210). -/
def refreshMove (ch : Nat) (s : State) : State :=
  if nextSlot (s.chan ch) = .refresh then s.setChan ch (stepSlot (s.chan ch)) else s

/-- DIRECT_SLOT: at most one direct request is carried (R356). -/
def directMove (ch : Nat) (s : State) : State :=
  let x := s.chan ch
  if nextSlot x = .direct then s.setChan ch { stepSlot x with direct := x.direct - 1 } else s

/-- An idle slot (R210, R360, R367): the duty pattern counts the slots that are neither refresh nor direct ones. -/
def idleMove (ch : Nat) (s : State) : State :=
  let x := s.chan ch
  if nextSlot x = .idle then s.setChan ch { stepSlot x with dutyPos := if slotByNumber x = .advancing then x.dutyPos + 1 else x.dutyPos } else s

end Sys2Proof.Machine
end

