-- ==== Sys2Proof/Machine/Board.lean ====
section
/-! DEFINITION. Boarding and alighting (R214 to R219, R221, R224, R234 to R239). -/

namespace Sys2Proof.Machine

/-! The range of a rider (R218 step 2, R219). -/

/-- A failed check with its order in Table 11.7. -/
abbrev Failed := Option (Nat × FaultInfo)

/-- The earlier of two failed checks; of one order the first. -/
def firstFailed (a b : Failed) : Failed :=
  match a, b with
  | none, b => b
  | a, none => a
  | some x, some y => if y.1 < x.1 then b else a

/-- The place of a failed check among those of Table 11.7, with those that R226 and R377 add to them: swept-access of a landing and
copy-on-write stand after order 6 and before the direct-ride of order 7; want of room comes last. -/
def walkOrder (cls : Nat) : Nat :=
  match cls with
  | 0x03 => 3 | 0x05 => 4 | 0x04 => 5 | 0x0E => 6 | 0x06 => 7 | 0x08 => 8 | 0x07 => 9 | _ => 10

/-- Checks 5 to 7 of a resolved range line. -/
def rideCheck (s : State) (part : Nat) (nd : Need) (va : Nat) (pl : Place) : Failed :=
  let e := pl.leaf
  let f := fun c => some (walkOrder c, ({ cls := c, acc := nd.acc, addr := va } : FaultInfo))
  if (nd.r && !peR e) || (nd.w && !peW e) then f 0x04
  else if pePart e != part || (peTgt e == 0 && (s.chan (chanOfPa pl.key)).owner != part) then f 0x0E
  else if nd.w && peCow e then f 0x08
  else if !peSwept e || peTgt e != 0 || (s.chan (chanOfPa pl.key)).len ≤ pl.key % 2 ^ 31 / 256 then f 0x07
  else none

/-- A line of a range: its channel, line number and offset, and its page's X and compute-region bits. -/
structure RangeLine where
  chan : Nat
  line : Nat
  offset : Nat
  x : Bool
  creg : Bool
  deriving DecidableEq, Repr, Inhabited

/-- The lines of a range, with the first failed check. -/
def rangeLines (quad part vbase : Nat) (nd : Need) : Nat → State → Failed × List RangeLine × State
  | 0, s => (none, [], s)
  | n + 1, s =>
    let r := rangeLines quad part vbase nd n s
    let va := (vbase + 256 * n) % 2 ^ 57
    match lookupNoFill r.2.2 quad part va with
    | (.error f, s) => (firstFailed r.1 (some (walkOrder f.cls, { f with acc := nd.acc })), r.2.1, s)
    | (.ok pl, s) => (firstFailed r.1 (rideCheck s part nd va pl), r.2.1 ++ [⟨chanOfPa pl.key, pl.key % 2 ^ 31 / 256, n, peX pl.leaf, peCreg pl.leaf⟩], s)

/-- The lines by channel, each listed once for its acts. -/
def byChannel (ls : List RangeLine) : List (Nat × RiderChan) :=
  ls.foldl (fun t l => tabMod {} t l.chan fun x => { x with lines := x.lines ++ [(l.line, l.offset)], todo := x.todo ++ [(l.line, l.offset)] }) []

/-- The offsets of lines in pages of a compute region (R365). -/
def plainOffsets (ls : List RangeLine) : List Nat := (ls.filter RangeLine.creg).map RangeLine.offset

/-- The landing runs of each line (R226), with the first failed check; the scratchpad window is no landing place (R154). -/
def landRuns (c part : Nat) (rec_ : BitVec 512) : Nat → State → Failed × List (Nat × List MemRun) × State
  | 0, s => (none, [], s)
  | n + 1, s =>
    let r := landRuns c part rec_ n s
    match directKeys c part needBoard (tokenAddress rec_ (4 * n)) 256 r.2.2 with
    | (.error f, s) => (firstFailed r.1 (some (walkOrder f.cls, f)), r.2.1, s)
    | (.ok ks, s) => (r.1, r.2.1 ++ [(n, ks)], s)

/-- The completion word of a card, in a direct region (Table 11.5): none, or its run or failed check. -/
def cwordKey (c part : Nat) (used : Bool) (va : Nat) (s : State) : Failed × Option MemRun × State :=
  if !used then (none, none, s)
  else match directKeys c part { needBoard with hostOk := false } va 4 s with
    | (.error f, s) => (some (walkOrder f.cls, f), none, s)
    | (.ok ks, s) => (none, ks.head?, s)

/-! Slots and pipes (R218 step 3, R359). -/

/-- The slots and pipes that a rider takes on each channel of its range; `bcfg` rides nowhere and takes none. -/
def slotsTaken (r : Rider) : Nat := if r.parent.isSome || r.op = 0xD0 then 0 else if r.kind = 3 then 2 else if r.kind != 0 then 0 else if r.standing then 2 else 1

def pipesTaken (r : Rider) : Nat :=
  let op := if r.op = 0xD4 then standKind r.sub else r.op
  if r.parent.isSome || r.kind != 0 then 0 else if needsPipe op then 1 else 0

/-- Slots and pipes a job's riders hold on a channel. -/
def heldOn (s : State) (j ch : Nat) (f : Rider → Nat) : Nat :=
  s.riders.foldl (fun n e => if e.2.job == j && (tabFind e.2.chans ch).any (fun x => !x.gone) then n + f e.2 else n) 0

def jobSlotsOf (s : State) (j : Nat) : Nat × Nat :=
  match s.job? j with
  | some job => (lrBits job.record 121 7, lrBits job.record 185 4)
  | none => (0, 0)

/-- Whether the job declares what a rider needs (Table 11.7, order 8). -/
def declaresRoom (s : State) (j slots pipes : Nat) : Bool := slots ≤ (jobSlotsOf s j).1 && pipes ≤ (jobSlotsOf s j).2

/-- Whether the slots and pipes a rider needs are free on every channel it touches. -/
def roomNow (s : State) (j : Nat) (chans : List Nat) (slots pipes : Nat) : Bool :=
  chans.all fun ch => heldOn s j ch slotsTaken + slots ≤ (jobSlotsOf s j).1 && heldOn s j ch pipesTaken + pipes ≤ (jobSlotsOf s j).2

/-! The card (Tables 11.5 to 11.7, order 1 and 2). -/

/-- The bits of the rider card that a kind may use (Tables 11.5 and 11.6). -/
def riderMask (op : Nat) (stand : Bool) : Nat :=
  let field := fun (lo len : Nat) => (2 ^ len - 1) * 2 ^ lo
  let base := field 0 57 + field 64 24 + field 109 1 + field 192 57
  base + (if stand then field 160 24 else 0) +
    (if op = 0xC8 then field 108 1 + field 102 6 + field 96 6
     else if op = 0xC9 then field 96 6 + field 110 4 + field 114 3 + field 117 4 + field 121 3 + field 128 21
     else if op = 0xCA || op = 0xCE then field 96 6 + field 110 4 + field 114 3 + field 128 21
     else if op = 0xCB || op = 0xCC then field 128 21
     else field 256 57)

/-- The words of the kernel that a `bcfg` with a ticket brings to a KID and that some channel has not admitted yet: the highest
ticket's. A rider that boards now is of higher ticket and runs it (R238, R346). -/
def kernelComing (s : State) (part kid : Nat) : Option (List Word64) :=
  (s.riders.filter fun e => e.2.op == 0xD0 && e.2.part == part && e.2.sub == kid).getLast?.map fun e => e.2.operand.tail.map (BitVec.ofNat 64)

/-- Whether a kernel is loaded on every channel of a partition, or has its ticket. -/
def kernelLoaded (s : State) (part kid : Nat) : Bool :=
  (kernelComing s part kid).isSome || ((List.range 384).filter fun c => (s.chan c).owner = part).all fun c => (s.kernelOf c kid).isSome

/-- The number of producers of a kernel in a partition. -/
def kernelWidth (s : State) (part kid : Nat) : Nat :=
  match kernelComing s part kid with
  | some ws => (emitters ws).length
  | none => match ((List.range 384).find? fun c => (s.chan c).owner = part && (s.kernelOf c kid).isSome).bind fun c => s.kernelOf c kid with
    | some k => (emitters k.words).length
    | none => 0

/-- Checks 1 and 2 of Table 11.7 for a rider card. -/
def cardCheck (s : State) (c part op : Nat) (stand : Bool) (card : BitVec 512) : Option FaultInfo :=
  let bit := fun (m : Nat) => card.toNat &&& (2 ^ 512 - 1 - m)
  let slotTok := cbTokens (bufOf (s.core c) (rcCbn card)).desc
  let r := recOf (s.core c) (rcLrec card)
  if bit (riderMask op stand) != 0 || rcVbase card % 256 != 0 || 4 < rcOpn card || 30 < rcCbn card ||
      ((op == 0xCB || op == 0xCF) && 256 < rcLines card) || (stand && rcLines card ≤ rcAnchor card) ||
      (isKernelOp op && !kernelLoaded s part (rcKid card)) ||
      (op == 0xC9 && (!(rcFtype card == 11 || rcFtype card == 12 || rcFtype card == 0) || 5 < rcFold card || (3 ≤ rcFold card && rcFtype card == 0))) ||
      (op == 0xCE && (kernelWidth s part (rcKid card) < 2)) || (op == 0xCF && rcDbase card % 256 != 0) then
    some { cls := 0x05 }
  else if (op == 0xC8 && !rcLand card && slotTok < 5) || (isKernelOp op && slotTok < 1 + kernelWidth s part (rcKid card)) then
    some { cls := 0x02, addr := cbBase (bufOf (s.core c) (rcCbn card)).desc }
  else if op == 0xC8 && rcLand card && (recExt r 0 % elemsPerToken (recFmt r) != 0 || recFmt r == 6 || packedBytes (recFmt r) (2 ^ (recTiler r + recTilec r)) != 256 ||
      (List.range (rcLines card)).any (fun i => tokenAddress r (4 * i) % 64 != 0)) then
    some { cls := 0x02, addr := tokenAddress r 0 }
  else if rcCw card && rcCwaddr card % 4 != 0 then some { cls := 0x02, addr := rcCwaddr card }
  else if rcSaddr card % 64 != 0 then some { cls := 0x02, addr := rcSaddr card }
  else none

/-- The permission a kind's range needs (Table 11.6). -/
def rangeNeed (op : Nat) : Need :=
  if op = 0xCB then needWrite else if op = 0xCC then { r := true, w := true, acc := 1 } else needRead

/-- The scratchpad bytes that a boarding copies (Table 11.6). -/
def operandBytes (op : Nat) (card : BitVec 512) : Nat :=
  if isKernelOp op then 64 * rcOpn card else if op = 0xCB then 256 * rcLines card else if op = 0xCC then 256 else 0

/-- What a boarding makes ready: the rider without its ticket, or the first failed check. -/
def prepareRider (s : State) (c t part op sub : Nat) (stand : Bool) (card : BitVec 512) : Except FaultInfo Rider × State :=
  match cardCheck s c part op stand card with
  | some i => (.error i, s)
  | none =>
    let quad := quadOfCore c
    let a := rangeLines quad part (rcVbase card) (rangeNeed op) (rcLines card) s
    let d := if op = 0xCF then rangeLines quad part (rcDbase card) needWrite (rcLines card) a.2.2 else (none, [], a.2.2)
    let l := if op = 0xC8 && rcLand card then landRuns c part (recOf (s.core c) (rcLrec card)) (rcLines card) d.2.2 else (none, [], d.2.2)
    let w := cwordKey c part (rcCw card) (rcCwaddr card) l.2.2
    let n := operandBytes op card
    let pad : Failed := if n != 0 && !inWindow (rcSaddr card + n - 1) then some (3, { cls := 0x03, addr := rcSaddr card }) else none
    let meet : Failed := if op = 0xCF && (a.1.all fun x => x.1 != 3) && (d.1.all fun x => x.1 != 3) &&
        (((a.2.1 ++ d.2.1).any fun x => x.chan != ((a.2.1.head?.map RangeLine.chan).getD 0)) ||
          a.2.1.any fun x => d.2.1.any fun y => x.chan == y.chan && x.line == y.line) then some (3, { cls := 0x05 }) else none
    let chans := byChannel a.2.1
    let chans := d.2.1.foldl (fun t y => tabMod {} t y.chan fun x => { x with dest := x.dest ++ [(y.line, y.offset)] }) chans
    let task := s.task? c t
    let j := (task.map Task.job).getD 0
    let slots := if stand then 2 else 1
    let pipes := if needsPipe op then 1 else 0
    let room : Failed := if declaresRoom s j slots pipes then none else some (10, { cls := 0x0D })
    match firstFailed (firstFailed (firstFailed (firstFailed a.1 d.1) (firstFailed l.1 w.1)) (firstFailed pad meet)) room with
    | some x => (.error x.2, w.2.2)
    | none =>
      let s := w.2.2
      let raw := memRead s.mem (keyScratch c (rcSaddr card)) n
      let unitBits := if op = 0xCB || op = 0xCC then 2048 else 512
      (.ok { part := part, ticket := 0, op := if stand then 0xD4 else op, sub := sub, card := card, job := j,
             rank := (task.map Task.rank).getD 0, core := c, task := t, chans := chans,
             operand := (List.range (8 * n / unitBits)).map fun i => bitsOf raw (unitBits * i) unitBits,
             land := l.2.1, landFmt := recFmt (recOf (s.core c) (rcLrec card)), cw := w.2.1, xbits := (a.2.1.filter RangeLine.x).map RangeLine.offset,
             plain := plainOffsets a.2.1, plainDest := plainOffsets d.2.1,
             bad := if op = 0xCB then (List.range (rcLines card)).map fun i => (i, lineBad s (keyScratch c (rcSaddr card + 256 * i))) else [],
             standing := stand, anchor := if stand then (a.2.1.find? fun x => x.offset == rcAnchor card).map fun x => (x.chan, x.line) else none }, s)

/-- The ticket of a rider is taken and it is announced (R218 steps 5 and 6); a standing rider boards its first turn.
A kernel rider asks for power leave (R393). -/
def enterRider (s : State) (r : Rider) : Nat × State :=
  let t := takeTicket s r.part
  let key := riderKey r.part t.1
  let op := if r.op = 0xD4 then standKind r.sub else r.op
  let ask : Bool := r.kind == 0 && needsPipe op
  let first := { r with ticket := t.1, asked := ask }
  let s := if r.standing then
      let pkey := 2 ^ 80 + key
      (t.2.setRider pkey { first with standing := true }).setRider key { first with standing := false, parent := some pkey }
    else t.2.setRider key first
  let s := if ask then askLeave s (dieOfCore r.core) ⟨1, prioOf s r.job, r.core, r.task, 1, r.seq, some (if r.standing then 2 ^ 80 + key else key), 0⟩ else s
  (t.1, s)

/-- The issue token of a rider (R215). -/
def riderToken (seq ticket : Nat) : Token :=
  laneToken 0xF#16 fun l => if l = 0 then seq % 2 ^ 32 else if l = 1 then seq / 2 ^ 32 else if l = 2 then ticket % 2 ^ 32 else if l = 3 then ticket / 2 ^ 32 else 0

/-- The first boarding of a standing rider retires it from the chain with status 0 (R215). -/
def joinChain (task : Task) (op sub : Nat) (card : BitVec 512) (handler stand : Bool) : Task × Nat :=
  let task := appendCard task 1 { seq := 0, op := op, sub := sub, card := card, handler := handler, st := .started }
  let seq := (chainOf task 1).tail
  (if stand then retireCard task 1 ⟨seq, 0, 0, 0⟩ else task, seq)

/-- A boarding at an EP1 node (R218): checks, room, copies, ticket, chain and issue token. -/
def fireBoard (op sub : Nat) (stand : Bool) (w : EpW) (s : State) : Host.Outcome State Fault Refusal :=
  match foc? s with
  | none => .next s
  | some f =>
    let ports := withPred w.pm.toNat [0]
    match readyEp f ports with
    | none => .next s
    | some ops =>
      if actsNull w.pm.toNat ops then .next (epFired s f ports 0 (some nullToken))
      else match prepareRider s f.c f.t f.task.part op sub stand (tokAt ops 0).data with
        | (.error i, s) => .next (nodeFault s f i)
        | (.ok r, s') =>
          let chans := r.chans.map Prod.fst
          if !roomNow s' f.task.job chans (slotsTaken r) (pipesTaken r) then .next s
          else
            let jc := joinChain f.task op sub (tokAt ops 0).data f.ph.handler stand
            let e := enterRider (s'.setTask f.c f.t jc.1) { r with seq := jc.2, handler := f.ph.handler }
            .next (epFired e.2 f ports 0 (some (riderToken jc.2 e.1)))

/-! Alighting (R221, R224). -/

/-- Whether a rider is done on every channel. -/
def riderDone (r : Rider) : Bool :=
  r.chans.all fun e => e.2.gone || (e.2.admitted && e.2.todo.isEmpty && e.2.dest.isEmpty)

/-- The channel where a rider was done last, ties to the lowest, and the revolution of its last pass there (R228). -/
def lastChan (r : Rider) : Nat × Nat :=
  let e := r.chans.foldl (fun (b : Option (Nat × RiderChan)) e => match b with
    | none => some e
    | some x => if x.2.lastAt < e.2.lastAt then some e else b) none
  match e with
  | some e => (e.1, e.2.lastRev)
  | none => (0, 0)

/-- The slot a fold delivers at its alighting (R228): the partials of the channels in ascending number, a lane that got nothing at
its start value, one token for each producer. -/
def foldSlot (r : Rider) : Nat :=
  let xs := r.chans.foldl (fun acc e => if e.2.fold.isEmpty then acc else if acc.isEmpty then e.2.fold else foldInto r acc e.2.fold) []
  let n := r.chans.foldl (fun n e => n + e.2.folded) 0
  let l := lastChan r
  let w := r.chans.foldl (fun w e => max w ((e.2.kernel.map fun ph => (emitters ph.words).length).getD 0)) xs.length
  tokensSlot (tagBytes n l.1 (tokenMasks xs) (r.status.getLsbD 0) l.2) ((List.range w).map fun i => foldStarted r i (xs.getD i nullToken))

/-- FPSTAT of the issuing task takes a rider's status bits (R227, R233). -/
def orFlags (s : State) (j rank : Nat) (fl : Flags) : State := modTask s j rank fun t => { t with fpstat := t.fpstat ||| fl }

/-- A rider's completion reaches its chain, and a standing rider's end its waiters (R224, R215, R236). -/
def riderComplete (s : State) (r : Rider) : State :=
  let d : CardDone := ⟨r.seq, r.status, r.chmask, r.misses⟩
  if r.parent.isSome || r.kind = 3 then s
  else if r.standing then modTask s r.job r.rank fun t => { t with standEnds := { d with status := d.status ||| 0x14 } :: t.standEnds }
  else modTask s r.job r.rank fun t => retireCard t 1 d

/-- What an instance that alights adds to what its standing rider reports (R236): its status, its misses and its channels. -/
def addInstance (s : State) (pkey : Nat) (r : Rider) : State :=
  match s.rider? pkey with
  | none => s
  | some p => s.setRider pkey { p with status := p.status ||| r.status, misses := p.misses + r.misses, chmask := p.chmask ||| r.chmask }

/-- A standing rider ends once it is cancelled and its last instance has alighted, with STAND and CANCEL set (R235, R236). -/
def endStanding (s : State) (pkey : Nat) : State :=
  match s.rider? pkey with
  | none => s
  | some p =>
    if p.cancelled && s.riders.all fun e => e.2.parent != some pkey then
      let s := { s with riders := tabDel s.riders pkey }
      let s := if p.leave then returnLeave s (dieOfCore p.core) 1 else s
      riderComplete s p
    else s

/-- Whether the deliveries a rider owes are all made, with the state after draining its queues. -/
def drainAll (s : State) (key : Nat) (r : Rider) : State := r.chans.foldl (fun s e => drainRider s key e.1) s

/-- The end of a rider whose deliveries are made and whose word is counted: its status bits, its chain, its leave (R224, R227). -/
def finishRider (s : State) (key : Nat) (r : Rider) : State :=
  let s := orFlags { s with riders := tabDel s.riders key } r.job r.rank r.flags
  let r := if r.cancelled then { r with status := r.status ||| 4 } else r
  let s := riderComplete s r
  let s := if r.leave then returnLeave s (dieOfCore r.core) 1 else s
  match r.parent with
  | some pk => endStanding (addInstance s pk r) pk
  | none => s

/-- RIDER_ALIGHT of a rider boarded by a task: last deliveries, the completion word by a read and a later write, the chain (R224,
R322). -/
def alightRider (s : State) (key : Nat) (r0 : Rider) : State :=
  match r0.cwHeld with
  | some (w, old) => finishRider (cwWrite s w 3 old) key r0
  | none =>
    let s1 := if r0.cancelled then s else drainAll s key r0
    match s1.rider? key with
    | none => s
    | some r =>
      let op := if r.op = 0xD4 then standKind r.sub else r.op
      let fold : Bool := (op == 0xC9 || op == 0xCE) && !r.cancelled
      if !r.cancelled && r.chans.any (fun e => !e.2.queue.isEmpty) then s1
      else match (if fold then deliverSlot s1 r.core (rcCbn r.card) (foldSlot r) 0 else some s1), r.cw with
        | none, _ => s1
        | some s2, none => finishRider s2 key r
        | some s2, some w => match cwMove s2 w 3 with
          | .waits => s1
          | .read old s => s.setRider key { r with cwHeld := some (w, old) }
          | .written s => finishRider s key r

/-! Cancelling and waiting (R235, R236). -/

/-- The rider, or the standing rider, of a task by its sequence number. -/
def riderBySeq (s : State) (j rank seq : Nat) : Option (Nat × Rider) :=
  s.riders.find? fun e => e.2.job == j && e.2.rank == rank && e.2.seq == seq && e.2.kind == 0 && e.2.parent.isNone && !(e.2.op == 0xCD && e.2.sub == 1)

/-- Cancels a rider, or a standing rider with its turns (R235). -/
def cancelRider (s : State) (key : Nat) : State := cancelRiders s fun k r => k == key || r.parent == some key

/-- Whether a rider is over but for the move that says so: done on every channel, with nothing more to deliver (Table 11.14). -/
def nothingOwed (s : State) (key : Nat) (r : Rider) : Bool :=
  let op := if r.op = 0xD4 then standKind r.sub else r.op
  let s1 := drainAll s key r
  r.cwHeld.isSome || riderDone r && (s1.rider? key).any fun r => r.chans.all (fun e => e.2.queue.isEmpty) &&
    (!(op == 0xC9 || op == 0xCE) || (deliverSlot s1 r.core (rcCbn r.card) (foldSlot r) 0).isSome)

/-- `bcancel` (R235): a rider that has not alighted is cancelled. -/
def fireCancel (w : EpW) (s : State) : Host.Outcome State Fault Refusal :=
  match foc? s with
  | none => .next s
  | some f =>
    let ports := withPred w.pm.toNat [0]
    match readyEp f ports with
    | none => .next s
    | some ops =>
      if actsNull w.pm.toNat ops then .next (epFired s f ports 0 (some nullToken))
      else match riderBySeq s f.task.job f.task.rank (laneVal (tokAt ops 0) 0 8) with
        | some (key, r) =>
          if cancellable r.op && !r.cancelled && (r.standing || !nothingOwed s key r) then
            let s := cancelRider s key
            let s := if r.standing then endStanding s key else s
            .next (epFired s f ports 0 (some (oneLane 1)))
          else .next (epFired s f ports 0 (some (oneLane 0)))
        | none => .next (epFired s f ports 0 (some (oneLane 0)))

/-- What `bwait` finds of a sequence number: still going, or its completion. -/
def waitResult (s : State) (task : Task) (seq : Nat) : Option CardDone :=
  let ch := chainOf task 1
  if (riderBySeq s task.job task.rank seq).isSome || (ch.cards.any fun c => c.seq == seq) then none
  else match task.standEnds.find? fun d => d.seq == seq with
    | some d => some d
    | none => match ch.hist.find? fun d => d.seq == seq with
      | some d => some d
      | none => if seq = 0 then some ⟨0, 0, 0, 0⟩ else
          some ⟨seq, BitVec.ofNat 32 (Config.freeWord s.tick), BitVec.ofNat 384 (Config.freeWord (s.tick + 1)), Config.freeWord (s.tick + 2)⟩

/-- `bwait` (R236): it fires when the rider has completed, and is an acquire at system scope (R323). -/
def fireWait (w : EpW) (s : State) : Host.Outcome State Fault Refusal :=
  match foc? s with
  | none => .next s
  | some f =>
    let ports := withPred w.pm.toNat [0]
    match readyEp f ports with
    | none => .next s
    | some ops =>
      let seq := laneVal (tokAt ops 0) 0 8
      if actsNull w.pm.toNat ops then .next (epFired s f ports 0 (some nullToken))
      else if (chainOf f.task 1).tail < seq then .next (nodeFault s f { cls := 0x05 })
      else match waitResult s f.task seq with
        | none => .next s
        | some d => .next (epFired (acquireAt s f.c 5) f ports 0 (some (doneToken seq d.status.toNat d.misses d.chmask)))

/-- `cursor` (R237). -/
def fireCursor (w : EpW) (s : State) : Host.Outcome State Fault Refusal :=
  match foc? s with
  | none => .next s
  | some f =>
    let ports := withPred w.pm.toNat [0]
    match readyEp f ports with
    | none => .next s
    | some ops =>
      let n := (tokAt ops 0).lane 0
      let ch := s.chan n
      if actsNull w.pm.toNat ops then .next (epFired s f ports 0 (some nullToken))
      else if 384 ≤ n || ch.owner != f.task.part then .next (nodeFault s f { cls := 0x0E })
      else
        let v := [ch.cursor, ch.rev % 2 ^ 32, ch.rev / 2 ^ 32, ch.len, periodMax ch % 2 ^ 32, n]
        .next (epFired s f ports 0 (some (laneToken 0x3F#16 fun l => v.getD l 0)))

/-- `bcfg` (R238): the kernel is loaded and checked, and a ticket carries it to every channel of the partition. -/
def fireBcfg (w : EpW) (s : State) : Host.Outcome State Fault Refusal :=
  match foc? s with
  | none => .next s
  | some f =>
    let ports := withPred w.pm.toNat [0]
    match readyEp f ports with
    | none => .next s
    | some ops =>
      let x := tokAt ops 0
      let va := laneVal x 0 8 % 2 ^ 57
      if actsNull w.pm.toNat ops then .next (epFired s f ports 0 (some nullToken))
      else if laneVal x 0 8 / 2 ^ 57 != 0 || x.lane 2 / 16 != 0 || (x.data.extractLsb' 96 416 != 0) then .next (nodeFault s f { cls := 0x05 })
      else if va % 16 != 0 then .next (nodeFault s f { cls := 0x02, addr := va })
      else match loadImage true f.c f.task.part va s with
        | (.error i, s) => .next (nodeFault s f i)
        | (.ok (h, ws), s) =>
          let jc := joinChain f.task 0xD0 0 x.data f.ph.handler false
          let chans := ((List.range 384).filter fun c => (s.chan c).owner = f.task.part).map fun c => (c, ({} : RiderChan))
          let e := enterRider (s.setTask f.c f.t jc.1) {
            part := f.task.part, ticket := 0, op := 0xD0, sub := x.lane 2 % 16,
            job := f.task.job, rank := f.task.rank, core := f.c, task := f.t, seq := jc.2, chans := chans,
            operand := h.toNat :: ws.map BitVec.toNat }
          .next (epFired e.2 f ports 0 (some (riderToken jc.2 e.1)))

end Sys2Proof.Machine
end

