-- ==== Sys2Proof/Machine/Matrix.lean ====
section
/-! DEFINITION. Matrix cards (R193 to R209): fields and checks, the elements a card reaches through a record, latching,
streaming, draining and the accumulator store. -/

namespace Sys2Proof.Machine

/-! Fields (Table 10.3). -/

def mcDexp (r : BitVec 512) : Int := signedOf 8 (r.extractLsb' 0 8).toNat
def mcClra (r : BitVec 512) : Bool := r.getLsbD 8
def mcClr (r : BitVec 512) : Bool := r.getLsbD 9
def mcLatch (r : BitVec 512) : Bool := r.getLsbD 10
def mcSat (r : BitVec 512) : Bool := r.getLsbD 11
def mcRnd (r : BitVec 512) : Nat := (r.extractLsb' 12 2).toNat
def mcDrec (r : BitVec 512) : Nat := (r.extractLsb' 14 6).toNat
def mcArec (r : BitVec 512) : Nat := (r.extractLsb' 20 6).toNat
def mcWrec (r : BitVec 512) : Nat := (r.extractLsb' 26 6).toNat
def mcWn0 (r : BitVec 512) : Nat := (r.extractLsb' 32 16).toNat
def mcWk0 (r : BitVec 512) : Nat := (r.extractLsb' 48 16).toNat
def mcAk0 (r : BitVec 512) : Nat := (r.extractLsb' 64 16).toNat
def mcAm0 (r : BitVec 512) : Nat := (r.extractLsb' 80 16).toNat
def mcN (r : BitVec 512) : Nat := (r.extractLsb' 99 6).toNat + 1
def mcK (r : BitVec 512) : Nat := (r.extractLsb' 105 7).toNat + 1
def mcM (r : BitVec 512) : Nat := (r.extractLsb' 112 16).toNat + 1
def mcCnt (r : BitVec 512) : Nat := (r.extractLsb' 128 12).toNat + 1
def mcAstr (r : BitVec 512) : Nat := (r.extractLsb' 140 8).toNat + 1
def mcAcc (r : BitVec 512) : Nat := (r.extractLsb' 148 12).toNat
def mcDn0 (r : BitVec 512) : Nat := (r.extractLsb' 160 16).toNat
def mcDm0 (r : BitVec 512) : Nat := (r.extractLsb' 176 16).toNat
def mcPw (r : BitVec 512) : Nat := (r.extractLsb' 196 4).toNat
def mcPh (r : BitVec 512) : Nat := (r.extractLsb' 200 4).toNat
def mcDw (r : BitVec 512) : Nat := (r.extractLsb' 204 3).toNat + 1
def mcDh (r : BitVec 512) : Nat := (r.extractLsb' 207 3).toNat + 1
def mcSw (r : BitVec 512) : Nat := (r.extractLsb' 210 3).toNat + 1
def mcSh (r : BitVec 512) : Nat := (r.extractLsb' 213 3).toNat + 1
def mcKw (r : BitVec 512) : Nat := (r.extractLsb' 216 4).toNat + 1
def mcKh (r : BitVec 512) : Nat := (r.extractLsb' 220 4).toNat + 1
def mcMs (r : BitVec 512) : Nat := (r.extractLsb' 224 16).toNat
def mcOw (r : BitVec 512) : Nat := (r.extractLsb' 240 16).toNat

/-- A run of card bits. -/
def fieldMask (lo len : Nat) : Nat := (2 ^ len - 1) * 2 ^ lo

/-- The bits that an instruction uses (Table 10.4), the footprint apart. -/
def matrixMask (op sub : Nat) (card : BitVec 512) : Nat :=
  let f := fieldMask
  let latch := f 26 6 + f 32 16 + f 48 16
  let stream := f 20 6 + f 10 1 + f 9 1 + f 64 16 + f 80 16 + f 112 16 + f 105 7 + f 99 6 + f 148 12 + f 140 8 + (if mcLatch card then latch else 0)
  match op with
  | 0xB8 => latch + f 105 7 + f 99 6
  | 0xB9 => stream
  | 0xC0 => stream + f 196 28 + f 240 16
  | 0xBA => f 14 6 + f 12 2 + f 11 1 + f 8 1 + f 0 8 + f 112 16 + f 99 6 + f 148 12 + f 140 8 + f 160 32
  | 0xBB => f 148 12 + f 128 12
  | 0xBC => f 148 12 + f 140 8 + f 128 12
  | 0xBF => f 26 6 + f 20 6 + f 14 6 + f 12 2 + f 11 1 + f 0 8 + f 112 16 + f 64 32 + f 160 32 + (if 2 ≤ sub then f 224 16 else 0)
  | 0xCD => f 26 6 + f 20 6 + f 14 6 + f 12 2 + f 11 1 + f 0 8 + f 112 16 + f 64 32 + f 160 32
  | _ => f 14 6 + f 148 12 + f 128 12 + f 160 32

/-! Footprints (R290 to R292). -/

structure Region where
  tid : Nat
  mode : Nat
  first : Nat
  count : Nat
  deriving DecidableEq, Repr, Inhabited

def regionOf (x : Nat) : Region := ⟨bitsOf x 48 16, bitsOf x 46 2, bitsOf x 23 23, bitsOf x 0 23 + 1⟩

/-- The four regions of a card. -/
def footprint (card : BitVec 512) : List Region := (List.range 4).map fun k => regionOf (card.extractLsb' (256 + 64 * k) 64).toNat

/-- An unused region has every other field zero (R290). -/
def footprintOk (card : BitVec 512) : Bool :=
  (List.range 4).all fun k => let x := (card.extractLsb' (256 + 64 * k) 64).toNat
    bitsOf x 46 2 != 0 || x == 0

def Region.has (r : Region) (tile : Nat) : Bool := (tile + 2 ^ 23 - r.first) % 2 ^ 23 < r.count

/-- Whether a touch of a tile falls in a region of its mode (R292). -/
def inFootprint (card : BitVec 512) (tid tile : Nat) (write : Bool) : Bool :=
  (footprint card).any fun r => r.tid == tid && (if write then 2 ≤ r.mode else r.mode % 2 == 1) && r.has tile

/-- Whether two regions share a tile and one writes (R291). -/
def regionsMeet (a b : Region) : Bool :=
  a.mode != 0 && b.mode != 0 && a.tid == b.tid && (2 ≤ a.mode || 2 ≤ b.mode) && (a.has b.first || b.has a.first)

/-! Elements of a record (R196). -/

/-- Whole bytes, or whole hx4 blocks, that hold c elements. -/
def spanBytes (fmt c : Nat) : Nat := if fmt = 6 then (c + 31) / 32 * 18 else (c * typeWidth fmt + 7) / 8

def activationType (t : Nat) : Bool := 1 ≤ t && t ≤ 7
def weightType (t : Nat) : Bool := 1 ≤ t && t ≤ 7

/-- The largest K of a weight type (Table 10.5). -/
def kMax (t : Nat) : Nat := if t = 1 || t = 2 then 64 else 128

/-- An element's stored form: its pattern, with SCALE and EXTRA of its block above it for hx4. -/
def storedVal (fmt x : Nat) : Val :=
  if fmt = 6 then decodeHx4 (x % 16) (x / 16 % 256) (x / 4096) else decodeElem fmt x

/-- Whether a coordinate lies beyond its extent. -/
def beyond (r : BitVec 512) (c0 c1 : Nat) : Bool := recExt r 0 ≤ wrapCoord r 0 c0 || recExt r 1 ≤ wrapCoord r 1 c1

/-- ElementAddress (R196). -/
def elemAddress (r : BitVec 512) (c0 c1 : Nat) : Nat :=
  wrapTo 57 ((recBase r : Int) + packedBytes (recFmt r) (wrapCoord r 0 c0) + (wrapCoord r 1 c1 : Nat) * recStride r 1)

/-- The tile of an element in the space of its tensor (R290). -/
def tileOf (r : BitVec 512) (c0 c1 : Nat) : Nat :=
  wrapCoord r 1 c1 / 2 ^ recTilec r * ((recExt r 0 + 2 ^ recTiler r - 1) / 2 ^ recTiler r) + wrapCoord r 0 c0 / 2 ^ recTiler r

/-- The tiles that an access of n bytes and k elements touches (R290): of its bytes for TID 0, else of its elements. -/
def tilesOf (r : BitVec 512) (c0 c1 k va n : Nat) : List Nat :=
  if recTid r = 0 then [bitsOf va 8 23, bitsOf (va + n - 1) 8 23] else (List.range k).map fun i => tileOf r (c0 + i) c1

/-- Whether an access falls in the regions of its mode with every tile it touches (R292). -/
def touchOk (card r : BitVec 512) (c0 c1 k va n : Nat) (write : Bool) : Bool :=
  (tilesOf r c0 c1 k va n).all fun t => inFootprint card (recTid r) t write

/-- The bytes that the elements of a record span, from the lowest to beyond the highest. -/
def recSpan (r : BitVec 512) : Int × Int :=
  let span := fun d => let n := if recWrap r d = 0 then recExt r d else min (recExt r d) (2 ^ recWrap r d)
    ((n : Int) - 1) * recStride r d
  let ds := (List.range (recNdim r)).tail
  let lo := ds.foldl (fun a d => a + min 0 (span d)) (recBase r : Int)
  let hi := ds.foldl (fun a d => a + max 0 (span d)) ((recBase r : Int) + spanBytes (recFmt r) (recExt r 0))
  (lo, hi)

/-- Whether a record lies wholly in the scratchpad window (R196, R201). -/
def recInWindow (r : BitVec 512) : Bool := 0 ≤ (recSpan r).1 && (recSpan r).2 ≤ 0x180000

/-! Host memory (R330). -/

/-- Whether a card may read runs now: of host memory once every earlier posted write has been performed. -/
def readsOpen (s : State) (ks : List MemRun) : Bool := ks.all fun k => hostReady s k.key k.len

/-- Whether a card may write runs now: in host memory after the earlier posted writes that carry no Relaxed Ordering. -/
def writesOpen (s : State) (ks : List MemRun) : Bool := ks.all fun k => !isHost k.key || s.hostLink.all HostWrite.ro

/-- What keeps a card from runs on other packages: no path to one (R408), or its refusal (R404). -/
def remoteMiss (s : State) (ks : List MemRun) : Option Nat := ks.findSome? fun k => remoteFault s k.key

/-- Bytes that hold one element: its block's for hx4. -/
def elemBytes (fmt : Nat) : Nat := if fmt = 6 then 18 else (typeWidth fmt + 7) / 8

/-- Reads one stored element at the address of R196 (its block's for hx4), c0 being its dimension-0 coordinate; a touch outside the footprint faults after
the checks of Table 8.11 and before the data is read. -/
def readStored (c part fmt c0 va : Nat) (foot : Bool) (s : State) : Except FaultInfo Nat × State :=
  match runKeys c part needRead va (elemBytes fmt) s with
  | (.error f, s) => (.error f, s)
  | (.ok ks, s) =>
    if !foot then (.error { cls := 0x0D, addr := va }, s)
    else match remoteMiss s ks with
    | some cls => (.error { cls := cls, addr := va }, s)
    | none =>
      let s := checkKeys (podSendRuns s ks) ks
      if !readsOpen s ks then (.error notYet, s)
      else if keysPoisoned s ks then (.error { cls := 0x09, addr := va }, s)
      else
        let x := readKeys s ks
        (.ok (if fmt = 6 then bitsOf x (4 * (c0 % 32)) 4 + 16 * bitsOf x 128 8 + 4096 * bitsOf x 136 8
          else if typeWidth fmt = 4 then bitsOf x (4 * (c0 % 2)) 4 else x), s)

/-- One element of a record at (c0, c1), +0 beyond the extent (R196). -/
def readElem (c part : Nat) (card : Option (BitVec 512)) (r : BitVec 512) (c0 c1 : Nat) (s : State) : Except FaultInfo Nat × State :=
  if beyond r c0 c1 then (.ok 0, s)
  else
    let va := elemAddress r c0 c1
    let foot : Bool := card.all fun k => touchOk k r c0 c1 1 va (elemBytes (recFmt r)) false
    readStored c part (recFmt r) (wrapCoord r 0 c0) va foot s

/-- Elements at a list of coordinates, up to the first fault. -/
def readElems (c part : Nat) (card : Option (BitVec 512)) (r : BitVec 512) : List (Nat × Nat) → State → Except FaultInfo (List Nat) × State
  | [], s => (.ok [], s)
  | x :: xs, s => match readElem c part card r x.1 x.2 s with
    | (.error f, s) => (.error f, s)
    | (.ok v, s) => match readElems c part card r xs s with
      | (.error f, s) => (.error f, s)
      | (.ok vs, s) => (.ok (v :: vs), s)

/-- The runs of a write of `n` bytes at (c0, c1): none beyond the extent; alignment, translation and footprint (R196, R292). -/
def writeRuns (c part : Nat) (card : Option (BitVec 512)) (r : BitVec 512) (c0 c1 n : Nat) (s : State) : Except FaultInfo (List MemRun) × State :=
  if beyond r c0 c1 then (.ok [], s)
  else
    let va := elemAddress r c0 c1
    let w0 := wrapCoord r 0 c0
    if (recFmt r = 6 && w0 % 32 != 0) || (recFmt r != 6 && va % ((typeWidth (recFmt r) + 7) / 8) != 0) then (.error { cls := 0x02, acc := 1, addr := va }, s)
    else match runKeys c part needWrite va n s with
      | (.error f, s) => (.error f, s)
      | (.ok ks, s) =>
        if !(card.all fun k => touchOk k r c0 c1 (if recFmt r = 6 then 32 else 1) va n true) then (.error { cls := 0x0D, acc := 1, addr := va }, s)
        else match remoteMiss s ks with
        | some cls => (.error { cls := cls, acc := 1, addr := va }, s)
        | none => if !writesOpen s ks then (.error notYet, s) else (.ok ks, s)

/-- A write to be made: its runs, its bytes, and for e2m1 which half of the byte. -/
structure Put where
  keys : List MemRun
  x : Nat
  half : Option Nat
  poison : Bool
  deriving DecidableEq, Repr, Inhabited

/-- Makes a write, with the requests of its runs on other packages (R407); a half byte keeps the other half. -/
def doPut (s : State) (p : Put) : State :=
  let s := podSendRuns s p.keys
  match p.half with
  | none => writeKeys s p.keys p.x p.poison
  | some h =>
    let old := readKeys s p.keys
    writeKeys s p.keys (if h = 0 then old / 16 * 16 + p.x % 16 else old % 16 + 16 * (p.x % 16)) p.poison

/-- Resolves a list of (c0, c1, bytes, value) writes, up to the first fault. -/
def resolvePuts (c part : Nat) (card : Option (BitVec 512)) (r : BitVec 512) (poison : Bool) : List (Nat × Nat × Nat × Nat) → State → Except FaultInfo (List Put) × State
  | [], s => (.ok [], s)
  | x :: xs, s => match writeRuns c part card r x.1 x.2.1 x.2.2.1 s with
    | (.error f, s) => (.error f, s)
    | (.ok ks, s) => match resolvePuts c part card r poison xs s with
      | (.error f, s) => (.error f, s)
      | (.ok ps, s) => (.ok (⟨ks, x.2.2.2, if typeWidth (recFmt r) = 4 && recFmt r != 6 then some (wrapCoord r 0 x.1 % 2) else none, poison⟩ :: ps), s)

/-! The accumulator store (R197). -/

def accRow (s : State) (c : Nat) (task : Task) (row : Nat) : BitVec 512 := tabGet 0 (s.core c).acc (task.acc.getD row 0)

def setAccRow (s : State) (c : Nat) (task : Task) (row : Nat) (v : BitVec 512) : State :=
  s.setCore c { s.core c with acc := tabSet 0 (s.core c).acc (task.acc.getD row 0) v }

def accElem (v : BitVec 512) (e : Nat) : Nat := (v.extractLsb' (32 * e) 32).toNat

/-- A row with elements replaced. -/
def rowWith (v : BitVec 512) (f : Nat → Option Nat) : BitVec 512 :=
  BitVec.ofNat 512 (packElems 32 ((List.range 16).map fun e => (f e).getD (accElem v e)))

/-- The rows of output m hold N columns, and every row lies in the allotment (R197). -/
def rowsFit (task : Task) (acc astr m n : Nat) : Bool := (n + 15) / 16 ≤ astr && acc + (m - 1) * astr + (n + 15) / 16 ≤ task.acc.length

/-! Passes (R105, R106, R200). -/

def isZeroVal : Val → Bool
  | .fin _ m _ => m == 0
  | _ => false

/-- One output element: the products of a row of activations and a column of weights added in ascending k. -/
def accumulate (a : Nat) (xs : List (Val × Val)) : Nat :=
  xs.foldl (fun a p => if isZeroVal p.2 then a
    else (roundFloat 0 0 false (addVal 0 (decodeFloat 0 a) (mulVal p.1 p.2).1).1).bits) a

/-- The coordinates or address of activation k of row m of `munfold` (R201): none for padding. -/
def unfoldAt (card r : BitVec 512) (k m : Nat) : Option (Nat × Int × Int) :=
  let p := mcAm0 card + m
  let oy := p / mcOw card
  let ox := p % mcOw card
  let q := mcAk0 card + k
  let c := q % recExt r 0
  let t := q / recExt r 0
  let kx := t % mcKw card
  let ky := t / mcKw card
  let x : Int := (ox * mcSw card + kx * mcDw card : Nat) - (mcPw card : Int)
  let y : Int := (oy * mcSh card + ky * mcDh card : Nat) - (mcPh card : Int)
  if mcKh card ≤ ky || x < 0 || (recExt r 1 : Int) ≤ x || y < 0 || (recExt r 2 : Int) ≤ y then none else some (c, x, y)

/-- Activations of row m by `munfold`, from a record in the scratchpad window (R201), each coordinate under the wrap of its dimension
(R196). -/
def readUnfold (c part : Nat) (card r : BitVec 512) (m : Nat) : Nat → State → Except FaultInfo (List Nat) × State
  | 0, s => (.ok [], s)
  | n + 1, s => match readUnfold c part card r m n s with
    | (.error f, s) => (.error f, s)
    | (.ok vs, s) => match unfoldAt card r n m with
      | none => (.ok (vs ++ [0]), s)
      | some (ch, x, y) =>
        let va := wrapTo 57 ((recBase r : Int) + coordBytes r 0 ch + coordBytes r 1 x.toNat + coordBytes r 2 y.toNat)
        match readStored c part (recFmt r) (wrapCoord r 0 ch) va (touchOk card r ch x.toNat 1 va (elemBytes (recFmt r)) false) s with
        | (.error f, s) => (.error f, s)
        | (.ok v, s) => (.ok (vs ++ [v]), s)

/-! Rows of work. Each answers the state and card after one row, or the fault with its generator and row. -/

/-- A fault of a generator (R207). Of a fault that the card meets as it reaches the array (R197, R198) the spec names no generator:
it is recorded of generator 0, at the output row (DESIGN CHOICE, log entry 109). -/
structure CardFault where
  info : FaultInfo
  gen : Nat
  iter : Nat

abbrev RowOut := Except CardFault Card × State

def rowErr (i : FaultInfo) (gen iter : Nat) (s : State) : RowOut := (.error ⟨i, gen, iter⟩, s)

/-- The record a card reads at its start (R312). -/
def cardRec (core : Core) (card : Card) (n : Nat) : BitVec 512 := ((card.recs.find? fun e => e.1 == n).map Prod.snd).getD (recOf core n)

/-- Weight row k of a latch (R199). -/
def latchRow (c part : Nat) (foot : Option (BitVec 512)) (r : BitVec 512) (fmtOk : Bool) (src : BitVec 512) (k : Nat) (s : State) : Except CardFault (List Nat) × State :=
  if !fmtOk then (.error ⟨{ cls := 0x02, addr := recBase r }, 0, k⟩, s)
  else match readElems c part foot r ((List.range (mcN src)).map fun j => (mcWn0 src + j, mcWk0 src + k)) s with
    | (.error f, s) => (.error ⟨f, 0, k⟩, s)
    | (.ok vs, s) => (.ok vs, s)

/-- The latch phase of a card, row by row; the last row makes the task's latched tile (R199, R200). -/
def latchStep (c t : Nat) (task : Task) (card : Card) (s : State) : RowOut :=
  let r := cardRec (s.core c) card (mcWrec card.card)
  let k := card.tile.length
  let ok : Bool := if card.op = 0xB8 then recFmt r == card.ty else weightType (recFmt r)
  match latchRow c task.part (some card.card) r ok card.card k s with
  | (.error e, s) => (.error e, s)
  | (.ok vs, s) =>
    let tile := card.tile ++ [vs]
    if tile.length < mcK card.card then (.ok { card with tile := tile }, s)
    else
      let lt : Latched := { valid := true, ty := recFmt r, rows := mcK card.card, cols := mcN card.card, elems := tile, card := card.card, lrec := r }
      let s := match s.task? c t with
        | some task => s.setTask c t { task with latched := lt }
        | none => s
      (.ok { card with tile := tile, prog := if card.op = 0xB8 then 1 else card.prog }, s)

/-- The latch of the task's tile again after a resume, by generator 0 (R208); it serves as the card's own latch where that
was the tile's. -/
def relatchStep (c t : Nat) (task : Task) (card : Card) (s : State) : RowOut :=
  let lt := task.latched
  let r := cardRec (s.core c) card (mcWrec card.card)
  let k := card.tile.length
  match latchRow c task.part none lt.lrec true lt.card k s with
  | (.error e, s) => (.error e, s)
  | (.ok vs, s) =>
    let tile := card.tile ++ [vs]
    if tile.length < lt.rows then (.ok { card with tile := tile }, s)
    else
      let s := match s.task? c t with
        | some task => s.setTask c t { task with latched := { lt with elems := tile } }
        | none => s
      let own : Bool := mcLatch card.card && lt.card == card.card && lt.lrec == r
      (.ok { card with tile := if own then tile else [], relatch := false }, s)

/-- Output row m of a stream (R200, R201). -/
def streamRow (c : Nat) (task : Task) (card : Card) (s : State) : RowOut :=
  let x := card.card
  let m := card.prog
  let r := cardRec (s.core c) card (mcArec x)
  let lt := task.latched
  if !lt.valid || lt.rows < mcK x || lt.cols < mcN x then rowErr { cls := 0x05 } 0 m s
  else if !rowsFit task (mcAcc x) (mcAstr x) (mcM x) (mcN x) then rowErr { cls := 0x0D } 0 m s
  else if recFmt r != card.ty || (card.op == 0xC0 && recNdim r != 3) then rowErr { cls := 0x02, addr := recBase r } 1 m s
  else if card.op == 0xC0 && !recInWindow r then rowErr { cls := 0x03, addr := recBase r } 1 m s
  else
    let acts := if card.op = 0xC0 then readUnfold c task.part x r m (mcK x) s
      else readElems c task.part (some x) r ((List.range (mcK x)).map fun k => (mcAk0 x + k, mcAm0 x + m)) s
    match acts with
    | (.error f, s) => rowErr f 1 m s
    | (.ok vs, s) =>
      let av := vs.map (storedVal (recFmt r))
      let out := fun (j a : Nat) => accumulate a (((List.range (mcK x)).map fun k => storedVal lt.ty ((lt.elems.getD k []).getD j 0)).zip av)
      let s := (List.range ((mcN x + 15) / 16)).foldl (fun s g =>
        let row := mcAcc x + m * mcAstr x + g
        let old := accRow s c task row
        setAccRow s c task row (rowWith old fun e => let j := 16 * g + e
          if j < mcN x then some (out j (if mcClr x then 0 else accElem old e)) else none)) s
      (.ok { card with prog := m + 1 }, s)

/-- v × 2^DEXP rounded into a drain type with its status (R202). -/
def drainElem (ty rnd : Nat) (sat : Bool) (dexp : Int) (v : Nat) : Nat × Flags :=
  let x := scaleVal dexp (decodeFloat 0 v)
  let r := if isInt ty then roundInt ty rnd x else roundFloat ty rnd sat x
  (r.bits, r.flags)

/-- The writes of a drained row: (c0, c1, bytes, value), and the status raised, that of skipped columns apart (R202: status is
set for the elements written, and R196 writes none beyond the extent). An hx4 block that starts inside the extent is written whole (DESIGN
CHOICE, log entry 128). -/
def drainRowPuts (skip : Nat → Bool) (ty rnd : Nat) (sat : Bool) (dexp : Int) (c0 c1 : Nat) (vs : List Nat) : List (Nat × Nat × Nat × Nat) × Flags :=
  if ty = 6 then
    (List.range (vs.length / 32)).foldl (fun acc b =>
      let xs := ((vs.drop (32 * b)).take 32).map fun v => scaleVal dexp (decodeFloat 0 v)
      let blk := packBlock rnd sat xs
      (acc.1 ++ [(c0 + 32 * b, c1, 18, packElems 4 blk.codes + blk.scale * 2 ^ 128 + blk.extra * 2 ^ 136)],
        if skip (c0 + 32 * b) then acc.2 else acc.2 ||| packStatus sat xs blk)) ([], 0)
  else
    ((List.range vs.length).map fun j => (c0 + j, c1, (typeWidth ty + 7) / 8, (drainElem ty rnd sat dexp (vs.getD j 0)).1),
     (List.range vs.length).foldl (fun fl j => if skip (c0 + j) then fl else fl ||| (drainElem ty rnd sat dexp (vs.getD j 0)).2) 0)

def noteWrites (card : Card) (ps : List Put) : Card := { card with wrote := (ps.flatMap Put.keys).map (fun k => (k.key, k.len)) ++ card.wrote }

/-- Output row m of a drain (R202). -/
def drainRow (c t : Nat) (task : Task) (card : Card) (s : State) : RowOut :=
  let x := card.card
  let m := card.prog
  let r := cardRec (s.core c) card (mcDrec x)
  if !rowsFit task (mcAcc x) (mcAstr x) (mcM x) (if mcClra x then max (mcN x) (16 * mcAstr x) else mcN x) then rowErr { cls := 0x0D } 0 m s
  else if recFmt r != card.ty then rowErr { cls := 0x02, addr := recBase r } 2 m s
  else
    let vs := (List.range (mcN x)).map fun j => accElem (accRow s c task (mcAcc x + m * mcAstr x + j / 16)) (j % 16)
    let d := drainRowPuts (fun c0 => beyond r c0 (mcDm0 x + m)) card.ty (mcRnd x) (mcSat x) (mcDexp x) (mcDn0 x) (mcDm0 x + m) vs
    match resolvePuts c task.part (some x) r false d.1 s with
    | (.error f, s) => rowErr f 2 m s
    | (.ok ps, s) =>
      if trapsOn task.fpen d.2 then rowErr { cls := 0x0C, detail := (task.fpen &&& d.2).toNat } 2 m (raiseFlags s c t d.2)
      else
        let s := ps.foldl doPut (raiseFlags s c t d.2)
        let s := if mcClra x then (List.range (mcAstr x)).foldl (fun s g => setAccRow s c task (mcAcc x + m * mcAstr x + g) 0) s else s
        (.ok { noteWrites card ps with prog := m + 1 }, s)

/-- The exponent of `accscale`: a lane truncated toward zero and clamped to ±1,100, none for a NaN (R203). -/
def scaleExp (x : Nat) : Option Int :=
  match decodeFloat 0 x with
  | .nan _ _ => none
  | .inf neg => some (if neg then -1100 else 1100)
  | .fin _ _ _ => some (max (-1100) (min 1100 (refInt x)))

/-- Row ACC + i of the accumulator-store instructions (Table 10.6). -/
def accStoreRow (c : Nat) (task : Task) (card : Card) (s : State) : RowOut :=
  let x := card.card
  let i := card.prog
  let row := mcAcc x + i
  let old := accRow s c task row
  let r := cardRec (s.core c) card (mcDrec x)
  let done := { card with prog := i + 1 }
  if task.acc.length < mcAcc x + mcCnt x then rowErr { cls := 0x0D } 0 i s
  else match card.op with
    | 0xBB => (.ok done, setAccRow s c task row 0)
    | 0xBC =>
      let l := i / mcAstr x
      let e := if maskBit card.arg.mask l then scaleExp (card.arg.lane l) else none
      match e with
      | none => (.ok done, s)
      | some e => (.ok done, setAccRow s c task row (rowWith old fun k => some (scalePow2 (accElem old k) e)))
    | 0xBD =>
      if recFmt r != card.ty then rowErr { cls := 0x02, addr := recBase r } 1 i s
      else match readElems c task.part (some x) r ((List.range 16).map fun l => (mcDn0 x + l, mcDm0 x + i)) s with
        | (.error f, s) => rowErr f 1 i s
        | (.ok vs, s) => (.ok done, setAccRow s c task row (rowWith 0 fun l =>
            let v := vs.getD l 0
            some (if card.ty = 0 then v else v * 2 ^ 16)))
    | _ =>
      if recFmt r != card.ty then rowErr { cls := 0x02, addr := recBase r } 2 i s
      else
        let val := fun l => if card.ty = 0 then accElem old l else (roundFloat 1 0 false (decodeFloat 0 (accElem old l))).bits
        match resolvePuts c task.part (some x) r false ((List.range 16).map fun l => (mcDn0 x + l, mcDm0 x + i, typeWidth card.ty / 8, val l)) s with
        | (.error f, s) => rowErr f 2 i s
        | (.ok ps, s) => (.ok { noteWrites card ps with prog := i + 1 }, ps.foldl doPut s)

/-! Checks at the append (R194, R209). -/

def matrixCheck (s : State) (c op sub ty : Nat) (card : BitVec 512) : Option FaultInfo :=
  let w := recFmt (recOf (s.core c) (mcWrec card))
  let latches : Bool := op == 0xB8 || ((op == 0xB9 || op == 0xC0) && mcLatch card)
  let wt := if op = 0xB8 then ty else w
  if card.toNat % 2 ^ 256 &&& (2 ^ 256 - 1 - matrixMask op sub card) != 0 || !footprintOk card ||
      (latches && kMax wt < mcK card) || (op == 0xC0 && mcOw card == 0) ||
      (op == 0xBA && ty == 6 && mcN card % 32 != 0) || (op == 0xBC && 15 < (mcCnt card - 1) / mcAstr card) ||
      (op == 0xBF && 2 ≤ sub && mcM card < mcMs card) then some { cls := 0x05 }
  else none

end Sys2Proof.Machine
end

