-- ==== Sys2Proof/Machine/Cards.lean ====
section
/-! DEFINITION. Cards of EP0: appending (R194), edges and start (R291, R327), rows, completion (R293), faults withheld
and taken (R207), and the two halves of `mxv` (R205, R206, R233). -/

namespace Sys2Proof.Machine

/-! Edges (R291). -/

/-- The records a card reads and writes through; `unit` of a tile task is one more than its DREC. -/
def cardUses (k : Card) : List Nat × List Nat :=
  let card := k.card
  match k.op with
  | 0xB8 => ([mcWrec card], [])
  | 0xB9 => (mcArec card :: (if mcLatch card then [mcWrec card] else []), if k.unit = 0 then [] else [k.unit - 1])
  | 0xC0 => (mcArec card :: (if mcLatch card then [mcWrec card] else []), [])
  | 0xBA => ([], [mcDrec card])
  | 0xBD => ([mcDrec card], [])
  | 0xBE => ([], [mcDrec card])
  | 0xBF => ([mcWrec card, mcArec card], [mcDrec card])
  | 0xBB => ([], [])
  | 0xBC => ([], [])
  | _ => ([(card.extractLsb' 0 6).toNat], if k.op = 0xD8 && card.getLsbD 6 then [] else [(card.extractLsb' 185 6).toNat])

/-- A card's region with whether it is a window region. -/
def windowRegion (core : Core) (card : Card) (r : Region) : Bool :=
  let u := cardUses card
  let inW := fun (l : List Nat) => l.all fun n => recInWindow (cardRec core card n)
  r.tid == 0 && r.first + r.count ≤ 0x1800 && (r.mode % 2 == 0 || inW u.1) && (r.mode < 2 || inW u.2)

/-- Whether two cards conflict, each with its core. -/
def cardsMeet (s : State) (c1 : Nat) (k1 : Card) (c2 : Nat) (k2 : Card) : Bool :=
  (footprint k1.card).any fun a => (footprint k2.card).any fun b =>
    regionsMeet a b && (a.tid != 0 || c1 == c2 || !(windowRegion (s.core c1) k1 a || windowRegion (s.core c2) k2 b))

/-- The cards of a partition in the chains of EP0 and EP2, with their cores, not yet complete. -/
def partCards (s : State) (part : Nat) : List (Nat × Card) :=
  s.cores.flatMap fun e => e.2.tasks.flatMap fun x =>
    if x.2.part = part then ((chainOf x.2 0).cards ++ (chainOf x.2 2).cards).map fun k => (e.1, k) else []

/-- A tile task as a card of the lowest core of its quad (log entry 10). -/
def tileCard (tt : TileTask) : Card :=
  { seq := 0, op := 0xB9, sub := 0, card := tt.record.extractLsb' 0 512, order := tt.order, unit := (tt.record.extractLsb' 538 6).toNat + 1 }

/-- Tile tasks in progress in the quads of a partition. -/
def tileCards (s : State) (part : Nat) : List (Nat × Card) :=
  (s.partn part).quads.flatMap fun q => (s.quad q).ttasks.map fun tt => (4 * q, tileCard tt)

/-- Whether every conflicting card earlier in card order has completed. -/
def edgesClear (s : State) (c part : Nat) (k : Card) : Bool :=
  (partCards s part ++ tileCards s part).all fun e => k.order ≤ e.2.order || !cardsMeet s c k e.1 e.2

/-- Whether every store and atomic of the task issued before the append has drained (R327). -/
def storesDrained (s : State) (c t stamp : Nat) : Bool := earlierDone s c t 5 true (fun n _ => n < stamp) && kvDone s c t 5 true (· < stamp)

/-- The number of rows a card of EP0 works through. -/
def cardRows (k : Card) : Nat :=
  match k.op with
  | 0xB8 => 1
  | 0xB9 => mcM k.card
  | 0xC0 => mcM k.card
  | 0xBA => mcM k.card
  | 0xBF => mcM k.card
  | _ => mcCnt k.card

/-- A card of EP0 may start when the cards before it in its chain have done their rows: only a bank half may remain. -/
def chainTurn (task : Task) (k : Card) : Bool :=
  (chainOf task 0).cards.all fun e => k.seq ≤ e.seq || (e.op == 0xBF && e.st == .started && cardRows e ≤ e.prog)

/-- Whether a card of EP0 waits for power leave: it uses the array (R204). -/
def usesArray (k : Card) : Bool := k.op == 0xB8 || k.op == 0xB9 || k.op == 0xC0 || (k.op == 0xBF && k.bank < mcM k.card)

/-! Weight lines of `mxv` and `bmac` (R205, R233). -/

/-- The lines that hold the elements of a record of two dimensions, as addresses over 256, each once. -/
def weightLines (r : BitVec 512) : List Nat :=
  (List.range (recExt r 1)).foldl (fun acc k =>
    let a := elemAddress r 0 k
    let n := spanBytes (recFmt r) (recExt r 0)
    (List.range ((a + n - 1) / 256 + 1 - a / 256)).foldl (fun acc i => if acc.contains (a / 256 + i) then acc else acc ++ [a / 256 + i]) acc) []

/-- Whether a card's regions let it read weight row k of a record (R292). -/
def weightTouchOk (card r : BitVec 512) (k : Nat) : Bool :=
  let a := elemAddress r 0 k
  if recTid r = 0 then (List.range ((a + spanBytes (recFmt r) (recExt r 0) - 1) / 256 + 1 - a / 256)).all fun i => inFootprint card 0 ((a / 256 + i) % 2 ^ 23) false
  else touchOk card r 0 k (recExt r 0) 0 0 false

/-- The first weight row that a card's regions do not let it read, with its address (R207, R292). -/
def weightMiss (card r : BitVec 512) : Option (Nat × Nat) :=
  ((List.range (recExt r 1)).find? fun k => !weightTouchOk card r k).map fun k => (k, elemAddress r 0 k)

/-- The lowest k row of a weight record that meets a line (R207). -/
def weightRow (r : BitVec 512) (line : Nat) : Nat :=
  ((List.range (recExt r 1)).find? fun k =>
    let a := elemAddress r 0 k
    a / 256 ≤ line && line ≤ (a + spanBytes (recFmt r) (recExt r 0) - 1) / 256).getD 0

/-- The lines of a list of line addresses on the sweep, offsets counted along the list, or the first failed check. -/
def listLines (quad part : Nat) (nd : Need) : List (Nat × Nat) → State → Failed × List RangeLine × State
  | [], s => (none, [], s)
  | (i, l) :: rest, s =>
    match lookupNoFill s quad part (256 * l) with
    | (.error f, s) => let r := listLines quad part nd rest s
      (firstFailed (some (walkOrder f.cls, f)) r.1, r.2.1, r.2.2)
    | (.ok pl, s) => let chk := rideCheck s part nd (256 * l) pl
      let r := listLines quad part nd rest s
      (firstFailed chk r.1, ⟨chanOfPa pl.key, pl.key % 2 ^ 31 / 256, i, peX pl.leaf, peCreg pl.leaf⟩ :: r.2.1, r.2.2)

/-- An engine's reader rider over a list of lines: its key, or the fault (R223, R296). -/
def boardReader (s : State) (c part j rank : Nat) (lines : List Nat) : Except FaultInfo Nat × State :=
  let r := listLines (quadOfCore c) part needRead ((List.range lines.length).zip lines) s
  match r.1 with
  | some f => (.error f.2, r.2.2)
  | none =>
    let e := enterRider r.2.2 { part := part, ticket := 0, op := 0xC8, kind := 1, job := j, rank := rank, core := c, chans := byChannel r.2.1, wlines := lines, plain := plainOffsets r.2.1 }
    (.ok (riderKey part e.1), e.2)

/-- A deposit rider of an engine over a list of lines with their bytes (R223). -/
def boardDeposit (s : State) (c part j rank : Nat) (lines : List (Nat × Nat)) (bad : List (Nat × Nat)) : Except FaultInfo Nat × State :=
  let ls := lines.map Prod.fst
  let r := listLines (quadOfCore c) part needWrite ((List.range ls.length).zip ls) s
  match r.1 with
  | some f => (.error f.2, r.2.2)
  | none =>
    let e := enterRider r.2.2 { part := part, ticket := 0, op := 0xCB, kind := 1, job := j, rank := rank, core := c, chans := byChannel r.2.1,
                                wlines := ls, plain := plainOffsets r.2.1, operand := lines.map Prod.snd, bad := bad }
    (.ok (riderKey part e.1), e.2)

/-- A byte that a reader has read, by virtual address. -/
def riderByte (r : Rider) (va : Nat) : Nat := bitsOf (tabGet 0 r.data (r.wlines.idxOf (va / 256))) (8 * (va % 256)) 8

def riderBytes (r : Rider) (va : Nat) : Nat → Nat
  | 0 => 0
  | n + 1 => riderByte r va + 256 * riderBytes r (va + 1) n

/-- Whether a byte lies in a sector that was lost. -/
def riderBad (r : Rider) (va n : Nat) : Bool :=
  (List.range ((va + n - 1) / 32 + 1 - va / 32)).any fun i => let sec := va / 32 + i
    r.wlines.contains (sec / 8) && (lostSectors r (r.wlines.idxOf (sec / 8))).testBit (sec % 8)

/-- The weight at (n, k) of a record as a reader read it, with whether its bytes were lost. -/
def riderWeight (r : Rider) (rec_ : BitVec 512) (n k : Nat) : Nat × Bool :=
  let fmt := recFmt rec_
  let va := elemAddress rec_ n k
  let len := elemBytes fmt
  let x := riderBytes r va len
  (if fmt = 6 then bitsOf x (4 * (n % 32)) 4 + 16 * bitsOf x 128 8 + 4096 * bitsOf x 136 8
    else if typeWidth fmt = 4 then bitsOf x (4 * (n % 2)) 4 else x, riderBad r va len)

/-! Output rows of `mxv` and `bmac` (R205, R206). -/

/-- The writes of one output row with status, those of lost columns poison; hx4 rows by blocks of 32. -/
def mxvRow (c part : Nat) (card : BitVec 512) (drec : BitVec 512) (m : Nat) (outs : List (Nat × Bool)) (s : State) : Except FaultInfo (List Put × Flags) × State :=
  let ty := recFmt drec
  let row := mcDm0 card + m
  if ty = 6 then
    let blocks := (List.range ((outs.length + 31) / 32)).map fun b => (b, (outs.drop (32 * b)).take 32)
    blocks.foldl (fun acc b => match acc with
      | (.error f, s) => (.error f, s)
      | (.ok (ps, fl), s) =>
        let lost := b.2.any Prod.snd
        let d := drainRowPuts (fun c0 => beyond drec c0 row) 6 (mcRnd card) (mcSat card) (mcDexp card) (mcDn0 card + 32 * b.1) row (b.2.map Prod.fst ++ List.replicate (32 - b.2.length) 0)
        let w := if lost then [(mcDn0 card + 32 * b.1, row, 18, 0xFF * 2 ^ 128)] else d.1
        match resolvePuts c part (some card) drec lost w s with
        | (.error f, s) => (.error f, s)
        | (.ok qs, s) => (.ok (ps ++ qs, if lost then fl else fl ||| d.2), s)) ((.ok ([], 0), s) : Except FaultInfo (List Put × Flags) × State)
  else
    ((List.range outs.length).zip outs).foldl (fun acc o => match acc with
      | (.error f, s) => (.error f, s)
      | (.ok (ps, fl), s) =>
        let d := drainElem ty (mcRnd card) (mcSat card) (mcDexp card) o.2.1
        let v := if o.2.2 then poisonElem ty else d.1
        match resolvePuts c part (some card) drec o.2.2 [(mcDn0 card + o.1, row, (typeWidth ty + 7) / 8, v)] s with
        | (.error f, s) => (.error f, s)
        | (.ok qs, s) => (.ok (ps ++ qs, if o.2.2 || beyond drec (mcDn0 card + o.1) row then fl else fl ||| d.2), s)) ((.ok ([], 0), s) : Except FaultInfo (List Put × Flags) × State)

/-- The outputs of row m: sums over k from a row of activations and the weights a reader holds. -/
def mxvOuts (r : Rider) (wrec : BitVec 512) (acts : List Val) : List (Nat × Bool) :=
  (List.range (recExt wrec 0)).map fun n =>
    let ws := (List.range (recExt wrec 1)).map fun k => riderWeight r wrec n k
    (accumulate 0 ((ws.map fun w => storedVal (recFmt wrec) w.1).zip acts), ws.any Prod.snd)

/-- Activation coordinates of row m. -/
def mxvCoords (card wrec : BitVec 512) (m : Nat) : List (Nat × Nat) := (List.range (recExt wrec 1)).map fun k => (mcAk0 card + k, mcAm0 card + m)

/-- A bank-MAC rider made ready over rows 0 to rows − 1, or its first failed check (R217, R219, R233): of an `mxv` the activations have
the type of the card (R196, R209), and the regions take in what is read (R292). -/
def prepareBank (s : State) (c t : Nat) (task : Task) (card : BitVec 512) (ty : Option Nat) (rows : Nat) : Except FaultInfo Rider × State :=
  let core := s.core c
  let wrec := recOf core (mcWrec card)
  let arec := recOf core (mcArec card)
  let lines := weightLines wrec
  let l := listLines (quadOfCore c) task.part needRead ((List.range lines.length).zip lines) s
  let chans := byChannel l.2.1
  let big : Failed := if (chans.any fun e => 8192 < e.2.lines.length) || 65536 < spanBytes (recFmt arec) (rows * recExt wrec 1) then some (1, { cls := 0x05 }) else none
  let fmt : Failed := if !activationType (recFmt arec) || ty.any (fun x => x != recFmt arec) || !weightType (recFmt wrec) then some (2, { cls := 0x02, addr := recBase arec }) else none
  let win : Failed := if recInWindow arec then none else some (3, { cls := 0x03, addr := recBase arec })
  let room : Failed := if declaresRoom s task.job 1 1 then none else some (10, { cls := 0x0D })
  let foot : Failed := (weightMiss card wrec).map fun w => (9, { cls := 0x0D, addr := w.2 })
  match firstFailed (firstFailed big fmt) (firstFailed (firstFailed win l.1) (firstFailed room foot)) with
  | some f => (.error f.2, l.2.2)
  | none => match readElems c task.part (some card) arec ((List.range rows).flatMap fun m => mxvCoords card wrec m) l.2.2 with
    | (.error f, s) => (.error f, s)
    | (.ok vs, s) => (.ok { part := task.part, ticket := 0, op := 0xCD, card := card, job := task.job, rank := task.rank, core := c, task := t,
                            chans := chans, wlines := lines, plain := plainOffsets l.2.1, operand := vs, page := rows,
                            recs := [(mcWrec card, wrec), (mcArec card, arec), (mcDrec card, recOf core (mcDrec card))] }, s)

/-- What the rows of a bank half have come to: the places written, the status raised, and the fault that ended them. -/
structure BankOut where
  wrote : List (Nat × Nat) := []
  flags : Flags := 0
  fault : Option FaultInfo := none

/-- Rows of a bank half written in order, from each row's outputs, up to the first fault. -/
def writeRows (c part : Nat) (card drec : BitVec 512) (outs : Nat → List (Nat × Bool)) (rows : Nat) (s : State) : BankOut × State :=
  (List.range rows).foldl (fun acc m => match acc.1.fault with
    | some _ => acc
    | none => match mxvRow c part card drec m (outs m) acc.2 with
      | (.error f, s) => ({ acc.1 with fault := some f }, s)
      | (.ok (ps, fl), s) => ({ wrote := acc.1.wrote ++ (ps.flatMap Put.keys).map (fun k => (k.key, k.len)), flags := acc.1.flags ||| fl, fault := none },
          ps.foldl doPut s)) ({}, s)

/-- A layout record as it stood at a rider's start (R312). -/
def riderRec (r : Rider) (n : Nat) : BitVec 512 := ((r.recs.find? fun e => e.1 == n).map Prod.snd).getD 0

/-- The rows of a bank-MAC rider at its completion (R233): written to DREC, lost columns as poison. -/
def bankRows (s : State) (r : Rider) : BankOut × State :=
  let wrec := riderRec r (mcWrec r.card)
  let arec := riderRec r (mcArec r.card)
  let k := recExt wrec 1
  writeRows r.core r.part r.card (riderRec r (mcDrec r.card)) (fun m =>
    mxvOuts r wrec ((List.range k).map fun i => storedVal (recFmt arec) (r.operand.getD (m * k + i) 0))) r.page s

/-- The rows of a failed bank half, every element poison (R206). -/
def poisonRows (s : State) (c part : Nat) (card : BitVec 512) (rows : Nat) : BankOut × State :=
  let n := recExt (recOf (s.core c) (mcWrec card)) 0
  writeRows c part card (recOf (s.core c) (mcDrec card)) (fun _ => List.replicate n (0, true)) rows s

/-- Whether a fault found is the wait for host memory. -/
def waits (f : Option FaultInfo) : Bool := f.any fun i => i.cls == notYet.cls

/-- The bank half of a card arrives at its join (R206): MXV_JOIN_ARRIVAL. -/
def bankArrives (s : State) (j rank seq : Nat) (status : Word32) (mask : BitVec 384) (wrote : List (Nat × Nat)) : State :=
  modTask s j rank fun t => match cardOf t 0 seq with
    | some k => setCard t 0 { k with bankDone := true, status := k.status ||| status, chmask := k.chmask ||| mask, wrote := wrote ++ k.wrote }
    | none => t

/-- A bank-MAC rider alights: its rows are written, then `bmac` completes in its chain or the bank half arrives. -/
def alightBank (s : State) (key : Nat) (r : Rider) : State :=
  let b := bankRows { s with riders := tabDel s.riders key } r
  if waits b.1.fault then s
  else
    let s := orFlags b.2 r.job r.rank b.1.flags
    let st : Word32 := r.status ||| (if b.1.fault.isSome then 1 else 0)
    let s := if r.leave then returnLeave s (dieOfCore r.core) 1 else s
    if r.sub = 1 then bankArrives s r.job r.rank r.seq st r.chmask b.1.wrote
    else riderComplete s { r with status := st &&& 0x1F }

/-! Appending (R194). -/

/-- The threshold of AITHRESH for a weight format (R392). -/
def threshold (s : State) (fmt : Nat) : Nat :=
  if fmt = 1 || fmt = 2 then (s.aithresh.extractLsb' 18 9).toNat
  else if fmt = 5 || fmt = 6 then (s.aithresh.extractLsb' 0 9).toNat
  else (s.aithresh.extractLsb' 9 9).toNat

/-- The rows that `mxv` gives its bank half (R205, R392). -/
def bankShare (s : State) (c j sub : Nat) (card : BitVec 512) : Nat :=
  let r := recOf (s.core c) (mcWrec card)
  let pipes : Bool := 1 ≤ (jobSlotsOf s j).2
  if !(recMem r && pipes) then 0
  else if 2 ≤ sub then mcMs card
  else if mcM card < threshold s (recFmt r) then mcM card
  else 0

/-- A matrix node fires: the card is checked and appended, and the issue token leaves or the completion token is owed. -/
def fireMatrix (op : Nat) (w : EpW) (sub : BitVec 8) (s : State) : Host.Outcome State Fault Refusal :=
  match foc? s with
  | none => .next s
  | some f =>
    let ports := withPred w.pm.toNat (if op = 0xBC then [0, 1] else [0])
    match readyEp f ports with
    | none => .next s
    | some ops =>
      let card := (tokAt ops 0).data
      if actsNull w.pm.toNat ops then .next (epFired s f ports 0 (some nullToken))
      else match matrixCheck s f.c op sub.toNat w.ty.toNat card with
        | some i => .next (nodeFault s f i)
        | none =>
          let bank := if op = 0xBF then bankShare s f.c f.task.job sub.toNat card else 0
          let k : Card := { seq := 0, op := op, sub := sub.toNat, ty := w.ty.toNat, card := card, arg := tokAt ops 1, handler := f.ph.handler,
                            order := s.cardOrder, stamp := s.stamp, bank := bank, bankDone := bank == 0, prog := bank, relatch := f.task.latched.again }
          let task := appendCard { f.task with latched := { f.task.latched with again := false } } 0 k
          let seq := (chainOf task 0).tail
          let s := ({ s with cardOrder := s.cardOrder + 1 }).setTask f.c f.t task
          .next (epFired s f ports (cardKey 0 seq) (if sub.toNat % 2 = 1 then none else some (issueToken seq)))

/-- `bmac` (R233): a bank-MAC rider boarded by its own node. -/
def fireBmac (w : EpW) (s : State) : Host.Outcome State Fault Refusal :=
  match foc? s with
  | none => .next s
  | some f =>
    let ports := withPred w.pm.toNat [0]
    match readyEp f ports with
    | none => .next s
    | some ops =>
      let card := (tokAt ops 0).data
      if actsNull w.pm.toNat ops then .next (epFired s f ports 0 (some nullToken))
      else match matrixCheck s f.c 0xCD 0 0 card with
        | some i => .next (nodeFault s f i)
        | none => match prepareBank s f.c f.t f.task card none (mcM card) with
          | (.error i, s') => .next (if waits (some i) then s else nodeFault s' f i)
          | (.ok r, s') =>
            if !roomNow s' f.task.job (r.chans.map Prod.fst) 1 1 then .next s
            else
              let jc := joinChain f.task 0xCD 0 card f.ph.handler false
              let e := enterRider (s'.setTask f.c f.t jc.1) { r with seq := jc.2, handler := f.ph.handler }
              .next (epFired e.2 f ports 0 (some (riderToken jc.2 e.1)))

/-! Start, rows, withholding and completion. -/

/-- Writes a card back. -/
def putCard (s : State) (c t chain : Nat) (k : Card) : State :=
  match s.task? c t with
  | some task => s.setTask c t (setCard task chain k)
  | none => s

/-- The records of a card as they stand at its start. -/
def snapRecs (s : State) (c : Nat) (k : Card) : List (Nat × BitVec 512) :=
  let u := cardUses k
  (u.1 ++ u.2).eraseDups.map fun n => (n, recOf (s.core c) n)

/-- The bank half of an `mxv` boards at the card's start; a failed boarding is an error arrival (R206). None while no
pipe is free, or host memory has to be waited for. -/
def startBank (s : State) (c t : Nat) (task : Task) (k : Card) : Option State :=
  if k.bank = 0 || k.bankDone || k.ticket.isSome then some s
  else match prepareBank s c t task k.card (some k.ty) k.bank with
    | (.error f, s) =>
      let b := poisonRows s c task.part k.card k.bank
      if waits (some f) || waits b.1.fault then none
      else some (putCard b.2 c t 0 { k with bankDone := true, status := k.status ||| BitVec.ofNat 32 (3 + f.cls * 256), wrote := b.1.wrote ++ k.wrote })
    | (.ok r, s') =>
      if !roomNow s' task.job (r.chans.map Prod.fst) 1 1 then none
      else
        let e := enterRider s' { r with sub := 1, seq := k.seq, handler := k.handler }
        some (putCard e.2 c t 0 { k with ticket := some (riderKey task.part e.1) })

/-- CARD_START of a matrix card (R204, R291, R327, R393). -/
def startMatrix (c t : Nat) (task : Task) (k : Card) (s : State) : State :=
  if k.st != .waiting || !chainTurn task k || !edgesClear s c task.part k || !storesDrained s c t k.stamp then s
  else match startBank s c t task k with
    | none => s
    | some s => match (s.task? c t).bind fun x => cardOf x 0 k.seq with
      | none => s
      | some k =>
        if usesArray k && !k.leave then
          if k.asked then s
          else askLeave (putCard s c t 0 { k with asked := true }) (dieOfCore c) ⟨4, prioOf s task.job, c, t, 0, k.seq, none, 0⟩
        else
          let both : Word32 := if k.op = 0xBF then BitVec.ofNat 32 ((if 0 < k.bank then 4 else 0) + (if k.bank < mcM k.card then 8 else 0)) else 0
          putCard s c t 0 { k with st := .started, stalls := [], recs := if k.recs.isEmpty then snapRecs s c k else k.recs, ticket := none, status := k.status ||| both }

/-- Row m of the array half of an `mxv` (R205): the weights come by a reader rider, then the row is summed and written. -/
def mxvStep (c t : Nat) (task : Task) (k : Card) (s : State) : RowOut :=
  let core := s.core c
  let x := k.card
  let m := k.prog
  let wrec := cardRec core k (mcWrec x)
  let arec := cardRec core k (mcArec x)
  let drec := cardRec core k (mcDrec x)
  if !weightType (recFmt wrec) then rowErr { cls := 0x02, addr := recBase wrec } 0 0 s
  else if recFmt arec != k.ty then rowErr { cls := 0x02, addr := recBase arec } 1 m s
  else match k.ticket with
    | none =>
      let r := boardReader s c task.part task.job task.rank (weightLines wrec)
      (match r.1 with
        | .error f => rowErr f 0 (weightRow wrec (f.addr / 256)) r.2
        | .ok key => match weightMiss x wrec with
          | none => (.ok { k with ticket := some key }, r.2)
          | some w => rowErr { cls := 0x0D, addr := w.2 } 0 w.1 s)
    | some key => match s.rider? key with
      | none => (.ok { k with ticket := none }, s)
      | some r =>
        if !r.alit then (.ok k, s)
        else if !r.bad.isEmpty then
          let l := r.wlines.getD (r.bad.headD (0, 0)).1 0
          rowErr { cls := 0x09, addr := 256 * l } 0 (weightRow wrec l) { s with riders := tabDel s.riders key }
        else match readElems c task.part (some x) arec (mxvCoords x wrec m) s with
          | (.error f, s) => rowErr f 1 m s
          | (.ok vs, s) => match mxvRow c task.part x drec m (mxvOuts r wrec (vs.map (storedVal (recFmt arec)))) s with
            | (.error f, s) => rowErr f 2 m s
            | (.ok (ps, fl), s) =>
              let s := ps.foldl doPut (raiseFlags s c t fl)
              let last : Bool := m + 1 == mcM x
              (.ok { noteWrites k ps with prog := m + 1, ticket := if last then none else some key },
               if last then { s with riders := tabDel s.riders key } else s)

/-- One row of a started matrix card (R199 to R203, R208). -/
def matrixRow (c t : Nat) (task : Task) (k : Card) (s : State) : RowOut :=
  if k.relatch then relatchStep c t task k s
  else match k.op with
    | 0xB8 => latchStep c t task k s
    | 0xB9 => if mcLatch k.card && k.tile.length < mcK k.card then latchStep c t task k s else streamRow c task k s
    | 0xC0 => if mcLatch k.card && k.tile.length < mcK k.card then latchStep c t task k s else streamRow c task k s
    | 0xBA => drainRow c t task k s
    | 0xBF => mxvStep c t task k s
    | _ => accStoreRow c task k s

/-- The result of a row from a state: the card goes on, or its generator withholds its token (R207), or the row waits. -/
def afterRow (s0 : State) (c t chain : Nat) (k : Card) (r : RowOut) : State :=
  match r with
  | (.ok k', s) => putCard s c t chain { k' with rowed := k'.prog != k.prog || k'.tile.length != k.tile.length || k'.block.length != k.block.length }
  | (.error e, s) =>
    if waits (some e.info) then s0
    else putCard s c t chain { k with
      st := .withheld
      taken := false
      ticket := if e.info.cls = 0x09 then none else k.ticket
      fault := some { cls := e.info.cls, src := 1, slot := 124 + chain, gen := e.gen, acc := e.info.acc, detail := e.info.detail,
                      iter := e.iter, stall := tabGet 0 k.stalls e.gen, addr := e.info.addr, seqno := k.seq, info := e.info.info } }

/-- CARD_FAULT: the task takes the fault that a generator withholds, unless it is trapped by other work (R207, R334). -/
def cardFaultMove (c t chain seq : Nat) (s : State) : State :=
  match s.task? c t with
  | none => s
  | some task => match cardOf task chain seq with
    | none => s
    | some k => match k.fault with
      | none => s
      | some x =>
        if k.st != .withheld || k.taken || (task.st == .trapped && !k.handler) then s
        else
          let s := putCard s c t chain { k with taken := true }
          let pc := match task.phase with
            | some ph => ph.addr
            | none => task.pc
          takeFault s c t { x with pc := pc } k.handler

/-- How a withheld card restarts: at its start where it has not begun, or has given back its leave, else at its row. -/
def restartSt (k : Card) : CardSt :=
  if k.op = 0xD8 || k.op = 0xD9 || k.op = 0xDA then (if k.boarded then .started else .waiting)
  else if usesArray k && !k.leave then .waiting
  else .started

/-- `eret` restarts the cards whose faults were taken (R207, R338). -/
def restartCards (task : Task) : Task :=
  { task with chains := task.chains.map fun e => (e.1, { e.2 with cards := e.2.cards.map fun k =>
      if k.st == .withheld && k.taken then { k with st := restartSt k, taken := false, fault := none } else k }) }

/-- The withheld card whose fault is taken first: lowest chain, then lowest number (R334). While the task is trapped the faults of the
cards appended before the trap are not taken and hold none back (R207). -/
def pendingCardFault (task : Task) : Option (Nat × Nat) :=
  task.chains.findSome? fun e => (e.2.cards.find? fun k => k.st == .withheld && !k.taken && k.fault.isSome &&
    (k.handler || task.st != .trapped)).map fun k => (e.1, k.seq)

/-- The L1 of the issuing core drops its copies of what a card wrote (R327). -/
def dropWritten (s : State) (c : Nat) (ks : List (Nat × Nat)) : State :=
  let core := s.core c
  s.setCore c { core with l1 := core.l1.filter fun e => !(ks.any fun k => e.1 < k.1 + k.2 && k.1 < e.1 + 4) }

/-- A card completes: L1 copies dropped, leave returned, its place in the chain and its status kept, and its token sent if
its node owes it (R194, R289, R293). -/
def finishCard (s : State) (c t chain weight : Nat) (k : Card) : State :=
  let s := dropWritten s c k.wrote
  let s := if k.leave then returnLeave s (dieOfCore c) weight else s
  match s.task? c t with
  | none => s
  | some task =>
    let task := retireCard task chain ⟨k.seq, k.status, k.chmask, 0⟩
    s.setTask c t (settleOwed task (124 + chain) (cardKey chain k.seq) (doneToken k.seq k.status.toNat 0 k.chmask))

/-- CARD_COMPLETE of a matrix card: its rows are written, and both halves of an `mxv` have arrived (R206, R293). -/
def completeMatrix (c t : Nat) (k : Card) (s : State) : State :=
  if k.st == .started && !k.relatch && cardRows k ≤ k.prog && k.bankDone then finishCard s c t 0 4 k else s

end Sys2Proof.Machine
end

