-- ==== Sys2Proof/Machine/Engines.lean ====
section
/-! DEFINITION. The copy, collective and ring cards of EP2 (R294 to R298). -/

namespace Sys2Proof.Machine

/-! Fields (Table 14.5). -/

def ecSrec (r : BitVec 512) : Nat := (r.extractLsb' 0 6).toNat
def ecTocb (r : BitVec 512) : Bool := r.getLsbD 6
def ecCbn (r : BitVec 512) : Nat := (r.extractLsb' 7 5).toNat
def ecDcore (r : BitVec 512) : Nat := (r.extractLsb' 12 9).toNat
def ecOp (r : BitVec 512) : Nat := (r.extractLsb' 21 3).toNat
def ecFold (r : BitVec 512) : Nat := (r.extractLsb' 24 2).toNat
def ecFtype (r : BitVec 512) : Nat := (r.extractLsb' 26 4).toNat
def ecCw (r : BitVec 512) : Bool := r.getLsbD 30
def ecParts (r : BitVec 512) : Nat := (r.extractLsb' 32 16).toNat + 1
def ecRoot (r : BitVec 512) : Nat := (r.extractLsb' 48 16).toNat
def ecReord (r : BitVec 512) : ReW := readRe (BitVec.ofNat 64 (r.extractLsb' 64 32).toNat)
def ecKey (r : BitVec 512) : Nat := (r.extractLsb' 96 32).toNat
def ecCwaddr (r : BitVec 512) : Nat := (r.extractLsb' 128 57).toNat
def ecDrec (r : BitVec 512) : Nat := (r.extractLsb' 185 6).toNat

def engineMask (op : Nat) (card : BitVec 512) : Nat :=
  let f := fieldMask
  match op with
  | 0xD8 => f 0 6 + f 6 1 + f 30 1 + f 64 32 + (if ecCw card then f 128 57 else 0) + (if ecTocb card then f 7 5 + f 12 9 else f 185 6)
  | 0xD9 => f 0 6 + f 21 9 + f 32 16 + f 48 16 + f 96 32 + f 185 6
  | _ => f 0 6 + f 185 6

/-! Enumeration of a record (R296). -/

/-- Units along dimension 0: elements, or blocks of 32 for hx4. -/
def unitsIn (r : BitVec 512) (d : Nat) : Nat := if d = 0 ∧ recFmt r = 6 then recExt r 0 / 32 else recExt r d

/-- Elements of a record: the product of its extents. -/
def elemCount (r : BitVec 512) : Nat := (List.range (recNdim r)).foldl (fun n d => n * recExt r d) 1

/-- Units of a record. -/
def unitCount (r : BitVec 512) : Nat := (List.range (recNdim r)).foldl (fun n d => n * unitsIn r d) 1

def unitAddrFrom (r : BitVec 512) (d : Nat) : Nat → Nat → Int
  | 0, _ => 0
  | n + 1, i =>
    let c := i % unitsIn r d
    coordBytes r d (if d = 0 ∧ recFmt r = 6 then 32 * c else c) + unitAddrFrom r (d + 1) n (i / unitsIn r d)

/-- The address of unit i. -/
def unitAddr (r : BitVec 512) (i : Nat) : Nat := wrapTo 57 ((recBase r : Int) + unitAddrFrom r 0 (recNdim r) i)

/-- Bytes of a unit; an e2m1 unit is half of one. -/
def unitSize (fmt : Nat) : Nat := elemBytes fmt

/-- Which half of its byte an e2m1 unit is. -/
def unitHalf (r : BitVec 512) (i : Nat) : Option Nat :=
  if recFmt r = 5 then some (wrapCoord r 0 (i % unitsIn r 0) % 2) else none

/-- The coordinates (c0, c1) of unit i, for its tile. -/
def unitCoords (r : BitVec 512) (i : Nat) : Nat × Nat :=
  let c0 := i % unitsIn r 0
  (if recFmt r = 6 then 32 * c0 else c0, if recNdim r ≤ 1 then 0 else i / unitsIn r 0 % unitsIn r 1)

/-- The source unit of destination unit i (R183, R296). -/
def reordSrc (w : ReW) (total i : Nat) : Nat :=
  let g := (w.innerM1.toNat + 1) * (w.outerM1.toNat + 1)
  let base := i / g * g
  if total < base + g then i else base + reorderSource 0xB0 w (i - base)

/-! Units that lie in swept memory go by riders (R223). -/

/-- The lines of swept pages that the units of a record lie in. -/
def sweptLines (quad part : Nat) (r : BitVec 512) (s : State) : List Nat × State :=
  let lines := (List.range (unitCount r)).foldl (fun acc i =>
    let va := unitAddr r i
    [va / 256, (va + unitSize (recFmt r) - 1) / 256].foldl (fun acc l =>
      if inWindow (256 * l) || inHole (256 * l) || acc.contains l then acc else acc ++ [l]) acc) []
  lines.foldl (fun acc l =>
    let r := lookupNoFill acc.2 quad part (256 * l)
    (match r.1 with
      | .ok pl => if peSwept pl.leaf && peTgt pl.leaf == 0 then acc.1 ++ [l] else acc.1
      | .error _ => acc.1, r.2)) ([], s)

/-- An engine's deposit, whose lines are written once their bytes are known. -/
def boardWriter (s : State) (c part j rank : Nat) (lines : List Nat) : Except FaultInfo Nat × State :=
  let r := listLines (quadOfCore c) part needWrite ((List.range lines.length).zip lines) s
  match r.1 with
  | some f => (.error f.2, r.2.2)
  | none =>
    let chans := r.2.1.foldl (fun t y => tabMod {} t y.chan fun x => { x with dest := x.dest ++ [(y.line, y.offset)] }) ([] : List (Nat × RiderChan))
    let e := enterRider r.2.2 { part := part, ticket := 0, op := 0xCF, kind := 1, job := j, rank := rank, core := c, chans := chans, wlines := lines, plainDest := plainOffsets r.2.1 }
    (.ok (riderKey part e.1), e.2)

/-- What an engine needs of the places it touches: a copy reaches swept memory of other packages too (R407). -/
def engineNeed (nd : Need) (k : Card) : Need := { nd with podSwept := k.op == 0xD8 }

/-- Whether a card's regions let it touch unit i through a record (R292). -/
def unitTouchOk (card r : BitVec 512) (i : Nat) (write : Bool) : Bool :=
  let co := unitCoords r i
  touchOk card r co.1 co.2 (if recFmt r = 6 then 32 else 1) (unitAddr r i) (unitSize (recFmt r)) write

/-- The channels that runs lie on. -/
def runChans (ks : List MemRun) : BitVec 384 := ks.foldl (fun m k => if isLocal k.key then m ||| (1 <<< chanOfPa k.key) else m) 0

/-- A unit that no path leads to: it is written as poison (R408). -/
def unitGone : UnitIn := { x := 0, lost := true, gone := true }

/-- The card read of Table 15.6: unit i of a record, at its homes or bank, or from the card's reader (R223). -/
def readUnit (c part : Nat) (k : Card) (r : BitVec 512) (i : Nat) (s : State) : Except FaultInfo UnitIn × State :=
  let va := unitAddr r i
  let n := unitSize (recFmt r)
  let foot := unitTouchOk k.card r i false
  let half := fun (x : Nat) => match unitHalf r i with
    | some h => bitsOf x (4 * h) 4
    | none => x
  let unit := fun (x : Nat) (bad : Bool) (m : BitVec 384) => ({ x := half x, lost := bad, mask := if bad then m else 0 } : UnitIn)
  match runKeys c part (engineNeed needRead k) va n s with
  | (.ok ks, s) =>
    if !foot then (.error { cls := 0x0D, addr := va }, s)
    else if ks.any fun x => unreachable s x.key then (.ok unitGone, s)
    else if ks.any fun x => remoteRefused s x.key then (.error { cls := 0x0E, addr := va }, s)
    else if !readsOpen s ks then (.error notYet, s)
    else
      let s := checkKeys (podSendRuns s ks) ks
      (.ok (unit (readKeys s ks) (keysPoisoned s ks) (runChans ks)), s)
  | (.error f, s) =>
    if f.cls != 0x06 then (.error f, s)
    else match k.ticket.bind s.rider? with
      | none => (.error f, s)
      | some rd => if !foot then (.error { cls := 0x0D, addr := va }, s) else (.ok (unit (riderBytes rd va n) (riderBad rd va n) rd.chmask), s)

/-- The poison of one unit (R104). -/
def poisonUnit (fmt : Nat) : Nat := if fmt = 6 then 0xFF * 2 ^ 128 else poisonElem fmt

/-- Adds bytes to what a deposit gathers. -/
def gatherByte (r : Rider) (va b : Nat) : Rider :=
  let o := r.wlines.idxOf (va / 256)
  let p := tabGet (0, 0) r.pending o
  let pos := va % 256
  let x := p.1 - bitsOf p.1 (8 * pos) 8 * 2 ^ (8 * pos) + b % 256 * 2 ^ (8 * pos)
  { r with pending := tabPut r.pending o (x, p.2 ||| 2 ^ pos) }

/-- The card write of Table 15.6: unit i of a record, at its homes or bank, or into the bytes that the card's deposit gathers (R223); the
places written, and whether no path led there. -/
def writeUnit (c part : Nat) (k : Card) (r : BitVec 512) (i x : Nat) (bad : Bool) (s : State) : Except FaultInfo (List (Nat × Nat) × Bool) × State :=
  let va := unitAddr r i
  let n := unitSize (recFmt r)
  let foot := unitTouchOk k.card r i true
  if recFmt r != 6 && va % n != 0 then (.error { cls := 0x02, acc := 1, addr := va }, s)
  else match runKeys c part (engineNeed needWrite k) va n s with
    | (.ok ks, s) =>
      if !foot then (.error { cls := 0x0D, acc := 1, addr := va }, s)
      else if ks.any fun x => unreachable s x.key then (.ok ([], true), s)
      else if ks.any fun x => remoteRefused s x.key then (.error { cls := 0x0E, acc := 1, addr := va }, s)
      else if !writesOpen s ks then (.error notYet, s)
      else (.ok (ks.map fun k => (k.key, k.len), false), doPut s ⟨ks, x, unitHalf r i, bad⟩)
    | (.error f, s) =>
      if f.cls != 0x06 then (.error f, s)
      else match k.deposit.bind fun key => (s.rider? key).map fun r => (key, r) with
        | none => (.error f, s)
        | some (key, rd) =>
          if !foot then (.error { cls := 0x0D, acc := 1, addr := va }, s)
          else
            let old := bitsOf (tabGet (0, 0) rd.pending (rd.wlines.idxOf (va / 256))).1 (8 * (va % 256)) 8
            let x := match unitHalf r i with
              | some 0 => old / 16 * 16 + x % 16
              | some _ => old % 16 + x % 16 * 16
              | none => x
            let rd := (List.range n).foldl (fun rd k => gatherByte rd (va + k) (bitsOf x (8 * k) 8)) rd
            let rd := if bad then { rd with bad := (rd.wlines.idxOf (va / 256), (List.range n).foldl (fun m k => m ||| 2 ^ ((va + k) / 32 % 8)) 0) :: rd.bad } else rd
            (.ok ([], false), s.setRider key rd)

/-- Every line of a deposit may now be written, in the bytes gathered for it. -/
def releaseWriter (s : State) (key : Nat) : State :=
  match s.rider? key with
  | none => s
  | some r => s.setRider key r.letGo

/-- The deposit of a card, if it has one, may now write its lines. -/
def releaseDeposit (s : State) (k : Card) : State :=
  match k.deposit with
  | some key => releaseWriter s key
  | none => s

/-! Checks at the append (R294 to R298). -/

def engineCheck (s : State) (f : Foc) (op escope : Nat) (card : BitVec 512) : Option FaultInfo :=
  let src := recOf f.core (ecSrec card)
  let dst := recOf f.core (ecDrec card)
  if card.toNat % 2 ^ 256 &&& (2 ^ 256 - 1 - engineMask op card) != 0 || !footprintOk card then some { cls := 0x05 }
  else if op = 0xD8 then
    if ecCw card && ecCwaddr card % 4 != 0 then some { cls := 0x05, addr := ecCwaddr card }
    else if ecTocb card then
      if !((s.partn f.task.part).quads.contains (quadOfCore (ecDcore card))) then some { cls := 0x0E }
      else if 30 < ecCbn card || !((s.core (ecDcore card)).tasks.any fun e => e.2.job == f.task.job && e.2.bufs.getLsbD (ecCbn card)) then some { cls := 0x0D }
      else none
    else if recFmt src != recFmt dst || elemCount src != elemCount dst then some { cls := 0x05 }
    else none
  else if op = 0xD9 then
    if 4 < ecOp card || 2 < ecFold card || !(ecFtype card == 11 || ecFtype card == 12 || ecFtype card == 0 || ecFtype card == 1) ||
        (escope < 4 && ecKey card != 0) || (ecOp card != 3 && ecOp card != 4 && ecRoot card != 0) then some { cls := 0x05 } else none
  else if ecSrec card == ecDrec card || recFmt src != recFmt dst || elemCount src != elemCount dst then some { cls := 0x05 }
  else none

/-- What a task keeps of its ring at a scope. -/
def ringAt (task : Task) (escope : Nat) : Ring := tabGet {} task.rings escope

/-- What an EP2 card keeps of its append: of a ring card its step (R298), of a copy to a circular buffer the rank of the task that
declared it (R296). -/
def engineArgs (s : State) (task : Task) (op escope : Nat) (card : BitVec 512) : List Nat :=
  if op = 0xDA then [(ringAt task escope).issued]
  else if op = 0xD8 && ecTocb card then
    ((s.core (ecDcore card)).tasks.filter fun e => e.2.job == task.job && e.2.bufs.getLsbD (ecCbn card)).map fun e => e.2.rank
  else []

/-- A ring card issued counts in its ring. -/
def countRing (task : Task) (op escope : Nat) : Task :=
  if op = 0xDA then let r := ringAt task escope
    { task with rings := tabPut task.rings escope { r with issued := r.issued + 1 } }
  else task

/-- An EP2 node fires (R294). -/
def fireEngine (op : Nat) (w : EpW) (sub : BitVec 8) (s : State) : Host.Outcome State Fault Refusal :=
  match foc? s with
  | none => .next s
  | some f =>
    let ports := withPred w.pm.toNat [0]
    match readyEp f ports with
    | none => .next s
    | some ops =>
      let card := (tokAt ops 0).data
      if actsNull w.pm.toNat ops then .next (epFired s f ports 0 (some nullToken))
      else match engineCheck s f op w.escope.toNat card with
        | some i => .next (nodeFault s f i)
        | none =>
          let k : Card := { seq := 0, op := op, sub := sub.toNat, escope := w.escope.toNat, card := card, handler := f.ph.handler,
                            order := s.cardOrder, stamp := s.stamp, args := engineArgs s f.task op w.escope.toNat card }
          let task := countRing (appendCard f.task 2 k) op w.escope.toNat
          let seq := (chainOf task 2).tail
          let s := ({ s with cardOrder := s.cardOrder + 1 }).setTask f.c f.t task
          .next (epFired s f ports (cardKey 2 seq) (if sub.toNat = 1 then none else some (issueToken seq)))

/-! Start (R291, R296, R327). -/

/-- The riders of a card are dropped with it. -/
def dropCardRiders (s : State) (k : Card) : State :=
  { s with riders := s.riders.filter fun e => !(k.ticket == some e.1 || k.deposit == some e.1) }

/-- The reader that a card boards for the swept lines of its source, if it has any (R295). -/
def readerFor (s : State) (c : Nat) (task : Task) (lines : List Nat) : Except FaultInfo (Option Nat) × State :=
  if lines.isEmpty then (.ok none, s)
  else match boardReader s c task.part task.job task.rank lines with
    | (.ok key, s) => (.ok (some key), s)
    | (.error f, s) => (.error f, s)

/-- The deposit that a card boards for the swept lines of its destination, if it has any (R295). -/
def writerFor (s : State) (c : Nat) (task : Task) (lines : List Nat) : Except FaultInfo (Option Nat) × State :=
  if lines.isEmpty then (.ok none, s)
  else match boardWriter s c task.part task.job task.rank lines with
    | (.ok key, s) => (.ok (some key), s)
    | (.error f, s) => (.error f, s)

/-- CARD_START of an EP2 card: its edges and stores are clear and leave given; riders for swept memory take tickets now, but for the
deposit of a ring card, whose record its predecessor names (log entry 110). A card whose boarding faults starts anew. -/
def startEngine (c t : Nat) (task : Task) (k : Card) (s : State) : State :=
  if k.st != .waiting || !edgesClear s c task.part k || !storesDrained s c t k.stamp then s
  else if k.op != 0xD8 && !k.leave then
    if k.asked then s else askLeave (putCard s c t 2 { k with asked := true }) (dieOfCore c) ⟨2, prioOf s task.job, c, t, 2, k.seq, none, 0⟩
  else
    let s := dropCardRiders s k
    let k := { k with st := .started, stalls := [], ticket := none, deposit := none, block := [], recs := if k.recs.isEmpty then snapRecs s c k else k.recs }
    let src := cardRec (s.core c) k (ecSrec k.card)
    let dst := cardRec (s.core c) k (ecDrec k.card)
    let q := quadOfCore c
    let sl := sweptLines q task.part src s
    let dl := if (ecTocb k.card && k.op = 0xD8) || k.op = 0xDA then ([], sl.2) else sweptLines q task.part dst sl.2
    match readerFor dl.2 c task sl.1 with
    | (.error f, s) => afterRow s c t 2 k (rowErr f 0 0 s)
    | (.ok reader, s) =>
      match writerFor s c task dl.1 with
      | (.error f, s) => afterRow s c t 2 k (rowErr f 2 0 (dropCardRiders s { k with ticket := reader }))
      | (.ok writer, s) => putCard s c t 2 { k with ticket := reader, deposit := writer, boarded := true }

/-- Whether a card's reader has read its lines. -/
def readerReady (s : State) (k : Card) : Bool := match k.ticket with
  | none => true
  | some key => match s.rider? key with
    | some r => r.alit
    | none => true

/-- Whether a card's deposit has written its lines. -/
def writerDone (s : State) (k : Card) : Bool := match k.deposit with
  | none => true
  | some key => match s.rider? key with
    | some r => r.alit
    | none => true

/-! What a card has read (R294, R408). -/

/-- A lost unit sets ERR and PARTIAL, and its channels in the mask. -/
def noteLost (k : Card) (bad : Bool) (mask : BitVec 384) : Card := if bad then { k with status := k.status ||| 3, chmask := k.chmask ||| mask } else k

/-- A unit of an unreachable package sets ERR, PARTIAL and LOST (R408). -/
def noteGone (k : Card) (gone : Bool) : Card := if gone then { k with status := k.status ||| 0x13 } else k

/-- A unit that the card has read joins those it holds; ERR says that one of its source was uncorrectable (Table 14.4). -/
def holdUnit (k : Card) (u : UnitIn) : Card :=
  let k := { k with block := k.block ++ [u], status := k.status ||| (if u.lost then 1 else 0), chmask := k.chmask ||| u.mask }
  noteGone k u.gone

/-- A held unit as it is written: a lost one as poison (R104). -/
def heldUnit (fmt : Nat) (u : UnitIn) : Nat := if u.lost then poisonUnit fmt else u.x

/-! Copy (R296). -/

/-- The write of the unit that a copy to memory holds. -/
def copyUnit (c : Nat) (task : Task) (k : Card) (u : UnitIn) (s : State) : RowOut :=
  let dst := cardRec (s.core c) k (ecDrec k.card)
  match writeUnit c task.part k dst k.prog (heldUnit (recFmt dst) u) u.lost s with
  | (.error f, s) => rowErr f 2 k.prog s
  | (.ok (ks, gone), s) =>
    let s := if k.prog + 1 = unitCount dst then releaseDeposit s k else s
    (.ok { noteGone (noteLost k u.lost 0) gone with prog := k.prog + 1, block := [], wrote := ks ++ k.wrote }, s)

/-- Units in one token, and tokens for them: an hx4 unit takes part of a data and a side token. -/
def slotUnits (fmt tokens : Nat) : Nat := if fmt = 6 then tokens / 2 * 4 else tokens * elemsPerToken fmt

/-- The bytes of a slot of units packed into tokens (R96, R99). -/
def packSlot (fmt : Nat) (xs : List Nat) : Nat :=
  if fmt = 6 then (List.range ((xs.length + 3) / 4)).foldl (fun n p =>
      let bs := (xs.drop (4 * p)).take 4
      n + ((hx4DataToken 0xFFFF#16 bs).data.toNat + (hx4SideToken 0xF#16 bs).data.toNat * 2 ^ 512) * 2 ^ (1024 * p)) 0
  else packElems (typeWidth fmt) xs

/-- How many units a copy reads before it writes: one, or those of the next slot. -/
def copyNeed (s : State) (src : BitVec 512) (dc : Option Nat) (k : Card) : Nat :=
  match dc with
  | none => 1
  | some dc => min (max 1 (slotUnits (recFmt src) (cbTokens (bufOf (s.core dc) (ecCbn k.card)).desc))) (unitCount src - k.prog)

/-- The next unit of the mapped source joins what a copy holds. -/
def copyRead (c : Nat) (task : Task) (k : Card) (s : State) : RowOut :=
  let src := cardRec (s.core c) k (ecSrec k.card)
  let i := k.prog + k.block.length
  match readUnit c task.part k src (reordSrc (ecReord k.card) (unitCount src) i) s with
  | (.error f, s) => rowErr f 0 i s
  | (.ok u, s) => (.ok (holdUnit k u), s)

/-- The units that a copy holds fill one slot of the buffer. -/
def copySlot (c dc : Nat) (k : Card) (s : State) : RowOut :=
  let fmt := recFmt (cardRec (s.core c) k (ecSrec k.card))
  let b := bufOf (s.core dc) (ecCbn k.card)
  let key := keyScratch dc (cbAddr b.desc (cbNextClaim b.desc) 0)
  match cbDeliver s dc (ecCbn k.card) (packSlot fmt (k.block.map (heldUnit fmt))) with
  | none => (.ok k, s)
  | some s =>
    let s := (List.range k.block.length).foldl (fun s i => if (k.block.getD i default).lost then
        { s with poison := tabSet false s.poison (key / 32 + (if fmt = 6 then i / 4 * 4 + i % 4 / 2 else i * typeWidth fmt / 256)) true } else s) s
    (.ok { noteLost k (k.block.any UnitIn.lost) 0 with prog := k.prog + k.block.length, block := [] }, s)

/-- Where a copy to a circular buffer delivers now: the core where the task that declared the buffer stands. -/
def copyTarget (s : State) (task : Task) (k : Card) : Option Nat := (findTask s task.job (k.args.headD 0)).map Prod.fst

/-- The next read or write of a copy. One to a circular buffer holds while FREE = 0, and ends where the task that declared it has. -/
def copyRow (c : Nat) (task : Task) (k : Card) (s : State) : RowOut :=
  let src := cardRec (s.core c) k (ecSrec k.card)
  if !readerReady s k then (.ok k, s)
  else if ecTocb k.card then match copyTarget s task k with
    | none => (.ok { k with prog := unitCount src, block := [], status := k.status ||| 17 }, s)
    | some dc =>
      if (bufOf (s.core dc) (ecCbn k.card)).free = 0 then (.ok k, s)
      else if k.block.length < copyNeed s src (some dc) k then copyRead c task k s
      else copySlot c dc k s
  else match k.block with
    | [] => copyRead c task k s
    | u :: _ => copyUnit c task k u s

/-! Collectives (R297). -/

/-- The scope part of an instance that a core belongs to. -/
def scopeUnit (scope c : Nat) : Nat := if scope = 0 then c else if scope = 1 then quadOfCore c else if scope = 2 then dieOfCore c else 0

/-- The tasks of a gang in a core's scope instance that have not ended, as (core, slot, task) by rank. -/
def scopeTasks (s : State) (j scope c : Nat) : List (Nat × Nat × Task) :=
  let all := s.cores.flatMap fun e => (e.2.tasks.filter fun x => x.2.job == j && scopeUnit scope e.1 == scopeUnit scope c && x.2.st != .ended).map fun x => (e.1, x.1, x.2)
  all.mergeSort fun a b => a.2.2.rank ≤ b.2.2.rank

/-- The oldest collective card of a task at a scope that no instance has gathered. -/
def collOf (task : Task) (escope : Nat) : Option Card := (chainOf task 2).cards.find? fun k => k.op == 0xD9 && k.escope == escope && k.unit == 0

/-- What the cards of an instance must agree in: OP, FOLD, FTYPE, ROOT and the number of participants (R297). -/
def collFormOf (k : BitVec 512) : List Nat := [ecOp k, ecFold k, ecFtype k, ecRoot k, ecParts k]

/-- A participant of an instance: its package and gang rank, its card's order and form, where its card is, and the elements of its
source that have been read so far or that came from another package. -/
structure Party where
  pkg : Nat
  rank : Nat
  order : Nat
  form : List Nat
  here : Option (Nat × Nat × Task × Card)
  elems : List (Nat × Bool)

def localParty (s : State) (c t : Nat) (task : Task) (k : Card) : Party :=
  ⟨s.pkgId, task.rank, k.order, collFormOf k.card, some (c, t, task, k), k.block.map fun u => (u.x, u.lost)⟩

/-- Ranks run by package, then gang rank, then order of append, which no rule needs below pod scope (log entry 110). -/
def Party.before (a b : Party) : Bool :=
  a.pkg < b.pkg || (a.pkg == b.pkg && (a.rank < b.rank || (a.rank == b.rank && a.order ≤ b.order)))

/-- The participants of a card's instance by rank: none while one has still to append. At ESCOPE 4 and 5 they are the cards with its
KEY of its partition and of the partitions of its pod group on other packages (R404), in the order they came. -/
def collGather (s : State) (c : Nat) (task : Task) (k : Card) : Option (List Party) :=
  if k.escope ≤ 3 then (scopeTasks s task.job k.escope c).mapM fun e => (collOf e.2.2 k.escope).map fun x => localParty s e.1 e.2.1 e.2.2 x
  else
    let mine := s.cores.flatMap fun e => (e.2.tasks.filter fun x => x.2.part == task.part).flatMap fun x =>
      ((chainOf x.2 2).cards.filter fun y => y.op == 0xD9 && 4 ≤ y.escope && y.unit == 0 && ecKey y.card == ecKey k.card).map fun y => localParty s e.1 x.1 x.2 y
    let far := (s.remoteColls.filter fun r => r.podPart == (s.partn task.part).podpart && r.key == ecKey k.card && r.unit == 0).map fun r =>
      (⟨r.pkg, r.rank, r.order, r.form, none, r.elems⟩ : Party)
    let all := (mine ++ far).mergeSort fun a b => a.order ≤ b.order
    let n := ((all.head?.bind fun p => p.form[4]?).getD 1)
    if all.length < n then none else some ((all.take n).mergeSort Party.before)

/-- Whether the cards of an instance agree in form (R297). -/
def collForm (k : Card) (ps : List Party) : Bool :=
  ps.all (fun p => p.form == collFormOf k.card) && !((ecOp k.card == 3 || ecOp k.card == 4) && ps.length ≤ ecRoot k.card) &&
    (4 ≤ k.escope || ecParts k.card == ps.length)

/-- One element of a fold (R120): the lost side poisons it. -/
def collFold (fold ty : Nat) (xs : List (Nat × Bool)) : Nat × Bool :=
  let one := fun (a b : Nat) => match fold with
    | 0 => if isInt ty then encodeInt ty (decodeInt ty a + decodeInt ty b) else (faddBits ty 0 a b).1
    | 1 => if isInt ty then encodeInt ty (min (decodeInt ty a) (decodeInt ty b)) else (minMaxBits ty false a b).1
    | _ => if isInt ty then encodeInt ty (max (decodeInt ty a) (decodeInt ty b)) else (minMaxBits ty true a b).1
  match xs with
  | [] => (0, false)
  | x :: rest =>
    let bad := xs.any Prod.snd
    (if bad then poisonElem ty else rest.foldl (fun a y => one a y.1) x.1, bad)

/-- What rank r's destination holds (Table 14.6); a lost element is poison (R104). -/
def collResult (op fold ty root r : Nat) (xss : List (List (Nat × Bool))) : List (Nat × Bool) :=
  let p := xss.length
  let e := (xss.headD []).length
  let at_ := fun i => collFold fold ty (xss.map fun xs => xs.getD i (0, false))
  let kept := fun (x : Nat × Bool) => if x.2 then (poisonElem ty, true) else x
  match op with
  | 0 => (List.range e).map at_
  | 1 => (List.range (e / p)).map fun i => at_ (r * (e / p) + i)
  | 2 => xss.flatten.map kept
  | 3 => (xss.getD root []).map kept
  | _ => if r = root then (List.range e).map at_ else []

/-- The source record of a participant here. -/
def sourceOf (s : State) (c : Nat) (k : Card) : BitVec 512 := cardRec (s.core c) k (ecSrec k.card)

/-- The next unit of a collective or ring card's own source joins what it holds (R327). -/
def readOwn (c : Nat) (task : Task) (k : Card) (s : State) : RowOut :=
  let src := sourceOf s c k
  if k.op == 0xD9 && recFmt src != ecFtype k.card then rowErr { cls := 0x02, addr := recBase src } 0 0 s
  else match readUnit c task.part k src k.block.length s with
    | (.error f, s) => rowErr f 0 k.block.length s
    | (.ok u, s) => (.ok (holdUnit k u), s)

/-- Whether a card has read its own source whole. -/
def ownRead (s : State) (c : Nat) (k : Card) : Bool := unitCount (sourceOf s c k) ≤ k.block.length

/-- The record that a bound card writes through: its own DREC, or of a ring card the one that its predecessor named (R298), which it keeps
under number 64. -/
def boundRec (s : State) (c : Nat) (k : Card) : BitVec 512 := cardRec (s.core c) k (if k.op = 0xDA then 64 else ecDrec k.card)

/-- A card of an instance, or of a ring step, takes the units that its destination is to hold, and writes them from now on, unit by unit
(R293); with none to write its deposit is let go at once. -/
def bindCard (s : State) (c t : Nat) (k : Card) (ys : List (Nat × Bool)) (mask : BitVec 384) : State :=
  let ys := ys.take (unitCount (boundRec s c k))
  let s := if ys.isEmpty then releaseDeposit s k else s
  putCard s c t 2 { noteLost k (ys.any Prod.snd) mask with prog := 1, tile := ys.map fun y => [y.1, y.2.toNat] }

/-- Whether a card has written all that it took. -/
def boundDone (k : Card) : Bool := k.prog == 1 + k.tile.length

/-- The next unit of what a card took is written. -/
def boundUnit (c : Nat) (task : Task) (k : Card) (s : State) : RowOut :=
  let dst := boundRec s c k
  let y := k.tile.getD (k.prog - 1) []
  if boundDone k then (.ok k, s)
  else if k.op == 0xD9 && recFmt dst != ecFtype k.card then rowErr { cls := 0x02, acc := 1, addr := recBase dst } 2 (k.prog - 1) s
  else match writeUnit c task.part k dst (k.prog - 1) (y.headD 0) (y.getD 1 0 == 1) s with
    | (.error f, s) => rowErr f 2 (k.prog - 1) s
    | (.ok (ks, gone), s) =>
      let s := if k.prog == k.tile.length then releaseDeposit s k else s
      (.ok { noteGone k gone with prog := k.prog + 1, wrote := ks ++ k.wrote }, s)

/-- The cards of an instance are bound to it, each with what its rank's destination is to hold; a participant on another package is sent
its share, and its entry stays until that package says that it is written (R297). -/
def collBind (k : Card) (id : Nat) (status : Word32) (mask : BitVec 384) (xss : Option (List (List (Nat × Bool)))) (s : State) : Nat → List Party → State
  | _, [] => s
  | r, p :: rest =>
    let ys := match xss with
      | some xss => collResult (ecOp k.card) (ecFold k.card) (ecFtype k.card) (ecRoot k.card) r xss
      | none => []
    let s := match p.here with
      | none => podSend { s with remoteColls := s.remoteColls.map fun e => if e.order == p.order then { e with unit := id } else e } p.pkg 0
      | some (c, t, _, x) => bindCard s c t { x with unit := id, status := x.status ||| status } ys mask
    collBind k id status mask xss s (r + 1) rest

/-- Elements of a participant's source. -/
def partyElems (s : State) (p : Party) : Nat :=
  match p.here with
  | none => p.elems.length
  | some (c, _, _, k) => unitCount (sourceOf s c k)

/-- What the next step of a card of a gathered instance is: it waits, the instance is refused with a status (FORM or SIZE), the card
reads, or the instance is combined. -/
inductive CollTurn where
  | waits
  | refused (status : Word32)
  | reads
  | combines
  deriving DecidableEq, Repr

/-- Once every participant's card has started, an instance compares them; each then reads its own source, and with the last one read they
are combined (R297). -/
def collTurn (s : State) (c t : Nat) (k : Card) (ps : List Party) : CollTurn :=
  let mine := ps.filterMap Party.here
  let es := ps.map (partyElems s)
  if !(mine.any fun p => p.1 == c && p.2.1 == t && p.2.2.2.seq == k.seq) || mine.any (fun p => p.2.2.2.st != .started || !readerReady s p.2.2.2) then .waits
  else if !collForm k ps then .refused 8
  else if es.any (fun e => e != es.headD 0) || (ecOp k.card == 1 && es.headD 0 % ps.length != 0) then .refused 4
  else if !ownRead s c k then .reads
  else if !(mine.all fun p => ownRead s p.1 p.2.2.2) then .waits
  else .combines

/-- The number of an instance. -/
def collId (ps : List Party) : Nat := ps.foldl (fun n p => max n (p.order + 1)) 0

/-- The step of a collective card that is not yet bound. -/
def collStep (c t : Nat) (task : Task) (k : Card) (s : State) : State :=
  match collGather s c task k with
  | none => s
  | some ps => match collTurn s c t k ps with
    | .waits => s
    | .refused st => collBind k (collId ps) st 0 none s 0 ps
    | .reads => afterRow s c t 2 k (readOwn c task k s)
    | .combines => collBind k (collId ps) 0 ((ps.filterMap Party.here).foldl (fun m p => m ||| p.2.2.2.chmask) 0) (some (ps.map Party.elems)) s 0 ps

/-- The cards of an instance, resident or saved. -/
def collMembers (s : State) (id : Nat) : List Card :=
  let of := fun (task : Task) => (chainOf task 2).cards.filter fun k => k.op == 0xD9 && k.unit == id
  (s.cores.flatMap fun e => e.2.tasks.flatMap fun x => of x.2) ++ s.jobs.flatMap fun e => e.2.images.flatMap fun x => of x.2.task

/-! Rings (R298). -/

/-- The successor, and the predecessor, of a task in its ring, and the ring size. -/
def ringOf (s : State) (c : Nat) (task : Task) (escope : Nat) : List (Nat × Nat × Task) := scopeTasks s task.job escope c

def ringPrev (ring : List (Nat × Nat × Task)) (rank : Nat) : Option (Nat × Nat × Task) :=
  match (ring.filter fun e => e.2.2.rank < rank).getLast? with
  | some e => some e
  | none => ring.getLast?

/-- The predecessor's card of the same ring step, where it is appended. -/
def ringMate (ring : List (Nat × Nat × Task)) (task : Task) (k : Card) : Option (Nat × Nat × Task × Card) :=
  (ringPrev ring task.rank).bind fun p => ((chainOf p.2.2 2).cards.find? fun x => x.op == 0xDA && x.escope == k.escope && x.args == k.args).map
    fun x => (p.1, p.2.1, p.2.2, x)

/-- The step of a ring card: it reads its own block; it takes the block of its predecessor for the same step once that has been read, to be
written to this core's record of the number that the predecessor's card names (R298). A block that differs in size from that record leaves it
unwritten, with SIZE set; so does one of another FMT (DESIGN CHOICE, log entry 110). -/
def ringStepMove (c t : Nat) (task : Task) (k : Card) (s : State) : State :=
  if !readerReady s k then s
  else if !ownRead s c k then afterRow s c t 2 k (readOwn c task k s)
  else match ringMate (ringOf s c task k.escope) task k with
    | none => s
    | some (pc, pt, _, x) =>
      if x.st != .started || !ownRead s pc x then s
      else
        let src := sourceOf s pc x
        let dst := cardRec (s.core c) k (ecDrec x.card)
        let k := { k with recs := k.recs ++ [(64, dst)] }
        let taken := fun (s : State) => match (s.task? pc pt).bind fun y => cardOf y 2 x.seq with
          | some x => putCard s pc pt 2 { x with unit := 1 }
          | none => s
        if unitCount src != unitCount dst || recFmt src != recFmt dst then taken (bindCard s c t { k with status := k.status ||| 4 } [] 0)
        else
          let dl := sweptLines (quadOfCore c) task.part dst s
          match writerFor dl.2 c task dl.1 with
          | (.error f, s) => afterRow s c t 2 { k with recs := k.recs.dropLast } (rowErr f 2 0 s)
          | (.ok w, s) => taken (bindCard s c t { k with deposit := w } (x.block.map fun u => (heldUnit (recFmt src) u, u.lost))
              (x.block.foldl (fun m u => m ||| u.mask) 0))

/-! What a cut waits for (Table 16.3). -/

/-- Whether a card of EP2 has something to run on to before its task is saved: a copy its current unit, unless a full buffer holds it; a
collective or ring step that has started, all of it: every participant's card has started, or, once it is bound, none of them is withheld
by a fault; a ring card that can take its predecessor's block, or that has taken it and can still be completed (Table 16.3). Any other is
withdrawn, or keeps what it holds, in the image. -/
def stepRunsOn (s : State) (c : Nat) (task : Task) (k : Card) : Bool :=
  if k.st != .started then false
  else if k.op == 0xD8 then
    !k.block.isEmpty && !(ecTocb k.card && (copyTarget s task k).any fun dc => (bufOf (s.core dc) (ecCbn k.card)).free == 0)
  else if k.op == 0xD9 then
    (if k.prog = 0 then (match collGather s c task k with
      | some ps => (ps.filterMap Party.here).all fun p => p.2.2.2.st == .started
      | none => false)
    else (collMembers s k.unit).all fun x => x.st != .withheld)
  else if k.op == 0xDA then
    (if k.prog = 0 then (ringMate (ringOf s c task k.escope) task k).any fun p => p.2.2.2.st == .started
    else !boundDone k || k.unit == 1)
  else false

/-- The unit that a started card reads next, as the record's index, where it is to read one. -/
def unitDue (s : State) (c t : Nat) (task : Task) (k : Card) : Option Nat :=
  let src := sourceOf s c k
  let i := k.prog + k.block.length
  if k.st != .started || !readerReady s k then none
  else if k.op = 0xD8 then
    (if unitCount src ≤ k.prog then none
    else if !ecTocb k.card then (if k.block.isEmpty then some (reordSrc (ecReord k.card) (unitCount src) i) else none)
    else (copyTarget s task k).bind fun dc => if (bufOf (s.core dc) (ecCbn k.card)).free != 0 && k.block.length < copyNeed s src (some dc) k
      then some (reordSrc (ecReord k.card) (unitCount src) i) else none)
  else if k.prog != 0 || ownRead s c k then none
  else if k.op = 0xD9 then (collGather s c task k).bind fun ps => if collTurn s c t k ps = .reads then some k.block.length else none
  else some k.block.length

/-- The host does not complete the read of the unit that a card is to read: the unit is lost (R398). -/
def unitTimeout (c t : Nat) (task : Task) (k : Card) (s : State) : State :=
  let src := sourceOf s c k
  let host := fun (i : Nat) => match (runKeys c task.part (engineNeed needRead k) (unitAddr src i) (unitSize (recFmt src)) s).1 with
    | .ok ks => ks.any fun x => isHost x.key
    | .error _ => false
  if (unitDue s c t task k).any host then afterRow s c t 2 k (.ok (holdUnit k { x := 0, lost := true }), s) else s

/-! Rows and completion. -/

/-- The next step of a started EP2 card. -/
def engineRow (c t : Nat) (task : Task) (k : Card) (s : State) : State :=
  match k.op with
  | 0xD8 =>
    if unitCount (cardRec (s.core c) k (ecSrec k.card)) ≤ k.prog then s else afterRow s c t 2 k (copyRow c task k s)
  | 0xD9 => if k.prog = 0 then collStep c t task k s else afterRow s c t 2 k (boundUnit c task k s)
  | _ => if k.prog = 0 then ringStepMove c t task k s else afterRow s c t 2 k (boundUnit c task k s)

/-- A copy's completion word, in a direct region (R296, R322, Table 14.5): the state after it, or where the copy stays. -/
def copyWord (c t : Nat) (task : Task) (k : Card) (s : State) : Except State State :=
  match k.cwHeld with
  | some (w, old) => .ok (cwWrite s w 3 old)
  | none =>
    if !ecCw k.card then .ok s
    else match directKeys c task.part needWord (ecCwaddr k.card) 4 s with
      | (.error f, s') => .error (afterRow s c t 2 k (rowErr f 2 k.prog s'))
      | (.ok [], s') => .ok s'
      | (.ok (w :: _), s') => match cwMove s' w 3 with
        | .waits => .error s
        | .read old s => .error (putCard s c t 2 { k with cwHeld := some (w, old) })
        | .written s => .ok s

/-- The release of a completion of pod or system scope (R293, R327): a fence is sent to each switch of the source's paths, and the card
completes once every switch has completed its own and, of system scope, what went to the host has been performed (R329, R330). A fence
is not waited for where no port is left to answer it (R408). -/
def cardReleased (c t chain : Nat) (k : Card) (s : State) : Except State State :=
  if k.escope < 4 then .ok s
  else match k.fences with
    | none => if (pathSwitches s).isEmpty then (if hostSettled s k.escope then .ok s else .error s)
      else .error (putCard s c t chain { k with fences := some (pathSwitches s) })
    | some l => if (l.isEmpty || !podReachable s) && hostSettled s k.escope then .ok s else .error s

/-- A ring card completes: the steps of its task in this ring count on, from 1 again where the ring's size has changed (R298). -/
def finishRing (c t : Nat) (task : Task) (k : Card) (s : State) : State :=
  let p := (ringOf s c task k.escope).length
  let r := ringAt task k.escope
  let step := if r.size = p then r.step + 1 else 1
  let s := s.setTask c t { task with rings := tabPut task.rings k.escope { r with step := step, size := p } }
  finishCard (dropCardRiders s k) c t 2 2 { k with status := k.status ||| BitVec.ofNat 32 (p * 2 ^ 16 + step % 256 * 2 ^ 8) }

/-- A card of a collective completes when every participant's writes have been made, those on other packages as these say, or no path is
left to one, which sets LOST (R297, R408). -/
def completeColl (c t : Nat) (k : Card) (s : State) : State :=
  let ms := collMembers s k.unit
  let far := s.remoteColls.filter fun r => r.unit == k.unit
  if k.unit == 0 || !(ms.all fun x => boundDone x && writerDone s x) || far.any (fun r => podReach s r.pkg) then s
  else match cardReleased c t 2 k s with
    | .error s => s
    | .ok s =>
      let s := if ms.length ≤ 1 then { s with remoteColls := s.remoteColls.filter fun r => r.unit != k.unit } else s
      finishCard (dropCardRiders s k) c t 2 2 (noteGone k !far.isEmpty)

/-- CARD_COMPLETE of an EP2 card (R293, R296, R298). -/
def completeEngine (c t : Nat) (task : Task) (k : Card) (s : State) : State :=
  if k.st != .started || !writerDone s k then s
  else match k.op with
    | 0xD8 =>
      if k.prog < unitCount (cardRec (s.core c) k (ecSrec k.card)) then s
      else match cardReleased c t 2 k s with
        | .error s => s
        | .ok s => match copyWord c t task k s with
          | .error s => s
          | .ok s => finishCard (dropCardRiders s k) c t 2 0 k
    | 0xD9 => completeColl c t k s
    | _ => if !boundDone k || k.unit != 1 then s else finishRing c t task k s

end Sys2Proof.Machine
end

