-- ==== Sys2Proof/Machine/Kv.lean ====
section
/-! DEFINITION. Sequences, key-value pages and draft windows (R266 to R288): the transactions of the sequence units. -/

namespace Sys2Proof.Machine

/-- A transaction: it reads and changes records, or faults and changes nothing (R273, R274). -/
abbrev KvM (α : Type) := ExceptT FaultInfo (StateM State) α

def kvFault {α : Type} (f : FaultInfo) : KvM α := throw f

/-! Records. -/

/-- What a transaction needs of a record's page: R and W, and memory of this package, since its sequence unit changes the record as no
host atomic of R166 does (R268, R274, Table 8.11; a page of another package faults alike: DESIGN CHOICE, log entry 111). -/
def needRw : Need := { r := true, w := true, acc := 1, hostOk := false, remoteOk := false }

/-- A record: its virtual address, where it stands, and who reaches it: a core by its number, or, from 512 on, the sequence unit
itself, which walks through that core's quad and has no stores of its own. -/
structure KvRec where
  va : Nat
  run : MemRun
  by_ : Nat
  deriving Repr, Inhabited

/-- The sequence unit at work through the quad of a core. -/
def unitOf (c : Nat) : Nat := 512 + c

/-- A record of n bytes, aligned to a, with R and W (Table 8.11). -/
def kvKey (c part va n a : Nat) : KvM KvRec := fun s =>
  if va % a != 0 then (.error { cls := 0x02, addr := va }, s)
  else if inWindow va then (.error { cls := 0x03, acc := 1, addr := va }, s)
  else match runKeys (c % 512) part needRw va n s with
    | (.error f, s) => (.error f, s)
    | (.ok ks, s) => (.ok ⟨va, ks.headD ⟨0, 0, 0⟩, c⟩, s)

/-- A request of a transaction at the controller of a record: like a strong atomic of package scope it waits for the controller, for the
core's pending stores to the record, and for an atomic that stands halfway there (R273, R322, R323, R356, R367; Table 15.2). -/
def kvRequest (r : KvRec) (n : Nat) (s : State) : State :=
  if pendingAt (s.core r.by_) r.run.key n || !homeOpen s r.run.key n 3 then holdMove s else countInTurn s r.run.key

/-- A record's bytes; uncorrectable ones fault as of any access that reads (Table 8.11, order 8). -/
def kvRead (r : KvRec) (n : Nat) : KvM Nat := fun s =>
  let s := readCheck (kvRequest r n s) r.run.key n
  if poisoned s r.run.key n then (.error { cls := 0x09, addr := r.va }, s) else (.ok (viewRead s r.run.view r.run.key n), s)

def kvWrite (r : KvRec) (n x : Nat) : KvM Unit := fun s => (.ok (), writeView (kvRequest r n s) r.run.view r.run.key n x false)

/-- A field of an image replaced. -/
def setBits (x lo len v : Nat) : Nat := x - bitsOf x lo len * 2 ^ lo + v % 2 ^ len * 2 ^ lo

/-! Sequence descriptors (Table 13.3). -/

def sdBtab (d : Nat) : Nat := bitsOf d 0 57
def sdRsbase (d : Nat) : Nat := bitsOf d 57 57
def sdClen (d : Nat) : Nat := bitsOf d 114 32
def sdRlen (d : Nat) : Nat := bitsOf d 146 32
def sdBtn (d : Nat) : Nat := bitsOf d 178 16
def sdPppl (d : Nat) : Nat := bitsOf d 194 4
def sdNlayl (d : Nat) : Nat := bitsOf d 198 4
def sdRssl (d : Nat) : Nat := bitsOf d 202 5
def sdCslot (d : Nat) : Nat := bitsOf d 207 7
def sdState (d : Nat) : Nat := bitsOf d 214 2
def sdWin (d x : Nat) : Nat := bitsOf d (216 + 74 * x) 74
def setClen (d v : Nat) : Nat := setBits d 114 32 v
def setRlen (d v : Nat) : Nat := setBits d 146 32 v
def setCslot (d v : Nat) : Nat := setBits d 207 7 v
def setState (d v : Nat) : Nat := setBits d 214 2 v
def setWin (d x v : Nat) : Nat := setBits d (216 + 74 * x) 74 v

/-- Window record fields (Table 13.4). -/
def wnNum (w : Nat) : Nat := bitsOf w 0 4
def wnCnt (w : Nat) : Nat := bitsOf w 4 5
def wnPrim (w : Nat) : Bool := w.testBit 9
def wnSnap (w : Nat) : Nat := bitsOf w 10 16
def wnPage (w s : Nat) : Nat := bitsOf w (26 + 24 * s) 24
def noPage : Nat := 0xFFFFFF

/-- The record of a window that is open. -/
def winRecord (d n : Nat) : Option Nat := (List.range 4).find? fun x => n != 0 && wnNum (sdWin d x) == n
def emptyRecord (d : Nat) : Option Nat := (List.range 4).find? fun x => wnNum (sdWin d x) == 0
def winOpen (d : Nat) : Bool := (List.range 4).any fun x => wnNum (sdWin d x) != 0
def ppp (d : Nat) : Nat := 2 ^ sdPppl d
def entryOf (d q : Nat) : Nat := q / ppp d
def pagesFor (d n : Nat) : Nat := (n + ppp d - 1) / ppp d

/-- Whether PPPL, NLAYL and RSSL stay within Table 13.3. -/
def sdOk (d : Nat) : Bool :=
  4 ≤ sdPppl d && sdPppl d ≤ 12 && sdNlayl d ≤ 8 && sdNlayl d + sdPppl d ≤ 14 && (sdRssl d == 0 || (3 ≤ sdRssl d && sdRssl d ≤ 24))

/-! The pool (R266, R267). -/

def kvPart (part : Nat) : KvM Part := fun s => (.ok (s.partn part), s)
def kvSetPart (part : Nat) (p : Part) : KvM Unit := fun s => (.ok (), s.setPart part p)

def pdKey (c part p : Nat) : KvM KvRec := do
  let pt ← kvPart part
  kvKey c part ((pt.kvpd.toNat + 16 * p) % 2 ^ 57) 16 16

def pdRead (c part p : Nat) : KvM Nat := do kvRead (← pdKey c part p) 16
def pdWrite (c part p x : Nat) : KvM Unit := do kvWrite (← pdKey c part p) 16 x

def pdRef (x : Nat) : Nat := bitsOf x 48 16
def pdClone (x : Nat) : Nat := bitsOf x 66 2
def pdNext (x : Nat) : Nat := bitsOf x 72 24
def pdWtag (x : Nat) : Nat := bitsOf x 68 4

/-- Alloc(t) (R267). -/
def kvAlloc (c part t : Nat) : KvM Nat := do
  let pt ← kvPart part
  let p := pt.kvfreehd.toNat % 2 ^ 24
  let x ← pdRead c part p
  let y := setBits (setBits (setBits (setBits (setBits x 48 16 1) 64 1 0) 66 2 0) 65 1 0) 68 4 t
  pdWrite c part p y
  kvSetPart part { pt with kvfreehd := BitVec.ofNat 64 (pdNext x), kvfree := BitVec.ofNat 64 ((pt.kvfree.toNat + 2 ^ 24 - 1) % 2 ^ 24) }
  return p

/-- A page goes to the head of the free list; KVFREE has 24 bits (Table 13.1). -/
def kvFree (c part p x : Nat) : KvM Unit := do
  let pt ← kvPart part
  pdWrite c part p (setBits x 72 24 (pt.kvfreehd.toNat % 2 ^ 24))
  kvSetPart part { pt with kvfreehd := BitVec.ofNat 64 p, kvfree := BitVec.ofNat 64 ((pt.kvfree.toNat + 1) % 2 ^ 24) }

/-- Release(p) (R267). -/
def kvRelease (c part p : Nat) : KvM Unit := do
  let x ← pdRead c part p
  let n := pdRef x - 1
  let x := setBits x 48 16 n
  if n = 1 then pdWrite c part p (setBits x 64 1 0)
  else if n = 0 then (if pdClone x = 1 then pdWrite c part p (setBits x 65 1 1) else kvFree c part p x)
  else pdWrite c part p x

/-! Block tables (Table 13.5). -/

def btKey (c part d e : Nat) : KvM KvRec := kvKey c part ((sdBtab d + 4 * e) % 2 ^ 57) 4 4
def btRead (c part d e : Nat) : KvM Nat := do kvRead (← btKey c part d e) 4
def btWrite (c part d e x : Nat) : KvM Unit := do kvWrite (← btKey c part d e) 4 x
def btValid (x : Nat) : Bool := x.testBit 31
def btPage (x : Nat) : Nat := bitsOf x 0 24
def btEntry (pend : Bool) (p : Nat) : Nat := 2 ^ 31 + (if pend then 2 ^ 24 else 0) + p

/-- Entries lo to lo + n − 1. -/
def entriesFrom (lo n : Nat) : List Nat := (List.range n).map (lo + ·)

/-! Clone riders of a sequence unit (R276). -/

def pageLines (base p : Nat) : List Nat := (List.range 256).map fun i => (base + 65536 * p) / 256 + i

/-- Boards the clone of page p to page q: R on the source, W on the destination. -/
def kvClone (c part p q : Nat) : KvM Unit := fun s =>
  let base := (s.partn part).kvpg.toNat % 2 ^ 57
  let quad := quadOfCore c
  let src := listLines quad part needRead ((List.range 256).zip (pageLines base p)) s
  let dst := listLines quad part needWrite ((List.range 256).zip (pageLines base q)) src.2.2
  match firstFailed src.1 dst.1 with
  | some f => (.error f.2, dst.2.2)
  | none =>
    let chans := dst.2.1.foldl (fun t y => tabMod {} t y.chan fun x => { x with dest := x.dest ++ [(y.line, y.offset)] }) (byChannel src.2.1)
    (.ok (), (enterRider dst.2.2 { part := part, ticket := 0, op := 0xCF, kind := 2, core := c, chans := chans, page := q,
                                   plain := plainOffsets src.2.1, plainDest := plainOffsets dst.2.1 }).2)

/-! Results (Table 13.8). -/

structure KvOut where
  status : Nat := 0
  clen : Nat := 0
  lane2 : Nat := 0
  lane45 : Nat := 0
  change : Bool := true

def kvToken (o : KvOut) (free : Nat) : Token :=
  let v := [o.status, o.clen, o.lane2, free % 2 ^ 32, o.lane45 % 2 ^ 32, o.lane45 / 2 ^ 32]
  laneToken 0x3F#16 fun l => v.getD l 0

/-- A refusal changes nothing (R273). -/
def kvRefuse (status clen lane2 : Nat) : KvM KvOut := return { status := status, clen := clen, lane2 := lane2, change := false }

/-- What a transaction works on: the core and partition, the descriptor's address, record and image, and the card's fields. -/
structure KvArg where
  c : Nat
  part : Nat
  va : Nat
  key : KvRec
  d : Nat
  w : Nat
  n : Nat
  addr2 : Nat
  deriving Repr, Inhabited

/-- Writes the descriptor; the unit keeps the addresses of the partition's open sequences (R266, R270). -/
def kvPut (a : KvArg) (d : Nat) : KvM Unit := do
  kvWrite a.key 64 d
  let pt ← kvPart a.part
  kvSetPart a.part { pt with seqs := if sdState d = 1 then a.va :: pt.seqs.erase a.va else pt.seqs.erase a.va }

/-- The sequence-state fault of a transaction (Table 13.10). -/
def seqFault {α : Type} (a : KvArg) (op : Nat) : KvM α := kvFault { cls := 0x0F, addr := a.va, info := op }

/-! The transactions. -/

/-- `kvopen` (R275). -/
def kvOpen (a : KvArg) : KvM KvOut := do
  let pt ← kvPart a.part
  let need := pagesFor a.d a.n
  if sdBtn a.d < need then kvRefuse 4 (sdClen a.d) 0
  else if pt.kvfree.toNat < need + pt.kvreserve.toNat then kvRefuse 1 (sdClen a.d) 0
  else
    (List.range (sdBtn a.d)).forM fun e => btWrite a.c a.part a.d e 0
    (List.range need).forM fun e => do btWrite a.c a.part a.d e (btEntry false (← kvAlloc a.c a.part 0))
    let d := (List.range 4).foldl (fun d x => setWin d x 0) (setCslot (setRlen (setClen a.d 0) a.n) 0)
    kvPut a (setState d 1)
    return { clen := 0 }

/-- `kvfork` (R275). -/
def kvFork (a : KvArg) (ckey : KvRec) (cd : Nat) : KvM KvOut := do
  let pt ← kvPart a.part
  let n := pagesFor a.d (sdClen a.d)
  if sdBtn cd < n then kvRefuse 4 (sdClen a.d) 0
  else if pt.kvfree.toNat < pt.kvreserve.toNat then kvRefuse 1 (sdClen a.d) 0
  else
    (List.range (sdBtn cd)).forM fun e => do
      if e < n then
        let x ← btRead a.c a.part a.d e
        let p ← pdRead a.c a.part (btPage x)
        pdWrite a.c a.part (btPage x) (setBits (setBits p 48 16 (pdRef p + 1)) 64 1 1)
        btWrite a.c a.part cd e x
      else btWrite a.c a.part cd e 0
    let d := (List.range 4).foldl (fun d x => setWin d x 0) (setCslot (setRlen (setClen cd (sdClen a.d)) (sdClen a.d)) 0)
    kvWrite ckey 64 (setState d 1)
    let pt ← kvPart a.part
    kvSetPart a.part { pt with seqs := a.addr2 :: pt.seqs.erase a.addr2 }
    return { clen := sdClen a.d }

/-- Marks a page as a clone of another, filled below an offset (R276, Table 13.13). -/
def markClone (c part q p off : Nat) : KvM Unit := do
  let x ← pdRead c part q
  pdWrite c part q (setBits (setBits (setBits x 66 2 1) 0 24 p) 24 12 off)

/-- `kvreserve` with W = 0 (R276). -/
def kvReserve0 (a : KvArg) : KvM KvOut := do
  let d := a.d
  let rlen := sdRlen d
  let e0 := entryOf d rlen
  let e1 := entryOf d (rlen + a.n - 1)
  if winOpen d then kvRefuse 3 (sdClen d) 0
  else if sdBtn d ≤ e1 then kvRefuse 4 (sdClen d) 0
  else
    let pt ← kvPart a.part
    let es := entriesFrom e0 (e1 + 1 - e0)
    let r := rlen % ppp d
    let first ← btRead a.c a.part d e0
    let clone ← (if r = 0 then pure false else do return 1 < pdRef (← pdRead a.c a.part (btPage first)))
    let empty ← es.filterM fun e => do return !btValid (← btRead a.c a.part d e)
    if pt.kvfree.toNat < empty.length + clone.toNat then kvRefuse 2 (sdClen d) 0
    else
      if clone then
        let p := btPage first
        let q ← kvAlloc a.c a.part 0
        markClone a.c a.part q p r
        kvRelease a.c a.part p
        btWrite a.c a.part d e0 (btEntry true q)
        kvClone a.c a.part p q
      empty.forM fun e => do btWrite a.c a.part d e (btEntry false (← kvAlloc a.c a.part 0))
      kvPut a (setRlen d (rlen + a.n))
      return { clen := sdClen d, lane2 := rlen }

/-- The page that a window's slot takes (Table 13.13): whether one is allocated, and the choice. -/
def windowPage (a : KvArg) (x slot : Nat) : KvM (Bool × Option Nat) := do
  let d := a.d
  let e := entryOf d (sdClen d)
  if slot = 1 || sdClen d % ppp d = 0 then return (true, none)
  else
    let p := btPage (← btRead a.c a.part d e)
    if wnPrim (sdWin d x) && pdRef (← pdRead a.c a.part p) = 1 then return (false, some p) else return (true, some p)

/-- `kvreserve` in a window (R279). -/
def kvReserveW (a : KvArg) (x : Nat) : KvM KvOut := do
  let d := a.d
  let w := sdWin d x
  let first := sdClen d + wnCnt w
  let e := entryOf d (sdClen d)
  let last := entryOf d (first + a.n - 1)
  if 16 < wnCnt w + a.n || sdBtn d ≤ e || (sdBtn d ≤ e + 1 && e < last) then kvRefuse 4 (sdClen d) 0
  else
    let pt ← kvPart a.part
    let slots := (List.range 2).filter fun i => wnPage w i == noPage && (if i = 0 then entryOf d first == e else e < last)
    let picks ← slots.mapM fun i => do return (i, ← windowPage a x i)
    if pt.kvfree.toNat < picks.countP fun p => p.2.1 then kvRefuse 2 (sdClen d) 0
    else
      let w ← picks.foldlM (fun w p => do
        match p.2 with
        | (false, some q) => return setBits w (26 + 24 * p.1) 24 q
        | (_, none) => return setBits w (26 + 24 * p.1) 24 (← kvAlloc a.c a.part a.w)
        | (true, some src) => do
          let q ← kvAlloc a.c a.part a.w
          markClone a.c a.part q src (sdClen d % ppp d)
          kvClone a.c a.part src q
          return setBits w (26 + 24 * p.1) 24 q) w
      kvPut a (setWin d x (setBits w 4 5 (wnCnt w + a.n)))
      return { clen := sdClen d, lane2 := first }

/-- `kvwin` (R278). -/
def kvWin (a : KvArg) : KvM KvOut := do
  let d := a.d
  match emptyRecord d with
  | none => kvRefuse 3 (sdClen d) 0
  | some x =>
    if (winRecord d a.w).isSome || sdRlen d != sdClen d then kvRefuse 3 (sdClen d) 0
    else
      let w := a.w + (if winOpen d then 0 else 2 ^ 9) + noPage * 2 ^ 26 + noPage * 2 ^ 50
      kvPut a (setWin d x w)
      return { clen := sdClen d }

/-- One page of a record under commit or discard (R281): kept in the block table, or released. -/
def settlePage (a : KvArg) (keep : Bool) (e g : Nat) : KvM Unit := do
  let t ← (if e < sdBtn a.d then btRead a.c a.part a.d e else pure 0)
  let named : Bool := btValid t && btPage t == g
  if keep then
    if !named then
      if btValid t then kvRelease a.c a.part (btPage t)
      let x ← pdRead a.c a.part g
      btWrite a.c a.part a.d e (btEntry (pdClone x == 1) g)
    let x ← pdRead a.c a.part g
    let x := setBits x 68 4 0
    pdWrite a.c a.part g (if pdClone x = 2 then setBits x 66 2 0 else x)
  else if !named then kvRelease a.c a.part g

/-- Every page of one window record, those that hold an accepted position below L kept. -/
def settleWindow (a : KvArg) (y : Nat) (keepTo : Option Nat) : KvM Unit := do
  let w := sdWin a.d y
  let e := entryOf a.d (sdClen a.d)
  (List.range 2).forM fun i => do
    if wnPage w i != noPage then
      settlePage a (match keepTo with
        | some l => (e + i) * ppp a.d < l
        | none => false) (e + i) (wnPage w i)

/-- `kvcommit` (R281). -/
def kvCommit (a : KvArg) (x : Option Nat) : KvM KvOut := do
  let d := a.d
  let l := sdClen d + a.n
  match x with
  | none =>
    kvPut a (setClen d l)
    return { clen := l }
  | some x =>
    (List.range 4).forM fun y => do
      if wnNum (sdWin d y) != 0 then settleWindow a y (if y = x ∧ 0 < a.n then some l else none)
    let d := (List.range 4).foldl (fun d y => setWin d y 0) d
    let d := if 0 < a.n ∧ sdRssl d ≠ 0 then setCslot d ((sdCslot d + 16 * x + a.n) % 65) else d
    kvPut a (setRlen (setClen d l) l)
    return { clen := l }

/-- `kvabort` (R281). -/
def kvAbort (a : KvArg) (x : Option Nat) : KvM KvOut := do
  let d := a.d
  match x with
  | some x =>
    settleWindow a x none
    kvPut a (setWin d x 0)
    return { clen := sdClen d }
  | none =>
    let lo := pagesFor d (sdClen d)
    (entriesFrom lo (sdBtn d - lo)).forM fun e => do
      let t ← btRead a.c a.part d e
      if btValid t then kvRelease a.c a.part (btPage t)
      if t != 0 then btWrite a.c a.part d e 0
    kvPut a (setRlen d (sdClen d))
    return { clen := sdClen d }

/-- `kvlen` (R282). -/
def kvLen (a : KvArg) : KvM KvOut := do
  let d := a.d
  let rs := (sdRsbase d + sdCslot d * 2 ^ sdRssl d) % 2 ^ 57
  if a.w = 0 then return { clen := sdClen d, lane2 := sdRlen d, lane45 := rs }
  else match winRecord d a.w with
    | some x => return { clen := sdClen d, lane2 := sdClen d + wnCnt (sdWin d x), lane45 := rs }
    | none => return { status := 6, clen := sdClen d, lane2 := sdClen d, lane45 := rs }

/-- The die whose sequence unit homes a record (R273). -/
def homeDie (key : Nat) : Nat := chanOfPa key / 96

/-- `kvclose` (R283). -/
def kvClose (a : KvArg) : KvM KvOut := do
  let d := a.d
  (List.range 4).forM fun y => do if wnNum (sdWin d y) != 0 then settleWindow a y none
  (List.range (sdBtn d)).forM fun e => do
    let t ← btRead a.c a.part d e
    if btValid t then kvRelease a.c a.part (btPage t)
    if t != 0 then btWrite a.c a.part d e 0
  let d := (List.range 4).foldl (fun d y => setWin d y 0) d
  kvPut a (setState (setRlen (setClen d 0) 0) 0)
  let key := a.key.run.key
  fun s => (.ok { clen := 0 }, s.setDie (homeDie key) { s.die (homeDie key) with arms := tabDel (s.die (homeDie key)).arms key })

/-- `kvarm` (R284). -/
def kvArm (a : KvArg) : KvM KvOut := do
  let flag ← kvKey a.c a.part a.addr2 4 4
  let key := a.key.run.key
  let die ← (fun s => (.ok (s.die (homeDie key)), s) : KvM Die)
  if 256 ≤ die.arms.length && (tabFind die.arms key).isNone then kvRefuse 4 (sdClen a.d) 0
  else
    kvWrite flag 4 0
    fun s => (.ok { clen := sdClen a.d }, s.setDie (homeDie key) { die with arms := tabPut die.arms key flag.run })

/-- `kvsnap` (R280). -/
def kvSnap (a : KvArg) (x : Nat) : KvM KvOut := do
  let d := a.d
  let w := sdWin d x
  kvPut a (setWin d x (w ||| 2 ^ (10 + a.n - 1)))
  let slot := (sdCslot d + 16 * x + a.n) % 65
  return { clen := sdClen d, lane45 := (sdRsbase d + slot * 2 ^ sdRssl d) % 2 ^ 57 }

/-! The card (Tables 13.6, 13.7) and the checks before a transaction (R274). -/

def kcSeq (r : BitVec 512) : Nat := (r.extractLsb' 0 57).toNat
def kcW (r : BitVec 512) : Nat := (r.extractLsb' 64 32).toNat
def kcN (r : BitVec 512) : Nat := (r.extractLsb' 96 32).toNat
def kcAddr2 (r : BitVec 512) : Nat := (r.extractLsb' 128 57).toNat
def kcE0 (r : BitVec 512) : Nat := (r.extractLsb' 192 32).toNat
def kcLay (r : BitVec 512) : Nat := (r.extractLsb' 224 8).toNat
def kcLays (r : BitVec 512) : Nat := (r.extractLsb' 232 8).toNat
def kcDpkg (r : BitVec 512) : Nat := (r.extractLsb' 256 8).toNat
def kcReord (r : BitVec 512) : ReW := readRe (BitVec.ofNat 64 (r.extractLsb' 288 32).toNat)

def kvMask (op : Nat) : Nat :=
  let f := fieldMask
  f 0 57 + (match op with
    | 0xDB => f 96 32
    | 0xDC => f 128 57
    | 0xDD => f 64 4 + f 96 32
    | 0xDE => f 64 4
    | 0xDF => f 64 4 + f 96 32
    | 0xE0 => f 64 4
    | 0xE1 => f 64 4
    | 0xE2 => 0
    | 0xE3 => f 96 32 + f 128 57 + f 192 32 + f 224 16 + f 256 8 + f 288 32
    | 0xE4 => f 128 57
    | _ => f 64 4 + f 96 32)

/-- Limits of Table 13.7. -/
def kvLimits (op : Nat) (r : BitVec 512) : Bool :=
  let n := kcN r
  let w := kcW r
  match op with
  | 0xDB => n ≤ 65535
  | 0xDD => if w = 0 then 1 ≤ n && n ≤ 65535 else 1 ≤ n && n ≤ 16
  | 0xDE => 1 ≤ w
  | 0xDF => n ≤ 65535
  | 0xE3 => 1 ≤ n && n ≤ 256
  | 0xE5 => 1 ≤ w && 1 ≤ n && n ≤ 16
  | _ => true

/-- The transaction of an opcode once Table 13.10 is met; `kvsend` is apart. -/
def kvTransaction (op c part : Nat) (card : BitVec 512) : KvM KvOut := do
  let va := kcSeq card
  let key ← kvKey c part va 64 64
  let d ← kvRead key 64
  let a : KvArg := ⟨c, part, va, key, d, kcW card, kcN card, kcAddr2 card⟩
  let child ← (if op = 0xDC then do
      let k ← kvKey c part a.addr2 64 64
      return (k, ← kvRead k 64)
    else if op = 0xE4 then do
      let k ← kvKey c part a.addr2 4 4
      return (k, 0)
    else pure (default, 0) : KvM (KvRec × Nat))
  let x := winRecord d a.w
  let cnt := (x.map fun y => wnCnt (sdWin d y)).getD 0
  let snap := (x.map fun y => wnSnap (sdWin d y)).getD 0
  if card.toNat &&& (2 ^ 512 - 1 - kvMask op) != 0 || !kvLimits op card || !sdOk d then kvFault { cls := 0x05, addr := va }
  else if (if op = 0xDB then sdState d == 1 else sdState d != 1) then seqFault a op
  else if op = 0xDC && (sdState child.2 != 0 || sdPppl child.2 != sdPppl d || sdNlayl child.2 != sdNlayl d || sdRssl child.2 != sdRssl d) then seqFault a op
  else if (op = 0xDF || op = 0xE0 || op = 0xE5 || op = 0xDD) && a.w != 0 && x.isNone then seqFault a op
  else if op = 0xDF && (if a.w = 0 then sdRlen d - sdClen d < a.n else cnt < a.n) then seqFault a op
  else if op = 0xE5 && cnt < a.n then seqFault a op
  else if op = 0xDF && a.w != 0 && 0 < a.n && sdRssl d != 0 && !snap.testBit (a.n - 1) then seqFault a op
  else if op = 0xE5 && sdRssl d = 0 then seqFault a op
  else match op with
    | 0xDB => kvOpen a
    | 0xDC => kvFork a child.1 child.2
    | 0xDD => (match x with
      | some x => kvReserveW a x
      | none => kvReserve0 a)
    | 0xDE => kvWin a
    | 0xDF => kvCommit a x
    | 0xE0 => kvAbort a x
    | 0xE1 => kvLen a
    | 0xE2 => kvClose a
    | 0xE4 => kvArm a
    | _ => kvSnap a (x.getD 0)

/-- A kv node fires (R273): it sends its transaction to the sequence unit, and owes the result. -/
def fireKv (op : Nat) (w : EpW) (sub : BitVec 8) (s : State) : Host.Outcome State Fault Refusal :=
  match foc? s with
  | none => .next s
  | some f =>
    let ports := withPred w.pm.toNat [0]
    match readyEp f ports with
    | none => .next s
    | some ops =>
      if actsNull w.pm.toNat ops then .next (epFired s f ports 0 (some nullToken))
      else
        let key := 2 ^ 400 + s.tick
        let q : KvReq := { op := op, sub := sub.toNat, card := (tokAt ops 0).data, iter := f.nd.iter, key := key, stamp := s.stamp }
        .next (epFired s { f with ph := { f.ph with kvReqs := f.ph.kvReqs ++ [q] } } ports key none)

/-! `kvsend` (R285). -/

/-- The source's entries as pages, each valid and holding a committed position. -/
def sendPages (a : KvArg) (e0 : Nat) : KvM (Option (List Nat)) := do
  let es := entriesFrom e0 a.n
  if es.any fun e => sdBtn a.d ≤ e || sdClen a.d ≤ e * ppp a.d then return none
  else
    let ts ← es.mapM fun e => btRead a.c a.part a.d e
    if ts.all btValid then return some (ts.map btPage) else return none

/-- The pages of a receiving sequence, where it is open and armed, of the shape given and with valid entries (R285). -/
def acceptPages (b : KvArg) (e0 pppl nlayl : Nat) : KvM (Option (List Nat)) := do
  let key := b.key.run.key
  let die ← (fun s => (.ok (s.die (homeDie key)), s) : KvM Die)
  let es := entriesFrom e0 b.n
  if sdState b.d != 1 || (tabFind die.arms key).isNone || sdPppl b.d != pppl || sdNlayl b.d != nlayl || es.any (fun e => sdBtn b.d ≤ e) then return none
  else
    let ts ← es.mapM fun e => btRead b.c b.part b.d e
    if ts.all btValid then return some (ts.map btPage) else return none

/-- What `kvsend` finds: refused with a status, or accepted with what it will send. What the unit of another package answers is a free
value: that it accepts, that its destination is none of the shape (status 5), or ownership, where ADDR2, checked there in its
partition's address space, fails (R404; log entry 12). -/
def kvSendCheck (c part pkg : Nat) (card : BitVec 512) : KvM (Except Nat (List (Nat × Nat) × Nat × Option Nat) × Nat) := do
  let va := kcSeq card
  let key ← kvKey c part va 64 64
  let d ← kvRead key 64
  let a : KvArg := ⟨c, part, va, key, d, 0, kcN card, kcAddr2 card⟩
  let local_ : Bool := kcDpkg card == pkg
  let dst ← (if local_ then do
      let k ← kvKey c part a.addr2 64 64
      return (k, ← kvRead k 64)
    else if kcAddr2 card % 64 != 0 then kvFault { cls := 0x02, addr := kcAddr2 card }
    else pure (default, 0) : KvM (KvRec × Nat))
  if card.toNat &&& (2 ^ 512 - 1 - kvMask 0xE3) != 0 || !kvLimits 0xE3 card || !sdOk d || kcLays card = 0 || 2 ^ sdNlayl d < kcLay card + kcLays card then
    kvFault { cls := 0x05, addr := va }
  else if sdState d != 1 then seqFault a 0xE3
  else match ← sendPages a (kcE0 card) with
    | none => seqFault a 0xE3
    | some src =>
      if !local_ then
        let answer ← (fun s => (.ok (if podReach s (kcDpkg card) then Config.freeWord s.tick % 3 else 0), s) : KvM Nat)
        if answer = 2 then kvFault { cls := 0x0E, acc := 1, addr := a.addr2 }
        else return (if answer = 1 then .error 5 else .ok (src.map fun p => (p, p), sdNlayl d, none), sdClen d)
      else match ← acceptPages ⟨c, part, a.addr2, dst.1, dst.2, 0, kcN card, 0⟩ (kcE0 card) (sdPppl d) (sdNlayl d) with
        | some ps => return (.ok (src.zip ps, sdNlayl d, some dst.1.run.key), sdClen d)
        | none => return (.error 5, sdClen d)

/-- The lines of one layer of a list of pages, in order. -/
def layerLines (base nlayl layer : Nat) (pages : List Nat) : List Nat :=
  let n := 256 / 2 ^ nlayl
  pages.flatMap fun p => (List.range n).map fun i => (base + 65536 * p) / 256 + layer * n + i

/-- The readers of a layer board (R285). -/
def sendLayer (s : State) (k : Nat) (x : KvSend) : Except FaultInfo State :=
  let base := (s.partn x.part).kvpg.toNat % 2 ^ 57
  match boardReader s x.core x.part x.job x.rank (layerLines base x.nlayl x.layer (x.pages.map Prod.fst)) with
  | (.error f, u) => .error (if u.mustWait then notYet else f)
  | (.ok key, s) => .ok { s with kvsends := tabPut s.kvsends k { x with reader := some key, writer := none } }

/-- A segment's words under the reorder, 4-byte grain (R183, R285). -/
def reordSegment (w : ReW) (bytes x : Nat) : Nat :=
  let n := bytes / 4
  packElems 32 ((List.range n).map fun i => bitsOf x (32 * reordSrc w n i) 32)

/-- The deposits of a layer board, from what its readers read; none where a line of theirs fails a check. -/
def sendDeposits (s : State) (k : Nat) (x : KvSend) (r : Rider) : Option State :=
  let base := (s.partn x.part).kvpg.toNat % 2 ^ 57
  let n := 256 / 2 ^ x.nlayl
  let lines := layerLines base x.nlayl x.layer (x.pages.map Prod.snd)
  let segs := (List.range x.pages.length).map fun e =>
    reordSegment (kcReord x.card) (256 * n) (packElems 2048 ((List.range n).map fun i => tabGet 0 r.data (e * n + i)))
  let vals := (List.range lines.length).map fun i => bitsOf (segs.getD (i / n) 0) (2048 * (i % n)) 2048
  let lost := fun (i w : Nat) => let v := reordSrc (kcReord x.card) (64 * n) (64 * (i % n) + w)
    (lostSectors r (i / n * n + v / 64)).testBit (v / 8 % 8)
  let bad := (List.range lines.length).map fun i => (i, (List.range 64).foldl (fun m w => if lost i w then m ||| 2 ^ (w / 8) else m) 0)
  match boardDeposit s x.core x.part x.job x.rank (lines.zip vals) bad with
  | (.error _, u) => if u.mustWait then some u else none
  | (.ok key, s) => some { s with kvsends := tabPut s.kvsends k { x with writer := some key } }

/-- The requests that carry a layer to another package, one for each line (R407): where they go there is not this package's to know. -/
def podSendLayer (s : State) (x : KvSend) : State :=
  (List.range (x.pages.length * (256 / 2 ^ x.nlayl))).foldl (fun s' i => podSend s' (kcDpkg x.card) (256 * Config.freeWord (s.tick + i))) s

/-- A `kvsend` completes in its chain; a synchronous node's token is its result (R285). -/
def sendDone (s : State) (k : Nat) (x : KvSend) (status : Nat) : State :=
  let s := { s with kvsends := tabDel s.kvsends k }
  let free := (s.partn x.part).kvfree.toNat
  let d := ((do kvRead (← kvKey (unitOf x.core) x.part x.seqVa 64 64) 64 : KvM Nat) s)
  let s := d.2
  let clen := match d.1 with
    | .ok d => sdClen d
    | .error _ => 0
  modTask s x.job x.rank fun t =>
    settleOwed (retireCard t 2 ⟨x.seq, 0, 0, 0⟩) 126 (cardKey 2 x.seq) (kvToken { status := status, clen := clen } free)

/-- KVSEND_LAYER_FLAG: the next step of a send: its deposits once the readers have alighted; the flag once those have, by a read and a later write (R322),
then the next layer or the end. A destination closed meanwhile raises no flag (R287). Riders that can no longer board end the send as an
unreachable package does (DESIGN CHOICE, log entry 111). -/
def layerFlag (k : Nat) (s : State) : State :=
  match tabFind s.kvsends k with
  | none => s
  | some x =>
    let flag := x.dst.bind fun d => tabFind (s.die (homeDie d)).arms d
    let next := fun (s : State) =>
      let s := { s with riders := s.riders.filter fun e => !(x.reader == some e.1 || x.writer == some e.1) }
      if x.left ≤ 1 then sendDone s k x 0
      else match sendLayer s k { x with layer := x.layer + 1, left := x.left - 1, cwHeld := none } with
        | .ok s => s
        | .error i => if i.cls = notYet.cls then holdMove s else sendDone s k x 7
    match x.cwHeld with
    | some (w, old) => next (cwWrite s w 3 old)
    | none =>
    match x.reader.bind s.rider? with
    | none => s
    | some r =>
      if !r.alit then s
      else match x.writer with
        | none =>
          if x.dst.isSome then (sendDeposits s k x r).getD (sendDone s k x 7)
          else if podReach s (kcDpkg x.card) then next (podSendLayer s x)
          else sendDone s k x 7
        | some wk =>
          if !(s.rider? wk).all Rider.alit then s
          else match flag with
            | none => next s
            | some w => match cwMove s w 3 with
              | .waits => s
              | .read old s => { s with kvsends := tabPut s.kvsends k { x with cwHeld := some (w, old) } }
              | .written s => next s

/-! Transactions take effect (R273). -/

/-- The waits of a transaction, which is a release and an acquire at package scope (R273, R321). -/
def kvReady (s : State) (c t : Nat) (q : KvReq) : Bool := earlierDone s c t 3 false fun n _ => n < q.stamp

/-- What a transaction leaves: a fault, or its result token, or, of a `kvsend` whose token is owed until it completes, that key. -/
inductive KvEnd where
  | fault (i : FaultInfo)
  | token (x : Token)
  | later (key : Nat)

/-- The transaction of a node, `kvsend` apart, with its result (Table 13.8). -/
def kvResult (op c part : Nat) (card : BitVec 512) (s : State) : KvEnd × State :=
  match kvTransaction op c part card s with
  | (.error i, u) => (.fault i, { s with mustWait := u.mustWait })
  | (.ok o, u) => (.token (kvToken o ((if o.change then u else s).partn part).kvfree.toNat), if o.change then u else { s with mustWait := u.mustWait })

/-- The transaction of a `kvsend` (R285): refused with a status, or begun, its first layer boarded. -/
def kvsendResult (c t : Nat) (task : Task) (handler : Bool) (q : KvReq) (s : State) : KvEnd × State :=
  let part := task.part
  let refuse := fun (s : State) (st clen : Nat) => (KvEnd.token (kvToken { status := st, clen := clen } (s.partn part).kvfree.toNat), s)
  match kvSendCheck c part s.pkgId q.card s with
  | (.error i, u) => (.fault i, { s with mustWait := u.mustWait })
  | (.ok (.error st, clen), s) => refuse s st clen
  | (.ok (.ok (pages, nlayl, dst), clen), s') =>
    if dst.isNone && !podReach s (kcDpkg q.card) then refuse s' 7 clen
    else
      let task := appendCard task 2 { seq := 0, op := 0xE3, sub := q.sub, card := q.card, handler := handler, order := s.cardOrder, st := .started }
      let seq := (chainOf task 2).tail
      let x : KvSend := { part := part, core := c, job := task.job, rank := task.rank, seq := seq, seqVa := kcSeq q.card, card := q.card,
                          pages := pages, nlayl := nlayl, layer := kcLay q.card, left := kcLays q.card, dst := dst }
      match sendLayer (({ s' with cardOrder := s'.cardOrder + 1 }).setTask c t task) s.cardOrder x with
      | .error i => (.fault i, { s with mustWait := i.cls = notYet.cls })
      | .ok s => (if q.sub = 1 then .later (cardKey 2 seq) else .token (issueToken seq), s)

/-- The phase of a task without a request, or with it marked to be sent again. -/
def dropReq (ph : Phase) (key : Nat) : Phase := { ph with kvReqs := ph.kvReqs.filter fun q => q.key != key }
def markReq (ph : Phase) (key : Nat) (again : Bool) : Phase :=
  { ph with kvReqs := ph.kvReqs.map fun q => if q.key = key then { q with again := again } else q }

/-- A token owed under a key is owed under another. -/
def renameOwed (ph : Phase) (slot old new : Nat) : Phase :=
  setOwed ph slot ((owedOf ph slot).map fun o => if o.key = old then { o with key := new } else o)

/-- The fault of a transaction, which has changed nothing: its node sends it again after `eret`, and the fault is taken where the phase
runs; one that a cut waits for is recorded (R273, R286, R340). -/
def kvFaults (c t : Nat) (heldP : Bool) (ph : Phase) (q : KvReq) (i : FaultInfo) (s : State) : State :=
  let s := setPhaseAt s c t heldP (markReq ph q.key true)
  match s.task? c t with
  | none => s
  | some task =>
    let x : FrecIn := { cls := i.cls, slot := 126, acc := i.acc, detail := i.detail, iter := q.iter, stall := (nodeOf ph 126).stall, addr := i.addr, info := i.info, pc := ph.addr }
    if task.cutting then s.setTask c t { task with deferred := task.deferred ++ [{ x with src := 5, inHandler := ph.handler }] }
    else if heldP || (s.core c).running != some t then s
    else takeFault s c t x ph.handler

/-- A transaction takes its place in sequence order (R273): request n of the running or held phase of a task is performed whole. The
requests of one node may take their places in any order, since each goes to the unit of its own die (R395). -/
def kvMove (c t : Nat) (heldP : Bool) (n : Nat) (s : State) : State :=
  match s.task? c t with
  | none => s
  | some task => match (phaseAt task heldP).bind fun ph => (ph.kvReqs[n]?).map fun q => (ph, q) with
    | none => s
    | some (ph, q) =>
      if (q.again && (heldP || task.cutting || (s.core c).running != some t)) || !kvReady s c t q then s
      else
        let r := if q.op = 0xE3 then kvsendResult c t task ph.handler q s else kvResult q.op c task.part q.card s
        match r with
        | (.fault i, s) => if s.mustWait then s else kvFaults c t heldP ph q i s
        | (.token x, s) => modTask (acquireAt s c 3) task.job task.rank fun task =>
            settleOwed { task with phase := task.phase.map fun ph => dropReq ph q.key, held := task.held.map fun ph => dropReq ph q.key } 126 q.key x
        | (.later key, s) => modTask (acquireAt s c 3) task.job task.rank fun task =>
            let go := fun ph => renameOwed (dropReq ph q.key) 126 q.key key
            { task with phase := task.phase.map go, held := task.held.map go }

/-! CLONE_ALIGHT (R270). -/

/-- Clears PEND of one entry that names a page. -/
def clearPend (c part d q e : Nat) : KvM Unit := do
  let t ← btRead c part d e
  if btValid t && btPage t == q && t.testBit 24 then btWrite c part d e (btEntry false q)

/-- PEND cleared in the entries of one open sequence that name a page. -/
def clearPendSeq (c part q va : Nat) : KvM Unit := do
  let d ← kvRead (← kvKey c part va 64 64) 64
  (List.range (sdBtn d)).forM fun e => clearPend c part d q e

/-- What a sequence unit does when a clone's rider alights: PEND cleared wherever the page is named, CLONE settled, and a
page that waits for it freed. A sequence whose records can no longer be reached keeps what it has (DESIGN CHOICE, log entry 111). -/
def cloneAlight (c part q : Nat) : KvM Unit := do
  let pt ← kvPart part
  pt.seqs.forM fun va => tryCatch (clearPendSeq c part q va) fun _ => pure ()
  let x ← pdRead c part q
  let x := setBits x 66 2 (if pdWtag x = 0 then 0 else 2)
  if x.testBit 65 then kvFree c part q x else pdWrite c part q x

/-- RIDER_ALIGHT: a rider done on every channel, by its kind (R221, R224, R233, R270). -/
def riderAlight (key : Nat) (s : State) : State :=
  match s.rider? key with
  | none => s
  | some r =>
    if r.standing || !riderDone r then s
    else if r.kind = 1 then (if (getTask s r.job r.rank).isSome then s.setRider key { r with alit := true } else { s with riders := tabDel s.riders key })
    else if r.kind = 2 then
      let s := { s with riders := tabDel s.riders key }
      (cloneAlight (unitOf r.core) r.part r.page s).2
    else if r.op = 0xCD then alightBank s key r
    else alightRider s key r

end Sys2Proof.Machine
end

