-- ==== Sys2Proof/Machine/CardMoves.lean ====
section
/-! DEFINITION. The moves of cards by chain: start, one row or unit, completion, and the fault a generator withholds (R204,
R207, R291, R293, R327). A task whose cut has begun starts no card and works no matrix or copy row (R340). -/

namespace Sys2Proof.Machine

/-- Whether a card moves on: a cut stops what can be saved between rows; a copy writes its current unit, and collectives and ring steps run
on (Table 16.3, R340). -/
def cardRuns (task : Task) (k : Card) : Bool := !task.cutting || k.op == 0xD9 || k.op == 0xDA || (k.op == 0xD8 && !k.block.isEmpty)

/-- A card of a task by its chain and number. -/
def withCard (s : State) (c t chain seq : Nat) (f : Task → Card → State) : State :=
  match s.task? c t with
  | none => s
  | some task => match cardOf task chain seq with
    | none => s
    | some k => f task k

def isMatrixOp (op : Nat) : Bool := (0xB8 ≤ op && op ≤ 0xC0)
def isEngineOp (op : Nat) : Bool := 0xD8 ≤ op && op ≤ 0xDA

/-- CARD_START. -/
def cardStartMove (c t chain seq : Nat) (s : State) : State :=
  withCard s c t chain seq fun task k =>
    if task.cutting then s
    else if isMatrixOp k.op then startMatrix c t task k s
    else if isEngineOp k.op then startEngine c t task k s
    else s

/-- The next row or unit of a started card. -/
def taskRowMove (c t chain seq : Nat) (s : State) : State :=
  withCard s c t chain seq fun task k =>
    if k.st != .started || !cardRuns task k then s
    else if isMatrixOp k.op then (if k.relatch || k.prog < cardRows k then afterRow s c t 0 k (matrixRow c t task k s) else s)
    else if isEngineOp k.op then engineRow c t task k s
    else s

/-- CARD_COMPLETE. -/
def cardCompleteMove (c t chain seq : Nat) (s : State) : State :=
  withCard s c t chain seq fun task k =>
    if isMatrixOp k.op then completeMatrix c t k s
    else if isEngineOp k.op then completeEngine c t task k s
    else s

/-- CARD_FAULT: a task whose cut has begun takes it after its resumption. -/
def cardFaultStep (c t chain seq : Nat) (s : State) : State :=
  withCard s c t chain seq fun task _ => if task.cutting then s else cardFaultMove c t chain seq s

end Sys2Proof.Machine
end

