-- ==== Sys2Proof/Machine/Barrier.lean ====
section
/-! DEFINITION. Barriers (R43, R301, R302) and the waits of a release (R321). -/

namespace Sys2Proof.Machine

/-- The key of a barrier of a gang in the scope part of a core. -/
def barrierKey (j scope c id : Nat) : Nat := 2 ^ 40 * (j + 1) + 2 ^ 20 * scopeUnit scope c + 16 * scope + id

/-- The key of a pod barrier: one of its pod group, by id and KEY (R301, R404). -/
def podKey (pod key id : Nat) : Nat := 2 ^ 20 * pod + 16 * key + id

def State.barrier (s : State) (k : Nat) : Barrier := tabGet {} s.barriers k
def State.setBarrier (s : State) (k : Nat) (b : Barrier) : State := { s with barriers := tabSet {} s.barriers k b }

/-- The tasks of a gang with their cores, resident or saved. -/
def gangTasks (s : State) (j : Nat) : List (Nat × Task) :=
  (s.cores.flatMap fun e => (jobSlots e.2 j).map fun x => (e.1, x.2)) ++
    (match s.job? j with
      | some job => job.images.map fun e => (e.2.core, e.2.task)
      | none => [])

/-- What a task that has left a barrier keeps of its key: scope and id of a barrier of its gang; id and KEY of a pod barrier, apart
from every such scope and id (R43, R302). -/
def leftCode (key : Nat) : Nat := if key < 2 ^ 40 then 2 ^ 8 + key % 2 ^ 20 else key % 256

/-- The participants of a barrier of a gang: tasks of the scope part that have neither left nor ended (R43). -/
def participants (s : State) (key : Nat) : Nat :=
  let scope := key / 16 % 16
  (gangTasks s (key / 2 ^ 40 - 1)).countP fun e =>
    scopeUnit scope e.1 == key / 2 ^ 20 % 2 ^ 20 && e.2.st != .ended && !e.2.left.contains (leftCode key)

/-- The arrivals that complete the open round: the COUNT of its first arrival, or the current participants. -/
def barrierNeed (s : State) (key : Nat) : Nat := let b := s.barrier key; if b.count = 0 then participants s key else b.count

/-- The key under which a node owes the token of a round that a task waits for. -/
def waitKey (key round : Nat) : Nat := 2 ^ 300 + key * 2 ^ 64 + round

/-- The token of a barrier: rounds completed, and whether the round had ERRARR (R302). -/
def barrierToken (b : Barrier) (err : Bool) : Token := laneToken 3#16 fun l => if l = 0 then b.done % 2 ^ 32 else if l = 1 then err.toNat else 0

/-- Gives the tokens of a completed round to the nodes of a core that wait for it, each with an acquire (R302, R323). -/
def releaseWaits (s : State) (c key round scope : Nat) (x : Token) : State :=
  let k := waitKey key round
  let waits := fun (task : Task) => (task.phase.toList ++ task.held.toList).any fun ph => (owedOf ph 127).any fun o => o.key == k && o.tok.isNone
  ((s.core c).tasks.filter fun e => waits e.2).foldl (fun s e =>
    acquireAt (s.setTask c e.1 (settleOwed e.2 127 k x)) c scope) s

/-- The open round of a barrier completes once its arrivals are met (R43, R301): BARRIER_COMPLETE. -/
def tryComplete (s : State) (key : Nat) : State :=
  let b := s.barrier key
  if b.arrivals = 0 || b.arrivals < barrierNeed s key then s
  else
    let n := b.done + 1
    let b' : Barrier := { done := n, errs := if b.err then n :: b.errs else b.errs }
    let s := s.setBarrier key b'
    let scope := if key < 2 ^ 40 then 4 else key / 16 % 16
    s.cores.foldl (fun s e => releaseWaits s e.1 key n scope (barrierToken b' b.err)) s

/-- Every open barrier of a gang is looked at again after a participant has left or ended. -/
def recheckBarriers (s : State) (j : Nat) : State :=
  (s.barriers.filter fun e => barrierOfJob j e.1).foldl (fun s e => tryComplete s e.1) s

/-- A task that leaves a barrier, or ends, takes back its arrival at the round that is open, where the current participants are counted: those
that remain have all to arrive (R43; DEDUCED, log entry 120). -/
def withdraw (s : State) (task : Task) (key : Nat) : State :=
  let b := s.barrier key
  if 2 ^ 40 ≤ key && b.count = 0 && b.arrivals != 0 && tabFind task.arrived key == some (b.done + 1) && !task.left.contains (leftCode key) then
    s.setBarrier key { b with arrivals := b.arrivals - 1 }
  else s

/-- One arrival: the first one's COUNT governs its round (R301). -/
def arriveAt (s : State) (key count : Nat) (err : Bool) : State :=
  let b := s.barrier key
  let b' := { b with arrivals := b.arrivals + 1, count := if b.arrivals = 0 then count else b.count, err := b.err || err }
  tryComplete (s.setBarrier key b') key

/-- A task's arrival at a barrier, remembered by its round; one of pod scope goes to every package of the pod (R301, R404). -/
def taskArrives (s : State) (c t key count : Nat) (err : Bool) : State :=
  match s.task? c t with
  | none => s
  | some task =>
    let round := (s.barrier key).done + 1
    let s := s.setTask c t { task with arrived := tabPut task.arrived key round }
    let s := if key < 2 ^ 40 then podSend { s with remoteOut := s.remoteOut ++ [⟨256, key / 2 ^ 20, 0, .barrier (key % 16) (key / 16 % 2 ^ 15) count err⟩] } 256 0 else s
    arriveAt s key count err

/-- The round that a task's wait at a barrier is for, none where no arrival of it is open. -/
def openRound (s : State) (task : Task) (key : Nat) : Option Nat :=
  (tabFind task.arrived key).bind fun r => if (s.barrier key).done < r then some r else none

/-- Whether the round of a task's last arrival had ERRARR. -/
def roundErr (s : State) (task : Task) (key : Nat) : Bool :=
  match tabFind task.arrived key with
  | some r => if (s.barrier key).done < r then (s.barrier key).err else (s.barrier key).errs.contains r
  | none => false

end Sys2Proof.Machine
end

