-- ==== Sys2Proof/Machine/Regs.lean ====
section
/-! DEFINITION. System registers (R308, Table 14.8 and the tables it names): their numbers, widths and levels, reading
and writing. -/

namespace Sys2Proof.Machine

/-! Numbers. -/

/-- The width in bits of an assigned register, 0 for a number that is not assigned. -/
def regWidth (n : Nat) : Nat :=
  if n ≤ 1 then 32
  else if n = 8 then 384
  else if n = 0x10 then 64
  else if n = 0x11 then 32
  else if n = 0x18 then 512
  else if 0x40 ≤ n && n < 0x80 then 512
  else if 0x80 ≤ n && n < 0xA0 then 256
  else if n = 0x100 || n = 0x105 then 32
  else if n = 0x104 || n = 0x106 || n = 0x107 then 64
  else if 0x200 ≤ n && n < 0x206 then 64
  else if n = 0x300 || (0x310 ≤ n && n < 0x322) then 32
  else if (0x1000 ≤ n && n < 0x1180) || (0x1200 ≤ n && n < 0x1380) then 32
  else if 0x2000 ≤ n && n < 0x2010 then (if n % 4 = 0 then 64 else 32)
  else if 0x2100 ≤ n && n < 0x2103 then 32
  else if n = 0x3000 || n = 0x3001 || (0x3010 ≤ n && n < 0x3014) || n = 0x3020 then 32
  else if n = 0x3002 then 512
  else if 0x4000 ≤ n && n < 0x7000 then
    let k := n % 32
    if k ≤ 3 || k = 8 || k = 9 || k = 0xD || k = 0xE then 32
    else if k = 0xA then 96
    else if k = 0xB || k = 0xC then 512
    else 0
  else if 0x7000 ≤ n && n < 0x70C0 then (if n % 16 ≤ 2 then 32 else 0)
  else 0

/-- Whether a register is of level U. -/
def regUser (n : Nat) : Bool :=
  n ≤ 1 || n = 8 || n = 0x10 || n = 0x11 || (0x40 ≤ n && n < 0xA0) || (0x1200 ≤ n && n < 0x1380) || n = 0x3000 || n = 0x3002

/-- The channel that a register number names. -/
def regChan (n : Nat) : Option Nat :=
  if 0x1000 ≤ n && n < 0x1180 then some (n - 0x1000)
  else if 0x1200 ≤ n && n < 0x1380 then some (n - 0x1200)
  else if 0x4000 ≤ n && n < 0x7000 then some ((n - 0x4000) / 32)
  else none

/-- Whether a partition owns the channel, or a channel of the stack, that a register number names (R308, R358). -/
def regOwned (s : State) (part n : Nat) : Bool :=
  match regChan n with
  | some c => (s.chan c).owner == part
  | none => if 0x7000 ≤ n && n < 0x70C0 then (List.range 32).any fun i => (s.chan (32 * ((n - 0x7000) / 16) + i)).owner == part else true

/-- The fault of a register access: not assigned, outside the partition, or a write from user level (R308). -/
def regFault (s : State) (by_ : RegBy) (n : Nat) (write : Bool) : Option FaultInfo :=
  if regWidth n = 0 then some { cls := 0x05 }
  else if !regOwned s by_.part n then some { cls := 0x0E }
  else if write && !by_.system && !regUser n then some { cls := 0x04, acc := 1 }
  else none

/-! Writes that are events of their own. -/

/-- SWEEPLEN of a channel (R212, Table 11.1). -/
def writeSweeplen (ch v : Nat) (s : State) : State :=
  let x := s.chan ch
  s.setChan ch { x with lenReg := min (max 16 (v % 2 ^ 24)) (sweptSize x / 256), pend := true }

/-- DIRCFG.DSHR of a channel (R356, Table 21.3). -/
def writeDshr (ch v : Nat) (s : State) : State :=
  s.setChan ch { s.chan ch with dshrReg := min 6 (max 3 (v % 16)), dpend := true }

/-- TRCTL.TRAIN (R367): a 1 asks for training, a 0 ends it at once. -/
def writeTrctl (ch : Nat) (on : Bool) (s : State) : State :=
  let x := s.chan ch
  s.setChan ch (if on then { x with trctl := true } else { x with trctl := false, train := false })

/-- TRCMD with GO = 1 (R367, R368): a test starts in training mode while none runs. -/
def startTest (ch : Nat) (kind : Bool) (seed : BitVec 16) (s : State) : State :=
  let x := s.chan ch
  if x.train && x.test.isNone then s.setChan ch { x with test := some (kind, seed), trres := x.trres &&& BitVec.ofNat 96 (2 ^ 95 - 1) } else s

/-- The logical lane that REPAIR maps onto a spare, as a mask: bit `at_` holds LANE, bit `at_` + 7 EN (Table 21.3). -/
def repairedLane (repair : Word32) (at_ : Nat) : Word64 :=
  if repair.getLsbD (at_ + 7) then 1#64 <<< (repair.extractLsb' at_ 7).toNat else 0

/-- The logical lanes that pass, given which physical lanes and spares do: one that REPAIR maps onto a spare is judged on that spare
(R368). -/
def passedLanes (repair : Word32) (lanes : Word64) (spares : BitVec 2) : Word64 :=
  let m0 := repairedLane repair 0
  let m1 := repairedLane repair 8
  (lanes &&& ~~~(m0 ||| m1)) ||| (if spares.getLsbD 0 then m0 else 0) ||| (if spares.getLsbD 1 then m1 else 0)

/-- The end of a test: TRRES holds its results with DONE. Which physical lanes and spares pass is a free function of the channel, of KIND and
SEED, and of the delays of that kind in force; an end that names others is not made (R368; log entry 14). -/
def endTest (ch : Nat) (lanes : Word64) (spares : BitVec 2) (s : State) : State :=
  let x := s.chan ch
  match x.test with
  | none => s
  | some (kind, seed) =>
    let r := Config.passes ch kind seed (if kind then x.wrdly else x.rddly) x.spdly
    if r != (lanes, spares) then s else s.setChan ch { x with test := none, trres := 1#1 ++ 0#29 ++ spares ++ passedLanes x.repair lanes spares }

/-- Whether a REPAIR value is taken (R358). -/
def repairOk (v : Nat) : Bool :=
  let l0 := bitsOf v 0 7
  let l1 := bitsOf v 8 7
  l0 ≤ 63 && l1 ≤ 63 && !(bitsOf v 7 1 = 1 && bitsOf v 15 1 = 1 && l0 = l1)

def writeRepair (ch v : Nat) (s : State) : State :=
  if (s.chan ch).train && repairOk v then s.setChan ch { s.chan ch with repair := BitVec.ofNat 32 (v % 2 ^ 16) } else s

/-- PTROOT of a partition (R371, Table 22.2). -/
def writePtroot (part v : Nat) (s : State) : State :=
  s.setPart part { s.partn part with ptroot := BitVec.ofNat 64 (v &&& 0x7FFFFFFFF001) }

/-- A kv pool register, 0 to 5 (R266, Table 13.1): ignored while a sequence is open, KVRESERVE apart. -/
def writeKvPool (part reg v : Nat) (s : State) : State :=
  let p := s.partn part
  let x := BitVec.ofNat 64 v
  if reg = 5 then s.setPart part { p with kvreserve := BitVec.ofNat 64 (v % 2 ^ 24) }
  else if !p.seqs.isEmpty then s
  else s.setPart part (match reg with
    | 0 => { p with kvpd := x &&& BitVec.ofNat 64 (2 ^ 57 - 16) }
    | 1 => { p with kvpg := x &&& BitVec.ofNat 64 (2 ^ 57 - 65536) }
    | 2 => { p with kvnpages := BitVec.ofNat 64 (v % 2 ^ 24) }
    | 3 => { p with kvfreehd := BitVec.ofNat 64 (v % 2 ^ 24) }
    | 4 => { p with kvfree := BitVec.ofNat 64 (v % 2 ^ 24) }
    | _ => p)

/-- PABUDGET of a die (R416). -/
def writePabudget (d v : Nat) (s : State) : State := s.setDie d { s.die d with budget := max 4 (v % 65536) }

/-- OPPOINT (R415): the point asked for, in force once the change is done. -/
def writeOppoint (v : Nat) (s : State) : State :=
  let p := v % 4
  if p = 3 || (p = 2 && !s.hipt) then s else { s with oppointReg := p }

/-! The lift (R388). -/

/-- Whether a job waits to be placed or resumed. -/
def jobWaits (job : Job) : Bool := job.st == .ready || job.st == .saved

/-- The effective priority of a job. -/
def effPrio (s : State) (job : Job) : Nat :=
  if s.lifttime = 0 then lrPrio job.record else min 127 (lrPrio job.record + job.waited / s.lifttime.toNat)

/-- LIFTTIME: the waits of the ready jobs are measured by the new period, and a pick pass follows where one's effective priority rises (R388,
R389). -/
def writeLifttime (v : Word32) (s : State) : State :=
  let s' := { s with lifttime := v }
  { s' with passDue := s.passDue || s.jobs.any fun e => jobWaits e.2 && effPrio s e.2 < effPrio s' e.2 }

/-! Launch queues (R382). -/

def lqOf (s : State) (fn q : Nat) : LaunchQ := tabGet {} (s.fnOf fn).queues q
def setLq (s : State) (fn q : Nat) (x : LaunchQ) : State :=
  let f := s.fnOf fn
  s.setFn fn { f with queues := tabPut f.queues q x }

def writeLqbase (fn q v : Nat) (s : State) : State :=
  let x := lqOf s fn q
  if x.head != x.tail then s else setLq s fn q { x with base := BitVec.ofNat 64 (v % 2 ^ 57 / 128 * 128) }

def writeLqsize (fn q v : Nat) (s : State) : State :=
  let x := lqOf s fn q
  let x := { x with rderr := x.rderr && !(bitsOf v 31 1 = 1), sterr := x.sterr && !(bitsOf v 30 1 = 1) }
  setLq s fn q (if x.head != x.tail then x else { x with size := min 4096 (v % 2 ^ 13) })

/-- A post: TAIL advances by the records it posts, in the order in which posts become visible (R383). -/
def writeLqtail (fn q v : Nat) (s : State) : State :=
  let x := lqOf s fn q
  let n := (v + 2 ^ 32 - x.tail.toNat) % 2 ^ 32
  setLq { s with jobOrder := s.jobOrder + 1 } fn q { x with tail := BitVec.ofNat 32 v, posts := if n = 0 then x.posts else x.posts ++ [(n, s.jobOrder)] }

/-! The freeze (R417). -/

/-- A freeze begun by the pin, or by FREEZECTL. -/
def freezeBy (pin : Bool) (s : State) : State := if pin then { s with freezePin := true } else { s with freezeReg := true }

/-! Reading. -/

/-- The task a register access is about. -/
def regTask (s : State) (by_ : RegBy) : Option Task := s.task? by_.core by_.task

/-- One channel register by its offset (Table 21.3). -/
def readChanReg (x : Channel) (k : Nat) : Nat :=
  match k with
  | 0 => x.train.toNat * 2 ^ 31 + x.dpend.toNat * 2 ^ 30 + x.oos.toNat * 2 ^ 29 + x.owner % 128
  | 1 => x.drszl * 256 + x.dshrReg
  | 2 => x.ecnt.toNat
  | 3 => x.ueaddr.toNat
  | 8 => x.trctl.toNat
  | 0xA => x.trres.toNat
  | 0xB => x.rddly.toNat
  | 0xC => x.wrdly.toNat
  | 0xD => x.spdly.toNat
  | 0xE => x.repair.toNat
  | _ => 0

/-- PORTSTAT of a pod port (R406). -/
def readPortstat (p : Port) : Nat := p.up.toNat * 2 ^ 31 + p.switch % 256 * 2 ^ 16 + p.swport % 256 * 2 ^ 8 + min 255 p.replays

/-- STKTEMP of a stack (Table 21.4). -/
def readStktemp (s : State) (k : Nat) : Nat :=
  ((List.range 32).any fun i => (s.chan (32 * k + i)).duty != 0).toNat * 256 + (s.stk k).temp % 256

/-- The value of a register; the bits of WO and RZ fields read zero. -/
def regRead (s : State) (by_ : RegBy) (n : Nat) : Nat :=
  let core := s.core by_.core
  let task := regTask s by_
  let p := s.partn by_.part
  let seed := (task.map Task.seed).getD {}
  if n = 0 then ((task.map Task.fpstat).getD 0).toNat
  else if n = 1 then ((task.map Task.fpen).getD 0).toNat
  else if n = 8 then ((task.map Task.discard).getD 0).toNat
  else if n = 0x10 then seed.joined.toNat * 2 ^ 63 + seed.hold.toNat * 2 ^ 62 + seed.expect % 2 ^ 57
  else if n = 0x11 then seed.miss.toNat
  else if n = 0x18 then ((task.map Task.frec).getD 0).toNat
  else if 0x40 ≤ n && n < 0x80 then (recOf core (n - 0x40)).toNat
  else if 0x80 ≤ n && n < 0xA0 then (bufOf core (n - 0x80)).desc.toNat
  else if n = 0x100 then core.waitlimit.toNat
  else if n = 0x104 then (s.quad (quadOfCore by_.core)).ttbase.toNat
  else if n = 0x105 then (s.quad (quadOfCore by_.core)).ttsize.toNat
  else if n = 0x106 then p.trapbase.toNat
  else if n = 0x107 then p.ptroot.toNat
  else if 0x200 ≤ n && n < 0x206 then
    ([p.kvpd, p.kvpg, p.kvnpages, p.kvfreehd, p.kvfree, p.kvreserve].getD (n - 0x200) 0).toNat
  else if n = 0x300 then p.podpart
  else if 0x310 ≤ n && n < 0x322 then readPortstat (tabGet {} s.ports (n - 0x310))
  else if 0x1000 ≤ n && n < 0x1180 then let x := s.chan (n - 0x1000); x.pend.toNat * 2 ^ 31 + x.lenReg
  else if 0x1200 ≤ n && n < 0x1380 then periodMax (s.chan (n - 0x1200)) % 2 ^ 32
  else if 0x2000 ≤ n && n < 0x2010 then
    let q := lqOf s by_.fn ((n - 0x2000) / 4)
    match n % 4 with
    | 0 => q.base.toNat
    | 1 => q.rderr.toNat * 2 ^ 31 + q.sterr.toNat * 2 ^ 30 + q.size
    | 2 => q.head.toNat
    | _ => q.tail.toNat
  else if n = 0x2100 then s.lifttime.toNat
  else if n = 0x2101 then s.aithresh.toNat
  else if n = 0x2102 then s.grantmax.toNat
  else if n = 0x3000 then s.bootstat.toNat
  else if n = 0x3001 then s.oppointReg
  else if n = 0x3002 then Config.idDigest.toNat
  else if 0x3010 ≤ n && n < 0x3014 then let d := s.die (n - 0x3010); d.inuse % 65536 * 65536 + d.budget
  else if 0x4000 ≤ n && n < 0x7000 then readChanReg (s.chan ((n - 0x4000) / 32)) (n % 32)
  else if 0x7000 ≤ n && n < 0x70C0 then
    let k := (n - 0x7000) / 16
    if n % 16 = 0 then readStktemp s k else if n % 16 = 1 then (s.stk k).limit else (s.stk k).ratio
  else 0

/-! Writing. -/

/-- Changes the task a register access is about. -/
def setRegTask (s : State) (by_ : RegBy) (f : Task → Task) : State :=
  match regTask s by_ with
  | some t => s.setTask by_.core by_.task (f t)
  | none => s

/-- The delay registers, in training mode only (R367). -/
def writeDelays (ch k v : Nat) (s : State) : State :=
  let x := s.chan ch
  let m := packElems 8 (List.replicate 64 0x3F)
  if !x.train then s
  else if k = 0xB then s.setChan ch { x with rddly := BitVec.ofNat 512 (v &&& m) }
  else if k = 0xC then s.setChan ch { x with wrdly := BitVec.ofNat 512 (v &&& m) }
  else s.setChan ch { x with spdly := BitVec.ofNat 32 (v &&& 0x3F3F3F3F) }

def writeChanReg (ch k v : Nat) (s : State) : State :=
  let x := s.chan ch
  match k with
  | 1 => writeDshr ch v s
  | 2 => s.setChan ch { x with ecnt := BitVec.ofNat 32 v }
  | 3 => if v % 2 = 1 then s.setChan ch { x with ueaddr := x.ueaddr &&& 0xFFFFFF00 } else s
  | 8 => writeTrctl ch (v % 2 = 1) s
  | 9 => if v % 2 = 1 then startTest ch (bitsOf v 1 1 = 1) (BitVec.ofNat 16 (v / 65536)) s else s
  | 0xB => writeDelays ch k v s
  | 0xC => writeDelays ch k v s
  | 0xD => writeDelays ch k v s
  | 0xE => writeRepair ch v s
  | _ => s

/-- The bits of a layout record image that are not RZ (Table 8.2). -/
def recordBits : BitVec 512 := BitVec.ofNat 512 (2 ^ 510 - 1 - 2 ^ 89)

/-- What a write of a register does; the bits of RO and RZ fields are ignored. -/
def regWrite (by_ : RegBy) (n v : Nat) (s : State) : State :=
  let core := s.core by_.core
  let q := quadOfCore by_.core
  let p := s.partn by_.part
  if n = 0 then setRegTask s by_ fun t => { t with fpstat := t.fpstat &&& ~~~(BitVec.ofNat 5 v) }
  else if n = 1 then setRegTask s by_ fun t => { t with fpen := BitVec.ofNat 5 v }
  else if n = 0x11 then setRegTask s by_ fun t => { t with seed := { t.seed with miss := BitVec.ofNat 32 v } }
  else if n = 0x18 then setRegTask s by_ fun t => { t with frec := frecSetPc t.frec (v / 2 ^ 288) }
  else if 0x40 ≤ n && n < 0x80 then s.setCore by_.core { core with recs := tabPut core.recs (n - 0x40) (BitVec.ofNat 512 v &&& recordBits) }
  else if n = 0x100 then s.setCore by_.core { core with waitlimit := BitVec.ofNat 32 (max 0x1000 (v % 2 ^ 32)) }
  else if n = 0x104 then s.setQuad q { s.quad q with ttbase := BitVec.ofNat 64 (v % 2 ^ 57 / 128 * 128), ttpos := 0 }
  else if n = 0x105 then s.setQuad q { s.quad q with ttsize := BitVec.ofNat 32 (v % 4096), ttpos := 0 }
  else if n = 0x106 then s.setPart by_.part { p with trapbase := BitVec.ofNat 64 (v % 2 ^ 57 / 16 * 16) }
  else if n = 0x107 then writePtroot by_.part v s
  else if 0x200 ≤ n && n < 0x206 then writeKvPool by_.part (n - 0x200) v s
  else if 0x1000 ≤ n && n < 0x1180 then writeSweeplen (n - 0x1000) v s
  else if 0x2000 ≤ n && n < 0x2010 then
    let k := (n - 0x2000) / 4
    match n % 4 with
    | 0 => writeLqbase by_.fn k v s
    | 1 => writeLqsize by_.fn k v s
    | 3 => writeLqtail by_.fn k v s
    | _ => s
  else if n = 0x2100 then writeLifttime (BitVec.ofNat 32 v) s
  else if n = 0x2101 then { s with aithresh := BitVec.ofNat 32 (v % 2 ^ 27) }
  else if n = 0x2102 then { s with grantmax := BitVec.ofNat 32 (max 1024 (v % 2 ^ 32)) }
  else if n = 0x3001 then writeOppoint v s
  else if 0x3010 ≤ n && n < 0x3014 then writePabudget (n - 0x3010) v s
  else if n = 0x3020 then (if v % 2 = 1 then freezeBy false s else s)
  else if 0x4000 ≤ n && n < 0x7000 then writeChanReg ((n - 0x4000) / 32) (n % 32) v s
  else if 0x7000 ≤ n && n < 0x70C0 then
    let k := (n - 0x7000) / 16
    if n % 16 = 1 then s.setStk k { s.stk k with limit := min 105 (max 60 (v % 256)) }
    else if n % 16 = 2 then s.setStk k { s.stk k with ratio := min 48 (max 1 (v % 64)) }
    else s
  else s

end Sys2Proof.Machine
end

