-- ==== Sys2Proof/Machine/Ep3.lean ====
section
/-! DEFINITION. The task, barrier, message and system instructions of EP3 (R300 to R313, R338, R380). -/

namespace Sys2Proof.Machine

/-! Shared forms. -/

/-- A firing of an EP3 node that acts at every non-null firing: g acts on the operands; the lanes it reads must be valid
(R29, R300). -/
def fireEp3 (ports : List Nat) (lanes : List (Nat × Token) → Bool) (g : Foc → List (Nat × Token) → State → State) (s : State) :
    Host.Outcome State Fault Refusal :=
  match foc? s with
  | none => .next s
  | some f =>
    match readyEp f ports with
    | none => .next s
    | some ops =>
      if actsNull 0 ops || !lanes ops then .next (epFired s f ports 0 (some nullToken))
      else .next (g f ops s)

/-- Whether some lanes of a port are valid. -/
def lanesOk (p : Nat) (ls : List Nat) (ops : List (Nat × Token)) : Bool := ls.all fun l => maskBit (tokAt ops p).mask l

/-- A firing that acts in its deciding firing alone; g says what the phase records, or the fault (R178, R300). -/
def fireDeciding (g : Foc → Token → Except FaultInfo (Phase → Phase)) (s : State) : Host.Outcome State Fault Refusal :=
  match foc? s with
  | none => .next s
  | some f =>
    match readyEp f [0] with
    | none => .next s
    | some ops =>
      let ph := setNode f.ph f.slot (advance f.nd [0])
      if !isDeciding f.ph f.nd || (tokAt ops 0).null then .next (fired s f ph)
      else match g f (tokAt ops 0) with
        | .error i => .next (nodeFault s f i)
        | .ok h => .next (fired s f (h ph))

/-- The firing's token leaves now; the phase is read again, since the act may have changed it. -/
def emitNow (s : State) (ports : List Nat) (x : Token) : State :=
  match foc? s with
  | some f => epFired s f ports 0 (some x)
  | none => s

/-- The firing's token is owed under a key. -/
def emitLater (s : State) (ports : List Nat) (key : Nat) : State :=
  match foc? s with
  | some f => epFired s f ports key none
  | none => s

/-- The fences of a release of pod or system scope that is made as it fires (R329): the first attempt sends one to each switch of
the source's paths, and the release may be made once every switch has completed its own; the list of its slot is then taken away. -/
def epFenced (s : State) (f : Foc) (scope : Nat) : Bool × State :=
  let put := fun (m : List (Nat × List Nat)) => setPhaseAt s f.c f.t false { f.ph with epFences := m }
  if scope < 4 then (true, s)
  else match tabFind f.ph.epFences f.slot with
    | none => if (pathSwitches s).isEmpty then (true, s) else (false, put (tabPut f.ph.epFences f.slot (pathSwitches s)))
    | some [] => (true, put (tabDel f.ph.epFences f.slot))
    | some _ => (false, s)

/-! Barriers (R301, R302). -/

/-- The barrier that a `bar` names, or the fault of its operand (R301). -/
def barOperand (s : State) (f : Foc) (scope x : Nat) : Except FaultInfo (Nat × Nat × Bool) :=
  let key := bitsOf x 17 15
  let count := bitsOf x 8 8
  if bitsOf x 4 4 != 0 || (scope != 4 && key != 0) || (scope == 4 && count == 0) then .error { cls := 0x05 }
  else .ok (if scope = 4 then podKey (s.partn f.task.part).podpart key (x % 16) else barrierKey f.task.job scope f.c (x % 16), count, x.testBit 16)

/-- A wait at a barrier: its token leaves at once where no arrival of the task is open, else when its round completes. -/
def barWait (s : State) (f : Foc) (scope key : Nat) : State :=
  match s.task? f.c f.t with
  | none => s
  | some task => match openRound s task key with
    | none => emitNow (acquireAt s f.c scope) [0] (barrierToken (s.barrier key) (roundErr s task key))
    | some r => emitLater s [0] (waitKey key r)

/-- `bar` (R302): SUB 0 arrives, 1 waits, 2 arrives and waits, 3 leaves. -/
def fireBar (sub : Nat) (w : EpW) (s : State) : Host.Outcome State Fault Refusal :=
  fireEp3 [0] (lanesOk 0 [0]) (fun f ops s =>
    let scope := w.escope.toNat
    match barOperand s f scope ((tokAt ops 0).lane 0) with
    | .error i => nodeFault s f i
    | .ok (key, count, err) =>
      if scope = 4 && sub != 3 && !podReachable s then nodeFault s f { cls := 0x09 }
      else if sub = 1 then barWait s f scope key
      else if sub = 3 then
        let s := (withdraw s f.task key).setTask f.c f.t { f.task with left := leftCode key :: f.task.left }
        let s := recheckBarriers s f.task.job
        emitNow s [0] (barrierToken (s.barrier key) (s.barrier key).err)
      else if !storesOut s f.c f.t scope then s
      else
        let e := epFenced s f scope
        if !e.1 then e.2
        else
          let s := taskArrives e.2 f.c f.t key count err
          if sub = 2 then barWait s f scope key
          else match s.task? f.c f.t with
            | some task => emitNow s [0] (barrierToken (s.barrier key) (roundErr s task key))
            | none => s) s

/-- An instruction of EP3 that waits for another package takes a fault in the phase that runs: uncorrectable data where no path reaches
that package any more (R408), ownership where it refuses (R404). Its wait stays, and goes on when `eret` resumes the phase (DESIGN CHOICE,
log entry 118). -/
def waitFault (s : State) (c t cls : Nat) (p : Nat → Bool) : State :=
  match (s.task? c t).bind Task.phase with
  | none => s
  | some ph => match (owedOf ph 127).find? fun o => o.tok.isNone && p o.key with
    | some o => if (s.core c).running != some t then s
        else takeFault s c t { cls := cls, slot := 127, iter := o.iter, stall := (nodeOf ph 127).stall, pc := ph.addr } ph.handler
    | none => s

/-- Whether a key is that of a wait at a pod barrier. -/
def isPodWait (k : Nat) : Bool := 2 ^ 300 ≤ k && k < 2 ^ 400 && (k - 2 ^ 300) / 2 ^ 64 < 2 ^ 40

/-- A wait of a task at a pod barrier faults once no path leads to the pod (R408). -/
def podWaitFault (s : State) (c t : Nat) : State := if podReachable s then s else waitFault s c t 0x09 isPodWait

/-! Messages and binding (R303, R304). -/

/-- `msend` (R303). -/
def fireMsend (w : EpW) (s : State) : Host.Outcome State Fault Refusal :=
  let scope := w.escope.toNat
  fireEp3 [0, 1] (fun ops => lanesOk 0 (if scope = 4 then [0, 1] else [0]) ops && lanesOk 1 (List.range 12) ops) (fun f ops s =>
    let a := tokAt ops 0
    let core := bitsOf (a.lane 0) 0 9
    let pkg := if scope = 4 then bitsOf (a.lane 1) 0 8 else s.pkgId
    if pkg = s.pkgId && !(s.partn f.task.part).quads.contains (quadOfCore core) then nodeFault s f { cls := 0x0E }
    else if pkg != s.pkgId && !podReach s pkg then nodeFault s f { cls := 0x09 }
    else if 4 ≤ scope && (tabFind f.ph.epFences f.slot).isSome && !podReachable s then nodeFault s f { cls := 0x09 }
    else if !storesOut s f.c f.t scope then s
    else
      let e := epFenced s f scope
      if !e.1 then e.2
      else
        let s := e.2
        let key := 2 ^ 400 + s.tick
        let m : Message := ⟨if pkg = s.pkgId then core else core + 512 * (pkg + 1), bitsOf (a.lane 0) 9 6, scope, (tokAt ops 1).data.extractLsb' 0 384, f.task.job, f.task.rank, key⟩
        emitLater { s with messages := s.messages ++ [m] } [0, 1] key) s

/-- A task that is idle becomes ready for a message on a channel it has bound (R40). -/
def wakeFor (s : State) (c chan : Nat) : State :=
  match ((s.core c).chans.find? fun e => e.1 == chan).bind fun e => e.2.task with
  | none => s
  | some t => match s.task? c t with
    | some task => if task.st == .idle then s.setTask c t { task with st := .ready, woken := true } else s
    | none => s

/-- A message joins a channel's queue where it has room for it (R303). -/
def queueMessage (s : State) (c chan : Nat) (m : BitVec 384 × Nat) : Option State :=
  let core := s.core c
  let ch := tabGet {} core.chans chan
  if 16 ≤ ch.queue.length then none
  else some (wakeFor (s.setCore c { core with chans := tabPut core.chans chan { ch with queue := ch.queue ++ [m] } }) c chan)

/-- What becomes of a message for another package: it goes out to the partition of its sender's pod group there, finds no path, or is
refused (R303, R404, R408). -/
def messageOut (s : State) (m : Message) (done : State → State) : State :=
  let pkg := m.core / 512 - 1
  let words := (List.range 12).map fun i => (m.data.extractLsb' (32 * i) 32 : Word32)
  let pod := ((s.job? m.job).map fun j => (s.partn j.part).podpart).getD 0
  let fault := fun (cls : Nat) => match findTask s m.job m.rank with
    | some p => waitFault s p.1 p.2 cls (· == m.key)
    | none => s
  if !podReach s pkg then fault 0x09
  else if podRefuses s then fault 0x0E
  else done (podSend { s with remoteOut := s.remoteOut ++ [⟨pkg, pod, 0, .message (m.core % 512) m.chan words⟩] } pkg 0)

/-- MESSAGE_ARRIVAL: message n, the oldest under way of its sender to its channel, is queued, and its sender's completion
token leaves; one for another package goes out to the pod (R303). -/
def messageArrive (n : Nat) (s : State) : State :=
  match s.messages[n]? with
  | none => s
  | some m =>
    if (s.messages.take n).any fun x => x.core == m.core && x.chan == m.chan && x.job == m.job && x.rank == m.rank then s
    else
      let done := fun (s : State) => modTask { s with messages := s.messages.eraseIdx n } m.job m.rank fun t => settleOwed t 127 m.key completion
      if 512 ≤ m.core then messageOut s m done
      else match queueMessage s m.core m.chan (m.data, m.scope) with
        | some s => done s
        | none => s

/-- `bind` (R304). -/
def fireBind (s : State) : Host.Outcome State Fault Refusal :=
  fireEp3 [0] (lanesOk 0 [0, 2, 3]) (fun f ops s =>
    let x := tokAt ops 0
    let n := bitsOf (x.lane 0) 0 6
    let handler := laneVal x 2 8 % 2 ^ 57
    let ch := tabGet {} f.core.chans n
    let other := ch.task.bind fun t => if t = f.t then none else tabFind f.core.tasks t
    if handler % 16 != 0 then nodeFault s f { cls := 0x02, addr := handler }
    else
      let status := match other with
        | some o => if o.job != f.task.job then 2 else if (x.lane 0).testBit 13 then 0 else 1
        | none => if ch.held.isSome then 2 else 0
      let ch' : Chan := if handler = 0 then { ch with task := none, prio := 0, handler := 0 }
        else { ch with task := some f.t, prio := bitsOf (x.lane 0) 6 7, handler := handler }
      let s := if status = 0 then s.setCore f.c { f.core with chans := tabPut f.core.chans n ch' } else s
      emitNow s [0] (oneLane status)) s

/-! Yield, end, return and trap (R305, R307, R338). -/

def fireYield (wait : Bool) (s : State) : Host.Outcome State Fault Refusal :=
  fireDeciding (fun _ _ => .ok fun ph => { ph with yieldOp := some wait }) s

def fireEnd (s : State) : Host.Outcome State Fault Refusal :=
  fireDeciding (fun _ _ => .ok fun ph => { ph with endOp := true }) s

/-- `eret` (R307, R338). -/
def fireEret (s : State) : Host.Outcome State Fault Refusal :=
  fireDeciding (fun f x =>
    if !f.ph.handler then .error { cls := 0x04, acc := 2 }
    else if !maskBit x.mask 0 || 2 ≤ x.lane 0 then .error { cls := 0x05 }
    else .ok fun ph => { ph with eretOp := some (x.lane 0 == 1) }) s

/-- `trap` (R307, R338): the firing counts as made, and the task takes a software trap. -/
def fireTrap (s : State) : Host.Outcome State Fault Refusal :=
  match foc? s with
  | none => .next s
  | some f =>
    match readyEp f [0] with
    | none => .next s
    | some ops =>
      let x := tokAt ops 0
      let s1 := fired s f (setNode f.ph f.slot (advance f.nd [0]))
      if x.null then .next s1
      else if !maskBit x.mask 0 || 65536 ≤ x.lane 0 then .next (nodeFault s f { cls := 0x05 })
      else .next (nodeFault s1 f { cls := 0x10, info := x.lane 0 })

/-! Waiting on cards (R306). -/

/-- The status that `waitseq` finds of a completed number, with lane 3 set where it has been dropped (R289). -/
def seqStatus (s : State) (ch : Chain) (seq : Nat) : Nat × Nat × BitVec 384 :=
  if seq = 0 then (0, 0, 0)
  else match ch.hist.find? fun d => d.seq == seq with
    | some d => (d.status.toNat, 0, d.chmask)
    | none => (Config.freeWord s.tick % 2 ^ 32, 1, BitVec.ofNat 384 (Config.freeWord (s.tick + 1)))

/-- `waitseq` (R306). -/
def fireWaitseq (s : State) : Host.Outcome State Fault Refusal :=
  fireEp3 [0] (lanesOk 0 [0, 1, 2]) (fun f ops s =>
    let x := tokAt ops 0
    let seq := laneVal x 0 8
    let k := x.lane 2 % 4
    let ch := chainOf f.task k
    if k = 3 || ch.tail < seq then nodeFault s f { cls := 0x05 }
    else if ch.done < seq then s
    else
      let d := seqStatus s ch seq
      emitNow (acquireAt s f.c 5) [0] (doneToken seq d.1 d.2.1 d.2.2)) s

/-! System registers (R308, R309). -/

/-- Who writes, for a task's own register access. -/
def regByTask (f : Foc) : RegBy := ⟨f.c, f.t, f.task.part, f.task.fn, f.task.sys || f.ph.handler⟩

/-- Lanes that cover a register's width. -/
def regLanes (n : Nat) : List Nat := List.range (regWidth n / 32)

/-- `sysrd`. -/
def fireSysrd (s : State) : Host.Outcome State Fault Refusal :=
  fireEp3 [0] (lanesOk 0 [0]) (fun f ops s =>
    let n := (tokAt ops 0).lane 0 % 65536
    match regFault s (regByTask f) n false with
    | some i => nodeFault s f i
    | none => emitNow s [0] (rawToken (lowMask (regWidth n / 32)) (regRead s (regByTask f) n))) s

/-- `syswr`. -/
def fireSyswr (s : State) : Host.Outcome State Fault Refusal :=
  fireEp3 [0, 1] (fun ops => lanesOk 0 [0] ops && lanesOk 1 (regLanes ((tokAt ops 0).lane 0 % 65536)) ops) (fun f ops s =>
    let n := (tokAt ops 0).lane 0 % 65536
    match regFault s (regByTask f) n true with
    | some i => nodeFault s f i
    | none => emitNow (regWrite (regByTask f) n ((tokAt ops 1).data.toNat % 2 ^ regWidth n) s) [0, 1] completion) s

/-! Translation invalidation (R380). -/

/-- Whether the bytes [a, a + n) and [b, b + m) of the address space meet, each taken modulo 2^57. -/
def rangesMeet (a n b m : Nat) : Bool :=
  n != 0 && ((a < b + m && b < a + n) || (2 ^ 57 < a + n && b < a + n - 2 ^ 57))

/-- A quad's TLB and walk cache without the entries of a partition that cover a range, or without all of them. -/
def invalidate (q : Quad) (part : Nat) (range : Option (Nat × Nat)) : Quad :=
  let hit := fun (p a n : Nat) => p == part && (match range with
    | none => true
    | some r => rangesMeet r.1 r.2 a n)
  { q with tlb := q.tlb.filter (fun e => !hit e.part e.va e.size),
           walks := q.walks.filter fun w => !hit w.part (w.prefixKey * levelSize w.level) (levelSize w.level) }

/-- An access that has fired and not issued is translated and checked again before it issues (R380). -/
def recheckAccess (a : Access) : Access := if a.stage == .fired && !a.nullA then { a with stage := .refire } else a

def recheckPhase (ph : Phase) : Phase := { ph with accs := ph.accs.map fun e => (e.1, e.2.map recheckAccess) }

/-- Every access of a partition that has not issued uses the entries as they stand from now on (R380). -/
def recheckPart (s : State) (part : Nat) : State :=
  { s with cores := s.cores.map fun e => (e.1, { e.2 with tasks := e.2.tasks.map fun x =>
      if x.2.part = part then (x.1, { x.2 with phase := x.2.phase.map recheckPhase, held := x.2.held.map recheckPhase }) else x }) }

/-- `tlbinv` (R310, R380): a release at package scope comes first, and every quad of the partition acknowledges; what issues from then
on uses the entries as stored. -/
def fireTlbinv (all : Bool) (s : State) : Host.Outcome State Fault Refusal :=
  fireEp3 [0] (lanesOk 0 (if all then [] else [0, 1, 2])) (fun f ops s =>
    let x := tokAt ops 0
    let range := if all then none else some (laneVal x 0 8 % 2 ^ 57, 4096 * x.lane 2)
    if !(f.task.sys || f.ph.handler) then nodeFault s f { cls := 0x04, acc := 1 }
    else if !storesOut s f.c f.t 3 then s
    else
      let s := (s.partn f.task.part).quads.foldl (fun s q => s.setQuad q (invalidate (s.quad q) f.task.part range)) s
      emitNow (recheckPart s f.task.part) [0] completion) s

/-! Launch and counters (R310, R311). -/

/-- Whether a queue is full (R382). -/
def lqFull (q : LaunchQ) : Bool := (q.tail.toNat + 2 ^ 32 - q.head.toNat) % 2 ^ 32 == q.size

/-- Whether the record that a `launch` reads can be read now: of host memory once every earlier posted write has been performed (R330). -/
def launchReads (s : State) (c part va : Nat) : Bool := match (runKeys c part needRead va 128 s).1 with
  | .ok ks => readsOpen s ks
  | .error _ => true

/-- `launch` (R310): the record is copied into the queue and TAIL advances, in one step. -/
def fireLaunch (s : State) : Host.Outcome State Fault Refusal :=
  fireEp3 [0] (lanesOk 0 [0, 1, 2]) (fun f ops s =>
    let x := tokAt ops 0
    let k := x.lane 2
    let q := lqOf s f.task.fn k
    let tail := q.tail.toNat
    let va := laneVal x 0 8 % 2 ^ 57
    if 3 < k then nodeFault s f { cls := 0x0E }
    else if inWindow va then nodeFault s f { cls := 0x03, addr := va }
    else if !launchReads s f.c f.task.part va then s
    else match engineRead f.c f.task.part va 128 s with
      | (.error i, s) => nodeFault s f i
      | (.ok record, m) =>
        if lqFull q then emitNow m [0] (laneToken 3#16 fun l => if l = 0 then 1 else if l = 1 then tail else 0)
        else match runKeys f.c f.task.part needWrite ((q.base.toNat + 128 * (tail % q.size)) % 2 ^ 57) 128 m with
          | (.error i, s) => nodeFault s f i
          | (.ok ks, m') =>
            if !writesOpen m' ks then s
            else
              let s := writeLqtail f.task.fn k ((tail + 1) % 2 ^ 32) (writeKeys m' ks record false)
              emitNow s [0] (laneToken 3#16 fun l => if l = 0 then 0 else if l = 1 then tail else 0)) s

/-- `pmrd` (R311). -/
def firePmrd (s : State) : Host.Outcome State Fault Refusal :=
  fireEp3 [0] (lanesOk 0 [0]) (fun f ops s =>
    let n := (tokAt ops 0).lane 0 % 65536
    let put := fun (v : Nat) => emitNow s [0] (laneToken 3#16 fun l => if l = 0 then v % 2 ^ 32 else if l = 1 then v / 2 ^ 32 % 2 ^ 32 else 0)
    if n < 128 then put (nodeOf f.ph n).stall.toNat
    else if n = 0x100 then put f.core.cycles.toNat
    else if n = 0x101 then put f.task.firings
    else if n = 0x102 then put f.task.phases
    else nodeFault s f { cls := 0x05 }) s

end Sys2Proof.Machine
end

