-- ==== Sys2Proof/Machine/Feed.lean ====
section
/-! DEFINITION. Feeds and intake (R242 to R250, R263): entering weight-driven mode by `wdrive`, leaving a feed, and the
intake of the lines that a feed brings to a core. -/

namespace Sys2Proof.Machine

/-! The feed card (Table 12.1, R246). -/

def feedMask : Nat :=
  fieldMask 0 57 + fieldMask 64 24 + fieldMask 96 57 + fieldMask 160 9 + fieldMask 176 8 + fieldMask 184 6 + fieldMask 192 6

/-- The checks of a feed card before its range is translated. -/
def feedCardCheck (task : Task) (r : BitVec 512) : Option FaultInfo :=
  if r.toNat &&& (2 ^ 512 - 1 - feedMask) != 0 || fcVbase r % 256 != 0 || fcEntry r % 256 != 0 || 48 < fcBrec0 r || 256 < fcM r ||
      fcLines r ≤ (fcEntry r + 2 ^ 57 - fcVbase r) % 2 ^ 57 / 256 then some { cls := 0x05 }
  else if !task.bufs.getLsbD 31 then some { cls := 0x0D }
  else none

/-- The feed of a job and range, while it stands (R245). -/
def feedOf (s : State) (j : Nat) (card : BitVec 512) : Option (Nat × Rider) :=
  s.riders.find? fun e => e.2.kind == 3 && e.2.standing && !e.2.cancelled && e.2.job == j &&
    fcVbase e.2.card == fcVbase card && fcLines e.2.card == fcLines card

/-- A feed made ready, or the first check of Table 11.7 that its range fails. -/
def prepareFeed (s : State) (c t : Nat) (task : Task) (card : BitVec 512) : Except FaultInfo Rider × State :=
  let a := rangeLines (quadOfCore c) task.part (fcVbase card) needRead (fcLines card) s
  let room : Failed := if declaresRoom s task.job 2 0 then none else some (10, { cls := 0x0D })
  match firstFailed a.1 room with
  | some x => (.error x.2, a.2.2)
  | none =>
    (.ok { part := task.part, ticket := 0, op := 0xD4, sub := 0, kind := 3, card := card, job := task.job, rank := task.rank,
           core := c, task := t, chans := byChannel a.2.1, xbits := (a.2.1.filter RangeLine.x).map RangeLine.offset,
           plain := plainOffsets a.2.1, standing := true, anchor := (a.2.1.find? fun x => x.offset == 0).map fun x => (x.chan, x.line) }, a.2.2)

/-! Leaving (R245, R260, R263). -/

/-- The seed buffer with its counters and pointers reset. -/
def resetSeedBuf (s : State) (c : Nat) : State :=
  let core := s.core c
  s.setCore c { core with seedIn := [], bufs := tabPut core.bufs 31 { desc := cbInit (bufOf core 31).desc } }

/-- The leave of a matrix seed given back, with a request for it (R393). -/
def dropSeedLeave (s : State) (c t : Nat) (task : Task) : State :=
  let s := if task.seed.leave then returnLeave s (dieOfCore c) 4 else s
  let d := s.die (dieOfCore c)
  s.setDie (dieOfCore c) { d with leaves := d.leaves.filter fun r => !(r.core == c && r.task == t && r.ticket.isNone && r.chain == 3) }

/-- A feed that no resident task is joined to is cancelled (R245). -/
def dropFeed (s : State) (j : Nat) (card : BitVec 512) : State :=
  match feedOf s j card with
  | none => s
  | some (k, r) =>
    if s.cores.any fun e => e.2.tasks.any fun x => joinedTo r x.2 then s else endStanding (cancelRider s k) k

/-- A task leaves its feed: it holds no seed state any more, the miss count included (R247, R350; log entry 49), and its buffer is
discarded. -/
def leaveFeed (s : State) (c t : Nat) : State :=
  match s.task? c t with
  | none => s
  | some task =>
    if !task.seed.joined then s
    else
      let s := dropSeedLeave s c t task
      let s := s.setTask c t { task with seed := {} }
      dropFeed (resetSeedBuf s c) task.job task.seed.card

/-! Entering (R243, R245, R247). -/

/-- The task is joined to a feed with the seed state of its card. -/
def joinFeed (s : State) (c t : Nat) (card : BitVec 512) (entering : Bool) : State :=
  match s.task? c t with
  | none => s
  | some task =>
    let seed : SeedSt := { joined := true, entering := entering, card := card, expect := fcEntry card, m := fcM card,
                           astrm1 := fcAstrm1 card, brec0 := fcBrec0 card, idrec := fcIdrec card }
    resetSeedBuf (s.setTask c t { task with seed := seed }) c

/-- Joins the feed of a job and range, or boards it: the state after, none while its slots are taken, or the fault. -/
def boardFeed (s : State) (c t : Nat) (task : Task) (card : BitVec 512) : Except FaultInfo (Option State) :=
  match feedOf s task.job card with
  | some _ => .ok (some s)
  | none => match prepareFeed s c t task card with
    | (.error i, u) => .error (if u.mustWait then notYet else i)
    | (.ok r, s) => .ok (if !s.mustWait && roomNow s task.job (r.chans.map Prod.fst) 2 0 then some (enterRider s r).2 else none)

/-- `wdrive` (R242, R243): only its deciding firing acts, and a null card boards nothing. -/
def fireWdrive (w : EpW) (s : State) : Host.Outcome State Fault Refusal :=
  match foc? s with
  | none => .next s
  | some f =>
    let ports := withPred w.pm.toNat [0]
    match readyEp f ports with
    | none => .next s
    | some ops =>
      let ph := setNode f.ph f.slot (advance f.nd ports)
      let card := (tokAt ops 0).data
      if !isDeciding f.ph f.nd || actsNull w.pm.toNat ops then .next (fired s f ph)
      else match feedCardCheck f.task card with
        | some i => .next (nodeFault s f i)
        | none => match boardFeed (leaveFeed s f.c f.t) f.c f.t f.task card with
          | .error i => .next (if i.cls = notYet.cls then s else nodeFault s f i)
          | .ok none => .next s
          | .ok (some s') => .next (fired (joinFeed s' f.c f.t card true) f { ph with wdrive := some card })

/-! Intake (R249, R250). -/

/-- The fault of an expected seed, none where it may be accepted (R250). -/
def intakeFault (d : BitVec 256) (l : SeedLine) (plen : Nat) : Option FaultInfo :=
  let bad := fun n => some ({ cls := 0x0A, detail := n, addr := l.va } : FaultInfo)
  if l.unc then some { cls := 0x09, addr := l.va }
  else if l.bad != 0 then bad l.bad
  else if cbTokens d < 4 * plen then bad 6
  else if l.va / 65536 != (l.va + 256 * plen - 1) / 65536 then bad 7
  else if !l.xok then some { cls := 0x04, acc := 2, addr := l.va }
  else if !l.clean then some { cls := 0x09, addr := l.va }
  else none

/-- The 256 bytes of a line at a place of a slot of the seed buffer. -/
def putSeedLine (s : State) (c : Nat) (l : SeedLine) (slot k : Nat) : State :=
  writeRun s (keyScratch c (cbAddr (bufOf (s.core c) 31).desc slot 0 + 256 * k)) 256 l.data l.unc

/-- A seed whose last line has arrived is complete in its slot. -/
def sealSeed (s : State) (c : Nat) (b : SeedBuf) : State :=
  if b.got.length = b.plen then setBuf s c 31 (cbComplete (bufOf (s.core c) 31) b.slot) else s

/-- A control seed (R249). -/
def isControlSop (sop : Nat) : Bool := sop == 8 || sop == 9 || sop == 10

/-- The intake accepts the seed of a husk line. -/
def acceptSeed (s : State) (c t : Nat) (task : Task) (l : SeedLine) (h : BitVec 128) : State :=
  match cbClaim (bufOf (s.core c) 31) with
  | none => s
  | some (slot, b) =>
    let x : SeedBuf := ⟨l.va, h, [0], hkPlen h, slot, false⟩
    let sd := task.seed
    let sd := { sd with buf := sd.buf ++ [x] }
    let sd := if isControlSop (hkSop h) then { sd with hold := true } else { sd with expect := seedSuccessor l.va h }
    let s := putSeedLine (setBuf (s.setTask c t { task with seed := sd }) c 31 b) c l slot 0
    sealSeed s c x

/-- Where a task stands: the block of its phase, or its program counter. -/
def taskPc (task : Task) : Nat := match task.phase with
  | some ph => ph.addr
  | none => task.pc

/-- A husk line that is no continuation: accepted, missed, charged as a fault, or of no concern. -/
def expectSeed (s : State) (c t : Nat) (task : Task) (l : SeedLine) : State :=
  let h := BitVec.ofNat 128 l.data
  let b := bufOf (s.core c) 31
  if l.va != task.seed.expect || task.seed.hold || task.seed.turned || !l.named then s
  else if b.free = 0 then s.setTask c t { task with seed := { task.seed with miss := if task.seed.miss.toNat = 2 ^ 32 - 1 then task.seed.miss else task.seed.miss + 1 } }
  else match intakeFault b.desc l (hkPlen h) with
    | some i =>
      if task.st == .trapped || task.cutting then s
      else takeFault s c t { cls := i.cls, src := 2, detail := i.detail, acc := i.acc, addr := l.va, pc := taskPc task } false
    | none => acceptSeed s c t task l h

/-- The number of a line in a seed that is coming in and still lacks it. -/
def lackedLine (b : SeedBuf) (va : Nat) : Option Nat :=
  let k := (va + 2 ^ 57 - b.addr) % 2 ^ 57 / 256
  if k < b.plen && va == (b.addr + 256 * k) % 2 ^ 57 && !b.got.contains k then some k else none

/-- A seed whose later line is found uncorrectable only as it arrives is accepted no longer, nor is any after it: their slots are free,
EXPECT names it, and the task takes the fault (R78, R250; DESIGN CHOICE, log entry 113). -/
def refuseSeed (s : State) (c t : Nat) (task : Task) (b : SeedBuf) : State :=
  let keep := task.seed.buf.takeWhile (· != b)
  let n := task.seed.buf.length - keep.length
  let x := bufOf (s.core c) 31
  let d := x.desc
  let s := s.setTask c t { task with seed := { task.seed with buf := keep, expect := b.addr, hold := false } }
  let s := setBuf s c 31 (x.change (cbWith d (cbFilled d) (cbFree d + n) (cbRdSlot d) (cbRdTok d) b.slot (cbWrTok d)) (x.claims.take (x.claims.length - n)))
  if task.st == .trapped || task.cutting then s else takeFault s c t { cls := 0x09, src := 2, addr := b.addr, pc := taskPc task } false

/-- One line at the intake of a joined task: a line of a seed that is coming in, in whatever order its channels bring them, or a husk
line. -/
def takeSeedLine (s : State) (c t : Nat) (task : Task) (l : SeedLine) : State :=
  match task.seed.buf.findSome? fun b => (lackedLine b l.va).map fun k => (b, k) with
  | some (b, k) =>
    if l.unc then refuseSeed s c t task b
    else
      let b' := { b with got := k :: b.got }
      let s := s.setTask c t { task with seed := { task.seed with buf := task.seed.buf.map fun x => if x == b then b' else x } }
      sealSeed (putSeedLine s c l b.slot k) c b'
  | none => expectSeed s c t task l

/-- SEED_INTAKE: the next line that a feed brought to a core. -/
def seedIntakeMove (c : Nat) (s : State) : State :=
  let core := s.core c
  match core.seedIn with
  | [] => s
  | l :: rest =>
    let s := s.setCore c { core with seedIn := rest }
    match core.tasks.find? fun e => e.2.seed.joined with
    | none => s
    | some (t, task) => takeSeedLine s c t task l

/-- SEED_START (R252): a matrix seed at the head of a task's buffer asks for power leave; one that needs none, or has it, is a candidate
of the pick that ends the cycle, which starts it (R41). -/
def seedStartMove (c t : Nat) (s : State) : State :=
  match s.task? c t with
  | none => s
  | some task =>
    if task.cutting || task.st != .ready || !seedMode task || ep0Busy task then s
    else match seedHead task with
      | none => s
      | some b =>
        if isMatrixSeed b && !task.seed.leave then
          if task.seed.asked then s
          else askLeave (s.setTask c t { task with seed := { task.seed with asked := true } }) (dieOfCore c) ⟨4, prioOf s task.job, c, t, 3, 0, none, 0⟩
        else s

end Sys2Proof.Machine
end

