-- ==== Sys2Proof/Machine/Seeds.lean ====
section
/-! DEFINITION. Executing seeds (R251 to R260): payloads, buffer and accumulator elements, and the effect of each seed,
which commits in one step (R252). -/

namespace Sys2Proof.Machine

/-- The seed that executes: its core, task slot, task, buffer entry, husk, and raw payload as a number. -/
structure SeedRun where
  c : Nat
  t : Nat
  task : Task
  b : SeedBuf
  h : Husk
  pay : Nat
  deriving Repr

def SeedRun.rows (r : SeedRun) : Nat := 16 * r.h.rows16.toNat
def SeedRun.cols (r : SeedRun) : Nat := 16 * r.h.cols16.toNat
def SeedRun.fmt (r : SeedRun) : Nat := r.h.fmt.toNat
def SeedRun.abuf (r : SeedRun) : Nat := r.h.abuf.toNat
def SeedRun.acc (r : SeedRun) : Nat := r.h.accrow.toNat
def SeedRun.astr (r : SeedRun) : Nat := r.task.seed.astrm1 + 1
def SeedRun.m (r : SeedRun) : Nat := r.task.seed.m

/-- Byte k of the payload. -/
def SeedRun.byte (r : SeedRun) (k : Nat) : Nat := bitsOf r.pay (8 * k) 8

/-- Word k of the payload. -/
def SeedRun.word (r : SeedRun) (k : Nat) : Nat := bitsOf r.pay (32 * k) 32

/-! Payloads (R251). -/

/-- n coded blocks of a run of words, none where the run ends first. -/
def codedBlocks : Nat → List Nat → Option (List Nat)
  | 0, _ => some []
  | _ + 1, [] => none
  | n + 1, m :: rest =>
    let k := 2 * (List.range 32).countP fun b => m.testBit b
    if rest.length < k then none else (codedBlocks n (rest.drop k)).map (bpxDecode (rest.take k) m ++ ·)

/-- The raw payload of a seed in the buffer, decoded where COMP = 1. -/
def seedPayload (s : State) (c : Nat) (b : SeedBuf) (sop : Nat) (h : Husk) : Option Nat :=
  let n := 256 * b.plen - 16
  let raw := memRead s.mem (keyScratch c (cbAddr (bufOf (s.core c) 31).desc b.slot 0 + 16)) n
  if h.comp = 0#4 then some raw
  else (codedBlocks ((rawLength sop h + 255) / 256) ((List.range (n / 4)).map fun i => bitsOf raw (32 * i) 32)).map (packElems 32)

/-- Payload element i of a format, exact. -/
def payElem (pay fmt i : Nat) : Val :=
  if fmt = 6 then
    let x := bitsOf pay (144 * (i / 32)) 144
    decodeHx4 (bitsOf x (4 * (i % 32)) 4) (bitsOf x 128 8) (bitsOf x 136 8)
  else decodeElem fmt (bitsOf pay (typeWidth fmt * i) (typeWidth fmt))

/-! Buffers and accumulators (R254). -/

/-- Record BREC0 + j of the task. -/
def SeedRun.bufRec (r : SeedRun) (s : State) (j : Nat) : BitVec 512 := recOf (s.core r.c) (r.task.seed.brec0 + j)

/-- One stored element of a buffer: +0 beyond the extent, and in the scratchpad window. -/
def seedElem (s : State) (c part : Nat) (b : BitVec 512) (c0 c1 : Nat) : Except FaultInfo Nat :=
  if beyond b c0 c1 then .ok 0
  else
    let va := elemAddress b c0 c1
    if !inWindow va then .error { cls := 0x03 } else (readStored c part (recFmt b) (wrapCoord b 0 c0) va true s).1

/-- The elements of row m of a buffer from column o, exact. -/
def SeedRun.row (r : SeedRun) (s : State) (b : BitVec 512) (o n m : Nat) : Except FaultInfo (List Val) :=
  (List.range n).mapM fun j => (seedElem s r.c r.task.part b (o + j) m).map (storedVal (recFmt b))

/-- The writes of a row into a buffer, (c0, c1, bytes, value) each, in the scratchpad window. -/
def SeedRun.puts (r : SeedRun) (s : State) (b : BitVec 512) (ws : List (Nat × Nat × Nat × Nat)) : Except FaultInfo (List Put) :=
  if ws.any fun w => !beyond b w.1 w.2.1 && !inWindow (elemAddress b w.1 w.2.1) then .error { cls := 0x03 }
  else (resolvePuts r.c r.task.part none b false ws s).1

/-- Acc(m, j) of n columns. -/
def SeedRun.accOf (r : SeedRun) (s : State) (m j : Nat) : Nat :=
  accElem (accRow s r.c r.task (r.acc + m * r.astr + j / 16)) (j % 16)

/-- Row m of the accumulators with n columns replaced. -/
def SeedRun.setAcc (r : SeedRun) (s : State) (m n : Nat) (f : Nat → Nat) : State :=
  (List.range ((n + 15) / 16)).foldl (fun s g =>
    let row := r.acc + m * r.astr + g
    setAccRow s r.c r.task row (rowWith (accRow s r.c r.task row) fun e => if 16 * g + e < n then some (f (16 * g + e)) else none)) s

/-- What a seed's execution gives: the state with its writes and its status bits, and the seed state, registers and block
that follow. -/
structure SeedEff where
  s : State
  flags : Flags := 0
  seed : SeedSt
  b : List Word64
  lr : Nat
  pc : Nat
  leaves : Bool := false

/-- A seed that changes nothing yet. -/
def SeedRun.eff (r : SeedRun) (s : State) : SeedEff := { s := s, seed := r.task.seed, b := r.task.b, lr := r.task.lr, pc := r.task.pc }

abbrev SeedOut := Except FaultInfo SeedEff

/-- A breach of the field rules of 12 (R253). -/
def check8 : SeedOut := .error { cls := 0x0A, detail := 8 }

/-- A rounded result with the status of its operands. -/
def seedRound (t : Nat) (sat : Bool) (ops : List Val) (x : Val × Bool) : Nat × Flags :=
  let y := if isInt t then roundInt t 0 x.1 else roundFloat t 0 sat x.1
  (y.bits, y.flags ||| snanFlags ops ||| (if x.2 then nvFlag else 0))

/-- An fp32 operation of two values rounded to nearest even. -/
def mul32 (x y : Val) : Nat × Flags := seedRound 0 false [x, y] (mulVal x y)
def add32 (x y : Val) : Nat × Flags := seedRound 0 false [x, y] (addVal 0 x y)

/-- x / n as a value that rounds as the exact quotient does: 80 quotient bits and a sticky bit. -/
def divNat (x : Val) (n : Nat) : Val :=
  match x with
  | .fin neg m e => .fin neg (2 * (m * 2 ^ 80 / n) + (if m * 2 ^ 80 % n = 0 then 0 else 1)) (e - 81)
  | v => v

/-- The elements of one buffer row with their status, written at columns from o. -/
def SeedRun.rowPuts (r : SeedRun) (s : State) (b : BitVec 512) (o m : Nat) (xs : List (Nat × Flags)) : Except FaultInfo (List Put × Flags) :=
  let n := (typeWidth (recFmt b) + 7) / 8
  (r.puts s b ((List.range xs.length).map fun j => (o + j, m, n, (xs.getD j (0, 0)).1))).map fun ps => (ps, xs.foldl (fun f x => f ||| x.2) 0)

/-- The rows of a seed that writes a buffer: computed from the state before the seed, then written. -/
def SeedRun.overRows (r : SeedRun) (s : State) (g : Nat → Except FaultInfo (List Put × Flags)) : SeedOut :=
  ((List.range r.m).mapM g).map fun ps =>
    { r.eff (ps.foldl (fun s p => p.1.foldl doPut s) s) with flags := ps.foldl (fun f p => f ||| p.2) 0 }

/-! The seeds. -/

/-- `smm` and `smmz` (R255). -/
def seedMatrix (clear : Bool) (r : SeedRun) (s : State) : SeedOut :=
  let k := r.rows
  let n := r.cols
  let b := r.bufRec s r.abuf
  let kc := tabGet 0 r.task.seed.kc r.abuf
  let done := fun (s : State) => ({ r.eff s with seed := { r.task.seed with kc := tabPut r.task.seed.kc r.abuf ((kc + k) % recExt b 0) } } : SeedEff)
  if kMax r.fmt < k || 64 < n then check8
  else if n = 0 then .ok (done s)
  else if !activationType (recFmt b) then .error { cls := 0x02 }
  else if !rowsFit r.task r.acc r.astr r.m n then .error { cls := 0x0D }
  else match (List.range r.m).mapM fun m => r.row s b kc k m with
    | .error i => .error i
    | .ok acts =>
      let ws := fun j => (List.range k).map fun i => payElem r.pay r.fmt (i * n + j)
      .ok (done (((List.range r.m).zip acts).foldl (fun s x =>
        r.setAcc s x.1 n fun j => accumulate (if clear then 0 else r.accOf s x.1 j) ((ws j).zip x.2)) s))

/-- `svec` (R256). -/
def seedSvec (r : SeedRun) (s : State) : SeedOut :=
  let b := r.bufRec s r.abuf
  if r.acc != 0 then check8
  else if r.cols = 0 then .ok (r.eff s)
  else if 2 < recFmt b then .error { cls := 0x02 }
  else r.overRows s fun m => do
    let xs ← r.row s b r.rows r.cols m
    r.rowPuts s b r.rows m (((List.range r.cols).zip xs).map fun x =>
      let v := payElem r.pay r.fmt x.1
      seedRound (recFmt b) true [x.2, v] (mulVal x.2 v))

/-- `sbias` (R256). -/
def seedSbias (r : SeedRun) (s : State) : SeedOut :=
  let n := r.cols
  if r.h.rows16 != 0 || r.h.abuf != 0 then check8
  else if n = 0 then .ok (r.eff s)
  else if !rowsFit r.task r.acc r.astr r.m n then .error { cls := 0x0D }
  else
    let sum := fun m j => add32 (decodeFloat 0 (r.accOf s m j)) (payElem r.pay r.fmt j)
    let fl := (List.range r.m).foldl (fun f m => (List.range n).foldl (fun f j => f ||| (sum m j).2) f) 0
    .ok { r.eff ((List.range r.m).foldl (fun s' m => r.setAcc s' m n fun j => (sum m j).1) s) with flags := fl }

/-- The root mean square of a row: g of `snorm` with the status raised on the way (R256). -/
def normFactor (xs : List Val) (eps : Val) : Nat × Flags :=
  let s := xs.foldl (fun (a : Nat × Flags) x =>
    let p := mulVal x x
    let y := seedRound 0 false [decodeFloat 0 a.1, x] (addVal 0 (decodeFloat 0 a.1) p.1)
    (y.1, a.2 ||| y.2)) (0, 0)
  let d := seedRound 0 false [] (divNat (decodeFloat 0 s.1) xs.length, false)
  let q := add32 (decodeFloat 0 d.1) eps
  let g := specialBits 0x41 0 q.1
  (g.1, s.2 ||| d.2 ||| q.2 ||| g.2)

/-- `snorm` (R256). -/
def seedSnorm (r : SeedRun) (s : State) : SeedOut :=
  let b := r.bufRec s r.abuf
  if r.acc != 0 then check8
  else if r.cols = 0 then .ok (r.eff s)
  else if 2 < recFmt b then .error { cls := 0x02 }
  else r.overRows s fun m => do
    let xs ← r.row s b r.rows r.cols m
    let g := normFactor xs (payElem r.pay r.fmt r.cols)
    let p ← r.rowPuts s b r.rows m (((List.range r.cols).zip xs).map fun x =>
      let v := payElem r.pay r.fmt x.1
      let y := mulVal x.2 (decodeFloat 0 g.1)
      let z := mulVal y.1 v
      seedRound (recFmt b) true [x.2, v] (z.1, y.2 || z.2))
    pure (p.1, p.2 ||| g.2)

/-- F of Table 12.6 on an fp32 pattern. -/
def actF (code v : Nat) : Nat × Flags :=
  let x := decodeFloat 0 v
  let d := decodeFloat 0
  match code with
  | 0 => (v, 0)
  | 1 => if x.isNan then (fmtNan 0, 0) else if x.neg? then (0, 0) else (v, 0)
  | 2 =>
    let g := specialBits 0x48 0 v
    let y := mul32 x (d g.1)
    (y.1, g.2 ||| y.2)
  | 3 => specialBits 0x48 0 v
  | 4 => specialBits 0x45 0 v
  | _ =>
    let vv := mul32 x x
    let t := mul32 (d vv.1) x
    let ct := mul32 (d 0x3D372713) (d t.1)
    let u := add32 x (d ct.1)
    let cu := mul32 (d 0x3F4C422A) (d u.1)
    let th := specialBits 0x45 0 cu.1
    let half := mul32 (d 0x3F000000) x
    let one := add32 (d 0x3F800000) (d th.1)
    let y := mul32 (d half.1) (d one.1)
    (y.1, vv.2 ||| t.2 ||| ct.2 ||| u.2 ||| cu.2 ||| th.2 ||| half.2 ||| one.2 ||| y.2)

/-- `sact` (R257). -/
def seedSact (r : SeedRun) (s : State) : SeedOut :=
  let b := r.bufRec s r.abuf
  let gate : Bool := r.byte 1 == 1
  if 5 < r.byte 0 || 1 < r.byte 1 || bitsOf r.pay 16 112 != 0 then check8
  else if r.cols = 0 then .ok (r.eff s)
  else if recFmt b != r.fmt then .error { cls := 0x02 }
  else if !rowsFit r.task r.acc r.astr r.m r.cols then .error { cls := 0x0D }
  else r.overRows s fun m => do
    let xs ← r.row s b r.rows (if gate then r.cols else 0) m
    r.rowPuts s b r.rows m ((List.range r.cols).map fun j =>
      let y := actF (r.byte 0) (r.accOf s m j)
      let z := if gate then mul32 (decodeFloat 0 y.1) (xs.getD j Val.zero) else (y.1, 0)
      let v := decodeFloat 0 z.1
      let w := seedRound r.fmt true [v] (v, false)
      (w.1, y.2 ||| z.2 ||| w.2))

/-- `sdrain` (R257). -/
def seedSdrain (r : SeedRun) (s : State) : SeedOut :=
  let b := r.bufRec s r.abuf
  if r.fmt = 6 && (r.rows % 32 != 0 || !(r.cols == 0 || r.cols == 32 || r.cols == 64)) then check8
  else if r.cols = 0 then .ok (r.eff s)
  else if recFmt b != r.fmt then .error { cls := 0x02 }
  else if !rowsFit r.task r.acc r.astr r.m r.cols then .error { cls := 0x0D }
  else r.overRows s fun m =>
    let vs := (List.range r.cols).map fun j => r.accOf s m j
    if r.fmt = 6 then
      let d := drainRowPuts (fun _ => false) 6 0 true 0 r.rows m vs
      (r.puts s b d.1).map fun ps => (ps, d.2)
    else r.rowPuts s b r.rows m (vs.map fun v =>
      let x := decodeFloat 0 v
      if r.fmt = 0 then (v, 0) else seedRound r.fmt true [x] (x, false))

/-- `sembed` (R258). -/
def seedSembed (r : SeedRun) (s : State) : SeedOut :=
  let b := r.bufRec s r.abuf
  let ids := recOf (s.core r.c) r.task.seed.idrec
  let vc := r.task.seed.vc
  if r.acc != 0 then check8
  else
    let done := fun (e : SeedEff) => { e with seed := { e.seed with vc := (vc + r.rows) % 2 ^ 32 } }
    if r.cols = 0 then .ok (done (r.eff s))
    else if recFmt b = 6 || recFmt ids != 12 then .error { cls := 0x02 }
    else (r.overRows s fun m => do
      let t ← seedElem s r.c r.task.part ids 0 m
      if vc ≤ t && t < vc + r.rows then
        r.rowPuts s b 0 m ((List.range r.cols).map fun j =>
          let v := payElem r.pay r.fmt ((t - vc) * r.cols + j)
          seedRound (recFmt b) true [v] (v, false))
      else pure ([], 0)).map done

/-- `spad` (R259). -/
def seedSpad (r : SeedRun) (s : State) : SeedOut :=
  let w := r.word
  let mask := w 0 % 16
  let has := fun (i : Nat) => mask.testBit i
  let sd := r.task.seed
  if r.h.rows16 != 0 || r.h.cols16 != 0 || r.acc != 0 || w 0 / 16 != 0 || w 1 / (if has 0 then 65536 else 1) != 0 || (w 2 != 0 && !has 1) ||
      (w 3 &&& (2 ^ 32 - 1 - ((if has 2 then 0x1FF else 0) + (if has 3 then 0xFF0000 else 0)))) != 0 || (has 2 && 255 < w 3 % 512) then check8
  else
    let sd := if has 0 then { sd with kc := tabPut sd.kc r.abuf (w 1) } else sd
    let sd := if has 1 then { sd with vc := w 2 } else sd
    let sd := if has 2 then { sd with m := w 3 % 512 + 1 } else sd
    let sd := if has 3 then { sd with astrm1 := bitsOf (w 3) 16 8 } else sd
    .ok { r.eff s with seed := sd }

/-- Whether the husk fields that Table 12.5 marks 0 for a control seed are 0. -/
def SeedRun.bare (r : SeedRun) : Bool := r.h.rows16 == 0 && r.h.cols16 == 0 && r.h.accrow == 0 && r.h.abuf == 0

/-- `sjump` (R260). -/
def seedSjump (r : SeedRun) (s : State) : SeedOut :=
  let n := r.word 1 % 16
  let target := wrapTo 57 ((r.b.addr : Int) + 256 * signedOf 32 (r.word 0))
  let bn := r.task.b.getD n 0
  let next := seedSuccessor r.b.addr r.b.husk
  let sd := r.task.seed
  if !r.bare || (r.word 1 &&& (2 ^ 32 - 1 - 0x10F)) != 0 || r.word 2 != 0 || r.word 3 != 0 then check8
  else if !(r.word 1).testBit 8 then .ok { r.eff s with seed := { sd with expect := target, hold := false } }
  else if bn = 0 then .ok { r.eff s with seed := { sd with expect := next, hold := false } }
  else .ok { r.eff s with seed := { sd with expect := target, hold := false }, b := r.task.b.set n (bn - 1) }

/-- `scall` (R260). -/
def seedScall (r : SeedRun) (s : State) : SeedOut :=
  let block := bitsOf r.pay 0 57
  let next := seedSuccessor r.b.addr r.b.husk
  if !r.bare || block % 16 != 0 then check8
  else .ok { r.eff s with seed := { r.task.seed with expect := next, hold := false, inBlocks := true },
                          b := r.task.b.set 12 (BitVec.ofNat 64 r.task.lr), lr := next ||| 1, pc := block }

/-- `sexit` (R260). -/
def seedSexit (r : SeedRun) (s : State) : SeedOut :=
  let block := bitsOf r.pay 0 57
  if !r.bare || block % 16 != 0 then check8
  else .ok { r.eff s with seed := { r.task.seed with hold := false }, pc := block, leaves := true }

/-! Committing (R252). -/

/-- The seed's slot of the buffer is free again. -/
def freeSeedSlot (s : State) (c : Nat) : State :=
  let b := bufOf (s.core c) 31
  let d := b.desc
  setBuf s c 31 (b.change (cbWith d (cbFilled d - 1) (cbFree d + 1) ((cbRdSlot d + 1) % cbSlots d) 0 (cbWrSlot d) (cbWrTok d)) b.claims)

/-- A seed commits: its writes, seed state, registers and status bits in one step, its slot and its power leave; the
phase it was ends, and the picker runs. -/
def commitSeed (r : SeedRun) (e : SeedEff) : State :=
  let s := if r.b.freed then e.s else freeSeedSlot e.s r.c
  match s.task? r.c r.t with
  | none => s
  | some task =>
    let s := dropSeedLeave s r.c r.t task
    let sd := { e.seed with buf := task.seed.buf.tail, running := false, asked := false, leave := false, waitBar := none,
                                turned := task.seed.turned || isControlSop (hkSop r.b.husk) }
    let s := s.setTask r.c r.t { task with st := .ready, seed := sd, b := e.b, lr := e.lr, pc := e.pc, fpstat := task.fpstat ||| e.flags }
    let s := if e.leaves then leaveFeed s r.c r.t else s
    let core := s.core r.c
    s.setCore r.c { core with running := if core.running = some r.t then none else core.running }

/-- A fault of a seed: nothing of it is committed, and it stays at the head of the buffer (R262). -/
def seedFault (r : SeedRun) (i : FaultInfo) (s : State) : State :=
  takeFault s r.c r.t { cls := i.cls, src := 3, detail := i.detail, acc := i.acc, addr := r.b.addr, pc := r.task.pc } false

/-- The seed that executes on the core in focus, with its husk; none where no seed executes there. -/
def seedFoc? (h : Husk) (s : State) : Option (Nat × Task × SeedBuf) :=
  let _ := h
  let core := s.core s.focus.1
  core.running.bind fun t => (tabFind core.tasks t).bind fun task =>
    if task.seed.running && !task.cutting then (seedHead task).map fun b => (t, task, b) else none

/-- A seed executes (R252). -/
def fireSeed (sop : Nat) (g : SeedRun → State → SeedOut) (h : Husk) (s : State) : Host.Outcome State Fault Refusal :=
  match seedFoc? h s with
  | none => .next s
  | some (t, task, b) =>
    let c := s.focus.1
    match seedPayload s c b sop h with
    | none => .next (seedFault ⟨c, t, task, b, h, 0⟩ { cls := 0x0A, detail := 5 } s)
    | some pay =>
      let r : SeedRun := ⟨c, t, task, b, h, pay⟩
      match g r s with
      | .error i => .next (seedFault r i s)
      | .ok e => .next (commitSeed r e)

/-! `sbar` (R259). -/

/-- The wait of an `sbar`: the seed is complete when the round of the task's arrival has completed. -/
def sbarWait (r : SeedRun) (key : Nat) (s : State) : State :=
  match s.task? r.c r.t with
  | none => s
  | some task => match openRound s task key with
    | none => commitSeed r (r.eff (acquireAt s r.c (key / 16 % 16)))
    | some _ => s

/-- The commit of an `sbar` that waits, which precedes its arrival: its slot is free, and the seed stays at the head of the buffer. -/
def sbarCommit (r : SeedRun) (key : Nat) (s : State) : State :=
  match s.task? r.c r.t with
  | none => s
  | some task => (freeSeedSlot s r.c).setTask r.c r.t
      { task with seed := { task.seed with waitBar := some key, buf := { r.b with freed := true } :: task.seed.buf.tail } }

/-- `sbar`: its release, its commit, its arrival, and its wait, which a trap or a cut leaves waiting. -/
def sbarStep (r : SeedRun) (s : State) : State :=
  let op := r.byte 0
  let scope := r.byte 1
  let id := r.byte 2
  let key := barrierKey r.task.job scope r.c id
  if !r.bare || 1 < op || 4 < scope || 15 < id || bitsOf r.pay 24 104 != 0 then seedFault r { cls := 0x0A, detail := 8 } s
  else if scope = 4 then seedFault r { cls := 0x05 } s
  else if !storesOut s r.c r.t scope then s
  else if op = 0 then taskArrives (commitSeed r (r.eff s)) r.c r.t key 0 false
  else sbarWait { r with b := { r.b with freed := true } } key (taskArrives (sbarCommit r key s) r.c r.t key 0 false)

def fireSbar (h : Husk) (s : State) : Host.Outcome State Fault Refusal :=
  match seedFoc? h s with
  | none => .next s
  | some (t, task, b) => match task.seed.waitBar, seedPayload s s.focus.1 b 0x0B h with
    | some key, _ => .next (sbarWait ⟨s.focus.1, t, task, b, h, 0⟩ key s)
    | none, none => .next (seedFault ⟨s.focus.1, t, task, b, h, 0⟩ { cls := 0x0A, detail := 5 } s)
    | none, some pay => .next (sbarStep ⟨s.focus.1, t, task, b, h, pay⟩ s)

end Sys2Proof.Machine
end

