-- ==== Sys2Proof/Machine/Cut.lean ====
section
/-! DEFINITION. The pre-emption cut and the resume of a task (R168, R208, R239, R263, R339 to R344). -/

namespace Sys2Proof.Machine

/-! The riders of a cut task (R239). -/

/-- How a rider boards again: its opcode, SUB, whether it stands, and whether a handler phase issued it. -/
def reboardCode (r : Rider) : Nat := r.op + 256 * r.sub + 2 ^ 16 * r.standing.toNat + 2 ^ 17 * r.handler.toNat

/-- The riders of a task that a cut cancels and records: readers, kernel riders and standing riders, each with its turns.
One that has delivered all and counts its completion word runs on. -/
def cutRiders (s : State) (task : Task) : List (Nat × Rider) :=
  s.riders.filter fun e => e.2.kind == 0 && e.2.job == task.job && e.2.rank == task.rank && e.2.parent.isNone && cancellable e.2.op && !e.2.cancelled && e.2.cwHeld.isNone

/-- Takes riders off with their turns, their leave given back and their requests dropped. -/
def takeOff (s : State) (rs : List (Nat × Rider)) : State :=
  rs.foldl (fun s e =>
    let d := dieOfCore e.2.core
    let s := if e.2.leave then returnLeave s d 1 else s
    let s := s.setDie d { s.die d with leaves := (s.die d).leaves.filter fun r => r.ticket != some e.1 }
    { s with riders := s.riders.filter fun x => x.1 != e.1 && x.2.parent != some e.1 }) s

/-! The beginning of a cut (R339, R340 step 1). -/

/-- Whether every condition of a phase's end holds (R36). -/
def phaseDone (ph : Phase) : Bool :=
  phaseEnd ph == 0 ||
    (((blockSlots ph.words).all fun x => phaseEnd ph ≤ (nodeOf ph x.1).iter) && ph.accs.isEmpty && ph.owed.isEmpty)

/-- Whether every card of a task has completed; in a handler those withheld go no further (R337). -/
def cardsOver (task : Task) (handler : Bool) : Bool :=
  task.chains.all fun e => e.2.cards.all fun k => handler && k.st == .withheld

/-- Whether the riders that a task boarded, standing riders and their turns apart, have alighted. -/
def ridersOver (s : State) (task : Task) : Bool :=
  s.riders.all fun e => !(e.2.kind == 0 && e.2.job == task.job && e.2.rank == task.rank && !e.2.standing && e.2.parent.isNone)

/-- Whether a task's end stands in the place of its cut: it has executed `end` and waits for no card and no rider (R305, Table
2.12). One that still waits for them is cut like any other (R339). -/
def retiring (s : State) (task : Task) : Bool := task.phase.any fun ph => ph.endOp && phaseDone ph && cardsOver task ph.handler && ridersOver s task

/-- The cut of one task begins: no node of it begins a firing, and its riders are recorded and cancelled. -/
def beginCut (s : State) (c t : Nat) : State :=
  match s.task? c t with
  | none => s
  | some task =>
    if task.cutting then s
    else
      let rs := cutRiders s task
      let s := s.setTask c t { task with cutting := true, reboard := task.reboard ++ rs.map fun e => (e.2.seq, reboardCode e.2, e.2.card) }
      takeOff s rs

/-- Whether the running phase of a task, a handler phase like any other (R336), holds a request back, for 65,536 cycles at most (R339). -/
def holdsCut (core : Core) (t : Nat) (task : Task) : Bool :=
  (core.cycles.toNat + 2 ^ 64 - task.askedAt) % 2 ^ 64 < 65536 && core.running == some t && task.phase.any fun ph => hdrDefer ph.hdr

/-- The resident tasks of a job, as (core, slot, task). -/
def residents (s : State) (j : Nat) : List (Nat × Nat × Task) := s.cores.flatMap fun e => (jobSlots e.2 j).map fun x => (e.1, x.1, x.2)

/-- PREQ set in the record of a fault or trap that a task took in the cycle of a request, and in the b14 that its handler has
received (Table 16.5). -/
def notePreq (task : Task) : Task :=
  let fr := task.frec ||| 0x800000
  let b := task.b.set 14 (BitVec.ofNat 64 fr.toNat)
  { task with frec := fr, b := b, phase := task.phase.map fun ph => if ph.handler then { ph with starts := ph.starts.set 14 (BitVec.ofNat 64 fr.toNat) } else ph }

/-- PREEMPTION_REQUEST (R339): a gang being cut or saved takes no further one. The cut of each task begins at the end of its
core's cycle, so that what meets the request in that cycle is decided first (Tables 2.12 and 16.5): a fault or trap is taken, with
PREQ set, a phase end is made, a task that can retire retires. -/
def requestCut (s : State) (j : Nat) : State :=
  match s.job? j with
  | none => s
  | some job =>
    if job.st != .placed then s
    else (residents s j).foldl (fun s e =>
        let task := { e.2.2 with askedAt := (s.core e.1).cycles.toNat }
        s.setTask e.1 e.2.1 (if (s.core e.1).faultNow.contains e.2.1 then notePreq task else task))
      (s.setJob j { job with st := .cutting })

/-- At the end of a core's cycle the cuts that were asked for begin: of every task that neither holds the request back nor can
retire. -/
def beginCuts (s : State) (c : Nat) : State :=
  (s.core c).tasks.foldl (fun s e =>
    if (s.job? e.2.job).any (fun j => j.st == .cutting) && !holdsCut (s.core c) e.1 e.2 && !retiring s e.2 then beginCut s c e.1 else s) s

/-- DEFER_EXPIRY (R339): the hold of a deferring block ends once 65,536 cycles have passed; a phase whose end is due ends first (Table
2.12). -/
def deferExpiryMove (j : Nat) (s : State) : State :=
  match s.job? j with
  | none => s
  | some job => if job.st == .cutting then (residents s j).foldl (fun s e =>
      if retiring s e.2.2 || e.2.2.phase.any phaseDone || holdsCut (s.core e.1) e.2.1 e.2.2 then s else beginCut s e.1 e.2.1) s else s

/-! When a task can be saved (R340 step 3, R168, R286, R312, Table 16.3). -/

/-- Whether a phase awaits nothing more: no response of a memory request or kv transaction, and no message still to be queued. -/
def phaseQuiet (ph : Phase) : Bool :=
  (ph.accs.all fun e => e.2.all fun a => a.stage != .issued || a.waiting) && ph.kvReqs.all KvReq.again &&
    ph.owed.all fun e => e.2.all fun o => o.tok.isSome || o.key < 2 ^ 400 || ph.kvReqs.any fun q => q.key == o.key

/-- Whether a task's cut has completed; its pending stores have drained too. -/
def taskQuiet (s : State) (c t : Nat) (task : Task) : Bool :=
  task.cutting && (task.phase.toList ++ task.held.toList).all phaseQuiet && (s.core c).stores.all (fun p => p.task != t) &&
    (chainOf task 2).cards.all fun k => !stepRunsOn s c task k

/-- Whether the riders of a gang that run on have alighted, the clones of its key-value transactions among them (Table 16.3). -/
def ridersQuiet (s : State) (j : Nat) : Bool :=
  (s.riders.all fun e => !((e.2.kind == 0 || e.2.kind == 2) && e.2.job == j)) && s.kvsends.all fun e => e.2.job != j

/-! The image (R342). -/

/-- The tokens in flight reach their ports' queues (R340 step 2), four at most at each (R31): what a reorder element's last
firing sent beyond that stays with the element's group (R187; log entry 97). -/
def settleWires (ph : Phase) : Phase :=
  let p := ph.wires.foldl (fun ph e => let nd := nodeOf ph (e.1 / 4)
    let q := portQ nd (e.1 % 4)
    setNode ph (e.1 / 4) (setPortQ nd (e.1 % 4) (q ++ e.2.take (4 - q.length)))) ph
  { p with wires := ph.wires.filterMap fun e =>
      let rest := e.2.drop (4 - (portQ (nodeOf ph (e.1 / 4)) (e.1 % 4)).length)
      if rest.isEmpty then none else some (e.1, rest) }

/-- An access in the image: one not issued, or a wait withdrawn, is checked and issued again (R168). -/
def saveAccess (a : Access) : Access :=
  if a.stage == .done then a else { a with stage := if a.nullA then .fired else .refire, waiting := false, poll := false, pieces := [] }

/-- A phase in the image: node state has no stall counters, which stand at zero after a resume (R340, R342; log entry 99). -/
def savePhase (ph : Phase) : Phase :=
  let p := settleWires ph
  { p with nodes := p.nodes.map fun e => (e.1, { e.2 with stall := 0 }), epFences := [], accs := p.accs.map fun e => (e.1, e.2.map saveAccess) }

/-- Whether a card of EP2 has moved units, or has taken those it is to write: it keeps them, with its riders, in the image. -/
def cardUnderWay (k : Card) : Bool := k.op == 0xD8 || k.op == 0xE3 || ((k.op == 0xD9 || k.op == 0xDA) && k.prog != 0)

/-- A card in the image (Table 16.3, R208): a matrix card keeps its progress, a copy what it has moved too, but not units that it has read
and not written; a collective or ring step that has not run is withdrawn to its start. -/
def saveCard (k : Card) : Card :=
  let st : CardSt := if k.st == .started && !cardUnderWay k then .waiting else k.st
  let k := { k with st := st, asked := false, leave := false, cwHeld := none, fences := none }
  if isMatrixOp k.op then { k with tile := [], ticket := none }
  else if k.op == 0xD8 then { k with block := [] }
  else if cardUnderWay k then k
  else { k with ticket := none, deposit := none, boarded := false, block := [], status := 0, chmask := 0 }

/-- The riders that a saved card no longer uses. -/
def dropSavedRiders (s : State) (task : Task) : State :=
  task.chains.foldl (fun s e => e.2.cards.foldl (fun s k => if cardUnderWay k then s else dropCardRiders s k) s) s

/-- The seed state in the image (R263): EXPECT names the oldest accepted seed that has not completed. -/
def saveSeed (x : SeedSt) : SeedSt :=
  { x with expect := (x.buf.head?.map SeedBuf.addr).getD x.expect, hold := false, buf := [], running := false, asked := false, leave := false }

/-- The granules of a task's keep map (R342). -/
def keptGranule (task : Task) (g : Nat) : Bool := task.keep.contains g

/-- Bytes and poisoned sectors of the kept granules of a core's scratchpad, by scratchpad address. -/
def keptBytes (s : State) (c : Nat) (task : Task) : List Host.Cell × List Nat :=
  let lo := keyScratch c 0
  let has := fun (a : Nat) => lo ≤ a && a < lo + 2 ^ 21 && keptGranule task ((a - lo) / 4096)
  ((s.mem.filter fun e => has e.1).map fun e => (e.1 - lo, e.2),
   (s.poison.filter fun e => e.2 && has (32 * e.1)).map fun e => 32 * e.1 - lo)

/-- The image of a task. -/
def imageOf (s : State) (c t : Nat) (task : Task) : TaskImage :=
  let core := s.core c
  let b := keptBytes s c task
  let chains := task.chains.map fun e => (e.1, { e.2 with cards := e.2.cards.map saveCard })
  { task := { task with st := if task.st == .running then .ready else task.st, phase := task.phase.map savePhase, held := task.held.map savePhase,
                        chains := chains, seed := saveSeed task.seed, cutting := false, passed := 0 }
    core := c
    bufs := core.bufs.filter fun e => task.bufs.getLsbD e.1
    recs := core.recs.filter fun e => task.recs.getLsbD e.1
    acc := ((List.range task.acc.length).map fun i => (i, accRow s c task i)).filter fun e => e.2 != 0
    bytes := b.1
    bad := b.2
    chans := (boundChans core t).map fun e => (e.1, e.2.prio, e.2.handler)
    handler := core.handlerOwner == some t }

/-- Bytes of a task's save area (R384). -/
def saveAreaSize (r : BitVec 1024) (task : Task) : Nat :=
  (262144 + 4096 * task.keep.length + 64 * lrBits r 394 13 + 4095) / 4096 * 4096

/-- The save area takes the image's bytes, page by page (log entry 7). -/
def writeSaveArea (s : State) (job : Job) (task : Task) : State :=
  let n := saveAreaSize job.record task
  let base := lrSave job.record + task.rank * n
  (List.range (n / 4096)).foldl (fun s p =>
    match resolveFor s job.part needWrite ((base + 4096 * p) % 2 ^ 57) with
    | (.error _, s) => s
    | (.ok pl, s) =>
      let bytes := (List.range 4096).map fun i => Config.imageByte s.tick (task.rank * n + 4096 * p + i)
      { s with mem := memWriteBytes s.mem pl.key bytes, poison := poisonAfter s pl.key 4096 false, latent := latentAfter s pl.key 4096 }) s

/-- The channels of a task that is saved stay bound to it (R344). -/
def holdChans (core : Core) (t : Nat) (task : Task) : Core :=
  { core with chans := core.chans.map fun e => if e.2.task = some t then (e.1, { e.2 with task := none, held := some (task.job, task.rank) }) else e }

/-- One task is saved and leaves its core. -/
def saveTask (s : State) (job : Job) (c t : Nat) : Option (Nat × TaskImage) × State :=
  match s.task? c t with
  | none => (none, s)
  | some task =>
    let im := imageOf s c t task
    let s := writeSaveArea s job task
    let s := leaveFeed (dropSavedRiders (giveBack s c t { task with seed := { task.seed with leave := false } }) task) c t
    let s := s.setCore c (freeTask (holdChans (s.core c) t task) t task)
    (some (task.rank, im), s)

/-- CUT_COMPLETE (R340, R341): the whole gang is saved, and its status written. -/
def cutCompleteMove (j : Nat) (s : State) : State :=
  match s.job? j with
  | none => s
  | some job =>
    let ts := residents s j
    if job.st != .cutting || ts.isEmpty || !(ts.all fun e => taskQuiet s e.1 e.2.1 e.2.2) || !ridersQuiet s j then s
    else
      let r := ts.foldl (fun (acc : List (Nat × TaskImage) × State) e => let x := saveTask acc.2 job e.1 e.2.1
        (acc.1 ++ x.1.toList, x.2)) ([], s)
      let job' := { job with st := .saved, images := r.1, ended := [], waited := 0 }
      writeStatus { (freeEnded r.2 job).setJob j job' with passDue := true } job' 0x0A 0 0 0

/-! Boarding again (R239, R263). -/

/-- One recorded rider boards again over its whole range: the state after, none while its slots are taken (step 3 of R218), or its
fault. -/
def reboardOne (s : State) (c t : Nat) (x : Nat × Nat × BitVec 512) : Except FrecIn (Option State) :=
  let stand : Bool := x.2.1.testBit 16
  let handler : Bool := x.2.1.testBit 17
  let sub := x.2.1 / 256 % 256
  let op := if stand then standKind sub else x.2.1 % 256
  match s.task? c t with
  | none => .ok none
  | some task => match prepareRider s c t task.part op sub stand x.2.2 with
    | (.error i, s') => if s'.mustWait then .ok none else .error { cls := i.cls, src := 6, slot := 125, acc := i.acc, detail := i.detail, addr := i.addr, seqno := x.1, pc := taskPc task, inHandler := handler }
    | (.ok r, s') => .ok (if !s'.mustWait && roomNow s' task.job (r.chans.map Prod.fst) (slotsTaken r) (pipesTaken r)
        then some (enterRider s' { r with seq := x.1, handler := handler }).2 else none)

/-- A record with the mark that its rider faulted as it boarded again, or without it. -/
def markStopped (x : Nat × Nat × BitVec 512) (b : Bool) : Nat × Nat × BitVec 512 := (x.1, x.2.1 % 2 ^ 18 + 2 ^ 18 * b.toNat, x.2.2)

/-- The recorded riders of a task board again, those that have faulted only where the task returns; those that find no room, or fault,
stay recorded. -/
def reboardAll (s : State) (c t : Nat) (returns : Bool) : State × List FrecIn :=
  match s.task? c t with
  | none => (s, [])
  | some task =>
    let r := task.reboard.foldl (fun (acc : State × List (Nat × Nat × BitVec 512) × List FrecIn) x =>
      if x.2.1.testBit 18 && !returns then (acc.1, acc.2.1 ++ [x], acc.2.2)
      else match reboardOne acc.1 c t x with
        | .ok (some s) => (s, acc.2)
        | .ok none => (acc.1, acc.2.1 ++ [markStopped x false], acc.2.2)
        | .error f => (acc.1, acc.2.1 ++ [markStopped x true], acc.2.2 ++ [f])) (s, [], [])
    match r.1.task? c t with
    | some task => (r.1.setTask c t { task with reboard := r.2.1 }, r.2.2)
    | none => (r.1, r.2.2)

/-- The feed of a joined task is joined or boarded again. -/
def rejoinFeed (s : State) (c t : Nat) : State × List FrecIn :=
  match s.task? c t with
  | none => (s, [])
  | some task =>
    if !task.seed.joined || (feedOf s task.job task.seed.card).isSome then (s, [])
    else match boardFeed s c t task task.seed.card with
      | .error i => if i.cls = notYet.cls then (s, []) else (s, [{ cls := i.cls, src := 6, slot := 125, acc := i.acc, detail := i.detail, addr := i.addr, pc := taskPc task }])
      | .ok (some s) => (s, [])
      | .ok none => (s, [])

/-- Faults that wait for a task are taken one at a time: the first now, before any of its nodes fires. One of a handler phase's
work is a double fault, whether the task is still trapped or has returned; another waits for the task's `eret` (R337, R340; log entry 100). -/
def takeDeferred (s : State) (c t : Nat) : State :=
  match s.task? c t with
  | none => s
  | some task =>
    if task.st == .trapped then
      (match task.deferred.find? FrecIn.inHandler with
        | some x => takeFault s c t x true
        | none => s)
    else match task.deferred with
      | [] => s
      | x :: rest => takeFault (s.setTask c t { task with deferred := rest }) c t x x.inHandler

/-- Adds faults to those that wait for a task. -/
def deferFaults (s : State) (c t : Nat) (fs : List FrecIn) : State :=
  match s.task? c t with
  | some task => s.setTask c t { task with deferred := task.deferred ++ fs }
  | none => s

/-! Resume (R343, R344). -/

/-- A block of a context or phase loaded again from its address. -/
def reloadBlock (s : State) (c part addr : Nat) : Except FrecIn (BitVec 128 × List Word64) × State :=
  let r := loadBlock c part addr s
  (match r.1 with
    | .ok x => .ok x
    | .error f => .error { cls := f.cls, src := 4, acc := f.acc, detail := f.detail, addr := f.addr, info := f.info, pc := addr }, r.2)

/-- A phase with its block loaded again; one whose load fails is not restored. The load of a handler phase's block is inside that
phase (R337). -/
def reloadPhase (s : State) (c part : Nat) : Option Phase → (Option Phase × List FrecIn) × State
  | none => ((none, []), s)
  | some ph =>
    let r := reloadBlock s c part ph.addr
    (match r.1 with
      | .ok x => (some { ph with hdr := x.1, words := x.2 }, [])
      | .error f => (none, [{ f with inHandler := ph.handler }]), r.2)

/-- The contexts of a task loaded again. -/
def reloadCtxs (s : State) (c part : Nat) (xs : List Ctx) : (List Ctx × List FrecIn) × State :=
  xs.foldl (fun acc x =>
    let r := reloadBlock acc.2 c part x.addr
    (match r.1 with
      | .ok y => (acc.1.1 ++ [⟨x.addr, y.1, y.2⟩], acc.1.2)
      | .error f => (acc.1.1, acc.1.2 ++ [f]), r.2)) (([], []), s)

/-- The key of a gang's barrier after its task has moved from one core to another. -/
def movedKey (j old new key : Nat) : Nat :=
  if key < 2 ^ 40 then key
  else if scopeUnit (key / 16 % 16) old = key / 2 ^ 20 % 2 ^ 20 then barrierKey j (key / 16 % 16) new (key % 16) else key

/-- The key under which a wait is owed, after a move. -/
def movedWait (j old new k : Nat) : Nat :=
  if 2 ^ 300 ≤ k && k < 2 ^ 400 then waitKey (movedKey j old new ((k - 2 ^ 300) / 2 ^ 64)) (k % 2 ^ 64) else k

def movedPhase (j old new : Nat) (ph : Phase) : Phase :=
  { ph with owed := ph.owed.map fun e => (e.1, e.2.map fun o => { o with key := movedWait j old new o.key }) }

/-- The barriers of a gang follow its tasks to their new scope parts. -/
def moveBarriers (s : State) (j : Nat) (moves : List (Nat × Nat)) : State :=
  let key := fun (k : Nat) =>
    if !barrierOfJob j k then k
    else match moves.find? fun m => scopeUnit (k / 16 % 16) m.1 == k / 2 ^ 20 % 2 ^ 20 with
      | some m => movedKey j m.1 m.2 k
      | none => k
  { s with barriers := s.barriers.foldl (fun t e => tabPut t (key e.1) e.2) [] }

/-- The scratchpad of a resumed task: its kept granules as saved, those that no other task keeps zero (R343). -/
def restoreScratch (s : State) (c : Nat) (task : Task) (im : TaskImage) : State :=
  let lo := keyScratch c 0
  let others := (s.core c).tasks.flatMap fun e => if e.2.job == task.job then [] else e.2.keep
  let clear := fun (a : Nat) => lo ≤ a && a < lo + 2 ^ 21 && !others.contains ((a - lo) / 4096)
  let mem := s.mem.filter fun e => !clear e.1
  let poison := s.poison.filter fun e => !clear (32 * e.1)
  { s with mem := im.bytes.foldl (fun m e => memSet m (lo + e.1) e.2) mem, poison := im.bad.foldl (fun p a => tabSet false p ((lo + a) / 32) true) poison }

/-- Card order begins anew for the cards of a resumed task (Table 16.4). -/
def orderCards (s : State) (task : Task) : State × Task :=
  let r := task.chains.foldl (fun (acc : Nat × List (Nat × Chain)) e =>
    let cs := (List.range e.2.cards.length).map fun i => let k := e.2.cards.getD i { seq := 0, op := 0, sub := 0 }
      { k with order := acc.1 + i }
    (acc.1 + cs.length, acc.2 ++ [(e.1, { e.2 with cards := cs })])) (s.cardOrder, [])
  ({ s with cardOrder := r.1 }, { task with chains := r.2 })

/-- The first matrix card of a resumed task latches its tile again, or the next one appended (R208). -/
def latchAgain (task : Task) : Task :=
  if !task.latched.valid then task
  else
    let ch := chainOf task 0
    match ch.cards with
    | [] => { task with latched := { task.latched with again := true } }
    | k :: ks => { task with chains := tabPut task.chains 0 { ch with cards := { k with relatch := true } :: ks } }

/-- DISCARDMAP of a task (R343): the granules outside its keep map. -/
def discardOf (task : Task) : BitVec 384 := BitVec.ofNat 384 (packElems 1 ((List.range 384).map fun g => (!keptGranule task g).toNat))

/-- Takes from the channels that a saved task keeps what has to move to its new core: each number with its priority, handler
and waiting messages; where the core stays the same nothing moves (R344). -/
def takeChans (s : State) (new : Nat) (im : TaskImage) : List (Nat × Chan) × State :=
  im.chans.foldl (fun acc x =>
    let core := acc.2.core im.core
    let o := tabGet {} core.chans x.1
    let q := if im.core = new then [] else o.queue
    let o' : Chan := if im.core = new then { o with held := none } else {}
    (acc.1 ++ [(x.1, { queue := q, prio := x.2.1, handler := x.2.2 })], acc.2.setCore im.core { core with chans := tabPut core.chans x.1 o' })) ([], s)

/-- Binds the channels of a resumed task on its core, behind the messages that wait there (R344). -/
def placeChans (s : State) (c t : Nat) (cs : List (Nat × Chan)) : State :=
  cs.foldl (fun s x =>
    let core := s.core c
    let o := tabGet {} core.chans x.1
    s.setCore c { core with chans := tabPut core.chans x.1 { x.2 with queue := o.queue ++ x.2.queue, task := some t } }) s

/-- One task resident again on a core and slot with its image, the rows of its allotment new. A task that held the handler context
holds the new core's, where no other task does (R344; log entry 100). -/
def resumeTask (s : State) (c t : Nat) (rows : List Nat) (im : TaskImage) (cs : List (Nat × Chan)) : State :=
  let task0 := im.task
  let s := restoreScratch s c task0 im
  let o := orderCards s (latchAgain { task0 with acc := rows, discard := discardOf task0 })
  let s := o.1
  let task := o.2
  let ph0 := reloadPhase s c task.part task.phase
  let hd0 := reloadPhase ph0.2 c task.part task.held
  let cx0 := reloadCtxs hd0.2 c task.part task.ctxs
  let s := cx0.2
  let ph := ph0.1
  let hd := hd0.1
  let cx := cx0.1
  let go := fun (p : Phase) => movedPhase task.job im.core c p
  let seed := { task.seed with waitBar := task.seed.waitBar.map (movedKey task.job im.core c) }
  let arrived := task.arrived.foldl (fun m e => tabPut m (movedKey task.job im.core c e.1) e.2) []
  let task := { task with phase := ph.1.map go, held := hd.1.map go, ctxs := cx.1, seed := seed, arrived := arrived,
                          deferred := ph.2 ++ hd.2 ++ cx.2 ++ task.deferred }
  let core := s.core c
  let acc := (List.range rows.length).foldl (fun m i => tabSet 0 m (rows.getD i 0) (tabGet 0 im.acc i)) core.acc
  let bufs := im.bufs.foldl (fun m e => tabPut m e.1 (if e.1 = 31 then { desc := cbInit e.2.desc } else e.2)) core.bufs
  let recs := im.recs.foldl (fun m e => tabPut m e.1 e.2) core.recs
  let owns : Bool := im.handler && core.handlerOwner.isNone
  let s := s.setCore c { core with tasks := tabPut core.tasks t task, acc := acc, bufs := bufs, recs := recs
                                   handlerOwner := if owns then some t else core.handlerOwner
                                   handlerCtx := if owns then task.phase.map (fun p => ⟨p.addr, p.hdr, p.words⟩) else core.handlerCtx }
  placeChans s c t cs

/-- The waits of a task at barriers whose round has completed meanwhile (R340, R302). -/
def settleWaits (s : State) (c t : Nat) : State :=
  match s.task? c t with
  | none => s
  | some task =>
    let ws := (task.phase.toList ++ task.held.toList).flatMap fun ph => (owedOf ph 127).filter fun o => 2 ^ 300 ≤ o.key && o.key < 2 ^ 400 && o.tok.isNone
    ws.foldl (fun s o =>
      let key := (o.key - 2 ^ 300) / 2 ^ 64
      let b := s.barrier key
      if b.done < o.key % 2 ^ 64 then s
      else releaseWaits s c key (o.key % 2 ^ 64) (if key < 2 ^ 40 then 4 else key / 16 % 16) (barrierToken b (b.errs.contains (o.key % 2 ^ 64)))) s

/-- What a resumed task does before any firing: riders and the feed board again, and a fault is taken; a task saved idle
that has a message is ready (R343, R344). -/
def afterResume (s : State) (c t : Nat) : State :=
  let s := settleWaits s c t
  let a := reboardAll s c t true
  let b := rejoinFeed a.1 c t
  let s := deferFaults b.1 c t (a.2 ++ b.2)
  let s := match s.task? c t with
    | some task => if task.st == .idle && (messageChan (s.core c) t).isSome then s.setTask c t { task with st := .ready, woken := true } else s
    | none => s
  takeDeferred s c t

/-- What a task could not board again for want of room is tried again, its feed included. -/
def retryBoards (s : State) (c t : Nat) : State :=
  match s.task? c t with
  | none => s
  | some task =>
    if task.cutting || (task.reboard.all (fun x => x.2.1.testBit 18) && (!task.seed.joined || task.st == .trapped)) then s
    else
      let a := reboardAll s c t false
      let b := if task.st == .trapped then (a.1, []) else rejoinFeed a.1 c t
      if a.2.isEmpty && b.2.isEmpty then b.1 else takeDeferred (deferFaults b.1 c t (a.2 ++ b.2)) c t

end Sys2Proof.Machine
end

