-- ==== Sys2Proof/Machine/Sched.lean ====
section
/-! DEFINITION. The launch scheduler (R42, R382 to R391, R366, R343): records taken and checked, pick passes, placing and
resuming gangs, and the choice of gangs to pre-empt. -/

namespace Sys2Proof.Machine

/-! Launch record fields (Table 23.2). -/

def lrEntry (r : BitVec 1024) : Nat := lrBits r 0 57
def lrSlots (r : BitVec 1024) : Nat := lrBits r 121 7
def lrPipes (r : BitVec 1024) : Nat := lrBits r 185 4
def lrCtx (r : BitVec 1024) : Nat := lrBits r 189 3 + 1
def lrImg (r : BitVec 1024) : Nat := lrBits r 192 57
def lrCbs (r : BitVec 1024) : BitVec 32 := r.extractLsb' 256 32
def lrPsize (r : BitVec 1024) : Nat := lrBits r 288 32
def lrFp (r : BitVec 1024) : Nat := lrBits r 320 57
def lrSys (r : BitVec 1024) : Bool := r.getLsbD 377
def lrGang (r : BitVec 1024) : Nat := lrBits r 384 10
def lrRows (r : BitVec 1024) : Nat := lrBits r 394 13
def lrVersion (r : BitVec 1024) : Nat := lrBits r 444 4
def lrTensors (r : BitVec 1024) : BitVec 64 := r.extractLsb' 448 64

/-- The quads that QUADS names. -/
def lrQuads (r : BitVec 1024) : List Nat := (List.range 128).filter fun q => r.getLsbD (512 + q)

/-- The keep ranges in use, as (first, last) granules. -/
def lrKeeps (r : BitVec 1024) : List (Nat × Nat) :=
  ((List.range 6).map fun k => (lrBits r (640 + 18 * k + 9) 9, lrBits r (640 + 18 * k) 9)).filter fun x => x.1 != 0x1FF

/-- The granules of the keep map. -/
def lrKeep (r : BitVec 1024) : List Nat := (List.range 384).filter fun g => (lrKeeps r).any fun x => x.1 ≤ g && g ≤ x.2

/-- A register that the record gives: its number, value, PRIV and END. -/
structure Breg where
  reg : Nat
  value : Nat
  priv : Bool
  atEnd : Bool
  deriving DecidableEq, Repr, Inhabited

/-- The BREG fields with V = 1. -/
def lrBregs (r : BitVec 1024) : List Breg :=
  ((List.range 4).map fun k => lrBits r (768 + 64 * k) 64).filterMap fun x =>
    if x.testBit 63 then some ⟨bitsOf x 57 4, bitsOf x 0 57, x.testBit 62, x.testBit 61⟩ else none

/-- The value of a register for a rank (R385). -/
def bregValue (r : BitVec 1024) (b : Breg) (rank : Nat) : Nat := b.value + (if b.priv then rank * 4096 * lrPsize r else 0)

/-! Bytes of direct regions that the package reads for a partition (R375, R378). -/

/-- A page of a direct region that passes the checks (R384). -/
def directPage (s : State) (part : Nat) (nd : Need) (va : Nat) : Except FaultInfo Place × State :=
  match resolveFor s part { nd with hostOk := false } va with
  | (.error f, s) => (.error f, s)
  | (.ok pl, s) => (if peTgt pl.leaf = 0 then .ok pl else .error { cls := 0x04, acc := nd.acc, addr := va }, s)

/-- The runs of n bytes of direct regions, page by page. -/
def directRuns (part : Nat) (nd : Need) : Nat → Nat → Nat → State → Except FaultInfo (List MemRun) × State
  | 0, _, _, s => (.ok [], s)
  | k + 1, va, n, s =>
    if n = 0 then (.ok [], s)
    else match directPage s part nd (va % 2 ^ 57) with
      | (.error f, s) => (.error f, s)
      | (.ok pl, s) =>
        let m := min n (4096 - va % 4096)
        match directRuns part nd k (va + m) (n - m) s with
        | (.error f, s) => (.error f, s)
        | (.ok ks, s) => (.ok (⟨pl.key, m, leafView pl.leaf⟩ :: ks), s)

def directSpan (s : State) (part : Nat) (nd : Need) (va n : Nat) : Except FaultInfo (List MemRun) × State :=
  directRuns part nd (n / 4096 + 2) va n s

/-- Reads n bytes of direct regions; poison is a fault. -/
def directRead (s : State) (part : Nat) (nd : Need) (va n : Nat) : Except FaultInfo Nat × State :=
  match directSpan s part nd va n with
  | (.error f, s) => (.error f, s)
  | (.ok ks, s) =>
    let s := checkKeys s ks
    if keysPoisoned s ks then (.error { cls := 0x09, addr := va }, s) else (.ok (readKeys s ks), s)

/-! The checks of a record (R387, Table 23.4). -/

/-- Codes 0x05 and 0x03. -/
def recordShape (s : State) (job : Job) : Option Nat :=
  let r := job.record
  let mine := (s.partn job.part).quads
  let qs := lrQuads r
  if lrVersion r != 1 || lrGang r = 0 || lrBits r 748 20 != 0 || lrBits r 419 25 != 0 || lrBits r 380 4 != 0 || lrBits r 249 7 != 0 ||
      ((lrBregs r).any fun b => b.reg = 12 || (b.priv && lrPsize r = 0) || (b.atEnd && !b.priv)) ||
      ((lrKeeps r).any fun x => x.2 < x.1 || 383 < x.2) || !(qs.any mine.contains) || !(qs.all mine.contains) || (lrSys r && job.fn != 0) then some 0x05
  else if 4 * qs.length < lrGang r || 64 < lrSlots r || 8 < lrPipes r || 4096 < lrRows r then some 0x03
  else none

/-- The declared record numbers, and the declared descriptor numbers. -/
def declaredRecs (r : BitVec 1024) : List Nat := (List.range 64).filter fun n => (lrTensors r).getLsbD n
def declaredBufs (r : BitVec 1024) : List Nat := (List.range 32).filter fun n => (lrCbs r).getLsbD n

/-- The images of a record: its layout records and descriptors by number (R384). -/
def readImages (s : State) (job : Job) : Except FaultInfo (List (Nat × BitVec 512) × List (Nat × BitVec 256)) × State :=
  let r := job.record
  let nt := declaredRecs r
  let nc := declaredBufs r
  if nt.isEmpty && nc.isEmpty then (.ok ([], []), s)
  else if lrImg r % 64 != 0 then (.error { cls := 0x02, addr := lrImg r }, s)
  else match directRead s job.part needRead (lrImg r) (64 * nt.length + 32 * nc.length) with
    | (.error f, s) => (.error f, s)
    | (.ok x, s) => (.ok ((List.range nt.length).map (fun i => (nt.getD i 0, BitVec.ofNat 512 (bitsOf x (512 * i) 512))),
        (List.range nc.length).map fun i => (nc.getD i 0, BitVec.ofNat 256 (bitsOf x (512 * nt.length + 256 * i) 256))), s)

/-- The footprint block (Table 23.2). -/
def readFootprint (s : State) (job : Job) : Except FaultInfo (BitVec 256) × State :=
  let a := lrFp job.record
  if a = 0 then (.ok 0, s)
  else if a % 32 != 0 then (.error { cls := 0x02, addr := a }, s)
  else match directRead s job.part needRead a 32 with
    | (.error f, s) => (.error f, s)
    | (.ok x, s) => (.ok (BitVec.ofNat 256 x), s)

/-- The fault of a check, if it found one. -/
def failOf {α : Type} : Except FaultInfo α → Option FaultInfo
  | .error f => some f
  | .ok _ => none

/-- The entry block's header and words lie in direct pages with X. -/
def entryCheck (s : State) (job : Job) : Option FaultInfo × State :=
  let a := lrEntry job.record
  if a % 16 != 0 then (some { cls := 0x02, acc := 2, addr := a }, s)
  else match directRead s job.part needExec a 16 with
    | (.error f, s) => (some f, s)
    | (.ok h, s) =>
      let r := directSpan s job.part needExec (a + 16) (8 * hdrCount (BitVec.ofNat 128 h))
      (failOf r.1, r.2)

/-- The pages of the private copies that the PRIV registers show (R385). -/
def privateCheck (s : State) (job : Job) : Option FaultInfo × State :=
  let pages := (lrBregs job.record).flatMap fun b => if b.priv then
    (List.range (lrGang job.record)).map fun rank => (bregValue job.record b rank + 2 ^ 57 - b.atEnd.toNat) % 2 ^ 57 else []
  pages.foldl (fun acc va => match acc.1 with
    | some _ => acc
    | none =>
      let r := directPage acc.2 job.part { r := true, w := true, acc := 1 } va
      (failOf r.1, r.2)) (none, s)

/-- Bytes of a task's save area (R384). -/
def saveAreaBytes (r : BitVec 1024) : Nat := (262144 + 4096 * (lrKeep r).length + 64 * lrRows r + 4095) / 4096 * 4096

def saveCheck (s : State) (job : Job) : Option FaultInfo × State :=
  let a := lrSave job.record
  if a = 0 then (none, s)
  else if a % 4096 != 0 then (some { cls := 0x02, acc := 1, addr := a }, s)
  else
    let r := directSpan s job.part needWrite a (lrGang job.record * saveAreaBytes job.record)
    (failOf r.1, r.2)

/-- Code 0x06: the first failing area, in the order of Table 23.4. -/
def recordAreas (s : State) (job : Job) : Except FaultInfo (BitVec 256 × List (Nat × BitVec 512) × List (Nat × BitVec 256)) × State :=
  match readImages s job with
  | (.error f, s) => (.error f, s)
  | (.ok im, s) => match readFootprint s job with
    | (.error f, s) => (.error f, s)
    | (.ok fp, s) => match entryCheck s job with
      | (some f, s) => (.error f, s)
      | (none, s) => match privateCheck s job with
        | (some f, s) => (.error f, s)
        | (none, s) => match saveCheck s job with
          | (some f, s) => (.error f, s)
          | (none, s) => (.ok (fp, im), s)

/-- Whether a page of a compute-region record passes R366. -/
def cregPage (part va : Nat) (s : State) : Bool × State :=
  if inWindow va then (true, s)
  else
    let r := resolve s part va
    (match r.1 with
      | .ok pl => peCreg pl.leaf && peTgt pl.leaf == 0 && (r.2.chan (chanOfPa pl.key)).owner == part
      | .error _ => false, r.2)

/-- The pages of the extent of a record (R366). -/
def recPages (r : BitVec 512) : List Nat :=
    let n0 := if recWrap r 0 = 0 then recExt r 0 else min (recExt r 0) (2 ^ recWrap r 0)
    let bytes := packedBytes (recFmt r) n0
    let rows := (List.range (recNdim r)).tail.foldl (fun n d => n * recExt r d) 1
    (List.range rows).flatMap fun i =>
      let a := wrapTo 57 ((recBase r : Int) + addrFrom r 1 (recNdim r - 1) i)
      (List.range ((a + bytes - 1) / 4096 + 1 - a / 4096)).map fun k => (a / 4096 + k) * 4096 % 2 ^ 57

/-- Code 0x07: every page of the extent of a record with CREG = 1 (R366). -/
def cregOk (part : Nat) (s : State) (r : BitVec 512) : Bool × State :=
  if !recCreg r then (true, s)
  else (recPages r).foldl (fun acc va => if acc.1 then cregPage part va acc.2 else acc) (true, s)

/-- Code 0x07 over a list of records. -/
def cregsOk (part : Nat) (s : State) (rs : List (BitVec 512)) : Bool × State :=
  rs.foldl (fun acc r => if acc.1 then cregOk part acc.2 r else acc) (true, s)

/-- Code 0x08: a descriptor 0 to 30 lies inside the keep map (R343). -/
def bufKept (keep : List Nat) (e : Nat × BitVec 256) : Bool :=
  e.1 = 31 ||
    (let d := e.2
     let last := cbBase d + 64 * cbTokens d * cbSlots d - 1
     (List.range (last / 4096 + 1 - cbBase d / 4096)).all fun i => keep.contains (cbBase d / 4096 + i))

/-- The status of a record refused at its taking, as code and FAIL, else its footprint (R387). -/
def checkRecord (s : State) (job : Job) : Except (Nat × Nat) (BitVec 256) × State :=
  match recordShape s job with
  | some c => (.error (c, 0), s)
  | none => match recordAreas s job with
    | (.error f, s) => (.error (0x06, f.cls), s)
    | (.ok (fp, im), s) =>
      let creg := cregsOk job.part s (im.1.map Prod.snd)
      let s := creg.2
      if !creg.1 then (.error (0x07, 0), s)
      else if !(im.2.all (bufKept (lrKeep job.record))) then (.error (0x08, 0), s)
      else (.ok fp, s)

/-- STAT is aligned and can be written (R387). -/
def statOk (s : State) (job : Job) : Bool × State :=
  let a := lrStat job.record
  if a = 0 then (true, s)
  else if a % 32 != 0 then (false, s)
  else
    let r := directPage s job.part needWrite a
    ((failOf r.1).isNone, r.2)

/-! Taking a record (R383). -/

/-- The stamp of the post that a queue's next record is of, where the scheduler may take it: posts that become visible in one step go
by function, then queue. -/
def takeStamp (s : State) (fn q : Nat) : Option Nat :=
  let x := lqOf s fn q
  if s.boot == .running && (s.fnOf fn).en && x.size != 0 && !x.rderr && x.head != x.tail then x.posts.head?.map Prod.snd else none

/-- Whether no other queue has a record whose post became visible earlier. -/
def takesFirst (s : State) (fn queue stamp : Nat) : Bool :=
  s.fns.all fun f => f.2.queues.all fun q => (takeStamp s f.1 q.1).all fun n =>
    stamp < n || (stamp == n && (fn < f.1 || (fn == f.1 && queue ≤ q.1)))

/-- The posts of a queue after one record is taken. -/
def popPost : List (Nat × Nat) → List (Nat × Nat)
  | [] => []
  | (n, st) :: t => if n ≤ 1 then t else (n - 1, st) :: t

/-- A record taken becomes a job, or is refused (R387). -/
def takeJob (s : State) (fn q : Nat) (r : BitVec 1024) : State :=
  let j := s.jobOrder
  let job : Job := { record := r, fn := fn, queue := q, part := (s.fnOf fn).part, order := j }
  let s := { s with jobOrder := j + 1, passDue := true }
  let ok := statOk s job
  let s := ok.2
  if !ok.1 then setLq s fn q { lqOf s fn q with sterr := true }
  else match checkRecord s job with
    | (.error (code, fail), s) => writeStatus s job code fail 0 0
    | (.ok fp, s) => s.setJob j { job with fp := fp }

/-- RECORD_TAKE: the record at the head of a queue, in the order of the posts (R383). -/
def recordTakeMove (fn q : Nat) (s : State) : State :=
  match takeStamp s fn q with
  | none => s
  | some stamp =>
    if !takesFirst s fn q stamp || 8192 ≤ s.jobs.length then s
    else
      let x := lqOf s fn q
      match directRead s (s.fnOf fn).part needRead ((x.base.toNat + 128 * (x.head.toNat % x.size)) % 2 ^ 57) 128 with
      | (.error _, s) => setLq s fn q { lqOf s fn q with rderr := true }
      | (.ok r, s) => takeJob (setLq s fn q { lqOf s fn q with head := x.head + 1, posts := popPost x.posts }) fn q (BitVec.ofNat 1024 r)

/-! Priorities (R388). -/

/-- LIFT: a waiting job has waited to the end of a lift period. -/
def liftMove (j : Nat) (s : State) : State :=
  match s.job? j with
  | none => s
  | some job =>
    if !jobWaits job || s.lifttime = 0 then s
    else
      let n := s.lifttime.toNat
      let job' := { job with waited := (job.waited / n + 1) * n }
      let rises : Bool := effPrio s job < effPrio s job'
      { s.setJob j job' with passDue := s.passDue || rises }

/-! Whether a gang fits (R390). -/

/-- The jobs of a partition in flight, but for one. -/
def flying (s : State) (part j : Nat) : List (Nat × Job) := s.jobs.filter fun e => e.1 != j && e.2.part == part && e.2.st != .ready

/-- The tasks that hold shares of a core, those resident and those ended, but for gangs taken as gone. -/
def shareHolders (s : State) (gone : List Nat) (c : Nat) : List Task :=
  ((s.core c).tasks.map Prod.snd).filter (fun t => !gone.contains t.job) ++
    s.jobs.flatMap fun e => if gone.contains e.1 then [] else (e.2.ended.filter fun x => x.1 == c).map Prod.snd

/-- Whether a task's keep map, records or descriptors meet a job's. -/
def sharesMeet (r : BitVec 1024) (keep : List Nat) (t : Task) : Bool :=
  t.keep.any keep.contains || (t.recs &&& lrTensors r) != 0 || (t.bufs &&& lrCbs r) != 0

/-- The jobs whose tasks keep a core from being eligible. -/
def coreBlockers (s : State) (job : Job) (gone : List Nat) (c : Nat) : List Nat :=
  let r := job.record
  let here := ((s.core c).tasks.map Prod.snd).filter fun t => !gone.contains t.job
  let own := shareHolders s gone c
  let ctxs := own.foldl (fun n t => n + t.nctx) 0
  let rows := own.foldl (fun n t => n + t.acc.length) 0
  ((if 4 ≤ here.length then here else []) ++ (if 8 < ctxs + lrCtx r then own else []) ++
    (if 4096 < rows + lrRows r then own.filter fun t => !t.acc.isEmpty else []) ++ own.filter (sharesMeet r (lrKeep r))).map Task.job

/-- Whether a channel that a saved task has to bind is bound on a core to another task (R344, R390). -/
def chansTaken (s : State) (im : TaskImage) (c : Nat) : Bool :=
  im.chans.any fun x =>
    let ch := tabGet {} (s.core c).chans x.1
    ch.task.isSome || ch.held.any fun h => h != (im.task.job, im.task.rank)

/-- Each of a gang's tasks on the lowest eligible core that none of lower rank has taken. -/
def assignCores (s : State) : List (Option TaskImage) → List Nat → Option (List Nat)
  | [], _ => some []
  | x :: xs, cs => match cs.find? fun c => !(x.any fun im => chansTaken s im c) with
    | none => none
    | some c => (assignCores s xs (cs.filter (· != c))).map (c :: ·)

/-- The regions of a job's footprint. -/
def jobRegions (job : Job) : List Region := footprint (BitVec.ofNat 512 (job.fp.toNat * 2 ^ 256))

/-- Whether no job in flight conflicts with a job, and slots and pipes are left (R390, R359). -/
def packageFits (s : State) (j : Nat) (job : Job) : Bool :=
  let fly := flying s job.part j
  fly.all (fun e => (jobRegions e.2).all fun a => (jobRegions job).all fun b => !regionsMeet a b) &&
  fly.foldl (fun n e => n + lrSlots e.2.record) (lrSlots job.record) ≤ 64 && fly.foldl (fun n e => n + lrPipes e.2.record) (lrPipes job.record) ≤ 8

/-- The ranks of a job's gang with what each has saved: a gang takes GANG cores, whichever of its tasks have ended (R390). -/
def tasksToPlace (job : Job) : List (Option TaskImage) :=
  (List.range (lrGang job.record)).map fun r => if job.st == .saved then tabFind job.images r else none

/-- The cores of a job's quads that belong to its partition, in ascending number. -/
def jobCores (s : State) (job : Job) (held : List Nat) : List Nat :=
  ((lrQuads job.record).filter fun q => (s.partn job.part).quads.contains q && !held.contains q).flatMap fun q => (List.range 4).map fun i => 4 * q + i

/-- The cores that a gang takes, where it fits, with the gangs `gone` taken as saved. -/
def fitCores (s : State) (j : Nat) (job : Job) (held gone : List Nat) : Option (List Nat) :=
  if !packageFits s j job then none
  else assignCores s (tasksToPlace job) ((jobCores s job held).filter fun c => (coreBlockers s job gone c).isEmpty)

/-! Placing (R42, R39, R390). -/

def freeSlot (core : Core) : Nat := ((List.range 4).find? fun t => (tabFind core.tasks t).isNone).getD 0

/-- The lowest n rows of a core that no task holds. -/
def freeRows (s : State) (c n : Nat) : List Nat :=
  let used := (shareHolders s [] c).flatMap Task.acc
  ((List.range 4096).filter fun i => !used.contains i).take n

/-- The task of a rank as it starts (R39, R385). -/
def newTask (j : Nat) (job : Job) (rank : Nat) (rows : List Nat) (ctxs : List Ctx) : Task :=
  let r := job.record
  let b := (lrBregs r).foldl (fun b x => b.set x.reg (BitVec.ofNat 64 (bregValue r x rank))) (List.replicate 16 (0 : Word64))
  { job := j, rank := rank, part := job.part, fn := job.fn, sys := lrSys r, prio := lrPrio r, st := .ready, pc := lrEntry r
    b := b.set 12 (BitVec.ofNat 64 rank), nctx := lrCtx r, acc := rows, keep := lrKeep r, recs := lrTensors r, bufs := lrCbs r, ctxs := ctxs }

/-- The entry block loaded for every task: its context, none where a later load will fault (R180), or the failure word of the
first core whose load fails its checks (R87). -/
def loadEntries (job : Job) : List Nat → State → Except Nat (List (List Ctx)) × State
  | [], s => (.ok [], s)
  | c :: cs, s => match loadBlock c job.part (lrEntry job.record) s with
    | (.error f, s) => if f.cls = 0x01 then (.error f.info, s) else (match loadEntries job cs s with
        | (.error w, s) => (.error w, s)
        | (.ok xs, s) => (.ok ([] :: xs), s))
    | (.ok (h, ws), s) => match loadEntries job cs s with
      | (.error w, s) => (.error w, s)
      | (.ok xs, s) => (.ok ([⟨lrEntry job.record, h, ws⟩] :: xs), s)

/-- One task made resident with its images (R150, R156). -/
def placeTask (s : State) (j : Nat) (job : Job) (im : List (Nat × BitVec 512) × List (Nat × BitVec 256)) (c rank : Nat) (ctxs : List Ctx) : State :=
  let rows := freeRows s c (lrRows job.record)
  let core := s.core c
  let t := freeSlot core
  s.setCore c { core with
    tasks := tabPut core.tasks t (newTask j job rank rows ctxs)
    recs := im.1.foldl (fun m e => tabPut m e.1 (e.2 &&& recordBits)) core.recs
    bufs := im.2.foldl (fun m e => tabPut m e.1 { desc := cbInit e.2 }) core.bufs }

/-- What every placement writes: the job's state and status, and the order that the next pass follows (R388, R389). -/
def notePlaced (s : State) (j : Nat) (job : Job) : State :=
  let e := effPrio s job
  let job' := { job with st := .placed, holding := e, placed := s.placeOrder, images := [] }
  writeStatus { s.setJob j job' with placeOrder := s.placeOrder + 1, lastPlaced := tabPut s.lastPlaced e job.order } job' 0x01 0 0 0

/-- A refused job leaves the table once its status is written (R387). -/
def refuseJob (s : State) (j : Nat) (job : Job) (code fail : Nat) : State := { writeStatus s job code fail 0 0 with jobs := tabDel s.jobs j }

/-- A gang placed for the first time; rank r on the r-th core. -/
def placeNew (s : State) (j : Nat) (job : Job) (cores : List Nat) : State :=
  match readImages s job with
  | (.error f, s) => refuseJob s j job 0x06 f.cls
  | (.ok im, s) => match loadEntries job cores s with
    | (.error w, s) => refuseJob s j job 0x04 w
    | (.ok ctxs, s) =>
      let s := (List.range cores.length).foldl (fun s i => placeTask s j job im (cores.getD i 0) i (ctxs.getD i [])) s
      notePlaced s j job

/-- A saved gang resident again, rank r on the r-th core, its images restored before any firing (R343, R344). -/
def placeSaved (s : State) (j : Nat) (job : Job) (cores : List Nat) : State :=
  let ims := ((tasksToPlace job).zip cores).filterMap fun e => e.1.map fun im => (im, e.2)
  let s := moveBarriers s j (ims.map fun e => (e.1.core, e.2))
  let x := ims.foldl (fun (acc : List (List (Nat × Chan)) × State) e => let y := takeChans acc.2 e.2 e.1
    (acc.1 ++ [y.1], y.2)) ([], s)
  let s := notePlaced x.2 j job
  let r := (ims.zip x.1).foldl (fun (acc : List (Nat × Nat) × State) e =>
    let c := e.1.2
    let s := acc.2
    let t := freeSlot (s.core c)
    (acc.1 ++ [(c, t)], resumeTask s c t (freeRows s c (lrRows job.record)) e.1.1 e.2)) ([], s)
  r.1.foldl (fun s p => afterResume s p.1 p.2) r.2

/-! The pre-emption effort (R391). -/

/-- Puts a key into a list sorted by a weight, behind those of equal weight. -/
def insertBy (w : Nat → Nat × Nat × Nat) (j : Nat) : List Nat → List Nat
  | [] => [j]
  | k :: t =>
    let a := w j
    let b := w k
    if a.1 < b.1 || (a.1 == b.1 && (a.2.1 < b.2.1 || (a.2.1 == b.2.1 && a.2.2 < b.2.2))) then j :: k :: t else k :: insertBy w j t

def sortBy (w : Nat → Nat × Nat × Nat) (l : List Nat) : List Nat := l.foldl (fun acc j => insertBy w j acc) []

/-- The gangs that may be cut for a job: of lower holding priority, with a save area, in its way; the lowest first, of equals
the most recently placed first. -/
def cutCandidates (s : State) (job : Job) : List Nat :=
  let way := (jobCores s job []).flatMap (coreBlockers s job [])
  let ok := fun (e : Nat × Job) => way.contains e.1 && e.2.st == .placed && e.2.holding < effPrio s job && lrSave e.2.record != 0
  sortBy (fun k => match s.job? k with
    | some x => (x.holding, s.placeOrder - x.placed, 0)
    | none => (0, 0, 0)) ((s.jobs.filter ok).map Prod.fst)

/-- The fewest of the candidates, in order, after whose cuts the job would fit. -/
def cutPrefix (s : State) (j : Nat) (job : Job) (cands : List Nat) : Option (List Nat) :=
  ((List.range cands.length).map fun i => cands.take (i + 1)).find? fun p => (fitCores s j job [] p).isSome

/-- A job that does not fit starts an effort where none runs; one that only the quads held in the pass keep off fits (R389, R390). -/
def startEffort (s : State) (j : Nat) (job : Job) : State :=
  if s.effort.isSome || (fitCores s j job [] []).isSome then s
  else match cutPrefix s j job (cutCandidates s job) with
    | some p => { s with effort := some (j, p) }
    | none => s

/-- Whether a gang is being cut. -/
def someCut (s : State) : Bool := s.jobs.any fun e => e.2.st == .cutting

/-- The effort goes on once no cut is under way: the next gang is asked to save (PREEMPTION_REQUEST), until the job is placed. -/
def driveEffort (s : State) : State :=
  match s.effort with
  | none => s
  | some (j, vs) =>
    if someCut s then s
    else if !((s.job? j).any jobWaits) then { s with effort := none }
    else match vs.find? fun v => (s.job? v).any fun x => x.st == .placed with
      | none => { s with effort := none }
      | some v => requestCut { s with effort := some (j, (vs.dropWhile fun x => x != v).tail) } v

/-! The pick pass (R389). -/

/-- The ready jobs in the order of a pass. -/
def passOrder (s : State) : List Nat :=
  sortBy (fun j => match s.job? j with
    | some x => let e := effPrio s x
      (127 - e, ((tabFind s.lastPlaced e).any fun o => x.order ≤ o).toNat, x.order)
    | none => (0, 0, 0)) ((s.jobs.filter fun e => jobWaits e.2).map Prod.fst)

/-- One visit: the gang is placed, or holds its quads for the rest of the pass. -/
def visitJob (acc : List Nat × State) (j : Nat) : List Nat × State :=
  let s := acc.2
  match s.job? j with
  | none => acc
  | some job => match fitCores s j job acc.1 [] with
    | some cores => (acc.1, if job.st == .saved then placeSaved s j job cores else placeNew s j job cores)
    | none => (acc.1 ++ lrQuads job.record, startEffort s j job)

/-- Forgets an effort whose cuts are all done. -/
def settleEffort (s : State) : State :=
  match s.effort with
  | some (_, []) => if someCut s then s else { s with effort := none }
  | _ => s

/-- PICK_PASS: every ready job is visited once (R389 to R391). -/
def pickPassMove (s : State) : State :=
  if !s.passDue then s
  else driveEffort ((passOrder s).foldl visitJob ([], settleEffort { s with passDue := false })).2

end Sys2Proof.Machine
end

