-- ==== Sys2Proof/Machine/Attach.lean ====
section
/-! DEFINITION. The host and pod attachments (R397 to R409): the window, function registers and MSI-X, the resets of
functions, and the requests of other packages. -/

namespace Sys2Proof.Machine

/-! The window (R399, R400, R411). -/

def winBase (f : Fn) : Nat := f.winbase.toNat % 2 ^ 57 / 65536 * 65536
def winEnabled (f : Fn) : Bool := f.winbase.getLsbD 0

/-- A failed access is recorded in WINERR (Table 25.3), which is no register before a configuration block is accepted (R411). -/
def winFail (s : State) (fn off cls : Nat) : State :=
  let f := s.fnOf fn
  let n := bitsOf f.winerr.toNat 8 24
  let w := if n = 0 then off % 2 ^ 32 * 2 ^ 32 + 256 + cls % 256 else f.winerr.toNat + (if n = 2 ^ 24 - 1 then 0 else 256)
  if s.boot != .running then s else s.setFn fn { f with winerr := BitVec.ofNat 64 w }

/-- The boot buffer takes the place of the window until a configuration block is accepted (R411). -/
def bootWindow (s : State) (fn off n : Nat) : Bool := s.boot != .running && fn = 0 && off + n ≤ 2 ^ 24

/-- The runs of a window access, or the class of its fault; EN = 0 has none of its own (log entry 9). -/
def winRuns (s : State) (fn off n : Nat) (nd : Need) : Except Nat (List MemRun) × State :=
  let f := s.fnOf fn
  if !winEnabled f || !f.en || s.boot != .running then (.error (Config.freeWord s.tick % 256), s)
  else match directSpan s f.part nd ((winBase f + off % 2 ^ 32) % 2 ^ 57) n with
    | (.error e, s) => (.error e.cls, s)
    | (.ok ks, s) => (.ok ks, s)

/-- Whether requests of a scope can be made at the homes of runs now (R322, R356, R367). -/
def runsOpen (s : State) (ks : List MemRun) (scope : Nat) : Bool := ks.all fun k => homeOpen s k.key k.len scope

/-- Requests of a scope made at the homes of runs (R356). -/
def countRuns (s : State) (ks : List MemRun) (scope : Nat) : State := ks.foldl (fun s k => countDirect s k.key scope) s

/-- HOST_WINDOW_WRITE: appended at the home by its controller, once that takes it, poisoned where its packet is (R331, R398, R400). -/
def windowWrite (fn off : Nat) (bytes : List Byte) (poison : Bool) (s : State) : State :=
  if bootWindow s fn off bytes.length then { s with bootBuf := memWriteBytes s.bootBuf off bytes }
  else match winRuns s fn off bytes.length needWrite with
    | (.error cls, s) => winFail s fn off cls
    | (.ok ks, u) => if runsOpen u ks 3 then writeKeys (countRuns u ks 3) ks (leNat bytes) poison else s

/-- The bytes of a number, lowest first. -/
def bytesOf (x n : Nat) : List Byte := (List.range n).map fun i => BitVec.ofNat 8 (x / 256 ^ i)

/-- An AER uncorrectable error of a function (Table 25.1): bit 20 Unsupported Request, bit 15 Completer Abort (PRESUMED, log entry 121). -/
def aerError (s : State) (fn bit : Nat) : State :=
  let f := s.fnOf fn
  s.setFn fn { f with uncorrectable := f.uncorrectable ||| BitVec.ofNat 32 (2 ^ bit) }

/-- A request answered as Unsupported Request (R397, R399). -/
def unsupported (fn : Nat) (s : State) : State := { aerError s fn 20 with hostReply := some .unsupported }

/-- HOST_WINDOW_READ: the home value, once its controller takes the request, or Completer Abort (R400). -/
def windowRead (fn off n : Nat) (s : State) : State :=
  if bootWindow s fn off n then { s with hostReply := some (.data ((List.range n).map fun i => memByte s.bootBuf (off + i))) }
  else match winRuns s fn off n needRead with
    | (.error cls, s) => { aerError (winFail s fn off cls) fn 15 with hostReply := some .abort }
    | (.ok ks, u) =>
      if !runsOpen u ks 3 then s
      else
        let u := checkKeys (countRuns u ks 3) ks
        { u with hostReply := some (if keysPoisoned u ks then .uncorrectable else .data (bytesOf (readKeys u ks) n)) }

/-- WINBASE_WRITE (Table 25.3). -/
def writeWinbase (fn : Nat) (v : Word64) (s : State) : State :=
  if s.boot != .running then s else s.setFn fn { s.fnOf fn with winbase := v &&& BitVec.ofNat 64 (2 ^ 57 - 65536 + 1) }

/-- WINERR_CLEAR: a 1 to any bit of COUNT clears the whole field (Table 25.3). -/
def clearWinerr (fn : Nat) (v : Word64) (s : State) : State :=
  let f := s.fnOf fn
  if bitsOf v.toNat 8 24 = 0 then s else s.setFn fn { f with winerr := BitVec.ofNat 64 (f.winerr.toNat - bitsOf f.winerr.toNat 8 24 * 256) }

/-- HOST_ATOMICOP_REQUEST is an Unsupported Request (R397). -/
def hostAtomic (fn : Nat) (s : State) : State := unsupported fn s

/-! Time-outs of requests to the host (R398). -/

/-- HOST_COMPLETION_TIMEOUT: no completion within 50 ms for the request of an element that n names as MEMORY_RESPONSE does, or, from 65536
on, for the unit that an EP2 card of the task is to read: card n − 65536, or the first for 0. -/
def hostTimeout (c t n : Nat) (s : State) : State :=
  if 65536 ≤ n then
    match (s.task? c t).bind fun task => ((chainOf task 2).cards.find? fun k => n = 65536 || k.seq == n - 65536).map fun k => (task, k) with
    | some (task, k) => unitTimeout c t task k s
    | none => s
  else
    let r := accRef c t n
    match accFind s r with
    | none => s
    | some (_, a) => match a.pieces[if isLoadOp a.op then n % 32 else 0]? with
      | none => s
      | some p => if a.stage == .issued && !isStoreOp a.op && !p.doneP && isHost p.key then responseFault s r a { cls := 0x09, addr := p.va } else s

/-! MSI-X (R401). -/

/-- A vector's mask bit changes; a pending message is sent once nothing masks it (R401). -/
def setMask (fn vec : Nat) (masked : Bool) (s : State) : State :=
  let f := s.fnOf fn
  sendPending (s.setFn fn { f with msix := tabPut f.msix vec (masked, (tabGet (true, false) f.msix vec).2) }) fn vec

/-- MSIX_UNMASK. -/
def unmaskVector (fn vec : Nat) (s : State) : State := setMask fn vec false s

/-! Resets of functions (R402). -/

/-- Requests to host memory of a job that have not been sent are dropped. -/
def dropHostRequests (s : State) (j : Nat) : State :=
  { s with hostWc := s.hostWc.filter (fun h => h.job != j)
           cores := s.cores.map fun e => (e.1, { e.2 with stores := e.2.stores.filter fun p => !(isHost p.key && storeJob e.2 p == j) }) }

/-- The work of one function is withdrawn, and its registers are reset, those of its configuration space with them. -/
def resetFn (s : State) (fn : Nat) : State :=
  let s := (s.jobs.filter fun e => e.2.fn == fn).foldl (fun s e => dropGang (dropHostRequests s e.1) e.1 e.2) s
  let f := s.fnOf fn
  s.setFn fn { en := f.en, part := f.part }

/-- VF_ENABLE_CLEAR. -/
def clearVfs (s : State) : State := { ((s.fns.map Prod.fst).filter fun f => f != 0).foldl resetFn s with sriov := (s.sriov.1, false) }

/-- FUNCTION_LEVEL_RESET: that of the physical function clears VF Enable, so that it acts on every virtual function too. -/
def functionReset (fn : Nat) (s : State) : State := if fn = 0 then { clearVfs (resetFn s 0) with sriov := (0, false) } else resetFn s fn

/-! Requests of other packages (R404, R407). -/

/-- The partition of a pod group. -/
def partOfPod (s : State) (podPart : Nat) : Option Nat := (s.parts.find? fun e => e.2.podpart == podPart).map Prod.fst

/-- The lowest core of a partition. -/
def firstCore (s : State) (part : Nat) : Nat := 4 * ((s.partn part).quads.head?.getD 0)

/-- A deposit of another package's kvsend: by a rider where the lines are swept (R285, R407). -/
def remoteDeposit (s : State) (part pkg va : Nat) (bytes : List Byte) : Reply × State :=
  match directSpan s part needWrite va bytes.length with
  | (.ok ks, s) => (.data [], writeKeys s ks (leNat bytes) false)
  | (.error _, s) =>
    let x := leNat bytes
    let lines := (List.range (bytes.length / 256)).map fun i => (va / 256 + i, bitsOf x (2048 * i) 2048)
    match boardDeposit s (firstCore s part) part (2 ^ 40) pkg lines [] with
    | (.error _, s) => (.ownership, s)
    | (.ok _, s) => (.data [], s)

/-- What a request of another package comes to: it waits for what it acts on, it is answered, or its reply comes later. -/
inductive RemoteOut where
  | waits
  | answers (y : Reply) (s : State)
  | later (s : State)

/-- The one word of an access of another package at the controller pipe (R407), read once that takes it, or the reply that refuses it. -/
def remoteWord (s : State) (part va n : Nat) (nd : Need) (g : MemRun → Nat → State → RemoteOut) : RemoteOut :=
  match directSpan s part nd va n with
  | (.ok [k], s) =>
    if !homeOpen s k.key n 3 then .waits
    else
      let s := readCheck (countDirect s k.key 3) k.key n
      if poisoned s k.key n then .answers .uncorrectable s else g k (viewRead s k.view k.key n) s
  | (_, s) => .answers .ownership s

/-- An atomic of another package reads its word; it writes it by a later move of the same pipe (R322). -/
def remoteAtomic (s : State) (part pkg va op ty operand expected : Nat) : RemoteOut :=
  let n := if is64 ty then 8 else 4
  remoteWord s part va n { r := true, w := true, acc := 1 } fun k old s =>
    match atomicNew op ty old operand expected with
    | none => .answers (.data (bytesOf old n)) s
    | some x => .later { s with homeAtoms := s.homeAtoms ++ [⟨{ k with len := n }, x, op = 0x88, pkg, .data (bytesOf old n)⟩] }

/-- HOME_WRITE: the write of an atomic of another package, with the waits it wakes and its reply. -/
def homeWriteMove (n : Nat) (s : State) : State :=
  match s.homeAtoms[n]? with
  | none => s
  | some h =>
    let s := writeView { s with homeAtoms := s.homeAtoms.eraseIdx n } h.run.view h.run.key h.run.len h.new false
    let s := if h.wakes then wakeWaits s (placeOf 0 3 h.run.key) h.run.key h.new else s
    { s with remoteReply := s.remoteReply ++ [(h.pkg, h.reply)] }

/-- An `await` of another package: met at once, or registered at the word's controller (R165, R407), beyond 256 too (DESIGN CHOICE, log
entry 12). -/
def remoteAwait (s : State) (part pkg va ty threshold : Nat) : RemoteOut :=
  let n := if is64 ty then 8 else 4
  remoteWord s part va n needRead fun k old s =>
    if satisfies ty old threshold then .answers (.data (bytesOf old n)) s
    else .later { s with remoteWaits := s.remoteWaits ++ [⟨pkg, { k with len := n }, ty, threshold⟩] }

/-- What the sequence unit finds of the descriptor at an address, for another package (R285, R404). -/
def remoteSeq (s : State) (part va : Nat) (g : Nat → KvRec → Nat → KvM α) : Except FaultInfo α × State :=
  let c := firstCore s part
  (do
    let k ← kvKey c part va 64 64
    let d ← kvRead k 64
    g c k d : KvM α) s

/-- The acceptance of another package's `kvsend`: status 0, or 5 where its destination is not open, armed and of its shape (R285). -/
def remoteAccept (s : State) (part va e0 n pppl nlayl : Nat) : Reply × State :=
  match remoteSeq s part va (fun c k d => acceptPages ⟨c, part, va, k, d, 0, n, 0⟩ e0 pppl nlayl) with
  | (.ok x, s) => (.data [if x.isSome then 0 else 5], s)
  | (.error f, s) => (if f.cls = 0x09 then .uncorrectable else .ownership, s)

/-- The end of a layer of another package's `kvsend`: once its deposits have alighted, the destination unit raises the flag, by a read and a
later write; a destination closed meanwhile raises none (R285, R287, R322). -/
def remoteLayer (s : State) (part pkg va : Nat) : RemoteOut :=
  if s.riders.any fun e => e.2.kind == 1 && e.2.job == 2 ^ 40 && e.2.rank == pkg then .waits
  else match remoteSeq s part va (fun _ k _ s => (.ok k.run.key, s)) with
    | (.error f, s) => .answers (if f.cls = 0x09 then .uncorrectable else .ownership) s
    | (.ok d, s) => match tabFind (s.die (homeDie d)).arms d with
      | none => .answers (.data []) s
      | some w => match cwMove s w 3 with
        | .waits => .waits
        | .read old s => .later { s with homeAtoms := s.homeAtoms ++ [⟨{ w with len := 4 }, (old + 1) % 2 ^ 32, true, pkg, .data []⟩] }
        | .written s => .answers (.data []) s

/-- A plain request of another package at the homes of its runs, by the L2 pipe (R316). -/
def remoteRuns (s : State) (part va n : Nat) (nd : Need) (g : List MemRun → State → Reply × State) : RemoteOut :=
  match directSpan s part nd va n with
  | (.error _, s) => .answers .ownership s
  | (.ok ks, s) => if runsOpen s ks 2 then (let r := g ks s; .answers r.1 r.2) else .waits

/-- A participant of a collective on another package has written its share (R297). -/
def remoteWritten (s : State) (pkg podPart rank key : Nat) : State :=
  match s.remoteColls.findIdx? fun e => e.pkg == pkg && e.podPart == podPart && e.rank == rank && e.key == key && e.unit != 0 with
  | some i => { s with remoteColls := s.remoteColls.eraseIdx i }
  | none => s

/-- What a request of another package does in its partition. -/
def remoteDo (s : State) (part : Nat) (r : RemoteReq) : RemoteOut :=
  match r.op with
  | .load n => remoteRuns s part r.va n needRead fun ks s =>
    let s := checkKeys s ks
    (if keysPoisoned s ks then .uncorrectable else .data (bytesOf (readKeys s ks) n), s)
  | .store bytes => remoteRuns s part r.va bytes.length needWrite fun ks s => (.data [], writeKeys s ks (leNat bytes) false)
  | .atomic op ty operand expected => remoteAtomic s part r.pkg r.va op ty operand expected
  | .await ty threshold => remoteAwait s part r.pkg r.va ty threshold
  | .message core chan ws =>
    if !(s.partn part).quads.contains (quadOfCore core) then .answers .ownership s
    else (match queueMessage s core (chan % 64) (BitVec.ofNat 384 (packElems 32 (ws.map BitVec.toNat)), 4) with
      | some s => .answers (.data []) s
      | none => .waits)
  | .barrier id key count err => .answers (.data []) (arriveAt s (podKey (s.partn part).podpart key id) count err)
  | .deposit bytes => let y := remoteDeposit s part r.pkg r.va bytes; .answers y.1 y.2
  | .accept e0 n pppl nlayl => let y := remoteAccept s part r.va e0 n pppl nlayl; .answers y.1 y.2
  | .layer => remoteLayer s part r.pkg r.va
  | .collective rank key form elems =>
    .answers (.data []) { s with cardOrder := s.cardOrder + 1, remoteColls := s.remoteColls ++ [⟨r.pkg, r.podPart, rank, key, form, elems, s.cardOrder, 0⟩] }
  | .written rank key => .answers (.data []) (remoteWritten s r.pkg r.podPart rank key)

/-- REMOTE_REQUEST: a request reaches the partition of its pod group, or is refused for ownership (R404). -/
def remoteRequestMove (r : RemoteReq) (s : State) : State :=
  if s.boot != .running then s
  else match partOfPod s r.podPart with
    | none => { s with remoteReply := s.remoteReply ++ [(r.pkg, .ownership)] }
    | some part => match remoteDo s part r with
      | .waits => s
      | .later s => s
      | .answers y s => { s with remoteReply := s.remoteReply ++ [(r.pkg, y)] }

end Sys2Proof.Machine
end

