-- ==== Sys2Proof/Machine/Boot.lean ====
section
/-! DEFINITION. Boot, configuration, attestation, the freeze, and the writes of system software from outside (R354, R410 to
R419). -/

namespace Sys2Proof.Machine

/-! Reset (R410, R418). -/

/-- What a reset of the device keeps: host memory and the memory of other packages, what has left on the links, the choice
of moves, the sensors, and the number of the package. -/
def outside (s : State) : State :=
  { State.reset with
    mem := s.mem.filter fun e => isRemote e.1 || isHost e.1
    poison := s.poison.filter fun e => isRemote (32 * e.1) || isHost (32 * e.1)
    latent := s.latent.filter fun e => isRemote (32 * e.1) || isHost (32 * e.1)
    stks := s.stks.map fun e => (e.1, { temp := e.2.temp })
    hostLink := s.hostLink, msixSent := s.msixSent, pkgId := s.pkgId, focus := s.focus, moves := s.moves, tick := s.tick }

/-- The image runs: its digest is a measurement (Table 26.3). -/
def runImage (img : Image) (s : State) : State := { s with boot := .config, measure := tabPut (tabPut s.measure 1 Config.romDigest) 2 img.digest }

/-- RESET: the ROM runs the flash image when its signature verifies, else it enters recovery (R410). -/
def resetMove (img : Image) (s : State) : State :=
  let s := outside s
  if img.sigOk then runImage img s else { s with boot := .recovery, bootstat := 2 }

/-- An image of the host runs, in recovery only, when its signature verifies (R410, R411). -/
def bootImage (img : Image) (s : State) : State := if s.boot == .recovery && img.sigOk then runImage img s else s

/-- A boot command is without effect while another is being checked (R419). -/
def unlessBusy (g : State → State) (s : State) : State := if s.bootBusy.isSome then s else g s

/-! The configuration block (R412). -/

/-- Whether no number stands twice in a list. -/
def distinct (l : List Nat) : Bool := l.eraseDups.length == l.length

/-- Check 4 of Table 26.2. -/
def blockNames (b : ConfigBlock) : Bool :=
  distinct (b.parts.map PartCfg.num) && distinct (b.parts.flatMap PartCfg.quads) && distinct (b.parts.flatMap PartCfg.fns) && b.parts.any fun p => p.fns.contains 0

def delaysOk (d : DelayCfg) : Bool :=
  let m := packElems 8 (List.replicate 64 0x3F)
  d.chan < 384 && d.rd.toNat &&& m == d.rd.toNat && d.wr.toNat &&& m == d.wr.toNat && d.sp &&& 0x3F3F3F3F == d.sp && d.repair.toNat < 2 ^ 16 && repairOk d.repair.toNat

/-- Check 5 of Table 26.2: every value lies in the range of its register. -/
def blockRanges (b : ConfigBlock) : Bool :=
  (b.parts.all fun p => p.num < 64 && p.podPart < 2 ^ 16 && p.quads.all (· < 128) && p.fns.all (· ≤ 1024)) && distinct (b.parts.map PartCfg.podPart) &&
  b.delays.all delaysOk && b.untrained.all (· < 12) && b.drszl.all (fun x => 6 ≤ x && x ≤ 10) && b.dshr.all (fun x => 3 ≤ x && x ≤ 6) &&
  ((List.range b.sweeplen.length).all fun i => 16 ≤ b.sweeplen.getD i 0 && b.sweeplen.getD i 0 ≤ (2 ^ 31 - 2 ^ (b.drszl.getD i 7 + 20)) / 256) &&
  b.swtherm.all (fun x => 60 ≤ x && x ≤ 105) && b.dutyratio.all (fun x => 1 ≤ x && x ≤ 48) && b.aithresh.toNat < 2 ^ 27 && 1024 ≤ b.grantmax.toNat &&
  b.oppoint ≤ 2 && b.pabudget.all fun x => 4 ≤ x && x < 65536

/-- The reason a block is refused (Table 26.2). -/
def blockError (b : ConfigBlock) : Option Nat :=
  if !b.sigOk then some 1
  else if b.device != Config.idDigest then some 2
  else if b.version != 1 || !b.lenOk then some 3
  else if !blockNames b then some 4
  else if !blockRanges b then some 5
  else if b.oppoint = 2 && !b.hipt then some 6
  else none

/-- One channel as the block sets it: the stored delays and repair, or, of a stack that had to be trained, those found; a stack that does not
train is out of service and belongs to no partition (R354, R412 steps 3 and 4). -/
def configChannel (b : ConfigBlock) (ch : Nat) (x : Channel) : Channel :=
  let oos := b.untrained.contains (ch / 32)
  let owner := ((b.parts.find? fun p => p.quads.contains (ch / 3)).map PartCfg.num).getD 0x7F
  let x := match ((b.trained ++ b.delays).find? fun d => d.chan == ch) with
    | some d => { x with rddly := d.rd, wrdly := d.wr, spdly := d.sp, repair := d.repair }
    | none => x
  let x := { x with owner := if oos then 0x7F else owner, oos := oos, drszl := b.drszl.getD ch 7, dshr := b.dshr.getD ch 4, dshrReg := b.dshr.getD ch 4 }
  let len := b.sweeplen.getD ch (sweptSize x / 256)
  { x with len := len, lenReg := len }

/-- An accepted block is applied as a whole (R412). -/
def applyBlock (b : ConfigBlock) (s : State) : State :=
  let s := b.parts.foldl (fun s p => s.setPart p.num { s.partn p.num with quads := p.quads, fns := p.fns, podpart := p.podPart }) s
  let s := b.parts.foldl (fun s p => p.fns.foldl (fun s f => s.setFn f { s.fnOf f with en := true, part := p.num }) s) s
  let s := (List.range 384).foldl (fun s ch => s.setChan ch (configChannel b ch (s.chan ch))) s
  let s := (List.range 12).foldl (fun s k => s.setStk k { s.stk k with limit := b.swtherm.getD k 95, ratio := b.dutyratio.getD k 8 }) s
  let s := (List.range 4).foldl (fun s d => s.setDie d { s.die d with budget := b.pabudget.getD d (if b.oppoint = 0 then 512 else if b.oppoint = 1 then 384 else 256) }) s
  { s with aithresh := b.aithresh, lifttime := b.lifttime, grantmax := b.grantmax, oppoint := b.oppoint, oppointReg := b.oppoint, hipt := b.hipt
           boot := .running, bootstat := (s.bootstat &&& 2) ||| 1
           measure := tabPut (tabPut (tabPut s.measure 3 b.digest) 4 b.signer) 5 b.layout }

/-- A block is accepted, or refused with its reason in CFGERR (R411, R412). -/
def bootConfig (b : ConfigBlock) (s : State) : State :=
  if s.boot != .config then s
  else match blockError b with
    | some e => { s with bootstat := (s.bootstat &&& 2) ||| BitVec.ofNat 32 (e * 256) }
    | none => applyBlock b s

/-! Attestation (R414). -/

/-- The response to a request, which takes its place in the mailbox (R414): a function of the request, of the measurements held with the
descriptor bit RECOV, and of whether the certificate is presented (R413), its bytes not modelled (log entry 6); one outside the flow, or
for other algorithms, gets the error response. -/
def spdmAnswer (code : Nat) (ok : Bool) (m : SpdmMsg) (s : State) : State :=
  let resp := Config.spdmResponse (if ok then code else 0x7F) m.bytes s.measure (s.bootstat.getLsbD 1) Config.certMatches
  if s.boot != .running then s else { s with spdmResp := resp, mailbox := memWriteBytes s.mailbox 0 (resp.take 4096) }

def spdmVersionMove (m : SpdmMsg) (s : State) : State :=
  if s.boot != .running then s else { spdmAnswer 0x04 true m s with spdmVersion := true, spdmCaps := false, spdmAlgs := none }

/-- GET_CAPABILITIES, which follows the version. -/
def spdmCapabilities (m : SpdmMsg) (s : State) : State :=
  if s.boot != .running then s else { spdmAnswer 0x61 s.spdmVersion m s with spdmCaps := s.spdmCaps || s.spdmVersion }

/-- NEGOTIATE_ALGORITHMS, which follows the capabilities: ML-DSA-87 and SHA3-512, or the error response. -/
def spdmAlgorithms (m : SpdmMsg) (s : State) : State :=
  let ok := s.spdmVersion && s.spdmCaps && m.mldsa87 && m.sha3
  if s.boot != .running then s else { spdmAnswer 0x63 ok m s with spdmAlgs := if ok then some (true, true) else s.spdmAlgs }

/-- A request that follows the algorithms. -/
def spdmRequest (code : Nat) (m : SpdmMsg) (s : State) : State := spdmAnswer code (s.spdmVersion && s.spdmAlgs.isSome) m s

/-- GET_CERTIFICATE: the certificate is presented only where its key matches the one derived at this boot (R413). -/
def spdmCertificate (m : SpdmMsg) (s : State) : State := spdmAnswer 0x02 (s.spdmVersion && s.spdmAlgs.isSome && Config.certMatches) m s

/-! The freeze (R417 to R419). -/

/-- The requests of the host and of the pod that were held come now, in the order in which they arrived (R417). -/
def letHeld (s : State) : State := { s with moves := s.heldMoves ++ s.moves, heldMoves := [] }

/-- FRZ_L_ASSERT: the pin begins a freeze unless FREEZECTL has begun one. -/
def assertFreeze (s : State) : State := if s.freezeReg && s.oppointReg == s.oppoint then s else freezeBy true s

/-- FREEZECTL_WRITE. -/
def writeFreeze (v : Word32) (s : State) : State := if v.getLsbD 0 then freezeBy false s else s

/-- FRZ_L_RELEASE: a rising edge ends a freeze that the pin began. -/
def releaseFreeze (s : State) : State := if s.freezePin then letHeld { s with freezePin := false, freezeReg := false } else s

/-- RESUME: the 1687 network ends any freeze. -/
def resumeClocks (s : State) : State := letHeld { s with freezePin := false, freezeReg := false }

/-! Registers written from outside (R308, R382, R415). -/

/-- OPPOINT_CHANGE_DONE: the point asked for is in force. -/
def oppointDone (s : State) : State := { s with oppoint := s.oppointReg }

/-- SYSREG_WRITE: a write that faults does nothing here. -/
def sysregMove (by_ : RegBy) (n : Nat) (v : BitVec 512) (s : State) : State :=
  if (regFault s by_ n true).isSome then s else regWrite by_ n (v.toNat % 2 ^ regWidth n) s

/-- A write of a launch queue register, once a block is accepted (R411). -/
def queueWrite (g : State → State) (s : State) : State := if s.boot == .running then g s else s

end Sys2Proof.Machine
end

