-- ==== Sys2Proof/Machine/Bar.lean ====
section
/-! DEFINITION. Requests of the host to a function: BAR0 (R382, R399, R401, R411, R414) and the configuration space (R397). -/

namespace Sys2Proof.Machine

/-! BAR0, by 8-byte registers (Table 25.2, Table 26.1). -/

/-- Whether an offset lies in the boot registers or the mailbox of the physical function. -/
def bootOffset (fn off : Nat) : Bool := fn = 0 && (off / 8 == 0x40 || off / 8 == 0x41)
def mailOffset (fn off : Nat) : Bool := fn = 0 && 0x400 ≤ off && off < 0x1400

/-- One entry of the MSI-X table, its address, data and vector control from the lowest byte up (PRESUMED from the PCIe base
specification, log entry 121). -/
def msixEntry (f : Fn) (vec : Nat) : Nat :=
  let m := tabGet (0, 0) f.msixMsg vec
  m.1.toNat + m.2.toNat * 2 ^ 64 + (tabGet (true, false) f.msix vec).1.toNat * 2 ^ 96

/-- The pending bits of vectors 64 i to 64 i + 63. -/
def msixPending (f : Fn) (i : Nat) : Nat := packElems 1 ((List.range 64).map fun k => (tabGet (true, false) f.msix (64 * i + k)).2.toNat)

/-- FNSTAT (Table 25.3). -/
def fnstat (f : Fn) : Nat := f.en.toNat * 2 ^ 31 + f.part % 64

/-- The 8 bytes of BAR0 at a multiple of 8; an offset that is not assigned reads as zero, and so does all but the boot registers until a
configuration block is accepted (R411). -/
def barRead (s : State) (fn off : Nat) : Nat :=
  let f := s.fnOf fn
  if bootOffset fn off then (if off / 8 == 0x41 then s.bootstat.toNat else 0)
  else if s.boot != .running then 0
  else if off < 0x80 then
    let q := tabGet {} f.queues (off / 0x20)
    match off / 8 % 4 with
    | 0 => q.base.toNat
    | 1 => q.rderr.toNat * 2 ^ 31 + q.sterr.toNat * 2 ^ 30 + q.size
    | 2 => q.head.toNat
    | _ => q.tail.toNat
  else if off / 8 == 0x20 then f.winbase.toNat
  else if off / 8 == 0x21 then f.winerr.toNat
  else if off / 8 == 0x22 then fnstat f
  else if mailOffset fn off then leNat ((List.range 8).map fun i => memByte s.mailbox (off / 8 * 8 + i - 0x400))
  else if 0x8000 ≤ off && off < 0x10000 then bitsOf (msixEntry f ((off - 0x8000) / 16)) (64 * (off / 8 % 2)) 64
  else if 0x18000 ≤ off && off < 0x18100 then msixPending f ((off - 0x18000) / 8)
  else 0

/-- Whether BAR0 takes an access: 4 or 8 bytes, naturally aligned (R399). -/
def barAligned (off len : Nat) : Bool := (len == 4 || len == 8) && off % len == 0

/-- BOOTCMD (Table 26.1): a command is checked from now on, with the bytes of the boot buffer as they stand. A second one meanwhile, one
that is not of the running phase of start-up, and a LEN of no bytes or of more than the buffer has, have no effect (R411, R419; the last a
DESIGN CHOICE, log entry 6). -/
def bootCommand (v : Nat) (s : State) : State :=
  let cmd := bitsOf v 0 8
  let len := bitsOf v 32 32
  if s.bootBusy.isSome || !((cmd == 1 && s.boot == .recovery) || (cmd == 2 && s.boot == .config)) || len = 0 || 2 ^ 24 < len then s
  else { s with bootBusy := some ⟨cmd, (List.range len).map fun i => memByte s.bootBuf i⟩, bootstat := s.bootstat ||| 4 }

/-- BOOT_CHECK: the command that is being checked comes to its end (R411, R412). -/
def bootCheckMove (s : State) : State :=
  match s.bootBusy with
  | none => s
  | some b =>
    let s := { s with bootBusy := none, bootstat := s.bootstat &&& ~~~4#32 }
    if b.cmd = 1 then bootImage (Config.imageOf b.bytes) s else bootConfig (Config.blockOf b.bytes) s

/-- One entry of the MSI-X table written: 8 bytes at its address, or at its data and vector control (R401). -/
def writeMsixEntry (fn vec half v : Nat) (s : State) : State :=
  let f := s.fnOf fn
  let m := tabGet (0, 0) f.msixMsg vec
  let put := fun (m : Word64 × Word32) => s.setFn fn { f with msixMsg := tabPut f.msixMsg vec m }
  if half = 0 then put (BitVec.ofNat 64 v, m.2)
  else setMask fn vec (bitsOf v 32 1 = 1) (put (m.1, BitVec.ofNat 32 v))

/-- A write of `len` bytes of v at an offset of BAR0 (R399). A register of 64 bits keeps the half that a 4-byte write leaves; one of 32 lies in
the low half; the other half of a W1C or command register counts as zeros. -/
def barWrite (fn off len v : Nat) (s : State) : State :=
  let x := v % 2 ^ (8 * len) * 2 ^ (8 * (off % 8))
  let old := barRead s fn off
  let whole := if len = 8 then x else if off % 8 = 0 then old / 2 ^ 32 * 2 ^ 32 + x else old % 2 ^ 32 + x
  let low := len == 8 || off % 8 == 0
  if bootOffset fn off then (if off / 8 == 0x40 then bootCommand x s else s)
  else if s.boot != .running then s
  else if off < 0x80 then
    match off / 8 % 4 with
    | 0 => writeLqbase fn (off / 0x20) whole s
    | 1 => if low then writeLqsize fn (off / 0x20) (x % 2 ^ 32) s else s
    | 2 => s
    | _ => if low then writeLqtail fn (off / 0x20) (x % 2 ^ 32) s else s
  else if off / 8 == 0x20 then writeWinbase fn (BitVec.ofNat 64 whole) s
  else if off / 8 == 0x21 then (if low then clearWinerr fn (BitVec.ofNat 64 x) s else s)
  else if mailOffset fn off then { s with mailbox := memWriteBytes s.mailbox (off - 0x400) (bytesOf v len) }
  else if 0x8000 ≤ off && off < 0x10000 then writeMsixEntry fn ((off - 0x8000) / 16) (off / 8 % 2) whole s
  else s

/-! The configuration space (Table 25.1, R401, R402; the registers' bits PRESUMED from the PCIe base specification, log entry 121). -/

/-- A register of a function's configuration space. -/
def cfgRead (s : State) (fn : Nat) : CfgReg → Nat
  | .numVfs => s.sriov.1
  | .vfEnable => s.sriov.2.toNat
  | .msixControl => (s.fnOf fn).msixControl.toNat / 2 ^ 14 * 2 ^ 14 + 2047
  | .uncorrectableStatus => (s.fnOf fn).uncorrectable.toNat
  | .serialLow => Config.serial.toNat % 2 ^ 32
  | .serialHigh => Config.serial.toNat / 2 ^ 32

/-- The messages that a change of the message control lets go. -/
def sendAllPending (fn : Nat) (s : State) : State := ((s.fnOf fn).msix.map Prod.fst).foldl (fun s vec => sendPending s fn vec) s

/-- A write of the configuration space. NumVFs takes up to 1,024, while VF Enable is clear; clearing VF Enable acts as VF_ENABLE_CLEAR does. -/
def cfgWrite (fn : Nat) (r : CfgReg) (v : Nat) (s : State) : State :=
  let f := s.fnOf fn
  match r with
  | .numVfs => if fn != 0 || s.sriov.2 || 1024 < v % 65536 then s else { s with sriov := (v % 65536, false) }
  | .vfEnable => if fn != 0 then s else if v % 2 = 1 then { s with sriov := (s.sriov.1, true) } else if s.sriov.2 then clearVfs s else s
  | .msixControl => sendAllPending fn (s.setFn fn { f with msixControl := BitVec.ofNat 16 (bitsOf v 14 2 * 2 ^ 14) })
  | .uncorrectableStatus => s.setFn fn { f with uncorrectable := f.uncorrectable &&& ~~~(BitVec.ofNat 32 v) }
  | .serialLow => s
  | .serialHigh => s

/-- HOST_REQUEST: a request of the host to a function, with its reply where it has one. -/
def hostMove (fn : Nat) (r : HostReq) (s : State) : State :=
  match r with
  | .read off len => if barAligned off len then { s with hostReply := some (.data (bytesOf (barRead s fn off / 2 ^ (8 * (off % 8)) % 2 ^ (8 * len)) len)) } else unsupported fn s
  | .write off len v => if barAligned off len then barWrite fn off len v.toNat s else unsupported fn s
  | .cfgRead r => { s with hostReply := some (.data (bytesOf (cfgRead s fn r) 4)) }
  | .cfgWrite r v => cfgWrite fn r v.toNat s
  | .other => unsupported fn s

end Sys2Proof.Machine
end

