-- ==== Sys2Proof/Machine/EvAttach.lean ====
section
/-! DEFINITION. Events of the host and pod attachments (25). -/

namespace Sys2Proof.Machine

/-- WINBASE_WRITE (R400). -/
def execWinbaseWrite (fn : Nat) (v : Word64) (s : State) : Host.Outcome State Fault Refusal := .next (writeWinbase fn v s)

/-- WINERR_CLEAR (R399). -/
def execWinerrClear (fn : Nat) (v : Word64) (s : State) : Host.Outcome State Fault Refusal := .next (clearWinerr fn v s)

/-- HOST_WINDOW_WRITE (R400). -/
def execHostWindowWrite (fn off : Nat) (bytes : List Byte) (poisoned : Bool) (s : State) : Host.Outcome State Fault Refusal := .next (windowWrite fn off bytes poisoned s)

/-- HOST_WINDOW_READ (R400). -/
def execHostWindowRead (fn off len : Nat) (s : State) : Host.Outcome State Fault Refusal := .next (windowRead fn off len s)

/-- HOST_ATOMICOP_REQUEST (R397). -/
def execHostAtomicopRequest (fn : Nat) (s : State) : Host.Outcome State Fault Refusal := .next (hostAtomic fn s)

/-- HOST_COMPLETION_TIMEOUT (R398). -/
def execHostCompletionTimeout (core task n : Nat) (s : State) : Host.Outcome State Fault Refusal := .next (hostTimeout core task n s)

/-- MSIX_UNMASK (R401). -/
def execMsixUnmask (fn vec : Nat) (s : State) : Host.Outcome State Fault Refusal := .next (unmaskVector fn vec s)

/-- FUNCTION_LEVEL_RESET (R402). -/
def execFunctionLevelReset (fn : Nat) (s : State) : Host.Outcome State Fault Refusal := .next (functionReset fn s)

/-- VF_ENABLE_CLEAR (R402). -/
def execVfEnableClear (s : State) : Host.Outcome State Fault Refusal := .next (clearVfs s)

/-- REMOTE_REQUEST (R404). -/
def execRemoteRequest (r : RemoteReq) (s : State) : Host.Outcome State Fault Refusal := .next (remoteRequestMove r s)

/-- FLIT_DATA (R406). -/
def execFlitData (port : Nat) (f : Flit) (s : State) : Host.Outcome State Fault Refusal := .next (receiveFlit 0 port f (fun x => takeData x f) s)

/-- FLIT_IDLE (R405). -/
def execFlitIdle (port : Nat) (f : Flit) (s : State) : Host.Outcome State Fault Refusal := .next (receiveFlit 1 port f id s)

/-- FLIT_REPLAY_REQUEST (R406). -/
def execFlitReplayRequest (port : Nat) (f : Flit) (s : State) : Host.Outcome State Fault Refusal := .next (replayRequest port f s)

/-- FLIT_LINK_CONTROL (R405). -/
def execFlitLinkControl (port : Nat) (f : Flit) (s : State) : Host.Outcome State Fault Refusal := .next (receiveFlit 3 port f id s)

/-- PORT_UP (R408). -/
def execPortUp (port switch swport : Nat) (s : State) : Host.Outcome State Fault Refusal := .next (portUpMove port switch swport s)

end Sys2Proof.Machine
end

