-- ==== Sys2Proof/Machine/EvBoot.lean ====
section
/-! DEFINITION. Events of boot, attestation, power and the freeze, and register writes from outside (14, 26). -/

namespace Sys2Proof.Machine

/-- RESET (R410). -/
def execReset (img : Image) (s : State) : Host.Outcome State Fault Refusal := .next (resetMove img s)

/-- BOOTCMD_IMAGE (R410, R419). -/
def execBootcmdImage (img : Image) (s : State) : Host.Outcome State Fault Refusal := .next (unlessBusy (bootImage img) s)

/-- BOOTCMD_CONFIG (R412, R419). -/
def execBootcmdConfig (blk : ConfigBlock) (s : State) : Host.Outcome State Fault Refusal := .next (unlessBusy (bootConfig blk) s)

/-- GET_VERSION (R414). -/
def execGetVersion (m : SpdmMsg) (s : State) : Host.Outcome State Fault Refusal := .next (spdmVersionMove m s)

/-- GET_CAPABILITIES (R414). -/
def execGetCapabilities (m : SpdmMsg) (s : State) : Host.Outcome State Fault Refusal := .next (spdmCapabilities m s)

/-- NEGOTIATE_ALGORITHMS (R414). -/
def execNegotiateAlgorithms (m : SpdmMsg) (s : State) : Host.Outcome State Fault Refusal := .next (spdmAlgorithms m s)

/-- GET_DIGESTS (R414). -/
def execGetDigests (m : SpdmMsg) (s : State) : Host.Outcome State Fault Refusal := .next (spdmRequest 0x01 m s)

/-- GET_CERTIFICATE (R414). -/
def execGetCertificate (m : SpdmMsg) (s : State) : Host.Outcome State Fault Refusal := .next (spdmCertificate m s)

/-- CHALLENGE (R414). -/
def execChallenge (m : SpdmMsg) (s : State) : Host.Outcome State Fault Refusal := .next (spdmRequest 0x03 m s)

/-- GET_MEASUREMENTS (R414). -/
def execGetMeasurements (m : SpdmMsg) (s : State) : Host.Outcome State Fault Refusal := .next (spdmRequest 0x60 m s)

/-- FRZ_L_ASSERT (R417). -/
def execFrzLAssert (s : State) : Host.Outcome State Fault Refusal := .next (assertFreeze s)

/-- FREEZECTL_WRITE (R417). -/
def execFreezectlWrite (v : Word32) (s : State) : Host.Outcome State Fault Refusal := .next (writeFreeze v s)

/-- FRZ_L_RELEASE (R418). -/
def execFrzLRelease (s : State) : Host.Outcome State Fault Refusal := .next (releaseFreeze s)

/-- RESUME (R418). -/
def execResume (s : State) : Host.Outcome State Fault Refusal := .next (resumeClocks s)

/-- PABUDGET_WRITE (R416). -/
def execPabudgetWrite (die : Nat) (v : Word32) (s : State) : Host.Outcome State Fault Refusal := .next (writePabudget die v.toNat s)

/-- OPPOINT_WRITE (R415). -/
def execOppointWrite (v : Word32) (s : State) : Host.Outcome State Fault Refusal := .next (writeOppoint v.toNat s)

/-- OPPOINT_CHANGE_DONE (R415). -/
def execOppointChangeDone (s : State) : Host.Outcome State Fault Refusal := .next (oppointDone s)

/-- SYSREG_WRITE (R308). -/
def execSysregWrite (by_ : RegBy) (num : Nat) (v : BitVec 512) (s : State) : Host.Outcome State Fault Refusal := .next (sysregMove by_ num v s)

end Sys2Proof.Machine
end

