-- ==== Sys2Proof/Machine/PhaseEnd.lean ====
section
/-! DEFINITION. The end of a phase (R36, R37, R181), the return of `eret` (R338), the end of a task and of its gang (R44,
R305), and the wait-orphan fault (R47, R48). -/

namespace Sys2Proof.Machine

/-! The return (R338). -/

/-- A withheld card's fault that a task may take now is taken (R334, R337). -/
def takeCardFault (s : State) (c t : Nat) : State :=
  match s.task? c t with
  | none => s
  | some task =>
    if task.st == .trapped then s
    else match pendingCardFault task with
      | some (k, seq) => cardFaultMove c t k seq s
      | none => s

/-- `eret`: the task returns, its cards restart, what it has recorded boards again, and the next fault is taken. -/
def eretEnd (s : State) (c t : Nat) (restart : Bool) : State :=
  let s := returnFrom (if restart then leaveFeed s c t else s) c t restart
  let s := match s.task? c t with
    | some task => s.setTask c t (restartCards task)
    | none => s
  let a := reboardAll s c t true
  let b := rejoinFeed a.1 c t
  takeCardFault (takeDeferred (deferFaults b.1 c t (a.2 ++ b.2)) c t) c t

/-! The phase end (R181). -/

/-- The successor of a phase: what `exit` chose, else successor 0 (R37). -/
def successor (ph : Phase) : Nat := match ph.exitRes with
  | some r => r.pc
  | none => succAddr ph.addr ph.hdr 0

/-- Live-out writes, then the LR and b12 writes of Table 9.2: `ret` has LR take b12 as the live-out writes leave it (R181). -/
def liveOut (task : Task) (ph : Phase) : Task :=
  let b := ph.wrbs.foldl (fun b w => b.set w.1 w.2.2) task.b
  let r := ph.exitRes
  { task with phase := none
              b := match r.bind ExitRes.b12 with
                | some v => b.set 12 v
                | none => b
              lr := if r.any ExitRes.ret then (b.getD 12 0).toNat % 2 ^ 57 else (r.bind ExitRes.lr).getD task.lr }

/-- Whether a phase's `ret` goes back into the seed chain (R261). -/
def retsToSeeds (task : Task) (ph : Phase) : Bool := task.seed.joined && ph.exitRes.any fun r => r.pc % 2 == 1

/-- The move of Table 2.4 for a task that is not trapped: idle after the waiting `yield`, else ready. -/
def nextState (core : Core) (t : Nat) (task : Task) (ph : Phase) : Task :=
  if ph.yieldOp = some true then
    (if (messageChan core t).isSome then { task with st := .ready, woken := true } else { task with st := .idle })
  else { task with st := .ready }

/-- What the phase end makes of the task. -/
def endedTask (core : Core) (t : Nat) (task : Task) (ph : Phase) : Task :=
  let task := liveOut task ph
  if ph.handler then { task with pc := successor ph }
  else
    let task := nextState core t task ph
    if ph.wdrive.isSome then { task with seed := { task.seed with entering := false } }
    else if retsToSeeds task ph then { task with seed := { task.seed with inBlocks := false } }
    else { task with pc := successor ph }

/-- Whether a request to cut the gang waits for this task's phase to end (R339). -/
def cutWaits (s : State) (task : Task) : Bool := (s.job? task.job).any fun j => j.st == .cutting

/-- PHASE_END: live-outs, the successor, the task's move, behind its equals after a plain `yield` (R38), and a free fabric; a task that
ends waits to retire (R305). -/
def phaseEndMove (c : Nat) (s : State) : State :=
  let core := s.core c
  match core.running with
  | none => s
  | some t => match tabFind core.tasks t with
    | none => s
    | some task => match task.phase with
      | none => s
      | some ph =>
        if task.cutting || !phaseDone ph || ph.endOp then s
        else
          let core := if ph.yieldOp = some false && !ph.handler then standBehind core t task else core
          let s := s.setCore c { core with running := none, tasks := tabPut core.tasks t (endedTask core t task ph) }
          let s := match ph.eretOp with
            | some restart => eretEnd s c t restart
            | none => s
          if cutWaits s task then beginCut s c t else takeCardFault s c t

/-! The end of a task (R44, R305). -/

/-- Cancels the standing riders of a task. -/
def dropStanding (s : State) (task : Task) : State :=
  (s.riders.filter fun e => e.2.kind == 0 && e.2.standing && !e.2.cancelled && e.2.job == task.job && e.2.rank == task.rank).foldl
    (fun s e => endStanding (cancelRider s e.1) e.1) s

/-- The gang retires with its last task (GANG_RETIRE): its resources are free and its status is written. -/
def retireGang (s : State) (j : Nat) : State :=
  match s.job? j with
  | none => s
  | some job =>
    if !(residents s j).isEmpty || !job.images.isEmpty then recheckBarriers s j
    else writeStatus { freeEnded s job with jobs := tabDel s.jobs j, barriers := s.barriers.filter (fun e => !barrierOfJob j e.1), passDue := true } job 0x02 0 0 0

/-- A task that has ended leaves every barrier of its gang (R43), and its job keeps its shares until the gang retires (R44). -/
def keepEnded (s : State) (c : Nat) (task : Task) : State :=
  let s := (task.arrived.map Prod.fst).foldl (fun s key => withdraw s task key) s
  match s.job? task.job with
  | some job => s.setJob task.job { job with ended := job.ended ++ [(c, { task with phase := none, held := none, ctxs := [] })] }
  | none => s

/-- TASK_RETIRE: a task that executed `end` retires once its cards and riders have completed. -/
def taskRetireMove (c t : Nat) (s : State) : State :=
  match s.task? c t with
  | none => s
  | some task => match task.phase with
    | none => s
    | some ph =>
      if !ph.endOp || !phaseDone ph || task.cutting || (s.core c).running != some t || !cardsOver task ph.handler || !ridersOver s task then s
      else
        let s := leaveFeed (dropStanding s task) c t
        let s := giveBack s c t { task with seed := {} }
        let s := keepEnded (s.setCore c (leaveSlot (s.core c) t task)) c task
        retireGang s task.job

/-! Outstanding items and the wait-orphan fault (Table 2.7, R47). -/

/-- Whether a record's bytes meet those of a circular buffer that a task of the core declares. -/
def meetsBuffer (core : Core) (r : BitVec 512) : Bool :=
  recInWindow r && core.tasks.any fun x => (List.range 32).any fun n => x.2.bufs.getLsbD n &&
    (let d := (bufOf core n).desc
     (recSpan r).1 < cbBase d + 64 * cbTokens d * cbSlots d && (cbBase d : Int) < (recSpan r).2)

/-- Whether a predecessor's ring card is to write a record of the core, through a card that its successor has appended or has still to
append, that meets a circular buffer (R298). -/
def inboundRing (s : State) (c : Nat) (task : Task) : Bool :=
  [1, 2].any fun es => (ringPrev (ringOf s c task es) task.rank).any fun p => (chainOf p.2.2 2).cards.any fun k =>
    k.op == 0xDA && k.escope == es && meetsBuffer (s.core c) (recOf (s.core c) (ecDrec k.card))

/-- Whether a copy of some task is aimed at a circular buffer of the core, where the task that declared it now stands, or a collective card of
a task of the core, or a ring step (R48); no deposit can be, since a deposit writes swept memory. -/
def inboundCopy (s : State) (c : Nat) : Bool :=
  let core := s.core c
  (s.cores.any fun e => e.2.tasks.any fun x => (chainOf x.2 2).cards.any fun k => k.op == 0xD8 && ecTocb k.card && copyTarget s x.2 k == some c) ||
    core.tasks.any fun x => inboundRing s c x.2 || (chainOf x.2 2).cards.any fun k =>
      (k.op == 0xD9 || (k.op == 0xDA && k.prog != 0)) && meetsBuffer core (boundRec s c k)

/-- Whether a barrier's round may still complete: an absent participant runs or is ready on another core, or is saved. -/
def barrierOpen (s : State) (c key round : Nat) : Bool :=
  let scope := key / 16 % 16
  let j := key / 2 ^ 40 - 1
  let absent := fun (core : Nat) (t : Task) => scopeUnit scope core == key / 2 ^ 20 % 2 ^ 20 && !t.left.contains (leftCode key) && tabFind t.arrived key != some round
  key < 2 ^ 40 || ((residents s j).any fun e => e.1 != c && absent e.1 e.2.2 && (e.2.2.st == .running || e.2.2.st == .ready)) ||
    (s.job? j).any fun job => job.images.any fun e => absent e.2.core e.2.task

/-- Whether a phase waits at a barrier that may still complete. -/
def barrierPending (s : State) (c : Nat) (task : Task) : Bool :=
  (task.phase.toList.any fun ph => (owedOf ph 127).any fun o => 2 ^ 300 ≤ o.key && o.key < 2 ^ 400 && o.tok.isNone &&
    barrierOpen s c ((o.key - 2 ^ 300) / 2 ^ 64) (o.key % 2 ^ 64)) ||
  task.seed.waitBar.any fun key => (openRound s task key).any fun r => barrierOpen s c key r

/-- Whether a memory request of an element has no response yet: from its turn to issue on, whatever it still waits for; one that
waits for the turn of another element's firing is none (R72). An `await` is outstanding from its firing on (R49). -/
def requestOpen (ph : Phase) (slot : Nat) (a : Access) : Bool :=
  a.stage != .done && (a.stage == .issued || a.op == 0x89 || hasTurn ph slot a)

/-- Whether an item of Table 2.7 is outstanding for the task that holds the fabric. -/
def outstanding (s : State) (c : Nat) (task : Task) : Bool :=
  (task.phase.any fun ph => ph.accs.any fun e => e.2.any fun a => requestOpen ph e.1 a) ||
  (task.phase.any fun ph => !ph.kvReqs.isEmpty) || (task.chains.any fun e => !e.2.cards.isEmpty) ||
  (s.riders.any fun e => (e.2.kind == 0 || e.2.kind == 3) && e.2.job == task.job && e.2.rank == task.rank) ||
  inboundCopy s c || barrierPending s c task

/-- The ports that a node's next firing requires (R30). -/
def neededPorts (ph : Phase) (slot : Nat) : List Nat :=
  let x := wordAt ph slot
  let nd := nodeOf ph slot
  let op := wordOp x
  match opClass op with
  | 0 => withPred (wPm x) (stageNeeds op (readStage x))
  | 1 => memPorts ph slot (wPm x)
  | 2 =>
    let w := readCp x
    if op = 0xA1 then (if nd.iter = 0 then [0] else [0, 1])
    else if op = 0xA6 then (if nd.iter < orderDelay w then [] else [0])
    else (dataPorts x).1 ++ (if naturalP x then [3] else [])
  | _ => withPred (wPm x) (dataPorts x).1

def opWait (nd : Node) : Nat := nd.stall.toNat / 2 ^ 48

/-- The node with the largest OPWAIT, the lower slot on a tie. -/
def orphanSlot (ph : Phase) : Nat :=
  (blockSlots ph.words).foldl (fun (b : Nat × Nat) x => let n := opWait (nodeOf ph x.1)
    if b.2 < n + 1 then (x.1, n + 1) else b) (0, 0) |>.1

/-- WAIT_ORPHAN (R47): the count has reached WAITLIMIT with nothing outstanding, and no phase end is due. -/
def waitOrphanMove (c : Nat) (s : State) : State :=
  let core := s.core c
  match core.running.bind fun t => (tabFind core.tasks t).map fun x => (t, x) with
  | none => s
  | some (t, task) =>
    if core.orphan < core.waitlimit.toNat || task.cutting || outstanding s c task then s
    else match task.phase with
      | some ph =>
        if phaseDone ph then s
        else
          let slot := orphanSlot ph
          let nd := nodeOf ph slot
          takeFault s c t { cls := 0x0B, slot := slot, iter := nd.iter, stall := nd.stall, pc := ph.addr } ph.handler
      | none => match seedHead task with
        | some b => if task.seed.running then takeFault s c t { cls := 0x0B, src := 3, addr := b.addr, pc := task.pc } false else s
        | none => s

end Sys2Proof.Machine
end

