-- ==== Sys2Proof/Machine/TileTask.lean ====
section
/-! DEFINITION. Tile tasks (R299): a record taken from a quad's ring, and its run on a free array; the move of a row of a
card, tile tasks being those of chain 3. -/

namespace Sys2Proof.Machine

/-! Record fields (Table 14.9). -/

def ttBits (r : BitVec 1024) (lo len : Nat) : Nat := (r.extractLsb' lo len).toNat
def ttCard (r : BitVec 1024) : BitVec 512 := r.extractLsb' 0 512
def ttSat (r : BitVec 1024) : Bool := r.getLsbD 535
def ttRnd (r : BitVec 1024) : Nat := ttBits r 536 2
def ttDrec (r : BitVec 1024) : Nat := ttBits r 538 6
def ttDexp (r : BitVec 1024) : Int := signedOf 8 (ttBits r 544 8)
def ttDn0 (r : BitVec 1024) : Nat := ttBits r 608 16
def ttDm0 (r : BitVec 1024) : Nat := ttBits r 624 16
def ttCw (r : BitVec 1024) : Nat := ttBits r 640 57

/-- The bits that may be set in a record. -/
def ttMask : Nat :=
  (2 ^ 512 - 1) + fieldMask 535 1 + fieldMask 536 2 + fieldMask 538 6 + fieldMask 544 8 + fieldMask 608 16 + fieldMask 624 16 +
    fieldMask 640 57 + fieldMask 704 32 + fieldMask 1016 1

/-- The partition that a quad belongs to. -/
def partOfQuad (s : State) (q : Nat) : Option Nat := (s.parts.find? fun e => e.2.quads.contains q).map Prod.fst

/-- TILE_TASK_TAKE: the next record of a quad's ring, in a direct region, joins the card order once VALID is seen. -/
def tileTakeMove (q : Nat) (s : State) : State :=
  match partOfQuad s q with
  | none => s
  | some part =>
    let x := s.quad q
    let va := (x.ttbase.toNat + 128 * x.ttpos) % 2 ^ 57
    if x.ttsize.toNat = 0 || x.ttasks.any fun t => t.addr == va then s
    else match directKeys (4 * q) part { needRead with hostOk := false } va 128 s with
      | (.error _, s) => s
      | (.ok ks, s) =>
        let s := checkKeys s ks
        let r := BitVec.ofNat 1024 (readKeys s ks)
        if !readsOpen s ks || keysPoisoned s ks || !r.getLsbD 1016 then s
        else
          let y := s.quad q
          let tt : TileTask := { addr := va, record := r, order := s.cardOrder }
          ({ s with cardOrder := s.cardOrder + 1 }).setQuad q
            { y with ttpos := (y.ttpos + 1) % y.ttsize.toNat, ttasks := y.ttasks ++ [tt] }

/-- The limits of a tile task's record and card. -/
def tileCheck (s : State) (c : Nat) (r : BitVec 1024) : Option FaultInfo :=
  let card := ttCard r
  let drec := recOf (s.core c) (ttDrec r)
  let arec := recOf (s.core c) (mcArec card)
  if r.toNat &&& (2 ^ 1024 - 1 - ttMask) != 0 || !mcLatch card || !mcClr card || 16 < mcM card then some { cls := 0x05 }
  else match matrixCheck s c 0xB9 0 0 card with
    | some i => some i
    | none =>
      if recFmt drec = 6 && mcN card % 32 != 0 then some { cls := 0x05 }
      else if !activationType (recFmt arec) || !(recFmt drec == 0 || (recFmt drec != 5 && isMatrixType (recFmt drec))) || ttCw r % 4 != 0 then some { cls := 0x02 }
      else none

/-- The weight rows of a tile task, up to the first fault. -/
def tileLatch (c part : Nat) (card wrec : BitVec 512) : Nat → State → Except FaultInfo (List (List Nat)) × State
  | 0, s => (.ok [], s)
  | n + 1, s => match tileLatch c part card wrec n s with
    | (.error f, s) => (.error f, s)
    | (.ok rows, s) => match latchRow c part (some card) wrec (weightType (recFmt wrec)) card n s with
      | (.error e, s) => (.error e.info, s)
      | (.ok vs, s) => (.ok (rows ++ [vs]), s)

/-- The writes of the drained rows m − n to m − 1, up to the first fault. -/
def tileRows (c part : Nat) (r : BitVec 1024) (tile : List (List Nat)) (wfmt : Nat) : Nat → State → Except FaultInfo (List Put) × State
  | 0, s => (.ok [], s)
  | n + 1, s => match tileRows c part r tile wfmt n s with
    | (.error f, s) => (.error f, s)
    | (.ok ps, s) =>
      let card := ttCard r
      let arec := recOf (s.core c) (mcArec card)
      let drec := recOf (s.core c) (ttDrec r)
      match readElems c part (some card) arec ((List.range (mcK card)).map fun k => (mcAk0 card + k, mcAm0 card + n)) s with
      | (.error f, s) => (.error f, s)
      | (.ok vs, s) =>
        let av := vs.map (storedVal (recFmt arec))
        let outs := (List.range (mcN card)).map fun j => accumulate 0 (((List.range (mcK card)).map fun k => storedVal wfmt ((tile.getD k []).getD j 0)).zip av)
        let d := drainRowPuts (fun _ => false) (recFmt drec) (ttRnd r) (ttSat r) (ttDexp r) (ttDn0 r) (ttDm0 r + n) outs
        match resolvePuts c part (some card) drec false d.1 s with
        | (.error f, s) => (.error f, s)
        | (.ok qs, s) => (.ok (ps ++ qs), s)

/-- A tile task's writes: the limits of its record come first, then its completion word in a direct region, then its rows. -/
def tileWork (c part : Nat) (r : BitVec 1024) (s : State) : Except FaultInfo (List Put) × State :=
  let card := ttCard r
  let wrec := recOf (s.core c) (mcWrec card)
  match tileCheck s c r with
  | some f => (.error f, s)
  | none => match directKeys c part needWord (ttCw r) 4 s with
    | (.error f, s) => (.error f, s)
    | (.ok _, s) => match tileLatch c part card wrec (mcK card) s with
      | (.error f, s) => (.error f, s)
      | (.ok tile, s) => tileRows c part r tile (recFmt wrec) (mcM card) s

/-- The status and the cleared VALID of a record that the scheduler has finished with. -/
def tileStatus (c part : Nat) (tt : TileTask) (status : Nat) (s : State) : State :=
  match directKeys c part needWrite tt.addr 128 s with
  | (.error _, s) => s
  | (.ok ks, s) =>
    let x := readKeys s ks
    let x := x - bitsOf x 704 32 * 2 ^ 704 + status * 2 ^ 704
    writeKeys s ks (x - bitsOf x 1016 1 * 2 ^ 1016) false

/-- Tile task n of a quad has done its work, and gives its leave back. -/
def dropTile (q n : Nat) (s : State) : State :=
  let x := s.quad q
  let s := if (x.ttasks[n]?).any TileTask.leave then returnLeave s (dieOfCore (4 * q)) 4 else s
  s.setQuad q { x with ttasks := x.ttasks.eraseIdx n }

/-- A tile task asks for the leave of a matrix card on an array (R393). A record names no job, so its request has PRIO 0 (DESIGN CHOICE,
log entry 60). -/
def askTile (q n : Nat) (tt : TileTask) (s : State) : State :=
  let x := s.quad q
  askLeave (s.setQuad q { x with ttasks := x.ttasks.set n { tt with asked := true } }) (dieOfCore (4 * q)) ⟨4, 0, 4 * q, 4, 4, tt.addr, none, 0⟩

/-- The scheduler has finished with a record: its status is written and VALID cleared, then its word is incremented, by a read and a later
write at the L2 pipe (R322). -/
def tileDone (q n part : Nat) (tt : TileTask) (status : Nat) (s : State) : State :=
  let s := tileStatus (4 * q) part tt status s
  match directKeys (4 * q) part needWord (ttCw tt.record) 4 s with
  | (.ok (w :: _), s) => (match cwMove s w 1 with
    | .waits => holdMove s
    | .read old s => let x := s.quad q
      s.setQuad q { x with ttasks := x.ttasks.set n { tt with cwHeld := some (w, old) } }
    | .written s => dropTile q n s)
  | (_, s) => dropTile q n s

/-- Tile task n of a quad runs on an array, once its edges are clear and it has power leave; a fault is its status, and nothing is
drained. -/
def tileRun (q n : Nat) (s : State) : State :=
  match partOfQuad s q, (s.quad q).ttasks[n]? with
  | some part, some tt => (match tt.cwHeld with
    | some (w, old) => dropTile q n (cwWrite s w 1 old)
    | none =>
      if !edgesClear s (4 * q) part (tileCard tt) then s
      else if !tt.leave then (if tt.asked then s else askTile q n tt s)
      else match tileWork (4 * q) part tt.record s with
        | (.error f, s') => if waits (some f) then s else tileDone q n part tt (1 + f.cls * 256) s'
        | (.ok ps, s') => tileDone q n part tt 0 (ps.foldl doPut s'))
  | _, _ => s

/-- One row of a started card; chain 3 names the tile tasks of the core's quad. -/
def cardRowMove (c t chain seq : Nat) (s : State) : State :=
  if chain = 3 then tileRun (quadOfCore c) seq s else taskRowMove c t chain seq s

end Sys2Proof.Machine
end

