-- ==== Sys2Proof/Machine/EvEngine.lean ====
section
/-! DEFINITION. Events of the engines and seeds (10, 12, 14, 23). -/

namespace Sys2Proof.Machine

/-- CARD_START (R327). -/
def execCardStart (core task chain seq : Nat) (s : State) : Host.Outcome State Fault Refusal := .next (cardStartMove core task chain seq s)

/-- CARD_FAULT (R207). -/
def execCardFault (core task chain seq : Nat) (s : State) : Host.Outcome State Fault Refusal := .next (cardFaultStep core task chain seq s)

/-- CARD_COMPLETE (R293). -/
def execCardComplete (core task chain seq : Nat) (s : State) : Host.Outcome State Fault Refusal := .next (cardCompleteMove core task chain seq s)

/-- TILE_TASK_TAKE (R299). -/
def execTileTaskTake (quad : Nat) (s : State) : Host.Outcome State Fault Refusal := .next (tileTakeMove quad s)

/-- POWER_GRANT (R393). -/
def execPowerGrant (die : Nat) (s : State) : Host.Outcome State Fault Refusal := .next (powerGrant die s)

/-- FORCED_GRANT (R393). -/
def execForcedGrant (die n : Nat) (s : State) : Host.Outcome State Fault Refusal := .next (forcedGrant die n s)

/-- SEED_INTAKE (R249). -/
def execSeedIntake (core : Nat) (s : State) : Host.Outcome State Fault Refusal := .next (seedIntakeMove core s)

/-- SEED_START (R252). -/
def execSeedStart (core task : Nat) (s : State) : Host.Outcome State Fault Refusal := .next (seedStartMove core task s)

end Sys2Proof.Machine
end

