-- ==== Sys2Proof/Machine/Router.lean ====
section
/-! DEFINITION. Tokens on routed wires (R64). -/

namespace Sys2Proof.Machine

/-- A phase in which the oldest token on the wire to a port has reached its queue, which holds up to 4 (R30, R64). -/
def arrive (ph : Phase) (tgt : Nat) : Phase :=
  match tabGet [] ph.wires tgt with
  | [] => ph
  | x :: rest =>
    let nd := nodeOf ph (tgt / 4)
    let q := portQ nd (tgt % 4)
    if 4 ≤ q.length then ph
    else
      let ph := setNode ph (tgt / 4) (setPortQ nd (tgt % 4) (q ++ [x]))
      { ph with wires := if rest.isEmpty then tabDel ph.wires tgt else tabPut ph.wires tgt rest }

/-- TOKEN_ARRIVAL: in the phase that a core runs. -/
def tokenArriveMove (c slot port : Nat) (s : State) : State :=
  let core := s.core c
  match core.running.bind fun t => (tabFind core.tasks t).bind fun task => task.phase.map fun ph => (t, ph) with
  | some (t, ph) => if slot < 128 && port < 4 then putPhase s c t (arrive ph (4 * slot + port)) else s
  | none => s

end Sys2Proof.Machine
end

