-- ==== Sys2Proof/Machine/EvFabric.lean ====
section
/-! DEFINITION. Events of the fabric, the memory elements and the tasks (02, 08, 09, 15). -/

namespace Sys2Proof.Machine

/-- TOKEN_ARRIVAL (R64). -/
def execTokenArrival (core slot port : Nat) (s : State) : Host.Outcome State Fault Refusal := .next (tokenArriveMove core slot port s)

/-- PHASE_END (R181). -/
def execPhaseEnd (core : Nat) (s : State) : Host.Outcome State Fault Refusal := .next (phaseEndMove core s)

/-- MESSAGE_ARRIVAL (R40). -/
def execMessageArrival (n : Nat) (s : State) : Host.Outcome State Fault Refusal := .next (messageArrive n s)

/-- WAIT_ORPHAN (R47). -/
def execWaitOrphan (core : Nat) (s : State) : Host.Outcome State Fault Refusal := .next (waitOrphanMove core s)

/-- MEMORY_RESPONSE (R160). -/
def execMemoryResponse (core task n : Nat) (s : State) : Host.Outcome State Fault Refusal := .next (memoryResponse core task n s)

/-- STORE_DRAIN (R317). -/
def execStoreDrain (core n : Nat) (s : State) : Host.Outcome State Fault Refusal := .next (storeDrainMove core n s)

/-- L1_EVICT (R317). -/
def execL1Evict (core loc : Nat) (s : State) : Host.Outcome State Fault Refusal := .next (evictMove core loc s)

/-- AWAIT_POLL (R165). -/
def execAwaitPoll (core task n : Nat) (s : State) : Host.Outcome State Fault Refusal := .next (awaitPollMove core task n s)

/-- AWAIT_TIMEOUT (R165). -/
def execAwaitTimeout (core task n : Nat) (s : State) : Host.Outcome State Fault Refusal := .next (awaitTimeoutMove core task n s)

/-- POD_FENCE_COMPLETE (R329). -/
def execPodFenceComplete (switch : Nat) (s : State) : Host.Outcome State Fault Refusal := .next (podFenceMove switch s)

/-- TASK_RETIRE (R305). -/
def execTaskRetire (core task : Nat) (s : State) : Host.Outcome State Fault Refusal := .next (taskRetireMove core task s)

/-- WRITE_COMBINING_SEND (R330). -/
def execWriteCombiningSend (n : Nat) (s : State) : Host.Outcome State Fault Refusal := .next (wcSend n s)

end Sys2Proof.Machine
end

