-- ==== Sys2Proof/Machine/EvSched.lean ====
section
/-! DEFINITION. Events of the launch scheduler (16, 23). -/

namespace Sys2Proof.Machine

/-- RECORD_TAKE (R383). -/
def execRecordTake (fn queue : Nat) (s : State) : Host.Outcome State Fault Refusal := .next (recordTakeMove fn queue s)

/-- PICK_PASS (R389). -/
def execPickPass (s : State) : Host.Outcome State Fault Refusal := .next (pickPassMove s)

/-- LIFT (R388). -/
def execLift (job : Nat) (s : State) : Host.Outcome State Fault Refusal := .next (liftMove job s)

/-- DEFER_EXPIRY (R339). -/
def execDeferExpiry (job : Nat) (s : State) : Host.Outcome State Fault Refusal := .next (deferExpiryMove job s)

/-- CUT_COMPLETE (R340). -/
def execCutComplete (job : Nat) (s : State) : Host.Outcome State Fault Refusal := .next (cutCompleteMove job s)

/-- LQTAIL_WRITE (R382). -/
def execLqtailWrite (fn queue : Nat) (v : Word32) (s : State) : Host.Outcome State Fault Refusal := .next (queueWrite (writeLqtail fn queue v.toNat) s)

/-- LQSIZE_WRITE (R382). -/
def execLqsizeWrite (fn queue : Nat) (v : Word32) (s : State) : Host.Outcome State Fault Refusal := .next (queueWrite (writeLqsize fn queue v.toNat) s)

/-- LQBASE_WRITE (R382). -/
def execLqbaseWrite (fn queue : Nat) (v : Word64) (s : State) : Host.Outcome State Fault Refusal := .next (queueWrite (writeLqbase fn queue v.toNat) s)

end Sys2Proof.Machine
end

