-- ==== Sys2Proof/Machine/Pass.lean ====
section
/-! DEFINITION. The pass of a line (R211, R222) and the other slots of a channel as moves (R210, R356, R360, R361). -/

namespace Sys2Proof.Machine

/-- Whether a rider acts on a line of a channel. -/
def actsOn (r : Rider) (ch line : Nat) : Bool :=
  (tabFind r.chans ch).any fun x => (x.todo.any fun e => e.1 == line) || x.dest.any fun e => e.1 == line

/-- The riders of a pass act on the line in ascending ticket order of their partition (R222), their queues emptied before
and after as far as slots are free (R232). -/
def passRiders (s : State) (ch line rev : Nat) (rs : List (Nat × Rider)) : State :=
  rs.foldl (fun s e => drainRider (riderPass (drainRider s e.1 ch) ch line rev e.1) e.1 ch) s

/-- The cursor moves on; the wrap follows line L − 1 (R211). -/
def moveCursor (s : State) (ch : Nat) : State :=
  let x := s.chan ch
  let last : Bool := x.len ≤ x.cursor + 1
  let s := s.setChan ch { stepSlot x with cursor := if last then 0 else x.cursor + 1, dutyPos := x.dutyPos + 1 }
  if last then atWrap s ch else s

/-- PASS: the advancing slot of a channel. Its line is read where any rider acts on it, a bdep alone too (R4, R222, where R229 has bdep read no
line first; DESIGN CHOICE, log entry 122). -/
def passMove (ch : Nat) (s : State) : State :=
  let x := s.chan ch
  if nextSlot x != .advancing then s
  else
    let line := x.cursor
    let s := leaveCancelled { s with stamp := s.stamp + 1 } ch
    let rs := aboard s ch
    let s := if rs.any fun e => actsOn e.2 ch line then readCheck s (linePa ch line) 256 else s
    let s := passRiders s ch line x.rev rs
    moveCursor (anchorsAt s ch line) ch

/-- A sensor reading of a stack (R360). -/
def sensorMove (k temp : Nat) (s : State) : State := s.setStk k { s.stk k with temp := temp }

/-- An error arises in a sector of the 384 channels of HBM4; the next read of it meets it (R361). -/
def upsetMove (sector : Nat) (corrected : Bool) (s : State) : State :=
  if sector < 384 * 2 ^ 26 && (tabFind s.latent sector).all (fun c => c) then { s with latent := tabPut s.latent sector corrected } else s

end Sys2Proof.Machine
end

