-- ==== Sys2Proof/Machine/EvSweep.lean ====
section
/-! DEFINITION. Events of the sweep, the channels and the pools (11, 13, 21, 22). -/

namespace Sys2Proof.Machine

/-- PASS (R222). -/
def execPass (chan : Nat) (s : State) : Host.Outcome State Fault Refusal := .next (passMove chan s)

/-- REFRESH_SLOT (R210). -/
def execRefreshSlot (chan : Nat) (s : State) : Host.Outcome State Fault Refusal := .next (refreshMove chan s)

/-- DIRECT_SLOT (R356). -/
def execDirectSlot (chan : Nat) (s : State) : Host.Outcome State Fault Refusal := .next (directMove chan s)

/-- RIDER_ADMIT (R220). -/
def execRiderAdmit (ticket chan : Nat) (s : State) : Host.Outcome State Fault Refusal := .next (riderAdmit ticket chan s)

/-- RIDER_ALIGHT (R224). -/
def execRiderAlight (ticket : Nat) (s : State) : Host.Outcome State Fault Refusal := .next (riderAlight ticket s)

/-- KVSEND_LAYER_FLAG (R285). -/
def execKvsendLayerFlag (send : Nat) (s : State) : Host.Outcome State Fault Refusal := .next (layerFlag send s)

/-- SWEEPLEN_WRITE (R212). -/
def execSweeplenWrite (chan : Nat) (v : Word32) (s : State) : Host.Outcome State Fault Refusal := .next (writeSweeplen chan v.toNat s)

/-- DSHR_WRITE (R356). -/
def execDshrWrite (chan : Nat) (v : Word32) (s : State) : Host.Outcome State Fault Refusal := .next (writeDshr chan v.toNat s)

/-- TRAIN_REQUEST (R367). -/
def execTrainRequest (chan : Nat) (s : State) : Host.Outcome State Fault Refusal := .next (writeTrctl chan true s)

/-- TRAIN_EXIT (R367). -/
def execTrainExit (chan : Nat) (s : State) : Host.Outcome State Fault Refusal := .next (writeTrctl chan false s)

/-- TRCMD_READ_TEST (R368). -/
def execTrcmdReadTest (chan : Nat) (seed : BitVec 16) (s : State) : Host.Outcome State Fault Refusal := .next (startTest chan false seed s)

/-- TRCMD_WRITE_TEST (R368). -/
def execTrcmdWriteTest (chan : Nat) (seed : BitVec 16) (s : State) : Host.Outcome State Fault Refusal := .next (startTest chan true seed s)

/-- TRAINING_TEST_DONE (R368). -/
def execTrainingTestDone (chan : Nat) (lanes : Word64) (spares : BitVec 2) (s : State) : Host.Outcome State Fault Refusal := .next (endTest chan lanes spares s)

/-- REPAIR_WRITE (R358). -/
def execRepairWrite (chan : Nat) (v : Word32) (s : State) : Host.Outcome State Fault Refusal := .next (writeRepair chan v.toNat s)

/-- PTROOT_WRITE (R371). -/
def execPtrootWrite (part : Nat) (v : Word64) (s : State) : Host.Outcome State Fault Refusal := .next (writePtroot part v.toNat s)

/-- KV_POOL_WRITE (R266). -/
def execKvPoolWrite (part reg : Nat) (v : Word64) (s : State) : Host.Outcome State Fault Refusal := .next (writeKvPool part reg v.toNat s)

end Sys2Proof.Machine
end

