-- ==== Sys2Proof/Machine/FamControl.lean ====
section
/-! DEFINITION. Meanings of the control points and reorder elements (09). -/

namespace Sys2Proof.Machine

/-- `steer` (R171). -/
def execSteer (w : CpW) (s : State) : Host.Outcome State Fault Refusal := fireCp (fun _ => [0, 3]) (cpSteer w) s

/-- `carry` (R172). -/
def execCarry (w : CpW) (s : State) : Host.Outcome State Fault Refusal := fireCp carryPorts (cpCarry w) s

/-- `inv` (R173). -/
def execInv (w : CpW) (s : State) : Host.Outcome State Fault Refusal := fireCp (fun _ => [0]) (cpInv w) s

/-- `merge` (R175). -/
def execMergeSel (w : CpW) (s : State) : Host.Outcome State Fault Refusal := fireCp (fun _ => [0, 1, 3]) (cpMergeSel w) s

/-- `merge` (R175). -/
def execMergeAny (w : CpW) (s : State) : Host.Outcome State Fault Refusal := fireCp (fun _ => [0, 1]) (cpMergeAny w) s

/-- `fan` (R171). -/
def execFan (w : CpW) (s : State) : Host.Outcome State Fault Refusal := fireCp (fun _ => [0]) (cpFan w) s

/-- `join` (R171). -/
def execJoin (w : CpW) (s : State) : Host.Outcome State Fault Refusal := fireCp (joinPorts w) (cpJoin w) s

/-- `order` (R174). -/
def execOrder (w : CpW) (s : State) : Host.Outcome State Fault Refusal := fireCp (orderPorts w) (cpOrder w) s

/-- `exit` (R178). -/
def execExitSel (w : CpW) (s : State) : Host.Outcome State Fault Refusal := fireExit 0 w s

/-- `exit` (R178). -/
def execExitCall (w : CpW) (s : State) : Host.Outcome State Fault Refusal := fireExit 1 w s

/-- `exit` (R178). -/
def execExitRet (w : CpW) (s : State) : Host.Outcome State Fault Refusal := fireExit 2 w s

/-- `exit` (R178). -/
def execExitJump (w : CpW) (s : State) : Host.Outcome State Fault Refusal := fireExit 3 w s

/-- `exit` (R178). -/
def execExitBr (w : CpW) (s : State) : Host.Outcome State Fault Refusal := fireExit 4 w s

/-- `gate` (R175). -/
def execGatePass (w : CpW) (s : State) : Host.Outcome State Fault Refusal := fireCp (fun _ => [0, 3]) (cpGate w) s

/-- `gate` (R176). -/
def execGateBrk (w : CpW) (s : State) : Host.Outcome State Fault Refusal := fireCp (fun _ => [0, 3]) (cpGateBrk w) s

/-- `nulchk` (R175). -/
def execNulchkIsnull (w : CpW) (s : State) : Host.Outcome State Fault Refusal := fireCp (fun _ => [0]) (cpNulchk false w) s

/-- `nulchk` (R175). -/
def execNulchkPresent (w : CpW) (s : State) : Host.Outcome State Fault Refusal := fireCp (fun _ => [0]) (cpNulchk true w) s

/-- `reord` (R183). -/
def execReord (w : ReW) (s : State) : Host.Outcome State Fault Refusal := fireReorder 0xB0 w s

/-- `xpose` (R184). -/
def execXpose (w : ReW) (s : State) : Host.Outcome State Fault Refusal := fireReorder 0xB1 w s

/-- `corner` (R185). -/
def execCorner (w : ReW) (s : State) : Host.Outcome State Fault Refusal := fireReorder 0xB2 w s

end Sys2Proof.Machine
end

