-- ==== Sys2Proof/Machine/FamEngine.lean ====
section
/-! DEFINITION. Meanings of the copy, collective and ring cards (14). -/

namespace Sys2Proof.Machine

/-- `copy` (R296). -/
def execCopy (w : EpW) (sub : BitVec 8) (s : State) : Host.Outcome State Fault Refusal := fireEngine 0xD8 w sub s

/-- `coll` (R297). -/
def execColl (w : EpW) (sub : BitVec 8) (s : State) : Host.Outcome State Fault Refusal := fireEngine 0xD9 w sub s

/-- `ringx` (R298). -/
def execRingx (w : EpW) (sub : BitVec 8) (s : State) : Host.Outcome State Fault Refusal := fireEngine 0xDA w sub s

end Sys2Proof.Machine
end

