-- ==== Sys2Proof/Machine/FamFeed.lean ====
section
/-! DEFINITION. The meaning of `wdrive` (12). -/

namespace Sys2Proof.Machine

/-- `wdrive` (R243). -/
def execWdrive (w : EpW) (s : State) : Host.Outcome State Fault Refusal := fireWdrive w s

end Sys2Proof.Machine
end

