-- ==== Sys2Proof/Machine/FamFloat.lean ====
section
/-! DEFINITION. Meanings of the floating-point, special-function, conversion and codec instructions (07). -/

namespace Sys2Proof.Machine

/-- `fadd` (R129). -/
def execFadd (w : StageW) (s : State) : Host.Outcome State Fault Refusal := fireStage 0x30 w stFadd s

/-- `fsub` (R129). -/
def execFsub (w : StageW) (s : State) : Host.Outcome State Fault Refusal := fireStage 0x31 w stFsub s

/-- `fmul` (R129). -/
def execFmul (w : StageW) (s : State) : Host.Outcome State Fault Refusal := fireStage 0x32 w stFmul s

/-- `fma` (R129). -/
def execFma (w : StageW) (s : State) : Host.Outcome State Fault Refusal := fireStage 0x33 w stFma s

/-- `fnma` (R129). -/
def execFnma (w : StageW) (s : State) : Host.Outcome State Fault Refusal := fireStage 0x34 w stFnma s

/-- `fmin` (R130). -/
def execFmin (w : StageW) (s : State) : Host.Outcome State Fault Refusal := fireStage 0x35 w stFmin s

/-- `fmax` (R130). -/
def execFmax (w : StageW) (s : State) : Host.Outcome State Fault Refusal := fireStage 0x36 w stFmax s

/-- `fabs` (R130). -/
def execFabs (w : StageW) (s : State) : Host.Outcome State Fault Refusal := fireStage 0x37 w stFabs s

/-- `fneg` (R130). -/
def execFneg (w : StageW) (s : State) : Host.Outcome State Fault Refusal := fireStage 0x38 w stFneg s

/-- `fcpsgn` (R130). -/
def execFcpsgn (w : StageW) (s : State) : Host.Outcome State Fault Refusal := fireStage 0x39 w stFcpsgn s

/-- `fcmp` (R131). -/
def execFcmp (w : StageW) (s : State) : Host.Outcome State Fault Refusal := fireStage 0x3A w stFcmp s

/-- `fclass` (R132). -/
def execFclass (w : StageW) (s : State) : Host.Outcome State Fault Refusal := fireStage 0x3B w stFclass s

/-- `frnd` (R133). -/
def execFrnd (w : StageW) (s : State) : Host.Outcome State Fault Refusal := fireStage 0x3C w stFrnd s

/-- `fscaleb` (R133). -/
def execFscaleb (w : StageW) (s : State) : Host.Outcome State Fault Refusal := fireStage 0x3D w stFscaleb s

/-- `fgetexp` (R133). -/
def execFgetexp (w : StageW) (s : State) : Host.Outcome State Fault Refusal := fireStage 0x3E w stFgetexp s

/-- `fgetman` (R133). -/
def execFgetman (w : StageW) (s : State) : Host.Outcome State Fault Refusal := fireStage 0x3F w stFgetman s

/-- `frcp` (R134). -/
def execFrcp (w : StageW) (s : State) : Host.Outcome State Fault Refusal := fireStage 0x40 w stFrcp s

/-- `frsq` (R134). -/
def execFrsq (w : StageW) (s : State) : Host.Outcome State Fault Refusal := fireStage 0x41 w stFrsq s

/-- `fsqrt` (R134). -/
def execFsqrt (w : StageW) (s : State) : Host.Outcome State Fault Refusal := fireStage 0x42 w stFsqrt s

/-- `fexp2` (R134). -/
def execFexp2 (w : StageW) (s : State) : Host.Outcome State Fault Refusal := fireStage 0x43 w stFexp2 s

/-- `flog2` (R134). -/
def execFlog2 (w : StageW) (s : State) : Host.Outcome State Fault Refusal := fireStage 0x44 w stFlog2 s

/-- `ftanh` (R134). -/
def execFtanh (w : StageW) (s : State) : Host.Outcome State Fault Refusal := fireStage 0x45 w stFtanh s

/-- `fsin` (R134). -/
def execFsin (w : StageW) (s : State) : Host.Outcome State Fault Refusal := fireStage 0x46 w stFsin s

/-- `fcos` (R134). -/
def execFcos (w : StageW) (s : State) : Host.Outcome State Fault Refusal := fireStage 0x47 w stFcos s

/-- `fsigm` (R134). -/
def execFsigm (w : StageW) (s : State) : Host.Outcome State Fault Refusal := fireStage 0x48 w stFsigm s

/-- `smref` (R136). -/
def execSmref (w : StageW) (s : State) : Host.Outcome State Fault Refusal := fireStage 0x49 w stSmref s

/-- `smexp` (R137). -/
def execSmexp (w : StageW) (s : State) : Host.Outcome State Fault Refusal := fireStage 0x4A w stSmexp s

/-- `cvt` (R138). -/
def execCvt (w : StageW) (s : State) : Host.Outcome State Fault Refusal := fireStage 0x50 w stCvt s

/-- `cvti` (R139). -/
def execCvti (w : StageW) (s : State) : Host.Outcome State Fault Refusal := fireStage 0x51 w stCvti s

/-- `cvtf` (R138). -/
def execCvtf (w : StageW) (s : State) : Host.Outcome State Fault Refusal := fireStage 0x52 w stCvtf s

/-- `blkpack` (R140). -/
def execBlkpack (w : StageW) (s : State) : Host.Outcome State Fault Refusal := fireStage 0x53 w stBlkpack s

/-- `blkunpack` (R141). -/
def execBlkunpack (w : StageW) (s : State) : Host.Outcome State Fault Refusal := fireStage 0x54 w stBlkunpack s

/-- `blkscale` (R142). -/
def execBlkscale (w : StageW) (s : State) : Host.Outcome State Fault Refusal := fireStage 0x55 w stBlkscale s

/-- `bpc` (R144). -/
def execBpc (w : StageW) (s : State) : Host.Outcome State Fault Refusal := fireCodec false w s

/-- `bpx` (R145). -/
def execBpx (w : StageW) (s : State) : Host.Outcome State Fault Refusal := fireCodec true w s

end Sys2Proof.Machine
end

