-- ==== Sys2Proof/Machine/FamInt.lean ====
section
/-! DEFINITION. Meanings of the integer, move and lane instructions (06). -/

namespace Sys2Proof.Machine

/-- `vadd` (R111). -/
def execVadd (w : StageW) (s : State) : Host.Outcome State Fault Refusal := fireStage 0x01 w stVadd s

/-- `vsub` (R111). -/
def execVsub (w : StageW) (s : State) : Host.Outcome State Fault Refusal := fireStage 0x02 w stVsub s

/-- `vaddsat` (R111). -/
def execVaddsat (w : StageW) (s : State) : Host.Outcome State Fault Refusal := fireStage 0x03 w stVaddsat s

/-- `vsubsat` (R111). -/
def execVsubsat (w : StageW) (s : State) : Host.Outcome State Fault Refusal := fireStage 0x04 w stVsubsat s

/-- `vmul` (R111). -/
def execVmul (w : StageW) (s : State) : Host.Outcome State Fault Refusal := fireStage 0x05 w stVmul s

/-- `vmulhi` (R111). -/
def execVmulhi (w : StageW) (s : State) : Host.Outcome State Fault Refusal := fireStage 0x06 w stVmulhi s

/-- `vmad` (R111). -/
def execVmad (w : StageW) (s : State) : Host.Outcome State Fault Refusal := fireStage 0x07 w stVmad s

/-- `vneg` (R111). -/
def execVneg (w : StageW) (s : State) : Host.Outcome State Fault Refusal := fireStage 0x08 w stVneg s

/-- `vabs` (R111). -/
def execVabs (w : StageW) (s : State) : Host.Outcome State Fault Refusal := fireStage 0x09 w stVabs s

/-- `vmin` (R111). -/
def execVmin (w : StageW) (s : State) : Host.Outcome State Fault Refusal := fireStage 0x0A w stVmin s

/-- `vmax` (R111). -/
def execVmax (w : StageW) (s : State) : Host.Outcome State Fault Refusal := fireStage 0x0B w stVmax s

/-- `vand` (R111). -/
def execVand (w : StageW) (s : State) : Host.Outcome State Fault Refusal := fireStage 0x0C w stVand s

/-- `vor` (R111). -/
def execVor (w : StageW) (s : State) : Host.Outcome State Fault Refusal := fireStage 0x0D w stVor s

/-- `vxor` (R111). -/
def execVxor (w : StageW) (s : State) : Host.Outcome State Fault Refusal := fireStage 0x0E w stVxor s

/-- `vandn` (R111). -/
def execVandn (w : StageW) (s : State) : Host.Outcome State Fault Refusal := fireStage 0x0F w stVandn s

/-- `vshl` (R112). -/
def execVshl (w : StageW) (s : State) : Host.Outcome State Fault Refusal := fireStage 0x10 w stVshl s

/-- `vshr` (R112). -/
def execVshr (w : StageW) (s : State) : Host.Outcome State Fault Refusal := fireStage 0x11 w stVshr s

/-- `vsra` (R112). -/
def execVsra (w : StageW) (s : State) : Host.Outcome State Fault Refusal := fireStage 0x12 w stVsra s

/-- `vrotl` (R112). -/
def execVrotl (w : StageW) (s : State) : Host.Outcome State Fault Refusal := fireStage 0x13 w stVrotl s

/-- `vclz` (R113). -/
def execVclz (w : StageW) (s : State) : Host.Outcome State Fault Refusal := fireStage 0x14 w stVclz s

/-- `vpopc` (R113). -/
def execVpopc (w : StageW) (s : State) : Host.Outcome State Fault Refusal := fireStage 0x15 w stVpopc s

/-- `vcmp` (R114). -/
def execVcmp (w : StageW) (s : State) : Host.Outcome State Fault Refusal := fireStage 0x16 w stVcmp s

/-- `vsel` (R115). -/
def execVsel (w : StageW) (s : State) : Host.Outcome State Fault Refusal := fireStage 0x17 w stVsel s

/-- `vext` (R116). -/
def execVext (w : StageW) (s : State) : Host.Outcome State Fault Refusal := fireStage 0x18 w stVext s

/-- `vbfx` (R116). -/
def execVbfx (w : StageW) (s : State) : Host.Outcome State Fault Refusal := fireStage 0x19 w stVbfx s

/-- `vbfi` (R116). -/
def execVbfi (w : StageW) (s : State) : Host.Outcome State Fault Refusal := fireStage 0x1A w stVbfi s

/-- `const` (R117). -/
def execConst (w : StageW) (s : State) : Host.Outcome State Fault Refusal := fireStage 0x20 w stConst s

/-- `dup` (R117). -/
def execDup (w : StageW) (s : State) : Host.Outcome State Fault Refusal := fireStage 0x21 w stDup s

/-- `rdb` (R117). -/
def execRdb (w : StageW) (s : State) : Host.Outcome State Fault Refusal := fireStage 0x22 w stRdb s

/-- `wrb` (R118). -/
def execWrb (w : StageW) (s : State) : Host.Outcome State Fault Refusal := fireStage 0x23 w stWrb s

/-- `itr` (R117). -/
def execItr (w : StageW) (s : State) : Host.Outcome State Fault Refusal := fireStage 0x24 w stItr s

/-- `lidx` (R117). -/
def execLidx (w : StageW) (s : State) : Host.Outcome State Fault Refusal := fireStage 0x25 w stLidx s

/-- `mkpred` (R119). -/
def execMkpred (w : StageW) (s : State) : Host.Outcome State Fault Refusal := fireStage 0x26 w stMkpred s

/-- `nul` (R117). -/
def execNul (w : StageW) (s : State) : Host.Outcome State Fault Refusal := fireStage 0x27 w stNul s

/-- `lred` (R120). -/
def execLred (w : StageW) (s : State) : Host.Outcome State Fault Refusal := fireStage 0x28 w stLred s

/-- `lscan` (R121). -/
def execLscan (w : StageW) (s : State) : Host.Outcome State Fault Refusal := fireStage 0x29 w stLscan s

/-- `lbcast` (R122). -/
def execLbcast (w : StageW) (s : State) : Host.Outcome State Fault Refusal := fireStage 0x2A w stLbcast s

/-- `lshift` (R123). -/
def execLshift (w : StageW) (s : State) : Host.Outcome State Fault Refusal := fireStage 0x2B w stLshift s

/-- `lperm` (R124). -/
def execLperm (w : StageW) (s : State) : Host.Outcome State Fault Refusal := fireStage 0x2C w stLperm s

/-- `lpack` (R125). -/
def execLpack (w : StageW) (s : State) : Host.Outcome State Fault Refusal := fireStage 0x2D w stLpack s

/-- `lcount` (R126). -/
def execLcount (w : StageW) (s : State) : Host.Outcome State Fault Refusal := fireStage 0x2E w stLcount s

end Sys2Proof.Machine
end

