-- ==== Sys2Proof/Machine/FamKv.lean ====
section
/-! DEFINITION. Meanings of the sequence and key-value instructions (13). -/

namespace Sys2Proof.Machine

/-- `kvopen` (R275). -/
def execKvopen (w : EpW) (s : State) : Host.Outcome State Fault Refusal := fireKv 0xDB w 0 s

/-- `kvfork` (R275). -/
def execKvfork (w : EpW) (s : State) : Host.Outcome State Fault Refusal := fireKv 0xDC w 0 s

/-- `kvreserve` (R276). -/
def execKvreserve (w : EpW) (s : State) : Host.Outcome State Fault Refusal := fireKv 0xDD w 0 s

/-- `kvwin` (R278). -/
def execKvwin (w : EpW) (s : State) : Host.Outcome State Fault Refusal := fireKv 0xDE w 0 s

/-- `kvcommit` (R281). -/
def execKvcommit (w : EpW) (s : State) : Host.Outcome State Fault Refusal := fireKv 0xDF w 0 s

/-- `kvabort` (R281). -/
def execKvabort (w : EpW) (s : State) : Host.Outcome State Fault Refusal := fireKv 0xE0 w 0 s

/-- `kvlen` (R282). -/
def execKvlen (w : EpW) (s : State) : Host.Outcome State Fault Refusal := fireKv 0xE1 w 0 s

/-- `kvclose` (R283). -/
def execKvclose (w : EpW) (s : State) : Host.Outcome State Fault Refusal := fireKv 0xE2 w 0 s

/-- `kvarm` (R284). -/
def execKvarm (w : EpW) (s : State) : Host.Outcome State Fault Refusal := fireKv 0xE4 w 0 s

/-- `kvsnap` (R280). -/
def execKvsnap (w : EpW) (s : State) : Host.Outcome State Fault Refusal := fireKv 0xE5 w 0 s

/-- `kvsend` (R285). -/
def execKvsend (w : EpW) (sub : BitVec 8) (s : State) : Host.Outcome State Fault Refusal := fireKv 0xE3 w sub s

end Sys2Proof.Machine
end

