-- ==== Sys2Proof/Machine/FamMatrix.lean ====
section
/-! DEFINITION. Meanings of the matrix cards of EP0 (10). -/

namespace Sys2Proof.Machine

/-- `mlatch` (R199). -/
def execMlatch (w : EpW) (sub : BitVec 8) (s : State) : Host.Outcome State Fault Refusal := fireMatrix 0xB8 w sub s

/-- `mstream` (R200). -/
def execMstream (w : EpW) (sub : BitVec 8) (s : State) : Host.Outcome State Fault Refusal := fireMatrix 0xB9 w sub s

/-- `mdrain` (R202). -/
def execMdrain (w : EpW) (sub : BitVec 8) (s : State) : Host.Outcome State Fault Refusal := fireMatrix 0xBA w sub s

/-- `accclr` (R203). -/
def execAccclr (w : EpW) (sub : BitVec 8) (s : State) : Host.Outcome State Fault Refusal := fireMatrix 0xBB w sub s

/-- `accscale` (R203). -/
def execAccscale (w : EpW) (sub : BitVec 8) (s : State) : Host.Outcome State Fault Refusal := fireMatrix 0xBC w sub s

/-- `accld` (R203). -/
def execAccld (w : EpW) (sub : BitVec 8) (s : State) : Host.Outcome State Fault Refusal := fireMatrix 0xBD w sub s

/-- `accst` (R203). -/
def execAccst (w : EpW) (sub : BitVec 8) (s : State) : Host.Outcome State Fault Refusal := fireMatrix 0xBE w sub s

/-- `mxv` (R205). -/
def execMxv (w : EpW) (sub : BitVec 8) (s : State) : Host.Outcome State Fault Refusal := fireMatrix 0xBF w sub s

/-- `munfold` (R201). -/
def execMunfold (w : EpW) (sub : BitVec 8) (s : State) : Host.Outcome State Fault Refusal := fireMatrix 0xC0 w sub s

end Sys2Proof.Machine
end

