-- ==== Sys2Proof/Machine/FamMem.lean ====
section
/-! DEFINITION. Meanings of the memory instructions (08, 15). -/

namespace Sys2Proof.Machine

/-- `ld.sp` (R153). -/
def execLdSp (w : MemW) (s : State) : Host.Outcome State Fault Refusal := fireMem 0x70 w s

/-- `st.sp` (R153). -/
def execStSp (w : MemW) (s : State) : Host.Outcome State Fault Refusal := fireMem 0x71 w s

/-- `ld.d` (R153). -/
def execLdD (w : MemW) (s : State) : Host.Outcome State Fault Refusal := fireMem 0x72 w s

/-- `st.d` (R153). -/
def execStD (w : MemW) (s : State) : Host.Outcome State Fault Refusal := fireMem 0x73 w s

/-- `ldt` (R154). -/
def execLdt (w : MemW) (s : State) : Host.Outcome State Fault Refusal := fireMem 0x74 w s

/-- `stt` (R154). -/
def execStt (w : MemW) (s : State) : Host.Outcome State Fault Refusal := fireMem 0x75 w s

/-- `ldg` (R155). -/
def execLdg (w : MemW) (s : State) : Host.Outcome State Fault Refusal := fireMem 0x76 w s

/-- `stg` (R155). -/
def execStg (w : MemW) (s : State) : Host.Outcome State Fault Refusal := fireMem 0x77 w s

/-- `cbpush` (R158). -/
def execCbpush (w : MemW) (s : State) : Host.Outcome State Fault Refusal := fireCb 0x78 cbPush w s

/-- `cbpop` (R158). -/
def execCbpop (w : MemW) (s : State) : Host.Outcome State Fault Refusal := fireCb 0x79 (cbRead true) w s

/-- `cbpeek` (R158). -/
def execCbpeek (w : MemW) (s : State) : Host.Outcome State Fault Refusal := fireCb 0x7A (cbRead false) w s

/-- `cbstat` (R159). -/
def execCbstat (w : MemW) (s : State) : Host.Outcome State Fault Refusal := fireCb 0x7B (fun w f _ s => cbStat w f s) w s

/-- `fence` (R161). -/
def execFence (w : MemW) (s : State) : Host.Outcome State Fault Refusal := fireMem 0x7C w s

/-- `aadd` (R162). -/
def execAadd (w : MemW) (s : State) : Host.Outcome State Fault Refusal := fireMem 0x80 w s

/-- `amin` (R162). -/
def execAmin (w : MemW) (s : State) : Host.Outcome State Fault Refusal := fireMem 0x81 w s

/-- `amax` (R162). -/
def execAmax (w : MemW) (s : State) : Host.Outcome State Fault Refusal := fireMem 0x82 w s

/-- `aand` (R162). -/
def execAand (w : MemW) (s : State) : Host.Outcome State Fault Refusal := fireMem 0x83 w s

/-- `aor` (R162). -/
def execAor (w : MemW) (s : State) : Host.Outcome State Fault Refusal := fireMem 0x84 w s

/-- `axor` (R162). -/
def execAxor (w : MemW) (s : State) : Host.Outcome State Fault Refusal := fireMem 0x85 w s

/-- `axchg` (R162). -/
def execAxchg (w : MemW) (s : State) : Host.Outcome State Fault Refusal := fireMem 0x86 w s

/-- `acas` (R162). -/
def execAcas (w : MemW) (s : State) : Host.Outcome State Fault Refusal := fireMem 0x87 w s

/-- `aaddw` (R165). -/
def execAaddw (w : MemW) (s : State) : Host.Outcome State Fault Refusal := fireMem 0x88 w s

/-- `await` (R165). -/
def execAwait (w : MemW) (s : State) : Host.Outcome State Fault Refusal := fireMem 0x89 w s

/-- `afadd` (R164). -/
def execAfadd (w : MemW) (s : State) : Host.Outcome State Fault Refusal := fireMem 0x8A w s

end Sys2Proof.Machine
end

