-- ==== Sys2Proof/Machine/FamSeed.lean ====
section
/-! DEFINITION. Meanings of the seeds (12). -/

namespace Sys2Proof.Machine

/-- `smm` (R255). -/
def execSmm (h : Husk) (s : State) : Host.Outcome State Fault Refusal := fireSeed 1 (seedMatrix false) h s

/-- `smmz` (R255). -/
def execSmmz (h : Husk) (s : State) : Host.Outcome State Fault Refusal := fireSeed 2 (seedMatrix true) h s

/-- `svec` (R256). -/
def execSvec (h : Husk) (s : State) : Host.Outcome State Fault Refusal := fireSeed 3 seedSvec h s

/-- `sbias` (R256). -/
def execSbias (h : Husk) (s : State) : Host.Outcome State Fault Refusal := fireSeed 4 seedSbias h s

/-- `snorm` (R256). -/
def execSnorm (h : Husk) (s : State) : Host.Outcome State Fault Refusal := fireSeed 5 seedSnorm h s

/-- `sact` (R257). -/
def execSact (h : Husk) (s : State) : Host.Outcome State Fault Refusal := fireSeed 6 seedSact h s

/-- `sdrain` (R257). -/
def execSdrain (h : Husk) (s : State) : Host.Outcome State Fault Refusal := fireSeed 7 seedSdrain h s

/-- `sjump` (R260). -/
def execSjump (h : Husk) (s : State) : Host.Outcome State Fault Refusal := fireSeed 8 seedSjump h s

/-- `scall` (R260). -/
def execScall (h : Husk) (s : State) : Host.Outcome State Fault Refusal := fireSeed 9 seedScall h s

/-- `sexit` (R260). -/
def execSexit (h : Husk) (s : State) : Host.Outcome State Fault Refusal := fireSeed 10 seedSexit h s

/-- `sbar` (R259). -/
def execSbar (h : Husk) (s : State) : Host.Outcome State Fault Refusal := fireSbar h s

/-- `spad` (R259). -/
def execSpad (h : Husk) (s : State) : Host.Outcome State Fault Refusal := fireSeed 12 seedSpad h s

/-- `sembed` (R258). -/
def execSembed (h : Husk) (s : State) : Host.Outcome State Fault Refusal := fireSeed 13 seedSembed h s

end Sys2Proof.Machine
end

