-- ==== Sys2Proof/Machine/FamSweep.lean ====
section
/-! DEFINITION. Meanings of the sweep instructions of EP1 but `wdrive` (11). -/

namespace Sys2Proof.Machine

/-- `brd` (R226). -/
def execBrd (w : EpW) (s : State) : Host.Outcome State Fault Refusal := fireBoard 0xC8 0 false w s

/-- `bsum` (R228). -/
def execBsum (w : EpW) (s : State) : Host.Outcome State Fault Refusal := fireBoard 0xC9 0 false w s

/-- `bflt` (R228). -/
def execBflt (w : EpW) (s : State) : Host.Outcome State Fault Refusal := fireBoard 0xCA 0 false w s

/-- `bdep` (R229). -/
def execBdep (w : EpW) (s : State) : Host.Outcome State Fault Refusal := fireBoard 0xCB 0 false w s

/-- `bupd.iadd` (R230). -/
def execBupdIadd (w : EpW) (s : State) : Host.Outcome State Fault Refusal := fireBoard 0xCC 0 false w s

/-- `bupd.fadd` (R230). -/
def execBupdFadd (w : EpW) (s : State) : Host.Outcome State Fault Refusal := fireBoard 0xCC 1 false w s

/-- `bupd.imin` (R230). -/
def execBupdImin (w : EpW) (s : State) : Host.Outcome State Fault Refusal := fireBoard 0xCC 2 false w s

/-- `bupd.imax` (R230). -/
def execBupdImax (w : EpW) (s : State) : Host.Outcome State Fault Refusal := fireBoard 0xCC 3 false w s

/-- `bupd.and` (R230). -/
def execBupdAnd (w : EpW) (s : State) : Host.Outcome State Fault Refusal := fireBoard 0xCC 4 false w s

/-- `bupd.or` (R230). -/
def execBupdOr (w : EpW) (s : State) : Host.Outcome State Fault Refusal := fireBoard 0xCC 5 false w s

/-- `bupd.xor` (R230). -/
def execBupdXor (w : EpW) (s : State) : Host.Outcome State Fault Refusal := fireBoard 0xCC 6 false w s

/-- `bupd.set` (R230). -/
def execBupdSet (w : EpW) (s : State) : Host.Outcome State Fault Refusal := fireBoard 0xCC 7 false w s

/-- `batt` (R228). -/
def execBatt (w : EpW) (s : State) : Host.Outcome State Fault Refusal := fireBoard 0xCE 0 false w s

/-- `bclone` (R231). -/
def execBclone (w : EpW) (s : State) : Host.Outcome State Fault Refusal := fireBoard 0xCF 0 false w s

/-- `bmac` (R233). -/
def execBmac (w : EpW) (s : State) : Host.Outcome State Fault Refusal := fireBmac w s

/-- `bcfg` (R238). -/
def execBcfg (w : EpW) (s : State) : Host.Outcome State Fault Refusal := fireBcfg w s

/-- `bcancel` (R235). -/
def execBcancel (w : EpW) (s : State) : Host.Outcome State Fault Refusal := fireCancel w s

/-- `bwait` (R236). -/
def execBwait (w : EpW) (s : State) : Host.Outcome State Fault Refusal := fireWait w s

/-- `bstand.rd` (R234). -/
def execBstandRd (w : EpW) (s : State) : Host.Outcome State Fault Refusal := fireBoard (standKind 0) 0 true w s

/-- `bstand.sum` (R234). -/
def execBstandSum (w : EpW) (s : State) : Host.Outcome State Fault Refusal := fireBoard (standKind 1) 1 true w s

/-- `bstand.flt` (R234). -/
def execBstandFlt (w : EpW) (s : State) : Host.Outcome State Fault Refusal := fireBoard (standKind 2) 2 true w s

/-- `bstand.att` (R234). -/
def execBstandAtt (w : EpW) (s : State) : Host.Outcome State Fault Refusal := fireBoard (standKind 3) 3 true w s

/-- `cursor` (R237). -/
def execCursor (w : EpW) (s : State) : Host.Outcome State Fault Refusal := fireCursor w s

end Sys2Proof.Machine
end

