-- ==== Sys2Proof/Machine/FamTask.lean ====
section
/-! DEFINITION. Meanings of the task, barrier, message and system instructions of EP3 (14). -/

namespace Sys2Proof.Machine

/-- `bar.a` (R302). -/
def execBarA (w : EpW) (s : State) : Host.Outcome State Fault Refusal := fireBar 0 w s

/-- `bar.w` (R302). -/
def execBarW (w : EpW) (s : State) : Host.Outcome State Fault Refusal := fireBar 1 w s

/-- `bar.aw` (R302). -/
def execBarAw (w : EpW) (s : State) : Host.Outcome State Fault Refusal := fireBar 2 w s

/-- `bar.lv` (R302). -/
def execBarLv (w : EpW) (s : State) : Host.Outcome State Fault Refusal := fireBar 3 w s

/-- `msend` (R303). -/
def execMsend (w : EpW) (s : State) : Host.Outcome State Fault Refusal := fireMsend w s

/-- `bind` (R304). -/
def execBind (_ : EpW) (s : State) : Host.Outcome State Fault Refusal := fireBind s

/-- `yield` (R305). -/
def execYield (_ : EpW) (s : State) : Host.Outcome State Fault Refusal := fireYield false s

/-- `yield.wait` (R305). -/
def execYieldWait (_ : EpW) (s : State) : Host.Outcome State Fault Refusal := fireYield true s

/-- `end` (R305). -/
def execEndTask (_ : EpW) (s : State) : Host.Outcome State Fault Refusal := fireEnd s

/-- `waitseq` (R306). -/
def execWaitseq (_ : EpW) (s : State) : Host.Outcome State Fault Refusal := fireWaitseq s

/-- `trap` (R307). -/
def execTrap (_ : EpW) (s : State) : Host.Outcome State Fault Refusal := fireTrap s

/-- `eret` (R338). -/
def execEret (_ : EpW) (s : State) : Host.Outcome State Fault Refusal := fireEret s

/-- `sysrd` (R308). -/
def execSysrd (_ : EpW) (s : State) : Host.Outcome State Fault Refusal := fireSysrd s

/-- `syswr` (R308). -/
def execSyswr (_ : EpW) (s : State) : Host.Outcome State Fault Refusal := fireSyswr s

/-- `tlbinv.pg` (R380). -/
def execTlbinvPg (_ : EpW) (s : State) : Host.Outcome State Fault Refusal := fireTlbinv false s

/-- `tlbinv.all` (R380). -/
def execTlbinvAll (_ : EpW) (s : State) : Host.Outcome State Fault Refusal := fireTlbinv true s

/-- `launch` (R310). -/
def execLaunch (_ : EpW) (s : State) : Host.Outcome State Fault Refusal := fireLaunch s

/-- `pmrd` (R311). -/
def execPmrd (_ : EpW) (s : State) : Host.Outcome State Fault Refusal := firePmrd s

end Sys2Proof.Machine
end

