-- ==== Sys2Proof/Machine/Dispatch.lean ====
section
/-! DEFINITION. The meaning of each constructor of Instr: one call of its own definition. -/

namespace Sys2Proof.Machine

/-- What one step of the table of operations does: a block instruction fires at the node in focus (R30), a seed executes on
the core in focus (R252), an event happens (95). -/
def exec (i : Instr) (s : State) : Host.Outcome State Fault Refusal :=
  match i with
  | .vadd w => Sys2Proof.Machine.execVadd w s
  | .vsub w => Sys2Proof.Machine.execVsub w s
  | .vaddsat w => Sys2Proof.Machine.execVaddsat w s
  | .vsubsat w => Sys2Proof.Machine.execVsubsat w s
  | .vmul w => Sys2Proof.Machine.execVmul w s
  | .vmulhi w => Sys2Proof.Machine.execVmulhi w s
  | .vmad w => Sys2Proof.Machine.execVmad w s
  | .vneg w => Sys2Proof.Machine.execVneg w s
  | .vabs w => Sys2Proof.Machine.execVabs w s
  | .vmin w => Sys2Proof.Machine.execVmin w s
  | .vmax w => Sys2Proof.Machine.execVmax w s
  | .vand w => Sys2Proof.Machine.execVand w s
  | .vor w => Sys2Proof.Machine.execVor w s
  | .vxor w => Sys2Proof.Machine.execVxor w s
  | .vandn w => Sys2Proof.Machine.execVandn w s
  | .vshl w => Sys2Proof.Machine.execVshl w s
  | .vshr w => Sys2Proof.Machine.execVshr w s
  | .vsra w => Sys2Proof.Machine.execVsra w s
  | .vrotl w => Sys2Proof.Machine.execVrotl w s
  | .vclz w => Sys2Proof.Machine.execVclz w s
  | .vpopc w => Sys2Proof.Machine.execVpopc w s
  | .vcmp w => Sys2Proof.Machine.execVcmp w s
  | .vsel w => Sys2Proof.Machine.execVsel w s
  | .vext w => Sys2Proof.Machine.execVext w s
  | .vbfx w => Sys2Proof.Machine.execVbfx w s
  | .vbfi w => Sys2Proof.Machine.execVbfi w s
  | .const w => Sys2Proof.Machine.execConst w s
  | .dup w => Sys2Proof.Machine.execDup w s
  | .rdb w => Sys2Proof.Machine.execRdb w s
  | .wrb w => Sys2Proof.Machine.execWrb w s
  | .itr w => Sys2Proof.Machine.execItr w s
  | .lidx w => Sys2Proof.Machine.execLidx w s
  | .mkpred w => Sys2Proof.Machine.execMkpred w s
  | .nul w => Sys2Proof.Machine.execNul w s
  | .lred w => Sys2Proof.Machine.execLred w s
  | .lscan w => Sys2Proof.Machine.execLscan w s
  | .lbcast w => Sys2Proof.Machine.execLbcast w s
  | .lshift w => Sys2Proof.Machine.execLshift w s
  | .lperm w => Sys2Proof.Machine.execLperm w s
  | .lpack w => Sys2Proof.Machine.execLpack w s
  | .lcount w => Sys2Proof.Machine.execLcount w s
  | .fadd w => Sys2Proof.Machine.execFadd w s
  | .fsub w => Sys2Proof.Machine.execFsub w s
  | .fmul w => Sys2Proof.Machine.execFmul w s
  | .fma w => Sys2Proof.Machine.execFma w s
  | .fnma w => Sys2Proof.Machine.execFnma w s
  | .fmin w => Sys2Proof.Machine.execFmin w s
  | .fmax w => Sys2Proof.Machine.execFmax w s
  | .fabs w => Sys2Proof.Machine.execFabs w s
  | .fneg w => Sys2Proof.Machine.execFneg w s
  | .fcpsgn w => Sys2Proof.Machine.execFcpsgn w s
  | .fcmp w => Sys2Proof.Machine.execFcmp w s
  | .fclass w => Sys2Proof.Machine.execFclass w s
  | .frnd w => Sys2Proof.Machine.execFrnd w s
  | .fscaleb w => Sys2Proof.Machine.execFscaleb w s
  | .fgetexp w => Sys2Proof.Machine.execFgetexp w s
  | .fgetman w => Sys2Proof.Machine.execFgetman w s
  | .frcp w => Sys2Proof.Machine.execFrcp w s
  | .frsq w => Sys2Proof.Machine.execFrsq w s
  | .fsqrt w => Sys2Proof.Machine.execFsqrt w s
  | .fexp2 w => Sys2Proof.Machine.execFexp2 w s
  | .flog2 w => Sys2Proof.Machine.execFlog2 w s
  | .ftanh w => Sys2Proof.Machine.execFtanh w s
  | .fsin w => Sys2Proof.Machine.execFsin w s
  | .fcos w => Sys2Proof.Machine.execFcos w s
  | .fsigm w => Sys2Proof.Machine.execFsigm w s
  | .smref w => Sys2Proof.Machine.execSmref w s
  | .smexp w => Sys2Proof.Machine.execSmexp w s
  | .cvt w => Sys2Proof.Machine.execCvt w s
  | .cvti w => Sys2Proof.Machine.execCvti w s
  | .cvtf w => Sys2Proof.Machine.execCvtf w s
  | .blkpack w => Sys2Proof.Machine.execBlkpack w s
  | .blkunpack w => Sys2Proof.Machine.execBlkunpack w s
  | .blkscale w => Sys2Proof.Machine.execBlkscale w s
  | .bpc w => Sys2Proof.Machine.execBpc w s
  | .bpx w => Sys2Proof.Machine.execBpx w s
  | .ldSp w => Sys2Proof.Machine.execLdSp w s
  | .stSp w => Sys2Proof.Machine.execStSp w s
  | .ldD w => Sys2Proof.Machine.execLdD w s
  | .stD w => Sys2Proof.Machine.execStD w s
  | .ldt w => Sys2Proof.Machine.execLdt w s
  | .stt w => Sys2Proof.Machine.execStt w s
  | .ldg w => Sys2Proof.Machine.execLdg w s
  | .stg w => Sys2Proof.Machine.execStg w s
  | .cbpush w => Sys2Proof.Machine.execCbpush w s
  | .cbpop w => Sys2Proof.Machine.execCbpop w s
  | .cbpeek w => Sys2Proof.Machine.execCbpeek w s
  | .cbstat w => Sys2Proof.Machine.execCbstat w s
  | .fence w => Sys2Proof.Machine.execFence w s
  | .aadd w => Sys2Proof.Machine.execAadd w s
  | .amin w => Sys2Proof.Machine.execAmin w s
  | .amax w => Sys2Proof.Machine.execAmax w s
  | .aand w => Sys2Proof.Machine.execAand w s
  | .aor w => Sys2Proof.Machine.execAor w s
  | .axor w => Sys2Proof.Machine.execAxor w s
  | .axchg w => Sys2Proof.Machine.execAxchg w s
  | .acas w => Sys2Proof.Machine.execAcas w s
  | .aaddw w => Sys2Proof.Machine.execAaddw w s
  | .await w => Sys2Proof.Machine.execAwait w s
  | .afadd w => Sys2Proof.Machine.execAfadd w s
  | .steer w => Sys2Proof.Machine.execSteer w s
  | .carry w => Sys2Proof.Machine.execCarry w s
  | .inv w => Sys2Proof.Machine.execInv w s
  | .mergeSel w => Sys2Proof.Machine.execMergeSel w s
  | .mergeAny w => Sys2Proof.Machine.execMergeAny w s
  | .fan w => Sys2Proof.Machine.execFan w s
  | .join w => Sys2Proof.Machine.execJoin w s
  | .order w => Sys2Proof.Machine.execOrder w s
  | .exitSel w => Sys2Proof.Machine.execExitSel w s
  | .exitCall w => Sys2Proof.Machine.execExitCall w s
  | .exitRet w => Sys2Proof.Machine.execExitRet w s
  | .exitJump w => Sys2Proof.Machine.execExitJump w s
  | .exitBr w => Sys2Proof.Machine.execExitBr w s
  | .gatePass w => Sys2Proof.Machine.execGatePass w s
  | .gateBrk w => Sys2Proof.Machine.execGateBrk w s
  | .nulchkIsnull w => Sys2Proof.Machine.execNulchkIsnull w s
  | .nulchkPresent w => Sys2Proof.Machine.execNulchkPresent w s
  | .reord w => Sys2Proof.Machine.execReord w s
  | .xpose w => Sys2Proof.Machine.execXpose w s
  | .corner w => Sys2Proof.Machine.execCorner w s
  | .mlatch w sub => Sys2Proof.Machine.execMlatch w sub s
  | .mstream w sub => Sys2Proof.Machine.execMstream w sub s
  | .mdrain w sub => Sys2Proof.Machine.execMdrain w sub s
  | .accclr w sub => Sys2Proof.Machine.execAccclr w sub s
  | .accscale w sub => Sys2Proof.Machine.execAccscale w sub s
  | .accld w sub => Sys2Proof.Machine.execAccld w sub s
  | .accst w sub => Sys2Proof.Machine.execAccst w sub s
  | .mxv w sub => Sys2Proof.Machine.execMxv w sub s
  | .munfold w sub => Sys2Proof.Machine.execMunfold w sub s
  | .brd w => Sys2Proof.Machine.execBrd w s
  | .bsum w => Sys2Proof.Machine.execBsum w s
  | .bflt w => Sys2Proof.Machine.execBflt w s
  | .bdep w => Sys2Proof.Machine.execBdep w s
  | .bupdIadd w => Sys2Proof.Machine.execBupdIadd w s
  | .bupdFadd w => Sys2Proof.Machine.execBupdFadd w s
  | .bupdImin w => Sys2Proof.Machine.execBupdImin w s
  | .bupdImax w => Sys2Proof.Machine.execBupdImax w s
  | .bupdAnd w => Sys2Proof.Machine.execBupdAnd w s
  | .bupdOr w => Sys2Proof.Machine.execBupdOr w s
  | .bupdXor w => Sys2Proof.Machine.execBupdXor w s
  | .bupdSet w => Sys2Proof.Machine.execBupdSet w s
  | .bmac w => Sys2Proof.Machine.execBmac w s
  | .batt w => Sys2Proof.Machine.execBatt w s
  | .bclone w => Sys2Proof.Machine.execBclone w s
  | .bcfg w => Sys2Proof.Machine.execBcfg w s
  | .bcancel w => Sys2Proof.Machine.execBcancel w s
  | .bwait w => Sys2Proof.Machine.execBwait w s
  | .wdrive w => Sys2Proof.Machine.execWdrive w s
  | .bstandRd w => Sys2Proof.Machine.execBstandRd w s
  | .bstandSum w => Sys2Proof.Machine.execBstandSum w s
  | .bstandFlt w => Sys2Proof.Machine.execBstandFlt w s
  | .bstandAtt w => Sys2Proof.Machine.execBstandAtt w s
  | .cursor w => Sys2Proof.Machine.execCursor w s
  | .copy w sub => Sys2Proof.Machine.execCopy w sub s
  | .coll w sub => Sys2Proof.Machine.execColl w sub s
  | .ringx w sub => Sys2Proof.Machine.execRingx w sub s
  | .kvopen w => Sys2Proof.Machine.execKvopen w s
  | .kvfork w => Sys2Proof.Machine.execKvfork w s
  | .kvreserve w => Sys2Proof.Machine.execKvreserve w s
  | .kvwin w => Sys2Proof.Machine.execKvwin w s
  | .kvcommit w => Sys2Proof.Machine.execKvcommit w s
  | .kvabort w => Sys2Proof.Machine.execKvabort w s
  | .kvlen w => Sys2Proof.Machine.execKvlen w s
  | .kvclose w => Sys2Proof.Machine.execKvclose w s
  | .kvsend w sub => Sys2Proof.Machine.execKvsend w sub s
  | .kvarm w => Sys2Proof.Machine.execKvarm w s
  | .kvsnap w => Sys2Proof.Machine.execKvsnap w s
  | .barA w => Sys2Proof.Machine.execBarA w s
  | .barW w => Sys2Proof.Machine.execBarW w s
  | .barAw w => Sys2Proof.Machine.execBarAw w s
  | .barLv w => Sys2Proof.Machine.execBarLv w s
  | .msend w => Sys2Proof.Machine.execMsend w s
  | .bind w => Sys2Proof.Machine.execBind w s
  | .yield w => Sys2Proof.Machine.execYield w s
  | .yieldWait w => Sys2Proof.Machine.execYieldWait w s
  | .endTask w => Sys2Proof.Machine.execEndTask w s
  | .waitseq w => Sys2Proof.Machine.execWaitseq w s
  | .trap w => Sys2Proof.Machine.execTrap w s
  | .eret w => Sys2Proof.Machine.execEret w s
  | .sysrd w => Sys2Proof.Machine.execSysrd w s
  | .syswr w => Sys2Proof.Machine.execSyswr w s
  | .tlbinvPg w => Sys2Proof.Machine.execTlbinvPg w s
  | .tlbinvAll w => Sys2Proof.Machine.execTlbinvAll w s
  | .launch w => Sys2Proof.Machine.execLaunch w s
  | .pmrd w => Sys2Proof.Machine.execPmrd w s
  | .smm h => Sys2Proof.Machine.execSmm h s
  | .smmz h => Sys2Proof.Machine.execSmmz h s
  | .svec h => Sys2Proof.Machine.execSvec h s
  | .sbias h => Sys2Proof.Machine.execSbias h s
  | .snorm h => Sys2Proof.Machine.execSnorm h s
  | .sact h => Sys2Proof.Machine.execSact h s
  | .sdrain h => Sys2Proof.Machine.execSdrain h s
  | .sjump h => Sys2Proof.Machine.execSjump h s
  | .scall h => Sys2Proof.Machine.execScall h s
  | .sexit h => Sys2Proof.Machine.execSexit h s
  | .sbar h => Sys2Proof.Machine.execSbar h s
  | .spad h => Sys2Proof.Machine.execSpad h s
  | .sembed h => Sys2Proof.Machine.execSembed h s
  | .tokenArrival core slot port => Sys2Proof.Machine.execTokenArrival core slot port s
  | .phaseEnd core => Sys2Proof.Machine.execPhaseEnd core s
  | .messageArrival n => Sys2Proof.Machine.execMessageArrival n s
  | .waitOrphan core => Sys2Proof.Machine.execWaitOrphan core s
  | .memoryResponse core task n => Sys2Proof.Machine.execMemoryResponse core task n s
  | .storeDrain core n => Sys2Proof.Machine.execStoreDrain core n s
  | .l1Evict core loc => Sys2Proof.Machine.execL1Evict core loc s
  | .awaitPoll core task n => Sys2Proof.Machine.execAwaitPoll core task n s
  | .awaitTimeout core task n => Sys2Proof.Machine.execAwaitTimeout core task n s
  | .podFenceComplete switch => Sys2Proof.Machine.execPodFenceComplete switch s
  | .cardStart core task chain seq => Sys2Proof.Machine.execCardStart core task chain seq s
  | .cardFault core task chain seq => Sys2Proof.Machine.execCardFault core task chain seq s
  | .cardComplete core task chain seq => Sys2Proof.Machine.execCardComplete core task chain seq s
  | .tileTaskTake quad => Sys2Proof.Machine.execTileTaskTake quad s
  | .powerGrant die => Sys2Proof.Machine.execPowerGrant die s
  | .forcedGrant die n => Sys2Proof.Machine.execForcedGrant die n s
  | .pass chan => Sys2Proof.Machine.execPass chan s
  | .refreshSlot chan => Sys2Proof.Machine.execRefreshSlot chan s
  | .directSlot chan => Sys2Proof.Machine.execDirectSlot chan s
  | .riderAdmit ticket chan => Sys2Proof.Machine.execRiderAdmit ticket chan s
  | .riderAlight ticket => Sys2Proof.Machine.execRiderAlight ticket s
  | .kvsendLayerFlag send => Sys2Proof.Machine.execKvsendLayerFlag send s
  | .seedIntake core => Sys2Proof.Machine.execSeedIntake core s
  | .seedStart core task => Sys2Proof.Machine.execSeedStart core task s
  | .taskRetire core task => Sys2Proof.Machine.execTaskRetire core task s
  | .recordTake fn queue => Sys2Proof.Machine.execRecordTake fn queue s
  | .pickPass => Sys2Proof.Machine.execPickPass s
  | .lift job => Sys2Proof.Machine.execLift job s
  | .deferExpiry job => Sys2Proof.Machine.execDeferExpiry job s
  | .cutComplete job => Sys2Proof.Machine.execCutComplete job s
  | .sweeplenWrite chan v => Sys2Proof.Machine.execSweeplenWrite chan v s
  | .dshrWrite chan v => Sys2Proof.Machine.execDshrWrite chan v s
  | .trainRequest chan => Sys2Proof.Machine.execTrainRequest chan s
  | .trainExit chan => Sys2Proof.Machine.execTrainExit chan s
  | .trcmdReadTest chan seed => Sys2Proof.Machine.execTrcmdReadTest chan seed s
  | .trcmdWriteTest chan seed => Sys2Proof.Machine.execTrcmdWriteTest chan seed s
  | .trainingTestDone chan lanes spares => Sys2Proof.Machine.execTrainingTestDone chan lanes spares s
  | .repairWrite chan v => Sys2Proof.Machine.execRepairWrite chan v s
  | .ptrootWrite part v => Sys2Proof.Machine.execPtrootWrite part v s
  | .kvPoolWrite part reg v => Sys2Proof.Machine.execKvPoolWrite part reg v s
  | .pabudgetWrite die v => Sys2Proof.Machine.execPabudgetWrite die v s
  | .oppointWrite v => Sys2Proof.Machine.execOppointWrite v s
  | .oppointChangeDone => Sys2Proof.Machine.execOppointChangeDone s
  | .sysregWrite by_ num v => Sys2Proof.Machine.execSysregWrite by_ num v s
  | .lqtailWrite fn queue v => Sys2Proof.Machine.execLqtailWrite fn queue v s
  | .lqsizeWrite fn queue v => Sys2Proof.Machine.execLqsizeWrite fn queue v s
  | .lqbaseWrite fn queue v => Sys2Proof.Machine.execLqbaseWrite fn queue v s
  | .winbaseWrite fn v => Sys2Proof.Machine.execWinbaseWrite fn v s
  | .winerrClear fn v => Sys2Proof.Machine.execWinerrClear fn v s
  | .hostWindowWrite fn off bytes poisoned => Sys2Proof.Machine.execHostWindowWrite fn off bytes poisoned s
  | .hostWindowRead fn off len => Sys2Proof.Machine.execHostWindowRead fn off len s
  | .hostAtomicopRequest fn => Sys2Proof.Machine.execHostAtomicopRequest fn s
  | .hostCompletionTimeout core task n => Sys2Proof.Machine.execHostCompletionTimeout core task n s
  | .msixUnmask fn vec => Sys2Proof.Machine.execMsixUnmask fn vec s
  | .functionLevelReset fn => Sys2Proof.Machine.execFunctionLevelReset fn s
  | .vfEnableClear => Sys2Proof.Machine.execVfEnableClear s
  | .remoteRequest r => Sys2Proof.Machine.execRemoteRequest r s
  | .flitData port f => Sys2Proof.Machine.execFlitData port f s
  | .flitIdle port f => Sys2Proof.Machine.execFlitIdle port f s
  | .flitReplayRequest port f => Sys2Proof.Machine.execFlitReplayRequest port f s
  | .flitLinkControl port f => Sys2Proof.Machine.execFlitLinkControl port f s
  | .portUp port switch swport => Sys2Proof.Machine.execPortUp port switch swport s
  | .reset img => Sys2Proof.Machine.execReset img s
  | .bootcmdImage img => Sys2Proof.Machine.execBootcmdImage img s
  | .bootcmdConfig blk => Sys2Proof.Machine.execBootcmdConfig blk s
  | .getVersion m => Sys2Proof.Machine.execGetVersion m s
  | .getCapabilities m => Sys2Proof.Machine.execGetCapabilities m s
  | .negotiateAlgorithms m => Sys2Proof.Machine.execNegotiateAlgorithms m s
  | .getDigests m => Sys2Proof.Machine.execGetDigests m s
  | .getCertificate m => Sys2Proof.Machine.execGetCertificate m s
  | .challenge m => Sys2Proof.Machine.execChallenge m s
  | .getMeasurements m => Sys2Proof.Machine.execGetMeasurements m s
  | .frzLAssert => Sys2Proof.Machine.execFrzLAssert s
  | .freezectlWrite v => Sys2Proof.Machine.execFreezectlWrite v s
  | .frzLRelease => Sys2Proof.Machine.execFrzLRelease s
  | .resume => Sys2Proof.Machine.execResume s
  | .writeCombiningSend n => Sys2Proof.Machine.execWriteCombiningSend n s

end Sys2Proof.Machine
end

