-- ==== Sys2Proof/Machine/Fetch.lean ====
section
/-! DEFINITION. Which move a step makes (R314), and where the word or husk that it runs is held: the loaded block of the
running phase (R34, R52), or the buffer of accepted seeds (R250). -/

namespace Sys2Proof.Machine

/-- The move of this step: the first of the chosen ones, else a free choice (log entry 4). -/
def nextMove (s : State) : Move := s.moves.headD (Config.choice s.tick)

/-- The state with its move taken from the list, and one step counted; nothing makes the move wait yet. -/
def takeMove (s : State) : State := { s with moves := s.moves.tail, tick := s.tick + 1, mustWait := false }

/-- Whether the device is frozen (R417): a freeze waits for a change of operating point to finish (Table 26.7). -/
def frozen (s : State) : Bool := (s.freezePin || s.freezeReg) && s.oppointReg == s.oppoint

/-- The events that a frozen device still makes (R417, R418): link housekeeping, and what ends the freeze. -/
def runsFrozen : Instr → Bool
  | .flitIdle _ _ => true
  | .flitReplayRequest _ _ => true
  | .flitLinkControl _ _ => true
  | .frzLAssert => true
  | .frzLRelease => true
  | .resume => true
  | .reset _ => true
  | _ => false

/-- Whether the units that an event names exist (Table 0.1, R53). -/
def eventNamesUnits : Instr → Bool
  | .tokenArrival c slot port => c < 512 && slot < 128 && port < 4
  | .phaseEnd c => c < 512
  | .waitOrphan c => c < 512
  | .memoryResponse c t _ => c < 512 && t < 4
  | .storeDrain c _ => c < 512
  | .l1Evict c _ => c < 512
  | .awaitPoll c t _ => c < 512 && t < 4
  | .awaitTimeout c t _ => c < 512 && t < 4
  | .podFenceComplete sw => sw < 256
  | .cardStart c t k _ => c < 512 && t < 4 && k < 3
  | .cardFault c t k _ => c < 512 && t < 4 && k < 3
  | .cardComplete c t k _ => c < 512 && t < 4 && k < 3
  | .tileTaskTake q => q < 128
  | .powerGrant d => d < 4
  | .forcedGrant d _ => d < 4
  | .pass ch => ch < 384
  | .refreshSlot ch => ch < 384
  | .directSlot ch => ch < 384
  | .riderAdmit _ ch => ch < 384
  | .seedIntake c => c < 512
  | .seedStart c t => c < 512 && t < 4
  | .taskRetire c t => c < 512 && t < 4
  | .recordTake fn q => fn < 1025 && q < 4
  | .sweeplenWrite ch _ => ch < 384
  | .dshrWrite ch _ => ch < 384
  | .trainRequest ch => ch < 384
  | .trainExit ch => ch < 384
  | .trcmdReadTest ch _ => ch < 384
  | .trcmdWriteTest ch _ => ch < 384
  | .trainingTestDone ch _ _ => ch < 384
  | .repairWrite ch _ => ch < 384
  | .ptrootWrite p _ => p < 64
  | .kvPoolWrite p r _ => p < 64 && r < 6
  | .pabudgetWrite d _ => d < 4
  | .sysregWrite b _ _ => b.core < 512 && b.task < 4 && b.part < 64 && b.fn < 1025
  | .lqtailWrite fn q _ => fn < 1025 && q < 4
  | .lqsizeWrite fn q _ => fn < 1025 && q < 4
  | .lqbaseWrite fn q _ => fn < 1025 && q < 4
  | .winbaseWrite fn _ => fn < 1025
  | .winerrClear fn _ => fn < 1025
  | .hostWindowWrite fn _ _ _ => fn < 1025
  | .hostWindowRead fn _ _ => fn < 1025
  | .hostAtomicopRequest fn => fn < 1025
  | .hostCompletionTimeout c t _ => c < 512 && t < 4
  | .msixUnmask fn vec => fn < 1025 && vec < 2048
  | .functionLevelReset fn => fn < 1025
  | .flitData p _ => p < 18
  | .flitIdle p _ => p < 18
  | .flitReplayRequest p _ => p < 18
  | .flitLinkControl p _ => p < 18
  | .portUp p _ _ => p < 18
  | .remoteRequest r => r.pkg < 256
  | _ => true

/-- Whether the units that a move names exist (Table 0.1, R53). -/
def moveNamesUnits : Move → Bool
  | .fire c slot => c < 512 && slot < 128
  | .seed c => c < 512
  | .ev i => eventNamesUnits i
  | .cycle c => c < 512
  | .cardRow c t _ _ => c < 512 && t < 4
  | .idleSlot ch => ch < 384
  | .upset sec _ => sec < 384 * 2 ^ 26
  | .sensor k _ => k < 12
  | .statusWrite _ => true
  | .kvTurn c t _ _ => c < 512 && t < 4
  | .homeWrite _ => true
  | .fill c loc _ => c < 512 && loc < 2 ^ 40
  | .l2Fill _ runs => runs.all fun r => r.1 < 2 ^ 40 && r.2 ≤ 256
  | .l2Drop slice _ => slice < 512
  | .idleFlit p => p < 18
  | .reach p lost => p < 18 && lost.all fun n => n < 256
  | .host fn (.read off _) => fn < 1025 && off < 2 ^ 17
  | .host fn (.write off _ _) => fn < 1025 && off < 2 ^ 17
  | .host fn _ => fn < 1025
  | .bootCheck => true

/-- The word that the running phase of a core holds in a slot (R60). -/
def fetchWord (s : State) (c slot : Nat) : Option Word64 :=
  let core := s.core c
  core.running.bind fun t => (tabFind core.tasks t).bind fun task => task.phase.bind fun ph => ph.words[slot]?

/-- The husk at the head of the running task's buffer, where a seed executes (R252). -/
def fetchHusk (s : State) (c : Nat) : Option (BitVec 128) :=
  let core := s.core c
  core.running.bind fun t => (tabFind core.tasks t).bind fun task => if task.seed.running then (seedHead task).map SeedBuf.husk else none

/-- Whether a step of the table is an event: neither a block instruction nor a seed. -/
def isEvent (i : Instr) : Bool := match i.fields with
  | .event => true
  | _ => false

/-! Placing one instruction where the next step fetches it. -/

/-- The first slot of the class of an opcode (R61). -/
def firstSlot (op : Nat) : Nat :=
  match opClass op with
  | 0 => 0 | 1 => 96 | 2 => 112 | 3 => 120 | n => 120 + n

/-- A token with every lane valid and zero. -/
def zeroToken : Token := ⟨0, 0xFFFF#16, false⟩

/-- A bare task of job 0. -/
def bareTask : Task :=
  { job := 0, rank := 0, part := 0, fn := 0, sys := true, prio := 0, st := .running, pc := 0,
    b := List.replicate 16 0 }

/-- A phase of one iteration that holds one word in a slot, each port of its node holding a token. -/
def barePhase (slot : Nat) (x : Word64) : Phase :=
  { addr := 0, hdr := 0, words := (List.replicate 128 (0 : Word64)).set slot x, n := 1, starts := List.replicate 16 0, num := 1, handler := false,
    nodes := [(slot, { qa := [zeroToken], qb := [zeroToken], qc := [zeroToken], qp := [zeroToken] })] }

/-- A word in the running phase of core 0, and the move that fires it; nothing has fired in the cycle (R291), and no freeze is in force. -/
def placeWord (s : State) (x : Word64) : State :=
  let slot := firstSlot (wordOp x)
  let s := s.setTask 0 0 { bareTask with phase := some (barePhase slot x), phases := 1 }
  { s.setCore 0 { s.core 0 with running := some 0, firedNow := [] } with moves := [.fire 0 slot], freezePin := false, freezeReg := false }

/-- A husk at the head of the running task's buffer on core 0, with no seed at the intake, and the move that executes it; no
freeze is in force. -/
def placeHusk (s : State) (x : BitVec 128) : State :=
  let b : SeedBuf := ⟨0, x, [], 0, 0, false⟩
  let s := s.setTask 0 0 { bareTask with phases := 1, seed := { joined := true, running := true, leave := true, buf := [b] } }
  { s.setCore 0 { s.core 0 with running := some 0, seedIn := [] } with moves := [.seed 0], freezePin := false, freezeReg := false }

end Sys2Proof.Machine
end

