-- ==== Sys2Proof/Machine/Arbiter.lean ====
section
/-! DEFINITION. What is decided among the moves of one cycle: which of several ready firings takes a shared router path
(R30, R32), which of several faults of a task is taken (R334, Table 16.5), the stall counters (R33), and one cycle of a
core's clock with the events that meet in it (R47, R54). -/

namespace Sys2Proof.Machine

/-- What the node of a slot would do if it fired now. -/
def fireOutcome (s : State) (c slot : Nat) : Option State :=
  (fetchWord s c slot).bind fun x => (decode x).toOption.bind fun i => match exec i { s with focus := (c, slot) } with
    | .next t => some t
    | _ => none

/-- The task that holds a core's fabric, as it stands in a state. -/
def holder (s : State) (c : Nat) (t : State) : Option Task := (s.core c).running.bind fun k => t.task? c k

/-- Whether the node of a slot is ready: its firing, or its fault, would change the task now (R30, R32). -/
def readyNow (s : State) (c slot : Nat) : Bool := (fireOutcome s c slot).any fun t => holder s c t != holder s c s

/-- Whether the task that holds a core's fabric takes a fault or trap on the way from one state to another. -/
def holderFaults (s : State) (c : Nat) (t : State) : Bool :=
  match holder s c s, holder s c t with
  | some a, some b => b.frec != a.frec || (b.st == .trapped && a.st != .trapped)
  | some _, none => true
  | _, _ => false

/-- Whether the node's firing would fault or trap now. -/
def faultsNow (s : State) (c slot : Nat) : Bool := (fireOutcome s c slot).any fun t => holderFaults s c t

/-- Whether the seed at the head of a core's buffer would fault if it were executed now. -/
def seedFaultsNow (s : State) (c : Nat) : Bool :=
  ((fetchHusk s c).bind fun x => (decodeHusk x).toOption).any fun i => match exec i { s with focus := (c, 0) } with
    | .next t => holderFaults s c t
    | _ => false

/-- The running phase of a core. -/
def runningPhase (s : State) (c : Nat) : Option Phase := (holder s c s).bind Task.phase

/-- The router paths of a node's firing: chain wires take none (R64; log entry 101). -/
def routerPaths (ph : Phase) (slot : Nat) : List Nat :=
  ((wTargets (wordAt ph slot)).filter fun t => !isChain slot t).map fun t => Config.routerPath slot t

/-- Whether slot a's next firing goes before slot b's: the lower iteration, of equals the lower slot (R32, R334). -/
def firesBefore (ph : Phase) (a b : Nat) : Bool :=
  let x := (nodeOf ph a).iter
  let y := (nodeOf ph b).iter
  x < y || (x == y && a < b)

/-- Whether a firing loses arbitration: another ready firing that uses a router path of its goes first (R30, R32). -/
def losesPath (s : State) (c slot : Nat) : Bool :=
  (runningPhase s c).any fun ph => (blockSlots ph.words).any fun x =>
    x.1 != slot && firesBefore ph x.1 slot && ((routerPaths ph slot).any fun p => (routerPaths ph x.1).contains p) && readyNow s c x.1

/-- Whether iteration and slot (i, a) come before (j, b) (R334). -/
def earlierFiring (i a j b : Nat) : Bool := i < j || (i == j && a < b)

/-- The accesses of the running phase whose response would fault now, and its kv transactions that would, by iteration and slot. -/
def respFaults (s : State) (c : Nat) : List (Nat × Nat) :=
  match (s.core c).running, runningPhase s c with
  | some t, some ph => ph.accs.flatMap fun e => (List.range e.2.length).flatMap fun i =>
      let a := e.2.getD i default
      let n := fun (p : Nat) => (e.1 - 96) * 2048 + i * 32 + p
      if (List.range (max 1 a.pieces.length)).any fun p => holderFaults s c (memoryResponse c t (n p) s) then [(a.iter, e.1)] else []
    ++ (List.range ph.kvReqs.length).flatMap fun n =>
      if holderFaults s c (kvMove c t false n s) then (ph.kvReqs[n]?).toList.map fun q => (q.iter, 126) else []
  | _, _ => []

/-- Whether a fault of iteration and slot (i, b) yields to that of another firing of the phase, or of the access of one, of lower iteration
or slot (R334). -/
def faultYields (s : State) (c i b : Nat) : Bool :=
  ((runningPhase s c).any fun ph => (blockSlots ph.words).any fun x => earlierFiring (nodeOf ph x.1).iter x.1 i b && faultsNow s c x.1) ||
    (respFaults s c).any fun x => earlierFiring x.1 x.2 i b

/-- Whether a node's fault yields. -/
def yieldsFault (s : State) (c slot : Nat) : Bool :=
  faultsNow s c slot && (runningPhase s c).any fun ph => faultYields s c (nodeOf ph slot).iter slot

/-- Whether the fault of a response yields. -/
def responseYields (s : State) (c t n : Nat) : Bool :=
  (s.core c).running == some t && holderFaults s c (memoryResponse c t n s) &&
    (accFind s (accRef c t n)).any fun x => faultYields s c x.2.iter (accRef c t n).slot

/-- Whether the fault of a kv transaction yields. -/
def kvYields (s : State) (c t : Nat) (heldP : Bool) (n : Nat) : Bool :=
  (s.core c).running == some t && !heldP && holderFaults s c (kvMove c t heldP n s) &&
    (runningPhase s c).any fun ph => (ph.kvReqs[n]?).any fun q => faultYields s c q.iter 126

/-- Whether some node of the phase that a task runs, or the response to an access of one, would fault now. -/
def nodeFaultDue (s : State) (c t : Nat) : Bool :=
  (s.core c).running == some t && (((runningPhase s c).any fun ph => (blockSlots ph.words).any fun x => faultsNow s c x.1) || !(respFaults s c).isEmpty)

/-- Whether the fault of a card yields: to a node's, or to that of a card of a lower chain or number (R334). -/
def cardFaultYields (s : State) (c t chain seq : Nat) : Bool :=
  nodeFaultDue s c t || (s.task? c t).any fun task => match pendingCardFault task with
    | some (k, n) => k < chain || (k == chain && n < seq)
    | none => false

/-- Whether the faults of a core's seed intake yield to those of its cards (R334). -/
def intakeYields (s : State) (c : Nat) : Bool :=
  (s.core c).tasks.any fun e => e.2.seed.joined && (pendingCardFault e.2).isSome && e.2.st != .trapped

/-- Whether the fault of the seed that a core would execute yields to that of a card of its task (R334). -/
def seedYields (s : State) (c : Nat) : Bool := (holder s c s).any (fun task => (pendingCardFault task).isSome) && seedFaultsNow s c

/-- Whether a card of one chain waits for that of another that its task issues in the same cycle: chain 0 comes before chain 2 in card order
(R291, Table 14.11). -/
def cardWaits (s : State) (c slot : Nat) : Bool :=
  (slot == 126 && !(s.core c).firedNow.contains 124 && readyNow s c 124 && !losesPath s c 124) || (slot == 124 && (s.core c).firedNow.contains 126)

/-- The writes that nothing makes before a configuration block is accepted: those of system software's registers, and of BAR0
registers that are not assigned until then (R411, R415, R416). -/
def needsRunning : Instr → Bool
  | .sweeplenWrite _ _ => true
  | .dshrWrite _ _ => true
  | .trainRequest _ => true
  | .trainExit _ => true
  | .trcmdReadTest _ _ => true
  | .trcmdWriteTest _ _ => true
  | .repairWrite _ _ => true
  | .ptrootWrite _ _ => true
  | .kvPoolWrite _ _ _ => true
  | .pabudgetWrite _ _ => true
  | .oppointWrite _ => true
  | .freezectlWrite _ => true
  | .sysregWrite _ _ _ => true
  | .winerrClear _ _ => true
  | .msixUnmask _ _ => true
  | _ => false

/-- The moves that requests of the host and of the pod make: a freeze holds them until it ends (R417). -/
def heldInFreeze : Move → Bool
  | .host _ _ => true
  | .ev (.winbaseWrite _ _) => true
  | .ev (.winerrClear _ _) => true
  | .ev (.hostWindowWrite _ _ _ _) => true
  | .ev (.hostWindowRead _ _ _) => true
  | .ev (.hostAtomicopRequest _) => true
  | .ev (.msixUnmask _ _) => true
  | .ev (.functionLevelReset _) => true
  | .ev .vfEnableClear => true
  | .ev (.lqtailWrite _ _ _) => true
  | .ev (.lqsizeWrite _ _ _) => true
  | .ev (.lqbaseWrite _ _ _) => true
  | .ev (.remoteRequest _) => true
  | .ev (.flitData _ _) => true
  | .ev (.bootcmdImage _) => true
  | .ev (.bootcmdConfig _) => true
  | .ev (.getVersion _) => true
  | .ev (.getCapabilities _) => true
  | .ev (.negotiateAlgorithms _) => true
  | .ev (.getDigests _) => true
  | .ev (.getCertificate _) => true
  | .ev (.challenge _) => true
  | .ev (.getMeasurements _) => true
  | _ => false

/-- Whether a move can be made now: every clock of a frozen device stands, idle flits apart (R417), a firing that loses a router path waits
(R32), the cards that one core issues in a cycle go by chain (R291), a fault that yields is not taken (R334), the intake judges the lines that have reached a core before a seed commits there and
before the cycle ends (Table 12.8), a request for leave that has waited GRANTMAX cycles is granted before the next (R393), and no
software writes a register before a configuration block is accepted (R411). -/
def moveAllowed (s : State) : Move → Bool
  | .seed c => !frozen s && (s.core c).seedIn.isEmpty && !seedYields s c
  | .cycle c => !frozen s && (s.core c).seedIn.isEmpty && !leaveDue s c
  | .fire c slot => !frozen s && !losesPath s c slot && !cardWaits s c slot && !yieldsFault s c slot
  | .ev (.memoryResponse c t n) => !frozen s && !responseYields s c t n
  | .ev (.cardFault c t chain seq) => !frozen s && !cardFaultYields s c t chain seq
  | .ev (.seedIntake c) => !frozen s && !intakeYields s c
  | .ev i => (!frozen s || runsFrozen i) && (s.boot == .running || !needsRunning i)
  | .kvTurn c t heldP n => !frozen s && !kvYields s c t heldP n
  | .idleFlit _ => true
  | _ => !frozen s

/-! The stall counters (R33). -/

/-- Whether a node awaits a response to an earlier firing. -/
def awaitsResponse (ph : Phase) (slot : Nat) : Bool := !(accsOf ph slot).isEmpty || !(owedOf ph slot).isEmpty

/-- A stall counter of Table 2.2 one up, saturating; i counts from ARBWAIT. -/
def bumpStall (x : Word64) (i : Nat) : Word64 :=
  if (x.toNat / 2 ^ (16 * i)) % 65536 = 65535 then x else BitVec.ofNat 64 (x.toNat + 2 ^ (16 * i))

/-- Whether the first firing of a codec's group still lacks tokens of the group (R143). -/
def groupLacks (ph : Phase) (slot : Nat) : Bool :=
  let x := wordAt ph slot
  let nd := nodeOf ph slot
  (wordOp x == 0x56 || wordOp x == 0x57) && nd.iter % 4 == 0 && (groupInputs (wPm x) nd (min 4 (phaseEnd ph - nd.iter))).isNone

/-- The first reason of R33 that holds for a node that does not fire: its place among the counters. Operand 3: a port, or a
circular buffer read (R158), lacks its token; space 2: a target, or a circular buffer written (R158), has none; response 1: it
awaits one, or what an earlier firing or rider holds (R218, R303); arbitration 0. A node that nothing but an unfired gate brk (R176) holds, or
an ordered buffer instruction whose turn alone has not come (R72), meets none of them as written (DESIGN CHOICE, log entry 123). -/
def stallReason (s : State) (c : Nat) (ph : Phase) (slot : Nat) : Nat :=
  let nd := nodeOf ph slot
  let hold := cbHolds (s.core c) (wordAt ph slot) nd
  if ((neededPorts ph slot).any fun p => (portQ nd p).isEmpty) || groupLacks ph slot || hold == some 3 then 3
  else if !haveSpace ph slot || hold == some 2 then 2
  else if awaitsResponse ph slot || ((slotClass slot == 1 || 4 ≤ slotClass slot) && !readyNow s c slot) then 1
  else 0

/-- The counters of the nodes that have an iteration still to fire and did not fire in the cycle (R33). -/
def countStalls (s : State) (c : Nat) (ph : Phase) : Phase :=
  (blockSlots ph.words).foldl (fun p x =>
    let nd := nodeOf p x.1
    if phaseEnd ph ≤ nd.iter || (s.core c).firedNow.contains x.1 then p
    else setNode p x.1 { nd with stall := bumpStall nd.stall (stallReason s c ph x.1) }) ph

/-- A card's generators in a cycle: where it has rows still to do and made none, each generator's counters advance: one that waits for the
lines of its reader, or for its deposit, counts RESPWAIT, another ARBWAIT (R33, R207; DESIGN CHOICE, log entry 109: the spec gives the
reasons for nodes alone). -/
def tickCard (k : Card) : Card :=
  let reason := fun (g : Nat) => if (g == 0 && k.ticket.isSome) || (g == 2 && k.deposit.isSome) then 1 else 0
  if k.st == .started && !k.rowed then
    { k with stalls := [0, 1, 2].foldl (fun m g => tabSet 0 m g (bumpStall (tabGet 0 m g) (reason g))) k.stalls }
  else { k with rowed := false }

def tickCards (core : Core) : Core :=
  { core with tasks := core.tasks.map fun x => (x.1, { x.2 with chains := x.2.chains.map fun e => (e.1, { e.2 with cards := e.2.cards.map tickCard }) }) }

/-- The length of a compute cycle at an operating point, in 408ths of a cycle of 2.1 GHz (Table 26.4). -/
def cycleLength (point : Nat) : Nat := if point = 0 then 504 else if point = 1 then 408 else 357

/-! One cycle of a core. -/

/-- The phase end that meets a request to cut its gang is made before the cut (Table 2.12). -/
def endBeforeCut (s : State) (c : Nat) : State :=
  if (holder s c s).any fun task => cutWaits s task && task.phase.any phaseDone then phaseEndMove c s else s

/-- A fault that waits for a task which runs no handler and is not being cut is taken (log entry 118). -/
def takeLate (s : State) (c t : Nat) : State :=
  match s.task? c t with
  | some task => if task.cutting || task.st == .trapped || task.deferred.isEmpty then s else takeDeferred s c t
  | none => s

/-- Every task of a core tries again what it could not board (R239, R263), and takes a fault that waits for it. -/
def retryAll (s : State) (c : Nat) : State := (s.core c).tasks.foldl (fun s e => takeLate (retryBoards s c e.1) c e.1) s

/-- A cycle of the compute clock on a core: the cycle counter, the stall counters, the count of R47, and the pick of a free
fabric (R41). The count restarts where a firing was made in the cycle or an item was outstanding in it (R47). What a resumed
task could not board again for want of room is tried again, and the cuts asked for in the cycle begin (R340). A wait of the running
task at a pod barrier that no path reaches takes its fault (R408). -/
def cycleMove (c : Nat) (s : State) : State :=
  let core := s.core c
  let next := tickCards { core with
    cycles := core.cycles + 1
    refTime := core.refTime + cycleLength s.oppoint
    firedNow := []
    faultNow := []
    wasOut := false
    bufs := core.bufs.map fun e => (e.1, e.2.settle)
    tasks := core.tasks.map fun e => (e.1, { e.2 with seed := { e.2.seed with turned := false } }) }
  match core.running.bind fun t => (tabFind core.tasks t).map fun x => (t, x) with
  | none => pick (retryAll (beginCuts (s.setCore c next) c) c) c
  | some (t, task) =>
    if task.cutting then retryAll (s.setCore c next) c
    else
      let task := (tabFind next.tasks t).getD task
      let task' := { task with phase := task.phase.map fun ph => countStalls s c ph }
      let out := outstanding s c task
      let n := if out || core.wasOut || !core.firedNow.isEmpty then 0 else core.orphan + 1
      let s := s.setCore c { next with orphan := n, wasOut := out, tasks := tabPut next.tasks t task' }
      pick (podWaitFault (retryAll (beginCuts (endBeforeCut s c) c) c) c t) c

end Sys2Proof.Machine
end

