-- ==== Sys2Proof/Machine/Step.lean ====
section
/-! DEFINITION. One step of the machine: the move that comes next (R314), with its instruction fetched and decoded. -/

namespace Sys2Proof.Machine

/-- The instruction of a fetched word or husk runs at the node or core in focus. -/
def runFetched (s : State) (focus : Nat × Nat) : Option Instr → Host.Outcome State Fault Refusal
  | some i => exec i { s with focus := focus }
  | none => .fault .noInstruction

/-- A move that meets something it has to wait for is not made (R356, R367, R330; log entry 117). -/
def unlessWaiting (s : State) : Host.Outcome State Fault Refusal → Host.Outcome State Fault Refusal
  | .next u => if u.mustWait then .next s else .next u
  | o => o

/-- What a move does where it can be made. -/
def makeMove (s : State) : Move → Host.Outcome State Fault Refusal
  | .fire c slot => (match fetchWord s c slot with
    | some x => runFetched s (c, slot) (decode x).toOption
    | none => .next s)
  | .seed c => (match fetchHusk s c with
    | some x => runFetched s (c, 0) (decodeHusk x).toOption
    | none => .next s)
  | .ev i => runFetched s s.focus (if isEvent i then some i else none)
  | .cycle c => .next (cycleMove c s)
  | .cardRow c t chain seq => .next (cardRowMove c t chain seq s)
  | .idleSlot ch => .next (idleMove ch s)
  | .upset sec corrected => .next (upsetMove sec corrected s)
  | .sensor k temp => .next (sensorMove k temp s)
  | .statusWrite n => .next (statusMove n s)
  | .kvTurn c t held n => .next (kvMove c t held n s)
  | .homeWrite n => .next (homeWriteMove n s)
  | .fill c loc plain => .next (fillMove c loc plain s)
  | .l2Fill tag runs => .next (l2FillMove tag runs s)
  | .l2Drop slice n => .next (l2DropMove slice n s)
  | .idleFlit p => .next (idleFlitMove p s)
  | .reach p lost => .next (reachMove p lost s)
  | .host fn r => .next (hostMove fn r s)
  | .bootCheck => .next (bootCheckMove s)

/-- One step: a move that can not be made now leaves the rest of the state as it is; a request of the host or of the pod is held while the
device is frozen (R417). -/
def step (s : State) : Host.Outcome State Fault Refusal :=
  let m := nextMove s
  let s := takeMove s
  if !moveNamesUnits m then .fault .noSuchUnit
  else if frozen s && heldInFreeze m then .next { s with heldMoves := s.heldMoves ++ [m] }
  else if !moveAllowed s m then .next s
  else unlessWaiting s (makeMove s m)

/-- The state with one instruction placed where the next step fetches it: a word of up to 64 bits in the running phase of
core 0, a husk of up to 128 bits in the buffer of its running task (log entry 11). -/
def State.withFetchWord (s : State) (nbits w : Nat) : State :=
  if nbits ≤ 64 then placeWord s (BitVec.ofNat 64 w) else placeHusk s (BitVec.ofNat 128 w)

end Sys2Proof.Machine
end

