-- ==== Sys2Proof/Safety.lean ====
section
/-! DEFINITION. What a safe run is, and the terms in which the statements say what a step changes and what it leaves:
the bytes of memory, one core, one task, and the tokens in flight in a phase. -/

namespace Sys2Proof.Machine

/-- A state whose memory list is in canonical form. -/
def State.Ok (s : State) : Prop := Memory.wf s.mem = true

/-- A step that goes on. -/
def goesOn (o : Host.Outcome State Fault Refusal) : Prop := ∃ s, o = .next s

/-- A run of k steps that meets no stop and stays in canonical form. -/
def SafeRun : Nat → State → Prop
  | 0, s => s.Ok
  | k + 1, s => s.Ok ∧ ∃ t, step s = .next t ∧ SafeRun k t

/-- The byte of memory at a key (log entry 3). -/
def State.byte (s : State) (a : Nat) : Byte := memByte s.mem a

/-- From s to t n bytes are written at a key under a reading: there they are as f gives them, and no other byte changes but in 16-byte
blocks that they share, which are enciphered anew where they stood under another reading (R365). -/
def bytesWritten (s t : State) (view key n : Nat) (f : Nat → Byte) : Prop :=
  (∀ a, key ≤ a → a < key + n → t.byte a = f (a - key)) ∧
  (∀ a, a / 16 < key / 16 ∨ (key + n - 1) / 16 < a / 16 → t.byte a = s.byte a) ∧
  (view = 0 ∨ (∀ b ∈ blocksOf key n, ∀ v, tabFind s.views b = some v → v = view) → ∀ a, a < key ∨ key + n ≤ a → t.byte a = s.byte a)

/-- Every byte of memory, every poison bit and latent error, and the key each block stands under, is as before. -/
def sameMemory (s t : State) : Prop := (∀ a, t.byte a = s.byte a) ∧ t.poison = s.poison ∧ t.latent = s.latent ∧ t.views = s.views

/-- Of the whole state only core c differs. -/
def onlyCore (c : Nat) (s t : State) : Prop := t = { s with cores := t.cores } ∧ ∀ d, d ≠ c → t.core d = s.core d

/-- Of core c only slot k's task and the core's counts of firings (R33, R47) differ: its channels, descriptors, records,
accumulator rows, L1, pending stores and counters are as before, and so is every other task. -/
def onlyTask (c k : Nat) (s t : State) : Prop :=
  onlyCore c s t ∧
  t.core c = { s.core c with tasks := (t.core c).tasks, orphan := (t.core c).orphan, firedNow := (t.core c).firedNow } ∧
  ∀ j, j ≠ k → t.task? c j = s.task? c j

/-- The tokens in flight to a target: those queued at its port, then those on its wire (R31). -/
def inFlight (ph : Phase) (tgt : Nat) : List Token := portQ (nodeOf ph (tgt / 4)) (tgt % 4) ++ tabGet [] ph.wires tgt

/-- A node but for its port queues. -/
def Node.rest (nd : Node) : Node := { nd with qa := [], qb := [], qc := [], qp := [] }

/-- From ph to ph' the node of a slot took one token from each of the ports and then sent tokens, in order, to targets:
every other token in flight, and every other node but for its queues, is as before (R30, R31, R64). -/
def movesTokens (slot : Nat) (ports : List Nat) (sent : List (Nat × Token)) (ph ph' : Phase) : Prop :=
  (∀ tgt, inFlight ph' tgt = (if tgt / 4 = slot ∧ tgt % 4 ∈ ports then (inFlight ph tgt).tail else inFlight ph tgt) ++
    (sent.filter fun x => x.1 == tgt && x.1 != noTarget).map Prod.snd) ∧
  ∀ n, n ≠ slot → (nodeOf ph' n).rest = (nodeOf ph n).rest

/-- From s to t the node in focus fired once: the task's phase is ph', its firing is counted, its status takes fl, and
nothing else of the machine differs (R28, R30, R51). -/
structure FiredOnce (f : Foc) (fl : Flags) (s t : State) (ph' : Phase) : Prop where
  frame : onlyTask f.c f.t s t
  memory : sameMemory s t
  idle : (t.core f.c).orphan = 0
  once : (t.core f.c).firedNow = f.slot :: (s.core f.c).firedNow
  task : t.task? f.c f.t = some { f.task with phase := some ph', firings := f.task.firings + 1, fpstat := f.task.fpstat ||| fl }

/-- A token elementwise: valid elements of type t by r, every other element zero, mask m (R28, R99). -/
def holdsElems (x : Token) (t : Nat) (m : BitVec 16) (r : Nat → Nat) : Prop :=
  x.null = false ∧ x.mask = m ∧ ∀ e, e < elemsPerToken t → x.elem t e = if elemValid t m e then r e else 0

/-- From ph to ph' the node in focus fired its iteration with the tokens of these ports and sent these tokens: nothing of
the phase but tokens in flight and that node's iteration differs. -/
def nodeFired (f : Foc) (ports : List Nat) (sent : List (Nat × Token)) (ph' : Phase) : Prop :=
  ph' = { f.ph with nodes := ph'.nodes, wires := ph'.wires } ∧ movesTokens f.slot ports sent f.ph ph' ∧
  (nodeOf ph' f.slot).rest = { f.nd with iter := f.nd.iter + 1 }.rest

/-- A stage instruction can fire at the node in focus: its iteration is allowed, ops are the tokens that wait at its
ports, and its targets have space (R30). -/
def stageReady (i : Instr) (w : StageW) (s : State) (f : Foc) (ops : List (Nat × Token)) : Prop :=
  foc? s = some f ∧ readyOps f (withPred w.pm.toNat (stageNeeds i.op w)) = some ops

/-- The stage instructions that send tokens at every firing, with one word: all of 06 and 07 but wrb and the codec. -/
def stageForms (w : StageW) : List Instr :=
  [.vadd w, .vsub w, .vaddsat w, .vsubsat w, .vmul w, .vmulhi w, .vmad w, .vneg w, .vabs w, .vmin w, .vmax w, .vand w, .vor w, .vxor w,
    .vandn w, .vshl w, .vshr w, .vsra w, .vrotl w, .vclz w, .vpopc w, .vcmp w, .vsel w, .vext w, .vbfx w, .vbfi w, .const w, .dup w, .rdb w,
    .itr w, .lidx w, .mkpred w, .nul w, .lred w, .lscan w, .lbcast w, .lshift w, .lperm w, .lpack w, .lcount w] ++
  [.fadd w, .fsub w, .fmul w, .fma w, .fnma w, .fmin w, .fmax w, .fabs w, .fneg w, .fcpsgn w, .fcmp w, .fclass w, .frnd w, .fscaleb w,
    .fgetexp w, .fgetman w, .frcp w, .frsq w, .fsqrt w, .fexp2 w, .flog2 w, .ftanh w, .fsin w, .fcos w, .fsigm w, .smref w, .smexp w, .cvt w,
    .cvti w, .cvtf w, .blkpack w, .blkunpack w, .blkscale w]

/-- What a stage reads: the tokens of a, b (or the immediate in its place), c, the iteration and the start value of the
register that AUX names (R35, R69). -/
def stageReads (w : StageW) (f : Foc) (ops : List (Nat × Token)) : StageIn :=
  { a := tokAt ops 0
    b := if w.bimm = 1#1 then immToken w.ty.toNat w.imm else tokAt ops 1
    c := tokAt ops 2
    iter := f.nd.iter
    reg := f.ph.starts.getD (w.aux.toNat % 16) 0 }

/-- The instruction runs from s: its node fires once, raising fl, taking the tokens of its ports and sending x to
target 0 and y to target 1. -/
def stageSends (i : Instr) (w : StageW) (s : State) (f : Foc) (x y : Token) (fl : Flags) : Prop :=
  ∃ t ph, exec i s = .next t ∧ FiredOnce f fl s t ph ∧
    nodeFired f (withPred w.pm.toNat (stageNeeds i.op w)) [(w.t0.toNat, x), (w.t1.toNat, y)] ph

/-- The status that the elements of valid lanes raise together (R28, R51). -/
def raised (t : Nat) (m : BitVec 16) (g : Nat → Flags) : Flags :=
  (List.range (elemsPerToken t)).foldl (fun a e => a ||| if elemValid t m e then g e else 0) 0

/-- The firing in focus takes the floating-point trap instead (R103): FPSTAT takes fl, and DETAIL says which enabled bits
were raised. -/
def stageTraps (i : Instr) (s : State) (f : Foc) (fl : Flags) : Prop :=
  exec i s = .next (nodeFault (raiseFlags s f.c f.t fl) f { cls := 0x0C, detail := (f.task.fpen &&& fl).toNat })

/-- Wherever a stage instruction can fire on operands that are not null: where none of the status it raises is enabled in
FPEN, it sends one token to both targets, valid where the tokens of srcs all are (R28), each element of TYPE by r, which
gives the status the element raises beside it; where some is enabled, it traps. -/
def stageYields (i : Instr) (w : StageW) (srcs : StageIn → List Token) (r : StageIn → Nat → Nat × Flags) : Prop :=
  ∀ s f ops, stageReady i w s f ops → actsNull w.pm.toNat ops = false →
    let x := stageReads w f ops
    let m := resultMask w.ty.toNat (srcs x)
    let fl := raised w.ty.toNat m fun e => (r x e).2
    (trapsOn f.task.fpen fl = false → ∃ y, stageSends i w s f y y fl ∧ holdsElems y w.ty.toNat m fun e => (r x e).1) ∧
    (trapsOn f.task.fpen fl = true → stageTraps i s f fl)

/-- An element rule that raises no status (R110). -/
def quietly (g : StageIn → Nat → Nat) (x : StageIn) (e : Nat) : Nat × Flags := (g x e, 0)

/-- Wherever a stage instruction can fire on operands that are not null it sends one token, of which P holds, to both
targets and raises no status. -/
def stageGives (i : Instr) (w : StageW) (P : StageIn → Token → Prop) : Prop :=
  ∀ s f ops, stageReady i w s f ops → actsNull w.pm.toNat ops = false → ∃ y, stageSends i w s f y y 0 ∧ P (stageReads w f ops) y

/-- The lanes of a token: lane l valid where ok says so and then v l, zero and not valid elsewhere (R28). -/
def holdsLanes (y : Token) (ok : Nat → Bool) (v : Nat → Nat) : Prop :=
  y.null = false ∧ ∀ l, l < 16 → maskBit y.mask l = ok l ∧ y.lane l = if ok l then v l else 0

/-- The elements of type t that lie in valid lanes, by rising index below n. -/
def validBelow (t : Nat) (x : Token) (n : Nat) : List Nat :=
  (List.range n).filterMap fun e => if elemValid t x.mask e then some (x.elem t e) else none

/-- A list combined strictly from left to right, with the status of all its steps; ident where it is empty (R121). -/
def combChain (f : Nat → Nat → Nat × Flags) (ident : Nat) : List Nat → Nat × Flags
  | [] => (ident, 0)
  | v :: rest => rest.foldl (fun acc x => ((f acc.1 x).1, acc.2 ||| (f acc.1 x).2)) (v, 0)

/-- One round of R120: neighbours combined, an unpaired last one carried. -/
def combPairs (f : Nat → Nat → Nat × Flags) : List Nat → List Nat × Flags
  | a :: b :: rest => ((f a b).1 :: (combPairs f rest).1, (f a b).2 ||| (combPairs f rest).2)
  | xs => (xs, 0)

/-- Rounds of R120, with the status of all of them. -/
def combRounds (f : Nat → Nat → Nat × Flags) : Nat → List Nat × Flags → List Nat × Flags
  | 0, v => v
  | n + 1, v => combRounds f n ((combPairs f v.1).1, v.2 ||| (combPairs f v.1).2)

/-- The node in focus can fire: ops are the tokens that wait at its ports (R30). -/
def canFire (s : State) (f : Foc) (ports : List Nat) (ops : List (Nat × Token)) : Prop :=
  foc? s = some f ∧ readyOps f ports = some ops

/-- A node's firing that sends tokens and leaves the rest of its own state as nd, but for its queues. -/
def firesTo (i : Instr) (s : State) (f : Foc) (ports : List Nat) (sent : List (Nat × Token)) (nd : Node) : Prop :=
  ∃ t ph, exec i s = .next t ∧ FiredOnce f 0 s t ph ∧ ph = { f.ph with nodes := ph.nodes, wires := ph.wires } ∧
    movesTokens f.slot ports sent f.ph ph ∧ (nodeOf ph f.slot).rest = nd.rest

/-- A node's firing that sends nothing and, beside taking its operands, changes the phase by g alone. -/
def firesWith (i : Instr) (s : State) (f : Foc) (ports : List Nat) (g : Phase → Phase) : Prop :=
  ∃ t ph, exec i s = .next t ∧ FiredOnce f 0 s t (g ph) ∧ nodeFired f ports [] ph

/-- A control point fires: x01 to its targets 0 and 1, x23 to targets 2 and 3, and keeps v (R170, R187). -/
def cpSends (i : Instr) (w : CpW) (s : State) (f : Foc) (ports : List Nat) (x01 x23 v : Token) : Prop :=
  firesTo i s f ports [(w.t0.toNat, x01), (w.t1.toNat, x01), (w.t2.toNat, x23), (w.t3.toNat, x23)]
    { f.nd with iter := f.nd.iter + 1, value := v }

/-- From u to t the node in focus fired once and raised no status: its task is as given but that its phase is ph' and its
firing is counted, and nothing else of the machine differs (R30). -/
structure FiredFrom (u : State) (f : Foc) (task : Task) (t : State) (ph' : Phase) : Prop where
  frame : onlyTask f.c f.t u t
  memory : sameMemory u t
  idle : (t.core f.c).orphan = 0
  once : (t.core f.c).firedNow = f.slot :: (u.core f.c).firedNow
  task : t.task? f.c f.t = some { task with phase := some ph', firings := task.firings + 1 }

/-- A node's firing that sends nothing at once and, beside taking its operands, changes the phase by g alone, and the
machine from s to u. -/
def firesFrom (i : Instr) (s u : State) (f : Foc) (ports : List Nat) (g : Phase → Phase) : Prop :=
  ∃ t ph, exec i s = .next t ∧ FiredFrom u f f.task t (g ph) ∧ nodeFired f ports [] ph

/-- The memory element in focus can fire: ops are the tokens that wait at its ports, the optional trigger among them where
some target names it (R30, R147). -/
def memReady (s : State) (f : Foc) (w : MemW) (ops : List (Nat × Token)) : Prop :=
  foc? s = some f ∧ readyMem f (memPorts f.ph f.slot w.pm.toNat) = some ops

/-- A quad's TLB maps no address of a partition twice. -/
def mapsOnce (q : Quad) (part : Nat) : Prop :=
  ∀ a ∈ q.tlb, ∀ b ∈ q.tlb, ∀ va, a.hits part va = true → b.hits part va = true → a = b

/-- The key of an address that a TLB entry maps (R374, R404). -/
def TlbEntry.key (t : TlbEntry) (s : State) (va : Nat) : Nat := leafKey (s.partn t.part).podpart t.leaf (t.base + (va - t.va))

/-- Translation is enabled (R371), and the n bytes from an address lie in the page of a TLB entry of the quad, each passing the checks 4 to 7 of Table 8.11. -/
def mappedBy (s : State) (quad part : Nat) (nd : Need) (va n : Nat) (t : TlbEntry) : Prop :=
  peBit (s.partn part).ptroot 0 = true ∧
  t ∈ (s.quad quad).tlb ∧ t.part = part ∧ t.va ≤ va ∧ va + n ≤ t.va + t.size ∧ va + n ≤ 2 ^ 57 ∧
  ∀ v, va ≤ v → v < va + n → checkLeaf s part nd v ⟨t.key s v, t.leaf, t.va + t.size - v⟩ = none

/-- The phase in which an access has joined those outstanding at a slot; tokens leave that can (R147). -/
def joinAccess (slot : Nat) (a : Access) (ph : Phase) : Phase := flushAll (setAccs ph slot (accsOf ph slot ++ [a])) slot

/-- From s to t an outstanding access becomes a: tokens leave that can (R147), and an acquire that is done has its core's
L1 forget (R317); nothing else differs. -/
def accessBecomes (s : State) (r : AccRef) (a : Access) (t : State) : Prop :=
  onlyCore r.c s t ∧ sameMemory s t ∧ (∀ j, j ≠ r.t → t.task? r.c j = s.task? r.c j) ∧
  t.core r.c = { s.core r.c with
    tasks := (t.core r.c).tasks
    l1 := if a.stage = .done ∧ acquires a.w = true ∧ a.nullA = false ∧ a.w.scope.toNat ≠ 0 then [] else (s.core r.c).l1 } ∧
  ∀ task ph, s.task? r.c r.t = some task → phaseAt task r.heldP = some ph →
    let ph' := flushAll (setAccs ph r.slot ((accsOf ph r.slot).set r.idx a)) r.slot
    t.task? r.c r.t = some (if r.heldP then { task with held := some ph' } else { task with phase := some ph' })

/-- Pushing tokens in turn, each to the address that `cbPushTok` gives it, leaves the buffer b' (R158). -/
def pushesTo (b : CBuf) : List Token → List (Nat × Token) → CBuf → Prop
  | [], [], b' => b' = b
  | x :: xs, (a, y) :: ps, b' => y = x ∧ ∃ b1, cbPushTok b = some (a, b1) ∧ pushesTo b1 xs ps b'
  | _, _, _ => False

/-- The engine-port node in focus can fire: ops are the tokens that wait at its ports (R30, R194). -/
def epReady (s : State) (f : Foc) (ports : List Nat) (ops : List (Nat × Token)) : Prop :=
  foc? s = some f ∧ readyEp f ports = some ops

/-- An engine-port node's firing: the machine has become u and the task `task`, and the node owes its iteration's token, x
where it is known, else the one that will come under the key; tokens leave that can (R147, R194). -/
def epFires (i : Instr) (s u : State) (f : Foc) (task : Task) (ports : List Nat) (key : Nat) (x : Option Token) : Prop :=
  ∃ t ph, exec i s = .next t ∧ nodeFired f ports [] ph ∧ FiredFrom u f task t
    (flushOwed (setOwed ph f.slot (owedOf f.ph f.slot ++ [⟨f.nd.iter, key, x.map fun y => (y, y)⟩])) f.slot)

/-- An engine-port node's firing that gives x to its two targets and, beside it, changes nothing. -/
def epAnswers (i : Instr) (s : State) (f : Foc) (ports : List Nat) (x : Token) : Prop := epFires i s s f f.task ports 0 (some x)

/-- The node in focus takes a fault instead of firing (R336), the machine having become u. -/
def epFaults (i : Instr) (s u : State) (f : Foc) (x : FaultInfo) : Prop := exec i s = .next (nodeFault u f x)

/-- Every store and atomic of a task that a release of a scope waits for, made as it fires, is where that scope asks: of its
own and narrower scopes, the atomics performed, the stores drained, those of the scratchpad at their bank, and those of host memory
performed there; from package scope on its kv transactions are done; at system scope the write-combining buffer and the links are empty too
(R160, R161, R273, R316, R321, R330). -/
def releasedBy (s : State) (c t : Nat) (task : Task) (scope : Nat) : Prop :=
  (∀ ph ∈ task.phase.toList ++ task.held.toList, ∀ e ∈ ph.accs, ∀ a ∈ e.2, notReached false scope a = false) ∧
  (scope ≠ 0 → (∀ p ∈ (s.core c).stores, p.task = t → scope < p.scope) ∧
    ∀ h ∈ s.hostWc ++ s.hostLink, h.job = task.job → h.rank = task.rank → scope < h.scope) ∧
  (3 ≤ scope → ∀ ph ∈ task.phase.toList ++ task.held.toList, ph.kvReqs = []) ∧
  (scope = 5 → s.hostWc = [] ∧ s.hostLink = [])

/-- The seed at the head of the buffer of the core in focus executes, with its raw payload (R251, R252). -/
def seedRuns (s : State) (sop : Nat) (r : SeedRun) : Prop :=
  r.c = s.focus.1 ∧ seedFoc? r.h s = some (r.t, r.task, r.b) ∧ seedPayload s r.c r.b sop r.h = some r.pay

/-- A seed commits in one step (R252): the machine is as e has it but that the seed's slot of buffer 31 is free, the
task ready with e's seed state, registers and status, and the fabric free for the pick at the end of the cycle; it leaves u. -/
def seedCommitted (r : SeedRun) (task : Task) (e : SeedEff) (u : State) : Prop :=
  u = { e.s with cores := u.cores, dies := u.dies } ∧ (∀ d, d ≠ r.c → u.core d = e.s.core d) ∧
    (∀ k, k ≠ r.t → u.task? r.c k = e.s.task? r.c k) ∧
    (let b := bufOf (e.s.core r.c) 31
     let d := b.desc
     let free := b.change (cbWith d (cbFilled d - 1) (cbFree d + 1) ((cbRdSlot d + 1) % cbSlots d) 0 (cbWrSlot d) (cbWrTok d)) b.claims
     u.core r.c = { e.s.core r.c with
      tasks := (u.core r.c).tasks
      running := none
      bufs := if r.b.freed then (e.s.core r.c).bufs else tabPut (e.s.core r.c).bufs 31 free }) ∧
    u.task? r.c r.t = some { task with
      st := .ready
      seed := { e.seed with buf := task.seed.buf.tail, running := false, asked := false, leave := false, waitBar := none
                            turned := task.seed.turned || isControlSop (hkSop r.b.husk) }
      b := e.b
      lr := e.lr
      pc := e.pc
      fpstat := task.fpstat ||| e.flags }

/-- The step of a seed commits it. -/
def seedCommits (i : Instr) (s : State) (r : SeedRun) (task : Task) (e : SeedEff) : Prop :=
  ∃ v, exec i s = .next v ∧ seedCommitted r task e v

/-- A seed's step that faults commits nothing (R262). -/
def seedFails (i : Instr) (s : State) (r : SeedRun) (x : FaultInfo) : Prop :=
  exec i s = .next (takeFault s r.c r.t { cls := x.cls, src := 3, detail := x.detail, acc := x.acc, addr := r.b.addr, pc := r.task.pc } false)

/-- The chosen elements (c0, c1) of a record that lie within its extents lie in the window of a core too, each at a multiple of its size
(R196). -/
def cellsInside (c : Nat) (b : BitVec 512) (has : Nat → Nat → Bool) : Prop :=
  let w := (typeWidth (recFmt b) + 7) / 8
  c < 512 ∧ ∀ i m, has i m = true → beyond b i m = false →
    let va := elemAddress b i m
    inWindow va = true ∧ inWindow (va + w - 1) = true ∧ va % w = 0

/-- From s to t the chosen elements (c0, c1) of a record in the window of core c that lie within its extents take the values v, each where
no other of them overlaps it, and no other byte of memory changes (R196). -/
def cellsWritten (s t : State) (c : Nat) (b : BitVec 512) (has : Nat → Nat → Bool) (v : Nat → Nat → Nat) : Prop :=
  let w := typeWidth (recFmt b)
  let size := (w + 7) / 8
  let place := fun i m => keyScratch c (elemAddress b i m)
  let half := fun i => wrapCoord b 0 i % 2
  let put := fun i m => has i m = true ∧ beyond b i m = false
  (∀ a, (∀ i m, put i m → a < place i m ∨ place i m + size ≤ a) → t.byte a = s.byte a) ∧
  ∀ i m, put i m →
    (∀ j n, put j n → (j, n) ≠ (i, m) → place j n + size ≤ place i m ∨ place i m + size ≤ place j n ∨ (w = 4 ∧ place j n = place i m ∧ half j ≠ half i)) →
    (w ≠ 4 → ∀ k, k < size → t.byte (place i m + k) = byteOf (v i m) k) ∧ (w = 4 → (t.byte (place i m)).toNat / 16 ^ half i % 16 = v i m % 16)

/-- The elements that a seed writes: columns o to o+n-1 of the chosen rows below M (R254). -/
def SeedRun.cells (r : SeedRun) (o n : Nat) (rows : Nat → Bool) (i m : Nat) : Bool := decide (m < r.m) && rows m && decide (o ≤ i ∧ i < o + n)

end Sys2Proof.Machine
end

