-- ==== Sys2Proof/Certificates/Slice0/Obligations.lean ====
section
/-! DEFINITION. The statements for the provers, each with the rules of the spec it formalises. -/

open Sys2Proof Sys2Proof.Machine

/-- A null operand or an unmatched predicate makes a stage emit null tokens (02 Firing and null tokens R29, 02 Predicates R66). -/
def Obligations.NullOperands : Prop :=
  (∀ i w g s f ops, stageFn i = some (w, g) → i.op ≠ 0x23 → stageReady i w s f ops →
    ((∃ p x, (p, x) ∈ ops ∧ x.null = true) ∨
      ∃ x, (3, x) ∈ ops ∧ ¬ (w.pm = 1#2 ↔ ∃ l, l < 16 ∧ maskBit x.mask l = true ∧ x.data.getLsbD (32 * l) = true)) →
    stageSends i w s f ⟨0, 0, true⟩ ⟨0, 0, true⟩ 0) ∧
  ∀ w, ∀ i ∈ stageForms w, ∃ g, stageFn i = some (w, g) ∧ i.op ≠ 0x23 ∧ ∀ s f ops, stageReady i w s f ops →
    actsNull w.pm.toNat ops = false → trapsOn f.task.fpen (g w (stageReads w f ops)).flags = false →
    ∃ x y, (g w (stageReads w f ops)).out0 = some x ∧ (g w (stageReads w f ops)).out1 = some y ∧
      stageSends i w s f x y (g w (stageReads w f ops)).flags

/-- wrb records the value of its token (06 Moves R118, 02 R35). Log entry 96 gives the readings that are the model's own here; no rule is cited for them. -/
def Obligations.RegisterWriteRecorded : Prop := ∀ (w : StageW) (s : State) (f : Foc) (ops : List (Nat × Token)),
  stageReady (.wrb w) w s f ops → isWide w.ty.toNat →
  let a := tokAt ops 0
  let v := if w.ty.toNat = 11 then wrapTo 64 (signedOf 32 (a.lane 0)) else if w.ty.toNat = 12 then a.lane 0 else a.elem 13 0
  let r := w.aux.toNat % 16
  let writes : Bool := !actsNull w.pm.toNat ops && maskBit a.mask 0 && (!is64 w.ty.toNat || maskBit a.mask 1)
  firesWith (.wrb w) s f (withPred w.pm.toNat [0]) fun ph =>
    let latest : Bool := (tabFind ph.wrbs r).all fun x => decide (x.1 ≤ f.nd.iter)
    if writes && latest then { ph with wrbs := tabPut ph.wrbs r (f.nd.iter, BitVec.ofNat 64 v) } else ph

/-- Integer arithmetic by element (06 Integer arithmetic and logic R111, 05 R97, 06 R110). -/
def Obligations.IntegerArithmetic : Prop := ∀ w : StageW,
  let t := w.ty.toNat
  let wd := typeWidth t
  let v := fun (x : Token) (e : Nat) => decodeInt t (x.elem t e)
  let sat := fun (n : Int) => wrapTo wd (max (intMin t) (min (intMax t) n))
  let red := fun (n : Int) => if w.sat = 1#1 then sat n else wrapTo wd n
  let ab := fun (x : StageIn) => [x.a, x.b]
  stageYields (.vadd w) w ab (quietly fun x e => wrapTo wd (v x.a e + v x.b e)) ∧
  stageYields (.vsub w) w ab (quietly fun x e => wrapTo wd (v x.a e - v x.b e)) ∧
  stageYields (.vaddsat w) w ab (quietly fun x e => sat (v x.a e + v x.b e)) ∧
  stageYields (.vsubsat w) w ab (quietly fun x e => sat (v x.a e - v x.b e)) ∧
  stageYields (.vmul w) w ab (quietly fun x e => red (v x.a e * v x.b e)) ∧
  stageYields (.vmulhi w) w ab (quietly fun x e => wrapTo (2 * wd) (v x.a e * v x.b e) / 2 ^ wd) ∧
  stageYields (.vmad w) w (fun x => [x.a, x.b, x.c]) (quietly fun x e => red (v x.a e * v x.b e + v x.c e)) ∧
  stageYields (.vneg w) w (fun x => [x.a]) (quietly fun x e => red (-v x.a e)) ∧
  stageYields (.vabs w) w (fun x => [x.a]) (quietly fun x e => if v x.a e < 0 then red (-v x.a e) else x.a.elem t e) ∧
  stageYields (.vmin w) w ab (quietly fun x e => if v x.a e ≤ v x.b e then x.a.elem t e else x.b.elem t e) ∧
  stageYields (.vmax w) w ab (quietly fun x e => if v x.a e ≤ v x.b e then x.b.elem t e else x.a.elem t e)

/-- Bitwise logic, and pred on bit 0 (06 Integer arithmetic and logic R111, 05 R98). -/
def Obligations.BitwiseLogic : Prop := ∀ w : StageW,
  let t := w.ty.toNat
  let yields := fun (i : Instr) (f : Bool → Bool → Bool) => ∃ r,
    stageYields i w (fun x => [x.a, x.b]) (quietly r) ∧
    ∀ x e k, (r x e).testBit k = (if t = 15 ∧ k ≠ 0 then false
      else decide (k < typeWidth t) && f ((x.a.elem t e).testBit k) ((x.b.elem t e).testBit k))
  yields (.vand w) (fun p q => p && q) ∧ yields (.vor w) (fun p q => p || q) ∧ yields (.vxor w) (fun p q => p != q) ∧
  yields (.vandn w) (fun p q => p && !q)

/-- Shifts by any amount, leading zeros and one bits (06 Shifts and counts R112, 06 R113, 05 R97). -/
def Obligations.ShiftsAndCounts : Prop := ∀ w : StageW,
  let t := w.ty.toNat
  let wd := typeWidth t
  let ab := fun (x : StageIn) => [x.a, x.b]
  let a := fun (x : StageIn) (e : Nat) => x.a.elem t e
  let s := fun (x : StageIn) (e : Nat) => x.b.elem t e
  stageYields (.vshl w) w ab (quietly fun x e =>
    let n := decodeInt t (a x e) * 2 ^ s x e
    if w.sat = 1#1 then wrapTo wd (max (intMin t) (min (intMax t) n)) else wrapTo wd n) ∧
  stageYields (.vshr w) w ab (quietly fun x e => a x e / 2 ^ s x e) ∧
  stageYields (.vsra w) w ab (quietly fun x e => wrapTo wd (signedOf wd (a x e) / 2 ^ s x e)) ∧
  stageYields (.vrotl w) w ab (quietly fun x e => ((BitVec.ofNat wd (a x e)).rotateLeft (s x e)).toNat) ∧
  stageYields (.vclz w) w (fun x => [x.a]) (quietly fun x e => wd - Nat.size (a x e)) ∧
  stageYields (.vpopc w) w (fun x => [x.a]) (quietly fun x e => (Nat.bits (a x e)).count true)

/-- vcmp under its six conditions and vsel (06 Compare and select R114, 06 R115). -/
def Obligations.CompareAndSelect : Prop := ∀ w : StageW,
  let t := w.ty.toNat
  let ones := fun (p : Bool) => if p then 2 ^ typeWidth t - 1 else 0
  let holds := fun (n : Int) =>
    [n == 0, n != 0, decide (n < 0), decide (n ≤ 0), decide (0 < n), decide (0 ≤ n)].getD w.aux.toNat (decide (0 ≤ n))
  stageYields (.vcmp w) w (fun x => [x.a, x.b]) (fun x e =>
    let a := x.a.elem t e
    let b := x.b.elem t e
    if isF t then
      let va := decodeFloat t a
      let vb := decodeFloat t b
      let nan := va.isNan || vb.isNan
      (ones (if nan then w.aux.toNat == 1 else holds (cmpVal va vb)),
       if va.isSnan || vb.isSnan || (nan && 2 ≤ w.aux.toNat) then nvFlag else 0)
    else (ones (holds (decodeInt t a - decodeInt t b)), 0)) ∧
  (t ≠ 15 → stageYields (.vsel w) w (fun x => [x.a, x.b, x.c]) (quietly fun x e =>
    if x.c.elem t e ≠ 0 then x.a.elem t e else x.b.elem t e)) ∧
  (t = 15 → stageYields (.vsel w) w (fun x => [x.a, x.b, x.c]) (quietly fun x e =>
    (if x.c.elem t e % 2 = 1 then x.a.elem t e else x.b.elem t e) % 2))

/-- vext, vbfx and vbfi by bit (06 Bitfields R116). -/
def Obligations.Bitfields : Prop := ∀ w : StageW,
  let t := w.ty.toNat
  let wd := typeWidth t
  let k := fun (x : StageIn) (e : Nat) => x.b.elem t e
  let ext := fun (n f : Nat) => if isSigned t then wrapTo wd (signedOf n f) else f % 2 ^ n
  stageYields (.vext w) w (fun x => [x.a, x.b]) (quietly fun x e =>
    let n := k x e % 256
    if n = 0 then 0 else if n ≥ wd then x.a.elem t e else ext n (x.a.elem t e)) ∧
  stageYields (.vbfx w) w (fun x => [x.a, x.b]) (quietly fun x e =>
    let pos := k x e % 256
    let len := k x e / 256 % 256
    if pos ≥ wd ∨ len = 0 then 0 else ext (min len (wd - pos)) (x.a.elem t e / 2 ^ pos)) ∧
  ∃ r, stageYields (.vbfi w) w (fun x => [x.a, x.b, x.c]) (quietly r) ∧
    ∀ x e i, (r x e).testBit i =
      (let pos := k x e % 256
       let len := k x e / 256 % 256
       if pos ≤ i ∧ i < pos + len ∧ i < wd then (x.c.elem t e).testBit (i - pos) else (x.a.elem t e).testBit i)

/-- const, dup, rdb, itr, lidx, mkpred and nul (R119). -/
def Obligations.Moves : Prop := ∀ w : StageW,
  let t := w.ty.toNat
  let v := w.imm.toNat
  stageGives (.const w) w (fun _ y => holdsElems y t 0xFFFF#16 fun _ =>
    if t = 0 then v * 2 ^ 16 else if t = 11 then wrapTo 32 (signedOf 16 v) else if t = 13 then wrapTo 64 (signedOf 16 v)
    else if t = 15 then v % 2 else v % 2 ^ typeWidth t) ∧
  stageGives (.dup w) w (fun x y => y = x.a) ∧
  stageGives (.rdb w) w (fun x y => holdsElems y t 0xFFFF#16 fun _ => x.reg.toNat % 2 ^ typeWidth t) ∧
  stageGives (.itr w) w (fun x y => holdsElems y 12 0xFFFF#16 fun _ => x.iter % 2 ^ 32) ∧
  stageGives (.lidx w) w (fun _ y => holdsElems y 12 0xFFFF#16 fun l => l) ∧
  stageGives (.mkpred w) w (fun x y => holdsElems y 12 x.a.mask fun l =>
    let nonzero := fun e => if isF t then !(decodeFloat t (x.a.elem t e)).isZero else x.a.elem t e != 0
    if (if is64 t then nonzero (l / 2) else (List.range (32 / typeWidth t)).any fun i => nonzero (l * (32 / typeWidth t) + i)) then 1 else 0) ∧
  stageGives (.nul w) w (fun _ y => y = ⟨0, 0, true⟩)

/-- Broadcast, shift, permute, pack and count of lanes (06 Lane operations R122, 06 R123, 06 R124, 06 R125, 06 R126). Log entry 114 gives the readings that are the model's own here; no rule is cited for them. -/
def Obligations.LaneMoves : Prop := ∀ w : StageW,
  let t := w.ty.toNat
  let ok := fun (x : Token) (l : Nat) => maskBit x.mask l
  let form := fun (v : Nat) => if t = 15 then v % 2 else v
  let pair := fun (p : Nat → Bool) (l : Nat) => if is64 t then p (l / 2 * 2) && p (l / 2 * 2 + 1) else p l
  let marked := fun (x : StageIn) (l : Nat) =>
    if is64 t then ok x.a (l / 2 * 2) && ok x.a (l / 2 * 2 + 1) && ok x.b (l / 2 * 2) && x.b.lane (l / 2 * 2) % 2 == 1
    else ok x.a l && ok x.b l && x.b.lane l % 2 == 1
  stageGives (.lbcast w) w (fun x y =>
    if elemValid t x.a.mask w.aux.toNat then holdsElems y t 0xFFFF#16 fun _ => form (x.a.elem t w.aux.toNat)
    else y.null = false ∧ y.mask = 0 ∧ y.data = 0) ∧
  stageGives (.lshift w) w (fun x y =>
    let j := fun (l : Nat) => (l : Int) - signedOf 8 w.aux.toNat
    if w.sub = 1#3 then holdsLanes y (pair fun l => ok x.a (j l % 16).toNat) (fun l => form (x.a.lane (j l % 16).toNat))
    else holdsLanes y (pair fun l => decide (0 ≤ j l ∧ j l < 16) && ok x.a (j l).toNat) (fun l => form (x.a.lane (j l).toNat))) ∧
  stageGives (.lperm w) w (fun x y =>
    if is64 t then
      let q := fun l => x.b.lane (l / 2 * 2) % 8
      holdsLanes y (fun l => ok x.b (l / 2 * 2) && ok x.a (2 * q l) && ok x.a (2 * q l + 1)) (fun l => x.a.lane (2 * q l + l % 2))
    else holdsLanes y (fun l => ok x.b l && ok x.a (x.b.lane l % 16)) (fun l => form (x.a.lane (x.b.lane l % 16)))) ∧
  stageGives (.lpack w) w (fun x y =>
    let n := ((List.range 16).filter (marked x)).length
    (∀ l, l < 16 → maskBit y.mask l = decide (l < n)) ∧ y.null = false ∧
    (List.range n).map y.lane = ((List.range 16).filter (marked x)).map (fun l => form (x.a.lane l)) ∧ ∀ l, n ≤ l → l < 16 → y.lane l = 0) ∧
  stageGives (.lcount w) w (fun x y =>
    holdsLanes y (fun l => l == 0) fun _ => ((List.range 16).filter fun l => ok x.a l && x.a.lane l % 2 == 1).length) ∧
  (Instr.lperm w).op = 0x2C ∧ (Instr.lpack w).op = 0x2D ∧ (Instr.lcount w).op = 0x2E

/-- lred by its fixed pairing and lscan from left to right (06 Lane operations R120, 06 R121). Log entry 22 gives the readings that are the model's own here; no rule is cited for them. -/
def Obligations.Reductions : Prop := ∀ w : StageW,
  let t := w.ty.toNat
  let rt := if t = 7 ∨ t = 9 then 11 else if t = 8 ∨ t = 10 then 12 else t
  let code := w.aux.toNat
  let ident := if isF t then [0, fmtMax t + 1, 2 ^ (typeWidth t - 1) + fmtMax t + 1].getD code 0
    else [0, wrapTo (typeWidth t) (intMax t), wrapTo (typeWidth t) (intMin t), 2 ^ typeWidth t - 1, 0, 0].getD code 0
  let comb := fun (u a b : Nat) =>
    if isF u then (if code = 0 then faddBits u w.rnd.toNat a b else minMaxBits u (code == 2) a b)
    else
      let x := decodeInt u a
      let y := decodeInt u b
      ([wrapTo (typeWidth u) (x + y), if x ≤ y then a else b, if x ≤ y then b else a, a &&& b, a ||| b, a ^^^ b].getD code 0, 0)
  let widen := fun (a : Nat) => if rt = t then a else wrapTo 32 (decodeInt t a)
  ((Instr.lred w).wf → ∀ s f ops, stageReady (.lred w) w s f ops → actsNull w.pm.toNat ops = false →
    let v := combRounds (comb rt) 7 ((validBelow t (tokAt ops 0) (elemsPerToken t)).map widen, 0)
    (trapsOn f.task.fpen v.2 = true → stageTraps (.lred w) s f v.2) ∧ (trapsOn f.task.fpen v.2 = false →
    ∃ y, stageSends (.lred w) w s f y y v.2 ∧ y.null = false ∧ y.mask = (if is64 t then 3#16 else 1#16) ∧
      y.data = BitVec.ofNat 512 (v.1.headD (widen ident)))) ∧
  ((Instr.lscan w).wf → ∀ s f ops, stageReady (.lscan w) w s f ops → actsNull w.pm.toNat ops = false →
    let a := tokAt ops 0
    let vs := validBelow t a (elemsPerToken t)
    let fl := (combChain (comb t) 0 (if w.sub = 1#3 then vs.dropLast else vs)).2
    (trapsOn f.task.fpen fl = true → stageTraps (.lscan w) s f fl) ∧ (trapsOn f.task.fpen fl = false →
    ∃ y, stageSends (.lscan w) w s f y y fl ∧
      holdsElems y t (resultMask t [a]) fun e => (combChain (comb t) ident (validBelow t a (if w.sub = 1#3 then e else e + 1))).1))

/-- The four rounding codes round an exact value to an integer (05 Rounding R100). -/
def Obligations.RoundingModes : Prop := ∀ (neg : Bool) (m : Nat) (sh : Int),
  let x : ℚ := m * 2 ^ sh
  let k := fun (rnd : Nat) => (roundShift rnd neg m sh : ℚ)
  (|k 0 - x| ≤ 1 / 2 ∧ (|k 0 - x| = 1 / 2 → roundShift 0 neg m sh % 2 = 0)) ∧
  k 1 = ⌊x⌋ ∧
  k 2 = (if neg then (⌊x⌋ : ℚ) else ⌈x⌉) ∧
  k 3 = (if neg then (⌈x⌉ : ℚ) else ⌊x⌋)

/-- Sums and products are formed exactly (05 Rounding R100, 07 Arithmetic R129). -/
def Obligations.ExactBeforeRounding : Prop := ∀ (rnd : Nat) (na nb : Bool) (ma mb : Nat) (ea eb : Int),
  let val := fun (n : Bool) (m : Nat) (e : Int) => (if n then -1 else 1 : ℚ) * m * 2 ^ e
  (∃ n m e, addVal rnd (.fin na ma ea) (.fin nb mb eb) = (.fin n m e, false) ∧ val n m e = val na ma ea + val nb mb eb ∧
    (na ≠ nb → val na ma ea + val nb mb eb = 0 → n = (rnd == 3))) ∧
  (∃ n m e, mulVal (.fin na ma ea) (.fin nb mb eb) = (.fin n m e, false) ∧ val n m e = val na ma ea * val nb mb eb)

/-- fadd to fclass by element (07 Arithmetic R129, 07 R130, 07 R131, 07 R132, 05 R101). -/
def Obligations.FloatArithmetic : Prop := ∀ w : StageW,
  let t := w.ty.toNat
  let rnd := w.rnd.toNat
  let sign := 2 ^ (typeWidth t - 1)
  let ab := fun (x : StageIn) => [x.a, x.b]
  let abc := fun (x : StageIn) => [x.a, x.b, x.c]
  let d := fun (x : Token) (e : Nat) => decodeFloat t (x.elem t e)
  let nv := fun (p : Bool) => if p then nvFlag else 0
  let out := fun (vs : List Val) (r : Val × Bool) =>
    let y := roundFloat t rnd false r.1
    (y.bits, y.flags ||| nv (vs.any Val.isSnan) ||| nv r.2)
  let mulAdd := fun (neg : Bool) (x : StageIn) (e : Nat) =>
    let p := mulVal (d x.a e) (d x.b e)
    let s := addVal rnd (if neg then p.1.negate else p.1) (d x.c e)
    out [d x.a e, d x.b e, d x.c e] (s.1, p.2 || s.2)
  let less := fun (p q : Val) => decide (cmpVal p q < 0) || (cmpVal p q == 0 && p.neg? && !q.neg?)
  let pick := fun (first : Val → Val → Bool) (x : StageIn) (e : Nat) =>
    (if (d x.a e).isNan then (if (d x.b e).isNan then fmtNan t else x.b.elem t e)
     else if (d x.b e).isNan then x.a.elem t e
     else if first (d x.b e) (d x.a e) then x.b.elem t e else x.a.elem t e, nv ((d x.a e).isSnan || (d x.b e).isSnan))
  t ≤ 2 →
  stageYields (.fadd w) w ab (fun x e => out [d x.a e, d x.b e] (addVal rnd (d x.a e) (d x.b e))) ∧
  stageYields (.fsub w) w ab (fun x e => out [d x.a e, d x.b e] (addVal rnd (d x.a e) (d x.b e).negate)) ∧
  stageYields (.fmul w) w ab (fun x e => out [d x.a e, d x.b e] (mulVal (d x.a e) (d x.b e))) ∧
  stageYields (.fma w) w abc (mulAdd false) ∧ stageYields (.fnma w) w abc (mulAdd true) ∧
  stageYields (.fmin w) w ab (pick less) ∧ stageYields (.fmax w) w ab (pick fun p q => less q p) ∧
  stageYields (.fabs w) w (fun x => [x.a]) (quietly fun x e => x.a.elem t e % sign) ∧
  stageYields (.fneg w) w (fun x => [x.a]) (quietly fun x e => (x.a.elem t e + sign) % (2 * sign)) ∧
  stageYields (.fcpsgn w) w ab (quietly fun x e => x.a.elem t e % sign + x.b.elem t e / sign * sign) ∧
  (w.aux.toNat ≤ 9 → stageYields (.fcmp w) w ab (fun x e =>
    let c := cmpVal (d x.a e) (d x.b e)
    let nan := (d x.a e).isNan || (d x.b e).isNan
    let key := fun (p : Nat) => if p / sign = 1 then -((p % sign : Nat) : Int) - 1 else ((p % sign : Nat) : Int)
    let hit := [!nan && c == 0, nan || c != 0, !nan && decide (c < 0), !nan && decide (c ≤ 0), !nan && decide (0 < c),
      !nan && decide (0 ≤ c), nan, !nan, decide (key (x.a.elem t e) < key (x.b.elem t e)), x.a.elem t e == x.b.elem t e].getD
        w.aux.toNat false
    (if hit then 2 ^ typeWidth t - 1 else 0, if w.aux.toNat ≤ 7 then nv ((d x.a e).isSnan || (d x.b e).isSnan) else 0))) ∧
  stageYields (.fclass w) w (fun x => [x.a]) (quietly fun x e => 2 ^
    (match d x.a e with
    | .nan _ sig => if sig then 8 else 9
    | .inf n => if n then 0 else 7
    | .fin n m _ => if m = 0 then (if n then 3 else 4) else if x.a.elem t e % sign < 2 ^ fmtMant t then (if n then 2 else 5)
      else (if n then 1 else 6)))

/-- frnd to smexp by element, with the special operands of Table 7.5 (07 Rounding and exponents R133, 07 Special functions R134, 07 R135, 07 R136, 07 R137). Log entries 5, 115 give the readings that are the model's own here; no rule is cited for them. -/
def Obligations.FloatParts : Prop := ∀ w : StageW,
  let t := w.ty.toNat
  let rnd := w.rnd.toNat
  let one := fun (x : StageIn) => [x.a]
  let ab := fun (x : StageIn) => [x.a, x.b]
  let d := fun (x : Token) (e : Nat) => decodeFloat t (x.elem t e)
  let nv := fun (p : Bool) => if p then nvFlag else 0
  let bits := fun (v : Val) => (roundFloat t 0 false v).bits
  let inf := fmtMax t + 1
  let neg := 2 ^ (typeWidth t - 1)
  let unit := bits (.fin false 1 0)
  let special := fun (op : Nat) (x : StageIn) (e : Nat) => specialBits op t (x.a.elem t e)
  let exactly := fun (n : Bool) (m : Nat) (k : Int) => ((if n then -1 else 1 : ℚ) * m * 2 ^ k : ℚ)
  let val := fun (p : Nat) => match decodeFloat t p with
    | .fin n m k => exactly n m k
    | _ => 0
  let within := fun (op : Nat) (n : Bool) (m : Nat) (k : Int) (r : Nat × Flags) =>
    let c := specialEncl op n m k
    let window := specialWindow t (specialBound op t m k) c
    ∃ o : Int, window.1 ≤ o ∧ o ≤ max window.1 window.2 ∧ r =
      (bitsOfOrd t c.neg o, if o.natAbs > fmtMax t then ofFlag ||| nxFlag else if o.natAbs < 2 ^ fmtMant t then ufFlag ||| nxFlag else nxFlag)
  let exact := fun (op : Nat) (x y : ℚ) =>
    (op = 0x40 ∧ x * y = 1) ∨ (op = 0x41 ∧ 0 < y ∧ x * y ^ 2 = 1) ∨ (op = 0x43 ∧ x ≠ 0 ∧ ∃ k : Int, x = k ∧ y = 2 ^ k)
  let table := fun (op : Nat) (rs : List (Nat × Flags)) =>
    [0, neg, inf, neg + inf].map (specialBits op t) = rs ∧
    (∀ a sig n, decodeFloat t a = .nan n sig → specialBits op t a = (fmtNan t, nv sig)) ∧
    (∀ a, val a < 0 → op = 0x41 ∨ op = 0x44 → specialBits op t a = (fmtNan t, nvFlag)) ∧
    (∀ a p, p < 2 * neg → exact op (val a) (val p) → specialBits op t a = (p, 0)) ∧
    (∀ a (k : Int), op = 0x44 → val a = 2 ^ k → specialBits op t a = (bits (.ofInt k), 0)) ∧
    ∀ a n m k, decodeFloat t a = .fin n m k → m ≠ 0 → (val a < 0 → op ≠ 0x41 ∧ op ≠ 0x44) → (∀ p, ¬exact op (val a) (val p)) →
      (∀ j : Int, op = 0x44 → val a ≠ 2 ^ j) → within op n m k (specialBits op t a)
  t ≤ 2 →
  stageYields (.frnd w) w one (fun x e => match d x.a e with
    | .nan _ sig => (fmtNan t, nv sig)
    | .inf _ => (x.a.elem t e, 0)
    | .fin n m k => (bits (.fin n (roundShift rnd n m k) 0), 0)) ∧
  stageYields (.fscaleb w) w ab (fun x e =>
    if (d x.b e).isNan then (fmtNan t, nv ((d x.a e).isSnan || (d x.b e).isSnan))
    else
      let y := roundFloat t 0 false (scaleVal (scaleAmount (d x.b e)) (d x.a e))
      (y.bits, y.flags ||| nv ((d x.a e).isSnan))) ∧
  stageYields (.fgetexp w) w one (fun x e => match d x.a e with
    | .nan _ sig => (fmtNan t, nv sig)
    | .inf _ => (inf, 0)
    | .fin _ m k => if m = 0 then (neg + inf, dzFlag) else (bits (.ofInt ((Nat.log2 m : Int) + k)), 0)) ∧
  stageYields (.fgetman w) w one (fun x e => match d x.a e with
    | .nan _ sig => (fmtNan t, nv sig)
    | .inf _ => (fmtNan t, nvFlag)
    | .fin n m _ => if m = 0 then (x.a.elem t e, 0) else (bits (.fin n m (-(Nat.log2 m : Int))), 0)) ∧
  stageYields (.frcp w) w one (special 0x40) ∧ table 0x40 [(inf, dzFlag), (neg + inf, dzFlag), (0, 0), (neg, 0)] ∧
  stageYields (.frsq w) w one (special 0x41) ∧ table 0x41 [(inf, dzFlag), (neg + inf, dzFlag), (0, 0), (fmtNan t, nvFlag)] ∧
  stageYields (.fsqrt w) w one (fun x e => sqrtBits t rnd (x.a.elem t e)) ∧
    [0, neg, inf, neg + inf].map (sqrtBits t rnd) = [(0, 0), (neg, 0), (inf, 0), (fmtNan t, nvFlag)] ∧
    (∀ a sig n, decodeFloat t a = .nan n sig → sqrtBits t rnd a = (fmtNan t, nv sig)) ∧ (∀ a, val a < 0 → sqrtBits t rnd a = (fmtNan t, nvFlag)) ∧
    (∀ a, 0 < val a →
      let r := sqrtBits t rnd a
      0 < val r.1 ∧ r.2 = (if val r.1 ^ 2 = val a then 0 else nxFlag) ∧
      (rnd = 0 → ((val (r.1 - 1) + val r.1) / 2) ^ 2 ≤ val a ∧ val a ≤ ((val r.1 + val (r.1 + 1)) / 2) ^ 2) ∧
      (rnd = 1 ∨ rnd = 3 → val r.1 ^ 2 ≤ val a ∧ val a < val (r.1 + 1) ^ 2) ∧
      (rnd = 2 → val (r.1 - 1) ^ 2 < val a ∧ val a ≤ val r.1 ^ 2)) ∧
  stageYields (.fexp2 w) w one (special 0x43) ∧ table 0x43 [(unit, 0), (unit, 0), (inf, 0), (0, 0)] ∧
  stageYields (.flog2 w) w one (special 0x44) ∧ table 0x44 [(neg + inf, dzFlag), (neg + inf, dzFlag), (inf, 0), (fmtNan t, nvFlag)] ∧
  stageYields (.ftanh w) w one (special 0x45) ∧ table 0x45 [(0, 0), (neg, 0), (unit, 0), (neg + unit, 0)] ∧
  stageYields (.fsin w) w one (special 0x46) ∧ table 0x46 [(0, 0), (neg, 0), (fmtNan t, nvFlag), (fmtNan t, nvFlag)] ∧
  stageYields (.fcos w) w one (special 0x47) ∧ table 0x47 [(unit, 0), (unit, 0), (fmtNan t, nvFlag), (fmtNan t, nvFlag)] ∧
  (stageYields (.fsigm w) w one (special 0x48) ∧
    table 0x48 [(bits (.fin false 1 (-1)), 0), (bits (.fin false 1 (-1)), 0), (unit, 0), (0, 0)]) ∧
  (t = 0 → stageYields (.smref w) w ab (fun x e =>
    let c := match d x.a e with
      | .fin n m k => bits (.fin n (roundShift 2 n m k) 0)
      | _ => x.a.elem 0 e
    let r := minMaxBits 0 true (x.b.elem 0 e) c
    (if r.1 % neg = 0 then 0 else r.1, r.2))) ∧
  (t = 0 → stageYields (.smexp w) w ab (fun x e => smexpBits (x.a.elem 0 e) (x.b.elem 0 e)) ∧
    ∀ a u, (∀ n sig, decodeFloat 0 a ≠ .nan n sig) → (∀ n sig, decodeFloat 0 u ≠ .nan n sig) →
      ((addVal 0 (decodeFloat 0 a) (decodeFloat 0 u).negate).2 = true → smexpBits a u = (fmtNan 0, nvFlag)) ∧
      (∀ n, (addVal 0 (decodeFloat 0 a) (decodeFloat 0 u).negate).1 = .inf n → smexpBits a u = (if n then 0 else inf, 0)) ∧
      ∀ n m k, (addVal 0 (decodeFloat 0 a) (decodeFloat 0 u).negate).1 = .fin n m k →
        (m = 0 → smexpBits a u = (0x3F800000, 0)) ∧
        (m ≠ 0 → (∀ p, p < 2 * neg → exact 0x43 (exactly n m k) (val p) → smexpBits a u = (p, 0)) ∧
          ((∀ p, ¬exact 0x43 (exactly n m k) (val p)) → within 0x43 n m k (smexpBits a u))))

/-- cvt, cvti and cvtf by part, with the overflow token (07 Conversions R138, 07 R139, 05 R102, 05 R97). Log entries 21, 125 give the readings that are the model's own here; no rule is cited for them. -/
def Obligations.Conversions : Prop := ∀ w : StageW,
  let t := w.ty.toNat
  let u := w.aux.toNat % 16
  let part := w.sub.toNat
  let sat : Bool := w.sat = 1#1
  let source := fun (e : Nat) =>
    if typeWidth t < typeWidth u then (if part * elemsPerToken u ≤ e ∧ e < (part + 1) * elemsPerToken u then some (e - part * elemsPerToken u) else none)
    else if typeWidth u < typeWidth t then some (part * elemsPerToken t + e) else some e
  let lanes := fun (v e : Nat) => if is64 v then [2 * e, 2 * e + 1] else [e * typeWidth v / 32]
  let okLane := fun (a : Token) (l : Nat) => (List.range (elemsPerToken t)).all fun e =>
    !(lanes t e).contains l || (match source e with
      | some k => elemValid u a.mask k
      | none => true)
  let converts := fun (i : Instr) (one : Nat → Rounded) => ∀ s f ops, stageReady i w s f ops → actsNull w.pm.toNat ops = false →
    let a := tokAt ops 0
    let taken := (List.range (elemsPerToken t)).filterMap fun e =>
      if (lanes t e).all (okLane a) then (source e).map fun k => (k, one (a.elem u k)) else none
    let fl := taken.foldl (fun fl r => fl ||| r.2.flags) 0
    let out := (taken.filter fun r => r.2.out).flatMap fun r => lanes u r.1
    (trapsOn f.task.fpen fl = true → stageTraps i s f fl) ∧ (trapsOn f.task.fpen fl = false →
    ∃ x y, stageSends i w s f x y fl ∧ x.null = false ∧ (∀ l, l < 16 → maskBit x.mask l = okLane a l) ∧
      (∀ e, e < elemsPerToken t → x.elem t e = (match source e with
        | some k => if (lanes t e).all (okLane a) then (one (a.elem u k)).bits else 0
        | none => 0)) ∧
      if out = [] then y = ⟨0, 0, true⟩ else holdsLanes y (fun l => l == 0) fun _ => ((List.range 16).map fun l => if out.contains l then 2 ^ l else 0).sum)
  ((Instr.cvt w).wf → converts (.cvt w) fun p =>
    if isInt t then roundInt t w.rnd.toNat (decodeFloat u p) else roundFloat t w.rnd.toNat sat (.ofInt (decodeInt u p))) ∧
  ((Instr.cvti w).wf → converts (.cvti w) fun p =>
    let v := decodeInt u p
    let inRange := max (intMin t) (min (intMax t) v)
    ⟨wrapTo (typeWidth t) (if sat then inRange else v), 0, decide (inRange ≠ v)⟩) ∧
  ((Instr.cvtf w).wf → converts (.cvtf w) fun p => roundFloat t w.rnd.toNat sat (decodeFloat u p))

/-- blkpack, blkunpack and blkscale (07 hx4 block instructions R140, 07 R141, 07 R142, 05 R95). -/
def Obligations.BlockFormats : Prop := ∀ w : StageW,
  let t := w.ty.toNat
  let u := w.aux.toNat % 16
  let j := w.sub.toNat
  let unpacked := fun (x : StageIn) (e : Nat) =>
    let b := if t = 0 then j / 2 else j
    let i := if t = 0 then 16 * (j % 2) + e else e
    roundFloat t 0 false (decodeHx4 (hx4Code x.a b i) (sideScale x.b b) (sideExtra x.b b))
  let okUnpack := fun (x : StageIn) (l : Nat) =>
    let b := if t = 0 then j / 2 else j
    maskBit x.b.mask b && (if t = 0 then maskBit x.a.mask (4 * b + (16 * (j % 2) + l) / 8) else maskBit x.a.mask (4 * b + l / 4))
  let scaled := fun (x : StageIn) (l : Nat) =>
    let n : Int := (sideScale x.a l : Int) + signedOf 32 (x.b.lane l)
    if sideScale x.a l = 255 then (255, (0 : Flags)) else if n > 254 then (254, ofFlag ||| nxFlag) else if n < 0 then (0, ufFlag ||| nxFlag) else (n.toNat, 0)
  ((Instr.blkscale w).wf → ∀ s f ops, stageReady (.blkscale w) w s f ops → actsNull w.pm.toNat ops = false →
    let x := stageReads w f ops
    let ok := fun l => maskBit x.a.mask l && maskBit x.b.mask l
    let fl := ((List.range 4).filter ok).foldl (fun fl l => fl ||| (scaled x l).2) 0
    (trapsOn f.task.fpen fl = true → stageTraps (.blkscale w) s f fl) ∧ (trapsOn f.task.fpen fl = false →
    ∃ y, stageSends (.blkscale w) w s f y y fl ∧ y.null = false ∧ y.mask = (x.a.mask &&& x.b.mask) ∧
      ∀ l, l < 16 → y.lane l = if l < 4 ∧ ok l then (scaled x l).1 + 256 * sideExtra x.a l else 0)) ∧
  ((Instr.blkunpack w).wf → ∀ s f ops, stageReady (.blkunpack w) w s f ops → actsNull w.pm.toNat ops = false →
    let x := stageReads w f ops
    let ok := fun e => okUnpack x (if t = 0 then e else e / 2)
    let fl := ((List.range (elemsPerToken t)).filter ok).foldl (fun fl e => fl ||| (unpacked x e).flags) 0
    (trapsOn f.task.fpen fl = true → stageTraps (.blkunpack w) s f fl) ∧ (trapsOn f.task.fpen fl = false →
    ∃ y, stageSends (.blkunpack w) w s f y y fl ∧ y.null = false ∧ (∀ l, l < 16 → maskBit y.mask l = okUnpack x l) ∧
      ∀ e, e < elemsPerToken t → y.elem t e = if ok e then (unpacked x e).bits else 0)) ∧
  ((Instr.blkpack w).wf → ∀ s f ops, stageReady (.blkpack w) w s f ops → actsNull w.pm.toNat ops = false →
    let x := stageReads w f ops
    let srcs := if u = 0 then (List.range 32).map fun e => (e / 16, e % 16, (if e < 16 then x.a else x.b).elem 0 (e % 16))
      else (List.range 32).map fun e => (0, e / 2, x.a.elem u e)
    let ok := fun (p l : Nat) => maskBit (if p = 0 then x.a.mask else x.b.mask) l
    let whole := srcs.all fun q => ok q.1 q.2.1
    let vals := srcs.map fun q => if ok q.1 q.2.1 then decodeFloat u q.2.2 else .fin false 0 0
    let b := packBlock w.rnd.toNat (w.sat = 1#1) vals
    let fl := if whole then packStatus (w.sat = 1#1) vals b else 0
    (trapsOn f.task.fpen fl = true → stageTraps (.blkpack w) s f fl) ∧ (trapsOn f.task.fpen fl = false →
    ∃ y z, stageSends (.blkpack w) w s f y z fl ∧ y.null = false ∧
      (if j < 4 then (∀ l, l < 16 → maskBit y.mask l = (whole || l / 4 != j)) ∧
          ∀ i, i < 128 → y.elem 6 i = if whole ∧ i / 32 = j then b.codes.getD (i % 32) 0 % 16 else 0
        else (∀ l, l < 16 → maskBit y.mask l = (decide (l < 4) && (whole || l != j % 4))) ∧
          ∀ l, l < 16 → y.lane l = if whole ∧ l = j % 4 then (b.scale + 256 * b.extra) % 2 ^ 32 else 0) ∧
      (z.null = true ↔ ¬ (whole = true ∧ ∃ v ∈ vals, Val.isFin v = false)) ∧
      (z.null = false → holdsLanes z (fun l => l == 0 || (u == 0 && l == 1)) fun p =>
        ((List.range 16).map fun l => if (srcs.zip vals).any (fun q => q.1.1 == p && q.1.2.1 == l && !Val.isFin q.2) then 2 ^ l else 0).sum)))

/-- bpc and bpx fire by groups of four iterations (07 Bit-plane codec R143, 07 R144, 07 R145). Log entries 20, 116 give the readings that are the model's own here; no rule is cited for them. -/
def Obligations.CodecFires : Prop := ∀ (w : StageW) (s : State) (f : Foc) (ops : List (Nat × Token)),
  let k := f.nd.iter
  let r := min 4 (phaseEnd f.ph - k)
  let port := fun (q : List Token) (i : Nat) => q.getD i nullToken
  let off := fun (i : Nat) => w.pm ≠ 0#2 ∧ ((port f.nd.qp i).null = true ∨ predValue (port f.nd.qp i) ≠ decide (w.pm = 1#2))
  let ins := (List.range r).map fun i => if off i then nullToken else port f.nd.qa i
  let gathered := r ≤ f.nd.qa.length ∧ (w.pm ≠ 0#2 → r ≤ f.nd.qp.length)
  let rest := fun (g : List Token) => ({ f.nd with iter := k + 1, group := g } : Node)
  let ps := fun (ports : List Nat) => withPred w.pm.toNat ports
  let x := f.nd.group.headD nullToken
  (k % 4 = 0 → gathered → canFire s f (ps [0]) ops →
    firesTo (.bpc w) s f (ps [0]) [(w.t0.toNat, (bpcGroup ins).1.headD nullToken), (w.t1.toNat, (bpcGroup ins).2)] (rest (bpcGroup ins).1.tail)) ∧
  (k % 4 = 0 → gathered → canFire s f (ps [0, 1]) ops →
    let g := bpxGroup ins (tokAt ops 1)
    firesTo (.bpx w) s f (ps [0, 1]) [(w.t0.toNat, g.headD nullToken), (w.t1.toNat, g.headD nullToken)] (rest g.tail)) ∧
  (k % 4 = 0 → ¬gathered → (canFire s f (ps [0]) ops → exec (.bpc w) s = .next s) ∧ (canFire s f (ps [0, 1]) ops → exec (.bpx w) s = .next s)) ∧
  (k % 4 ≠ 0 → canFire s f (ps [0]) ops →
    firesTo (.bpc w) s f (ps [0]) [(w.t0.toNat, x)] (rest f.nd.group.tail) ∧
    firesTo (.bpx w) s f (ps [0]) [(w.t0.toNat, x), (w.t1.toNat, x)] (rest f.nd.group.tail)) ∧
  ∀ m, (∃ y ∈ ins, y.null = true) → bpcGroup ins = (List.replicate 4 nullToken, nullToken) ∧ bpxGroup ins m = List.replicate 4 nullToken

/-- bpx restores what bpc coded (07 Bit-plane codec R144, 07 R145). -/
def Obligations.CodecInverts : Prop := ∀ xs : List Token, xs.length = 4 → (∀ x ∈ xs, x.null = false) →
  let c := bpcGroup xs
  ∀ t l, t < 4 → l < 16 → ∃ y, (bpxGroup c.1 c.2)[t]? = some y ∧ y.null = false ∧ y.mask = 0xFFFF#16 ∧
    y.lane l = if maskBit (xs.getD t nullToken).mask l then (xs.getD t nullToken).lane l else 0

/-- The control points but exit and a breaking gate (R173, R175). -/
def Obligations.ControlPoints : Prop := ∀ (w : CpW) (s : State) (f : Foc) (ops : List (Nat × Token)),
  let a := tokAt ops 0
  let b := tokAt ops 1
  let p := tokAt ops 3
  let k := f.nd.iter
  let r := w.param.toNat
  let resets : Bool := k == 0 || (r != 0 && k % r == 0)
  let held := fun (x : Token) => if resets then a else x
  let fires := fun (i : Instr) (ports : List Nat) (x01 x23 v : Token) => canFire s f ports ops → cpSends i w s f ports x01 x23 v
  let all := fun (i : Instr) (ports : List Nat) (x : Token) => fires i ports x x f.nd.value
  let keeps := fun (i : Instr) (ports : List Nat) (x : Token) => fires i ports x x x
  let null := nullToken
  let hit : Bool := !p.null && predValue p
  let needs := (List.range 3).filter fun q => r.testBit q
  let bit := fun (n : Bool) => (⟨BitVec.ofNat 512 (packElems 32 (List.replicate 16 n.toNat)), 0xFFFF#16, false⟩ : Token)
  fires (.steer w) [0, 3] (if !a.null && hit then a else null) (if a.null || p.null || hit then null else a) f.nd.value ∧
  keeps (.carry w) (if k = 0 then [0] else [0, 1]) (held (if b.null then f.nd.value else b)) ∧
  keeps (.inv w) [0] (held f.nd.value) ∧
  all (.mergeSel w) [0, 1, 3] (if p.null then null else if predValue p then a else b) ∧
  all (.mergeAny w) [0, 1] (if a.null then b else a) ∧
  all (.fan w) [0] a ∧
  all (.join w) needs (if ops.any fun x => x.2.null then null else completion) ∧
  all (.order w) (if k < r + 1 then [] else [0]) (if k < r + 1 then completion else a) ∧
  all (.gatePass w) [0, 3] (if hit then a else null) ∧
  (hit = false → all (.gateBrk w) [0, 3] null) ∧
  all (.nulchkIsnull w) [0] (bit a.null) ∧
  all (.nulchkPresent w) [0] (bit !a.null)

/-- A gate that breaks ends the activation after its iteration (09 Control points R176). Log entry 19 gives the readings that are the model's own here; no rule is cited for them. -/
def Obligations.GateBreaks : Prop := ∀ (w : CpW) (s : State) (f : Foc) (ops : List (Nat × Token)), canFire s f [0, 3] ops →
  (tokAt ops 3).null = false → predValue (tokAt ops 3) = true →
  ∃ t ph, exec (.gateBrk w) s = .next t ∧ FiredOnce f 0 s t (flushGroups { ph with brk := some f.nd.iter }) ∧
    nodeFired f [0, 3] ([w.t0, w.t1, w.t2, w.t3].map fun x => (x.toNat, tokAt ops 0)) ph ∧
    phaseEnd { ph with brk := some f.nd.iter } = f.nd.iter + 1 ∧
    ∀ slot, f.nd.iter < (nodeOf ph slot).iter → mayFire { ph with brk := some f.nd.iter } slot = false

/-- exit by MODE in its deciding firing (09 Exit and the successor R178, 09 R179, 09 R180). Log entry 124 gives the readings that are the model's own here; no rule is cited for them. -/
def Obligations.ExitDecides : Prop := ∀ (w : CpW) (s : State) (f : Foc) (ops : List (Nat × Token)), canFire s f [0] ops →
  let a := tokAt ops 0
  let x := a.lane 0
  let succ := fun k => succAddr f.ph.addr f.ph.hdr k
  let bn := (f.ph.starts.getD (w.param.toNat % 16) 0).toNat % 2 ^ 57
  let lr := f.task.lr
  let skips : Bool := a.null || !maskBit a.mask 0
  let none0 : ExitRes := ⟨succ 0, none, none, false⟩
  let decides := fun (i : Instr) (r : ExitRes) => firesWith i s f [0] fun ph => { ph with exitRes := some r }
  let exits := [Instr.exitSel w, .exitCall w, .exitRet w, .exitJump w, .exitBr w]
  (f.nd.iter + 1 ≠ phaseEnd f.ph → ∀ i ∈ exits, firesWith i s f [0] id) ∧
  (f.nd.iter + 1 = phaseEnd f.ph → skips = true → ∀ i ∈ exits, decides i none0) ∧
  (f.nd.iter + 1 = phaseEnd f.ph → skips = false →
    decides (.exitSel w) ⟨if x = 0 then succ 0 else if x = 1 then succ 1 else succ 2, none, none, false⟩ ∧
    decides (.exitBr w) ⟨if predValue a then succ 1 else succ 0, none, none, false⟩ ∧
    ((lr % 2 = 0 ∨ f.task.seed.joined = true) → decides (.exitRet w) ⟨lr, none, none, true⟩) ∧
    (lr % 2 = 1 → f.task.seed.joined = false → exec (.exitRet w) s = .next (nodeFault s f { cls := 0x02, addr := lr })) ∧
    (bn % 16 = 0 → decides (.exitCall w) ⟨bn, some (succ 0), some (BitVec.ofNat 64 lr), false⟩ ∧ decides (.exitJump w) ⟨bn, none, none, false⟩) ∧
    (bn % 16 ≠ 0 → ∀ i ∈ [Instr.exitCall w, .exitJump w], exec i s = .next (nodeFault s f { cls := 0x02, addr := bn })))

/-- reord, xpose and corner gather a group and send it reordered (09 Reorder elements R182, 09 R183, 09 R184, 09 R185, 09 R186). Log entry 97 gives the readings that are the model's own here; no rule is cited for them. -/
def Obligations.ReorderGroups : Prop := ∀ (w : ReW) (s : State) (f : Foc) (ops : List (Nat × Token)),
  let t := w.ty.toNat
  let n := elemsPerToken t
  let ps := withPred w.pm.toNat [0]
  let x := if actsNull w.pm.toNat ops then nullToken else tokAt ops 0
  let ins := f.nd.group ++ [x]
  let inner := w.innerM1.toNat + 1
  let outer := w.outerM1.toNat + 1
  let elemAt := fun (j : Nat) => (ins.getD (j / n) nullToken).elem t (j % n)
  let okAt := fun (j : Nat) => decide (j / n < ins.length) && elemValid t (ins.getD (j / n) nullToken).mask (j % n)
  let good := fun (source : Nat → Nat) (o : Nat) (y : Token) =>
    if ∃ z ∈ ins, z.null = true then y = nullToken
    else y.null = false ∧ ∀ e, e < n →
      (elemValid t y.mask e = true ↔ ∀ e', e' < n → (if is64 t then e' = e else e' * typeWidth t / 32 = e * typeWidth t / 32) → okAt (source (o * n + e')) = true) ∧
      y.elem t e = if elemValid t y.mask e then (if t = 15 then elemAt (source (o * n + e)) % 2 else elemAt (source (o * n + e))) else 0
  let gathers := fun (i : Instr) (size : Nat) (source : Nat → Nat) => i.wf = true → canFire s f ps ops →
    (ins.length ≠ size / n → f.nd.iter + 1 ≠ phaseEnd f.ph → firesTo i s f ps [] { f.nd with iter := f.nd.iter + 1, group := ins }) ∧
    ((ins.length = size / n ∨ f.nd.iter + 1 = phaseEnd f.ph) → ∃ ys : List Token, ys.length = ins.length ∧
      (∀ o y, ys[o]? = some y → good source o y) ∧
      firesTo i s f ps (ys.flatMap fun y => [(w.t0.toNat, y), (w.t1.toNat, y)]) { f.nd with iter := f.nd.iter + 1, group := [] })
  gathers (.reord w) (inner * outer) (fun m =>
    (((m % inner : Nat) : Int) * signedOf 8 w.istride.toNat + ((m / inner : Nat) : Int) * signedOf 8 w.ostride.toNat) % ((inner * outer : Nat) : Int) |>.toNat) ∧
  gathers (.xpose w) (inner * outer) (fun m => (m % outer) * inner + m / outer) ∧
  gathers (.corner w) (n * n) (fun m => (m % n) * n + m / n)

/-- What the firing of a memory element does (08 Firing R148, 08 R153, 08 R154, 08 R155, 08 R161, 08 R162, 08 R164, 08 R165, 08 R167). Log entries 16, 103, 104, 117 give the readings that are the model's own here; no rule is cited for them. -/
def Obligations.MemoryFires : Prop := ∀ (w : MemW) (s : State) (f : Foc) (ops : List (Nat × Token)), memReady s f w ops →
  let ports := memPorts f.ph f.slot w.pm.toNat
  let part := f.task.part
  let quad := quadOfCore f.c
  let r := recOf (s.core f.c) w.recid.toNat
  ∀ x ∈ [(Instr.ldSp w, 0x70), (.stSp w, 0x71), (.ldD w, 0x72), (.stD w, 0x73), (.ldt w, 0x74), (.stt w, 0x75), (.ldg w, 0x76),
      (.stg w, 0x77), (.fence w, 0x7C), (.aadd w, 0x80), (.amin w, 0x81), (.amax w, 0x82), (.aand w, 0x83), (.aor w, 0x84),
      (.axor w, 0x85), (.axchg w, 0x86), (.acas w, 0x87), (.aaddw w, 0x88), (.await w, 0x89), (.afadd w, 0x8A)],
    let off := actsNull w.pm.toNat ops || !lanesRead x.2 w ops (ports.contains 0)
    let fences := if releases w ∧ (w.scope = 4#3 ∨ w.scope = 5#3) ∧ off = false then pathSwitches s else []
    let a : Access := ⟨x.2, w, f.nd.iter, ops, off, .fired, [], accessMask x.2 w ops, s.stamp, 0, fences, false, false, none, none, 0, 0⟩
    let runs := runsOf x.2 w r ops
    let nd := needOf x.2 w
    let banked := fun (y : Run) => inWindow y.va = true ∧ inWindow (y.va + y.len - 1) = true ∧ x.2 ≠ 0x74 ∧ x.2 ≠ 0x75
    let paged := fun (y : Run) => inWindow y.va = false ∧ inHole y.va = false ∧ x.2 ≠ 0x70 ∧ x.2 ≠ 0x71 ∧ ∃ t, mappedBy s quad part nd y.va y.len t
    let piece := fun (p : Piece) (y : Run) => y.va ≤ p.va ∧ p.va + p.len ≤ y.va + y.len ∧ p.pos = y.pos + (p.va - y.va) ∧ p.doneP = false ∧
      p.data = bitsOf y.data (8 * (p.va - y.va)) (8 * p.len) ∧
      (inWindow y.va = true → p.key = keyScratch f.c p.va ∧ p.view = 0) ∧
      ∀ t, inWindow y.va = false → mappedBy s quad part nd y.va y.len t → p.key = t.key s p.va ∧ p.view = leafView t.leaf
    (off = true → firesFrom x.1 s s f ports (joinAccess f.slot (if w.ordered = 1#1 then a else a.finish (nullResult x.2)))) ∧
    (off = false → checksOpen x.2 w f.c part ops s = false → exec x.1 s = .next s) ∧
    (off = false → checksOpen x.2 w f.c part ops s = true → ∀ u,
      (∀ i, checkAccess x.2 w f.c part ops s = (.error i, u) → exec x.1 s = .next (nodeFault u f i)) ∧
      ∀ ps, checkAccess x.2 w f.c part ops s = (.ok ps, u) → firesFrom x.1 s u f ports (joinAccess f.slot { a with pieces := ps })) ∧
    (∀ res u, checkAccess x.2 w f.c part ops s = (res, u) →
      u = { s with quads := u.quads, chans := u.chans, poison := u.poison, latent := u.latent, mustWait := u.mustWait } ∧ (∀ q, q ≠ quad → u.quad q = s.quad q) ∧
      u.quad quad = { s.quad quad with tlb := (u.quad quad).tlb, walks := (u.quad quad).walks } ∧
      ∀ n, u.chan n = { s.chan n with direct := (u.chan n).direct, ecnt := (u.chan n).ecnt, ueaddr := (u.chan n).ueaddr }) ∧
    (off = false → misaligned x.2 w r ops runs = false → mapsOnce (s.quad quad) part → (∀ y ∈ runs, banked y ∨ paged y) → ∃ u ps,
      u = { s with quads := u.quads } ∧ firesFrom x.1 s u f ports (joinAccess f.slot { a with pieces := ps }) ∧
      (ps.map Piece.len).sum = (runs.map Run.len).sum ∧ ∀ p ∈ ps, ∃ y ∈ runs, piece p y)

/-- Where a token access goes (08 Layout records R151, 08 R152, 08 R149). -/
def Obligations.TokenAddresses : Prop := ∀ (r : BitVec 512) (t : Nat),
  let e := t * elemsPerToken (recFmt r)
  let below := fun d => ((List.range d).map (recExt r)).foldl (· * ·) 1
  let coord := fun d => if d + 1 = recNdim r then e / below d else e / below d % recExt r d
  let sum := ((List.range (recNdim r)).map fun d => coordBytes r d (coord d)).foldl (· + ·) 0
  (tokenAddress r t : Int) = ((recBase r : Int) + sum) % 2 ^ 57 ∧
  ∀ (w : MemW) (c part : Nat) (ops : List (Nat × Token)) (s : State), recOf (s.core c) w.recid.toNat = r → (tokAt ops 0).lane 0 + w.off.toNat = t →
    let va := tokenAddress r t
    let n := if w.ty = 6#4 then 72 else 64
    let aligned := recExt r 0 % elemsPerToken (recFmt r) = 0 ∧ (w.ty = 6#4 ↔ recFmt r = 6) ∧ va % (if w.ty = 6#4 then 8 else 64) = 0
    (¬aligned → checkAccess 0x70 w c part ops s = (.error { cls := 0x02, addr := va }, s)) ∧
    (aligned → inWindow va = true → inWindow (va + n - 1) = true → checkAccess 0x70 w c part ops s = (.ok [⟨keyScratch c va, n, va, 0, 0, false, 0⟩], s)) ∧
    (aligned → (inWindow va && inWindow (va + n - 1)) = false → checkAccess 0x70 w c part ops s = (.error { cls := 0x03, acc := 0, addr := va }, s))

/-- An element's and an engine port's tokens leave in iteration order (08 Firing R147, 10 Cards R194). -/
def Obligations.TokensLeaveInOrder : Prop := ∀ (ph : Phase) (slot : Nat),
  (let go := (accsOf ph slot).takeWhile fun a => a.stage == .done
   let sent := go.flatMap fun a => (a.out0.toList.map fun x => (a.w.t0.toNat, x)) ++ a.out1.toList.map fun x => (a.w.t1.toNat, x)
   let ph' := flushAll ph slot
   accsOf ph' slot = (accsOf ph slot).dropWhile (fun a => a.stage == .done) ∧ (∀ k, k ≠ slot → accsOf ph' k = accsOf ph k) ∧
   ph' = { ph with accs := ph'.accs, nodes := ph'.nodes, wires := ph'.wires } ∧ movesTokens slot [] sent ph ph') ∧
  (let w := readEp (wordAt ph slot)
   let go := (owedOf ph slot).takeWhile fun o => o.tok.isSome
   let sent := go.flatMap fun o => o.tok.toList.flatMap fun x => [(w.t0.toNat, x.1), (w.t1.toNat, x.2)]
   let ph' := flushOwed ph slot
   owedOf ph' slot = (owedOf ph slot).dropWhile (fun o => o.tok.isSome) ∧ (∀ k, k ≠ slot → owedOf ph' k = owedOf ph k) ∧
   ph' = { ph with owed := ph'.owed, nodes := ph'.nodes, wires := ph'.wires } ∧ movesTokens slot [] sent ph ph')

/-- Loads, stores and atomics at their places (08 Responses R160, 08 Atomics R162, 08 R164, 15 Moves R317, 15 R318, 15 R324). Log entries 14, 23, 25, 63, 105, 106, 107, 127 give the readings that are the model's own here; no rule is cited for them. -/
def Obligations.AccessesAnswered : Prop := ∀ (s : State) (c t n : Nat) (ph : Phase) (a : Access) (p : Piece),
  let r := accRef c t n
  let runs := fun (u : State) => exec (.memoryResponse c t n) s = .next u
  let v := memRead s.mem p.key p.len
  let x := laneVal (tokAt a.ops 1) 0 p.len
  let keeps := fun (v : Nat) => a.op = 0x87 ∧ v ≠ laneVal (tokAt a.ops 2) 0 p.len
  let new := fun (v : Nat) =>
    let int := decodeInt a.w.ty.toNat
    let enc := encodeInt a.w.ty.toNat
    if a.op = 0x80 ∨ a.op = 0x88 then enc (int v + int x) else if a.op = 0x81 then enc (min (int v) (int x))
    else if a.op = 0x82 then enc (max (int v) (int x)) else if a.op = 0x83 then v &&& x else if a.op = 0x84 then v ||| x
    else if a.op = 0x85 then v ^^^ x else if a.op = 0x86 ∨ a.op = 0x87 then x else (faddBits 0 0 v x).1
  let scope := a.w.scope.toNat
  let atCore : Bool := scope == 0 || (isLoadOp a.op && a.w.strong == 0#1 && !acquires a.w)
  let base := fun (loc : Nat) => viewRead s p.view loc 4
  let copy := fun (loc : Nat) => (tabFind (s.core c).l1 loc).elim (base loc) BitVec.toNat
  let newest := fun (u : State) (k : Nat) => ((u.core c).stores.filterMap fun q => q.byte? k).getLast?
  let taken := fun (v : Nat) => v < 2 ^ (8 * p.len) ∧ ∀ i, i < p.len →
    byteOf v i = (newest s (p.key + i)).getD (byteOf ((fun loc => if atCore && isLocal loc then copy loc else base loc) ((p.key + i) / 4 * 4)) ((p.key + i) % 4))
  let clean := poisoned s p.key p.len = false ∧ ∀ e ∈ s.latent, e.1 / 8 < p.key / 256 ∨ (p.key + p.len - 1) / 256 < e.1 / 8
  let home := homeOpen s p.key p.len scope
  let only := fun (m : State) => m = { s with mem := m.mem, poison := m.poison, latent := m.latent, views := m.views, cores := m.cores, chans := m.chans, ports := m.ports } ∧
    (∀ d, d ≠ c → m.core d = s.core d) ∧ m.core c = { s.core c with l1 := (m.core c).l1, stores := (m.core c).stores }
  let copies := fun (m : State) => ∀ loc w, tabFind (m.core c).l1 loc = some w →
    tabFind (s.core c).l1 loc = some w ∨ (atCore = true ∧ isLocal loc = true ∧ w.toNat = base loc)
  accFind s r = some (ph, a) → a.stage = .issued → a.waiting = false → 0 < p.len →
  (isScratch p.key = false →
    (isLoadOp a.op = true → a.pieces[n % 32]? = some p → p.doneP = false →
      let opens := homeOpen s p.key p.len (if atCore then 0 else scope)
      (opens = false → runs s) ∧
      (opens = true → ∀ cls, remoteFault s p.key = some cls → runs (responseFault s r a { cls := cls, addr := p.va })) ∧
      (opens = true → remoteFault s p.key = none → clean → ∃ u m v, taken v ∧ runs u ∧
        (let got := { a with pieces := a.pieces.set (n % 32) { p with doneP := true, data := v } }
         accessBecomes m r (if got.pieces.all Piece.doneP then { got with stage := .done, out0 := some (loadTokens got).1, out1 := some (loadTokens got).2 } else got) u) ∧
        only m ∧ sameMemory s m ∧ (m.core c).stores = (s.core c).stores ∧ copies m)) ∧
    (isAtomicOp a.op = true → a.pieces.head? = some p →
      (scope ≠ 0 → p.doneP = false → pendingAt (s.core c) p.key p.len = true ∨ home = false → runs s) ∧
      (scope ≠ 0 → p.doneP = false → pendingAt (s.core c) p.key p.len = false → home = true →
        (∀ cls, remoteFault s p.key = some cls → runs (responseFault s r a { cls := cls, addr := p.va })) ∧
        (remoteFault s p.key = none → clean → ∃ v, taken v ∧
          (keeps v → ∃ u m, runs u ∧ only m ∧ sameMemory s m ∧ accessBecomes m r (a.finish (oldToken a.w v)) u) ∧
          (¬keeps v → isLocal p.key = true → ∃ u m, runs u ∧ only m ∧ sameMemory s m ∧
            accessBecomes m r { a with pieces := [{ p with doneP := true, data := v }] } u) ∧
          (¬keeps v → isLocal p.key = false → ∃ u, runs u ∧ bytesWritten s u p.view p.key p.len (byteOf (new v)) ∧
            (a.op ≠ 0x88 → ∃ m, only m ∧ accessBecomes m r (a.finish (oldToken a.w v)) u)))) ∧
      (scope ≠ 0 → p.doneP = true → ¬keeps p.data → ∃ u, runs u ∧ bytesWritten s u p.view p.key p.len (byteOf (new p.data)) ∧
        (a.op ≠ 0x88 → ∃ m, only m ∧ accessBecomes m r (a.finish (oldToken a.w p.data)) u)) ∧
      (scope = 0 → p.doneP = false → isLocal p.key = true → p.key % 4 = 0 → p.len = 4 ∨ p.len = 8 → clean → ∃ v, taken v ∧
        (keeps v → ∃ u m, runs u ∧ only m ∧ sameMemory s m ∧ accessBecomes m r (a.finish (oldToken a.w v)) u) ∧
        (¬keeps v → ∃ u, runs u ∧ sameMemory s u ∧ (∀ i, i < p.len → newest u (p.key + i) = some (byteOf (new v) i)) ∧
          (a.op ≠ 0x88 → ∃ m q, only m ∧ (m.core c).stores = (s.core c).stores ++ [q] ∧ q.scope = 0 ∧ accessBecomes m r (a.finish (oldToken a.w v)) u))))) ∧
  (isScratch p.key = true → p.key + p.len ≤ 2 ^ 72 → p.doneP = false → p.view = 0 →
  (isStoreOp a.op = true → isTokenOp a.op = true → a.pieces[n % 32]? = some p → (∀ q ∈ a.pieces, isScratch q.key = true ∧ q.key + q.len ≤ 2 ^ 72) →
    ∃ u m, runs u ∧ accessBecomes m r (Access.finish { a with pieces := a.pieces.map fun q => { q with doneP := true } } completion) u ∧
      m = { s with mem := m.mem, poison := m.poison, latent := m.latent } ∧
      ∀ k, u.byte k = a.pieces.foldl (fun v q => if q.key ≤ k ∧ k < q.key + q.len then byteOf q.data (k - q.key) else v) (s.byte k)) ∧
  (poisoned s p.key p.len = false →
  (isLoadOp a.op = true → a.pieces[n % 32]? = some p →
    let got := { a with pieces := a.pieces.set (n % 32) { p with doneP := true, data := v } }
    ∃ u, runs u ∧ accessBecomes s r (if got.pieces.all Piece.doneP then { got with stage := .done, out0 := some (loadTokens got).1, out1 := some (loadTokens got).2 } else got) u) ∧
  (isAtomicOp a.op = true → a.pieces.head? = some p →
    ∃ u, runs u ∧ (∀ k, u.byte k = if p.key ≤ k ∧ k < p.key + p.len ∧ ¬keeps v then byteOf (new v) (k - p.key) else s.byte k) ∧
      (a.op ≠ 0x88 → ∃ m, accessBecomes m r (a.finish (oldToken a.w v)) u ∧ m = { s with mem := m.mem, poison := m.poison, latent := m.latent }))))

/-- A pending store reaches its home (15 Moves R316, 15 R317, 15 R328, 15 R330). Log entries 13, 14, 76 give the readings that are the model's own here; no rule is cited for them. -/
def Obligations.StoresDrain : Prop := ∀ (s : State) (c n : Nat) (p : PStore), n < 65536 → (s.core c).stores[n]? = some p →
  let runs := fun (u : State) => exec (.storeDrain c n) s = .next u
  let older := ∃ q ∈ (s.core c).stores.take n, q.meets p.key p.span = true
  let pipe := fun (u : State) => pipeOpen u p.key (drainScope p) = true ∧ pipeHeld u (pipeOf (drainScope p)) p.key p.span = false
  let plain := p.view = 0 ∨ ∀ b ∈ blocksOf p.key p.span, ∀ v, tabFind s.views b = some v → v = p.view
  let gone := fun (u : State) => (u.core c).stores = (s.core c).stores.eraseIdx n ∧ ∀ d, d ≠ c → u.core d = s.core d
  let enabled := (List.range 8).filterMap fun i => if p.be.getLsbD i then some (p.key - keyHost 0 + i, byteOf p.data.toNat i) else none
  (older ∨ ¬pipe s → runs s) ∧
  let behind := p.ro = false ∧ ∃ h ∈ s.hostWc, ∃ e ∈ enabled, h.addr ≤ e.1 ∧ e.1 < h.addr + h.bytes.length
  let erased := s.setCore c { s.core c with stores := (s.core c).stores.eraseIdx n }
  (¬older → pipe s → isHost p.key = false → p.waiter = none → ∀ cls, remoteFault s p.key = some cls → runs (lateFault erased c p cls)) ∧
  (¬older → pipe s → isHost p.key = false → ∀ w r a cls, p.waiter = some w → waiterRef s c p.task w = some (r, a) → remoteFault s p.key = some cls →
    ∃ va, runs (responseFault erased r a { cls := cls, acc := 1, addr := va })) ∧
  (¬older → isHost p.key = true → behind → runs s) ∧
  (¬older → pipe s → isHost p.key = false → remoteFault s p.key = none → plain → ∃ u, runs u ∧ gone u ∧
    ∀ k, u.byte k = if p.key ≤ k ∧ k < p.key + 8 ∧ p.be.getLsbD (k - p.key) then byteOf p.data.toNat (k - p.key) else s.byte k) ∧
  (¬older → isHost p.key = true → (∀ h ∈ s.hostWc, h.bytes ≠ []) → ¬behind → ∃ u hs, runs u ∧ gone u ∧ sameMemory s u ∧
    (hs.flatMap fun h => (List.range h.bytes.length).map fun i => (h.addr + i, h.bytes.getD i 0)) = enabled ∧ (p.be = 0xF#8 → hs.length = 1) ∧
    (∀ h ∈ hs, h.job = storeJob (s.core c) p ∧ h.ro = p.ro ∧ h.scope = p.scope ∧ h.stamp = p.stamp) ∧
    u.hostWc = (if p.ro then s.hostWc ++ hs else s.hostWc) ∧ u.hostLink = if p.ro then s.hostLink else s.hostLink ++ hs) ∧
  ∀ m h, s.hostLink[m]? = some h → exec (.storeDrain c (65536 + m)) s = .next (if (s.hostLink.take m).all (fun x => x.ro && !x.meets h) then
    { s with mem := memWriteBytes s.mem (keyHost h.addr) h.bytes, hostLink := s.hostLink.eraseIdx m } else s)

/-- The other events of the memory model (15 Moves R317, 15 R329, 15 R330, 08 await R165). Log entries 14, 40, 127 give the readings that are the model's own here; no rule is cited for them. -/
def Obligations.MemoryEvents : Prop := ∀ (s : State) (c t n : Nat),
  (∃ u, exec (.l1Evict c n) s = .next u ∧ onlyCore c s u ∧ u.core c = { s.core c with l1 := (u.core c).l1 } ∧
    ∀ k, tabFind (u.core c).l1 k = if k = n then none else tabFind (s.core c).l1 k) ∧
  (∀ h, s.hostWc[n]? = some h → exec (.writeCombiningSend n) s = .next (if (s.hostWc.take n).any h.meets then s
    else { s with hostWc := s.hostWc.eraseIdx n, hostLink := s.hostLink ++ [{ h with ro := true }] })) ∧
  (∃ u, exec (.podFenceComplete n) s = .next u ∧ u = { s with cores := u.cores } ∧
    (∀ d j (task : Task), s.task? d j = some task → ∃ task', u.task? d j = some task' ∧ task'.chains = task.chains.map fun y =>
      (y.1, { y.2 with cards := y.2.cards.map fun k => { k with fences := k.fences.map fun l => l.filter fun x => x != n } })) ∧
    ∀ d j (task : Task) (ph : Phase) (slot i : Nat) (a : Access), s.task? d j = some task → task.phase = some ph → (accsOf ph slot)[i]? = some a →
      (∀ p ∈ (s.core d).stores, p.task = j → isRemote p.key = false) →
      ∃ (task' : Task) (ph' : Phase) (a' : Access), u.task? d j = some task' ∧ task'.phase = some ph' ∧ (accsOf ph' slot)[i]? = some a' ∧
        a' = { a with fences := a'.fences } ∧ a'.fences = (a.fences.filter fun x => x != n) ∧
        ph'.epFences = ph.epFences.map fun e => (e.1, e.2.filter fun x => x != n)) ∧
  (∀ ph a p, accFind s (accRef c t n) = some (ph, a) → a.op = 0x89 → a.waiting = true → a.pieces.head? = some p → isScratch p.key = true →
    poisoned s p.key p.len = false →
    let v := memRead s.mem p.key p.len
    let met := decodeInt a.w.ty.toNat (laneVal (tokAt a.ops 1) 0 p.len) ≤ decodeInt a.w.ty.toNat v
    let becomes := fun (i : Instr) (a' : Access) => ∃ u, exec i s = .next u ∧ accessBecomes s (accRef c t n) a' u
    let ends := fun (i : Instr) (status : Nat) => becomes i (a.finish (awaitToken a.w v status))
    let expired := 256 * (tokAt a.ops 2).lane 0 ≤ elapsed (s.core c) a.since
    let due := 1024 ≤ elapsed (s.core c) a.readAt
    (¬expired → exec (.awaitTimeout c t n) s = .next s) ∧ (expired → met → ends (.awaitTimeout c t n) 0) ∧
    (expired → ¬met → ends (.awaitTimeout c t n) 1) ∧
    (a.poll = false ∨ ¬due → exec (.awaitPoll c t n) s = .next s) ∧
    (a.poll = true → due → met → ends (.awaitPoll c t n) 0) ∧
    (a.poll = true → due → ¬met → (tokAt a.ops 2).lane 0 ≠ 0 → becomes (.awaitPoll c t n) { a with readAt := (s.core c).refTime }))

/-- cbpush, cbpop, cbpeek and cbstat (08 Circular buffers R156, 08 R157, 08 R158, 08 R159). Log entries 30, 32, 126 give the readings that are the model's own here; no rule is cited for them. -/
def Obligations.BuffersFire : Prop := ∀ (w : MemW) (s : State) (f : Foc) (ops : List (Nat × Token)), memReady s f w ops → w.scope = 0#3 → w.ordk = 0#2 →
  let ports := memPorts f.ph f.slot w.pm.toNat
  let n := w.recid.toNat
  let b := bufOf (s.core f.c) n
  let d := b.desc
  let off := fun (lane : Bool) => actsNull w.pm.toNat ops || (lane && !maskBit (tokAt ops 0).mask 0)
  let trig := ports.contains 0
  let hx4 := w.ty = 6#4
  let turn := fun (op : Nat) (nullOp : Bool) =>
    let a := newAccess s op w f ops nullOp (bufPiece f n)
    w.ordered = 1#1 → hasTurn f.ph f.slot a = true ∧ heldBack f.ph a = false
  let gives := fun (i : Instr) (op : Nat) (nullOp : Bool) (u : State) (x y : Token) =>
    firesFrom i s u f ports (joinAccess f.slot { newAccess s op w f ops nullOp (bufPiece f n) with stage := .done, out0 := some x, out1 := some y })
  let all := [(Instr.cbpush w, 0x78, off false), (.cbpop w, 0x79, off trig), (.cbpeek w, 0x7A, off true), (.cbstat w, 0x7B, off trig)]
  let seen := b.start.getD (cbFilled d, cbFree d)
  let stat := laneToken 0x7F#16 fun l => [seen.1, seen.2, cbSlots d, cbRdSlot d, cbRdTok d, cbWrSlot d, cbWrTok d].getD l 0
  let bufIs := fun (u : State) (b' : CBuf) => u.setCore f.c { u.core f.c with bufs := tabPut (u.core f.c).bufs n b' }
  (∀ x ∈ all, ¬turn x.2.1 x.2.2 → exec x.1 s = .next s) ∧
  (∀ x ∈ all, turn x.2.1 x.2.2 → x.2.2 = true → gives x.1 x.2.1 true s (nullResult x.2.1) (nullResult x.2.1)) ∧
  (∀ x ∈ all, turn x.2.1 x.2.2 → x.2.2 = false → f.task.bufs.getLsbD n = false → exec x.1 s = .next (nodeFault s f { cls := 0x0D })) ∧
  (f.task.bufs.getLsbD n = true →
    (turn 0x7B (off trig) → off trig = false → gives (.cbstat w) 0x7B false s stat stat) ∧
    (turn 0x78 (off false) → off false = false →
      let xs := if hx4 then [tokAt ops 0, tokAt ops 1] else [tokAt ops 0]
      if hx4 ∧ cbTokens d % 2 = 1 then exec (.cbpush w) s = .next (nodeFault s f { cls := 0x02, acc := 1, addr := cbBase d })
      else (∀ ps b', pushesTo b xs ps b' → ∃ u, gives (.cbpush w) 0x78 false (bufIs u b') completion completion ∧
          u = { s with mem := u.mem, poison := u.poison, latent := u.latent } ∧
          ∀ k, u.byte k = ps.foldl (fun v x => let at_ := keyScratch f.c x.1
            if at_ ≤ k ∧ k < at_ + 64 then byteOf (validBytes x.2) (k - at_) else v) (s.byte k)) ∧
        ((¬hx4 ∨ cbWrTok d + 1 < cbTokens d) → (cbWrTok d ≠ 0 ∨ b.free ≠ 0) → ∃ ps b', pushesTo b xs ps b') ∧
        ((¬∃ ps b', pushesTo b xs ps b') → exec (.cbpush w) s = .next s)) ∧
    ∀ rd ∈ [(Instr.cbpop w, 0x79, off trig, 0, true), (.cbpeek w, 0x7A, off true, (tokAt ops 0).lane 0 + w.off.toNat, false)],
      turn rd.2.1 rd.2.2.1 → rd.2.2.1 = false →
      let k := rd.2.2.2.1
      let m := if hx4 then 2 else 1
      let at_ := fun (i : Nat) => keyScratch f.c (cbReadAddr d (k + i))
      let word := fun (i l : Nat) => memRead s.mem (at_ i + 4 * l) 4
      let after := if rd.2.2.2.2 then (if hx4 then cbPopTok (cbPopTok b) else cbPopTok b) else b
      if (hx4 ∧ cbTokens d % 2 = 1) ∨ cbTokens d * cbSlots d ≤ k then exec rd.1 s = .next (nodeFault s f { cls := 0x02, addr := cbBase d })
      else if cbHas b (k + m - 1) = false then exec rd.1 s = .next s
      else
        (∀ i, i < m → poisoned s (at_ i) 64 = true → (∀ j, j < i → poisoned s (at_ j) 64 = false) →
          exec rd.1 s = .next (nodeFault s f { cls := 0x09, addr := cbReadAddr d (k + i) })) ∧
        ((∀ i, i < m → poisoned s (at_ i) 64 = false) → ∃ x y, gives rd.1 rd.2.1 false (bufIs s after) x y ∧
          holdsLanes x (fun _ => true) (fun l => if w.ty = 15#4 then word 0 l % 2 else word 0 l) ∧
          if hx4 then holdsLanes y (fun l => decide (l < 4)) (fun l => word 1 l % 2 ^ 16) else y = x))

/-- The slots of a circular buffer are free, claimed, filled or being read (08 Circular buffers R157). -/
def Obligations.BufferSlotsBalance : Prop := ∀ b : CBuf,
  let balanced := fun (x : CBuf) => cbFree x.desc + cbFilled x.desc + x.claims.length + (if cbRdTok x.desc = 0 then 0 else 1) = cbSlots x.desc
  balanced b →
  (∀ slot b', cbClaim b = some (slot, b') → balanced b' ∧ slot < cbSlots b'.desc) ∧
  (∀ slot, balanced (cbComplete b slot)) ∧
  (∀ at_ b', cbPushTok b = some (at_, b') → balanced b') ∧
  (cbHas b 0 = true → balanced (cbPopTok b))

/-- A matrix or engine node issues its card, and a matrix card works its rows (10 Matrix cards R194, 10 R196, 10 R199, 10 R200, 10 R201, 10 R202, 10 R203, 10 R205, 10 R207, 14 R296, 14 R297, 14 R298). Log entries 27, 34, 84, 128 give the readings that are the model's own here; no rule is cited for them. -/
def Obligations.CardsIssue : Prop := ∀ (w : EpW) (sub : BitVec 8) (s : State) (f : Foc) (ports : List Nat) (ops : List (Nat × Token)), epReady s f ports ops →
  let card := (tokAt ops 0).data
  let seq := fun (n : Nat) => (chainOf f.task n).tail + 1
  let issue := fun (n : Nat) => laneToken 3#16 fun l => if l = 0 then seq n % 2 ^ 32 else if l = 1 then seq n / 2 ^ 32 % 2 ^ 32 else 0
  let append := fun (n : Nat) (k : Card) =>
    tabPut f.task.chains n { chainOf f.task n with tail := seq n, cards := (chainOf f.task n).cards ++ [k] }
  let issued := fun (u : State) => u = { s with cardOrder := s.cardOrder + 1, cores := u.cores }
  let matrix := [(Instr.mlatch w sub, 0xB8), (.mstream w sub, 0xB9), (.mdrain w sub, 0xBA), (.accclr w sub, 0xBB), (.accscale w sub, 0xBC),
    (.accld w sub, 0xBD), (.accst w sub, 0xBE), (.mxv w sub, 0xBF), (.munfold w sub, 0xC0)]
  let engine := [(Instr.copy w sub, 0xD8), (.coll w sub, 0xD9), (.ringx w sub, 0xDA)]
  (∀ x ∈ matrix, ports = withPred w.pm.toNat (if x.2 = 0xBC then [0, 1] else [0]) →
    if actsNull w.pm.toNat ops then epAnswers x.1 s f ports nullToken
    else match matrixCheck s f.c x.2 sub.toNat w.ty.toNat card with
      | some e => epFaults x.1 s s f e
      | none =>
        let bank := if x.2 = 0xBF then bankShare s f.c f.task.job sub.toNat card else 0
        let k : Card := { seq := seq 0, op := x.2, sub := sub.toNat, ty := w.ty.toNat, card := card, arg := tokAt ops 1, handler := f.ph.handler,
                          order := s.cardOrder, stamp := s.stamp, bank := bank, bankDone := bank == 0, prog := bank, relatch := f.task.latched.again }
        let task := { f.task with latched := { f.task.latched with again := false }, chains := append 0 k }
        ∃ u, issued u ∧ onlyTask f.c f.t { s with cardOrder := s.cardOrder + 1 } u ∧
          epFires x.1 s u f task ports (cardKey 0 (seq 0)) (if sub.toNat % 2 = 1 then none else some (issue 0))) ∧
  (∀ x ∈ engine, ports = withPred w.pm.toNat [0] →
    if actsNull w.pm.toNat ops then epAnswers x.1 s f ports nullToken
    else match engineCheck s f x.2 w.escope.toNat card with
      | some e => epFaults x.1 s s f e
      | none =>
        let ring : Ring := tabGet {} f.task.rings w.escope.toNat
        let holders := (s.core (ecDcore card)).tasks.filter fun e => e.2.job == f.task.job && e.2.bufs.getLsbD (ecCbn card)
        let k : Card := { seq := seq 2, op := x.2, sub := sub.toNat, escope := w.escope.toNat, card := card, handler := f.ph.handler,
                          order := s.cardOrder, stamp := s.stamp,
                          args := if x.2 = 0xDA then [ring.issued] else if x.2 = 0xD8 ∧ ecTocb card = true then holders.map fun e => e.2.rank else [] }
        let task := { f.task with
          chains := append 2 k
          rings := if x.2 = 0xDA then tabPut f.task.rings w.escope.toNat { ring with issued := ring.issued + 1 } else f.task.rings }
        ∃ u, issued u ∧ onlyTask f.c f.t { s with cardOrder := s.cardOrder + 1 } u ∧
          epFires x.1 s u f task ports (cardKey 2 (seq 2)) (if sub = 1#8 then none else some (issue 2))) ∧
  ∀ (c t n : Nat) (task : Task) (k : Card), s.task? c t = some task → cardOf task 0 n = some k → task.cutting = false → isMatrixOp k.op = true →
    let x := k.card
    let m := k.prog
    let rec_ := fun i => cardRec (s.core c) k i
    let moves := fun (v : State) => cardRowMove c t 0 n s = v
    let becomes := fun (v : State) (k' : Card) => moves (putCard v c t 0 { k' with rowed := true })
    let fails := fun (v : State) (e : FaultInfo) (gen iter : Nat) => moves (if e.cls = notYet.cls then s else putCard v c t 0 { k with
      st := .withheld
      taken := false
      ticket := if e.cls = 9 then none else k.ticket
      fault := some { cls := e.cls, src := 1, slot := 124, gen := gen, acc := e.acc, detail := e.detail, iter := iter,
                      stall := tabGet 0 k.stalls gen, addr := e.addr, seqno := k.seq, info := e.info } })
    let acc := fun (v : State) row e => accElem (accRow v c task row) e
    let onlyAcc := fun (v u : State) (new : Nat → Nat → Option Nat) => onlyCore c v u ∧ u.core c = { v.core c with acc := (u.core c).acc } ∧
      (task.acc.Nodup → ∀ row e, row < task.acc.length → e < 16 → acc u row e = (new row e).getD (acc s row e))
    let bad : FaultInfo := { cls := 0x0D }
    let typed := fun (r : BitVec 512) => ({ cls := 0x02, addr := recBase r } : FaultInfo)
    let reads := fun (r : BitVec 512) (cs : List (Nat × Nat)) => readElems c task.part (some x) r cs s
    let puts := fun (v : State) (r : BitVec 512) (cells : List (Nat × Nat × Nat × Nat)) => resolvePuts c task.part (some x) r false cells v
    let wrote := fun (ps : List Put) => (ps.flatMap Put.keys).map (fun y => (y.key, y.len)) ++ k.wrote
    let round := fun (ty : Nat) (y : Val) => if isInt ty then roundInt ty (mcRnd x) y else roundFloat ty (mcRnd x) (mcSat x) y
    (k.st ≠ .started ∨ (k.relatch = false ∧ cardRows k ≤ m) → moves s) ∧
    (k.st = .started → k.relatch = false → m < cardRows k →
      let wr := rec_ (mcWrec x)
      let ar := rec_ (mcArec x)
      let dr := rec_ (mcDrec x)
      let streams := k.op = 0xB9 ∨ k.op = 0xC0
      let latching := k.op = 0xB8 ∨ (streams ∧ mcLatch x = true ∧ k.tile.length < mcK x)
      let fits := mcAcc x + mcCnt x ≤ task.acc.length
      let inDrec := fun i j => decide (mcDn0 x ≤ i ∧ i < mcDn0 x + mcN x ∧ j = mcDm0 x + m)
      (latching →
        let i := k.tile.length
        let sound := if k.op = 0xB8 then recFmt wr = k.ty else weightType (recFmt wr) = true
        let row := reads wr ((List.range (mcN x)).map fun j => (mcWn0 x + j, mcWk0 x + i))
        (¬sound → fails s (typed wr) 0 i) ∧
        (∀ e v, sound → row = (.error e, v) → fails v e 0 i) ∧
        ∀ vs v, sound → row = (.ok vs, v) →
          let tile := k.tile ++ [vs]
          let lt : Latched := { valid := true, ty := recFmt wr, rows := mcK x, cols := mcN x, elems := tile, card := x, lrec := wr }
          (i + 1 < mcK x → becomes v { k with tile := tile }) ∧
          (mcK x ≤ i + 1 → becomes (v.setTask c t { task with latched := lt }) { k with tile := tile, prog := if k.op = 0xB8 then 1 else m })) ∧
      (streams → ¬latching →
        let lt := task.latched
        let held := lt.valid = true ∧ mcK x ≤ lt.rows ∧ mcN x ≤ lt.cols
        let rows := rowsFit task (mcAcc x) (mcAstr x) (mcM x) (mcN x) = true
        let sound := recFmt ar = k.ty ∧ (k.op = 0xC0 → recNdim ar = 3)
        let acts := if k.op = 0xC0 then readUnfold c task.part x ar m (mcK x) s else reads ar ((List.range (mcK x)).map fun i => (mcAk0 x + i, mcAm0 x + m))
        (¬held → fails s { cls := 0x05 } 0 m) ∧ (held → ¬rows → fails s bad 0 m) ∧ (held → rows → ¬sound → fails s (typed ar) 1 m) ∧
        (held → rows → sound → k.op = 0xC0 → recInWindow ar = false → fails s { cls := 0x03, addr := recBase ar } 1 m) ∧
        (held → rows → sound → (k.op = 0xC0 → recInWindow ar = true) → (∀ e v, acts = (.error e, v) → fails v e 1 m) ∧
          ∀ vs v, acts = (.ok vs, v) → ∃ u, becomes u { k with prog := m + 1 } ∧ onlyAcc v u fun row e =>
            let g := row - (mcAcc x + m * mcAstr x)
            let j := 16 * g + e
            if mcAcc x + m * mcAstr x ≤ row ∧ g < (mcN x + 15) / 16 ∧ j < mcN x then
              some (accumulate (if mcClr x then 0 else acc s row e)
                (((List.range (mcK x)).map fun i => storedVal lt.ty ((lt.elems.getD i []).getD j 0)).zip (vs.map (storedVal (recFmt ar)))))
            else none)) ∧
      (k.op = 0xBA →
        let rows := rowsFit task (mcAcc x) (mcAstr x) (mcM x) (if mcClra x then max (mcN x) (16 * mcAstr x) else mcN x) = true
        let y := fun j => scaleVal (mcDexp x) (decodeFloat 0 (acc s (mcAcc x + m * mcAstr x + j / 16) (j % 16)))
        let block := fun b => (List.range 32).map fun i => y (32 * b + i)
        let lies := fun i => beyond dr (mcDn0 x + i) (mcDm0 x + m) = false
        let cells := if k.ty = 6 then (List.range (mcN x / 32)).map fun b =>
            let z := packBlock (mcRnd x) (mcSat x) (block b)
            (mcDn0 x + 32 * b, mcDm0 x + m, 18, packElems 4 z.codes + z.scale * 2 ^ 128 + z.extra * 2 ^ 136)
          else (List.range (mcN x)).map fun j => (mcDn0 x + j, mcDm0 x + m, (typeWidth k.ty + 7) / 8, (round k.ty (y j)).bits)
        let fl := if k.ty = 6 then (List.range (mcN x / 32)).foldl (fun a b => if lies (32 * b) then
            a ||| packStatus (mcSat x) (block b) (packBlock (mcRnd x) (mcSat x) (block b)) else a) 0
          else (List.range (mcN x)).foldl (fun a j => if lies j then a ||| (round k.ty (y j)).flags else a) 0
        (¬rows → fails s bad 0 m) ∧ (rows → recFmt dr ≠ k.ty → fails s (typed dr) 2 m) ∧
        (rows → recFmt dr = k.ty → (∀ e v, puts s dr cells = (.error e, v) → fails v e 2 m) ∧
          ∀ ps v, puts s dr cells = (.ok ps, v) →
            let w := raiseFlags v c t fl
            (trapsOn task.fpen fl = true → fails w { cls := 0x0C, detail := (task.fpen &&& fl).toNat } 2 m) ∧
            (trapsOn task.fpen fl = false → ∃ u, becomes u { k with prog := m + 1, wrote := wrote ps } ∧ onlyAcc (ps.foldl doPut w) u fun row _ =>
              if mcClra x = true ∧ mcAcc x + m * mcAstr x ≤ row ∧ row < mcAcc x + m * mcAstr x + mcAstr x then some 0 else none) ∧
            (w.task? c t).map Task.fpstat = some (task.fpstat ||| fl) ∧
            (k.ty ≠ 6 → cellsInside c dr inDrec → cellsWritten s (ps.foldl doPut w) c dr inDrec fun i _ => (round k.ty (y (i - mcDn0 x))).bits))) ∧
      (k.op ∈ [0xBB, 0xBC, 0xBD, 0xBE] →
        let i := mcAcc x + m
        let next := { k with prog := m + 1 }
        let here := fun (new : Nat → Option Nat) (row e : Nat) => if row = i then new e else none
        (¬fits → fails s bad 0 m) ∧
        (fits → k.op = 0xBB → ∃ u, becomes u next ∧ onlyAcc s u (here fun _ => some 0)) ∧
        (fits → k.op = 0xBC →
          let l := m / mcAstr x
          let exp : Option Int := if maskBit k.arg.mask l then (match decodeFloat 0 (k.arg.lane l) with
            | .nan _ _ => none
            | .inf neg => some (if neg then -1100 else 1100)
            | .fin neg a b =>
              let q : Int := if 0 ≤ b then (a * 2 ^ b.toNat : Nat) else (a / 2 ^ (-b).toNat : Nat)
              some (max (-1100) (min 1100 (if neg then -q else q)))) else none
          ∃ u, becomes u next ∧ onlyAcc s u (here fun e => exp.map fun z => scalePow2 (acc s i e) z)) ∧
        (fits → k.op = 0xBD →
          let row := reads dr ((List.range 16).map fun l => (mcDn0 x + l, mcDm0 x + m))
          (recFmt dr ≠ k.ty → fails s (typed dr) 1 m) ∧ (recFmt dr = k.ty → (∀ e v, row = (.error e, v) → fails v e 1 m) ∧
            ∀ vs v, row = (.ok vs, v) → ∃ u, becomes u next ∧
              onlyAcc v u (here fun e => some ((if k.ty = 0 then vs.getD e 0 else vs.getD e 0 * 2 ^ 16) % 2 ^ 32)))) ∧
        (fits → k.op = 0xBE →
          let val := fun l => if k.ty = 0 then acc s i l else (roundFloat 1 0 false (decodeFloat 0 (acc s i l))).bits
          let row := puts s dr ((List.range 16).map fun l => (mcDn0 x + l, mcDm0 x + m, typeWidth k.ty / 8, val l))
          let has := fun a b => decide (mcDn0 x ≤ a ∧ a < mcDn0 x + 16 ∧ b = mcDm0 x + m)
          (recFmt dr ≠ k.ty → fails s (typed dr) 2 m) ∧ (recFmt dr = k.ty → (∀ e v, row = (.error e, v) → fails v e 2 m) ∧
            ∀ ps v, row = (.ok ps, v) → becomes (ps.foldl doPut v) { next with wrote := wrote ps } ∧
              (k.ty ≤ 1 → cellsInside c dr has → cellsWritten s (ps.foldl doPut v) c dr has fun a _ => val (a - mcDn0 x))))) ∧
      (k.op = 0xBF → weightType (recFmt wr) = true → recFmt ar = k.ty →
        (k.ticket = none → ∀ key v, boardReader s c task.part task.job task.rank (weightLines wr) = (.ok key, v) → weightMiss x wr = none →
          moves (putCard v c t 0 { k with ticket := some key, rowed := false })) ∧
        ∀ key r, k.ticket = some key → s.rider? key = some r →
          (r.alit = false → moves (putCard s c t 0 { k with rowed := false })) ∧
          (r.alit = true → r.bad = [] → ∀ vs v, reads ar ((List.range (recExt wr 1)).map fun i => (mcAk0 x + i, mcAm0 x + m)) = (.ok vs, v) →
            let y := fun j => scaleVal (mcDexp x) (decodeFloat 0 (accumulate 0
              (((List.range (recExt wr 1)).map fun i => storedVal (recFmt wr) (riderWeight r wr j i).1).zip (vs.map (storedVal (recFmt ar))))))
            let cells := (List.range (recExt wr 0)).map fun j => (mcDn0 x + j, mcDm0 x + m, (typeWidth (recFmt dr) + 7) / 8, (round (recFmt dr) (y j)).bits)
            let fl := (List.range (recExt wr 0)).foldl (fun a j => if beyond dr (mcDn0 x + j) (mcDm0 x + m) then a else a ||| (round (recFmt dr) (y j)).flags) 0
            recFmt dr ≠ 6 → ∀ ps w, puts v dr cells = (.ok ps, w) → ∃ u,
              becomes u { k with prog := m + 1, ticket := if m + 1 = mcM x then none else some key, wrote := wrote ps } ∧
              (∀ a, u.byte a = (ps.foldl doPut w).byte a) ∧ (u.task? c t).map Task.fpstat = some (task.fpstat ||| fl)))) ∧
    (k.st = .started → k.relatch = true →
      let lt := task.latched
      let row := readElems c task.part none lt.lrec ((List.range (mcN lt.card)).map fun j => (mcWn0 lt.card + j, mcWk0 lt.card + k.tile.length)) s
      (∀ e v, row = (.error e, v) → fails v e 0 k.tile.length) ∧
      ∀ vs v, row = (.ok vs, v) → (k.tile.length + 1 < lt.rows → becomes v { k with tile := k.tile ++ [vs] }) ∧
        (lt.rows ≤ k.tile.length + 1 → ∃ u, moves u ∧ (u.task? c t).map Task.latched = some { lt with elems := k.tile ++ [vs] }))

/-- When a card fails at its issue, and the units of an engine card (10 Matrix cards R195, 10 R198, 10 R201, 10 R202, 10 R203, 10 R205, 14 Engine cards R293, 14 R294, 14 R296, 14 R297, 14 R298). Log entries 26, 27, 110 give the readings that are the model's own here; no rule is cited for them. -/
def Obligations.CardChecks : Prop := ∀ (s : State) (f : Foc) (op sub ty escope : Nat) (card : BitVec 512),
  let bad : Option FaultInfo := some { cls := 0x05 }
  let wf := recFmt (recOf (s.core f.c) (mcWrec card))
  let kept := fun (mask : Nat) => card.toNat % 2 ^ 256 &&& (2 ^ 256 - 1 - mask) ≠ 0
  (kept (matrixMask op sub card) → matrixCheck s f.c op sub ty card = bad) ∧
  (kMax ty < mcK card → matrixCheck s f.c 0xB8 sub ty card = bad) ∧
  (kMax wf < mcK card → mcLatch card = true → matrixCheck s f.c 0xB9 sub ty card = bad) ∧
  (mcOw card = 0 → matrixCheck s f.c 0xC0 sub ty card = bad) ∧
  (mcN card % 32 ≠ 0 → matrixCheck s f.c 0xBA sub 6 card = bad) ∧
  (15 < (mcCnt card - 1) / mcAstr card → matrixCheck s f.c 0xBC sub ty card = bad) ∧
  (2 ≤ sub → mcM card < mcMs card → matrixCheck s f.c 0xBF sub ty card = bad) ∧
  (kept (engineMask op card) → engineCheck s f op escope card = bad) ∧
  (footprintOk card = false → matrixCheck s f.c op sub ty card = bad ∧ engineCheck s f op escope card = bad) ∧
  (¬kept (matrixMask op sub card) → footprintOk card = true →
    (op = 0xB8 → mcK card ≤ kMax ty) → (op = 0xB9 ∨ op = 0xC0 → mcLatch card = true → mcK card ≤ kMax wf) → (op = 0xC0 → mcOw card ≠ 0) →
    (op = 0xBA → ty = 6 → mcN card % 32 = 0) → (op = 0xBC → (mcCnt card - 1) / mcAstr card ≤ 15) → (op = 0xBF → 2 ≤ sub → mcMs card ≤ mcM card) →
    matrixCheck s f.c op sub ty card = none) ∧
  (let src := recOf f.core (ecSrec card)
   let dst := recOf f.core (ecDrec card)
   let alike := recFmt src = recFmt dst ∧ elemCount src = elemCount dst
   let far := quadOfCore (ecDcore card) ∉ (s.partn f.task.part).quads
   let declared := ecCbn card ≤ 30 ∧ ∃ e ∈ (s.core (ecDcore card)).tasks, e.2.job = f.task.job ∧ e.2.bufs.getLsbD (ecCbn card) = true
   let sound := fun (op : Nat) => ¬kept (engineMask op card) ∧ footprintOk card = true
   let counts := ecCw card = true → ecCwaddr card % 4 = 0
   (¬alike → engineCheck s f 0xDA escope card = bad ∧ (ecTocb card = false → ecCw card = false → engineCheck s f 0xD8 escope card = bad)) ∧
   (ecSrec card = ecDrec card → engineCheck s f 0xDA escope card = bad) ∧
   (sound 0xDA → ecSrec card ≠ ecDrec card → alike → engineCheck s f 0xDA escope card = none) ∧
   (sound 0xD8 → counts → ecTocb card = false → alike → engineCheck s f 0xD8 escope card = none) ∧
   (sound 0xD8 → counts → ecTocb card = true → far → engineCheck s f 0xD8 escope card = some { cls := 0x0E }) ∧
   (sound 0xD8 → counts → ecTocb card = true → ¬far → ¬declared → engineCheck s f 0xD8 escope card = some { cls := 0x0D }) ∧
   (sound 0xD8 → counts → ecTocb card = true → ¬far → declared → engineCheck s f 0xD8 escope card = none) ∧
   (sound 0xD9 → ecOp card ≤ 4 → ecFold card ≤ 2 → ecFtype card ∈ [0, 1, 11, 12] → (escope < 4 → ecKey card = 0) →
     (ecOp card ≠ 3 → ecOp card ≠ 4 → ecRoot card = 0) → engineCheck s f 0xD9 escope card = none) ∧
   (4 < ecOp card ∨ 2 < ecFold card ∨ ecFtype card ∉ [0, 1, 11, 12] ∨ (escope < 4 ∧ ecKey card ≠ 0) ∨ (ecOp card ≠ 3 ∧ ecOp card ≠ 4 ∧ ecRoot card ≠ 0) →
     engineCheck s f 0xD9 escope card = bad)) ∧
  (∀ (c t n : Nat) (task : Task) (k : Card), s.task? c t = some task → cardOf task 2 n = some k → task.cutting = false → isEngineOp k.op = true → k.st = .started →
    let x := k.card
    let src := sourceOf s c k
    let count := unitCount src
    let moves := fun (v : State) => cardRowMove c t 2 n s = v
    let idles := moves (putCard s c t 2 { k with rowed := false })
    let becomes := fun (v : State) (k' : Card) => moves (putCard v c t 2 { k' with rowed := true })
    let fails := fun (v : State) (e : FaultInfo) (gen iter : Nat) => moves (if e.cls = notYet.cls then s else putCard v c t 2 { k with
      st := .withheld
      taken := false
      ticket := if e.cls = 9 then none else k.ticket
      fault := some { cls := e.cls, src := 1, slot := 126, gen := gen, acc := e.acc, detail := e.detail, iter := iter,
                      stall := tabGet 0 k.stalls gen, addr := e.addr, seqno := k.seq, info := e.info } })
    let lost := fun (b : Bool) => (if b then 3 else 0 : Word32)
    let gone := fun (b : Bool) => (if b then 0x13 else 0 : Word32)
    let readsUnit := fun (i iter : Nat) =>
      (∀ e v, readUnit c task.part k src i s = (.error e, v) → fails v e 0 iter) ∧
      ∀ u v, readUnit c task.part k src i s = (.ok u, v) →
        becomes v { k with block := k.block ++ [u], status := k.status ||| (if u.lost then 1 else 0) ||| gone u.gone, chmask := k.chmask ||| u.mask }
    let readsOwn :=
      (k.op = 0xD9 → recFmt src ≠ ecFtype x → fails s { cls := 0x02, addr := recBase src } 0 0) ∧
      ((k.op = 0xD9 → recFmt src = ecFtype x) → readsUnit k.block.length k.block.length)
    (k.op = 0xD8 →
      let dst := cardRec (s.core c) k (ecDrec x)
      (count ≤ k.prog → moves s) ∧
      (k.prog < count → readerReady s k = false → idles) ∧
      (k.prog < count → readerReady s k = true → ecTocb x = false →
        (k.block = [] → readsUnit (reordSrc (ecReord x) count k.prog) k.prog) ∧
        ∀ u rest, k.block = u :: rest →
          let write := writeUnit c task.part k dst k.prog (if u.lost then poisonUnit (recFmt dst) else u.x) u.lost s
          (∀ e v, write = (.error e, v) → fails v e 2 k.prog) ∧
          ∀ ks g v, write = (.ok (ks, g), v) → becomes (if k.prog + 1 = unitCount dst then releaseDeposit v k else v)
            { k with prog := k.prog + 1, block := [], wrote := ks ++ k.wrote, status := k.status ||| lost u.lost ||| gone g }) ∧
      (k.prog < count → readerReady s k = true → ecTocb x = true →
        (copyTarget s task k = none → becomes s { k with prog := count, block := [], status := k.status ||| 17 }) ∧
        ∀ dc, copyTarget s task k = some dc →
          let b := bufOf (s.core dc) (ecCbn x)
          let need := copyNeed s src (some dc) k
          let slot := packSlot (recFmt src) (k.block.map fun u => if u.lost then poisonUnit (recFmt src) else u.x)
          (b.free = 0 → idles) ∧ (b.free ≠ 0 → k.block.length < need → readsUnit (reordSrc (ecReord x) count (k.prog + k.block.length)) (k.prog + k.block.length)) ∧
          (b.free ≠ 0 → need ≤ k.block.length → k.block ≠ [] → ∀ v, cbDeliver s dc (ecCbn x) slot = some v → ∃ u,
            becomes u { k with prog := k.prog + k.block.length, block := [], status := k.status ||| lost (k.block.any UnitIn.lost) } ∧
            u = { v with poison := u.poison } ∧ (k.block.any UnitIn.lost = false → u = v)))) ∧
    (k.op = 0xD9 → k.prog = 0 →
      (collGather s c task k = none → moves s) ∧ ∀ ps, collGather s c task k = some ps →
        let mine := ps.filterMap Party.here
        let id := ps.foldl (fun a p => max a (p.order + 1)) 0
        let turn := collTurn s c t k ps
        let distinct := (mine.map fun p => (p.1, p.2.1, p.2.2.2.seq)).Nodup ∧ ∀ p ∈ mine, s.task? p.1 p.2.1 = some p.2.2.1 ∧ cardOf p.2.2.1 2 p.2.2.2.seq = some p.2.2.2
        let ready := (∃ p ∈ mine, p.1 = c ∧ p.2.1 = t ∧ p.2.2.2.seq = k.seq) ∧ ∀ p ∈ mine, p.2.2.2.st = .started ∧ readerReady s p.2.2.2 = true
        let alike := collForm k ps = true
        let size := partyElems s (ps.headD ⟨0, 0, 0, [], none, []⟩)
        let fitting := (∀ p ∈ ps, partyElems s p = size) ∧ (ecOp x = 1 → size % ps.length = 0)
        let binds := fun (st : Word32) (ys : Nat → List (Nat × Bool)) => ∃ u, moves u ∧ (∀ a, u.byte a = s.byte a) ∧ (distinct → ∀ r p d j y,
          ps[r]? = some p → p.here = some (d, j, y) → ∃ z, (u.task? d j).bind (fun w => cardOf w 2 y.2.seq) = some z ∧ z.unit = id ∧ z.prog = 1 ∧
            (let own := (ys r).take (unitCount (cardRec (s.core d) y.2 (ecDrec y.2.card)))
            z.tile = own.map (fun e => [e.1, e.2.toNat]) ∧ z.status = y.2.status ||| st ||| lost (own.any Prod.snd)))
        let one := fun (a b : Nat) => match ecFold x with
          | 0 => if isInt (ecFtype x) then encodeInt (ecFtype x) (decodeInt (ecFtype x) a + decodeInt (ecFtype x) b) else (faddBits (ecFtype x) 0 a b).1
          | 1 => if isInt (ecFtype x) then encodeInt (ecFtype x) (min (decodeInt (ecFtype x) a) (decodeInt (ecFtype x) b)) else (minMaxBits (ecFtype x) false a b).1
          | _ => if isInt (ecFtype x) then encodeInt (ecFtype x) (max (decodeInt (ecFtype x) a) (decodeInt (ecFtype x) b)) else (minMaxBits (ecFtype x) true a b).1
        let all := ps.map Party.elems
        let kept := fun (e : Nat × Bool) => (if e.2 then poisonElem (ecFtype x) else e.1, e.2)
        let fold := fun i =>
          let es := all.map fun xs => xs.getD i (0, false)
          let bad := es.any Prod.snd
          (if bad then poisonElem (ecFtype x) else es.tail.foldl (fun a e => one a e.1) (es.headD (0, false)).1, bad)
        let len := (all.headD []).length
        (¬ready → turn = .waits) ∧ (ready → ¬alike → turn = .refused 8) ∧ (ready → alike → ¬fitting → turn = .refused 4) ∧
        (ready → alike → fitting → ownRead s c k = false → turn = .reads) ∧
        (ready → alike → fitting → ownRead s c k = true → (∃ p ∈ mine, ownRead s p.1 p.2.2.2 = false) → turn = .waits) ∧
        (ready → alike → fitting → ownRead s c k = true → (∀ p ∈ mine, ownRead s p.1 p.2.2.2 = true) → turn = .combines) ∧
        (turn = .waits → moves s) ∧ (turn = .reads → readsOwn) ∧ (∀ st, turn = .refused st → binds st fun _ => []) ∧
        (turn = .combines → all ≠ [] → binds 0 fun r => match ecOp x with
          | 0 => (List.range len).map fold
          | 1 => (List.range (len / ps.length)).map fun i => fold (r * (len / ps.length) + i)
          | 2 => all.flatten.map kept
          | 3 => (all.getD (ecRoot x) []).map kept
          | _ => if r = ecRoot x then (List.range len).map fold else [])) ∧
    (k.op = 0xDA → k.prog = 0 → (∀ e ∈ k.recs, e.1 ≠ 64) →
      (readerReady s k = false → moves s) ∧
      (readerReady s k = true → ownRead s c k = false → readsOwn) ∧
      (readerReady s k = true → ownRead s c k = true →
        let mate := ringMate (ringOf s c task k.escope) task k
        (mate = none → moves s) ∧ ∀ pc pt pk y, mate = some (pc, pt, pk, y) →
          let from_ := sourceOf s pc y
          let dst := cardRec (s.core c) k (ecDrec y.card)
          let alike := unitCount from_ = unitCount dst ∧ recFmt from_ = recFmt dst
          let kept := k.recs ++ [(64, dst)]
          let dl := sweptLines (quadOfCore c) task.part dst s
          let taken := fun (u : State) (k' : Card) => ∀ z, (pc, pt) ≠ (c, t) → (s.task? pc pt).bind (fun w => cardOf w 2 y.seq) = some z →
            (u.task? c t).bind (fun w => cardOf w 2 k.seq) = some k' ∧ (u.task? pc pt).bind (fun w => cardOf w 2 y.seq) = some { z with unit := 1 }
          (y.st ≠ .started ∨ ownRead s pc y = false → moves s) ∧
          (y.st = .started → ownRead s pc y = true → ¬alike → ∃ u, moves u ∧ taken u { k with prog := 1, tile := [], recs := kept, status := k.status ||| 4 }) ∧
          (y.st = .started → ownRead s pc y = true → alike → ∀ w v, writerFor dl.2 c task dl.1 = (.ok w, v) → ∃ u, moves u ∧
            let ys := y.block.take (unitCount dst)
            taken u { k with
              prog := 1
              recs := kept
              deposit := w
              tile := ys.map fun z => [if z.lost then poisonUnit (recFmt from_) else z.x, z.lost.toNat]
              status := k.status ||| lost (ys.any UnitIn.lost)
              chmask := if ys.any UnitIn.lost then k.chmask ||| y.block.foldl (fun a z => a ||| z.mask) 0 else k.chmask }))) ∧
    (k.op ≠ 0xD8 → k.prog ≠ 0 →
      let dst := cardRec (s.core c) k (if k.op = 0xDA then 64 else ecDrec x)
      let y := k.tile.getD (k.prog - 1) []
      let write := writeUnit c task.part k dst (k.prog - 1) (y.headD 0) (y.getD 1 0 == 1) s
      (k.prog = 1 + k.tile.length → idles) ∧
      (k.prog ≠ 1 + k.tile.length → k.op = 0xD9 → recFmt dst ≠ ecFtype x → fails s { cls := 0x02, acc := 1, addr := recBase dst } 2 (k.prog - 1)) ∧
      (k.prog ≠ 1 + k.tile.length → (k.op = 0xD9 → recFmt dst = ecFtype x) → (∀ e v, write = (.error e, v) → fails v e 2 (k.prog - 1)) ∧
        ∀ ks g v, write = (.ok (ks, g), v) → becomes (if k.prog = k.tile.length then releaseDeposit v k else v)
          { k with prog := k.prog + 1, wrote := ks ++ k.wrote, status := k.status ||| gone g }))) ∧
  ∀ (c part : Nat) (k : Card) (r : BitVec 512) (i x : Nat) (poisoned_ : Bool),
    let va := unitAddr r i
    let size := unitSize (recFmt r)
    let key := keyScratch c va
    c < 512 → inWindow va = true → inWindow (va + size - 1) = true → s.latent = [] →
      (unitTouchOk k.card r i false = false → (readUnit c part k r i s).1 = .error { cls := 0x0D, addr := va }) ∧
      (unitTouchOk k.card r i false = true → recFmt r ≠ 5 → ∃ m, readUnit c part k r i s =
        (.ok { x := memRead s.mem key size, lost := poisoned s key size, mask := m }, s)) ∧
      (va % size = 0 ∨ recFmt r = 6 → unitTouchOk k.card r i true = true → recFmt r ≠ 5 →
        ∃ v, writeUnit c part k r i x poisoned_ s = (.ok ([(key, size)], false), v) ∧ bytesWritten s v 0 key size (byteOf x))

/-- A rider boards, or its boarding stalls or faults (11 Boarding R217, 11 R218, 11 R219, 11 R226, 11 R228, 11 R229, 11 R230, 11 R231, 11 R233, 11 R234). Log entries 28, 31, 48 give the readings that are the model's own here; no rule is cited for them. -/
def Obligations.RidersBoard : Prop := ∀ (w : EpW) (s : State) (f : Foc) (ops : List (Nat × Token)),
  let ports := withPred w.pm.toNat [0]
  let card := (tokAt ops 0).data
  let boards := fun (i : Instr) (op sub : Nat) (stand : Bool) (slots pipes : Rider → Nat) (ready : Except FaultInfo Rider × State) =>
    match ready with
    | (.error e, u) => epFaults i s u f e
    | (.ok r, m) =>
      if roomNow m f.task.job (r.chans.map Prod.fst) (slots r) (pipes r) = false then exec i s = .next s
      else
        let seq := (chainOf f.task 1).tail + 1
        let ticket := (m.partn r.part).tickets
        let jc := joinChain f.task op sub card f.ph.handler stand
        let rider := { r with seq := seq, handler := f.ph.handler }
        let u := (enterRider (m.setTask f.c f.t jc.1) rider).2
        let lanes := laneToken 0xF#16 fun l => if l = 0 then seq % 2 ^ 32 else if l = 1 then seq / 2 ^ 32 else if l = 2 then ticket % 2 ^ 32 else if l = 3 then ticket / 2 ^ 32 else 0
        jc.2 = seq ∧ epFires i s u f jc.1 ports 0 (some lanes) ∧ (u.partn r.part).tickets = (ticket + 1) % 2 ^ 64 ∧
          ∃ y, u.rider? (riderKey r.part ticket) = some y ∧ y.seq = seq ∧ y.ticket = ticket ∧ y.chans = r.chans ∧ y.standing = false ∧ y.card = r.card
  epReady s f ports ops →
  (∀ x ∈ [(Instr.brd w, 0xC8, 0), (.bsum w, 0xC9, 0), (.bflt w, 0xCA, 0), (.bdep w, 0xCB, 0), (.bupdIadd w, 0xCC, 0), (.bupdFadd w, 0xCC, 1),
      (.bupdImin w, 0xCC, 2), (.bupdImax w, 0xCC, 3), (.bupdAnd w, 0xCC, 4), (.bupdOr w, 0xCC, 5), (.bupdXor w, 0xCC, 6), (.bupdSet w, 0xCC, 7),
      (.batt w, 0xCE, 0), (.bclone w, 0xCF, 0)],
    if actsNull w.pm.toNat ops then epAnswers x.1 s f ports nullToken
    else boards x.1 x.2.1 x.2.2 false slotsTaken pipesTaken (prepareRider s f.c f.t f.task.part x.2.1 x.2.2 false card)) ∧
  (∀ x ∈ [(Instr.bstandRd w, 0xC8, 0), (.bstandSum w, 0xC9, 1), (.bstandFlt w, 0xCA, 2), (.bstandAtt w, 0xCE, 3)],
    if actsNull w.pm.toNat ops then epAnswers x.1 s f ports nullToken
    else boards x.1 x.2.1 x.2.2 true slotsTaken pipesTaken (prepareRider s f.c f.t f.task.part x.2.1 x.2.2 true card)) ∧
  (if actsNull w.pm.toNat ops then epAnswers (.bmac w) s f ports nullToken
   else match matrixCheck s f.c 0xCD 0 0 card with
    | some e => epFaults (.bmac w) s s f e
    | none => match prepareBank s f.c f.t f.task card none (mcM card) with
     | (.error e, u) => if e.cls = notYet.cls then exec (.bmac w) s = .next s else epFaults (.bmac w) s u f e
     | (.ok r, u) => boards (.bmac w) 0xCD 0 false (fun _ => 1) (fun _ => 1) (.ok r, u)) ∧
  (∀ op sub stand, op ≠ 0xCF → cardCheck s f.c f.task.part op stand card = none →
    let n := operandBytes op card
    let lines := rangeLines (quadOfCore f.c) f.task.part (rcVbase card) (rangeNeed op) (rcLines card) s
    lines.1 = none → (n = 0 ∨ inWindow (rcSaddr card + n - 1) = true) → rcCw card = false → (op = 0xC8 → rcLand card = false) →
    declaresRoom s f.task.job (if stand then 2 else 1) (if needsPipe op then 1 else 0) = true → ∃ r,
      prepareRider s f.c f.t f.task.part op sub stand card = (.ok r, lines.2.2) ∧ r.op = (if stand then 0xD4 else op) ∧ r.sub = sub ∧
      r.card = card ∧ r.chans = byChannel lines.2.1 ∧ r.job = f.task.job ∧ r.rank = f.task.rank ∧ r.part = f.task.part ∧ r.standing = stand ∧
      r.cw = none ∧ r.land = [])

/-- bcancel, bwait, cursor, bcfg and wdrive, and what riders do to a line that passes (11 Pass R222, 11 R226, 11 R227, 11 R228, 11 R229, 11 R230, 11 R231, 11 R232, 11 R233, 11 Cancel and wait R235, 11 R236, 12 Feeds R243). Log entries 9, 48, 122 give the readings that are the model's own here; no rule is cited for them. -/
def Obligations.SweepControl : Prop :=
  (∀ (w : EpW) (s : State) (f : Foc) (ops : List (Nat × Token)),
    let ports := withPred w.pm.toNat [0]
    let x := tokAt ops 0
    let n := laneVal x 0 8
    let ch := s.chan (x.lane 0)
    epReady s f ports ops →
    (actsNull w.pm.toNat ops = true → (∀ i ∈ [Instr.bcancel w, .bwait w, .cursor w, .bcfg w], epAnswers i s f ports nullToken) ∧ firesFrom (.wdrive w) s s f ports id) ∧
    (f.nd.iter + 1 ≠ phaseEnd f.ph → firesFrom (.wdrive w) s s f ports id) ∧
    (actsNull w.pm.toNat ops = false →
      (∀ key r, riderBySeq s f.task.job f.task.rank n = some (key, r) → cancellable r.op = true → r.cancelled = false →
        (r.standing = true ∨ nothingOwed s key r = false) →
        let m := cancelRiders s fun k y => k == key || y.parent == some key
        let u := if r.standing then endStanding m key else m
        ∀ task, u.task? f.c f.t = some task → epFires (.bcancel w) s u f task ports 0 (some (laneToken 1#16 fun _ => 1))) ∧
      ((∀ key r, riderBySeq s f.task.job f.task.rank n = some (key, r) → cancellable r.op = false ∨ r.cancelled = true ∨ (r.standing = false ∧ nothingOwed s key r = true)) →
        epAnswers (.bcancel w) s f ports (laneToken 1#16 fun _ => 0)) ∧
      (riderBySeq s f.task.job f.task.rank n = none → epAnswers (.bcancel w) s f ports (laneToken 1#16 fun _ => 0)) ∧
      ((chainOf f.task 1).tail < n → epFaults (.bwait w) s s f { cls := 0x05 }) ∧
      (n ≤ (chainOf f.task 1).tail → waitResult s f.task n = none → exec (.bwait w) s = .next s) ∧
      (∀ d, n ≤ (chainOf f.task 1).tail → waitResult s f.task n = some d →
        epFires (.bwait w) s (forgetL1 s f.c) f f.task ports 0 (some (doneToken n d.status.toNat d.misses d.chmask))) ∧
      (384 ≤ x.lane 0 ∨ ch.owner ≠ f.task.part → epFaults (.cursor w) s s f { cls := 0x0E }) ∧
      (x.lane 0 < 384 → ch.owner = f.task.part →
        epAnswers (.cursor w) s f ports (laneToken 0x3F#16 fun l => [ch.cursor, ch.rev % 2 ^ 32, ch.rev / 2 ^ 32, ch.len, periodMax ch % 2 ^ 32, x.lane 0].getD l 0)) ∧
      (let zero := n / 2 ^ 57 = 0 ∧ x.lane 2 / 16 = 0 ∧ x.data.extractLsb' 96 416 = 0
       (¬zero → epFaults (.bcfg w) s s f { cls := 0x05 }) ∧
       (zero → n % 16 ≠ 0 → epFaults (.bcfg w) s s f { cls := 0x02, addr := n }) ∧
       ∀ m, zero → n % 16 = 0 →
        (∀ e, loadImage true f.c f.task.part n s = (.error e, m) → epFaults (.bcfg w) s m f e) ∧
        ∀ h ws, loadImage true f.c f.task.part n s = (.ok (h, ws), m) → ∃ u y,
          let seq := (chainOf f.task 1).tail + 1
          let ticket := (m.partn f.task.part).tickets
          epFires (.bcfg w) s u f (joinChain f.task 0xD0 0 x.data f.ph.handler false).1 ports 0 (some (riderToken seq ticket)) ∧
          u = { m with riders := u.riders, parts := u.parts, cores := u.cores } ∧ onlyTask f.c f.t { u with cores := m.cores } u ∧
          (∀ k, k ≠ riderKey f.task.part ticket → u.rider? k = m.rider? k) ∧ (∀ k, k ≠ f.task.part → u.partn k = m.partn k) ∧
          u.rider? (riderKey f.task.part ticket) = some y ∧ y.op = 0xD0 ∧ y.sub = x.lane 2 ∧ y.seq = seq ∧ y.operand = h.toNat :: ws.map BitVec.toNat ∧
          ∀ k, (k ∈ y.chans.map Prod.fst ↔ k < 384 ∧ (m.chan k).owner = f.task.part)) ∧
      (f.nd.iter + 1 = phaseEnd f.ph → match feedCardCheck f.task x.data with
        | some e => epFaults (.wdrive w) s s f e
        | none => match boardFeed (leaveFeed s f.c f.t) f.c f.t f.task x.data with
          | .error e => if e.cls = notYet.cls then exec (.wdrive w) s = .next s else epFaults (.wdrive w) s s f e
          | .ok none => exec (.wdrive w) s = .next s
          | .ok (some m) => ∀ task, (joinFeed m f.c f.t x.data true).task? f.c f.t = some task → ∃ t ph,
            exec (.wdrive w) s = .next t ∧ nodeFired f ports [] ph ∧ FiredFrom (joinFeed m f.c f.t x.data true) f task t { ph with wdrive := some x.data }))) ∧
  (∀ (s : State) (n : Nat), nextSlot (s.chan n) = .advancing → s.latent = [] →
    let m := leaveCancelled { s with stamp := s.stamp + 1 } n
    ∃ t, exec (.pass n) s = .next t ∧ ∀ a, t.byte a = (passRiders m n (s.chan n).cursor (s.chan n).rev (aboard m n)).byte a) ∧
  (∀ (s : State) (ch line rev key off : Nat) (r : Rider) (x : RiderChan), s.rider? key = some r → tabFind r.chans ch = some x →
    let pa := linePa ch line
    let op := if r.op = 0xD4 then standKind r.sub else r.op
    let t := riderPass s ch line rev key
    let bad := lineBad s pa
    let old := lineOf s (r.view off) pa
    let seen := fun (y : RiderChan) => { y with todo := x.todo.filter fun e => e != (line, off), lastRev := rev, lastAt := (s.chan ch).slot }
    let becomes := fun (q : Rider) (y : RiderChan) => t.rider? key = some { q with chans := tabPut r.chans ch (seen y) }
    let lost := { r with status := r.status ||| 1, chmask := r.chmask ||| 1 <<< ch }
    let lostPart := { lost with status := r.status ||| 1 ||| 2 }
    let ready := x.dest.filter fun d => d.1 == line && (tabFind r.data d.2).isSome
    let sectors := fun (p : Nat → Bool) => ∀ i, i < 8 → tabGet false t.poison (pa / 32 + i) = p i
    (cloneHolds s r.part r.ticket ch line = true → t = s) ∧
    (cloneHolds s r.part r.ticket ch line = false → ready = [] → (x.todo.filter fun e => e.1 == line) = [(line, off)] → r.kind ≠ 3 →
      (op = 0xC8 → r.kind ≠ 1 → rcLand r.card = false →
        let tag := off % 2 ^ 32 + ch * 2 ^ 32 + 0xFFFF * 2 ^ 64 + (if bad = 0 then 0 else 2 ^ 192) + rev % 2 ^ 32 * 2 ^ 224
        (16 ≤ x.queue.length → t = s.setRider key { r with misses := r.misses + 1, status := r.status ||| 8 }) ∧
        (x.queue.length < 16 → sameMemory s t ∧
          becomes (if bad = 0 then r else lostPart) { x with queue := x.queue ++ [(if bad = 0 then tag + old * 2 ^ 512 else tag, bad, true)] })) ∧
      (op = 0xC8 → r.kind ≠ 1 → rcLand r.card = true → ∀ k v, tabGet [] r.land off = [⟨k, 256, v⟩] → isRemote k = false →
        bytesWritten s t v k 256 (byteOf (if bad = 0 then old else poisonLine r.landFmt)) ∧ becomes (if bad = 0 then r else lostPart) x) ∧
      (op = 0xCB → bytesWritten s t (r.view off) pa 256 (byteOf (r.operand.getD off 0)) ∧ becomes r x ∧
        sectors fun i => (lostSectors r off).testBit i) ∧
      (op = 0xCC →
        (bad ≠ 0 → sameMemory s t ∧ becomes lost x) ∧
        (bad = 0 → becomes r x ∧ (sectors fun _ => false) ∧ ∃ new, bytesWritten s t (r.view off) pa 256 (byteOf new) ∧ ∀ j, j < 64 →
          let a := bitsOf old (32 * j) 32
          let o := bitsOf (r.operand.headD 0) (32 * j) 32
          let z := fun (f : Int → Int → Int) => encodeInt 11 (f (decodeInt 11 a) (decodeInt 11 o))
          bitsOf new (32 * j) 32 = ([(a + o) % 2 ^ 32, (faddBits 0 0 a o).1, z min, z max, a &&& o, a ||| o, a ^^^ o].getD r.sub o))) ∧
      (op = 0xCF → sameMemory s t ∧ becomes (if bad = 0 then { r with data := tabPut r.data off old }
        else { lostPart with data := tabPut r.data off old, bad := r.bad ++ [(off, 255)] }) x) ∧
      ((op = 0xC8 ∧ r.kind = 1) ∨ op = 0xCD → sameMemory s t ∧ becomes (if bad = 0 then { r with data := tabPut r.data off old }
        else { (if op = 0xCD then lostPart else lost) with data := tabPut r.data off old, bad := r.bad ++ [(off, if op = 0xCD then 255 else bad)] }) x) ∧
      (op = 0xCA → 16 ≤ x.queue.length → t = s.setRider key { r with misses := r.misses + 1, status := r.status ||| 8 }) ∧
      (op = 0xC9 ∨ op = 0xCE ∨ (op = 0xCA ∧ x.queue.length < 16) → sameMemory s t ∧
        let k := x.kernel.getD (kernelStart ⟨0, []⟩ 0)
        let fed := kernelFeed k (if bad = 0 then some old else none) r.operand
        (∀ q, q < 4 → wordAt k (6 * q) ≠ 0 → (stageNeeds (wordOp (wordAt k (6 * q))) (readStage (wordAt k (6 * q)))).contains 0 = true →
          producers (blockSlots k.words) (24 * q) = 0 →
          portQ (nodeOf fed (6 * q)) 0 = portQ (nodeOf k (6 * q)) 0 ++
            [if bad = 0 then ⟨BitVec.ofNat 512 (bitsOf old (512 * q) 512), 0xFFFF#16, false⟩ else nullToken]) ∧
        ∃ q y, q = { (if bad = 0 then r else lost) with flags := q.flags } ∧ becomes q y ∧
          y = kernelDrain { r with flags := q.flags } op ch 8 { x with kernel := some (kernelRun 64 fed 0).1, fed := x.fed ++ [⟨off, rev, bad != 0⟩] })) ∧
    (∀ fl xs, let y := kernelAnswer r op ch x fl xs
      (op = 0xCA → (xs.all Token.null = true → y = x) ∧ (xs.all Token.null = false → y =
        { x with queue := x.queue ++ [(tokensSlot (tagBytes fl.offset ch (tokenMasks xs) fl.bad fl.rev) xs, 0, true)] })) ∧
      (op ≠ 0xCA → y.folded = x.folded + 1 ∧ y.queue = x.queue)) ∧
    ∀ v, cloneHolds s r.part r.ticket ch line = false → ready = [(line, off)] → tabFind r.data off = some v → tabFind r.masks off = none →
      (x.todo.filter fun e => e.1 == line) = [] →
      (lostSectors r off = 0 → bytesWritten s t (r.viewDest off) pa 256 (byteOf v) ∧ sectors fun _ => false) ∧
      (lostSectors r off ≠ 0 → bytesWritten s t (r.viewDest off) pa 256 (byteOf (poisonLine 8)) ∧ sectors fun _ => true) ∧
      t.rider? key = some { r with chans := tabPut r.chans ch { x with dest := x.dest.filter fun d => d != (line, off) } })

/-- The sequence instructions (13 Sequences R273, 13 R275, 13 R276, 13 R278, 13 R280, 13 R281, 13 R282, 13 R283, 13 R284, 13 R285, 21 The memory system R356). Log entries 33, 62, 111, 117 give the readings that are the model's own here; no rule is cited for them. -/
def Obligations.KvFires : Prop :=
  (∀ (w : EpW) (sub : BitVec 8) (s : State) (f : Foc) (ops : List (Nat × Token)),
    let ports := withPred w.pm.toNat [0]
    let all := [(Instr.kvopen w, 0xDB, 0), (.kvfork w, 0xDC, 0), (.kvreserve w, 0xDD, 0), (.kvwin w, 0xDE, 0), (.kvcommit w, 0xDF, 0), (.kvabort w, 0xE0, 0),
      (.kvlen w, 0xE1, 0), (.kvclose w, 0xE2, 0), (.kvarm w, 0xE4, 0), (.kvsnap w, 0xE5, 0), (.kvsend w sub, 0xE3, sub.toNat)]
    epReady s f ports ops →
    ∀ i ∈ all,
      (actsNull w.pm.toNat ops = true → epAnswers i.1 s f ports nullToken) ∧
      (actsNull w.pm.toNat ops = false →
        let q : KvReq := { op := i.2.1, sub := i.2.2, card := (tokAt ops 0).data, iter := f.nd.iter, key := 2 ^ 400 + s.tick, stamp := s.stamp }
        firesFrom i.1 s s f ports fun ph =>
          flushOwed (setOwed { ph with kvReqs := ph.kvReqs ++ [q] } f.slot (owedOf f.ph f.slot ++ [⟨f.nd.iter, q.key, none⟩])) f.slot)) ∧
  (∀ (s : State) (c t n : Nat) (heldP : Bool) (task : Task) (ph : Phase) (q : KvReq),
    s.task? c t = some task → phaseAt task heldP = some ph → ph.kvReqs[n]? = some q →
    let here := task.phase.toList ++ task.held.toList
    let before : Prop := (∀ y ∈ here, ∀ e ∈ y.accs, ∀ a ∈ e.2, notReached false 3 a = true → q.stamp ≤ a.issuedAt) ∧
      (∀ p ∈ (s.core c).stores, p.task = t → p.scope ≤ 3 → q.stamp ≤ p.stamp) ∧
      ∀ h ∈ s.hostWc ++ s.hostLink, h.job = task.job → h.rank = task.rank → h.scope ≤ 3 → q.stamp ≤ h.stamp
    let sent : Prop := q.again = false ∨ (heldP = false ∧ task.cutting = false ∧ (s.core c).running = some t)
    let does := kvMove c t heldP n s
    let faults := fun (e : FaultInfo) (waits : Bool) =>
      let m := { s with mustWait := waits }
      does = if waits then m else kvFaults c t heldP ph q e m
    let settles := fun (m : State) (g : Task → Task) => does = modTask (forgetL1 m c) task.job task.rank g
    let dropped := fun (x : Task) => { x with phase := x.phase.map fun y => dropReq y q.key, held := x.held.map fun y => dropReq y q.key }
    let answers := fun (m : State) (x : Token) => settles m fun y => settleOwed (dropped y) 126 q.key x
    let word := fun (m : State) (o : KvOut) =>
      let free := (m.partn task.part).kvfree.toNat
      laneToken 0x3F#16 fun l => [o.status, o.clen, o.lane2, free % 2 ^ 32, o.lane45 % 2 ^ 32, o.lane45 / 2 ^ 32].getD l 0
    (¬before ∨ ¬sent → does = s) ∧
    (before → sent → q.op ≠ 0xE3 → match kvTransaction q.op c task.part q.card s with
      | (.error e, u) => faults e u.mustWait
      | (.ok o, u) => answers (if o.change then u else { s with mustWait := u.mustWait }) (word (if o.change then u else s) o)) ∧
    (before → sent → q.op = 0xE3 → match kvSendCheck c task.part s.pkgId q.card s with
      | (.error e, u) => faults e u.mustWait
      | (.ok (.error st, clen), m) => answers m (word m { status := st, clen := clen })
      | (.ok (.ok (pages, nlayl, dst), clen), m) =>
        let seq := (chainOf task 2).tail + 1
        let k : Card := { seq := 0, op := 0xE3, sub := q.sub, card := q.card, handler := ph.handler, order := s.cardOrder, st := .started }
        let x : KvSend := { part := task.part, core := c, job := task.job, rank := task.rank, seq := seq, seqVa := kcSeq q.card, card := q.card,
                            pages := pages, nlayl := nlayl, layer := kcLay q.card, left := kcLays q.card, dst := dst }
        if dst = none ∧ podReach s (kcDpkg q.card) = false then answers m (word m { status := 7, clen := clen })
        else match sendLayer (({ m with cardOrder := m.cardOrder + 1 }).setTask c t (appendCard task 2 k)) s.cardOrder x with
          | .error e => faults e (e.cls = notYet.cls)
          | .ok u =>
            if q.sub = 1 then settles u fun y =>
              let go := fun z => renameOwed (dropReq z q.key) 126 q.key (cardKey 2 seq)
              { y with phase := y.phase.map go, held := y.held.map go }
            else answers u (issueToken seq))) ∧
  (∀ (r : KvRec) (n : Nat) (u : State), pendingAt (u.core r.by_) r.run.key n = true ∨ homeOpen u r.run.key n 3 = false →
    kvRequest r n u = { u with mustWait := true }) ∧
  ∀ (a : KvArg) (u : State),
    let d := a.d
    let p := u.partn a.part
    let need := (a.n + 2 ^ sdPppl d - 1) / 2 ^ sdPppl d
    let held := (sdClen d + 2 ^ sdPppl d - 1) / 2 ^ sdPppl d
    let slot := fun (n : Nat) => (sdRsbase d + n * 2 ^ sdRssl d) % 2 ^ 57
    let put := fun (x : Nat) =>
      let m := writeView (kvRequest a.key 64 u) a.key.run.view a.key.run.key 64 x false
      m.setPart a.part { m.partn a.part with seqs := if sdState x = 1 then a.va :: (m.partn a.part).seqs.erase a.va else (m.partn a.part).seqs.erase a.va }
    let refuses := fun (k : KvM KvOut) (st : Nat) => k u = (.ok { status := st, clen := sdClen d, change := false }, u)
    (kvLen a u = (.ok (if a.w = 0 then { clen := sdClen d, lane2 := sdRlen d, lane45 := slot (sdCslot d) }
      else match winRecord d a.w with
        | some x => { clen := sdClen d, lane2 := sdClen d + wnCnt (sdWin d x), lane45 := slot (sdCslot d) }
        | none => { status := 6, clen := sdClen d, lane2 := sdClen d, lane45 := slot (sdCslot d) }), u)) ∧
    (emptyRecord d = none ∨ (winRecord d a.w).isSome = true ∨ sdRlen d ≠ sdClen d → refuses (kvWin a) 3) ∧
    (∀ x, emptyRecord d = some x → winRecord d a.w = none → sdRlen d = sdClen d → kvWin a u =
      (.ok { clen := sdClen d }, put (setWin d x (a.w + (if winOpen d then 0 else 2 ^ 9) + noPage * 2 ^ 26 + noPage * 2 ^ 50)))) ∧
    (∀ x, a.n ≠ 0 → kvSnap a x u = (.ok { clen := sdClen d, lane45 := slot ((sdCslot d + 16 * x + a.n) % 65) }, put (setWin d x (sdWin d x ||| 2 ^ (10 + a.n - 1))))) ∧
    kvCommit a none u = (.ok { clen := sdClen d + a.n }, put (setClen d (sdClen d + a.n))) ∧
    (sdBtn d < need → refuses (kvOpen a) 4) ∧ (need ≤ sdBtn d → p.kvfree.toNat < need + p.kvreserve.toNat → refuses (kvOpen a) 1) ∧
    (∀ k cd, (sdBtn cd < held → refuses (kvFork a k cd) 4) ∧ (held ≤ sdBtn cd → p.kvfree.toNat < p.kvreserve.toNat → refuses (kvFork a k cd) 1)) ∧
    (winOpen d = true → refuses (kvReserve0 a) 3) ∧ (winOpen d = false → sdBtn d ≤ (sdRlen d + a.n - 1) / 2 ^ sdPppl d → refuses (kvReserve0 a) 4)

/-- bar.a, bar.w, bar.aw and bar.lv (14 Barriers R301, 14 R302, 02 Barriers R43, 15 R323). Log entries 37, 38, 39, 40, 118, 120 give the readings that are the model's own here; no rule is cited for them. -/
def Obligations.BarriersFire : Prop := ∀ (w : EpW) (s : State) (f : Foc) (ops : List (Nat × Token)), epReady s f [0] ops →
  let v := (tokAt ops 0).lane 0
  let scope := w.escope.toNat
  let id := v % 16
  let count := v / 256 % 256
  let err := v.testBit 16
  let pod := v / 2 ^ 17 % 2 ^ 15
  let key := if scope = 4 then podKey (s.partn f.task.part).podpart pod id else barrierKey f.task.job scope f.c id
  let token := fun (u : State) (task : Task) =>
    laneToken 3#16 fun l => if l = 0 then (u.barrier key).done % 2 ^ 32 else if l = 1 then (roundErr u task key).toNat else 0
  let all := [(Instr.barA w, 0), (.barW w, 1), (.barAw w, 2), (.barLv w, 3)]
  let void := actsNull 0 ops = true ∨ maskBit (tokAt ops 0).mask 0 = false
  let bad := v / 16 % 16 ≠ 0 ∨ (scope ≠ 4 ∧ pod ≠ 0) ∨ (scope = 4 ∧ count = 0)
  let cut := scope = 4 ∧ podReachable s = false
  let waits := fun (i : Instr) (u : State) (g : Foc) => match openRound u g.task key with
    | none => epFires i s (if scope = 0 then u else forgetL1 u f.c) g g.task [0] 0 (some (token u g.task))
    | some r => epFires i s u g g.task [0] (waitKey key r) none
  let fence := epFenced s f scope
  let fenced := fun (l : List (Nat × List Nat)) => s.setTask f.c f.t { f.task with phase := some { f.ph with epFences := l } }
  let arrived := taskArrives fence.2 f.c f.t key count err
  (void → ∀ i ∈ all, epAnswers i.1 s f [0] nullToken) ∧
  (¬void → bad → ∀ i ∈ all, epFaults i.1 s s f { cls := 0x05 }) ∧
  (¬void → ¬bad →
    (cut → ∀ i ∈ all, i.2 ≠ 3 → epFaults i.1 s s f { cls := 0x09 }) ∧
    (¬cut → waits (.barW w) s f) ∧
    (let u := recheckBarriers ((withdraw s f.task key).setTask f.c f.t { f.task with left := leftCode key :: f.task.left }) f.task.job
     ∃ g, foc? u = some g ∧ epFires (.barLv w) s u g g.task [0] 0
      (some (laneToken 3#16 fun l => if l = 0 then (u.barrier key).done % 2 ^ 32 else if l = 1 then (u.barrier key).err.toNat else 0))) ∧
    (¬cut → ¬releasedBy s f.c f.t f.task scope → exec (.barA w) s = .next s ∧ exec (.barAw w) s = .next s) ∧
    (¬cut → releasedBy s f.c f.t f.task scope → fence.1 = false → exec (.barA w) s = .next fence.2 ∧ exec (.barAw w) s = .next fence.2) ∧
    (¬cut → releasedBy s f.c f.t f.task scope → fence.1 = true → ∃ g, foc? arrived = some g ∧ waits (.barAw w) arrived g ∧
      epFires (.barA w) s arrived g g.task [0] 0 (some (token arrived g.task)))) ∧
  (let r := s.barrier key
   let takesBack := scope ≠ 4 ∧ r.count = 0 ∧ r.arrivals ≠ 0 ∧ tabFind f.task.arrived key = some (r.done + 1) ∧ leftCode key ∉ f.task.left
   (takesBack → withdraw s f.task key = s.setBarrier key { r with arrivals := r.arrivals - 1 }) ∧
   (2 ^ 40 ≤ key ∨ scope = 4 ∧ (s.partn f.task.part).podpart < 2 ^ 20 → ¬takesBack → withdraw s f.task key = s)) ∧
  (scope < 4 → fence = (true, s)) ∧
  (4 ≤ scope → match tabFind f.ph.epFences f.slot with
    | none => fence = if pathSwitches s = [] then (true, s) else (false, fenced (tabPut f.ph.epFences f.slot (pathSwitches s)))
    | some l => fence = if l = [] then (true, fenced (tabDel f.ph.epFences f.slot)) else (false, s)) ∧
  (scope ≠ 4 → leftCode key = 16 * scope + id) ∧
  (scope = 4 → (s.partn f.task.part).podpart < 2 ^ 20 → leftCode key = 2 ^ 8 + 16 * pod + id)

/-- An arrival counts, and the last one completes its round (02 Barriers R43, 14 Barriers R301). Log entry 37 gives the readings that are the model's own here; no rule is cited for them. -/
def Obligations.BarrierRounds : Prop := ∀ (s : State) (key count : Nat) (err : Bool),
  let b := s.barrier key
  let n := if b.arrivals = 0 then count else b.count
  let need := if n = 0 then participants s key else n
  let after := arriveAt s key count err
  (∀ k, k ≠ key → after.barrier k = s.barrier k) ∧
  (b.arrivals + 1 < need → after.barrier key = { b with arrivals := b.arrivals + 1, count := n, err := b.err || err } ∧ after.cores = s.cores) ∧
  (need ≤ b.arrivals + 1 → after.barrier key =
    { done := b.done + 1, arrivals := 0, count := 0, err := false, errs := if b.err || err then (b.done + 1) :: b.errs else b.errs }) ∧
  after = { s with barriers := after.barriers, cores := after.cores }

/-- msend, bind and waitseq (14 Messages R303, 14 R304, 14 R306, 02 Messages R40). Log entries 9, 39, 41, 69, 118 give the readings that are the model's own here; no rule is cited for them. -/
def Obligations.MessagesAndWaits : Prop := ∀ (w : EpW) (s : State) (f : Foc) (ops : List (Nat × Token)),
  let a := tokAt ops 0
  let b := tokAt ops 1
  let ok := fun (x : Token) (ls : List Nat) => ls.all fun l => maskBit x.mask l
  let scope := w.escope.toNat
  (epReady s f [0, 1] ops →
    let core := a.lane 0 % 512
    let chan := a.lane 0 / 512 % 64
    let pkg := if scope = 4 then a.lane 1 % 256 else s.pkgId
    let void := actsNull 0 ops = true ∨ ok a (if scope = 4 then [0, 1] else [0]) = false ∨ ok b (List.range 12) = false
    let outside := pkg = s.pkgId ∧ quadOfCore core ∉ (s.partn f.task.part).quads
    let lost := 4 ≤ scope ∧ (tabFind f.ph.epFences f.slot).isSome = true ∧ podReachable s = false
    let m : Message := ⟨if pkg = s.pkgId then core else core + 512 * (pkg + 1), chan, scope, b.data.setWidth 384, f.task.job, f.task.rank, 2 ^ 400 + s.tick⟩
    (void → epAnswers (.msend w) s f [0, 1] nullToken) ∧
    (¬void → outside → epFaults (.msend w) s s f { cls := 0x0E }) ∧
    (¬void → pkg ≠ s.pkgId → podReach s pkg = false → epFaults (.msend w) s s f { cls := 0x09 }) ∧
    (¬void → ¬outside → (pkg = s.pkgId ∨ podReach s pkg = true) → lost → epFaults (.msend w) s s f { cls := 0x09 }) ∧
    (¬void → ¬outside → (pkg = s.pkgId ∨ podReach s pkg = true) → ¬lost →
      let fence := epFenced s f scope
      let u := { fence.2 with messages := s.messages ++ [m] }
      (¬releasedBy s f.c f.t f.task scope → exec (.msend w) s = .next s) ∧
      (releasedBy s f.c f.t f.task scope → fence.1 = false → exec (.msend w) s = .next fence.2) ∧
      (releasedBy s f.c f.t f.task scope → fence.1 = true → ∃ g, foc? u = some g ∧ epFires (.msend w) s u g g.task [0, 1] (2 ^ 400 + s.tick) none) ∧
      (scope < 4 → releasedBy s f.c f.t f.task scope → epFires (.msend w) s { s with messages := s.messages ++ [m] } f f.task [0, 1] (2 ^ 400 + s.tick) none))) ∧
  (epReady s f [0] ops →
    let chan := a.lane 0 % 64
    let prio := a.lane 0 / 64 % 128
    let move := (a.lane 0).testBit 13
    let handler := laneVal a 2 8 % 2 ^ 57
    let ch := tabGet {} (s.core f.c).chans chan
    let void := actsNull 0 ops = true ∨ ok a [0, 2, 3] = false
    let other := ch.task.bind fun t => if t = f.t then none else tabFind (s.core f.c).tasks t
    let takes : Chan := if handler = 0 then { ch with task := none, prio := 0, handler := 0 } else { ch with task := some f.t, prio := prio, handler := handler }
    let binds := epFires (.bind w) s (s.setCore f.c { s.core f.c with chans := tabPut (s.core f.c).chans chan takes }) f f.task [0] 0 (some (laneToken 1#16 fun _ => 0))
    let refuses := fun (n : Nat) => epAnswers (.bind w) s f [0] (laneToken 1#16 fun _ => n)
    (void → epAnswers (.bind w) s f [0] nullToken) ∧
    (¬void → handler % 16 ≠ 0 → epFaults (.bind w) s s f { cls := 0x02, addr := handler }) ∧
    (¬void → handler % 16 = 0 → match other with
      | some o => if o.job ≠ f.task.job then refuses 2 else if move then binds else refuses 1
      | none => if ch.held = none then binds else refuses 2)) ∧
  (epReady s f [0] ops →
    let seq := laneVal a 0 8
    let k := a.lane 2 % 4
    let ch := chainOf f.task k
    let void := actsNull 0 ops = true ∨ ok a [0, 1, 2] = false
    (void → epAnswers (.waitseq w) s f [0] nullToken) ∧
    (¬void → k = 3 ∨ ch.tail < seq → epFaults (.waitseq w) s s f { cls := 0x05 }) ∧
    (¬void → k ≠ 3 → seq ≤ ch.tail → ch.done < seq → exec (.waitseq w) s = .next s) ∧
    (¬void → k ≠ 3 → seq ≤ ch.tail → seq ≤ ch.done →
      (seq = 0 → epFires (.waitseq w) s (forgetL1 s f.c) f f.task [0] 0 (some (doneToken seq 0 0 0))) ∧
      (∀ d, seq ≠ 0 → ch.hist.find? (fun d => d.seq == seq) = some d →
        epFires (.waitseq w) s (forgetL1 s f.c) f f.task [0] 0 (some (doneToken seq d.status.toNat 0 d.chmask))) ∧
      (seq ≠ 0 → ch.hist.find? (fun d => d.seq == seq) = none →
        ∃ status mask, epFires (.waitseq w) s (forgetL1 s f.c) f f.task [0] 0 (some (doneToken seq status 1 mask)))))

/-- yield, end, eret and trap (14 Tasks R300, 14 R305, 14 R307, 09 Exit R178, 16 R338). Log entry 17 gives the readings that are the model's own here; no rule is cited for them. -/
def Obligations.TaskControl : Prop := ∀ (w : EpW) (s : State) (f : Foc) (ops : List (Nat × Token)), epReady s f [0] ops →
  let a := tokAt ops 0
  let x := a.lane 0
  let records := fun (i : Instr) (g : Phase → Phase) => firesFrom i s s f [0] g
  (f.nd.iter + 1 ≠ phaseEnd f.ph ∨ a.null = true → ∀ i ∈ [Instr.yield w, .yieldWait w, .endTask w, .eret w], records i id) ∧
  (f.nd.iter + 1 = phaseEnd f.ph → a.null = false →
    records (.yield w) (fun ph => { ph with yieldOp := some false }) ∧
    records (.yieldWait w) (fun ph => { ph with yieldOp := some true }) ∧
    records (.endTask w) (fun ph => { ph with endOp := true }) ∧
    (if f.ph.handler = false then epFaults (.eret w) s s f { cls := 0x04, acc := 2 }
     else if maskBit a.mask 0 = false ∨ 2 ≤ x then epFaults (.eret w) s s f { cls := 0x05 }
     else records (.eret w) fun ph => { ph with eretOp := some (decide (x = 1)) })) ∧
  (a.null = true → records (.trap w) id) ∧
  (a.null = false → maskBit a.mask 0 = false ∨ 65536 ≤ x → epFaults (.trap w) s s f { cls := 0x05 }) ∧
  (a.null = false → maskBit a.mask 0 = true → x < 65536 → ∃ t ph,
    exec (.trap w) s = .next (nodeFault t f { cls := 0x10, info := x }) ∧ FiredFrom s f f.task t ph ∧ nodeFired f [0] [] ph)

/-- sysrd and syswr (14 System registers R308, 14 R309, 16 R51, 16 R103, 11 R212, 16 R336). Log entries 44, 82, 112 give the readings that are the model's own here; no rule is cited for them. -/
def Obligations.SystemRegisters : Prop := ∀ (w : EpW) (s : State) (f : Foc) (ops : List (Nat × Token)),
  let n := (tokAt ops 0).lane 0 % 65536
  let by_ : RegBy := ⟨f.c, f.t, f.task.part, f.task.fn, f.task.sys || f.ph.handler⟩
  let v := (tokAt ops 1).data.toNat
  let core := s.core f.c
  let ok := fun (x : Token) (ls : List Nat) => ls.all fun l => maskBit x.mask l
  let reads := fun (width value : Nat) => epAnswers (.sysrd w) s f [0] ⟨BitVec.ofNat 512 value, lowMask (width / 32), false⟩
  let writes := fun (u : State) (task : Task) => epFires (.syswr w) s u f task [0, 1] 0 (some completion)
  let taskIs := fun (task : Task) => writes (s.setTask f.c f.t task) task
  (epReady s f [0] ops →
    let void := actsNull 0 ops = true ∨ ok (tokAt ops 0) [0] = false
    (void → epAnswers (.sysrd w) s f [0] nullToken) ∧
    (∀ e, ¬void → regFault s by_ n false = some e → epFaults (.sysrd w) s s f e) ∧
    (¬void → regFault s by_ n false = none → reads (regWidth n) (regRead s by_ n) ∧
      (n = 0 → reads 32 f.task.fpstat.toNat) ∧ (n = 1 → reads 32 f.task.fpen.toNat) ∧ (n = 8 → reads 384 f.task.discard.toNat) ∧
      (n = 0x11 → reads 32 f.task.seed.miss.toNat) ∧ (n = 0x18 → reads 512 f.task.frec.toNat) ∧
      (0x40 ≤ n ∧ n < 0x80 → reads 512 (recOf core (n - 0x40)).toNat) ∧ (0x80 ≤ n ∧ n < 0xA0 → reads 256 (bufOf core (n - 0x80)).desc.toNat) ∧
      (n = 0x100 → reads 32 core.waitlimit.toNat) ∧ (n = 0x106 → reads 64 (s.partn f.task.part).trapbase.toNat))) ∧
  (epReady s f [0, 1] ops →
    let void := actsNull 0 ops = true ∨ ok (tokAt ops 0) [0] = false ∨ ok (tokAt ops 1) (List.range (regWidth n / 32)) = false
    (void → epAnswers (.syswr w) s f [0, 1] nullToken) ∧
    (∀ e, ¬void → regFault s by_ n true = some e → epFaults (.syswr w) s s f e) ∧
    (¬void → regFault s by_ n true = none →
      (∃ task, (regWrite by_ n (v % 2 ^ regWidth n) s).task? f.c f.t = some task ∧ writes (regWrite by_ n (v % 2 ^ regWidth n) s) task) ∧
      (n = 0 → taskIs { f.task with fpstat := f.task.fpstat &&& ~~~(BitVec.ofNat 5 v) }) ∧
      (n = 1 → taskIs { f.task with fpen := BitVec.ofNat 5 v }) ∧
      (n = 0x11 → taskIs { f.task with seed := { f.task.seed with miss := BitVec.ofNat 32 v } }) ∧
      (n = 0x18 → ∃ r, taskIs { f.task with frec := r } ∧ frecPc r = v / 2 ^ 288 % 2 ^ 57 ∧
        ∀ b, b < 288 ∨ 345 ≤ b → r.getLsbD b = f.task.frec.getLsbD b) ∧
      (0x40 ≤ n → n < 0x80 → writes (s.setCore f.c { core with recs := tabPut core.recs (n - 0x40) (BitVec.ofNat 512 v &&& recordBits) }) f.task) ∧
      (n = 0x100 → writes (s.setCore f.c { core with waitlimit := BitVec.ofNat 32 (max 0x1000 (v % 2 ^ 32)) }) f.task) ∧
      (n = 0x106 → writes (s.setPart f.task.part { s.partn f.task.part with trapbase := BitVec.ofNat 64 (v % 2 ^ 57 / 16 * 16) }) f.task))) ∧
  ∀ (x : RegBy) (m : Nat) (write : Bool),
    (regWidth m = 0 → regFault s x m write = some { cls := 0x05 }) ∧
    (∀ ch, regWidth m ≠ 0 → regChan m = some ch → (s.chan ch).owner ≠ x.part → regFault s x m write = some { cls := 0x0E }) ∧
    (regWidth m ≠ 0 → regOwned s x.part m = true → x.system = false → regUser m = false → regFault s x m true = some { cls := 0x04, acc := 1 })

/-- tlbinv, launch and pmrd (14 Invalidation and launch R310, 14 R311, 22 Invalidation R380, 23 R382). Log entries 46, 88 give the readings that are the model's own here; no rule is cited for them. -/
def Obligations.SystemActs : Prop := ∀ (w : EpW) (s : State) (f : Foc) (ops : List (Nat × Token)), epReady s f [0] ops →
  let a := tokAt ops 0
  let ok := fun (ls : List Nat) => ls.all fun l => maskBit a.mask l
  let va := laneVal a 0 8 % 2 ^ 57
  let user := (f.task.sys || f.ph.handler) = false
  let part := f.task.part
  let pair := fun (x y : Nat) => laneToken 3#16 fun l => if l = 0 then x else if l = 1 then y else 0
  let again := fun (ph : Phase) => { ph with accs := ph.accs.map fun e => (e.1, e.2.map fun a =>
    if a.stage = .fired ∧ a.nullA = false then { a with stage := .refire } else a) }
  let flush := fun (i : Instr) (void : Prop) (hit : Nat → Nat → Prop) =>
    (void → epAnswers i s f [0] nullToken) ∧
    (¬void → user → epFaults i s s f { cls := 0x04, acc := 1 }) ∧
    (¬void → ¬user → ¬releasedBy s f.c f.t f.task 3 → exec i s = .next s) ∧
    (¬void → ¬user → releasedBy s f.c f.t f.task 3 → ∃ u g, foc? u = some g ∧ epFires i s u g g.task [0] 0 (some completion) ∧
      u = { s with quads := u.quads, cores := u.cores } ∧ (∀ c, u.core c = { s.core c with tasks := (u.core c).tasks }) ∧
      (∀ c t task, s.task? c t = some task →
        u.task? c t = some (if task.part = part then { task with phase := task.phase.map again, held := task.held.map again } else task)) ∧
      ∀ q, (q ∉ (s.partn part).quads → u.quad q = s.quad q) ∧ (q ∈ (s.partn part).quads →
        u.quad q = { s.quad q with tlb := (u.quad q).tlb, walks := (u.quad q).walks } ∧
        (∀ e, e ∈ (u.quad q).tlb ↔ e ∈ (s.quad q).tlb ∧ ¬(e.part = part ∧ hit e.va e.size)) ∧
        ∀ e, e ∈ (u.quad q).walks ↔ e ∈ (s.quad q).walks ∧ ¬(e.part = part ∧ hit (e.prefixKey * levelSize e.level) (levelSize e.level))))
  flush (.tlbinvAll w) (actsNull 0 ops = true) (fun _ _ => True) ∧
  flush (.tlbinvPg w) (actsNull 0 ops = true ∨ ok [0, 1, 2] = false) (fun at_ n => rangesMeet va (4096 * a.lane 2) at_ n = true) ∧
  (let void := actsNull 0 ops = true ∨ ok [0, 1, 2] = false
   let k := a.lane 2
   let q := lqOf s f.task.fn k
   let tail := q.tail.toNat
   (void → epAnswers (.launch w) s f [0] nullToken) ∧
   (¬void → 3 < k → epFaults (.launch w) s s f { cls := 0x0E }) ∧
   (¬void → k ≤ 3 → inWindow va = true → epFaults (.launch w) s s f { cls := 0x03, addr := va }) ∧
   (¬void → k ≤ 3 → inWindow va = false → launchReads s f.c part va = false → exec (.launch w) s = .next s) ∧
   (¬void → k ≤ 3 → inWindow va = false → launchReads s f.c part va = true → ∀ m,
     (∀ e, engineRead f.c part va 128 s = (.error e, m) → epFaults (.launch w) s m f e) ∧
     ∀ record, engineRead f.c part va 128 s = (.ok record, m) →
       (lqFull q = true → epFires (.launch w) s m f f.task [0] 0 (some (pair 1 tail))) ∧
       (lqFull q = false → ∀ m',
         (∀ e, runKeys f.c part needWrite ((q.base.toNat + 128 * (tail % q.size)) % 2 ^ 57) 128 m = (.error e, m') → epFaults (.launch w) s m' f e) ∧
         ∀ ks, runKeys f.c part needWrite ((q.base.toNat + 128 * (tail % q.size)) % 2 ^ 57) 128 m = (.ok ks, m') →
           if writesOpen m' ks = false then exec (.launch w) s = .next s
           else epFires (.launch w) s (writeLqtail f.task.fn k ((tail + 1) % 2 ^ 32) (writeKeys m' ks record false)) f f.task [0] 0 (some (pair 0 tail))))) ∧
  (let void := actsNull 0 ops = true ∨ ok [0] = false
   let n := a.lane 0 % 65536
   let gives := fun (x : Nat) => epAnswers (.pmrd w) s f [0] (pair (x % 2 ^ 32) (x / 2 ^ 32 % 2 ^ 32))
   (void → epAnswers (.pmrd w) s f [0] nullToken) ∧
   (¬void → (n < 128 → gives (nodeOf f.ph n).stall.toNat) ∧ (n = 0x100 → gives (s.core f.c).cycles.toNat) ∧ (n = 0x101 → gives f.task.firings) ∧
     (n = 0x102 → gives f.task.phases) ∧ (128 ≤ n ∧ n < 0x100 ∨ 0x103 ≤ n → epFaults (.pmrd w) s s f { cls := 0x05 })))

/-- Taking a fault (16 Taking a fault R334, 16 R335, 16 R336, 16 Fault record Table 16.2). -/
def Obligations.TakingAFault : Prop := ∀ (s : State) (c t : Nat) (task : Task) (x : FrecIn),
  s.task? c t = some task → (s.partn task.part).trapbase ≠ 0 →
  let u := takeFault s c t x false
  let cut : Bool := (s.job? task.job).any fun j => j.st == .cutting
  (∃ r : BitVec 512,
    u.task? c t = some { task with
      st := .trapped
      frec := r
      b := (task.b.set 14 (r.setWidth 64)).set 15 (BitVec.ofNat 64 (x.addr % 2 ^ 57))
      held := task.phase
      phase := none
      woken := false
      seed := { task.seed with running := false }
      pc := (s.partn task.part).trapbase.toNat % 2 ^ 57 / 16 * 16 } ∧
    (r.extractLsb' 0 8).toNat = x.cls % 256 ∧ (r.extractLsb' 8 4).toNat = x.src % 16 ∧ (r.extractLsb' 12 7).toNat = x.slot % 128 ∧
    (r.extractLsb' 19 2).toNat = x.gen % 4 ∧ (r.extractLsb' 21 2).toNat = (if x.cls = 3 ∨ x.cls = 4 ∨ x.cls = 5 then x.acc % 4 else 0) ∧
    r.getLsbD 23 = cut ∧ (r.extractLsb' 24 8).toNat = x.detail % 256 ∧ (r.extractLsb' 32 32).toNat = x.iter % 2 ^ 32 ∧ r.extractLsb' 64 64 = x.stall ∧
    (r.extractLsb' 128 57).toNat = x.addr % 2 ^ 57 ∧ (r.extractLsb' 192 64).toNat = x.seqno % 2 ^ 64 ∧ (r.extractLsb' 256 32).toNat = x.info % 2 ^ 32 ∧
    (r.extractLsb' 288 57).toNat = x.pc % 2 ^ 57) ∧
  onlyCore c s u ∧ sameMemory s u ∧ (∀ k, k ≠ t → u.task? c k = s.task? c k) ∧
  u.core c = { s.core c with
    tasks := (u.core c).tasks
    running := if (s.core c).running = some t then none else (s.core c).running
    faultNow := t :: (s.core c).faultNow } ∧
  ∀ (f : Foc) (i : FaultInfo), foc? s = some f → nodeFault s f i =
    takeFault s f.c f.t { cls := i.cls, src := 0, slot := f.slot, gen := 0, acc := i.acc, detail := i.detail, iter := f.nd.iter, stall := f.nd.stall, addr := i.addr,
                          seqno := 0, info := i.info, pc := f.ph.addr } f.ph.handler

/-- A fault inside a handler ends the gang (16 Taking a fault R337, 23 Status block R386, 02 Gangs R44). -/
def Obligations.HandlerFaultEndsGang : Prop := ∀ (s : State) (c t : Nat) (task : Task) (job : Job) (x : FrecIn) (handler : Bool),
  s.task? c t = some task → s.job? task.job = some job → handler = true ∨ (s.partn task.part).trapbase = 0 →
  let u := takeFault s c t x handler
  let frec := mkFrec { x with preq := job.st == .cutting }
  let block := 9 + frec.toNat % 2 ^ 64 * 2 ^ 64 + x.addr % 2 ^ 57 * 2 ^ 128
  let g := dropGang s task.job job
  let waits := { g with statusOut := g.statusOut ++ [⟨job.order, job.part, job.fn, job.record, block⟩] }
  let settled := jobSettled g job.order = true ∧ ∀ x ∈ g.statusOut, x.job ≠ job.order
  u.job? task.job = none ∧ (∀ d k y, u.task? d k = some y → y.job ≠ task.job) ∧ (∀ e ∈ u.barriers, barrierOfJob task.job e.1 = false) ∧
  (∀ k y, k ≠ task.job → (u.job? k = some y ↔ s.job? k = some y)) ∧
  (lrStat job.record = 0 → sameMemory s u) ∧
  (lrStat job.record ≠ 0 → ¬settled → u = waits) ∧
  ∀ place v, lrStat job.record ≠ 0 → settled → resolveFor { g with mustWait := false } job.part needWrite (lrStat job.record) = (place, v) →
    (v.mustWait = true → u = waits) ∧
    (∀ e, place = .error e → v.mustWait = false → (∀ a, u.byte a = s.byte a) ∧ u.statusOut = g.statusOut) ∧
    (∀ pl, place = .ok pl → homeOpen v pl.key 32 3 = false → u = waits) ∧
    ∀ pl, place = .ok pl → homeOpen v pl.key 32 3 = true → v.mustWait = false →
      bytesWritten s u (leafView pl.leaf) pl.key 32 (byteOf block) ∧ u.statusOut = g.statusOut

/-- The end of a phase and the return from a handler (09 Phase end R181, 02 Phases R36, 02 R37, 14 R305, 16 Return R338). Log entries 17, 50, 57, 100 give the readings that are the model's own here; no rule is cited for them. -/
def Obligations.PhasesEnd : Prop := ∀ (s : State) (c t : Nat) (task : Task), (s.core c).running = some t → s.task? c t = some task →
  (∀ ph, task.phase = some ph → task.cutting = true ∨ phaseDone ph = false ∨ ph.endOp = true → exec (.phaseEnd c) s = .next s) ∧
  (∀ ph, task.phase = some ph → task.cutting = false → phaseDone ph = true → ph.endOp = false → ph.wdrive = none →
    task.seed.joined = false →
    let b := ph.wrbs.foldl (fun b x => b.set x.1 x.2.2) task.b
    let own := ph.handler = false
    let idle := ph.yieldOp = some true ∧ ∀ e ∈ boundChans (s.core c) t, e.2.queue = []
    ∃ u task',
      (let v := match ph.eretOp with
        | none => u
        | some restart => eretEnd u c t restart
      exec (.phaseEnd c) s = .next (if cutWaits v task then beginCut v c t else takeCardFault v c t)) ∧
      (ph.eretOp = none → cutWaits s task = false → pendingCardFault task' = none → exec (.phaseEnd c) s = .next u) ∧
      onlyCore c s u ∧ (∀ k, k ≠ t → u.task? c k = s.task? c k) ∧
      u.core c = { s.core c with
        tasks := (u.core c).tasks
        running := none
        lastPicks := if own ∧ ph.yieldOp = some false then tabPut (s.core c).lastPicks (pickPrio (s.core c) t task) t else (s.core c).lastPicks } ∧
      u.task? c t = some task' ∧
      task' = { task with
        phase := none
        b := task'.b
        lr := task'.lr
        pc := task'.pc
        st := if own then (if idle then .idle else .ready) else task.st
        woken := if own ∧ ph.yieldOp = some true ∧ ¬idle then true else task.woken } ∧
      (ph.exitRes = none → task'.b = b ∧ task'.lr = task.lr ∧ task'.pc = succAddr ph.addr ph.hdr 0) ∧
      ∀ r, ph.exitRes = some r → task'.pc = r.pc ∧ task'.lr = (if r.ret then (b.getD 12 0).toNat % 2 ^ 57 else r.lr.getD task.lr) ∧ task'.b = (match r.b12 with
        | some v => b.set 12 v
        | none => b)) ∧
  ∀ restart,
    let u := returnFrom s c t restart
    let held := if restart then none else task.held
    onlyCore c s u ∧ (∀ k, k ≠ t → u.task? c k = s.task? c k) ∧
    u.core c = { s.core c with tasks := (u.core c).tasks, running := none, handlerOwner := none } ∧
    u.task? c t = some { task with
      st := .ready
      phase := held
      held := none
      pc := (match held with
        | some ph => ph.addr
        | none => (task.frec.extractLsb' 288 57).toNat)
      seed := if restart = false ∧ task.held = none then { task.seed with inBlocks := false } else task.seed }

/-- A token, a message, the end of a core's cycle and a wait-orphan fault (04 Wires R64, 02 Tokens R31, 02 Stall counters R33, 02 Messages R40, 02 Pick R41, 02 Wait orphan R47, 14 Messages R303, 14 Counters R311, 25 R404, 25 R408). Log entries 41, 47, 59, 76, 94, 95, 109, 118, 123 give the readings that are the model's own here; no rule is cited for them. -/
def Obligations.FabricEvents : Prop := ∀ (s : State) (c : Nat),
  (∀ t task ph slot port, (s.core c).running = some t → s.task? c t = some task → task.phase = some ph → slot < 128 → port < 4 →
    let tgt := 4 * slot + port
    ∃ u ph', exec (.tokenArrival c slot port) s = .next u ∧ onlyTask c t s u ∧ sameMemory s u ∧ u.task? c t = some { task with phase := some ph' } ∧
      ph' = { ph with nodes := ph'.nodes, wires := ph'.wires } ∧ (∀ g, inFlight ph' g = inFlight ph g) ∧ (∀ n, (nodeOf ph' n).rest = (nodeOf ph n).rest) ∧
      (∀ g, g ≠ tgt → tabGet [] ph'.wires g = tabGet [] ph.wires g) ∧
      tabGet [] ph'.wires tgt = if (portQ (nodeOf ph slot) port).length < 4 then (tabGet [] ph.wires tgt).tail else tabGet [] ph.wires tgt) ∧
  (∀ n m, s.messages[n]? = some m → m.core < 512 →
    let older := ∃ x ∈ s.messages.take n, x.core = m.core ∧ x.chan = m.chan ∧ x.job = m.job ∧ x.rank = m.rank
    let ch := tabGet {} (s.core m.core).chans m.chan
    (older ∨ 16 ≤ ch.queue.length → exec (.messageArrival n) s = .next s) ∧
    (¬older → ch.queue.length < 16 → ∃ u, exec (.messageArrival n) s = .next u ∧ sameMemory s u ∧ u.messages = s.messages.eraseIdx n ∧
      tabGet {} (u.core m.core).chans m.chan = { ch with queue := ch.queue ++ [(m.data, m.scope)] } ∧
      (∀ k, k ≠ m.chan → tabGet {} (u.core m.core).chans k = tabGet {} (s.core m.core).chans k) ∧
      ∀ d t y ph, findTask s m.job m.rank = some (d, t) → s.task? d t = some y → y.phase = some ph → ∃ y', u.task? d t = some y' ∧
        y'.phase = some (flushOwed (setOwed ph 127 ((owedOf ph 127).map fun o =>
          if o.key = m.key ∧ o.tok = none then { o with tok := some (completion, completion) } else o)) 127))) ∧
  (∀ n m, s.messages[n]? = some m → 512 ≤ m.core →
    let older := ∃ x ∈ s.messages.take n, x.core = m.core ∧ x.chan = m.chan ∧ x.job = m.job ∧ x.rank = m.rank
    let words := (List.range 12).map fun i => m.data.extractLsb' (32 * i) 32
    let pkg := m.core / 512 - 1
    let pod := ((s.job? m.job).map fun j => (s.partn j.part).podpart).getD 0
    let gone := podReach s pkg = false
    (older → exec (.messageArrival n) s = .next s) ∧
    (¬older → ¬gone → podRefuses s = false → ∃ u, exec (.messageArrival n) s = .next u ∧ sameMemory s u ∧ u.messages = s.messages.eraseIdx n ∧
      u.remoteOut = s.remoteOut ++ [⟨pkg, pod, 0, .message (m.core % 512) m.chan words⟩]) ∧
    (¬older → gone ∨ podRefuses s = true → ∀ d t task ph o, findTask s m.job m.rank = some (d, t) → s.task? d t = some task → task.phase = some ph →
      (owedOf ph 127).find? (fun o => o.tok.isNone && o.key == m.key) = some o → (s.core d).running = some t →
      exec (.messageArrival n) s = .next (takeFault s d t
        { cls := if podReach s pkg then 0x0E else 0x09, slot := 127, iter := o.iter, stall := (nodeOf ph 127).stall, pc := ph.addr } ph.handler))) ∧
  (∃ m, onlyCore c s m ∧
    (let core := s.core c
    let ends := fun (t : Nat) => { core with
      cycles := core.cycles + 1
      refTime := core.refTime + cycleLength s.oppoint
      firedNow := []
      faultNow := []
      wasOut := false
      bufs := core.bufs.map fun e => (e.1, e.2.settle)
      tasks := (m.core c).tasks
      orphan := t }
    (∀ k x, s.task? c k = some x → ∃ y, m.task? c k = some y ∧ y = { x with phase := y.phase, seed := { x.seed with turned := false }, chains := y.chains } ∧
      (core.running ≠ some k → y.phase = x.phase) ∧ ∀ n, (chainOf y n).cards = (chainOf x n).cards.map tickCard) ∧
    (core.running = none → m.core c = ends core.orphan ∧ cycleMove c s = pick (retryAll (beginCuts m c) c) c) ∧
    ∀ t task, core.running = some t → s.task? c t = some task →
      let out := outstanding s c task
      (task.cutting = true → m.core c = ends core.orphan ∧ cycleMove c s = retryAll m c ∧ (m.task? c t).bind Task.phase = task.phase) ∧
      (task.cutting = false →
        m.core c = { ends (if out = true ∨ core.wasOut = true ∨ core.firedNow ≠ [] then 0 else core.orphan + 1) with wasOut := out } ∧
        cycleMove c s = pick (podWaitFault (retryAll (beginCuts (endBeforeCut m c) c) c) c t) c ∧
        ∀ ph, task.phase = some ph → ∃ y ph', m.task? c t = some y ∧ y.phase = some ph' ∧ ph' = { ph with nodes := ph'.nodes } ∧ ∀ n,
          let nd := nodeOf ph n
          let x := wordAt ph n
          let counts := n ∈ (blockSlots ph.words).map Prod.fst ∧ nd.iter < phaseEnd ph ∧ n ∉ core.firedNow
          let lacks := (∃ p ∈ neededPorts ph n, portQ nd p = []) ∨ groupLacks ph n = true ∨ cbHolds core x nd = some 3
          let full := (∃ g ∈ wTargets x, 4 ≤ portLoad ph g) ∨ cbHolds core x nd = some 2
          let awaits := accsOf ph n ≠ [] ∨ owedOf ph n ≠ [] ∨ ((slotClass n = 1 ∨ 4 ≤ slotClass n) ∧ readyNow s c n = false)
          let field := fun (v : Word64) j => (v.extractLsb' (16 * j) 16).toNat
          (¬counts → nodeOf ph' n = nd) ∧
          (counts → ∃ k v, nodeOf ph' n = { nd with stall := v } ∧ (∀ j, j < 4 → field v j = if j = k then min 65535 (field nd.stall j + 1) else field nd.stall j) ∧
            (lacks → k = 3) ∧ (¬lacks → full → k = 2) ∧ (¬lacks → ¬full → awaits → k = 1) ∧ (¬lacks → ¬full → ¬awaits → k = 0))))) ∧
  (∀ k : Card, ∃ l, tickCard k = { k with stalls := l, rowed := false } ∧
    (k.st ≠ .started ∨ k.rowed = true → l = k.stalls) ∧
    (k.st = .started → k.rowed = false → ∀ g j, g < 3 → j < 4 →
      let r := if (g = 0 ∧ k.ticket ≠ none) ∨ (g = 2 ∧ k.deposit ≠ none) then 1 else 0
      let field := fun (m : List (Nat × Word64)) => ((tabGet 0 m g).extractLsb' (16 * j) 16).toNat
      field l = if j = r then min 65535 (field k.stalls + 1) else field k.stalls)) ∧
  (∀ t, (s.core c).running = some t → pick s c = s) ∧
  (∀ t, choosePick (s.core c) = some t → ∃ x, (t, x) ∈ candidates (s.core c) ∧
    ((∃ e ∈ candidates (s.core c), 8 ≤ e.2.passed) → 8 ≤ x.passed ∧ ∀ e ∈ candidates (s.core c), e.2.passed ≤ x.passed) ∧
    ((∀ e ∈ candidates (s.core c), e.2.passed < 8) → ∀ e ∈ candidates (s.core c), pickPrio (s.core c) e.1 e.2 ≤ pickPrio (s.core c) t x)) ∧
  (∀ t task, (s.core c).running = some t → s.task? c t = some task →
    ((s.core c).orphan < (s.core c).waitlimit.toNat ∨ outstanding s c task = true ∨ task.cutting = true → exec (.waitOrphan c) s = .next s) ∧
    ∀ ph, (s.core c).waitlimit.toNat ≤ (s.core c).orphan → outstanding s c task = false → task.cutting = false → task.phase = some ph → phaseDone ph = false →
      ∃ slot, (∀ x ∈ blockSlots ph.words, opWait (nodeOf ph x.1) ≤ opWait (nodeOf ph slot)) ∧
        exec (.waitOrphan c) s = .next (takeFault s c t
          { cls := 0x0B, slot := slot, iter := (nodeOf ph slot).iter, stall := (nodeOf ph slot).stall, pc := ph.addr } ph.handler))

/-- The launch scheduler's events (23 Scheduler R383, 23 R386, 23 R387, 23 R388, 23 R389, 23 R390, 02 Gangs R42, 02 R44, 14 R305, 16 Cut R339, 16 R340). Log entries 37, 54, 55, 66, 67, 68, 70, 95, 98, 100 give the readings that are the model's own here; no rule is cited for them. -/
def Obligations.SchedulerActs : Prop := ∀ s : State,
  (∀ fn q,
    let x := lqOf s fn q
    let va := (x.base.toNat + 128 * (x.head.toNat % x.size)) % 2 ^ 57
    let part := (s.fnOf fn).part
    (takeStamp s fn q = none → exec (.recordTake fn q) s = .next s) ∧
    ∀ stamp, takeStamp s fn q = some stamp →
      (takesFirst s fn q stamp = false ∨ 8192 ≤ s.jobs.length → exec (.recordTake fn q) s = .next s) ∧
      (takesFirst s fn q stamp = true → s.jobs.length < 8192 →
        (∀ e m, directRead s part needRead va 128 = (.error e, m) → exec (.recordTake fn q) s = .next (setLq m fn q { lqOf m fn q with rderr := true })) ∧
        ∀ r m, directRead s part needRead va 128 = (.ok r, m) →
          let m := setLq m fn q { lqOf m fn q with head := x.head + 1, posts := popPost x.posts }
          let job : Job := { record := BitVec.ofNat 1024 r, fn := fn, queue := q, part := (m.fnOf fn).part, order := m.jobOrder }
          let m := { m with jobOrder := m.jobOrder + 1, passDue := true }
          (∀ v, statOk m job = (false, v) → exec (.recordTake fn q) s = .next (setLq v fn q { lqOf v fn q with sterr := true })) ∧
          ∀ v, statOk m job = (true, v) → (∀ code fail m', checkRecord v job = (.error (code, fail), m') → exec (.recordTake fn q) s = .next (writeStatus m' job code fail 0 0)) ∧
            ∀ fp m', checkRecord v job = (.ok fp, m') → ∃ u, exec (.recordTake fn q) s = .next u ∧ u.job? job.order = some { job with fp := fp } ∧
              ∀ k, k ≠ job.order → u.job? k = m'.job? k)) ∧
  (∀ j job, s.job? j = some job →
    (jobWaits job = false ∨ s.lifttime = 0 → exec (.lift j) s = .next s) ∧
    (jobWaits job = true → s.lifttime ≠ 0 → ∃ u, exec (.lift j) s = .next u ∧ u = { s with jobs := u.jobs, passDue := u.passDue } ∧
      (let n := s.lifttime.toNat
      let prio := fun w => min 127 (lrPrio job.record + w / n)
      let w := (job.waited / n + 1) * n
      u.job? j = some { job with waited := w } ∧ (∀ k, k ≠ j → u.job? k = s.job? k) ∧
      u.passDue = (s.passDue || decide (prio job.waited < prio w))))) ∧
  (s.passDue = false → exec .pickPass s = .next s) ∧
  (s.passDue = true → exec .pickPass s = .next (driveEffort ((passOrder s).foldl visitJob ([], settleEffort { s with passDue := false })).2)) ∧
  (∀ j job held, s.job? j = some job →
    (∀ cores, fitCores s j job held [] = some cores →
      visitJob (held, s) j = (held, if job.st = .saved then placeSaved s j job cores else placeNew s j job cores) ∧
      cores.length = lrGang job.record ∧ cores.Nodup ∧
      (∀ c ∈ cores, c / 4 ∈ lrQuads job.record ∧ c / 4 ∈ (s.partn job.part).quads ∧ c / 4 ∉ held ∧ coreBlockers s job [] c = []) ∧
      (∀ f m, readImages s job = (.error f, m) → (placeNew s j job cores).job? j = none) ∧
      ∀ im ctxs m m', readImages s job = (.ok im, m) → loadEntries job cores m = (.ok ctxs, m') →
        ∀ i c, cores[i]? = some c → ∃ k task, (placeNew s j job cores).task? c k = some task ∧ task.job = j ∧ task.rank = i ∧ task.st = .ready ∧
          task.pc = lrEntry job.record ∧ task.b.getD 12 0 = BitVec.ofNat 64 i) ∧
    (fitCores s j job held [] = none → ∃ u, visitJob (held, s) j = (held ++ lrQuads job.record, u) ∧ u = { s with effort := u.effort } ∧
      (s.effort ≠ none ∨ fitCores s j job [] [] ≠ none → u = s) ∧
      (s.effort = none → fitCores s j job [] [] = none →
        (∀ p, u.effort = some p → p.1 = j ∧ ∃ n, n < (cutCandidates s job).length ∧ p.2 = (cutCandidates s job).take (n + 1) ∧ fitCores s j job [] p.2 ≠ none ∧
          ∀ i, i < n → fitCores s j job [] ((cutCandidates s job).take (i + 1)) = none) ∧
        (u.effort = none → ∀ i, i < (cutCandidates s job).length → fitCores s j job [] ((cutCandidates s job).take (i + 1)) = none)))) ∧
  (∀ j job, j ∈ cutCandidates s job → ∃ x, (j, x) ∈ s.jobs ∧ x.st = .placed ∧ x.holding < effPrio s job ∧ lrSave x.record ≠ 0) ∧
  (∀ j v vs job x, s.effort = some (j, v :: vs) → someCut s = false → s.job? j = some job → jobWaits job = true →
    s.job? v = some x → x.st = .placed → ∃ u, driveEffort s = u ∧ u.effort = some (j, vs) ∧ u.job? v = some { x with st := .cutting } ∧ sameMemory s u) ∧
  (∀ c t task ph, s.task? c t = some task → task.phase = some ph →
    let gone := ph.endOp = true ∧ phaseDone ph = true ∧ task.cutting = false ∧ (s.core c).running = some t ∧ cardsOver task ph.handler = true ∧ ridersOver s task = true
    (¬gone → exec (.taskRetire c t) s = .next s) ∧
    (gone → ∃ m, exec (.taskRetire c t) s = .next (retireGang m task.job) ∧ m.task? c t = none ∧ (m.core c).running = none ∧
      (∀ e ∈ (m.core c).chans, e.2.task ≠ some t) ∧ sameMemory s m)) ∧
  (∀ j job, s.job? j = some job → residents s j = [] → job.images = [] → (retireGang s j).job? j = none) ∧
  (∀ j job, s.job? j = some job → (job.st ≠ .cutting → exec (.deferExpiry j) s = .next s) ∧
    (job.st = .cutting → ∃ u, exec (.deferExpiry j) s = .next u ∧ sameMemory s u ∧
      ∀ d k x, s.task? d k = some x → x.job = j → holdsCut (s.core d) k x = false → x.phase.any phaseDone = false →
        ∃ y, u.task? d k = some y ∧ y.cutting = true)) ∧
  ∀ j job, s.job? j = some job →
    let ts := residents s j
    let ready := job.st = .cutting ∧ ts ≠ [] ∧ (∀ e ∈ ts, taskQuiet s e.1 e.2.1 e.2.2 = true) ∧ ridersQuiet s j = true
    (¬ready → exec (.cutComplete j) s = .next s) ∧
    (ready → ∃ u images,
      let job' := { job with st := .saved, images := images, ended := [], waited := 0 }
      exec (.cutComplete j) s = .next (writeStatus u job' 0x0A 0 0 0) ∧ u.job? j = some job' ∧ u.passDue = true ∧ (∀ d k y, s.task? d k = some y → y.job = j → ∃ im, (y.rank, im) ∈ images) ∧
      ∀ d k y, u.task? d k = some y → y.job ≠ j)

/-- smm, smmz, svec, sbias, snorm, sact, sdrain and sembed (12 Executing seeds R251, 12 R252, 12 R253, 12 R254, 12 R255, 12 R256, 12 R257, 12 R258, 12 R262). Log entries 45, 53 give the readings that are the model's own here; no rule is cited for them. -/
def Obligations.SeedsCompute : Prop := ∀ (s : State) (r : SeedRun),
  let h := r.h
  let quiet := fun (seed : SeedSt) => ({ s := s, flags := 0, seed := seed, b := r.task.b, lr := r.task.lr, pc := r.task.pc, leaves := false } : SeedEff)
  let all := [(Instr.smm h, 1, seedMatrix false), (.smmz h, 2, seedMatrix true), (.svec h, 3, seedSvec), (.sbias h, 4, seedSbias), (.snorm h, 5, seedSnorm),
    (.sact h, 6, seedSact), (.sdrain h, 7, seedSdrain), (.sembed h, 13, seedSembed)]
  (∀ x ∈ all, seedRuns s x.2.1 r → match x.2.2 r s with
    | .error e => seedFails x.1 s r e
    | .ok e => seedCommits x.1 s r r.task e) ∧
  (∀ x ∈ all, r.c = s.focus.1 → seedFoc? h s = some (r.t, r.task, r.b) → seedPayload s r.c r.b x.2.1 h = none → seedFails x.1 s r { cls := 0x0A, detail := 5 }) ∧
  (let k := 16 * h.rows16.toNat
   let n := 16 * h.cols16.toNat
   let fmt := h.fmt.toNat
   let buf := h.abuf.toNat
   let b := recOf (s.core r.c) (r.task.seed.brec0 + buf)
   let kc := tabGet 0 r.task.seed.kc buf
   let bad : FaultInfo := { cls := 0x0A, detail := 8 }
   (∀ x ∈ [(Instr.smm h, 1), (.smmz h, 2)], seedRuns s x.2 r → kMax fmt < k ∨ 64 < n → seedFails x.1 s r bad) ∧
   (∀ x ∈ [(Instr.svec h, 3), (.snorm h, 5), (.sembed h, 13)], seedRuns s x.2 r → h.accrow ≠ 0 → seedFails x.1 s r bad) ∧
   let code := r.pay % 256
   let gate := r.pay / 256 % 256
   let free := code ≤ 5 ∧ gate ≤ 1 ∧ r.pay / 65536 % 2 ^ 112 = 0
   let whole := fmt = 6 → h.rows16.toNat % 2 = 0 ∧ (n = 0 ∨ n = 32 ∨ n = 64)
   let done := seedCommits
   let moved : SeedSt := { r.task.seed with vc := (r.task.seed.vc + k) % 2 ^ 32 }
   (seedRuns s 4 r → h.rows16 ≠ 0 ∨ h.abuf ≠ 0 → seedFails (.sbias h) s r bad) ∧ (seedRuns s 6 r → ¬free → seedFails (.sact h) s r bad) ∧
   (seedRuns s 7 r → ¬whole → seedFails (.sdrain h) s r bad) ∧
   (n = 0 →
     (∀ x ∈ [(Instr.svec h, 3), (.snorm h, 5)], seedRuns s x.2 r → h.accrow = 0 → done x.1 s r r.task (quiet r.task.seed)) ∧
     (seedRuns s 4 r → h.rows16 = 0 → h.abuf = 0 → done (.sbias h) s r r.task (quiet r.task.seed)) ∧
     (seedRuns s 6 r → free → done (.sact h) s r r.task (quiet r.task.seed)) ∧ (seedRuns s 7 r → whole → done (.sdrain h) s r r.task (quiet r.task.seed)) ∧
     (seedRuns s 13 r → h.accrow = 0 → done (.sembed h) s r r.task (quiet moved)) ∧
     ∀ x ∈ [(Instr.smm h, 1), (.smmz h, 2)], seedRuns s x.2 r → k ≤ kMax fmt →
       done x.1 s r r.task (quiet { r.task.seed with kc := tabPut r.task.seed.kc buf ((kc + k) % recExt b 0) })) ∧
   (0 < n →
     let ids := recOf (s.core r.c) r.task.seed.idrec
     let fits := rowsFit r.task r.acc r.astr r.m n = true
     let typed : FaultInfo := { cls := 0x02 }
     let beyondRows : FaultInfo := { cls := 0x0D }
     let near := fun (x : Val) => (roundFloat 0 0 false x).bits
     let stored := fun (x : Val) => if isInt (recFmt b) then (roundInt (recFmt b) 0 x).bits else (roundFloat (recFmt b) 0 true x).bits
     let mul := fun (x y : Nat) => near (mulVal (decodeFloat 0 x) (decodeFloat 0 y)).1
     let add := fun (x y : Nat) => near (addVal 0 (decodeFloat 0 x) (decodeFloat 0 y)).1
     let sigm := fun (x : Nat) => (specialBits 0x48 0 x).1
     let tanh := fun (x : Nat) => (specialBits 0x45 0 x).1
     let act := fun (x : Nat) => match code with
       | 0 => x
       | 1 => if (decodeFloat 0 x).isNan then fmtNan 0 else if (decodeFloat 0 x).neg? then 0 else x
       | 2 => mul x (sigm x)
       | 3 => sigm x
       | 4 => tanh x
       | _ => mul (mul 0x3F000000 x) (add 0x3F800000 (tanh (mul 0x3F4C422A (add x (mul 0x3D372713 (mul (mul x x) x))))))
     let pay := payElem r.pay fmt
     let rows := fun (x : Nat → List Val) => ∀ m, m < r.m → r.row s b k n m = .ok (x m)
     let writes := fun (i : Instr) (seed : SeedSt) (o : Nat) (rows : Nat → Bool) (v : Nat → Nat → Nat) =>
       ∃ e : SeedEff, seedCommits i s r r.task e ∧ e = { quiet seed with s := e.s, flags := e.flags } ∧ cellsWritten s e.s r.c b (r.cells o n rows) fun i m => v m (i - o)
     (∀ x ∈ [(Instr.svec h, 3), (.snorm h, 5)], seedRuns s x.2 r → h.accrow = 0 → 2 < recFmt b → seedFails x.1 s r typed) ∧
     (seedRuns s 6 r → free → recFmt b ≠ fmt → seedFails (.sact h) s r typed) ∧ (seedRuns s 7 r → whole → recFmt b ≠ fmt → seedFails (.sdrain h) s r typed) ∧
     (seedRuns s 13 r → h.accrow = 0 → recFmt b = 6 ∨ recFmt ids ≠ 12 → seedFails (.sembed h) s r typed) ∧
     (seedRuns s 4 r → h.rows16 = 0 → h.abuf = 0 → ¬fits → seedFails (.sbias h) s r beyondRows) ∧
     (seedRuns s 6 r → free → recFmt b = fmt → ¬fits → seedFails (.sact h) s r beyondRows) ∧
     (seedRuns s 7 r → whole → recFmt b = fmt → ¬fits → seedFails (.sdrain h) s r beyondRows) ∧
     (seedRuns s 4 r → h.rows16 = 0 → h.abuf = 0 → fits → r.task.acc.Nodup → ∃ e : SeedEff, seedCommits (.sbias h) s r r.task e ∧
       e = { quiet r.task.seed with s := e.s, flags := e.flags } ∧ sameMemory s e.s ∧
       ∀ m j, m < r.m → j < n → r.accOf e.s m j = near (addVal 0 (decodeFloat 0 (r.accOf s m j)) (pay j)).1) ∧
     (∀ x, seedRuns s 3 r → h.accrow = 0 → recFmt b ≤ 2 → rows x → cellsInside r.c b (r.cells k n fun _ => true) →
       writes (.svec h) r.task.seed k (fun _ => true) fun m j => stored (mulVal ((x m).getD j Val.zero) (pay j)).1) ∧
     (∀ x, seedRuns s 5 r → h.accrow = 0 → recFmt b ≤ 2 → rows x → cellsInside r.c b (r.cells k n fun _ => true) →
       writes (.snorm h) r.task.seed k (fun _ => true) fun m j =>
         let squares := (x m).foldl (fun a y => near (addVal 0 (decodeFloat 0 a) (mulVal y y).1).1) 0
         let q := near (addVal 0 (decodeFloat 0 (near (divNat (decodeFloat 0 squares) n))) (pay n)).1
         stored (mulVal (mulVal ((x m).getD j Val.zero) (decodeFloat 0 (specialBits 0x41 0 q).1)).1 (pay j)).1) ∧
     (∀ x, seedRuns s 6 r → free → recFmt b = fmt → fmt ≠ 6 → fits → (gate = 1 → rows x) → cellsInside r.c b (r.cells k n fun _ => true) →
       writes (.sact h) r.task.seed k (fun _ => true) fun m j =>
         let y := act (r.accOf s m j)
         stored (decodeFloat 0 (if gate = 1 then near (mulVal (decodeFloat 0 y) ((x m).getD j Val.zero)).1 else y))) ∧
     (seedRuns s 7 r → recFmt b = fmt → fmt ≠ 6 → fits → cellsInside r.c b (r.cells k n fun _ => true) →
       writes (.sdrain h) r.task.seed k (fun _ => true) fun m j => if fmt = 0 then r.accOf s m j else stored (decodeFloat 0 (r.accOf s m j))) ∧
     (seedRuns s 7 r → whole → recFmt b = 6 → fmt = 6 → fits → ∀ m g, m < r.m → 32 * g < n → beyond b (k + 32 * g) m = false →
       ∀ e, seedSdrain r s = .ok e → (∀ m' g', m' < r.m → 32 * g' < n → beyond b (k + 32 * g') m' = false → (m', g') ≠ (m, g) →
         elemAddress b (k + 32 * g') m' + 18 ≤ elemAddress b (k + 32 * g) m ∨ elemAddress b (k + 32 * g) m + 18 ≤ elemAddress b (k + 32 * g') m') →
       let blk := packBlock 0 true ((List.range 32).map fun i => decodeFloat 0 (r.accOf s m (32 * g + i)))
       ∀ i, i < 18 → e.s.byte (keyScratch r.c (elemAddress b (k + 32 * g) m) + i) =
         byteOf (packElems 4 blk.codes + blk.scale * 2 ^ 128 + blk.extra * 2 ^ 136) i) ∧
     ∀ id : Nat → Nat, seedRuns s 13 r → h.accrow = 0 → recFmt b ≠ 6 → recFmt ids = 12 → (∀ m, m < r.m → seedElem s r.c r.task.part ids 0 m = .ok (id m)) →
       let here := fun m => decide (r.task.seed.vc ≤ id m ∧ id m < r.task.seed.vc + k)
       cellsInside r.c b (r.cells 0 n here) → writes (.sembed h) moved 0 here fun m j => stored (pay ((id m - r.task.seed.vc) * n + j))) ∧
   (∀ x ∈ [(Instr.smm h, 1, false), (.smmz h, 2, true)], seedRuns s x.2.1 r → k ≤ kMax fmt → n ≤ 64 → 0 < n → activationType (recFmt b) = true →
      rowsFit r.task r.acc r.astr r.m n = true → (n + 15) / 16 ≤ r.astr → r.task.acc.Nodup →
      ∀ acts, (List.range r.m).mapM (fun m => r.row s b kc k m) = .ok acts → ∃ e : SeedEff, seedCommits x.1 s r r.task e ∧ sameMemory s e.s ∧ e.flags = 0 ∧
        e.seed = { r.task.seed with kc := tabPut r.task.seed.kc buf ((kc + k) % recExt b 0) } ∧
        ∀ m j, m < r.m → j < n → r.accOf e.s m j =
          accumulate (if x.2.2 then 0 else r.accOf s m j) (((List.range k).map fun i => payElem r.pay fmt (i * n + j)).zip (acts.getD m []))))

/-- spad, sjump, scall, sexit and sbar (12 Control seeds R259, 12 R260, 12 R252, 12 R248). Log entries 49, 52 give the readings that are the model's own here; no rule is cited for them. -/
def Obligations.SeedsControl : Prop := ∀ (s : State) (r : SeedRun),
  let h := r.h
  let sd := r.task.seed
  let w := fun (k : Nat) => r.pay / 2 ^ (32 * k) % 2 ^ 32
  let bare := h.rows16 = 0 ∧ h.cols16 = 0 ∧ h.accrow = 0 ∧ h.abuf = 0
  let next := seedSuccessor r.b.addr r.b.husk
  let bad : FaultInfo := { cls := 0x0A, detail := 8 }
  let eff := fun (seed : SeedSt) (b : List Word64) (lr pc : Nat) => ({ s := s, flags := 0, seed := seed, b := b, lr := lr, pc := pc, leaves := false } : SeedEff)
  let goes := fun (expect : Nat) (b : List Word64) => seedCommits (.sjump h) s r r.task (eff { sd with expect := expect, hold := false } b r.task.lr r.task.pc)
  (seedRuns s 12 r →
    let mask := w 0
    let has := fun (i : Nat) => mask.testBit i
    let kc := if has 0 then tabPut sd.kc h.abuf.toNat (w 1) else sd.kc
    let vc := if has 1 then w 2 else sd.vc
    let m := if has 2 then w 3 % 512 + 1 else sd.m
    let astrm1 := if has 3 then w 3 / 65536 % 256 else sd.astrm1
    (h.rows16 ≠ 0 ∨ h.cols16 ≠ 0 ∨ h.accrow ≠ 0 ∨ 16 ≤ mask → seedFails (.spad h) s r bad) ∧
    (h.rows16 = 0 → h.cols16 = 0 → h.accrow = 0 → mask < 16 → w 1 < (if has 0 then 65536 else 1) → (has 1 = true ∨ w 2 = 0) →
      (w 3 % 512 ≠ 0 → has 2 = true) → w 3 % 512 ≤ 255 → w 3 / 512 % 128 = 0 → w 3 / 2 ^ 24 = 0 → (w 3 / 65536 % 256 ≠ 0 → has 3 = true) →
      seedCommits (.spad h) s r r.task (eff { sd with kc := kc, vc := vc, m := m, astrm1 := astrm1 } r.task.b r.task.lr r.task.pc))) ∧
  (seedRuns s 8 r →
    let n := w 1 % 16
    let target := wrapTo 57 ((r.b.addr : Int) + 256 * signedOf 32 (w 0))
    let bn := r.task.b.getD n 0
    let ok := bare ∧ w 1 / 16 % 16 = 0 ∧ w 1 / 512 = 0 ∧ w 2 = 0 ∧ w 3 = 0
    (¬ok → seedFails (.sjump h) s r bad) ∧
    (ok → (w 1).testBit 8 = false → goes target r.task.b) ∧
    (ok → (w 1).testBit 8 = true → bn = 0 → goes next r.task.b) ∧
    (ok → (w 1).testBit 8 = true → bn ≠ 0 → goes target (r.task.b.set n (bn - 1)))) ∧
  (seedRuns s 9 r →
    let block := r.pay % 2 ^ 57
    (¬bare ∨ block % 16 ≠ 0 → seedFails (.scall h) s r bad) ∧
    (bare → block % 16 = 0 → seedCommits (.scall h) s r r.task
      (eff { sd with expect := next, hold := false, inBlocks := true } (r.task.b.set 12 (BitVec.ofNat 64 r.task.lr)) (next ||| 1) block))) ∧
  (seedRuns s 10 r →
    let block := r.pay % 2 ^ 57
    (¬bare ∨ block % 16 ≠ 0 → seedFails (.sexit h) s r bad) ∧
    (bare → block % 16 = 0 → sd.joined = true → ∃ u task, exec (.sexit h) s = .next u ∧ u.task? r.c r.t = some task ∧
      task = { r.task with st := .ready, seed := {}, pc := block } ∧ sameMemory s u)) ∧
  (seedRuns s 11 r →
    let op := r.pay % 256
    let scope := r.pay / 256 % 256
    let id := r.pay / 65536 % 256
    let ok := bare ∧ op ≤ 1 ∧ scope ≤ 4 ∧ id ≤ 15 ∧ r.pay / 2 ^ 24 % 2 ^ 104 = 0
    let key := barrierKey r.task.job scope r.c id
    let e := fun (m : State) => ({ s := m, flags := 0, seed := sd, b := r.task.b, lr := r.task.lr, pc := r.task.pc, leaves := false } : SeedEff)
    let freed : SeedRun := { r with b := { r.b with freed := true } }
    let after := fun (k : Nat) (m : State) => if k / 16 % 16 = 0 then m else forgetL1 m r.c
    (∀ k, sd.waitBar = some k → (openRound s r.task k = none → seedCommits (.sbar h) s r r.task (e (after k s))) ∧
      (openRound s r.task k ≠ none → exec (.sbar h) s = .next s)) ∧
    (sd.waitBar = none → ¬ok → seedFails (.sbar h) s r bad) ∧
    (sd.waitBar = none → ok → scope = 4 → seedFails (.sbar h) s r { cls := 0x05 }) ∧
    (sd.waitBar = none → ok → scope ≠ 4 →
      (¬releasedBy s r.c r.t r.task scope → exec (.sbar h) s = .next s) ∧
      (releasedBy s r.c r.t r.task scope → op = 0 → ∃ v, seedCommitted r r.task (e s) v ∧ exec (.sbar h) s = .next (taskArrives v r.c r.t key 0 false)) ∧
      (releasedBy s r.c r.t r.task scope → op = 1 →
        let b := bufOf (s.core r.c) 31
        let d := b.desc
        let free := b.change (cbWith d (cbFilled d - 1) (cbFree d + 1) ((cbRdSlot d + 1) % cbSlots d) 0 (cbWrSlot d) (cbWrTok d)) b.claims
        let waiting := { r.task with seed := { sd with waitBar := some key, buf := freed.b :: sd.buf.tail } }
        let m := (s.setCore r.c { s.core r.c with bufs := tabPut (s.core r.c).bufs 31 free }).setTask r.c r.t waiting
        let m' := taskArrives m r.c r.t key 0 false
        ∃ task, m'.task? r.c r.t = some task ∧ (openRound m' task key ≠ none → exec (.sbar h) s = .next m') ∧
          (openRound m' task key = none → seedCommits (.sbar h) s freed task (e (after key m'))))))

/-- The slots of a channel, admission, alighting and a layer's flag (11 Slots R210, 11 Cursor R211, 11 Admission R220, 11 Pass R222, 11 Alighting R224, 11 Folds R228, 11 Cancel R235, 15 Atomics R322, 21 Direct R356, 13 kvsend R285). Log entries 33, 90, 108, 111 give the readings that are the model's own here; no rule is cited for them. -/
def Obligations.SweepEvents : Prop := ∀ (s : State) (n key : Nat),
  let x := s.chan n
  let count := { x with slot := x.slot + 1 }
  let at_ := x.slot / 32 * 31 + x.slot % 32
  let runs := x.train = false
  let refresh := runs ∧ x.slot % 32 = 31
  let direct := runs ∧ ¬refresh ∧ at_ % 2 ^ x.dshr = 2 ^ x.dshr - 1
  let advancing := runs ∧ ¬refresh ∧ ¬direct ∧ x.dutyPos % (16 + x.duty) < 16
  (exec (.refreshSlot n) s = .next (if refresh then s.setChan n count else s)) ∧
  (exec (.directSlot n) s = .next (if direct then s.setChan n { count with direct := x.direct - 1 } else s)) ∧
  (¬advancing → exec (.pass n) s = .next s) ∧
  (advancing → ∃ t, exec (.pass n) s = .next t ∧ (t.chan n).slot = x.slot + 1 ∧
    (t.chan n).cursor = (if x.cursor + 1 < x.len then x.cursor + 1 else 0) ∧ (t.chan n).rev = (if x.cursor + 1 < x.len then x.rev else (x.rev + 1) % 2 ^ 48) ∧
    (aboard (leaveCancelled { s with stamp := s.stamp + 1 } n) n = [] → sameMemory s t)) ∧
  (s.rider? key = none → exec (.riderAdmit key n) s = .next s ∧ exec (.riderAlight key) s = .next s) ∧
  (∀ r y, s.rider? key = some r → tabFind r.chans n = some y →
    let kernel := needsPipe (if r.op = 0xD4 then standKind r.sub else r.op) = true
    let leave := match r.parent with
      | some pk => (s.rider? pk).any Rider.leave
      | none => r.leave
    let may := r.standing = false ∧ y.admitted = false ∧ y.gone = false ∧ turnAt s n r = true ∧ heldBackAt s n r = false ∧ (r.kind = 0 → kernel → leave = true)
    (¬may → exec (.riderAdmit key n) s = .next s) ∧
    (may → ∃ t r' y', exec (.riderAdmit key n) s = .next t ∧ t = { s with stamp := s.stamp + 1, chans := t.chans, riders := t.riders } ∧
      t.rider? key = some r' ∧ r' = { r with chans := tabPut r.chans n y' } ∧ y' = { y with admitted := true, kernel := y'.kernel } ∧
      (∀ k, k ≠ key → t.rider? k = s.rider? k) ∧ (∀ k, k ≠ n → t.chan k = s.chan k) ∧
      (r.op ≠ 0xD0 → t.chan n = x) ∧
      (r.op = 0xD0 → t.kernelOf n r.sub = some ⟨BitVec.ofNat 128 (r.operand.headD 0), r.operand.tail.map (BitVec.ofNat 64)⟩))) ∧
  (∀ r, s.rider? key = some r →
    (r.standing = true ∨ riderDone r = false → exec (.riderAlight key) s = .next s) ∧
    (r.standing = false → riderDone r = true → r.kind = 1 → ∃ t, exec (.riderAlight key) s = .next t ∧
      t.rider? key = (if (getTask s r.job r.rank).isSome then some { r with alit := true } else none) ∧ (∀ k, k ≠ key → t.rider? k = s.rider? k) ∧
      t = { s with riders := t.riders }) ∧
    (r.standing = false → riderDone r = true → r.kind = 0 → r.op ≠ 0xCD → r.op ≠ 0xD4 → r.parent = none →
      let m := if r.cancelled then s else drainAll s key r
      let folds := (r.op = 0xC9 ∨ r.op = 0xCE) ∧ r.cancelled = false
      let status := r.status ||| (if r.cancelled then 4 else 0)
      let counted := fun (t u : State) (w : MemRun) old => bytesWritten t u w.view w.key 4 (byteOf ((old + 1) % 2 ^ 32))
      let completes := fun (u : State) => exec (.riderAlight key) s = .next u ∧ u.rider? key = none ∧
        ∀ d k y, findTask s r.job r.rank = some (d, k) → s.task? d k = some y → ∃ y', u.task? d k = some y' ∧
          (chainOf y' 1).hist.head? = some ⟨r.seq, status, r.chmask, r.misses⟩ ∧ ∀ x ∈ (chainOf y' 1).cards, x.seq ≠ r.seq
      (∀ w old, r.cwHeld = some (w, old) → ∃ u, completes u ∧ counted s u w old) ∧
      (r.cwHeld = none → ∀ q, m.rider? key = some q →
        let slot := deliverSlot m q.core (rcCbn q.card) (foldSlot q) 0
        q = { r with chans := q.chans } ∧
        (r.cancelled = false → (∃ e ∈ q.chans, e.2.queue ≠ []) → exec (.riderAlight key) s = .next m) ∧
        (r.cancelled = true ∨ (∀ e ∈ q.chans, e.2.queue = []) → (folds → slot = none → exec (.riderAlight key) s = .next m) ∧
          ∀ v, (folds → slot = some v) → (¬folds → v = m) →
            (q.cw = none → ∃ u, completes u ∧ sameMemory v u) ∧
            ∀ w, q.cw = some w →
              (cwOpen v w 3 = false → exec (.riderAlight key) s = .next m) ∧
              (cwOpen v w 3 = true → isLocal w.key = true → ∃ u, exec (.riderAlight key) s = .next u ∧ (∀ a, u.byte a = v.byte a) ∧
                u.rider? key = some { q with cwHeld := some (w, viewRead v w.view w.key 4) }) ∧
              (cwOpen v w 3 = true → isLocal w.key = false → ∃ u, completes u ∧ counted v u w (viewRead v w.view w.key 4)))))) ∧
  (tabFind s.kvsends key = none → exec (.kvsendLayerFlag key) s = .next s) ∧
  (∀ z, tabFind s.kvsends key = some z →
    let does := fun (u : State) => exec (.kvsendLayerFlag key) s = .next u
    let ends := fun (m : State) => { m with riders := m.riders.filter fun e => !(z.reader == some e.1 || z.writer == some e.1) }
    let z' := { z with layer := z.layer + 1, left := z.left - 1, cwHeld := none }
    let goesOn := fun (m : State) =>
      (z.left ≤ 1 → does (sendDone (ends m) key z 0)) ∧
      (1 < z.left → (∀ u, sendLayer (ends m) key z' = .ok u → does u) ∧
        ∀ i, sendLayer (ends m) key z' = .error i → does (if i.cls = notYet.cls then holdMove (ends m) else sendDone (ends m) key z 7))
    (∀ w old, z.cwHeld = some (w, old) → ∃ m, goesOn m ∧ bytesWritten s m w.view w.key 4 (byteOf ((old + 1) % 2 ^ 32))) ∧
    ∀ r, z.cwHeld = none → z.reader.bind s.rider? = some r →
      (r.alit = false → does s) ∧
      (r.alit = true → z.writer = none → z.dst.isSome = true →
        (∀ t, sendDeposits s key z r = some t → does t) ∧ (sendDeposits s key z r = none → does (sendDone s key z 7))) ∧
      (r.alit = true → z.writer = none → z.dst = none →
        if podReach s (kcDpkg z.card) then goesOn (podSendLayer s z) else does (sendDone s key z 7)) ∧
      ∀ wk, r.alit = true → z.writer = some wk →
        let flag := z.dst.bind fun d => tabFind (s.die (homeDie d)).arms d
        ((s.rider? wk).all Rider.alit = false → does s) ∧
        ((s.rider? wk).all Rider.alit = true → (flag = none → goesOn s) ∧ ∀ w, flag = some w →
          let old := viewRead s w.view w.key 4
          (cwOpen s w 3 = false → does s) ∧
          (cwOpen s w 3 = true → isLocal w.key = true → ∃ u, does u ∧ (∀ a, u.byte a = s.byte a) ∧
            tabFind u.kvsends key = some { z with cwHeld := some (w, old) }) ∧
          (cwOpen s w 3 = true → isLocal w.key = false → ∃ m, goesOn m ∧ bytesWritten s m w.view w.key 4 (byteOf ((old + 1) % 2 ^ 32))))) ∧
  (∀ z status, let u := sendDone s key z status
    tabFind u.kvsends key = none ∧ ∀ d k y, findTask s z.job z.rank = some (d, k) → s.task? d k = some y → ∃ clen, u.task? d k =
      some (settleOwed (retireCard y 2 ⟨z.seq, 0, 0, 0⟩) 126 (cardKey 2 z.seq) (kvToken { status := status, clen := clen } (s.partn z.part).kvfree.toNat))) ∧
  ∀ z u, sendLayer s key z = .ok u → (∀ a, u.byte a = s.byte a) ∧ ∃ rk rd, tabFind u.kvsends key = some { z with reader := some rk, writer := none } ∧
    u.rider? rk = some rd ∧ rd.kind = 1 ∧ rd.op = 0xC8 ∧ rd.job = z.job ∧ rd.rank = z.rank ∧ rd.alit = false ∧
    rd.wlines = layerLines ((s.partn z.part).kvpg.toNat % 2 ^ 57) z.nlayl z.layer (z.pages.map Prod.fst)

/-- Cards, tile tasks, power leave and seeds that start (10 Matrix cards R204, 10 R207, 14 Engine cards R291, 14 R293, 14 R296, 14 R297, 14 R298, 14 R299, 26 Power leave R393, 12 Feeds R249). Log entries 10, 31, 40, 51, 60, 109, 110, 113 give the readings that are the model's own here; no rule is cited for them. -/
def Obligations.EngineEvents : Prop := ∀ (s : State) (c t : Nat),
  (∀ task chain seq k, s.task? c t = some task → cardOf task chain seq = some k →
    (task.cutting = true ∨ k.st ≠ .waiting → exec (.cardStart c t chain seq) s = .next s) ∧
    (let set := fun (m : State) (k' : Card) => putCard m c t chain k'
    let at_ := fun (u : State) => (u.task? c t).bind fun y => cardOf y chain seq
    let starts := fun (u : State) => exec (.cardStart c t chain seq) s = .next u
    let ends := fun (u : State) => exec (.cardComplete c t chain seq) s = .next u
    let asks := fun (m : State) (k' : Card) (weight : Nat) => ∃ u, starts u ∧ u = { m with cores := u.cores, dies := u.dies } ∧ u.cores = (set m { k' with asked := true }).cores ∧
      (u.die (dieOfCore c)).leaves = (m.die (dieOfCore c)).leaves ++ [⟨weight, prioOf m task.job, c, t, chain, seq, none, (m.core c).refTime⟩]
    let due := task.cutting = false ∧ k.seq = seq ∧ k.st = .waiting ∧ edgesClear s c task.part k = true ∧ storesDrained s c t k.stamp = true
    let completes := fun (u : State) (status : Word32) => ends u ∧ ∃ y, u.task? c t = some y ∧ (chainOf y chain).hist.head? = some ⟨seq, status, k.chmask, 0⟩ ∧
      ∀ z ∈ (chainOf y chain).cards, z.seq ≠ seq
    let fresh := fun (k' : Card) => if k'.recs = [] then snapRecs s c k' else k'.recs
    (∀ k' : Card, set s k' = s.setTask c t { task with chains := tabPut task.chains chain { chainOf task chain with
      cards := (chainOf task chain).cards.map fun y => if y.seq = k'.seq then k' else y } }) ∧
    (isMatrixOp k.op = true → chain = 0 → (chainTurn task k = false ∨ edgesClear s c task.part k = false ∨ storesDrained s c t k.stamp = false → starts s) ∧
      (due → chainTurn task k = true →
        (k.bank = 0 ∨ k.bankDone = true ∨ k.ticket ≠ none → startBank s c t task k = some s) ∧
        (startBank s c t task k = none → starts s) ∧
        (k.bank ≠ 0 → k.bankDone = false → k.ticket = none → ∀ r m, prepareBank s c t task k.card (some k.ty) k.bank = (.ok r, m) →
          (roomNow m task.job (r.chans.map Prod.fst) 1 1 = false → startBank s c t task k = none) ∧
          (roomNow m task.job (r.chans.map Prod.fst) 1 1 = true → ∃ v y, startBank s c t task k = some v ∧
            let key := riderKey r.part (m.partn r.part).tickets
            v.rider? key = some y ∧ y.op = r.op ∧ y.sub = 1 ∧ y.seq = seq ∧ y.chans = r.chans ∧ (r.part = task.part → at_ v = some { k with ticket := some key }))) ∧
        (k.bank ≠ 0 → k.bankDone = false → k.ticket = none → ∀ e m, prepareBank s c t task k.card (some k.ty) k.bank = (.error e, m) → e.cls ≠ notYet.cls →
          let b := poisonRows m c task.part k.card k.bank
          b.1.fault.all (fun i => i.cls != notYet.cls) = true → startBank s c t task k = some (putCard b.2 c t 0
            { k with bankDone := true, status := k.status ||| BitVec.ofNat 32 (3 + e.cls * 256), wrote := b.1.wrote ++ k.wrote })) ∧
        ∀ m k', startBank s c t task k = some m → at_ m = some k' →
          let waits := (k'.op = 0xB8 ∨ k'.op = 0xB9 ∨ k'.op = 0xC0 ∨ (k'.op = 0xBF ∧ k'.bank < mcM k'.card)) ∧ k'.leave = false
          let halves := if k'.op = 0xBF then BitVec.ofNat 32 ((if 0 < k'.bank then 4 else 0) + (if k'.bank < mcM k'.card then 8 else 0)) else 0
          (¬waits → starts (set m { k' with
            st := .started
            stalls := []
            recs := if k'.recs = [] then snapRecs m c k' else k'.recs
            ticket := none
            status := k'.status ||| halves })) ∧
          (waits → k'.asked = true → starts m) ∧ (waits → k'.asked = false → asks m k' 4)) ∧
      (k.seq = seq → k.st = .started → k.relatch = false → cardRows k ≤ k.prog → k.bankDone = true → ∃ u, completes u k.status ∧ sameMemory s u) ∧
      (k.st ≠ .started ∨ k.prog < cardRows k ∨ k.bankDone = false → ends s)) ∧
    (isEngineOp k.op = true → chain = 2 → (edgesClear s c task.part k = false ∨ storesDrained s c t k.stamp = false → starts s) ∧
      (due → k.op ≠ 0xD8 → k.leave = false → (k.asked = true → starts s) ∧ (k.asked = false → asks s k 2)) ∧
      (due → k.op = 0xD8 ∨ k.leave = true →
        let m := { s with riders := s.riders.filter fun e => !(k.ticket == some e.1 || k.deposit == some e.1) }
        let k' := { k with st := .started, stalls := [], ticket := none, deposit := none, block := [], recs := fresh k }
        let sl := sweptLines (quadOfCore c) task.part (cardRec (m.core c) k' (ecSrec k.card)) m
        let dl := if (ecTocb k.card = true ∧ k.op = 0xD8) ∨ k.op = 0xDA then ([], sl.2) else sweptLines (quadOfCore c) task.part (cardRec (m.core c) k' (ecDrec k.card)) sl.2
        (∀ e v, readerFor dl.2 c task sl.1 = (.error e, v) → e.cls ≠ notYet.cls → ∃ u y x, starts u ∧ at_ u = some y ∧ y.st = .withheld ∧ y.fault = some x ∧
          x.cls = e.cls ∧ x.src = 1 ∧ x.gen = 0 ∧ x.iter = 0 ∧ x.addr = e.addr) ∧
        ∀ rd v, readerFor dl.2 c task sl.1 = (.ok rd, v) →
          (sl.1 = [] → rd = none) ∧
          (∀ key, rd = some key → ∃ y, v.rider? key = some y ∧ y.kind = 1 ∧ y.op = 0xC8 ∧ y.wlines = sl.1 ∧ y.alit = false) ∧
          (∀ e w, writerFor v c task dl.1 = (.error e, w) → e.cls ≠ notYet.cls → ∃ u y x, starts u ∧ at_ u = some y ∧ y.st = .withheld ∧ y.fault = some x ∧
            x.cls = e.cls ∧ x.src = 1 ∧ x.gen = 2 ∧ x.iter = 0 ∧ x.addr = e.addr) ∧
          ∀ wr w, writerFor v c task dl.1 = (.ok wr, w) → starts (set w { k' with ticket := rd, deposit := wr, boarded := true }) ∧ (dl.1 = [] → wr = none) ∧
            ∀ key, wr = some key → ∃ y, w.rider? key = some y ∧ y.kind = 1 ∧ y.op = 0xCF ∧ y.wlines = dl.1 ∧ y.data = []) ∧
      (let settled := fun l => (l = [] ∨ podReachable s = false) ∧ hostSettled s k.escope = true
      let released := k.escope < 4 ∨ (k.fences = none ∧ pathSwitches s = [] ∧ hostSettled s k.escope = true) ∨ ∃ l, k.fences = some l ∧ settled l
      let fences := 4 ≤ k.escope ∧ k.fences = none ∧ pathSwitches s ≠ []
      let ready := k.seq = seq ∧ k.st = .started ∧ writerDone s k = true
      let waitsOr := fun (p : Prop) => (fences → ends (set s { k with fences := some (pathSwitches s) })) ∧ (¬fences → ¬released → ends s) ∧ (released → p)
      let counted := fun (u : State) (w : MemRun) old => bytesWritten s u w.view w.key 4 (byteOf ((old + 1) % 2 ^ 32))
      let far := s.remoteColls.filter fun r => r.unit == k.unit
      let allDone := k.unit ≠ 0 ∧ (∀ x ∈ collMembers s k.unit, x.prog = 1 + x.tile.length ∧ writerDone s x = true) ∧ ∀ r ∈ far, podReach s r.pkg = false
      (k.st ≠ .started ∨ writerDone s k = false → ends s) ∧
      (k.op = 0xD8 → k.prog < unitCount (cardRec (s.core c) k (ecSrec k.card)) → ends s) ∧
      (ready → k.op = 0xD8 → unitCount (cardRec (s.core c) k (ecSrec k.card)) ≤ k.prog → waitsOr (
        (∀ w old, k.cwHeld = some (w, old) → ∃ u, completes u k.status ∧ counted u w old) ∧
        (k.cwHeld = none → ecCw k.card = false → ∃ u, completes u k.status ∧ sameMemory s u) ∧
        (k.cwHeld = none → ecCw k.card = true → ∀ w rest v, directKeys c task.part needWord (ecCwaddr k.card) 4 s = (.ok (w :: rest), v) →
          (cwOpen v w 3 = false → ends s) ∧
          (cwOpen v w 3 = true → isLocal w.key = true → ∃ u, ends u ∧ (∀ a, u.byte a = s.byte a) ∧ at_ u = some { k with cwHeld := some (w, viewRead v w.view w.key 4) })))) ∧
      (k.op = 0xD9 → ¬allDone → ends s) ∧
      (ready → k.op = 0xD9 → allDone → waitsOr (∃ u, completes u (k.status ||| (if far = [] then 0 else 0x13)) ∧ sameMemory s u)) ∧
      (k.op = 0xDA → k.prog ≠ 1 + k.tile.length ∨ k.unit ≠ 1 → ends s) ∧
      (ready → k.op = 0xDA → k.prog = 1 + k.tile.length → k.unit = 1 →
        let size := (ringOf s c task k.escope).length
        let ring : Ring := tabGet {} task.rings k.escope
        let step := if ring.size = size then ring.step + 1 else 1
        ∃ u, completes u (k.status ||| BitVec.ofNat 32 (size * 2 ^ 16 + step % 256 * 2 ^ 8)) ∧ sameMemory s u ∧
          (u.task? c t).map Task.rings = some (tabPut task.rings k.escope { ring with step := step, size := size }))))) ∧
    (k.fault = none ∨ k.taken = true ∨ task.cutting = true ∨ k.st ≠ .withheld → exec (.cardFault c t chain seq) s = .next s) ∧
    (∀ x, k.fault = some x → k.taken = false → task.cutting = false → k.st = .withheld → (task.st = .trapped → k.handler = true) →
      let pc := match task.phase with
        | some ph => ph.addr
        | none => task.pc
      exec (.cardFault c t chain seq) s = .next (takeFault (putCard s c t chain { k with taken := true }) c t { x with pc := pc } k.handler)) ∧
    (∀ (e : CardFault) (m : State), e.info.cls ≠ notYet.cls → afterRow s c t chain k (.error e, m) = putCard m c t chain { k with
      st := .withheld
      taken := false
      ticket := if e.info.cls = 0x09 then none else k.ticket
      fault := some { cls := e.info.cls, src := 1, slot := 124 + chain, gen := e.gen, acc := e.info.acc, detail := e.info.detail, iter := e.iter,
                      stall := tabGet 0 k.stalls e.gen, addr := e.info.addr, seqno := k.seq, info := e.info.info } })) ∧
  (∀ q, partOfQuad s q = none → exec (.tileTaskTake q) s = .next s) ∧
  (∀ q part ks m1, partOfQuad s q = some part →
    let x := s.quad q
    let va := (x.ttbase.toNat + 128 * x.ttpos) % 2 ^ 57
    let m := checkKeys m1 ks
    let r := BitVec.ofNat 1024 (readKeys m ks)
    let good := readsOpen m ks = true ∧ keysPoisoned m ks = false ∧ r.getLsbD 1016 = true
    (x.ttsize = 0 ∨ (∃ y ∈ x.ttasks, y.addr = va) → exec (.tileTaskTake q) s = .next s) ∧
    (x.ttsize ≠ 0 → (∀ y ∈ x.ttasks, y.addr ≠ va) → directKeys (4 * q) part { needRead with hostOk := false } va 128 s = (.ok ks, m1) →
      (¬good → exec (.tileTaskTake q) s = .next m) ∧
      (good → ∃ u, exec (.tileTaskTake q) s = .next u ∧ (u.quad q).ttpos = ((m.quad q).ttpos + 1) % (m.quad q).ttsize.toNat ∧
        (u.quad q).ttasks = (m.quad q).ttasks ++ [{ addr := va, record := r, order := m.cardOrder }] ∧ u.cardOrder = m.cardOrder + 1 ∧ sameMemory m u))) ∧
  (∀ q part n tt, partOfQuad s q = some part → (s.quad q).ttasks[n]? = some tt → tt.cwHeld = none →
    let runs := fun (u : State) => cardRowMove (4 * q) t 3 n s = u
    let clear := edgesClear s (4 * q) part (tileCard tt) = true
    (¬clear → runs s) ∧ (clear → tt.leave = false → tt.asked = true → runs s) ∧
    (clear → tt.leave = false → tt.asked = false → ∃ u, runs u ∧ (u.quad q).ttasks = (s.quad q).ttasks.set n { tt with asked := true } ∧ sameMemory s u ∧
      (u.die (dieOfCore (4 * q))).leaves = (s.die (dieOfCore (4 * q))).leaves ++ [⟨4, 0, 4 * q, 4, 4, tt.addr, none, (s.core (4 * q)).refTime⟩]) ∧
    (clear → tt.leave = true →
      (∀ e v, tileWork (4 * q) part tt.record s = (.error e, v) → runs (if e.cls = notYet.cls then s else tileDone q n part tt (1 + e.cls * 256) v)) ∧
      ∀ ps v, tileWork (4 * q) part tt.record s = (.ok ps, v) → runs (tileDone q n part tt 0 (ps.foldl doPut v)))) ∧
  (∀ d, nextLeave (s.die d) = none → exec (.powerGrant d) s = .next s) ∧
  (∀ d r, nextLeave (s.die d) = some r → exec (.powerGrant d) s = .next (if (s.die d).inuse + r.weight ≤ (s.die d).budget then grantLeave s d r else s)) ∧
  (∀ d r, nextLeave (s.die d) = some r → r ∈ (s.die d).leaves ∧ ∀ y ∈ (s.die d).leaves, y.prio ≤ r.prio ∧
    (y.prio = r.prio → r.since ≤ y.since ∧ (r.since = y.since → r.core ≤ y.core))) ∧
  (∀ d n r, (s.die d).leaves[n]? = some r → leaveForced s r = false → exec (.forcedGrant d n) s = .next s) ∧
  (∀ d n r, (s.die d).leaves[n]? = some r → (∃ y ∈ (s.die d).leaves, y.since = r.since ∧ y.core < r.core ∧ leaveForced s y = true) →
    exec (.forcedGrant d n) s = .next s) ∧
  (∀ d n r, (s.die d).leaves[n]? = some r → leaveForced s r = true → (∀ y ∈ (s.die d).leaves, y.since = r.since → y.core < r.core → leaveForced s y = false) → ∃ u, exec (.forcedGrant d n) s = .next u ∧ (u.die d).inuse = (s.die d).inuse + r.weight ∧
    (u.die d).leaves = (s.die d).leaves.erase r ∧ sameMemory s u) ∧
  (∀ d n, (s.die d).leaves[n]? = none → exec (.forcedGrant d n) s = .next s) ∧
  ((s.core c).seedIn = [] → exec (.seedIntake c) s = .next s) ∧
  (∀ l rest, (s.core c).seedIn = l :: rest → (∀ e ∈ (s.core c).tasks, e.2.seed.joined = false) →
    exec (.seedIntake c) s = .next (s.setCore c { s.core c with seedIn := rest })) ∧
  (∀ l rest j task, (s.core c).seedIn = l :: rest → (s.core c).tasks.find? (fun e => e.2.seed.joined) = some (j, task) →
    exec (.seedIntake c) s = .next (takeSeedLine (s.setCore c { s.core c with seedIn := rest }) c j task l)) ∧
  ∀ task b, s.task? c t = some task → seedHead task = some b →
    let may := task.cutting = false ∧ task.st = .ready ∧ seedMode task = true ∧ ep0Busy task = false
    let waits := isMatrixSeed b = true ∧ task.seed.leave = false
    (¬may → exec (.seedStart c t) s = .next s) ∧
    (may → ¬waits → exec (.seedStart c t) s = .next s) ∧
    (may → waits → task.seed.asked = true → exec (.seedStart c t) s = .next s) ∧
    (may → waits → task.seed.asked = false → ∃ u, exec (.seedStart c t) s = .next u ∧ u = { s with cores := u.cores, dies := u.dies } ∧
      u.task? c t = some { task with seed := { task.seed with asked := true } } ∧
      (u.die (dieOfCore c)).leaves = (s.die (dieOfCore c)).leaves ++ [⟨4, prioOf s task.job, c, t, 3, 0, none, (s.core c).refTime⟩])

/-- What a write of a channel, partition, die or package register does (11 SWEEPLEN R212, 21 Direct R356, 21 Training R367, 21 R368, 21 Repair R358, 22 PTROOT R371, 13 Pools R266, 26 Power R415, 26 R416, 14 System registers R308). Log entries 14, 44, 80, 82 give the readings that are the model's own here; no rule is cited for them. -/
def Obligations.RegisterWrites : Prop := ∀ (s : State) (n : Nat) (v : Word32) (v64 : Word64),
  let x := s.chan n
  let p := s.partn n
  let chan := fun (i : Instr) (y : Channel) => exec i s = .next (s.setChan n y)
  let part := fun (i : Instr) (y : Part) => exec i s = .next (s.setPart n y)
  chan (.sweeplenWrite n v) { x with lenReg := min (max 16 (v.toNat % 2 ^ 24)) ((2 ^ 31 - 2 ^ (x.drszl + 20)) / 256), pend := true } ∧
  chan (.dshrWrite n v) { x with dshrReg := min 6 (max 3 (v.toNat % 16)), dpend := true } ∧
  chan (.trainRequest n) { x with trctl := true } ∧
  chan (.trainExit n) { x with trctl := false, train := false } ∧
  (∀ seed, let ready := x.train = true ∧ x.test = none
    (ready → chan (.trcmdReadTest n seed) { x with test := some (false, seed), trres := x.trres &&& BitVec.ofNat 96 (2 ^ 95 - 1) } ∧
      chan (.trcmdWriteTest n seed) { x with test := some (true, seed), trres := x.trres &&& BitVec.ofNat 96 (2 ^ 95 - 1) }) ∧
    (¬ready → exec (.trcmdReadTest n seed) s = .next s ∧ exec (.trcmdWriteTest n seed) s = .next s)) ∧
  (∀ lanes spares, x.test = none → exec (.trainingTestDone n lanes spares) s = .next s) ∧
  (∀ kind seed, x.test = some (kind, seed) →
    let found := Config.passes n kind seed (if kind then x.wrdly else x.rddly) x.spdly
    (∀ lanes spares, (lanes, spares) ≠ found → exec (.trainingTestDone n lanes spares) s = .next s) ∧
    ∃ r : BitVec 96, chan (.trainingTestDone n found.1 found.2) { x with test := none, trres := r } ∧ r.getLsbD 95 = true ∧ r.extractLsb' 66 29 = 0 ∧
      r.extractLsb' 64 2 = found.2 ∧ ∀ l, l < 64 → r.getLsbD l =
        if x.repair.getLsbD 15 ∧ (x.repair.extractLsb' 8 7).toNat = l then found.2.getLsbD 1
        else if x.repair.getLsbD 7 ∧ (x.repair.extractLsb' 0 7).toNat = l then found.2.getLsbD 0 else found.1.getLsbD l) ∧
  (let l0 := v.toNat % 128
   let l1 := v.toNat / 256 % 128
   let taken := x.train = true ∧ l0 ≤ 63 ∧ l1 ≤ 63 ∧ ¬(v.getLsbD 7 = true ∧ v.getLsbD 15 = true ∧ l0 = l1)
   (taken → chan (.repairWrite n v) { x with repair := v &&& 0xFFFF#32 }) ∧ (¬taken → exec (.repairWrite n v) s = .next s)) ∧
  part (.ptrootWrite n v64) { p with ptroot := v64 &&& 0x7FFFFFFFF001#64 } ∧
  part (.kvPoolWrite n 5 v64) { p with kvreserve := v64 &&& 0xFFFFFF#64 } ∧
  (p.seqs = [] → part (.kvPoolWrite n 0 v64) { p with kvpd := v64 &&& 0x1FFFFFFFFFFFFF0#64 } ∧ part (.kvPoolWrite n 1 v64) { p with kvpg := v64 &&& 0x1FFFFFFFFFF0000#64 } ∧
    part (.kvPoolWrite n 2 v64) { p with kvnpages := v64 &&& 0xFFFFFF#64 } ∧ part (.kvPoolWrite n 3 v64) { p with kvfreehd := v64 &&& 0xFFFFFF#64 } ∧
    part (.kvPoolWrite n 4 v64) { p with kvfree := v64 &&& 0xFFFFFF#64 }) ∧
  (∀ reg, p.seqs ≠ [] → reg ≠ 5 → exec (.kvPoolWrite n reg v64) s = .next s) ∧
  exec (.pabudgetWrite n v) s = .next (s.setDie n { s.die n with budget := max 4 (v.toNat % 65536) }) ∧
  (let point := v.toNat % 4
   exec (.oppointWrite v) s = .next (if point = 3 ∨ (point = 2 ∧ s.hipt = false) then s else { s with oppointReg := point })) ∧
  exec .oppointChangeDone s = .next { s with oppoint := s.oppointReg } ∧
  ∀ (b : RegBy) (num : Nat) (w : BitVec 512),
    exec (.sysregWrite b num w) s = .next (if regFault s b num true = none then regWrite b num (w.toNat % 2 ^ regWidth num) s else s)

/-- Launch queue registers, the window, MSI-X and the resets of functions (23 Launch queues R382, 25 Host R397, 25 R398, 25 R399, 25 R400, 25 R401, 25 R402, 21 Errors R361, 26 Boot R411). Log entries 9, 14, 71, 72, 74, 75, 121 give the readings that are the model's own here; no rule is cited for them. -/
def Obligations.QueuesAndHost : Prop := ∀ (s : State) (fn q n : Nat) (v : Word32) (v64 : Word64),
  let x := lqOf s fn q
  let f := s.fnOf fn
  let up : Bool := s.boot == .running
  (up = false → exec (.lqtailWrite fn q v) s = .next s ∧ exec (.lqsizeWrite fn q v) s = .next s ∧ exec (.lqbaseWrite fn q v64) s = .next s ∧
    exec (.winbaseWrite fn v64) s = .next s) ∧
  (up = true →
    (let posted := (v - x.tail).toNat
     exec (.lqtailWrite fn q v) s = .next (setLq { s with jobOrder := s.jobOrder + 1 } fn q
      { x with tail := v, posts := if posted = 0 then x.posts else x.posts ++ [(posted, s.jobOrder)] })) ∧
    (let y := { x with rderr := x.rderr && !v.getLsbD 31, sterr := x.sterr && !v.getLsbD 30 }
     exec (.lqsizeWrite fn q v) s = .next (setLq s fn q (if x.head = x.tail then { y with size := min 4096 (v.toNat % 2 ^ 13) } else y))) ∧
    exec (.lqbaseWrite fn q v64) s = .next (if x.head = x.tail then setLq s fn q { x with base := v64 &&& 0x1FFFFFFFFFFFF80#64 } else s) ∧
    exec (.winbaseWrite fn v64) s = .next (s.setFn fn { f with winbase := v64 &&& 0x1FFFFFFFFFF0001#64 })) ∧
  (let count := f.winerr.toNat / 256 % 2 ^ 24
   exec (.winerrClear fn v64) s = .next (if v64.toNat / 256 % 2 ^ 24 = 0 then s else s.setFn fn { f with winerr := BitVec.ofNat 64 (f.winerr.toNat - count * 256) })) ∧
  (∃ t, exec (.hostAtomicopRequest fn) s = .next t ∧ t = { s with fns := t.fns, hostReply := some .unsupported } ∧ (t.fnOf fn).uncorrectable = f.uncorrectable ||| 0x100000#32) ∧
  (up = true → q < 4 → ∀ j, j < 4 →
    let x := tabGet {} f.queues q
    let value := [x.base.toNat, x.rderr.toNat * 2 ^ 31 + x.sterr.toNat * 2 ^ 30 + x.size, x.head.toNat, x.tail.toNat].getD j 0
    makeMove s (.host fn (.read (32 * q + 8 * j) 8)) = .next { s with hostReply := some (.data ((List.range 8).map fun i => byteOf (value % 2 ^ 64) i)) }) ∧
  (up = true → makeMove s (.host fn (.read 0x100 8)) = .next { s with hostReply := some (.data ((List.range 8).map fun i => byteOf f.winbase.toNat i)) } ∧
    makeMove s (.host fn (.read 0x108 8)) = .next { s with hostReply := some (.data ((List.range 8).map fun i => byteOf f.winerr.toNat i)) }) ∧
  (∀ off len, ¬((len = 4 ∨ len = 8) ∧ off % len = 0) → makeMove s (.host fn (.read off len)) = exec (.hostAtomicopRequest fn) s ∧
    ∀ y, makeMove s (.host fn (.write off len y)) = exec (.hostAtomicopRequest fn) s) ∧
  (∀ off bytes bad,
    (bootWindow s fn off bytes.length = true → ∃ t, exec (.hostWindowWrite fn off bytes bad) s = .next t ∧ t = { s with bootBuf := t.bootBuf } ∧
      ∀ a, memByte t.bootBuf a = if off ≤ a ∧ a < off + bytes.length then bytes.getD (a - off) 0 else memByte s.bootBuf a) ∧
    (bootWindow s fn off bytes.length = false → (∀ cls m, winRuns s fn off bytes.length needWrite = (.error cls, m) → ∃ t, exec (.hostWindowWrite fn off bytes bad) s = .next t ∧
        (∀ a, t.byte a = s.byte a) ∧ (up = true → f.winerr.toNat / 256 % 2 ^ 24 = 0 → (t.fnOf fn).winerr.toNat = off % 2 ^ 32 * 2 ^ 32 + 256 + cls % 256)) ∧
      ∀ k v m, winRuns s fn off bytes.length needWrite = (.ok [⟨k, bytes.length, v⟩], m) →
        (homeOpen m k bytes.length 3 = false → exec (.hostWindowWrite fn off bytes bad) s = .next s) ∧
        (homeOpen m k bytes.length 3 = true → ∃ t, exec (.hostWindowWrite fn off bytes bad) s = .next t ∧
          t = { m with mem := t.mem, poison := t.poison, latent := t.latent, views := t.views, chans := t.chans } ∧
          bytesWritten s t v k bytes.length (fun i => bytes.getD i 0) ∧ ∀ sec,
            let old := tabGet false m.poison sec
            tabGet false t.poison sec = (if 32 * sec + 32 ≤ k ∨ k + bytes.length ≤ 32 * sec then old
              else if k ≤ 32 * sec ∧ 32 * sec + 32 ≤ k + bytes.length then bad else bad || old)))) ∧
  (∀ off,
    (bootWindow s fn off n = true → exec (.hostWindowRead fn off n) s = .next { s with hostReply := some (.data ((List.range n).map fun i => memByte s.bootBuf (off + i))) }) ∧
    (bootWindow s fn off n = false → (∀ cls m, winRuns s fn off n needRead = (.error cls, m) → ∃ t, exec (.hostWindowRead fn off n) s = .next t ∧ t.hostReply = some .abort ∧ (∀ a, t.byte a = s.byte a)) ∧
      ∀ k v m, winRuns s fn off n needRead = (.ok [⟨k, n, v⟩], m) → (homeOpen m k n 3 = false → exec (.hostWindowRead fn off n) s = .next s) ∧
        (homeOpen m k n 3 = true → m.latent = [] → ∃ t, exec (.hostWindowRead fn off n) s = .next t ∧ t = { m with hostReply := t.hostReply, chans := t.chans } ∧
          (poisoned m k n = true → t.hostReply = some .uncorrectable) ∧
          (poisoned m k n = false → t.hostReply = some (.data ((List.range n).map fun i => byteOf (viewRead m v k n) i)))))) ∧
  (let e := tabGet (true, false) f.msix n
   let sends := e.2 = true ∧ f.msixControl.getLsbD 15 = true ∧ f.msixControl.getLsbD 14 = false
   let m := tabGet (0, 0) f.msixMsg n
   ∃ t, exec (.msixUnmask fn n) s = .next t ∧ t = { s with fns := t.fns, msixSent := t.msixSent, hostLink := t.hostLink } ∧
    tabGet (true, false) (t.fnOf fn).msix n = (false, decide (e.2 = true ∧ ¬sends)) ∧ (¬sends → t.msixSent = s.msixSent ∧ t.hostLink = s.hostLink) ∧
    (sends → t.msixSent = s.msixSent ++ [(fn, n)] ∧ ∃ w : HostWrite, t.hostLink = s.hostLink ++ [w] ∧ w.addr = m.1.toNat ∧ w.ro = false ∧
      w.bytes = (List.range 4).map fun i => m.2.extractLsb' (8 * i) 8)) ∧
  (∀ c t task k i ks, 65536 < n → s.task? c t = some task → cardOf task 2 (n - 65536) = some k → unitDue s c t task k = some i →
    (runKeys c task.part (engineNeed needRead k) (unitAddr (sourceOf s c k) i) (unitSize (recFmt (sourceOf s c k))) s).1 = .ok ks → (∃ x ∈ ks, isHost x.key = true) →
    exec (.hostCompletionTimeout c t n) s = .next (putCard s c t 2 { k with block := k.block ++ [{ x := 0, lost := true }], status := k.status ||| 1, rowed := true })) ∧
  (∀ c t ph a p, n < 65536 → accFind s (accRef c t n) = some (ph, a) → a.pieces[if isLoadOp a.op then n % 32 else 0]? = some p →
    if a.stage = .issued ∧ isStoreOp a.op = false ∧ p.doneP = false ∧ isHost p.key = true then
      exec (.hostCompletionTimeout c t n) s = .next (responseFault s (accRef c t n) a { cls := 0x09, addr := p.va })
    else exec (.hostCompletionTimeout c t n) s = .next s) ∧
  (∃ t, exec (.functionLevelReset fn) s = .next t ∧ sameMemory s t ∧ t.fnOf fn = { en := f.en, part := f.part } ∧
    (∀ k job, t.job? k = some job → job.fn ≠ fn) ∧ (fn ≠ 0 → ∀ g, g ≠ fn → t.fnOf g = s.fnOf g)) ∧
  ∃ t, exec .vfEnableClear s = .next t ∧ sameMemory s t ∧ t.fnOf 0 = s.fnOf 0 ∧
    ∀ k job g, t.job? k = some job → (∃ y, (g, y) ∈ s.fns) → g ≠ 0 → job.fn ≠ g

/-- Requests of other packages, flits and ports (25 Pod R404, 25 Flits R405, 25 R406, 25 R407, 25 Ports R408, 08 await R165, 13 kvsend R285, 14 Collectives R297, 14 Messages R303, 15 Atomics R322). Log entries 8, 12, 77, 78, 83 give the readings that are the model's own here; no rule is cited for them. -/
def Obligations.PodEvents : Prop := ∀ (s : State) (p : Nat) (f : Flit),
  let x := s.port p
  let kind := fun (k : Nat) => x.up = true ∧ flKind f = k
  let bad := { x with sent := x.sent ++ [mkFlit x.nextSeq x.expect 2 (List.replicate 240 0)] }
  let good := { x with
    unacked := x.unacked.filter fun g => (flSeq g + 4096 - flAck f) % 4096 < 2048
    replayed := x.replayed.filter fun e => (e.1 + 4096 - flAck f) % 4096 < 2048
    credits := (List.range 4).foldl (fun c i => tabSet 0 c i (tabGet 0 c i + flCredit f i)) x.credits }
  let becomes := fun (i : Instr) (y : Port) => exec i s = .next (s.setPort p y)
  let all := [(Instr.flitData p f, 0), (.flitIdle p f, 1), (.flitLinkControl p f, 3)]
  (∀ e ∈ all, x.up = false → exec e.1 s = .next s) ∧
  (∀ e ∈ all, x.up = true → flitOk f = false → becomes e.1 bad) ∧
  (∀ e ∈ all, flitOk f = true → ¬kind e.2 → exec e.1 s = .next s) ∧
  (flitOk f = true →
    (kind 1 → becomes (.flitIdle p f) good) ∧ (kind 3 → becomes (.flitLinkControl p f) good) ∧
    (kind 0 → flSeq f = x.expect → becomes (.flitData p f) { good with
      expect := (x.expect + 1) % 4096
      received := x.received ++ [f.payload]
      owed := tabMod 0 x.owed (Config.flitChannel f.payload % 4) (· + 1) }) ∧
    (kind 0 → flSeq f ≠ x.expect → becomes (.flitData p f) bad)) ∧
  (kind 2 → flitOk f = true → ∀ g rest, unackedFrom (flAck f) good.unacked = g :: rest → ∃ counts,
    let y := { good with unacked := g :: rest, sent := x.sent ++ g :: rest, replays := x.replays + 1, replayed := counts }
    (∀ n, tabGet 0 counts n = if ∃ h ∈ g :: rest, flSeq h = n then tabGet 0 good.replayed n + 1 else 0) ∧
    ((∃ e ∈ counts, 8 ≤ e.2) → exec (.flitReplayRequest p f) s = .next (portDown (s.setPort p y) p)) ∧
    ((∀ e ∈ counts, e.2 < 8) → exec (.flitReplayRequest p f) s = .next (s.setPort p y))) ∧
  (∀ sw swport,
    let y := { x with
      up := true
      switch := sw % 256
      swport := swport % 256
      nextSeq := 0
      expect := 0
      unacked := []
      replayed := []
      credits := []
      owed := []
      cut := [] }
    (18 ≤ p ∨ x.up = true → exec (.portUp p sw swport) s = .next s) ∧
    (p < 18 → x.up = false → s.ports = [(p, x)] → exec (.portUp p sw swport) s = .next { s with ports := [(p, x.unacked.foldl (fun y g => sendPayload y g.payload) y)] }) ∧
    (p < 18 → x.up = false → (∀ e ∈ s.ports, e.2.up = false → e.2.unacked = []) → ∃ t, exec (.portUp p sw swport) s = .next t ∧ t = { s with ports := t.ports } ∧
      t.port p = y ∧ ∀ q, q ≠ p → (∀ e ∈ s.ports, e.1 = q → e.2 = s.port q) → t.port q = s.port q)) ∧
  (∀ i h, s.homeAtoms[i]? = some h → ∃ t told, makeMove s (.homeWrite i) = .next t ∧ bytesWritten s t h.run.view h.run.key h.run.len (byteOf h.new) ∧
    t.homeAtoms = s.homeAtoms.eraseIdx i ∧ t.remoteReply = s.remoteReply ++ told ++ [(h.pkg, h.reply)] ∧ (h.wakes = false → told = [])) ∧
  ∀ r : RemoteReq,
    let does := fun (t : State) => exec (.remoteRequest r) s = .next t
    let answers := fun (y : Reply) (t : State) => does t ∧ t.remoteReply = s.remoteReply ++ [(r.pkg, y)]
    let refuses := ∃ t, answers .ownership t ∧ sameMemory s t
    (s.boot ≠ .running → does s) ∧
    (s.boot = .running → partOfPod s r.podPart = none → does { s with remoteReply := s.remoteReply ++ [(r.pkg, .ownership)] }) ∧
    ∀ part, s.boot = .running → partOfPod s r.podPart = some part → s.latent = [] →
      let spans := fun (nd : Need) (n : Nat) (k v : Nat) (u : State) => directSpan s part nd r.va n = (.ok [⟨k, n, v⟩], u)
      let bars := fun (nd : Need) (n : Nat) => ∃ i u, directSpan s part nd r.va n = (.error i, u)
      (∀ n, r.op = .load n → (bars needRead n → refuses) ∧ ∀ k v u, spans needRead n k v u →
        (homeOpen u k n 2 = false → does s) ∧
        (homeOpen u k n 2 = true → poisoned s k n = true → ∃ t, answers .uncorrectable t ∧ sameMemory s t) ∧
        (homeOpen u k n 2 = true → poisoned s k n = false →
          ∃ t, answers (.data ((List.range n).map fun i => byteOf (viewRead s v k n) i)) t ∧ sameMemory s t)) ∧
      (∀ bytes, r.op = .store bytes → (bars needWrite bytes.length → refuses) ∧ ∀ k v u, spans needWrite bytes.length k v u →
        (homeOpen u k bytes.length 2 = false → does s) ∧
        (homeOpen u k bytes.length 2 = true → ∃ t, answers (.data []) t ∧ bytesWritten s t v k bytes.length fun i => bytes.getD i 0)) ∧
      (∀ op ty a b, r.op = .atomic op ty a b →
        let n := if is64 ty then 8 else 4
        let nd : Need := { r := true, w := true, acc := 1 }
        (bars nd n → refuses) ∧ ∀ k v u, spans nd n k v u →
          let old := viewRead s v k n
          let reply : Reply := .data ((List.range n).map fun i => byteOf old i)
          (homeOpen u k n 3 = false → does s) ∧
          (homeOpen u k n 3 = true → poisoned s k n = true → ∃ t, answers .uncorrectable t ∧ sameMemory s t) ∧
          (homeOpen u k n 3 = true → poisoned s k n = false → match atomicNew op ty old a b with
            | none => ∃ t, answers reply t ∧ sameMemory s t
            | some z => ∃ t, does t ∧ sameMemory s t ∧ t.remoteReply = s.remoteReply ∧ t.homeAtoms = s.homeAtoms ++ [⟨⟨k, n, v⟩, z, op = 0x88, r.pkg, reply⟩])) ∧
      (∀ ty threshold, r.op = .await ty threshold →
        let n := if is64 ty then 8 else 4
        (bars needRead n → refuses) ∧ ∀ k v u, spans needRead n k v u →
          let old := viewRead s v k n
          (homeOpen u k n 3 = false → does s) ∧
          (homeOpen u k n 3 = true → poisoned s k n = false → ∃ t, sameMemory s t ∧
            if satisfies ty old threshold then answers (.data ((List.range n).map fun i => byteOf old i)) t
            else does t ∧ t.remoteReply = s.remoteReply ∧ t.remoteWaits = s.remoteWaits ++ [⟨r.pkg, ⟨k, n, v⟩, ty, threshold⟩])) ∧
      (∀ id key count err, r.op = .barrier id key count err → ∃ t, answers (.data []) t ∧
        t = { arriveAt s (podKey (s.partn part).podpart key id) count err with remoteReply := t.remoteReply }) ∧
      (∀ core chan ws, r.op = .message core chan ws →
        let ch := tabGet {} (s.core core).chans (chan % 64)
        (quadOfCore core ∉ (s.partn part).quads → refuses) ∧
        (quadOfCore core ∈ (s.partn part).quads → 16 ≤ ch.queue.length → does s) ∧
        (quadOfCore core ∈ (s.partn part).quads → ch.queue.length < 16 → ∃ t, answers (.data []) t ∧ sameMemory s t ∧
          tabGet {} (t.core core).chans (chan % 64) = { ch with queue := ch.queue ++ [(BitVec.ofNat 384 (packElems 32 (ws.map BitVec.toNat)), 4)] } ∧
          ∀ k, k ≠ chan % 64 → tabGet {} (t.core core).chans k = tabGet {} (s.core core).chans k)) ∧
      (∀ bytes, r.op = .deposit bytes →
        (∀ k v u, spans needWrite bytes.length k v u → ∃ t, answers (.data []) t ∧ bytesWritten s t v k bytes.length fun i => bytes.getD i 0) ∧
        ∀ i u, directSpan s part needWrite r.va bytes.length = (.error i, u) →
          let lines := (List.range (bytes.length / 256)).map fun i => (r.va / 256 + i, bitsOf (leNat bytes) (2048 * i) 2048)
          let boards := boardDeposit u (firstCore u part) part (2 ^ 40) r.pkg lines []
          (∀ i m, boards = (.error i, m) → refuses) ∧
          ∀ rk m, boards = (.ok rk, m) → ∃ t q, answers (.data []) t ∧ sameMemory s t ∧ t.rider? rk = some q ∧ q.kind = 1 ∧ q.op = 0xCB ∧ q.job = 2 ^ 40 ∧
            q.rank = r.pkg ∧ q.wlines = lines.map Prod.fst ∧ q.operand = lines.map Prod.snd) ∧
      (∀ e0 n pppl nlayl, r.op = .accept e0 n pppl nlayl →
        let c := firstCore s part
        (∀ i u, kvKey c part r.va 64 64 s = (.error i, u) → i.cls ≠ 0x09 → refuses) ∧
        ∀ k d u m, kvKey c part r.va 64 64 s = (.ok k, u) → kvRead k 64 u = (.ok d, m) →
          let es := entriesFrom e0 n
          let fits := sdState d = 1 ∧ (tabFind (m.die (homeDie k.run.key)).arms k.run.key).isSome ∧ sdPppl d = pppl ∧ sdNlayl d = nlayl ∧ ∀ e ∈ es, e < sdBtn d
          (¬fits → ∃ t, answers (.data [5]) t ∧ sameMemory s t) ∧
          (fits → ∀ ts w, (es.mapM fun e => btRead c part d e : KvM (List Nat)) m = (.ok ts, w) →
            ∃ t, answers (.data [if ts.all btValid then 0 else 5]) t ∧ sameMemory s t)) ∧
      (r.op = .layer →
        let aboard := ∃ e ∈ s.riders, e.2.kind = 1 ∧ e.2.job = 2 ^ 40 ∧ e.2.rank = r.pkg
        (aboard → does s) ∧
        (¬aboard → ∀ k d u m, kvKey (firstCore s part) part r.va 64 64 s = (.ok k, u) → kvRead k 64 u = (.ok d, m) →
          let flag := tabFind (m.die (homeDie k.run.key)).arms k.run.key
          (flag = none → ∃ t, answers (.data []) t ∧ sameMemory s t) ∧
          ∀ w, flag = some w → let old := viewRead s w.view w.key 4
            (homeOpen m w.key w.len 3 = false → does s) ∧
            (homeOpen m w.key w.len 3 = true → isLocal w.key = true → ∃ t, does t ∧ t.remoteReply = s.remoteReply ∧ (∀ a, t.byte a = s.byte a) ∧
              t.homeAtoms = s.homeAtoms ++ [⟨{ w with len := 4 }, (old + 1) % 2 ^ 32, true, r.pkg, .data []⟩]) ∧
            (homeOpen m w.key w.len 3 = true → isLocal w.key = false → ∃ t told, does t ∧ t.remoteReply = s.remoteReply ++ told ++ [(r.pkg, .data [])] ∧ bytesWritten s t w.view w.key 4 (byteOf ((old + 1) % 2 ^ 32))))) ∧
      (∀ rank key form elems, r.op = .collective rank key form elems → ∃ t, answers (.data []) t ∧
        t = { s with remoteReply := t.remoteReply, cardOrder := s.cardOrder + 1, remoteColls := s.remoteColls ++ [⟨r.pkg, r.podPart, rank, key, form, elems, s.cardOrder, 0⟩] }) ∧
      ∀ rank key, r.op = .written rank key → ∃ t, answers (.data []) t ∧ t = { s with remoteReply := t.remoteReply, remoteColls := t.remoteColls } ∧
        let share := fun (e : RemoteColl) => e.pkg = r.pkg ∧ e.podPart = r.podPart ∧ e.rank = rank ∧ e.key = key ∧ e.unit ≠ 0
        ((∀ e ∈ s.remoteColls, ¬share e) → t.remoteColls = s.remoteColls) ∧
        ∀ xs e ys, s.remoteColls = xs ++ e :: ys → share e → (∀ y ∈ xs, ¬share y) → t.remoteColls = xs ++ ys

/-- Reset, images, the configuration block and attestation (26 Boot R410, 26 R411, 26 R412, 26 Identity R413, 26 Attestation R414, 26 R419, 26 Registers Table 26.2). Log entries 6, 73, 79, 80 give the readings that are the model's own here; no rule is cited for them. -/
def Obligations.BootAndAttest : Prop := ∀ (s : State) (img : Image) (b : ConfigBlock) (m : SpdmMsg),
  (∃ t, exec (.reset img) s = .next t ∧ (∀ a, t.byte a = if isRemote a || isHost a then s.byte a else 0) ∧ t.cores = [] ∧ t.jobs = [] ∧ t.parts = [] ∧ t.fns = [] ∧ t.bootBusy = none ∧
    (img.sigOk = true → t.boot = .config ∧ t.bootstat = 0 ∧ tabFind t.measure 2 = some img.digest) ∧ (img.sigOk = false → t.boot = .recovery ∧ t.bootstat = 2)) ∧
  (s.bootBusy.isSome = true → exec (.bootcmdImage img) s = .next s ∧ exec (.bootcmdConfig b) s = .next s ∧ ∀ v, bootCommand v s = s) ∧
  (∀ n, s.bootBusy = none → 1 ≤ n → n ≤ 2 ^ 24 → ∀ cmd, (cmd = 1 ∧ s.boot = .recovery) ∨ (cmd = 2 ∧ s.boot = .config) →
    ∃ t, makeMove s (.host 0 (.write 0x200 8 (BitVec.ofNat 64 (n * 2 ^ 32 + cmd)))) = .next t ∧
      t = { s with bootBusy := some ⟨cmd, (List.range n).map fun i => memByte s.bootBuf i⟩, bootstat := s.bootstat ||| 4 }) ∧
  (∀ k, s.bootBusy = some k →
    let u := { s with bootBusy := none, bootstat := s.bootstat &&& ~~~4#32 }
    makeMove s .bootCheck = exec (if k.cmd = 1 then .bootcmdImage (Config.imageOf k.bytes) else .bootcmdConfig (Config.blockOf k.bytes)) u) ∧
  (s.bootBusy = none →
    (s.boot = .recovery → img.sigOk = true → ∃ t, exec (.bootcmdImage img) s = .next t ∧ t = { s with boot := .config, measure := t.measure } ∧ tabFind t.measure 2 = some img.digest) ∧
    (s.boot ≠ .recovery ∨ img.sigOk = false → exec (.bootcmdImage img) s = .next s) ∧
    (s.boot ≠ .config → exec (.bootcmdConfig b) s = .next s) ∧
    (∀ e, s.boot = .config → blockError b = some e → exec (.bootcmdConfig b) s = .next { s with bootstat := (s.bootstat &&& 2) ||| BitVec.ofNat 32 (e * 256) }) ∧
    (s.boot = .config → blockError b = none → ∃ t, exec (.bootcmdConfig b) s = .next t ∧ t.boot = .running ∧ t.bootstat = (s.bootstat &&& 2) ||| 1 ∧ t.mem = s.mem ∧
      t.oppoint = b.oppoint ∧ t.aithresh = b.aithresh ∧ t.grantmax = b.grantmax ∧ t.lifttime = b.lifttime ∧
      (tabFind t.measure 3 = some b.digest ∧ tabFind t.measure 4 = some b.signer ∧ tabFind t.measure 5 = some b.layout) ∧
      (∀ p ∈ b.parts, (t.partn p.num).quads = p.quads ∧ (t.partn p.num).podpart = p.podPart) ∧ (∀ p ∈ b.parts, ∀ f ∈ p.fns, (t.fnOf f).en = true ∧ (t.fnOf f).part = p.num) ∧
      ∀ ch, ch < 384 → (t.chan ch).oos = b.untrained.contains (ch / 32) ∧
        (∀ d, (b.trained.find? fun d => d.chan == ch) = some d ∨ ((b.trained.find? fun d => d.chan == ch) = none ∧ (b.delays.find? fun d => d.chan == ch) = some d) →
          (t.chan ch).rddly = d.rd ∧ (t.chan ch).wrdly = d.wr ∧ (t.chan ch).spdly = d.sp ∧ (t.chan ch).repair = d.repair) ∧
        ∀ p ∈ b.parts, ch / 3 ∈ p.quads → (t.chan ch).owner = if b.untrained.contains (ch / 32) then 0x7F else p.num)) ∧
  ((b.sigOk = false → blockError b = some 1) ∧
    (b.sigOk = true → b.device ≠ Config.idDigest → blockError b = some 2) ∧
    (b.sigOk = true → b.device = Config.idDigest → b.version ≠ 1 ∨ b.lenOk = false → blockError b = some 3)) ∧
  (let up : Bool := s.boot == .running
   let early := s.spdmVersion && s.spdmAlgs.isSome
   let algs := s.spdmVersion && s.spdmCaps && m.mldsa87 && m.sha3
   let all := [Instr.getVersion m, .getCapabilities m, .negotiateAlgorithms m, .getDigests m, .getCertificate m, .challenge m, .getMeasurements m]
   let reports := fun (code : Nat) (ok : Bool) (t : State) =>
     let y := Config.spdmResponse (if ok then code else 0x7F) m.bytes s.measure (s.bootstat.getLsbD 1) Config.certMatches
     { t with spdmResp := y, mailbox := memWriteBytes s.mailbox 0 (y.take 4096) }
   let answer := fun (i : Instr) (ok : Bool) (code : Nat) => exec i s = .next (reports code ok s)
   (up = false → ∀ i ∈ all, exec i s = .next s) ∧
   (up = true → exec (.getVersion m) s = .next (reports 0x04 true { s with spdmVersion := true, spdmCaps := false, spdmAlgs := none }) ∧
    exec (.getCapabilities m) s = .next (reports 0x61 s.spdmVersion { s with spdmCaps := s.spdmCaps || s.spdmVersion }) ∧
    exec (.negotiateAlgorithms m) s = .next (reports 0x63 algs { s with spdmAlgs := if algs then some (true, true) else s.spdmAlgs }) ∧
    answer (.getDigests m) early 0x01 ∧ answer (.getCertificate m) (early && Config.certMatches) 0x02 ∧ answer (.challenge m) early 0x03 ∧ answer (.getMeasurements m) early 0x60))

/-- A frozen device stands still, and makes the requests that come once it goes on (26 Freeze R417, 26 R418, 26 R419). Log entry 81 gives the readings that are the model's own here; no rule is cited for them. -/
def Obligations.FrozenStands : Prop := ∀ s : State,
  let ends := { s with freezePin := false, freezeReg := false, moves := s.heldMoves ++ s.moves, heldMoves := [] }
  (frozen s = true → moveNamesUnits (nextMove s) = true → (∀ i, nextMove s = .ev i → runsFrozen i = false) → (∀ p, nextMove s ≠ .idleFlit p) →
    step s = .next { s with
      moves := s.moves.tail
      tick := s.tick + 1
      mustWait := false
      heldMoves := if heldInFreeze (nextMove s) then s.heldMoves ++ [nextMove s] else s.heldMoves }) ∧
  (frozen s = true → ∀ p, nextMove s = .idleFlit p → p < 18 → step s = makeMove (takeMove s) (.idleFlit p)) ∧
  (∀ p, let x := s.port p
    (x.up = false → makeMove s (.idleFlit p) = .next s) ∧
    (x.up = true → ∃ y, makeMove s (.idleFlit p) = .next (s.setPort p { x with owed := y, sent := x.sent ++ [mkFlit x.nextSeq x.expect 1 (List.replicate 240 0) (owedNow x)] }) ∧
      ∀ i, i < 4 → tabGet 0 y i = tabGet 0 x.owed i - 255)) ∧
  (∃ t, exec .frzLAssert s = .next t ∧ t = { s with freezePin := t.freezePin } ∧ (s.oppointReg = s.oppoint → frozen t = true) ∧ (s.freezeReg = false → t.freezePin = true)) ∧
  (∀ v, exec (.freezectlWrite v) s = .next (if v.getLsbD 0 then { s with freezeReg := true } else s)) ∧
  exec .frzLRelease s = .next (if s.freezePin then ends else s) ∧
  exec .resume s = .next ends

/-- Words of the spec's own examples decode to their instructions (01 Worked listing, 03_formats R60, 03_formats R77, 06_vector_integer worked words, 08_memory_elements worked words, 09_control_reorder worked words, 14_engines_tasks_system worked words, 22_translation Table 22.6). -/
def Obligations.WorkedWords : Prop :=
  decode 0x052C119D02000003#64 = .ok (.vmul ⟨0, 11, 0x008, 0x19D, 0, 0, 0, 1, 0, 3⟩) ∧
  decode 0x162F3FFF02040064#64 = .ok (.vcmp ⟨0, 11, 0x19F, 0x1FF, 0, 0, 0, 1, 4, 100⟩) ∧
  decode 0x702C09FF02003000#64 = .ok (.ldSp ⟨0, 11, 0x004, 0x1FF, 0, 0, 0, 1, 0, 3, 0⟩) ∧
  decode 0x8033F9FF38000000#64 = .ok (.aadd ⟨0, 12, 0x1FC, 0x1FF, 1, 1, 2, 0, 0, 0, 0⟩) ∧
  decode 0xA703FFFF1FFFFC03#64 = .ok (.exitCall ⟨0, 0, 0x1FF, 0x1FF, 0x1FF, 0x1FF, 3⟩) ∧
  decode 0xA703FFFF2FFFFC00#64 = .ok (.exitRet ⟨0, 0, 0x1FF, 0x1FF, 0x1FF, 0x1FF, 0⟩) ∧
  decode 0xB12C01FF0F010000#64 = .ok (.xpose ⟨0, 11, 0x000, 0x1FF, 15, 1, 0, 0⟩) ∧
  decode 0xB90F09FF01000000#64 = .ok (.mstream ⟨0, 3, 0x184, 0x1FF, 0, 0⟩ 1) ∧
  decode 0xD80309FF01600000#64 = .ok (.copy ⟨0, 0, 0x184, 0x1FF, 3, 0⟩ 1) ∧
  decode 0xF00381FF02200000#64 = .ok (.barAw ⟨0, 0, 0x1C0, 0x1FF, 1, 0⟩) ∧
  decode 0xFA03FFFF01000000#64 = .ok (.tlbinvAll ⟨0, 0, 0x1FF, 0x1FF, 0, 0⟩) ∧
  decodeHusk 0x026040000500000000000101010001F6#128 = .ok (.smmz ⟨6, 0, 1, 5, 0, 1, 1, 1, 0, 1, 0xF6⟩) ∧
  decode 0#64 = .error .empty ∧ decode 1#64 = .error .emptyNotZero

/-- Decoding and encoding are inverse (03_formats R55, 03_formats R60, 03_formats R68, 03_formats R74, 04_opcode_map R84, 04_opcode_map R85). -/
def Obligations.DecodeEncode : Prop :=
  (∀ (i : Instr) (x : BitVec 64), encode i = some x ↔ decode x = .ok i) ∧
  (∀ (i : Instr) (x : BitVec 128), encodeSeed i = some x ↔ decodeHusk x = .ok i) ∧
  (∀ (i : Instr) (x : BitVec 64), encode i = some x → decodeTableWord 64 x.toNat = some i) ∧
  ∀ (i : Instr) (x : BitVec 128), encodeSeed i = some x → decodeTableWord 128 x.toNat = some i

/-- What reset leaves (02_execution_model Table 2.8, 11_sweep_riders Table 11.1, 13_sequences_kv Table 13.1, 14_engines_tasks_system Table 14.8, 16_traps_preemption R336, 21_memory_system Table 21.3, 21_memory_system Table 21.4, 22_translation Table 22.2, 23_scheduler Table 23.1, 25_host_pod Table 25.3, 26_boot_power_security R410, 26_boot_power_security Table 26.5). Log entries 1, 2 give the readings that are the model's own here; no rule is cited for them. -/
def Obligations.ResetState : Prop :=
  let s := State.reset
  s.Ok ∧ (∀ a, s.byte a = 0) ∧ s.boot = .rom ∧ s.poison = [] ∧ s.jobs = [] ∧ s.riders = [] ∧ s.barriers = [] ∧ s.messages = [] ∧
  (∀ c, (s.core c).tasks = [] ∧ (s.core c).running = none) ∧ (∀ n, (s.fnOf n).en = false ∧ (s.fnOf n).winbase = 0 ∧ (s.fnOf n).winerr = 0) ∧
  frozen s = false ∧
  ∀ by_ : RegBy,
    let reads := fun (n v : Nat) => regRead s by_ n = v
    reads 0x100 0x100000 ∧ reads 0x104 0 ∧ reads 0x105 0 ∧ reads 0x106 0 ∧ reads 0x107 0 ∧
    reads 0x200 0 ∧ reads 0x201 0 ∧ reads 0x202 0 ∧ reads 0x203 0xFFFFFF ∧ reads 0x204 0 ∧ reads 0x205 0 ∧
    (∀ k, k < 16 → reads (0x2000 + k) 0) ∧ reads 0x2100 0x3E8 ∧ reads 0x2101 (224 * 2 ^ 18 + 224 * 2 ^ 9 + 126) ∧ reads 0x2102 0x10000 ∧
    reads 0x3000 0 ∧ reads 0x3001 0 ∧ (∀ d, d < 4 → reads (0x3010 + d) 512) ∧
    (∀ ch, ch < 384 → reads (0x1000 + ch) 0x780000 ∧ reads (0x1200 + ch) 0x84210C ∧
      let r := fun (k v : Nat) => reads (0x4000 + 32 * ch + k) v
      r 0 0x7F ∧ r 1 (7 * 256 + 4) ∧ r 2 0 ∧ r 3 0 ∧ r 8 0 ∧ r 0xA 0 ∧ r 0xB (packElems 8 (List.replicate 64 32)) ∧
      r 0xC (packElems 8 (List.replicate 64 32)) ∧ r 0xD 0x20202020 ∧ r 0xE 0) ∧
    ∀ k, k < 12 → reads (0x7001 + 16 * k) 95 ∧ reads (0x7002 + 16 * k) 8

/-- Every step keeps memory in canonical form, and no instruction stops (15_memory_model R314, 02_execution_model R53, 03_formats R55). Log entries 1, 4 give the readings that are the model's own here; no rule is cited for them. -/
def Obligations.StepKeepsMemory : Prop := ∀ s : State, s.Ok →
  (∃ t, step s = .next t ∧ t.Ok) ∨
  (step s = .fault .noSuchUnit ∧ moveNamesUnits (nextMove s) = false) ∨
  (step s = .fault .noInstruction ∧
    ((∃ c k x, nextMove s = .fire c k ∧ fetchWord s c k = some x ∧ (decode x).toOption = none) ∨
     (∃ c x, nextMove s = .seed c ∧ fetchHusk s c = some x ∧ (decodeHusk x).toOption = none) ∨
     ∃ i, nextMove s = .ev i ∧ isEvent i = false))

/-- A step runs the instruction it fetches (02_execution_model R34, 12_weight_driven R252, 15_memory_model R314, 26_boot_power_security R417). Log entries 4, 11, 92, 101, 117 give the readings that are the model's own here; no rule is cited for them. -/
def Obligations.StepRuns : Prop := ∀ s : State,
  let at_ := fun (u : State) (f : Nat × Nat) => ({ u with focus := f } : State)
  let u := takeMove s
  let made := fun (u : State) (o : Host.Outcome State Fault Refusal) => match o with
    | .next v => if v.mustWait then .next u else .next v
    | o => o
  (moveNamesUnits (nextMove s) = false → step s = .fault .noSuchUnit) ∧
  (moveNamesUnits (nextMove s) = true → frozen s = false → moveAllowed u (nextMove s) = true → step s = made u (makeMove u (nextMove s))) ∧
  (frozen s = false →
    (∀ c k, nextMove s = .fire c k → c < 512 → k < 128 →
      let waits := losesPath u c k = true ∨ cardWaits u c k = true ∨ yieldsFault u c k = true
      (∀ x i, ¬waits → fetchWord s c k = some x → decode x = .ok i → step s = made u (exec i (at_ u (c, k)))) ∧
      (waits ∨ fetchWord s c k = none → step s = .next u)) ∧
    (∀ c, nextMove s = .seed c → c < 512 →
      let waits := (s.core c).seedIn ≠ [] ∨ seedYields u c = true
      (∀ x i, ¬waits → fetchHusk s c = some x → decodeHusk x = .ok i → step s = made u (exec i (at_ u (c, 0)))) ∧
      (waits ∨ fetchHusk s c = none → step s = .next u)) ∧
    (∀ i, nextMove s = .ev i → isEvent i = true →
      step s = if !eventNamesUnits i then .fault .noSuchUnit else if moveAllowed u (.ev i) then made u (exec i u) else .next u) ∧
    (∀ i, moveAllowed u (.ev i) = match i with
      | .memoryResponse c t n => !responseYields u c t n
      | .cardFault c t chain seq => !cardFaultYields u c t chain seq
      | .seedIntake c => !intakeYields u c
      | _ => u.boot == .running || !needsRunning i) ∧
    ∀ c, nextMove s = .cycle c → c < 512 →
      step s = if (s.core c).seedIn = [] ∧ leaveDue u c = false then made u (.next (cycleMove c u)) else .next u) ∧
  (frozen s = true → ∀ i, nextMove s = .ev i → isEvent i = true → eventNamesUnits i = true →
    step s = if heldInFreeze (.ev i) then .next { u with heldMoves := s.heldMoves ++ [.ev i] }
      else if runsFrozen i && (u.boot == .running || !needsRunning i) then made u (exec i u) else .next u) ∧
  (∀ x i, decode x = .ok i → let v := takeMove (placeWord s x)
    step (s.withFetchWord 64 x.toNat) = made v (exec i (at_ v (0, firstSlot (wordOp x))))) ∧
  ∀ x i, decodeHusk x = .ok i → let v := takeMove (placeHusk s x)
    step (s.withFetchWord 128 x.toNat) = made v (exec i (at_ v (0, 0)))
end

