-- ==== Sys2Proof/Laws/Decode.lean ====
section
/-! SUPPORT. What a word reads as that was encoded: one lemma per format for the number it is, its fields and its opcode. -/

namespace Sys2Proof

theorem toNat_app {m n : Nat} (x : BitVec m) (y : BitVec n) : (x ++ y).toNat = x.toNat * 2 ^ n + y.toNat := by
  rw [BitVec.toNat_append, ← Nat.shiftLeft_add_eq_or_of_lt y.isLt, Nat.shiftLeft_eq]

theorem toNat_encodeStage (op : Nat) (w : StageW) : (encodeStage op w).toNat =
    (((((((((((op % 256) * 4 + w.pm.toNat) * 16 + w.ty.toNat) * 512 + w.t0.toNat) * 512 + w.t1.toNat) * 8 + w.sub.toNat) * 4 + w.rnd.toNat) * 2 + w.sat.toNat) * 2 + w.bimm.toNat) * 2) * 256 + w.aux.toNat) * 65536 + w.imm.toNat := by
  unfold encodeStage
  erw [toNat_app, toNat_app, toNat_app, toNat_app, toNat_app, toNat_app, toNat_app, toNat_app, toNat_app, toNat_app, toNat_app]
  simp

theorem readStage_encodeStage (op : Nat) (w : StageW) : readStage (encodeStage op w) = w := by
  cases w
  simp only [readStage, StageW.mk.injEq]
  refine ⟨?_, ?_, ?_, ?_, ?_, ?_, ?_, ?_, ?_, ?_⟩ <;> (apply BitVec.eq_of_toNat_eq; rw [BitVec.extractLsb'_toNat, toNat_encodeStage, Nat.shiftRight_eq_div_pow]; dsimp only; bv_omega)

theorem wordOp_encodeStage (op : Nat) (w : StageW) : wordOp (encodeStage op w) = op % 256 := by
  unfold wordOp
  rw [BitVec.extractLsb'_toNat, toNat_encodeStage, Nat.shiftRight_eq_div_pow]
  bv_omega

theorem zeroBit_encodeStage (op : Nat) (w : StageW) : (encodeStage op w).extractLsb' 24 1 = 0#1 := by
  apply BitVec.eq_of_toNat_eq
  rw [BitVec.extractLsb'_toNat, toNat_encodeStage, Nat.shiftRight_eq_div_pow]
  bv_omega

theorem toNat_encodeMem (op : Nat) (w : MemW) : (encodeMem op w).toNat =
    (((((((((((op % 256) * 4 + w.pm.toNat) * 16 + w.ty.toNat) * 512 + w.t0.toNat) * 512 + w.t1.toNat) * 8 + w.scope.toNat) * 2 + w.strong.toNat) * 4 + w.ordk.toNat) * 2 + w.ordered.toNat) * 128 + w.ordno.toNat) * 64 + w.recid.toNat) * 4096 + w.off.toNat := by
  unfold encodeMem
  erw [toNat_app, toNat_app, toNat_app, toNat_app, toNat_app, toNat_app, toNat_app, toNat_app, toNat_app, toNat_app, toNat_app]
  simp

theorem readMem_encodeMem (op : Nat) (w : MemW) : readMem (encodeMem op w) = w := by
  cases w
  simp only [readMem, MemW.mk.injEq]
  refine ⟨?_, ?_, ?_, ?_, ?_, ?_, ?_, ?_, ?_, ?_, ?_⟩ <;> (apply BitVec.eq_of_toNat_eq; rw [BitVec.extractLsb'_toNat, toNat_encodeMem, Nat.shiftRight_eq_div_pow]; dsimp only; bv_omega)

theorem wordOp_encodeMem (op : Nat) (w : MemW) : wordOp (encodeMem op w) = op % 256 := by
  unfold wordOp
  rw [BitVec.extractLsb'_toNat, toNat_encodeMem, Nat.shiftRight_eq_div_pow]
  bv_omega

theorem toNat_encodeCp (op mode : Nat) (w : CpW) : (encodeCp op mode w).toNat =
    ((((((((op % 256) * 4 + w.pm.toNat) * 16 + w.ty.toNat) * 512 + w.t0.toNat) * 512 + w.t1.toNat) * 16 + mode % 16) * 512 + w.t2.toNat) * 512 + w.t3.toNat) * 1024 + w.param.toNat := by
  unfold encodeCp
  erw [toNat_app, toNat_app, toNat_app, toNat_app, toNat_app, toNat_app, toNat_app, toNat_app]
  simp

theorem readCp_encodeCp (op mode : Nat) (w : CpW) : readCp (encodeCp op mode w) = w := by
  cases w
  simp only [readCp, CpW.mk.injEq]
  refine ⟨?_, ?_, ?_, ?_, ?_, ?_, ?_⟩ <;> (apply BitVec.eq_of_toNat_eq; rw [BitVec.extractLsb'_toNat, toNat_encodeCp, Nat.shiftRight_eq_div_pow]; dsimp only; bv_omega)

theorem wordOp_encodeCp (op mode : Nat) (w : CpW) : wordOp (encodeCp op mode w) = op % 256 := by
  unfold wordOp
  rw [BitVec.extractLsb'_toNat, toNat_encodeCp, Nat.shiftRight_eq_div_pow]
  bv_omega

theorem mode_encodeCp (op mode : Nat) (w : CpW) : (encodeCp op mode w).extractLsb' 28 4 = BitVec.ofNat 4 mode := by
  apply BitVec.eq_of_toNat_eq
  rw [BitVec.extractLsb'_toNat, toNat_encodeCp, Nat.shiftRight_eq_div_pow]
  bv_omega

theorem toNat_encodeRe (op : Nat) (w : ReW) : (encodeRe op w).toNat =
    ((((((((op % 256) * 4 + w.pm.toNat) * 16 + w.ty.toNat) * 512 + w.t0.toNat) * 512 + w.t1.toNat) * 256 + w.innerM1.toNat) * 256 + w.outerM1.toNat) * 256 + w.istride.toNat) * 256 + w.ostride.toNat := by
  unfold encodeRe
  erw [toNat_app, toNat_app, toNat_app, toNat_app, toNat_app, toNat_app, toNat_app, toNat_app]
  simp

theorem readRe_encodeRe (op : Nat) (w : ReW) : readRe (encodeRe op w) = w := by
  cases w
  simp only [readRe, ReW.mk.injEq]
  refine ⟨?_, ?_, ?_, ?_, ?_, ?_, ?_, ?_⟩ <;> (apply BitVec.eq_of_toNat_eq; rw [BitVec.extractLsb'_toNat, toNat_encodeRe, Nat.shiftRight_eq_div_pow]; dsimp only; bv_omega)

theorem wordOp_encodeRe (op : Nat) (w : ReW) : wordOp (encodeRe op w) = op % 256 := by
  unfold wordOp
  rw [BitVec.extractLsb'_toNat, toNat_encodeRe, Nat.shiftRight_eq_div_pow]
  bv_omega

theorem toNat_encodeEp (op sub : Nat) (w : EpW) : (encodeEp op sub w).toNat =
    (((((((op % 256) * 4 + w.pm.toNat) * 16 + w.ty.toNat) * 512 + w.t0.toNat) * 512 + w.t1.toNat) * 256 + sub % 256) * 8 + w.escope.toNat) * 2097152 + w.params.toNat := by
  unfold encodeEp
  erw [toNat_app, toNat_app, toNat_app, toNat_app, toNat_app, toNat_app, toNat_app]
  simp

theorem readEp_encodeEp (op sub : Nat) (w : EpW) : readEp (encodeEp op sub w) = w := by
  cases w
  simp only [readEp, EpW.mk.injEq]
  refine ⟨?_, ?_, ?_, ?_, ?_, ?_⟩ <;> (apply BitVec.eq_of_toNat_eq; rw [BitVec.extractLsb'_toNat, toNat_encodeEp, Nat.shiftRight_eq_div_pow]; dsimp only; bv_omega)

theorem wordOp_encodeEp (op sub : Nat) (w : EpW) : wordOp (encodeEp op sub w) = op % 256 := by
  unfold wordOp
  rw [BitVec.extractLsb'_toNat, toNat_encodeEp, Nat.shiftRight_eq_div_pow]
  bv_omega

theorem sub_encodeEp (op sub : Nat) (w : EpW) : (encodeEp op sub w).extractLsb' 24 8 = BitVec.ofNat 8 sub := by
  apply BitVec.eq_of_toNat_eq
  rw [BitVec.extractLsb'_toNat, toNat_encodeEp, Nat.shiftRight_eq_div_pow]
  bv_omega

theorem toNat_encodeHusk (sop : Nat) (h : Husk) : (encodeHusk sop h).toNat =
    (((((((((((sop % 256) * 16 + h.fmt.toNat) * 16 + h.comp.toNat) * 4 + h.rmode.toNat) * 4194304 + h.rsel.toNat) * 4294967296 + h.link.toNat) * 65536 + h.plen.toNat) * 256 + h.rows16.toNat) * 256 + h.cols16.toNat) * 4096 + h.accrow.toNat) * 16 + h.abuf.toNat) * 256 + h.hchk.toNat := by
  unfold encodeHusk
  erw [toNat_app, toNat_app, toNat_app, toNat_app, toNat_app, toNat_app, toNat_app, toNat_app, toNat_app, toNat_app, toNat_app]
  simp

theorem readHusk_encodeHusk (sop : Nat) (h : Husk) : readHusk (encodeHusk sop h) = h := by
  cases h
  simp only [readHusk, Husk.mk.injEq]
  refine ⟨?_, ?_, ?_, ?_, ?_, ?_, ?_, ?_, ?_, ?_, ?_⟩ <;> (apply BitVec.eq_of_toNat_eq; rw [BitVec.extractLsb'_toNat, toNat_encodeHusk, Nat.shiftRight_eq_div_pow]; dsimp only; bv_omega)

theorem sop_encodeHusk (sop : Nat) (h : Husk) : (encodeHusk sop h).extractLsb' 120 8 = BitVec.ofNat 8 sop := by
  apply BitVec.eq_of_toNat_eq
  rw [BitVec.extractLsb'_toNat, toNat_encodeHusk, Nat.shiftRight_eq_div_pow]
  bv_omega

/-! The decoder on an encoded word of each class (R61). -/

theorem decode_encodeStage (op : Nat) (w : StageW) (h : 0 < op) (h2 : op < 0x70) : decode (encodeStage op w) = stageInstr op w := by
  unfold decode
  rw [wordOp_encodeStage, Nat.mod_eq_of_lt (by omega), zeroBit_encodeStage, readStage_encodeStage]
  simp [h2]; omega

theorem decode_encodeMem (op : Nat) (w : MemW) (h : 0x70 ≤ op) (h2 : op < 0xA0) : decode (encodeMem op w) = memInstr op w := by
  unfold decode
  rw [wordOp_encodeMem, Nat.mod_eq_of_lt (by omega), readMem_encodeMem]
  simp only
  repeat (first | rfl | omega | split)

theorem decode_encodeCp (op mode : Nat) (w : CpW) (h : 0xA0 ≤ op) (h2 : op < 0xB0) (hm : mode < 16) :
    decode (encodeCp op mode w) = cpInstr op mode w := by
  unfold decode
  rw [wordOp_encodeCp, Nat.mod_eq_of_lt (by omega), readCp_encodeCp, mode_encodeCp]
  simp only [BitVec.toNat_ofNat, Nat.mod_eq_of_lt hm]
  repeat (first | rfl | omega | split)

theorem decode_encodeRe (op : Nat) (w : ReW) (h : 0xB0 ≤ op) (h2 : op < 0xB8) : decode (encodeRe op w) = reInstr op w := by
  unfold decode
  rw [wordOp_encodeRe, Nat.mod_eq_of_lt (by omega), readRe_encodeRe]
  simp only
  repeat (first | rfl | omega | split)

theorem decode_encodeEp (op sub : Nat) (w : EpW) (h : 0xB8 ≤ op) (h2 : op < 256) :
    decode (encodeEp op sub w) = epInstr op (BitVec.ofNat 8 sub) w := by
  unfold decode
  rw [wordOp_encodeEp, Nat.mod_eq_of_lt (by omega), readEp_encodeEp, sub_encodeEp]
  simp only
  repeat (first | rfl | omega | split)

theorem decode_encodeHusk (sop : Nat) (h : Husk) (h2 : sop < 256) : decodeHusk (encodeHusk sop h) = seedInstr sop h := by
  unfold decodeHusk
  rw [sop_encodeHusk, readHusk_encodeHusk, BitVec.toNat_ofNat, Nat.mod_eq_of_lt h2]

end Sys2Proof
end

