-- ==== Sys2Proof/Laws/Elements.lean ====
section
/-! SUPPORT. Elements of tokens read back from what the elementwise operations pack (R28, R99, R109). -/

namespace Sys2Proof.Machine

theorem bitsOf_lt (x lo len : Nat) : bitsOf x lo len < 2 ^ len := Nat.mod_lt _ (Nat.two_pow_pos _)

/-- Element e of packed elements. -/
theorem bitsOf_packElems (w : Nat) (xs : List Nat) (e : Nat) : bitsOf (packElems w xs) (e * w) w = xs.getD e 0 % 2 ^ w := by
  unfold bitsOf
  rw [Nat.shiftRight_eq_div_pow]
  induction xs generalizing e with
  | nil => simp [packElems]
  | cons x xs ih =>
    rw [packElems, List.foldr_cons]
    change (x % 2 ^ w + 2 ^ w * packElems w xs) / 2 ^ (e * w) % 2 ^ w = _
    cases e with
    | zero => simp [Nat.add_mul_mod_self_left]
    | succ e =>
      rw [Nat.succ_mul, Nat.add_comm (e * w), Nat.pow_add, ← Nat.div_div_eq_div_mul,
        Nat.add_mul_div_left _ _ (Nat.two_pow_pos w), Nat.div_eq_of_lt (Nat.mod_lt _ (Nat.two_pow_pos w)), Nat.zero_add, ih]
      simp

theorem packElems_lt (w : Nat) (xs : List Nat) : packElems w xs < 2 ^ (w * xs.length) := by
  induction xs with
  | nil => simp [packElems]
  | cons x xs ih =>
    rw [packElems, List.foldr_cons]
    change x % 2 ^ w + 2 ^ w * packElems w xs < _
    have h1 := Nat.mod_lt x (Nat.two_pow_pos w)
    rw [List.length_cons, Nat.mul_succ, Nat.pow_add]
    have h2 : packElems w xs + 1 ≤ 2 ^ (w * xs.length) := ih
    calc x % 2 ^ w + 2 ^ w * packElems w xs < 2 ^ w + 2 ^ w * packElems w xs := by omega
      _ = 2 ^ w * (packElems w xs + 1) := by ring
      _ ≤ 2 ^ w * 2 ^ (w * xs.length) := Nat.mul_le_mul_left _ h2
      _ = _ := by ring

theorem typeWidth_elems (t : Nat) : typeWidth t * elemsPerToken t = 512 := by
  unfold elemsPerToken typeWidth
  split <;> rfl

theorem typeWidth_pos (t : Nat) : 0 < typeWidth t := by
  unfold typeWidth
  split <;> decide

/-- Element e of a token whose data are packed elements of its type. -/
theorem elem_pack (t : Nat) (xs : List Nat) (h : xs.length = elemsPerToken t) (m : BitVec 16) (n : Bool) (e : Nat) :
    Token.elem ⟨BitVec.ofNat 512 (packElems (typeWidth t) xs), m, n⟩ t e = xs.getD e 0 % 2 ^ typeWidth t := by
  unfold Token.elem
  have := packElems_lt (typeWidth t) xs
  rw [h, typeWidth_elems] at this
  rw [BitVec.toNat_ofNat, Nat.mod_eq_of_lt this, bitsOf_packElems]

/-- Elements of a token given elementwise. -/
theorem elem_tokenOf (t : Nat) (m : BitVec 16) (f : Nat → Nat) (e : Nat) (h : e < elemsPerToken t) :
    (tokenOf t m f).elem t e = if elemValid t m e then f e % 2 ^ typeWidth t else 0 := by
  unfold tokenOf
  rw [elem_pack _ _ (by simp)]
  simp [List.getD, h]
  split <;> simp

theorem holdsElems_tokenOf (t : Nat) (m : BitVec 16) (f r : Nat → Nat) (h : ∀ e, e < elemsPerToken t → elemValid t m e = true → f e % 2 ^ typeWidth t = r e) :
    holdsElems (tokenOf t m f) t m r := by
  refine ⟨rfl, rfl, fun e he => ?_⟩
  rw [elem_tokenOf _ _ _ _ he]
  split
  · exact h e he ‹_›
  · rfl

theorem holdsElems.congr {x : Token} {t : Nat} {m : BitVec 16} {r r' : Nat → Nat} (h : holdsElems x t m r)
    (hr : ∀ e, r e = r' e) : holdsElems x t m r' := by
  have : r = r' := funext hr
  exact this ▸ h

theorem raised_zero (t : Nat) (m : BitVec 16) : raised t m (fun _ => 0) = 0 := by
  unfold raised
  generalize List.range _ = l
  suffices ∀ a : Flags, l.foldl (fun a e => a ||| if elemValid t m e then (0 : Flags) else 0) a = a from this 0
  induction l with
  | nil => intro a; rfl
  | cons x l ih => intro a; rw [List.foldl_cons, ih]; simp

/-- What an elementwise instruction gives: one token for both targets, its mask, its elements and its status (R28, R109). -/
theorem elementwise_spec (t : Nat) (ops : List Token) (f : List Nat → Nat × Flags) :
    ∃ x, elementwise t ops f = .both x (raised t (resultMask t ops) fun e => (f (ops.map fun x => x.elem t e)).2) ∧
      holdsElems x t (resultMask t ops) fun e => (f (ops.map fun x => x.elem t e)).1 % 2 ^ typeWidth t := by
  have hf : (elementwise t ops f).flags = raised t (resultMask t ops) fun e => (f (ops.map fun x => x.elem t e)).2 := by
    unfold elementwise raised StageOut.both
    simp only [List.foldl_map]
    congr 1
    funext a e
    split <;> rfl
  rw [← hf]
  refine ⟨_, rfl, rfl, rfl, fun e he => ?_⟩
  rw [elem_pack _ _ (by simp)]
  simp [List.getD, he]
  split <;> simp

/-- An operation that raises no status (R110). -/
theorem elementwiseQuiet_spec (t : Nat) (ops : List Token) (f : List Nat → Nat) :
    ∃ x, elementwiseQuiet t ops f = .both x (raised t (resultMask t ops) fun _ => 0) ∧
      holdsElems x t (resultMask t ops) fun e => f (ops.map fun x => x.elem t e) % 2 ^ typeWidth t :=
  elementwise_spec t ops fun xs => (f xs, 0)

end Sys2Proof.Machine
end

