-- ==== Sys2Proof/Laws/Tab.lean ====
section
/-! SUPPORT. What the operations on sparse tables do: reads after writes, and the rising order of the keys. -/

namespace Sys2Proof.Machine

variable {α : Type}

/-- Putting a value lists it under its key and changes no other. -/
theorem tabFind_tabPut (t : List (Nat × α)) (k : Nat) (v : α) (j : Nat) :
    tabFind (tabPut t k v) j = if j = k then some v else tabFind t j := by
  induction t with
  | nil => simp [tabPut, tabFind]
  | cons e t ih =>
    obtain ⟨a, u⟩ := e
    by_cases h1 : k < a
    · simp [tabPut, tabFind, h1]
    · by_cases h2 : k = a
      · subst h2
        by_cases h3 : j = k <;> simp [tabPut, tabFind, h3]
      · simp only [tabPut, h1, h2, if_false, tabFind, ih]
        by_cases h3 : j = a <;> by_cases h4 : j = k <;> simp_all

@[simp] theorem tabFind_tabPut_self (t : List (Nat × α)) (k : Nat) (v : α) : tabFind (tabPut t k v) k = some v := by
  simp [tabFind_tabPut]

theorem tabFind_tabPut_ne (t : List (Nat × α)) (v : α) {k j : Nat} (h : j ≠ k) : tabFind (tabPut t k v) j = tabFind t j := by
  simp [tabFind_tabPut, h]

theorem tabGet_tabPut (d : α) (t : List (Nat × α)) (k : Nat) (v : α) (j : Nat) :
    tabGet d (tabPut t k v) j = if j = k then v else tabGet d t j := by
  unfold tabGet
  rw [tabFind_tabPut]
  split <;> rfl

@[simp] theorem tabGet_tabPut_self (d : α) (t : List (Nat × α)) (k : Nat) (v : α) : tabGet d (tabPut t k v) k = v := by
  simp [tabGet_tabPut]

theorem tabGet_tabPut_ne (d : α) (t : List (Nat × α)) (v : α) {k j : Nat} (h : j ≠ k) : tabGet d (tabPut t k v) j = tabGet d t j := by
  simp [tabGet_tabPut, h]

/-- Dropping a key leaves every other. -/
theorem tabFind_tabDel_ne (t : List (Nat × α)) {k j : Nat} (h : j ≠ k) : tabFind (tabDel t k) j = tabFind t j := by
  induction t with
  | nil => rfl
  | cons e t ih =>
    obtain ⟨a, u⟩ := e
    by_cases h2 : k = a
    · subst h2
      simpa [tabDel, tabFind, h] using ih
    · simp only [tabDel, h2, if_false, tabFind, ih]

/-- Keys strictly rising from a bound. -/
def risesFrom : Nat → List (Nat × α) → Prop
  | _, [] => True
  | b, (k, _) :: t => b ≤ k ∧ risesFrom (k + 1) t

theorem risesFrom.mono {a b : Nat} {t : List (Nat × α)} (h : risesFrom b t) (hab : a ≤ b) : risesFrom a t := by
  cases t with
  | nil => trivial
  | cons e t => exact ⟨le_trans hab h.1, h.2⟩

theorem risesFrom.tabPut {b k : Nat} {t : List (Nat × α)} (h : risesFrom b t) (hk : b ≤ k) (v : α) : risesFrom b (tabPut t k v) := by
  induction t generalizing b with
  | nil => exact ⟨hk, trivial⟩
  | cons e t ih =>
    obtain ⟨a, u⟩ := e
    by_cases h1 : k < a
    · simp only [Machine.tabPut, h1, if_true]
      exact ⟨hk, h1, h.2⟩
    · by_cases h2 : k = a
      · subst h2
        simp only [Machine.tabPut, h1, if_false, if_true]
        exact ⟨hk, h.2⟩
      · simp only [Machine.tabPut, h1, h2, if_false]
        exact ⟨h.1, ih h.2 (by omega)⟩

theorem risesFrom.tabDel {b k : Nat} {t : List (Nat × α)} (h : risesFrom b t) : risesFrom b (tabDel t k) := by
  induction t generalizing b with
  | nil => trivial
  | cons e t ih =>
    obtain ⟨a, u⟩ := e
    by_cases h2 : k = a
    · simp only [Machine.tabDel, h2, if_true]
      have := h.1
      exact h2 ▸ ih (h.2.mono (show b ≤ a + 1 by omega))
    · simp only [Machine.tabDel, h2, if_false]
      exact ⟨h.1, ih h.2⟩

theorem tabFind_below {b : Nat} {t : List (Nat × α)} (h : risesFrom b t) {k : Nat} (hk : k < b) : tabFind t k = none := by
  induction t generalizing b with
  | nil => rfl
  | cons e t ih =>
    obtain ⟨a, u⟩ := e
    have h1 := h.1
    have : k ≠ a := by omega
    simp only [tabFind, this, if_false]
    exact ih h.2 (by omega)

/-- A dropped key is not listed. -/
@[simp] theorem tabFind_tabDel_self (t : List (Nat × α)) (k : Nat) : tabFind (tabDel t k) k = none := by
  induction t with
  | nil => rfl
  | cons e t ih =>
    obtain ⟨a, u⟩ := e
    by_cases h2 : k = a
    · simpa only [tabDel, h2, if_true] using h2 ▸ ih
    · simpa only [tabDel, h2, if_false, tabFind] using ih

/-- Setting a value that may be the default. -/
theorem tabGet_tabSet [DecidableEq α] {d : α} {t : List (Nat × α)} (k : Nat) (v : α) (j : Nat) :
    tabGet d (tabSet d t k v) j = if j = k then v else tabGet d t j := by
  unfold tabSet
  by_cases hv : v = d
  · simp only [hv, if_true]
    unfold tabGet
    by_cases hj : j = k
    · subst hj; simp
    · simp [tabFind_tabDel_ne t hj, hj]
  · simp only [hv, if_false]; exact tabGet_tabPut d t k v j

theorem risesFrom.tabSet [DecidableEq α] {b k : Nat} {d : α} {t : List (Nat × α)} (h : risesFrom b t) (hk : b ≤ k) (v : α) :
    risesFrom b (tabSet d t k v) := by
  unfold Machine.tabSet
  split
  · exact h.tabDel
  · exact h.tabPut hk v

theorem risesFrom.filter {b : Nat} {t : List (Nat × α)} (h : risesFrom b t) (p : Nat × α → Bool) : risesFrom b (t.filter p) := by
  induction t generalizing b with
  | nil => trivial
  | cons e t ih =>
    obtain ⟨a, u⟩ := e
    have ht := ih h.2
    simp only [List.filter_cons]
    split
    · exact ⟨h.1, ht⟩
    · exact ht.mono (by have := h.1; omega)

end Sys2Proof.Machine
end

