-- ==== Sys2Proof/Laws/Memory.lean ====
section
/-! SUPPORT. The canonical form of memory is kept by every operation on it, and reads after writes. -/

namespace Sys2Proof.Machine

/-- The canonical form, as a rising table that lists no 0. -/
theorem wf_iff (m : List Host.Cell) : Memory.wf m = true ↔ risesFrom 0 m ∧ ∀ e ∈ m, e.2 ≠ 0 := by
  have gen : ∀ (m : List Host.Cell) (b : Nat), (∀ e ∈ m.head?, b ≤ e.1) → (Memory.wf m = true ↔ risesFrom b m ∧ ∀ e ∈ m, e.2 ≠ 0) := by
    intro m
    induction m with
    | nil => intro b _; simp [Memory.wf, risesFrom]
    | cons e t ih =>
      intro b hb
      obtain ⟨k, x⟩ := e
      cases t with
      | nil =>
        simp only [Memory.wf, risesFrom, List.mem_singleton, forall_eq, bne_iff_ne, ne_eq]
        have : b ≤ k := hb (k, x) (by simp)
        tauto
      | cons e' t =>
        obtain ⟨k', x'⟩ := e'
        have hk : b ≤ k := hb (k, x) (by simp)
        rw [Memory.wf]
        simp only [Bool.and_eq_true, bne_iff_ne, ne_eq, decide_eq_true_eq, List.mem_cons, forall_eq_or_imp]
        constructor
        · rintro ⟨⟨h1, h2⟩, h3⟩
          have := (ih (k + 1) (by simpa using h2)).1 h3
          exact ⟨⟨hk, this.1⟩, h1, (by simpa using this.2)⟩
        · rintro ⟨⟨_, h2⟩, h3, h4⟩
          exact ⟨⟨h3, h2.1⟩, (ih (k + 1) (by simpa using h2.1)).2 ⟨h2, by simpa using h4⟩⟩
  exact gen m 0 (fun _ _ => Nat.zero_le _)

theorem mem_tabPut {α : Type} {t : List (Nat × α)} {k : Nat} {v : α} {e : Nat × α} (h : e ∈ tabPut t k v) : e = (k, v) ∨ e ∈ t := by
  induction t with
  | nil => simpa [tabPut] using h
  | cons a t ih =>
    obtain ⟨j, u⟩ := a
    simp only [tabPut] at h
    split at h
    · simpa using h
    · split at h
      · simp only [List.mem_cons] at h ⊢; tauto
      · simp only [List.mem_cons] at h ⊢
        rcases h with h | h
        · exact .inr (.inl h)
        · rcases ih h with h | h
          · exact .inl h
          · exact .inr (.inr h)

theorem mem_tabDel {α : Type} {t : List (Nat × α)} {k : Nat} {e : Nat × α} (h : e ∈ tabDel t k) : e ∈ t := by
  induction t with
  | nil => simp [tabDel] at h
  | cons a t ih =>
    obtain ⟨j, u⟩ := a
    simp only [tabDel] at h
    split at h
    · exact List.mem_cons_of_mem _ (ih h)
    · simp only [List.mem_cons] at h ⊢
      exact h.imp id ih

@[simp] theorem wf_nil : Memory.wf [] = true := rfl

theorem wf_memSet {m : List Host.Cell} (h : Memory.wf m = true) (k : Nat) (b : Byte) : Memory.wf (memSet m k b) = true := by
  rw [wf_iff] at h ⊢
  refine ⟨h.1.tabSet (Nat.zero_le _) b, ?_⟩
  intro e he
  unfold memSet tabSet at he
  split at he
  · exact h.2 e (mem_tabDel he)
  · rcases mem_tabPut he with rfl | he
    · assumption
    · exact h.2 e he

theorem wf_memWrite {m : List Host.Cell} (h : Memory.wf m = true) (k n x : Nat) : Memory.wf (memWrite m k n x) = true := by
  induction n generalizing m k x with
  | zero => exact h
  | succ n ih => exact ih (wf_memSet h _ _) _ _

theorem wf_memWriteBytes {m : List Host.Cell} (h : Memory.wf m = true) (k : Nat) (bs : List Byte) : Memory.wf (memWriteBytes m k bs) = true := by
  induction bs generalizing m k with
  | nil => exact h
  | cons b bs ih => exact ih (wf_memSet h _ _) _

theorem wf_filter {m : List Host.Cell} (h : Memory.wf m = true) (p : Host.Cell → Bool) : Memory.wf (m.filter p) = true := by
  rw [wf_iff] at h ⊢
  exact ⟨h.1.filter p, fun e he => h.2 e (List.mem_filter.1 he).1⟩

theorem wf_foldl_memSet {β : Type} (f : β → Nat) (g : β → Byte) (l : List β) {m : List Host.Cell} (h : Memory.wf m = true) :
    Memory.wf (l.foldl (fun m e => memSet m (f e) (g e)) m) = true := by
  induction l generalizing m with
  | nil => exact h
  | cons e l ih => exact ih (wf_memSet h _ _)

/-- The byte read at a key after one is stored. -/
theorem memByte_memSet {m : List Host.Cell} (k : Nat) (b : Byte) (j : Nat) :
    memByte (memSet m k b) j = if j = k then b else memByte m j :=
  tabGet_tabSet k b j

/-- A byte outside a stored run reads as before. -/
theorem memByte_memWrite_ne (m : List Host.Cell) (k n x j : Nat) (hj : j < k ∨ k + n ≤ j) :
    memByte (memWrite m k n x) j = memByte m j := by
  induction n generalizing m k x with
  | zero => rfl
  | succ n ih =>
    rw [memWrite, ih _ _ _ (by omega), memByte_memSet]
    have : j ≠ k := by omega
    simp [this]

/-- A byte of a stored run is the number's byte. -/
theorem memByte_memWrite (m : List Host.Cell) (k n x i : Nat) (hi : i < n) :
    memByte (memWrite m k n x) (k + i) = BitVec.ofNat 8 (x / 256 ^ i) := by
  induction n generalizing m k x i with
  | zero => omega
  | succ n ih =>
    rw [memWrite]
    cases i with
    | zero =>
      rw [memByte_memWrite_ne _ _ _ _ _ (by omega), memByte_memSet]
      simp
    | succ i =>
      have := ih (memSet m k (BitVec.ofNat 8 x)) (k + 1) (x / 256) i (by omega)
      rw [show k + (i + 1) = k + 1 + i by omega, this, Nat.div_div_eq_div_mul, pow_succ, Nat.mul_comm]

/-- Writing a run at a place: what stands there, and that memory keeps its form. -/
theorem writeRun_mem (s : State) (key n x : Nat) (p : Bool) : (writeRun s key n x p).mem = memWrite s.mem key n x := rfl

theorem wf_writeRun {s : State} (h : Memory.wf s.mem = true) (key n x : Nat) (p : Bool) : Memory.wf (writeRun s key n x p).mem = true :=
  wf_memWrite h key n x

theorem wf_reset : Memory.wf State.reset.mem = true := rfl

end Sys2Proof.Machine
end

