-- ==== Sys2Proof/Laws/State.lean ====
section
/-! SUPPORT. What each update of the state leaves as it was, one lemma a field, and what is read after an update. -/

namespace Sys2Proof.Machine

/-! Fields after `setCore`. -/

@[simp] theorem State.setCore_mem (s : State) (c : Nat) (x : Core) : (s.setCore c x).mem = s.mem := rfl
@[simp] theorem State.setCore_poison (s : State) (c : Nat) (x : Core) : (s.setCore c x).poison = s.poison := rfl
@[simp] theorem State.setCore_latent (s : State) (c : Nat) (x : Core) : (s.setCore c x).latent = s.latent := rfl
@[simp] theorem State.setCore_views (s : State) (c : Nat) (x : Core) : (s.setCore c x).views = s.views := rfl
@[simp] theorem State.setCore_l2 (s : State) (c : Nat) (x : Core) : (s.setCore c x).l2 = s.l2 := rfl
@[simp] theorem State.setCore_quads (s : State) (c : Nat) (x : Core) : (s.setCore c x).quads = s.quads := rfl
@[simp] theorem State.setCore_stks (s : State) (c : Nat) (x : Core) : (s.setCore c x).stks = s.stks := rfl
@[simp] theorem State.setCore_chans (s : State) (c : Nat) (x : Core) : (s.setCore c x).chans = s.chans := rfl
@[simp] theorem State.setCore_dies (s : State) (c : Nat) (x : Core) : (s.setCore c x).dies = s.dies := rfl
@[simp] theorem State.setCore_parts (s : State) (c : Nat) (x : Core) : (s.setCore c x).parts = s.parts := rfl
@[simp] theorem State.setCore_fns (s : State) (c : Nat) (x : Core) : (s.setCore c x).fns = s.fns := rfl
@[simp] theorem State.setCore_jobs (s : State) (c : Nat) (x : Core) : (s.setCore c x).jobs = s.jobs := rfl
@[simp] theorem State.setCore_jobOrder (s : State) (c : Nat) (x : Core) : (s.setCore c x).jobOrder = s.jobOrder := rfl
@[simp] theorem State.setCore_placeOrder (s : State) (c : Nat) (x : Core) : (s.setCore c x).placeOrder = s.placeOrder := rfl
@[simp] theorem State.setCore_passDue (s : State) (c : Nat) (x : Core) : (s.setCore c x).passDue = s.passDue := rfl
@[simp] theorem State.setCore_lastPlaced (s : State) (c : Nat) (x : Core) : (s.setCore c x).lastPlaced = s.lastPlaced := rfl
@[simp] theorem State.setCore_effort (s : State) (c : Nat) (x : Core) : (s.setCore c x).effort = s.effort := rfl
@[simp] theorem State.setCore_cardOrder (s : State) (c : Nat) (x : Core) : (s.setCore c x).cardOrder = s.cardOrder := rfl
@[simp] theorem State.setCore_stamp (s : State) (c : Nat) (x : Core) : (s.setCore c x).stamp = s.stamp := rfl
@[simp] theorem State.setCore_barriers (s : State) (c : Nat) (x : Core) : (s.setCore c x).barriers = s.barriers := rfl
@[simp] theorem State.setCore_riders (s : State) (c : Nat) (x : Core) : (s.setCore c x).riders = s.riders := rfl
@[simp] theorem State.setCore_kvsends (s : State) (c : Nat) (x : Core) : (s.setCore c x).kvsends = s.kvsends := rfl
@[simp] theorem State.setCore_statusOut (s : State) (c : Nat) (x : Core) : (s.setCore c x).statusOut = s.statusOut := rfl
@[simp] theorem State.setCore_messages (s : State) (c : Nat) (x : Core) : (s.setCore c x).messages = s.messages := rfl
@[simp] theorem State.setCore_hostWc (s : State) (c : Nat) (x : Core) : (s.setCore c x).hostWc = s.hostWc := rfl
@[simp] theorem State.setCore_hostLink (s : State) (c : Nat) (x : Core) : (s.setCore c x).hostLink = s.hostLink := rfl
@[simp] theorem State.setCore_ports (s : State) (c : Nat) (x : Core) : (s.setCore c x).ports = s.ports := rfl
@[simp] theorem State.setCore_remoteOut (s : State) (c : Nat) (x : Core) : (s.setCore c x).remoteOut = s.remoteOut := rfl
@[simp] theorem State.setCore_remoteReply (s : State) (c : Nat) (x : Core) : (s.setCore c x).remoteReply = s.remoteReply := rfl
@[simp] theorem State.setCore_homeAtoms (s : State) (c : Nat) (x : Core) : (s.setCore c x).homeAtoms = s.homeAtoms := rfl
@[simp] theorem State.setCore_remoteWaits (s : State) (c : Nat) (x : Core) : (s.setCore c x).remoteWaits = s.remoteWaits := rfl
@[simp] theorem State.setCore_remoteColls (s : State) (c : Nat) (x : Core) : (s.setCore c x).remoteColls = s.remoteColls := rfl
@[simp] theorem State.setCore_hostReply (s : State) (c : Nat) (x : Core) : (s.setCore c x).hostReply = s.hostReply := rfl
@[simp] theorem State.setCore_sriov (s : State) (c : Nat) (x : Core) : (s.setCore c x).sriov = s.sriov := rfl
@[simp] theorem State.setCore_msixSent (s : State) (c : Nat) (x : Core) : (s.setCore c x).msixSent = s.msixSent := rfl
@[simp] theorem State.setCore_boot (s : State) (c : Nat) (x : Core) : (s.setCore c x).boot = s.boot := rfl
@[simp] theorem State.setCore_bootBuf (s : State) (c : Nat) (x : Core) : (s.setCore c x).bootBuf = s.bootBuf := rfl
@[simp] theorem State.setCore_bootstat (s : State) (c : Nat) (x : Core) : (s.setCore c x).bootstat = s.bootstat := rfl
@[simp] theorem State.setCore_bootBusy (s : State) (c : Nat) (x : Core) : (s.setCore c x).bootBusy = s.bootBusy := rfl
@[simp] theorem State.setCore_pkgId (s : State) (c : Nat) (x : Core) : (s.setCore c x).pkgId = s.pkgId := rfl
@[simp] theorem State.setCore_measure (s : State) (c : Nat) (x : Core) : (s.setCore c x).measure = s.measure := rfl
@[simp] theorem State.setCore_spdmVersion (s : State) (c : Nat) (x : Core) : (s.setCore c x).spdmVersion = s.spdmVersion := rfl
@[simp] theorem State.setCore_spdmCaps (s : State) (c : Nat) (x : Core) : (s.setCore c x).spdmCaps = s.spdmCaps := rfl
@[simp] theorem State.setCore_spdmAlgs (s : State) (c : Nat) (x : Core) : (s.setCore c x).spdmAlgs = s.spdmAlgs := rfl
@[simp] theorem State.setCore_spdmResp (s : State) (c : Nat) (x : Core) : (s.setCore c x).spdmResp = s.spdmResp := rfl
@[simp] theorem State.setCore_mailbox (s : State) (c : Nat) (x : Core) : (s.setCore c x).mailbox = s.mailbox := rfl
@[simp] theorem State.setCore_oppoint (s : State) (c : Nat) (x : Core) : (s.setCore c x).oppoint = s.oppoint := rfl
@[simp] theorem State.setCore_oppointReg (s : State) (c : Nat) (x : Core) : (s.setCore c x).oppointReg = s.oppointReg := rfl
@[simp] theorem State.setCore_hipt (s : State) (c : Nat) (x : Core) : (s.setCore c x).hipt = s.hipt := rfl
@[simp] theorem State.setCore_lifttime (s : State) (c : Nat) (x : Core) : (s.setCore c x).lifttime = s.lifttime := rfl
@[simp] theorem State.setCore_aithresh (s : State) (c : Nat) (x : Core) : (s.setCore c x).aithresh = s.aithresh := rfl
@[simp] theorem State.setCore_grantmax (s : State) (c : Nat) (x : Core) : (s.setCore c x).grantmax = s.grantmax := rfl
@[simp] theorem State.setCore_freezePin (s : State) (c : Nat) (x : Core) : (s.setCore c x).freezePin = s.freezePin := rfl
@[simp] theorem State.setCore_freezeReg (s : State) (c : Nat) (x : Core) : (s.setCore c x).freezeReg = s.freezeReg := rfl
@[simp] theorem State.setCore_heldMoves (s : State) (c : Nat) (x : Core) : (s.setCore c x).heldMoves = s.heldMoves := rfl
@[simp] theorem State.setCore_focus (s : State) (c : Nat) (x : Core) : (s.setCore c x).focus = s.focus := rfl
@[simp] theorem State.setCore_mustWait (s : State) (c : Nat) (x : Core) : (s.setCore c x).mustWait = s.mustWait := rfl
@[simp] theorem State.setCore_moves (s : State) (c : Nat) (x : Core) : (s.setCore c x).moves = s.moves := rfl
@[simp] theorem State.setCore_tick (s : State) (c : Nat) (x : Core) : (s.setCore c x).tick = s.tick := rfl

/-! Fields after `setTask`. -/

@[simp] theorem State.setTask_mem (s : State) (c t : Nat) (x : Task) : (s.setTask c t x).mem = s.mem := rfl
@[simp] theorem State.setTask_poison (s : State) (c t : Nat) (x : Task) : (s.setTask c t x).poison = s.poison := rfl
@[simp] theorem State.setTask_latent (s : State) (c t : Nat) (x : Task) : (s.setTask c t x).latent = s.latent := rfl
@[simp] theorem State.setTask_views (s : State) (c t : Nat) (x : Task) : (s.setTask c t x).views = s.views := rfl
@[simp] theorem State.setTask_l2 (s : State) (c t : Nat) (x : Task) : (s.setTask c t x).l2 = s.l2 := rfl
@[simp] theorem State.setTask_quads (s : State) (c t : Nat) (x : Task) : (s.setTask c t x).quads = s.quads := rfl
@[simp] theorem State.setTask_stks (s : State) (c t : Nat) (x : Task) : (s.setTask c t x).stks = s.stks := rfl
@[simp] theorem State.setTask_chans (s : State) (c t : Nat) (x : Task) : (s.setTask c t x).chans = s.chans := rfl
@[simp] theorem State.setTask_dies (s : State) (c t : Nat) (x : Task) : (s.setTask c t x).dies = s.dies := rfl
@[simp] theorem State.setTask_parts (s : State) (c t : Nat) (x : Task) : (s.setTask c t x).parts = s.parts := rfl
@[simp] theorem State.setTask_fns (s : State) (c t : Nat) (x : Task) : (s.setTask c t x).fns = s.fns := rfl
@[simp] theorem State.setTask_jobs (s : State) (c t : Nat) (x : Task) : (s.setTask c t x).jobs = s.jobs := rfl
@[simp] theorem State.setTask_jobOrder (s : State) (c t : Nat) (x : Task) : (s.setTask c t x).jobOrder = s.jobOrder := rfl
@[simp] theorem State.setTask_placeOrder (s : State) (c t : Nat) (x : Task) : (s.setTask c t x).placeOrder = s.placeOrder := rfl
@[simp] theorem State.setTask_passDue (s : State) (c t : Nat) (x : Task) : (s.setTask c t x).passDue = s.passDue := rfl
@[simp] theorem State.setTask_lastPlaced (s : State) (c t : Nat) (x : Task) : (s.setTask c t x).lastPlaced = s.lastPlaced := rfl
@[simp] theorem State.setTask_effort (s : State) (c t : Nat) (x : Task) : (s.setTask c t x).effort = s.effort := rfl
@[simp] theorem State.setTask_cardOrder (s : State) (c t : Nat) (x : Task) : (s.setTask c t x).cardOrder = s.cardOrder := rfl
@[simp] theorem State.setTask_stamp (s : State) (c t : Nat) (x : Task) : (s.setTask c t x).stamp = s.stamp := rfl
@[simp] theorem State.setTask_barriers (s : State) (c t : Nat) (x : Task) : (s.setTask c t x).barriers = s.barriers := rfl
@[simp] theorem State.setTask_riders (s : State) (c t : Nat) (x : Task) : (s.setTask c t x).riders = s.riders := rfl
@[simp] theorem State.setTask_kvsends (s : State) (c t : Nat) (x : Task) : (s.setTask c t x).kvsends = s.kvsends := rfl
@[simp] theorem State.setTask_statusOut (s : State) (c t : Nat) (x : Task) : (s.setTask c t x).statusOut = s.statusOut := rfl
@[simp] theorem State.setTask_messages (s : State) (c t : Nat) (x : Task) : (s.setTask c t x).messages = s.messages := rfl
@[simp] theorem State.setTask_hostWc (s : State) (c t : Nat) (x : Task) : (s.setTask c t x).hostWc = s.hostWc := rfl
@[simp] theorem State.setTask_hostLink (s : State) (c t : Nat) (x : Task) : (s.setTask c t x).hostLink = s.hostLink := rfl
@[simp] theorem State.setTask_ports (s : State) (c t : Nat) (x : Task) : (s.setTask c t x).ports = s.ports := rfl
@[simp] theorem State.setTask_remoteOut (s : State) (c t : Nat) (x : Task) : (s.setTask c t x).remoteOut = s.remoteOut := rfl
@[simp] theorem State.setTask_remoteReply (s : State) (c t : Nat) (x : Task) : (s.setTask c t x).remoteReply = s.remoteReply := rfl
@[simp] theorem State.setTask_homeAtoms (s : State) (c t : Nat) (x : Task) : (s.setTask c t x).homeAtoms = s.homeAtoms := rfl
@[simp] theorem State.setTask_remoteWaits (s : State) (c t : Nat) (x : Task) : (s.setTask c t x).remoteWaits = s.remoteWaits := rfl
@[simp] theorem State.setTask_remoteColls (s : State) (c t : Nat) (x : Task) : (s.setTask c t x).remoteColls = s.remoteColls := rfl
@[simp] theorem State.setTask_hostReply (s : State) (c t : Nat) (x : Task) : (s.setTask c t x).hostReply = s.hostReply := rfl
@[simp] theorem State.setTask_sriov (s : State) (c t : Nat) (x : Task) : (s.setTask c t x).sriov = s.sriov := rfl
@[simp] theorem State.setTask_msixSent (s : State) (c t : Nat) (x : Task) : (s.setTask c t x).msixSent = s.msixSent := rfl
@[simp] theorem State.setTask_boot (s : State) (c t : Nat) (x : Task) : (s.setTask c t x).boot = s.boot := rfl
@[simp] theorem State.setTask_bootBuf (s : State) (c t : Nat) (x : Task) : (s.setTask c t x).bootBuf = s.bootBuf := rfl
@[simp] theorem State.setTask_bootstat (s : State) (c t : Nat) (x : Task) : (s.setTask c t x).bootstat = s.bootstat := rfl
@[simp] theorem State.setTask_bootBusy (s : State) (c t : Nat) (x : Task) : (s.setTask c t x).bootBusy = s.bootBusy := rfl
@[simp] theorem State.setTask_pkgId (s : State) (c t : Nat) (x : Task) : (s.setTask c t x).pkgId = s.pkgId := rfl
@[simp] theorem State.setTask_measure (s : State) (c t : Nat) (x : Task) : (s.setTask c t x).measure = s.measure := rfl
@[simp] theorem State.setTask_spdmVersion (s : State) (c t : Nat) (x : Task) : (s.setTask c t x).spdmVersion = s.spdmVersion := rfl
@[simp] theorem State.setTask_spdmCaps (s : State) (c t : Nat) (x : Task) : (s.setTask c t x).spdmCaps = s.spdmCaps := rfl
@[simp] theorem State.setTask_spdmAlgs (s : State) (c t : Nat) (x : Task) : (s.setTask c t x).spdmAlgs = s.spdmAlgs := rfl
@[simp] theorem State.setTask_spdmResp (s : State) (c t : Nat) (x : Task) : (s.setTask c t x).spdmResp = s.spdmResp := rfl
@[simp] theorem State.setTask_mailbox (s : State) (c t : Nat) (x : Task) : (s.setTask c t x).mailbox = s.mailbox := rfl
@[simp] theorem State.setTask_oppoint (s : State) (c t : Nat) (x : Task) : (s.setTask c t x).oppoint = s.oppoint := rfl
@[simp] theorem State.setTask_oppointReg (s : State) (c t : Nat) (x : Task) : (s.setTask c t x).oppointReg = s.oppointReg := rfl
@[simp] theorem State.setTask_hipt (s : State) (c t : Nat) (x : Task) : (s.setTask c t x).hipt = s.hipt := rfl
@[simp] theorem State.setTask_lifttime (s : State) (c t : Nat) (x : Task) : (s.setTask c t x).lifttime = s.lifttime := rfl
@[simp] theorem State.setTask_aithresh (s : State) (c t : Nat) (x : Task) : (s.setTask c t x).aithresh = s.aithresh := rfl
@[simp] theorem State.setTask_grantmax (s : State) (c t : Nat) (x : Task) : (s.setTask c t x).grantmax = s.grantmax := rfl
@[simp] theorem State.setTask_freezePin (s : State) (c t : Nat) (x : Task) : (s.setTask c t x).freezePin = s.freezePin := rfl
@[simp] theorem State.setTask_freezeReg (s : State) (c t : Nat) (x : Task) : (s.setTask c t x).freezeReg = s.freezeReg := rfl
@[simp] theorem State.setTask_heldMoves (s : State) (c t : Nat) (x : Task) : (s.setTask c t x).heldMoves = s.heldMoves := rfl
@[simp] theorem State.setTask_focus (s : State) (c t : Nat) (x : Task) : (s.setTask c t x).focus = s.focus := rfl
@[simp] theorem State.setTask_mustWait (s : State) (c t : Nat) (x : Task) : (s.setTask c t x).mustWait = s.mustWait := rfl
@[simp] theorem State.setTask_moves (s : State) (c t : Nat) (x : Task) : (s.setTask c t x).moves = s.moves := rfl
@[simp] theorem State.setTask_tick (s : State) (c t : Nat) (x : Task) : (s.setTask c t x).tick = s.tick := rfl

/-! Fields after `setChan`. -/

@[simp] theorem State.setChan_mem (s : State) (c : Nat) (x : Channel) : (s.setChan c x).mem = s.mem := rfl
@[simp] theorem State.setChan_poison (s : State) (c : Nat) (x : Channel) : (s.setChan c x).poison = s.poison := rfl
@[simp] theorem State.setChan_latent (s : State) (c : Nat) (x : Channel) : (s.setChan c x).latent = s.latent := rfl
@[simp] theorem State.setChan_views (s : State) (c : Nat) (x : Channel) : (s.setChan c x).views = s.views := rfl
@[simp] theorem State.setChan_l2 (s : State) (c : Nat) (x : Channel) : (s.setChan c x).l2 = s.l2 := rfl
@[simp] theorem State.setChan_cores (s : State) (c : Nat) (x : Channel) : (s.setChan c x).cores = s.cores := rfl
@[simp] theorem State.setChan_quads (s : State) (c : Nat) (x : Channel) : (s.setChan c x).quads = s.quads := rfl
@[simp] theorem State.setChan_stks (s : State) (c : Nat) (x : Channel) : (s.setChan c x).stks = s.stks := rfl
@[simp] theorem State.setChan_dies (s : State) (c : Nat) (x : Channel) : (s.setChan c x).dies = s.dies := rfl
@[simp] theorem State.setChan_parts (s : State) (c : Nat) (x : Channel) : (s.setChan c x).parts = s.parts := rfl
@[simp] theorem State.setChan_fns (s : State) (c : Nat) (x : Channel) : (s.setChan c x).fns = s.fns := rfl
@[simp] theorem State.setChan_jobs (s : State) (c : Nat) (x : Channel) : (s.setChan c x).jobs = s.jobs := rfl
@[simp] theorem State.setChan_jobOrder (s : State) (c : Nat) (x : Channel) : (s.setChan c x).jobOrder = s.jobOrder := rfl
@[simp] theorem State.setChan_placeOrder (s : State) (c : Nat) (x : Channel) : (s.setChan c x).placeOrder = s.placeOrder := rfl
@[simp] theorem State.setChan_passDue (s : State) (c : Nat) (x : Channel) : (s.setChan c x).passDue = s.passDue := rfl
@[simp] theorem State.setChan_lastPlaced (s : State) (c : Nat) (x : Channel) : (s.setChan c x).lastPlaced = s.lastPlaced := rfl
@[simp] theorem State.setChan_effort (s : State) (c : Nat) (x : Channel) : (s.setChan c x).effort = s.effort := rfl
@[simp] theorem State.setChan_cardOrder (s : State) (c : Nat) (x : Channel) : (s.setChan c x).cardOrder = s.cardOrder := rfl
@[simp] theorem State.setChan_stamp (s : State) (c : Nat) (x : Channel) : (s.setChan c x).stamp = s.stamp := rfl
@[simp] theorem State.setChan_barriers (s : State) (c : Nat) (x : Channel) : (s.setChan c x).barriers = s.barriers := rfl
@[simp] theorem State.setChan_riders (s : State) (c : Nat) (x : Channel) : (s.setChan c x).riders = s.riders := rfl
@[simp] theorem State.setChan_kvsends (s : State) (c : Nat) (x : Channel) : (s.setChan c x).kvsends = s.kvsends := rfl
@[simp] theorem State.setChan_statusOut (s : State) (c : Nat) (x : Channel) : (s.setChan c x).statusOut = s.statusOut := rfl
@[simp] theorem State.setChan_messages (s : State) (c : Nat) (x : Channel) : (s.setChan c x).messages = s.messages := rfl
@[simp] theorem State.setChan_hostWc (s : State) (c : Nat) (x : Channel) : (s.setChan c x).hostWc = s.hostWc := rfl
@[simp] theorem State.setChan_hostLink (s : State) (c : Nat) (x : Channel) : (s.setChan c x).hostLink = s.hostLink := rfl
@[simp] theorem State.setChan_ports (s : State) (c : Nat) (x : Channel) : (s.setChan c x).ports = s.ports := rfl
@[simp] theorem State.setChan_remoteOut (s : State) (c : Nat) (x : Channel) : (s.setChan c x).remoteOut = s.remoteOut := rfl
@[simp] theorem State.setChan_remoteReply (s : State) (c : Nat) (x : Channel) : (s.setChan c x).remoteReply = s.remoteReply := rfl
@[simp] theorem State.setChan_homeAtoms (s : State) (c : Nat) (x : Channel) : (s.setChan c x).homeAtoms = s.homeAtoms := rfl
@[simp] theorem State.setChan_remoteWaits (s : State) (c : Nat) (x : Channel) : (s.setChan c x).remoteWaits = s.remoteWaits := rfl
@[simp] theorem State.setChan_remoteColls (s : State) (c : Nat) (x : Channel) : (s.setChan c x).remoteColls = s.remoteColls := rfl
@[simp] theorem State.setChan_hostReply (s : State) (c : Nat) (x : Channel) : (s.setChan c x).hostReply = s.hostReply := rfl
@[simp] theorem State.setChan_sriov (s : State) (c : Nat) (x : Channel) : (s.setChan c x).sriov = s.sriov := rfl
@[simp] theorem State.setChan_msixSent (s : State) (c : Nat) (x : Channel) : (s.setChan c x).msixSent = s.msixSent := rfl
@[simp] theorem State.setChan_boot (s : State) (c : Nat) (x : Channel) : (s.setChan c x).boot = s.boot := rfl
@[simp] theorem State.setChan_bootBuf (s : State) (c : Nat) (x : Channel) : (s.setChan c x).bootBuf = s.bootBuf := rfl
@[simp] theorem State.setChan_bootstat (s : State) (c : Nat) (x : Channel) : (s.setChan c x).bootstat = s.bootstat := rfl
@[simp] theorem State.setChan_bootBusy (s : State) (c : Nat) (x : Channel) : (s.setChan c x).bootBusy = s.bootBusy := rfl
@[simp] theorem State.setChan_pkgId (s : State) (c : Nat) (x : Channel) : (s.setChan c x).pkgId = s.pkgId := rfl
@[simp] theorem State.setChan_measure (s : State) (c : Nat) (x : Channel) : (s.setChan c x).measure = s.measure := rfl
@[simp] theorem State.setChan_spdmVersion (s : State) (c : Nat) (x : Channel) : (s.setChan c x).spdmVersion = s.spdmVersion := rfl
@[simp] theorem State.setChan_spdmCaps (s : State) (c : Nat) (x : Channel) : (s.setChan c x).spdmCaps = s.spdmCaps := rfl
@[simp] theorem State.setChan_spdmAlgs (s : State) (c : Nat) (x : Channel) : (s.setChan c x).spdmAlgs = s.spdmAlgs := rfl
@[simp] theorem State.setChan_spdmResp (s : State) (c : Nat) (x : Channel) : (s.setChan c x).spdmResp = s.spdmResp := rfl
@[simp] theorem State.setChan_mailbox (s : State) (c : Nat) (x : Channel) : (s.setChan c x).mailbox = s.mailbox := rfl
@[simp] theorem State.setChan_oppoint (s : State) (c : Nat) (x : Channel) : (s.setChan c x).oppoint = s.oppoint := rfl
@[simp] theorem State.setChan_oppointReg (s : State) (c : Nat) (x : Channel) : (s.setChan c x).oppointReg = s.oppointReg := rfl
@[simp] theorem State.setChan_hipt (s : State) (c : Nat) (x : Channel) : (s.setChan c x).hipt = s.hipt := rfl
@[simp] theorem State.setChan_lifttime (s : State) (c : Nat) (x : Channel) : (s.setChan c x).lifttime = s.lifttime := rfl
@[simp] theorem State.setChan_aithresh (s : State) (c : Nat) (x : Channel) : (s.setChan c x).aithresh = s.aithresh := rfl
@[simp] theorem State.setChan_grantmax (s : State) (c : Nat) (x : Channel) : (s.setChan c x).grantmax = s.grantmax := rfl
@[simp] theorem State.setChan_freezePin (s : State) (c : Nat) (x : Channel) : (s.setChan c x).freezePin = s.freezePin := rfl
@[simp] theorem State.setChan_freezeReg (s : State) (c : Nat) (x : Channel) : (s.setChan c x).freezeReg = s.freezeReg := rfl
@[simp] theorem State.setChan_heldMoves (s : State) (c : Nat) (x : Channel) : (s.setChan c x).heldMoves = s.heldMoves := rfl
@[simp] theorem State.setChan_focus (s : State) (c : Nat) (x : Channel) : (s.setChan c x).focus = s.focus := rfl
@[simp] theorem State.setChan_mustWait (s : State) (c : Nat) (x : Channel) : (s.setChan c x).mustWait = s.mustWait := rfl
@[simp] theorem State.setChan_moves (s : State) (c : Nat) (x : Channel) : (s.setChan c x).moves = s.moves := rfl
@[simp] theorem State.setChan_tick (s : State) (c : Nat) (x : Channel) : (s.setChan c x).tick = s.tick := rfl

/-! Fields after `setQuad`. -/

@[simp] theorem State.setQuad_mem (s : State) (q : Nat) (x : Quad) : (s.setQuad q x).mem = s.mem := rfl
@[simp] theorem State.setQuad_poison (s : State) (q : Nat) (x : Quad) : (s.setQuad q x).poison = s.poison := rfl
@[simp] theorem State.setQuad_latent (s : State) (q : Nat) (x : Quad) : (s.setQuad q x).latent = s.latent := rfl
@[simp] theorem State.setQuad_views (s : State) (q : Nat) (x : Quad) : (s.setQuad q x).views = s.views := rfl
@[simp] theorem State.setQuad_l2 (s : State) (q : Nat) (x : Quad) : (s.setQuad q x).l2 = s.l2 := rfl
@[simp] theorem State.setQuad_cores (s : State) (q : Nat) (x : Quad) : (s.setQuad q x).cores = s.cores := rfl
@[simp] theorem State.setQuad_stks (s : State) (q : Nat) (x : Quad) : (s.setQuad q x).stks = s.stks := rfl
@[simp] theorem State.setQuad_chans (s : State) (q : Nat) (x : Quad) : (s.setQuad q x).chans = s.chans := rfl
@[simp] theorem State.setQuad_dies (s : State) (q : Nat) (x : Quad) : (s.setQuad q x).dies = s.dies := rfl
@[simp] theorem State.setQuad_parts (s : State) (q : Nat) (x : Quad) : (s.setQuad q x).parts = s.parts := rfl
@[simp] theorem State.setQuad_fns (s : State) (q : Nat) (x : Quad) : (s.setQuad q x).fns = s.fns := rfl
@[simp] theorem State.setQuad_jobs (s : State) (q : Nat) (x : Quad) : (s.setQuad q x).jobs = s.jobs := rfl
@[simp] theorem State.setQuad_jobOrder (s : State) (q : Nat) (x : Quad) : (s.setQuad q x).jobOrder = s.jobOrder := rfl
@[simp] theorem State.setQuad_placeOrder (s : State) (q : Nat) (x : Quad) : (s.setQuad q x).placeOrder = s.placeOrder := rfl
@[simp] theorem State.setQuad_passDue (s : State) (q : Nat) (x : Quad) : (s.setQuad q x).passDue = s.passDue := rfl
@[simp] theorem State.setQuad_lastPlaced (s : State) (q : Nat) (x : Quad) : (s.setQuad q x).lastPlaced = s.lastPlaced := rfl
@[simp] theorem State.setQuad_effort (s : State) (q : Nat) (x : Quad) : (s.setQuad q x).effort = s.effort := rfl
@[simp] theorem State.setQuad_cardOrder (s : State) (q : Nat) (x : Quad) : (s.setQuad q x).cardOrder = s.cardOrder := rfl
@[simp] theorem State.setQuad_stamp (s : State) (q : Nat) (x : Quad) : (s.setQuad q x).stamp = s.stamp := rfl
@[simp] theorem State.setQuad_barriers (s : State) (q : Nat) (x : Quad) : (s.setQuad q x).barriers = s.barriers := rfl
@[simp] theorem State.setQuad_riders (s : State) (q : Nat) (x : Quad) : (s.setQuad q x).riders = s.riders := rfl
@[simp] theorem State.setQuad_kvsends (s : State) (q : Nat) (x : Quad) : (s.setQuad q x).kvsends = s.kvsends := rfl
@[simp] theorem State.setQuad_statusOut (s : State) (q : Nat) (x : Quad) : (s.setQuad q x).statusOut = s.statusOut := rfl
@[simp] theorem State.setQuad_messages (s : State) (q : Nat) (x : Quad) : (s.setQuad q x).messages = s.messages := rfl
@[simp] theorem State.setQuad_hostWc (s : State) (q : Nat) (x : Quad) : (s.setQuad q x).hostWc = s.hostWc := rfl
@[simp] theorem State.setQuad_hostLink (s : State) (q : Nat) (x : Quad) : (s.setQuad q x).hostLink = s.hostLink := rfl
@[simp] theorem State.setQuad_ports (s : State) (q : Nat) (x : Quad) : (s.setQuad q x).ports = s.ports := rfl
@[simp] theorem State.setQuad_remoteOut (s : State) (q : Nat) (x : Quad) : (s.setQuad q x).remoteOut = s.remoteOut := rfl
@[simp] theorem State.setQuad_remoteReply (s : State) (q : Nat) (x : Quad) : (s.setQuad q x).remoteReply = s.remoteReply := rfl
@[simp] theorem State.setQuad_homeAtoms (s : State) (q : Nat) (x : Quad) : (s.setQuad q x).homeAtoms = s.homeAtoms := rfl
@[simp] theorem State.setQuad_remoteWaits (s : State) (q : Nat) (x : Quad) : (s.setQuad q x).remoteWaits = s.remoteWaits := rfl
@[simp] theorem State.setQuad_remoteColls (s : State) (q : Nat) (x : Quad) : (s.setQuad q x).remoteColls = s.remoteColls := rfl
@[simp] theorem State.setQuad_hostReply (s : State) (q : Nat) (x : Quad) : (s.setQuad q x).hostReply = s.hostReply := rfl
@[simp] theorem State.setQuad_sriov (s : State) (q : Nat) (x : Quad) : (s.setQuad q x).sriov = s.sriov := rfl
@[simp] theorem State.setQuad_msixSent (s : State) (q : Nat) (x : Quad) : (s.setQuad q x).msixSent = s.msixSent := rfl
@[simp] theorem State.setQuad_boot (s : State) (q : Nat) (x : Quad) : (s.setQuad q x).boot = s.boot := rfl
@[simp] theorem State.setQuad_bootBuf (s : State) (q : Nat) (x : Quad) : (s.setQuad q x).bootBuf = s.bootBuf := rfl
@[simp] theorem State.setQuad_bootstat (s : State) (q : Nat) (x : Quad) : (s.setQuad q x).bootstat = s.bootstat := rfl
@[simp] theorem State.setQuad_bootBusy (s : State) (q : Nat) (x : Quad) : (s.setQuad q x).bootBusy = s.bootBusy := rfl
@[simp] theorem State.setQuad_pkgId (s : State) (q : Nat) (x : Quad) : (s.setQuad q x).pkgId = s.pkgId := rfl
@[simp] theorem State.setQuad_measure (s : State) (q : Nat) (x : Quad) : (s.setQuad q x).measure = s.measure := rfl
@[simp] theorem State.setQuad_spdmVersion (s : State) (q : Nat) (x : Quad) : (s.setQuad q x).spdmVersion = s.spdmVersion := rfl
@[simp] theorem State.setQuad_spdmCaps (s : State) (q : Nat) (x : Quad) : (s.setQuad q x).spdmCaps = s.spdmCaps := rfl
@[simp] theorem State.setQuad_spdmAlgs (s : State) (q : Nat) (x : Quad) : (s.setQuad q x).spdmAlgs = s.spdmAlgs := rfl
@[simp] theorem State.setQuad_spdmResp (s : State) (q : Nat) (x : Quad) : (s.setQuad q x).spdmResp = s.spdmResp := rfl
@[simp] theorem State.setQuad_mailbox (s : State) (q : Nat) (x : Quad) : (s.setQuad q x).mailbox = s.mailbox := rfl
@[simp] theorem State.setQuad_oppoint (s : State) (q : Nat) (x : Quad) : (s.setQuad q x).oppoint = s.oppoint := rfl
@[simp] theorem State.setQuad_oppointReg (s : State) (q : Nat) (x : Quad) : (s.setQuad q x).oppointReg = s.oppointReg := rfl
@[simp] theorem State.setQuad_hipt (s : State) (q : Nat) (x : Quad) : (s.setQuad q x).hipt = s.hipt := rfl
@[simp] theorem State.setQuad_lifttime (s : State) (q : Nat) (x : Quad) : (s.setQuad q x).lifttime = s.lifttime := rfl
@[simp] theorem State.setQuad_aithresh (s : State) (q : Nat) (x : Quad) : (s.setQuad q x).aithresh = s.aithresh := rfl
@[simp] theorem State.setQuad_grantmax (s : State) (q : Nat) (x : Quad) : (s.setQuad q x).grantmax = s.grantmax := rfl
@[simp] theorem State.setQuad_freezePin (s : State) (q : Nat) (x : Quad) : (s.setQuad q x).freezePin = s.freezePin := rfl
@[simp] theorem State.setQuad_freezeReg (s : State) (q : Nat) (x : Quad) : (s.setQuad q x).freezeReg = s.freezeReg := rfl
@[simp] theorem State.setQuad_heldMoves (s : State) (q : Nat) (x : Quad) : (s.setQuad q x).heldMoves = s.heldMoves := rfl
@[simp] theorem State.setQuad_focus (s : State) (q : Nat) (x : Quad) : (s.setQuad q x).focus = s.focus := rfl
@[simp] theorem State.setQuad_mustWait (s : State) (q : Nat) (x : Quad) : (s.setQuad q x).mustWait = s.mustWait := rfl
@[simp] theorem State.setQuad_moves (s : State) (q : Nat) (x : Quad) : (s.setQuad q x).moves = s.moves := rfl
@[simp] theorem State.setQuad_tick (s : State) (q : Nat) (x : Quad) : (s.setQuad q x).tick = s.tick := rfl

/-! Fields after `setPart`. -/

@[simp] theorem State.setPart_mem (s : State) (p : Nat) (x : Part) : (s.setPart p x).mem = s.mem := rfl
@[simp] theorem State.setPart_poison (s : State) (p : Nat) (x : Part) : (s.setPart p x).poison = s.poison := rfl
@[simp] theorem State.setPart_latent (s : State) (p : Nat) (x : Part) : (s.setPart p x).latent = s.latent := rfl
@[simp] theorem State.setPart_views (s : State) (p : Nat) (x : Part) : (s.setPart p x).views = s.views := rfl
@[simp] theorem State.setPart_l2 (s : State) (p : Nat) (x : Part) : (s.setPart p x).l2 = s.l2 := rfl
@[simp] theorem State.setPart_cores (s : State) (p : Nat) (x : Part) : (s.setPart p x).cores = s.cores := rfl
@[simp] theorem State.setPart_quads (s : State) (p : Nat) (x : Part) : (s.setPart p x).quads = s.quads := rfl
@[simp] theorem State.setPart_stks (s : State) (p : Nat) (x : Part) : (s.setPart p x).stks = s.stks := rfl
@[simp] theorem State.setPart_chans (s : State) (p : Nat) (x : Part) : (s.setPart p x).chans = s.chans := rfl
@[simp] theorem State.setPart_dies (s : State) (p : Nat) (x : Part) : (s.setPart p x).dies = s.dies := rfl
@[simp] theorem State.setPart_fns (s : State) (p : Nat) (x : Part) : (s.setPart p x).fns = s.fns := rfl
@[simp] theorem State.setPart_jobs (s : State) (p : Nat) (x : Part) : (s.setPart p x).jobs = s.jobs := rfl
@[simp] theorem State.setPart_jobOrder (s : State) (p : Nat) (x : Part) : (s.setPart p x).jobOrder = s.jobOrder := rfl
@[simp] theorem State.setPart_placeOrder (s : State) (p : Nat) (x : Part) : (s.setPart p x).placeOrder = s.placeOrder := rfl
@[simp] theorem State.setPart_passDue (s : State) (p : Nat) (x : Part) : (s.setPart p x).passDue = s.passDue := rfl
@[simp] theorem State.setPart_lastPlaced (s : State) (p : Nat) (x : Part) : (s.setPart p x).lastPlaced = s.lastPlaced := rfl
@[simp] theorem State.setPart_effort (s : State) (p : Nat) (x : Part) : (s.setPart p x).effort = s.effort := rfl
@[simp] theorem State.setPart_cardOrder (s : State) (p : Nat) (x : Part) : (s.setPart p x).cardOrder = s.cardOrder := rfl
@[simp] theorem State.setPart_stamp (s : State) (p : Nat) (x : Part) : (s.setPart p x).stamp = s.stamp := rfl
@[simp] theorem State.setPart_barriers (s : State) (p : Nat) (x : Part) : (s.setPart p x).barriers = s.barriers := rfl
@[simp] theorem State.setPart_riders (s : State) (p : Nat) (x : Part) : (s.setPart p x).riders = s.riders := rfl
@[simp] theorem State.setPart_kvsends (s : State) (p : Nat) (x : Part) : (s.setPart p x).kvsends = s.kvsends := rfl
@[simp] theorem State.setPart_statusOut (s : State) (p : Nat) (x : Part) : (s.setPart p x).statusOut = s.statusOut := rfl
@[simp] theorem State.setPart_messages (s : State) (p : Nat) (x : Part) : (s.setPart p x).messages = s.messages := rfl
@[simp] theorem State.setPart_hostWc (s : State) (p : Nat) (x : Part) : (s.setPart p x).hostWc = s.hostWc := rfl
@[simp] theorem State.setPart_hostLink (s : State) (p : Nat) (x : Part) : (s.setPart p x).hostLink = s.hostLink := rfl
@[simp] theorem State.setPart_ports (s : State) (p : Nat) (x : Part) : (s.setPart p x).ports = s.ports := rfl
@[simp] theorem State.setPart_remoteOut (s : State) (p : Nat) (x : Part) : (s.setPart p x).remoteOut = s.remoteOut := rfl
@[simp] theorem State.setPart_remoteReply (s : State) (p : Nat) (x : Part) : (s.setPart p x).remoteReply = s.remoteReply := rfl
@[simp] theorem State.setPart_homeAtoms (s : State) (p : Nat) (x : Part) : (s.setPart p x).homeAtoms = s.homeAtoms := rfl
@[simp] theorem State.setPart_remoteWaits (s : State) (p : Nat) (x : Part) : (s.setPart p x).remoteWaits = s.remoteWaits := rfl
@[simp] theorem State.setPart_remoteColls (s : State) (p : Nat) (x : Part) : (s.setPart p x).remoteColls = s.remoteColls := rfl
@[simp] theorem State.setPart_hostReply (s : State) (p : Nat) (x : Part) : (s.setPart p x).hostReply = s.hostReply := rfl
@[simp] theorem State.setPart_sriov (s : State) (p : Nat) (x : Part) : (s.setPart p x).sriov = s.sriov := rfl
@[simp] theorem State.setPart_msixSent (s : State) (p : Nat) (x : Part) : (s.setPart p x).msixSent = s.msixSent := rfl
@[simp] theorem State.setPart_boot (s : State) (p : Nat) (x : Part) : (s.setPart p x).boot = s.boot := rfl
@[simp] theorem State.setPart_bootBuf (s : State) (p : Nat) (x : Part) : (s.setPart p x).bootBuf = s.bootBuf := rfl
@[simp] theorem State.setPart_bootstat (s : State) (p : Nat) (x : Part) : (s.setPart p x).bootstat = s.bootstat := rfl
@[simp] theorem State.setPart_bootBusy (s : State) (p : Nat) (x : Part) : (s.setPart p x).bootBusy = s.bootBusy := rfl
@[simp] theorem State.setPart_pkgId (s : State) (p : Nat) (x : Part) : (s.setPart p x).pkgId = s.pkgId := rfl
@[simp] theorem State.setPart_measure (s : State) (p : Nat) (x : Part) : (s.setPart p x).measure = s.measure := rfl
@[simp] theorem State.setPart_spdmVersion (s : State) (p : Nat) (x : Part) : (s.setPart p x).spdmVersion = s.spdmVersion := rfl
@[simp] theorem State.setPart_spdmCaps (s : State) (p : Nat) (x : Part) : (s.setPart p x).spdmCaps = s.spdmCaps := rfl
@[simp] theorem State.setPart_spdmAlgs (s : State) (p : Nat) (x : Part) : (s.setPart p x).spdmAlgs = s.spdmAlgs := rfl
@[simp] theorem State.setPart_spdmResp (s : State) (p : Nat) (x : Part) : (s.setPart p x).spdmResp = s.spdmResp := rfl
@[simp] theorem State.setPart_mailbox (s : State) (p : Nat) (x : Part) : (s.setPart p x).mailbox = s.mailbox := rfl
@[simp] theorem State.setPart_oppoint (s : State) (p : Nat) (x : Part) : (s.setPart p x).oppoint = s.oppoint := rfl
@[simp] theorem State.setPart_oppointReg (s : State) (p : Nat) (x : Part) : (s.setPart p x).oppointReg = s.oppointReg := rfl
@[simp] theorem State.setPart_hipt (s : State) (p : Nat) (x : Part) : (s.setPart p x).hipt = s.hipt := rfl
@[simp] theorem State.setPart_lifttime (s : State) (p : Nat) (x : Part) : (s.setPart p x).lifttime = s.lifttime := rfl
@[simp] theorem State.setPart_aithresh (s : State) (p : Nat) (x : Part) : (s.setPart p x).aithresh = s.aithresh := rfl
@[simp] theorem State.setPart_grantmax (s : State) (p : Nat) (x : Part) : (s.setPart p x).grantmax = s.grantmax := rfl
@[simp] theorem State.setPart_freezePin (s : State) (p : Nat) (x : Part) : (s.setPart p x).freezePin = s.freezePin := rfl
@[simp] theorem State.setPart_freezeReg (s : State) (p : Nat) (x : Part) : (s.setPart p x).freezeReg = s.freezeReg := rfl
@[simp] theorem State.setPart_heldMoves (s : State) (p : Nat) (x : Part) : (s.setPart p x).heldMoves = s.heldMoves := rfl
@[simp] theorem State.setPart_focus (s : State) (p : Nat) (x : Part) : (s.setPart p x).focus = s.focus := rfl
@[simp] theorem State.setPart_mustWait (s : State) (p : Nat) (x : Part) : (s.setPart p x).mustWait = s.mustWait := rfl
@[simp] theorem State.setPart_moves (s : State) (p : Nat) (x : Part) : (s.setPart p x).moves = s.moves := rfl
@[simp] theorem State.setPart_tick (s : State) (p : Nat) (x : Part) : (s.setPart p x).tick = s.tick := rfl

/-! Fields after `setFn`. -/

@[simp] theorem State.setFn_mem (s : State) (f : Nat) (x : Fn) : (s.setFn f x).mem = s.mem := rfl
@[simp] theorem State.setFn_poison (s : State) (f : Nat) (x : Fn) : (s.setFn f x).poison = s.poison := rfl
@[simp] theorem State.setFn_latent (s : State) (f : Nat) (x : Fn) : (s.setFn f x).latent = s.latent := rfl
@[simp] theorem State.setFn_views (s : State) (f : Nat) (x : Fn) : (s.setFn f x).views = s.views := rfl
@[simp] theorem State.setFn_l2 (s : State) (f : Nat) (x : Fn) : (s.setFn f x).l2 = s.l2 := rfl
@[simp] theorem State.setFn_cores (s : State) (f : Nat) (x : Fn) : (s.setFn f x).cores = s.cores := rfl
@[simp] theorem State.setFn_quads (s : State) (f : Nat) (x : Fn) : (s.setFn f x).quads = s.quads := rfl
@[simp] theorem State.setFn_stks (s : State) (f : Nat) (x : Fn) : (s.setFn f x).stks = s.stks := rfl
@[simp] theorem State.setFn_chans (s : State) (f : Nat) (x : Fn) : (s.setFn f x).chans = s.chans := rfl
@[simp] theorem State.setFn_dies (s : State) (f : Nat) (x : Fn) : (s.setFn f x).dies = s.dies := rfl
@[simp] theorem State.setFn_parts (s : State) (f : Nat) (x : Fn) : (s.setFn f x).parts = s.parts := rfl
@[simp] theorem State.setFn_jobs (s : State) (f : Nat) (x : Fn) : (s.setFn f x).jobs = s.jobs := rfl
@[simp] theorem State.setFn_jobOrder (s : State) (f : Nat) (x : Fn) : (s.setFn f x).jobOrder = s.jobOrder := rfl
@[simp] theorem State.setFn_placeOrder (s : State) (f : Nat) (x : Fn) : (s.setFn f x).placeOrder = s.placeOrder := rfl
@[simp] theorem State.setFn_passDue (s : State) (f : Nat) (x : Fn) : (s.setFn f x).passDue = s.passDue := rfl
@[simp] theorem State.setFn_lastPlaced (s : State) (f : Nat) (x : Fn) : (s.setFn f x).lastPlaced = s.lastPlaced := rfl
@[simp] theorem State.setFn_effort (s : State) (f : Nat) (x : Fn) : (s.setFn f x).effort = s.effort := rfl
@[simp] theorem State.setFn_cardOrder (s : State) (f : Nat) (x : Fn) : (s.setFn f x).cardOrder = s.cardOrder := rfl
@[simp] theorem State.setFn_stamp (s : State) (f : Nat) (x : Fn) : (s.setFn f x).stamp = s.stamp := rfl
@[simp] theorem State.setFn_barriers (s : State) (f : Nat) (x : Fn) : (s.setFn f x).barriers = s.barriers := rfl
@[simp] theorem State.setFn_riders (s : State) (f : Nat) (x : Fn) : (s.setFn f x).riders = s.riders := rfl
@[simp] theorem State.setFn_kvsends (s : State) (f : Nat) (x : Fn) : (s.setFn f x).kvsends = s.kvsends := rfl
@[simp] theorem State.setFn_statusOut (s : State) (f : Nat) (x : Fn) : (s.setFn f x).statusOut = s.statusOut := rfl
@[simp] theorem State.setFn_messages (s : State) (f : Nat) (x : Fn) : (s.setFn f x).messages = s.messages := rfl
@[simp] theorem State.setFn_hostWc (s : State) (f : Nat) (x : Fn) : (s.setFn f x).hostWc = s.hostWc := rfl
@[simp] theorem State.setFn_hostLink (s : State) (f : Nat) (x : Fn) : (s.setFn f x).hostLink = s.hostLink := rfl
@[simp] theorem State.setFn_ports (s : State) (f : Nat) (x : Fn) : (s.setFn f x).ports = s.ports := rfl
@[simp] theorem State.setFn_remoteOut (s : State) (f : Nat) (x : Fn) : (s.setFn f x).remoteOut = s.remoteOut := rfl
@[simp] theorem State.setFn_remoteReply (s : State) (f : Nat) (x : Fn) : (s.setFn f x).remoteReply = s.remoteReply := rfl
@[simp] theorem State.setFn_homeAtoms (s : State) (f : Nat) (x : Fn) : (s.setFn f x).homeAtoms = s.homeAtoms := rfl
@[simp] theorem State.setFn_remoteWaits (s : State) (f : Nat) (x : Fn) : (s.setFn f x).remoteWaits = s.remoteWaits := rfl
@[simp] theorem State.setFn_remoteColls (s : State) (f : Nat) (x : Fn) : (s.setFn f x).remoteColls = s.remoteColls := rfl
@[simp] theorem State.setFn_hostReply (s : State) (f : Nat) (x : Fn) : (s.setFn f x).hostReply = s.hostReply := rfl
@[simp] theorem State.setFn_sriov (s : State) (f : Nat) (x : Fn) : (s.setFn f x).sriov = s.sriov := rfl
@[simp] theorem State.setFn_msixSent (s : State) (f : Nat) (x : Fn) : (s.setFn f x).msixSent = s.msixSent := rfl
@[simp] theorem State.setFn_boot (s : State) (f : Nat) (x : Fn) : (s.setFn f x).boot = s.boot := rfl
@[simp] theorem State.setFn_bootBuf (s : State) (f : Nat) (x : Fn) : (s.setFn f x).bootBuf = s.bootBuf := rfl
@[simp] theorem State.setFn_bootstat (s : State) (f : Nat) (x : Fn) : (s.setFn f x).bootstat = s.bootstat := rfl
@[simp] theorem State.setFn_bootBusy (s : State) (f : Nat) (x : Fn) : (s.setFn f x).bootBusy = s.bootBusy := rfl
@[simp] theorem State.setFn_pkgId (s : State) (f : Nat) (x : Fn) : (s.setFn f x).pkgId = s.pkgId := rfl
@[simp] theorem State.setFn_measure (s : State) (f : Nat) (x : Fn) : (s.setFn f x).measure = s.measure := rfl
@[simp] theorem State.setFn_spdmVersion (s : State) (f : Nat) (x : Fn) : (s.setFn f x).spdmVersion = s.spdmVersion := rfl
@[simp] theorem State.setFn_spdmCaps (s : State) (f : Nat) (x : Fn) : (s.setFn f x).spdmCaps = s.spdmCaps := rfl
@[simp] theorem State.setFn_spdmAlgs (s : State) (f : Nat) (x : Fn) : (s.setFn f x).spdmAlgs = s.spdmAlgs := rfl
@[simp] theorem State.setFn_spdmResp (s : State) (f : Nat) (x : Fn) : (s.setFn f x).spdmResp = s.spdmResp := rfl
@[simp] theorem State.setFn_mailbox (s : State) (f : Nat) (x : Fn) : (s.setFn f x).mailbox = s.mailbox := rfl
@[simp] theorem State.setFn_oppoint (s : State) (f : Nat) (x : Fn) : (s.setFn f x).oppoint = s.oppoint := rfl
@[simp] theorem State.setFn_oppointReg (s : State) (f : Nat) (x : Fn) : (s.setFn f x).oppointReg = s.oppointReg := rfl
@[simp] theorem State.setFn_hipt (s : State) (f : Nat) (x : Fn) : (s.setFn f x).hipt = s.hipt := rfl
@[simp] theorem State.setFn_lifttime (s : State) (f : Nat) (x : Fn) : (s.setFn f x).lifttime = s.lifttime := rfl
@[simp] theorem State.setFn_aithresh (s : State) (f : Nat) (x : Fn) : (s.setFn f x).aithresh = s.aithresh := rfl
@[simp] theorem State.setFn_grantmax (s : State) (f : Nat) (x : Fn) : (s.setFn f x).grantmax = s.grantmax := rfl
@[simp] theorem State.setFn_freezePin (s : State) (f : Nat) (x : Fn) : (s.setFn f x).freezePin = s.freezePin := rfl
@[simp] theorem State.setFn_freezeReg (s : State) (f : Nat) (x : Fn) : (s.setFn f x).freezeReg = s.freezeReg := rfl
@[simp] theorem State.setFn_heldMoves (s : State) (f : Nat) (x : Fn) : (s.setFn f x).heldMoves = s.heldMoves := rfl
@[simp] theorem State.setFn_focus (s : State) (f : Nat) (x : Fn) : (s.setFn f x).focus = s.focus := rfl
@[simp] theorem State.setFn_mustWait (s : State) (f : Nat) (x : Fn) : (s.setFn f x).mustWait = s.mustWait := rfl
@[simp] theorem State.setFn_moves (s : State) (f : Nat) (x : Fn) : (s.setFn f x).moves = s.moves := rfl
@[simp] theorem State.setFn_tick (s : State) (f : Nat) (x : Fn) : (s.setFn f x).tick = s.tick := rfl

/-! Fields after `setDie`. -/

@[simp] theorem State.setDie_mem (s : State) (d : Nat) (x : Die) : (s.setDie d x).mem = s.mem := rfl
@[simp] theorem State.setDie_poison (s : State) (d : Nat) (x : Die) : (s.setDie d x).poison = s.poison := rfl
@[simp] theorem State.setDie_latent (s : State) (d : Nat) (x : Die) : (s.setDie d x).latent = s.latent := rfl
@[simp] theorem State.setDie_views (s : State) (d : Nat) (x : Die) : (s.setDie d x).views = s.views := rfl
@[simp] theorem State.setDie_l2 (s : State) (d : Nat) (x : Die) : (s.setDie d x).l2 = s.l2 := rfl
@[simp] theorem State.setDie_cores (s : State) (d : Nat) (x : Die) : (s.setDie d x).cores = s.cores := rfl
@[simp] theorem State.setDie_quads (s : State) (d : Nat) (x : Die) : (s.setDie d x).quads = s.quads := rfl
@[simp] theorem State.setDie_stks (s : State) (d : Nat) (x : Die) : (s.setDie d x).stks = s.stks := rfl
@[simp] theorem State.setDie_chans (s : State) (d : Nat) (x : Die) : (s.setDie d x).chans = s.chans := rfl
@[simp] theorem State.setDie_parts (s : State) (d : Nat) (x : Die) : (s.setDie d x).parts = s.parts := rfl
@[simp] theorem State.setDie_fns (s : State) (d : Nat) (x : Die) : (s.setDie d x).fns = s.fns := rfl
@[simp] theorem State.setDie_jobs (s : State) (d : Nat) (x : Die) : (s.setDie d x).jobs = s.jobs := rfl
@[simp] theorem State.setDie_jobOrder (s : State) (d : Nat) (x : Die) : (s.setDie d x).jobOrder = s.jobOrder := rfl
@[simp] theorem State.setDie_placeOrder (s : State) (d : Nat) (x : Die) : (s.setDie d x).placeOrder = s.placeOrder := rfl
@[simp] theorem State.setDie_passDue (s : State) (d : Nat) (x : Die) : (s.setDie d x).passDue = s.passDue := rfl
@[simp] theorem State.setDie_lastPlaced (s : State) (d : Nat) (x : Die) : (s.setDie d x).lastPlaced = s.lastPlaced := rfl
@[simp] theorem State.setDie_effort (s : State) (d : Nat) (x : Die) : (s.setDie d x).effort = s.effort := rfl
@[simp] theorem State.setDie_cardOrder (s : State) (d : Nat) (x : Die) : (s.setDie d x).cardOrder = s.cardOrder := rfl
@[simp] theorem State.setDie_stamp (s : State) (d : Nat) (x : Die) : (s.setDie d x).stamp = s.stamp := rfl
@[simp] theorem State.setDie_barriers (s : State) (d : Nat) (x : Die) : (s.setDie d x).barriers = s.barriers := rfl
@[simp] theorem State.setDie_riders (s : State) (d : Nat) (x : Die) : (s.setDie d x).riders = s.riders := rfl
@[simp] theorem State.setDie_kvsends (s : State) (d : Nat) (x : Die) : (s.setDie d x).kvsends = s.kvsends := rfl
@[simp] theorem State.setDie_statusOut (s : State) (d : Nat) (x : Die) : (s.setDie d x).statusOut = s.statusOut := rfl
@[simp] theorem State.setDie_messages (s : State) (d : Nat) (x : Die) : (s.setDie d x).messages = s.messages := rfl
@[simp] theorem State.setDie_hostWc (s : State) (d : Nat) (x : Die) : (s.setDie d x).hostWc = s.hostWc := rfl
@[simp] theorem State.setDie_hostLink (s : State) (d : Nat) (x : Die) : (s.setDie d x).hostLink = s.hostLink := rfl
@[simp] theorem State.setDie_ports (s : State) (d : Nat) (x : Die) : (s.setDie d x).ports = s.ports := rfl
@[simp] theorem State.setDie_remoteOut (s : State) (d : Nat) (x : Die) : (s.setDie d x).remoteOut = s.remoteOut := rfl
@[simp] theorem State.setDie_remoteReply (s : State) (d : Nat) (x : Die) : (s.setDie d x).remoteReply = s.remoteReply := rfl
@[simp] theorem State.setDie_homeAtoms (s : State) (d : Nat) (x : Die) : (s.setDie d x).homeAtoms = s.homeAtoms := rfl
@[simp] theorem State.setDie_remoteWaits (s : State) (d : Nat) (x : Die) : (s.setDie d x).remoteWaits = s.remoteWaits := rfl
@[simp] theorem State.setDie_remoteColls (s : State) (d : Nat) (x : Die) : (s.setDie d x).remoteColls = s.remoteColls := rfl
@[simp] theorem State.setDie_hostReply (s : State) (d : Nat) (x : Die) : (s.setDie d x).hostReply = s.hostReply := rfl
@[simp] theorem State.setDie_sriov (s : State) (d : Nat) (x : Die) : (s.setDie d x).sriov = s.sriov := rfl
@[simp] theorem State.setDie_msixSent (s : State) (d : Nat) (x : Die) : (s.setDie d x).msixSent = s.msixSent := rfl
@[simp] theorem State.setDie_boot (s : State) (d : Nat) (x : Die) : (s.setDie d x).boot = s.boot := rfl
@[simp] theorem State.setDie_bootBuf (s : State) (d : Nat) (x : Die) : (s.setDie d x).bootBuf = s.bootBuf := rfl
@[simp] theorem State.setDie_bootstat (s : State) (d : Nat) (x : Die) : (s.setDie d x).bootstat = s.bootstat := rfl
@[simp] theorem State.setDie_bootBusy (s : State) (d : Nat) (x : Die) : (s.setDie d x).bootBusy = s.bootBusy := rfl
@[simp] theorem State.setDie_pkgId (s : State) (d : Nat) (x : Die) : (s.setDie d x).pkgId = s.pkgId := rfl
@[simp] theorem State.setDie_measure (s : State) (d : Nat) (x : Die) : (s.setDie d x).measure = s.measure := rfl
@[simp] theorem State.setDie_spdmVersion (s : State) (d : Nat) (x : Die) : (s.setDie d x).spdmVersion = s.spdmVersion := rfl
@[simp] theorem State.setDie_spdmCaps (s : State) (d : Nat) (x : Die) : (s.setDie d x).spdmCaps = s.spdmCaps := rfl
@[simp] theorem State.setDie_spdmAlgs (s : State) (d : Nat) (x : Die) : (s.setDie d x).spdmAlgs = s.spdmAlgs := rfl
@[simp] theorem State.setDie_spdmResp (s : State) (d : Nat) (x : Die) : (s.setDie d x).spdmResp = s.spdmResp := rfl
@[simp] theorem State.setDie_mailbox (s : State) (d : Nat) (x : Die) : (s.setDie d x).mailbox = s.mailbox := rfl
@[simp] theorem State.setDie_oppoint (s : State) (d : Nat) (x : Die) : (s.setDie d x).oppoint = s.oppoint := rfl
@[simp] theorem State.setDie_oppointReg (s : State) (d : Nat) (x : Die) : (s.setDie d x).oppointReg = s.oppointReg := rfl
@[simp] theorem State.setDie_hipt (s : State) (d : Nat) (x : Die) : (s.setDie d x).hipt = s.hipt := rfl
@[simp] theorem State.setDie_lifttime (s : State) (d : Nat) (x : Die) : (s.setDie d x).lifttime = s.lifttime := rfl
@[simp] theorem State.setDie_aithresh (s : State) (d : Nat) (x : Die) : (s.setDie d x).aithresh = s.aithresh := rfl
@[simp] theorem State.setDie_grantmax (s : State) (d : Nat) (x : Die) : (s.setDie d x).grantmax = s.grantmax := rfl
@[simp] theorem State.setDie_freezePin (s : State) (d : Nat) (x : Die) : (s.setDie d x).freezePin = s.freezePin := rfl
@[simp] theorem State.setDie_freezeReg (s : State) (d : Nat) (x : Die) : (s.setDie d x).freezeReg = s.freezeReg := rfl
@[simp] theorem State.setDie_heldMoves (s : State) (d : Nat) (x : Die) : (s.setDie d x).heldMoves = s.heldMoves := rfl
@[simp] theorem State.setDie_focus (s : State) (d : Nat) (x : Die) : (s.setDie d x).focus = s.focus := rfl
@[simp] theorem State.setDie_mustWait (s : State) (d : Nat) (x : Die) : (s.setDie d x).mustWait = s.mustWait := rfl
@[simp] theorem State.setDie_moves (s : State) (d : Nat) (x : Die) : (s.setDie d x).moves = s.moves := rfl
@[simp] theorem State.setDie_tick (s : State) (d : Nat) (x : Die) : (s.setDie d x).tick = s.tick := rfl

/-! Fields after `setStk`. -/

@[simp] theorem State.setStk_mem (s : State) (k : Nat) (x : Stack) : (s.setStk k x).mem = s.mem := rfl
@[simp] theorem State.setStk_poison (s : State) (k : Nat) (x : Stack) : (s.setStk k x).poison = s.poison := rfl
@[simp] theorem State.setStk_latent (s : State) (k : Nat) (x : Stack) : (s.setStk k x).latent = s.latent := rfl
@[simp] theorem State.setStk_views (s : State) (k : Nat) (x : Stack) : (s.setStk k x).views = s.views := rfl
@[simp] theorem State.setStk_l2 (s : State) (k : Nat) (x : Stack) : (s.setStk k x).l2 = s.l2 := rfl
@[simp] theorem State.setStk_cores (s : State) (k : Nat) (x : Stack) : (s.setStk k x).cores = s.cores := rfl
@[simp] theorem State.setStk_quads (s : State) (k : Nat) (x : Stack) : (s.setStk k x).quads = s.quads := rfl
@[simp] theorem State.setStk_chans (s : State) (k : Nat) (x : Stack) : (s.setStk k x).chans = s.chans := rfl
@[simp] theorem State.setStk_dies (s : State) (k : Nat) (x : Stack) : (s.setStk k x).dies = s.dies := rfl
@[simp] theorem State.setStk_parts (s : State) (k : Nat) (x : Stack) : (s.setStk k x).parts = s.parts := rfl
@[simp] theorem State.setStk_fns (s : State) (k : Nat) (x : Stack) : (s.setStk k x).fns = s.fns := rfl
@[simp] theorem State.setStk_jobs (s : State) (k : Nat) (x : Stack) : (s.setStk k x).jobs = s.jobs := rfl
@[simp] theorem State.setStk_jobOrder (s : State) (k : Nat) (x : Stack) : (s.setStk k x).jobOrder = s.jobOrder := rfl
@[simp] theorem State.setStk_placeOrder (s : State) (k : Nat) (x : Stack) : (s.setStk k x).placeOrder = s.placeOrder := rfl
@[simp] theorem State.setStk_passDue (s : State) (k : Nat) (x : Stack) : (s.setStk k x).passDue = s.passDue := rfl
@[simp] theorem State.setStk_lastPlaced (s : State) (k : Nat) (x : Stack) : (s.setStk k x).lastPlaced = s.lastPlaced := rfl
@[simp] theorem State.setStk_effort (s : State) (k : Nat) (x : Stack) : (s.setStk k x).effort = s.effort := rfl
@[simp] theorem State.setStk_cardOrder (s : State) (k : Nat) (x : Stack) : (s.setStk k x).cardOrder = s.cardOrder := rfl
@[simp] theorem State.setStk_stamp (s : State) (k : Nat) (x : Stack) : (s.setStk k x).stamp = s.stamp := rfl
@[simp] theorem State.setStk_barriers (s : State) (k : Nat) (x : Stack) : (s.setStk k x).barriers = s.barriers := rfl
@[simp] theorem State.setStk_riders (s : State) (k : Nat) (x : Stack) : (s.setStk k x).riders = s.riders := rfl
@[simp] theorem State.setStk_kvsends (s : State) (k : Nat) (x : Stack) : (s.setStk k x).kvsends = s.kvsends := rfl
@[simp] theorem State.setStk_statusOut (s : State) (k : Nat) (x : Stack) : (s.setStk k x).statusOut = s.statusOut := rfl
@[simp] theorem State.setStk_messages (s : State) (k : Nat) (x : Stack) : (s.setStk k x).messages = s.messages := rfl
@[simp] theorem State.setStk_hostWc (s : State) (k : Nat) (x : Stack) : (s.setStk k x).hostWc = s.hostWc := rfl
@[simp] theorem State.setStk_hostLink (s : State) (k : Nat) (x : Stack) : (s.setStk k x).hostLink = s.hostLink := rfl
@[simp] theorem State.setStk_ports (s : State) (k : Nat) (x : Stack) : (s.setStk k x).ports = s.ports := rfl
@[simp] theorem State.setStk_remoteOut (s : State) (k : Nat) (x : Stack) : (s.setStk k x).remoteOut = s.remoteOut := rfl
@[simp] theorem State.setStk_remoteReply (s : State) (k : Nat) (x : Stack) : (s.setStk k x).remoteReply = s.remoteReply := rfl
@[simp] theorem State.setStk_homeAtoms (s : State) (k : Nat) (x : Stack) : (s.setStk k x).homeAtoms = s.homeAtoms := rfl
@[simp] theorem State.setStk_remoteWaits (s : State) (k : Nat) (x : Stack) : (s.setStk k x).remoteWaits = s.remoteWaits := rfl
@[simp] theorem State.setStk_remoteColls (s : State) (k : Nat) (x : Stack) : (s.setStk k x).remoteColls = s.remoteColls := rfl
@[simp] theorem State.setStk_hostReply (s : State) (k : Nat) (x : Stack) : (s.setStk k x).hostReply = s.hostReply := rfl
@[simp] theorem State.setStk_sriov (s : State) (k : Nat) (x : Stack) : (s.setStk k x).sriov = s.sriov := rfl
@[simp] theorem State.setStk_msixSent (s : State) (k : Nat) (x : Stack) : (s.setStk k x).msixSent = s.msixSent := rfl
@[simp] theorem State.setStk_boot (s : State) (k : Nat) (x : Stack) : (s.setStk k x).boot = s.boot := rfl
@[simp] theorem State.setStk_bootBuf (s : State) (k : Nat) (x : Stack) : (s.setStk k x).bootBuf = s.bootBuf := rfl
@[simp] theorem State.setStk_bootstat (s : State) (k : Nat) (x : Stack) : (s.setStk k x).bootstat = s.bootstat := rfl
@[simp] theorem State.setStk_bootBusy (s : State) (k : Nat) (x : Stack) : (s.setStk k x).bootBusy = s.bootBusy := rfl
@[simp] theorem State.setStk_pkgId (s : State) (k : Nat) (x : Stack) : (s.setStk k x).pkgId = s.pkgId := rfl
@[simp] theorem State.setStk_measure (s : State) (k : Nat) (x : Stack) : (s.setStk k x).measure = s.measure := rfl
@[simp] theorem State.setStk_spdmVersion (s : State) (k : Nat) (x : Stack) : (s.setStk k x).spdmVersion = s.spdmVersion := rfl
@[simp] theorem State.setStk_spdmCaps (s : State) (k : Nat) (x : Stack) : (s.setStk k x).spdmCaps = s.spdmCaps := rfl
@[simp] theorem State.setStk_spdmAlgs (s : State) (k : Nat) (x : Stack) : (s.setStk k x).spdmAlgs = s.spdmAlgs := rfl
@[simp] theorem State.setStk_spdmResp (s : State) (k : Nat) (x : Stack) : (s.setStk k x).spdmResp = s.spdmResp := rfl
@[simp] theorem State.setStk_mailbox (s : State) (k : Nat) (x : Stack) : (s.setStk k x).mailbox = s.mailbox := rfl
@[simp] theorem State.setStk_oppoint (s : State) (k : Nat) (x : Stack) : (s.setStk k x).oppoint = s.oppoint := rfl
@[simp] theorem State.setStk_oppointReg (s : State) (k : Nat) (x : Stack) : (s.setStk k x).oppointReg = s.oppointReg := rfl
@[simp] theorem State.setStk_hipt (s : State) (k : Nat) (x : Stack) : (s.setStk k x).hipt = s.hipt := rfl
@[simp] theorem State.setStk_lifttime (s : State) (k : Nat) (x : Stack) : (s.setStk k x).lifttime = s.lifttime := rfl
@[simp] theorem State.setStk_aithresh (s : State) (k : Nat) (x : Stack) : (s.setStk k x).aithresh = s.aithresh := rfl
@[simp] theorem State.setStk_grantmax (s : State) (k : Nat) (x : Stack) : (s.setStk k x).grantmax = s.grantmax := rfl
@[simp] theorem State.setStk_freezePin (s : State) (k : Nat) (x : Stack) : (s.setStk k x).freezePin = s.freezePin := rfl
@[simp] theorem State.setStk_freezeReg (s : State) (k : Nat) (x : Stack) : (s.setStk k x).freezeReg = s.freezeReg := rfl
@[simp] theorem State.setStk_heldMoves (s : State) (k : Nat) (x : Stack) : (s.setStk k x).heldMoves = s.heldMoves := rfl
@[simp] theorem State.setStk_focus (s : State) (k : Nat) (x : Stack) : (s.setStk k x).focus = s.focus := rfl
@[simp] theorem State.setStk_mustWait (s : State) (k : Nat) (x : Stack) : (s.setStk k x).mustWait = s.mustWait := rfl
@[simp] theorem State.setStk_moves (s : State) (k : Nat) (x : Stack) : (s.setStk k x).moves = s.moves := rfl
@[simp] theorem State.setStk_tick (s : State) (k : Nat) (x : Stack) : (s.setStk k x).tick = s.tick := rfl

/-! Fields after `setJob`. -/

@[simp] theorem State.setJob_mem (s : State) (j : Nat) (x : Job) : (s.setJob j x).mem = s.mem := rfl
@[simp] theorem State.setJob_poison (s : State) (j : Nat) (x : Job) : (s.setJob j x).poison = s.poison := rfl
@[simp] theorem State.setJob_latent (s : State) (j : Nat) (x : Job) : (s.setJob j x).latent = s.latent := rfl
@[simp] theorem State.setJob_views (s : State) (j : Nat) (x : Job) : (s.setJob j x).views = s.views := rfl
@[simp] theorem State.setJob_l2 (s : State) (j : Nat) (x : Job) : (s.setJob j x).l2 = s.l2 := rfl
@[simp] theorem State.setJob_cores (s : State) (j : Nat) (x : Job) : (s.setJob j x).cores = s.cores := rfl
@[simp] theorem State.setJob_quads (s : State) (j : Nat) (x : Job) : (s.setJob j x).quads = s.quads := rfl
@[simp] theorem State.setJob_stks (s : State) (j : Nat) (x : Job) : (s.setJob j x).stks = s.stks := rfl
@[simp] theorem State.setJob_chans (s : State) (j : Nat) (x : Job) : (s.setJob j x).chans = s.chans := rfl
@[simp] theorem State.setJob_dies (s : State) (j : Nat) (x : Job) : (s.setJob j x).dies = s.dies := rfl
@[simp] theorem State.setJob_parts (s : State) (j : Nat) (x : Job) : (s.setJob j x).parts = s.parts := rfl
@[simp] theorem State.setJob_fns (s : State) (j : Nat) (x : Job) : (s.setJob j x).fns = s.fns := rfl
@[simp] theorem State.setJob_jobOrder (s : State) (j : Nat) (x : Job) : (s.setJob j x).jobOrder = s.jobOrder := rfl
@[simp] theorem State.setJob_placeOrder (s : State) (j : Nat) (x : Job) : (s.setJob j x).placeOrder = s.placeOrder := rfl
@[simp] theorem State.setJob_passDue (s : State) (j : Nat) (x : Job) : (s.setJob j x).passDue = s.passDue := rfl
@[simp] theorem State.setJob_lastPlaced (s : State) (j : Nat) (x : Job) : (s.setJob j x).lastPlaced = s.lastPlaced := rfl
@[simp] theorem State.setJob_effort (s : State) (j : Nat) (x : Job) : (s.setJob j x).effort = s.effort := rfl
@[simp] theorem State.setJob_cardOrder (s : State) (j : Nat) (x : Job) : (s.setJob j x).cardOrder = s.cardOrder := rfl
@[simp] theorem State.setJob_stamp (s : State) (j : Nat) (x : Job) : (s.setJob j x).stamp = s.stamp := rfl
@[simp] theorem State.setJob_barriers (s : State) (j : Nat) (x : Job) : (s.setJob j x).barriers = s.barriers := rfl
@[simp] theorem State.setJob_riders (s : State) (j : Nat) (x : Job) : (s.setJob j x).riders = s.riders := rfl
@[simp] theorem State.setJob_kvsends (s : State) (j : Nat) (x : Job) : (s.setJob j x).kvsends = s.kvsends := rfl
@[simp] theorem State.setJob_statusOut (s : State) (j : Nat) (x : Job) : (s.setJob j x).statusOut = s.statusOut := rfl
@[simp] theorem State.setJob_messages (s : State) (j : Nat) (x : Job) : (s.setJob j x).messages = s.messages := rfl
@[simp] theorem State.setJob_hostWc (s : State) (j : Nat) (x : Job) : (s.setJob j x).hostWc = s.hostWc := rfl
@[simp] theorem State.setJob_hostLink (s : State) (j : Nat) (x : Job) : (s.setJob j x).hostLink = s.hostLink := rfl
@[simp] theorem State.setJob_ports (s : State) (j : Nat) (x : Job) : (s.setJob j x).ports = s.ports := rfl
@[simp] theorem State.setJob_remoteOut (s : State) (j : Nat) (x : Job) : (s.setJob j x).remoteOut = s.remoteOut := rfl
@[simp] theorem State.setJob_remoteReply (s : State) (j : Nat) (x : Job) : (s.setJob j x).remoteReply = s.remoteReply := rfl
@[simp] theorem State.setJob_homeAtoms (s : State) (j : Nat) (x : Job) : (s.setJob j x).homeAtoms = s.homeAtoms := rfl
@[simp] theorem State.setJob_remoteWaits (s : State) (j : Nat) (x : Job) : (s.setJob j x).remoteWaits = s.remoteWaits := rfl
@[simp] theorem State.setJob_remoteColls (s : State) (j : Nat) (x : Job) : (s.setJob j x).remoteColls = s.remoteColls := rfl
@[simp] theorem State.setJob_hostReply (s : State) (j : Nat) (x : Job) : (s.setJob j x).hostReply = s.hostReply := rfl
@[simp] theorem State.setJob_sriov (s : State) (j : Nat) (x : Job) : (s.setJob j x).sriov = s.sriov := rfl
@[simp] theorem State.setJob_msixSent (s : State) (j : Nat) (x : Job) : (s.setJob j x).msixSent = s.msixSent := rfl
@[simp] theorem State.setJob_boot (s : State) (j : Nat) (x : Job) : (s.setJob j x).boot = s.boot := rfl
@[simp] theorem State.setJob_bootBuf (s : State) (j : Nat) (x : Job) : (s.setJob j x).bootBuf = s.bootBuf := rfl
@[simp] theorem State.setJob_bootstat (s : State) (j : Nat) (x : Job) : (s.setJob j x).bootstat = s.bootstat := rfl
@[simp] theorem State.setJob_bootBusy (s : State) (j : Nat) (x : Job) : (s.setJob j x).bootBusy = s.bootBusy := rfl
@[simp] theorem State.setJob_pkgId (s : State) (j : Nat) (x : Job) : (s.setJob j x).pkgId = s.pkgId := rfl
@[simp] theorem State.setJob_measure (s : State) (j : Nat) (x : Job) : (s.setJob j x).measure = s.measure := rfl
@[simp] theorem State.setJob_spdmVersion (s : State) (j : Nat) (x : Job) : (s.setJob j x).spdmVersion = s.spdmVersion := rfl
@[simp] theorem State.setJob_spdmCaps (s : State) (j : Nat) (x : Job) : (s.setJob j x).spdmCaps = s.spdmCaps := rfl
@[simp] theorem State.setJob_spdmAlgs (s : State) (j : Nat) (x : Job) : (s.setJob j x).spdmAlgs = s.spdmAlgs := rfl
@[simp] theorem State.setJob_spdmResp (s : State) (j : Nat) (x : Job) : (s.setJob j x).spdmResp = s.spdmResp := rfl
@[simp] theorem State.setJob_mailbox (s : State) (j : Nat) (x : Job) : (s.setJob j x).mailbox = s.mailbox := rfl
@[simp] theorem State.setJob_oppoint (s : State) (j : Nat) (x : Job) : (s.setJob j x).oppoint = s.oppoint := rfl
@[simp] theorem State.setJob_oppointReg (s : State) (j : Nat) (x : Job) : (s.setJob j x).oppointReg = s.oppointReg := rfl
@[simp] theorem State.setJob_hipt (s : State) (j : Nat) (x : Job) : (s.setJob j x).hipt = s.hipt := rfl
@[simp] theorem State.setJob_lifttime (s : State) (j : Nat) (x : Job) : (s.setJob j x).lifttime = s.lifttime := rfl
@[simp] theorem State.setJob_aithresh (s : State) (j : Nat) (x : Job) : (s.setJob j x).aithresh = s.aithresh := rfl
@[simp] theorem State.setJob_grantmax (s : State) (j : Nat) (x : Job) : (s.setJob j x).grantmax = s.grantmax := rfl
@[simp] theorem State.setJob_freezePin (s : State) (j : Nat) (x : Job) : (s.setJob j x).freezePin = s.freezePin := rfl
@[simp] theorem State.setJob_freezeReg (s : State) (j : Nat) (x : Job) : (s.setJob j x).freezeReg = s.freezeReg := rfl
@[simp] theorem State.setJob_heldMoves (s : State) (j : Nat) (x : Job) : (s.setJob j x).heldMoves = s.heldMoves := rfl
@[simp] theorem State.setJob_focus (s : State) (j : Nat) (x : Job) : (s.setJob j x).focus = s.focus := rfl
@[simp] theorem State.setJob_mustWait (s : State) (j : Nat) (x : Job) : (s.setJob j x).mustWait = s.mustWait := rfl
@[simp] theorem State.setJob_moves (s : State) (j : Nat) (x : Job) : (s.setJob j x).moves = s.moves := rfl
@[simp] theorem State.setJob_tick (s : State) (j : Nat) (x : Job) : (s.setJob j x).tick = s.tick := rfl

/-! Fields after `setRider`. -/

@[simp] theorem State.setRider_mem (s : State) (k : Nat) (x : Rider) : (s.setRider k x).mem = s.mem := rfl
@[simp] theorem State.setRider_poison (s : State) (k : Nat) (x : Rider) : (s.setRider k x).poison = s.poison := rfl
@[simp] theorem State.setRider_latent (s : State) (k : Nat) (x : Rider) : (s.setRider k x).latent = s.latent := rfl
@[simp] theorem State.setRider_views (s : State) (k : Nat) (x : Rider) : (s.setRider k x).views = s.views := rfl
@[simp] theorem State.setRider_l2 (s : State) (k : Nat) (x : Rider) : (s.setRider k x).l2 = s.l2 := rfl
@[simp] theorem State.setRider_cores (s : State) (k : Nat) (x : Rider) : (s.setRider k x).cores = s.cores := rfl
@[simp] theorem State.setRider_quads (s : State) (k : Nat) (x : Rider) : (s.setRider k x).quads = s.quads := rfl
@[simp] theorem State.setRider_stks (s : State) (k : Nat) (x : Rider) : (s.setRider k x).stks = s.stks := rfl
@[simp] theorem State.setRider_chans (s : State) (k : Nat) (x : Rider) : (s.setRider k x).chans = s.chans := rfl
@[simp] theorem State.setRider_dies (s : State) (k : Nat) (x : Rider) : (s.setRider k x).dies = s.dies := rfl
@[simp] theorem State.setRider_parts (s : State) (k : Nat) (x : Rider) : (s.setRider k x).parts = s.parts := rfl
@[simp] theorem State.setRider_fns (s : State) (k : Nat) (x : Rider) : (s.setRider k x).fns = s.fns := rfl
@[simp] theorem State.setRider_jobs (s : State) (k : Nat) (x : Rider) : (s.setRider k x).jobs = s.jobs := rfl
@[simp] theorem State.setRider_jobOrder (s : State) (k : Nat) (x : Rider) : (s.setRider k x).jobOrder = s.jobOrder := rfl
@[simp] theorem State.setRider_placeOrder (s : State) (k : Nat) (x : Rider) : (s.setRider k x).placeOrder = s.placeOrder := rfl
@[simp] theorem State.setRider_passDue (s : State) (k : Nat) (x : Rider) : (s.setRider k x).passDue = s.passDue := rfl
@[simp] theorem State.setRider_lastPlaced (s : State) (k : Nat) (x : Rider) : (s.setRider k x).lastPlaced = s.lastPlaced := rfl
@[simp] theorem State.setRider_effort (s : State) (k : Nat) (x : Rider) : (s.setRider k x).effort = s.effort := rfl
@[simp] theorem State.setRider_cardOrder (s : State) (k : Nat) (x : Rider) : (s.setRider k x).cardOrder = s.cardOrder := rfl
@[simp] theorem State.setRider_stamp (s : State) (k : Nat) (x : Rider) : (s.setRider k x).stamp = s.stamp := rfl
@[simp] theorem State.setRider_barriers (s : State) (k : Nat) (x : Rider) : (s.setRider k x).barriers = s.barriers := rfl
@[simp] theorem State.setRider_kvsends (s : State) (k : Nat) (x : Rider) : (s.setRider k x).kvsends = s.kvsends := rfl
@[simp] theorem State.setRider_statusOut (s : State) (k : Nat) (x : Rider) : (s.setRider k x).statusOut = s.statusOut := rfl
@[simp] theorem State.setRider_messages (s : State) (k : Nat) (x : Rider) : (s.setRider k x).messages = s.messages := rfl
@[simp] theorem State.setRider_hostWc (s : State) (k : Nat) (x : Rider) : (s.setRider k x).hostWc = s.hostWc := rfl
@[simp] theorem State.setRider_hostLink (s : State) (k : Nat) (x : Rider) : (s.setRider k x).hostLink = s.hostLink := rfl
@[simp] theorem State.setRider_ports (s : State) (k : Nat) (x : Rider) : (s.setRider k x).ports = s.ports := rfl
@[simp] theorem State.setRider_remoteOut (s : State) (k : Nat) (x : Rider) : (s.setRider k x).remoteOut = s.remoteOut := rfl
@[simp] theorem State.setRider_remoteReply (s : State) (k : Nat) (x : Rider) : (s.setRider k x).remoteReply = s.remoteReply := rfl
@[simp] theorem State.setRider_homeAtoms (s : State) (k : Nat) (x : Rider) : (s.setRider k x).homeAtoms = s.homeAtoms := rfl
@[simp] theorem State.setRider_remoteWaits (s : State) (k : Nat) (x : Rider) : (s.setRider k x).remoteWaits = s.remoteWaits := rfl
@[simp] theorem State.setRider_remoteColls (s : State) (k : Nat) (x : Rider) : (s.setRider k x).remoteColls = s.remoteColls := rfl
@[simp] theorem State.setRider_hostReply (s : State) (k : Nat) (x : Rider) : (s.setRider k x).hostReply = s.hostReply := rfl
@[simp] theorem State.setRider_sriov (s : State) (k : Nat) (x : Rider) : (s.setRider k x).sriov = s.sriov := rfl
@[simp] theorem State.setRider_msixSent (s : State) (k : Nat) (x : Rider) : (s.setRider k x).msixSent = s.msixSent := rfl
@[simp] theorem State.setRider_boot (s : State) (k : Nat) (x : Rider) : (s.setRider k x).boot = s.boot := rfl
@[simp] theorem State.setRider_bootBuf (s : State) (k : Nat) (x : Rider) : (s.setRider k x).bootBuf = s.bootBuf := rfl
@[simp] theorem State.setRider_bootstat (s : State) (k : Nat) (x : Rider) : (s.setRider k x).bootstat = s.bootstat := rfl
@[simp] theorem State.setRider_bootBusy (s : State) (k : Nat) (x : Rider) : (s.setRider k x).bootBusy = s.bootBusy := rfl
@[simp] theorem State.setRider_pkgId (s : State) (k : Nat) (x : Rider) : (s.setRider k x).pkgId = s.pkgId := rfl
@[simp] theorem State.setRider_measure (s : State) (k : Nat) (x : Rider) : (s.setRider k x).measure = s.measure := rfl
@[simp] theorem State.setRider_spdmVersion (s : State) (k : Nat) (x : Rider) : (s.setRider k x).spdmVersion = s.spdmVersion := rfl
@[simp] theorem State.setRider_spdmCaps (s : State) (k : Nat) (x : Rider) : (s.setRider k x).spdmCaps = s.spdmCaps := rfl
@[simp] theorem State.setRider_spdmAlgs (s : State) (k : Nat) (x : Rider) : (s.setRider k x).spdmAlgs = s.spdmAlgs := rfl
@[simp] theorem State.setRider_spdmResp (s : State) (k : Nat) (x : Rider) : (s.setRider k x).spdmResp = s.spdmResp := rfl
@[simp] theorem State.setRider_mailbox (s : State) (k : Nat) (x : Rider) : (s.setRider k x).mailbox = s.mailbox := rfl
@[simp] theorem State.setRider_oppoint (s : State) (k : Nat) (x : Rider) : (s.setRider k x).oppoint = s.oppoint := rfl
@[simp] theorem State.setRider_oppointReg (s : State) (k : Nat) (x : Rider) : (s.setRider k x).oppointReg = s.oppointReg := rfl
@[simp] theorem State.setRider_hipt (s : State) (k : Nat) (x : Rider) : (s.setRider k x).hipt = s.hipt := rfl
@[simp] theorem State.setRider_lifttime (s : State) (k : Nat) (x : Rider) : (s.setRider k x).lifttime = s.lifttime := rfl
@[simp] theorem State.setRider_aithresh (s : State) (k : Nat) (x : Rider) : (s.setRider k x).aithresh = s.aithresh := rfl
@[simp] theorem State.setRider_grantmax (s : State) (k : Nat) (x : Rider) : (s.setRider k x).grantmax = s.grantmax := rfl
@[simp] theorem State.setRider_freezePin (s : State) (k : Nat) (x : Rider) : (s.setRider k x).freezePin = s.freezePin := rfl
@[simp] theorem State.setRider_freezeReg (s : State) (k : Nat) (x : Rider) : (s.setRider k x).freezeReg = s.freezeReg := rfl
@[simp] theorem State.setRider_heldMoves (s : State) (k : Nat) (x : Rider) : (s.setRider k x).heldMoves = s.heldMoves := rfl
@[simp] theorem State.setRider_focus (s : State) (k : Nat) (x : Rider) : (s.setRider k x).focus = s.focus := rfl
@[simp] theorem State.setRider_mustWait (s : State) (k : Nat) (x : Rider) : (s.setRider k x).mustWait = s.mustWait := rfl
@[simp] theorem State.setRider_moves (s : State) (k : Nat) (x : Rider) : (s.setRider k x).moves = s.moves := rfl
@[simp] theorem State.setRider_tick (s : State) (k : Nat) (x : Rider) : (s.setRider k x).tick = s.tick := rfl

/-! Fields after the operations that change one field. -/

@[simp] theorem takeMove_mem (s : State) : (takeMove s).mem = s.mem := rfl
@[simp] theorem takeMove_poison (s : State) : (takeMove s).poison = s.poison := rfl
@[simp] theorem takeMove_latent (s : State) : (takeMove s).latent = s.latent := rfl
@[simp] theorem takeMove_views (s : State) : (takeMove s).views = s.views := rfl
@[simp] theorem takeMove_l2 (s : State) : (takeMove s).l2 = s.l2 := rfl
@[simp] theorem takeMove_cores (s : State) : (takeMove s).cores = s.cores := rfl
@[simp] theorem takeMove_quads (s : State) : (takeMove s).quads = s.quads := rfl
@[simp] theorem takeMove_stks (s : State) : (takeMove s).stks = s.stks := rfl
@[simp] theorem takeMove_chans (s : State) : (takeMove s).chans = s.chans := rfl
@[simp] theorem takeMove_dies (s : State) : (takeMove s).dies = s.dies := rfl
@[simp] theorem takeMove_parts (s : State) : (takeMove s).parts = s.parts := rfl
@[simp] theorem takeMove_fns (s : State) : (takeMove s).fns = s.fns := rfl
@[simp] theorem takeMove_jobs (s : State) : (takeMove s).jobs = s.jobs := rfl
@[simp] theorem takeMove_jobOrder (s : State) : (takeMove s).jobOrder = s.jobOrder := rfl
@[simp] theorem takeMove_placeOrder (s : State) : (takeMove s).placeOrder = s.placeOrder := rfl
@[simp] theorem takeMove_passDue (s : State) : (takeMove s).passDue = s.passDue := rfl
@[simp] theorem takeMove_lastPlaced (s : State) : (takeMove s).lastPlaced = s.lastPlaced := rfl
@[simp] theorem takeMove_effort (s : State) : (takeMove s).effort = s.effort := rfl
@[simp] theorem takeMove_cardOrder (s : State) : (takeMove s).cardOrder = s.cardOrder := rfl
@[simp] theorem takeMove_stamp (s : State) : (takeMove s).stamp = s.stamp := rfl
@[simp] theorem takeMove_barriers (s : State) : (takeMove s).barriers = s.barriers := rfl
@[simp] theorem takeMove_riders (s : State) : (takeMove s).riders = s.riders := rfl
@[simp] theorem takeMove_kvsends (s : State) : (takeMove s).kvsends = s.kvsends := rfl
@[simp] theorem takeMove_statusOut (s : State) : (takeMove s).statusOut = s.statusOut := rfl
@[simp] theorem takeMove_messages (s : State) : (takeMove s).messages = s.messages := rfl
@[simp] theorem takeMove_hostWc (s : State) : (takeMove s).hostWc = s.hostWc := rfl
@[simp] theorem takeMove_hostLink (s : State) : (takeMove s).hostLink = s.hostLink := rfl
@[simp] theorem takeMove_ports (s : State) : (takeMove s).ports = s.ports := rfl
@[simp] theorem takeMove_remoteOut (s : State) : (takeMove s).remoteOut = s.remoteOut := rfl
@[simp] theorem takeMove_remoteReply (s : State) : (takeMove s).remoteReply = s.remoteReply := rfl
@[simp] theorem takeMove_homeAtoms (s : State) : (takeMove s).homeAtoms = s.homeAtoms := rfl
@[simp] theorem takeMove_remoteWaits (s : State) : (takeMove s).remoteWaits = s.remoteWaits := rfl
@[simp] theorem takeMove_remoteColls (s : State) : (takeMove s).remoteColls = s.remoteColls := rfl
@[simp] theorem takeMove_hostReply (s : State) : (takeMove s).hostReply = s.hostReply := rfl
@[simp] theorem takeMove_sriov (s : State) : (takeMove s).sriov = s.sriov := rfl
@[simp] theorem takeMove_msixSent (s : State) : (takeMove s).msixSent = s.msixSent := rfl
@[simp] theorem takeMove_boot (s : State) : (takeMove s).boot = s.boot := rfl
@[simp] theorem takeMove_bootBuf (s : State) : (takeMove s).bootBuf = s.bootBuf := rfl
@[simp] theorem takeMove_bootstat (s : State) : (takeMove s).bootstat = s.bootstat := rfl
@[simp] theorem takeMove_bootBusy (s : State) : (takeMove s).bootBusy = s.bootBusy := rfl
@[simp] theorem takeMove_pkgId (s : State) : (takeMove s).pkgId = s.pkgId := rfl
@[simp] theorem takeMove_measure (s : State) : (takeMove s).measure = s.measure := rfl
@[simp] theorem takeMove_spdmVersion (s : State) : (takeMove s).spdmVersion = s.spdmVersion := rfl
@[simp] theorem takeMove_spdmCaps (s : State) : (takeMove s).spdmCaps = s.spdmCaps := rfl
@[simp] theorem takeMove_spdmAlgs (s : State) : (takeMove s).spdmAlgs = s.spdmAlgs := rfl
@[simp] theorem takeMove_spdmResp (s : State) : (takeMove s).spdmResp = s.spdmResp := rfl
@[simp] theorem takeMove_mailbox (s : State) : (takeMove s).mailbox = s.mailbox := rfl
@[simp] theorem takeMove_oppoint (s : State) : (takeMove s).oppoint = s.oppoint := rfl
@[simp] theorem takeMove_oppointReg (s : State) : (takeMove s).oppointReg = s.oppointReg := rfl
@[simp] theorem takeMove_hipt (s : State) : (takeMove s).hipt = s.hipt := rfl
@[simp] theorem takeMove_lifttime (s : State) : (takeMove s).lifttime = s.lifttime := rfl
@[simp] theorem takeMove_aithresh (s : State) : (takeMove s).aithresh = s.aithresh := rfl
@[simp] theorem takeMove_grantmax (s : State) : (takeMove s).grantmax = s.grantmax := rfl
@[simp] theorem takeMove_freezePin (s : State) : (takeMove s).freezePin = s.freezePin := rfl
@[simp] theorem takeMove_freezeReg (s : State) : (takeMove s).freezeReg = s.freezeReg := rfl
@[simp] theorem takeMove_heldMoves (s : State) : (takeMove s).heldMoves = s.heldMoves := rfl
@[simp] theorem takeMove_focus (s : State) : (takeMove s).focus = s.focus := rfl

/-! Reads after writes. -/

theorem State.core_setCore (s : State) (c d : Nat) (x : Core) : (s.setCore c x).core d = if d = c then x else s.core d := tabGet_tabPut _ _ _ _ _
@[simp] theorem State.core_setCore_self (s : State) (c : Nat) (x : Core) : (s.setCore c x).core c = x := tabGet_tabPut_self _ _ _ _
theorem State.core_setCore_ne (s : State) (x : Core) {c d : Nat} (h : d ≠ c) : (s.setCore c x).core d = s.core d := tabGet_tabPut_ne _ _ _ h
theorem State.chan_setChan (s : State) (c d : Nat) (x : Channel) : (s.setChan c x).chan d = if d = c then x else s.chan d := tabGet_tabPut _ _ _ _ _
@[simp] theorem State.chan_setChan_self (s : State) (c : Nat) (x : Channel) : (s.setChan c x).chan c = x := tabGet_tabPut_self _ _ _ _
theorem State.chan_setChan_ne (s : State) (x : Channel) {c d : Nat} (h : d ≠ c) : (s.setChan c x).chan d = s.chan d := tabGet_tabPut_ne _ _ _ h
theorem State.quad_setQuad (s : State) (c d : Nat) (x : Quad) : (s.setQuad c x).quad d = if d = c then x else s.quad d := tabGet_tabPut _ _ _ _ _
@[simp] theorem State.quad_setQuad_self (s : State) (c : Nat) (x : Quad) : (s.setQuad c x).quad c = x := tabGet_tabPut_self _ _ _ _
theorem State.quad_setQuad_ne (s : State) (x : Quad) {c d : Nat} (h : d ≠ c) : (s.setQuad c x).quad d = s.quad d := tabGet_tabPut_ne _ _ _ h
theorem State.partn_setPart (s : State) (c d : Nat) (x : Part) : (s.setPart c x).partn d = if d = c then x else s.partn d := tabGet_tabPut _ _ _ _ _
@[simp] theorem State.partn_setPart_self (s : State) (c : Nat) (x : Part) : (s.setPart c x).partn c = x := tabGet_tabPut_self _ _ _ _
theorem State.partn_setPart_ne (s : State) (x : Part) {c d : Nat} (h : d ≠ c) : (s.setPart c x).partn d = s.partn d := tabGet_tabPut_ne _ _ _ h
theorem State.fnOf_setFn (s : State) (c d : Nat) (x : Fn) : (s.setFn c x).fnOf d = if d = c then x else s.fnOf d := tabGet_tabPut _ _ _ _ _
@[simp] theorem State.fnOf_setFn_self (s : State) (c : Nat) (x : Fn) : (s.setFn c x).fnOf c = x := tabGet_tabPut_self _ _ _ _
theorem State.fnOf_setFn_ne (s : State) (x : Fn) {c d : Nat} (h : d ≠ c) : (s.setFn c x).fnOf d = s.fnOf d := tabGet_tabPut_ne _ _ _ h
theorem State.die_setDie (s : State) (c d : Nat) (x : Die) : (s.setDie c x).die d = if d = c then x else s.die d := tabGet_tabPut _ _ _ _ _
@[simp] theorem State.die_setDie_self (s : State) (c : Nat) (x : Die) : (s.setDie c x).die c = x := tabGet_tabPut_self _ _ _ _
theorem State.die_setDie_ne (s : State) (x : Die) {c d : Nat} (h : d ≠ c) : (s.setDie c x).die d = s.die d := tabGet_tabPut_ne _ _ _ h
theorem State.stk_setStk (s : State) (c d : Nat) (x : Stack) : (s.setStk c x).stk d = if d = c then x else s.stk d := tabGet_tabPut _ _ _ _ _
@[simp] theorem State.stk_setStk_self (s : State) (c : Nat) (x : Stack) : (s.setStk c x).stk c = x := tabGet_tabPut_self _ _ _ _
theorem State.stk_setStk_ne (s : State) (x : Stack) {c d : Nat} (h : d ≠ c) : (s.setStk c x).stk d = s.stk d := tabGet_tabPut_ne _ _ _ h
theorem State.job_setJob (s : State) (c d : Nat) (x : Job) : (s.setJob c x).job? d = if d = c then some x else s.job? d := tabFind_tabPut _ _ _ _
@[simp] theorem State.job_setJob_self (s : State) (c : Nat) (x : Job) : (s.setJob c x).job? c = some x := tabFind_tabPut_self _ _ _
theorem State.rider_setRider (s : State) (c d : Nat) (x : Rider) : (s.setRider c x).rider? d = if d = c then some x else s.rider? d := tabFind_tabPut _ _ _ _
@[simp] theorem State.rider_setRider_self (s : State) (c : Nat) (x : Rider) : (s.setRider c x).rider? c = some x := tabFind_tabPut_self _ _ _

/-- Reads of one part through a write of another. -/
theorem parts_apart (s : State) (c : Nat) (x : Core) (d : Nat) :
    (s.setCore c x).chan d = s.chan d ∧ (s.setCore c x).quad d = s.quad d ∧ (s.setCore c x).partn d = s.partn d ∧
    (s.setCore c x).fnOf d = s.fnOf d ∧ (s.setCore c x).die d = s.die d ∧ (s.setCore c x).job? d = s.job? d := ⟨rfl, rfl, rfl, rfl, rfl, rfl⟩

/-! Tasks. -/

@[simp] theorem State.core_setTask_self (s : State) (c t : Nat) (x : Task) :
    (s.setTask c t x).core c = { s.core c with tasks := tabPut (s.core c).tasks t x } := s.core_setCore_self c _

theorem State.core_setTask_ne (s : State) (t : Nat) (x : Task) {c d : Nat} (h : d ≠ c) : (s.setTask c t x).core d = s.core d :=
  s.core_setCore_ne _ h

@[simp] theorem State.task_setTask_self (s : State) (c t : Nat) (x : Task) : (s.setTask c t x).task? c t = some x := by
  simp [State.task?]

theorem State.task_setTask_ne (s : State) (c : Nat) (x : Task) {t k : Nat} (h : k ≠ t) : (s.setTask c t x).task? c k = s.task? c k := by
  simp [State.task?, tabFind_tabPut_ne _ _ h]

theorem State.task_setTask_core (s : State) (t : Nat) (x : Task) {c d : Nat} (h : d ≠ c) (k : Nat) : (s.setTask c t x).task? d k = s.task? d k := by
  simp [State.task?, State.core_setTask_ne s t x h]

@[simp] theorem State.task_setCore_self (s : State) (c : Nat) (x : Core) (t : Nat) : (s.setCore c x).task? c t = tabFind x.tasks t := by
  simp [State.task?]

end Sys2Proof.Machine
end

