-- ==== Sys2Proof/Laws/Fabric.lean ====
section
/-! SUPPORT. What the shared operations of the fabric do: the node in focus, tokens taken and sent, and a firing made. -/

namespace Sys2Proof.Machine

/-- What the focus holds. -/
theorem foc_cases {s : State} {f : Foc} (h : foc? s = some f) :
    f.c = s.focus.1 ∧ f.slot = s.focus.2 ∧ f.core = s.core f.c ∧ f.core.running = some f.t ∧
    tabFind f.core.tasks f.t = some f.task ∧ f.task.cutting = false ∧ f.task.phase = some f.ph ∧ f.nd = nodeOf f.ph f.slot := by
  unfold foc? at h
  simp only [Option.bind_eq_some_iff] at h
  obtain ⟨t, ht, task, htask, h⟩ := h
  split at h
  · cases h
  · rename_i hc
    simp only [Option.map_eq_some_iff] at h
    obtain ⟨ph, hph, rfl⟩ := h
    exact ⟨rfl, rfl, rfl, ht, htask, by simpa using hc, hph, rfl⟩

theorem foc_task {s : State} {f : Foc} (h : foc? s = some f) : s.task? f.c f.t = some f.task := by
  obtain ⟨-, -, hcore, -, htask, -⟩ := foc_cases h
  rw [hcore] at htask
  exact htask

@[simp] theorem nodeOf_setNode_self (ph : Phase) (n : Nat) (nd : Node) : nodeOf (setNode ph n nd) n = nd := by
  simp [nodeOf, setNode]

theorem nodeOf_setNode (ph : Phase) (n m : Nat) (nd : Node) : nodeOf (setNode ph n nd) m = if m = n then nd else nodeOf ph m := by
  simp only [nodeOf, setNode]; exact tabGet_tabPut _ _ _ _ _

theorem nodeOf_setNode_ne (ph : Phase) (nd : Node) {n m : Nat} (h : m ≠ n) : nodeOf (setNode ph n nd) m = nodeOf ph m := by
  simp [nodeOf_setNode, h]

/-- The queue of a port after a port's queue is set. -/
theorem portQ_setPortQ (nd : Node) (p q : Nat) (l : List Token) (hp : p < 4) (hq : q < 4) :
    portQ (setPortQ nd p l) q = if q = p then l else portQ nd q := by
  rcases p with _ | _ | _ | _ | p <;> rcases q with _ | _ | _ | _ | q <;> first | omega | simp [portQ, setPortQ]

@[simp] theorem setPortQ_rest (nd : Node) (p : Nat) (l : List Token) : (setPortQ nd p l).rest = nd.rest := by
  rcases p with _ | _ | _ | p <;> rfl

@[simp] theorem setPortQ_iter (nd : Node) (p : Nat) (l : List Token) : (setPortQ nd p l).iter = nd.iter := by
  rcases p with _ | _ | _ | p <;> rfl

theorem popPorts_rest (nd : Node) (ports : List Nat) : (popPorts nd ports).rest = nd.rest := by
  unfold popPorts
  induction ports generalizing nd with
  | nil => rfl
  | cons p ps ih => simp [List.foldl_cons, ih]

/-- Taking one token from each of several ports. -/
theorem portQ_popPorts (nd : Node) (ports : List Nat) (hn : ports.Nodup) (hp : ∀ p ∈ ports, p < 4) {q : Nat} (hq : q < 4) :
    portQ (popPorts nd ports) q = if q ∈ ports then (portQ nd q).tail else portQ nd q := by
  unfold popPorts
  induction ports generalizing nd with
  | nil => simp
  | cons p ps ih =>
    rw [List.foldl_cons, ih _ (List.nodup_cons.1 hn).2 (fun x hx => hp x (by simp [hx]))]
    rw [portQ_setPortQ _ _ _ _ (hp p (by simp)) hq]
    have := (List.nodup_cons.1 hn).1
    by_cases h1 : q = p
    · subst h1; simp [this]
    · simp [h1]

/-- A token sent is the last in flight to its target; nothing else in flight changes (R31, R64). -/
theorem inFlight_sendTok (ph : Phase) (slot tgt : Nat) (x : Token) (u : Nat) :
    inFlight (sendTok ph slot tgt x) u = inFlight ph u ++ if tgt = u ∧ tgt ≠ noTarget then [x] else [] := by
  unfold sendTok
  by_cases h0 : tgt = noTarget
  · simp [h0]
  · simp only [beq_iff_eq, h0, if_false]
    split
    · rename_i hc
      simp only [Bool.and_eq_true, List.isEmpty_iff] at hc
      by_cases hu : tgt = u
      · subst hu
        simp [inFlight, portQ_setPortQ _ _ _ _ (Nat.mod_lt _ (by decide)) (Nat.mod_lt tgt (by decide : 0 < 4)), hc.2, h0,
          setNode, nodeOf]
      · simp only [hu, false_and, if_false, List.append_nil]
        unfold inFlight
        by_cases hs : u / 4 = tgt / 4
        · have hm : u % 4 ≠ tgt % 4 := by omega
          rw [hs, nodeOf_setNode_self, portQ_setPortQ _ _ _ _ (Nat.mod_lt _ (by decide)) (Nat.mod_lt _ (by decide))]
          simp [hm, setNode]
        · rw [nodeOf_setNode_ne _ _ hs]; simp [setNode]
    · unfold inFlight
      by_cases hu : tgt = u
      · subst hu
        simp [h0, nodeOf]
      · have : u ≠ tgt := fun h => hu h.symm
        simp [hu, nodeOf, tabGet_tabPut, this]

theorem sendTok_rest (ph : Phase) (slot tgt : Nat) (x : Token) (n : Nat) : (nodeOf (sendTok ph slot tgt x) n).rest = (nodeOf ph n).rest := by
  unfold sendTok
  split
  · rfl
  · split
    · rw [nodeOf_setNode]
      split
      · rename_i h; subst h; simp
      · rfl
    · rfl

theorem rest_iter {a b : Node} (h : a.rest = b.rest) : a.iter = b.iter := by
  simp only [Node.rest, Node.mk.injEq] at h; exact h.1

/-- Sending a token changes a phase's nodes and wires alone. -/
theorem sendTok_frame (ph : Phase) (slot tgt : Nat) (x : Token) :
    sendTok ph slot tgt x = { ph with nodes := (sendTok ph slot tgt x).nodes, wires := (sendTok ph slot tgt x).wires } := by
  unfold sendTok; split
  · rfl
  · split <;> rfl

/-- The ports a firing takes from: distinct and among a, b, c, p. -/
def goodPorts (ports : List Nat) : Prop := ports.Nodup ∧ ∀ p ∈ ports, p < 4

theorem goodPorts_filter {ports : List Nat} (h : goodPorts ports) (p : Nat → Bool) : goodPorts (ports.filter p) :=
  ⟨h.1.filter p, fun x hx => h.2 x (List.mem_filter.1 hx).1⟩

/-- The ports of a stage, with or without p. -/
theorem goodPorts_stage (op : Nat) (w : StageW) : goodPorts (withPred w.pm.toNat (stageNeeds op w)) := by
  have h : goodPorts (stagePorts op w) ∧ 3 ∉ stagePorts op w := by
    unfold stagePorts goodPorts
    repeat' split
    all_goals simp
  have h2 := goodPorts_filter h.1 fun p => !(p == 1 && w.bimm == 1#1)
  unfold withPred stageNeeds
  split
  · exact h2
  · refine ⟨List.Nodup.append h2.1 (by simp) ?_, ?_⟩
    · intro x hx hx3
      simp only [List.mem_singleton] at hx3
      subst hx3
      exact h.2 (List.mem_filter.1 hx).1
    · intro p hp
      rcases List.mem_append.1 hp with hp | hp
      · exact h2.2 p hp
      · simp only [List.mem_singleton] at hp; omega

theorem heads_nonempty {nd : Node} {ports : List Nat} {ops : List (Nat × Token)} (h : heads nd ports = some ops) :
    ∀ p ∈ ports, portQ nd p ≠ [] := by
  unfold heads at h
  induction ports generalizing ops with
  | nil => simp
  | cons p ps ih =>
    rw [List.mapM_cons] at h
    intro q hq
    cases hx : portQ nd p with
    | nil => simp [hx] at h
    | cons a l =>
      simp only [hx, List.head?_cons, Option.map_some, Option.bind_eq_bind, Option.bind_some, Option.bind_eq_some_iff] at h
      obtain ⟨rest, hr, -⟩ := h
      rcases List.mem_cons.1 hq with rfl | hq
      · simp [hx]
      · exact ih hr q hq

/-- The tokens in flight after the firing node took one from each port. -/
theorem inFlight_advance (ph : Phase) (slot : Nat) (ports : List Nat) (nd : Node) (hg : goodPorts ports)
    (hne : ∀ p ∈ ports, portQ (nodeOf ph slot) p ≠ []) (hnd : ∀ q, q < 4 → portQ nd q = portQ (advance (nodeOf ph slot) ports) q) (u : Nat) :
    inFlight (setNode ph slot nd) u = if u / 4 = slot ∧ u % 4 ∈ ports then (inFlight ph u).tail else inFlight ph u := by
  unfold inFlight
  by_cases hs : u / 4 = slot
  · subst hs
    have ha : ∀ q, portQ (advance (nodeOf ph (u / 4)) ports) q = portQ (popPorts (nodeOf ph (u / 4)) ports) q := by
      intro q; rcases q with _ | _ | _ | q <;> rfl
    have h4 : u % 4 < 4 := Nat.mod_lt _ (by decide)
    rw [nodeOf_setNode_self, hnd _ h4, ha, portQ_popPorts _ _ hg.1 hg.2 h4]
    by_cases hm : u % 4 ∈ ports
    · have := hne _ hm
      cases hq : portQ (nodeOf ph (u / 4)) (u % 4) with
      | nil => exact absurd hq this
      | cons a l => simp [hm, setNode]
    · simp [hm, setNode]
  · rw [nodeOf_setNode_ne _ _ hs]
    simp [hs, setNode]

@[simp] theorem advance_iter (nd : Node) (ports : List Nat) : (advance nd ports).iter = nd.iter + 1 := rfl

/-- A firing made: what `fired` leaves and changes, with the status raised before it. -/
theorem fired_spec {s : State} {f : Foc} (h : foc? s = some f) (fl : Flags) (ph : Phase) :
    FiredOnce f fl s (fired (raiseFlags s f.c f.t fl) f ph) ph := by
  have ht := foc_task h
  have ht' : tabFind (s.core f.c).tasks f.t = some f.task := ht
  have hr : raiseFlags s f.c f.t fl = s.setTask f.c f.t { f.task with fpstat := f.task.fpstat ||| fl } := by
    unfold raiseFlags; rw [ht]
  have hf : fired (raiseFlags s f.c f.t fl) f ph =
      (s.setTask f.c f.t { f.task with fpstat := f.task.fpstat ||| fl }).setCore f.c { s.core f.c with
        orphan := 0, firedNow := f.slot :: (s.core f.c).firedNow,
        tasks := tabPut (tabPut (s.core f.c).tasks f.t { f.task with fpstat := f.task.fpstat ||| fl }) f.t
          { f.task with fpstat := f.task.fpstat ||| fl, phase := some ph, firings := f.task.firings + 1 } } := by
    rw [hr]; unfold fired; simp
  rw [hf]
  constructor
  · refine ⟨⟨by simp only [State.setTask, State.setCore], ?_⟩, ?_, ?_⟩
    · intro d hd
      rw [State.core_setCore_ne _ _ hd, State.core_setTask_ne _ _ _ hd]
    · simp
    · intro j hj
      simp [State.task?, tabFind_tabPut_ne _ _ hj]
  · exact ⟨fun _ => rfl, rfl, rfl, rfl⟩
  · simp
  · simp
  · simp

/-- A firing that raises nothing. -/
theorem fired_quiet {s : State} {f : Foc} (h : foc? s = some f) (ph : Phase) : FiredOnce f 0 s (fired s f ph) ph := by
  have ht' : tabFind (s.core f.c).tasks f.t = some f.task := foc_task h
  have hf : fired s f ph = s.setCore f.c { s.core f.c with
        orphan := 0, firedNow := f.slot :: (s.core f.c).firedNow,
        tasks := tabPut (s.core f.c).tasks f.t { f.task with phase := some ph, firings := f.task.firings + 1 } } := by
    unfold fired; simp [ht']
  rw [hf]
  constructor
  · refine ⟨⟨rfl, ?_⟩, ?_, ?_⟩
    · intro d hd
      rw [State.core_setCore_ne _ _ hd]
    · simp
    · intro j hj
      simp [State.task?, tabFind_tabPut_ne _ _ hj]
  · exact ⟨fun _ => rfl, rfl, rfl, rfl⟩
  · simp
  · simp
  · simp

/-! A stage fired. -/

theorem exec_stage {i : Instr} {w : StageW} {g : StageW → StageIn → StageOut} (h : stageFn i = some (w, g)) (s : State) :
    exec i s = fireStage i.op w g s := by
  cases i <;> simp only [stageFn, Option.some.injEq, Prod.mk.injEq, reduceCtorEq] at h <;> (obtain ⟨rfl, rfl⟩ := h; rfl)

theorem readyOps_heads {f : Foc} {ports : List Nat} {ops : List (Nat × Token)} (h : readyOps f ports = some ops) : heads f.nd ports = some ops := by
  unfold readyOps at h
  split at h
  · exact h
  · cases h

/-- A node that took its operands and sent two tokens. -/
theorem nodeFired_two {f : Foc} {s : State} (hf : foc? s = some f) {ports : List Nat} (hg : goodPorts ports)
    (hne : ∀ p ∈ ports, portQ f.nd p ≠ []) (t0 t1 : Nat) (x y : Token) :
    nodeFired f ports [(t0, x), (t1, y)]
      (sendTok (sendTok (setNode f.ph f.slot (advance f.nd ports)) f.slot t0 x) f.slot t1 y) := by
  have hnd : f.nd = nodeOf f.ph f.slot := (foc_cases hf).2.2.2.2.2.2.2
  refine ⟨?_, ⟨?_, ?_⟩, ?_⟩
  · rw [sendTok_frame, sendTok_frame]; rfl
  · intro u
    rw [inFlight_sendTok, inFlight_sendTok, inFlight_advance _ _ _ _ hg (by rw [← hnd]; exact hne) (by rw [hnd]; intros; rfl)]
    rw [List.append_assoc]
    congr 1
    by_cases h0 : t0 = u <;> by_cases h1 : t1 = u <;> by_cases h2 : t0 = noTarget <;> by_cases h3 : t1 = noTarget <;>
      simp [h0, h1, h2, h3] <;> simp_all
  · intro n hn
    rw [sendTok_rest, sendTok_rest, nodeOf_setNode_ne _ _ hn]
  · rw [sendTok_rest, sendTok_rest, nodeOf_setNode_self]
    unfold advance
    have := popPorts_rest f.nd ports
    simp only [Node.rest, Node.mk.injEq] at this ⊢
    simp_all

/-- A stage that is no `wrb` and raises nothing that FPEN enables: what its firing does. -/
theorem stage_sends {i : Instr} {w : StageW} {g : StageW → StageIn → StageOut} (hi : stageFn i = some (w, g)) (hw : i.op ≠ 0x23)
    {s : State} {f : Foc} {ops : List (Nat × Token)} (hr : stageReady i w s f ops) {x y : Token} {fl : Flags}
    (hout : (if actsNull w.pm.toNat ops then StageOut.both nullToken 0 else g w (stageReads w f ops)) = ⟨some x, some y, fl⟩)
    (ht : trapsOn f.task.fpen fl = false) : stageSends i w s f x y fl := by
  obtain ⟨hf, hr⟩ := hr
  have hne := heads_nonempty (readyOps_heads hr)
  have h1 : exec i s = .next (fired (raiseFlags s f.c f.t fl) f
      (sendTok (sendTok (setNode f.ph f.slot (advance f.nd (withPred w.pm.toNat (stageNeeds i.op w)))) f.slot w.t0.toNat x) f.slot w.t1.toNat y)) := by
    rw [exec_stage hi]
    unfold fireStage
    simp only [hf, hr]
    unfold stageReads at hout
    rw [hout]
    simp [ht, hw, sendOpt]
  exact ⟨_, _, h1, fired_spec hf fl _, nodeFired_two hf (goodPorts_stage _ _) hne _ _ _ _⟩

/-- What an elementwise stage yields, from its function. -/
theorem stageYields_of {i : Instr} {w : StageW} {g : StageW → StageIn → StageOut} (hi : stageFn i = some (w, g)) (hw : i.op ≠ 0x23)
    {srcs : StageIn → List Token} {r : StageIn → Nat → Nat × Flags}
    (h : ∀ x, ∃ y, g w x = .both y (raised w.ty.toNat (resultMask w.ty.toNat (srcs x)) fun e => (r x e).2) ∧
      holdsElems y w.ty.toNat (resultMask w.ty.toNat (srcs x)) fun e => (r x e).1) : stageYields i w srcs r := by
  intro s f ops hr hn
  obtain ⟨y, hy, hh⟩ := h (stageReads w f ops)
  intro x m fl
  refine ⟨fun ht => ⟨y, stage_sends hi hw hr ?_ ht, hh⟩, fun ht => ?_⟩
  · simp only [hn, hy, StageOut.both]
    rfl
  · obtain ⟨hf, hr⟩ := hr
    unfold stageTraps
    rw [exec_stage hi]
    unfold fireStage
    simp only [hf, hr, hn]
    simp only [Bool.false_eq_true, if_false]
    have hy' := hy
    unfold stageReads at hy'
    simp only [hy', StageOut.both]
    exact if_pos ht

end Sys2Proof.Machine
end

