-- ==== Sys2Proof/Laws/KeepsMemory.lean ====
section
/-! SUPPORT. Every operation of the machine keeps memory in canonical form: one lemma for each, for one step to cite. -/

namespace Sys2Proof.Machine

theorem wf_foldl {β : Type} {f : State → β → State} (hf : ∀ s x, Memory.wf s.mem = true → Memory.wf (f s x).mem = true)
    (l : List β) {s : State} (h : Memory.wf s.mem = true) : Memory.wf (l.foldl f s).mem = true := by
  induction l generalizing s with
  | nil => exact h
  | cons e l ih => exact ih (hf s e h)

theorem wf_ite {p : Prop} [Decidable p] {a b : State} (ha : Memory.wf a.mem = true) (hb : Memory.wf b.mem = true) :
    Memory.wf (if p then a else b).mem = true := by
  split
  · exact ha
  · exact hb

/-- A fold whose accumulator holds the state in one place. -/
theorem wf_foldl_at {α β : Type} (p : α → State) {f : α → β → α}
    (hf : ∀ a x, Memory.wf (p a).mem = true → Memory.wf (p (f a x)).mem = true)
    (l : List β) {a : α} (h : Memory.wf (p a).mem = true) : Memory.wf (p (l.foldl f a)).mem = true := by
  induction l generalizing a with
  | nil => exact h
  | cons e l ih => exact ih (hf a e h)

/-- A state that an operation may give is in canonical form. -/
structure optWf (o : Option State) : Prop where
  get : ∀ y, o = some y → Memory.wf y.mem = true

theorem optWf_none : optWf none := ⟨fun y h => by cases h⟩

theorem optWf_some {s : State} (h : Memory.wf s.mem = true) : optWf (some s) := ⟨fun y e => by cases e; exact h⟩

theorem optWf_map {α : Type} {o : Option α} {f : α → State} (h : ∀ a, o = some a → Memory.wf (f a).mem = true) : optWf (o.map f) := by
  refine ⟨fun y e => ?_⟩
  cases o with
  | none => cases e
  | some a => cases e; exact h a rfl

theorem wf_of_pair {α : Type} {p : α × State} {a : α} {y : State} (e : p = (a, y)) (h : Memory.wf p.2.mem = true) :
    Memory.wf y.mem = true := by subst e; exact h

theorem wf_of_fst {α : Type} {p : State × α} {a : α} {y : State} (e : p = (y, a)) (h : Memory.wf p.1.mem = true) :
    Memory.wf y.mem = true := by subst e; exact h

theorem wf_of_triple {α β : Type} {p : α × β × State} {a : α} {b : β} {y : State} (e : p = (a, b, y)) (h : Memory.wf p.2.2.mem = true) :
    Memory.wf y.mem = true := by subst e; exact h

theorem wf_of_opt {o : Option State} {y : State} (e : o = some y) (h : optWf o) : Memory.wf y.mem = true := h.get y e

/-- An answer that is a next state in canonical form. -/
structure outWf (o : Host.Outcome State Fault Refusal) : Prop where
  get : ∃ y, o = .next y ∧ Memory.wf y.mem = true

theorem outWf_next {s : State} (h : Memory.wf s.mem = true) : outWf (.next s) := ⟨s, rfl, h⟩

theorem outWf_ite {p : Prop} [Decidable p] {a b : Host.Outcome State Fault Refusal} (ha : outWf a) (hb : outWf b) :
    outWf (if p then a else b) := by
  split
  · exact ha
  · exact hb

theorem wf_getD {o : Option State} {s : State} (h : optWf o) (hs : Memory.wf s.mem = true) : Memory.wf (o.getD s).mem = true := by
  cases o with
  | none => exact hs
  | some y => exact h.get y rfl


theorem wf_State_setCore {s : State} {c : Nat} {x : Core} (hs : Memory.wf s.mem = true) : Memory.wf (State.setCore s c x).mem = true := by
  unfold State.setCore
  repeat' first
    | assumption
    | with_reducible apply wf_foldl
    | with_reducible exact optWf_none
    | with_reducible apply optWf_some
    | with_reducible apply optWf_map
    | with_reducible apply wf_getD
    | with_reducible apply outWf_next
    | (refine wf_of_pair (by assumption) ?_)
    | (refine wf_of_triple (by assumption) ?_)
    | (refine wf_of_fst (by assumption) ?_)
    | (refine wf_of_opt (by assumption) ?_)
    | intro _
    | split
    | dsimp only

theorem wf_State_setChan {s : State} {c : Nat} {x : Channel} (hs : Memory.wf s.mem = true) : Memory.wf (State.setChan s c x).mem = true := by
  unfold State.setChan
  repeat' first
    | assumption
    | with_reducible apply wf_foldl
    | with_reducible exact optWf_none
    | with_reducible apply optWf_some
    | with_reducible apply optWf_map
    | with_reducible apply wf_getD
    | with_reducible apply outWf_next
    | (refine wf_of_pair (by assumption) ?_)
    | (refine wf_of_triple (by assumption) ?_)
    | (refine wf_of_fst (by assumption) ?_)
    | (refine wf_of_opt (by assumption) ?_)
    | intro _
    | split
    | dsimp only

theorem wf_State_setQuad {s : State} {q : Nat} {x : Quad} (hs : Memory.wf s.mem = true) : Memory.wf (State.setQuad s q x).mem = true := by
  unfold State.setQuad
  repeat' first
    | assumption
    | with_reducible apply wf_foldl
    | with_reducible exact optWf_none
    | with_reducible apply optWf_some
    | with_reducible apply optWf_map
    | with_reducible apply wf_getD
    | with_reducible apply outWf_next
    | (refine wf_of_pair (by assumption) ?_)
    | (refine wf_of_triple (by assumption) ?_)
    | (refine wf_of_fst (by assumption) ?_)
    | (refine wf_of_opt (by assumption) ?_)
    | intro _
    | split
    | dsimp only

theorem wf_State_setPart {s : State} {p : Nat} {x : Part} (hs : Memory.wf s.mem = true) : Memory.wf (State.setPart s p x).mem = true := by
  unfold State.setPart
  repeat' first
    | assumption
    | with_reducible apply wf_foldl
    | with_reducible exact optWf_none
    | with_reducible apply optWf_some
    | with_reducible apply optWf_map
    | with_reducible apply wf_getD
    | with_reducible apply outWf_next
    | (refine wf_of_pair (by assumption) ?_)
    | (refine wf_of_triple (by assumption) ?_)
    | (refine wf_of_fst (by assumption) ?_)
    | (refine wf_of_opt (by assumption) ?_)
    | intro _
    | split
    | dsimp only

theorem wf_State_setFn {s : State} {f : Nat} {x : Fn} (hs : Memory.wf s.mem = true) : Memory.wf (State.setFn s f x).mem = true := by
  unfold State.setFn
  repeat' first
    | assumption
    | with_reducible apply wf_foldl
    | with_reducible exact optWf_none
    | with_reducible apply optWf_some
    | with_reducible apply optWf_map
    | with_reducible apply wf_getD
    | with_reducible apply outWf_next
    | (refine wf_of_pair (by assumption) ?_)
    | (refine wf_of_triple (by assumption) ?_)
    | (refine wf_of_fst (by assumption) ?_)
    | (refine wf_of_opt (by assumption) ?_)
    | intro _
    | split
    | dsimp only

theorem wf_State_setDie {s : State} {d : Nat} {x : Die} (hs : Memory.wf s.mem = true) : Memory.wf (State.setDie s d x).mem = true := by
  unfold State.setDie
  repeat' first
    | assumption
    | with_reducible apply wf_foldl
    | with_reducible exact optWf_none
    | with_reducible apply optWf_some
    | with_reducible apply optWf_map
    | with_reducible apply wf_getD
    | with_reducible apply outWf_next
    | (refine wf_of_pair (by assumption) ?_)
    | (refine wf_of_triple (by assumption) ?_)
    | (refine wf_of_fst (by assumption) ?_)
    | (refine wf_of_opt (by assumption) ?_)
    | intro _
    | split
    | dsimp only

theorem wf_State_setStk {s : State} {k : Nat} {x : Stack} (hs : Memory.wf s.mem = true) : Memory.wf (State.setStk s k x).mem = true := by
  unfold State.setStk
  repeat' first
    | assumption
    | with_reducible apply wf_foldl
    | with_reducible exact optWf_none
    | with_reducible apply optWf_some
    | with_reducible apply optWf_map
    | with_reducible apply wf_getD
    | with_reducible apply outWf_next
    | (refine wf_of_pair (by assumption) ?_)
    | (refine wf_of_triple (by assumption) ?_)
    | (refine wf_of_fst (by assumption) ?_)
    | (refine wf_of_opt (by assumption) ?_)
    | intro _
    | split
    | dsimp only

theorem wf_State_setJob {s : State} {j : Nat} {x : Job} (hs : Memory.wf s.mem = true) : Memory.wf (State.setJob s j x).mem = true := by
  unfold State.setJob
  repeat' first
    | assumption
    | with_reducible apply wf_foldl
    | with_reducible exact optWf_none
    | with_reducible apply optWf_some
    | with_reducible apply optWf_map
    | with_reducible apply wf_getD
    | with_reducible apply outWf_next
    | (refine wf_of_pair (by assumption) ?_)
    | (refine wf_of_triple (by assumption) ?_)
    | (refine wf_of_fst (by assumption) ?_)
    | (refine wf_of_opt (by assumption) ?_)
    | intro _
    | split
    | dsimp only

theorem wf_State_setTask {s : State} {c t : Nat} {x : Task} (hs : Memory.wf s.mem = true) : Memory.wf (State.setTask s c t x).mem = true := by
  unfold State.setTask
  repeat' first
    | assumption
    | with_reducible apply wf_foldl
    | with_reducible exact optWf_none
    | with_reducible apply optWf_some
    | with_reducible apply optWf_map
    | with_reducible apply wf_getD
    | with_reducible apply outWf_next
    | with_reducible apply wf_State_setCore
    | (refine wf_of_pair (by assumption) ?_)
    | (refine wf_of_triple (by assumption) ?_)
    | (refine wf_of_fst (by assumption) ?_)
    | (refine wf_of_opt (by assumption) ?_)
    | intro _
    | split
    | dsimp only

theorem wf_State_setRider {s : State} {k : Nat} {x : Rider} (hs : Memory.wf s.mem = true) : Memory.wf (State.setRider s k x).mem = true := by
  unfold State.setRider
  repeat' first
    | assumption
    | with_reducible apply wf_foldl
    | with_reducible exact optWf_none
    | with_reducible apply optWf_some
    | with_reducible apply optWf_map
    | with_reducible apply wf_getD
    | with_reducible apply outWf_next
    | (refine wf_of_pair (by assumption) ?_)
    | (refine wf_of_triple (by assumption) ?_)
    | (refine wf_of_fst (by assumption) ?_)
    | (refine wf_of_opt (by assumption) ?_)
    | intro _
    | split
    | dsimp only

theorem wf_freshSector {s : State} {sec : Nat} (hs : Memory.wf s.mem = true) : Memory.wf (freshSector s sec).mem = true := by
  unfold freshSector
  repeat' first
    | assumption
    | with_reducible apply wf_foldl
    | with_reducible exact optWf_none
    | with_reducible apply optWf_some
    | with_reducible apply optWf_map
    | with_reducible apply wf_getD
    | with_reducible apply outWf_next
    | (refine wf_of_pair (by assumption) ?_)
    | (refine wf_of_triple (by assumption) ?_)
    | (refine wf_of_fst (by assumption) ?_)
    | (refine wf_of_opt (by assumption) ?_)
    | intro _
    | split
    | dsimp only

theorem wf_noteUncorrectable {s : State} {pa : Nat} (hs : Memory.wf s.mem = true) : Memory.wf (noteUncorrectable s pa).mem = true := by
  unfold noteUncorrectable
  repeat' first
    | assumption
    | with_reducible apply wf_foldl
    | with_reducible exact optWf_none
    | with_reducible apply optWf_some
    | with_reducible apply optWf_map
    | with_reducible apply wf_getD
    | with_reducible apply outWf_next
    | with_reducible apply wf_State_setChan
    | (refine wf_of_pair (by assumption) ?_)
    | (refine wf_of_triple (by assumption) ?_)
    | (refine wf_of_fst (by assumption) ?_)
    | (refine wf_of_opt (by assumption) ?_)
    | intro _
    | split
    | dsimp only

theorem wf_noteCorrected {s : State} {pa : Nat} (hs : Memory.wf s.mem = true) : Memory.wf (noteCorrected s pa).mem = true := by
  unfold noteCorrected
  repeat' first
    | assumption
    | with_reducible apply wf_foldl
    | with_reducible exact optWf_none
    | with_reducible apply optWf_some
    | with_reducible apply optWf_map
    | with_reducible apply wf_getD
    | with_reducible apply outWf_next
    | with_reducible apply wf_State_setChan
    | (refine wf_of_pair (by assumption) ?_)
    | (refine wf_of_triple (by assumption) ?_)
    | (refine wf_of_fst (by assumption) ?_)
    | (refine wf_of_opt (by assumption) ?_)
    | intro _
    | split
    | dsimp only

theorem wf_readCheck {s : State} {key n : Nat} (hs : Memory.wf s.mem = true) : Memory.wf (readCheck s key n).mem = true := by
  unfold readCheck
  repeat' first
    | assumption
    | with_reducible apply wf_foldl
    | with_reducible exact optWf_none
    | with_reducible apply optWf_some
    | with_reducible apply optWf_map
    | with_reducible apply wf_getD
    | with_reducible apply outWf_next
    | with_reducible apply wf_noteUncorrectable
    | with_reducible apply wf_noteCorrected
    | (refine wf_of_pair (by assumption) ?_)
    | (refine wf_of_triple (by assumption) ?_)
    | (refine wf_of_fst (by assumption) ?_)
    | (refine wf_of_opt (by assumption) ?_)
    | intro _
    | split
    | dsimp only

theorem wf_takeView {s : State} {view key n : Nat} (hs : Memory.wf s.mem = true) : Memory.wf (takeView s view key n).mem = true := by
  unfold takeView
  split
  · exact hs
  · refine wf_foldl (fun s b h => ?_) _ hs
    dsimp only
    split
    · exact wf_memWrite h _ _ _
    · exact h

theorem wf_writeView {s : State} {view key n x : Nat} {p : Bool} (hs : Memory.wf s.mem = true) : Memory.wf (writeView s view key n x p).mem = true := by
  unfold writeView
  repeat' first
    | assumption
    | with_reducible apply wf_foldl
    | with_reducible exact optWf_none
    | with_reducible apply optWf_some
    | with_reducible apply optWf_map
    | with_reducible apply wf_getD
    | with_reducible apply outWf_next
    | with_reducible apply wf_writeRun
    | with_reducible apply wf_takeView
    | (refine wf_of_pair (by assumption) ?_)
    | (refine wf_of_triple (by assumption) ?_)
    | (refine wf_of_fst (by assumption) ?_)
    | (refine wf_of_opt (by assumption) ?_)
    | intro _
    | split
    | dsimp only

theorem wf_holdMove {s : State} (hs : Memory.wf s.mem = true) : Memory.wf (holdMove s).mem = true := by
  unfold holdMove
  repeat' first
    | assumption
    | with_reducible apply wf_foldl
    | with_reducible exact optWf_none
    | with_reducible apply optWf_some
    | with_reducible apply optWf_map
    | with_reducible apply wf_getD
    | with_reducible apply outWf_next
    | (refine wf_of_pair (by assumption) ?_)
    | (refine wf_of_triple (by assumption) ?_)
    | (refine wf_of_fst (by assumption) ?_)
    | (refine wf_of_opt (by assumption) ?_)
    | intro _
    | split
    | dsimp only

theorem wf_tryPart {f : State → State} {s : State} (hf : ∀ u, Memory.wf u.mem = true → Memory.wf (f u).mem = true) (hs : Memory.wf s.mem = true) :
    Memory.wf (tryPart f s).mem = true := by
  unfold tryPart
  dsimp only
  split
  · exact hs
  · exact hf { s with mustWait := false } hs

theorem wf_countDirect {s : State} {key scope : Nat} (hs : Memory.wf s.mem = true) : Memory.wf (countDirect s key scope).mem = true := by
  unfold countDirect
  repeat' first
    | assumption
    | with_reducible apply wf_foldl
    | with_reducible exact optWf_none
    | with_reducible apply optWf_some
    | with_reducible apply optWf_map
    | with_reducible apply wf_getD
    | with_reducible apply outWf_next
    | with_reducible apply wf_State_setChan
    | (refine wf_of_pair (by assumption) ?_)
    | (refine wf_of_triple (by assumption) ?_)
    | (refine wf_of_fst (by assumption) ?_)
    | (refine wf_of_opt (by assumption) ?_)
    | intro _
    | split
    | dsimp only

theorem wf_countInTurn {s : State} {key : Nat} (hs : Memory.wf s.mem = true) : Memory.wf (countInTurn s key).mem = true := by
  unfold countInTurn
  repeat' first
    | assumption
    | with_reducible apply wf_foldl
    | with_reducible exact optWf_none
    | with_reducible apply optWf_some
    | with_reducible apply optWf_map
    | with_reducible apply wf_getD
    | with_reducible apply outWf_next
    | with_reducible apply wf_State_setChan
    | (refine wf_of_pair (by assumption) ?_)
    | (refine wf_of_triple (by assumption) ?_)
    | (refine wf_of_fst (by assumption) ?_)
    | (refine wf_of_opt (by assumption) ?_)
    | intro _
    | split
    | dsimp only

theorem wf_walkRequests {s : State} {keys : List Nat} (hs : Memory.wf s.mem = true) : Memory.wf (walkRequests s keys).mem = true := by
  unfold walkRequests
  repeat' first
    | assumption
    | with_reducible apply wf_foldl
    | with_reducible exact optWf_none
    | with_reducible apply optWf_some
    | with_reducible apply optWf_map
    | with_reducible apply wf_getD
    | with_reducible apply outWf_next
    | with_reducible apply wf_readCheck
    | with_reducible apply wf_countInTurn
    | (refine wf_of_pair (by assumption) ?_)
    | (refine wf_of_triple (by assumption) ?_)
    | (refine wf_of_fst (by assumption) ?_)
    | (refine wf_of_opt (by assumption) ?_)
    | intro _
    | split
    | dsimp only

theorem wf_walk {s : State} {quad part va : Nat} (hs : Memory.wf s.mem = true) : Memory.wf (walk s quad part va).2.mem = true := by
  unfold walk
  repeat' first
    | assumption
    | with_reducible apply wf_foldl
    | with_reducible exact optWf_none
    | with_reducible apply optWf_some
    | with_reducible apply optWf_map
    | with_reducible apply wf_getD
    | with_reducible apply outWf_next
    | with_reducible apply wf_State_setQuad
    | with_reducible apply wf_holdMove
    | with_reducible apply wf_walkRequests
    | (refine wf_of_pair (by assumption) ?_)
    | (refine wf_of_triple (by assumption) ?_)
    | (refine wf_of_fst (by assumption) ?_)
    | (refine wf_of_opt (by assumption) ?_)
    | intro _
    | split
    | dsimp only

theorem wf_lookup {s : State} {quad part va : Nat} (hs : Memory.wf s.mem = true) : Memory.wf (lookup s quad part va).2.mem = true := by
  unfold lookup
  repeat' first
    | assumption
    | with_reducible apply wf_foldl
    | with_reducible exact optWf_none
    | with_reducible apply optWf_some
    | with_reducible apply optWf_map
    | with_reducible apply wf_getD
    | with_reducible apply outWf_next
    | with_reducible apply wf_State_setQuad
    | with_reducible apply wf_walk
    | (refine wf_of_pair (by assumption) ?_)
    | (refine wf_of_triple (by assumption) ?_)
    | (refine wf_of_fst (by assumption) ?_)
    | (refine wf_of_opt (by assumption) ?_)
    | intro _
    | split
    | dsimp only

theorem wf_lookupNoFill {s : State} {quad part va : Nat} (hs : Memory.wf s.mem = true) : Memory.wf (lookupNoFill s quad part va).2.mem = true := by
  unfold lookupNoFill
  repeat' first
    | assumption
    | with_reducible apply wf_foldl
    | with_reducible exact optWf_none
    | with_reducible apply optWf_some
    | with_reducible apply optWf_map
    | with_reducible apply wf_getD
    | with_reducible apply outWf_next
    | with_reducible apply wf_walk
    | (refine wf_of_pair (by assumption) ?_)
    | (refine wf_of_triple (by assumption) ?_)
    | (refine wf_of_fst (by assumption) ?_)
    | (refine wf_of_opt (by assumption) ?_)
    | intro _
    | split
    | dsimp only

theorem wf_translate {s : State} {quad part : Nat} {nd : Need} {va : Nat} (hs : Memory.wf s.mem = true) : Memory.wf (translate s quad part nd va).2.mem = true := by
  unfold translate
  repeat' first
    | assumption
    | with_reducible apply wf_foldl
    | with_reducible exact optWf_none
    | with_reducible apply optWf_some
    | with_reducible apply optWf_map
    | with_reducible apply wf_getD
    | with_reducible apply outWf_next
    | with_reducible apply wf_lookup
    | with_reducible apply wf_lookupNoFill
    | (refine wf_of_pair (by assumption) ?_)
    | (refine wf_of_triple (by assumption) ?_)
    | (refine wf_of_fst (by assumption) ?_)
    | (refine wf_of_opt (by assumption) ?_)
    | intro _
    | split
    | dsimp only

theorem wf_fetchBytes {part quad : Nat} {va : Nat} {v1 : Nat} {v2 : State} (hv2 : Memory.wf v2.mem = true) : Memory.wf (fetchBytes part quad va v1 v2).2.mem = true := by
  induction v1 generalizing part quad va v2 with
  | zero =>
    rw [fetchBytes]
    repeat' first
      | assumption
      | with_reducible apply wf_foldl
      | with_reducible exact optWf_none
      | with_reducible apply optWf_some
      | with_reducible apply optWf_map
      | with_reducible apply wf_getD
      | with_reducible apply outWf_next
      | with_reducible apply wf_readCheck
      | with_reducible apply wf_holdMove
      | with_reducible apply wf_translate
      | (refine wf_of_pair (by assumption) ?_)
      | (refine wf_of_triple (by assumption) ?_)
      | (refine wf_of_fst (by assumption) ?_)
      | (refine wf_of_opt (by assumption) ?_)
      | intro _
      | split
      | dsimp only
  | succ n ih =>
    rw [fetchBytes]
    repeat' first
      | assumption
      | with_reducible apply wf_foldl
      | with_reducible exact optWf_none
      | with_reducible apply optWf_some
      | with_reducible apply optWf_map
      | with_reducible apply wf_getD
      | with_reducible apply outWf_next
      | with_reducible apply ih
      | with_reducible apply wf_readCheck
      | with_reducible apply wf_holdMove
      | with_reducible apply wf_translate
      | (refine wf_of_pair (by assumption) ?_)
      | (refine wf_of_triple (by assumption) ?_)
      | (refine wf_of_fst (by assumption) ?_)
      | (refine wf_of_opt (by assumption) ?_)
      | intro _
      | split
      | dsimp only


theorem wf_loadImage {kernel : Bool} {core part va : Nat} {s : State} (hs : Memory.wf s.mem = true) : Memory.wf (loadImage kernel core part va s).2.mem = true := by
  unfold loadImage
  repeat' first
    | assumption
    | with_reducible apply wf_foldl
    | with_reducible exact optWf_none
    | with_reducible apply optWf_some
    | with_reducible apply optWf_map
    | with_reducible apply wf_getD
    | with_reducible apply outWf_next
    | with_reducible apply wf_fetchBytes
    | (refine wf_of_pair (by assumption) ?_)
    | (refine wf_of_triple (by assumption) ?_)
    | (refine wf_of_fst (by assumption) ?_)
    | (refine wf_of_opt (by assumption) ?_)
    | intro _
    | split
    | dsimp only

theorem wf_loadBlock {core part va : Nat} {s : State} (hs : Memory.wf s.mem = true) : Memory.wf (loadBlock core part va s).2.mem = true := by
  unfold loadBlock
  repeat' first
    | assumption
    | with_reducible apply wf_foldl
    | with_reducible exact optWf_none
    | with_reducible apply optWf_some
    | with_reducible apply optWf_map
    | with_reducible apply wf_getD
    | with_reducible apply outWf_next
    | with_reducible apply wf_State_setCore
    | with_reducible apply wf_loadImage
    | (refine wf_of_pair (by assumption) ?_)
    | (refine wf_of_triple (by assumption) ?_)
    | (refine wf_of_fst (by assumption) ?_)
    | (refine wf_of_opt (by assumption) ?_)
    | intro _
    | split
    | dsimp only

theorem wf_putPhase {s : State} {c t : Nat} {ph : Phase} (hs : Memory.wf s.mem = true) : Memory.wf (putPhase s c t ph).mem = true := by
  unfold putPhase
  repeat' first
    | assumption
    | with_reducible apply wf_foldl
    | with_reducible exact optWf_none
    | with_reducible apply optWf_some
    | with_reducible apply optWf_map
    | with_reducible apply wf_getD
    | with_reducible apply outWf_next
    | with_reducible apply wf_State_setTask
    | (refine wf_of_pair (by assumption) ?_)
    | (refine wf_of_triple (by assumption) ?_)
    | (refine wf_of_fst (by assumption) ?_)
    | (refine wf_of_opt (by assumption) ?_)
    | intro _
    | split
    | dsimp only

theorem wf_fired {s : State} {f : Foc} {ph : Phase} (hs : Memory.wf s.mem = true) : Memory.wf (fired s f ph).mem = true := by
  unfold fired
  repeat' first
    | assumption
    | with_reducible apply wf_foldl
    | with_reducible exact optWf_none
    | with_reducible apply optWf_some
    | with_reducible apply optWf_map
    | with_reducible apply wf_getD
    | with_reducible apply outWf_next
    | with_reducible apply wf_State_setCore
    | (refine wf_of_pair (by assumption) ?_)
    | (refine wf_of_triple (by assumption) ?_)
    | (refine wf_of_fst (by assumption) ?_)
    | (refine wf_of_opt (by assumption) ?_)
    | intro _
    | split
    | dsimp only

theorem wf_sendPending {s : State} {fn vec : Nat} (hs : Memory.wf s.mem = true) : Memory.wf (sendPending s fn vec).mem = true := by
  unfold sendPending
  repeat' first
    | assumption
    | with_reducible apply wf_foldl
    | with_reducible exact optWf_none
    | with_reducible apply optWf_some
    | with_reducible apply optWf_map
    | with_reducible apply wf_getD
    | with_reducible apply outWf_next
    | with_reducible apply wf_State_setFn
    | (refine wf_of_pair (by assumption) ?_)
    | (refine wf_of_triple (by assumption) ?_)
    | (refine wf_of_fst (by assumption) ?_)
    | (refine wf_of_opt (by assumption) ?_)
    | intro _
    | split
    | dsimp only

theorem wf_sendMsix {s : State} {fn vec : Nat} (hs : Memory.wf s.mem = true) : Memory.wf (sendMsix s fn vec).mem = true := by
  unfold sendMsix
  repeat' first
    | assumption
    | with_reducible apply wf_foldl
    | with_reducible exact optWf_none
    | with_reducible apply optWf_some
    | with_reducible apply optWf_map
    | with_reducible apply wf_getD
    | with_reducible apply outWf_next
    | with_reducible apply wf_State_setFn
    | with_reducible apply wf_sendPending
    | (refine wf_of_pair (by assumption) ?_)
    | (refine wf_of_triple (by assumption) ?_)
    | (refine wf_of_fst (by assumption) ?_)
    | (refine wf_of_opt (by assumption) ?_)
    | intro _
    | split
    | dsimp only

theorem wf_resolve {s : State} {part va : Nat} (hs : Memory.wf s.mem = true) : Memory.wf (resolve s part va).2.mem = true := by
  unfold resolve
  repeat' first
    | assumption
    | with_reducible apply wf_foldl
    | with_reducible exact optWf_none
    | with_reducible apply optWf_some
    | with_reducible apply optWf_map
    | with_reducible apply wf_getD
    | with_reducible apply outWf_next
    | with_reducible apply wf_holdMove
    | with_reducible apply wf_walkRequests
    | (refine wf_of_pair (by assumption) ?_)
    | (refine wf_of_triple (by assumption) ?_)
    | (refine wf_of_fst (by assumption) ?_)
    | (refine wf_of_opt (by assumption) ?_)
    | intro _
    | split
    | dsimp only

theorem wf_resolveFor {s : State} {part : Nat} {nd : Need} {va : Nat} (hs : Memory.wf s.mem = true) : Memory.wf (resolveFor s part nd va).2.mem = true := by
  unfold resolveFor
  repeat' first
    | assumption
    | with_reducible apply wf_foldl
    | with_reducible exact optWf_none
    | with_reducible apply optWf_some
    | with_reducible apply optWf_map
    | with_reducible apply wf_getD
    | with_reducible apply outWf_next
    | with_reducible apply wf_resolve
    | (refine wf_of_pair (by assumption) ?_)
    | (refine wf_of_triple (by assumption) ?_)
    | (refine wf_of_fst (by assumption) ?_)
    | (refine wf_of_opt (by assumption) ?_)
    | intro _
    | split
    | dsimp only

theorem wf_putStatus {s : State} {w : StatusWrite} (hs : Memory.wf s.mem = true) : Memory.wf (putStatus s w).mem = true := by
  unfold putStatus
  repeat' first
    | assumption
    | with_reducible apply wf_foldl
    | with_reducible exact optWf_none
    | with_reducible apply optWf_some
    | with_reducible apply optWf_map
    | with_reducible apply wf_getD
    | with_reducible apply outWf_next
    | with_reducible apply wf_writeView
    | with_reducible apply wf_holdMove
    | with_reducible apply wf_countDirect
    | with_reducible apply wf_sendMsix
    | with_reducible apply wf_resolveFor
    | (refine wf_of_pair (by assumption) ?_)
    | (refine wf_of_triple (by assumption) ?_)
    | (refine wf_of_fst (by assumption) ?_)
    | (refine wf_of_opt (by assumption) ?_)
    | intro _
    | split
    | dsimp only

theorem wf_statusMove {n : Nat} {s : State} (hs : Memory.wf s.mem = true) : Memory.wf (statusMove n s).mem = true := by
  unfold statusMove
  repeat' first
    | assumption
    | with_reducible apply wf_foldl
    | with_reducible exact optWf_none
    | with_reducible apply optWf_some
    | with_reducible apply optWf_map
    | with_reducible apply wf_getD
    | with_reducible apply outWf_next
    | with_reducible apply wf_putStatus
    | (refine wf_of_pair (by assumption) ?_)
    | (refine wf_of_triple (by assumption) ?_)
    | (refine wf_of_fst (by assumption) ?_)
    | (refine wf_of_opt (by assumption) ?_)
    | intro _
    | split
    | dsimp only

theorem wf_writeStatus {s : State} {j : Job} {code fail freclo addr : Nat} (hs : Memory.wf s.mem = true) : Memory.wf (writeStatus s j code fail freclo addr).mem = true := by
  unfold writeStatus
  repeat' first
    | assumption
    | with_reducible apply wf_foldl
    | with_reducible exact optWf_none
    | with_reducible apply optWf_some
    | with_reducible apply optWf_map
    | with_reducible apply wf_getD
    | with_reducible apply outWf_next
    | with_reducible apply wf_tryPart
    | with_reducible apply wf_statusMove
    | (refine wf_of_pair (by assumption) ?_)
    | (refine wf_of_triple (by assumption) ?_)
    | (refine wf_of_fst (by assumption) ?_)
    | (refine wf_of_opt (by assumption) ?_)
    | intro _
    | split
    | dsimp only

theorem wf_freeEnded {s : State} {job : Job} (hs : Memory.wf s.mem = true) : Memory.wf (freeEnded s job).mem = true := by
  unfold freeEnded
  repeat' first
    | assumption
    | with_reducible apply wf_foldl
    | with_reducible exact optWf_none
    | with_reducible apply optWf_some
    | with_reducible apply optWf_map
    | with_reducible apply wf_getD
    | with_reducible apply outWf_next
    | with_reducible apply wf_State_setCore
    | (refine wf_of_pair (by assumption) ?_)
    | (refine wf_of_triple (by assumption) ?_)
    | (refine wf_of_fst (by assumption) ?_)
    | (refine wf_of_opt (by assumption) ?_)
    | intro _
    | split
    | dsimp only

theorem wf_releaseHeld {s : State} {j : Nat} (hs : Memory.wf s.mem = true) : Memory.wf (releaseHeld s j).mem = true := by
  unfold releaseHeld
  repeat' first
    | assumption
    | with_reducible apply wf_foldl
    | with_reducible exact optWf_none
    | with_reducible apply optWf_some
    | with_reducible apply optWf_map
    | with_reducible apply wf_getD
    | with_reducible apply outWf_next
    | (refine wf_of_pair (by assumption) ?_)
    | (refine wf_of_triple (by assumption) ?_)
    | (refine wf_of_fst (by assumption) ?_)
    | (refine wf_of_opt (by assumption) ?_)
    | intro _
    | split
    | dsimp only

theorem wf_cancelRiders {s : State} {p : Nat → Rider → Bool} (hs : Memory.wf s.mem = true) : Memory.wf (cancelRiders s p).mem = true := by
  unfold cancelRiders
  repeat' first
    | assumption
    | with_reducible apply wf_foldl
    | with_reducible exact optWf_none
    | with_reducible apply optWf_some
    | with_reducible apply optWf_map
    | with_reducible apply wf_getD
    | with_reducible apply outWf_next
    | (refine wf_of_pair (by assumption) ?_)
    | (refine wf_of_triple (by assumption) ?_)
    | (refine wf_of_fst (by assumption) ?_)
    | (refine wf_of_opt (by assumption) ?_)
    | intro _
    | split
    | dsimp only

theorem wf_returnLeave {s : State} {die weight : Nat} (hs : Memory.wf s.mem = true) : Memory.wf (returnLeave s die weight).mem = true := by
  unfold returnLeave
  repeat' first
    | assumption
    | with_reducible apply wf_foldl
    | with_reducible exact optWf_none
    | with_reducible apply optWf_some
    | with_reducible apply optWf_map
    | with_reducible apply wf_getD
    | with_reducible apply outWf_next
    | with_reducible apply wf_State_setDie
    | (refine wf_of_pair (by assumption) ?_)
    | (refine wf_of_triple (by assumption) ?_)
    | (refine wf_of_fst (by assumption) ?_)
    | (refine wf_of_opt (by assumption) ?_)
    | intro _
    | split
    | dsimp only

theorem wf_dropLeaves {s : State} {c t : Nat} (hs : Memory.wf s.mem = true) : Memory.wf (dropLeaves s c t).mem = true := by
  unfold dropLeaves
  repeat' first
    | assumption
    | with_reducible apply wf_foldl
    | with_reducible exact optWf_none
    | with_reducible apply optWf_some
    | with_reducible apply optWf_map
    | with_reducible apply wf_getD
    | with_reducible apply outWf_next
    | with_reducible apply wf_State_setDie
    | (refine wf_of_pair (by assumption) ?_)
    | (refine wf_of_triple (by assumption) ?_)
    | (refine wf_of_fst (by assumption) ?_)
    | (refine wf_of_opt (by assumption) ?_)
    | intro _
    | split
    | dsimp only

theorem wf_giveBack {s : State} {c t : Nat} {task : Task} (hs : Memory.wf s.mem = true) : Memory.wf (giveBack s c t task).mem = true := by
  unfold giveBack
  repeat' first
    | assumption
    | with_reducible apply wf_foldl
    | with_reducible exact optWf_none
    | with_reducible apply optWf_some
    | with_reducible apply optWf_map
    | with_reducible apply wf_getD
    | with_reducible apply outWf_next
    | with_reducible apply wf_returnLeave
    | with_reducible apply wf_dropLeaves
    | (refine wf_of_pair (by assumption) ?_)
    | (refine wf_of_triple (by assumption) ?_)
    | (refine wf_of_fst (by assumption) ?_)
    | (refine wf_of_opt (by assumption) ?_)
    | intro _
    | split
    | dsimp only

theorem wf_dropTasks {s : State} {j : Nat} (hs : Memory.wf s.mem = true) : Memory.wf (dropTasks s j).mem = true := by
  unfold dropTasks
  repeat' first
    | assumption
    | with_reducible apply wf_foldl
    | with_reducible exact optWf_none
    | with_reducible apply optWf_some
    | with_reducible apply optWf_map
    | with_reducible apply wf_getD
    | with_reducible apply outWf_next
    | with_reducible apply wf_giveBack
    | (refine wf_of_pair (by assumption) ?_)
    | (refine wf_of_triple (by assumption) ?_)
    | (refine wf_of_fst (by assumption) ?_)
    | (refine wf_of_opt (by assumption) ?_)
    | intro _
    | split
    | dsimp only

theorem wf_letDepositsGo {s : State} {j : Nat} (hs : Memory.wf s.mem = true) : Memory.wf (letDepositsGo s j).mem = true := by
  unfold letDepositsGo
  repeat' first
    | assumption
    | with_reducible apply wf_foldl
    | with_reducible exact optWf_none
    | with_reducible apply optWf_some
    | with_reducible apply optWf_map
    | with_reducible apply wf_getD
    | with_reducible apply outWf_next
    | (refine wf_of_pair (by assumption) ?_)
    | (refine wf_of_triple (by assumption) ?_)
    | (refine wf_of_fst (by assumption) ?_)
    | (refine wf_of_opt (by assumption) ?_)
    | intro _
    | split
    | dsimp only

theorem wf_dropGang {s : State} {j : Nat} {job : Job} (hs : Memory.wf s.mem = true) : Memory.wf (dropGang s j job).mem = true := by
  unfold dropGang
  repeat' first
    | assumption
    | with_reducible apply wf_foldl
    | with_reducible exact optWf_none
    | with_reducible apply optWf_some
    | with_reducible apply optWf_map
    | with_reducible apply wf_getD
    | with_reducible apply outWf_next
    | with_reducible apply wf_freeEnded
    | with_reducible apply wf_releaseHeld
    | with_reducible apply wf_cancelRiders
    | with_reducible apply wf_returnLeave
    | with_reducible apply wf_dropTasks
    | with_reducible apply wf_letDepositsGo
    | (refine wf_of_pair (by assumption) ?_)
    | (refine wf_of_triple (by assumption) ?_)
    | (refine wf_of_fst (by assumption) ?_)
    | (refine wf_of_opt (by assumption) ?_)
    | intro _
    | split
    | dsimp only

theorem wf_endGang {s : State} {j : Nat} {code freclo addr : Nat} (hs : Memory.wf s.mem = true) : Memory.wf (endGang s j code freclo addr).mem = true := by
  unfold endGang
  repeat' first
    | assumption
    | with_reducible apply wf_foldl
    | with_reducible exact optWf_none
    | with_reducible apply optWf_some
    | with_reducible apply optWf_map
    | with_reducible apply wf_getD
    | with_reducible apply outWf_next
    | with_reducible apply wf_writeStatus
    | with_reducible apply wf_dropGang
    | (refine wf_of_pair (by assumption) ?_)
    | (refine wf_of_triple (by assumption) ?_)
    | (refine wf_of_fst (by assumption) ?_)
    | (refine wf_of_opt (by assumption) ?_)
    | intro _
    | split
    | dsimp only

theorem wf_takeFault {s : State} {c t : Nat} {x : FrecIn} {inHandler : Bool} (hs : Memory.wf s.mem = true) : Memory.wf (takeFault s c t x inHandler).mem = true := by
  unfold takeFault
  repeat' first
    | assumption
    | with_reducible apply wf_foldl
    | with_reducible exact optWf_none
    | with_reducible apply optWf_some
    | with_reducible apply optWf_map
    | with_reducible apply wf_getD
    | with_reducible apply outWf_next
    | with_reducible apply wf_State_setCore
    | with_reducible apply wf_State_setTask
    | with_reducible apply wf_endGang
    | (refine wf_of_pair (by assumption) ?_)
    | (refine wf_of_triple (by assumption) ?_)
    | (refine wf_of_fst (by assumption) ?_)
    | (refine wf_of_opt (by assumption) ?_)
    | intro _
    | split
    | dsimp only

theorem wf_returnFrom {s : State} {c t : Nat} {restart : Bool} (hs : Memory.wf s.mem = true) : Memory.wf (returnFrom s c t restart).mem = true := by
  unfold returnFrom
  repeat' first
    | assumption
    | with_reducible apply wf_foldl
    | with_reducible exact optWf_none
    | with_reducible apply optWf_some
    | with_reducible apply optWf_map
    | with_reducible apply wf_getD
    | with_reducible apply outWf_next
    | with_reducible apply wf_State_setCore
    | with_reducible apply wf_State_setTask
    | (refine wf_of_pair (by assumption) ?_)
    | (refine wf_of_triple (by assumption) ?_)
    | (refine wf_of_fst (by assumption) ?_)
    | (refine wf_of_opt (by assumption) ?_)
    | intro _
    | split
    | dsimp only

theorem wf_nodeFault {s : State} {f : Foc} {i : FaultInfo} (hs : Memory.wf s.mem = true) : Memory.wf (nodeFault s f i).mem = true := by
  unfold nodeFault
  repeat' first
    | assumption
    | with_reducible apply wf_foldl
    | with_reducible exact optWf_none
    | with_reducible apply optWf_some
    | with_reducible apply optWf_map
    | with_reducible apply wf_getD
    | with_reducible apply outWf_next
    | with_reducible apply wf_takeFault
    | (refine wf_of_pair (by assumption) ?_)
    | (refine wf_of_triple (by assumption) ?_)
    | (refine wf_of_fst (by assumption) ?_)
    | (refine wf_of_opt (by assumption) ?_)
    | intro _
    | split
    | dsimp only

theorem wf_forgetL1 {s : State} {c : Nat} (hs : Memory.wf s.mem = true) : Memory.wf (forgetL1 s c).mem = true := by
  unfold forgetL1
  repeat' first
    | assumption
    | with_reducible apply wf_foldl
    | with_reducible exact optWf_none
    | with_reducible apply optWf_some
    | with_reducible apply optWf_map
    | with_reducible apply wf_getD
    | with_reducible apply outWf_next
    | with_reducible apply wf_State_setCore
    | (refine wf_of_pair (by assumption) ?_)
    | (refine wf_of_triple (by assumption) ?_)
    | (refine wf_of_fst (by assumption) ?_)
    | (refine wf_of_opt (by assumption) ?_)
    | intro _
    | split
    | dsimp only

theorem wf_acquireAt {s : State} {c scope : Nat} (hs : Memory.wf s.mem = true) : Memory.wf (acquireAt s c scope).mem = true := by
  unfold acquireAt
  repeat' first
    | assumption
    | with_reducible apply wf_foldl
    | with_reducible exact optWf_none
    | with_reducible apply optWf_some
    | with_reducible apply optWf_map
    | with_reducible apply wf_getD
    | with_reducible apply outWf_next
    | with_reducible apply wf_forgetL1
    | (refine wf_of_pair (by assumption) ?_)
    | (refine wf_of_triple (by assumption) ?_)
    | (refine wf_of_fst (by assumption) ?_)
    | (refine wf_of_opt (by assumption) ?_)
    | intro _
    | split
    | dsimp only

theorem wf_takeMessage {s : State} {c t : Nat} (hs : Memory.wf s.mem = true) : Memory.wf (takeMessage s c t).mem = true := by
  unfold takeMessage
  repeat' first
    | assumption
    | with_reducible apply wf_foldl
    | with_reducible exact optWf_none
    | with_reducible apply optWf_some
    | with_reducible apply optWf_map
    | with_reducible apply wf_getD
    | with_reducible apply outWf_next
    | with_reducible apply wf_State_setCore
    | with_reducible apply wf_State_setTask
    | with_reducible apply wf_acquireAt
    | (refine wf_of_pair (by assumption) ?_)
    | (refine wf_of_triple (by assumption) ?_)
    | (refine wf_of_fst (by assumption) ?_)
    | (refine wf_of_opt (by assumption) ?_)
    | intro _
    | split
    | dsimp only

theorem wf_startPhase {s : State} {c t : Nat} {task : Task} {addr : Nat} {h : BitVec 128} {ws : List Word64} (hs : Memory.wf s.mem = true) : Memory.wf (startPhase s c t task addr h ws).mem = true := by
  unfold startPhase
  repeat' first
    | assumption
    | with_reducible apply wf_foldl
    | with_reducible exact optWf_none
    | with_reducible apply optWf_some
    | with_reducible apply optWf_map
    | with_reducible apply wf_getD
    | with_reducible apply outWf_next
    | with_reducible apply wf_State_setCore
    | with_reducible apply wf_State_setTask
    | (refine wf_of_pair (by assumption) ?_)
    | (refine wf_of_triple (by assumption) ?_)
    | (refine wf_of_fst (by assumption) ?_)
    | (refine wf_of_opt (by assumption) ?_)
    | intro _
    | split
    | dsimp only

theorem wf_giveFabric {s : State} {c t : Nat} (hs : Memory.wf s.mem = true) : Memory.wf (giveFabric s c t).mem = true := by
  unfold giveFabric
  repeat' first
    | assumption
    | with_reducible apply wf_foldl
    | with_reducible exact optWf_none
    | with_reducible apply optWf_some
    | with_reducible apply optWf_map
    | with_reducible apply wf_getD
    | with_reducible apply outWf_next
    | with_reducible apply wf_State_setCore
    | with_reducible apply wf_State_setTask
    | with_reducible apply wf_loadBlock
    | with_reducible apply wf_takeFault
    | with_reducible apply wf_startPhase
    | (refine wf_of_pair (by assumption) ?_)
    | (refine wf_of_triple (by assumption) ?_)
    | (refine wf_of_fst (by assumption) ?_)
    | (refine wf_of_opt (by assumption) ?_)
    | intro _
    | split
    | dsimp only

theorem wf_pickTask {v1 : Nat} {v2 : State} {v3 : Nat} (hv2 : Memory.wf v2.mem = true) : Memory.wf (pickTask v1 v2 v3).mem = true := by
  induction v1 generalizing v2 v3 with
  | zero =>
    rw [pickTask]
    repeat' first
      | assumption
      | with_reducible apply wf_foldl
      | with_reducible exact optWf_none
      | with_reducible apply optWf_some
      | with_reducible apply optWf_map
      | with_reducible apply wf_getD
      | with_reducible apply outWf_next
      | with_reducible apply wf_State_setCore
      | with_reducible apply wf_takeMessage
      | with_reducible apply wf_giveFabric
      | (refine wf_of_pair (by assumption) ?_)
      | (refine wf_of_triple (by assumption) ?_)
      | (refine wf_of_fst (by assumption) ?_)
      | (refine wf_of_opt (by assumption) ?_)
      | intro _
      | split
      | dsimp only
  | succ n ih =>
    rw [pickTask]
    repeat' first
      | assumption
      | with_reducible apply wf_foldl
      | with_reducible exact optWf_none
      | with_reducible apply optWf_some
      | with_reducible apply optWf_map
      | with_reducible apply wf_getD
      | with_reducible apply outWf_next
      | with_reducible apply ih
      | with_reducible apply wf_State_setCore
      | with_reducible apply wf_takeMessage
      | with_reducible apply wf_giveFabric
      | (refine wf_of_pair (by assumption) ?_)
      | (refine wf_of_triple (by assumption) ?_)
      | (refine wf_of_fst (by assumption) ?_)
      | (refine wf_of_opt (by assumption) ?_)
      | intro _
      | split
      | dsimp only


theorem wf_pick {s : State} {c : Nat} (hs : Memory.wf s.mem = true) : Memory.wf (pick s c).mem = true := by
  unfold pick
  repeat' first
    | assumption
    | with_reducible apply wf_foldl
    | with_reducible exact optWf_none
    | with_reducible apply optWf_some
    | with_reducible apply optWf_map
    | with_reducible apply wf_getD
    | with_reducible apply outWf_next
    | with_reducible apply wf_tryPart
    | with_reducible apply wf_pickTask
    | (refine wf_of_pair (by assumption) ?_)
    | (refine wf_of_triple (by assumption) ?_)
    | (refine wf_of_fst (by assumption) ?_)
    | (refine wf_of_opt (by assumption) ?_)
    | intro _
    | split
    | dsimp only

theorem wf_raiseFlags {s : State} {c t : Nat} {fl : Flags} (hs : Memory.wf s.mem = true) : Memory.wf (raiseFlags s c t fl).mem = true := by
  unfold raiseFlags
  repeat' first
    | assumption
    | with_reducible apply wf_foldl
    | with_reducible exact optWf_none
    | with_reducible apply optWf_some
    | with_reducible apply optWf_map
    | with_reducible apply wf_getD
    | with_reducible apply outWf_next
    | with_reducible apply wf_State_setTask
    | (refine wf_of_pair (by assumption) ?_)
    | (refine wf_of_triple (by assumption) ?_)
    | (refine wf_of_fst (by assumption) ?_)
    | (refine wf_of_opt (by assumption) ?_)
    | intro _
    | split
    | dsimp only

theorem outWf_fireStage {op : Nat} {w : StageW} {g : StageW → StageIn → StageOut} {s : State} (hs : Memory.wf s.mem = true) : outWf (fireStage op w g s) := by
  unfold fireStage
  repeat' first
    | assumption
    | with_reducible apply wf_foldl
    | with_reducible exact optWf_none
    | with_reducible apply optWf_some
    | with_reducible apply optWf_map
    | with_reducible apply wf_getD
    | with_reducible apply outWf_next
    | with_reducible apply wf_fired
    | with_reducible apply wf_nodeFault
    | with_reducible apply wf_raiseFlags
    | (refine wf_of_pair (by assumption) ?_)
    | (refine wf_of_triple (by assumption) ?_)
    | (refine wf_of_fst (by assumption) ?_)
    | (refine wf_of_opt (by assumption) ?_)
    | intro _
    | split
    | dsimp only

theorem outWf_fireCp {ports : Foc → List Nat} {g : Foc → List (Nat × Token) → Phase → Phase} {s : State} (hs : Memory.wf s.mem = true) : outWf (fireCp ports g s) := by
  unfold fireCp
  repeat' first
    | assumption
    | with_reducible apply wf_foldl
    | with_reducible exact optWf_none
    | with_reducible apply optWf_some
    | with_reducible apply optWf_map
    | with_reducible apply wf_getD
    | with_reducible apply outWf_next
    | with_reducible apply wf_fired
    | (refine wf_of_pair (by assumption) ?_)
    | (refine wf_of_triple (by assumption) ?_)
    | (refine wf_of_fst (by assumption) ?_)
    | (refine wf_of_opt (by assumption) ?_)
    | intro _
    | split
    | dsimp only

theorem outWf_fireReorder {op : Nat} {w : ReW} {s : State} (hs : Memory.wf s.mem = true) : outWf (fireReorder op w s) := by
  unfold fireReorder
  repeat' first
    | assumption
    | with_reducible apply wf_foldl
    | with_reducible exact optWf_none
    | with_reducible apply optWf_some
    | with_reducible apply optWf_map
    | with_reducible apply wf_getD
    | with_reducible apply outWf_next
    | with_reducible apply wf_fired
    | (refine wf_of_pair (by assumption) ?_)
    | (refine wf_of_triple (by assumption) ?_)
    | (refine wf_of_fst (by assumption) ?_)
    | (refine wf_of_opt (by assumption) ?_)
    | intro _
    | split
    | dsimp only

theorem outWf_fireExit {mode : Nat} {w : CpW} {s : State} (hs : Memory.wf s.mem = true) : outWf (fireExit mode w s) := by
  unfold fireExit
  repeat' first
    | assumption
    | with_reducible apply wf_foldl
    | with_reducible exact optWf_none
    | with_reducible apply optWf_some
    | with_reducible apply optWf_map
    | with_reducible apply wf_getD
    | with_reducible apply outWf_next
    | with_reducible apply wf_fired
    | with_reducible apply wf_nodeFault
    | (refine wf_of_pair (by assumption) ?_)
    | (refine wf_of_triple (by assumption) ?_)
    | (refine wf_of_fst (by assumption) ?_)
    | (refine wf_of_opt (by assumption) ?_)
    | intro _
    | split
    | dsimp only

theorem outWf_fireCodec {unpack : Bool} {w : StageW} {s : State} (hs : Memory.wf s.mem = true) : outWf (fireCodec unpack w s) := by
  unfold fireCodec
  repeat' first
    | assumption
    | with_reducible apply wf_foldl
    | with_reducible exact optWf_none
    | with_reducible apply optWf_some
    | with_reducible apply optWf_map
    | with_reducible apply wf_getD
    | with_reducible apply outWf_next
    | with_reducible apply wf_fired
    | (refine wf_of_pair (by assumption) ?_)
    | (refine wf_of_triple (by assumption) ?_)
    | (refine wf_of_fst (by assumption) ?_)
    | (refine wf_of_opt (by assumption) ?_)
    | intro _
    | split
    | dsimp only

theorem wf_State_setPort {s : State} {p : Nat} {x : Port} (hs : Memory.wf s.mem = true) : Memory.wf (State.setPort s p x).mem = true := by
  unfold State.setPort
  repeat' first
    | assumption
    | with_reducible apply wf_foldl
    | with_reducible exact optWf_none
    | with_reducible apply optWf_some
    | with_reducible apply optWf_map
    | with_reducible apply wf_getD
    | with_reducible apply outWf_next
    | (refine wf_of_pair (by assumption) ?_)
    | (refine wf_of_triple (by assumption) ?_)
    | (refine wf_of_fst (by assumption) ?_)
    | (refine wf_of_opt (by assumption) ?_)
    | intro _
    | split
    | dsimp only

theorem wf_idleFlitMove {p : Nat} {s : State} (hs : Memory.wf s.mem = true) : Memory.wf (idleFlitMove p s).mem = true := by
  unfold idleFlitMove
  repeat' first
    | assumption
    | with_reducible apply wf_foldl
    | with_reducible exact optWf_none
    | with_reducible apply optWf_some
    | with_reducible apply optWf_map
    | with_reducible apply wf_getD
    | with_reducible apply outWf_next
    | with_reducible apply wf_State_setPort
    | (refine wf_of_pair (by assumption) ?_)
    | (refine wf_of_triple (by assumption) ?_)
    | (refine wf_of_fst (by assumption) ?_)
    | (refine wf_of_opt (by assumption) ?_)
    | intro _
    | split
    | dsimp only

theorem wf_podSend {s : State} {pkg pa : Nat} (hs : Memory.wf s.mem = true) : Memory.wf (podSend s pkg pa).mem = true := by
  unfold podSend
  repeat' first
    | assumption
    | with_reducible apply wf_foldl
    | with_reducible exact optWf_none
    | with_reducible apply optWf_some
    | with_reducible apply optWf_map
    | with_reducible apply wf_getD
    | with_reducible apply outWf_next
    | with_reducible apply wf_State_setPort
    | (refine wf_of_pair (by assumption) ?_)
    | (refine wf_of_triple (by assumption) ?_)
    | (refine wf_of_fst (by assumption) ?_)
    | (refine wf_of_opt (by assumption) ?_)
    | intro _
    | split
    | dsimp only

theorem wf_podSendKey {s : State} {key : Nat} (hs : Memory.wf s.mem = true) : Memory.wf (podSendKey s key).mem = true := by
  unfold podSendKey
  repeat' first
    | assumption
    | with_reducible apply wf_foldl
    | with_reducible exact optWf_none
    | with_reducible apply optWf_some
    | with_reducible apply optWf_map
    | with_reducible apply wf_getD
    | with_reducible apply outWf_next
    | with_reducible apply wf_podSend
    | (refine wf_of_pair (by assumption) ?_)
    | (refine wf_of_triple (by assumption) ?_)
    | (refine wf_of_fst (by assumption) ?_)
    | (refine wf_of_opt (by assumption) ?_)
    | intro _
    | split
    | dsimp only

theorem wf_receiveFlit {kind p : Nat} {f : Flit} {g : Port → Port} {s : State} (hs : Memory.wf s.mem = true) : Memory.wf (receiveFlit kind p f g s).mem = true := by
  unfold receiveFlit
  repeat' first
    | assumption
    | with_reducible apply wf_foldl
    | with_reducible exact optWf_none
    | with_reducible apply optWf_some
    | with_reducible apply optWf_map
    | with_reducible apply wf_getD
    | with_reducible apply outWf_next
    | with_reducible apply wf_State_setPort
    | (refine wf_of_pair (by assumption) ?_)
    | (refine wf_of_triple (by assumption) ?_)
    | (refine wf_of_fst (by assumption) ?_)
    | (refine wf_of_opt (by assumption) ?_)
    | intro _
    | split
    | dsimp only

theorem wf_moveFences {s : State} {old new : Nat} (hs : Memory.wf s.mem = true) : Memory.wf (moveFences s old new).mem = true := by
  unfold moveFences
  repeat' first
    | assumption
    | with_reducible apply wf_foldl
    | with_reducible exact optWf_none
    | with_reducible apply optWf_some
    | with_reducible apply optWf_map
    | with_reducible apply wf_getD
    | with_reducible apply outWf_next
    | (refine wf_of_pair (by assumption) ?_)
    | (refine wf_of_triple (by assumption) ?_)
    | (refine wf_of_fst (by assumption) ?_)
    | (refine wf_of_opt (by assumption) ?_)
    | intro _
    | split
    | dsimp only

theorem wf_resendDown {s : State} (hs : Memory.wf s.mem = true) : Memory.wf (resendDown s).mem = true := by
  unfold resendDown
  repeat' first
    | assumption
    | with_reducible apply wf_foldl
    | with_reducible exact optWf_none
    | with_reducible apply optWf_some
    | with_reducible apply optWf_map
    | with_reducible apply wf_getD
    | with_reducible apply outWf_next
    | with_reducible apply wf_State_setPort
    | (refine wf_of_pair (by assumption) ?_)
    | (refine wf_of_triple (by assumption) ?_)
    | (refine wf_of_fst (by assumption) ?_)
    | (refine wf_of_opt (by assumption) ?_)
    | intro _
    | split
    | dsimp only

theorem wf_portDown {s : State} {p : Nat} (hs : Memory.wf s.mem = true) : Memory.wf (portDown s p).mem = true := by
  unfold portDown
  repeat' first
    | assumption
    | with_reducible apply wf_foldl
    | with_reducible exact optWf_none
    | with_reducible apply optWf_some
    | with_reducible apply optWf_map
    | with_reducible apply wf_getD
    | with_reducible apply outWf_next
    | with_reducible apply wf_State_setPort
    | with_reducible apply wf_moveFences
    | with_reducible apply wf_resendDown
    | (refine wf_of_pair (by assumption) ?_)
    | (refine wf_of_triple (by assumption) ?_)
    | (refine wf_of_fst (by assumption) ?_)
    | (refine wf_of_opt (by assumption) ?_)
    | intro _
    | split
    | dsimp only

theorem wf_replayRequest {p : Nat} {f : Flit} {s : State} (hs : Memory.wf s.mem = true) : Memory.wf (replayRequest p f s).mem = true := by
  unfold replayRequest
  repeat' first
    | assumption
    | with_reducible apply wf_foldl
    | with_reducible exact optWf_none
    | with_reducible apply optWf_some
    | with_reducible apply optWf_map
    | with_reducible apply wf_getD
    | with_reducible apply outWf_next
    | with_reducible apply wf_receiveFlit
    | with_reducible apply wf_portDown
    | (refine wf_of_pair (by assumption) ?_)
    | (refine wf_of_triple (by assumption) ?_)
    | (refine wf_of_fst (by assumption) ?_)
    | (refine wf_of_opt (by assumption) ?_)
    | intro _
    | split
    | dsimp only

theorem wf_portUpMove {p sw swport : Nat} {s : State} (hs : Memory.wf s.mem = true) : Memory.wf (portUpMove p sw swport s).mem = true := by
  unfold portUpMove
  repeat' first
    | assumption
    | with_reducible apply wf_foldl
    | with_reducible exact optWf_none
    | with_reducible apply optWf_some
    | with_reducible apply optWf_map
    | with_reducible apply wf_getD
    | with_reducible apply outWf_next
    | with_reducible apply wf_State_setPort
    | with_reducible apply wf_resendDown
    | (refine wf_of_pair (by assumption) ?_)
    | (refine wf_of_triple (by assumption) ?_)
    | (refine wf_of_fst (by assumption) ?_)
    | (refine wf_of_opt (by assumption) ?_)
    | intro _
    | split
    | dsimp only

theorem wf_reachMove {p : Nat} {lost : List Nat} {s : State} (hs : Memory.wf s.mem = true) : Memory.wf (reachMove p lost s).mem = true := by
  unfold reachMove
  repeat' first
    | assumption
    | with_reducible apply wf_foldl
    | with_reducible exact optWf_none
    | with_reducible apply optWf_some
    | with_reducible apply optWf_map
    | with_reducible apply wf_getD
    | with_reducible apply outWf_next
    | with_reducible apply wf_State_setPort
    | (refine wf_of_pair (by assumption) ?_)
    | (refine wf_of_triple (by assumption) ?_)
    | (refine wf_of_fst (by assumption) ?_)
    | (refine wf_of_opt (by assumption) ?_)
    | intro _
    | split
    | dsimp only

theorem wf_resolveRun {op : Nat} {w : MemW} {c part : Nat} {s : State} {x : Run} (hs : Memory.wf s.mem = true) : Memory.wf (resolveRun op w c part s x).2.mem = true := by
  unfold resolveRun
  repeat' first
    | assumption
    | with_reducible apply wf_foldl
    | with_reducible exact optWf_none
    | with_reducible apply optWf_some
    | with_reducible apply optWf_map
    | with_reducible apply wf_getD
    | with_reducible apply outWf_next
    | with_reducible apply wf_translate
    | (refine wf_of_pair (by assumption) ?_)
    | (refine wf_of_triple (by assumption) ?_)
    | (refine wf_of_fst (by assumption) ?_)
    | (refine wf_of_opt (by assumption) ?_)
    | intro _
    | split
    | dsimp only

theorem wf_resolveRuns {op : Nat} {w : MemW} {c part : Nat} {s : State} {v1 : List Run} (hs : Memory.wf s.mem = true) : Memory.wf (resolveRuns op w c part s v1).2.mem = true := by
  induction v1 generalizing op w c part s with
  | nil =>
    rw [resolveRuns]
    repeat' first
      | assumption
      | with_reducible apply wf_foldl
      | with_reducible exact optWf_none
      | with_reducible apply optWf_some
      | with_reducible apply optWf_map
      | with_reducible apply wf_getD
      | with_reducible apply outWf_next
      | with_reducible apply wf_resolveRun
      | (refine wf_of_pair (by assumption) ?_)
      | (refine wf_of_triple (by assumption) ?_)
      | (refine wf_of_fst (by assumption) ?_)
      | (refine wf_of_opt (by assumption) ?_)
      | intro _
      | split
      | dsimp only
  | cons x xs ih =>
    rw [resolveRuns]
    repeat' first
      | assumption
      | with_reducible apply wf_foldl
      | with_reducible exact optWf_none
      | with_reducible apply optWf_some
      | with_reducible apply optWf_map
      | with_reducible apply wf_getD
      | with_reducible apply outWf_next
      | with_reducible apply ih
      | with_reducible apply wf_resolveRun
      | (refine wf_of_pair (by assumption) ?_)
      | (refine wf_of_triple (by assumption) ?_)
      | (refine wf_of_fst (by assumption) ?_)
      | (refine wf_of_opt (by assumption) ?_)
      | intro _
      | split
      | dsimp only


theorem wf_checkAccess {op : Nat} {w : MemW} {c part : Nat} {ops : List (Nat × Token)} {s : State} (hs : Memory.wf s.mem = true) : Memory.wf (checkAccess op w c part ops s).2.mem = true := by
  unfold checkAccess
  repeat' first
    | assumption
    | with_reducible apply wf_foldl
    | with_reducible exact optWf_none
    | with_reducible apply optWf_some
    | with_reducible apply optWf_map
    | with_reducible apply wf_getD
    | with_reducible apply outWf_next
    | with_reducible apply wf_resolveRuns
    | (refine wf_of_pair (by assumption) ?_)
    | (refine wf_of_triple (by assumption) ?_)
    | (refine wf_of_fst (by assumption) ?_)
    | (refine wf_of_opt (by assumption) ?_)
    | intro _
    | split
    | dsimp only

theorem outWf_fireMem {op : Nat} {w : MemW} {s : State} (hs : Memory.wf s.mem = true) : outWf (fireMem op w s) := by
  unfold fireMem
  repeat' first
    | assumption
    | with_reducible apply wf_foldl
    | with_reducible exact optWf_none
    | with_reducible apply optWf_some
    | with_reducible apply optWf_map
    | with_reducible apply wf_getD
    | with_reducible apply outWf_next
    | with_reducible apply wf_fired
    | with_reducible apply wf_nodeFault
    | with_reducible apply wf_checkAccess
    | (refine wf_of_pair (by assumption) ?_)
    | (refine wf_of_triple (by assumption) ?_)
    | (refine wf_of_fst (by assumption) ?_)
    | (refine wf_of_opt (by assumption) ?_)
    | intro _
    | split
    | dsimp only

theorem wf_fillLine {s : State} {c loc view : Nat} (hs : Memory.wf s.mem = true) : Memory.wf (fillLine s c loc view).mem = true := by
  unfold fillLine
  repeat' first
    | assumption
    | with_reducible apply wf_foldl
    | with_reducible exact optWf_none
    | with_reducible apply optWf_some
    | with_reducible apply optWf_map
    | with_reducible apply wf_getD
    | with_reducible apply outWf_next
    | with_reducible apply wf_State_setCore
    | (refine wf_of_pair (by assumption) ?_)
    | (refine wf_of_triple (by assumption) ?_)
    | (refine wf_of_fst (by assumption) ?_)
    | (refine wf_of_opt (by assumption) ?_)
    | intro _
    | split
    | dsimp only

theorem wf_readLoc {s : State} {c loc view : Nat} {atCore : Bool} (hs : Memory.wf s.mem = true) : Memory.wf (readLoc s c loc view atCore).2.2.mem = true := by
  unfold readLoc
  repeat' first
    | assumption
    | with_reducible apply wf_foldl
    | with_reducible exact optWf_none
    | with_reducible apply optWf_some
    | with_reducible apply optWf_map
    | with_reducible apply wf_getD
    | with_reducible apply outWf_next
    | with_reducible apply wf_readCheck
    | with_reducible apply wf_fillLine
    | (refine wf_of_pair (by assumption) ?_)
    | (refine wf_of_triple (by assumption) ?_)
    | (refine wf_of_fst (by assumption) ?_)
    | (refine wf_of_opt (by assumption) ?_)
    | intro _
    | split
    | dsimp only

theorem wf_readBytes {s : State} {c key n view : Nat} {atCore : Bool} (hs : Memory.wf s.mem = true) : Memory.wf (readBytes s c key n view atCore).2.2.mem = true := by
  unfold readBytes
  split
  · exact hs
  · dsimp only
    refine wf_foldl_at (fun a : _ × _ × State => a.2.2) (fun a x h => ?_) _ hs
    exact wf_readLoc h

theorem wf_l2FillMove {tag : Option (Nat × Nat × Nat)} {runs : List (Nat × Nat)} {s : State} (hs : Memory.wf s.mem = true) : Memory.wf (l2FillMove tag runs s).mem = true := by
  unfold l2FillMove
  repeat' first
    | assumption
    | with_reducible apply wf_foldl
    | with_reducible exact optWf_none
    | with_reducible apply optWf_some
    | with_reducible apply optWf_map
    | with_reducible apply wf_getD
    | with_reducible apply outWf_next
    | (refine wf_of_pair (by assumption) ?_)
    | (refine wf_of_triple (by assumption) ?_)
    | (refine wf_of_fst (by assumption) ?_)
    | (refine wf_of_opt (by assumption) ?_)
    | intro _
    | split
    | dsimp only

theorem wf_l2DropMove {slice n : Nat} {s : State} (hs : Memory.wf s.mem = true) : Memory.wf (l2DropMove slice n s).mem = true := by
  unfold l2DropMove
  repeat' first
    | assumption
    | with_reducible apply wf_foldl
    | with_reducible exact optWf_none
    | with_reducible apply optWf_some
    | with_reducible apply optWf_map
    | with_reducible apply wf_getD
    | with_reducible apply outWf_next
    | (refine wf_of_pair (by assumption) ?_)
    | (refine wf_of_triple (by assumption) ?_)
    | (refine wf_of_fst (by assumption) ?_)
    | (refine wf_of_opt (by assumption) ?_)
    | intro _
    | split
    | dsimp only

theorem wf_wakeWaits {s : State} {place : Nat × Nat} {key v : Nat} (hs : Memory.wf s.mem = true) : Memory.wf (wakeWaits s place key v).mem = true := by
  unfold wakeWaits
  repeat' first
    | assumption
    | with_reducible apply wf_foldl
    | with_reducible exact optWf_none
    | with_reducible apply optWf_some
    | with_reducible apply optWf_map
    | with_reducible apply wf_getD
    | with_reducible apply outWf_next
    | (refine wf_of_pair (by assumption) ?_)
    | (refine wf_of_triple (by assumption) ?_)
    | (refine wf_of_fst (by assumption) ?_)
    | (refine wf_of_opt (by assumption) ?_)
    | intro _
    | split
    | dsimp only

theorem wf_setPhaseAt {s : State} {c t : Nat} {heldP : Bool} {ph : Phase} (hs : Memory.wf s.mem = true) : Memory.wf (setPhaseAt s c t heldP ph).mem = true := by
  unfold setPhaseAt
  repeat' first
    | assumption
    | with_reducible apply wf_foldl
    | with_reducible exact optWf_none
    | with_reducible apply optWf_some
    | with_reducible apply optWf_map
    | with_reducible apply wf_getD
    | with_reducible apply outWf_next
    | with_reducible apply wf_State_setTask
    | (refine wf_of_pair (by assumption) ?_)
    | (refine wf_of_triple (by assumption) ?_)
    | (refine wf_of_fst (by assumption) ?_)
    | (refine wf_of_opt (by assumption) ?_)
    | intro _
    | split
    | dsimp only

theorem wf_accStore {s : State} {r : AccRef} {a : Access} (hs : Memory.wf s.mem = true) : Memory.wf (accStore s r a).mem = true := by
  unfold accStore
  repeat' first
    | assumption
    | with_reducible apply wf_foldl
    | with_reducible exact optWf_none
    | with_reducible apply optWf_some
    | with_reducible apply optWf_map
    | with_reducible apply wf_getD
    | with_reducible apply outWf_next
    | with_reducible apply wf_acquireAt
    | with_reducible apply wf_setPhaseAt
    | (refine wf_of_pair (by assumption) ?_)
    | (refine wf_of_triple (by assumption) ?_)
    | (refine wf_of_fst (by assumption) ?_)
    | (refine wf_of_opt (by assumption) ?_)
    | intro _
    | split
    | dsimp only

theorem wf_responseFault {s : State} {r : AccRef} {a : Access} {i : FaultInfo} (hs : Memory.wf s.mem = true) : Memory.wf (responseFault s r a i).mem = true := by
  unfold responseFault
  repeat' first
    | assumption
    | with_reducible apply wf_foldl
    | with_reducible exact optWf_none
    | with_reducible apply optWf_some
    | with_reducible apply optWf_map
    | with_reducible apply wf_getD
    | with_reducible apply outWf_next
    | with_reducible apply wf_State_setTask
    | with_reducible apply wf_takeFault
    | with_reducible apply wf_accStore
    | (refine wf_of_pair (by assumption) ?_)
    | (refine wf_of_triple (by assumption) ?_)
    | (refine wf_of_fst (by assumption) ?_)
    | (refine wf_of_opt (by assumption) ?_)
    | intro _
    | split
    | dsimp only

theorem wf_issueAcc {s : State} {r : AccRef} {ph : Phase} {a : Access} (hs : Memory.wf s.mem = true) : Memory.wf (issueAcc s r ph a).mem = true := by
  unfold issueAcc
  repeat' first
    | assumption
    | with_reducible apply wf_foldl
    | with_reducible exact optWf_none
    | with_reducible apply optWf_some
    | with_reducible apply optWf_map
    | with_reducible apply wf_getD
    | with_reducible apply outWf_next
    | with_reducible apply wf_State_setCore
    | with_reducible apply wf_accStore
    | (refine wf_of_pair (by assumption) ?_)
    | (refine wf_of_triple (by assumption) ?_)
    | (refine wf_of_fst (by assumption) ?_)
    | (refine wf_of_opt (by assumption) ?_)
    | intro _
    | split
    | dsimp only

theorem wf_dropCopies {s : State} {c : Nat} {a : Access} {p : Piece} (hs : Memory.wf s.mem = true) : Memory.wf (dropCopies s c a p).mem = true := by
  unfold dropCopies
  repeat' first
    | assumption
    | with_reducible apply wf_foldl
    | with_reducible exact optWf_none
    | with_reducible apply optWf_some
    | with_reducible apply optWf_map
    | with_reducible apply wf_getD
    | with_reducible apply outWf_next
    | with_reducible apply wf_State_setCore
    | (refine wf_of_pair (by assumption) ?_)
    | (refine wf_of_triple (by assumption) ?_)
    | (refine wf_of_fst (by assumption) ?_)
    | (refine wf_of_opt (by assumption) ?_)
    | intro _
    | split
    | dsimp only

theorem wf_bankWrite {s : State} {ps : List Piece} (hs : Memory.wf s.mem = true) : Memory.wf (bankWrite s ps).mem = true := by
  unfold bankWrite
  repeat' first
    | assumption
    | with_reducible apply wf_foldl
    | with_reducible exact optWf_none
    | with_reducible apply optWf_some
    | with_reducible apply optWf_map
    | with_reducible apply wf_getD
    | with_reducible apply outWf_next
    | with_reducible apply wf_writeRun
    | with_reducible apply wf_freshSector
    | (refine wf_of_pair (by assumption) ?_)
    | (refine wf_of_triple (by assumption) ?_)
    | (refine wf_of_fst (by assumption) ?_)
    | (refine wf_of_opt (by assumption) ?_)
    | intro _
    | split
    | dsimp only

theorem wf_moveScratch {s : State} {r : AccRef} {a : Access} {k : Nat} {p : Piece} (hs : Memory.wf s.mem = true) : Memory.wf (moveScratch s r a k p).mem = true := by
  unfold moveScratch
  repeat' first
    | assumption
    | with_reducible apply wf_foldl
    | with_reducible exact optWf_none
    | with_reducible apply optWf_some
    | with_reducible apply optWf_map
    | with_reducible apply wf_getD
    | with_reducible apply outWf_next
    | with_reducible apply wf_writeRun
    | with_reducible apply wf_freshSector
    | with_reducible apply wf_accStore
    | with_reducible apply wf_bankWrite
    | (refine wf_of_pair (by assumption) ?_)
    | (refine wf_of_triple (by assumption) ?_)
    | (refine wf_of_fst (by assumption) ?_)
    | (refine wf_of_opt (by assumption) ?_)
    | intro _
    | split
    | dsimp only

theorem wf_movePiece {s : State} {r : AccRef} {a : Access} {k : Nat} (hs : Memory.wf s.mem = true) : Memory.wf (movePiece s r a k).mem = true := by
  unfold movePiece
  repeat' first
    | assumption
    | with_reducible apply wf_foldl
    | with_reducible exact optWf_none
    | with_reducible apply optWf_some
    | with_reducible apply optWf_map
    | with_reducible apply wf_getD
    | with_reducible apply outWf_next
    | with_reducible apply wf_countDirect
    | with_reducible apply wf_podSendKey
    | with_reducible apply wf_readBytes
    | with_reducible apply wf_accStore
    | with_reducible apply wf_responseFault
    | with_reducible apply wf_dropCopies
    | with_reducible apply wf_moveScratch
    | (refine wf_of_pair (by assumption) ?_)
    | (refine wf_of_triple (by assumption) ?_)
    | (refine wf_of_fst (by assumption) ?_)
    | (refine wf_of_opt (by assumption) ?_)
    | intro _
    | split
    | dsimp only

theorem wf_writeAtomic {s : State} {r : AccRef} {a : Access} {p : Piece} {ord : Option (Nat × Nat × Nat)} {old x : Nat} (hs : Memory.wf s.mem = true) : Memory.wf (writeAtomic s r a p ord old x).mem = true := by
  unfold writeAtomic
  repeat' first
    | assumption
    | with_reducible apply wf_foldl
    | with_reducible exact optWf_none
    | with_reducible apply optWf_some
    | with_reducible apply optWf_map
    | with_reducible apply wf_getD
    | with_reducible apply outWf_next
    | with_reducible apply wf_State_setCore
    | with_reducible apply wf_writeView
    | with_reducible apply wf_wakeWaits
    | with_reducible apply wf_accStore
    | with_reducible apply wf_dropCopies
    | (refine wf_of_pair (by assumption) ?_)
    | (refine wf_of_triple (by assumption) ?_)
    | (refine wf_of_fst (by assumption) ?_)
    | (refine wf_of_opt (by assumption) ?_)
    | intro _
    | split
    | dsimp only

theorem wf_moveAtomic {s : State} {r : AccRef} {ph : Phase} {a : Access} {p : Piece} (hs : Memory.wf s.mem = true) : Memory.wf (moveAtomic s r ph a p).mem = true := by
  unfold moveAtomic
  repeat' first
    | assumption
    | with_reducible apply wf_foldl
    | with_reducible exact optWf_none
    | with_reducible apply optWf_some
    | with_reducible apply optWf_map
    | with_reducible apply wf_getD
    | with_reducible apply outWf_next
    | with_reducible apply wf_countDirect
    | with_reducible apply wf_podSendKey
    | with_reducible apply wf_readBytes
    | with_reducible apply wf_accStore
    | with_reducible apply wf_responseFault
    | with_reducible apply wf_writeAtomic
    | (refine wf_of_pair (by assumption) ?_)
    | (refine wf_of_triple (by assumption) ?_)
    | (refine wf_of_fst (by assumption) ?_)
    | (refine wf_of_opt (by assumption) ?_)
    | intro _
    | split
    | dsimp only

theorem wf_restartAtomics {s : State} {ks : List MemRun} (hs : Memory.wf s.mem = true) : Memory.wf (restartAtomics s ks).mem = true := by
  unfold restartAtomics
  repeat' first
    | assumption
    | with_reducible apply wf_foldl
    | with_reducible exact optWf_none
    | with_reducible apply optWf_some
    | with_reducible apply optWf_map
    | with_reducible apply wf_getD
    | with_reducible apply outWf_next
    | (refine wf_of_pair (by assumption) ?_)
    | (refine wf_of_triple (by assumption) ?_)
    | (refine wf_of_fst (by assumption) ?_)
    | (refine wf_of_opt (by assumption) ?_)
    | intro _
    | split
    | dsimp only

theorem wf_moveAwait {s : State} {r : AccRef} {a : Access} {p : Piece} {final : Bool} (hs : Memory.wf s.mem = true) : Memory.wf (moveAwait s r a p final).mem = true := by
  unfold moveAwait
  repeat' first
    | assumption
    | with_reducible apply wf_foldl
    | with_reducible exact optWf_none
    | with_reducible apply optWf_some
    | with_reducible apply optWf_map
    | with_reducible apply wf_getD
    | with_reducible apply outWf_next
    | with_reducible apply wf_countDirect
    | with_reducible apply wf_podSendKey
    | with_reducible apply wf_readBytes
    | with_reducible apply wf_accStore
    | with_reducible apply wf_responseFault
    | (refine wf_of_pair (by assumption) ?_)
    | (refine wf_of_triple (by assumption) ?_)
    | (refine wf_of_fst (by assumption) ?_)
    | (refine wf_of_opt (by assumption) ?_)
    | intro _
    | split
    | dsimp only

theorem wf_memoryResponse {c t n : Nat} {s : State} (hs : Memory.wf s.mem = true) : Memory.wf (memoryResponse c t n s).mem = true := by
  unfold memoryResponse
  repeat' first
    | assumption
    | with_reducible apply wf_foldl
    | with_reducible exact optWf_none
    | with_reducible apply optWf_some
    | with_reducible apply optWf_map
    | with_reducible apply wf_getD
    | with_reducible apply outWf_next
    | with_reducible apply wf_fired
    | with_reducible apply wf_checkAccess
    | with_reducible apply wf_accStore
    | with_reducible apply wf_responseFault
    | with_reducible apply wf_issueAcc
    | with_reducible apply wf_movePiece
    | with_reducible apply wf_moveAtomic
    | with_reducible apply wf_moveAwait
    | (refine wf_of_pair (by assumption) ?_)
    | (refine wf_of_triple (by assumption) ?_)
    | (refine wf_of_fst (by assumption) ?_)
    | (refine wf_of_opt (by assumption) ?_)
    | intro _
    | split
    | dsimp only

theorem wf_awaitPollMove {c t n : Nat} {s : State} (hs : Memory.wf s.mem = true) : Memory.wf (awaitPollMove c t n s).mem = true := by
  unfold awaitPollMove
  repeat' first
    | assumption
    | with_reducible apply wf_foldl
    | with_reducible exact optWf_none
    | with_reducible apply optWf_some
    | with_reducible apply optWf_map
    | with_reducible apply wf_getD
    | with_reducible apply outWf_next
    | with_reducible apply wf_moveAwait
    | (refine wf_of_pair (by assumption) ?_)
    | (refine wf_of_triple (by assumption) ?_)
    | (refine wf_of_fst (by assumption) ?_)
    | (refine wf_of_opt (by assumption) ?_)
    | intro _
    | split
    | dsimp only

theorem wf_awaitTimeoutMove {c t n : Nat} {s : State} (hs : Memory.wf s.mem = true) : Memory.wf (awaitTimeoutMove c t n s).mem = true := by
  unfold awaitTimeoutMove
  repeat' first
    | assumption
    | with_reducible apply wf_foldl
    | with_reducible exact optWf_none
    | with_reducible apply optWf_some
    | with_reducible apply optWf_map
    | with_reducible apply wf_getD
    | with_reducible apply outWf_next
    | with_reducible apply wf_moveAwait
    | (refine wf_of_pair (by assumption) ?_)
    | (refine wf_of_triple (by assumption) ?_)
    | (refine wf_of_fst (by assumption) ?_)
    | (refine wf_of_opt (by assumption) ?_)
    | intro _
    | split
    | dsimp only

theorem wf_drainWaiter {s : State} {c t : Nat} {w : Nat × Nat × Nat} (hs : Memory.wf s.mem = true) : Memory.wf (drainWaiter s c t w).mem = true := by
  unfold drainWaiter
  repeat' first
    | assumption
    | with_reducible apply wf_foldl
    | with_reducible exact optWf_none
    | with_reducible apply optWf_some
    | with_reducible apply optWf_map
    | with_reducible apply wf_getD
    | with_reducible apply outWf_next
    | with_reducible apply wf_State_setTask
    | (refine wf_of_pair (by assumption) ?_)
    | (refine wf_of_triple (by assumption) ?_)
    | (refine wf_of_fst (by assumption) ?_)
    | (refine wf_of_opt (by assumption) ?_)
    | intro _
    | split
    | dsimp only

theorem wf_appendHome {s : State} {p : PStore} {rest : List PStore} (hs : Memory.wf s.mem = true) : Memory.wf (appendHome s p rest).mem = true := by
  unfold appendHome
  repeat' first
    | assumption
    | with_reducible apply wf_foldl
    | with_reducible exact optWf_none
    | with_reducible apply optWf_some
    | with_reducible apply optWf_map
    | with_reducible apply wf_getD
    | with_reducible apply outWf_next
    | with_reducible apply wf_freshSector
    | with_reducible apply wf_writeView
    | (refine wf_of_pair (by assumption) ?_)
    | (refine wf_of_triple (by assumption) ?_)
    | (refine wf_of_fst (by assumption) ?_)
    | (refine wf_of_opt (by assumption) ?_)
    | intro _
    | split
    | dsimp only

theorem wf_lateFault {s : State} {c : Nat} {p : PStore} {cls : Nat} (hs : Memory.wf s.mem = true) : Memory.wf (lateFault s c p cls).mem = true := by
  unfold lateFault
  repeat' first
    | assumption
    | with_reducible apply wf_foldl
    | with_reducible exact optWf_none
    | with_reducible apply optWf_some
    | with_reducible apply optWf_map
    | with_reducible apply wf_getD
    | with_reducible apply outWf_next
    | with_reducible apply wf_State_setTask
    | with_reducible apply wf_takeFault
    | (refine wf_of_pair (by assumption) ?_)
    | (refine wf_of_triple (by assumption) ?_)
    | (refine wf_of_fst (by assumption) ?_)
    | (refine wf_of_opt (by assumption) ?_)
    | intro _
    | split
    | dsimp only

theorem wf_storeDrainMove {c n : Nat} {s : State} (hs : Memory.wf s.mem = true) : Memory.wf (storeDrainMove c n s).mem = true := by
  unfold storeDrainMove
  split
  · split
    · exact hs
    · split
      · exact wf_memWriteBytes hs _ _
      · exact hs
  · dsimp only
    split
    · exact hs
    · rename_i p _
      split
      · exact hs
      · split
        · exact hs
        · split
          · exact wf_responseFault (wf_State_setCore hs)
          · have h : ∀ (hw : List HostWrite) (rest : List PStore) (u : State), Memory.wf u.mem = true → Memory.wf (if isHost p.key = true then
                if p.ro = true then { u with hostWc := u.hostWc ++ hw } else { u with hostLink := u.hostLink ++ hw }
              else if (remoteFault u p.key).isSome = true then lateFault u c p ((remoteFault u p.key).getD 0)
              else appendHome (podSendKey (countDirect u p.key (drainScope p)) p.key) p rest).mem = true := by
              intro hw rest u hu
              split
              · split <;> exact hu
              · split
                · exact wf_lateFault hu
                · exact wf_appendHome (wf_podSendKey (wf_countDirect hu))
            split
            · exact wf_drainWaiter (h _ _ _ (wf_State_setCore hs))
            · exact h _ _ _ (wf_State_setCore hs)

theorem wf_wcSend {n : Nat} {s : State} (hs : Memory.wf s.mem = true) : Memory.wf (wcSend n s).mem = true := by
  unfold wcSend
  repeat' first
    | assumption
    | with_reducible apply wf_foldl
    | with_reducible exact optWf_none
    | with_reducible apply optWf_some
    | with_reducible apply optWf_map
    | with_reducible apply wf_getD
    | with_reducible apply outWf_next
    | (refine wf_of_pair (by assumption) ?_)
    | (refine wf_of_triple (by assumption) ?_)
    | (refine wf_of_fst (by assumption) ?_)
    | (refine wf_of_opt (by assumption) ?_)
    | intro _
    | split
    | dsimp only

theorem wf_fillMove {c loc : Nat} {plain : Bool} {s : State} (hs : Memory.wf s.mem = true) : Memory.wf (fillMove c loc plain s).mem = true := by
  unfold fillMove
  repeat' first
    | assumption
    | with_reducible apply wf_foldl
    | with_reducible exact optWf_none
    | with_reducible apply optWf_some
    | with_reducible apply optWf_map
    | with_reducible apply wf_getD
    | with_reducible apply outWf_next
    | with_reducible apply wf_readCheck
    | with_reducible apply wf_fillLine
    | (refine wf_of_pair (by assumption) ?_)
    | (refine wf_of_triple (by assumption) ?_)
    | (refine wf_of_fst (by assumption) ?_)
    | (refine wf_of_opt (by assumption) ?_)
    | intro _
    | split
    | dsimp only

theorem wf_evictMove {c loc : Nat} {s : State} (hs : Memory.wf s.mem = true) : Memory.wf (evictMove c loc s).mem = true := by
  unfold evictMove
  repeat' first
    | assumption
    | with_reducible apply wf_foldl
    | with_reducible exact optWf_none
    | with_reducible apply optWf_some
    | with_reducible apply optWf_map
    | with_reducible apply wf_getD
    | with_reducible apply outWf_next
    | with_reducible apply wf_State_setCore
    | (refine wf_of_pair (by assumption) ?_)
    | (refine wf_of_triple (by assumption) ?_)
    | (refine wf_of_fst (by assumption) ?_)
    | (refine wf_of_opt (by assumption) ?_)
    | intro _
    | split
    | dsimp only

theorem wf_podFenceMove {sw : Nat} {s : State} (hs : Memory.wf s.mem = true) : Memory.wf (podFenceMove sw s).mem = true := by
  unfold podFenceMove
  repeat' first
    | assumption
    | with_reducible apply wf_foldl
    | with_reducible exact optWf_none
    | with_reducible apply optWf_some
    | with_reducible apply optWf_map
    | with_reducible apply wf_getD
    | with_reducible apply outWf_next
    | (refine wf_of_pair (by assumption) ?_)
    | (refine wf_of_triple (by assumption) ?_)
    | (refine wf_of_fst (by assumption) ?_)
    | (refine wf_of_opt (by assumption) ?_)
    | intro _
    | split
    | dsimp only

theorem wf_setBuf {s : State} {c n : Nat} {b : CBuf} (hs : Memory.wf s.mem = true) : Memory.wf (setBuf s c n b).mem = true := by
  unfold setBuf
  repeat' first
    | assumption
    | with_reducible apply wf_foldl
    | with_reducible exact optWf_none
    | with_reducible apply optWf_some
    | with_reducible apply optWf_map
    | with_reducible apply wf_getD
    | with_reducible apply outWf_next
    | with_reducible apply wf_State_setCore
    | (refine wf_of_pair (by assumption) ?_)
    | (refine wf_of_triple (by assumption) ?_)
    | (refine wf_of_fst (by assumption) ?_)
    | (refine wf_of_opt (by assumption) ?_)
    | intro _
    | split
    | dsimp only

theorem wf_cbDeliver {s : State} {c n x : Nat} (hs : Memory.wf s.mem = true) : optWf (cbDeliver s c n x) := by
  unfold cbDeliver
  repeat' first
    | assumption
    | with_reducible apply wf_foldl
    | with_reducible exact optWf_none
    | with_reducible apply optWf_some
    | with_reducible apply optWf_map
    | with_reducible apply wf_getD
    | with_reducible apply outWf_next
    | with_reducible apply wf_writeRun
    | with_reducible apply wf_setBuf
    | (refine wf_of_pair (by assumption) ?_)
    | (refine wf_of_triple (by assumption) ?_)
    | (refine wf_of_fst (by assumption) ?_)
    | (refine wf_of_opt (by assumption) ?_)
    | intro _
    | split
    | dsimp only

/-- A circular-buffer operation keeps memory in canonical form. -/
structure cbOk (o : CbResult) : Prop where
  get : ∀ s x y, o = .ok s x y → Memory.wf s.mem = true
theorem cbOk_ok {s : State} {x y : Token} (h : Memory.wf s.mem = true) : cbOk (.ok s x y) := ⟨fun _ _ _ e => by cases e; exact h⟩
theorem cbOk_stall : cbOk .stall := ⟨fun _ _ _ e => by cases e⟩
theorem cbOk_bad {i : FaultInfo} : cbOk (.bad i) := ⟨fun _ _ _ e => by cases e⟩
theorem cbPushFold {c : Nat} (xs : List Token) (o : Option (CBuf × State)) (h : ∀ e, o = some e → Memory.wf e.2.mem = true) :
    ∀ e, xs.foldl (fun (st : Option (CBuf × State)) x => st.bind fun st =>
      (cbPushTok st.1).map fun e => (e.2, writeRun st.2 (keyScratch c e.1) 64 (validBytes x) false)) o = some e → Memory.wf e.2.mem = true := by
  induction xs generalizing o with
  | nil => exact h
  | cons x xs ih =>
    refine ih _ fun e he => ?_
    cases o with
    | none => cases he
    | some st =>
      simp only [Option.bind_some, Option.map_eq_some_iff] at he
      obtain ⟨a, _, rfl⟩ := he
      exact wf_writeRun (h st rfl) _ _ _ _
theorem cbOk_cbPush {w : MemW} {f : Foc} {ops : List (Nat × Token)} {s : State} (hs : Memory.wf s.mem = true) : cbOk (cbPush w f ops s) := by
  unfold cbPush
  extract_lets n b xs r
  split
  · exact cbOk_bad
  · have hr : ∀ e, r = some e → Memory.wf e.2.mem = true := cbPushFold xs _ fun e he => by cases he; exact hs
    clear_value r
    split
    · exact cbOk_stall
    · exact cbOk_ok (wf_setBuf (hr _ rfl))

theorem cbOk_cbRead {pop : Bool} {w : MemW} {f : Foc} {ops : List (Nat × Token)} {s : State} (hs : Memory.wf s.mem = true) : cbOk (cbRead pop w f ops s) := by
  unfold cbRead
  extract_lets n b d k m addrs t b2
  split
  · exact cbOk_bad
  · split
    · exact cbOk_bad
    · split
      · exact cbOk_stall
      · split
        · exact cbOk_bad
        · exact cbOk_ok (wf_setBuf hs)

theorem cbOk_cbStat {w : MemW} {f : Foc} {s : State} (hs : Memory.wf s.mem = true) : cbOk (cbStat w f s) := cbOk_ok hs

theorem outWf_fireCb {op : Nat} {g : MemW → Foc → List (Nat × Token) → State → CbResult} {w : MemW} {s : State}
    (hg : ∀ f ops, cbOk (g w f ops s)) (hs : Memory.wf s.mem = true) : outWf (fireCb op g w s) := by
  unfold fireCb
  split
  · exact outWf_next hs
  · extract_lets ports
    split
    · exact outWf_next hs
    · extract_lets nullOp a place
      refine outWf_ite (outWf_next hs) (outWf_ite (outWf_next hs) ?_)
      have hp : ∀ u x y, Memory.wf u.mem = true → outWf (place u x y) := fun u x y h => outWf_next (wf_fired h)
      clear_value place
      refine outWf_ite (hp _ _ _ hs) (outWf_ite (outWf_next (wf_nodeFault hs)) ?_)
      split
      · exact outWf_next hs
      · exact outWf_next (wf_nodeFault hs)
      · have h := (hg _ _).get _ _ _ (by assumption)
        exact hp _ _ _ (wf_ite (wf_acquireAt h) h)

theorem wf_modTask {s : State} {j rank : Nat} {f : Task → Task} (hs : Memory.wf s.mem = true) : Memory.wf (modTask s j rank f).mem = true := by
  unfold modTask
  repeat' first
    | assumption
    | with_reducible apply wf_foldl
    | with_reducible exact optWf_none
    | with_reducible apply optWf_some
    | with_reducible apply optWf_map
    | with_reducible apply wf_getD
    | with_reducible apply outWf_next
    | with_reducible apply wf_State_setJob
    | with_reducible apply wf_State_setTask
    | (refine wf_of_pair (by assumption) ?_)
    | (refine wf_of_triple (by assumption) ?_)
    | (refine wf_of_fst (by assumption) ?_)
    | (refine wf_of_opt (by assumption) ?_)
    | intro _
    | split
    | dsimp only

theorem wf_runKeys {c part : Nat} {nd : Need} {va n : Nat} {s : State} (hs : Memory.wf s.mem = true) : Memory.wf (runKeys c part nd va n s).2.mem = true := by
  unfold runKeys
  repeat' first
    | assumption
    | with_reducible apply wf_foldl
    | with_reducible exact optWf_none
    | with_reducible apply optWf_some
    | with_reducible apply optWf_map
    | with_reducible apply wf_getD
    | with_reducible apply outWf_next
    | with_reducible apply wf_translate
    | (refine wf_of_pair (by assumption) ?_)
    | (refine wf_of_triple (by assumption) ?_)
    | (refine wf_of_fst (by assumption) ?_)
    | (refine wf_of_opt (by assumption) ?_)
    | intro _
    | split
    | dsimp only

theorem wf_directKeys {c part : Nat} {nd : Need} {va n : Nat} {s : State} (hs : Memory.wf s.mem = true) : Memory.wf (directKeys c part nd va n s).2.mem = true := by
  unfold directKeys
  repeat' first
    | assumption
    | with_reducible apply wf_foldl
    | with_reducible exact optWf_none
    | with_reducible apply optWf_some
    | with_reducible apply optWf_map
    | with_reducible apply wf_getD
    | with_reducible apply outWf_next
    | with_reducible apply wf_runKeys
    | (refine wf_of_pair (by assumption) ?_)
    | (refine wf_of_triple (by assumption) ?_)
    | (refine wf_of_fst (by assumption) ?_)
    | (refine wf_of_opt (by assumption) ?_)
    | intro _
    | split
    | dsimp only

theorem wf_checkKeys {s : State} {ks : List MemRun} (hs : Memory.wf s.mem = true) : Memory.wf (checkKeys s ks).mem = true := by
  unfold checkKeys
  repeat' first
    | assumption
    | with_reducible apply wf_foldl
    | with_reducible exact optWf_none
    | with_reducible apply optWf_some
    | with_reducible apply optWf_map
    | with_reducible apply wf_getD
    | with_reducible apply outWf_next
    | with_reducible apply wf_readCheck
    | (refine wf_of_pair (by assumption) ?_)
    | (refine wf_of_triple (by assumption) ?_)
    | (refine wf_of_fst (by assumption) ?_)
    | (refine wf_of_opt (by assumption) ?_)
    | intro _
    | split
    | dsimp only

theorem wf_writeKeys {s : State} {v1 : List MemRun} {v2 : Nat} {v3 : Bool} (hs : Memory.wf s.mem = true) : Memory.wf (writeKeys s v1 v2 v3).mem = true := by
  induction v1 generalizing s v2 v3 with
  | nil =>
    rw [writeKeys]
    repeat' first
      | assumption
      | with_reducible apply wf_foldl
      | with_reducible exact optWf_none
      | with_reducible apply optWf_some
      | with_reducible apply optWf_map
      | with_reducible apply wf_getD
      | with_reducible apply outWf_next
      | with_reducible apply wf_writeView
      | (refine wf_of_pair (by assumption) ?_)
      | (refine wf_of_triple (by assumption) ?_)
      | (refine wf_of_fst (by assumption) ?_)
      | (refine wf_of_opt (by assumption) ?_)
      | intro _
      | split
      | dsimp only
  | cons x xs ih =>
    rw [writeKeys]
    repeat' first
      | assumption
      | with_reducible apply wf_foldl
      | with_reducible exact optWf_none
      | with_reducible apply optWf_some
      | with_reducible apply optWf_map
      | with_reducible apply wf_getD
      | with_reducible apply outWf_next
      | with_reducible apply ih
      | with_reducible apply wf_writeView
      | (refine wf_of_pair (by assumption) ?_)
      | (refine wf_of_triple (by assumption) ?_)
      | (refine wf_of_fst (by assumption) ?_)
      | (refine wf_of_opt (by assumption) ?_)
      | intro _
      | split
      | dsimp only


theorem wf_podSendRuns {s : State} {ks : List MemRun} (hs : Memory.wf s.mem = true) : Memory.wf (podSendRuns s ks).mem = true := by
  unfold podSendRuns
  repeat' first
    | assumption
    | with_reducible apply wf_foldl
    | with_reducible exact optWf_none
    | with_reducible apply optWf_some
    | with_reducible apply optWf_map
    | with_reducible apply wf_getD
    | with_reducible apply outWf_next
    | with_reducible apply wf_podSendKey
    | (refine wf_of_pair (by assumption) ?_)
    | (refine wf_of_triple (by assumption) ?_)
    | (refine wf_of_fst (by assumption) ?_)
    | (refine wf_of_opt (by assumption) ?_)
    | intro _
    | split
    | dsimp only

theorem wf_engineRead {c part va n : Nat} {s : State} (hs : Memory.wf s.mem = true) : Memory.wf (engineRead c part va n s).2.mem = true := by
  unfold engineRead
  repeat' first
    | assumption
    | with_reducible apply wf_foldl
    | with_reducible exact optWf_none
    | with_reducible apply optWf_some
    | with_reducible apply optWf_map
    | with_reducible apply wf_getD
    | with_reducible apply outWf_next
    | with_reducible apply wf_runKeys
    | with_reducible apply wf_checkKeys
    | (refine wf_of_pair (by assumption) ?_)
    | (refine wf_of_triple (by assumption) ?_)
    | (refine wf_of_fst (by assumption) ?_)
    | (refine wf_of_opt (by assumption) ?_)
    | intro _
    | split
    | dsimp only

theorem wf_cwWrite {s : State} {w : MemRun} {scope old : Nat} (hs : Memory.wf s.mem = true) : Memory.wf (cwWrite s w scope old).mem = true := by
  unfold cwWrite
  repeat' first
    | assumption
    | with_reducible apply wf_foldl
    | with_reducible exact optWf_none
    | with_reducible apply optWf_some
    | with_reducible apply optWf_map
    | with_reducible apply wf_getD
    | with_reducible apply outWf_next
    | with_reducible apply wf_writeView
    | with_reducible apply wf_wakeWaits
    | (refine wf_of_pair (by assumption) ?_)
    | (refine wf_of_triple (by assumption) ?_)
    | (refine wf_of_fst (by assumption) ?_)
    | (refine wf_of_opt (by assumption) ?_)
    | intro _
    | split
    | dsimp only

theorem wf_cwMove {s : State} {w : MemRun} {scope : Nat} (hs : Memory.wf s.mem = true) :
    (∀ old u, cwMove s w scope = .read old u → Memory.wf u.mem = true) ∧ (∀ u, cwMove s w scope = .written u → Memory.wf u.mem = true) := by
  unfold cwMove
  have h : Memory.wf (countDirect (readCheck s w.key w.len) w.key scope).mem = true := wf_countDirect (wf_readCheck hs)
  split
  · exact ⟨fun _ _ e => (by cases e), fun _ e => (by cases e)⟩
  · dsimp only
    split
    · exact ⟨fun _ _ e => (by cases e; exact h), fun _ e => (by cases e)⟩
    · exact ⟨fun _ _ e => (by cases e), fun _ e => (by cases e; exact wf_cwWrite (wf_podSendKey h))⟩

theorem wf_epFired {s : State} {f : Foc} {ports : List Nat} {key : Nat} {tok : Option Token} (hs : Memory.wf s.mem = true) : Memory.wf (epFired s f ports key tok).mem = true := by
  unfold epFired
  repeat' first
    | assumption
    | with_reducible apply wf_foldl
    | with_reducible exact optWf_none
    | with_reducible apply optWf_some
    | with_reducible apply optWf_map
    | with_reducible apply wf_getD
    | with_reducible apply outWf_next
    | with_reducible apply wf_fired
    | (refine wf_of_pair (by assumption) ?_)
    | (refine wf_of_triple (by assumption) ?_)
    | (refine wf_of_fst (by assumption) ?_)
    | (refine wf_of_opt (by assumption) ?_)
    | intro _
    | split
    | dsimp only

theorem wf_askLeave {s : State} {die : Nat} {r : LeaveReq} (hs : Memory.wf s.mem = true) : Memory.wf (askLeave s die r).mem = true := by
  unfold askLeave
  repeat' first
    | assumption
    | with_reducible apply wf_foldl
    | with_reducible exact optWf_none
    | with_reducible apply optWf_some
    | with_reducible apply optWf_map
    | with_reducible apply wf_getD
    | with_reducible apply outWf_next
    | with_reducible apply wf_State_setDie
    | (refine wf_of_pair (by assumption) ?_)
    | (refine wf_of_triple (by assumption) ?_)
    | (refine wf_of_fst (by assumption) ?_)
    | (refine wf_of_opt (by assumption) ?_)
    | intro _
    | split
    | dsimp only

theorem wf_tileLeave {s : State} {q addr : Nat} (hs : Memory.wf s.mem = true) : Memory.wf (tileLeave s q addr).mem = true := by
  unfold tileLeave
  repeat' first
    | assumption
    | with_reducible apply wf_foldl
    | with_reducible exact optWf_none
    | with_reducible apply optWf_some
    | with_reducible apply optWf_map
    | with_reducible apply wf_getD
    | with_reducible apply outWf_next
    | with_reducible apply wf_State_setQuad
    | (refine wf_of_pair (by assumption) ?_)
    | (refine wf_of_triple (by assumption) ?_)
    | (refine wf_of_fst (by assumption) ?_)
    | (refine wf_of_opt (by assumption) ?_)
    | intro _
    | split
    | dsimp only

theorem wf_applyLeave {s : State} {r : LeaveReq} (hs : Memory.wf s.mem = true) : Memory.wf (applyLeave s r).mem = true := by
  unfold applyLeave
  repeat' first
    | assumption
    | with_reducible apply wf_foldl
    | with_reducible exact optWf_none
    | with_reducible apply optWf_some
    | with_reducible apply optWf_map
    | with_reducible apply wf_getD
    | with_reducible apply outWf_next
    | with_reducible apply wf_State_setTask
    | with_reducible apply wf_State_setRider
    | with_reducible apply wf_tileLeave
    | (refine wf_of_pair (by assumption) ?_)
    | (refine wf_of_triple (by assumption) ?_)
    | (refine wf_of_fst (by assumption) ?_)
    | (refine wf_of_opt (by assumption) ?_)
    | intro _
    | split
    | dsimp only

theorem wf_grantLeave {s : State} {die : Nat} {r : LeaveReq} (hs : Memory.wf s.mem = true) : Memory.wf (grantLeave s die r).mem = true := by
  unfold grantLeave
  repeat' first
    | assumption
    | with_reducible apply wf_foldl
    | with_reducible exact optWf_none
    | with_reducible apply optWf_some
    | with_reducible apply optWf_map
    | with_reducible apply wf_getD
    | with_reducible apply outWf_next
    | with_reducible apply wf_State_setDie
    | with_reducible apply wf_applyLeave
    | (refine wf_of_pair (by assumption) ?_)
    | (refine wf_of_triple (by assumption) ?_)
    | (refine wf_of_fst (by assumption) ?_)
    | (refine wf_of_opt (by assumption) ?_)
    | intro _
    | split
    | dsimp only

theorem wf_powerGrant {die : Nat} {s : State} (hs : Memory.wf s.mem = true) : Memory.wf (powerGrant die s).mem = true := by
  unfold powerGrant
  repeat' first
    | assumption
    | with_reducible apply wf_foldl
    | with_reducible exact optWf_none
    | with_reducible apply optWf_some
    | with_reducible apply optWf_map
    | with_reducible apply wf_getD
    | with_reducible apply outWf_next
    | with_reducible apply wf_grantLeave
    | (refine wf_of_pair (by assumption) ?_)
    | (refine wf_of_triple (by assumption) ?_)
    | (refine wf_of_fst (by assumption) ?_)
    | (refine wf_of_opt (by assumption) ?_)
    | intro _
    | split
    | dsimp only

theorem wf_forcedGrant {die n : Nat} {s : State} (hs : Memory.wf s.mem = true) : Memory.wf (forcedGrant die n s).mem = true := by
  unfold forcedGrant
  repeat' first
    | assumption
    | with_reducible apply wf_foldl
    | with_reducible exact optWf_none
    | with_reducible apply optWf_some
    | with_reducible apply optWf_map
    | with_reducible apply wf_getD
    | with_reducible apply outWf_next
    | with_reducible apply wf_grantLeave
    | (refine wf_of_pair (by assumption) ?_)
    | (refine wf_of_triple (by assumption) ?_)
    | (refine wf_of_fst (by assumption) ?_)
    | (refine wf_of_opt (by assumption) ?_)
    | intro _
    | split
    | dsimp only

theorem wf_feedLine {s : State} {r : Rider} {offset pa : Nat} (hs : Memory.wf s.mem = true) : Memory.wf (feedLine s r offset pa).mem = true := by
  unfold feedLine
  repeat' first
    | assumption
    | with_reducible apply wf_foldl
    | with_reducible exact optWf_none
    | with_reducible apply optWf_some
    | with_reducible apply optWf_map
    | with_reducible apply wf_getD
    | with_reducible apply outWf_next
    | (refine wf_of_pair (by assumption) ?_)
    | (refine wf_of_triple (by assumption) ?_)
    | (refine wf_of_fst (by assumption) ?_)
    | (refine wf_of_opt (by assumption) ?_)
    | intro _
    | split
    | dsimp only

theorem wf_feedAct {s : State} {r : Rider} {ch pa offset : Nat} (hs : Memory.wf s.mem = true) : Memory.wf (feedAct s r ch pa offset).mem = true := by
  unfold feedAct
  repeat' first
    | assumption
    | with_reducible apply wf_foldl
    | with_reducible exact optWf_none
    | with_reducible apply optWf_some
    | with_reducible apply optWf_map
    | with_reducible apply wf_getD
    | with_reducible apply outWf_next
    | with_reducible apply wf_feedLine
    | (refine wf_of_pair (by assumption) ?_)
    | (refine wf_of_triple (by assumption) ?_)
    | (refine wf_of_fst (by assumption) ?_)
    | (refine wf_of_opt (by assumption) ?_)
    | intro _
    | split
    | dsimp only

theorem wf_poisonSlot {s : State} {key : Nat} {sectors : Nat} (hs : Memory.wf s.mem = true) : Memory.wf (poisonSlot s key sectors).mem = true := by
  unfold poisonSlot
  repeat' first
    | assumption
    | with_reducible apply wf_foldl
    | with_reducible exact optWf_none
    | with_reducible apply optWf_some
    | with_reducible apply optWf_map
    | with_reducible apply wf_getD
    | with_reducible apply outWf_next
    | (refine wf_of_pair (by assumption) ?_)
    | (refine wf_of_triple (by assumption) ?_)
    | (refine wf_of_fst (by assumption) ?_)
    | (refine wf_of_opt (by assumption) ?_)
    | intro _
    | split
    | dsimp only

theorem wf_deliverSlot {s : State} {c n x bad : Nat} (hs : Memory.wf s.mem = true) : optWf (deliverSlot s c n x bad) := by
  unfold deliverSlot
  repeat' first
    | assumption
    | with_reducible apply wf_foldl
    | with_reducible exact optWf_none
    | with_reducible apply optWf_some
    | with_reducible apply optWf_map
    | with_reducible apply wf_getD
    | with_reducible apply outWf_next
    | with_reducible apply wf_cbDeliver
    | with_reducible apply wf_poisonSlot
    | (refine wf_of_pair (by assumption) ?_)
    | (refine wf_of_triple (by assumption) ?_)
    | (refine wf_of_fst (by assumption) ?_)
    | (refine wf_of_opt (by assumption) ?_)
    | intro _
    | split
    | dsimp only

theorem wf_drainQueue {s : State} {c n : Nat} {v1 : List (Nat × Nat × Bool)} (hs : Memory.wf s.mem = true) : Memory.wf (drainQueue s c n v1).1.mem = true := by
  induction v1 generalizing s c n with
  | nil =>
    rw [drainQueue]
    repeat' first
      | assumption
      | with_reducible apply wf_foldl
      | with_reducible exact optWf_none
      | with_reducible apply optWf_some
      | with_reducible apply optWf_map
      | with_reducible apply wf_getD
      | with_reducible apply outWf_next
      | with_reducible apply wf_deliverSlot
      | (refine wf_of_pair (by assumption) ?_)
      | (refine wf_of_triple (by assumption) ?_)
      | (refine wf_of_fst (by assumption) ?_)
      | (refine wf_of_opt (by assumption) ?_)
      | intro _
      | split
      | dsimp only
  | cons x xs ih =>
    rw [drainQueue]
    repeat' first
      | assumption
      | with_reducible apply wf_foldl
      | with_reducible exact optWf_none
      | with_reducible apply optWf_some
      | with_reducible apply optWf_map
      | with_reducible apply wf_getD
      | with_reducible apply outWf_next
      | with_reducible apply ih
      | with_reducible apply wf_deliverSlot
      | (refine wf_of_pair (by assumption) ?_)
      | (refine wf_of_triple (by assumption) ?_)
      | (refine wf_of_fst (by assumption) ?_)
      | (refine wf_of_opt (by assumption) ?_)
      | intro _
      | split
      | dsimp only


theorem wf_drainRider {s : State} {key ch : Nat} (hs : Memory.wf s.mem = true) : Memory.wf (drainRider s key ch).mem = true := by
  unfold drainRider
  repeat' first
    | assumption
    | with_reducible apply wf_foldl
    | with_reducible exact optWf_none
    | with_reducible apply optWf_some
    | with_reducible apply optWf_map
    | with_reducible apply wf_getD
    | with_reducible apply outWf_next
    | with_reducible apply wf_State_setRider
    | with_reducible apply wf_drainQueue
    | (refine wf_of_pair (by assumption) ?_)
    | (refine wf_of_triple (by assumption) ?_)
    | (refine wf_of_fst (by assumption) ?_)
    | (refine wf_of_opt (by assumption) ?_)
    | intro _
    | split
    | dsimp only

theorem wf_poisonSectors {s : State} {pa m : Nat} (hs : Memory.wf s.mem = true) : Memory.wf (poisonSectors s pa m).mem = true := by
  unfold poisonSectors
  repeat' first
    | assumption
    | with_reducible apply wf_foldl
    | with_reducible exact optWf_none
    | with_reducible apply optWf_some
    | with_reducible apply optWf_map
    | with_reducible apply wf_getD
    | with_reducible apply outWf_next
    | (refine wf_of_pair (by assumption) ?_)
    | (refine wf_of_triple (by assumption) ?_)
    | (refine wf_of_fst (by assumption) ?_)
    | (refine wf_of_opt (by assumption) ?_)
    | intro _
    | split
    | dsimp only

theorem wf_actLine {s : State} {key ch pa offset rev : Nat} (hs : Memory.wf s.mem = true) : optWf (actLine s key ch pa offset rev) := by
  unfold actLine
  split
  · exact optWf_some hs
  · split
    · exact optWf_some hs
    · have hp : ∀ (s : State) (r : Rider) (x : RiderChan), Memory.wf s.mem = true → optWf (some (s.setRider key { r with chans := tabPut r.chans ch x })) :=
        fun s r x h => optWf_some (wf_State_setRider h)
      extract_lets op bad line write put
      have hw : ∀ x p, Memory.wf (write x p).mem = true := fun x p => wf_writeView hs
      clear_value write
      split
      · exact optWf_some (wf_feedAct hs)
      · split
        · exact hp _ _ _ hs
        · split
          · split
            · exact hp _ _ _ (wf_restartAtomics (wf_writeKeys (wf_podSendRuns hs)))
            · split
              · exact optWf_none
              · exact hp _ _ _ hs
          · split
            · split
              · exact optWf_none
              · exact hp _ _ _ hs
            · split
              · exact hp _ _ _ (wf_poisonSectors (hw _ _))
              · split
                · split
                  · exact hp _ _ _ (hw _ _)
                  · exact hp _ _ _ hs
                · split
                  · exact hp _ _ _ hs
                  · exact optWf_some hs

theorem wf_writeClone {s : State} {key pa offset : Nat} (hs : Memory.wf s.mem = true) : Memory.wf (writeClone s key pa offset).mem = true := by
  unfold writeClone
  split
  · exact hs
  · extract_lets x view
    clear_value x view
    split
    · exact wf_ite (wf_writeView hs) (wf_writeView hs)
    · extract_lets full y src
      have h : Memory.wf src.mem = true := wf_writeView hs
      clear_value src
      exact wf_poisonSectors (by exact h)

theorem wf_riderPass {s : State} {ch line rev : Nat} {key : Nat} (hs : Memory.wf s.mem = true) : Memory.wf (riderPass s ch line rev key).mem = true := by
  unfold riderPass
  repeat' first
    | assumption
    | with_reducible apply wf_foldl
    | with_reducible exact optWf_none
    | with_reducible apply optWf_some
    | with_reducible apply optWf_map
    | with_reducible apply wf_getD
    | with_reducible apply outWf_next
    | with_reducible apply wf_State_setRider
    | with_reducible apply wf_actLine
    | with_reducible apply wf_writeClone
    | (refine wf_of_pair (by assumption) ?_)
    | (refine wf_of_triple (by assumption) ?_)
    | (refine wf_of_fst (by assumption) ?_)
    | (refine wf_of_opt (by assumption) ?_)
    | intro _
    | split
    | dsimp only

theorem wf_admitAt {s : State} {key ch : Nat} {r : Rider} {x : RiderChan} (hs : Memory.wf s.mem = true) : Memory.wf (admitAt s key ch r x).mem = true := by
  unfold admitAt
  repeat' first
    | assumption
    | with_reducible apply wf_foldl
    | with_reducible exact optWf_none
    | with_reducible apply optWf_some
    | with_reducible apply optWf_map
    | with_reducible apply wf_getD
    | with_reducible apply outWf_next
    | with_reducible apply wf_State_setChan
    | with_reducible apply wf_State_setRider
    | (refine wf_of_pair (by assumption) ?_)
    | (refine wf_of_triple (by assumption) ?_)
    | (refine wf_of_fst (by assumption) ?_)
    | (refine wf_of_opt (by assumption) ?_)
    | intro _
    | split
    | dsimp only

theorem wf_riderAdmit {key ch : Nat} {s : State} (hs : Memory.wf s.mem = true) : Memory.wf (riderAdmit key ch s).mem = true := by
  unfold riderAdmit
  repeat' first
    | assumption
    | with_reducible apply wf_foldl
    | with_reducible exact optWf_none
    | with_reducible apply optWf_some
    | with_reducible apply optWf_map
    | with_reducible apply wf_getD
    | with_reducible apply outWf_next
    | with_reducible apply wf_admitAt
    | (refine wf_of_pair (by assumption) ?_)
    | (refine wf_of_triple (by assumption) ?_)
    | (refine wf_of_fst (by assumption) ?_)
    | (refine wf_of_opt (by assumption) ?_)
    | intro _
    | split
    | dsimp only

theorem wf_takeTicket {s : State} {part : Nat} (hs : Memory.wf s.mem = true) : Memory.wf (takeTicket s part).2.mem = true := by
  unfold takeTicket
  repeat' first
    | assumption
    | with_reducible apply wf_foldl
    | with_reducible exact optWf_none
    | with_reducible apply optWf_some
    | with_reducible apply optWf_map
    | with_reducible apply wf_getD
    | with_reducible apply outWf_next
    | with_reducible apply wf_State_setPart
    | (refine wf_of_pair (by assumption) ?_)
    | (refine wf_of_triple (by assumption) ?_)
    | (refine wf_of_fst (by assumption) ?_)
    | (refine wf_of_opt (by assumption) ?_)
    | intro _
    | split
    | dsimp only

theorem wf_boardAgain {s : State} {parentKey : Nat} {p : Rider} (hs : Memory.wf s.mem = true) : Memory.wf (boardAgain s parentKey p).mem = true := by
  unfold boardAgain
  repeat' first
    | assumption
    | with_reducible apply wf_foldl
    | with_reducible exact optWf_none
    | with_reducible apply optWf_some
    | with_reducible apply optWf_map
    | with_reducible apply wf_getD
    | with_reducible apply outWf_next
    | with_reducible apply wf_State_setRider
    | with_reducible apply wf_riderAdmit
    | with_reducible apply wf_takeTicket
    | (refine wf_of_pair (by assumption) ?_)
    | (refine wf_of_triple (by assumption) ?_)
    | (refine wf_of_fst (by assumption) ?_)
    | (refine wf_of_opt (by assumption) ?_)
    | intro _
    | split
    | dsimp only

theorem wf_anchorsAt {s : State} {ch line : Nat} (hs : Memory.wf s.mem = true) : Memory.wf (anchorsAt s ch line).mem = true := by
  unfold anchorsAt
  repeat' first
    | assumption
    | with_reducible apply wf_foldl
    | with_reducible exact optWf_none
    | with_reducible apply optWf_some
    | with_reducible apply optWf_map
    | with_reducible apply wf_getD
    | with_reducible apply outWf_next
    | with_reducible apply wf_boardAgain
    | (refine wf_of_pair (by assumption) ?_)
    | (refine wf_of_triple (by assumption) ?_)
    | (refine wf_of_fst (by assumption) ?_)
    | (refine wf_of_opt (by assumption) ?_)
    | intro _
    | split
    | dsimp only

theorem wf_leaveCancelled {s : State} {ch : Nat} (hs : Memory.wf s.mem = true) : Memory.wf (leaveCancelled s ch).mem = true := by
  unfold leaveCancelled
  repeat' first
    | assumption
    | with_reducible apply wf_foldl
    | with_reducible exact optWf_none
    | with_reducible apply optWf_some
    | with_reducible apply optWf_map
    | with_reducible apply wf_getD
    | with_reducible apply outWf_next
    | (refine wf_of_pair (by assumption) ?_)
    | (refine wf_of_triple (by assumption) ?_)
    | (refine wf_of_fst (by assumption) ?_)
    | (refine wf_of_opt (by assumption) ?_)
    | intro _
    | split
    | dsimp only

theorem wf_atWrap {s : State} {ch : Nat} (hs : Memory.wf s.mem = true) : Memory.wf (atWrap s ch).mem = true := by
  unfold atWrap
  repeat' first
    | assumption
    | with_reducible apply wf_foldl
    | with_reducible exact optWf_none
    | with_reducible apply optWf_some
    | with_reducible apply optWf_map
    | with_reducible apply wf_getD
    | with_reducible apply outWf_next
    | with_reducible apply wf_State_setChan
    | (refine wf_of_pair (by assumption) ?_)
    | (refine wf_of_triple (by assumption) ?_)
    | (refine wf_of_fst (by assumption) ?_)
    | (refine wf_of_opt (by assumption) ?_)
    | intro _
    | split
    | dsimp only

theorem wf_refreshMove {ch : Nat} {s : State} (hs : Memory.wf s.mem = true) : Memory.wf (refreshMove ch s).mem = true := by
  unfold refreshMove
  repeat' first
    | assumption
    | with_reducible apply wf_foldl
    | with_reducible exact optWf_none
    | with_reducible apply optWf_some
    | with_reducible apply optWf_map
    | with_reducible apply wf_getD
    | with_reducible apply outWf_next
    | with_reducible apply wf_State_setChan
    | (refine wf_of_pair (by assumption) ?_)
    | (refine wf_of_triple (by assumption) ?_)
    | (refine wf_of_fst (by assumption) ?_)
    | (refine wf_of_opt (by assumption) ?_)
    | intro _
    | split
    | dsimp only

theorem wf_directMove {ch : Nat} {s : State} (hs : Memory.wf s.mem = true) : Memory.wf (directMove ch s).mem = true := by
  unfold directMove
  repeat' first
    | assumption
    | with_reducible apply wf_foldl
    | with_reducible exact optWf_none
    | with_reducible apply optWf_some
    | with_reducible apply optWf_map
    | with_reducible apply wf_getD
    | with_reducible apply outWf_next
    | with_reducible apply wf_State_setChan
    | (refine wf_of_pair (by assumption) ?_)
    | (refine wf_of_triple (by assumption) ?_)
    | (refine wf_of_fst (by assumption) ?_)
    | (refine wf_of_opt (by assumption) ?_)
    | intro _
    | split
    | dsimp only

theorem wf_idleMove {ch : Nat} {s : State} (hs : Memory.wf s.mem = true) : Memory.wf (idleMove ch s).mem = true := by
  unfold idleMove
  repeat' first
    | assumption
    | with_reducible apply wf_foldl
    | with_reducible exact optWf_none
    | with_reducible apply optWf_some
    | with_reducible apply optWf_map
    | with_reducible apply wf_getD
    | with_reducible apply outWf_next
    | with_reducible apply wf_State_setChan
    | (refine wf_of_pair (by assumption) ?_)
    | (refine wf_of_triple (by assumption) ?_)
    | (refine wf_of_fst (by assumption) ?_)
    | (refine wf_of_opt (by assumption) ?_)
    | intro _
    | split
    | dsimp only

theorem wf_rangeLines {quad part vbase : Nat} {nd : Need} {v1 : Nat} {v2 : State} (hv2 : Memory.wf v2.mem = true) : Memory.wf (rangeLines quad part vbase nd v1 v2).2.2.mem = true := by
  induction v1 generalizing quad part vbase nd v2 with
  | zero =>
    rw [rangeLines]
    repeat' first
      | assumption
      | with_reducible apply wf_foldl
      | with_reducible exact optWf_none
      | with_reducible apply optWf_some
      | with_reducible apply optWf_map
      | with_reducible apply wf_getD
      | with_reducible apply outWf_next
      | with_reducible apply wf_lookupNoFill
      | (refine wf_of_pair (by assumption) ?_)
      | (refine wf_of_triple (by assumption) ?_)
      | (refine wf_of_fst (by assumption) ?_)
      | (refine wf_of_opt (by assumption) ?_)
      | intro _
      | split
      | dsimp only
  | succ n ih =>
    rw [rangeLines]
    repeat' first
      | assumption
      | with_reducible apply wf_foldl
      | with_reducible exact optWf_none
      | with_reducible apply optWf_some
      | with_reducible apply optWf_map
      | with_reducible apply wf_getD
      | with_reducible apply outWf_next
      | with_reducible apply ih
      | with_reducible apply wf_lookupNoFill
      | (refine wf_of_pair (by assumption) ?_)
      | (refine wf_of_triple (by assumption) ?_)
      | (refine wf_of_fst (by assumption) ?_)
      | (refine wf_of_opt (by assumption) ?_)
      | intro _
      | split
      | dsimp only


theorem wf_landRuns {c part : Nat} {rec_ : BitVec 512} {v1 : Nat} {v2 : State} (hv2 : Memory.wf v2.mem = true) : Memory.wf (landRuns c part rec_ v1 v2).2.2.mem = true := by
  induction v1 generalizing c part rec_ v2 with
  | zero =>
    rw [landRuns]
    repeat' first
      | assumption
      | with_reducible apply wf_foldl
      | with_reducible exact optWf_none
      | with_reducible apply optWf_some
      | with_reducible apply optWf_map
      | with_reducible apply wf_getD
      | with_reducible apply outWf_next
      | with_reducible apply wf_directKeys
      | (refine wf_of_pair (by assumption) ?_)
      | (refine wf_of_triple (by assumption) ?_)
      | (refine wf_of_fst (by assumption) ?_)
      | (refine wf_of_opt (by assumption) ?_)
      | intro _
      | split
      | dsimp only
  | succ n ih =>
    rw [landRuns]
    repeat' first
      | assumption
      | with_reducible apply wf_foldl
      | with_reducible exact optWf_none
      | with_reducible apply optWf_some
      | with_reducible apply optWf_map
      | with_reducible apply wf_getD
      | with_reducible apply outWf_next
      | with_reducible apply ih
      | with_reducible apply wf_directKeys
      | (refine wf_of_pair (by assumption) ?_)
      | (refine wf_of_triple (by assumption) ?_)
      | (refine wf_of_fst (by assumption) ?_)
      | (refine wf_of_opt (by assumption) ?_)
      | intro _
      | split
      | dsimp only


theorem wf_cwordKey {c part : Nat} {used : Bool} {va : Nat} {s : State} (hs : Memory.wf s.mem = true) : Memory.wf (cwordKey c part used va s).2.2.mem = true := by
  unfold cwordKey
  repeat' first
    | assumption
    | with_reducible apply wf_foldl
    | with_reducible exact optWf_none
    | with_reducible apply optWf_some
    | with_reducible apply optWf_map
    | with_reducible apply wf_getD
    | with_reducible apply outWf_next
    | with_reducible apply wf_directKeys
    | (refine wf_of_pair (by assumption) ?_)
    | (refine wf_of_triple (by assumption) ?_)
    | (refine wf_of_fst (by assumption) ?_)
    | (refine wf_of_opt (by assumption) ?_)
    | intro _
    | split
    | dsimp only

theorem wf_prepareRider {s : State} {c t part op sub : Nat} {stand : Bool} {card : BitVec 512} (hs : Memory.wf s.mem = true) : Memory.wf (prepareRider s c t part op sub stand card).2.mem = true := by
  unfold prepareRider
  split
  · exact hs
  · extract_lets quad a d l w n pad meet chans chans2 task j slots pipes room
    have h1 : Memory.wf a.2.2.mem = true := wf_rangeLines hs
    have h2 : Memory.wf d.2.2.mem = true := by
      show Memory.wf (if op = 0xCF then rangeLines quad part (rcDbase card) needWrite (rcLines card) a.2.2 else (none, [], a.2.2)).2.2.mem = true
      split
      · exact wf_rangeLines h1
      · exact h1
    have h3 : Memory.wf l.2.2.mem = true := by
      show Memory.wf (if (decide (op = 0xC8) && rcLand card) = true then landRuns c part (recOf (s.core c) (rcLrec card)) (rcLines card) d.2.2 else (none, [], d.2.2)).2.2.mem = true
      split
      · exact wf_landRuns h2
      · exact h2
    have h4 : Memory.wf w.2.2.mem = true := wf_cwordKey h3
    clear_value w
    split <;> exact h4

theorem wf_enterRider {s : State} {r : Rider} (hs : Memory.wf s.mem = true) : Memory.wf (enterRider s r).2.mem = true := by
  unfold enterRider
  repeat' first
    | assumption
    | with_reducible apply wf_foldl
    | with_reducible exact optWf_none
    | with_reducible apply optWf_some
    | with_reducible apply optWf_map
    | with_reducible apply wf_getD
    | with_reducible apply outWf_next
    | with_reducible apply wf_State_setRider
    | with_reducible apply wf_askLeave
    | with_reducible apply wf_takeTicket
    | (refine wf_of_pair (by assumption) ?_)
    | (refine wf_of_triple (by assumption) ?_)
    | (refine wf_of_fst (by assumption) ?_)
    | (refine wf_of_opt (by assumption) ?_)
    | intro _
    | split
    | dsimp only

theorem outWf_fireBoard {op sub : Nat} {stand : Bool} {w : EpW} {s : State} (hs : Memory.wf s.mem = true) : outWf (fireBoard op sub stand w s) := by
  unfold fireBoard
  repeat' first
    | assumption
    | with_reducible apply wf_foldl
    | with_reducible exact optWf_none
    | with_reducible apply optWf_some
    | with_reducible apply optWf_map
    | with_reducible apply wf_getD
    | with_reducible apply outWf_next
    | with_reducible apply wf_State_setTask
    | with_reducible apply wf_nodeFault
    | with_reducible apply wf_epFired
    | with_reducible apply wf_prepareRider
    | with_reducible apply wf_enterRider
    | (refine wf_of_pair (by assumption) ?_)
    | (refine wf_of_triple (by assumption) ?_)
    | (refine wf_of_fst (by assumption) ?_)
    | (refine wf_of_opt (by assumption) ?_)
    | intro _
    | split
    | dsimp only

theorem wf_orFlags {s : State} {j rank : Nat} {fl : Flags} (hs : Memory.wf s.mem = true) : Memory.wf (orFlags s j rank fl).mem = true := by
  unfold orFlags
  repeat' first
    | assumption
    | with_reducible apply wf_foldl
    | with_reducible exact optWf_none
    | with_reducible apply optWf_some
    | with_reducible apply optWf_map
    | with_reducible apply wf_getD
    | with_reducible apply outWf_next
    | with_reducible apply wf_modTask
    | (refine wf_of_pair (by assumption) ?_)
    | (refine wf_of_triple (by assumption) ?_)
    | (refine wf_of_fst (by assumption) ?_)
    | (refine wf_of_opt (by assumption) ?_)
    | intro _
    | split
    | dsimp only

theorem wf_riderComplete {s : State} {r : Rider} (hs : Memory.wf s.mem = true) : Memory.wf (riderComplete s r).mem = true := by
  unfold riderComplete
  repeat' first
    | assumption
    | with_reducible apply wf_foldl
    | with_reducible exact optWf_none
    | with_reducible apply optWf_some
    | with_reducible apply optWf_map
    | with_reducible apply wf_getD
    | with_reducible apply outWf_next
    | with_reducible apply wf_modTask
    | (refine wf_of_pair (by assumption) ?_)
    | (refine wf_of_triple (by assumption) ?_)
    | (refine wf_of_fst (by assumption) ?_)
    | (refine wf_of_opt (by assumption) ?_)
    | intro _
    | split
    | dsimp only

theorem wf_addInstance {s : State} {pkey : Nat} {r : Rider} (hs : Memory.wf s.mem = true) : Memory.wf (addInstance s pkey r).mem = true := by
  unfold addInstance
  repeat' first
    | assumption
    | with_reducible apply wf_foldl
    | with_reducible exact optWf_none
    | with_reducible apply optWf_some
    | with_reducible apply optWf_map
    | with_reducible apply wf_getD
    | with_reducible apply outWf_next
    | with_reducible apply wf_State_setRider
    | (refine wf_of_pair (by assumption) ?_)
    | (refine wf_of_triple (by assumption) ?_)
    | (refine wf_of_fst (by assumption) ?_)
    | (refine wf_of_opt (by assumption) ?_)
    | intro _
    | split
    | dsimp only

theorem wf_endStanding {s : State} {pkey : Nat} (hs : Memory.wf s.mem = true) : Memory.wf (endStanding s pkey).mem = true := by
  unfold endStanding
  repeat' first
    | assumption
    | with_reducible apply wf_foldl
    | with_reducible exact optWf_none
    | with_reducible apply optWf_some
    | with_reducible apply optWf_map
    | with_reducible apply wf_getD
    | with_reducible apply outWf_next
    | with_reducible apply wf_returnLeave
    | with_reducible apply wf_riderComplete
    | (refine wf_of_pair (by assumption) ?_)
    | (refine wf_of_triple (by assumption) ?_)
    | (refine wf_of_fst (by assumption) ?_)
    | (refine wf_of_opt (by assumption) ?_)
    | intro _
    | split
    | dsimp only

theorem wf_drainAll {s : State} {key : Nat} {r : Rider} (hs : Memory.wf s.mem = true) : Memory.wf (drainAll s key r).mem = true := by
  unfold drainAll
  repeat' first
    | assumption
    | with_reducible apply wf_foldl
    | with_reducible exact optWf_none
    | with_reducible apply optWf_some
    | with_reducible apply optWf_map
    | with_reducible apply wf_getD
    | with_reducible apply outWf_next
    | with_reducible apply wf_drainRider
    | (refine wf_of_pair (by assumption) ?_)
    | (refine wf_of_triple (by assumption) ?_)
    | (refine wf_of_fst (by assumption) ?_)
    | (refine wf_of_opt (by assumption) ?_)
    | intro _
    | split
    | dsimp only

theorem wf_finishRider {s : State} {key : Nat} {r : Rider} (hs : Memory.wf s.mem = true) : Memory.wf (finishRider s key r).mem = true := by
  unfold finishRider
  repeat' first
    | assumption
    | with_reducible apply wf_foldl
    | with_reducible exact optWf_none
    | with_reducible apply optWf_some
    | with_reducible apply optWf_map
    | with_reducible apply wf_getD
    | with_reducible apply outWf_next
    | with_reducible apply wf_returnLeave
    | with_reducible apply wf_orFlags
    | with_reducible apply wf_riderComplete
    | with_reducible apply wf_addInstance
    | with_reducible apply wf_endStanding
    | (refine wf_of_pair (by assumption) ?_)
    | (refine wf_of_triple (by assumption) ?_)
    | (refine wf_of_fst (by assumption) ?_)
    | (refine wf_of_opt (by assumption) ?_)
    | intro _
    | split
    | dsimp only

theorem wf_alightRider {s : State} {key : Nat} {r0 : Rider} (hs : Memory.wf s.mem = true) : Memory.wf (alightRider s key r0).mem = true := by
  unfold alightRider
  split
  · exact wf_finishRider (wf_cwWrite hs)
  · extract_lets s1
    have h1 : Memory.wf s1.mem = true := wf_ite hs (wf_drainAll hs)
    clear_value s1
    split
    · exact hs
    · rename_i r _
      extract_lets op fold
      refine wf_ite h1 ?_
      have h2 : optWf (if fold = true then deliverSlot s1 r.core (rcCbn r.card) (foldSlot r) 0 else some s1) := by
        split
        · exact wf_deliverSlot h1
        · exact optWf_some h1
      split
      · exact h1
      · rename_i e _
        exact wf_finishRider (h2.get _ e)
      · rename_i s2 w e _
        have h3 := h2.get s2 e
        split
        · exact h1
        · exact wf_State_setRider ((wf_cwMove h3).1 _ _ (by assumption))
        · exact wf_finishRider ((wf_cwMove h3).2 _ (by assumption))

theorem wf_cancelRider {s : State} {key : Nat} (hs : Memory.wf s.mem = true) : Memory.wf (cancelRider s key).mem = true := by
  unfold cancelRider
  repeat' first
    | assumption
    | with_reducible apply wf_foldl
    | with_reducible exact optWf_none
    | with_reducible apply optWf_some
    | with_reducible apply optWf_map
    | with_reducible apply wf_getD
    | with_reducible apply outWf_next
    | with_reducible apply wf_cancelRiders
    | (refine wf_of_pair (by assumption) ?_)
    | (refine wf_of_triple (by assumption) ?_)
    | (refine wf_of_fst (by assumption) ?_)
    | (refine wf_of_opt (by assumption) ?_)
    | intro _
    | split
    | dsimp only

theorem outWf_fireCancel {w : EpW} {s : State} (hs : Memory.wf s.mem = true) : outWf (fireCancel w s) := by
  unfold fireCancel
  repeat' first
    | assumption
    | with_reducible apply wf_foldl
    | with_reducible exact optWf_none
    | with_reducible apply optWf_some
    | with_reducible apply optWf_map
    | with_reducible apply wf_getD
    | with_reducible apply outWf_next
    | with_reducible apply wf_epFired
    | with_reducible apply wf_endStanding
    | with_reducible apply wf_cancelRider
    | (refine wf_of_pair (by assumption) ?_)
    | (refine wf_of_triple (by assumption) ?_)
    | (refine wf_of_fst (by assumption) ?_)
    | (refine wf_of_opt (by assumption) ?_)
    | intro _
    | split
    | dsimp only

theorem outWf_fireWait {w : EpW} {s : State} (hs : Memory.wf s.mem = true) : outWf (fireWait w s) := by
  unfold fireWait
  repeat' first
    | assumption
    | with_reducible apply wf_foldl
    | with_reducible exact optWf_none
    | with_reducible apply optWf_some
    | with_reducible apply optWf_map
    | with_reducible apply wf_getD
    | with_reducible apply outWf_next
    | with_reducible apply wf_nodeFault
    | with_reducible apply wf_acquireAt
    | with_reducible apply wf_epFired
    | (refine wf_of_pair (by assumption) ?_)
    | (refine wf_of_triple (by assumption) ?_)
    | (refine wf_of_fst (by assumption) ?_)
    | (refine wf_of_opt (by assumption) ?_)
    | intro _
    | split
    | dsimp only

theorem outWf_fireCursor {w : EpW} {s : State} (hs : Memory.wf s.mem = true) : outWf (fireCursor w s) := by
  unfold fireCursor
  repeat' first
    | assumption
    | with_reducible apply wf_foldl
    | with_reducible exact optWf_none
    | with_reducible apply optWf_some
    | with_reducible apply optWf_map
    | with_reducible apply wf_getD
    | with_reducible apply outWf_next
    | with_reducible apply wf_nodeFault
    | with_reducible apply wf_epFired
    | (refine wf_of_pair (by assumption) ?_)
    | (refine wf_of_triple (by assumption) ?_)
    | (refine wf_of_fst (by assumption) ?_)
    | (refine wf_of_opt (by assumption) ?_)
    | intro _
    | split
    | dsimp only

theorem outWf_fireBcfg {w : EpW} {s : State} (hs : Memory.wf s.mem = true) : outWf (fireBcfg w s) := by
  unfold fireBcfg
  repeat' first
    | assumption
    | with_reducible apply wf_foldl
    | with_reducible exact optWf_none
    | with_reducible apply optWf_some
    | with_reducible apply optWf_map
    | with_reducible apply wf_getD
    | with_reducible apply outWf_next
    | with_reducible apply wf_State_setTask
    | with_reducible apply wf_loadImage
    | with_reducible apply wf_nodeFault
    | with_reducible apply wf_epFired
    | with_reducible apply wf_enterRider
    | (refine wf_of_pair (by assumption) ?_)
    | (refine wf_of_triple (by assumption) ?_)
    | (refine wf_of_fst (by assumption) ?_)
    | (refine wf_of_opt (by assumption) ?_)
    | intro _
    | split
    | dsimp only

theorem wf_readStored {c part fmt c0 va : Nat} {foot : Bool} {s : State} (hs : Memory.wf s.mem = true) : Memory.wf (readStored c part fmt c0 va foot s).2.mem = true := by
  unfold readStored
  repeat' first
    | assumption
    | with_reducible apply wf_foldl
    | with_reducible exact optWf_none
    | with_reducible apply optWf_some
    | with_reducible apply optWf_map
    | with_reducible apply wf_getD
    | with_reducible apply outWf_next
    | with_reducible apply wf_runKeys
    | with_reducible apply wf_checkKeys
    | with_reducible apply wf_podSendRuns
    | (refine wf_of_pair (by assumption) ?_)
    | (refine wf_of_triple (by assumption) ?_)
    | (refine wf_of_fst (by assumption) ?_)
    | (refine wf_of_opt (by assumption) ?_)
    | intro _
    | split
    | dsimp only

theorem wf_readElem {c part : Nat} {card : Option (BitVec 512)} {r : BitVec 512} {c0 c1 : Nat} {s : State} (hs : Memory.wf s.mem = true) : Memory.wf (readElem c part card r c0 c1 s).2.mem = true := by
  unfold readElem
  repeat' first
    | assumption
    | with_reducible apply wf_foldl
    | with_reducible exact optWf_none
    | with_reducible apply optWf_some
    | with_reducible apply optWf_map
    | with_reducible apply wf_getD
    | with_reducible apply outWf_next
    | with_reducible apply wf_readStored
    | (refine wf_of_pair (by assumption) ?_)
    | (refine wf_of_triple (by assumption) ?_)
    | (refine wf_of_fst (by assumption) ?_)
    | (refine wf_of_opt (by assumption) ?_)
    | intro _
    | split
    | dsimp only

theorem wf_readElems {c part : Nat} {card : Option (BitVec 512)} {r : BitVec 512} {v1 : List (Nat × Nat)} {v2 : State} (hv2 : Memory.wf v2.mem = true) : Memory.wf (readElems c part card r v1 v2).2.mem = true := by
  induction v1 generalizing c part card r v2 with
  | nil =>
    rw [readElems]
    repeat' first
      | assumption
      | with_reducible apply wf_foldl
      | with_reducible exact optWf_none
      | with_reducible apply optWf_some
      | with_reducible apply optWf_map
      | with_reducible apply wf_getD
      | with_reducible apply outWf_next
      | with_reducible apply wf_readElem
      | (refine wf_of_pair (by assumption) ?_)
      | (refine wf_of_triple (by assumption) ?_)
      | (refine wf_of_fst (by assumption) ?_)
      | (refine wf_of_opt (by assumption) ?_)
      | intro _
      | split
      | dsimp only
  | cons x xs ih =>
    rw [readElems]
    repeat' first
      | assumption
      | with_reducible apply wf_foldl
      | with_reducible exact optWf_none
      | with_reducible apply optWf_some
      | with_reducible apply optWf_map
      | with_reducible apply wf_getD
      | with_reducible apply outWf_next
      | with_reducible apply ih
      | with_reducible apply wf_readElem
      | (refine wf_of_pair (by assumption) ?_)
      | (refine wf_of_triple (by assumption) ?_)
      | (refine wf_of_fst (by assumption) ?_)
      | (refine wf_of_opt (by assumption) ?_)
      | intro _
      | split
      | dsimp only


theorem wf_writeRuns {c part : Nat} {card : Option (BitVec 512)} {r : BitVec 512} {c0 c1 n : Nat} {s : State} (hs : Memory.wf s.mem = true) : Memory.wf (writeRuns c part card r c0 c1 n s).2.mem = true := by
  unfold writeRuns
  repeat' first
    | assumption
    | with_reducible apply wf_foldl
    | with_reducible exact optWf_none
    | with_reducible apply optWf_some
    | with_reducible apply optWf_map
    | with_reducible apply wf_getD
    | with_reducible apply outWf_next
    | with_reducible apply wf_runKeys
    | (refine wf_of_pair (by assumption) ?_)
    | (refine wf_of_triple (by assumption) ?_)
    | (refine wf_of_fst (by assumption) ?_)
    | (refine wf_of_opt (by assumption) ?_)
    | intro _
    | split
    | dsimp only

theorem wf_doPut {s : State} {p : Put} (hs : Memory.wf s.mem = true) : Memory.wf (doPut s p).mem = true := by
  unfold doPut
  repeat' first
    | assumption
    | with_reducible apply wf_foldl
    | with_reducible exact optWf_none
    | with_reducible apply optWf_some
    | with_reducible apply optWf_map
    | with_reducible apply wf_getD
    | with_reducible apply outWf_next
    | with_reducible apply wf_writeKeys
    | with_reducible apply wf_podSendRuns
    | (refine wf_of_pair (by assumption) ?_)
    | (refine wf_of_triple (by assumption) ?_)
    | (refine wf_of_fst (by assumption) ?_)
    | (refine wf_of_opt (by assumption) ?_)
    | intro _
    | split
    | dsimp only

theorem wf_resolvePuts {c part : Nat} {card : Option (BitVec 512)} {r : BitVec 512} {poison : Bool} {v1 : List (Nat × Nat × Nat × Nat)} {v2 : State} (hv2 : Memory.wf v2.mem = true) : Memory.wf (resolvePuts c part card r poison v1 v2).2.mem = true := by
  induction v1 generalizing c part card r poison v2 with
  | nil =>
    rw [resolvePuts]
    repeat' first
      | assumption
      | with_reducible apply wf_foldl
      | with_reducible exact optWf_none
      | with_reducible apply optWf_some
      | with_reducible apply optWf_map
      | with_reducible apply wf_getD
      | with_reducible apply outWf_next
      | with_reducible apply wf_writeRuns
      | (refine wf_of_pair (by assumption) ?_)
      | (refine wf_of_triple (by assumption) ?_)
      | (refine wf_of_fst (by assumption) ?_)
      | (refine wf_of_opt (by assumption) ?_)
      | intro _
      | split
      | dsimp only
  | cons x xs ih =>
    rw [resolvePuts]
    repeat' first
      | assumption
      | with_reducible apply wf_foldl
      | with_reducible exact optWf_none
      | with_reducible apply optWf_some
      | with_reducible apply optWf_map
      | with_reducible apply wf_getD
      | with_reducible apply outWf_next
      | with_reducible apply ih
      | with_reducible apply wf_writeRuns
      | (refine wf_of_pair (by assumption) ?_)
      | (refine wf_of_triple (by assumption) ?_)
      | (refine wf_of_fst (by assumption) ?_)
      | (refine wf_of_opt (by assumption) ?_)
      | intro _
      | split
      | dsimp only


theorem wf_setAccRow {s : State} {c : Nat} {task : Task} {row : Nat} {v : BitVec 512} (hs : Memory.wf s.mem = true) : Memory.wf (setAccRow s c task row v).mem = true := by
  unfold setAccRow
  repeat' first
    | assumption
    | with_reducible apply wf_foldl
    | with_reducible exact optWf_none
    | with_reducible apply optWf_some
    | with_reducible apply optWf_map
    | with_reducible apply wf_getD
    | with_reducible apply outWf_next
    | with_reducible apply wf_State_setCore
    | (refine wf_of_pair (by assumption) ?_)
    | (refine wf_of_triple (by assumption) ?_)
    | (refine wf_of_fst (by assumption) ?_)
    | (refine wf_of_opt (by assumption) ?_)
    | intro _
    | split
    | dsimp only

theorem wf_readUnfold {c part : Nat} {card r : BitVec 512} {m : Nat} {v1 : Nat} {v2 : State} (hv2 : Memory.wf v2.mem = true) : Memory.wf (readUnfold c part card r m v1 v2).2.mem = true := by
  induction v1 generalizing c part card r m v2 with
  | zero =>
    rw [readUnfold]
    repeat' first
      | assumption
      | with_reducible apply wf_foldl
      | with_reducible exact optWf_none
      | with_reducible apply optWf_some
      | with_reducible apply optWf_map
      | with_reducible apply wf_getD
      | with_reducible apply outWf_next
      | with_reducible apply wf_readStored
      | (refine wf_of_pair (by assumption) ?_)
      | (refine wf_of_triple (by assumption) ?_)
      | (refine wf_of_fst (by assumption) ?_)
      | (refine wf_of_opt (by assumption) ?_)
      | intro _
      | split
      | dsimp only
  | succ n ih =>
    rw [readUnfold]
    repeat' first
      | assumption
      | with_reducible apply wf_foldl
      | with_reducible exact optWf_none
      | with_reducible apply optWf_some
      | with_reducible apply optWf_map
      | with_reducible apply wf_getD
      | with_reducible apply outWf_next
      | with_reducible apply ih
      | with_reducible apply wf_readStored
      | (refine wf_of_pair (by assumption) ?_)
      | (refine wf_of_triple (by assumption) ?_)
      | (refine wf_of_fst (by assumption) ?_)
      | (refine wf_of_opt (by assumption) ?_)
      | intro _
      | split
      | dsimp only


theorem wf_rowErr {i : FaultInfo} {gen iter : Nat} {s : State} (hs : Memory.wf s.mem = true) : Memory.wf (rowErr i gen iter s).2.mem = true := by
  unfold rowErr
  repeat' first
    | assumption
    | with_reducible apply wf_foldl
    | with_reducible exact optWf_none
    | with_reducible apply optWf_some
    | with_reducible apply optWf_map
    | with_reducible apply wf_getD
    | with_reducible apply outWf_next
    | (refine wf_of_pair (by assumption) ?_)
    | (refine wf_of_triple (by assumption) ?_)
    | (refine wf_of_fst (by assumption) ?_)
    | (refine wf_of_opt (by assumption) ?_)
    | intro _
    | split
    | dsimp only

theorem wf_latchRow {c part : Nat} {foot : Option (BitVec 512)} {r : BitVec 512} {fmtOk : Bool} {src : BitVec 512} {k : Nat} {s : State} (hs : Memory.wf s.mem = true) : Memory.wf (latchRow c part foot r fmtOk src k s).2.mem = true := by
  unfold latchRow
  repeat' first
    | assumption
    | with_reducible apply wf_foldl
    | with_reducible exact optWf_none
    | with_reducible apply optWf_some
    | with_reducible apply optWf_map
    | with_reducible apply wf_getD
    | with_reducible apply outWf_next
    | with_reducible apply wf_readElems
    | (refine wf_of_pair (by assumption) ?_)
    | (refine wf_of_triple (by assumption) ?_)
    | (refine wf_of_fst (by assumption) ?_)
    | (refine wf_of_opt (by assumption) ?_)
    | intro _
    | split
    | dsimp only

theorem wf_latchStep {c t : Nat} {task : Task} {card : Card} {s : State} (hs : Memory.wf s.mem = true) : Memory.wf (latchStep c t task card s).2.mem = true := by
  unfold latchStep
  repeat' first
    | assumption
    | with_reducible apply wf_foldl
    | with_reducible exact optWf_none
    | with_reducible apply optWf_some
    | with_reducible apply optWf_map
    | with_reducible apply wf_getD
    | with_reducible apply outWf_next
    | with_reducible apply wf_State_setTask
    | with_reducible apply wf_latchRow
    | (refine wf_of_pair (by assumption) ?_)
    | (refine wf_of_triple (by assumption) ?_)
    | (refine wf_of_fst (by assumption) ?_)
    | (refine wf_of_opt (by assumption) ?_)
    | intro _
    | split
    | dsimp only

theorem wf_relatchStep {c t : Nat} {task : Task} {card : Card} {s : State} (hs : Memory.wf s.mem = true) : Memory.wf (relatchStep c t task card s).2.mem = true := by
  unfold relatchStep
  repeat' first
    | assumption
    | with_reducible apply wf_foldl
    | with_reducible exact optWf_none
    | with_reducible apply optWf_some
    | with_reducible apply optWf_map
    | with_reducible apply wf_getD
    | with_reducible apply outWf_next
    | with_reducible apply wf_State_setTask
    | with_reducible apply wf_latchRow
    | (refine wf_of_pair (by assumption) ?_)
    | (refine wf_of_triple (by assumption) ?_)
    | (refine wf_of_fst (by assumption) ?_)
    | (refine wf_of_opt (by assumption) ?_)
    | intro _
    | split
    | dsimp only

theorem wf_streamRow {c : Nat} {task : Task} {card : Card} {s : State} (hs : Memory.wf s.mem = true) : Memory.wf (streamRow c task card s).2.mem = true := by
  unfold streamRow
  repeat' first
    | assumption
    | with_reducible apply wf_foldl
    | with_reducible exact optWf_none
    | with_reducible apply optWf_some
    | with_reducible apply optWf_map
    | with_reducible apply wf_getD
    | with_reducible apply outWf_next
    | with_reducible apply wf_readElems
    | with_reducible apply wf_setAccRow
    | with_reducible apply wf_readUnfold
    | with_reducible apply wf_rowErr
    | (refine wf_of_pair (by assumption) ?_)
    | (refine wf_of_triple (by assumption) ?_)
    | (refine wf_of_fst (by assumption) ?_)
    | (refine wf_of_opt (by assumption) ?_)
    | intro _
    | split
    | dsimp only

theorem wf_drainRow {c t : Nat} {task : Task} {card : Card} {s : State} (hs : Memory.wf s.mem = true) : Memory.wf (drainRow c t task card s).2.mem = true := by
  unfold drainRow
  repeat' first
    | assumption
    | with_reducible apply wf_foldl
    | with_reducible exact optWf_none
    | with_reducible apply optWf_some
    | with_reducible apply optWf_map
    | with_reducible apply wf_getD
    | with_reducible apply outWf_next
    | with_reducible apply wf_raiseFlags
    | with_reducible apply wf_doPut
    | with_reducible apply wf_resolvePuts
    | with_reducible apply wf_setAccRow
    | with_reducible apply wf_rowErr
    | (refine wf_of_pair (by assumption) ?_)
    | (refine wf_of_triple (by assumption) ?_)
    | (refine wf_of_fst (by assumption) ?_)
    | (refine wf_of_opt (by assumption) ?_)
    | intro _
    | split
    | dsimp only

theorem wf_accStoreRow {c : Nat} {task : Task} {card : Card} {s : State} (hs : Memory.wf s.mem = true) : Memory.wf (accStoreRow c task card s).2.mem = true := by
  unfold accStoreRow
  repeat' first
    | assumption
    | with_reducible apply wf_foldl
    | with_reducible exact optWf_none
    | with_reducible apply optWf_some
    | with_reducible apply optWf_map
    | with_reducible apply wf_getD
    | with_reducible apply outWf_next
    | with_reducible apply wf_readElems
    | with_reducible apply wf_doPut
    | with_reducible apply wf_resolvePuts
    | with_reducible apply wf_setAccRow
    | with_reducible apply wf_rowErr
    | (refine wf_of_pair (by assumption) ?_)
    | (refine wf_of_triple (by assumption) ?_)
    | (refine wf_of_fst (by assumption) ?_)
    | (refine wf_of_opt (by assumption) ?_)
    | intro _
    | split
    | dsimp only

theorem wf_listLines {quad part : Nat} {nd : Need} {v1 : List (Nat × Nat)} {v2 : State} (hv2 : Memory.wf v2.mem = true) : Memory.wf (listLines quad part nd v1 v2).2.2.mem = true := by
  induction v1 generalizing quad part nd v2 with
  | nil =>
    rw [listLines]
    repeat' first
      | assumption
      | with_reducible apply wf_foldl
      | with_reducible exact optWf_none
      | with_reducible apply optWf_some
      | with_reducible apply optWf_map
      | with_reducible apply wf_getD
      | with_reducible apply outWf_next
      | with_reducible apply wf_lookupNoFill
      | (refine wf_of_pair (by assumption) ?_)
      | (refine wf_of_triple (by assumption) ?_)
      | (refine wf_of_fst (by assumption) ?_)
      | (refine wf_of_opt (by assumption) ?_)
      | intro _
      | split
      | dsimp only
  | cons x xs ih =>
    rw [listLines]
    repeat' first
      | assumption
      | with_reducible apply wf_foldl
      | with_reducible exact optWf_none
      | with_reducible apply optWf_some
      | with_reducible apply optWf_map
      | with_reducible apply wf_getD
      | with_reducible apply outWf_next
      | with_reducible apply ih
      | with_reducible apply wf_lookupNoFill
      | (refine wf_of_pair (by assumption) ?_)
      | (refine wf_of_triple (by assumption) ?_)
      | (refine wf_of_fst (by assumption) ?_)
      | (refine wf_of_opt (by assumption) ?_)
      | intro _
      | split
      | dsimp only


theorem wf_boardReader {s : State} {c part j rank : Nat} {lines : List Nat} (hs : Memory.wf s.mem = true) : Memory.wf (boardReader s c part j rank lines).2.mem = true := by
  unfold boardReader
  repeat' first
    | assumption
    | with_reducible apply wf_foldl
    | with_reducible exact optWf_none
    | with_reducible apply optWf_some
    | with_reducible apply optWf_map
    | with_reducible apply wf_getD
    | with_reducible apply outWf_next
    | with_reducible apply wf_enterRider
    | with_reducible apply wf_listLines
    | (refine wf_of_pair (by assumption) ?_)
    | (refine wf_of_triple (by assumption) ?_)
    | (refine wf_of_fst (by assumption) ?_)
    | (refine wf_of_opt (by assumption) ?_)
    | intro _
    | split
    | dsimp only

theorem wf_boardDeposit {s : State} {c part j rank : Nat} {lines : List (Nat × Nat)} {bad : List (Nat × Nat)} (hs : Memory.wf s.mem = true) : Memory.wf (boardDeposit s c part j rank lines bad).2.mem = true := by
  unfold boardDeposit
  repeat' first
    | assumption
    | with_reducible apply wf_foldl
    | with_reducible exact optWf_none
    | with_reducible apply optWf_some
    | with_reducible apply optWf_map
    | with_reducible apply wf_getD
    | with_reducible apply outWf_next
    | with_reducible apply wf_enterRider
    | with_reducible apply wf_listLines
    | (refine wf_of_pair (by assumption) ?_)
    | (refine wf_of_triple (by assumption) ?_)
    | (refine wf_of_fst (by assumption) ?_)
    | (refine wf_of_opt (by assumption) ?_)
    | intro _
    | split
    | dsimp only

theorem wf_mxvRow {c part : Nat} {card : BitVec 512} {drec : BitVec 512} {m : Nat} {outs : List (Nat × Bool)} {s : State} (hs : Memory.wf s.mem = true) : Memory.wf (mxvRow c part card drec m outs s).2.mem = true := by
  unfold mxvRow
  dsimp only
  split
  · refine wf_foldl_at (fun a : _ × State => a.2) (fun a x h => ?_) _ hs
    split
    · exact h
    · split
      · exact wf_of_pair (by assumption) (wf_resolvePuts h)
      · exact wf_of_pair (by assumption) (wf_resolvePuts h)
  · refine wf_foldl_at (fun a : _ × State => a.2) (fun a x h => ?_) _ hs
    split
    · exact h
    · split
      · exact wf_of_pair (by assumption) (wf_resolvePuts h)
      · exact wf_of_pair (by assumption) (wf_resolvePuts h)

theorem wf_prepareBank {s : State} {c t : Nat} {task : Task} {card : BitVec 512} {ty : Option Nat} {rows : Nat} (hs : Memory.wf s.mem = true) : Memory.wf (prepareBank s c t task card ty rows).2.mem = true := by
  unfold prepareBank
  repeat' first
    | assumption
    | with_reducible apply wf_foldl
    | with_reducible exact optWf_none
    | with_reducible apply optWf_some
    | with_reducible apply optWf_map
    | with_reducible apply wf_getD
    | with_reducible apply outWf_next
    | with_reducible apply wf_readElems
    | with_reducible apply wf_listLines
    | (refine wf_of_pair (by assumption) ?_)
    | (refine wf_of_triple (by assumption) ?_)
    | (refine wf_of_fst (by assumption) ?_)
    | (refine wf_of_opt (by assumption) ?_)
    | intro _
    | split
    | dsimp only

theorem wf_writeRows {c part : Nat} {card drec : BitVec 512} {outs : Nat → List (Nat × Bool)} {rows : Nat} {s : State} (hs : Memory.wf s.mem = true) : Memory.wf (writeRows c part card drec outs rows s).2.mem = true := by
  unfold writeRows
  refine wf_foldl_at (fun a : BankOut × State => a.2) (fun a x h => ?_) _ hs
  dsimp only
  split
  · exact h
  · split
    · exact wf_of_pair (by assumption) (wf_mxvRow h)
    · have h2 := wf_of_pair (by assumption) (wf_mxvRow h)
      exact wf_foldl (fun s x h => wf_doPut h) _ h2

theorem wf_bankRows {s : State} {r : Rider} (hs : Memory.wf s.mem = true) : Memory.wf (bankRows s r).2.mem = true := by
  unfold bankRows
  repeat' first
    | assumption
    | with_reducible apply wf_foldl
    | with_reducible exact optWf_none
    | with_reducible apply optWf_some
    | with_reducible apply optWf_map
    | with_reducible apply wf_getD
    | with_reducible apply outWf_next
    | with_reducible apply wf_writeRows
    | (refine wf_of_pair (by assumption) ?_)
    | (refine wf_of_triple (by assumption) ?_)
    | (refine wf_of_fst (by assumption) ?_)
    | (refine wf_of_opt (by assumption) ?_)
    | intro _
    | split
    | dsimp only

theorem wf_poisonRows {s : State} {c part : Nat} {card : BitVec 512} {rows : Nat} (hs : Memory.wf s.mem = true) : Memory.wf (poisonRows s c part card rows).2.mem = true := by
  unfold poisonRows
  repeat' first
    | assumption
    | with_reducible apply wf_foldl
    | with_reducible exact optWf_none
    | with_reducible apply optWf_some
    | with_reducible apply optWf_map
    | with_reducible apply wf_getD
    | with_reducible apply outWf_next
    | with_reducible apply wf_writeRows
    | (refine wf_of_pair (by assumption) ?_)
    | (refine wf_of_triple (by assumption) ?_)
    | (refine wf_of_fst (by assumption) ?_)
    | (refine wf_of_opt (by assumption) ?_)
    | intro _
    | split
    | dsimp only

theorem wf_bankArrives {s : State} {j rank seq : Nat} {status : Word32} {mask : BitVec 384} {wrote : List (Nat × Nat)} (hs : Memory.wf s.mem = true) : Memory.wf (bankArrives s j rank seq status mask wrote).mem = true := by
  unfold bankArrives
  repeat' first
    | assumption
    | with_reducible apply wf_foldl
    | with_reducible exact optWf_none
    | with_reducible apply optWf_some
    | with_reducible apply optWf_map
    | with_reducible apply wf_getD
    | with_reducible apply outWf_next
    | with_reducible apply wf_modTask
    | (refine wf_of_pair (by assumption) ?_)
    | (refine wf_of_triple (by assumption) ?_)
    | (refine wf_of_fst (by assumption) ?_)
    | (refine wf_of_opt (by assumption) ?_)
    | intro _
    | split
    | dsimp only

theorem wf_alightBank {s : State} {key : Nat} {r : Rider} (hs : Memory.wf s.mem = true) : Memory.wf (alightBank s key r).mem = true := by
  unfold alightBank
  extract_lets b
  have hb : Memory.wf b.2.mem = true := wf_bankRows (s := { s with riders := tabDel s.riders key }) hs
  clear_value b
  split
  · exact hs
  · rename_i u st v _
    have hv : Memory.wf v.mem = true := wf_ite (wf_returnLeave (wf_orFlags hb)) (wf_orFlags hb)
    clear_value v
    exact wf_ite (wf_bankArrives hv) (wf_riderComplete hv)

theorem outWf_fireMatrix {op : Nat} {w : EpW} {sub : BitVec 8} {s : State} (hs : Memory.wf s.mem = true) : outWf (fireMatrix op w sub s) := by
  unfold fireMatrix
  repeat' first
    | assumption
    | with_reducible apply wf_foldl
    | with_reducible exact optWf_none
    | with_reducible apply optWf_some
    | with_reducible apply optWf_map
    | with_reducible apply wf_getD
    | with_reducible apply outWf_next
    | with_reducible apply wf_State_setTask
    | with_reducible apply wf_nodeFault
    | with_reducible apply wf_epFired
    | (refine wf_of_pair (by assumption) ?_)
    | (refine wf_of_triple (by assumption) ?_)
    | (refine wf_of_fst (by assumption) ?_)
    | (refine wf_of_opt (by assumption) ?_)
    | intro _
    | split
    | dsimp only

theorem outWf_fireBmac {w : EpW} {s : State} (hs : Memory.wf s.mem = true) : outWf (fireBmac w s) := by
  unfold fireBmac
  repeat' first
    | assumption
    | with_reducible apply wf_foldl
    | with_reducible exact optWf_none
    | with_reducible apply optWf_some
    | with_reducible apply optWf_map
    | with_reducible apply wf_getD
    | with_reducible apply outWf_next
    | with_reducible apply wf_State_setTask
    | with_reducible apply wf_nodeFault
    | with_reducible apply wf_epFired
    | with_reducible apply wf_enterRider
    | with_reducible apply wf_prepareBank
    | (refine wf_of_pair (by assumption) ?_)
    | (refine wf_of_triple (by assumption) ?_)
    | (refine wf_of_fst (by assumption) ?_)
    | (refine wf_of_opt (by assumption) ?_)
    | intro _
    | split
    | dsimp only

theorem wf_putCard {s : State} {c t chain : Nat} {k : Card} (hs : Memory.wf s.mem = true) : Memory.wf (putCard s c t chain k).mem = true := by
  unfold putCard
  repeat' first
    | assumption
    | with_reducible apply wf_foldl
    | with_reducible exact optWf_none
    | with_reducible apply optWf_some
    | with_reducible apply optWf_map
    | with_reducible apply wf_getD
    | with_reducible apply outWf_next
    | with_reducible apply wf_State_setTask
    | (refine wf_of_pair (by assumption) ?_)
    | (refine wf_of_triple (by assumption) ?_)
    | (refine wf_of_fst (by assumption) ?_)
    | (refine wf_of_opt (by assumption) ?_)
    | intro _
    | split
    | dsimp only

theorem wf_startBank {s : State} {c t : Nat} {task : Task} {k : Card} (hs : Memory.wf s.mem = true) : optWf (startBank s c t task k) := by
  unfold startBank
  split
  · exact optWf_some hs
  · split
    · rename_i e
      have h := wf_of_pair e (wf_prepareBank hs)
      dsimp only
      split
      · exact optWf_none
      · exact optWf_some (wf_putCard (wf_poisonRows h))
    · rename_i e
      have h := wf_of_pair e (wf_prepareBank hs)
      split
      · exact optWf_none
      · exact optWf_some (wf_putCard (wf_enterRider h))

theorem wf_startMatrix {c t : Nat} {task : Task} {k : Card} {s : State} (hs : Memory.wf s.mem = true) : Memory.wf (startMatrix c t task k s).mem = true := by
  unfold startMatrix
  repeat' first
    | assumption
    | with_reducible apply wf_foldl
    | with_reducible exact optWf_none
    | with_reducible apply optWf_some
    | with_reducible apply optWf_map
    | with_reducible apply wf_getD
    | with_reducible apply outWf_next
    | with_reducible apply wf_askLeave
    | with_reducible apply wf_putCard
    | with_reducible apply wf_startBank
    | (refine wf_of_pair (by assumption) ?_)
    | (refine wf_of_triple (by assumption) ?_)
    | (refine wf_of_fst (by assumption) ?_)
    | (refine wf_of_opt (by assumption) ?_)
    | intro _
    | split
    | dsimp only

theorem wf_mxvStep {c t : Nat} {task : Task} {k : Card} {s : State} (hs : Memory.wf s.mem = true) : Memory.wf (mxvStep c t task k s).2.mem = true := by
  unfold mxvStep
  repeat' first
    | assumption
    | with_reducible apply wf_foldl
    | with_reducible exact optWf_none
    | with_reducible apply optWf_some
    | with_reducible apply optWf_map
    | with_reducible apply wf_getD
    | with_reducible apply outWf_next
    | with_reducible apply wf_raiseFlags
    | with_reducible apply wf_readElems
    | with_reducible apply wf_doPut
    | with_reducible apply wf_rowErr
    | with_reducible apply wf_boardReader
    | with_reducible apply wf_mxvRow
    | (refine wf_of_pair (by assumption) ?_)
    | (refine wf_of_triple (by assumption) ?_)
    | (refine wf_of_fst (by assumption) ?_)
    | (refine wf_of_opt (by assumption) ?_)
    | intro _
    | split
    | dsimp only

theorem wf_matrixRow {c t : Nat} {task : Task} {k : Card} {s : State} (hs : Memory.wf s.mem = true) : Memory.wf (matrixRow c t task k s).2.mem = true := by
  unfold matrixRow
  repeat' first
    | assumption
    | with_reducible apply wf_foldl
    | with_reducible exact optWf_none
    | with_reducible apply optWf_some
    | with_reducible apply optWf_map
    | with_reducible apply wf_getD
    | with_reducible apply outWf_next
    | with_reducible apply wf_latchStep
    | with_reducible apply wf_relatchStep
    | with_reducible apply wf_streamRow
    | with_reducible apply wf_drainRow
    | with_reducible apply wf_accStoreRow
    | with_reducible apply wf_mxvStep
    | (refine wf_of_pair (by assumption) ?_)
    | (refine wf_of_triple (by assumption) ?_)
    | (refine wf_of_fst (by assumption) ?_)
    | (refine wf_of_opt (by assumption) ?_)
    | intro _
    | split
    | dsimp only

theorem wf_afterRow {s0 : State} {c t chain : Nat} {k : Card} {r : RowOut} (h0 : Memory.wf s0.mem = true) (h : Memory.wf r.2.mem = true) :
    Memory.wf (afterRow s0 c t chain k r).mem = true := by
  unfold afterRow
  split
  · exact wf_putCard h
  · exact wf_ite h0 (wf_putCard h)

theorem wf_cardFaultMove {c t chain seq : Nat} {s : State} (hs : Memory.wf s.mem = true) : Memory.wf (cardFaultMove c t chain seq s).mem = true := by
  unfold cardFaultMove
  repeat' first
    | assumption
    | with_reducible apply wf_foldl
    | with_reducible exact optWf_none
    | with_reducible apply optWf_some
    | with_reducible apply optWf_map
    | with_reducible apply wf_getD
    | with_reducible apply outWf_next
    | with_reducible apply wf_takeFault
    | with_reducible apply wf_putCard
    | (refine wf_of_pair (by assumption) ?_)
    | (refine wf_of_triple (by assumption) ?_)
    | (refine wf_of_fst (by assumption) ?_)
    | (refine wf_of_opt (by assumption) ?_)
    | intro _
    | split
    | dsimp only

theorem wf_dropWritten {s : State} {c : Nat} {ks : List (Nat × Nat)} (hs : Memory.wf s.mem = true) : Memory.wf (dropWritten s c ks).mem = true := by
  unfold dropWritten
  repeat' first
    | assumption
    | with_reducible apply wf_foldl
    | with_reducible exact optWf_none
    | with_reducible apply optWf_some
    | with_reducible apply optWf_map
    | with_reducible apply wf_getD
    | with_reducible apply outWf_next
    | with_reducible apply wf_State_setCore
    | (refine wf_of_pair (by assumption) ?_)
    | (refine wf_of_triple (by assumption) ?_)
    | (refine wf_of_fst (by assumption) ?_)
    | (refine wf_of_opt (by assumption) ?_)
    | intro _
    | split
    | dsimp only

theorem wf_finishCard {s : State} {c t chain weight : Nat} {k : Card} (hs : Memory.wf s.mem = true) : Memory.wf (finishCard s c t chain weight k).mem = true := by
  unfold finishCard
  repeat' first
    | assumption
    | with_reducible apply wf_foldl
    | with_reducible exact optWf_none
    | with_reducible apply optWf_some
    | with_reducible apply optWf_map
    | with_reducible apply wf_getD
    | with_reducible apply outWf_next
    | with_reducible apply wf_State_setTask
    | with_reducible apply wf_returnLeave
    | with_reducible apply wf_dropWritten
    | (refine wf_of_pair (by assumption) ?_)
    | (refine wf_of_triple (by assumption) ?_)
    | (refine wf_of_fst (by assumption) ?_)
    | (refine wf_of_opt (by assumption) ?_)
    | intro _
    | split
    | dsimp only

theorem wf_completeMatrix {c t : Nat} {k : Card} {s : State} (hs : Memory.wf s.mem = true) : Memory.wf (completeMatrix c t k s).mem = true := by
  unfold completeMatrix
  repeat' first
    | assumption
    | with_reducible apply wf_foldl
    | with_reducible exact optWf_none
    | with_reducible apply optWf_some
    | with_reducible apply optWf_map
    | with_reducible apply wf_getD
    | with_reducible apply outWf_next
    | with_reducible apply wf_finishCard
    | (refine wf_of_pair (by assumption) ?_)
    | (refine wf_of_triple (by assumption) ?_)
    | (refine wf_of_fst (by assumption) ?_)
    | (refine wf_of_opt (by assumption) ?_)
    | intro _
    | split
    | dsimp only

theorem wf_sweptLines {quad part : Nat} {r : BitVec 512} {s : State} (hs : Memory.wf s.mem = true) : Memory.wf (sweptLines quad part r s).2.mem = true := by
  unfold sweptLines
  dsimp only
  refine wf_foldl_at (fun a : _ × State => a.2) (fun a x h => ?_) _ hs
  exact wf_lookupNoFill h

theorem wf_boardWriter {s : State} {c part j rank : Nat} {lines : List Nat} (hs : Memory.wf s.mem = true) : Memory.wf (boardWriter s c part j rank lines).2.mem = true := by
  unfold boardWriter
  repeat' first
    | assumption
    | with_reducible apply wf_foldl
    | with_reducible exact optWf_none
    | with_reducible apply optWf_some
    | with_reducible apply optWf_map
    | with_reducible apply wf_getD
    | with_reducible apply outWf_next
    | with_reducible apply wf_enterRider
    | with_reducible apply wf_listLines
    | (refine wf_of_pair (by assumption) ?_)
    | (refine wf_of_triple (by assumption) ?_)
    | (refine wf_of_fst (by assumption) ?_)
    | (refine wf_of_opt (by assumption) ?_)
    | intro _
    | split
    | dsimp only

theorem wf_readUnit {c part : Nat} {k : Card} {r : BitVec 512} {i : Nat} {s : State} (hs : Memory.wf s.mem = true) : Memory.wf (readUnit c part k r i s).2.mem = true := by
  unfold readUnit
  repeat' first
    | assumption
    | with_reducible apply wf_foldl
    | with_reducible exact optWf_none
    | with_reducible apply optWf_some
    | with_reducible apply optWf_map
    | with_reducible apply wf_getD
    | with_reducible apply outWf_next
    | with_reducible apply wf_runKeys
    | with_reducible apply wf_checkKeys
    | with_reducible apply wf_podSendRuns
    | (refine wf_of_pair (by assumption) ?_)
    | (refine wf_of_triple (by assumption) ?_)
    | (refine wf_of_fst (by assumption) ?_)
    | (refine wf_of_opt (by assumption) ?_)
    | intro _
    | split
    | dsimp only

theorem wf_writeUnit {c part : Nat} {k : Card} {r : BitVec 512} {i x : Nat} {bad : Bool} {s : State} (hs : Memory.wf s.mem = true) : Memory.wf (writeUnit c part k r i x bad s).2.mem = true := by
  unfold writeUnit
  repeat' first
    | assumption
    | with_reducible apply wf_foldl
    | with_reducible exact optWf_none
    | with_reducible apply optWf_some
    | with_reducible apply optWf_map
    | with_reducible apply wf_getD
    | with_reducible apply outWf_next
    | with_reducible apply wf_State_setRider
    | with_reducible apply wf_runKeys
    | with_reducible apply wf_doPut
    | (refine wf_of_pair (by assumption) ?_)
    | (refine wf_of_triple (by assumption) ?_)
    | (refine wf_of_fst (by assumption) ?_)
    | (refine wf_of_opt (by assumption) ?_)
    | intro _
    | split
    | dsimp only

theorem wf_releaseWriter {s : State} {key : Nat} (hs : Memory.wf s.mem = true) : Memory.wf (releaseWriter s key).mem = true := by
  unfold releaseWriter
  repeat' first
    | assumption
    | with_reducible apply wf_foldl
    | with_reducible exact optWf_none
    | with_reducible apply optWf_some
    | with_reducible apply optWf_map
    | with_reducible apply wf_getD
    | with_reducible apply outWf_next
    | with_reducible apply wf_State_setRider
    | (refine wf_of_pair (by assumption) ?_)
    | (refine wf_of_triple (by assumption) ?_)
    | (refine wf_of_fst (by assumption) ?_)
    | (refine wf_of_opt (by assumption) ?_)
    | intro _
    | split
    | dsimp only

theorem wf_releaseDeposit {s : State} {k : Card} (hs : Memory.wf s.mem = true) : Memory.wf (releaseDeposit s k).mem = true := by
  unfold releaseDeposit
  repeat' first
    | assumption
    | with_reducible apply wf_foldl
    | with_reducible exact optWf_none
    | with_reducible apply optWf_some
    | with_reducible apply optWf_map
    | with_reducible apply wf_getD
    | with_reducible apply outWf_next
    | with_reducible apply wf_releaseWriter
    | (refine wf_of_pair (by assumption) ?_)
    | (refine wf_of_triple (by assumption) ?_)
    | (refine wf_of_fst (by assumption) ?_)
    | (refine wf_of_opt (by assumption) ?_)
    | intro _
    | split
    | dsimp only

theorem outWf_fireEngine {op : Nat} {w : EpW} {sub : BitVec 8} {s : State} (hs : Memory.wf s.mem = true) : outWf (fireEngine op w sub s) := by
  unfold fireEngine
  repeat' first
    | assumption
    | with_reducible apply wf_foldl
    | with_reducible exact optWf_none
    | with_reducible apply optWf_some
    | with_reducible apply optWf_map
    | with_reducible apply wf_getD
    | with_reducible apply outWf_next
    | with_reducible apply wf_State_setTask
    | with_reducible apply wf_nodeFault
    | with_reducible apply wf_epFired
    | (refine wf_of_pair (by assumption) ?_)
    | (refine wf_of_triple (by assumption) ?_)
    | (refine wf_of_fst (by assumption) ?_)
    | (refine wf_of_opt (by assumption) ?_)
    | intro _
    | split
    | dsimp only

theorem wf_dropCardRiders {s : State} {k : Card} (hs : Memory.wf s.mem = true) : Memory.wf (dropCardRiders s k).mem = true := by
  unfold dropCardRiders
  repeat' first
    | assumption
    | with_reducible apply wf_foldl
    | with_reducible exact optWf_none
    | with_reducible apply optWf_some
    | with_reducible apply optWf_map
    | with_reducible apply wf_getD
    | with_reducible apply outWf_next
    | (refine wf_of_pair (by assumption) ?_)
    | (refine wf_of_triple (by assumption) ?_)
    | (refine wf_of_fst (by assumption) ?_)
    | (refine wf_of_opt (by assumption) ?_)
    | intro _
    | split
    | dsimp only

theorem wf_readerFor {s : State} {c : Nat} {task : Task} {lines : List Nat} (hs : Memory.wf s.mem = true) : Memory.wf (readerFor s c task lines).2.mem = true := by
  unfold readerFor
  repeat' first
    | assumption
    | with_reducible apply wf_foldl
    | with_reducible exact optWf_none
    | with_reducible apply optWf_some
    | with_reducible apply optWf_map
    | with_reducible apply wf_getD
    | with_reducible apply outWf_next
    | with_reducible apply wf_boardReader
    | (refine wf_of_pair (by assumption) ?_)
    | (refine wf_of_triple (by assumption) ?_)
    | (refine wf_of_fst (by assumption) ?_)
    | (refine wf_of_opt (by assumption) ?_)
    | intro _
    | split
    | dsimp only

theorem wf_writerFor {s : State} {c : Nat} {task : Task} {lines : List Nat} (hs : Memory.wf s.mem = true) : Memory.wf (writerFor s c task lines).2.mem = true := by
  unfold writerFor
  repeat' first
    | assumption
    | with_reducible apply wf_foldl
    | with_reducible exact optWf_none
    | with_reducible apply optWf_some
    | with_reducible apply optWf_map
    | with_reducible apply wf_getD
    | with_reducible apply outWf_next
    | with_reducible apply wf_boardWriter
    | (refine wf_of_pair (by assumption) ?_)
    | (refine wf_of_triple (by assumption) ?_)
    | (refine wf_of_fst (by assumption) ?_)
    | (refine wf_of_opt (by assumption) ?_)
    | intro _
    | split
    | dsimp only

theorem wf_startEngine {c t : Nat} {task : Task} {k : Card} {s : State} (hs : Memory.wf s.mem = true) : Memory.wf (startEngine c t task k s).mem = true := by
  unfold startEngine
  refine wf_ite hs (wf_ite (wf_ite hs (wf_askLeave (wf_putCard hs))) ?_)
  extract_lets s1 k1 src dst q sl dl
  have h1 : Memory.wf s1.mem = true := wf_dropCardRiders hs
  clear_value s1
  have hl : Memory.wf dl.2.mem = true := by
    have h0 : Memory.wf sl.2.mem = true := wf_sweptLines h1
    dsimp only [dl]
    split
    · exact h0
    · exact wf_sweptLines h0
  clear_value dl
  split
  · have h2 := wf_of_pair (by assumption) (wf_readerFor hl)
    exact wf_afterRow h2 (wf_rowErr h2)
  · have h2 := wf_of_pair (by assumption) (wf_readerFor hl)
    split
    · have h3 := wf_of_pair (by assumption) (wf_writerFor h2)
      exact wf_afterRow h3 (wf_rowErr (wf_dropCardRiders h3))
    · have h3 := wf_of_pair (by assumption) (wf_writerFor h2)
      exact wf_putCard h3

theorem wf_copyUnit {c : Nat} {task : Task} {k : Card} {u : UnitIn} {s : State} (hs : Memory.wf s.mem = true) : Memory.wf (copyUnit c task k u s).2.mem = true := by
  unfold copyUnit
  repeat' first
    | assumption
    | with_reducible apply wf_foldl
    | with_reducible exact optWf_none
    | with_reducible apply optWf_some
    | with_reducible apply optWf_map
    | with_reducible apply wf_getD
    | with_reducible apply outWf_next
    | with_reducible apply wf_rowErr
    | with_reducible apply wf_writeUnit
    | with_reducible apply wf_releaseDeposit
    | (refine wf_of_pair (by assumption) ?_)
    | (refine wf_of_triple (by assumption) ?_)
    | (refine wf_of_fst (by assumption) ?_)
    | (refine wf_of_opt (by assumption) ?_)
    | intro _
    | split
    | dsimp only

theorem wf_copyRead {c : Nat} {task : Task} {k : Card} {s : State} (hs : Memory.wf s.mem = true) : Memory.wf (copyRead c task k s).2.mem = true := by
  unfold copyRead
  repeat' first
    | assumption
    | with_reducible apply wf_foldl
    | with_reducible exact optWf_none
    | with_reducible apply optWf_some
    | with_reducible apply optWf_map
    | with_reducible apply wf_getD
    | with_reducible apply outWf_next
    | with_reducible apply wf_rowErr
    | with_reducible apply wf_readUnit
    | (refine wf_of_pair (by assumption) ?_)
    | (refine wf_of_triple (by assumption) ?_)
    | (refine wf_of_fst (by assumption) ?_)
    | (refine wf_of_opt (by assumption) ?_)
    | intro _
    | split
    | dsimp only

theorem wf_copySlot {c dc : Nat} {k : Card} {s : State} (hs : Memory.wf s.mem = true) : Memory.wf (copySlot c dc k s).2.mem = true := by
  unfold copySlot
  repeat' first
    | assumption
    | with_reducible apply wf_foldl
    | with_reducible exact optWf_none
    | with_reducible apply optWf_some
    | with_reducible apply optWf_map
    | with_reducible apply wf_getD
    | with_reducible apply outWf_next
    | with_reducible apply wf_cbDeliver
    | (refine wf_of_pair (by assumption) ?_)
    | (refine wf_of_triple (by assumption) ?_)
    | (refine wf_of_fst (by assumption) ?_)
    | (refine wf_of_opt (by assumption) ?_)
    | intro _
    | split
    | dsimp only

theorem wf_copyRow {c : Nat} {task : Task} {k : Card} {s : State} (hs : Memory.wf s.mem = true) : Memory.wf (copyRow c task k s).2.mem = true := by
  unfold copyRow
  repeat' first
    | assumption
    | with_reducible apply wf_foldl
    | with_reducible exact optWf_none
    | with_reducible apply optWf_some
    | with_reducible apply optWf_map
    | with_reducible apply wf_getD
    | with_reducible apply outWf_next
    | with_reducible apply wf_copyUnit
    | with_reducible apply wf_copyRead
    | with_reducible apply wf_copySlot
    | (refine wf_of_pair (by assumption) ?_)
    | (refine wf_of_triple (by assumption) ?_)
    | (refine wf_of_fst (by assumption) ?_)
    | (refine wf_of_opt (by assumption) ?_)
    | intro _
    | split
    | dsimp only

theorem wf_readOwn {c : Nat} {task : Task} {k : Card} {s : State} (hs : Memory.wf s.mem = true) : Memory.wf (readOwn c task k s).2.mem = true := by
  unfold readOwn
  repeat' first
    | assumption
    | with_reducible apply wf_foldl
    | with_reducible exact optWf_none
    | with_reducible apply optWf_some
    | with_reducible apply optWf_map
    | with_reducible apply wf_getD
    | with_reducible apply outWf_next
    | with_reducible apply wf_rowErr
    | with_reducible apply wf_readUnit
    | (refine wf_of_pair (by assumption) ?_)
    | (refine wf_of_triple (by assumption) ?_)
    | (refine wf_of_fst (by assumption) ?_)
    | (refine wf_of_opt (by assumption) ?_)
    | intro _
    | split
    | dsimp only

theorem wf_bindCard {s : State} {c t : Nat} {k : Card} {ys : List (Nat × Bool)} {mask : BitVec 384} (hs : Memory.wf s.mem = true) : Memory.wf (bindCard s c t k ys mask).mem = true := by
  unfold bindCard
  repeat' first
    | assumption
    | with_reducible apply wf_foldl
    | with_reducible exact optWf_none
    | with_reducible apply optWf_some
    | with_reducible apply optWf_map
    | with_reducible apply wf_getD
    | with_reducible apply outWf_next
    | with_reducible apply wf_putCard
    | with_reducible apply wf_releaseDeposit
    | (refine wf_of_pair (by assumption) ?_)
    | (refine wf_of_triple (by assumption) ?_)
    | (refine wf_of_fst (by assumption) ?_)
    | (refine wf_of_opt (by assumption) ?_)
    | intro _
    | split
    | dsimp only

theorem wf_boundUnit {c : Nat} {task : Task} {k : Card} {s : State} (hs : Memory.wf s.mem = true) : Memory.wf (boundUnit c task k s).2.mem = true := by
  unfold boundUnit
  repeat' first
    | assumption
    | with_reducible apply wf_foldl
    | with_reducible exact optWf_none
    | with_reducible apply optWf_some
    | with_reducible apply optWf_map
    | with_reducible apply wf_getD
    | with_reducible apply outWf_next
    | with_reducible apply wf_rowErr
    | with_reducible apply wf_writeUnit
    | with_reducible apply wf_releaseDeposit
    | (refine wf_of_pair (by assumption) ?_)
    | (refine wf_of_triple (by assumption) ?_)
    | (refine wf_of_fst (by assumption) ?_)
    | (refine wf_of_opt (by assumption) ?_)
    | intro _
    | split
    | dsimp only

theorem wf_collBind {k : Card} {id : Nat} {status : Word32} {mask : BitVec 384} {xss : Option (List (List (Nat × Bool)))} {s : State} {v1 : Nat} {v2 : List Party} (hs : Memory.wf s.mem = true) : Memory.wf (collBind k id status mask xss s v1 v2).mem = true := by
  induction v2 generalizing v1 s with
  | nil => unfold collBind; exact hs
  | cons p rest ih =>
    unfold collBind
    extract_lets ys u
    have hu : Memory.wf u.mem = true := by
      dsimp only [u]
      split
      · exact wf_podSend hs
      · exact wf_bindCard hs
    clear_value u
    exact ih hu

theorem wf_collStep {c t : Nat} {task : Task} {k : Card} {s : State} (hs : Memory.wf s.mem = true) : Memory.wf (collStep c t task k s).mem = true := by
  unfold collStep
  split
  · exact hs
  · split
    · exact hs
    · exact wf_collBind hs
    · exact wf_afterRow hs (wf_readOwn hs)
    · exact wf_collBind hs

theorem wf_ringStepMove {c t : Nat} {task : Task} {k : Card} {s : State} (hs : Memory.wf s.mem = true) : Memory.wf (ringStepMove c t task k s).mem = true := by
  unfold ringStepMove
  refine wf_ite hs (wf_ite (wf_afterRow hs (wf_readOwn hs)) ?_)
  split
  · exact hs
  · refine wf_ite hs ?_
    extract_lets src dst k2 taken dl
    have hr : ∀ u : State, Memory.wf u.mem = true → Memory.wf (taken u).mem = true := by
      intro u hu
      dsimp only [taken]
      split
      · exact wf_putCard hu
      · exact hu
    clear_value taken
    refine wf_ite (hr _ (wf_bindCard hs)) ?_
    have hl : Memory.wf dl.2.mem = true := wf_sweptLines hs
    clear_value dl
    split
    · exact wf_afterRow (wf_of_pair (by assumption) (wf_writerFor hl)) (wf_rowErr (wf_of_pair (by assumption) (wf_writerFor hl)))
    · exact hr _ (wf_bindCard (wf_of_pair (by assumption) (wf_writerFor hl)))

theorem wf_unitTimeout {c t : Nat} {task : Task} {k : Card} {s : State} (hs : Memory.wf s.mem = true) : Memory.wf (unitTimeout c t task k s).mem = true := by
  unfold unitTimeout
  repeat' first
    | assumption
    | with_reducible apply wf_foldl
    | with_reducible exact optWf_none
    | with_reducible apply optWf_some
    | with_reducible apply optWf_map
    | with_reducible apply wf_getD
    | with_reducible apply outWf_next
    | with_reducible apply wf_runKeys
    | with_reducible apply wf_afterRow
    | (refine wf_of_pair (by assumption) ?_)
    | (refine wf_of_triple (by assumption) ?_)
    | (refine wf_of_fst (by assumption) ?_)
    | (refine wf_of_opt (by assumption) ?_)
    | intro _
    | split
    | dsimp only

theorem wf_engineRow {c t : Nat} {task : Task} {k : Card} {s : State} (hs : Memory.wf s.mem = true) : Memory.wf (engineRow c t task k s).mem = true := by
  unfold engineRow
  split
  · exact wf_ite hs (wf_afterRow hs (wf_copyRow hs))
  · split
    · exact wf_collStep hs
    · exact wf_afterRow hs (wf_boundUnit hs)
  · split
    · exact wf_ringStepMove hs
    · exact wf_afterRow hs (wf_boundUnit hs)

theorem wf_copyWord {c t : Nat} {task : Task} {k : Card} {s : State} (hs : Memory.wf s.mem = true) :
    (∀ y, copyWord c t task k s = .ok y → Memory.wf y.mem = true) ∧ (∀ y, copyWord c t task k s = .error y → Memory.wf y.mem = true) := by
  unfold copyWord
  split
  · exact ⟨fun y e => (by cases e; exact wf_cwWrite hs), fun y e => (by cases e)⟩
  · split
    · exact ⟨fun y e => (by cases e; exact hs), fun y e => (by cases e)⟩
    · split
      · rename_i e
        have h := wf_of_pair e (wf_directKeys hs)
        exact ⟨fun y e2 => (by cases e2), fun y e2 => (by cases e2; exact wf_afterRow hs (wf_rowErr h))⟩
      · rename_i e
        have h := wf_of_pair e (wf_directKeys hs)
        exact ⟨fun y e2 => (by cases e2; exact h), fun y e2 => (by cases e2)⟩
      · rename_i e
        have h := wf_of_pair e (wf_directKeys hs)
        split
        · exact ⟨fun y e2 => (by cases e2), fun y e2 => (by cases e2; exact hs)⟩
        · have h3 := (wf_cwMove h).1 _ _ (by assumption)
          exact ⟨fun y e2 => (by cases e2), fun y e2 => (by cases e2; exact wf_putCard h3)⟩
        · have h3 := (wf_cwMove h).2 _ (by assumption)
          exact ⟨fun y e2 => (by cases e2; exact h3), fun y e2 => (by cases e2)⟩

theorem wf_cardReleased {c t chain : Nat} {k : Card} {s : State} (hs : Memory.wf s.mem = true) :
    (∀ y, cardReleased c t chain k s = .ok y → Memory.wf y.mem = true) ∧ (∀ y, cardReleased c t chain k s = .error y → Memory.wf y.mem = true) := by
  have hk : ∀ k' : Card, Memory.wf (putCard s c t chain k').mem = true := fun _ => wf_putCard hs
  unfold cardReleased
  refine ⟨fun y e => ?_, fun y e => ?_⟩ <;> (repeat' split at e) <;> cases e <;> first | exact hs | exact hk _

theorem wf_finishRing {c t : Nat} {task : Task} {k : Card} {s : State} (hs : Memory.wf s.mem = true) : Memory.wf (finishRing c t task k s).mem = true := by
  unfold finishRing
  repeat' first
    | assumption
    | with_reducible apply wf_foldl
    | with_reducible exact optWf_none
    | with_reducible apply optWf_some
    | with_reducible apply optWf_map
    | with_reducible apply wf_getD
    | with_reducible apply outWf_next
    | with_reducible apply wf_State_setTask
    | with_reducible apply wf_finishCard
    | with_reducible apply wf_dropCardRiders
    | (refine wf_of_pair (by assumption) ?_)
    | (refine wf_of_triple (by assumption) ?_)
    | (refine wf_of_fst (by assumption) ?_)
    | (refine wf_of_opt (by assumption) ?_)
    | intro _
    | split
    | dsimp only

theorem wf_completeColl {c t : Nat} {k : Card} {s : State} (hs : Memory.wf s.mem = true) : Memory.wf (completeColl c t k s).mem = true := by
  unfold completeColl
  refine wf_ite hs ?_
  split
  · exact (wf_cardReleased hs).2 _ (by assumption)
  · have h := (wf_cardReleased hs).1 _ (by assumption)
    exact wf_finishCard (wf_dropCardRiders (wf_ite h h))

theorem wf_completeEngine {c t : Nat} {task : Task} {k : Card} {s : State} (hs : Memory.wf s.mem = true) : Memory.wf (completeEngine c t task k s).mem = true := by
  unfold completeEngine
  refine wf_ite hs ?_
  split
  · refine wf_ite hs ?_
    split
    · exact (wf_cardReleased hs).2 _ (by assumption)
    · have h := (wf_cardReleased hs).1 _ (by assumption)
      split
      · exact (wf_copyWord h).2 _ (by assumption)
      · exact wf_finishCard (wf_dropCardRiders ((wf_copyWord h).1 _ (by assumption)))
  · exact wf_completeColl hs
  · exact wf_ite hs (wf_finishRing hs)

/-- A transaction keeps memory in canonical form. -/
structure kvOk {α : Type} (m : KvM α) : Prop where
  run : ∀ s : State, Memory.wf s.mem = true → Memory.wf (m s).2.mem = true
theorem kvOk_pure {α : Type} (a : α) : kvOk (pure a : KvM α) := ⟨fun _ h => h⟩
theorem kvOk_fault {α : Type} (f : FaultInfo) : kvOk (kvFault f : KvM α) := ⟨fun _ h => h⟩
theorem kvOk_bind {α β : Type} {m : KvM α} {f : α → KvM β} (hm : kvOk m) (hf : ∀ a, kvOk (f a)) : kvOk (m >>= f) := by
  refine ⟨fun s h => ?_⟩
  have h1 := hm.run s h
  show Memory.wf ((ExceptT.bind m f : KvM β) s).2.mem = true
  unfold ExceptT.bind ExceptT.mk
  show Memory.wf ((StateT.bind m (ExceptT.bindCont f)) s).2.mem = true
  unfold StateT.bind
  rcases hms : m s with ⟨r, s'⟩
  rw [hms] at h1
  simp only [bind, pure, Id.run, hms]
  cases r with
  | ok a => exact (hf a).run s' h1
  | error e => exact h1
theorem kvOk_forM {α : Type} (l : List α) {f : α → KvM Unit} (hf : ∀ a, kvOk (f a)) : kvOk (l.forM f) := by
  induction l with
  | nil => exact kvOk_pure _
  | cons a l ih => exact kvOk_bind (hf a) fun _ => ih
theorem kvOk_mapM {α β : Type} (l : List α) {f : α → KvM β} (hf : ∀ a, kvOk (f a)) : kvOk (l.mapM f) := by
  induction l with
  | nil => rw [List.mapM_nil]; exact kvOk_pure _
  | cons a l ih => rw [List.mapM_cons]; exact kvOk_bind (hf a) fun _ => kvOk_bind ih fun _ => kvOk_pure _
theorem kvOk_foldlM {α β : Type} (l : List α) {f : β → α → KvM β} (hf : ∀ b a, kvOk (f b a)) (b : β) : kvOk (l.foldlM f b) := by
  induction l generalizing b with
  | nil => exact kvOk_pure _
  | cons a l ih => rw [List.foldlM_cons]; exact kvOk_bind (hf b a) fun _ => ih _
theorem kvOk_filterAuxM {α : Type} (l acc : List α) {f : α → KvM Bool} (hf : ∀ a, kvOk (f a)) : kvOk (List.filterAuxM f l acc) := by
  induction l generalizing acc with
  | nil => exact kvOk_pure _
  | cons a l ih => unfold List.filterAuxM; exact kvOk_bind (hf a) fun _ => ih _
theorem kvOk_filterM {α : Type} (l : List α) {f : α → KvM Bool} (hf : ∀ a, kvOk (f a)) : kvOk (l.filterM f) := by
  unfold List.filterM
  exact kvOk_bind (kvOk_filterAuxM l [] hf) fun _ => kvOk_pure _

theorem kvOk_kvKey {c part va n a : Nat} : kvOk (kvKey c part va n a) := by
  refine ⟨fun s h => ?_⟩
  unfold kvKey
  split
  · exact h
  · split
    · exact h
    · split <;> exact wf_of_pair (by assumption) (wf_runKeys h)

theorem wf_kvRequest {r : KvRec} {n : Nat} {s : State} (hs : Memory.wf s.mem = true) : Memory.wf (kvRequest r n s).mem = true := by
  unfold kvRequest
  repeat' first
    | assumption
    | with_reducible apply wf_foldl
    | with_reducible exact optWf_none
    | with_reducible apply optWf_some
    | with_reducible apply optWf_map
    | with_reducible apply wf_getD
    | with_reducible apply outWf_next
    | with_reducible apply wf_holdMove
    | with_reducible apply wf_countInTurn
    | (refine wf_of_pair (by assumption) ?_)
    | (refine wf_of_triple (by assumption) ?_)
    | (refine wf_of_fst (by assumption) ?_)
    | (refine wf_of_opt (by assumption) ?_)
    | intro _
    | split
    | dsimp only

theorem kvOk_kvRead {r : KvRec} {n : Nat} : kvOk (kvRead r n) := by
  refine ⟨fun s h => ?_⟩
  unfold kvRead
  dsimp only
  split
  · exact wf_readCheck (wf_kvRequest h)
  · exact wf_readCheck (wf_kvRequest h)

theorem kvOk_kvWrite {r : KvRec} {n x : Nat} : kvOk (kvWrite r n x) := ⟨fun _ h => wf_writeView (wf_kvRequest h)⟩

theorem kvOk_kvPart {part : Nat} : kvOk (kvPart part) := ⟨fun _ h => h⟩

theorem kvOk_kvSetPart {part : Nat} {p : Part} : kvOk (kvSetPart part p) := ⟨fun _ h => wf_State_setPart h⟩

theorem kvOk_pdKey {c part p : Nat} : kvOk (pdKey c part p) := kvOk_bind kvOk_kvPart fun _ => kvOk_kvKey

theorem kvOk_pdRead {c part p : Nat} : kvOk (pdRead c part p) := kvOk_bind kvOk_pdKey fun _ => kvOk_kvRead

theorem kvOk_pdWrite {c part p x : Nat} : kvOk (pdWrite c part p x) := kvOk_bind kvOk_pdKey fun _ => kvOk_kvWrite

theorem kvOk_kvAlloc {c part t : Nat} : kvOk (kvAlloc c part t) := by
  unfold kvAlloc
  repeat' first
    | assumption
    | with_reducible exact kvOk_pure _
    | with_reducible exact kvOk_fault _
    | with_reducible exact kvOk_kvPart
    | with_reducible exact kvOk_kvSetPart
    | with_reducible exact kvOk_pdRead
    | with_reducible exact kvOk_pdWrite
    | with_reducible apply kvOk_forM
    | with_reducible apply kvOk_mapM
    | with_reducible apply kvOk_foldlM
    | with_reducible apply kvOk_filterM
    | with_reducible apply kvOk_bind
    | intro _
    | split
    | dsimp only

theorem kvOk_kvFree {c part p x : Nat} : kvOk (kvFree c part p x) := by
  unfold kvFree
  repeat' first
    | assumption
    | with_reducible exact kvOk_pure _
    | with_reducible exact kvOk_fault _
    | with_reducible exact kvOk_kvPart
    | with_reducible exact kvOk_kvSetPart
    | with_reducible exact kvOk_pdWrite
    | with_reducible apply kvOk_forM
    | with_reducible apply kvOk_mapM
    | with_reducible apply kvOk_foldlM
    | with_reducible apply kvOk_filterM
    | with_reducible apply kvOk_bind
    | intro _
    | split
    | dsimp only

theorem kvOk_kvRelease {c part p : Nat} : kvOk (kvRelease c part p) := by
  unfold kvRelease
  repeat' first
    | assumption
    | with_reducible exact kvOk_pure _
    | with_reducible exact kvOk_fault _
    | with_reducible exact kvOk_pdRead
    | with_reducible exact kvOk_pdWrite
    | with_reducible exact kvOk_kvFree
    | with_reducible apply kvOk_forM
    | with_reducible apply kvOk_mapM
    | with_reducible apply kvOk_foldlM
    | with_reducible apply kvOk_filterM
    | with_reducible apply kvOk_bind
    | intro _
    | split
    | dsimp only

theorem kvOk_btKey {c part d e : Nat} : kvOk (btKey c part d e) := kvOk_kvKey

theorem kvOk_btRead {c part d e : Nat} : kvOk (btRead c part d e) := kvOk_bind kvOk_btKey fun _ => kvOk_kvRead

theorem kvOk_btWrite {c part d e x : Nat} : kvOk (btWrite c part d e x) := kvOk_bind kvOk_btKey fun _ => kvOk_kvWrite

theorem kvOk_kvClone {c part p q : Nat} : kvOk (kvClone c part p q) := by
  refine ⟨fun s h => ?_⟩
  unfold kvClone
  extract_lets base quad src dst
  have h1 : Memory.wf src.2.2.mem = true := wf_listLines h
  have h2 : Memory.wf dst.2.2.mem = true := wf_listLines h1
  clear_value dst
  split
  · exact h2
  · exact wf_enterRider h2

theorem kvOk_kvRefuse {status clen lane2 : Nat} : kvOk (kvRefuse status clen lane2) := kvOk_pure _

theorem kvOk_kvPut {a : KvArg} {d : Nat} : kvOk (kvPut a d) := by
  unfold kvPut
  repeat' first
    | assumption
    | with_reducible exact kvOk_pure _
    | with_reducible exact kvOk_fault _
    | with_reducible exact kvOk_kvWrite
    | with_reducible exact kvOk_kvPart
    | with_reducible exact kvOk_kvSetPart
    | with_reducible apply kvOk_forM
    | with_reducible apply kvOk_mapM
    | with_reducible apply kvOk_foldlM
    | with_reducible apply kvOk_filterM
    | with_reducible apply kvOk_bind
    | intro _
    | split
    | dsimp only

theorem kvOk_seqFault {α : Type} {a : KvArg} {op : Nat} : kvOk (seqFault a op : KvM α) := kvOk_fault _

theorem kvOk_kvOpen {a : KvArg} : kvOk (kvOpen a) := by
  unfold kvOpen
  repeat' first
    | assumption
    | with_reducible exact kvOk_pure _
    | with_reducible exact kvOk_fault _
    | with_reducible exact kvOk_kvRefuse
    | with_reducible exact kvOk_kvPart
    | with_reducible exact kvOk_kvAlloc
    | with_reducible exact kvOk_btWrite
    | with_reducible exact kvOk_kvRefuse
    | with_reducible exact kvOk_kvPut
    | with_reducible apply kvOk_forM
    | with_reducible apply kvOk_mapM
    | with_reducible apply kvOk_foldlM
    | with_reducible apply kvOk_filterM
    | with_reducible apply kvOk_bind
    | intro _
    | split
    | dsimp only

theorem kvOk_kvFork {a : KvArg} {ckey : KvRec} {cd : Nat} : kvOk (kvFork a ckey cd) := by
  unfold kvFork
  repeat' first
    | assumption
    | with_reducible exact kvOk_pure _
    | with_reducible exact kvOk_fault _
    | with_reducible exact kvOk_kvRefuse
    | with_reducible exact kvOk_kvWrite
    | with_reducible exact kvOk_kvPart
    | with_reducible exact kvOk_kvSetPart
    | with_reducible exact kvOk_pdRead
    | with_reducible exact kvOk_pdWrite
    | with_reducible exact kvOk_btRead
    | with_reducible exact kvOk_btWrite
    | with_reducible exact kvOk_kvRefuse
    | with_reducible apply kvOk_forM
    | with_reducible apply kvOk_mapM
    | with_reducible apply kvOk_foldlM
    | with_reducible apply kvOk_filterM
    | with_reducible apply kvOk_bind
    | intro _
    | split
    | dsimp only

theorem kvOk_markClone {c part q p off : Nat} : kvOk (markClone c part q p off) := by
  unfold markClone
  repeat' first
    | assumption
    | with_reducible exact kvOk_pure _
    | with_reducible exact kvOk_fault _
    | with_reducible exact kvOk_kvRefuse
    | with_reducible exact kvOk_pdRead
    | with_reducible exact kvOk_pdWrite
    | with_reducible apply kvOk_forM
    | with_reducible apply kvOk_mapM
    | with_reducible apply kvOk_foldlM
    | with_reducible apply kvOk_filterM
    | with_reducible apply kvOk_bind
    | intro _
    | split
    | dsimp only

theorem kvOk_kvReserve0 {a : KvArg} : kvOk (kvReserve0 a) := by
  unfold kvReserve0
  repeat' first
    | assumption
    | with_reducible exact kvOk_pure _
    | with_reducible exact kvOk_fault _
    | with_reducible exact kvOk_kvRefuse
    | with_reducible exact kvOk_kvPart
    | with_reducible exact kvOk_pdRead
    | with_reducible exact kvOk_kvAlloc
    | with_reducible exact kvOk_kvRelease
    | with_reducible exact kvOk_btRead
    | with_reducible exact kvOk_btWrite
    | with_reducible exact kvOk_kvClone
    | with_reducible exact kvOk_kvRefuse
    | with_reducible exact kvOk_kvPut
    | with_reducible exact kvOk_markClone
    | with_reducible apply kvOk_forM
    | with_reducible apply kvOk_mapM
    | with_reducible apply kvOk_foldlM
    | with_reducible apply kvOk_filterM
    | with_reducible apply kvOk_bind
    | intro _
    | split
    | dsimp only

theorem kvOk_windowPage {a : KvArg} {x slot : Nat} : kvOk (windowPage a x slot) := by
  unfold windowPage
  repeat' first
    | assumption
    | with_reducible exact kvOk_pure _
    | with_reducible exact kvOk_fault _
    | with_reducible exact kvOk_kvRefuse
    | with_reducible exact kvOk_pdRead
    | with_reducible exact kvOk_btRead
    | with_reducible apply kvOk_forM
    | with_reducible apply kvOk_mapM
    | with_reducible apply kvOk_foldlM
    | with_reducible apply kvOk_filterM
    | with_reducible apply kvOk_bind
    | intro _
    | split
    | dsimp only

theorem kvOk_kvReserveW {a : KvArg} {x : Nat} : kvOk (kvReserveW a x) := by
  unfold kvReserveW
  repeat' first
    | assumption
    | with_reducible exact kvOk_pure _
    | with_reducible exact kvOk_fault _
    | with_reducible exact kvOk_kvRefuse
    | with_reducible exact kvOk_kvPart
    | with_reducible exact kvOk_kvAlloc
    | with_reducible exact kvOk_kvClone
    | with_reducible exact kvOk_kvRefuse
    | with_reducible exact kvOk_kvPut
    | with_reducible exact kvOk_markClone
    | with_reducible exact kvOk_windowPage
    | with_reducible apply kvOk_forM
    | with_reducible apply kvOk_mapM
    | with_reducible apply kvOk_foldlM
    | with_reducible apply kvOk_filterM
    | with_reducible apply kvOk_bind
    | intro _
    | split
    | dsimp only

theorem kvOk_kvWin {a : KvArg} : kvOk (kvWin a) := by
  unfold kvWin
  repeat' first
    | assumption
    | with_reducible exact kvOk_pure _
    | with_reducible exact kvOk_fault _
    | with_reducible exact kvOk_kvRefuse
    | with_reducible exact kvOk_kvRefuse
    | with_reducible exact kvOk_kvPut
    | with_reducible apply kvOk_forM
    | with_reducible apply kvOk_mapM
    | with_reducible apply kvOk_foldlM
    | with_reducible apply kvOk_filterM
    | with_reducible apply kvOk_bind
    | intro _
    | split
    | dsimp only

theorem kvOk_settlePage {a : KvArg} {keep : Bool} {e g : Nat} : kvOk (settlePage a keep e g) := by
  unfold settlePage
  repeat' first
    | assumption
    | with_reducible exact kvOk_pure _
    | with_reducible exact kvOk_fault _
    | with_reducible exact kvOk_kvRefuse
    | with_reducible exact kvOk_pdRead
    | with_reducible exact kvOk_pdWrite
    | with_reducible exact kvOk_kvRelease
    | with_reducible exact kvOk_btRead
    | with_reducible exact kvOk_btWrite
    | with_reducible apply kvOk_forM
    | with_reducible apply kvOk_mapM
    | with_reducible apply kvOk_foldlM
    | with_reducible apply kvOk_filterM
    | with_reducible apply kvOk_bind
    | intro _
    | split
    | dsimp only

theorem kvOk_settleWindow {a : KvArg} {y : Nat} {keepTo : Option Nat} : kvOk (settleWindow a y keepTo) := by
  unfold settleWindow
  repeat' first
    | assumption
    | with_reducible exact kvOk_pure _
    | with_reducible exact kvOk_fault _
    | with_reducible exact kvOk_kvRefuse
    | with_reducible exact kvOk_settlePage
    | with_reducible apply kvOk_forM
    | with_reducible apply kvOk_mapM
    | with_reducible apply kvOk_foldlM
    | with_reducible apply kvOk_filterM
    | with_reducible apply kvOk_bind
    | intro _
    | split
    | dsimp only

theorem kvOk_kvCommit {a : KvArg} {x : Option Nat} : kvOk (kvCommit a x) := by
  unfold kvCommit
  repeat' first
    | assumption
    | with_reducible exact kvOk_pure _
    | with_reducible exact kvOk_fault _
    | with_reducible exact kvOk_kvRefuse
    | with_reducible exact kvOk_kvPut
    | with_reducible exact kvOk_settleWindow
    | with_reducible apply kvOk_forM
    | with_reducible apply kvOk_mapM
    | with_reducible apply kvOk_foldlM
    | with_reducible apply kvOk_filterM
    | with_reducible apply kvOk_bind
    | intro _
    | split
    | dsimp only

theorem kvOk_kvAbort {a : KvArg} {x : Option Nat} : kvOk (kvAbort a x) := by
  unfold kvAbort
  repeat' first
    | assumption
    | with_reducible exact kvOk_pure _
    | with_reducible exact kvOk_fault _
    | with_reducible exact kvOk_kvRefuse
    | with_reducible exact kvOk_kvRelease
    | with_reducible exact kvOk_btRead
    | with_reducible exact kvOk_btWrite
    | with_reducible exact kvOk_kvPut
    | with_reducible exact kvOk_settleWindow
    | with_reducible apply kvOk_forM
    | with_reducible apply kvOk_mapM
    | with_reducible apply kvOk_foldlM
    | with_reducible apply kvOk_filterM
    | with_reducible apply kvOk_bind
    | intro _
    | split
    | dsimp only

theorem kvOk_kvLen {a : KvArg} : kvOk (kvLen a) := by
  unfold kvLen
  repeat' first
    | assumption
    | with_reducible exact kvOk_pure _
    | with_reducible exact kvOk_fault _
    | with_reducible exact kvOk_kvRefuse
    | with_reducible apply kvOk_forM
    | with_reducible apply kvOk_mapM
    | with_reducible apply kvOk_foldlM
    | with_reducible apply kvOk_filterM
    | with_reducible apply kvOk_bind
    | intro _
    | split
    | dsimp only

theorem kvOk_setArms {k : Nat} {a : KvOut} {d : State → Die} : kvOk (fun s => (.ok a, s.setDie k (d s)) : KvM KvOut) := ⟨fun _ h => wf_State_setDie h⟩
theorem kvOk_kvClose {a : KvArg} : kvOk (kvClose a) := by
  unfold kvClose
  repeat' first
    | assumption
    | with_reducible exact kvOk_pure _
    | with_reducible exact kvOk_fault _
    | with_reducible exact kvOk_kvRefuse
    | with_reducible exact kvOk_setArms
    | with_reducible exact kvOk_kvRelease
    | with_reducible exact kvOk_btRead
    | with_reducible exact kvOk_btWrite
    | with_reducible exact kvOk_kvPut
    | with_reducible exact kvOk_settleWindow
    | with_reducible apply kvOk_forM
    | with_reducible apply kvOk_mapM
    | with_reducible apply kvOk_foldlM
    | with_reducible apply kvOk_filterM
    | with_reducible apply kvOk_bind
    | intro _
    | split
    | dsimp only

theorem kvOk_getDie {k : Nat} : kvOk (fun s => (.ok (s.die k), s) : KvM Die) := ⟨fun _ h => h⟩
theorem kvOk_kvArm {a : KvArg} : kvOk (kvArm a) := by
  unfold kvArm
  repeat' first
    | assumption
    | with_reducible exact kvOk_pure _
    | with_reducible exact kvOk_fault _
    | with_reducible exact kvOk_kvRefuse
    | with_reducible exact kvOk_setArms
    | with_reducible exact kvOk_getDie
    | with_reducible exact kvOk_kvKey
    | with_reducible exact kvOk_kvWrite
    | with_reducible exact kvOk_kvRefuse
    | with_reducible apply kvOk_forM
    | with_reducible apply kvOk_mapM
    | with_reducible apply kvOk_foldlM
    | with_reducible apply kvOk_filterM
    | with_reducible apply kvOk_bind
    | intro _
    | split
    | dsimp only

theorem kvOk_kvSnap {a : KvArg} {x : Nat} : kvOk (kvSnap a x) := by
  unfold kvSnap
  repeat' first
    | assumption
    | with_reducible exact kvOk_pure _
    | with_reducible exact kvOk_fault _
    | with_reducible exact kvOk_kvRefuse
    | with_reducible exact kvOk_setArms
    | with_reducible exact kvOk_getDie
    | with_reducible exact kvOk_kvPut
    | with_reducible apply kvOk_forM
    | with_reducible apply kvOk_mapM
    | with_reducible apply kvOk_foldlM
    | with_reducible apply kvOk_filterM
    | with_reducible apply kvOk_bind
    | intro _
    | split
    | dsimp only

theorem kvOk_kvTransaction {op c part : Nat} {card : BitVec 512} : kvOk (kvTransaction op c part card) := by
  unfold kvTransaction
  repeat' first
    | assumption
    | with_reducible exact kvOk_pure _
    | with_reducible exact kvOk_fault _
    | with_reducible exact kvOk_kvRefuse
    | with_reducible exact kvOk_setArms
    | with_reducible exact kvOk_getDie
    | with_reducible exact kvOk_kvKey
    | with_reducible exact kvOk_kvRead
    | with_reducible exact kvOk_seqFault
    | with_reducible exact kvOk_kvOpen
    | with_reducible exact kvOk_kvFork
    | with_reducible exact kvOk_kvReserve0
    | with_reducible exact kvOk_kvReserveW
    | with_reducible exact kvOk_kvWin
    | with_reducible exact kvOk_kvCommit
    | with_reducible exact kvOk_kvAbort
    | with_reducible exact kvOk_kvLen
    | with_reducible exact kvOk_kvClose
    | with_reducible exact kvOk_kvArm
    | with_reducible exact kvOk_kvSnap
    | with_reducible apply kvOk_forM
    | with_reducible apply kvOk_mapM
    | with_reducible apply kvOk_foldlM
    | with_reducible apply kvOk_filterM
    | with_reducible apply kvOk_bind
    | intro _
    | split
    | dsimp only

theorem outWf_fireKv {op : Nat} {w : EpW} {sub : BitVec 8} {s : State} (hs : Memory.wf s.mem = true) : outWf (fireKv op w sub s) := by
  unfold fireKv
  split
  · exact outWf_next hs
  · extract_lets ports
    split
    · exact outWf_next hs
    · exact outWf_ite (outWf_next (wf_epFired hs)) (outWf_next (wf_epFired hs))

theorem kvOk_sendPages {a : KvArg} {e0 : Nat} : kvOk (sendPages a e0) := by
  unfold sendPages
  repeat' first
    | assumption
    | with_reducible exact kvOk_pure _
    | with_reducible exact kvOk_fault _
    | with_reducible exact kvOk_kvRefuse
    | with_reducible exact kvOk_setArms
    | with_reducible exact kvOk_getDie
    | with_reducible exact kvOk_btRead
    | with_reducible apply kvOk_forM
    | with_reducible apply kvOk_mapM
    | with_reducible apply kvOk_foldlM
    | with_reducible apply kvOk_filterM
    | with_reducible apply kvOk_bind
    | intro _
    | split
    | dsimp only

theorem kvOk_acceptPages {b : KvArg} {e0 pppl nlayl : Nat} : kvOk (acceptPages b e0 pppl nlayl) := by
  unfold acceptPages
  repeat' first
    | assumption
    | with_reducible exact kvOk_pure _
    | with_reducible exact kvOk_fault _
    | with_reducible exact kvOk_kvRefuse
    | with_reducible exact kvOk_setArms
    | with_reducible exact kvOk_getDie
    | with_reducible exact kvOk_btRead
    | with_reducible apply kvOk_forM
    | with_reducible apply kvOk_mapM
    | with_reducible apply kvOk_foldlM
    | with_reducible apply kvOk_filterM
    | with_reducible apply kvOk_bind
    | intro _
    | split
    | dsimp only

theorem kvOk_podOpen {k : Nat} : kvOk (fun s => (.ok (if podReach s k then Config.freeWord s.tick % 3 else 0), s) : KvM Nat) := ⟨fun _ h => h⟩
theorem kvOk_kvSendCheck {c part pkg : Nat} {card : BitVec 512} : kvOk (kvSendCheck c part pkg card) := by
  unfold kvSendCheck
  repeat' first
    | assumption
    | with_reducible exact kvOk_pure _
    | with_reducible exact kvOk_fault _
    | with_reducible exact kvOk_kvRefuse
    | with_reducible exact kvOk_setArms
    | with_reducible exact kvOk_getDie
    | with_reducible exact kvOk_podOpen
    | with_reducible exact kvOk_kvKey
    | with_reducible exact kvOk_kvRead
    | with_reducible exact kvOk_seqFault
    | with_reducible exact kvOk_sendPages
    | with_reducible exact kvOk_acceptPages
    | with_reducible apply kvOk_forM
    | with_reducible apply kvOk_mapM
    | with_reducible apply kvOk_foldlM
    | with_reducible apply kvOk_filterM
    | with_reducible apply kvOk_bind
    | intro _
    | split
    | dsimp only

theorem wf_sendLayer {s : State} {k : Nat} {x : KvSend} (hs : Memory.wf s.mem = true) : ∀ y, sendLayer s k x = .ok y → Memory.wf y.mem = true := by
  intro y e
  unfold sendLayer at e
  dsimp only at e
  split at e
  · cases e
  · rename_i e2
    have h := wf_of_pair e2 (wf_boardReader hs)
    cases e
    exact h

theorem wf_sendDeposits {s : State} {k : Nat} {x : KvSend} {r : Rider} (hs : Memory.wf s.mem = true) : optWf (sendDeposits s k x r) := by
  unfold sendDeposits
  repeat' first
    | assumption
    | with_reducible apply wf_foldl
    | with_reducible exact optWf_none
    | with_reducible apply optWf_some
    | with_reducible apply optWf_map
    | with_reducible apply wf_getD
    | with_reducible apply outWf_next
    | with_reducible apply wf_boardDeposit
    | (refine wf_of_pair (by assumption) ?_)
    | (refine wf_of_triple (by assumption) ?_)
    | (refine wf_of_fst (by assumption) ?_)
    | (refine wf_of_opt (by assumption) ?_)
    | intro _
    | split
    | dsimp only

theorem wf_podSendLayer {s : State} {x : KvSend} (hs : Memory.wf s.mem = true) : Memory.wf (podSendLayer s x).mem = true := by
  unfold podSendLayer
  repeat' first
    | assumption
    | with_reducible apply wf_foldl
    | with_reducible exact optWf_none
    | with_reducible apply optWf_some
    | with_reducible apply optWf_map
    | with_reducible apply wf_getD
    | with_reducible apply outWf_next
    | with_reducible apply wf_podSend
    | (refine wf_of_pair (by assumption) ?_)
    | (refine wf_of_triple (by assumption) ?_)
    | (refine wf_of_fst (by assumption) ?_)
    | (refine wf_of_opt (by assumption) ?_)
    | intro _
    | split
    | dsimp only

theorem wf_sendDone {s : State} {k : Nat} {x : KvSend} {status : Nat} (hs : Memory.wf s.mem = true) : Memory.wf (sendDone s k x status).mem = true := by
  unfold sendDone
  extract_lets s1 free d
  have h : Memory.wf d.2.mem = true := (kvOk_bind kvOk_kvKey fun _ => kvOk_kvRead).run s1 hs
  clear_value d
  repeat' first
    | assumption
    | with_reducible apply wf_foldl
    | with_reducible exact optWf_none
    | with_reducible apply optWf_some
    | with_reducible apply optWf_map
    | with_reducible apply wf_getD
    | with_reducible apply outWf_next
    | with_reducible apply wf_modTask
    | with_reducible apply kvOk_kvKey
    | with_reducible apply kvOk_kvRead
    | (refine wf_of_pair (by assumption) ?_)
    | (refine wf_of_triple (by assumption) ?_)
    | (refine wf_of_fst (by assumption) ?_)
    | (refine wf_of_opt (by assumption) ?_)
    | intro _
    | split
    | dsimp only

theorem wf_layerFlag {k : Nat} {s : State} (hs : Memory.wf s.mem = true) : Memory.wf (layerFlag k s).mem = true := by
  unfold layerFlag
  split
  · exact hs
  · rename_i x _
    extract_lets flag next
    have hn : ∀ u : State, Memory.wf u.mem = true → Memory.wf (next u).mem = true := by
      intro u hu
      dsimp only [next]
      split
      · exact wf_sendDone hu
      · split
        · rename_i e
          refine wf_sendLayer ?_ _ e
          exact hu
        · refine wf_ite (wf_holdMove hu) (wf_sendDone hu)
    clear_value next flag
    split
    · exact hn _ (wf_cwWrite hs)
    · split
      · exact hs
      · refine wf_ite hs ?_
        split
        · refine wf_ite (wf_getD (wf_sendDeposits hs) (wf_sendDone hs)) ?_
          exact wf_ite (hn _ (wf_podSendLayer hs)) (wf_sendDone hs)
        · refine wf_ite hs ?_
          split
          · exact hn _ hs
          · split
            · exact hs
            · rename_i e
              have h := (wf_cwMove hs).1 _ _ e
              exact h
            · exact hn _ ((wf_cwMove hs).2 _ (by assumption))

theorem wf_kvResult {op c part : Nat} {card : BitVec 512} {s : State} (hs : Memory.wf s.mem = true) : Memory.wf (kvResult op c part card s).2.mem = true := by
  unfold kvResult
  split
  · exact hs
  · rename_i e
    have h := wf_of_pair e (kvOk_kvTransaction.run s hs)
    split
    · exact h
    · exact hs

theorem wf_kvsendResult {c t : Nat} {task : Task} {handler : Bool} {q : KvReq} {s : State} (hs : Memory.wf s.mem = true) : Memory.wf (kvsendResult c t task handler q s).2.mem = true := by
  unfold kvsendResult
  extract_lets part refuse
  split
  · exact hs
  · exact wf_of_pair (by assumption) (kvOk_kvSendCheck.run s hs)
  · rename_i e
    have h := wf_of_pair e (kvOk_kvSendCheck.run s hs)
    split
    · exact h
    · extract_lets task2 seq x
      split
      · exact hs
      · rename_i e2
        refine wf_sendLayer ?_ _ e2
        exact wf_State_setTask h

theorem wf_kvFaults {c t : Nat} {heldP : Bool} {ph : Phase} {q : KvReq} {i : FaultInfo} {s : State} (hs : Memory.wf s.mem = true) : Memory.wf (kvFaults c t heldP ph q i s).mem = true := by
  unfold kvFaults
  repeat' first
    | assumption
    | with_reducible apply wf_foldl
    | with_reducible exact optWf_none
    | with_reducible apply optWf_some
    | with_reducible apply optWf_map
    | with_reducible apply wf_getD
    | with_reducible apply outWf_next
    | with_reducible apply wf_State_setTask
    | with_reducible apply wf_takeFault
    | with_reducible apply wf_setPhaseAt
    | (refine wf_of_pair (by assumption) ?_)
    | (refine wf_of_triple (by assumption) ?_)
    | (refine wf_of_fst (by assumption) ?_)
    | (refine wf_of_opt (by assumption) ?_)
    | intro _
    | split
    | dsimp only

theorem wf_kvMove {c t : Nat} {heldP : Bool} {n : Nat} {s : State} (hs : Memory.wf s.mem = true) : Memory.wf (kvMove c t heldP n s).mem = true := by
  unfold kvMove
  repeat' first
    | assumption
    | with_reducible apply wf_foldl
    | with_reducible exact optWf_none
    | with_reducible apply optWf_some
    | with_reducible apply optWf_map
    | with_reducible apply wf_getD
    | with_reducible apply outWf_next
    | with_reducible apply wf_acquireAt
    | with_reducible apply wf_modTask
    | with_reducible apply wf_kvResult
    | with_reducible apply wf_kvsendResult
    | with_reducible apply wf_kvFaults
    | (refine wf_of_pair (by assumption) ?_)
    | (refine wf_of_triple (by assumption) ?_)
    | (refine wf_of_fst (by assumption) ?_)
    | (refine wf_of_opt (by assumption) ?_)
    | intro _
    | split
    | dsimp only

theorem kvOk_clearPend {c part d q e : Nat} : kvOk (clearPend c part d q e) := by
  unfold clearPend
  repeat' first
    | assumption
    | with_reducible exact kvOk_pure _
    | with_reducible exact kvOk_fault _
    | with_reducible exact kvOk_kvRefuse
    | with_reducible exact kvOk_setArms
    | with_reducible exact kvOk_getDie
    | with_reducible exact kvOk_podOpen
    | with_reducible exact kvOk_btRead
    | with_reducible exact kvOk_btWrite
    | with_reducible apply kvOk_forM
    | with_reducible apply kvOk_mapM
    | with_reducible apply kvOk_foldlM
    | with_reducible apply kvOk_filterM
    | with_reducible apply kvOk_bind
    | intro _
    | split
    | dsimp only

theorem kvOk_clearPendSeq {c part q va : Nat} : kvOk (clearPendSeq c part q va) := by
  unfold clearPendSeq
  repeat' first
    | assumption
    | with_reducible exact kvOk_pure _
    | with_reducible exact kvOk_fault _
    | with_reducible exact kvOk_kvRefuse
    | with_reducible exact kvOk_setArms
    | with_reducible exact kvOk_getDie
    | with_reducible exact kvOk_podOpen
    | with_reducible exact kvOk_kvKey
    | with_reducible exact kvOk_kvRead
    | with_reducible exact kvOk_clearPend
    | with_reducible apply kvOk_forM
    | with_reducible apply kvOk_mapM
    | with_reducible apply kvOk_foldlM
    | with_reducible apply kvOk_filterM
    | with_reducible apply kvOk_bind
    | intro _
    | split
    | dsimp only

theorem kvOk_tryCatch {m : KvM Unit} (h : kvOk m) : kvOk (tryCatch m fun _ => pure ()) := by
  refine ⟨fun s hs => ?_⟩
  have := h.run s hs
  simp only [tryCatch, tryCatchThe, MonadExceptOf.tryCatch, ExceptT.tryCatch, ExceptT.mk, bind, StateT.bind, pure, StateT.pure, ExceptT.pure]
  rcases hm : m s with ⟨_ | _, s'⟩ <;> rw [hm] at this <;> exact this
theorem kvOk_cloneAlight {c part q : Nat} : kvOk (cloneAlight c part q) := by
  unfold cloneAlight
  repeat' first
    | assumption
    | with_reducible exact kvOk_pure _
    | with_reducible exact kvOk_fault _
    | with_reducible exact kvOk_kvRefuse
    | with_reducible exact kvOk_setArms
    | with_reducible exact kvOk_getDie
    | with_reducible exact kvOk_podOpen
    | with_reducible exact kvOk_tryCatch kvOk_clearPendSeq
    | with_reducible exact kvOk_kvPart
    | with_reducible exact kvOk_pdRead
    | with_reducible exact kvOk_pdWrite
    | with_reducible exact kvOk_kvFree
    | with_reducible exact kvOk_clearPendSeq
    | with_reducible apply kvOk_forM
    | with_reducible apply kvOk_mapM
    | with_reducible apply kvOk_foldlM
    | with_reducible apply kvOk_filterM
    | with_reducible apply kvOk_bind
    | intro _
    | split
    | dsimp only

theorem wf_riderAlight {key : Nat} {s : State} (hs : Memory.wf s.mem = true) : Memory.wf (riderAlight key s).mem = true := by
  unfold riderAlight
  split
  · exact hs
  · rename_i r _
    split
    · exact hs
    · split
      · split <;> exact hs
      · split
        · exact kvOk_cloneAlight.run _ hs
        · split
          · exact wf_alightBank hs
          · exact wf_alightRider hs

theorem wf_withCard {s : State} {c t chain seq : Nat} {f : Task → Card → State} (hf : ∀ a b, Memory.wf (f a b).mem = true) (hs : Memory.wf s.mem = true) :
    Memory.wf (withCard s c t chain seq f).mem = true := by
  unfold withCard
  split
  · exact hs
  · split
    · exact hs
    · exact hf _ _

theorem wf_cardStartMove {c t chain seq : Nat} {s : State} (hs : Memory.wf s.mem = true) : Memory.wf (cardStartMove c t chain seq s).mem = true := by
  unfold cardStartMove
  repeat' first
    | assumption
    | with_reducible apply wf_foldl
    | with_reducible exact optWf_none
    | with_reducible apply optWf_some
    | with_reducible apply optWf_map
    | with_reducible apply wf_getD
    | with_reducible apply outWf_next
    | with_reducible apply wf_startMatrix
    | with_reducible apply wf_startEngine
    | with_reducible apply wf_withCard
    | (refine wf_of_pair (by assumption) ?_)
    | (refine wf_of_triple (by assumption) ?_)
    | (refine wf_of_fst (by assumption) ?_)
    | (refine wf_of_opt (by assumption) ?_)
    | intro _
    | split
    | dsimp only

theorem wf_taskRowMove {c t chain seq : Nat} {s : State} (hs : Memory.wf s.mem = true) : Memory.wf (taskRowMove c t chain seq s).mem = true := by
  unfold taskRowMove
  repeat' first
    | assumption
    | with_reducible apply wf_foldl
    | with_reducible exact optWf_none
    | with_reducible apply optWf_some
    | with_reducible apply optWf_map
    | with_reducible apply wf_getD
    | with_reducible apply outWf_next
    | with_reducible apply wf_matrixRow
    | with_reducible apply wf_afterRow
    | with_reducible apply wf_engineRow
    | with_reducible apply wf_withCard
    | (refine wf_of_pair (by assumption) ?_)
    | (refine wf_of_triple (by assumption) ?_)
    | (refine wf_of_fst (by assumption) ?_)
    | (refine wf_of_opt (by assumption) ?_)
    | intro _
    | split
    | dsimp only

theorem wf_cardCompleteMove {c t chain seq : Nat} {s : State} (hs : Memory.wf s.mem = true) : Memory.wf (cardCompleteMove c t chain seq s).mem = true := by
  unfold cardCompleteMove
  repeat' first
    | assumption
    | with_reducible apply wf_foldl
    | with_reducible exact optWf_none
    | with_reducible apply optWf_some
    | with_reducible apply optWf_map
    | with_reducible apply wf_getD
    | with_reducible apply outWf_next
    | with_reducible apply wf_completeMatrix
    | with_reducible apply wf_completeEngine
    | with_reducible apply wf_withCard
    | (refine wf_of_pair (by assumption) ?_)
    | (refine wf_of_triple (by assumption) ?_)
    | (refine wf_of_fst (by assumption) ?_)
    | (refine wf_of_opt (by assumption) ?_)
    | intro _
    | split
    | dsimp only

theorem wf_cardFaultStep {c t chain seq : Nat} {s : State} (hs : Memory.wf s.mem = true) : Memory.wf (cardFaultStep c t chain seq s).mem = true := by
  unfold cardFaultStep
  repeat' first
    | assumption
    | with_reducible apply wf_foldl
    | with_reducible exact optWf_none
    | with_reducible apply optWf_some
    | with_reducible apply optWf_map
    | with_reducible apply wf_getD
    | with_reducible apply outWf_next
    | with_reducible apply wf_cardFaultMove
    | with_reducible apply wf_withCard
    | (refine wf_of_pair (by assumption) ?_)
    | (refine wf_of_triple (by assumption) ?_)
    | (refine wf_of_fst (by assumption) ?_)
    | (refine wf_of_opt (by assumption) ?_)
    | intro _
    | split
    | dsimp only

theorem wf_State_setBarrier {s : State} {k : Nat} {b : Barrier} (hs : Memory.wf s.mem = true) : Memory.wf (State.setBarrier s k b).mem = true := by
  unfold State.setBarrier
  repeat' first
    | assumption
    | with_reducible apply wf_foldl
    | with_reducible exact optWf_none
    | with_reducible apply optWf_some
    | with_reducible apply optWf_map
    | with_reducible apply wf_getD
    | with_reducible apply outWf_next
    | (refine wf_of_pair (by assumption) ?_)
    | (refine wf_of_triple (by assumption) ?_)
    | (refine wf_of_fst (by assumption) ?_)
    | (refine wf_of_opt (by assumption) ?_)
    | intro _
    | split
    | dsimp only

theorem wf_releaseWaits {s : State} {c key round scope : Nat} {x : Token} (hs : Memory.wf s.mem = true) : Memory.wf (releaseWaits s c key round scope x).mem = true := by
  unfold releaseWaits
  repeat' first
    | assumption
    | with_reducible apply wf_foldl
    | with_reducible exact optWf_none
    | with_reducible apply optWf_some
    | with_reducible apply optWf_map
    | with_reducible apply wf_getD
    | with_reducible apply outWf_next
    | with_reducible apply wf_State_setTask
    | with_reducible apply wf_acquireAt
    | (refine wf_of_pair (by assumption) ?_)
    | (refine wf_of_triple (by assumption) ?_)
    | (refine wf_of_fst (by assumption) ?_)
    | (refine wf_of_opt (by assumption) ?_)
    | intro _
    | split
    | dsimp only

theorem wf_tryComplete {s : State} {key : Nat} (hs : Memory.wf s.mem = true) : Memory.wf (tryComplete s key).mem = true := by
  unfold tryComplete
  repeat' first
    | assumption
    | with_reducible apply wf_foldl
    | with_reducible exact optWf_none
    | with_reducible apply optWf_some
    | with_reducible apply optWf_map
    | with_reducible apply wf_getD
    | with_reducible apply outWf_next
    | with_reducible apply wf_State_setBarrier
    | with_reducible apply wf_releaseWaits
    | (refine wf_of_pair (by assumption) ?_)
    | (refine wf_of_triple (by assumption) ?_)
    | (refine wf_of_fst (by assumption) ?_)
    | (refine wf_of_opt (by assumption) ?_)
    | intro _
    | split
    | dsimp only

theorem wf_recheckBarriers {s : State} {j : Nat} (hs : Memory.wf s.mem = true) : Memory.wf (recheckBarriers s j).mem = true := by
  unfold recheckBarriers
  repeat' first
    | assumption
    | with_reducible apply wf_foldl
    | with_reducible exact optWf_none
    | with_reducible apply optWf_some
    | with_reducible apply optWf_map
    | with_reducible apply wf_getD
    | with_reducible apply outWf_next
    | with_reducible apply wf_tryComplete
    | (refine wf_of_pair (by assumption) ?_)
    | (refine wf_of_triple (by assumption) ?_)
    | (refine wf_of_fst (by assumption) ?_)
    | (refine wf_of_opt (by assumption) ?_)
    | intro _
    | split
    | dsimp only

theorem wf_withdraw {s : State} {task : Task} {key : Nat} (hs : Memory.wf s.mem = true) : Memory.wf (withdraw s task key).mem = true := by
  unfold withdraw
  repeat' first
    | assumption
    | with_reducible apply wf_foldl
    | with_reducible exact optWf_none
    | with_reducible apply optWf_some
    | with_reducible apply optWf_map
    | with_reducible apply wf_getD
    | with_reducible apply outWf_next
    | with_reducible apply wf_State_setBarrier
    | (refine wf_of_pair (by assumption) ?_)
    | (refine wf_of_triple (by assumption) ?_)
    | (refine wf_of_fst (by assumption) ?_)
    | (refine wf_of_opt (by assumption) ?_)
    | intro _
    | split
    | dsimp only

theorem wf_arriveAt {s : State} {key count : Nat} {err : Bool} (hs : Memory.wf s.mem = true) : Memory.wf (arriveAt s key count err).mem = true := by
  unfold arriveAt
  repeat' first
    | assumption
    | with_reducible apply wf_foldl
    | with_reducible exact optWf_none
    | with_reducible apply optWf_some
    | with_reducible apply optWf_map
    | with_reducible apply wf_getD
    | with_reducible apply outWf_next
    | with_reducible apply wf_State_setBarrier
    | with_reducible apply wf_tryComplete
    | (refine wf_of_pair (by assumption) ?_)
    | (refine wf_of_triple (by assumption) ?_)
    | (refine wf_of_fst (by assumption) ?_)
    | (refine wf_of_opt (by assumption) ?_)
    | intro _
    | split
    | dsimp only

theorem wf_taskArrives {s : State} {c t key count : Nat} {err : Bool} (hs : Memory.wf s.mem = true) : Memory.wf (taskArrives s c t key count err).mem = true := by
  unfold taskArrives
  repeat' first
    | assumption
    | with_reducible apply wf_foldl
    | with_reducible exact optWf_none
    | with_reducible apply optWf_some
    | with_reducible apply optWf_map
    | with_reducible apply wf_getD
    | with_reducible apply outWf_next
    | with_reducible apply wf_State_setTask
    | with_reducible apply wf_podSend
    | with_reducible apply wf_arriveAt
    | (refine wf_of_pair (by assumption) ?_)
    | (refine wf_of_triple (by assumption) ?_)
    | (refine wf_of_fst (by assumption) ?_)
    | (refine wf_of_opt (by assumption) ?_)
    | intro _
    | split
    | dsimp only

theorem wf_prepareFeed {s : State} {c t : Nat} {task : Task} {card : BitVec 512} (hs : Memory.wf s.mem = true) : Memory.wf (prepareFeed s c t task card).2.mem = true := by
  unfold prepareFeed
  repeat' first
    | assumption
    | with_reducible apply wf_foldl
    | with_reducible exact optWf_none
    | with_reducible apply optWf_some
    | with_reducible apply optWf_map
    | with_reducible apply wf_getD
    | with_reducible apply outWf_next
    | with_reducible apply wf_rangeLines
    | (refine wf_of_pair (by assumption) ?_)
    | (refine wf_of_triple (by assumption) ?_)
    | (refine wf_of_fst (by assumption) ?_)
    | (refine wf_of_opt (by assumption) ?_)
    | intro _
    | split
    | dsimp only

theorem wf_resetSeedBuf {s : State} {c : Nat} (hs : Memory.wf s.mem = true) : Memory.wf (resetSeedBuf s c).mem = true := by
  unfold resetSeedBuf
  repeat' first
    | assumption
    | with_reducible apply wf_foldl
    | with_reducible exact optWf_none
    | with_reducible apply optWf_some
    | with_reducible apply optWf_map
    | with_reducible apply wf_getD
    | with_reducible apply outWf_next
    | with_reducible apply wf_State_setCore
    | (refine wf_of_pair (by assumption) ?_)
    | (refine wf_of_triple (by assumption) ?_)
    | (refine wf_of_fst (by assumption) ?_)
    | (refine wf_of_opt (by assumption) ?_)
    | intro _
    | split
    | dsimp only

theorem wf_dropSeedLeave {s : State} {c t : Nat} {task : Task} (hs : Memory.wf s.mem = true) : Memory.wf (dropSeedLeave s c t task).mem = true := by
  unfold dropSeedLeave
  repeat' first
    | assumption
    | with_reducible apply wf_foldl
    | with_reducible exact optWf_none
    | with_reducible apply optWf_some
    | with_reducible apply optWf_map
    | with_reducible apply wf_getD
    | with_reducible apply outWf_next
    | with_reducible apply wf_State_setDie
    | with_reducible apply wf_returnLeave
    | (refine wf_of_pair (by assumption) ?_)
    | (refine wf_of_triple (by assumption) ?_)
    | (refine wf_of_fst (by assumption) ?_)
    | (refine wf_of_opt (by assumption) ?_)
    | intro _
    | split
    | dsimp only

theorem wf_dropFeed {s : State} {j : Nat} {card : BitVec 512} (hs : Memory.wf s.mem = true) : Memory.wf (dropFeed s j card).mem = true := by
  unfold dropFeed
  repeat' first
    | assumption
    | with_reducible apply wf_foldl
    | with_reducible exact optWf_none
    | with_reducible apply optWf_some
    | with_reducible apply optWf_map
    | with_reducible apply wf_getD
    | with_reducible apply outWf_next
    | with_reducible apply wf_endStanding
    | with_reducible apply wf_cancelRider
    | (refine wf_of_pair (by assumption) ?_)
    | (refine wf_of_triple (by assumption) ?_)
    | (refine wf_of_fst (by assumption) ?_)
    | (refine wf_of_opt (by assumption) ?_)
    | intro _
    | split
    | dsimp only

theorem wf_leaveFeed {s : State} {c t : Nat} (hs : Memory.wf s.mem = true) : Memory.wf (leaveFeed s c t).mem = true := by
  unfold leaveFeed
  repeat' first
    | assumption
    | with_reducible apply wf_foldl
    | with_reducible exact optWf_none
    | with_reducible apply optWf_some
    | with_reducible apply optWf_map
    | with_reducible apply wf_getD
    | with_reducible apply outWf_next
    | with_reducible apply wf_State_setTask
    | with_reducible apply wf_resetSeedBuf
    | with_reducible apply wf_dropSeedLeave
    | with_reducible apply wf_dropFeed
    | (refine wf_of_pair (by assumption) ?_)
    | (refine wf_of_triple (by assumption) ?_)
    | (refine wf_of_fst (by assumption) ?_)
    | (refine wf_of_opt (by assumption) ?_)
    | intro _
    | split
    | dsimp only

theorem wf_joinFeed {s : State} {c t : Nat} {card : BitVec 512} {entering : Bool} (hs : Memory.wf s.mem = true) : Memory.wf (joinFeed s c t card entering).mem = true := by
  unfold joinFeed
  repeat' first
    | assumption
    | with_reducible apply wf_foldl
    | with_reducible exact optWf_none
    | with_reducible apply optWf_some
    | with_reducible apply optWf_map
    | with_reducible apply wf_getD
    | with_reducible apply outWf_next
    | with_reducible apply wf_State_setTask
    | with_reducible apply wf_resetSeedBuf
    | (refine wf_of_pair (by assumption) ?_)
    | (refine wf_of_triple (by assumption) ?_)
    | (refine wf_of_fst (by assumption) ?_)
    | (refine wf_of_opt (by assumption) ?_)
    | intro _
    | split
    | dsimp only

theorem wf_boardFeed {s : State} {c t : Nat} {task : Task} {card : BitVec 512} (hs : Memory.wf s.mem = true) :
    ∀ o, boardFeed s c t task card = .ok o → optWf o := by
  intro o e
  unfold boardFeed at e
  split at e
  · cases e; exact optWf_some hs
  · split at e
    · cases e
    · cases e
      have h := wf_of_pair (by assumption) (wf_prepareFeed hs)
      split
      · exact optWf_some (wf_enterRider h)
      · exact optWf_none

theorem outWf_fireWdrive {w : EpW} {s : State} (hs : Memory.wf s.mem = true) : outWf (fireWdrive w s) := by
  unfold fireWdrive
  split
  · exact outWf_next hs
  · extract_lets ports
    split
    · exact outWf_next hs
    · extract_lets ph card
      refine outWf_ite (outWf_next (wf_fired hs)) ?_
      split
      · exact outWf_next (wf_nodeFault hs)
      · split
        · exact outWf_next (wf_ite hs (wf_nodeFault hs))
        · exact outWf_next hs
        · rename_i e
          exact outWf_next (wf_fired (wf_joinFeed ((wf_boardFeed (wf_leaveFeed hs) _ e).get _ rfl)))

theorem wf_putSeedLine {s : State} {c : Nat} {l : SeedLine} {slot k : Nat} (hs : Memory.wf s.mem = true) : Memory.wf (putSeedLine s c l slot k).mem = true := by
  unfold putSeedLine
  repeat' first
    | assumption
    | with_reducible apply wf_foldl
    | with_reducible exact optWf_none
    | with_reducible apply optWf_some
    | with_reducible apply optWf_map
    | with_reducible apply wf_getD
    | with_reducible apply outWf_next
    | with_reducible apply wf_writeRun
    | (refine wf_of_pair (by assumption) ?_)
    | (refine wf_of_triple (by assumption) ?_)
    | (refine wf_of_fst (by assumption) ?_)
    | (refine wf_of_opt (by assumption) ?_)
    | intro _
    | split
    | dsimp only

theorem wf_sealSeed {s : State} {c : Nat} {b : SeedBuf} (hs : Memory.wf s.mem = true) : Memory.wf (sealSeed s c b).mem = true := by
  unfold sealSeed
  repeat' first
    | assumption
    | with_reducible apply wf_foldl
    | with_reducible exact optWf_none
    | with_reducible apply optWf_some
    | with_reducible apply optWf_map
    | with_reducible apply wf_getD
    | with_reducible apply outWf_next
    | with_reducible apply wf_setBuf
    | (refine wf_of_pair (by assumption) ?_)
    | (refine wf_of_triple (by assumption) ?_)
    | (refine wf_of_fst (by assumption) ?_)
    | (refine wf_of_opt (by assumption) ?_)
    | intro _
    | split
    | dsimp only

theorem wf_acceptSeed {s : State} {c t : Nat} {task : Task} {l : SeedLine} {h : BitVec 128} (hs : Memory.wf s.mem = true) : Memory.wf (acceptSeed s c t task l h).mem = true := by
  unfold acceptSeed
  repeat' first
    | assumption
    | with_reducible apply wf_foldl
    | with_reducible exact optWf_none
    | with_reducible apply optWf_some
    | with_reducible apply optWf_map
    | with_reducible apply wf_getD
    | with_reducible apply outWf_next
    | with_reducible apply wf_State_setTask
    | with_reducible apply wf_setBuf
    | with_reducible apply wf_putSeedLine
    | with_reducible apply wf_sealSeed
    | (refine wf_of_pair (by assumption) ?_)
    | (refine wf_of_triple (by assumption) ?_)
    | (refine wf_of_fst (by assumption) ?_)
    | (refine wf_of_opt (by assumption) ?_)
    | intro _
    | split
    | dsimp only

theorem wf_expectSeed {s : State} {c t : Nat} {task : Task} {l : SeedLine} (hs : Memory.wf s.mem = true) : Memory.wf (expectSeed s c t task l).mem = true := by
  unfold expectSeed
  repeat' first
    | assumption
    | with_reducible apply wf_foldl
    | with_reducible exact optWf_none
    | with_reducible apply optWf_some
    | with_reducible apply optWf_map
    | with_reducible apply wf_getD
    | with_reducible apply outWf_next
    | with_reducible apply wf_State_setTask
    | with_reducible apply wf_takeFault
    | with_reducible apply wf_acceptSeed
    | (refine wf_of_pair (by assumption) ?_)
    | (refine wf_of_triple (by assumption) ?_)
    | (refine wf_of_fst (by assumption) ?_)
    | (refine wf_of_opt (by assumption) ?_)
    | intro _
    | split
    | dsimp only

theorem wf_refuseSeed {s : State} {c t : Nat} {task : Task} {b : SeedBuf} (hs : Memory.wf s.mem = true) : Memory.wf (refuseSeed s c t task b).mem = true := by
  unfold refuseSeed
  repeat' first
    | assumption
    | with_reducible apply wf_foldl
    | with_reducible exact optWf_none
    | with_reducible apply optWf_some
    | with_reducible apply optWf_map
    | with_reducible apply wf_getD
    | with_reducible apply outWf_next
    | with_reducible apply wf_State_setTask
    | with_reducible apply wf_takeFault
    | with_reducible apply wf_setBuf
    | (refine wf_of_pair (by assumption) ?_)
    | (refine wf_of_triple (by assumption) ?_)
    | (refine wf_of_fst (by assumption) ?_)
    | (refine wf_of_opt (by assumption) ?_)
    | intro _
    | split
    | dsimp only

theorem wf_takeSeedLine {s : State} {c t : Nat} {task : Task} {l : SeedLine} (hs : Memory.wf s.mem = true) : Memory.wf (takeSeedLine s c t task l).mem = true := by
  unfold takeSeedLine
  repeat' first
    | assumption
    | with_reducible apply wf_foldl
    | with_reducible exact optWf_none
    | with_reducible apply optWf_some
    | with_reducible apply optWf_map
    | with_reducible apply wf_getD
    | with_reducible apply outWf_next
    | with_reducible apply wf_State_setTask
    | with_reducible apply wf_putSeedLine
    | with_reducible apply wf_sealSeed
    | with_reducible apply wf_expectSeed
    | with_reducible apply wf_refuseSeed
    | (refine wf_of_pair (by assumption) ?_)
    | (refine wf_of_triple (by assumption) ?_)
    | (refine wf_of_fst (by assumption) ?_)
    | (refine wf_of_opt (by assumption) ?_)
    | intro _
    | split
    | dsimp only

theorem wf_seedIntakeMove {c : Nat} {s : State} (hs : Memory.wf s.mem = true) : Memory.wf (seedIntakeMove c s).mem = true := by
  unfold seedIntakeMove
  repeat' first
    | assumption
    | with_reducible apply wf_foldl
    | with_reducible exact optWf_none
    | with_reducible apply optWf_some
    | with_reducible apply optWf_map
    | with_reducible apply wf_getD
    | with_reducible apply outWf_next
    | with_reducible apply wf_State_setCore
    | with_reducible apply wf_takeSeedLine
    | (refine wf_of_pair (by assumption) ?_)
    | (refine wf_of_triple (by assumption) ?_)
    | (refine wf_of_fst (by assumption) ?_)
    | (refine wf_of_opt (by assumption) ?_)
    | intro _
    | split
    | dsimp only

theorem wf_seedStartMove {c t : Nat} {s : State} (hs : Memory.wf s.mem = true) : Memory.wf (seedStartMove c t s).mem = true := by
  unfold seedStartMove
  repeat' first
    | assumption
    | with_reducible apply wf_foldl
    | with_reducible exact optWf_none
    | with_reducible apply optWf_some
    | with_reducible apply optWf_map
    | with_reducible apply wf_getD
    | with_reducible apply outWf_next
    | with_reducible apply wf_State_setTask
    | with_reducible apply wf_askLeave
    | (refine wf_of_pair (by assumption) ?_)
    | (refine wf_of_triple (by assumption) ?_)
    | (refine wf_of_fst (by assumption) ?_)
    | (refine wf_of_opt (by assumption) ?_)
    | intro _
    | split
    | dsimp only

theorem wf_writeSweeplen {ch v : Nat} {s : State} (hs : Memory.wf s.mem = true) : Memory.wf (writeSweeplen ch v s).mem = true := by
  unfold writeSweeplen
  repeat' first
    | assumption
    | with_reducible apply wf_foldl
    | with_reducible exact optWf_none
    | with_reducible apply optWf_some
    | with_reducible apply optWf_map
    | with_reducible apply wf_getD
    | with_reducible apply outWf_next
    | with_reducible apply wf_State_setChan
    | (refine wf_of_pair (by assumption) ?_)
    | (refine wf_of_triple (by assumption) ?_)
    | (refine wf_of_fst (by assumption) ?_)
    | (refine wf_of_opt (by assumption) ?_)
    | intro _
    | split
    | dsimp only

theorem wf_writeDshr {ch v : Nat} {s : State} (hs : Memory.wf s.mem = true) : Memory.wf (writeDshr ch v s).mem = true := by
  unfold writeDshr
  repeat' first
    | assumption
    | with_reducible apply wf_foldl
    | with_reducible exact optWf_none
    | with_reducible apply optWf_some
    | with_reducible apply optWf_map
    | with_reducible apply wf_getD
    | with_reducible apply outWf_next
    | with_reducible apply wf_State_setChan
    | (refine wf_of_pair (by assumption) ?_)
    | (refine wf_of_triple (by assumption) ?_)
    | (refine wf_of_fst (by assumption) ?_)
    | (refine wf_of_opt (by assumption) ?_)
    | intro _
    | split
    | dsimp only

theorem wf_writeTrctl {ch : Nat} {on : Bool} {s : State} (hs : Memory.wf s.mem = true) : Memory.wf (writeTrctl ch on s).mem = true := by
  unfold writeTrctl
  repeat' first
    | assumption
    | with_reducible apply wf_foldl
    | with_reducible exact optWf_none
    | with_reducible apply optWf_some
    | with_reducible apply optWf_map
    | with_reducible apply wf_getD
    | with_reducible apply outWf_next
    | with_reducible apply wf_State_setChan
    | (refine wf_of_pair (by assumption) ?_)
    | (refine wf_of_triple (by assumption) ?_)
    | (refine wf_of_fst (by assumption) ?_)
    | (refine wf_of_opt (by assumption) ?_)
    | intro _
    | split
    | dsimp only

theorem wf_startTest {ch : Nat} {kind : Bool} {seed : BitVec 16} {s : State} (hs : Memory.wf s.mem = true) : Memory.wf (startTest ch kind seed s).mem = true := by
  unfold startTest
  repeat' first
    | assumption
    | with_reducible apply wf_foldl
    | with_reducible exact optWf_none
    | with_reducible apply optWf_some
    | with_reducible apply optWf_map
    | with_reducible apply wf_getD
    | with_reducible apply outWf_next
    | with_reducible apply wf_State_setChan
    | (refine wf_of_pair (by assumption) ?_)
    | (refine wf_of_triple (by assumption) ?_)
    | (refine wf_of_fst (by assumption) ?_)
    | (refine wf_of_opt (by assumption) ?_)
    | intro _
    | split
    | dsimp only

theorem wf_endTest {ch : Nat} {lanes : Word64} {spares : BitVec 2} {s : State} (hs : Memory.wf s.mem = true) : Memory.wf (endTest ch lanes spares s).mem = true := by
  unfold endTest
  repeat' first
    | assumption
    | with_reducible apply wf_foldl
    | with_reducible exact optWf_none
    | with_reducible apply optWf_some
    | with_reducible apply optWf_map
    | with_reducible apply wf_getD
    | with_reducible apply outWf_next
    | with_reducible apply wf_State_setChan
    | (refine wf_of_pair (by assumption) ?_)
    | (refine wf_of_triple (by assumption) ?_)
    | (refine wf_of_fst (by assumption) ?_)
    | (refine wf_of_opt (by assumption) ?_)
    | intro _
    | split
    | dsimp only

theorem wf_writeRepair {ch v : Nat} {s : State} (hs : Memory.wf s.mem = true) : Memory.wf (writeRepair ch v s).mem = true := by
  unfold writeRepair
  repeat' first
    | assumption
    | with_reducible apply wf_foldl
    | with_reducible exact optWf_none
    | with_reducible apply optWf_some
    | with_reducible apply optWf_map
    | with_reducible apply wf_getD
    | with_reducible apply outWf_next
    | with_reducible apply wf_State_setChan
    | (refine wf_of_pair (by assumption) ?_)
    | (refine wf_of_triple (by assumption) ?_)
    | (refine wf_of_fst (by assumption) ?_)
    | (refine wf_of_opt (by assumption) ?_)
    | intro _
    | split
    | dsimp only

theorem wf_writePtroot {part v : Nat} {s : State} (hs : Memory.wf s.mem = true) : Memory.wf (writePtroot part v s).mem = true := by
  unfold writePtroot
  repeat' first
    | assumption
    | with_reducible apply wf_foldl
    | with_reducible exact optWf_none
    | with_reducible apply optWf_some
    | with_reducible apply optWf_map
    | with_reducible apply wf_getD
    | with_reducible apply outWf_next
    | with_reducible apply wf_State_setPart
    | (refine wf_of_pair (by assumption) ?_)
    | (refine wf_of_triple (by assumption) ?_)
    | (refine wf_of_fst (by assumption) ?_)
    | (refine wf_of_opt (by assumption) ?_)
    | intro _
    | split
    | dsimp only

theorem wf_writeKvPool {part reg v : Nat} {s : State} (hs : Memory.wf s.mem = true) : Memory.wf (writeKvPool part reg v s).mem = true := by
  unfold writeKvPool
  repeat' first
    | assumption
    | with_reducible apply wf_foldl
    | with_reducible exact optWf_none
    | with_reducible apply optWf_some
    | with_reducible apply optWf_map
    | with_reducible apply wf_getD
    | with_reducible apply outWf_next
    | with_reducible apply wf_State_setPart
    | (refine wf_of_pair (by assumption) ?_)
    | (refine wf_of_triple (by assumption) ?_)
    | (refine wf_of_fst (by assumption) ?_)
    | (refine wf_of_opt (by assumption) ?_)
    | intro _
    | split
    | dsimp only

theorem wf_writePabudget {d v : Nat} {s : State} (hs : Memory.wf s.mem = true) : Memory.wf (writePabudget d v s).mem = true := by
  unfold writePabudget
  repeat' first
    | assumption
    | with_reducible apply wf_foldl
    | with_reducible exact optWf_none
    | with_reducible apply optWf_some
    | with_reducible apply optWf_map
    | with_reducible apply wf_getD
    | with_reducible apply outWf_next
    | with_reducible apply wf_State_setDie
    | (refine wf_of_pair (by assumption) ?_)
    | (refine wf_of_triple (by assumption) ?_)
    | (refine wf_of_fst (by assumption) ?_)
    | (refine wf_of_opt (by assumption) ?_)
    | intro _
    | split
    | dsimp only

theorem wf_writeOppoint {v : Nat} {s : State} (hs : Memory.wf s.mem = true) : Memory.wf (writeOppoint v s).mem = true := by
  unfold writeOppoint
  repeat' first
    | assumption
    | with_reducible apply wf_foldl
    | with_reducible exact optWf_none
    | with_reducible apply optWf_some
    | with_reducible apply optWf_map
    | with_reducible apply wf_getD
    | with_reducible apply outWf_next
    | (refine wf_of_pair (by assumption) ?_)
    | (refine wf_of_triple (by assumption) ?_)
    | (refine wf_of_fst (by assumption) ?_)
    | (refine wf_of_opt (by assumption) ?_)
    | intro _
    | split
    | dsimp only

theorem wf_writeLifttime {v : Word32} {s : State} (hs : Memory.wf s.mem = true) : Memory.wf (writeLifttime v s).mem = true := by
  unfold writeLifttime
  repeat' first
    | assumption
    | with_reducible apply wf_foldl
    | with_reducible exact optWf_none
    | with_reducible apply optWf_some
    | with_reducible apply optWf_map
    | with_reducible apply wf_getD
    | with_reducible apply outWf_next
    | (refine wf_of_pair (by assumption) ?_)
    | (refine wf_of_triple (by assumption) ?_)
    | (refine wf_of_fst (by assumption) ?_)
    | (refine wf_of_opt (by assumption) ?_)
    | intro _
    | split
    | dsimp only

theorem wf_setLq {s : State} {fn q : Nat} {x : LaunchQ} (hs : Memory.wf s.mem = true) : Memory.wf (setLq s fn q x).mem = true := by
  unfold setLq
  repeat' first
    | assumption
    | with_reducible apply wf_foldl
    | with_reducible exact optWf_none
    | with_reducible apply optWf_some
    | with_reducible apply optWf_map
    | with_reducible apply wf_getD
    | with_reducible apply outWf_next
    | with_reducible apply wf_State_setFn
    | (refine wf_of_pair (by assumption) ?_)
    | (refine wf_of_triple (by assumption) ?_)
    | (refine wf_of_fst (by assumption) ?_)
    | (refine wf_of_opt (by assumption) ?_)
    | intro _
    | split
    | dsimp only

theorem wf_writeLqbase {fn q v : Nat} {s : State} (hs : Memory.wf s.mem = true) : Memory.wf (writeLqbase fn q v s).mem = true := by
  unfold writeLqbase
  repeat' first
    | assumption
    | with_reducible apply wf_foldl
    | with_reducible exact optWf_none
    | with_reducible apply optWf_some
    | with_reducible apply optWf_map
    | with_reducible apply wf_getD
    | with_reducible apply outWf_next
    | with_reducible apply wf_setLq
    | (refine wf_of_pair (by assumption) ?_)
    | (refine wf_of_triple (by assumption) ?_)
    | (refine wf_of_fst (by assumption) ?_)
    | (refine wf_of_opt (by assumption) ?_)
    | intro _
    | split
    | dsimp only

theorem wf_writeLqsize {fn q v : Nat} {s : State} (hs : Memory.wf s.mem = true) : Memory.wf (writeLqsize fn q v s).mem = true := by
  unfold writeLqsize
  repeat' first
    | assumption
    | with_reducible apply wf_foldl
    | with_reducible exact optWf_none
    | with_reducible apply optWf_some
    | with_reducible apply optWf_map
    | with_reducible apply wf_getD
    | with_reducible apply outWf_next
    | with_reducible apply wf_setLq
    | (refine wf_of_pair (by assumption) ?_)
    | (refine wf_of_triple (by assumption) ?_)
    | (refine wf_of_fst (by assumption) ?_)
    | (refine wf_of_opt (by assumption) ?_)
    | intro _
    | split
    | dsimp only

theorem wf_writeLqtail {fn q v : Nat} {s : State} (hs : Memory.wf s.mem = true) : Memory.wf (writeLqtail fn q v s).mem = true := by
  unfold writeLqtail
  repeat' first
    | assumption
    | with_reducible apply wf_foldl
    | with_reducible exact optWf_none
    | with_reducible apply optWf_some
    | with_reducible apply optWf_map
    | with_reducible apply wf_getD
    | with_reducible apply outWf_next
    | with_reducible apply wf_setLq
    | (refine wf_of_pair (by assumption) ?_)
    | (refine wf_of_triple (by assumption) ?_)
    | (refine wf_of_fst (by assumption) ?_)
    | (refine wf_of_opt (by assumption) ?_)
    | intro _
    | split
    | dsimp only

theorem wf_freezeBy {pin : Bool} {s : State} (hs : Memory.wf s.mem = true) : Memory.wf (freezeBy pin s).mem = true := by
  unfold freezeBy
  repeat' first
    | assumption
    | with_reducible apply wf_foldl
    | with_reducible exact optWf_none
    | with_reducible apply optWf_some
    | with_reducible apply optWf_map
    | with_reducible apply wf_getD
    | with_reducible apply outWf_next
    | (refine wf_of_pair (by assumption) ?_)
    | (refine wf_of_triple (by assumption) ?_)
    | (refine wf_of_fst (by assumption) ?_)
    | (refine wf_of_opt (by assumption) ?_)
    | intro _
    | split
    | dsimp only

theorem wf_setRegTask {s : State} {by_ : RegBy} {f : Task → Task} (hs : Memory.wf s.mem = true) : Memory.wf (setRegTask s by_ f).mem = true := by
  unfold setRegTask
  repeat' first
    | assumption
    | with_reducible apply wf_foldl
    | with_reducible exact optWf_none
    | with_reducible apply optWf_some
    | with_reducible apply optWf_map
    | with_reducible apply wf_getD
    | with_reducible apply outWf_next
    | with_reducible apply wf_State_setTask
    | (refine wf_of_pair (by assumption) ?_)
    | (refine wf_of_triple (by assumption) ?_)
    | (refine wf_of_fst (by assumption) ?_)
    | (refine wf_of_opt (by assumption) ?_)
    | intro _
    | split
    | dsimp only

theorem wf_writeDelays {ch k v : Nat} {s : State} (hs : Memory.wf s.mem = true) : Memory.wf (writeDelays ch k v s).mem = true := by
  unfold writeDelays
  repeat' first
    | assumption
    | with_reducible apply wf_foldl
    | with_reducible exact optWf_none
    | with_reducible apply optWf_some
    | with_reducible apply optWf_map
    | with_reducible apply wf_getD
    | with_reducible apply outWf_next
    | with_reducible apply wf_State_setChan
    | (refine wf_of_pair (by assumption) ?_)
    | (refine wf_of_triple (by assumption) ?_)
    | (refine wf_of_fst (by assumption) ?_)
    | (refine wf_of_opt (by assumption) ?_)
    | intro _
    | split
    | dsimp only

theorem wf_writeChanReg {ch k v : Nat} {s : State} (hs : Memory.wf s.mem = true) : Memory.wf (writeChanReg ch k v s).mem = true := by
  unfold writeChanReg
  repeat' first
    | assumption
    | with_reducible apply wf_foldl
    | with_reducible exact optWf_none
    | with_reducible apply optWf_some
    | with_reducible apply optWf_map
    | with_reducible apply wf_getD
    | with_reducible apply outWf_next
    | with_reducible apply wf_State_setChan
    | with_reducible apply wf_writeDshr
    | with_reducible apply wf_writeTrctl
    | with_reducible apply wf_startTest
    | with_reducible apply wf_writeRepair
    | with_reducible apply wf_writeDelays
    | (refine wf_of_pair (by assumption) ?_)
    | (refine wf_of_triple (by assumption) ?_)
    | (refine wf_of_fst (by assumption) ?_)
    | (refine wf_of_opt (by assumption) ?_)
    | intro _
    | split
    | dsimp only

theorem wf_regWrite {by_ : RegBy} {n v : Nat} {s : State} (hs : Memory.wf s.mem = true) : Memory.wf (regWrite by_ n v s).mem = true := by
  unfold regWrite
  refine wf_ite (wf_setRegTask hs) (wf_ite (wf_setRegTask hs) (wf_ite (wf_setRegTask hs) (wf_ite (wf_setRegTask hs) ?_)))
  refine wf_ite hs (wf_ite hs (wf_ite hs (wf_ite hs (wf_ite hs (wf_ite (wf_writePtroot hs) (wf_ite (wf_writeKvPool hs) (wf_ite (wf_writeSweeplen hs) ?_)))))))
  refine wf_ite ?_ (wf_ite hs (wf_ite hs (wf_ite hs (wf_ite (wf_writeOppoint hs) (wf_ite (wf_writePabudget hs) (wf_ite (wf_ite (wf_freezeBy hs) hs) ?_))))))
  · dsimp only
    split
    · exact wf_writeLqbase hs
    · exact wf_writeLqsize hs
    · exact wf_writeLqtail hs
    · exact hs
  · exact wf_ite (wf_writeChanReg hs) (wf_ite (wf_ite hs (wf_ite hs hs)) hs)

theorem wf_SeedRun_setAcc {r : SeedRun} {s : State} {m n : Nat} {f : Nat → Nat} (hs : Memory.wf s.mem = true) : Memory.wf (SeedRun.setAcc r s m n f).mem = true := by
  unfold SeedRun.setAcc
  repeat' first
    | assumption
    | with_reducible apply wf_foldl
    | with_reducible exact optWf_none
    | with_reducible apply optWf_some
    | with_reducible apply optWf_map
    | with_reducible apply wf_getD
    | with_reducible apply outWf_next
    | with_reducible apply wf_setAccRow
    | (refine wf_of_pair (by assumption) ?_)
    | (refine wf_of_triple (by assumption) ?_)
    | (refine wf_of_fst (by assumption) ?_)
    | (refine wf_of_opt (by assumption) ?_)
    | intro _
    | split
    | dsimp only

/-- A seed's effect keeps memory in canonical form. -/
structure seedOk (o : SeedOut) : Prop where
  get : ∀ e, o = .ok e → Memory.wf e.s.mem = true
theorem seedOk_error {f : FaultInfo} : seedOk (.error f) := ⟨fun e h => by cases h⟩
theorem seedOk_ok {e : SeedEff} (h : Memory.wf e.s.mem = true) : seedOk (.ok e) := ⟨fun e h => by cases h; assumption⟩
theorem seedOk_check8 : seedOk check8 := seedOk_error
theorem seedOk_map {α : Type} {o : Except FaultInfo α} {f : α → SeedEff} (h : ∀ a, Memory.wf (f a).s.mem = true) : seedOk (o.map f) := by
  refine ⟨fun e he => ?_⟩
  cases o with
  | error x => cases he
  | ok a => cases he; exact h a
theorem seedOk_overRows {r : SeedRun} {s : State} {g : Nat → Except FaultInfo (List Put × Flags)} (hs : Memory.wf s.mem = true) :
    seedOk (r.overRows s g) := by
  unfold SeedRun.overRows
  refine seedOk_map fun ps => ?_
  refine wf_foldl (fun s p h => ?_) _ hs
  exact wf_foldl (fun s p h => wf_doPut h) _ h

theorem seedOk_ite {p : Prop} [Decidable p] {a b : SeedOut} (ha : seedOk a) (hb : seedOk b) : seedOk (if p then a else b) := by
  split
  · exact ha
  · exact hb
theorem seedOk_seedMatrix {clear : Bool} {r : SeedRun} {s : State} (hs : Memory.wf s.mem = true) : seedOk (seedMatrix clear r s) := by
  unfold seedMatrix
  extract_lets k n b kc done
  refine seedOk_ite seedOk_check8 (seedOk_ite (seedOk_ok hs) (seedOk_ite seedOk_error (seedOk_ite seedOk_error ?_)))
  split
  · exact seedOk_error
  · refine seedOk_ok ?_
    exact wf_foldl (fun s x h => wf_SeedRun_setAcc h) _ hs

theorem seedOk_seedSvec {r : SeedRun} {s : State} (hs : Memory.wf s.mem = true) : seedOk (seedSvec r s) :=
  seedOk_ite seedOk_check8 (seedOk_ite (seedOk_ok hs) (seedOk_ite seedOk_error (seedOk_overRows hs)))

theorem seedOk_seedSbias {r : SeedRun} {s : State} (hs : Memory.wf s.mem = true) : seedOk (seedSbias r s) := by
  unfold seedSbias
  refine seedOk_ite seedOk_check8 (seedOk_ite (seedOk_ok hs) (seedOk_ite seedOk_error (seedOk_ok ?_)))
  exact wf_foldl (fun s x h => wf_SeedRun_setAcc h) _ hs

theorem seedOk_seedSnorm {r : SeedRun} {s : State} (hs : Memory.wf s.mem = true) : seedOk (seedSnorm r s) :=
  seedOk_ite seedOk_check8 (seedOk_ite (seedOk_ok hs) (seedOk_ite seedOk_error (seedOk_overRows hs)))

theorem seedOk_seedSact {r : SeedRun} {s : State} (hs : Memory.wf s.mem = true) : seedOk (seedSact r s) :=
  seedOk_ite seedOk_check8 (seedOk_ite (seedOk_ok hs) (seedOk_ite seedOk_error (seedOk_ite seedOk_error (seedOk_overRows hs))))

theorem seedOk_seedSdrain {r : SeedRun} {s : State} (hs : Memory.wf s.mem = true) : seedOk (seedSdrain r s) :=
  seedOk_ite seedOk_check8 (seedOk_ite (seedOk_ok hs) (seedOk_ite seedOk_error (seedOk_ite seedOk_error (seedOk_overRows hs))))

theorem seedOk_mapEff {o : SeedOut} {f : SeedEff → SeedEff} (ho : seedOk o) (hf : ∀ e, (f e).s = e.s) : seedOk (o.map f) := by
  refine ⟨fun e he => ?_⟩
  cases o with
  | error x => cases he
  | ok a => cases he; rw [hf]; exact ho.get a rfl
theorem seedOk_seedSembed {r : SeedRun} {s : State} (hs : Memory.wf s.mem = true) : seedOk (seedSembed r s) :=
  seedOk_ite seedOk_check8 (seedOk_ite (seedOk_ok hs) (seedOk_ite seedOk_error (seedOk_mapEff (seedOk_overRows hs) fun _ => rfl)))

theorem seedOk_seedSpad {r : SeedRun} {s : State} (hs : Memory.wf s.mem = true) : seedOk (seedSpad r s) :=
  seedOk_ite seedOk_check8 (seedOk_ok hs)

theorem seedOk_seedSjump {r : SeedRun} {s : State} (hs : Memory.wf s.mem = true) : seedOk (seedSjump r s) :=
  seedOk_ite seedOk_check8 (seedOk_ite (seedOk_ok hs) (seedOk_ite (seedOk_ok hs) (seedOk_ok hs)))

theorem seedOk_seedScall {r : SeedRun} {s : State} (hs : Memory.wf s.mem = true) : seedOk (seedScall r s) :=
  seedOk_ite seedOk_check8 (seedOk_ok hs)

theorem seedOk_seedSexit {r : SeedRun} {s : State} (hs : Memory.wf s.mem = true) : seedOk (seedSexit r s) :=
  seedOk_ite seedOk_check8 (seedOk_ok hs)

theorem wf_freeSeedSlot {s : State} {c : Nat} (hs : Memory.wf s.mem = true) : Memory.wf (freeSeedSlot s c).mem = true := by
  unfold freeSeedSlot
  repeat' first
    | assumption
    | with_reducible apply wf_foldl
    | with_reducible exact optWf_none
    | with_reducible apply optWf_some
    | with_reducible apply optWf_map
    | with_reducible apply wf_getD
    | with_reducible apply outWf_next
    | with_reducible apply wf_setBuf
    | (refine wf_of_pair (by assumption) ?_)
    | (refine wf_of_triple (by assumption) ?_)
    | (refine wf_of_fst (by assumption) ?_)
    | (refine wf_of_opt (by assumption) ?_)
    | intro _
    | split
    | dsimp only

theorem wf_commitSeed {r : SeedRun} {e : SeedEff} (h : Memory.wf e.s.mem = true) : Memory.wf (commitSeed r e).mem = true := by
  unfold commitSeed
  extract_lets s1
  have h1 : Memory.wf s1.mem = true := wf_ite h (wf_freeSeedSlot h)
  clear_value s1
  split
  · exact h1
  · extract_lets s2 sd s3 s4 core
    have h4 : Memory.wf s4.mem = true := by
      show Memory.wf (if e.leaves = true then leaveFeed s3 r.c r.t else s3).mem = true
      split
      · exact wf_leaveFeed (wf_State_setTask (wf_dropSeedLeave h1))
      · exact wf_State_setTask (wf_dropSeedLeave h1)
    clear_value s4
    exact wf_State_setCore h4

theorem wf_seedFault {r : SeedRun} {i : FaultInfo} {s : State} (hs : Memory.wf s.mem = true) : Memory.wf (seedFault r i s).mem = true := by
  unfold seedFault
  repeat' first
    | assumption
    | with_reducible apply wf_foldl
    | with_reducible exact optWf_none
    | with_reducible apply optWf_some
    | with_reducible apply optWf_map
    | with_reducible apply wf_getD
    | with_reducible apply outWf_next
    | with_reducible apply wf_takeFault
    | (refine wf_of_pair (by assumption) ?_)
    | (refine wf_of_triple (by assumption) ?_)
    | (refine wf_of_fst (by assumption) ?_)
    | (refine wf_of_opt (by assumption) ?_)
    | intro _
    | split
    | dsimp only

theorem outWf_fireSeed {sop : Nat} {g : SeedRun → State → SeedOut} {h : Husk} {s : State} (hg : ∀ r, seedOk (g r s)) (hs : Memory.wf s.mem = true) :
    outWf (fireSeed sop g h s) := by
  unfold fireSeed
  split
  · exact outWf_next hs
  · extract_lets c
    split
    · exact outWf_next (wf_seedFault hs)
    · extract_lets r
      split
      · exact outWf_next (wf_seedFault hs)
      · exact outWf_next (wf_commitSeed ((hg r).get _ (by assumption)))

theorem wf_sbarWait {r : SeedRun} {key : Nat} {s : State} (hs : Memory.wf s.mem = true) : Memory.wf (sbarWait r key s).mem = true := by
  unfold sbarWait
  split
  · exact hs
  · split
    · exact wf_commitSeed (wf_acquireAt hs)
    · exact hs

theorem wf_sbarCommit {r : SeedRun} {key : Nat} {s : State} (hs : Memory.wf s.mem = true) : Memory.wf (sbarCommit r key s).mem = true := by
  unfold sbarCommit
  repeat' first
    | assumption
    | with_reducible apply wf_foldl
    | with_reducible exact optWf_none
    | with_reducible apply optWf_some
    | with_reducible apply optWf_map
    | with_reducible apply wf_getD
    | with_reducible apply outWf_next
    | with_reducible apply wf_State_setTask
    | with_reducible apply wf_freeSeedSlot
    | (refine wf_of_pair (by assumption) ?_)
    | (refine wf_of_triple (by assumption) ?_)
    | (refine wf_of_fst (by assumption) ?_)
    | (refine wf_of_opt (by assumption) ?_)
    | intro _
    | split
    | dsimp only

theorem wf_sbarStep {r : SeedRun} {s : State} (hs : Memory.wf s.mem = true) : Memory.wf (sbarStep r s).mem = true := by
  unfold sbarStep
  extract_lets op scope id key
  refine wf_ite (wf_seedFault hs) (wf_ite (wf_seedFault hs) (wf_ite hs (wf_ite ?_ ?_)))
  · exact wf_taskArrives (wf_commitSeed hs)
  · exact wf_sbarWait (wf_taskArrives (wf_sbarCommit hs))

theorem outWf_fireSbar {h : Husk} {s : State} (hs : Memory.wf s.mem = true) : outWf (fireSbar h s) := by
  unfold fireSbar
  split
  · exact outWf_next hs
  · split
    · exact outWf_next (wf_sbarWait hs)
    · exact outWf_next (wf_seedFault hs)
    · exact outWf_next (wf_sbarStep hs)

theorem outWf_fireEp3 {ports : List Nat} {lanes : List (Nat × Token) → Bool} {g : Foc → List (Nat × Token) → State → State} {s : State}
    (hg : ∀ f ops u, Memory.wf u.mem = true → Memory.wf (g f ops u).mem = true) (hs : Memory.wf s.mem = true) : outWf (fireEp3 ports lanes g s) := by
  unfold fireEp3
  split
  · exact outWf_next hs
  · split
    · exact outWf_next hs
    · exact outWf_ite (outWf_next (wf_epFired hs)) (outWf_next (hg _ _ _ hs))

theorem outWf_fireDeciding {g : Foc → Token → Except FaultInfo (Phase → Phase)} {s : State} (hs : Memory.wf s.mem = true) : outWf (fireDeciding g s) := by
  unfold fireDeciding
  repeat' first
    | assumption
    | with_reducible apply wf_foldl
    | with_reducible exact optWf_none
    | with_reducible apply optWf_some
    | with_reducible apply optWf_map
    | with_reducible apply wf_getD
    | with_reducible apply outWf_next
    | with_reducible apply wf_fired
    | with_reducible apply wf_nodeFault
    | (refine wf_of_pair (by assumption) ?_)
    | (refine wf_of_triple (by assumption) ?_)
    | (refine wf_of_fst (by assumption) ?_)
    | (refine wf_of_opt (by assumption) ?_)
    | intro _
    | split
    | dsimp only

theorem wf_emitNow {s : State} {ports : List Nat} {x : Token} (hs : Memory.wf s.mem = true) : Memory.wf (emitNow s ports x).mem = true := by
  unfold emitNow
  repeat' first
    | assumption
    | with_reducible apply wf_foldl
    | with_reducible exact optWf_none
    | with_reducible apply optWf_some
    | with_reducible apply optWf_map
    | with_reducible apply wf_getD
    | with_reducible apply outWf_next
    | with_reducible apply wf_epFired
    | (refine wf_of_pair (by assumption) ?_)
    | (refine wf_of_triple (by assumption) ?_)
    | (refine wf_of_fst (by assumption) ?_)
    | (refine wf_of_opt (by assumption) ?_)
    | intro _
    | split
    | dsimp only

theorem wf_emitLater {s : State} {ports : List Nat} {key : Nat} (hs : Memory.wf s.mem = true) : Memory.wf (emitLater s ports key).mem = true := by
  unfold emitLater
  repeat' first
    | assumption
    | with_reducible apply wf_foldl
    | with_reducible exact optWf_none
    | with_reducible apply optWf_some
    | with_reducible apply optWf_map
    | with_reducible apply wf_getD
    | with_reducible apply outWf_next
    | with_reducible apply wf_epFired
    | (refine wf_of_pair (by assumption) ?_)
    | (refine wf_of_triple (by assumption) ?_)
    | (refine wf_of_fst (by assumption) ?_)
    | (refine wf_of_opt (by assumption) ?_)
    | intro _
    | split
    | dsimp only

theorem wf_epFenced {s : State} {f : Foc} {scope : Nat} (hs : Memory.wf s.mem = true) : Memory.wf (epFenced s f scope).2.mem = true := by
  unfold epFenced
  repeat' first
    | assumption
    | with_reducible apply wf_foldl
    | with_reducible exact optWf_none
    | with_reducible apply optWf_some
    | with_reducible apply optWf_map
    | with_reducible apply wf_getD
    | with_reducible apply outWf_next
    | with_reducible apply wf_setPhaseAt
    | (refine wf_of_pair (by assumption) ?_)
    | (refine wf_of_triple (by assumption) ?_)
    | (refine wf_of_fst (by assumption) ?_)
    | (refine wf_of_opt (by assumption) ?_)
    | intro _
    | split
    | dsimp only

theorem wf_barWait {s : State} {f : Foc} {scope key : Nat} (hs : Memory.wf s.mem = true) : Memory.wf (barWait s f scope key).mem = true := by
  unfold barWait
  repeat' first
    | assumption
    | with_reducible apply wf_foldl
    | with_reducible exact optWf_none
    | with_reducible apply optWf_some
    | with_reducible apply optWf_map
    | with_reducible apply wf_getD
    | with_reducible apply outWf_next
    | with_reducible apply wf_acquireAt
    | with_reducible apply wf_emitNow
    | with_reducible apply wf_emitLater
    | (refine wf_of_pair (by assumption) ?_)
    | (refine wf_of_triple (by assumption) ?_)
    | (refine wf_of_fst (by assumption) ?_)
    | (refine wf_of_opt (by assumption) ?_)
    | intro _
    | split
    | dsimp only

theorem outWf_fireBar {sub : Nat} {w : EpW} {s : State} (hs : Memory.wf s.mem = true) : outWf (fireBar sub w s) := by
  unfold fireBar
  repeat' first
    | assumption
    | with_reducible apply wf_foldl
    | with_reducible exact optWf_none
    | with_reducible apply optWf_some
    | with_reducible apply optWf_map
    | with_reducible apply wf_getD
    | with_reducible apply outWf_next
    | with_reducible apply wf_State_setTask
    | with_reducible apply wf_nodeFault
    | with_reducible apply wf_recheckBarriers
    | with_reducible apply wf_withdraw
    | with_reducible apply wf_taskArrives
    | with_reducible apply outWf_fireEp3
    | with_reducible apply wf_emitNow
    | with_reducible apply wf_epFenced
    | with_reducible apply wf_barWait
    | (refine wf_of_pair (by assumption) ?_)
    | (refine wf_of_triple (by assumption) ?_)
    | (refine wf_of_fst (by assumption) ?_)
    | (refine wf_of_opt (by assumption) ?_)
    | intro _
    | split
    | dsimp only

theorem wf_waitFault {s : State} {c t cls : Nat} {p : Nat → Bool} (hs : Memory.wf s.mem = true) : Memory.wf (waitFault s c t cls p).mem = true := by
  unfold waitFault
  repeat' first
    | assumption
    | with_reducible apply wf_foldl
    | with_reducible exact optWf_none
    | with_reducible apply optWf_some
    | with_reducible apply optWf_map
    | with_reducible apply wf_getD
    | with_reducible apply outWf_next
    | with_reducible apply wf_takeFault
    | (refine wf_of_pair (by assumption) ?_)
    | (refine wf_of_triple (by assumption) ?_)
    | (refine wf_of_fst (by assumption) ?_)
    | (refine wf_of_opt (by assumption) ?_)
    | intro _
    | split
    | dsimp only

theorem wf_podWaitFault {s : State} {c t : Nat} (hs : Memory.wf s.mem = true) : Memory.wf (podWaitFault s c t).mem = true := by
  unfold podWaitFault
  repeat' first
    | assumption
    | with_reducible apply wf_foldl
    | with_reducible exact optWf_none
    | with_reducible apply optWf_some
    | with_reducible apply optWf_map
    | with_reducible apply wf_getD
    | with_reducible apply outWf_next
    | with_reducible apply wf_waitFault
    | (refine wf_of_pair (by assumption) ?_)
    | (refine wf_of_triple (by assumption) ?_)
    | (refine wf_of_fst (by assumption) ?_)
    | (refine wf_of_opt (by assumption) ?_)
    | intro _
    | split
    | dsimp only

theorem outWf_fireMsend {w : EpW} {s : State} (hs : Memory.wf s.mem = true) : outWf (fireMsend w s) := by
  unfold fireMsend
  repeat' first
    | assumption
    | with_reducible apply wf_foldl
    | with_reducible exact optWf_none
    | with_reducible apply optWf_some
    | with_reducible apply optWf_map
    | with_reducible apply wf_getD
    | with_reducible apply outWf_next
    | with_reducible apply wf_nodeFault
    | with_reducible apply outWf_fireEp3
    | with_reducible apply wf_emitLater
    | with_reducible apply wf_epFenced
    | (refine wf_of_pair (by assumption) ?_)
    | (refine wf_of_triple (by assumption) ?_)
    | (refine wf_of_fst (by assumption) ?_)
    | (refine wf_of_opt (by assumption) ?_)
    | intro _
    | split
    | dsimp only

theorem wf_wakeFor {s : State} {c chan : Nat} (hs : Memory.wf s.mem = true) : Memory.wf (wakeFor s c chan).mem = true := by
  unfold wakeFor
  repeat' first
    | assumption
    | with_reducible apply wf_foldl
    | with_reducible exact optWf_none
    | with_reducible apply optWf_some
    | with_reducible apply optWf_map
    | with_reducible apply wf_getD
    | with_reducible apply outWf_next
    | with_reducible apply wf_State_setTask
    | (refine wf_of_pair (by assumption) ?_)
    | (refine wf_of_triple (by assumption) ?_)
    | (refine wf_of_fst (by assumption) ?_)
    | (refine wf_of_opt (by assumption) ?_)
    | intro _
    | split
    | dsimp only

theorem wf_queueMessage {s : State} {c chan : Nat} {m : BitVec 384 × Nat} (hs : Memory.wf s.mem = true) : optWf (queueMessage s c chan m) := by
  unfold queueMessage
  extract_lets core ch
  split
  · exact optWf_none
  · exact optWf_some (wf_wakeFor (wf_State_setCore hs))

theorem wf_messageOut {s : State} {m : Message} {done : State → State} (hd : ∀ u, Memory.wf u.mem = true → Memory.wf (done u).mem = true)
    (hs : Memory.wf s.mem = true) : Memory.wf (messageOut s m done).mem = true := by
  unfold messageOut
  extract_lets pkg words pod fault
  have hf : ∀ cls, Memory.wf (fault cls).mem = true := by
    intro cls
    dsimp only [fault]
    split
    · exact wf_waitFault hs
    · exact hs
  exact wf_ite (hf _) (wf_ite (hf _) (hd _ (wf_podSend hs)))

theorem wf_messageArrive {n : Nat} {s : State} (hs : Memory.wf s.mem = true) : Memory.wf (messageArrive n s).mem = true := by
  unfold messageArrive
  repeat' first
    | assumption
    | with_reducible apply wf_foldl
    | with_reducible exact optWf_none
    | with_reducible apply optWf_some
    | with_reducible apply optWf_map
    | with_reducible apply wf_getD
    | with_reducible apply outWf_next
    | with_reducible apply wf_modTask
    | with_reducible apply wf_queueMessage
    | with_reducible apply wf_messageOut
    | (refine wf_of_pair (by assumption) ?_)
    | (refine wf_of_triple (by assumption) ?_)
    | (refine wf_of_fst (by assumption) ?_)
    | (refine wf_of_opt (by assumption) ?_)
    | intro _
    | split
    | dsimp only

theorem outWf_fireBind {s : State} (hs : Memory.wf s.mem = true) : outWf (fireBind s) := by
  unfold fireBind
  repeat' first
    | assumption
    | with_reducible apply wf_foldl
    | with_reducible exact optWf_none
    | with_reducible apply optWf_some
    | with_reducible apply optWf_map
    | with_reducible apply wf_getD
    | with_reducible apply outWf_next
    | with_reducible apply wf_State_setCore
    | with_reducible apply wf_nodeFault
    | with_reducible apply outWf_fireEp3
    | with_reducible apply wf_emitNow
    | (refine wf_of_pair (by assumption) ?_)
    | (refine wf_of_triple (by assumption) ?_)
    | (refine wf_of_fst (by assumption) ?_)
    | (refine wf_of_opt (by assumption) ?_)
    | intro _
    | split
    | dsimp only

theorem outWf_fireYield {wait : Bool} {s : State} (hs : Memory.wf s.mem = true) : outWf (fireYield wait s) := by
  unfold fireYield
  repeat' first
    | assumption
    | with_reducible apply wf_foldl
    | with_reducible exact optWf_none
    | with_reducible apply optWf_some
    | with_reducible apply optWf_map
    | with_reducible apply wf_getD
    | with_reducible apply outWf_next
    | with_reducible apply outWf_fireDeciding
    | (refine wf_of_pair (by assumption) ?_)
    | (refine wf_of_triple (by assumption) ?_)
    | (refine wf_of_fst (by assumption) ?_)
    | (refine wf_of_opt (by assumption) ?_)
    | intro _
    | split
    | dsimp only

theorem outWf_fireEnd {s : State} (hs : Memory.wf s.mem = true) : outWf (fireEnd s) := by
  unfold fireEnd
  repeat' first
    | assumption
    | with_reducible apply wf_foldl
    | with_reducible exact optWf_none
    | with_reducible apply optWf_some
    | with_reducible apply optWf_map
    | with_reducible apply wf_getD
    | with_reducible apply outWf_next
    | with_reducible apply outWf_fireDeciding
    | (refine wf_of_pair (by assumption) ?_)
    | (refine wf_of_triple (by assumption) ?_)
    | (refine wf_of_fst (by assumption) ?_)
    | (refine wf_of_opt (by assumption) ?_)
    | intro _
    | split
    | dsimp only

theorem outWf_fireEret {s : State} (hs : Memory.wf s.mem = true) : outWf (fireEret s) := by
  unfold fireEret
  repeat' first
    | assumption
    | with_reducible apply wf_foldl
    | with_reducible exact optWf_none
    | with_reducible apply optWf_some
    | with_reducible apply optWf_map
    | with_reducible apply wf_getD
    | with_reducible apply outWf_next
    | with_reducible apply outWf_fireDeciding
    | (refine wf_of_pair (by assumption) ?_)
    | (refine wf_of_triple (by assumption) ?_)
    | (refine wf_of_fst (by assumption) ?_)
    | (refine wf_of_opt (by assumption) ?_)
    | intro _
    | split
    | dsimp only

theorem outWf_fireTrap {s : State} (hs : Memory.wf s.mem = true) : outWf (fireTrap s) := by
  unfold fireTrap
  repeat' first
    | assumption
    | with_reducible apply wf_foldl
    | with_reducible exact optWf_none
    | with_reducible apply optWf_some
    | with_reducible apply optWf_map
    | with_reducible apply wf_getD
    | with_reducible apply outWf_next
    | with_reducible apply wf_fired
    | with_reducible apply wf_nodeFault
    | (refine wf_of_pair (by assumption) ?_)
    | (refine wf_of_triple (by assumption) ?_)
    | (refine wf_of_fst (by assumption) ?_)
    | (refine wf_of_opt (by assumption) ?_)
    | intro _
    | split
    | dsimp only

theorem outWf_fireWaitseq {s : State} (hs : Memory.wf s.mem = true) : outWf (fireWaitseq s) := by
  unfold fireWaitseq
  repeat' first
    | assumption
    | with_reducible apply wf_foldl
    | with_reducible exact optWf_none
    | with_reducible apply optWf_some
    | with_reducible apply optWf_map
    | with_reducible apply wf_getD
    | with_reducible apply outWf_next
    | with_reducible apply wf_nodeFault
    | with_reducible apply wf_acquireAt
    | with_reducible apply outWf_fireEp3
    | with_reducible apply wf_emitNow
    | (refine wf_of_pair (by assumption) ?_)
    | (refine wf_of_triple (by assumption) ?_)
    | (refine wf_of_fst (by assumption) ?_)
    | (refine wf_of_opt (by assumption) ?_)
    | intro _
    | split
    | dsimp only

theorem outWf_fireSysrd {s : State} (hs : Memory.wf s.mem = true) : outWf (fireSysrd s) := by
  unfold fireSysrd
  repeat' first
    | assumption
    | with_reducible apply wf_foldl
    | with_reducible exact optWf_none
    | with_reducible apply optWf_some
    | with_reducible apply optWf_map
    | with_reducible apply wf_getD
    | with_reducible apply outWf_next
    | with_reducible apply wf_nodeFault
    | with_reducible apply outWf_fireEp3
    | with_reducible apply wf_emitNow
    | (refine wf_of_pair (by assumption) ?_)
    | (refine wf_of_triple (by assumption) ?_)
    | (refine wf_of_fst (by assumption) ?_)
    | (refine wf_of_opt (by assumption) ?_)
    | intro _
    | split
    | dsimp only

theorem outWf_fireSyswr {s : State} (hs : Memory.wf s.mem = true) : outWf (fireSyswr s) := by
  unfold fireSyswr
  repeat' first
    | assumption
    | with_reducible apply wf_foldl
    | with_reducible exact optWf_none
    | with_reducible apply optWf_some
    | with_reducible apply optWf_map
    | with_reducible apply wf_getD
    | with_reducible apply outWf_next
    | with_reducible apply wf_nodeFault
    | with_reducible apply wf_regWrite
    | with_reducible apply outWf_fireEp3
    | with_reducible apply wf_emitNow
    | (refine wf_of_pair (by assumption) ?_)
    | (refine wf_of_triple (by assumption) ?_)
    | (refine wf_of_fst (by assumption) ?_)
    | (refine wf_of_opt (by assumption) ?_)
    | intro _
    | split
    | dsimp only

theorem wf_recheckPart {s : State} {part : Nat} (hs : Memory.wf s.mem = true) : Memory.wf (recheckPart s part).mem = true := by
  unfold recheckPart
  repeat' first
    | assumption
    | with_reducible apply wf_foldl
    | with_reducible exact optWf_none
    | with_reducible apply optWf_some
    | with_reducible apply optWf_map
    | with_reducible apply wf_getD
    | with_reducible apply outWf_next
    | (refine wf_of_pair (by assumption) ?_)
    | (refine wf_of_triple (by assumption) ?_)
    | (refine wf_of_fst (by assumption) ?_)
    | (refine wf_of_opt (by assumption) ?_)
    | intro _
    | split
    | dsimp only

theorem outWf_fireTlbinv {all : Bool} {s : State} (hs : Memory.wf s.mem = true) : outWf (fireTlbinv all s) := by
  unfold fireTlbinv
  repeat' first
    | assumption
    | with_reducible apply wf_foldl
    | with_reducible exact optWf_none
    | with_reducible apply optWf_some
    | with_reducible apply optWf_map
    | with_reducible apply wf_getD
    | with_reducible apply outWf_next
    | with_reducible apply wf_State_setQuad
    | with_reducible apply wf_nodeFault
    | with_reducible apply outWf_fireEp3
    | with_reducible apply wf_emitNow
    | with_reducible apply wf_recheckPart
    | (refine wf_of_pair (by assumption) ?_)
    | (refine wf_of_triple (by assumption) ?_)
    | (refine wf_of_fst (by assumption) ?_)
    | (refine wf_of_opt (by assumption) ?_)
    | intro _
    | split
    | dsimp only

theorem outWf_fireLaunch {s : State} (hs : Memory.wf s.mem = true) : outWf (fireLaunch s) := by
  unfold fireLaunch
  repeat' first
    | assumption
    | with_reducible apply wf_foldl
    | with_reducible exact optWf_none
    | with_reducible apply optWf_some
    | with_reducible apply optWf_map
    | with_reducible apply wf_getD
    | with_reducible apply outWf_next
    | with_reducible apply wf_nodeFault
    | with_reducible apply wf_runKeys
    | with_reducible apply wf_writeKeys
    | with_reducible apply wf_engineRead
    | with_reducible apply wf_writeLqtail
    | with_reducible apply outWf_fireEp3
    | with_reducible apply wf_emitNow
    | (refine wf_of_pair (by assumption) ?_)
    | (refine wf_of_triple (by assumption) ?_)
    | (refine wf_of_fst (by assumption) ?_)
    | (refine wf_of_opt (by assumption) ?_)
    | intro _
    | split
    | dsimp only

theorem outWf_firePmrd {s : State} (hs : Memory.wf s.mem = true) : outWf (firePmrd s) := by
  unfold firePmrd
  repeat' first
    | assumption
    | with_reducible apply wf_foldl
    | with_reducible exact optWf_none
    | with_reducible apply optWf_some
    | with_reducible apply optWf_map
    | with_reducible apply wf_getD
    | with_reducible apply outWf_next
    | with_reducible apply wf_nodeFault
    | with_reducible apply outWf_fireEp3
    | with_reducible apply wf_emitNow
    | (refine wf_of_pair (by assumption) ?_)
    | (refine wf_of_triple (by assumption) ?_)
    | (refine wf_of_fst (by assumption) ?_)
    | (refine wf_of_opt (by assumption) ?_)
    | intro _
    | split
    | dsimp only

theorem wf_takeOff {s : State} {rs : List (Nat × Rider)} (hs : Memory.wf s.mem = true) : Memory.wf (takeOff s rs).mem = true := by
  unfold takeOff
  repeat' first
    | assumption
    | with_reducible apply wf_foldl
    | with_reducible exact optWf_none
    | with_reducible apply optWf_some
    | with_reducible apply optWf_map
    | with_reducible apply wf_getD
    | with_reducible apply outWf_next
    | with_reducible apply wf_State_setDie
    | with_reducible apply wf_returnLeave
    | (refine wf_of_pair (by assumption) ?_)
    | (refine wf_of_triple (by assumption) ?_)
    | (refine wf_of_fst (by assumption) ?_)
    | (refine wf_of_opt (by assumption) ?_)
    | intro _
    | split
    | dsimp only

theorem wf_beginCut {s : State} {c t : Nat} (hs : Memory.wf s.mem = true) : Memory.wf (beginCut s c t).mem = true := by
  unfold beginCut
  repeat' first
    | assumption
    | with_reducible apply wf_foldl
    | with_reducible exact optWf_none
    | with_reducible apply optWf_some
    | with_reducible apply optWf_map
    | with_reducible apply wf_getD
    | with_reducible apply outWf_next
    | with_reducible apply wf_State_setTask
    | with_reducible apply wf_takeOff
    | (refine wf_of_pair (by assumption) ?_)
    | (refine wf_of_triple (by assumption) ?_)
    | (refine wf_of_fst (by assumption) ?_)
    | (refine wf_of_opt (by assumption) ?_)
    | intro _
    | split
    | dsimp only

theorem wf_requestCut {s : State} {j : Nat} (hs : Memory.wf s.mem = true) : Memory.wf (requestCut s j).mem = true := by
  unfold requestCut
  repeat' first
    | assumption
    | with_reducible apply wf_foldl
    | with_reducible exact optWf_none
    | with_reducible apply optWf_some
    | with_reducible apply optWf_map
    | with_reducible apply wf_getD
    | with_reducible apply outWf_next
    | with_reducible apply wf_State_setJob
    | with_reducible apply wf_State_setTask
    | (refine wf_of_pair (by assumption) ?_)
    | (refine wf_of_triple (by assumption) ?_)
    | (refine wf_of_fst (by assumption) ?_)
    | (refine wf_of_opt (by assumption) ?_)
    | intro _
    | split
    | dsimp only

theorem wf_beginCuts {s : State} {c : Nat} (hs : Memory.wf s.mem = true) : Memory.wf (beginCuts s c).mem = true := by
  unfold beginCuts
  repeat' first
    | assumption
    | with_reducible apply wf_foldl
    | with_reducible exact optWf_none
    | with_reducible apply optWf_some
    | with_reducible apply optWf_map
    | with_reducible apply wf_getD
    | with_reducible apply outWf_next
    | with_reducible apply wf_beginCut
    | (refine wf_of_pair (by assumption) ?_)
    | (refine wf_of_triple (by assumption) ?_)
    | (refine wf_of_fst (by assumption) ?_)
    | (refine wf_of_opt (by assumption) ?_)
    | intro _
    | split
    | dsimp only

theorem wf_deferExpiryMove {j : Nat} {s : State} (hs : Memory.wf s.mem = true) : Memory.wf (deferExpiryMove j s).mem = true := by
  unfold deferExpiryMove
  repeat' first
    | assumption
    | with_reducible apply wf_foldl
    | with_reducible exact optWf_none
    | with_reducible apply optWf_some
    | with_reducible apply optWf_map
    | with_reducible apply wf_getD
    | with_reducible apply outWf_next
    | with_reducible apply wf_beginCut
    | (refine wf_of_pair (by assumption) ?_)
    | (refine wf_of_triple (by assumption) ?_)
    | (refine wf_of_fst (by assumption) ?_)
    | (refine wf_of_opt (by assumption) ?_)
    | intro _
    | split
    | dsimp only

theorem wf_dropSavedRiders {s : State} {task : Task} (hs : Memory.wf s.mem = true) : Memory.wf (dropSavedRiders s task).mem = true := by
  unfold dropSavedRiders
  repeat' first
    | assumption
    | with_reducible apply wf_foldl
    | with_reducible exact optWf_none
    | with_reducible apply optWf_some
    | with_reducible apply optWf_map
    | with_reducible apply wf_getD
    | with_reducible apply outWf_next
    | with_reducible apply wf_dropCardRiders
    | (refine wf_of_pair (by assumption) ?_)
    | (refine wf_of_triple (by assumption) ?_)
    | (refine wf_of_fst (by assumption) ?_)
    | (refine wf_of_opt (by assumption) ?_)
    | intro _
    | split
    | dsimp only

theorem wf_writeSaveArea {s : State} {job : Job} {task : Task} (hs : Memory.wf s.mem = true) : Memory.wf (writeSaveArea s job task).mem = true := by
  unfold writeSaveArea
  extract_lets n base
  refine wf_foldl (fun s x h => ?_) _ hs
  split
  · exact wf_of_pair (by assumption) (wf_resolveFor h)
  · have h := wf_of_pair (by assumption) (wf_resolveFor h)
    extract_lets bytes
    clear_value bytes
    exact wf_memWriteBytes h _ _

theorem wf_saveTask {s : State} {job : Job} {c t : Nat} (hs : Memory.wf s.mem = true) : Memory.wf (saveTask s job c t).2.mem = true := by
  unfold saveTask
  repeat' first
    | assumption
    | with_reducible apply wf_foldl
    | with_reducible exact optWf_none
    | with_reducible apply optWf_some
    | with_reducible apply optWf_map
    | with_reducible apply wf_getD
    | with_reducible apply outWf_next
    | with_reducible apply wf_State_setCore
    | with_reducible apply wf_giveBack
    | with_reducible apply wf_leaveFeed
    | with_reducible apply wf_dropSavedRiders
    | with_reducible apply wf_writeSaveArea
    | (refine wf_of_pair (by assumption) ?_)
    | (refine wf_of_triple (by assumption) ?_)
    | (refine wf_of_fst (by assumption) ?_)
    | (refine wf_of_opt (by assumption) ?_)
    | intro _
    | split
    | dsimp only

theorem wf_cutCompleteMove {j : Nat} {s : State} (hs : Memory.wf s.mem = true) : Memory.wf (cutCompleteMove j s).mem = true := by
  unfold cutCompleteMove
  split
  · exact hs
  · extract_lets ts
    split
    · exact hs
    · rename_i r job2 src _
      have h1 : Memory.wf r.2.mem = true := by
        refine wf_foldl_at (fun a : _ × State => a.2) (fun a x h => ?_) _ hs
        exact wf_saveTask h
      clear_value r
      have h2 : Memory.wf src.mem = true := wf_freeEnded h1
      clear_value src
      refine wf_writeStatus ?_
      exact h2

theorem wf_reboardOne {s : State} {c t : Nat} {x : Nat × Nat × BitVec 512} (hs : Memory.wf s.mem = true) :
    ∀ y, reboardOne s c t x = .ok (some y) → Memory.wf y.mem = true := by
  intro y e
  unfold reboardOne at e
  dsimp only at e
  split at e
  · cases e
  · split at e
    · split at e <;> cases e
    · have h := wf_of_pair (by assumption) (wf_prepareRider hs)
      split at e
      · cases e
        exact wf_enterRider h
      · cases e

theorem wf_reboardAll {s : State} {c t : Nat} {returns : Bool} (hs : Memory.wf s.mem = true) : Memory.wf (reboardAll s c t returns).1.mem = true := by
  unfold reboardAll
  split
  · exact hs
  · extract_lets r
    have h1 : Memory.wf r.1.mem = true := by
      refine wf_foldl_at (fun a : State × List (Nat × Nat × BitVec 512) × List FrecIn => a.1) (fun a x h => ?_) _ hs
      split
      · exact h
      · split
        · exact wf_reboardOne h _ (by assumption)
        · exact h
        · exact h
    clear_value r
    split
    · exact wf_State_setTask h1
    · exact h1

theorem wf_rejoinFeed {s : State} {c t : Nat} (hs : Memory.wf s.mem = true) : Memory.wf (rejoinFeed s c t).1.mem = true := by
  unfold rejoinFeed
  split
  · exact hs
  · split
    · exact hs
    · split
      · split <;> exact hs
      · exact (wf_boardFeed hs _ (by assumption)).get _ rfl
      · exact hs

theorem wf_takeDeferred {s : State} {c t : Nat} (hs : Memory.wf s.mem = true) : Memory.wf (takeDeferred s c t).mem = true := by
  unfold takeDeferred
  repeat' first
    | assumption
    | with_reducible apply wf_foldl
    | with_reducible exact optWf_none
    | with_reducible apply optWf_some
    | with_reducible apply optWf_map
    | with_reducible apply wf_getD
    | with_reducible apply outWf_next
    | with_reducible apply wf_State_setTask
    | with_reducible apply wf_takeFault
    | (refine wf_of_pair (by assumption) ?_)
    | (refine wf_of_triple (by assumption) ?_)
    | (refine wf_of_fst (by assumption) ?_)
    | (refine wf_of_opt (by assumption) ?_)
    | intro _
    | split
    | dsimp only

theorem wf_deferFaults {s : State} {c t : Nat} {fs : List FrecIn} (hs : Memory.wf s.mem = true) : Memory.wf (deferFaults s c t fs).mem = true := by
  unfold deferFaults
  repeat' first
    | assumption
    | with_reducible apply wf_foldl
    | with_reducible exact optWf_none
    | with_reducible apply optWf_some
    | with_reducible apply optWf_map
    | with_reducible apply wf_getD
    | with_reducible apply outWf_next
    | with_reducible apply wf_State_setTask
    | (refine wf_of_pair (by assumption) ?_)
    | (refine wf_of_triple (by assumption) ?_)
    | (refine wf_of_fst (by assumption) ?_)
    | (refine wf_of_opt (by assumption) ?_)
    | intro _
    | split
    | dsimp only

theorem wf_reloadBlock {s : State} {c part addr : Nat} (hs : Memory.wf s.mem = true) : Memory.wf (reloadBlock s c part addr).2.mem = true := by
  unfold reloadBlock
  repeat' first
    | assumption
    | with_reducible apply wf_foldl
    | with_reducible exact optWf_none
    | with_reducible apply optWf_some
    | with_reducible apply optWf_map
    | with_reducible apply wf_getD
    | with_reducible apply outWf_next
    | with_reducible apply wf_loadBlock
    | (refine wf_of_pair (by assumption) ?_)
    | (refine wf_of_triple (by assumption) ?_)
    | (refine wf_of_fst (by assumption) ?_)
    | (refine wf_of_opt (by assumption) ?_)
    | intro _
    | split
    | dsimp only

theorem wf_reloadPhase {s : State} {c part : Nat} {v1 : Option Phase} (hs : Memory.wf s.mem = true) : Memory.wf (reloadPhase s c part v1).2.mem = true := by
  unfold reloadPhase
  repeat' first
    | assumption
    | with_reducible apply wf_foldl
    | with_reducible exact optWf_none
    | with_reducible apply optWf_some
    | with_reducible apply optWf_map
    | with_reducible apply wf_getD
    | with_reducible apply outWf_next
    | with_reducible apply wf_reloadBlock
    | (refine wf_of_pair (by assumption) ?_)
    | (refine wf_of_triple (by assumption) ?_)
    | (refine wf_of_fst (by assumption) ?_)
    | (refine wf_of_opt (by assumption) ?_)
    | intro _
    | split
    | dsimp only

theorem wf_reloadCtxs {s : State} {c part : Nat} {xs : List Ctx} (hs : Memory.wf s.mem = true) : Memory.wf (reloadCtxs s c part xs).2.mem = true := by
  unfold reloadCtxs
  refine wf_foldl_at (fun a : _ × State => a.2) (fun a x h => ?_) _ hs
  exact wf_reloadBlock h

theorem wf_moveBarriers {s : State} {j : Nat} {moves : List (Nat × Nat)} (hs : Memory.wf s.mem = true) : Memory.wf (moveBarriers s j moves).mem = true := by
  unfold moveBarriers
  repeat' first
    | assumption
    | with_reducible apply wf_foldl
    | with_reducible exact optWf_none
    | with_reducible apply optWf_some
    | with_reducible apply optWf_map
    | with_reducible apply wf_getD
    | with_reducible apply outWf_next
    | (refine wf_of_pair (by assumption) ?_)
    | (refine wf_of_triple (by assumption) ?_)
    | (refine wf_of_fst (by assumption) ?_)
    | (refine wf_of_opt (by assumption) ?_)
    | intro _
    | split
    | dsimp only

theorem wf_restoreScratch {s : State} {c : Nat} {task : Task} {im : TaskImage} (hs : Memory.wf s.mem = true) : Memory.wf (restoreScratch s c task im).mem = true := by
  unfold restoreScratch
  dsimp only
  exact wf_foldl_memSet _ _ _ (wf_filter hs _)

theorem wf_orderCards {s : State} {task : Task} (hs : Memory.wf s.mem = true) : Memory.wf (orderCards s task).1.mem = true := by
  unfold orderCards
  repeat' first
    | assumption
    | with_reducible apply wf_foldl
    | with_reducible exact optWf_none
    | with_reducible apply optWf_some
    | with_reducible apply optWf_map
    | with_reducible apply wf_getD
    | with_reducible apply outWf_next
    | (refine wf_of_pair (by assumption) ?_)
    | (refine wf_of_triple (by assumption) ?_)
    | (refine wf_of_fst (by assumption) ?_)
    | (refine wf_of_opt (by assumption) ?_)
    | intro _
    | split
    | dsimp only

theorem wf_takeChans {s : State} {new : Nat} {im : TaskImage} (hs : Memory.wf s.mem = true) : Memory.wf (takeChans s new im).2.mem = true := by
  unfold takeChans
  refine wf_foldl_at (fun a : _ × State => a.2) (fun a x h => ?_) _ hs
  exact wf_State_setCore h

theorem wf_placeChans {s : State} {c t : Nat} {cs : List (Nat × Chan)} (hs : Memory.wf s.mem = true) : Memory.wf (placeChans s c t cs).mem = true := by
  unfold placeChans
  repeat' first
    | assumption
    | with_reducible apply wf_foldl
    | with_reducible exact optWf_none
    | with_reducible apply optWf_some
    | with_reducible apply optWf_map
    | with_reducible apply wf_getD
    | with_reducible apply outWf_next
    | with_reducible apply wf_State_setCore
    | (refine wf_of_pair (by assumption) ?_)
    | (refine wf_of_triple (by assumption) ?_)
    | (refine wf_of_fst (by assumption) ?_)
    | (refine wf_of_opt (by assumption) ?_)
    | intro _
    | split
    | dsimp only

theorem wf_resumeTask {s : State} {c t : Nat} {rows : List Nat} {im : TaskImage} {cs : List (Nat × Chan)} (hs : Memory.wf s.mem = true) : Memory.wf (resumeTask s c t rows im cs).mem = true := by
  unfold resumeTask
  repeat' first
    | assumption
    | with_reducible apply wf_foldl
    | with_reducible exact optWf_none
    | with_reducible apply optWf_some
    | with_reducible apply optWf_map
    | with_reducible apply wf_getD
    | with_reducible apply outWf_next
    | with_reducible apply wf_State_setCore
    | with_reducible apply wf_reloadPhase
    | with_reducible apply wf_reloadCtxs
    | with_reducible apply wf_restoreScratch
    | with_reducible apply wf_orderCards
    | with_reducible apply wf_placeChans
    | (refine wf_of_pair (by assumption) ?_)
    | (refine wf_of_triple (by assumption) ?_)
    | (refine wf_of_fst (by assumption) ?_)
    | (refine wf_of_opt (by assumption) ?_)
    | intro _
    | split
    | dsimp only

theorem wf_settleWaits {s : State} {c t : Nat} (hs : Memory.wf s.mem = true) : Memory.wf (settleWaits s c t).mem = true := by
  unfold settleWaits
  repeat' first
    | assumption
    | with_reducible apply wf_foldl
    | with_reducible exact optWf_none
    | with_reducible apply optWf_some
    | with_reducible apply optWf_map
    | with_reducible apply wf_getD
    | with_reducible apply outWf_next
    | with_reducible apply wf_releaseWaits
    | (refine wf_of_pair (by assumption) ?_)
    | (refine wf_of_triple (by assumption) ?_)
    | (refine wf_of_fst (by assumption) ?_)
    | (refine wf_of_opt (by assumption) ?_)
    | intro _
    | split
    | dsimp only

theorem wf_afterResume {s : State} {c t : Nat} (hs : Memory.wf s.mem = true) : Memory.wf (afterResume s c t).mem = true := by
  unfold afterResume
  extract_lets s1 a b s2 s3
  have h2 : Memory.wf s2.mem = true := wf_deferFaults (wf_rejoinFeed (wf_reboardAll (wf_settleWaits hs)))
  clear_value s2
  refine wf_takeDeferred ?_
  show Memory.wf (match s2.task? c t with
    | some task => if (task.st == TaskSt.idle && (messageChan (s2.core c) t).isSome) = true then s2.setTask c t { task with st := TaskSt.ready, woken := true } else s2
    | none => s2).mem = true
  split
  · split
    · exact wf_State_setTask h2
    · exact h2
  · exact h2

theorem wf_retryBoards {s : State} {c t : Nat} (hs : Memory.wf s.mem = true) : Memory.wf (retryBoards s c t).mem = true := by
  unfold retryBoards
  repeat' first
    | assumption
    | with_reducible apply wf_foldl
    | with_reducible exact optWf_none
    | with_reducible apply optWf_some
    | with_reducible apply optWf_map
    | with_reducible apply wf_getD
    | with_reducible apply outWf_next
    | with_reducible apply wf_reboardAll
    | with_reducible apply wf_rejoinFeed
    | with_reducible apply wf_takeDeferred
    | with_reducible apply wf_deferFaults
    | (refine wf_of_pair (by assumption) ?_)
    | (refine wf_of_triple (by assumption) ?_)
    | (refine wf_of_fst (by assumption) ?_)
    | (refine wf_of_opt (by assumption) ?_)
    | intro _
    | split
    | dsimp only

theorem wf_directPage {s : State} {part : Nat} {nd : Need} {va : Nat} (hs : Memory.wf s.mem = true) : Memory.wf (directPage s part nd va).2.mem = true := by
  unfold directPage
  repeat' first
    | assumption
    | with_reducible apply wf_foldl
    | with_reducible exact optWf_none
    | with_reducible apply optWf_some
    | with_reducible apply optWf_map
    | with_reducible apply wf_getD
    | with_reducible apply outWf_next
    | with_reducible apply wf_resolveFor
    | (refine wf_of_pair (by assumption) ?_)
    | (refine wf_of_triple (by assumption) ?_)
    | (refine wf_of_fst (by assumption) ?_)
    | (refine wf_of_opt (by assumption) ?_)
    | intro _
    | split
    | dsimp only

theorem wf_directRuns {part : Nat} {nd : Need} {v1 : Nat} {v2 : Nat} {v3 : Nat} {v4 : State} (hv4 : Memory.wf v4.mem = true) : Memory.wf (directRuns part nd v1 v2 v3 v4).2.mem = true := by
  induction v1 generalizing part nd v2 v3 v4 with
  | zero =>
    rw [directRuns]
    repeat' first
      | assumption
      | with_reducible apply wf_foldl
      | with_reducible exact optWf_none
      | with_reducible apply optWf_some
      | with_reducible apply optWf_map
      | with_reducible apply wf_getD
      | with_reducible apply outWf_next
      | with_reducible apply wf_directPage
      | (refine wf_of_pair (by assumption) ?_)
      | (refine wf_of_triple (by assumption) ?_)
      | (refine wf_of_fst (by assumption) ?_)
      | (refine wf_of_opt (by assumption) ?_)
      | intro _
      | split
      | dsimp only
  | succ n ih =>
    rw [directRuns]
    repeat' first
      | assumption
      | with_reducible apply wf_foldl
      | with_reducible exact optWf_none
      | with_reducible apply optWf_some
      | with_reducible apply optWf_map
      | with_reducible apply wf_getD
      | with_reducible apply outWf_next
      | with_reducible apply ih
      | with_reducible apply wf_directPage
      | (refine wf_of_pair (by assumption) ?_)
      | (refine wf_of_triple (by assumption) ?_)
      | (refine wf_of_fst (by assumption) ?_)
      | (refine wf_of_opt (by assumption) ?_)
      | intro _
      | split
      | dsimp only


theorem wf_directSpan {s : State} {part : Nat} {nd : Need} {va n : Nat} (hs : Memory.wf s.mem = true) : Memory.wf (directSpan s part nd va n).2.mem = true := by
  unfold directSpan
  repeat' first
    | assumption
    | with_reducible apply wf_foldl
    | with_reducible exact optWf_none
    | with_reducible apply optWf_some
    | with_reducible apply optWf_map
    | with_reducible apply wf_getD
    | with_reducible apply outWf_next
    | with_reducible apply wf_directRuns
    | (refine wf_of_pair (by assumption) ?_)
    | (refine wf_of_triple (by assumption) ?_)
    | (refine wf_of_fst (by assumption) ?_)
    | (refine wf_of_opt (by assumption) ?_)
    | intro _
    | split
    | dsimp only

theorem wf_directRead {s : State} {part : Nat} {nd : Need} {va n : Nat} (hs : Memory.wf s.mem = true) : Memory.wf (directRead s part nd va n).2.mem = true := by
  unfold directRead
  repeat' first
    | assumption
    | with_reducible apply wf_foldl
    | with_reducible exact optWf_none
    | with_reducible apply optWf_some
    | with_reducible apply optWf_map
    | with_reducible apply wf_getD
    | with_reducible apply outWf_next
    | with_reducible apply wf_checkKeys
    | with_reducible apply wf_directSpan
    | (refine wf_of_pair (by assumption) ?_)
    | (refine wf_of_triple (by assumption) ?_)
    | (refine wf_of_fst (by assumption) ?_)
    | (refine wf_of_opt (by assumption) ?_)
    | intro _
    | split
    | dsimp only

theorem wf_readImages {s : State} {job : Job} (hs : Memory.wf s.mem = true) : Memory.wf (readImages s job).2.mem = true := by
  unfold readImages
  repeat' first
    | assumption
    | with_reducible apply wf_foldl
    | with_reducible exact optWf_none
    | with_reducible apply optWf_some
    | with_reducible apply optWf_map
    | with_reducible apply wf_getD
    | with_reducible apply outWf_next
    | with_reducible apply wf_directRead
    | (refine wf_of_pair (by assumption) ?_)
    | (refine wf_of_triple (by assumption) ?_)
    | (refine wf_of_fst (by assumption) ?_)
    | (refine wf_of_opt (by assumption) ?_)
    | intro _
    | split
    | dsimp only

theorem wf_readFootprint {s : State} {job : Job} (hs : Memory.wf s.mem = true) : Memory.wf (readFootprint s job).2.mem = true := by
  unfold readFootprint
  repeat' first
    | assumption
    | with_reducible apply wf_foldl
    | with_reducible exact optWf_none
    | with_reducible apply optWf_some
    | with_reducible apply optWf_map
    | with_reducible apply wf_getD
    | with_reducible apply outWf_next
    | with_reducible apply wf_directRead
    | (refine wf_of_pair (by assumption) ?_)
    | (refine wf_of_triple (by assumption) ?_)
    | (refine wf_of_fst (by assumption) ?_)
    | (refine wf_of_opt (by assumption) ?_)
    | intro _
    | split
    | dsimp only

theorem wf_entryCheck {s : State} {job : Job} (hs : Memory.wf s.mem = true) : Memory.wf (entryCheck s job).2.mem = true := by
  unfold entryCheck
  repeat' first
    | assumption
    | with_reducible apply wf_foldl
    | with_reducible exact optWf_none
    | with_reducible apply optWf_some
    | with_reducible apply optWf_map
    | with_reducible apply wf_getD
    | with_reducible apply outWf_next
    | with_reducible apply wf_directSpan
    | with_reducible apply wf_directRead
    | (refine wf_of_pair (by assumption) ?_)
    | (refine wf_of_triple (by assumption) ?_)
    | (refine wf_of_fst (by assumption) ?_)
    | (refine wf_of_opt (by assumption) ?_)
    | intro _
    | split
    | dsimp only

theorem wf_privateCheck {s : State} {job : Job} (hs : Memory.wf s.mem = true) : Memory.wf (privateCheck s job).2.mem = true := by
  unfold privateCheck
  dsimp only
  refine wf_foldl_at (fun a : _ × State => a.2) (fun a x h => ?_) _ hs
  split
  · exact h
  · exact wf_directPage h

theorem wf_saveCheck {s : State} {job : Job} (hs : Memory.wf s.mem = true) : Memory.wf (saveCheck s job).2.mem = true := by
  unfold saveCheck
  repeat' first
    | assumption
    | with_reducible apply wf_foldl
    | with_reducible exact optWf_none
    | with_reducible apply optWf_some
    | with_reducible apply optWf_map
    | with_reducible apply wf_getD
    | with_reducible apply outWf_next
    | with_reducible apply wf_directSpan
    | (refine wf_of_pair (by assumption) ?_)
    | (refine wf_of_triple (by assumption) ?_)
    | (refine wf_of_fst (by assumption) ?_)
    | (refine wf_of_opt (by assumption) ?_)
    | intro _
    | split
    | dsimp only

theorem wf_recordAreas {s : State} {job : Job} (hs : Memory.wf s.mem = true) : Memory.wf (recordAreas s job).2.mem = true := by
  unfold recordAreas
  repeat' first
    | assumption
    | with_reducible apply wf_foldl
    | with_reducible exact optWf_none
    | with_reducible apply optWf_some
    | with_reducible apply optWf_map
    | with_reducible apply wf_getD
    | with_reducible apply outWf_next
    | with_reducible apply wf_readImages
    | with_reducible apply wf_readFootprint
    | with_reducible apply wf_entryCheck
    | with_reducible apply wf_privateCheck
    | with_reducible apply wf_saveCheck
    | (refine wf_of_pair (by assumption) ?_)
    | (refine wf_of_triple (by assumption) ?_)
    | (refine wf_of_fst (by assumption) ?_)
    | (refine wf_of_opt (by assumption) ?_)
    | intro _
    | split
    | dsimp only

theorem wf_cregPage {part va : Nat} {s : State} (hs : Memory.wf s.mem = true) : Memory.wf (cregPage part va s).2.mem = true := by
  unfold cregPage
  repeat' first
    | assumption
    | with_reducible apply wf_foldl
    | with_reducible exact optWf_none
    | with_reducible apply optWf_some
    | with_reducible apply optWf_map
    | with_reducible apply wf_getD
    | with_reducible apply outWf_next
    | with_reducible apply wf_resolve
    | (refine wf_of_pair (by assumption) ?_)
    | (refine wf_of_triple (by assumption) ?_)
    | (refine wf_of_fst (by assumption) ?_)
    | (refine wf_of_opt (by assumption) ?_)
    | intro _
    | split
    | dsimp only

theorem wf_cregOk {part : Nat} {s : State} {r : BitVec 512} (hs : Memory.wf s.mem = true) : Memory.wf (cregOk part s r).2.mem = true := by
  unfold cregOk
  split
  · exact hs
  · refine wf_foldl_at (fun a : _ × State => a.2) (fun a x h => ?_) _ hs
    split
    · exact wf_cregPage h
    · exact h

theorem wf_cregsOk {part : Nat} {s : State} {rs : List (BitVec 512)} (hs : Memory.wf s.mem = true) : Memory.wf (cregsOk part s rs).2.mem = true := by
  unfold cregsOk
  refine wf_foldl_at (fun a : _ × State => a.2) (fun a x h => ?_) _ hs
  split
  · exact wf_cregOk h
  · exact h

theorem wf_checkRecord {s : State} {job : Job} (hs : Memory.wf s.mem = true) : Memory.wf (checkRecord s job).2.mem = true := by
  unfold checkRecord
  repeat' first
    | assumption
    | with_reducible apply wf_foldl
    | with_reducible exact optWf_none
    | with_reducible apply optWf_some
    | with_reducible apply optWf_map
    | with_reducible apply wf_getD
    | with_reducible apply outWf_next
    | with_reducible apply wf_recordAreas
    | with_reducible apply wf_cregsOk
    | (refine wf_of_pair (by assumption) ?_)
    | (refine wf_of_triple (by assumption) ?_)
    | (refine wf_of_fst (by assumption) ?_)
    | (refine wf_of_opt (by assumption) ?_)
    | intro _
    | split
    | dsimp only

theorem wf_statOk {s : State} {job : Job} (hs : Memory.wf s.mem = true) : Memory.wf (statOk s job).2.mem = true := by
  unfold statOk
  repeat' first
    | assumption
    | with_reducible apply wf_foldl
    | with_reducible exact optWf_none
    | with_reducible apply optWf_some
    | with_reducible apply optWf_map
    | with_reducible apply wf_getD
    | with_reducible apply outWf_next
    | with_reducible apply wf_directPage
    | (refine wf_of_pair (by assumption) ?_)
    | (refine wf_of_triple (by assumption) ?_)
    | (refine wf_of_fst (by assumption) ?_)
    | (refine wf_of_opt (by assumption) ?_)
    | intro _
    | split
    | dsimp only

theorem wf_takeJob {s : State} {fn q : Nat} {r : BitVec 1024} (hs : Memory.wf s.mem = true) : Memory.wf (takeJob s fn q r).mem = true := by
  unfold takeJob
  repeat' first
    | assumption
    | with_reducible apply wf_foldl
    | with_reducible exact optWf_none
    | with_reducible apply optWf_some
    | with_reducible apply optWf_map
    | with_reducible apply wf_getD
    | with_reducible apply outWf_next
    | with_reducible apply wf_State_setJob
    | with_reducible apply wf_writeStatus
    | with_reducible apply wf_setLq
    | with_reducible apply wf_checkRecord
    | with_reducible apply wf_statOk
    | (refine wf_of_pair (by assumption) ?_)
    | (refine wf_of_triple (by assumption) ?_)
    | (refine wf_of_fst (by assumption) ?_)
    | (refine wf_of_opt (by assumption) ?_)
    | intro _
    | split
    | dsimp only

theorem wf_recordTakeMove {fn q : Nat} {s : State} (hs : Memory.wf s.mem = true) : Memory.wf (recordTakeMove fn q s).mem = true := by
  unfold recordTakeMove
  repeat' first
    | assumption
    | with_reducible apply wf_foldl
    | with_reducible exact optWf_none
    | with_reducible apply optWf_some
    | with_reducible apply optWf_map
    | with_reducible apply wf_getD
    | with_reducible apply outWf_next
    | with_reducible apply wf_setLq
    | with_reducible apply wf_directRead
    | with_reducible apply wf_takeJob
    | (refine wf_of_pair (by assumption) ?_)
    | (refine wf_of_triple (by assumption) ?_)
    | (refine wf_of_fst (by assumption) ?_)
    | (refine wf_of_opt (by assumption) ?_)
    | intro _
    | split
    | dsimp only

theorem wf_liftMove {j : Nat} {s : State} (hs : Memory.wf s.mem = true) : Memory.wf (liftMove j s).mem = true := by
  unfold liftMove
  repeat' first
    | assumption
    | with_reducible apply wf_foldl
    | with_reducible exact optWf_none
    | with_reducible apply optWf_some
    | with_reducible apply optWf_map
    | with_reducible apply wf_getD
    | with_reducible apply outWf_next
    | with_reducible apply wf_State_setJob
    | (refine wf_of_pair (by assumption) ?_)
    | (refine wf_of_triple (by assumption) ?_)
    | (refine wf_of_fst (by assumption) ?_)
    | (refine wf_of_opt (by assumption) ?_)
    | intro _
    | split
    | dsimp only

theorem wf_loadEntries {job : Job} {v1 : List Nat} {v2 : State} (hv2 : Memory.wf v2.mem = true) : Memory.wf (loadEntries job v1 v2).2.mem = true := by
  induction v1 generalizing job v2 with
  | nil =>
    rw [loadEntries]
    repeat' first
      | assumption
      | with_reducible apply wf_foldl
      | with_reducible exact optWf_none
      | with_reducible apply optWf_some
      | with_reducible apply optWf_map
      | with_reducible apply wf_getD
      | with_reducible apply outWf_next
      | with_reducible apply wf_loadBlock
      | (refine wf_of_pair (by assumption) ?_)
      | (refine wf_of_triple (by assumption) ?_)
      | (refine wf_of_fst (by assumption) ?_)
      | (refine wf_of_opt (by assumption) ?_)
      | intro _
      | split
      | dsimp only
  | cons x xs ih =>
    rw [loadEntries]
    repeat' first
      | assumption
      | with_reducible apply wf_foldl
      | with_reducible exact optWf_none
      | with_reducible apply optWf_some
      | with_reducible apply optWf_map
      | with_reducible apply wf_getD
      | with_reducible apply outWf_next
      | with_reducible apply ih
      | with_reducible apply wf_loadBlock
      | (refine wf_of_pair (by assumption) ?_)
      | (refine wf_of_triple (by assumption) ?_)
      | (refine wf_of_fst (by assumption) ?_)
      | (refine wf_of_opt (by assumption) ?_)
      | intro _
      | split
      | dsimp only


theorem wf_placeTask {s : State} {j : Nat} {job : Job} {im : List (Nat × BitVec 512) × List (Nat × BitVec 256)} {c rank : Nat} {ctxs : List Ctx} (hs : Memory.wf s.mem = true) : Memory.wf (placeTask s j job im c rank ctxs).mem = true := by
  unfold placeTask
  repeat' first
    | assumption
    | with_reducible apply wf_foldl
    | with_reducible exact optWf_none
    | with_reducible apply optWf_some
    | with_reducible apply optWf_map
    | with_reducible apply wf_getD
    | with_reducible apply outWf_next
    | with_reducible apply wf_State_setCore
    | (refine wf_of_pair (by assumption) ?_)
    | (refine wf_of_triple (by assumption) ?_)
    | (refine wf_of_fst (by assumption) ?_)
    | (refine wf_of_opt (by assumption) ?_)
    | intro _
    | split
    | dsimp only

theorem wf_notePlaced {s : State} {j : Nat} {job : Job} (hs : Memory.wf s.mem = true) : Memory.wf (notePlaced s j job).mem = true := by
  unfold notePlaced
  repeat' first
    | assumption
    | with_reducible apply wf_foldl
    | with_reducible exact optWf_none
    | with_reducible apply optWf_some
    | with_reducible apply optWf_map
    | with_reducible apply wf_getD
    | with_reducible apply outWf_next
    | with_reducible apply wf_State_setJob
    | with_reducible apply wf_writeStatus
    | (refine wf_of_pair (by assumption) ?_)
    | (refine wf_of_triple (by assumption) ?_)
    | (refine wf_of_fst (by assumption) ?_)
    | (refine wf_of_opt (by assumption) ?_)
    | intro _
    | split
    | dsimp only

theorem wf_refuseJob {s : State} {j : Nat} {job : Job} {code fail : Nat} (hs : Memory.wf s.mem = true) : Memory.wf (refuseJob s j job code fail).mem = true := by
  unfold refuseJob
  repeat' first
    | assumption
    | with_reducible apply wf_foldl
    | with_reducible exact optWf_none
    | with_reducible apply optWf_some
    | with_reducible apply optWf_map
    | with_reducible apply wf_getD
    | with_reducible apply outWf_next
    | with_reducible apply wf_writeStatus
    | (refine wf_of_pair (by assumption) ?_)
    | (refine wf_of_triple (by assumption) ?_)
    | (refine wf_of_fst (by assumption) ?_)
    | (refine wf_of_opt (by assumption) ?_)
    | intro _
    | split
    | dsimp only

theorem wf_placeNew {s : State} {j : Nat} {job : Job} {cores : List Nat} (hs : Memory.wf s.mem = true) : Memory.wf (placeNew s j job cores).mem = true := by
  unfold placeNew
  repeat' first
    | assumption
    | with_reducible apply wf_foldl
    | with_reducible exact optWf_none
    | with_reducible apply optWf_some
    | with_reducible apply optWf_map
    | with_reducible apply wf_getD
    | with_reducible apply outWf_next
    | with_reducible apply wf_readImages
    | with_reducible apply wf_loadEntries
    | with_reducible apply wf_placeTask
    | with_reducible apply wf_notePlaced
    | with_reducible apply wf_refuseJob
    | (refine wf_of_pair (by assumption) ?_)
    | (refine wf_of_triple (by assumption) ?_)
    | (refine wf_of_fst (by assumption) ?_)
    | (refine wf_of_opt (by assumption) ?_)
    | intro _
    | split
    | dsimp only

theorem wf_placeSaved {s : State} {j : Nat} {job : Job} {cores : List Nat} (hs : Memory.wf s.mem = true) : Memory.wf (placeSaved s j job cores).mem = true := by
  unfold placeSaved
  extract_lets ims s1 x s2 r
  have h1 : Memory.wf s1.mem = true := wf_moveBarriers hs
  clear_value s1
  have hx : Memory.wf x.2.mem = true := by
    refine wf_foldl_at (fun a : _ × State => a.2) (fun a x h => ?_) _ h1
    exact wf_takeChans h
  clear_value x
  have h2 : Memory.wf s2.mem = true := wf_notePlaced hx
  clear_value s2
  have hr : Memory.wf r.2.mem = true := by
    refine wf_foldl_at (fun a : _ × State => a.2) (fun a x h => ?_) _ h2
    exact wf_resumeTask h
  clear_value r
  exact wf_foldl (fun s x h => wf_afterResume h) _ hr

theorem wf_startEffort {s : State} {j : Nat} {job : Job} (hs : Memory.wf s.mem = true) : Memory.wf (startEffort s j job).mem = true := by
  unfold startEffort
  repeat' first
    | assumption
    | with_reducible apply wf_foldl
    | with_reducible exact optWf_none
    | with_reducible apply optWf_some
    | with_reducible apply optWf_map
    | with_reducible apply wf_getD
    | with_reducible apply outWf_next
    | (refine wf_of_pair (by assumption) ?_)
    | (refine wf_of_triple (by assumption) ?_)
    | (refine wf_of_fst (by assumption) ?_)
    | (refine wf_of_opt (by assumption) ?_)
    | intro _
    | split
    | dsimp only

theorem wf_driveEffort {s : State} (hs : Memory.wf s.mem = true) : Memory.wf (driveEffort s).mem = true := by
  unfold driveEffort
  repeat' first
    | assumption
    | with_reducible apply wf_foldl
    | with_reducible exact optWf_none
    | with_reducible apply optWf_some
    | with_reducible apply optWf_map
    | with_reducible apply wf_getD
    | with_reducible apply outWf_next
    | with_reducible apply wf_requestCut
    | (refine wf_of_pair (by assumption) ?_)
    | (refine wf_of_triple (by assumption) ?_)
    | (refine wf_of_fst (by assumption) ?_)
    | (refine wf_of_opt (by assumption) ?_)
    | intro _
    | split
    | dsimp only

theorem wf_visitJob {acc : List Nat × State} {j : Nat} (h : Memory.wf acc.2.mem = true) : Memory.wf (visitJob acc j).2.mem = true := by
  unfold visitJob
  dsimp only
  split
  · exact h
  · split
    · split
      · exact wf_placeSaved h
      · exact wf_placeNew h
    · exact wf_startEffort h

theorem wf_settleEffort {s : State} (hs : Memory.wf s.mem = true) : Memory.wf (settleEffort s).mem = true := by
  unfold settleEffort
  repeat' first
    | assumption
    | with_reducible apply wf_foldl
    | with_reducible exact optWf_none
    | with_reducible apply optWf_some
    | with_reducible apply optWf_map
    | with_reducible apply wf_getD
    | with_reducible apply outWf_next
    | (refine wf_of_pair (by assumption) ?_)
    | (refine wf_of_triple (by assumption) ?_)
    | (refine wf_of_fst (by assumption) ?_)
    | (refine wf_of_opt (by assumption) ?_)
    | intro _
    | split
    | dsimp only

theorem wf_pickPassMove {s : State} (hs : Memory.wf s.mem = true) : Memory.wf (pickPassMove s).mem = true := by
  unfold pickPassMove
  split
  · exact hs
  · exact wf_driveEffort (wf_foldl_at (fun a : _ × State => a.2) (fun a x h => wf_visitJob h) _ (wf_settleEffort hs))

theorem wf_winFail {s : State} {fn off cls : Nat} (hs : Memory.wf s.mem = true) : Memory.wf (winFail s fn off cls).mem = true := by
  unfold winFail
  repeat' first
    | assumption
    | with_reducible apply wf_foldl
    | with_reducible exact optWf_none
    | with_reducible apply optWf_some
    | with_reducible apply optWf_map
    | with_reducible apply wf_getD
    | with_reducible apply outWf_next
    | with_reducible apply wf_State_setFn
    | (refine wf_of_pair (by assumption) ?_)
    | (refine wf_of_triple (by assumption) ?_)
    | (refine wf_of_fst (by assumption) ?_)
    | (refine wf_of_opt (by assumption) ?_)
    | intro _
    | split
    | dsimp only

theorem wf_winRuns {s : State} {fn off n : Nat} {nd : Need} (hs : Memory.wf s.mem = true) : Memory.wf (winRuns s fn off n nd).2.mem = true := by
  unfold winRuns
  repeat' first
    | assumption
    | with_reducible apply wf_foldl
    | with_reducible exact optWf_none
    | with_reducible apply optWf_some
    | with_reducible apply optWf_map
    | with_reducible apply wf_getD
    | with_reducible apply outWf_next
    | with_reducible apply wf_directSpan
    | (refine wf_of_pair (by assumption) ?_)
    | (refine wf_of_triple (by assumption) ?_)
    | (refine wf_of_fst (by assumption) ?_)
    | (refine wf_of_opt (by assumption) ?_)
    | intro _
    | split
    | dsimp only

theorem wf_countRuns {s : State} {ks : List MemRun} {scope : Nat} (hs : Memory.wf s.mem = true) : Memory.wf (countRuns s ks scope).mem = true := by
  unfold countRuns
  repeat' first
    | assumption
    | with_reducible apply wf_foldl
    | with_reducible exact optWf_none
    | with_reducible apply optWf_some
    | with_reducible apply optWf_map
    | with_reducible apply wf_getD
    | with_reducible apply outWf_next
    | with_reducible apply wf_countDirect
    | (refine wf_of_pair (by assumption) ?_)
    | (refine wf_of_triple (by assumption) ?_)
    | (refine wf_of_fst (by assumption) ?_)
    | (refine wf_of_opt (by assumption) ?_)
    | intro _
    | split
    | dsimp only

theorem wf_windowWrite {fn off : Nat} {bytes : List Byte} {poison : Bool} {s : State} (hs : Memory.wf s.mem = true) : Memory.wf (windowWrite fn off bytes poison s).mem = true := by
  unfold windowWrite
  repeat' first
    | assumption
    | with_reducible apply wf_foldl
    | with_reducible exact optWf_none
    | with_reducible apply optWf_some
    | with_reducible apply optWf_map
    | with_reducible apply wf_getD
    | with_reducible apply outWf_next
    | with_reducible apply wf_writeKeys
    | with_reducible apply wf_winFail
    | with_reducible apply wf_winRuns
    | with_reducible apply wf_countRuns
    | (refine wf_of_pair (by assumption) ?_)
    | (refine wf_of_triple (by assumption) ?_)
    | (refine wf_of_fst (by assumption) ?_)
    | (refine wf_of_opt (by assumption) ?_)
    | intro _
    | split
    | dsimp only

theorem wf_aerError {s : State} {fn bit : Nat} (hs : Memory.wf s.mem = true) : Memory.wf (aerError s fn bit).mem = true := by
  unfold aerError
  repeat' first
    | assumption
    | with_reducible apply wf_foldl
    | with_reducible exact optWf_none
    | with_reducible apply optWf_some
    | with_reducible apply optWf_map
    | with_reducible apply wf_getD
    | with_reducible apply outWf_next
    | with_reducible apply wf_State_setFn
    | (refine wf_of_pair (by assumption) ?_)
    | (refine wf_of_triple (by assumption) ?_)
    | (refine wf_of_fst (by assumption) ?_)
    | (refine wf_of_opt (by assumption) ?_)
    | intro _
    | split
    | dsimp only

theorem wf_unsupported {fn : Nat} {s : State} (hs : Memory.wf s.mem = true) : Memory.wf (unsupported fn s).mem = true := by
  unfold unsupported
  repeat' first
    | assumption
    | with_reducible apply wf_foldl
    | with_reducible exact optWf_none
    | with_reducible apply optWf_some
    | with_reducible apply optWf_map
    | with_reducible apply wf_getD
    | with_reducible apply outWf_next
    | with_reducible apply wf_aerError
    | (refine wf_of_pair (by assumption) ?_)
    | (refine wf_of_triple (by assumption) ?_)
    | (refine wf_of_fst (by assumption) ?_)
    | (refine wf_of_opt (by assumption) ?_)
    | intro _
    | split
    | dsimp only

theorem wf_windowRead {fn off n : Nat} {s : State} (hs : Memory.wf s.mem = true) : Memory.wf (windowRead fn off n s).mem = true := by
  unfold windowRead
  repeat' first
    | assumption
    | with_reducible apply wf_foldl
    | with_reducible exact optWf_none
    | with_reducible apply optWf_some
    | with_reducible apply optWf_map
    | with_reducible apply wf_getD
    | with_reducible apply outWf_next
    | with_reducible apply wf_checkKeys
    | with_reducible apply wf_winFail
    | with_reducible apply wf_winRuns
    | with_reducible apply wf_countRuns
    | with_reducible apply wf_aerError
    | (refine wf_of_pair (by assumption) ?_)
    | (refine wf_of_triple (by assumption) ?_)
    | (refine wf_of_fst (by assumption) ?_)
    | (refine wf_of_opt (by assumption) ?_)
    | intro _
    | split
    | dsimp only

theorem wf_writeWinbase {fn : Nat} {v : Word64} {s : State} (hs : Memory.wf s.mem = true) : Memory.wf (writeWinbase fn v s).mem = true := by
  unfold writeWinbase
  repeat' first
    | assumption
    | with_reducible apply wf_foldl
    | with_reducible exact optWf_none
    | with_reducible apply optWf_some
    | with_reducible apply optWf_map
    | with_reducible apply wf_getD
    | with_reducible apply outWf_next
    | with_reducible apply wf_State_setFn
    | (refine wf_of_pair (by assumption) ?_)
    | (refine wf_of_triple (by assumption) ?_)
    | (refine wf_of_fst (by assumption) ?_)
    | (refine wf_of_opt (by assumption) ?_)
    | intro _
    | split
    | dsimp only

theorem wf_clearWinerr {fn : Nat} {v : Word64} {s : State} (hs : Memory.wf s.mem = true) : Memory.wf (clearWinerr fn v s).mem = true := by
  unfold clearWinerr
  repeat' first
    | assumption
    | with_reducible apply wf_foldl
    | with_reducible exact optWf_none
    | with_reducible apply optWf_some
    | with_reducible apply optWf_map
    | with_reducible apply wf_getD
    | with_reducible apply outWf_next
    | with_reducible apply wf_State_setFn
    | (refine wf_of_pair (by assumption) ?_)
    | (refine wf_of_triple (by assumption) ?_)
    | (refine wf_of_fst (by assumption) ?_)
    | (refine wf_of_opt (by assumption) ?_)
    | intro _
    | split
    | dsimp only

theorem wf_hostAtomic {fn : Nat} {s : State} (hs : Memory.wf s.mem = true) : Memory.wf (hostAtomic fn s).mem = true := by
  unfold hostAtomic
  repeat' first
    | assumption
    | with_reducible apply wf_foldl
    | with_reducible exact optWf_none
    | with_reducible apply optWf_some
    | with_reducible apply optWf_map
    | with_reducible apply wf_getD
    | with_reducible apply outWf_next
    | with_reducible apply wf_unsupported
    | (refine wf_of_pair (by assumption) ?_)
    | (refine wf_of_triple (by assumption) ?_)
    | (refine wf_of_fst (by assumption) ?_)
    | (refine wf_of_opt (by assumption) ?_)
    | intro _
    | split
    | dsimp only

theorem wf_hostTimeout {c t n : Nat} {s : State} (hs : Memory.wf s.mem = true) : Memory.wf (hostTimeout c t n s).mem = true := by
  unfold hostTimeout
  repeat' first
    | assumption
    | with_reducible apply wf_foldl
    | with_reducible exact optWf_none
    | with_reducible apply optWf_some
    | with_reducible apply optWf_map
    | with_reducible apply wf_getD
    | with_reducible apply outWf_next
    | with_reducible apply wf_responseFault
    | with_reducible apply wf_unitTimeout
    | (refine wf_of_pair (by assumption) ?_)
    | (refine wf_of_triple (by assumption) ?_)
    | (refine wf_of_fst (by assumption) ?_)
    | (refine wf_of_opt (by assumption) ?_)
    | intro _
    | split
    | dsimp only

theorem wf_setMask {fn vec : Nat} {masked : Bool} {s : State} (hs : Memory.wf s.mem = true) : Memory.wf (setMask fn vec masked s).mem = true := by
  unfold setMask
  repeat' first
    | assumption
    | with_reducible apply wf_foldl
    | with_reducible exact optWf_none
    | with_reducible apply optWf_some
    | with_reducible apply optWf_map
    | with_reducible apply wf_getD
    | with_reducible apply outWf_next
    | with_reducible apply wf_State_setFn
    | with_reducible apply wf_sendPending
    | (refine wf_of_pair (by assumption) ?_)
    | (refine wf_of_triple (by assumption) ?_)
    | (refine wf_of_fst (by assumption) ?_)
    | (refine wf_of_opt (by assumption) ?_)
    | intro _
    | split
    | dsimp only

theorem wf_unmaskVector {fn vec : Nat} {s : State} (hs : Memory.wf s.mem = true) : Memory.wf (unmaskVector fn vec s).mem = true := by
  unfold unmaskVector
  repeat' first
    | assumption
    | with_reducible apply wf_foldl
    | with_reducible exact optWf_none
    | with_reducible apply optWf_some
    | with_reducible apply optWf_map
    | with_reducible apply wf_getD
    | with_reducible apply outWf_next
    | with_reducible apply wf_setMask
    | (refine wf_of_pair (by assumption) ?_)
    | (refine wf_of_triple (by assumption) ?_)
    | (refine wf_of_fst (by assumption) ?_)
    | (refine wf_of_opt (by assumption) ?_)
    | intro _
    | split
    | dsimp only

theorem wf_dropHostRequests {s : State} {j : Nat} (hs : Memory.wf s.mem = true) : Memory.wf (dropHostRequests s j).mem = true := by
  unfold dropHostRequests
  repeat' first
    | assumption
    | with_reducible apply wf_foldl
    | with_reducible exact optWf_none
    | with_reducible apply optWf_some
    | with_reducible apply optWf_map
    | with_reducible apply wf_getD
    | with_reducible apply outWf_next
    | (refine wf_of_pair (by assumption) ?_)
    | (refine wf_of_triple (by assumption) ?_)
    | (refine wf_of_fst (by assumption) ?_)
    | (refine wf_of_opt (by assumption) ?_)
    | intro _
    | split
    | dsimp only

theorem wf_resetFn {s : State} {fn : Nat} (hs : Memory.wf s.mem = true) : Memory.wf (resetFn s fn).mem = true := by
  unfold resetFn
  repeat' first
    | assumption
    | with_reducible apply wf_foldl
    | with_reducible exact optWf_none
    | with_reducible apply optWf_some
    | with_reducible apply optWf_map
    | with_reducible apply wf_getD
    | with_reducible apply outWf_next
    | with_reducible apply wf_State_setFn
    | with_reducible apply wf_dropGang
    | with_reducible apply wf_dropHostRequests
    | (refine wf_of_pair (by assumption) ?_)
    | (refine wf_of_triple (by assumption) ?_)
    | (refine wf_of_fst (by assumption) ?_)
    | (refine wf_of_opt (by assumption) ?_)
    | intro _
    | split
    | dsimp only

theorem wf_clearVfs {s : State} (hs : Memory.wf s.mem = true) : Memory.wf (clearVfs s).mem = true := by
  unfold clearVfs
  repeat' first
    | assumption
    | with_reducible apply wf_foldl
    | with_reducible exact optWf_none
    | with_reducible apply optWf_some
    | with_reducible apply optWf_map
    | with_reducible apply wf_getD
    | with_reducible apply outWf_next
    | with_reducible apply wf_resetFn
    | (refine wf_of_pair (by assumption) ?_)
    | (refine wf_of_triple (by assumption) ?_)
    | (refine wf_of_fst (by assumption) ?_)
    | (refine wf_of_opt (by assumption) ?_)
    | intro _
    | split
    | dsimp only

theorem wf_functionReset {fn : Nat} {s : State} (hs : Memory.wf s.mem = true) : Memory.wf (functionReset fn s).mem = true := by
  unfold functionReset
  repeat' first
    | assumption
    | with_reducible apply wf_foldl
    | with_reducible exact optWf_none
    | with_reducible apply optWf_some
    | with_reducible apply optWf_map
    | with_reducible apply wf_getD
    | with_reducible apply outWf_next
    | with_reducible apply wf_resetFn
    | with_reducible apply wf_clearVfs
    | (refine wf_of_pair (by assumption) ?_)
    | (refine wf_of_triple (by assumption) ?_)
    | (refine wf_of_fst (by assumption) ?_)
    | (refine wf_of_opt (by assumption) ?_)
    | intro _
    | split
    | dsimp only

theorem wf_remoteDeposit {s : State} {part pkg va : Nat} {bytes : List Byte} (hs : Memory.wf s.mem = true) : Memory.wf (remoteDeposit s part pkg va bytes).2.mem = true := by
  unfold remoteDeposit
  repeat' first
    | assumption
    | with_reducible apply wf_foldl
    | with_reducible exact optWf_none
    | with_reducible apply optWf_some
    | with_reducible apply optWf_map
    | with_reducible apply wf_getD
    | with_reducible apply outWf_next
    | with_reducible apply wf_writeKeys
    | with_reducible apply wf_boardDeposit
    | with_reducible apply wf_directSpan
    | (refine wf_of_pair (by assumption) ?_)
    | (refine wf_of_triple (by assumption) ?_)
    | (refine wf_of_fst (by assumption) ?_)
    | (refine wf_of_opt (by assumption) ?_)
    | intro _
    | split
    | dsimp only

/-- The state that the answer to a request from another package holds keeps memory in canonical form. -/
structure roWf (o : RemoteOut) : Prop where
  later : ∀ y, o = .later y → Memory.wf y.mem = true
  answers : ∀ r y, o = .answers r y → Memory.wf y.mem = true
theorem roWf_waits : roWf .waits := ⟨fun _ e => (by cases e), fun _ _ e => (by cases e)⟩
theorem roWf_later {s : State} (h : Memory.wf s.mem = true) : roWf (.later s) := ⟨fun _ e => (by cases e; exact h), fun _ _ e => (by cases e)⟩
theorem roWf_answers {r : Reply} {s : State} (h : Memory.wf s.mem = true) : roWf (.answers r s) := ⟨fun _ e => (by cases e), fun _ _ e => (by cases e; exact h)⟩
theorem roWf_remoteWord {s : State} {part va n : Nat} {nd : Need} {g : MemRun → Nat → State → RemoteOut}
    (hg : ∀ k old u, Memory.wf u.mem = true → roWf (g k old u)) (hs : Memory.wf s.mem = true) : roWf (remoteWord s part va n nd g) := by
  unfold remoteWord
  split
  · have h := wf_of_pair (by assumption) (wf_directSpan hs)
    split
    · exact roWf_waits
    · extract_lets u
      have hu : Memory.wf u.mem = true := wf_readCheck (wf_countDirect h)
      clear_value u
      split
      · exact roWf_answers hu
      · exact hg _ _ _ hu
  · exact roWf_answers (wf_of_pair (by assumption) (wf_directSpan hs))

theorem roWf_remoteAtomic {s : State} {part pkg va op ty operand expected : Nat} (hs : Memory.wf s.mem = true) :
    roWf (remoteAtomic s part pkg va op ty operand expected) := by
  unfold remoteAtomic
  extract_lets n
  refine roWf_remoteWord (fun k old u h => ?_) hs
  split
  · exact roWf_answers h
  · exact roWf_later h

theorem wf_homeWriteMove {n : Nat} {s : State} (hs : Memory.wf s.mem = true) : Memory.wf (homeWriteMove n s).mem = true := by
  unfold homeWriteMove
  repeat' first
    | assumption
    | with_reducible apply wf_foldl
    | with_reducible exact optWf_none
    | with_reducible apply optWf_some
    | with_reducible apply optWf_map
    | with_reducible apply wf_getD
    | with_reducible apply outWf_next
    | with_reducible apply wf_writeView
    | with_reducible apply wf_wakeWaits
    | (refine wf_of_pair (by assumption) ?_)
    | (refine wf_of_triple (by assumption) ?_)
    | (refine wf_of_fst (by assumption) ?_)
    | (refine wf_of_opt (by assumption) ?_)
    | intro _
    | split
    | dsimp only

theorem roWf_remoteAwait {s : State} {part pkg va ty threshold : Nat} (hs : Memory.wf s.mem = true) : roWf (remoteAwait s part pkg va ty threshold) := by
  unfold remoteAwait
  extract_lets n
  refine roWf_remoteWord (fun k old u h => ?_) hs
  split
  · exact roWf_answers h
  · exact roWf_later h

theorem wf_remoteSeq {α : Type} {s : State} {part va : Nat} {g : Nat → KvRec → Nat → KvM α} (hg : ∀ c k d, kvOk (g c k d)) (hs : Memory.wf s.mem = true) :
    Memory.wf (remoteSeq s part va g).2.mem = true :=
  (kvOk_bind kvOk_kvKey fun k => kvOk_bind kvOk_kvRead fun d => hg _ k d).run s hs
theorem wf_remoteAccept {s : State} {part va e0 n pppl nlayl : Nat} (hs : Memory.wf s.mem = true) : Memory.wf (remoteAccept s part va e0 n pppl nlayl).2.mem = true := by
  unfold remoteAccept
  split
  · exact wf_of_pair (by assumption) (wf_remoteSeq (fun c k d => kvOk_acceptPages) hs)
  · exact wf_of_pair (by assumption) (wf_remoteSeq (fun c k d => kvOk_acceptPages) hs)

theorem roWf_remoteLayer {s : State} {part pkg va : Nat} (hs : Memory.wf s.mem = true) : roWf (remoteLayer s part pkg va) := by
  unfold remoteLayer
  split
  · exact roWf_waits
  · split
    · exact roWf_answers (wf_of_pair (by assumption) (wf_remoteSeq (fun c k d => ⟨fun _ h => h⟩) hs))
    · have h := wf_of_pair (by assumption) (wf_remoteSeq (fun c k d => ⟨fun _ h => h⟩) hs)
      split
      · exact roWf_answers h
      · split
        · exact roWf_waits
        · rename_i e
          have h2 := (wf_cwMove h).1 _ _ e
          exact roWf_later h2
        · exact roWf_answers ((wf_cwMove h).2 _ (by assumption))

theorem roWf_remoteRuns {s : State} {part va n : Nat} {nd : Need} {g : List MemRun → State → Reply × State}
    (hg : ∀ ks u, Memory.wf u.mem = true → Memory.wf (g ks u).2.mem = true) (hs : Memory.wf s.mem = true) : roWf (remoteRuns s part va n nd g) := by
  unfold remoteRuns
  split
  · exact roWf_answers (wf_of_pair (by assumption) (wf_directSpan hs))
  · have h := wf_of_pair (by assumption) (wf_directSpan hs)
    split
    · exact roWf_answers (hg _ _ h)
    · exact roWf_waits

theorem wf_remoteWritten {s : State} {pkg podPart rank key : Nat} (hs : Memory.wf s.mem = true) : Memory.wf (remoteWritten s pkg podPart rank key).mem = true := by
  unfold remoteWritten
  repeat' first
    | assumption
    | with_reducible apply wf_foldl
    | with_reducible exact optWf_none
    | with_reducible apply optWf_some
    | with_reducible apply optWf_map
    | with_reducible apply wf_getD
    | with_reducible apply outWf_next
    | (refine wf_of_pair (by assumption) ?_)
    | (refine wf_of_triple (by assumption) ?_)
    | (refine wf_of_fst (by assumption) ?_)
    | (refine wf_of_opt (by assumption) ?_)
    | intro _
    | split
    | dsimp only

theorem roWf_remoteDo {s : State} {part : Nat} {r : RemoteReq} (hs : Memory.wf s.mem = true) : roWf (remoteDo s part r) := by
  unfold remoteDo
  split
  · exact roWf_remoteRuns (fun ks u h => wf_checkKeys h) hs
  · exact roWf_remoteRuns (fun ks u h => wf_writeKeys h) hs
  · exact roWf_remoteAtomic hs
  · exact roWf_remoteAwait hs
  · split
    · exact roWf_answers hs
    · split
      · exact roWf_answers ((wf_queueMessage hs).get _ (by assumption))
      · exact roWf_waits
  · exact roWf_answers (wf_arriveAt hs)
  · exact roWf_answers (wf_remoteDeposit hs)
  · exact roWf_answers (wf_remoteAccept hs)
  · exact roWf_remoteLayer hs
  · exact roWf_answers hs
  · exact roWf_answers (wf_remoteWritten hs)

theorem wf_remoteRequestMove {r : RemoteReq} {s : State} (hs : Memory.wf s.mem = true) : Memory.wf (remoteRequestMove r s).mem = true := by
  unfold remoteRequestMove
  split
  · exact hs
  · split
    · exact hs
    · split
      · exact hs
      · exact (roWf_remoteDo hs).later _ (by assumption)
      · rename_i e
        have h := (roWf_remoteDo hs).answers _ _ e
        exact h

theorem wf_outside {s : State} (hs : Memory.wf s.mem = true) : Memory.wf (outside s).mem = true := wf_filter hs _

theorem wf_runImage {img : Image} {s : State} (hs : Memory.wf s.mem = true) : Memory.wf (runImage img s).mem = true := by
  unfold runImage
  repeat' first
    | assumption
    | with_reducible apply wf_foldl
    | with_reducible exact optWf_none
    | with_reducible apply optWf_some
    | with_reducible apply optWf_map
    | with_reducible apply wf_getD
    | with_reducible apply outWf_next
    | (refine wf_of_pair (by assumption) ?_)
    | (refine wf_of_triple (by assumption) ?_)
    | (refine wf_of_fst (by assumption) ?_)
    | (refine wf_of_opt (by assumption) ?_)
    | intro _
    | split
    | dsimp only

theorem wf_resetMove {img : Image} {s : State} (hs : Memory.wf s.mem = true) : Memory.wf (resetMove img s).mem = true := by
  unfold resetMove
  repeat' first
    | assumption
    | with_reducible apply wf_foldl
    | with_reducible exact optWf_none
    | with_reducible apply optWf_some
    | with_reducible apply optWf_map
    | with_reducible apply wf_getD
    | with_reducible apply outWf_next
    | with_reducible apply wf_outside
    | with_reducible apply wf_runImage
    | (refine wf_of_pair (by assumption) ?_)
    | (refine wf_of_triple (by assumption) ?_)
    | (refine wf_of_fst (by assumption) ?_)
    | (refine wf_of_opt (by assumption) ?_)
    | intro _
    | split
    | dsimp only

theorem wf_bootImage {img : Image} {s : State} (hs : Memory.wf s.mem = true) : Memory.wf (bootImage img s).mem = true := by
  unfold bootImage
  repeat' first
    | assumption
    | with_reducible apply wf_foldl
    | with_reducible exact optWf_none
    | with_reducible apply optWf_some
    | with_reducible apply optWf_map
    | with_reducible apply wf_getD
    | with_reducible apply outWf_next
    | with_reducible apply wf_runImage
    | (refine wf_of_pair (by assumption) ?_)
    | (refine wf_of_triple (by assumption) ?_)
    | (refine wf_of_fst (by assumption) ?_)
    | (refine wf_of_opt (by assumption) ?_)
    | intro _
    | split
    | dsimp only

theorem wf_unlessBusy {g : State → State} {s : State} (hg : ∀ u, Memory.wf u.mem = true → Memory.wf (g u).mem = true) (hs : Memory.wf s.mem = true) :
    Memory.wf (unlessBusy g s).mem = true := wf_ite hs (hg s hs)

theorem wf_applyBlock {b : ConfigBlock} {s : State} (hs : Memory.wf s.mem = true) : Memory.wf (applyBlock b s).mem = true := by
  unfold applyBlock
  extract_lets s1 s2 s3 s4 s5
  have h1 : Memory.wf s1.mem = true := wf_foldl (fun s x h => wf_State_setPart h) _ hs
  clear_value s1
  have h2 : Memory.wf s2.mem = true := wf_foldl (fun s x h => wf_foldl (fun s x h => wf_State_setFn h) _ h) _ h1
  clear_value s2
  have h3 : Memory.wf s3.mem = true := wf_foldl (fun s x h => wf_State_setChan h) _ h2
  clear_value s3
  have h4 : Memory.wf s4.mem = true := wf_foldl (fun s x h => wf_State_setStk h) _ h3
  clear_value s4
  exact wf_foldl (fun s x h => wf_State_setDie h) _ h4

theorem wf_bootConfig {b : ConfigBlock} {s : State} (hs : Memory.wf s.mem = true) : Memory.wf (bootConfig b s).mem = true := by
  unfold bootConfig
  split
  · exact hs
  · split
    · exact hs
    · exact wf_applyBlock hs

theorem wf_spdmAnswer {code : Nat} {ok : Bool} {m : SpdmMsg} {s : State} (hs : Memory.wf s.mem = true) : Memory.wf (spdmAnswer code ok m s).mem = true := by
  unfold spdmAnswer
  repeat' first
    | assumption
    | with_reducible apply wf_foldl
    | with_reducible exact optWf_none
    | with_reducible apply optWf_some
    | with_reducible apply optWf_map
    | with_reducible apply wf_getD
    | with_reducible apply outWf_next
    | (refine wf_of_pair (by assumption) ?_)
    | (refine wf_of_triple (by assumption) ?_)
    | (refine wf_of_fst (by assumption) ?_)
    | (refine wf_of_opt (by assumption) ?_)
    | intro _
    | split
    | dsimp only

theorem wf_spdmVersionMove {m : SpdmMsg} {s : State} (hs : Memory.wf s.mem = true) : Memory.wf (spdmVersionMove m s).mem = true := by
  unfold spdmVersionMove
  repeat' first
    | assumption
    | with_reducible apply wf_foldl
    | with_reducible exact optWf_none
    | with_reducible apply optWf_some
    | with_reducible apply optWf_map
    | with_reducible apply wf_getD
    | with_reducible apply outWf_next
    | with_reducible apply wf_spdmAnswer
    | (refine wf_of_pair (by assumption) ?_)
    | (refine wf_of_triple (by assumption) ?_)
    | (refine wf_of_fst (by assumption) ?_)
    | (refine wf_of_opt (by assumption) ?_)
    | intro _
    | split
    | dsimp only

theorem wf_spdmCapabilities {m : SpdmMsg} {s : State} (hs : Memory.wf s.mem = true) : Memory.wf (spdmCapabilities m s).mem = true := by
  unfold spdmCapabilities
  repeat' first
    | assumption
    | with_reducible apply wf_foldl
    | with_reducible exact optWf_none
    | with_reducible apply optWf_some
    | with_reducible apply optWf_map
    | with_reducible apply wf_getD
    | with_reducible apply outWf_next
    | with_reducible apply wf_spdmAnswer
    | (refine wf_of_pair (by assumption) ?_)
    | (refine wf_of_triple (by assumption) ?_)
    | (refine wf_of_fst (by assumption) ?_)
    | (refine wf_of_opt (by assumption) ?_)
    | intro _
    | split
    | dsimp only

theorem wf_spdmAlgorithms {m : SpdmMsg} {s : State} (hs : Memory.wf s.mem = true) : Memory.wf (spdmAlgorithms m s).mem = true := by
  unfold spdmAlgorithms
  repeat' first
    | assumption
    | with_reducible apply wf_foldl
    | with_reducible exact optWf_none
    | with_reducible apply optWf_some
    | with_reducible apply optWf_map
    | with_reducible apply wf_getD
    | with_reducible apply outWf_next
    | with_reducible apply wf_spdmAnswer
    | (refine wf_of_pair (by assumption) ?_)
    | (refine wf_of_triple (by assumption) ?_)
    | (refine wf_of_fst (by assumption) ?_)
    | (refine wf_of_opt (by assumption) ?_)
    | intro _
    | split
    | dsimp only

theorem wf_spdmRequest {code : Nat} {m : SpdmMsg} {s : State} (hs : Memory.wf s.mem = true) : Memory.wf (spdmRequest code m s).mem = true := by
  unfold spdmRequest
  repeat' first
    | assumption
    | with_reducible apply wf_foldl
    | with_reducible exact optWf_none
    | with_reducible apply optWf_some
    | with_reducible apply optWf_map
    | with_reducible apply wf_getD
    | with_reducible apply outWf_next
    | with_reducible apply wf_spdmAnswer
    | (refine wf_of_pair (by assumption) ?_)
    | (refine wf_of_triple (by assumption) ?_)
    | (refine wf_of_fst (by assumption) ?_)
    | (refine wf_of_opt (by assumption) ?_)
    | intro _
    | split
    | dsimp only

theorem wf_spdmCertificate {m : SpdmMsg} {s : State} (hs : Memory.wf s.mem = true) : Memory.wf (spdmCertificate m s).mem = true := by
  unfold spdmCertificate
  repeat' first
    | assumption
    | with_reducible apply wf_foldl
    | with_reducible exact optWf_none
    | with_reducible apply optWf_some
    | with_reducible apply optWf_map
    | with_reducible apply wf_getD
    | with_reducible apply outWf_next
    | with_reducible apply wf_spdmAnswer
    | (refine wf_of_pair (by assumption) ?_)
    | (refine wf_of_triple (by assumption) ?_)
    | (refine wf_of_fst (by assumption) ?_)
    | (refine wf_of_opt (by assumption) ?_)
    | intro _
    | split
    | dsimp only

theorem wf_letHeld {s : State} (hs : Memory.wf s.mem = true) : Memory.wf (letHeld s).mem = true := by
  unfold letHeld
  repeat' first
    | assumption
    | with_reducible apply wf_foldl
    | with_reducible exact optWf_none
    | with_reducible apply optWf_some
    | with_reducible apply optWf_map
    | with_reducible apply wf_getD
    | with_reducible apply outWf_next
    | (refine wf_of_pair (by assumption) ?_)
    | (refine wf_of_triple (by assumption) ?_)
    | (refine wf_of_fst (by assumption) ?_)
    | (refine wf_of_opt (by assumption) ?_)
    | intro _
    | split
    | dsimp only

theorem wf_assertFreeze {s : State} (hs : Memory.wf s.mem = true) : Memory.wf (assertFreeze s).mem = true := by
  unfold assertFreeze
  repeat' first
    | assumption
    | with_reducible apply wf_foldl
    | with_reducible exact optWf_none
    | with_reducible apply optWf_some
    | with_reducible apply optWf_map
    | with_reducible apply wf_getD
    | with_reducible apply outWf_next
    | with_reducible apply wf_freezeBy
    | (refine wf_of_pair (by assumption) ?_)
    | (refine wf_of_triple (by assumption) ?_)
    | (refine wf_of_fst (by assumption) ?_)
    | (refine wf_of_opt (by assumption) ?_)
    | intro _
    | split
    | dsimp only

theorem wf_writeFreeze {v : Word32} {s : State} (hs : Memory.wf s.mem = true) : Memory.wf (writeFreeze v s).mem = true := by
  unfold writeFreeze
  repeat' first
    | assumption
    | with_reducible apply wf_foldl
    | with_reducible exact optWf_none
    | with_reducible apply optWf_some
    | with_reducible apply optWf_map
    | with_reducible apply wf_getD
    | with_reducible apply outWf_next
    | with_reducible apply wf_freezeBy
    | (refine wf_of_pair (by assumption) ?_)
    | (refine wf_of_triple (by assumption) ?_)
    | (refine wf_of_fst (by assumption) ?_)
    | (refine wf_of_opt (by assumption) ?_)
    | intro _
    | split
    | dsimp only

theorem wf_releaseFreeze {s : State} (hs : Memory.wf s.mem = true) : Memory.wf (releaseFreeze s).mem = true := by
  unfold releaseFreeze
  repeat' first
    | assumption
    | with_reducible apply wf_foldl
    | with_reducible exact optWf_none
    | with_reducible apply optWf_some
    | with_reducible apply optWf_map
    | with_reducible apply wf_getD
    | with_reducible apply outWf_next
    | with_reducible apply wf_letHeld
    | (refine wf_of_pair (by assumption) ?_)
    | (refine wf_of_triple (by assumption) ?_)
    | (refine wf_of_fst (by assumption) ?_)
    | (refine wf_of_opt (by assumption) ?_)
    | intro _
    | split
    | dsimp only

theorem wf_resumeClocks {s : State} (hs : Memory.wf s.mem = true) : Memory.wf (resumeClocks s).mem = true := by
  unfold resumeClocks
  repeat' first
    | assumption
    | with_reducible apply wf_foldl
    | with_reducible exact optWf_none
    | with_reducible apply optWf_some
    | with_reducible apply optWf_map
    | with_reducible apply wf_getD
    | with_reducible apply outWf_next
    | with_reducible apply wf_letHeld
    | (refine wf_of_pair (by assumption) ?_)
    | (refine wf_of_triple (by assumption) ?_)
    | (refine wf_of_fst (by assumption) ?_)
    | (refine wf_of_opt (by assumption) ?_)
    | intro _
    | split
    | dsimp only

theorem wf_oppointDone {s : State} (hs : Memory.wf s.mem = true) : Memory.wf (oppointDone s).mem = true := by
  unfold oppointDone
  repeat' first
    | assumption
    | with_reducible apply wf_foldl
    | with_reducible exact optWf_none
    | with_reducible apply optWf_some
    | with_reducible apply optWf_map
    | with_reducible apply wf_getD
    | with_reducible apply outWf_next
    | (refine wf_of_pair (by assumption) ?_)
    | (refine wf_of_triple (by assumption) ?_)
    | (refine wf_of_fst (by assumption) ?_)
    | (refine wf_of_opt (by assumption) ?_)
    | intro _
    | split
    | dsimp only

theorem wf_sysregMove {by_ : RegBy} {n : Nat} {v : BitVec 512} {s : State} (hs : Memory.wf s.mem = true) : Memory.wf (sysregMove by_ n v s).mem = true := by
  unfold sysregMove
  repeat' first
    | assumption
    | with_reducible apply wf_foldl
    | with_reducible exact optWf_none
    | with_reducible apply optWf_some
    | with_reducible apply optWf_map
    | with_reducible apply wf_getD
    | with_reducible apply outWf_next
    | with_reducible apply wf_regWrite
    | (refine wf_of_pair (by assumption) ?_)
    | (refine wf_of_triple (by assumption) ?_)
    | (refine wf_of_fst (by assumption) ?_)
    | (refine wf_of_opt (by assumption) ?_)
    | intro _
    | split
    | dsimp only

theorem wf_queueWrite {g : State → State} {s : State} (hg : ∀ u, Memory.wf u.mem = true → Memory.wf (g u).mem = true) (hs : Memory.wf s.mem = true) :
    Memory.wf (queueWrite g s).mem = true := by
  unfold queueWrite
  split
  · exact hg s hs
  · exact hs

theorem wf_takeCardFault {s : State} {c t : Nat} (hs : Memory.wf s.mem = true) : Memory.wf (takeCardFault s c t).mem = true := by
  unfold takeCardFault
  repeat' first
    | assumption
    | with_reducible apply wf_foldl
    | with_reducible exact optWf_none
    | with_reducible apply optWf_some
    | with_reducible apply optWf_map
    | with_reducible apply wf_getD
    | with_reducible apply outWf_next
    | with_reducible apply wf_cardFaultMove
    | (refine wf_of_pair (by assumption) ?_)
    | (refine wf_of_triple (by assumption) ?_)
    | (refine wf_of_fst (by assumption) ?_)
    | (refine wf_of_opt (by assumption) ?_)
    | intro _
    | split
    | dsimp only

theorem wf_eretEnd {s : State} {c t : Nat} {restart : Bool} (hs : Memory.wf s.mem = true) : Memory.wf (eretEnd s c t restart).mem = true := by
  unfold eretEnd
  extract_lets s1 s2 a b
  have h1 : Memory.wf s1.mem = true := by
    refine wf_returnFrom ?_
    split
    · exact wf_leaveFeed hs
    · exact hs
  clear_value s1
  have h2 : Memory.wf s2.mem = true := by
    show Memory.wf (match s1.task? c t with | some task => s1.setTask c t (restartCards task) | none => s1).mem = true
    split
    · exact wf_State_setTask h1
    · exact h1
  clear_value s2
  exact wf_takeCardFault (wf_takeDeferred (wf_deferFaults (wf_rejoinFeed (wf_reboardAll h2))))

theorem wf_phaseEndMove {c : Nat} {s : State} (hs : Memory.wf s.mem = true) : Memory.wf (phaseEndMove c s).mem = true := by
  unfold phaseEndMove
  extract_lets core
  split
  · exact hs
  · split
    · exact hs
    · split
      · exact hs
      · split
        · exact hs
        · extract_lets core2 s1 s2
          have h1 : Memory.wf s1.mem = true := hs
          have h2 : Memory.wf s2.mem = true := by
            dsimp only [s2]
            split
            · exact wf_eretEnd h1
            · exact h1
          clear_value s2
          exact wf_ite (wf_beginCut h2) (wf_takeCardFault h2)

theorem wf_dropStanding {s : State} {task : Task} (hs : Memory.wf s.mem = true) : Memory.wf (dropStanding s task).mem = true := by
  unfold dropStanding
  repeat' first
    | assumption
    | with_reducible apply wf_foldl
    | with_reducible exact optWf_none
    | with_reducible apply optWf_some
    | with_reducible apply optWf_map
    | with_reducible apply wf_getD
    | with_reducible apply outWf_next
    | with_reducible apply wf_endStanding
    | with_reducible apply wf_cancelRider
    | (refine wf_of_pair (by assumption) ?_)
    | (refine wf_of_triple (by assumption) ?_)
    | (refine wf_of_fst (by assumption) ?_)
    | (refine wf_of_opt (by assumption) ?_)
    | intro _
    | split
    | dsimp only

theorem wf_retireGang {s : State} {j : Nat} (hs : Memory.wf s.mem = true) : Memory.wf (retireGang s j).mem = true := by
  unfold retireGang
  repeat' first
    | assumption
    | with_reducible apply wf_foldl
    | with_reducible exact optWf_none
    | with_reducible apply optWf_some
    | with_reducible apply optWf_map
    | with_reducible apply wf_getD
    | with_reducible apply outWf_next
    | with_reducible apply wf_writeStatus
    | with_reducible apply wf_freeEnded
    | with_reducible apply wf_recheckBarriers
    | (refine wf_of_pair (by assumption) ?_)
    | (refine wf_of_triple (by assumption) ?_)
    | (refine wf_of_fst (by assumption) ?_)
    | (refine wf_of_opt (by assumption) ?_)
    | intro _
    | split
    | dsimp only

theorem wf_keepEnded {s : State} {c : Nat} {task : Task} (hs : Memory.wf s.mem = true) : Memory.wf (keepEnded s c task).mem = true := by
  unfold keepEnded
  repeat' first
    | assumption
    | with_reducible apply wf_foldl
    | with_reducible exact optWf_none
    | with_reducible apply optWf_some
    | with_reducible apply optWf_map
    | with_reducible apply wf_getD
    | with_reducible apply outWf_next
    | with_reducible apply wf_State_setJob
    | with_reducible apply wf_withdraw
    | (refine wf_of_pair (by assumption) ?_)
    | (refine wf_of_triple (by assumption) ?_)
    | (refine wf_of_fst (by assumption) ?_)
    | (refine wf_of_opt (by assumption) ?_)
    | intro _
    | split
    | dsimp only

theorem wf_taskRetireMove {c t : Nat} {s : State} (hs : Memory.wf s.mem = true) : Memory.wf (taskRetireMove c t s).mem = true := by
  unfold taskRetireMove
  repeat' first
    | assumption
    | with_reducible apply wf_foldl
    | with_reducible exact optWf_none
    | with_reducible apply optWf_some
    | with_reducible apply optWf_map
    | with_reducible apply wf_getD
    | with_reducible apply outWf_next
    | with_reducible apply wf_State_setCore
    | with_reducible apply wf_giveBack
    | with_reducible apply wf_leaveFeed
    | with_reducible apply wf_dropStanding
    | with_reducible apply wf_retireGang
    | with_reducible apply wf_keepEnded
    | (refine wf_of_pair (by assumption) ?_)
    | (refine wf_of_triple (by assumption) ?_)
    | (refine wf_of_fst (by assumption) ?_)
    | (refine wf_of_opt (by assumption) ?_)
    | intro _
    | split
    | dsimp only

theorem wf_waitOrphanMove {c : Nat} {s : State} (hs : Memory.wf s.mem = true) : Memory.wf (waitOrphanMove c s).mem = true := by
  unfold waitOrphanMove
  repeat' first
    | assumption
    | with_reducible apply wf_foldl
    | with_reducible exact optWf_none
    | with_reducible apply optWf_some
    | with_reducible apply optWf_map
    | with_reducible apply wf_getD
    | with_reducible apply outWf_next
    | with_reducible apply wf_takeFault
    | (refine wf_of_pair (by assumption) ?_)
    | (refine wf_of_triple (by assumption) ?_)
    | (refine wf_of_fst (by assumption) ?_)
    | (refine wf_of_opt (by assumption) ?_)
    | intro _
    | split
    | dsimp only

theorem wf_tileTakeMove {q : Nat} {s : State} (hs : Memory.wf s.mem = true) : Memory.wf (tileTakeMove q s).mem = true := by
  unfold tileTakeMove
  repeat' first
    | assumption
    | with_reducible apply wf_foldl
    | with_reducible exact optWf_none
    | with_reducible apply optWf_some
    | with_reducible apply optWf_map
    | with_reducible apply wf_getD
    | with_reducible apply outWf_next
    | with_reducible apply wf_State_setQuad
    | with_reducible apply wf_directKeys
    | with_reducible apply wf_checkKeys
    | (refine wf_of_pair (by assumption) ?_)
    | (refine wf_of_triple (by assumption) ?_)
    | (refine wf_of_fst (by assumption) ?_)
    | (refine wf_of_opt (by assumption) ?_)
    | intro _
    | split
    | dsimp only

theorem wf_tileLatch {c part : Nat} {card wrec : BitVec 512} {v1 : Nat} {v2 : State} (hv2 : Memory.wf v2.mem = true) : Memory.wf (tileLatch c part card wrec v1 v2).2.mem = true := by
  induction v1 generalizing c part card wrec v2 with
  | zero =>
    rw [tileLatch]
    repeat' first
      | assumption
      | with_reducible apply wf_foldl
      | with_reducible exact optWf_none
      | with_reducible apply optWf_some
      | with_reducible apply optWf_map
      | with_reducible apply wf_getD
      | with_reducible apply outWf_next
      | with_reducible apply wf_latchRow
      | (refine wf_of_pair (by assumption) ?_)
      | (refine wf_of_triple (by assumption) ?_)
      | (refine wf_of_fst (by assumption) ?_)
      | (refine wf_of_opt (by assumption) ?_)
      | intro _
      | split
      | dsimp only
  | succ n ih =>
    rw [tileLatch]
    repeat' first
      | assumption
      | with_reducible apply wf_foldl
      | with_reducible exact optWf_none
      | with_reducible apply optWf_some
      | with_reducible apply optWf_map
      | with_reducible apply wf_getD
      | with_reducible apply outWf_next
      | with_reducible apply ih
      | with_reducible apply wf_latchRow
      | (refine wf_of_pair (by assumption) ?_)
      | (refine wf_of_triple (by assumption) ?_)
      | (refine wf_of_fst (by assumption) ?_)
      | (refine wf_of_opt (by assumption) ?_)
      | intro _
      | split
      | dsimp only


theorem wf_tileRows {c part : Nat} {r : BitVec 1024} {tile : List (List Nat)} {wfmt : Nat} {v1 : Nat} {v2 : State} (hv2 : Memory.wf v2.mem = true) : Memory.wf (tileRows c part r tile wfmt v1 v2).2.mem = true := by
  induction v1 generalizing c part r tile wfmt v2 with
  | zero =>
    rw [tileRows]
    repeat' first
      | assumption
      | with_reducible apply wf_foldl
      | with_reducible exact optWf_none
      | with_reducible apply optWf_some
      | with_reducible apply optWf_map
      | with_reducible apply wf_getD
      | with_reducible apply outWf_next
      | with_reducible apply wf_readElems
      | with_reducible apply wf_resolvePuts
      | (refine wf_of_pair (by assumption) ?_)
      | (refine wf_of_triple (by assumption) ?_)
      | (refine wf_of_fst (by assumption) ?_)
      | (refine wf_of_opt (by assumption) ?_)
      | intro _
      | split
      | dsimp only
  | succ n ih =>
    rw [tileRows]
    repeat' first
      | assumption
      | with_reducible apply wf_foldl
      | with_reducible exact optWf_none
      | with_reducible apply optWf_some
      | with_reducible apply optWf_map
      | with_reducible apply wf_getD
      | with_reducible apply outWf_next
      | with_reducible apply ih
      | with_reducible apply wf_readElems
      | with_reducible apply wf_resolvePuts
      | (refine wf_of_pair (by assumption) ?_)
      | (refine wf_of_triple (by assumption) ?_)
      | (refine wf_of_fst (by assumption) ?_)
      | (refine wf_of_opt (by assumption) ?_)
      | intro _
      | split
      | dsimp only


theorem wf_tileWork {c part : Nat} {r : BitVec 1024} {s : State} (hs : Memory.wf s.mem = true) : Memory.wf (tileWork c part r s).2.mem = true := by
  unfold tileWork
  repeat' first
    | assumption
    | with_reducible apply wf_foldl
    | with_reducible exact optWf_none
    | with_reducible apply optWf_some
    | with_reducible apply optWf_map
    | with_reducible apply wf_getD
    | with_reducible apply outWf_next
    | with_reducible apply wf_directKeys
    | with_reducible apply wf_tileLatch
    | with_reducible apply wf_tileRows
    | (refine wf_of_pair (by assumption) ?_)
    | (refine wf_of_triple (by assumption) ?_)
    | (refine wf_of_fst (by assumption) ?_)
    | (refine wf_of_opt (by assumption) ?_)
    | intro _
    | split
    | dsimp only

theorem wf_tileStatus {c part : Nat} {tt : TileTask} {status : Nat} {s : State} (hs : Memory.wf s.mem = true) : Memory.wf (tileStatus c part tt status s).mem = true := by
  unfold tileStatus
  repeat' first
    | assumption
    | with_reducible apply wf_foldl
    | with_reducible exact optWf_none
    | with_reducible apply optWf_some
    | with_reducible apply optWf_map
    | with_reducible apply wf_getD
    | with_reducible apply outWf_next
    | with_reducible apply wf_directKeys
    | with_reducible apply wf_writeKeys
    | (refine wf_of_pair (by assumption) ?_)
    | (refine wf_of_triple (by assumption) ?_)
    | (refine wf_of_fst (by assumption) ?_)
    | (refine wf_of_opt (by assumption) ?_)
    | intro _
    | split
    | dsimp only

theorem wf_dropTile {q n : Nat} {s : State} (hs : Memory.wf s.mem = true) : Memory.wf (dropTile q n s).mem = true := by
  unfold dropTile
  repeat' first
    | assumption
    | with_reducible apply wf_foldl
    | with_reducible exact optWf_none
    | with_reducible apply optWf_some
    | with_reducible apply optWf_map
    | with_reducible apply wf_getD
    | with_reducible apply outWf_next
    | with_reducible apply wf_State_setQuad
    | with_reducible apply wf_returnLeave
    | (refine wf_of_pair (by assumption) ?_)
    | (refine wf_of_triple (by assumption) ?_)
    | (refine wf_of_fst (by assumption) ?_)
    | (refine wf_of_opt (by assumption) ?_)
    | intro _
    | split
    | dsimp only

theorem wf_askTile {q n : Nat} {tt : TileTask} {s : State} (hs : Memory.wf s.mem = true) : Memory.wf (askTile q n tt s).mem = true := by
  unfold askTile
  repeat' first
    | assumption
    | with_reducible apply wf_foldl
    | with_reducible exact optWf_none
    | with_reducible apply optWf_some
    | with_reducible apply optWf_map
    | with_reducible apply wf_getD
    | with_reducible apply outWf_next
    | with_reducible apply wf_State_setQuad
    | with_reducible apply wf_askLeave
    | (refine wf_of_pair (by assumption) ?_)
    | (refine wf_of_triple (by assumption) ?_)
    | (refine wf_of_fst (by assumption) ?_)
    | (refine wf_of_opt (by assumption) ?_)
    | intro _
    | split
    | dsimp only

theorem wf_tileDone {q n part : Nat} {tt : TileTask} {status : Nat} {s : State} (hs : Memory.wf s.mem = true) : Memory.wf (tileDone q n part tt status s).mem = true := by
  unfold tileDone
  extract_lets s1
  have h1 : Memory.wf s1.mem = true := wf_tileStatus hs
  clear_value s1
  split
  · have h := wf_of_pair (by assumption) (wf_directKeys h1)
    split
    · exact wf_holdMove h
    · rename_i e
      have h2 := (wf_cwMove h).1 _ _ e
      exact h2
    · exact wf_dropTile ((wf_cwMove h).2 _ (by assumption))
  · exact wf_dropTile (wf_of_pair (by assumption) (wf_directKeys h1))

theorem wf_tileRun {q n : Nat} {s : State} (hs : Memory.wf s.mem = true) : Memory.wf (tileRun q n s).mem = true := by
  unfold tileRun
  repeat' first
    | assumption
    | with_reducible apply wf_foldl
    | with_reducible exact optWf_none
    | with_reducible apply optWf_some
    | with_reducible apply optWf_map
    | with_reducible apply wf_getD
    | with_reducible apply outWf_next
    | with_reducible apply wf_cwWrite
    | with_reducible apply wf_doPut
    | with_reducible apply wf_tileWork
    | with_reducible apply wf_dropTile
    | with_reducible apply wf_askTile
    | with_reducible apply wf_tileDone
    | (refine wf_of_pair (by assumption) ?_)
    | (refine wf_of_triple (by assumption) ?_)
    | (refine wf_of_fst (by assumption) ?_)
    | (refine wf_of_opt (by assumption) ?_)
    | intro _
    | split
    | dsimp only

theorem wf_cardRowMove {c t chain seq : Nat} {s : State} (hs : Memory.wf s.mem = true) : Memory.wf (cardRowMove c t chain seq s).mem = true := by
  unfold cardRowMove
  repeat' first
    | assumption
    | with_reducible apply wf_foldl
    | with_reducible exact optWf_none
    | with_reducible apply optWf_some
    | with_reducible apply optWf_map
    | with_reducible apply wf_getD
    | with_reducible apply outWf_next
    | with_reducible apply wf_taskRowMove
    | with_reducible apply wf_tileRun
    | (refine wf_of_pair (by assumption) ?_)
    | (refine wf_of_triple (by assumption) ?_)
    | (refine wf_of_fst (by assumption) ?_)
    | (refine wf_of_opt (by assumption) ?_)
    | intro _
    | split
    | dsimp only

theorem wf_tokenArriveMove {c slot port : Nat} {s : State} (hs : Memory.wf s.mem = true) : Memory.wf (tokenArriveMove c slot port s).mem = true := by
  unfold tokenArriveMove
  repeat' first
    | assumption
    | with_reducible apply wf_foldl
    | with_reducible exact optWf_none
    | with_reducible apply optWf_some
    | with_reducible apply optWf_map
    | with_reducible apply wf_getD
    | with_reducible apply outWf_next
    | with_reducible apply wf_putPhase
    | (refine wf_of_pair (by assumption) ?_)
    | (refine wf_of_triple (by assumption) ?_)
    | (refine wf_of_fst (by assumption) ?_)
    | (refine wf_of_opt (by assumption) ?_)
    | intro _
    | split
    | dsimp only

theorem wf_passRiders {s : State} {ch line rev : Nat} {rs : List (Nat × Rider)} (hs : Memory.wf s.mem = true) : Memory.wf (passRiders s ch line rev rs).mem = true := by
  unfold passRiders
  repeat' first
    | assumption
    | with_reducible apply wf_foldl
    | with_reducible exact optWf_none
    | with_reducible apply optWf_some
    | with_reducible apply optWf_map
    | with_reducible apply wf_getD
    | with_reducible apply outWf_next
    | with_reducible apply wf_drainRider
    | with_reducible apply wf_riderPass
    | (refine wf_of_pair (by assumption) ?_)
    | (refine wf_of_triple (by assumption) ?_)
    | (refine wf_of_fst (by assumption) ?_)
    | (refine wf_of_opt (by assumption) ?_)
    | intro _
    | split
    | dsimp only

theorem wf_moveCursor {s : State} {ch : Nat} (hs : Memory.wf s.mem = true) : Memory.wf (moveCursor s ch).mem = true := by
  unfold moveCursor
  repeat' first
    | assumption
    | with_reducible apply wf_foldl
    | with_reducible exact optWf_none
    | with_reducible apply optWf_some
    | with_reducible apply optWf_map
    | with_reducible apply wf_getD
    | with_reducible apply outWf_next
    | with_reducible apply wf_State_setChan
    | with_reducible apply wf_atWrap
    | (refine wf_of_pair (by assumption) ?_)
    | (refine wf_of_triple (by assumption) ?_)
    | (refine wf_of_fst (by assumption) ?_)
    | (refine wf_of_opt (by assumption) ?_)
    | intro _
    | split
    | dsimp only

theorem wf_passMove {ch : Nat} {s : State} (hs : Memory.wf s.mem = true) : Memory.wf (passMove ch s).mem = true := by
  unfold passMove
  repeat' first
    | assumption
    | with_reducible apply wf_foldl
    | with_reducible exact optWf_none
    | with_reducible apply optWf_some
    | with_reducible apply optWf_map
    | with_reducible apply wf_getD
    | with_reducible apply outWf_next
    | with_reducible apply wf_readCheck
    | with_reducible apply wf_anchorsAt
    | with_reducible apply wf_leaveCancelled
    | with_reducible apply wf_passRiders
    | with_reducible apply wf_moveCursor
    | (refine wf_of_pair (by assumption) ?_)
    | (refine wf_of_triple (by assumption) ?_)
    | (refine wf_of_fst (by assumption) ?_)
    | (refine wf_of_opt (by assumption) ?_)
    | intro _
    | split
    | dsimp only

theorem wf_sensorMove {k temp : Nat} {s : State} (hs : Memory.wf s.mem = true) : Memory.wf (sensorMove k temp s).mem = true := by
  unfold sensorMove
  repeat' first
    | assumption
    | with_reducible apply wf_foldl
    | with_reducible exact optWf_none
    | with_reducible apply optWf_some
    | with_reducible apply optWf_map
    | with_reducible apply wf_getD
    | with_reducible apply outWf_next
    | with_reducible apply wf_State_setStk
    | (refine wf_of_pair (by assumption) ?_)
    | (refine wf_of_triple (by assumption) ?_)
    | (refine wf_of_fst (by assumption) ?_)
    | (refine wf_of_opt (by assumption) ?_)
    | intro _
    | split
    | dsimp only

theorem wf_upsetMove {sector : Nat} {corrected : Bool} {s : State} (hs : Memory.wf s.mem = true) : Memory.wf (upsetMove sector corrected s).mem = true := by
  unfold upsetMove
  repeat' first
    | assumption
    | with_reducible apply wf_foldl
    | with_reducible exact optWf_none
    | with_reducible apply optWf_some
    | with_reducible apply optWf_map
    | with_reducible apply wf_getD
    | with_reducible apply outWf_next
    | (refine wf_of_pair (by assumption) ?_)
    | (refine wf_of_triple (by assumption) ?_)
    | (refine wf_of_fst (by assumption) ?_)
    | (refine wf_of_opt (by assumption) ?_)
    | intro _
    | split
    | dsimp only

theorem wf_takeMove {s : State} (hs : Memory.wf s.mem = true) : Memory.wf (takeMove s).mem = true := by
  unfold takeMove
  repeat' first
    | assumption
    | with_reducible apply wf_foldl
    | with_reducible exact optWf_none
    | with_reducible apply optWf_some
    | with_reducible apply optWf_map
    | with_reducible apply wf_getD
    | with_reducible apply outWf_next
    | (refine wf_of_pair (by assumption) ?_)
    | (refine wf_of_triple (by assumption) ?_)
    | (refine wf_of_fst (by assumption) ?_)
    | (refine wf_of_opt (by assumption) ?_)
    | intro _
    | split
    | dsimp only

theorem wf_placeWord {s : State} {x : Word64} (hs : Memory.wf s.mem = true) : Memory.wf (placeWord s x).mem = true := by
  unfold placeWord
  repeat' first
    | assumption
    | with_reducible apply wf_foldl
    | with_reducible exact optWf_none
    | with_reducible apply optWf_some
    | with_reducible apply optWf_map
    | with_reducible apply wf_getD
    | with_reducible apply outWf_next
    | with_reducible apply wf_State_setCore
    | with_reducible apply wf_State_setTask
    | (refine wf_of_pair (by assumption) ?_)
    | (refine wf_of_triple (by assumption) ?_)
    | (refine wf_of_fst (by assumption) ?_)
    | (refine wf_of_opt (by assumption) ?_)
    | intro _
    | split
    | dsimp only

theorem wf_placeHusk {s : State} {x : BitVec 128} (hs : Memory.wf s.mem = true) : Memory.wf (placeHusk s x).mem = true := by
  unfold placeHusk
  repeat' first
    | assumption
    | with_reducible apply wf_foldl
    | with_reducible exact optWf_none
    | with_reducible apply optWf_some
    | with_reducible apply optWf_map
    | with_reducible apply wf_getD
    | with_reducible apply outWf_next
    | with_reducible apply wf_State_setCore
    | with_reducible apply wf_State_setTask
    | (refine wf_of_pair (by assumption) ?_)
    | (refine wf_of_triple (by assumption) ?_)
    | (refine wf_of_fst (by assumption) ?_)
    | (refine wf_of_opt (by assumption) ?_)
    | intro _
    | split
    | dsimp only

theorem wf_bootCommand {v : Nat} {s : State} (hs : Memory.wf s.mem = true) : Memory.wf (bootCommand v s).mem = true := by
  unfold bootCommand
  repeat' first
    | assumption
    | with_reducible apply wf_foldl
    | with_reducible exact optWf_none
    | with_reducible apply optWf_some
    | with_reducible apply optWf_map
    | with_reducible apply wf_getD
    | with_reducible apply outWf_next
    | (refine wf_of_pair (by assumption) ?_)
    | (refine wf_of_triple (by assumption) ?_)
    | (refine wf_of_fst (by assumption) ?_)
    | (refine wf_of_opt (by assumption) ?_)
    | intro _
    | split
    | dsimp only

theorem wf_bootCheckMove {s : State} (hs : Memory.wf s.mem = true) : Memory.wf (bootCheckMove s).mem = true := by
  unfold bootCheckMove
  repeat' first
    | assumption
    | with_reducible apply wf_foldl
    | with_reducible exact optWf_none
    | with_reducible apply optWf_some
    | with_reducible apply optWf_map
    | with_reducible apply wf_getD
    | with_reducible apply outWf_next
    | with_reducible apply wf_bootImage
    | with_reducible apply wf_bootConfig
    | (refine wf_of_pair (by assumption) ?_)
    | (refine wf_of_triple (by assumption) ?_)
    | (refine wf_of_fst (by assumption) ?_)
    | (refine wf_of_opt (by assumption) ?_)
    | intro _
    | split
    | dsimp only

theorem wf_writeMsixEntry {fn vec half v : Nat} {s : State} (hs : Memory.wf s.mem = true) : Memory.wf (writeMsixEntry fn vec half v s).mem = true := by
  unfold writeMsixEntry
  repeat' first
    | assumption
    | with_reducible apply wf_foldl
    | with_reducible exact optWf_none
    | with_reducible apply optWf_some
    | with_reducible apply optWf_map
    | with_reducible apply wf_getD
    | with_reducible apply outWf_next
    | with_reducible apply wf_State_setFn
    | with_reducible apply wf_setMask
    | (refine wf_of_pair (by assumption) ?_)
    | (refine wf_of_triple (by assumption) ?_)
    | (refine wf_of_fst (by assumption) ?_)
    | (refine wf_of_opt (by assumption) ?_)
    | intro _
    | split
    | dsimp only

theorem wf_barWrite {fn off len v : Nat} {s : State} (hs : Memory.wf s.mem = true) : Memory.wf (barWrite fn off len v s).mem = true := by
  unfold barWrite
  repeat' first
    | assumption
    | with_reducible apply wf_foldl
    | with_reducible exact optWf_none
    | with_reducible apply optWf_some
    | with_reducible apply optWf_map
    | with_reducible apply wf_getD
    | with_reducible apply outWf_next
    | with_reducible apply wf_writeLqbase
    | with_reducible apply wf_writeLqsize
    | with_reducible apply wf_writeLqtail
    | with_reducible apply wf_writeWinbase
    | with_reducible apply wf_clearWinerr
    | with_reducible apply wf_bootCommand
    | with_reducible apply wf_writeMsixEntry
    | (refine wf_of_pair (by assumption) ?_)
    | (refine wf_of_triple (by assumption) ?_)
    | (refine wf_of_fst (by assumption) ?_)
    | (refine wf_of_opt (by assumption) ?_)
    | intro _
    | split
    | dsimp only

theorem wf_sendAllPending {fn : Nat} {s : State} (hs : Memory.wf s.mem = true) : Memory.wf (sendAllPending fn s).mem = true := by
  unfold sendAllPending
  repeat' first
    | assumption
    | with_reducible apply wf_foldl
    | with_reducible exact optWf_none
    | with_reducible apply optWf_some
    | with_reducible apply optWf_map
    | with_reducible apply wf_getD
    | with_reducible apply outWf_next
    | with_reducible apply wf_sendPending
    | (refine wf_of_pair (by assumption) ?_)
    | (refine wf_of_triple (by assumption) ?_)
    | (refine wf_of_fst (by assumption) ?_)
    | (refine wf_of_opt (by assumption) ?_)
    | intro _
    | split
    | dsimp only

theorem wf_cfgWrite {fn : Nat} {r : CfgReg} {v : Nat} {s : State} (hs : Memory.wf s.mem = true) : Memory.wf (cfgWrite fn r v s).mem = true := by
  unfold cfgWrite
  repeat' first
    | assumption
    | with_reducible apply wf_foldl
    | with_reducible exact optWf_none
    | with_reducible apply optWf_some
    | with_reducible apply optWf_map
    | with_reducible apply wf_getD
    | with_reducible apply outWf_next
    | with_reducible apply wf_State_setFn
    | with_reducible apply wf_clearVfs
    | with_reducible apply wf_sendAllPending
    | (refine wf_of_pair (by assumption) ?_)
    | (refine wf_of_triple (by assumption) ?_)
    | (refine wf_of_fst (by assumption) ?_)
    | (refine wf_of_opt (by assumption) ?_)
    | intro _
    | split
    | dsimp only

theorem wf_hostMove {fn : Nat} {r : HostReq} {s : State} (hs : Memory.wf s.mem = true) : Memory.wf (hostMove fn r s).mem = true := by
  unfold hostMove
  repeat' first
    | assumption
    | with_reducible apply wf_foldl
    | with_reducible exact optWf_none
    | with_reducible apply optWf_some
    | with_reducible apply optWf_map
    | with_reducible apply wf_getD
    | with_reducible apply outWf_next
    | with_reducible apply wf_unsupported
    | with_reducible apply wf_barWrite
    | with_reducible apply wf_cfgWrite
    | (refine wf_of_pair (by assumption) ?_)
    | (refine wf_of_triple (by assumption) ?_)
    | (refine wf_of_fst (by assumption) ?_)
    | (refine wf_of_opt (by assumption) ?_)
    | intro _
    | split
    | dsimp only

theorem wf_endBeforeCut {s : State} {c : Nat} (hs : Memory.wf s.mem = true) : Memory.wf (endBeforeCut s c).mem = true := by
  unfold endBeforeCut
  repeat' first
    | assumption
    | with_reducible apply wf_foldl
    | with_reducible exact optWf_none
    | with_reducible apply optWf_some
    | with_reducible apply optWf_map
    | with_reducible apply wf_getD
    | with_reducible apply outWf_next
    | with_reducible apply wf_phaseEndMove
    | (refine wf_of_pair (by assumption) ?_)
    | (refine wf_of_triple (by assumption) ?_)
    | (refine wf_of_fst (by assumption) ?_)
    | (refine wf_of_opt (by assumption) ?_)
    | intro _
    | split
    | dsimp only

theorem wf_takeLate {s : State} {c t : Nat} (hs : Memory.wf s.mem = true) : Memory.wf (takeLate s c t).mem = true := by
  unfold takeLate
  repeat' first
    | assumption
    | with_reducible apply wf_foldl
    | with_reducible exact optWf_none
    | with_reducible apply optWf_some
    | with_reducible apply optWf_map
    | with_reducible apply wf_getD
    | with_reducible apply outWf_next
    | with_reducible apply wf_takeDeferred
    | (refine wf_of_pair (by assumption) ?_)
    | (refine wf_of_triple (by assumption) ?_)
    | (refine wf_of_fst (by assumption) ?_)
    | (refine wf_of_opt (by assumption) ?_)
    | intro _
    | split
    | dsimp only

theorem wf_retryAll {s : State} {c : Nat} (hs : Memory.wf s.mem = true) : Memory.wf (retryAll s c).mem = true := by
  unfold retryAll
  repeat' first
    | assumption
    | with_reducible apply wf_foldl
    | with_reducible exact optWf_none
    | with_reducible apply optWf_some
    | with_reducible apply optWf_map
    | with_reducible apply wf_getD
    | with_reducible apply outWf_next
    | with_reducible apply wf_retryBoards
    | with_reducible apply wf_takeLate
    | (refine wf_of_pair (by assumption) ?_)
    | (refine wf_of_triple (by assumption) ?_)
    | (refine wf_of_fst (by assumption) ?_)
    | (refine wf_of_opt (by assumption) ?_)
    | intro _
    | split
    | dsimp only

theorem wf_cycleMove {c : Nat} {s : State} (hs : Memory.wf s.mem = true) : Memory.wf (cycleMove c s).mem = true := by
  unfold cycleMove
  repeat' first
    | assumption
    | with_reducible apply wf_foldl
    | with_reducible exact optWf_none
    | with_reducible apply optWf_some
    | with_reducible apply optWf_map
    | with_reducible apply wf_getD
    | with_reducible apply outWf_next
    | with_reducible apply wf_State_setCore
    | with_reducible apply wf_pick
    | with_reducible apply wf_podWaitFault
    | with_reducible apply wf_beginCuts
    | with_reducible apply wf_endBeforeCut
    | with_reducible apply wf_retryAll
    | (refine wf_of_pair (by assumption) ?_)
    | (refine wf_of_triple (by assumption) ?_)
    | (refine wf_of_fst (by assumption) ?_)
    | (refine wf_of_opt (by assumption) ?_)
    | intro _
    | split
    | dsimp only





theorem wf_State_withFetchWord {s : State} {nbits w : Nat} (hs : Memory.wf s.mem = true) : Memory.wf (State.withFetchWord s nbits w).mem = true := by
  unfold State.withFetchWord
  repeat' first
    | assumption
    | with_reducible apply wf_foldl
    | with_reducible exact optWf_none
    | with_reducible apply optWf_some
    | with_reducible apply optWf_map
    | with_reducible apply wf_getD
    | with_reducible apply outWf_next
    | with_reducible apply wf_placeWord
    | with_reducible apply wf_placeHusk
    | (refine wf_of_pair (by assumption) ?_)
    | (refine wf_of_triple (by assumption) ?_)
    | (refine wf_of_fst (by assumption) ?_)
    | (refine wf_of_opt (by assumption) ?_)
    | intro _
    | split
    | dsimp only

theorem outWf_execVadd (w : StageW) {s : State} (hs : Memory.wf s.mem = true) : outWf (execVadd w s) := outWf_fireStage hs
theorem outWf_execVsub (w : StageW) {s : State} (hs : Memory.wf s.mem = true) : outWf (execVsub w s) := outWf_fireStage hs
theorem outWf_execVaddsat (w : StageW) {s : State} (hs : Memory.wf s.mem = true) : outWf (execVaddsat w s) := outWf_fireStage hs
theorem outWf_execVsubsat (w : StageW) {s : State} (hs : Memory.wf s.mem = true) : outWf (execVsubsat w s) := outWf_fireStage hs
theorem outWf_execVmul (w : StageW) {s : State} (hs : Memory.wf s.mem = true) : outWf (execVmul w s) := outWf_fireStage hs
theorem outWf_execVmulhi (w : StageW) {s : State} (hs : Memory.wf s.mem = true) : outWf (execVmulhi w s) := outWf_fireStage hs
theorem outWf_execVmad (w : StageW) {s : State} (hs : Memory.wf s.mem = true) : outWf (execVmad w s) := outWf_fireStage hs
theorem outWf_execVneg (w : StageW) {s : State} (hs : Memory.wf s.mem = true) : outWf (execVneg w s) := outWf_fireStage hs
theorem outWf_execVabs (w : StageW) {s : State} (hs : Memory.wf s.mem = true) : outWf (execVabs w s) := outWf_fireStage hs
theorem outWf_execVmin (w : StageW) {s : State} (hs : Memory.wf s.mem = true) : outWf (execVmin w s) := outWf_fireStage hs
theorem outWf_execVmax (w : StageW) {s : State} (hs : Memory.wf s.mem = true) : outWf (execVmax w s) := outWf_fireStage hs
theorem outWf_execVand (w : StageW) {s : State} (hs : Memory.wf s.mem = true) : outWf (execVand w s) := outWf_fireStage hs
theorem outWf_execVor (w : StageW) {s : State} (hs : Memory.wf s.mem = true) : outWf (execVor w s) := outWf_fireStage hs
theorem outWf_execVxor (w : StageW) {s : State} (hs : Memory.wf s.mem = true) : outWf (execVxor w s) := outWf_fireStage hs
theorem outWf_execVandn (w : StageW) {s : State} (hs : Memory.wf s.mem = true) : outWf (execVandn w s) := outWf_fireStage hs
theorem outWf_execVshl (w : StageW) {s : State} (hs : Memory.wf s.mem = true) : outWf (execVshl w s) := outWf_fireStage hs
theorem outWf_execVshr (w : StageW) {s : State} (hs : Memory.wf s.mem = true) : outWf (execVshr w s) := outWf_fireStage hs
theorem outWf_execVsra (w : StageW) {s : State} (hs : Memory.wf s.mem = true) : outWf (execVsra w s) := outWf_fireStage hs
theorem outWf_execVrotl (w : StageW) {s : State} (hs : Memory.wf s.mem = true) : outWf (execVrotl w s) := outWf_fireStage hs
theorem outWf_execVclz (w : StageW) {s : State} (hs : Memory.wf s.mem = true) : outWf (execVclz w s) := outWf_fireStage hs
theorem outWf_execVpopc (w : StageW) {s : State} (hs : Memory.wf s.mem = true) : outWf (execVpopc w s) := outWf_fireStage hs
theorem outWf_execVcmp (w : StageW) {s : State} (hs : Memory.wf s.mem = true) : outWf (execVcmp w s) := outWf_fireStage hs
theorem outWf_execVsel (w : StageW) {s : State} (hs : Memory.wf s.mem = true) : outWf (execVsel w s) := outWf_fireStage hs
theorem outWf_execVext (w : StageW) {s : State} (hs : Memory.wf s.mem = true) : outWf (execVext w s) := outWf_fireStage hs
theorem outWf_execVbfx (w : StageW) {s : State} (hs : Memory.wf s.mem = true) : outWf (execVbfx w s) := outWf_fireStage hs
theorem outWf_execVbfi (w : StageW) {s : State} (hs : Memory.wf s.mem = true) : outWf (execVbfi w s) := outWf_fireStage hs
theorem outWf_execConst (w : StageW) {s : State} (hs : Memory.wf s.mem = true) : outWf (execConst w s) := outWf_fireStage hs
theorem outWf_execDup (w : StageW) {s : State} (hs : Memory.wf s.mem = true) : outWf (execDup w s) := outWf_fireStage hs
theorem outWf_execRdb (w : StageW) {s : State} (hs : Memory.wf s.mem = true) : outWf (execRdb w s) := outWf_fireStage hs
theorem outWf_execWrb (w : StageW) {s : State} (hs : Memory.wf s.mem = true) : outWf (execWrb w s) := outWf_fireStage hs
theorem outWf_execItr (w : StageW) {s : State} (hs : Memory.wf s.mem = true) : outWf (execItr w s) := outWf_fireStage hs
theorem outWf_execLidx (w : StageW) {s : State} (hs : Memory.wf s.mem = true) : outWf (execLidx w s) := outWf_fireStage hs
theorem outWf_execMkpred (w : StageW) {s : State} (hs : Memory.wf s.mem = true) : outWf (execMkpred w s) := outWf_fireStage hs
theorem outWf_execNul (w : StageW) {s : State} (hs : Memory.wf s.mem = true) : outWf (execNul w s) := outWf_fireStage hs
theorem outWf_execLred (w : StageW) {s : State} (hs : Memory.wf s.mem = true) : outWf (execLred w s) := outWf_fireStage hs
theorem outWf_execLscan (w : StageW) {s : State} (hs : Memory.wf s.mem = true) : outWf (execLscan w s) := outWf_fireStage hs
theorem outWf_execLbcast (w : StageW) {s : State} (hs : Memory.wf s.mem = true) : outWf (execLbcast w s) := outWf_fireStage hs
theorem outWf_execLshift (w : StageW) {s : State} (hs : Memory.wf s.mem = true) : outWf (execLshift w s) := outWf_fireStage hs
theorem outWf_execLperm (w : StageW) {s : State} (hs : Memory.wf s.mem = true) : outWf (execLperm w s) := outWf_fireStage hs
theorem outWf_execLpack (w : StageW) {s : State} (hs : Memory.wf s.mem = true) : outWf (execLpack w s) := outWf_fireStage hs
theorem outWf_execLcount (w : StageW) {s : State} (hs : Memory.wf s.mem = true) : outWf (execLcount w s) := outWf_fireStage hs
theorem outWf_execFadd (w : StageW) {s : State} (hs : Memory.wf s.mem = true) : outWf (execFadd w s) := outWf_fireStage hs
theorem outWf_execFsub (w : StageW) {s : State} (hs : Memory.wf s.mem = true) : outWf (execFsub w s) := outWf_fireStage hs
theorem outWf_execFmul (w : StageW) {s : State} (hs : Memory.wf s.mem = true) : outWf (execFmul w s) := outWf_fireStage hs
theorem outWf_execFma (w : StageW) {s : State} (hs : Memory.wf s.mem = true) : outWf (execFma w s) := outWf_fireStage hs
theorem outWf_execFnma (w : StageW) {s : State} (hs : Memory.wf s.mem = true) : outWf (execFnma w s) := outWf_fireStage hs
theorem outWf_execFmin (w : StageW) {s : State} (hs : Memory.wf s.mem = true) : outWf (execFmin w s) := outWf_fireStage hs
theorem outWf_execFmax (w : StageW) {s : State} (hs : Memory.wf s.mem = true) : outWf (execFmax w s) := outWf_fireStage hs
theorem outWf_execFabs (w : StageW) {s : State} (hs : Memory.wf s.mem = true) : outWf (execFabs w s) := outWf_fireStage hs
theorem outWf_execFneg (w : StageW) {s : State} (hs : Memory.wf s.mem = true) : outWf (execFneg w s) := outWf_fireStage hs
theorem outWf_execFcpsgn (w : StageW) {s : State} (hs : Memory.wf s.mem = true) : outWf (execFcpsgn w s) := outWf_fireStage hs
theorem outWf_execFcmp (w : StageW) {s : State} (hs : Memory.wf s.mem = true) : outWf (execFcmp w s) := outWf_fireStage hs
theorem outWf_execFclass (w : StageW) {s : State} (hs : Memory.wf s.mem = true) : outWf (execFclass w s) := outWf_fireStage hs
theorem outWf_execFrnd (w : StageW) {s : State} (hs : Memory.wf s.mem = true) : outWf (execFrnd w s) := outWf_fireStage hs
theorem outWf_execFscaleb (w : StageW) {s : State} (hs : Memory.wf s.mem = true) : outWf (execFscaleb w s) := outWf_fireStage hs
theorem outWf_execFgetexp (w : StageW) {s : State} (hs : Memory.wf s.mem = true) : outWf (execFgetexp w s) := outWf_fireStage hs
theorem outWf_execFgetman (w : StageW) {s : State} (hs : Memory.wf s.mem = true) : outWf (execFgetman w s) := outWf_fireStage hs
theorem outWf_execFrcp (w : StageW) {s : State} (hs : Memory.wf s.mem = true) : outWf (execFrcp w s) := outWf_fireStage hs
theorem outWf_execFrsq (w : StageW) {s : State} (hs : Memory.wf s.mem = true) : outWf (execFrsq w s) := outWf_fireStage hs
theorem outWf_execFsqrt (w : StageW) {s : State} (hs : Memory.wf s.mem = true) : outWf (execFsqrt w s) := outWf_fireStage hs
theorem outWf_execFexp2 (w : StageW) {s : State} (hs : Memory.wf s.mem = true) : outWf (execFexp2 w s) := outWf_fireStage hs
theorem outWf_execFlog2 (w : StageW) {s : State} (hs : Memory.wf s.mem = true) : outWf (execFlog2 w s) := outWf_fireStage hs
theorem outWf_execFtanh (w : StageW) {s : State} (hs : Memory.wf s.mem = true) : outWf (execFtanh w s) := outWf_fireStage hs
theorem outWf_execFsin (w : StageW) {s : State} (hs : Memory.wf s.mem = true) : outWf (execFsin w s) := outWf_fireStage hs
theorem outWf_execFcos (w : StageW) {s : State} (hs : Memory.wf s.mem = true) : outWf (execFcos w s) := outWf_fireStage hs
theorem outWf_execFsigm (w : StageW) {s : State} (hs : Memory.wf s.mem = true) : outWf (execFsigm w s) := outWf_fireStage hs
theorem outWf_execSmref (w : StageW) {s : State} (hs : Memory.wf s.mem = true) : outWf (execSmref w s) := outWf_fireStage hs
theorem outWf_execSmexp (w : StageW) {s : State} (hs : Memory.wf s.mem = true) : outWf (execSmexp w s) := outWf_fireStage hs
theorem outWf_execCvt (w : StageW) {s : State} (hs : Memory.wf s.mem = true) : outWf (execCvt w s) := outWf_fireStage hs
theorem outWf_execCvti (w : StageW) {s : State} (hs : Memory.wf s.mem = true) : outWf (execCvti w s) := outWf_fireStage hs
theorem outWf_execCvtf (w : StageW) {s : State} (hs : Memory.wf s.mem = true) : outWf (execCvtf w s) := outWf_fireStage hs
theorem outWf_execBlkpack (w : StageW) {s : State} (hs : Memory.wf s.mem = true) : outWf (execBlkpack w s) := outWf_fireStage hs
theorem outWf_execBlkunpack (w : StageW) {s : State} (hs : Memory.wf s.mem = true) : outWf (execBlkunpack w s) := outWf_fireStage hs
theorem outWf_execBlkscale (w : StageW) {s : State} (hs : Memory.wf s.mem = true) : outWf (execBlkscale w s) := outWf_fireStage hs
theorem outWf_execBpc (w : StageW) {s : State} (hs : Memory.wf s.mem = true) : outWf (execBpc w s) := outWf_fireCodec hs
theorem outWf_execBpx (w : StageW) {s : State} (hs : Memory.wf s.mem = true) : outWf (execBpx w s) := outWf_fireCodec hs
theorem outWf_execLdSp (w : MemW) {s : State} (hs : Memory.wf s.mem = true) : outWf (execLdSp w s) := outWf_fireMem hs
theorem outWf_execStSp (w : MemW) {s : State} (hs : Memory.wf s.mem = true) : outWf (execStSp w s) := outWf_fireMem hs
theorem outWf_execLdD (w : MemW) {s : State} (hs : Memory.wf s.mem = true) : outWf (execLdD w s) := outWf_fireMem hs
theorem outWf_execStD (w : MemW) {s : State} (hs : Memory.wf s.mem = true) : outWf (execStD w s) := outWf_fireMem hs
theorem outWf_execLdt (w : MemW) {s : State} (hs : Memory.wf s.mem = true) : outWf (execLdt w s) := outWf_fireMem hs
theorem outWf_execStt (w : MemW) {s : State} (hs : Memory.wf s.mem = true) : outWf (execStt w s) := outWf_fireMem hs
theorem outWf_execLdg (w : MemW) {s : State} (hs : Memory.wf s.mem = true) : outWf (execLdg w s) := outWf_fireMem hs
theorem outWf_execStg (w : MemW) {s : State} (hs : Memory.wf s.mem = true) : outWf (execStg w s) := outWf_fireMem hs
theorem outWf_execCbpush (w : MemW) {s : State} (hs : Memory.wf s.mem = true) : outWf (execCbpush w s) := outWf_fireCb (fun _ _ => cbOk_cbPush hs) hs
theorem outWf_execCbpop (w : MemW) {s : State} (hs : Memory.wf s.mem = true) : outWf (execCbpop w s) := outWf_fireCb (fun _ _ => cbOk_cbRead hs) hs
theorem outWf_execCbpeek (w : MemW) {s : State} (hs : Memory.wf s.mem = true) : outWf (execCbpeek w s) := outWf_fireCb (fun _ _ => cbOk_cbRead hs) hs
theorem outWf_execCbstat (w : MemW) {s : State} (hs : Memory.wf s.mem = true) : outWf (execCbstat w s) := outWf_fireCb (fun _ _ => cbOk_cbStat hs) hs
theorem outWf_execFence (w : MemW) {s : State} (hs : Memory.wf s.mem = true) : outWf (execFence w s) := outWf_fireMem hs
theorem outWf_execAadd (w : MemW) {s : State} (hs : Memory.wf s.mem = true) : outWf (execAadd w s) := outWf_fireMem hs
theorem outWf_execAmin (w : MemW) {s : State} (hs : Memory.wf s.mem = true) : outWf (execAmin w s) := outWf_fireMem hs
theorem outWf_execAmax (w : MemW) {s : State} (hs : Memory.wf s.mem = true) : outWf (execAmax w s) := outWf_fireMem hs
theorem outWf_execAand (w : MemW) {s : State} (hs : Memory.wf s.mem = true) : outWf (execAand w s) := outWf_fireMem hs
theorem outWf_execAor (w : MemW) {s : State} (hs : Memory.wf s.mem = true) : outWf (execAor w s) := outWf_fireMem hs
theorem outWf_execAxor (w : MemW) {s : State} (hs : Memory.wf s.mem = true) : outWf (execAxor w s) := outWf_fireMem hs
theorem outWf_execAxchg (w : MemW) {s : State} (hs : Memory.wf s.mem = true) : outWf (execAxchg w s) := outWf_fireMem hs
theorem outWf_execAcas (w : MemW) {s : State} (hs : Memory.wf s.mem = true) : outWf (execAcas w s) := outWf_fireMem hs
theorem outWf_execAaddw (w : MemW) {s : State} (hs : Memory.wf s.mem = true) : outWf (execAaddw w s) := outWf_fireMem hs
theorem outWf_execAwait (w : MemW) {s : State} (hs : Memory.wf s.mem = true) : outWf (execAwait w s) := outWf_fireMem hs
theorem outWf_execAfadd (w : MemW) {s : State} (hs : Memory.wf s.mem = true) : outWf (execAfadd w s) := outWf_fireMem hs
theorem outWf_execSteer (w : CpW) {s : State} (hs : Memory.wf s.mem = true) : outWf (execSteer w s) := outWf_fireCp hs
theorem outWf_execCarry (w : CpW) {s : State} (hs : Memory.wf s.mem = true) : outWf (execCarry w s) := outWf_fireCp hs
theorem outWf_execInv (w : CpW) {s : State} (hs : Memory.wf s.mem = true) : outWf (execInv w s) := outWf_fireCp hs
theorem outWf_execMergeSel (w : CpW) {s : State} (hs : Memory.wf s.mem = true) : outWf (execMergeSel w s) := outWf_fireCp hs
theorem outWf_execMergeAny (w : CpW) {s : State} (hs : Memory.wf s.mem = true) : outWf (execMergeAny w s) := outWf_fireCp hs
theorem outWf_execFan (w : CpW) {s : State} (hs : Memory.wf s.mem = true) : outWf (execFan w s) := outWf_fireCp hs
theorem outWf_execJoin (w : CpW) {s : State} (hs : Memory.wf s.mem = true) : outWf (execJoin w s) := outWf_fireCp hs
theorem outWf_execOrder (w : CpW) {s : State} (hs : Memory.wf s.mem = true) : outWf (execOrder w s) := outWf_fireCp hs
theorem outWf_execExitSel (w : CpW) {s : State} (hs : Memory.wf s.mem = true) : outWf (execExitSel w s) := outWf_fireExit hs
theorem outWf_execExitCall (w : CpW) {s : State} (hs : Memory.wf s.mem = true) : outWf (execExitCall w s) := outWf_fireExit hs
theorem outWf_execExitRet (w : CpW) {s : State} (hs : Memory.wf s.mem = true) : outWf (execExitRet w s) := outWf_fireExit hs
theorem outWf_execExitJump (w : CpW) {s : State} (hs : Memory.wf s.mem = true) : outWf (execExitJump w s) := outWf_fireExit hs
theorem outWf_execExitBr (w : CpW) {s : State} (hs : Memory.wf s.mem = true) : outWf (execExitBr w s) := outWf_fireExit hs
theorem outWf_execGatePass (w : CpW) {s : State} (hs : Memory.wf s.mem = true) : outWf (execGatePass w s) := outWf_fireCp hs
theorem outWf_execGateBrk (w : CpW) {s : State} (hs : Memory.wf s.mem = true) : outWf (execGateBrk w s) := outWf_fireCp hs
theorem outWf_execNulchkIsnull (w : CpW) {s : State} (hs : Memory.wf s.mem = true) : outWf (execNulchkIsnull w s) := outWf_fireCp hs
theorem outWf_execNulchkPresent (w : CpW) {s : State} (hs : Memory.wf s.mem = true) : outWf (execNulchkPresent w s) := outWf_fireCp hs
theorem outWf_execReord (w : ReW) {s : State} (hs : Memory.wf s.mem = true) : outWf (execReord w s) := outWf_fireReorder hs
theorem outWf_execXpose (w : ReW) {s : State} (hs : Memory.wf s.mem = true) : outWf (execXpose w s) := outWf_fireReorder hs
theorem outWf_execCorner (w : ReW) {s : State} (hs : Memory.wf s.mem = true) : outWf (execCorner w s) := outWf_fireReorder hs
theorem outWf_execMlatch (w : EpW) (sub : BitVec 8) {s : State} (hs : Memory.wf s.mem = true) : outWf (execMlatch w sub s) := outWf_fireMatrix hs
theorem outWf_execMstream (w : EpW) (sub : BitVec 8) {s : State} (hs : Memory.wf s.mem = true) : outWf (execMstream w sub s) := outWf_fireMatrix hs
theorem outWf_execMdrain (w : EpW) (sub : BitVec 8) {s : State} (hs : Memory.wf s.mem = true) : outWf (execMdrain w sub s) := outWf_fireMatrix hs
theorem outWf_execAccclr (w : EpW) (sub : BitVec 8) {s : State} (hs : Memory.wf s.mem = true) : outWf (execAccclr w sub s) := outWf_fireMatrix hs
theorem outWf_execAccscale (w : EpW) (sub : BitVec 8) {s : State} (hs : Memory.wf s.mem = true) : outWf (execAccscale w sub s) := outWf_fireMatrix hs
theorem outWf_execAccld (w : EpW) (sub : BitVec 8) {s : State} (hs : Memory.wf s.mem = true) : outWf (execAccld w sub s) := outWf_fireMatrix hs
theorem outWf_execAccst (w : EpW) (sub : BitVec 8) {s : State} (hs : Memory.wf s.mem = true) : outWf (execAccst w sub s) := outWf_fireMatrix hs
theorem outWf_execMxv (w : EpW) (sub : BitVec 8) {s : State} (hs : Memory.wf s.mem = true) : outWf (execMxv w sub s) := outWf_fireMatrix hs
theorem outWf_execMunfold (w : EpW) (sub : BitVec 8) {s : State} (hs : Memory.wf s.mem = true) : outWf (execMunfold w sub s) := outWf_fireMatrix hs
theorem outWf_execBrd (w : EpW) {s : State} (hs : Memory.wf s.mem = true) : outWf (execBrd w s) := outWf_fireBoard hs
theorem outWf_execBsum (w : EpW) {s : State} (hs : Memory.wf s.mem = true) : outWf (execBsum w s) := outWf_fireBoard hs
theorem outWf_execBflt (w : EpW) {s : State} (hs : Memory.wf s.mem = true) : outWf (execBflt w s) := outWf_fireBoard hs
theorem outWf_execBdep (w : EpW) {s : State} (hs : Memory.wf s.mem = true) : outWf (execBdep w s) := outWf_fireBoard hs
theorem outWf_execBupdIadd (w : EpW) {s : State} (hs : Memory.wf s.mem = true) : outWf (execBupdIadd w s) := outWf_fireBoard hs
theorem outWf_execBupdFadd (w : EpW) {s : State} (hs : Memory.wf s.mem = true) : outWf (execBupdFadd w s) := outWf_fireBoard hs
theorem outWf_execBupdImin (w : EpW) {s : State} (hs : Memory.wf s.mem = true) : outWf (execBupdImin w s) := outWf_fireBoard hs
theorem outWf_execBupdImax (w : EpW) {s : State} (hs : Memory.wf s.mem = true) : outWf (execBupdImax w s) := outWf_fireBoard hs
theorem outWf_execBupdAnd (w : EpW) {s : State} (hs : Memory.wf s.mem = true) : outWf (execBupdAnd w s) := outWf_fireBoard hs
theorem outWf_execBupdOr (w : EpW) {s : State} (hs : Memory.wf s.mem = true) : outWf (execBupdOr w s) := outWf_fireBoard hs
theorem outWf_execBupdXor (w : EpW) {s : State} (hs : Memory.wf s.mem = true) : outWf (execBupdXor w s) := outWf_fireBoard hs
theorem outWf_execBupdSet (w : EpW) {s : State} (hs : Memory.wf s.mem = true) : outWf (execBupdSet w s) := outWf_fireBoard hs
theorem outWf_execBmac (w : EpW) {s : State} (hs : Memory.wf s.mem = true) : outWf (execBmac w s) := outWf_fireBmac hs
theorem outWf_execBatt (w : EpW) {s : State} (hs : Memory.wf s.mem = true) : outWf (execBatt w s) := outWf_fireBoard hs
theorem outWf_execBclone (w : EpW) {s : State} (hs : Memory.wf s.mem = true) : outWf (execBclone w s) := outWf_fireBoard hs
theorem outWf_execBcfg (w : EpW) {s : State} (hs : Memory.wf s.mem = true) : outWf (execBcfg w s) := outWf_fireBcfg hs
theorem outWf_execBcancel (w : EpW) {s : State} (hs : Memory.wf s.mem = true) : outWf (execBcancel w s) := outWf_fireCancel hs
theorem outWf_execBwait (w : EpW) {s : State} (hs : Memory.wf s.mem = true) : outWf (execBwait w s) := outWf_fireWait hs
theorem outWf_execWdrive (w : EpW) {s : State} (hs : Memory.wf s.mem = true) : outWf (execWdrive w s) := outWf_fireWdrive hs
theorem outWf_execBstandRd (w : EpW) {s : State} (hs : Memory.wf s.mem = true) : outWf (execBstandRd w s) := outWf_fireBoard hs
theorem outWf_execBstandSum (w : EpW) {s : State} (hs : Memory.wf s.mem = true) : outWf (execBstandSum w s) := outWf_fireBoard hs
theorem outWf_execBstandFlt (w : EpW) {s : State} (hs : Memory.wf s.mem = true) : outWf (execBstandFlt w s) := outWf_fireBoard hs
theorem outWf_execBstandAtt (w : EpW) {s : State} (hs : Memory.wf s.mem = true) : outWf (execBstandAtt w s) := outWf_fireBoard hs
theorem outWf_execCursor (w : EpW) {s : State} (hs : Memory.wf s.mem = true) : outWf (execCursor w s) := outWf_fireCursor hs
theorem outWf_execCopy (w : EpW) (sub : BitVec 8) {s : State} (hs : Memory.wf s.mem = true) : outWf (execCopy w sub s) := outWf_fireEngine hs
theorem outWf_execColl (w : EpW) (sub : BitVec 8) {s : State} (hs : Memory.wf s.mem = true) : outWf (execColl w sub s) := outWf_fireEngine hs
theorem outWf_execRingx (w : EpW) (sub : BitVec 8) {s : State} (hs : Memory.wf s.mem = true) : outWf (execRingx w sub s) := outWf_fireEngine hs
theorem outWf_execKvopen (w : EpW) {s : State} (hs : Memory.wf s.mem = true) : outWf (execKvopen w s) := outWf_fireKv hs
theorem outWf_execKvfork (w : EpW) {s : State} (hs : Memory.wf s.mem = true) : outWf (execKvfork w s) := outWf_fireKv hs
theorem outWf_execKvreserve (w : EpW) {s : State} (hs : Memory.wf s.mem = true) : outWf (execKvreserve w s) := outWf_fireKv hs
theorem outWf_execKvwin (w : EpW) {s : State} (hs : Memory.wf s.mem = true) : outWf (execKvwin w s) := outWf_fireKv hs
theorem outWf_execKvcommit (w : EpW) {s : State} (hs : Memory.wf s.mem = true) : outWf (execKvcommit w s) := outWf_fireKv hs
theorem outWf_execKvabort (w : EpW) {s : State} (hs : Memory.wf s.mem = true) : outWf (execKvabort w s) := outWf_fireKv hs
theorem outWf_execKvlen (w : EpW) {s : State} (hs : Memory.wf s.mem = true) : outWf (execKvlen w s) := outWf_fireKv hs
theorem outWf_execKvclose (w : EpW) {s : State} (hs : Memory.wf s.mem = true) : outWf (execKvclose w s) := outWf_fireKv hs
theorem outWf_execKvsend (w : EpW) (sub : BitVec 8) {s : State} (hs : Memory.wf s.mem = true) : outWf (execKvsend w sub s) := outWf_fireKv hs
theorem outWf_execKvarm (w : EpW) {s : State} (hs : Memory.wf s.mem = true) : outWf (execKvarm w s) := outWf_fireKv hs
theorem outWf_execKvsnap (w : EpW) {s : State} (hs : Memory.wf s.mem = true) : outWf (execKvsnap w s) := outWf_fireKv hs
theorem outWf_execBarA (w : EpW) {s : State} (hs : Memory.wf s.mem = true) : outWf (execBarA w s) := outWf_fireBar hs
theorem outWf_execBarW (w : EpW) {s : State} (hs : Memory.wf s.mem = true) : outWf (execBarW w s) := outWf_fireBar hs
theorem outWf_execBarAw (w : EpW) {s : State} (hs : Memory.wf s.mem = true) : outWf (execBarAw w s) := outWf_fireBar hs
theorem outWf_execBarLv (w : EpW) {s : State} (hs : Memory.wf s.mem = true) : outWf (execBarLv w s) := outWf_fireBar hs
theorem outWf_execMsend (w : EpW) {s : State} (hs : Memory.wf s.mem = true) : outWf (execMsend w s) := outWf_fireMsend hs
theorem outWf_execBind (u1 : EpW) {s : State} (hs : Memory.wf s.mem = true) : outWf (execBind u1 s) := outWf_fireBind hs
theorem outWf_execYield (u1 : EpW) {s : State} (hs : Memory.wf s.mem = true) : outWf (execYield u1 s) := outWf_fireYield hs
theorem outWf_execYieldWait (u1 : EpW) {s : State} (hs : Memory.wf s.mem = true) : outWf (execYieldWait u1 s) := outWf_fireYield hs
theorem outWf_execEndTask (u1 : EpW) {s : State} (hs : Memory.wf s.mem = true) : outWf (execEndTask u1 s) := outWf_fireEnd hs
theorem outWf_execWaitseq (u1 : EpW) {s : State} (hs : Memory.wf s.mem = true) : outWf (execWaitseq u1 s) := outWf_fireWaitseq hs
theorem outWf_execTrap (u1 : EpW) {s : State} (hs : Memory.wf s.mem = true) : outWf (execTrap u1 s) := outWf_fireTrap hs
theorem outWf_execEret (u1 : EpW) {s : State} (hs : Memory.wf s.mem = true) : outWf (execEret u1 s) := outWf_fireEret hs
theorem outWf_execSysrd (u1 : EpW) {s : State} (hs : Memory.wf s.mem = true) : outWf (execSysrd u1 s) := outWf_fireSysrd hs
theorem outWf_execSyswr (u1 : EpW) {s : State} (hs : Memory.wf s.mem = true) : outWf (execSyswr u1 s) := outWf_fireSyswr hs
theorem outWf_execTlbinvPg (u1 : EpW) {s : State} (hs : Memory.wf s.mem = true) : outWf (execTlbinvPg u1 s) := outWf_fireTlbinv hs
theorem outWf_execTlbinvAll (u1 : EpW) {s : State} (hs : Memory.wf s.mem = true) : outWf (execTlbinvAll u1 s) := outWf_fireTlbinv hs
theorem outWf_execLaunch (u1 : EpW) {s : State} (hs : Memory.wf s.mem = true) : outWf (execLaunch u1 s) := outWf_fireLaunch hs
theorem outWf_execPmrd (u1 : EpW) {s : State} (hs : Memory.wf s.mem = true) : outWf (execPmrd u1 s) := outWf_firePmrd hs
theorem outWf_execSmm (h : Husk) {s : State} (hs : Memory.wf s.mem = true) : outWf (execSmm h s) := outWf_fireSeed (fun _ => seedOk_seedMatrix hs) hs
theorem outWf_execSmmz (h : Husk) {s : State} (hs : Memory.wf s.mem = true) : outWf (execSmmz h s) := outWf_fireSeed (fun _ => seedOk_seedMatrix hs) hs
theorem outWf_execSvec (h : Husk) {s : State} (hs : Memory.wf s.mem = true) : outWf (execSvec h s) := outWf_fireSeed (fun _ => seedOk_seedSvec hs) hs
theorem outWf_execSbias (h : Husk) {s : State} (hs : Memory.wf s.mem = true) : outWf (execSbias h s) := outWf_fireSeed (fun _ => seedOk_seedSbias hs) hs
theorem outWf_execSnorm (h : Husk) {s : State} (hs : Memory.wf s.mem = true) : outWf (execSnorm h s) := outWf_fireSeed (fun _ => seedOk_seedSnorm hs) hs
theorem outWf_execSact (h : Husk) {s : State} (hs : Memory.wf s.mem = true) : outWf (execSact h s) := outWf_fireSeed (fun _ => seedOk_seedSact hs) hs
theorem outWf_execSdrain (h : Husk) {s : State} (hs : Memory.wf s.mem = true) : outWf (execSdrain h s) := outWf_fireSeed (fun _ => seedOk_seedSdrain hs) hs
theorem outWf_execSjump (h : Husk) {s : State} (hs : Memory.wf s.mem = true) : outWf (execSjump h s) := outWf_fireSeed (fun _ => seedOk_seedSjump hs) hs
theorem outWf_execScall (h : Husk) {s : State} (hs : Memory.wf s.mem = true) : outWf (execScall h s) := outWf_fireSeed (fun _ => seedOk_seedScall hs) hs
theorem outWf_execSexit (h : Husk) {s : State} (hs : Memory.wf s.mem = true) : outWf (execSexit h s) := outWf_fireSeed (fun _ => seedOk_seedSexit hs) hs
theorem outWf_execSbar (h : Husk) {s : State} (hs : Memory.wf s.mem = true) : outWf (execSbar h s) := outWf_fireSbar hs
theorem outWf_execSpad (h : Husk) {s : State} (hs : Memory.wf s.mem = true) : outWf (execSpad h s) := outWf_fireSeed (fun _ => seedOk_seedSpad hs) hs
theorem outWf_execSembed (h : Husk) {s : State} (hs : Memory.wf s.mem = true) : outWf (execSembed h s) := outWf_fireSeed (fun _ => seedOk_seedSembed hs) hs
theorem outWf_execTokenArrival (core slot port : Nat) {s : State} (hs : Memory.wf s.mem = true) : outWf (execTokenArrival core slot port s) := outWf_next (wf_tokenArriveMove hs)
theorem outWf_execPhaseEnd (core : Nat) {s : State} (hs : Memory.wf s.mem = true) : outWf (execPhaseEnd core s) := outWf_next (wf_phaseEndMove hs)
theorem outWf_execMessageArrival (n : Nat) {s : State} (hs : Memory.wf s.mem = true) : outWf (execMessageArrival n s) := outWf_next (wf_messageArrive hs)
theorem outWf_execWaitOrphan (core : Nat) {s : State} (hs : Memory.wf s.mem = true) : outWf (execWaitOrphan core s) := outWf_next (wf_waitOrphanMove hs)
theorem outWf_execMemoryResponse (core task n : Nat) {s : State} (hs : Memory.wf s.mem = true) : outWf (execMemoryResponse core task n s) := outWf_next (wf_memoryResponse hs)
theorem outWf_execStoreDrain (core n : Nat) {s : State} (hs : Memory.wf s.mem = true) : outWf (execStoreDrain core n s) := outWf_next (wf_storeDrainMove hs)
theorem outWf_execL1Evict (core loc : Nat) {s : State} (hs : Memory.wf s.mem = true) : outWf (execL1Evict core loc s) := outWf_next (wf_evictMove hs)
theorem outWf_execAwaitPoll (core task n : Nat) {s : State} (hs : Memory.wf s.mem = true) : outWf (execAwaitPoll core task n s) := outWf_next (wf_awaitPollMove hs)
theorem outWf_execAwaitTimeout (core task n : Nat) {s : State} (hs : Memory.wf s.mem = true) : outWf (execAwaitTimeout core task n s) := outWf_next (wf_awaitTimeoutMove hs)
theorem outWf_execPodFenceComplete (switch : Nat) {s : State} (hs : Memory.wf s.mem = true) : outWf (execPodFenceComplete switch s) := outWf_next (wf_podFenceMove hs)
theorem outWf_execCardStart (core task chain seq : Nat) {s : State} (hs : Memory.wf s.mem = true) : outWf (execCardStart core task chain seq s) := outWf_next (wf_cardStartMove hs)
theorem outWf_execCardFault (core task chain seq : Nat) {s : State} (hs : Memory.wf s.mem = true) : outWf (execCardFault core task chain seq s) := outWf_next (wf_cardFaultStep hs)
theorem outWf_execCardComplete (core task chain seq : Nat) {s : State} (hs : Memory.wf s.mem = true) : outWf (execCardComplete core task chain seq s) := outWf_next (wf_cardCompleteMove hs)
theorem outWf_execTileTaskTake (quad : Nat) {s : State} (hs : Memory.wf s.mem = true) : outWf (execTileTaskTake quad s) := outWf_next (wf_tileTakeMove hs)
theorem outWf_execPowerGrant (die : Nat) {s : State} (hs : Memory.wf s.mem = true) : outWf (execPowerGrant die s) := outWf_next (wf_powerGrant hs)
theorem outWf_execForcedGrant (die n : Nat) {s : State} (hs : Memory.wf s.mem = true) : outWf (execForcedGrant die n s) := outWf_next (wf_forcedGrant hs)
theorem outWf_execPass (chan : Nat) {s : State} (hs : Memory.wf s.mem = true) : outWf (execPass chan s) := outWf_next (wf_passMove hs)
theorem outWf_execRefreshSlot (chan : Nat) {s : State} (hs : Memory.wf s.mem = true) : outWf (execRefreshSlot chan s) := outWf_next (wf_refreshMove hs)
theorem outWf_execDirectSlot (chan : Nat) {s : State} (hs : Memory.wf s.mem = true) : outWf (execDirectSlot chan s) := outWf_next (wf_directMove hs)
theorem outWf_execRiderAdmit (ticket chan : Nat) {s : State} (hs : Memory.wf s.mem = true) : outWf (execRiderAdmit ticket chan s) := outWf_next (wf_riderAdmit hs)
theorem outWf_execRiderAlight (ticket : Nat) {s : State} (hs : Memory.wf s.mem = true) : outWf (execRiderAlight ticket s) := outWf_next (wf_riderAlight hs)
theorem outWf_execKvsendLayerFlag (send : Nat) {s : State} (hs : Memory.wf s.mem = true) : outWf (execKvsendLayerFlag send s) := outWf_next (wf_layerFlag hs)
theorem outWf_execSeedIntake (core : Nat) {s : State} (hs : Memory.wf s.mem = true) : outWf (execSeedIntake core s) := outWf_next (wf_seedIntakeMove hs)
theorem outWf_execSeedStart (core task : Nat) {s : State} (hs : Memory.wf s.mem = true) : outWf (execSeedStart core task s) := outWf_next (wf_seedStartMove hs)
theorem outWf_execTaskRetire (core task : Nat) {s : State} (hs : Memory.wf s.mem = true) : outWf (execTaskRetire core task s) := outWf_next (wf_taskRetireMove hs)
theorem outWf_execRecordTake (fn queue : Nat) {s : State} (hs : Memory.wf s.mem = true) : outWf (execRecordTake fn queue s) := outWf_next (wf_recordTakeMove hs)
theorem outWf_execPickPass {s : State} (hs : Memory.wf s.mem = true) : outWf (execPickPass s) := outWf_next (wf_pickPassMove hs)
theorem outWf_execLift (job : Nat) {s : State} (hs : Memory.wf s.mem = true) : outWf (execLift job s) := outWf_next (wf_liftMove hs)
theorem outWf_execDeferExpiry (job : Nat) {s : State} (hs : Memory.wf s.mem = true) : outWf (execDeferExpiry job s) := outWf_next (wf_deferExpiryMove hs)
theorem outWf_execCutComplete (job : Nat) {s : State} (hs : Memory.wf s.mem = true) : outWf (execCutComplete job s) := outWf_next (wf_cutCompleteMove hs)
theorem outWf_execSweeplenWrite (chan : Nat) (v : Word32) {s : State} (hs : Memory.wf s.mem = true) : outWf (execSweeplenWrite chan v s) := outWf_next (wf_writeSweeplen hs)
theorem outWf_execDshrWrite (chan : Nat) (v : Word32) {s : State} (hs : Memory.wf s.mem = true) : outWf (execDshrWrite chan v s) := outWf_next (wf_writeDshr hs)
theorem outWf_execTrainRequest (chan : Nat) {s : State} (hs : Memory.wf s.mem = true) : outWf (execTrainRequest chan s) := outWf_next (wf_writeTrctl hs)
theorem outWf_execTrainExit (chan : Nat) {s : State} (hs : Memory.wf s.mem = true) : outWf (execTrainExit chan s) := outWf_next (wf_writeTrctl hs)
theorem outWf_execTrcmdReadTest (chan : Nat) (seed : BitVec 16) {s : State} (hs : Memory.wf s.mem = true) : outWf (execTrcmdReadTest chan seed s) := outWf_next (wf_startTest hs)
theorem outWf_execTrcmdWriteTest (chan : Nat) (seed : BitVec 16) {s : State} (hs : Memory.wf s.mem = true) : outWf (execTrcmdWriteTest chan seed s) := outWf_next (wf_startTest hs)
theorem outWf_execTrainingTestDone (chan : Nat) (lanes : Word64) (spares : BitVec 2) {s : State} (hs : Memory.wf s.mem = true) : outWf (execTrainingTestDone chan lanes spares s) := outWf_next (wf_endTest hs)
theorem outWf_execRepairWrite (chan : Nat) (v : Word32) {s : State} (hs : Memory.wf s.mem = true) : outWf (execRepairWrite chan v s) := outWf_next (wf_writeRepair hs)
theorem outWf_execPtrootWrite (part : Nat) (v : Word64) {s : State} (hs : Memory.wf s.mem = true) : outWf (execPtrootWrite part v s) := outWf_next (wf_writePtroot hs)
theorem outWf_execKvPoolWrite (part reg : Nat) (v : Word64) {s : State} (hs : Memory.wf s.mem = true) : outWf (execKvPoolWrite part reg v s) := outWf_next (wf_writeKvPool hs)
theorem outWf_execPabudgetWrite (die : Nat) (v : Word32) {s : State} (hs : Memory.wf s.mem = true) : outWf (execPabudgetWrite die v s) := outWf_next (wf_writePabudget hs)
theorem outWf_execOppointWrite (v : Word32) {s : State} (hs : Memory.wf s.mem = true) : outWf (execOppointWrite v s) := outWf_next (wf_writeOppoint hs)
theorem outWf_execOppointChangeDone {s : State} (hs : Memory.wf s.mem = true) : outWf (execOppointChangeDone s) := outWf_next (wf_oppointDone hs)
theorem outWf_execSysregWrite (by_ : RegBy) (num : Nat) (v : BitVec 512) {s : State} (hs : Memory.wf s.mem = true) : outWf (execSysregWrite by_ num v s) := outWf_next (wf_sysregMove hs)
theorem outWf_execLqtailWrite (fn queue : Nat) (v : Word32) {s : State} (hs : Memory.wf s.mem = true) : outWf (execLqtailWrite fn queue v s) := outWf_next (wf_queueWrite (fun _ h => wf_writeLqtail h) hs)
theorem outWf_execLqsizeWrite (fn queue : Nat) (v : Word32) {s : State} (hs : Memory.wf s.mem = true) : outWf (execLqsizeWrite fn queue v s) := outWf_next (wf_queueWrite (fun _ h => wf_writeLqsize h) hs)
theorem outWf_execLqbaseWrite (fn queue : Nat) (v : Word64) {s : State} (hs : Memory.wf s.mem = true) : outWf (execLqbaseWrite fn queue v s) := outWf_next (wf_queueWrite (fun _ h => wf_writeLqbase h) hs)
theorem outWf_execWinbaseWrite (fn : Nat) (v : Word64) {s : State} (hs : Memory.wf s.mem = true) : outWf (execWinbaseWrite fn v s) := outWf_next (wf_writeWinbase hs)
theorem outWf_execWinerrClear (fn : Nat) (v : Word64) {s : State} (hs : Memory.wf s.mem = true) : outWf (execWinerrClear fn v s) := outWf_next (wf_clearWinerr hs)
theorem outWf_execHostWindowWrite (fn off : Nat) (bytes : List Byte) (poisoned : Bool) {s : State} (hs : Memory.wf s.mem = true) : outWf (execHostWindowWrite fn off bytes poisoned s) := outWf_next (wf_windowWrite hs)
theorem outWf_execHostWindowRead (fn off len : Nat) {s : State} (hs : Memory.wf s.mem = true) : outWf (execHostWindowRead fn off len s) := outWf_next (wf_windowRead hs)
theorem outWf_execHostAtomicopRequest (fn : Nat) {s : State} (hs : Memory.wf s.mem = true) : outWf (execHostAtomicopRequest fn s) := outWf_next (wf_hostAtomic hs)
theorem outWf_execHostCompletionTimeout (core task n : Nat) {s : State} (hs : Memory.wf s.mem = true) : outWf (execHostCompletionTimeout core task n s) := outWf_next (wf_hostTimeout hs)
theorem outWf_execMsixUnmask (fn vec : Nat) {s : State} (hs : Memory.wf s.mem = true) : outWf (execMsixUnmask fn vec s) := outWf_next (wf_unmaskVector hs)
theorem outWf_execFunctionLevelReset (fn : Nat) {s : State} (hs : Memory.wf s.mem = true) : outWf (execFunctionLevelReset fn s) := outWf_next (wf_functionReset hs)
theorem outWf_execVfEnableClear {s : State} (hs : Memory.wf s.mem = true) : outWf (execVfEnableClear s) := outWf_next (wf_clearVfs hs)
theorem outWf_execRemoteRequest (r : RemoteReq) {s : State} (hs : Memory.wf s.mem = true) : outWf (execRemoteRequest r s) := outWf_next (wf_remoteRequestMove hs)
theorem outWf_execFlitData (port : Nat) (f : Flit) {s : State} (hs : Memory.wf s.mem = true) : outWf (execFlitData port f s) := outWf_next (wf_receiveFlit hs)
theorem outWf_execFlitIdle (port : Nat) (f : Flit) {s : State} (hs : Memory.wf s.mem = true) : outWf (execFlitIdle port f s) := outWf_next (wf_receiveFlit hs)
theorem outWf_execFlitReplayRequest (port : Nat) (f : Flit) {s : State} (hs : Memory.wf s.mem = true) : outWf (execFlitReplayRequest port f s) := outWf_next (wf_replayRequest hs)
theorem outWf_execFlitLinkControl (port : Nat) (f : Flit) {s : State} (hs : Memory.wf s.mem = true) : outWf (execFlitLinkControl port f s) := outWf_next (wf_receiveFlit hs)
theorem outWf_execPortUp (port switch swport : Nat) {s : State} (hs : Memory.wf s.mem = true) : outWf (execPortUp port switch swport s) := outWf_next (wf_portUpMove hs)
theorem outWf_execReset (img : Image) {s : State} (hs : Memory.wf s.mem = true) : outWf (execReset img s) := outWf_next (wf_resetMove hs)
theorem outWf_execBootcmdImage (img : Image) {s : State} (hs : Memory.wf s.mem = true) : outWf (execBootcmdImage img s) := outWf_next (wf_unlessBusy (fun _ h => wf_bootImage h) hs)
theorem outWf_execBootcmdConfig (blk : ConfigBlock) {s : State} (hs : Memory.wf s.mem = true) : outWf (execBootcmdConfig blk s) := outWf_next (wf_unlessBusy (fun _ h => wf_bootConfig h) hs)
theorem outWf_execGetVersion (m : SpdmMsg) {s : State} (hs : Memory.wf s.mem = true) : outWf (execGetVersion m s) := outWf_next (wf_spdmVersionMove hs)
theorem outWf_execGetCapabilities (m : SpdmMsg) {s : State} (hs : Memory.wf s.mem = true) : outWf (execGetCapabilities m s) := outWf_next (wf_spdmCapabilities hs)
theorem outWf_execNegotiateAlgorithms (m : SpdmMsg) {s : State} (hs : Memory.wf s.mem = true) : outWf (execNegotiateAlgorithms m s) := outWf_next (wf_spdmAlgorithms hs)
theorem outWf_execGetDigests (m : SpdmMsg) {s : State} (hs : Memory.wf s.mem = true) : outWf (execGetDigests m s) := outWf_next (wf_spdmRequest hs)
theorem outWf_execGetCertificate (m : SpdmMsg) {s : State} (hs : Memory.wf s.mem = true) : outWf (execGetCertificate m s) := outWf_next (wf_spdmCertificate hs)
theorem outWf_execChallenge (m : SpdmMsg) {s : State} (hs : Memory.wf s.mem = true) : outWf (execChallenge m s) := outWf_next (wf_spdmRequest hs)
theorem outWf_execGetMeasurements (m : SpdmMsg) {s : State} (hs : Memory.wf s.mem = true) : outWf (execGetMeasurements m s) := outWf_next (wf_spdmRequest hs)
theorem outWf_execFrzLAssert {s : State} (hs : Memory.wf s.mem = true) : outWf (execFrzLAssert s) := outWf_next (wf_assertFreeze hs)
theorem outWf_execFreezectlWrite (v : Word32) {s : State} (hs : Memory.wf s.mem = true) : outWf (execFreezectlWrite v s) := outWf_next (wf_writeFreeze hs)
theorem outWf_execFrzLRelease {s : State} (hs : Memory.wf s.mem = true) : outWf (execFrzLRelease s) := outWf_next (wf_releaseFreeze hs)
theorem outWf_execResume {s : State} (hs : Memory.wf s.mem = true) : outWf (execResume s) := outWf_next (wf_resumeClocks hs)
theorem outWf_execWriteCombiningSend (n : Nat) {s : State} (hs : Memory.wf s.mem = true) : outWf (execWriteCombiningSend n s) := outWf_next (wf_wcSend hs)

/-- Every instruction keeps memory in canonical form. -/
theorem outWf_exec (i : Instr) {s : State} (hs : Memory.wf s.mem = true) : outWf (exec i s) := by
  cases i with
  | vadd a0 => exact outWf_execVadd a0 hs
  | vsub a0 => exact outWf_execVsub a0 hs
  | vaddsat a0 => exact outWf_execVaddsat a0 hs
  | vsubsat a0 => exact outWf_execVsubsat a0 hs
  | vmul a0 => exact outWf_execVmul a0 hs
  | vmulhi a0 => exact outWf_execVmulhi a0 hs
  | vmad a0 => exact outWf_execVmad a0 hs
  | vneg a0 => exact outWf_execVneg a0 hs
  | vabs a0 => exact outWf_execVabs a0 hs
  | vmin a0 => exact outWf_execVmin a0 hs
  | vmax a0 => exact outWf_execVmax a0 hs
  | vand a0 => exact outWf_execVand a0 hs
  | vor a0 => exact outWf_execVor a0 hs
  | vxor a0 => exact outWf_execVxor a0 hs
  | vandn a0 => exact outWf_execVandn a0 hs
  | vshl a0 => exact outWf_execVshl a0 hs
  | vshr a0 => exact outWf_execVshr a0 hs
  | vsra a0 => exact outWf_execVsra a0 hs
  | vrotl a0 => exact outWf_execVrotl a0 hs
  | vclz a0 => exact outWf_execVclz a0 hs
  | vpopc a0 => exact outWf_execVpopc a0 hs
  | vcmp a0 => exact outWf_execVcmp a0 hs
  | vsel a0 => exact outWf_execVsel a0 hs
  | vext a0 => exact outWf_execVext a0 hs
  | vbfx a0 => exact outWf_execVbfx a0 hs
  | vbfi a0 => exact outWf_execVbfi a0 hs
  | const a0 => exact outWf_execConst a0 hs
  | dup a0 => exact outWf_execDup a0 hs
  | rdb a0 => exact outWf_execRdb a0 hs
  | wrb a0 => exact outWf_execWrb a0 hs
  | itr a0 => exact outWf_execItr a0 hs
  | lidx a0 => exact outWf_execLidx a0 hs
  | mkpred a0 => exact outWf_execMkpred a0 hs
  | nul a0 => exact outWf_execNul a0 hs
  | lred a0 => exact outWf_execLred a0 hs
  | lscan a0 => exact outWf_execLscan a0 hs
  | lbcast a0 => exact outWf_execLbcast a0 hs
  | lshift a0 => exact outWf_execLshift a0 hs
  | lperm a0 => exact outWf_execLperm a0 hs
  | lpack a0 => exact outWf_execLpack a0 hs
  | lcount a0 => exact outWf_execLcount a0 hs
  | fadd a0 => exact outWf_execFadd a0 hs
  | fsub a0 => exact outWf_execFsub a0 hs
  | fmul a0 => exact outWf_execFmul a0 hs
  | fma a0 => exact outWf_execFma a0 hs
  | fnma a0 => exact outWf_execFnma a0 hs
  | fmin a0 => exact outWf_execFmin a0 hs
  | fmax a0 => exact outWf_execFmax a0 hs
  | fabs a0 => exact outWf_execFabs a0 hs
  | fneg a0 => exact outWf_execFneg a0 hs
  | fcpsgn a0 => exact outWf_execFcpsgn a0 hs
  | fcmp a0 => exact outWf_execFcmp a0 hs
  | fclass a0 => exact outWf_execFclass a0 hs
  | frnd a0 => exact outWf_execFrnd a0 hs
  | fscaleb a0 => exact outWf_execFscaleb a0 hs
  | fgetexp a0 => exact outWf_execFgetexp a0 hs
  | fgetman a0 => exact outWf_execFgetman a0 hs
  | frcp a0 => exact outWf_execFrcp a0 hs
  | frsq a0 => exact outWf_execFrsq a0 hs
  | fsqrt a0 => exact outWf_execFsqrt a0 hs
  | fexp2 a0 => exact outWf_execFexp2 a0 hs
  | flog2 a0 => exact outWf_execFlog2 a0 hs
  | ftanh a0 => exact outWf_execFtanh a0 hs
  | fsin a0 => exact outWf_execFsin a0 hs
  | fcos a0 => exact outWf_execFcos a0 hs
  | fsigm a0 => exact outWf_execFsigm a0 hs
  | smref a0 => exact outWf_execSmref a0 hs
  | smexp a0 => exact outWf_execSmexp a0 hs
  | cvt a0 => exact outWf_execCvt a0 hs
  | cvti a0 => exact outWf_execCvti a0 hs
  | cvtf a0 => exact outWf_execCvtf a0 hs
  | blkpack a0 => exact outWf_execBlkpack a0 hs
  | blkunpack a0 => exact outWf_execBlkunpack a0 hs
  | blkscale a0 => exact outWf_execBlkscale a0 hs
  | bpc a0 => exact outWf_execBpc a0 hs
  | bpx a0 => exact outWf_execBpx a0 hs
  | ldSp a0 => exact outWf_execLdSp a0 hs
  | stSp a0 => exact outWf_execStSp a0 hs
  | ldD a0 => exact outWf_execLdD a0 hs
  | stD a0 => exact outWf_execStD a0 hs
  | ldt a0 => exact outWf_execLdt a0 hs
  | stt a0 => exact outWf_execStt a0 hs
  | ldg a0 => exact outWf_execLdg a0 hs
  | stg a0 => exact outWf_execStg a0 hs
  | cbpush a0 => exact outWf_execCbpush a0 hs
  | cbpop a0 => exact outWf_execCbpop a0 hs
  | cbpeek a0 => exact outWf_execCbpeek a0 hs
  | cbstat a0 => exact outWf_execCbstat a0 hs
  | fence a0 => exact outWf_execFence a0 hs
  | aadd a0 => exact outWf_execAadd a0 hs
  | amin a0 => exact outWf_execAmin a0 hs
  | amax a0 => exact outWf_execAmax a0 hs
  | aand a0 => exact outWf_execAand a0 hs
  | aor a0 => exact outWf_execAor a0 hs
  | axor a0 => exact outWf_execAxor a0 hs
  | axchg a0 => exact outWf_execAxchg a0 hs
  | acas a0 => exact outWf_execAcas a0 hs
  | aaddw a0 => exact outWf_execAaddw a0 hs
  | await a0 => exact outWf_execAwait a0 hs
  | afadd a0 => exact outWf_execAfadd a0 hs
  | steer a0 => exact outWf_execSteer a0 hs
  | carry a0 => exact outWf_execCarry a0 hs
  | inv a0 => exact outWf_execInv a0 hs
  | mergeSel a0 => exact outWf_execMergeSel a0 hs
  | mergeAny a0 => exact outWf_execMergeAny a0 hs
  | fan a0 => exact outWf_execFan a0 hs
  | join a0 => exact outWf_execJoin a0 hs
  | order a0 => exact outWf_execOrder a0 hs
  | exitSel a0 => exact outWf_execExitSel a0 hs
  | exitCall a0 => exact outWf_execExitCall a0 hs
  | exitRet a0 => exact outWf_execExitRet a0 hs
  | exitJump a0 => exact outWf_execExitJump a0 hs
  | exitBr a0 => exact outWf_execExitBr a0 hs
  | gatePass a0 => exact outWf_execGatePass a0 hs
  | gateBrk a0 => exact outWf_execGateBrk a0 hs
  | nulchkIsnull a0 => exact outWf_execNulchkIsnull a0 hs
  | nulchkPresent a0 => exact outWf_execNulchkPresent a0 hs
  | reord a0 => exact outWf_execReord a0 hs
  | xpose a0 => exact outWf_execXpose a0 hs
  | corner a0 => exact outWf_execCorner a0 hs
  | mlatch a0 a1 => exact outWf_execMlatch a0 a1 hs
  | mstream a0 a1 => exact outWf_execMstream a0 a1 hs
  | mdrain a0 a1 => exact outWf_execMdrain a0 a1 hs
  | accclr a0 a1 => exact outWf_execAccclr a0 a1 hs
  | accscale a0 a1 => exact outWf_execAccscale a0 a1 hs
  | accld a0 a1 => exact outWf_execAccld a0 a1 hs
  | accst a0 a1 => exact outWf_execAccst a0 a1 hs
  | mxv a0 a1 => exact outWf_execMxv a0 a1 hs
  | munfold a0 a1 => exact outWf_execMunfold a0 a1 hs
  | brd a0 => exact outWf_execBrd a0 hs
  | bsum a0 => exact outWf_execBsum a0 hs
  | bflt a0 => exact outWf_execBflt a0 hs
  | bdep a0 => exact outWf_execBdep a0 hs
  | bupdIadd a0 => exact outWf_execBupdIadd a0 hs
  | bupdFadd a0 => exact outWf_execBupdFadd a0 hs
  | bupdImin a0 => exact outWf_execBupdImin a0 hs
  | bupdImax a0 => exact outWf_execBupdImax a0 hs
  | bupdAnd a0 => exact outWf_execBupdAnd a0 hs
  | bupdOr a0 => exact outWf_execBupdOr a0 hs
  | bupdXor a0 => exact outWf_execBupdXor a0 hs
  | bupdSet a0 => exact outWf_execBupdSet a0 hs
  | bmac a0 => exact outWf_execBmac a0 hs
  | batt a0 => exact outWf_execBatt a0 hs
  | bclone a0 => exact outWf_execBclone a0 hs
  | bcfg a0 => exact outWf_execBcfg a0 hs
  | bcancel a0 => exact outWf_execBcancel a0 hs
  | bwait a0 => exact outWf_execBwait a0 hs
  | wdrive a0 => exact outWf_execWdrive a0 hs
  | bstandRd a0 => exact outWf_execBstandRd a0 hs
  | bstandSum a0 => exact outWf_execBstandSum a0 hs
  | bstandFlt a0 => exact outWf_execBstandFlt a0 hs
  | bstandAtt a0 => exact outWf_execBstandAtt a0 hs
  | cursor a0 => exact outWf_execCursor a0 hs
  | copy a0 a1 => exact outWf_execCopy a0 a1 hs
  | coll a0 a1 => exact outWf_execColl a0 a1 hs
  | ringx a0 a1 => exact outWf_execRingx a0 a1 hs
  | kvopen a0 => exact outWf_execKvopen a0 hs
  | kvfork a0 => exact outWf_execKvfork a0 hs
  | kvreserve a0 => exact outWf_execKvreserve a0 hs
  | kvwin a0 => exact outWf_execKvwin a0 hs
  | kvcommit a0 => exact outWf_execKvcommit a0 hs
  | kvabort a0 => exact outWf_execKvabort a0 hs
  | kvlen a0 => exact outWf_execKvlen a0 hs
  | kvclose a0 => exact outWf_execKvclose a0 hs
  | kvsend a0 a1 => exact outWf_execKvsend a0 a1 hs
  | kvarm a0 => exact outWf_execKvarm a0 hs
  | kvsnap a0 => exact outWf_execKvsnap a0 hs
  | barA a0 => exact outWf_execBarA a0 hs
  | barW a0 => exact outWf_execBarW a0 hs
  | barAw a0 => exact outWf_execBarAw a0 hs
  | barLv a0 => exact outWf_execBarLv a0 hs
  | msend a0 => exact outWf_execMsend a0 hs
  | bind a0 => exact outWf_execBind a0 hs
  | yield a0 => exact outWf_execYield a0 hs
  | yieldWait a0 => exact outWf_execYieldWait a0 hs
  | endTask a0 => exact outWf_execEndTask a0 hs
  | waitseq a0 => exact outWf_execWaitseq a0 hs
  | trap a0 => exact outWf_execTrap a0 hs
  | eret a0 => exact outWf_execEret a0 hs
  | sysrd a0 => exact outWf_execSysrd a0 hs
  | syswr a0 => exact outWf_execSyswr a0 hs
  | tlbinvPg a0 => exact outWf_execTlbinvPg a0 hs
  | tlbinvAll a0 => exact outWf_execTlbinvAll a0 hs
  | launch a0 => exact outWf_execLaunch a0 hs
  | pmrd a0 => exact outWf_execPmrd a0 hs
  | smm a0 => exact outWf_execSmm a0 hs
  | smmz a0 => exact outWf_execSmmz a0 hs
  | svec a0 => exact outWf_execSvec a0 hs
  | sbias a0 => exact outWf_execSbias a0 hs
  | snorm a0 => exact outWf_execSnorm a0 hs
  | sact a0 => exact outWf_execSact a0 hs
  | sdrain a0 => exact outWf_execSdrain a0 hs
  | sjump a0 => exact outWf_execSjump a0 hs
  | scall a0 => exact outWf_execScall a0 hs
  | sexit a0 => exact outWf_execSexit a0 hs
  | sbar a0 => exact outWf_execSbar a0 hs
  | spad a0 => exact outWf_execSpad a0 hs
  | sembed a0 => exact outWf_execSembed a0 hs
  | tokenArrival a0 a1 a2 => exact outWf_execTokenArrival a0 a1 a2 hs
  | phaseEnd a0 => exact outWf_execPhaseEnd a0 hs
  | messageArrival a0 => exact outWf_execMessageArrival a0 hs
  | waitOrphan a0 => exact outWf_execWaitOrphan a0 hs
  | memoryResponse a0 a1 a2 => exact outWf_execMemoryResponse a0 a1 a2 hs
  | storeDrain a0 a1 => exact outWf_execStoreDrain a0 a1 hs
  | l1Evict a0 a1 => exact outWf_execL1Evict a0 a1 hs
  | awaitPoll a0 a1 a2 => exact outWf_execAwaitPoll a0 a1 a2 hs
  | awaitTimeout a0 a1 a2 => exact outWf_execAwaitTimeout a0 a1 a2 hs
  | podFenceComplete a0 => exact outWf_execPodFenceComplete a0 hs
  | cardStart a0 a1 a2 a3 => exact outWf_execCardStart a0 a1 a2 a3 hs
  | cardFault a0 a1 a2 a3 => exact outWf_execCardFault a0 a1 a2 a3 hs
  | cardComplete a0 a1 a2 a3 => exact outWf_execCardComplete a0 a1 a2 a3 hs
  | tileTaskTake a0 => exact outWf_execTileTaskTake a0 hs
  | powerGrant a0 => exact outWf_execPowerGrant a0 hs
  | forcedGrant a0 a1 => exact outWf_execForcedGrant a0 a1 hs
  | pass a0 => exact outWf_execPass a0 hs
  | refreshSlot a0 => exact outWf_execRefreshSlot a0 hs
  | directSlot a0 => exact outWf_execDirectSlot a0 hs
  | riderAdmit a0 a1 => exact outWf_execRiderAdmit a0 a1 hs
  | riderAlight a0 => exact outWf_execRiderAlight a0 hs
  | kvsendLayerFlag a0 => exact outWf_execKvsendLayerFlag a0 hs
  | seedIntake a0 => exact outWf_execSeedIntake a0 hs
  | seedStart a0 a1 => exact outWf_execSeedStart a0 a1 hs
  | taskRetire a0 a1 => exact outWf_execTaskRetire a0 a1 hs
  | recordTake a0 a1 => exact outWf_execRecordTake a0 a1 hs
  | pickPass => exact outWf_execPickPass hs
  | lift a0 => exact outWf_execLift a0 hs
  | deferExpiry a0 => exact outWf_execDeferExpiry a0 hs
  | cutComplete a0 => exact outWf_execCutComplete a0 hs
  | sweeplenWrite a0 a1 => exact outWf_execSweeplenWrite a0 a1 hs
  | dshrWrite a0 a1 => exact outWf_execDshrWrite a0 a1 hs
  | trainRequest a0 => exact outWf_execTrainRequest a0 hs
  | trainExit a0 => exact outWf_execTrainExit a0 hs
  | trcmdReadTest a0 a1 => exact outWf_execTrcmdReadTest a0 a1 hs
  | trcmdWriteTest a0 a1 => exact outWf_execTrcmdWriteTest a0 a1 hs
  | trainingTestDone a0 a1 a2 => exact outWf_execTrainingTestDone a0 a1 a2 hs
  | repairWrite a0 a1 => exact outWf_execRepairWrite a0 a1 hs
  | ptrootWrite a0 a1 => exact outWf_execPtrootWrite a0 a1 hs
  | kvPoolWrite a0 a1 a2 => exact outWf_execKvPoolWrite a0 a1 a2 hs
  | pabudgetWrite a0 a1 => exact outWf_execPabudgetWrite a0 a1 hs
  | oppointWrite a0 => exact outWf_execOppointWrite a0 hs
  | oppointChangeDone => exact outWf_execOppointChangeDone hs
  | sysregWrite a0 a1 a2 => exact outWf_execSysregWrite a0 a1 a2 hs
  | lqtailWrite a0 a1 a2 => exact outWf_execLqtailWrite a0 a1 a2 hs
  | lqsizeWrite a0 a1 a2 => exact outWf_execLqsizeWrite a0 a1 a2 hs
  | lqbaseWrite a0 a1 a2 => exact outWf_execLqbaseWrite a0 a1 a2 hs
  | winbaseWrite a0 a1 => exact outWf_execWinbaseWrite a0 a1 hs
  | winerrClear a0 a1 => exact outWf_execWinerrClear a0 a1 hs
  | hostWindowWrite a0 a1 a2 a3 => exact outWf_execHostWindowWrite a0 a1 a2 a3 hs
  | hostWindowRead a0 a1 a2 => exact outWf_execHostWindowRead a0 a1 a2 hs
  | hostAtomicopRequest a0 => exact outWf_execHostAtomicopRequest a0 hs
  | hostCompletionTimeout a0 a1 a2 => exact outWf_execHostCompletionTimeout a0 a1 a2 hs
  | msixUnmask a0 a1 => exact outWf_execMsixUnmask a0 a1 hs
  | functionLevelReset a0 => exact outWf_execFunctionLevelReset a0 hs
  | vfEnableClear => exact outWf_execVfEnableClear hs
  | remoteRequest a0 => exact outWf_execRemoteRequest a0 hs
  | flitData a0 a1 => exact outWf_execFlitData a0 a1 hs
  | flitIdle a0 a1 => exact outWf_execFlitIdle a0 a1 hs
  | flitReplayRequest a0 a1 => exact outWf_execFlitReplayRequest a0 a1 hs
  | flitLinkControl a0 a1 => exact outWf_execFlitLinkControl a0 a1 hs
  | portUp a0 a1 a2 => exact outWf_execPortUp a0 a1 a2 hs
  | reset a0 => exact outWf_execReset a0 hs
  | bootcmdImage a0 => exact outWf_execBootcmdImage a0 hs
  | bootcmdConfig a0 => exact outWf_execBootcmdConfig a0 hs
  | getVersion a0 => exact outWf_execGetVersion a0 hs
  | getCapabilities a0 => exact outWf_execGetCapabilities a0 hs
  | negotiateAlgorithms a0 => exact outWf_execNegotiateAlgorithms a0 hs
  | getDigests a0 => exact outWf_execGetDigests a0 hs
  | getCertificate a0 => exact outWf_execGetCertificate a0 hs
  | challenge a0 => exact outWf_execChallenge a0 hs
  | getMeasurements a0 => exact outWf_execGetMeasurements a0 hs
  | frzLAssert => exact outWf_execFrzLAssert hs
  | freezectlWrite a0 => exact outWf_execFreezectlWrite a0 hs
  | frzLRelease => exact outWf_execFrzLRelease hs
  | resume => exact outWf_execResume hs
  | writeCombiningSend a0 => exact outWf_execWriteCombiningSend a0 hs

/-- A step that runs an instruction goes on and keeps memory in canonical form. -/
theorem outWf_runFetched {s : State} {focus : Nat × Nat} {i : Instr} (hs : Memory.wf s.mem = true) : outWf (runFetched s focus (some i)) :=
  outWf_exec i hs

end Sys2Proof.Machine
end

