-- ==== Sys2Proof/Laws/Stage.lean ====
section
/-! SUPPORT. What the stage instructions yield, from their functions, and the arithmetic of Wrap and Saturate (R97). -/

namespace Sys2Proof.Machine

/-- Elements compared one by one. -/
theorem holdsElems.congr2 {x : Token} {t : Nat} {m : BitVec 16} {r r' : Nat → Nat} (h : holdsElems x t m r)
    (hr : ∀ e, e < elemsPerToken t → r e = r' e) : holdsElems x t m r' := by
  refine ⟨h.1, h.2.1, fun e he => ?_⟩
  rw [h.2.2 e he, hr e he]

theorem wrapTo_lt (w : Nat) (x : Int) : wrapTo w x < 2 ^ w := by
  unfold wrapTo
  have h : (0:Int) < 2 ^ w := by positivity
  have h1 := Int.emod_nonneg x h.ne'
  have h2 := Int.emod_lt_of_pos x h
  zify
  rw [Int.toNat_of_nonneg h1]; exact h2

theorem wrapTo_mod (w : Nat) (x : Int) : wrapTo w x % 2 ^ w = wrapTo w x := Nat.mod_eq_of_lt (wrapTo_lt w x)

theorem elem_lt (x : Token) (t e : Nat) : x.elem t e < 2 ^ typeWidth t := bitsOf_lt _ _ _

/-- What an instruction yields whose function is elementwise: f on its operands' elements. -/
theorem yields_of {i : Instr} {w : StageW} {g : StageW → StageIn → StageOut} (hi : stageFn i = some (w, g)) (hw : i.op ≠ 0x23)
    {srcs : StageIn → List Token} (f : StageIn → List Nat → Nat × Flags) {r : StageIn → Nat → Nat × Flags}
    (hg : ∀ x, g w x = elementwise w.ty.toNat (srcs x) (f x))
    (h : ∀ x e, (f x ((srcs x).map fun y => y.elem w.ty.toNat e)).1 % 2 ^ typeWidth w.ty.toNat = (r x e).1 ∧ (f x ((srcs x).map fun y => y.elem w.ty.toNat e)).2 = (r x e).2) : stageYields i w srcs r := by
  refine stageYields_of hi hw fun x => ?_
  obtain ⟨y, hy, hh⟩ := elementwise_spec w.ty.toNat (srcs x) (f x)
  refine ⟨y, ?_, hh.congr2 fun e he => (h x e).1⟩
  rw [hg, hy]; congr 2; funext e; exact (h x e).2

/-- The same for a function that raises no status. -/
theorem quiet_of {i : Instr} {w : StageW} {g : StageW → StageIn → StageOut} (hi : stageFn i = some (w, g)) (hw : i.op ≠ 0x23)
    {srcs : StageIn → List Token} (f : StageIn → List Nat → Nat) {r : StageIn → Nat → Nat}
    (hg : ∀ x, g w x = elementwiseQuiet w.ty.toNat (srcs x) (f x))
    (h : ∀ x e, f x ((srcs x).map fun y => y.elem w.ty.toNat e) % 2 ^ typeWidth w.ty.toNat = r x e) : stageYields i w srcs (quietly r) :=
  yields_of hi hw (fun x xs => (f x xs, 0)) hg fun x e => ⟨h x e, rfl⟩

/-- Reading an integer and wrapping it gives the bits back (R97). -/
theorem decodeInt_wrap (t x : Nat) : wrapTo (typeWidth t) (decodeInt t x) = x % 2 ^ typeWidth t := by
  have h2 : (2:Int) ^ typeWidth t = ((2 ^ typeWidth t : Nat) : Int) := by push_cast; rfl
  unfold decodeInt wrapTo signedOf
  split
  · split
    · rw [h2, ← Int.natCast_mod, Int.toNat_natCast]; simp
    · rw [h2, Int.sub_emod_right, ← Int.natCast_mod, Int.toNat_natCast]; simp
  · rw [h2, ← Int.natCast_mod, Int.toNat_natCast]; simp

theorem decodeInt_wrap_elem (x : Token) (t e : Nat) : wrapTo (typeWidth t) (decodeInt t (x.elem t e)) = x.elem t e := by
  rw [decodeInt_wrap, Nat.mod_eq_of_lt (elem_lt x t e)]

/-- A value of a type is within its range (R97). -/
theorem sat_decode (t x : Nat) : max (intMin t) (min (intMax t) (decodeInt t x)) = decodeInt t x := by
  have hp := typeWidth_pos t
  obtain ⟨k, hk⟩ : ∃ k, typeWidth t = k + 1 := ⟨typeWidth t - 1, by omega⟩
  have hb := Nat.mod_lt x (Nat.two_pow_pos (k+1))
  have h2 : (2:Int) ^ (k+1) = ((2 ^ (k+1) : Nat) : Int) := by push_cast; rfl
  have h3 : (2:Int) ^ k = ((2 ^ k : Nat) : Int) := by push_cast; rfl
  have h4 := Nat.pow_succ 2 k
  unfold intMin intMax decodeInt signedOf
  rw [hk, Nat.add_sub_cancel, h2, h3]
  split
  · split <;> omega
  · omega

/-- The high half of a product of width 2w. -/
theorem wrapTo_hi (w : Nat) (n : Int) : wrapTo (2 * w) n / 2 ^ w = wrapTo w (n / 2 ^ w) := by
  unfold wrapTo
  have h : (0:Int) < 2 ^ w := by positivity
  have h2 : (0:Int) < 2 ^ (2*w) := by positivity
  zify
  rw [Int.toNat_of_nonneg (Int.emod_nonneg _ h2.ne'), Int.toNat_of_nonneg (Int.emod_nonneg _ h.ne')]
  have e : (2:Int) ^ (2*w) = 2^w * 2^w := by rw [two_mul, pow_add]
  rw [e]
  rw [Int.emod_def, Int.emod_def (n / 2^w)]
  have h3 : n / (2^w * 2^w) = n / 2^w / 2^w := by rw [Int.ediv_ediv_of_nonneg h.le]
  rw [h3, show n - 2^w * 2^w * (n / 2^w / 2^w) = n + 2^w * (-(2^w * (n/2^w/2^w))) by ring, Int.add_mul_ediv_left _ _ h.ne']
  ring


end Sys2Proof.Machine
end

