-- ==== Sys2Proof/Tests/Slice0.lean ====
section
/-! SUPPORT. Tests: one word of every instruction written from the spec's encoding tables, ill-formed terms that the checks
refuse, the spec's worked values, and states that meet the hypotheses of the statements. -/

namespace Sys2Proof.Machine

/-! One theorem after another, so that the kernel's work on them does not pile up in memory. -/

set_option Elab.async false

/-! Decoding. -/

def stageW : StageW := ⟨2, 0xB, 0x123, 0x0C5, 5, 2, 1, 0, 0xA6, 0x1234⟩
def memW : MemW := ⟨2, 0xB, 0x123, 0x0C5, 5, 1, 2, 1, 0x55, 0x2A, 0x9C3⟩
def cpW : CpW := ⟨2, 0xB, 0x123, 0x0C5, 0x0F1, 0x13E, 0x2B7⟩
def reW : ReW := ⟨2, 0xB, 0x123, 0x0C5, 0x81, 0x42, 0xF3, 0x1C⟩
def epW : EpW := ⟨2, 0xB, 0x123, 0x0C5, 5, 0x15A5A5⟩
def husk : Husk := ⟨6, 1, 2, 0x2A5C31, 0xDEADBEEF, 0x1234, 0x56, 0x78, 0x9AB, 0xC, 0xD7⟩

/-- Words of the stage class, each field by Tables 3.4 to 3.10, the opcode by Table 4.1. -/
theorem test_decode_stage_1 : ∀ p ∈ [
    (0x01AE46C5B4A61234#64, Instr.vadd stageW), (0x02AE46C5B4A61234#64, Instr.vsub stageW), (0x03AE46C5B4A61234#64, Instr.vaddsat stageW), 
    (0x04AE46C5B4A61234#64, Instr.vsubsat stageW), (0x05AE46C5B4A61234#64, Instr.vmul stageW), (0x06AE46C5B4A61234#64, Instr.vmulhi stageW), 
    (0x07AE46C5B4A61234#64, Instr.vmad stageW), (0x08AE46C5B4A61234#64, Instr.vneg stageW), (0x09AE46C5B4A61234#64, Instr.vabs stageW), 
    (0x0AAE46C5B4A61234#64, Instr.vmin stageW), (0x0BAE46C5B4A61234#64, Instr.vmax stageW), (0x0CAE46C5B4A61234#64, Instr.vand stageW), 
    (0x0DAE46C5B4A61234#64, Instr.vor stageW), (0x0EAE46C5B4A61234#64, Instr.vxor stageW), (0x0FAE46C5B4A61234#64, Instr.vandn stageW), 
    (0x10AE46C5B4A61234#64, Instr.vshl stageW), (0x11AE46C5B4A61234#64, Instr.vshr stageW), (0x12AE46C5B4A61234#64, Instr.vsra stageW), 
    (0x13AE46C5B4A61234#64, Instr.vrotl stageW), (0x14AE46C5B4A61234#64, Instr.vclz stageW), (0x15AE46C5B4A61234#64, Instr.vpopc stageW), 
    (0x16AE46C5B4A61234#64, Instr.vcmp stageW), (0x17AE46C5B4A61234#64, Instr.vsel stageW), (0x18AE46C5B4A61234#64, Instr.vext stageW), 
    (0x19AE46C5B4A61234#64, Instr.vbfx stageW), (0x1AAE46C5B4A61234#64, Instr.vbfi stageW)], decode p.1 = .ok p.2 := by decide

/-- Words of the stage class, each field by Tables 3.4 to 3.10, the opcode by Table 4.1. -/
theorem test_decode_stage_2 : ∀ p ∈ [
    (0x20AE46C5B4A61234#64, Instr.const stageW), (0x21AE46C5B4A61234#64, Instr.dup stageW), (0x22AE46C5B4A61234#64, Instr.rdb stageW), 
    (0x23AE46C5B4A61234#64, Instr.wrb stageW), (0x24AE46C5B4A61234#64, Instr.itr stageW), (0x25AE46C5B4A61234#64, Instr.lidx stageW), 
    (0x26AE46C5B4A61234#64, Instr.mkpred stageW), (0x27AE46C5B4A61234#64, Instr.nul stageW), (0x28AE46C5B4A61234#64, Instr.lred stageW), 
    (0x29AE46C5B4A61234#64, Instr.lscan stageW), (0x2AAE46C5B4A61234#64, Instr.lbcast stageW), (0x2BAE46C5B4A61234#64, Instr.lshift stageW), 
    (0x2CAE46C5B4A61234#64, Instr.lperm stageW), (0x2DAE46C5B4A61234#64, Instr.lpack stageW), (0x2EAE46C5B4A61234#64, Instr.lcount stageW), 
    (0x30AE46C5B4A61234#64, Instr.fadd stageW), (0x31AE46C5B4A61234#64, Instr.fsub stageW), (0x32AE46C5B4A61234#64, Instr.fmul stageW), 
    (0x33AE46C5B4A61234#64, Instr.fma stageW), (0x34AE46C5B4A61234#64, Instr.fnma stageW), (0x35AE46C5B4A61234#64, Instr.fmin stageW), 
    (0x36AE46C5B4A61234#64, Instr.fmax stageW), (0x37AE46C5B4A61234#64, Instr.fabs stageW), (0x38AE46C5B4A61234#64, Instr.fneg stageW), 
    (0x39AE46C5B4A61234#64, Instr.fcpsgn stageW), (0x3AAE46C5B4A61234#64, Instr.fcmp stageW)], decode p.1 = .ok p.2 := by decide

/-- Words of the stage class, each field by Tables 3.4 to 3.10, the opcode by Table 4.1. -/
theorem test_decode_stage_3 : ∀ p ∈ [
    (0x3BAE46C5B4A61234#64, Instr.fclass stageW), (0x3CAE46C5B4A61234#64, Instr.frnd stageW), (0x3DAE46C5B4A61234#64, Instr.fscaleb stageW), 
    (0x3EAE46C5B4A61234#64, Instr.fgetexp stageW), (0x3FAE46C5B4A61234#64, Instr.fgetman stageW), (0x40AE46C5B4A61234#64, Instr.frcp stageW), 
    (0x41AE46C5B4A61234#64, Instr.frsq stageW), (0x42AE46C5B4A61234#64, Instr.fsqrt stageW), (0x43AE46C5B4A61234#64, Instr.fexp2 stageW), 
    (0x44AE46C5B4A61234#64, Instr.flog2 stageW), (0x45AE46C5B4A61234#64, Instr.ftanh stageW), (0x46AE46C5B4A61234#64, Instr.fsin stageW), 
    (0x47AE46C5B4A61234#64, Instr.fcos stageW), (0x48AE46C5B4A61234#64, Instr.fsigm stageW), (0x49AE46C5B4A61234#64, Instr.smref stageW), 
    (0x4AAE46C5B4A61234#64, Instr.smexp stageW), (0x50AE46C5B4A61234#64, Instr.cvt stageW), (0x51AE46C5B4A61234#64, Instr.cvti stageW), 
    (0x52AE46C5B4A61234#64, Instr.cvtf stageW), (0x53AE46C5B4A61234#64, Instr.blkpack stageW), (0x54AE46C5B4A61234#64, Instr.blkunpack stageW), 
    (0x55AE46C5B4A61234#64, Instr.blkscale stageW), (0x56AE46C5B4A61234#64, Instr.bpc stageW), (0x57AE46C5B4A61234#64, Instr.bpx stageW)], decode p.1 = .ok p.2 := by decide

/-- Words of the memory class, each field by Tables 3.4 to 3.10, the opcode by Table 4.1. -/
theorem test_decode_mem : ∀ p ∈ [
    (0x70AE46C5BB56A9C3#64, Instr.ldSp memW), (0x71AE46C5BB56A9C3#64, Instr.stSp memW), (0x72AE46C5BB56A9C3#64, Instr.ldD memW), 
    (0x73AE46C5BB56A9C3#64, Instr.stD memW), (0x74AE46C5BB56A9C3#64, Instr.ldt memW), (0x75AE46C5BB56A9C3#64, Instr.stt memW), 
    (0x76AE46C5BB56A9C3#64, Instr.ldg memW), (0x77AE46C5BB56A9C3#64, Instr.stg memW), (0x78AE46C5BB56A9C3#64, Instr.cbpush memW), 
    (0x79AE46C5BB56A9C3#64, Instr.cbpop memW), (0x7AAE46C5BB56A9C3#64, Instr.cbpeek memW), (0x7BAE46C5BB56A9C3#64, Instr.cbstat memW), 
    (0x7CAE46C5BB56A9C3#64, Instr.fence memW), (0x80AE46C5BB56A9C3#64, Instr.aadd memW), (0x81AE46C5BB56A9C3#64, Instr.amin memW), 
    (0x82AE46C5BB56A9C3#64, Instr.amax memW), (0x83AE46C5BB56A9C3#64, Instr.aand memW), (0x84AE46C5BB56A9C3#64, Instr.aor memW), 
    (0x85AE46C5BB56A9C3#64, Instr.axor memW), (0x86AE46C5BB56A9C3#64, Instr.axchg memW), (0x87AE46C5BB56A9C3#64, Instr.acas memW), 
    (0x88AE46C5BB56A9C3#64, Instr.aaddw memW), (0x89AE46C5BB56A9C3#64, Instr.await memW), (0x8AAE46C5BB56A9C3#64, Instr.afadd memW)], decode p.1 = .ok p.2 := by decide

/-- Words of the control-point class, each field by Tables 3.4 to 3.10, the opcode by Table 4.1. -/
theorem test_decode_cp : ∀ p ∈ [
    (0xA0AE46C5078CFAB7#64, Instr.steer cpW), (0xA1AE46C5078CFAB7#64, Instr.carry cpW), (0xA2AE46C5078CFAB7#64, Instr.inv cpW), 
    (0xA3AE46C5078CFAB7#64, Instr.mergeSel cpW), (0xA3AE46C5178CFAB7#64, Instr.mergeAny cpW), (0xA4AE46C5078CFAB7#64, Instr.fan cpW), 
    (0xA5AE46C5078CFAB7#64, Instr.join cpW), (0xA6AE46C5078CFAB7#64, Instr.order cpW), (0xA7AE46C5078CFAB7#64, Instr.exitSel cpW), 
    (0xA7AE46C5178CFAB7#64, Instr.exitCall cpW), (0xA7AE46C5278CFAB7#64, Instr.exitRet cpW), (0xA7AE46C5378CFAB7#64, Instr.exitJump cpW), 
    (0xA7AE46C5478CFAB7#64, Instr.exitBr cpW), (0xA8AE46C5078CFAB7#64, Instr.gatePass cpW), (0xA8AE46C5178CFAB7#64, Instr.gateBrk cpW), 
    (0xA9AE46C5078CFAB7#64, Instr.nulchkIsnull cpW), (0xA9AE46C5178CFAB7#64, Instr.nulchkPresent cpW)], decode p.1 = .ok p.2 := by decide

/-- Words of the reorder class, each field by Tables 3.4 to 3.10, the opcode by Table 4.1. -/
theorem test_decode_re : ∀ p ∈ [
    (0xB0AE46C58142F31C#64, Instr.reord reW), (0xB1AE46C58142F31C#64, Instr.xpose reW), (0xB2AE46C58142F31C#64, Instr.corner reW)], decode p.1 = .ok p.2 := by decide

/-- Words of the engine-port class, each field by Tables 3.4 to 3.10, the opcode by Table 4.1. -/
theorem test_decode_ep_1 : ∀ p ∈ [
    (0xB8AE46C593B5A5A5#64, Instr.mlatch epW 0x93), (0xB9AE46C593B5A5A5#64, Instr.mstream epW 0x93), (0xBAAE46C593B5A5A5#64, Instr.mdrain epW 0x93), 
    (0xBBAE46C593B5A5A5#64, Instr.accclr epW 0x93), (0xBCAE46C593B5A5A5#64, Instr.accscale epW 0x93), (0xBDAE46C593B5A5A5#64, Instr.accld epW 0x93), 
    (0xBEAE46C593B5A5A5#64, Instr.accst epW 0x93), (0xBFAE46C593B5A5A5#64, Instr.mxv epW 0x93), (0xC0AE46C593B5A5A5#64, Instr.munfold epW 0x93), 
    (0xC8AE46C500B5A5A5#64, Instr.brd epW), (0xC9AE46C500B5A5A5#64, Instr.bsum epW), (0xCAAE46C500B5A5A5#64, Instr.bflt epW), 
    (0xCBAE46C500B5A5A5#64, Instr.bdep epW), (0xCCAE46C500B5A5A5#64, Instr.bupdIadd epW), (0xCCAE46C501B5A5A5#64, Instr.bupdFadd epW), 
    (0xCCAE46C502B5A5A5#64, Instr.bupdImin epW), (0xCCAE46C503B5A5A5#64, Instr.bupdImax epW), (0xCCAE46C504B5A5A5#64, Instr.bupdAnd epW), 
    (0xCCAE46C505B5A5A5#64, Instr.bupdOr epW), (0xCCAE46C506B5A5A5#64, Instr.bupdXor epW), (0xCCAE46C507B5A5A5#64, Instr.bupdSet epW), 
    (0xCDAE46C500B5A5A5#64, Instr.bmac epW), (0xCEAE46C500B5A5A5#64, Instr.batt epW), (0xCFAE46C500B5A5A5#64, Instr.bclone epW), 
    (0xD0AE46C500B5A5A5#64, Instr.bcfg epW), (0xD1AE46C500B5A5A5#64, Instr.bcancel epW)], decode p.1 = .ok p.2 := by decide

/-- Words of the engine-port class, each field by Tables 3.4 to 3.10, the opcode by Table 4.1. -/
theorem test_decode_ep_2 : ∀ p ∈ [
    (0xD2AE46C500B5A5A5#64, Instr.bwait epW), (0xD3AE46C500B5A5A5#64, Instr.wdrive epW), (0xD4AE46C500B5A5A5#64, Instr.bstandRd epW), 
    (0xD4AE46C501B5A5A5#64, Instr.bstandSum epW), (0xD4AE46C502B5A5A5#64, Instr.bstandFlt epW), (0xD4AE46C503B5A5A5#64, Instr.bstandAtt epW), 
    (0xD5AE46C500B5A5A5#64, Instr.cursor epW), (0xD8AE46C593B5A5A5#64, Instr.copy epW 0x93), (0xD9AE46C593B5A5A5#64, Instr.coll epW 0x93), 
    (0xDAAE46C593B5A5A5#64, Instr.ringx epW 0x93), (0xDBAE46C500B5A5A5#64, Instr.kvopen epW), (0xDCAE46C500B5A5A5#64, Instr.kvfork epW), 
    (0xDDAE46C500B5A5A5#64, Instr.kvreserve epW), (0xDEAE46C500B5A5A5#64, Instr.kvwin epW), (0xDFAE46C500B5A5A5#64, Instr.kvcommit epW), 
    (0xE0AE46C500B5A5A5#64, Instr.kvabort epW), (0xE1AE46C500B5A5A5#64, Instr.kvlen epW), (0xE2AE46C500B5A5A5#64, Instr.kvclose epW), 
    (0xE3AE46C593B5A5A5#64, Instr.kvsend epW 0x93), (0xE4AE46C500B5A5A5#64, Instr.kvarm epW), (0xE5AE46C500B5A5A5#64, Instr.kvsnap epW), 
    (0xF0AE46C500B5A5A5#64, Instr.barA epW), (0xF0AE46C501B5A5A5#64, Instr.barW epW), (0xF0AE46C502B5A5A5#64, Instr.barAw epW), 
    (0xF0AE46C503B5A5A5#64, Instr.barLv epW), (0xF1AE46C500B5A5A5#64, Instr.msend epW)], decode p.1 = .ok p.2 := by decide

/-- Words of the engine-port class, each field by Tables 3.4 to 3.10, the opcode by Table 4.1. -/
theorem test_decode_ep_3 : ∀ p ∈ [
    (0xF2AE46C500B5A5A5#64, Instr.bind epW), (0xF3AE46C500B5A5A5#64, Instr.yield epW), (0xF3AE46C501B5A5A5#64, Instr.yieldWait epW), 
    (0xF4AE46C500B5A5A5#64, Instr.endTask epW), (0xF5AE46C500B5A5A5#64, Instr.waitseq epW), (0xF6AE46C500B5A5A5#64, Instr.trap epW), 
    (0xF7AE46C500B5A5A5#64, Instr.eret epW), (0xF8AE46C500B5A5A5#64, Instr.sysrd epW), (0xF9AE46C500B5A5A5#64, Instr.syswr epW), 
    (0xFAAE46C500B5A5A5#64, Instr.tlbinvPg epW), (0xFAAE46C501B5A5A5#64, Instr.tlbinvAll epW), (0xFBAE46C500B5A5A5#64, Instr.launch epW), 
    (0xFCAE46C500B5A5A5#64, Instr.pmrd epW)], decode p.1 = .ok p.2 := by decide

/-- Husks by Table 3.13, SOP by Table 4.5. -/
theorem test_decode_seeds : ∀ p ∈ [
    (0x0161AA5C31DEADBEEF123456789ABCD7#128, Instr.smm husk), (0x0261AA5C31DEADBEEF123456789ABCD7#128, Instr.smmz husk), 
    (0x0361AA5C31DEADBEEF123456789ABCD7#128, Instr.svec husk), (0x0461AA5C31DEADBEEF123456789ABCD7#128, Instr.sbias husk), 
    (0x0561AA5C31DEADBEEF123456789ABCD7#128, Instr.snorm husk), (0x0661AA5C31DEADBEEF123456789ABCD7#128, Instr.sact husk), 
    (0x0761AA5C31DEADBEEF123456789ABCD7#128, Instr.sdrain husk), (0x0861AA5C31DEADBEEF123456789ABCD7#128, Instr.sjump husk), 
    (0x0961AA5C31DEADBEEF123456789ABCD7#128, Instr.scall husk), (0x0A61AA5C31DEADBEEF123456789ABCD7#128, Instr.sexit husk), 
    (0x0B61AA5C31DEADBEEF123456789ABCD7#128, Instr.sbar husk), (0x0C61AA5C31DEADBEEF123456789ABCD7#128, Instr.spad husk), 
    (0x0D61AA5C31DEADBEEF123456789ABCD7#128, Instr.sembed husk)], decodeHusk p.1 = .ok p.2 := by decide

/-! Well-formedness. -/

def okStage : StageW := ⟨0, 11, 0x1FF, 0x1FF, 0, 0, 0, 0, 0, 0⟩
def okMem : MemW := ⟨0, 11, 0x1FF, 0x1FF, 0, 0, 0, 0, 0, 0, 0⟩
def okCp : CpW := ⟨0, 0, 0x1FF, 0x1FF, 0x1FF, 0x1FF, 0⟩
def okRe : ReW := ⟨0, 11, 0x1FF, 0x1FF, 15, 1, 0, 0⟩
def okEp : EpW := ⟨0, 0, 0x1FF, 0x1FF, 0, 0⟩
/-- The husk of R77's worked example. -/
def okHusk : Husk := ⟨6, 0, 1, 5, 0, 1, 1, 1, 0, 1, 0xF6⟩

/-- A husk with the check that R77 gives it. -/
def checked (sop : Nat) (h : Husk) : Husk := { h with hchk := BitVec.ofNat 8 (h.crc sop) }

set_option maxRecDepth 20000 in
/-- The terms that the tests below spoil are well-formed. -/
theorem test_wf_accepts : ∀ i ∈ [Instr.vadd okStage, .wrb okStage, .const { okStage with bimm := 1, imm := 5 }, .ldSp okMem, .fence { okMem with ty := 0, ordk := 1 },
    .steer okCp, .join { okCp with param := 3 }, .exitCall { okCp with param := 15 }, .xpose okRe, .mlatch { okEp with ty := 3 } 1, .coll { okEp with escope := 1 } 0,
    .wdrive okEp, .barA okEp, .smmz okHusk, .sjump (checked 8 { okHusk with fmt := 0 })], i.wf = true := by decide

/-- Table 4.6 on stage words: PM 3; TYPE, a second type equal to TYPE, an immediate beyond Table 3.7; RND, SAT, BIMM, an
immediate without BIMM, SUB and AUX out of their tables; a target of wrb. -/
theorem test_wf_stage : ∀ i ∈ [Instr.vadd { okStage with pm := 3 }, .vadd { okStage with ty := 0 }, .vmulhi { okStage with ty := 13 }, .cvti { okStage with aux := 11 },
    .const { okStage with ty := 5, bimm := 1, imm := 16 }, .vand { okStage with ty := 15, bimm := 1, imm := 2 }, .vadd { okStage with rnd := 1 },
    .vadd { okStage with sat := 1 }, .vsel { okStage with bimm := 1 }, .const okStage, .vadd { okStage with imm := 1 }, .lscan { okStage with sub := 2 },
    .cvti { okStage with aux := 7, sub := 4 }, .vcmp { okStage with aux := 6 }, .lbcast { okStage with aux := 16 }, .lshift { okStage with aux := 16 },
    .lshift { okStage with ty := 13, aux := 1 }, .fcmp { okStage with ty := 0, aux := 10 }, .rdb { okStage with aux := 16 }, .wrb { okStage with t0 := 0 }],
    i.wf = false := by decide

/-- Table 4.6 on memory words: PM 3, TYPE, SCOPE, STRONG, ORDK, ORDNO without ORDERED, RECID and OFFSET. -/
theorem test_wf_memory : ∀ i ∈ [Instr.ldD { okMem with pm := 3 }, .cbstat okMem, .afadd okMem, .aadd { okMem with ty := 7 }, .ldSp { okMem with scope := 1 },
    .ldD { okMem with scope := 6 }, .stSp { okMem with strong := 1 }, .ldD { okMem with ordk := 2 }, .stD { okMem with ordk := 1 }, .fence { okMem with ty := 0 },
    .ldD { okMem with ordno := 1 }, .cbpush { okMem with recid := 31 }, .cbpop { okMem with off := 1 }, .fence { okMem with ty := 0, ordk := 1, recid := 1 }],
    i.wf = false := by decide

/-- Table 4.6 on control-point and reorder words: PM, TYPE, PARAM, a target of exit; hx4, strides of xpose, a group that is
no whole number of tokens, one of more than 16 KiB. -/
theorem test_wf_control : ∀ i ∈ [Instr.steer { okCp with pm := 1 }, .fan { okCp with ty := 1 }, .steer { okCp with param := 1 }, .join okCp, .join { okCp with param := 2 },
    .order { okCp with param := 4 }, .exitCall { okCp with param := 16 }, .exitSel { okCp with t2 := 0 }, .reord { okRe with pm := 3 }, .xpose { okRe with ty := 6 },
    .xpose { okRe with istride := 1 }, .corner { okRe with innerM1 := 1 }, .reord { okRe with innerM1 := 6 }, .reord { okRe with innerM1 := 255, outerM1 := 255 }],
    i.wf = false := by decide

/-- Table 4.6 on engine-port words: PM, TYPE, ESCOPE, SUB, parameters, and the targets of wdrive. -/
theorem test_wf_engine : ∀ i ∈ [Instr.mlatch { okEp with pm := 3, ty := 3 } 0, .barA { okEp with pm := 1 }, .mlatch okEp 0, .accld { okEp with ty := 2 } 0,
    .brd { okEp with ty := 1 }, .coll okEp 0, .ringx { okEp with escope := 3 } 0, .kvopen { okEp with escope := 1 }, .barA { okEp with escope := 5 },
    .copy okEp 2, .mlatch { okEp with ty := 3 } 2, .brd { okEp with params := 1 }, .wdrive { okEp with t0 := 0 }, .endTask { okEp with t1 := 3 }],
    i.wf = false := by decide

set_option maxRecDepth 20000 in
/-- Table 3.15 on husks: HCHK, FMT, COMP, RSEL and PLEN. -/
theorem test_wf_seeds : ∀ i ∈ [Instr.smmz { okHusk with hchk := 0xF7 }, .smm (checked 1 { okHusk with fmt := 0 }), .sjump (checked 8 { okHusk with fmt := 1 }),
    .sjump (checked 8 { okHusk with fmt := 0, comp := 1 }), .smm (checked 1 { okHusk with comp := 2 }), .smm (checked 1 { okHusk with rmode := 0, rsel := 512 }),
    .smm (checked 1 { okHusk with plen := 0 })], i.wf = false := by decide

/-! The spec's worked values. -/

/-- One element that a stage gives for operands a, b and c in every element. -/
def stageOf (g : StageW → StageIn → StageOut) (w : StageW) (a b c : Nat) : Nat :=
  let tok := fun (v : Nat) => tokenOf w.ty.toNat 0xFFFF#16 fun _ => v
  match (g w ⟨tok a, tok b, tok c, 0, 0⟩).out0 with
  | some y => y.elem w.ty.toNat 0
  | none => 2 ^ 64

/-- Table 6.2: TYPE, operands, and the results for SAT 0 and 1. -/
theorem test_table_6_2_saturating : ∀ p ∈ [(stVmul, (9 : Nat), 300, 300, 0x5F90, 0x7FFF), (stVneg, 11, 0x80000000, 0, 0x80000000, 0x7FFFFFFF),
    (stVneg, 8, 3, 0, 0xFD, 0x00), (stVabs, 7, 0x80, 0, 0x80, 0x7F), (stVshl, 7, 0x40, 1, 0x80, 0x7F), (stVshl, 7, 0x01, 9, 0x00, 0x7F)],
    let w := { okStage with ty := BitVec.ofNat 4 p.2.1 }
    stageOf p.1 w p.2.2.1 p.2.2.2.1 0 = p.2.2.2.2.1 ∧ stageOf p.1 { w with sat := 1 } p.2.2.1 p.2.2.2.1 0 = p.2.2.2.2.2 := by decide +kernel

/-- Table 6.2, the instructions without SAT. -/
theorem test_table_6_2 : ∀ p ∈ [(stVadd, (7 : Nat), 100, 100, 0xC8), (stVaddsat, 7, 100, 100, 0x7F), (stVsub, 8, 5, 9, 0xFC), (stVsubsat, 8, 5, 9, 0),
    (stVmulhi, 9, 300, 300, 1), (stVmulhi, 10, 0xFFFF, 0xFFFF, 0xFFFE), (stVsra, 7, 0x80, 9, 0xFF), (stVshr, 7, 0x80, 9, 0), (stVrotl, 8, 0x81, 9, 3),
    (stVclz, 12, 0, 0, 32), (stVpopc, 12, 0, 0, 0)],
    stageOf p.1 { okStage with ty := BitVec.ofNat 4 p.2.1 } p.2.2.1 p.2.2.2.1 0 = p.2.2.2.2 := by decide +kernel

/-- The tokens of Table 6.5: A, C, P. -/
def tokA : Token := laneToken 0xFFF7#16 fun l => 1410 - 3 * l
def tokC : Token := ((stVcmp { okStage with bimm := 1, aux := 4, imm := 1400 } ⟨tokA, immToken 11 1400, nullToken, 0, 0⟩).out0).getD nullToken
def tokP : Token := ((stLpack okStage ⟨tokA, tokC, nullToken, 0, 0⟩).out0).getD nullToken

/-- Table 6.5: a compare, and the lanes counted, packed, summed and scanned. -/
theorem test_table_6_5 :
    tokC = laneToken 0xFFF7#16 (fun l => if l < 3 then 0xFFFFFFFF else 0) ∧
    (stLcount okStage ⟨tokC, nullToken, nullToken, 0, 0⟩).out0 = some (laneToken 1#16 fun l => if l = 0 then 3 else 0) ∧
    tokP = laneToken 7#16 (fun l => [1410, 1407, 1404].getD l 0) ∧
    (stLred okStage ⟨tokP, nullToken, nullToken, 0, 0⟩).out0 = some (laneToken 1#16 fun l => if l = 0 then 4221 else 0) ∧
    (stLscan okStage ⟨tokP, nullToken, nullToken, 0, 0⟩).out0 = some (laneToken 7#16 fun l => [1410, 2817, 4221].getD l 0) := by decide +kernel

/-- The worked values of R116's definitions: an extension of 4 bits, a field of 5 bits at 4, an insertion at 8. -/
theorem test_bitfields : stageOf stVext okStage 0x0000000A 4 0 = 0xFFFFFFFA ∧ stageOf stVext { okStage with ty := 12 } 0x1A 4 0 = 0xA ∧
    stageOf stVbfx { okStage with ty := 12 } 0x12345678 0x0504 0 = 0x07 ∧ stageOf stVbfi { okStage with ty := 12 } 0x12345678 0x0808 0xAB = 0x1234AB78 := by decide +kernel

/-- Table 5.5: the elements of the hx4 block with SCALE 0x7E and EXTRA 0x3E. -/
theorem test_table_5_5 : ([(2 : Nat), 1, 15, 8, 9].map fun c => (roundFloat 0 0 false (decodeHx4 c 0x7E 0x3E)).bits) =
    [0x3F000000, 0x3E800000, 0xC0400000, 0x3F600000, 0xBE800000] := by decide +kernel

/-- Table 5.8: fp32 sources rounded to e4m3, e5m2, fp16 and e2m1, with status and the out-of-range mark. -/
theorem test_table_5_8_float : ([((0x43E80000 : Nat), (3 : Nat), (0 : Nat), false), (0x43E88000, 3, 0, false), (0x7F800000, 4, 0, false), (0x7F800000, 4, 0, true),
    (0x4788B800, 2, 1, false), (0xFFC00000, 5, 0, false), (0xBE4CCCCD, 5, 0, false)].map fun p => roundFloat p.2.1 p.2.2.1 p.2.2.2 (decodeFloat 0 p.1)) =
    [⟨0x7E, 1#5, false⟩, ⟨0x7E, 5#5, true⟩, ⟨0x7C, 0#5, false⟩, ⟨0x7B, 1#5, true⟩, ⟨0x7BFF, 5#5, true⟩, ⟨0xF, 16#5, true⟩, ⟨0, 3#5, false⟩] := by decide +kernel

/-- Table 5.8: fp32 sources rounded to i32 and i8. -/
theorem test_table_5_8_int : ([((0xFFC00000 : Nat), (11 : Nat)), (0x4F32D05E, 11), (0x40200000, 7)].map fun p => roundInt p.2 0 (decodeFloat 0 p.1)) =
    [⟨0x80000000, 16#5, true⟩, ⟨0x7FFFFFFF, 16#5, true⟩, ⟨2, 1#5, false⟩] := by decide +kernel

/-- The example of Table 7.8: an i32 of 16,777,217 as fp32. -/
theorem test_cvt_inexact : roundFloat 0 0 true (.ofInt (decodeInt 11 16777217)) = ⟨0x4B800000, 1#5, false⟩ := by decide +kernel

/-- Table 5.9: one column of bf16 weights and e4m3 activations. -/
theorem test_table_5_9 : accumulate 0 ([((0x4B80 : Nat), (0x38 : Nat)), (0x3F80, 0x38), (0x7FC0, 0x80), (0x4000, 0x38)].map fun p =>
    (decodeFloat 1 p.1, decodeFloat 3 p.2)) = 0x4B800001 := by decide +kernel

/-- Table 5.10: ScalePow2. -/
theorem test_table_5_10 : ([((0x40400000 : Nat), (-3 : Int)), (0x00C00000, -1), (3, -1), (1, -1), (0x7F000000, 1), (0x80000000, 40)].map fun p => scalePow2 p.1 p.2) =
    [0x3EC00000, 0x00600000, 2, 0, 0x7F800000, 0x80000000] := by decide +kernel

/-- Table 7.6: the soft-maximum references of a lane, and the weights that are exact. -/
theorem test_table_7_6 : smrefBits 0x3FC00000 0xFF800000 = (0x40000000, 0) ∧ smrefBits 0x40800000 0x40000000 = (0x40800000, 0) ∧
    smrefBits 0xFF800000 0x40800000 = (0x40800000, 0) ∧ smexpBits 0x40800000 0x40800000 = (0x3F800000, 0) ∧ smexpBits 0xFF800000 0x40800000 = (0, 0) := by decide +kernel

/-- Table 7.9: the block of 10, 1, 0.3 and zeros. -/
theorem test_table_7_9 : packBlock 0 false (([(0x4120 : Nat), 0x3F80, 0x3E9A] ++ List.replicate 29 0).map (decodeFloat 1)) =
    ⟨0x80, 0x4A, [8, 1] ++ List.replicate 30 0⟩ := by decide +kernel

/-- The group of Table 7.10. -/
def ramp : List Token := (List.range 4).map fun t => laneToken 0xFFFF#16 fun l => 1000 + 3 * (16 * t + l)

/-- Table 7.10: its map, its stream, and the group that bpx restores. -/
theorem test_table_7_10 : (bpcGroup ramp).2 = laneToken 1#16 (fun l => if l = 0 then 0x21E else 0) ∧
    (bpcGroup ramp).1 = laneToken 0x3FF#16 (fun l => [0xFFFFFFFE, 0xFFFFFFFF, 1, 0, 1, 0, 1, 0, 1, 0].getD l 0) :: List.replicate 3 (laneToken 0 fun _ => 0) ∧
    bpxGroup (bpcGroup ramp).1 (bpcGroup ramp).2 = ramp := by decide +kernel

/-- The example of R186: xpose of two rows of sixteen. -/
theorem test_xpose : ([0, 1].map (reorderToken 0xB1 okRe [laneToken 0xFFFF#16 id, laneToken 0xFFFF#16 fun l => 100 + l])) =
    [laneToken 0xFFFF#16 (fun l => l / 2 + l % 2 * 100), laneToken 0xFFFF#16 fun l => 8 + l / 2 + l % 2 * 100] := by decide +kernel

/-! States that meet the hypotheses of the statements. -/

/-- A node with a token of valid zeros at each port. -/
def full : Node := { qa := [zeroToken], qb := [zeroToken], qc := [zeroToken], qp := [zeroToken] }

/-- A token with 1 in every lane. -/
def ones : Token := laneToken 0xFFFF#16 fun _ => 1

def wordOf (i : Instr) : Word64 := (encode i).getD 0

/-- Core 0 runs a phase that holds one word, whose node is as given and in focus. -/
def scene (x : Word64) (nd : Node := full) (task : Task → Task := id) (ph : Phase → Phase := id) (g : State → State := id) : State :=
  let slot := firstSlot (wordOp x)
  let s := State.reset.setTask 0 0 (task { bareTask with phase := some (ph { barePhase slot x with nodes := [(slot, nd)] }), phases := 1 })
  g { s.setCore 0 { s.core 0 with running := some 0 } with focus := (0, slot) }

/-- Some focus and operands meet canFire and p. -/
def firesB (s : State) (ports : List Nat) (p : Foc → List (Nat × Token) → Bool := fun _ _ => true) : Bool :=
  (foc? s).any fun f => (readyOps f ports).any (p f)

theorem firesB_iff (s : State) (ports : List Nat) (p : Foc → List (Nat × Token) → Bool) :
    firesB s ports p = true ↔ ∃ f ops, canFire s f ports ops ∧ p f ops = true := by
  simp [firesB, canFire, Option.any_eq_true, and_assoc]

/-- Some focus and operands meet stageReady and p. -/
def stageB (i : Instr) (w : StageW) (s : State) (p : Foc → List (Nat × Token) → Bool := fun _ ops => !actsNull w.pm.toNat ops) : Bool :=
  firesB s (withPred w.pm.toNat (stageNeeds i.op w)) p

theorem stageB_iff (i : Instr) (w : StageW) (s : State) (p : Foc → List (Nat × Token) → Bool) :
    stageB i w s p = true ↔ ∃ f ops, stageReady i w s f ops ∧ p f ops = true := firesB_iff s _ p

/-- The stage instructions of a list can each fire on operands that are not null. -/
def allFire (is : List (StageW → Instr)) (w : StageW) : Bool := is.all fun i => stageB (i w) w (scene (wordOf (i w)))

theorem witness_NullOperands : stageFn (.vadd okStage) = some (okStage, stVadd) ∧
    stageB (.vadd okStage) okStage (scene (wordOf (.vadd okStage)) { full with qa := [nullToken] }) (fun _ ops => ops.any fun x => x.2.null) = true ∧
    (let w := { okStage with pm := 1 }
     stageB (.vadd w) w (scene (wordOf (.vadd w))) (fun _ ops => (tokAt ops 3).data == 0) = true) := ⟨rfl, by decide +kernel, by decide +kernel⟩

theorem witness_RegisterWriteRecorded :
    stageB (.wrb okStage) okStage (scene (wordOf (.wrb okStage))) = true ∧
    stageB (.wrb okStage) okStage (scene (wordOf (.wrb okStage)) { full with qa := [nullToken] }) (fun _ ops => actsNull 0 ops) = true ∧
    stageB (.wrb { okStage with ty := 14, aux := 15 }) { okStage with ty := 14, aux := 15 } (scene (wordOf (.wrb { okStage with ty := 14, aux := 15 }))) = true := by decide +kernel

theorem witness_IntegerArithmetic : allFire [.vadd, .vsub, .vaddsat, .vsubsat, .vmul, .vmulhi, .vmad, .vneg, .vabs, .vmin, .vmax] okStage = true := by decide +kernel

theorem witness_BitwiseLogic : allFire [.vand, .vor, .vxor, .vandn] okStage = true ∧ allFire [.vand, .vor, .vxor, .vandn] { okStage with ty := 15 } = true := by decide +kernel

theorem witness_ShiftsAndCounts : allFire [.vshl, .vshr, .vsra, .vrotl, .vclz, .vpopc] okStage = true := by decide +kernel

theorem witness_CompareAndSelect : allFire [.vcmp, .vsel] okStage = true ∧ allFire [.vcmp] { okStage with ty := 0, aux := 5 } = true ∧
    allFire [.vsel] { okStage with ty := 15 } = true := by decide +kernel

theorem witness_Bitfields : allFire [.vext, .vbfx, .vbfi] okStage = true := by decide +kernel

theorem witness_Moves : allFire [.const] { okStage with bimm := 1 } = true ∧ allFire [.dup, .rdb, .itr, .lidx, .mkpred, .nul] okStage = true := by decide +kernel

theorem witness_LaneMoves : allFire [.lbcast, .lshift, .lperm, .lpack, .lcount] okStage = true := by decide +kernel

/-- A token of fp32 signalling NaNs. -/
def snans : Token := tokenOf 0 0xFFFF#16 fun _ => 0x7F800001

/-- Both reductions fire, and an enabled invalid sum traps. -/
theorem witness_Reductions : allFire [.lred, .lscan] okStage = true ∧ (Instr.lred okStage).wf = true ∧ (Instr.lscan okStage).wf = true ∧
    (let w := { okStage with ty := 0 }
     (Instr.lred w).wf = true ∧ stageB (.lred w) w (scene (wordOf (.lred w)) { full with qa := [snans] } (fun t => { t with fpen := 16 }))
      (fun f ops => !actsNull 0 ops && trapsOn f.task.fpen (combRounds (faddBits 0 0) 7 ((validBelow 0 (tokAt ops 0) 16), 0)).2) = true) := by decide +kernel

theorem witness_RoundingModes : |((roundShift 0 false 1 (-1) : Nat) : ℚ) - (1 : Nat) * 2 ^ (-1 : Int)| = 1 / 2 := by
  have : roundShift 0 false 1 (-1) = 0 := by decide
  rw [this]
  norm_num

theorem witness_ExactBeforeRounding : true ≠ false ∧ ((-1 : ℚ) * (1 : Nat) * 2 ^ (0 : Int) + 1 * (1 : Nat) * 2 ^ (0 : Int) = 0) := by norm_num

/-- The arithmetic fires, and an enabled signalling operand traps; the last compare code is 9. -/
theorem witness_FloatArithmetic : allFire [.fadd, .fsub, .fmul, .fma, .fnma, .fmin, .fmax, .fabs, .fneg, .fcpsgn, .fcmp, .fclass] { okStage with ty := 2 } = true ∧
    allFire [.fcmp] { okStage with ty := 0, aux := 9 } = true ∧
    (let w := { okStage with ty := 0 }
     stageB (.fadd w) w (scene (wordOf (.fadd w)) { full with qa := [snans] } (fun t => { t with fpen := 16 }))
      (fun f ops => !actsNull 0 ops && trapsOn f.task.fpen (faddBits 0 0 ((tokAt ops 0).elem 0 0) 0).2) = true) := by decide +kernel

/-- The special functions fire; a NaN, and pairs whose difference is invalid, infinite and zero. -/
theorem witness_FloatParts : allFire [.frnd, .fscaleb, .fgetexp, .fgetman, .frcp, .frsq, .fsqrt, .fexp2, .flog2, .ftanh, .fsin, .fcos, .fsigm, .smref, .smexp]
      { okStage with ty := 0 } = true ∧
    decodeFloat 0 0x7F800001 = .nan false true ∧ decodeFloat 2 0x7E00 = .nan false false ∧
    (addVal 0 (decodeFloat 0 0x7F800000) (decodeFloat 0 0x7F800000).negate).2 = true ∧
    (addVal 0 (decodeFloat 0 0xFF800000) (decodeFloat 0 0).negate).1 = .inf true ∧
    (match (addVal 0 (decodeFloat 0 0x3F800000) (decodeFloat 0 0x3F800000).negate).1 with
     | .fin _ m _ => m == 0
     | _ => false) = true := by decide +kernel

/-- Each conversion fires, to fp32 with an enabled inexact result as well. -/
theorem witness_Conversions :
    (let w := { okStage with ty := 0, aux := 11 }
     (Instr.cvt w).wf = true ∧ allFire [.cvt] w = true ∧
     stageB (.cvt w) w (scene (wordOf (.cvt w)) { full with qa := [laneToken 0xFFFF#16 fun _ => 16777217] } (fun t => { t with fpen := 1 }))
      (fun f ops => !actsNull 0 ops && trapsOn f.task.fpen (roundFloat 0 0 false (.ofInt (decodeInt 11 ((tokAt ops 0).lane 0)))).flags) = true) ∧
    (Instr.cvti { okStage with aux := 7, sub := 3 }).wf = true ∧ allFire [.cvti] { okStage with aux := 7, sub := 3 } = true ∧
    (Instr.cvtf { okStage with ty := 5, aux := 0, sub := 7 }).wf = true ∧ allFire [.cvtf] { okStage with ty := 5, aux := 0, sub := 7 } = true := by decide +kernel

/-- Each block instruction fires, each place and form at its last value; a clamped scale traps. -/
theorem witness_BlockFormats :
    (let w := { okStage with ty := 6 }
     (Instr.blkscale w).wf = true ∧ allFire [.blkscale] w = true ∧
     stageB (.blkscale w) w (scene (wordOf (.blkscale w)) { full with qb := [laneToken 0xFFFF#16 fun _ => 300] } (fun t => { t with fpen := 4 }))
      (fun f ops => !actsNull 0 ops && decide (254 < (tokAt ops 1).lane 0) && f.task.fpen == ofFlag) = true) ∧
    (Instr.blkunpack { okStage with ty := 0, aux := 6, sub := 7 }).wf = true ∧ allFire [.blkunpack] { okStage with ty := 0, aux := 6, sub := 7 } = true ∧
    (Instr.blkunpack { okStage with ty := 1, aux := 6, sub := 3 }).wf = true ∧ allFire [.blkunpack] { okStage with ty := 1, aux := 6, sub := 3 } = true ∧
    (Instr.blkpack { okStage with ty := 6, aux := 1, sub := 3 }).wf = true ∧ allFire [.blkpack] { okStage with ty := 6, aux := 1, sub := 3 } = true ∧
    (Instr.blkpack { okStage with ty := 6, aux := 0, sub := 7 }).wf = true ∧ allFire [.blkpack] { okStage with ty := 6, aux := 0, sub := 7 } = true := by decide +kernel

/-- A group's first firing with all its tokens, a later firing, and a null token in the group. -/
theorem witness_CodecFires :
    firesB (scene (wordOf (.bpc okStage)) { full with qa := List.replicate 4 zeroToken } id (fun p => { p with n := 4 })) [0]
      (fun f _ => f.nd.iter % 4 == 0 && decide (min 4 (phaseEnd f.ph - f.nd.iter) ≤ f.nd.qa.length)) = true ∧
    firesB (scene (wordOf (.bpx okStage)) { full with qa := List.replicate 4 nullToken } id (fun p => { p with n := 4 })) [0, 1]
      (fun f _ => f.nd.iter % 4 == 0 && f.nd.qa.any Token.null) = true ∧
    firesB (scene (wordOf (.bpc okStage)) { full with iter := 3 } id (fun p => { p with n := 4 })) [0] (fun f _ => f.nd.iter % 4 != 0) = true := by decide +kernel

theorem witness_CodecInverts : ramp.length = 4 ∧ ∀ x ∈ ramp, x.null = false := by decide +kernel

/-- The port sets of the control points, carry and order before and after their first iterations, and a gate that stays shut. -/
theorem witness_ControlPoints :
    (let at_ := fun (i : Instr) (k : Nat) => scene (wordOf i) { full with iter := k } id (fun p => { p with n := 9 })
     firesB (at_ (.steer okCp) 0) [0, 3] = true ∧ firesB (at_ (.carry okCp) 0) [0] (fun f _ => f.nd.iter == 0) = true ∧
     firesB (at_ (.carry okCp) 1) [0, 1] (fun f _ => f.nd.iter == 1) = true ∧ firesB (at_ (.inv okCp) 0) [0] = true ∧ firesB (at_ (.mergeSel okCp) 0) [0, 1, 3] = true ∧
     firesB (at_ (.mergeAny okCp) 0) [0, 1] = true ∧ firesB (at_ (.fan okCp) 0) [0] = true ∧ firesB (at_ (.join { okCp with param := 7 }) 0) [0, 1, 2] = true ∧
     firesB (at_ (.order { okCp with param := 3 }) 3) [] (fun f _ => decide (f.nd.iter < 3 + 1)) = true ∧
     firesB (at_ (.order { okCp with param := 3 }) 4) [0] (fun f _ => !decide (f.nd.iter < 3 + 1)) = true ∧
     firesB (at_ (.gatePass okCp) 0) [0, 3] = true ∧ firesB (at_ (.gateBrk okCp) 0) [0, 3] (fun _ ops => !predValue (tokAt ops 3)) = true ∧
     firesB (at_ (.nulchkIsnull okCp) 0) [0] = true ∧ firesB (at_ (.nulchkPresent okCp) 0) [0] = true) := by decide +kernel

theorem witness_GateBreaks : firesB (scene (wordOf (.gateBrk okCp)) { full with qp := [ones] }) [0, 3]
    (fun _ ops => !(tokAt ops 3).null && predValue (tokAt ops 3)) = true := by decide +kernel

/-- An exit before its deciding firing, one that decides on nothing, and one that decides, with LR and the register aligned and not. -/
theorem witness_ExitDecides :
    (let x := wordOf (.exitCall { okCp with param := 15 })
     firesB (scene x full id fun p => { p with n := 2 }) [0] (fun f _ => decide (f.nd.iter + 1 ≠ phaseEnd f.ph)) = true ∧
     firesB (scene x { full with qa := [nullToken] }) [0] (fun f ops => decide (f.nd.iter + 1 = phaseEnd f.ph) && (tokAt ops 0).null) = true ∧
     firesB (scene x) [0] (fun f ops => decide (f.nd.iter + 1 = phaseEnd f.ph) && !(tokAt ops 0).null && decide (f.task.lr % 2 = 0) &&
       decide ((f.ph.starts.getD 15 0).toNat % 16 = 0)) = true ∧
     firesB (scene x full (fun t => { t with lr := 1 }) fun p => { p with starts := List.replicate 16 8 }) [0] (fun f ops => decide (f.nd.iter + 1 = phaseEnd f.ph) &&
       !(tokAt ops 0).null && decide (f.task.lr % 2 = 1) && !f.task.seed.joined && decide ((f.ph.starts.getD 15 0).toNat % 16 ≠ 0)) = true) := by decide +kernel

/-- A firing that gathers, one that completes a group, and the activation's last. -/
theorem witness_ReorderGroups : (Instr.xpose okRe).wf = true ∧ (Instr.reord { okRe with istride := 1 }).wf = true ∧ (Instr.corner { okRe with innerM1 := 0, outerM1 := 0 }).wf = true ∧
    firesB (scene (wordOf (.xpose okRe)) full id fun p => { p with n := 2 }) [0] (fun f _ => f.nd.group.length + 1 != 2 && f.nd.iter + 1 != phaseEnd f.ph) = true ∧
    firesB (scene (wordOf (.xpose okRe)) { full with iter := 1, group := [zeroToken] } id fun p => { p with n := 4 }) [0] (fun f _ => f.nd.group.length + 1 == 2) = true ∧
    firesB (scene (wordOf (.xpose okRe))) [0] (fun f _ => f.nd.iter + 1 == phaseEnd f.ph) = true := by decide +kernel

/-- Some focus and operands meet memReady and p. -/
def memB (s : State) (w : MemW) (p : Foc → List (Nat × Token) → Bool) : Bool :=
  (foc? s).any fun f => (readyMem f (memPorts f.ph f.slot w.pm.toNat)).any (p f)

theorem memB_iff (s : State) (w : MemW) (p : Foc → List (Nat × Token) → Bool) :
    memB s w p = true ↔ ∃ f ops, memReady s f w ops ∧ p f ops = true := by
  simp [memB, memReady, Option.any_eq_true, and_assoc]

/-- Some focus and operands meet epReady and p. -/
def epB (s : State) (ports : List Nat) (p : Foc → List (Nat × Token) → Bool := fun _ ops => !actsNull 0 ops) : Bool :=
  (foc? s).any fun f => (readyEp f ports).any (p f)

theorem epB_iff (s : State) (ports : List Nat) (p : Foc → List (Nat × Token) → Bool) :
    epB s ports p = true ↔ ∃ f ops, epReady s f ports ops ∧ p f ops = true := by
  simp [epB, epReady, Option.any_eq_true, and_assoc]

/-- Whether a result is an answer, or an error. -/
def isOk {ε α : Type} : Except ε α → Bool
  | .ok _ => true
  | .error _ => false

/-- A layout record of i32 tokens at an address, 16 elements to a row. -/
def layout (base : Nat) : BitVec 512 := BitVec.ofNat 512 (base + 11 * 2 ^ 57 + 15 * 2 ^ 90)

/-- Layout record 0 of core 0 as given. -/
def withRec (r : BitVec 512) (s : State) : State := s.setCore 0 { s.core 0 with recs := [(0, r)] }

/-- A load that acts as null; one whose record is misaligned, one outside the window, one that is in order; an atomic on the scratchpad. -/
theorem witness_MemoryFires :
    (let sc := fun (i : Instr) (nd : Node) (base : Nat) => scene (wordOf i) nd id id (withRec (layout base))
     let chk := fun (op : Nat) (w : MemW) (s : State) (f : Foc) (ops : List (Nat × Token)) => isOk (checkAccess op w f.c f.task.part ops s).1
     memB (sc (.ldSp okMem) { full with qa := [nullToken] } 0) okMem (fun _ ops => actsNull 0 ops) = true ∧
     (let s := sc (.ldSp okMem) full 4
      memB s okMem (fun f ops => !actsNull 0 ops && lanesRead 0x70 okMem ops true && !chk 0x70 okMem s f ops)) = true ∧
     (let s := sc (.ldSp okMem) full 0x1000
      memB s okMem (fun f ops => !actsNull 0 ops && lanesRead 0x70 okMem ops true && chk 0x70 okMem s f ops)) = true ∧
     (let w := { okMem with ty := 12, ordered := 1 }
      let s := sc (.aadd w) full 0
      memB s w (fun f ops => !actsNull 0 ops && lanesRead 0x80 w ops true && chk 0x80 w s f ops)) = true) := by decide +kernel

/-- The three cases at their edges: a row of 15 elements, the last token of the window, the first beyond it. -/
theorem witness_TokenAddresses :
    (let ok := fun (r : BitVec 512) => recExt r 0 % elemsPerToken (recFmt r) = 0 ∧ recFmt r ≠ 6 ∧ tokenAddress r 0 % 64 = 0
     ¬ ok (BitVec.ofNat 512 (11 * 2 ^ 57 + 14 * 2 ^ 90)) ∧ ok (layout 0x17FFC0) ∧ inWindow (tokenAddress (layout 0x17FFC0) 0 + 63) = true ∧
     ok (layout 0x180000) ∧ inWindow (tokenAddress (layout 0x180000) 0) = false) := by decide +kernel

/-- An issued access of one piece at the start of core 0's scratchpad. -/
def issuedAt (op : Nat) (waiting poll : Bool) : Access :=
  ⟨op, okMem, 0, [(0, zeroToken), (1, ones), (2, ones)], false, .issued, [⟨keyScratch 0 0, 4, 0, 0, 0, false, 0⟩], 0xFFFF#16, 0, 0, [], waiting, poll, none, none, 0, 0⟩

/-- Core 0's phase with that access outstanding at slot 96. -/
def stands (a : Access) : State := scene (wordOf (.ldSp okMem)) full id fun p => { p with accs := [(96, [a])] }

theorem witness_AccessesAnswered : ∀ op ∈ [0x70, 0x72, 0x80, 0x88, 0x8A], ((accFind (stands (issuedAt op false false)) (accRef 0 0 0)).any fun x =>
    x.2.stage == .issued && !x.2.waiting && ((x.2.pieces[0 % 32]?).any fun p => isScratch p.key && decide (p.key + p.len ≤ 2 ^ 72) && !p.doneP &&
      !poisoned (stands (issuedAt op false false)) p.key p.len) && (isLoadOp x.2.op || isAtomicOp x.2.op)) = true := by decide +kernel

/-- A pending store to a key. -/
def pend (key : Nat) : PStore := ⟨key, 0b0101#8, 0x11223344, 0, 0, none, 0, none, true, false, 0, 0, 0, 0⟩

/-- Stores of two to one location, the last of this package and one to a host. -/
theorem witness_StoresDrain :
    (let s := State.reset.setCore 0 { State.reset.core 0 with stores := [pend 8, pend (2 ^ 40 - 4), pend 8, pend (keyHost 0)] }
     let old := fun (n : Nat) => ((s.core 0).stores.take n).any fun q => ((s.core 0).stores[n]?).any fun p => q.key == p.key
     old 2 = true ∧ old 1 = false ∧ old 3 = false ∧ isLocal (2 ^ 40 - 4) = true ∧ pipeOpen s (2 ^ 40 - 4) 0 = true ∧ isHost (keyHost 0) = true) := by decide +kernel

/-- A buffered host write; an access that waits for a fence; a wait that polls, its threshold met and not met. -/
theorem witness_MemoryEvents :
    ({ State.reset with hostWc := [{ job := 0, addr := 0, bytes := [1], ro := true }] } : State).hostWc[0]?.isSome = true ∧
    (let a := { issuedAt 0x89 true true with fences := [3] }
     (accFind (stands a) (accRef 0 0 0)).any (fun x => x.2.op == 0x89 && x.2.waiting && x.2.poll && decide (decodeInt 11 0 < decodeInt 11 (laneVal (tokAt x.2.ops 1) 0 4)) &&
       (tokAt x.2.ops 2).lane 0 != 0) = true ∧
     ((stands a).task? 0 0).any (fun t => (t.phase.any fun p => ((accsOf p 96)[0]?).any fun x => x.fences == [3]) && ((stands a).core 0).stores.all fun p => p.task != 0) = true ∧
     (let u := { stands a with mem := memWrite [] (keyScratch 0 0) 4 1 }
      (accFind u (accRef 0 0 0)).any (fun x => decide (decodeInt 11 (laneVal (tokAt x.2.ops 1) 0 4) ≤ decodeInt 11 (memRead u.mem (keyScratch 0 0) 4))) = true)) := by decide +kernel

/-- A buffer of two slots of two tokens, with these counts: filled, free, read slot and token, write slot and token. -/
def buffer (filled free rdSlot rdTok wrSlot wrTok : Nat) (claims : List (Nat × Bool)) : CBuf :=
  { desc := cbWith (BitVec.ofNat 256 (2 ^ 21 + 2 ^ 32)) filled free rdSlot rdTok wrSlot wrTok, claims := claims }

/-- Buffer 0 of core 0 as given, declared by the task or not. -/
def bufScene (i : Instr) (b : CBuf) (nd : Node := full) (declared : Bool := true) : State :=
  scene (wordOf i) nd (fun t => { t with bufs := if declared then 1 else 0 }) id fun s => s.setCore 0 { s.core 0 with bufs := [(0, b)] }

/-- Room and none, tokens and none, a null push, a buffer not declared, an hx4 push that fits, a peek beyond the buffer and a poisoned token. -/
theorem witness_BuffersFire :
    (let m := okMem
     let turn := fun (op : Nat) (s : State) (f : Foc) (ops : List (Nat × Token)) (off : Bool) =>
       let a := newAccess s op m f ops off []
       (m.ordered != 1#1 || (hasTurn f.ph f.slot a && !heldBack f.ph a)) && (off || releaseReady s f.c f.t f.ph a)
     let room := bufScene (.cbpush m) (buffer 0 2 0 0 0 0 [])
     let none_ := bufScene (.cbpush m) (buffer 2 0 0 0 0 0 [])
     memB room m (fun f ops => turn 0x78 room f ops false && !actsNull 0 ops && f.task.bufs.getLsbD 0 && (cbPushTok (bufOf (room.core f.c) 0)).isSome) = true ∧
     memB none_ m (fun f ops => turn 0x78 none_ f ops false && (cbPushTok (bufOf (none_.core f.c) 0)).isNone) = true ∧
     memB (bufScene (.cbpush m) (buffer 0 2 0 0 0 0 []) { full with qa := [nullToken] }) m (fun _ ops => actsNull 0 ops) = true ∧
     memB (bufScene (.cbpush m) (buffer 0 2 0 0 0 0 []) full false) m (fun f _ => !f.task.bufs.getLsbD 0) = true ∧
     (let s := bufScene (.cbpop m) (buffer 2 0 0 0 0 0 [])
      memB s m (fun f ops => turn 0x79 s f ops false && cbHas (bufOf (s.core f.c) 0) 0 && !poisoned s (keyScratch f.c (cbReadAddr (bufOf (s.core f.c) 0).desc 0)) 64)) = true ∧
     (let s := { bufScene (.cbpop m) (buffer 2 0 0 0 0 0 []) with poison := [(keyScratch 0 0 / 32, true)] }
      memB s m (fun f ops => turn 0x79 s f ops false && poisoned s (keyScratch f.c (cbReadAddr (bufOf (s.core f.c) 0).desc 0)) 64)) = true ∧
     (let s := bufScene (.cbpop m) (buffer 0 2 0 0 0 0 [])
      memB s m (fun f ops => turn 0x79 s f ops false && !cbHas (bufOf (s.core f.c) 0) 0)) = true ∧
     (let s := bufScene (.cbpeek { m with off := 4 }) (buffer 2 0 0 0 0 0 [])
      memB s { m with off := 4 } (fun f ops => decide (cbTokens (bufOf (s.core f.c) 0).desc * cbSlots (bufOf (s.core f.c) 0).desc < (tokAt ops 0).lane 0 + 4 + 1))) = true ∧
     (let w := { m with ty := 12 }
      let s := bufScene (.cbstat w) (buffer 1 1 0 0 1 0 [])
      memB s w (fun f ops => turn 0x7B s f ops false && f.task.bufs.getLsbD 0)) = true) := by decide +kernel

/-- A buffer with a slot free, one with a slot claimed, and one with a token to pop. -/
theorem witness_BufferSlotsBalance :
    (let balanced := fun (x : CBuf) => cbFree x.desc + cbFilled x.desc + x.claims.length + (if cbRdTok x.desc = 0 then 0 else 1) = cbSlots x.desc
     balanced (buffer 1 1 0 0 1 0 []) ∧ (cbClaim (buffer 1 1 0 0 1 0 [])).isSome = true ∧ (cbPushTok (buffer 1 1 0 0 1 0 [])).isSome = true ∧
     cbHas (buffer 1 1 0 0 1 0 []) 0 = true ∧ balanced (buffer 0 1 0 1 1 0 []) ∧ balanced (buffer 0 1 0 0 0 1 [(0, false)])) := by decide +kernel

/-- Partition 0 owns quad 0 and channel 0, maps 2 MiB of swept memory at 0x20_0000 and 2 MiB of direct memory at 0x40_0000, and has a
handler; job 0 is placed and has rider slots. -/
def paged (s : State) : State :=
  let s := s.setPart 0 { s.partn 0 with ptroot := 0x7FFFE001#64, quads := [0], trapbase := 16 }
  let s := s.setChan 0 { s.chan 0 with owner := 0 }
  let s := s.setJob 0 { record := BitVec.ofNat 1024 (8 * 2 ^ 121 + 8 * 2 ^ 185), fn := 0, queue := 0, part := 0, order := 0, st := .placed }
  { s with mem := memWrite (memWrite (memWrite s.mem 0x7FFFE000 8 0x7FFFE001) 0x7FFFE008 8 0x18F) 0x7FFFE010 8 0x7800008F }

/-- A token that holds a number. -/
def num (x : Nat) : Token := ⟨BitVec.ofNat 512 x, 0xFFFF#16, false⟩

/-- The word of an instruction in that partition, its operands a and b, and its task and node as given. -/
def engine (i : Instr) (a b : Token) (task : Task → Task := id) (g : State → State := id) (n : Nat := 1) : State :=
  scene (wordOf i) { qa := [a], qb := [b] } task (fun p => { p with n := n }) fun s => g (paged s)

/-- A null card, one that passes and one that does not, of a matrix and of an engine node. -/
theorem witness_CardsIssue :
    epB (engine (.mlatch { okEp with ty := 3 } 1) nullToken nullToken) [0] (fun _ ops => actsNull 0 ops) = true ∧
    (let i := Instr.mlatch { okEp with ty := 3 } 1
     epB (engine i (num 0) nullToken) [0] (fun f ops => (matrixCheck (engine i (num 0) nullToken) f.c 0xB8 1 3 (tokAt ops 0).data).isNone) = true ∧
     epB (engine i (num 1) nullToken) [0] (fun f ops => (matrixCheck (engine i (num 1) nullToken) f.c 0xB8 1 3 (tokAt ops 0).data).isSome) = true) ∧
    epB (engine (.accscale okEp 0) (num 0) (num 0)) [0, 1] = true ∧
    (let i := Instr.copy okEp 0
     epB (engine i (num 0) nullToken) [0] (fun f ops => (engineCheck (engine i (num 0) nullToken) f 0xD8 0 (tokAt ops 0).data).isNone) = true) ∧
    (let i := Instr.ringx { okEp with escope := 1 } 1
     epB (engine i (num 0) nullToken) [0] (fun f ops => (engineCheck (engine i (num 0) nullToken) f 0xDA 1 (tokAt ops 0).data).isSome) = true) := by decide +kernel

/-- A reserved bit; a tile a row larger than its format allows; no outputs; columns that are no whole blocks; a seventeenth group; more rows for the
banks than there are; records of two formats. -/
theorem witness_CardChecks :
    (let k := fun (n : Nat) => BitVec.ofNat 512 n
     (k 1).toNat % 2 ^ 256 &&& (2 ^ 256 - 1 - matrixMask 0xB8 0 (k 1)) ≠ 0 ∧ kMax 1 < mcK (k (64 * 2 ^ 105)) ∧ mcLatch (k (2 ^ 10)) = true ∧ mcOw (k 0) = 0 ∧ mcN (k 0) % 32 ≠ 0 ∧
     15 < (mcCnt (k (16 * 2 ^ 128)) - 1) / mcAstr (k (16 * 2 ^ 128)) ∧ mcM (k (2 * 2 ^ 224)) < mcMs (k (2 * 2 ^ 224)) ∧
     (k (2 ^ 100)).toNat % 2 ^ 256 &&& (2 ^ 256 - 1 - engineMask 0xDA (k (2 ^ 100))) ≠ 0 ∧ ecTocb (k 0) = false ∧ ecCw (k 0) = false ∧
     recFmt (layout 0) ≠ recFmt 0) := by decide +kernel

/-- A card of one line of swept memory. -/
def sweptCard : Token := num 0x200000

/-- s with n riders of job 0 on channel 0. -/
def crowded (n : Nat) (s : State) : State :=
  (List.range n).foldl (fun u k => u.setRider (100 + k) { part := 0, ticket := k, op := 0xCB, job := 0, chans := [(0, {})] }) s

/-- The firing of s names a rider that there is room for, or that there is none for. -/
def boards (s : State) (room : Bool) : Bool :=
  epB s [0] fun f ops => match prepareRider s f.c f.t f.task.part 0xCB 0 false (tokAt ops 0).data with
    | (.ok r, m) => roomNow m f.task.job (r.chans.map Prod.fst) (slotsTaken r) (pipesTaken r) == room
    | _ => false

/-- A rider that is ready, with room and without, one whose page is not mapped, and a null card; a bank card that fails its check. -/
theorem witness_RidersBoard :
    boards (engine (.bdep okEp) sweptCard nullToken) true = true ∧
    boards (crowded 8 (engine (.bdep okEp) sweptCard nullToken)) false = true ∧
    (let s := engine (.bstandRd okEp) (num 0x600000) nullToken
     epB s [0] (fun f ops => !isOk (prepareRider s f.c f.t f.task.part 0xC8 0 true (tokAt ops 0).data).1) = true) ∧
    epB (engine (.brd okEp) nullToken nullToken) [0] (fun _ ops => actsNull 0 ops) = true ∧
    (let s := engine (.bmac okEp) (num (2 ^ 255)) nullToken
     epB s [0] (fun f ops => (matrixCheck s f.c 0xCD 0 0 (tokAt ops 0).data).isSome) = true) ∧
    (let s := engine (.bmac okEp) (num 0) nullToken
     epB s [0] (fun f ops => (matrixCheck s f.c 0xCD 0 0 (tokAt ops 0).data).isNone) = true) := by decide +kernel

/-- A rider of job 0 with sequence number 1. -/
def rider1 (r : Rider → Rider) (s : State) : State :=
  s.setRider 1 (r { part := 0, ticket := 1, op := 0xC8, job := 0, seq := 1, chans := [(0, {})] })

/-- Chain 1 has issued number 1 and, where so given, completed it. -/
def issued1 (done : Bool) (t : Task) : Task := { t with chains := [(1, { tail := 1, hist := if done then [⟨1, 0, 0, 0⟩] else [] })] }

/-- Riders that can and can not be cancelled; a number not issued, one not complete, one complete; a channel owned and one beyond the last; a kernel
card with a reserved bit, misaligned, and whose block does not load; a feed before its deciding firing, refused, and boarded. -/
theorem witness_SweepControl :
    (let s := engine (.bcancel okEp) (num 1) nullToken id (rider1 id)
     epB s [0] (fun f ops => (riderBySeq s f.task.job f.task.rank (laneVal (tokAt ops 0) 0 8)).any fun e =>
       cancellable e.2.op && !e.2.cancelled && !riderDone e.2 && (((cancelRiders s fun k y => k == e.1 || y.parent == some e.1)).task? f.c f.t).isSome) = true) ∧
    (let s := engine (.bcancel okEp) (num 1) nullToken id (rider1 fun r => { r with standing := true })
     epB s [0] (fun f ops => (riderBySeq s f.task.job f.task.rank (laneVal (tokAt ops 0) 0 8)).any fun e => e.2.standing) = true) ∧
    (let s := engine (.bcancel okEp) (num 1) nullToken id (rider1 fun r => { r with op := 0xCF })
     epB s [0] (fun f ops => (riderBySeq s f.task.job f.task.rank (laneVal (tokAt ops 0) 0 8)).any fun e => !cancellable e.2.op) = true) ∧
    epB (engine (.bwait okEp) (num 1) nullToken) [0] (fun f ops => decide ((chainOf f.task 1).tail < laneVal (tokAt ops 0) 0 8)) = true ∧
    (let s := engine (.bwait okEp) (num 1) nullToken (issued1 false) (rider1 id)
     epB s [0] (fun f ops => decide (laneVal (tokAt ops 0) 0 8 ≤ (chainOf f.task 1).tail) && (waitResult s f.task (laneVal (tokAt ops 0) 0 8)).isNone) = true) ∧
    (let s := engine (.bwait okEp) (num 1) nullToken (issued1 true)
     epB s [0] (fun f ops => (waitResult s f.task (laneVal (tokAt ops 0) 0 8)).isSome) = true) ∧
    epB (engine (.cursor okEp) (num 384) nullToken) [0] (fun _ ops => decide (384 ≤ (tokAt ops 0).lane 0)) = true ∧
    (let s := engine (.cursor okEp) (num 0) nullToken
     epB s [0] (fun f ops => (s.chan ((tokAt ops 0).lane 0)).owner == f.task.part) = true) ∧
    epB (engine (.bcfg okEp) (num (2 ^ 511)) nullToken) [0] (fun _ ops => (tokAt ops 0).data.extractLsb' 96 416 != 0) = true ∧
    epB (engine (.bcfg okEp) (num 8) nullToken) [0] (fun _ ops => laneVal (tokAt ops 0) 0 8 % 16 != 0) = true ∧
    (let s := engine (.bcfg okEp) (num 0x400000) nullToken
     epB s [0] (fun f ops => !isOk (loadImage true f.c f.task.part (laneVal (tokAt ops 0) 0 8) s).1) = true) ∧
    epB (engine (.wdrive okEp) (num 0) nullToken id id 2) [0] (fun f _ => f.nd.iter + 1 != phaseEnd f.ph) = true ∧
    epB (engine (.wdrive okEp) (num 1) nullToken) [0] (fun f ops => f.nd.iter + 1 == phaseEnd f.ph && (feedCardCheck f.task (tokAt ops 0).data).isSome) = true ∧
    (let s := engine (.wdrive okEp) (num (0x200000 + 0x200000 * 2 ^ 96)) nullToken fun t => { t with bufs := 2 ^ 31 }
     epB s [0] (fun f ops => (feedCardCheck f.task (tokAt ops 0).data).isNone && match boardFeed (leaveFeed s f.c f.t) f.c f.t f.task (tokAt ops 0).data with
      | .ok (some m) => ((joinFeed m f.c f.t (tokAt ops 0).data true).task? f.c f.t).isSome
      | _ => false) = true) := by decide +kernel

/-- The task's stores have drained, and have not; a sequence that is open, and a descriptor that is none; a send that is refused. -/
theorem witness_KvFires :
    (let seq := num 0x400000
     let descr := fun (s : State) => { s with mem := memWrite s.mem 0x78000000 64 (4 * 2 ^ 194 + 2 ^ 214) }
     epB (engine (.kvlen okEp) nullToken nullToken) [0] (fun _ ops => actsNull 0 ops) = true ∧
     (let s := engine (.kvlen okEp) seq nullToken id fun s => s.setCore 0 { s.core 0 with stores := [{ pend 8 with scope := 3 }] }
      epB s [0] (fun f ops => !actsNull 0 ops && (s.core f.c).stores.any fun p => p.task == f.t && p.scope ≤ 3) = true) ∧
     (let s := engine (.kvlen okEp) seq nullToken
      epB s [0] (fun f ops => (s.core f.c).stores.isEmpty && !isOk (kvTransaction 0xE1 f.c f.task.part (tokAt ops 0).data s).1) = true) ∧
     (let s := engine (.kvlen okEp) seq nullToken id descr
      epB s [0] (fun f ops => isOk (kvTransaction 0xE1 f.c f.task.part (tokAt ops 0).data s).1) = true) ∧
     (let s := engine (.kvsend okEp 0) seq nullToken id descr
      epB s [0] (fun f ops => !isOk (kvSendCheck f.c f.task.part s.pkgId (tokAt ops 0).data s).1) = true)) := by decide +kernel

/-- Job 0's task on core 0 is of its gang alone; port 0 of the pod is up or not. -/
def podUp (s : State) : State := { s with ports := [(0, { up := true })] }

/-- A void operand, reserved bits, a key below pod scope; pod scope with no port; stores out and not; an open round and none. -/
theorem witness_BarriersFire :
    epB (engine (.barA okEp) nullToken nullToken) [0] (fun _ ops => actsNull 0 ops) = true ∧
    epB (engine (.barA okEp) (num 16) nullToken) [0] (fun _ ops => (tokAt ops 0).lane 0 / 16 % 16 != 0) = true ∧
    epB (engine (.barA okEp) (num (2 ^ 17)) nullToken) [0] (fun _ ops => (tokAt ops 0).lane 0 / 2 ^ 17 % 2 ^ 15 != 0) = true ∧
    (let s := engine (.barA { okEp with escope := 4 }) (num 256) nullToken
     epB s [0] (fun _ ops => !actsNull 0 ops && (tokAt ops 0).lane 0 / 256 % 256 != 0 && !podReachable s) = true) ∧
    (let s := engine (.barA { okEp with escope := 4 }) (num 256) nullToken id podUp
     epB s [0] (fun f ops => !actsNull 0 ops && podReachable s && storesOut s f.c f.t 4) = true) ∧
    (let s := engine (.barA { okEp with escope := 1 }) (num 0) nullToken id fun s => s.setCore 0 { s.core 0 with stores := [{ pend 8 with scope := 1 }] }
     epB s [0] (fun f _ => !storesOut s f.c f.t 1) = true) ∧
    (let s := engine (.barW okEp) (num 0) nullToken fun t => { t with arrived := [(barrierKey 0 0 0 0, 1)] }
     epB s [0] (fun f _ => openRound s f.task (barrierKey 0 0 0 0) == some 1) = true) ∧
    (let s := engine (.barW okEp) (num 0) nullToken
     epB s [0] (fun f _ => openRound s f.task (barrierKey 0 0 0 0) == none) = true) := by decide +kernel

/-- A round that an arrival leaves open, and one that it completes. -/
theorem witness_BarrierRounds : ((State.reset.barrier 5).arrivals + 1 < 2) ∧ (1 ≤ (State.reset.barrier 5).arrivals + 1) := by decide +kernel

/-- msend: void, outside the partition, a package out of reach, and on its way; bind: void, misaligned, a channel that is free, held by
another, and kept for a saved task; waitseq: not issued, not complete, complete, forgotten. -/
theorem witness_MessagesAndWaits :
    epB (engine (.msend okEp) nullToken (num 0)) [0, 1] (fun _ ops => actsNull 0 ops) = true ∧
    (let s := engine (.msend okEp) (num 4) (num 0)
     epB s [0, 1] (fun f ops => !actsNull 0 ops && !(s.partn f.task.part).quads.contains (quadOfCore ((tokAt ops 0).lane 0 % 512))) = true) ∧
    (let s := engine (.msend { okEp with escope := 4 }) (num (2 ^ 32)) (num 0)
     epB s [0, 1] (fun _ ops => (tokAt ops 0).lane 1 % 256 != s.pkgId && !podReachable s) = true) ∧
    (let s := engine (.msend okEp) (num (63 * 512 + 3)) (num 0)
     epB s [0, 1] (fun f ops => (s.partn f.task.part).quads.contains (quadOfCore ((tokAt ops 0).lane 0 % 512)) && storesOut s f.c f.t 0) = true) ∧
    epB (engine (.bind okEp) (num (8 * 2 ^ 64)) nullToken) [0] (fun _ ops => laneVal (tokAt ops 0) 2 8 % 16 != 0) = true ∧
    (let s := engine (.bind okEp) (num (63 + 16 * 2 ^ 64)) nullToken
     epB s [0] (fun f _ => (tabGet {} (s.core f.c).chans 63).task.isNone && (tabGet {} (s.core f.c).chans 63).held.isNone) = true) ∧
    (let s := engine (.bind okEp) (num (16 * 2 ^ 64)) nullToken id fun s => (s.setTask 0 1 bareTask).setCore 0 { (s.setTask 0 1 bareTask).core 0 with chans := [(0, { task := some 1 })] }
     epB s [0] (fun f _ => (tabGet {} (s.core f.c).chans 0).task == some 1 && (tabFind (s.core f.c).tasks 1).any fun o => o.job == f.task.job) = true) ∧
    (let s := engine (.bind okEp) (num 0) nullToken id fun s => s.setCore 0 { s.core 0 with chans := [(0, { held := some (3, 0) })] }
     epB s [0] (fun f _ => (tabGet {} (s.core f.c).chans 0).held.isSome) = true) ∧
    epB (engine (.waitseq okEp) (num (1 + 2 ^ 64)) nullToken) [0] (fun f ops => decide ((chainOf f.task 1).tail < laneVal (tokAt ops 0) 0 8)) = true ∧
    epB (engine (.waitseq okEp) (num (3 * 2 ^ 64)) nullToken) [0] (fun _ ops => (tokAt ops 0).lane 2 % 4 == 3) = true ∧
    epB (engine (.waitseq okEp) (num (1 + 2 ^ 64)) nullToken (issued1 false)) [0] (fun f ops => decide ((chainOf f.task 1).done < laneVal (tokAt ops 0) 0 8)) = true ∧
    epB (engine (.waitseq okEp) (num 0) nullToken) [0] (fun _ ops => laneVal (tokAt ops 0) 0 8 == 0) = true ∧
    epB (engine (.waitseq okEp) (num (1 + 2 ^ 64)) nullToken (fun t => { t with chains := [(1, { tail := 1, done := 1, hist := [⟨1, 5, 0, 0⟩] })] })) [0]
      (fun f _ => ((chainOf f.task 1).hist.find? fun d => d.seq == 1).isSome) = true ∧
    epB (engine (.waitseq okEp) (num (1 + 2 ^ 64)) nullToken (fun t => { t with chains := [(1, { tail := 1, done := 1 })] })) [0]
      (fun f _ => ((chainOf f.task 1).hist.find? fun d => d.seq == 1).isNone) = true := by decide +kernel

/-- Before the deciding firing; deciding outside a handler; inside one with a mode beyond the last, and with the last; a trap with a code beyond 16 bits and the last. -/
theorem witness_TaskControl :
    epB (engine (.eret okEp) (num 1) nullToken id id 2) [0] (fun f _ => f.nd.iter + 1 != phaseEnd f.ph) = true ∧
    epB (engine (.eret okEp) (num 1) nullToken) [0] (fun f ops => f.nd.iter + 1 == phaseEnd f.ph && !(tokAt ops 0).null && !f.ph.handler) = true ∧
    (let h := fun (x : Nat) => scene (wordOf (.eret okEp)) { qa := [num x] } id fun p => { p with handler := true }
     epB (h 2) [0] (fun f ops => f.ph.handler && decide (2 ≤ (tokAt ops 0).lane 0)) = true ∧ epB (h 1) [0] (fun f ops => f.ph.handler && decide ((tokAt ops 0).lane 0 < 2)) = true) ∧
    epB (engine (.trap okEp) nullToken nullToken) [0] (fun _ ops => (tokAt ops 0).null) = true ∧
    epB (engine (.trap okEp) (num 65536) nullToken) [0] (fun _ ops => decide (65536 ≤ (tokAt ops 0).lane 0)) = true ∧
    epB (engine (.trap okEp) (num 65535) nullToken) [0] (fun _ ops => maskBit (tokAt ops 0).mask 0 && decide ((tokAt ops 0).lane 0 < 65536)) = true := by decide +kernel

/-- A number that is not assigned, a channel of another partition, a level S register from user level; the registers named, read and written. -/
theorem witness_SystemRegisters :
    (let by_ := fun (f : Foc) => (⟨f.c, f.t, f.task.part, f.task.fn, f.task.sys || f.ph.handler⟩ : RegBy)
     let user := fun (t : Task) => { t with sys := false }
     let fails := fun (n : Nat) (g : Task → Task) (write : Bool) =>
       let s := engine (.syswr okEp) (num n) (num 0) g
       epB s [0, 1] (fun f ops => (regFault s (by_ f) ((tokAt ops 0).lane 0 % 65536) write).isSome)
     fails 2 id true = true ∧ fails 0xFFFF id false = true ∧ fails 0x1001 id false = true ∧ fails 0x100 user true = true ∧
     (∀ n ∈ [0, 1, 8, 0x11, 0x18, 0x40, 0x7F, 0x80, 0x9F, 0x100, 0x106], fails n id true = false ∧
       (let s := engine (.syswr okEp) (num n) (num 0)
        epB s [0, 1] (fun f _ => ((regWrite (by_ f) n 0 s).task? f.c f.t).isSome) = true))) := by decide +kernel

/-- User level; stores out; the range and all of a partition's entries; a full queue and one with room; the numbers at pmrd's edges. -/
theorem witness_SystemActs :
    epB (engine (.tlbinvAll okEp) (num 0) nullToken fun t => { t with sys := false }) [0] (fun f ops => !actsNull 0 ops && !(f.task.sys || f.ph.handler)) = true ∧
    (let s := engine (.tlbinvPg okEp) (num 0) nullToken id fun s => s.setCore 0 { s.core 0 with stores := [{ pend 8 with scope := 3 }] }
     epB s [0] (fun f _ => !storesOut s f.c f.t 3) = true) ∧
    (let s := engine (.tlbinvPg okEp) (num (2 ^ 64)) nullToken
     epB s [0] (fun f _ => storesOut s f.c f.t 3 && (f.task.sys || f.ph.handler)) = true) ∧
    (let at_ := fun (va k size : Nat) => engine (.launch okEp) (num (va + k * 2 ^ 64)) nullToken id fun s => setLq s 0 0 { base := 0x400000, size := size }
     epB (at_ 0x400000 4 1) [0] (fun _ ops => decide (3 < (tokAt ops 0).lane 2)) = true ∧ epB (at_ 0 3 1) [0] (fun _ ops => inWindow (laneVal (tokAt ops 0) 0 8 % 2 ^ 57)) = true ∧
     epB (at_ 0x600000 0 1) [0] (fun f _ => !isOk (engineRead f.c f.task.part 0x600000 128 (at_ 0x600000 0 1)).1) = true ∧
     epB (at_ 0x400000 0 0) [0] (fun f _ => isOk (engineRead f.c f.task.part 0x400000 128 (at_ 0x400000 0 0)).1 && lqFull (lqOf (at_ 0x400000 0 0) 0 0)) = true ∧
     epB (at_ 0x400000 0 1) [0] (fun f _ => !lqFull (lqOf (at_ 0x400000 0 1) 0 0) &&
       isOk (runKeys f.c f.task.part needWrite 0x400000 128 (engineRead f.c f.task.part 0x400000 128 (at_ 0x400000 0 1)).2).1) = true) ∧
    (∀ n ∈ [0, 127, 0x100, 0x101, 0x102, 128, 0xFF, 0x103], epB (engine (.pmrd okEp) (num n) nullToken) [0] (fun _ ops => (tokAt ops 0).lane 0 % 65536 == n) = true) := by decide +kernel

/-- Core 0's running task as given. -/
def taskScene (task : Task → Task := id) (ph : Phase → Phase := id) (g : State → State := id) : State :=
  scene (wordOf (.nul okStage)) {} task ph fun s => g (paged s)

theorem witness_TakingAFault : (taskScene.task? 0 0).any (fun t => (taskScene.partn t.part).trapbase != 0) = true ∧ (foc? taskScene).isSome = true := by decide +kernel

/-- A handler's fault, TRAPBASE 0, and each fate of the status block: none, a page that is not mapped, one that is. -/
theorem witness_HandlerFaultEndsGang :
    (let at_ := fun (stat : Nat) => taskScene id id fun s => s.setJob 0 { record := BitVec.ofNat 1024 (stat * 2 ^ 128), fn := 0, queue := 0, part := 0, order := 0, st := .placed }
     let place := fun (stat : Nat) => ((at_ stat).job? 0).map fun job => isOk (resolveFor (dropGang (at_ stat) 0 job) job.part needWrite (lrStat job.record)).1
     ((at_ 0).task? 0 0).isSome = true ∧ ((at_ 0).job? 0).any (fun j => lrStat j.record == 0) = true ∧ place 0x600000 = some false ∧ place 0x400000 = some true ∧
     (State.reset.partn 0).trapbase = 0) := by decide +kernel

/-- A phase not done, one whose task ended, and one that ends, idle and not, at its header's successor and at its exit's. -/
theorem witness_PhasesEnd :
    (let s := fun (ph : Phase → Phase) => scene (wordOf (.nul okStage)) {} id ph id
     let ends := fun (ph : Phase → Phase) => (((s ph).core 0).running == some 0) && ((s ph).task? 0 0).any fun t => !t.cutting && !t.seed.joined && !cutWaits (s ph) t &&
       (pendingCardFault t).isNone && t.phase.any fun p => phaseDone p && !p.endOp && !p.handler && p.eretOp.isNone && p.wdrive.isNone
     ((s id).task? 0 0).any (fun t => t.phase.any fun p => !phaseDone p) = true ∧
     ((s fun p => { p with n := 0, endOp := true }).task? 0 0).any (fun t => t.phase.any fun p => p.endOp) = true ∧
     ends (fun p => { p with n := 0 }) = true ∧ ends (fun p => { p with n := 0, yieldOp := some true }) = true ∧
     ends (fun p => { p with n := 0, exitRes := some ⟨32, some 48, some 5, false⟩ }) = true) := by decide +kernel

/-- A token on a wire before a queue with room and before a full one; a message to a channel with room, to a full one, and behind an older one;
a core whose count has not reached WAITLIMIT, and one whose has. -/
theorem witness_FabricEvents :
    (let s := scene (wordOf (.vadd okStage)) {} id fun p => { p with wires := [(0, [zeroToken])] }
     ((s.core 0).running == some 0 && (s.task? 0 0).any fun t => t.phase.any fun p => decide ((portQ (nodeOf p 0) 0).length < 4) && !(tabGet [] p.wires 0).isEmpty) = true) ∧
    (let s := scene (wordOf (.vadd okStage)) { qa := List.replicate 4 zeroToken } id fun p => { p with wires := [(0, [zeroToken])] }
     ((s.task? 0 0).any fun t => t.phase.any fun p => !decide ((portQ (nodeOf p 0) 0).length < 4)) = true) ∧
    (let m : Message := ⟨511, 63, 0, 0, 0, 0, 0⟩
     let s := fun (n : Nat) => ({ State.reset.setCore 511 { chans := [(63, { queue := List.replicate n (0, 0) })] } with messages := [m, m] } : State)
     ((s 15).messages[0]?).any (fun x => x.core < 512 && decide ((tabGet {} ((s 15).core x.core).chans x.chan).queue.length < 16)) = true ∧
     (tabGet {} ((s 16).core 511).chans 63).queue.length = 16 ∧ ((s 15).messages.take 1).any (fun x => x.core == m.core && x.chan == m.chan && x.job == m.job && x.rank == m.rank) = true) ∧
    (let s := fun (n : Nat) => (taskScene id id fun s => s.setCore 0 { s.core 0 with orphan := n })
     ((s 0xFFFFF).core 0).orphan < ((s 0xFFFFF).core 0).waitlimit.toNat ∧ ((s 0x100000).core 0).waitlimit.toNat ≤ ((s 0x100000).core 0).orphan ∧
     ((s 0x100000).task? 0 0).any (fun t => !outstanding (s 0x100000) 0 t && !t.cutting && t.phase.any fun p => !phaseDone p) = true) := by decide +kernel

/-- A device that runs, whose function 0 has partition 0 and a record posted to queue 0, in direct memory. -/
def posted (record : Nat) : State :=
  let s := paged State.reset
  let s := { s with boot := .running, jobs := [], mem := memWrite s.mem 0x78000000 128 record }
  let s := s.setFn 0 { en := true, part := 0 }
  setLq s 0 0 { base := 0x400000, size := 1, tail := 1, posts := [(1, 0)] }

/-- A record with STAT; its queue's head is taken first and it can be read; a status place that is refused, and one that is taken by a record
that fails its check. -/
theorem witness_SchedulerActs_take :
    (let s := posted 0
     takeStamp State.reset 0 0 = none ∧ takeStamp s 0 0 = some 0 ∧ takesFirst s 0 0 0 = true ∧ s.jobs.length < 8192 ∧ isOk (directRead s 0 needRead 0x400000 128).1 = true ∧
     (let job : Job := { record := 0, fn := 0, queue := 0, part := 0, order := 0 }
      (statOk s job).1 = true ∧ isOk (checkRecord s job).1 = false ∧ (statOk s { job with record := BitVec.ofNat 1024 (2 ^ 128) }).1 = false)) := by decide +kernel

/-- A job of one task that waits for quad 0, and fits. -/
def waiting (st : JobSt) : State :=
  let s := paged State.reset
  { s.setJob 0 { record := BitVec.ofNat 1024 (1 * 2 ^ 384 + 1 * 2 ^ 512), fn := 0, queue := 0, part := 0, order := 0, st := st } with passDue := true }

/-- Lifts of a job that waits and of one that does not; a pass, due and not, and the gang that fits; a task that has ended and one that has not; a cut
under way and none, complete and not. -/
theorem witness_SchedulerActs :
    ((waiting .ready).job? 0).any jobWaits = true ∧ ((waiting .placed).job? 0).any (fun j => !jobWaits j) = true ∧ (waiting .ready).lifttime ≠ 0 ∧ State.reset.passDue = false ∧
    (let s := waiting .ready
     passOrder s = [0] ∧ s.effort = none ∧ (s.job? 0).any (fun j => j.st == .ready && (fitCores { s with passDue := false } 0 j [] []).any fun cs => cs == [0]) = true ∧
     (s.job? 0).any (fun j => isOk (readImages { s with passDue := false } j).1 && isOk (loadEntries { j with record := BitVec.ofNat 1024 (0x180000 + 2 ^ 384 + 2 ^ 512) } [0] s).1) = true) ∧
    (let s := taskScene id fun p => { p with n := 0, endOp := true }
     (s.task? 0 0).any (fun t => t.phase.any fun p => p.endOp && phaseDone p && !t.cutting && cardsOver t p.handler && ridersOver s t) = true) ∧
    (taskScene.task? 0 0).any (fun t => t.phase.any fun p => !p.endOp) = true ∧
    residents (waiting .placed) 0 = [] ∧ ((waiting .placed).job? 0).any (fun j => j.images.isEmpty && j.st != .cutting) = true ∧
    (let s := fun (cutting : Bool) => taskScene (fun t => { t with cutting := cutting }) id fun s => s.setJob 0 { record := 0, fn := 0, queue := 0, part := 0, order := 0, st := .cutting }
     ((s true).job? 0).any (fun j => j.st == .cutting) = true ∧ (residents (s true) 0).any (fun _ => true) = true ∧
     (residents (s true) 0).all (fun e => taskQuiet (s true) e.1 e.2.1 e.2.2) = true ∧ ridersQuiet (s true) 0 = true ∧
     (residents (s false) 0).all (fun e => taskQuiet (s false) e.1 e.2.1 e.2.2) = false) := by decide +kernel

/-- A task of core 0 that executes a seed of one line, whose first payload word is as given. -/
def seedScene (pay : Nat) (seed : SeedSt → SeedSt := id) (task : Task → Task := id) : State :=
  let b : SeedBuf := ⟨0x1000, 0, [0], 1, 0, false⟩
  let s := paged State.reset
  let s := s.setTask 0 0 (task { bareTask with seed := seed { joined := true, running := true, leave := true, buf := [b] } })
  { s.setCore 0 { s.core 0 with running := some 0 } with mem := memWrite s.mem (keyScratch 0 16) 16 pay }

/-- Some run meets seedRuns and p. -/
def seedB (s : State) (sop : Nat) (h : Husk) (p : SeedRun → Bool) : Bool :=
  (seedFoc? h s).any fun x => (seedPayload s s.focus.1 x.2.2 sop h).any fun pay => p ⟨s.focus.1, x.1, x.2.1, x.2.2, h, pay⟩

theorem seedB_iff (s : State) (sop : Nat) (h : Husk) (p : SeedRun → Bool) :
    seedB s sop h p = true ↔ ∃ r : SeedRun, r.h = h ∧ seedRuns s sop r ∧ p r = true := by
  simp only [seedB, seedRuns, Option.any_eq_true]
  constructor
  · rintro ⟨x, hx, pay, hp, h1⟩
    exact ⟨_, rfl, ⟨rfl, hx, hp⟩, h1⟩
  · rintro ⟨⟨c, t, task, b, h', pay⟩, rfl, ⟨rfl, hx, hp⟩, h1⟩
    exact ⟨_, hx, _, hp, h1⟩

/-- A husk with no field but PLEN. -/
def bareHusk : Husk := ⟨0, 0, 0, 0, 0, 1, 0, 0, 0, 0, 0⟩

/-- Each compute seed runs; a coded payload that ends early; a tile a block of rows too large and one at its limit; ACCROW where it must be 0;
and a matrix seed whose activations are read. -/
theorem witness_SeedsCompute :
    (∀ sop ∈ [1, 2, 3, 4, 5, 6, 7, 13], seedB (seedScene 0) sop bareHusk (fun _ => true) = true) ∧
    (let h := { bareHusk with comp := 1, rows16 := 1, cols16 := 63, fmt := 7 }
     let s := { seedScene 0 with mem := [] }
     (seedFoc? h s).any (fun x => (seedPayload s 0 x.2.2 1 h).isNone) = true) ∧
    (let big := { bareHusk with fmt := 3, rows16 := 9, cols16 := 1 }
     seedB (seedScene 0) 1 big (fun r => decide (kMax 3 < 16 * r.h.rows16.toNat)) = true) ∧
    seedB (seedScene 0) 3 { bareHusk with accrow := 1 } (fun r => r.h.accrow != 0) = true ∧
    seedB (seedScene 0) 5 bareHusk (fun r => r.h.accrow == 0 && 16 * r.h.cols16.toNat == 0) = true ∧
    (let h := { bareHusk with fmt := 3, rows16 := 1, cols16 := 4 }
     let s := seedScene 0 (fun d => { d with m := 1, astrm1 := 3 }) fun t => { t with acc := [0, 1, 2, 3] }
     let s := s.setCore 0 { s.core 0 with recs := [(0, BitVec.ofNat 512 (0x2000 + 3 * 2 ^ 57 + 63 * 2 ^ 90))] }
     seedB s 2 h (fun r => decide (16 * r.h.rows16.toNat ≤ kMax 3) && decide (16 * r.h.cols16.toNat ≤ 64) && activationType (recFmt (recOf (s.core 0) 0)) &&
       rowsFit r.task r.acc r.astr r.m 64 && decide ((64 + 15) / 16 ≤ r.astr) && decide r.task.acc.Nodup &&
       isOk ((List.range r.m).mapM fun m => r.row s (recOf (s.core r.c) 0) 0 16 m)) = true) := by decide +kernel

/-- spad with its last mask and one beyond; sjump with and without a count, and a reserved word; scall and sexit aligned and not; sbar at the last
scope, at pod scope, with stores out, and waiting. -/
theorem witness_SeedsControl :
    seedB (seedScene 15) 12 bareHusk (fun r => decide (r.pay % 2 ^ 32 < 16)) = true ∧ seedB (seedScene 16) 12 bareHusk (fun r => decide (16 ≤ r.pay % 2 ^ 32)) = true ∧
    seedB (seedScene 1) 8 bareHusk (fun r => !(r.pay / 2 ^ 32 % 2 ^ 32).testBit 8) = true ∧
    seedB (seedScene (0x10F * 2 ^ 32)) 8 bareHusk (fun r => (r.pay / 2 ^ 32 % 2 ^ 32).testBit 8 && r.task.b.getD 15 0 == 0) = true ∧
    seedB (seedScene (0x10F * 2 ^ 32) id fun t => { t with b := List.replicate 16 1 }) 8 bareHusk (fun r => r.task.b.getD 15 0 != 0) = true ∧
    seedB (seedScene (2 ^ 64)) 8 bareHusk (fun r => r.pay / 2 ^ 64 % 2 ^ 32 != 0) = true ∧
    seedB (seedScene 32) 9 bareHusk (fun r => r.pay % 2 ^ 57 % 16 == 0) = true ∧ seedB (seedScene 8) 9 bareHusk (fun r => r.pay % 2 ^ 57 % 16 != 0) = true ∧
    seedB (seedScene 32) 10 bareHusk (fun r => r.pay % 2 ^ 57 % 16 == 0 && r.task.seed.joined) = true ∧
    seedB (seedScene 0x0F0301) 11 bareHusk (fun r => r.pay % 256 == 1 && r.pay / 256 % 256 == 3 && r.pay / 65536 % 256 == 15 && r.task.seed.waitBar.isNone && storesOut (seedScene 0x0F0301) r.c r.t 3) = true ∧
    seedB (seedScene 0x400) 11 bareHusk (fun r => r.pay / 256 % 256 == 4) = true ∧
    (let s := seedScene 0x100
     let s := s.setCore 0 { s.core 0 with stores := [{ pend 8 with scope := 1 }] }
     seedB s 11 bareHusk (fun r => !storesOut s r.c r.t 1) = true) ∧
    seedB (seedScene 1 fun d => { d with waitBar := some 5 }) 11 bareHusk (fun r => r.task.seed.waitBar == some 5 && (openRound (seedScene 1) r.task 5).isNone) = true ∧
    seedB (seedScene 1 (fun d => { d with waitBar := some 5 }) fun t => { t with arrived := [(5, 1)] }) 11 bareHusk (fun r => (openRound (seedScene 1) r.task 5).isSome) = true := by decide +kernel

/-- A channel at a refresh slot, at a direct slot and at one that advances, at its last line and before it; a rider that may be admitted to it, one that may
not, a kernel load; riders that are done and not; a kvsend that reads, that has read, that has written its last layer. -/
theorem witness_SweepEvents :
    (let refresh := fun (n : Nat) => n % 32 = 31
     let direct := fun (n : Nat) => ¬refresh n ∧ (n / 32 * 31 + n % 32) % 2 ^ 4 = 2 ^ 4 - 1
     refresh 31 ∧ direct 15 ∧ ¬refresh 0 ∧ ¬direct 0 ∧ (State.reset.chan 0).slot = 0 ∧ (State.reset.chan 0).train = false) ∧
    aboard (leaveCancelled { State.reset with stamp := 1 } 0) 0 = [] ∧
    (let may := fun (r : Rider) (s : State) => (tabFind r.chans 0).any fun y => !r.standing && !y.admitted && !y.gone && turnAt s 0 r && !heldBackAt s 0 r && (r.kind != 0 || !needsPipe r.op || r.leave)
     let s := rider1 (fun r => { r with chans := [(0, { todo := [(0, 0)] })] }) State.reset
     let k := rider1 (fun r => { r with op := 0xD0 }) State.reset
     let c := rider1 (fun r => { r with op := 0xCA }) State.reset
     (s.rider? 1).any (fun r => may r s) = true ∧ (k.rider? 1).any (fun r => r.op == 0xD0 && may r k) = true ∧ (c.rider? 1).any (fun r => !may r c) = true ∧
     (s.rider? 1).any (fun r => !riderDone r && !r.standing) = true) ∧
    (let done := fun (g : Rider → Rider) => rider1 (fun r => g { r with chans := [(0, { gone := true })] }) State.reset
     ((done fun r => { r with kind := 1 }).rider? 1).any (fun r => riderDone r && !r.standing && r.kind == 1) = true ∧
     ((done fun r => { r with cancelled := true }).rider? 1).any (fun r => riderDone r && r.kind == 0 && r.cancelled && r.op != 0xCD && r.parent.isNone) = true) ∧
    (let x : KvSend := { part := 0, core := 0, job := 0, rank := 0, seq := 1, seqVa := 0, card := 0, pages := [], nlayl := 0, layer := 0, left := 1, dst := some 64, reader := some 1 }
     let s := fun (alit : Bool) (writer : Option Nat) => { (rider1 (fun r => { r with kind := 1, alit := alit }) State.reset).setRider 2 { part := 0, ticket := 2, op := 0xCB, kind := 1, alit := alit }
      with kvsends := [(9, { x with writer := writer })] }
     tabFind State.reset.kvsends 9 = none ∧
     (tabFind (s false none).kvsends 9).any (fun z => (z.reader.bind (s false none).rider?).any fun r => !r.alit) = true ∧
     (tabFind (s true none).kvsends 9).any (fun z => z.writer.isNone && z.dst.isSome && (z.reader.bind (s true none).rider?).any fun r => r.alit) = true ∧
     (tabFind (s true (some 2)).kvsends 9).any (fun z => z.writer == some 2 && decide (z.left ≤ 1) && ((s true (some 2)).rider? 2).all Rider.alit) = true ∧
     (((s false (some 2)).rider? 2).all Rider.alit) = false) := by decide +kernel

/-- A card of chain 0 of core 0's task. -/
def carded (k : Card) (task : Task → Task := id) : State := taskScene fun t => task { t with chains := [(0, { tail := 1, cards := [k] })] }

/-- A matrix card that can start, one that waits for leave, one done and one not; a fault withheld; a tile task with a valid record; leave requests; seed
lines with and without a joined task; a seed that can start. -/
theorem witness_EngineEvents :
    (let k : Card := { seq := 1, op := 0xBB, sub := 0 }
     let find := fun (k : Card) (p : State → Task → Card → Bool) => ((carded k).task? 0 0).any fun t => (cardOf t 0 1).any (p (carded k) t)
     find k (fun s t c => !t.cutting && isMatrixOp c.op && c.op != 0xBF && c.st == .waiting && chainTurn t c && edgesClear s 0 t.part c && storesDrained s 0 0 c.stamp && c.bank == 0) = true ∧
     find { k with op := 0xB8 } (fun _ _ c => c.op == 0xB8 && !c.leave && !c.asked) = true ∧ find { k with op := 0xB8, asked := true } (fun _ _ c => c.asked && !c.leave) = true ∧
     find { k with st := .started, prog := 1 } (fun _ _ c => isMatrixOp c.op && c.st == .started && !c.relatch && decide (cardRows c ≤ c.prog) && c.bankDone) = true ∧
     find { k with st := .started } (fun _ _ c => decide (c.prog < cardRows c)) = true ∧
     find { k with st := .withheld, fault := some { cls := 3, src := 1 } } (fun _ t c => c.fault.isSome && !c.taken && !t.cutting && c.st == .withheld && t.st != .trapped) = true ∧
     find k (fun _ _ c => c.fault.isNone) = true) ∧
    (let s := fun (r : Nat) => { (paged State.reset).setQuad 0 { ttbase := 0x400000, ttsize := 1 } with mem := memWrite (paged State.reset).mem 0x78000000 128 r }
     let valid := fun (r : Nat) => match runKeys 0 0 needRead 0x400000 128 (s r) with
       | (.ok ks, m) => (BitVec.ofNat 1024 (readKeys m ks)).getLsbD 1016
       | _ => false
     partOfQuad State.reset 0 = none ∧ partOfQuad (s 0) 0 = some 0 ∧ valid (2 ^ 1016) = true ∧ valid 0 = false ∧ isOk (runKeys 0 0 needRead 0x400000 128 (s 0)).1 = true) ∧
    nextLeave (State.reset.die 0) = none ∧ (nextLeave { leaves := [⟨4, 1, 0, 0, 0, 1, none, 0⟩, ⟨4, 2, 0, 1, 0, 1, none, 0⟩] }).any (fun r => r.prio == 2) = true ∧
    (State.reset.core 0).seedIn = [] ∧
    (let line : SeedLine := ⟨0x1000, 0, 0, false, true, true, true⟩
     let s := fun (joined : Bool) => (taskScene fun t => { t with seed := { joined := joined } }).setCore 0 { (taskScene fun t => { t with seed := { joined := joined } }).core 0 with seedIn := [line] }
     ((s false).core 0).tasks.all (fun e => !e.2.seed.joined) = true ∧ (((s true).core 0).tasks.find? fun e => e.2.seed.joined).isSome = true) ∧
    (let s := fun (sop : Nat) (asked : Bool) => taskScene fun t => { t with st := .ready, seed := { joined := true, buf := [⟨0x1000, BitVec.ofNat 128 (sop * 2 ^ 120), [0], 1, 0, false⟩], asked := asked } }
     let may := fun (t : Task) => !t.cutting && t.st == .ready && seedMode t && !ep0Busy t
     ((s 3 false).task? 0 0).any (fun t => may t && (seedHead t).any fun b => !isMatrixSeed b) = true ∧
     ((s 1 false).task? 0 0).any (fun t => may t && !t.seed.leave && !t.seed.asked && (seedHead t).any isMatrixSeed) = true ∧
     ((s 2 true).task? 0 0).any (fun t => may t && t.seed.asked) = true ∧
     (((taskScene fun t => { t with seed := { buf := [⟨0x1000, 0, [0], 1, 0, false⟩] } }).task? 0 0).any fun t => !may t && (seedHead t).isSome) = true) := by decide +kernel

/-- A channel in training with a test and without, one that does not train; sequences open and none; a REPAIR value that is taken and ones that are not; a write that faults. -/
theorem witness_RegisterWrites :
    (let x : Channel := { train := true }
     x.test = none ∧ ({ x with test := some (false, 0) } : Channel).test ≠ none ∧ (State.reset.chan 0).train = false ∧ repairOk 0x3F3F = true ∧ repairOk 0x40 = false ∧ repairOk 0x8181 = false) ∧
    (State.reset.partn 0).seqs = [] ∧ ({ seqs := [64] } : Part).seqs ≠ [] ∧
    (regFault State.reset ⟨0, 0, 0, 0, true⟩ 0x100 true).isNone = true ∧ (regFault State.reset ⟨0, 0, 0, 0, true⟩ 2 true).isSome = true := by decide +kernel

/-- A device before and after its block is accepted; an empty queue and one that holds a record; a window access in the boot buffer and beyond it, one that is mapped and
one that is not; a request of a host that is out. -/
theorem witness_QueuesAndHost :
    (let s := (posted 0).setFn 0 { (posted 0).fnOf 0 with winbase := 1 }
     (State.reset.boot == .running) = false ∧ (s.boot == .running) = true ∧ (lqOf s 0 0).head ≠ (lqOf s 0 0).tail ∧ (lqOf State.reset 0 0).head = (lqOf State.reset 0 0).tail ∧
     bootWindow State.reset 0 (2 ^ 24 - 4) 4 = true ∧ bootWindow State.reset 0 (2 ^ 24 - 3) 4 = false ∧ bootWindow s 0 0 4 = false ∧
     isOk (winRuns s 0 0x600000 4 needWrite).1 = false ∧ (match (winRuns s 0 0x400000 4 needWrite).1 with | .ok ks => ks == [⟨0x78000000, 4, 2⟩] | _ => false) = true ∧
     (match (winRuns s 0 0x400000 4 needRead).1 with | .ok ks => ks == [⟨0x78000000, 4, 2⟩] | _ => false) = true ∧ s.latent = [] ∧ poisoned s 0x78000000 4 = false) ∧
    (let a := { issuedAt 0x72 false false with pieces := [⟨keyHost 0, 4, 0x600000, 0, 0, false, 0⟩] }
     (accFind (stands a) (accRef 0 0 0)).any (fun x => (x.2.pieces[0]?).any fun p => x.2.stage == .issued && !isStoreOp x.2.op && !p.doneP && isHost p.key) = true) ∧
    (tabGet (true, false) ({ msix := [(5, true, true)] } : Fn).msix 5).2 = true ∧ (∃ y, (0, y) ∈ (posted 0).fns) := by
  refine ⟨by decide +kernel, by decide +kernel, by decide +kernel, ⟨_, List.mem_cons_self⟩⟩

/-- Flits of each kind, good and with a CRC that fails, in order and out of order; a replay of what is not acknowledged; a group that no partition has and one that has a partition. -/
theorem witness_PodEvents :
    (let x : Port := { up := true }
     let flit := fun (seq kind : Nat) => mkFlit seq 0 kind []
     x.up = true ∧ (∀ k ∈ [0, 1, 2, 3], flKind (flit 0 k) = k ∧ flitOk (flit 0 k) = true) ∧ flitOk { flit 0 0 with payload := [1] } = false ∧
     flSeq (flit 0 0) = x.expect ∧ flSeq (flit 1 0) ≠ x.expect ∧ (unackedFrom 0 [flit 0 0]).isEmpty = false ∧
     (let y := fun (n : Nat) => resend { x with unacked := [flit 0 0], replayed := [(0, n)] } 0
      ((y 6).replayed.all fun e => e.2 < 8) = true ∧ ((y 7).replayed.any fun e => 8 ≤ e.2) = true)) ∧
    (let s := { paged State.reset with boot := .running }
     State.reset.boot ≠ .running ∧ partOfPod s 3 = none ∧ partOfPod s 0 = some 0 ∧ s.latent = [] ∧ poisoned s 0x78000000 4 = false ∧
     (match (directSpan s 0 needRead 0x400000 4).1 with | .ok ks => ks == [⟨0x78000000, 4, 2⟩] | _ => false) = true ∧
     (match (directSpan s 0 needWrite 0x400000 1).1 with | .ok ks => ks == [⟨0x78000000, 1, 2⟩] | _ => false) = true ∧
     (match (directSpan s 0 needRead 0x600000 4).1 with | .error e => e.cls != 9 | _ => false) = true ∧ isOk (directSpan s 0 needWrite 0x600000 1).1 = false) := by decide +kernel

/-- A block that is accepted: one partition of quad 127 and functions 0 and 5 (sweep lengths of the first 16 channels only, to keep the check small). -/
def goodBlock : ConfigBlock :=
  ⟨true, Config.idDigest, 1, true, [⟨0, [127], [0, 5], 3⟩], [], [], [11], List.replicate 384 7, List.replicate 384 4, List.replicate 16 0x1000, List.replicate 12 95, List.replicate 12 8,
    0x0381C07E, 1000, 0x10000, 0, false, List.replicate 4 512, 0, 0, 0⟩

theorem goodBlock_passes : goodBlock.device = Config.idDigest ∧ blockNames goodBlock = true ∧ blockRanges goodBlock = true := ⟨rfl, by decide +kernel, by decide +kernel⟩

/-- A block that passes every check, one whose signature fails, and one that passes all but the last. -/
theorem witness_BootAndAttest_blocks : blockError { goodBlock with sigOk := false } = some 1 ∧ blockError goodBlock = none ∧
    blockError { goodBlock with version := 0 } = some 3 ∧ { goodBlock with version := 0 }.device = Config.idDigest := by
  obtain ⟨h1, h2, h3⟩ := goodBlock_passes
  refine ⟨rfl, ?_, ?_, rfl⟩
  · have : (goodBlock.sigOk, goodBlock.version, goodBlock.lenOk, goodBlock.oppoint) = (true, 1, true, 0) := rfl
    simp only [Prod.mk.injEq] at this
    simp [blockError, h1, h2, h3, this]
  · have : goodBlock.sigOk = true := rfl
    simp [blockError, h1, this]

/-- Images whose signature verifies and not, in recovery and not; a command that is checked and one of the last length; a delay that was found and one that is stored;
requests before and after the version and the algorithms. -/
theorem witness_BootAndAttest :
    (⟨0, true⟩ : Image).sigOk = true ∧ (⟨0, false⟩ : Image).sigOk = false ∧ ({ State.reset with boot := .recovery } : State).boot = .recovery ∧ State.reset.boot ≠ .recovery ∧
    ({ State.reset with boot := .config } : State).boot = .config ∧ State.reset.bootBusy = none ∧ ({ State.reset with bootBusy := some ⟨2, []⟩ } : State).bootBusy.isSome = true ∧
    (2 ^ 24 * 2 ^ 32 + 2 < 2 ^ 64) ∧
    (let b := { goodBlock with trained := [{ chan := 383, rd := 0, wr := 0, sp := 0, repair := 0 }], delays := [{ chan := 0, rd := 0, wr := 0, sp := 0, repair := 0 }] }
     (b.trained.find? fun d => d.chan == 383).isSome = true ∧ b.trained.find? (fun d => d.chan == 0) = none ∧ (b.delays.find? fun d => d.chan == 0).isSome = true) ∧
    (State.reset.spdmVersion && State.reset.spdmAlgs.isSome) = false := by decide +kernel

/-- A frozen device that meets a move of its own, and devices that run. -/
theorem witness_FrozenStands :
    (let s := { State.reset with freezePin := true, moves := [.cycle 511] }
     frozen s = true ∧ moveNamesUnits (nextMove s) = true ∧ frozen State.reset = false ∧ State.reset.oppointReg = State.reset.oppoint ∧ State.reset.freezeReg = false) ∧
    ∀ i, nextMove { State.reset with freezePin := true, moves := [.cycle 511] } = .ev i → runsFrozen i = false := by
  refine ⟨by decide +kernel, fun i h => by cases h⟩

/-- A canonical memory that is not empty; a slot that holds an instruction and one that holds none; a husk that executes; an event; a frozen device. -/
theorem witness_StepRuns :
    (let s := placeWord State.reset (wordOf (.vadd okStage))
     s.Ok ∧ nextMove s = .fire 0 0 ∧ frozen s = false ∧ fetchWord s 0 0 = some (wordOf (.vadd okStage)) ∧ (decode (wordOf (.vadd okStage))).toOption = some (.vadd okStage)) ∧
    fetchWord State.reset 511 127 = none ∧
    (let s := placeHusk State.reset ((encodeSeed (.smmz okHusk)).getD 0)
     nextMove s = .seed 0 ∧ fetchHusk s 0 = encodeSeed (.smmz okHusk) ∧ (decodeHusk ((encodeSeed (.smmz okHusk)).getD 0)).toOption = some (.smmz okHusk)) ∧
    fetchHusk State.reset 511 = none ∧ isEvent .resume = true ∧ runsFrozen .resume = true ∧ runsFrozen (.lift 0) = false ∧
    frozen { State.reset with freezeReg := true } = true := by
  refine ⟨⟨rfl, ?_⟩, ?_⟩ <;> decide +kernel

/-- The word and the husk of every encoding that the host asks about: the decoder of the opcode table reads a little-endian word. -/
theorem test_decodeTableWord : decodeTableWord 64 0x052C119D02000003 = some (.vmul ⟨0, 11, 0x008, 0x19D, 0, 0, 0, 1, 0, 3⟩) ∧
    decodeTableWord 128 0x026040000500000000000101010001F6 = some (.smmz okHusk) ∧ decodeTableWord 64 0 = none ∧ decodeTableWord 129 1 = none := by decide +kernel

/-- The first step after reset runs the word placed: vadd of two zero tokens fires once. -/
theorem test_step_runs_placed : (match step (State.reset.withFetchWord 64 (wordOf (.vadd okStage)).toNat) with
    | .next t => (t.task? 0 0).any fun x => x.firings == 1 && x.phase.any fun p => (nodeOf p 0).iter == 1
    | _ => false) = true := by decide +kernel

/-! The further hypotheses of the statements, each met. -/

/-- Every stage instruction that sends tokens fires on operands that are not null. -/
theorem witness_NullOperands_forms : (stageForms okStage).all (fun i => stageB i okStage (scene (wordOf i))) = true := by decide +kernel

/-- A 2 MiB page of direct memory at 0x40_0000 of partition 0, in a TLB. -/
def mapped4 : TlbEntry := ⟨0, 0x400000, 0x200000, 0x7800008F#64, 0x78000000⟩

/-- An atomic on that page, its quad's TLB with the page and without it, channel 0 in training or not. -/
def atomicScene (tlb : List TlbEntry) (train : Bool) : State :=
  let w := { okMem with ty := 12 }
  scene (wordOf (.aadd w)) { full with qa := [num 0x400000] } id id fun s =>
    let s := (paged s).setQuad 0 { tlb := tlb }
    s.setChan 0 { s.chan 0 with train := train }

/-- An atomic whose bytes a page maps once, one whose walk finds its controller in training, and a load that lies in the window. -/
theorem witness_MemoryFires_complete :
    (let w := { okMem with ty := 12 }
     let s := atomicScene [mapped4] true
     memB s w (fun f ops => !actsNull 0 ops && lanesRead 0x80 w ops true && !misaligned 0x80 w (recOf (s.core f.c) 0) ops (runsOf 0x80 w (recOf (s.core f.c) 0) ops) &&
       (runsOf 0x80 w (recOf (s.core f.c) 0) ops).map (fun y => (y.va, y.len)) == [(0x400000, 4)] && checksOpen 0x80 w f.c f.task.part ops s) = true ∧
     memB (atomicScene [] true) w (fun f ops => !actsNull 0 ops && lanesRead 0x80 w ops true && !checksOpen 0x80 w f.c f.task.part ops (atomicScene [] true)) = true ∧
     mapped4 ∈ (s.quad 0).tlb) ∧
    (let s := scene (wordOf (.ldSp okMem)) full id id (withRec (layout 0x17FFC0))
     memB s okMem (fun f ops => (runsOf 0x70 okMem (recOf (s.core f.c) 0) ops).all fun y => inWindow y.va && inWindow (y.va + y.len - 1)) = true) := by decide +kernel

theorem witness_mapsOnce : mapsOnce ((atomicScene [mapped4] true).quad 0) 0 := by
  have h : ((atomicScene [mapped4] true).quad 0).tlb = [mapped4] := by decide +kernel
  simp [mapsOnce, h]

theorem witness_mappedBy : mappedBy (atomicScene [mapped4] true) 0 0 (needOf 0x80 { okMem with ty := 12 }) 0x400000 4 mapped4 := by
  refine ⟨by decide +kernel, by decide +kernel, rfl, by decide, by decide, by decide, fun v h1 h2 => ?_⟩
  have h : v = 0x400000 ∨ v = 0x400001 ∨ v = 0x400002 ∨ v = 0x400003 := by omega
  rcases h with rfl | rfl | rfl | rfl <;> decide +kernel

/-- A token store at the bank, its pieces in core 0's scratchpad. -/
theorem witness_AccessesAnswered_store :
    (let a := { issuedAt 0x71 false false with pieces := [⟨keyScratch 0 0, 4, 0, 0, 7, false, 0⟩, ⟨keyScratch 0 60, 4, 60, 60, 9, false, 0⟩] }
     (accFind (stands a) (accRef 0 0 1)).any (fun x => x.2.stage == .issued && !x.2.waiting && isStoreOp x.2.op && isTokenOp x.2.op &&
       ((x.2.pieces[1 % 32]?).any fun p => isScratch p.key && !p.doneP && p.view == 0) && x.2.pieces.all fun p => isScratch p.key && decide (p.key + p.len ≤ 2 ^ 72)) = true) := by
  decide +kernel

/-- A store of package scope whose controller trains, and one that drains; weak and strong ones to a host; a write on the link behind one that
carries no Relaxed Ordering, and one behind none. -/
theorem witness_StoresDrain_pipes :
    (let p := { pend 8 with scope := 3, ro := false }
     let s := State.reset.setChan 0 { State.reset.chan 0 with train := true }
     pipeOpen s p.key (drainScope p) = false ∧ pipeOpen State.reset p.key (drainScope p) = true ∧ pipeHeld State.reset (pipeOf (drainScope p)) p.key p.span = false ∧ isLocal p.key = true ∧
     drainScope { p with ro := true } = 1 ∧ blocksOf p.key p.span ≠ [] ∧ State.reset.views = []) ∧
    ({ pend (keyHost 0) with be := 0xF } : PStore).ro = true ∧ ({ pend (keyHost 0) with be := 0xF, ro := false } : PStore).ro = false ∧
    (let h : HostWrite := { job := 0, addr := 0, bytes := [1], ro := false }
     ([h, h].take 1).all HostWrite.ro = false ∧ ([h, h].take 0).all HostWrite.ro = true) := by decide +kernel

/-- A wait whose timeout has passed and one whose has not; a poll that is due and one that is not. -/
theorem witness_MemoryEvents_times :
    (let at_ := fun (t : Nat) => (stands (issuedAt 0x89 true true)).setCore 0 { (stands (issuedAt 0x89 true true)).core 0 with refTime := t }
     let a := issuedAt 0x89 true true
     256 * (tokAt a.ops 2).lane 0 = 256 ∧ elapsed ((at_ (408 * 255)).core 0) a.since = 255 ∧ elapsed ((at_ (408 * 256)).core 0) a.since = 256 ∧
     elapsed ((at_ (408 * 1023)).core 0) a.readAt = 1023 ∧ elapsed ((at_ (408 * 1024)).core 0) a.readAt = 1024 ∧
     (accFind (at_ (408 * 256)) (accRef 0 0 0)).any (fun x => x.2.op == 0x89 && x.2.waiting && x.2.poll) = true) := by decide +kernel

/-- A buffer that hx4 cannot use, one that it can, and one whose free slot was freed in this cycle. -/
theorem witness_BuffersFire_forms :
    (let odd : CBuf := { desc := cbWith (BitVec.ofNat 256 (2 ^ 32)) 1 0 0 0 0 0 }
     cbTokens odd.desc % 2 = 1 ∧ cbTokens (buffer 0 2 0 0 0 0 []).desc % 2 = 0 ∧ cbWrTok (buffer 0 2 0 0 0 0 []).desc + 1 < cbTokens (buffer 0 2 0 0 0 0 []).desc ∧
     (buffer 0 2 0 0 0 0 []).free ≠ 0 ∧ ({ buffer 1 1 0 0 1 0 [] with added := (0, 1) } : CBuf).free = 0) := by decide +kernel

/-- The firing of a copy meets p, its task as given. -/
def copyChecks (g : Task → Task) (p : State → Foc → Bool) : Bool :=
  let s := engine (.copy okEp 0) (num 0) nullToken g
  (foc? s).any (p s)

/-- A collective, a ring step and a copy whose cards pass; a copy to a buffer that the task declares, to one that none declares, and to one of a
core of another partition; regions used and not. -/
theorem witness_CardChecks_engine :
    (let tocb := fun (c n : Nat) => BitVec.ofNat 512 (2 ^ 6 + n * 2 ^ 7 + c * 2 ^ 12)
     copyChecks id (fun s f => (engineCheck s f 0xD9 1 0).isNone) = true ∧
     copyChecks id (fun s f => (engineCheck s f 0xDA 1 (BitVec.ofNat 512 (1 + 2 ^ 186))).isNone && ecSrec 1 != ecDrec (BitVec.ofNat 512 (1 + 2 ^ 186))) = true ∧
     copyChecks id (fun s f => (engineCheck s f 0xD8 1 0).isNone) = true ∧
     copyChecks (fun t => { t with bufs := 2 ^ 30 }) (fun s f => (engineCheck s f 0xD8 1 (tocb 0 30)).isNone) = true ∧
     copyChecks id (fun s f => (engineCheck s f 0xD8 1 (tocb 0 30)).any fun e => e.cls == 0x0D) = true ∧
     copyChecks id (fun s f => (engineCheck s f 0xD8 1 (tocb 4 0)).any fun e => e.cls == 0x0E) = true ∧
     footprintOk 0 = true ∧ footprintOk (BitVec.ofNat 512 (2 ^ 256)) = false) := by decide +kernel

/-- A swept card that passes the checks of its card, its lines those of the range, in a job that declares room; a bank share that waits. -/
theorem witness_RidersBoard_ready :
    (let s := engine (.bdep okEp) sweptCard nullToken
     epB s [0] (fun f ops =>
       let card := (tokAt ops 0).data
       let lines := rangeLines (quadOfCore f.c) f.task.part (rcVbase card) (rangeNeed 0xCB) (rcLines card) s
       (cardCheck s f.c f.task.part 0xCB false card).isNone && lines.1.isNone && (operandBytes 0xCB card == 0 || inWindow (rcSaddr card + operandBytes 0xCB card - 1)) &&
         !rcCw card && declaresRoom s f.task.job 1 0) = true) ∧
    (let s := engine (.bstandRd okEp) sweptCard nullToken id fun s => s.setCore 0 { s.core 0 with bufs := [(0, { desc := BitVec.ofNat 256 (7 * 2 ^ 21 + 2 ^ 80) })] }
     epB s [0] (fun f ops => (cardCheck s f.c f.task.part 0xC8 true (tokAt ops 0).data).isNone && !rcLand (tokAt ops 0).data && declaresRoom s f.task.job 2 0) = true) := by decide +kernel

/-- A rider that is over with nothing more to deliver, and one that is not. -/
theorem witness_SweepControl_over :
    (let s := fun (gone : Bool) => rider1 (fun r => { r with chans := [(0, { gone := gone })] }) (engine (.bcancel okEp) (num 1) nullToken)
     ((s true).rider? 1).any (fun r => cancellable r.op && !r.cancelled && !r.standing && nothingOwed (s true) 1 r) = true ∧
     ((s false).rider? 1).any (fun r => cancellable r.op && !r.cancelled && !nothingOwed (s false) 1 r) = true) := by decide +kernel

/-- A bcfg whose block loads. -/
theorem witness_SweepControl_loads :
    (let s := engine (.bcfg okEp) (num 0x400000) nullToken id fun s => { s with mem := memWrite s.mem 0x78000000 16 (2 ^ 124 + 2 ^ 120) }
     epB s [0] (fun f ops => laneVal (tokAt ops 0) 0 8 % 16 == 0 && isOk (loadImage true f.c f.task.part (laneVal (tokAt ops 0) 0 8) s).1) = true) := by decide +kernel

/-- A descriptor with no window, one with window 3 open, one with positions reserved, tables of no entry and of one; an atomic of the task that is not
performed, and nothing out. -/
theorem witness_KvFires_transactions :
    emptyRecord 0 = some 0 ∧ winRecord 0 3 = none ∧ winOpen 0 = false ∧ sdRlen 0 = sdClen 0 ∧ winRecord (3 * 2 ^ 216) 3 = some 0 ∧ winOpen (3 * 2 ^ 216) = true ∧
    sdRlen (2 ^ 146) ≠ sdClen (2 ^ 146) ∧ sdBtn 0 < (1 + 2 ^ sdPppl 0 - 1) / 2 ^ sdPppl 0 ∧ (1 + 2 ^ sdPppl (2 ^ 178) - 1) / 2 ^ sdPppl (2 ^ 178) ≤ sdBtn (2 ^ 178) ∧
    ((stands (issuedAt 0x80 false false)).task? 0 0).any (fun t => t.phase.any fun p => (accsOf p 96).any fun a => notReached false 3 a) = true ∧
    (let s := engine (.kvopen okEp) (num 0x400000) nullToken
     (s.core 0).stores = [] ∧ s.hostWc = [] ∧ s.hostLink = [] ∧ (s.task? 0 0).any (fun t => t.held.isNone && t.phase.any fun p => p.accs.isEmpty) = true) := by decide +kernel

/-- A pod-scope barrier whose fences are not asked for, still out, and done. -/
theorem witness_BarriersFire_fences :
    (let s := fun (fences : List (Nat × List Nat)) => scene (wordOf (.barA { okEp with escope := 4 })) { qa := [num 256] } id (fun p => { p with epFences := fences }) podUp
     let f := fun (l : List (Nat × List Nat)) => (foc? (s l)).map fun f => (f.slot, (epFenced (s l) f 4).1)
     f [] = some (127, false) ∧ f [(127, [0])] = some (127, false) ∧ f [(127, [])] = some (127, true) ∧ pathSwitches (s []) = [0] ∧ podReachable (s []) = true) := by decide +kernel

/-- A launch that waits for the posted writes before a record in host memory, and a queue in host memory that they hold up. -/
theorem witness_SystemActs_waits :
    (let s := { paged State.reset with hostLink := [{ job := 0, addr := 0, bytes := [1], ro := false }] }
     readsOpen s [⟨keyHost 0, 128, 0⟩] = false ∧ writesOpen s [⟨keyHost 0, 128, 0⟩] = false ∧ readsOpen s [⟨0x78000000, 128, 2⟩] = true ∧
     launchReads s 0 0 0x400000 = true ∧ launchReads { s with mem := memWrite s.mem 0x7FFFE010 8 (2 ^ 56 + 0x8F) } 0 0 0x400000 = false) := by decide +kernel

/-- A handler's phase that ends, one that returns, one after a plain yield, and an exit by ret. -/
theorem witness_PhasesEnd_forms :
    (let ends := fun (ph : Phase → Phase) (p : Task → Phase → Bool) =>
       let s := scene (wordOf (.nul okStage)) {} id (fun x => ph { x with n := 0 }) id
       (s.task? 0 0).any fun t => !t.cutting && !t.seed.joined && !cutWaits s t && (pendingCardFault t).isNone && t.phase.any fun x =>
         phaseDone x && !x.endOp && x.wdrive.isNone && p t x
     ends (fun p => { p with handler := true }) (fun _ p => p.handler && p.eretOp.isNone) = true ∧
     ends (fun p => { p with handler := true, eretOp := some true }) (fun _ p => p.eretOp == some true) = true ∧
     ends (fun p => { p with yieldOp := some false }) (fun _ p => p.yieldOp == some false) = true ∧
     ends (fun p => { p with exitRes := some ⟨0, none, none, true⟩, wrbs := [(12, 0, 48)] }) (fun t p => (p.wrbs.foldl (fun b x => b.set x.1 x.2.2) t.b).getD 12 0 == 48) = true) := by
  decide +kernel

/-- A message to another package with a path and with none, its sender's token owed. -/
theorem witness_FabricEvents_pod :
    (let m : Message := ⟨512 * 2, 63, 4, 0, 0, 0, 5⟩
     let s := { taskScene id fun p => { p with owed := [(127, [⟨0, 5, none⟩])] } with messages := [m] }
     512 ≤ m.core ∧ podReachable (podUp s) = true ∧ podReachable s = false ∧ findTask s m.job m.rank = some (0, 0) ∧
     (s.task? 0 0).any (fun t => t.phase.any fun p => ((owedOf p 127).find? fun o => o.tok.isNone && o.key == m.key).isSome) = true ∧ (s.core 0).running = some 0) := by decide +kernel

/-- A deferral that expires while a task of the gang has not begun its cut, and one of two queues posted at one moment. -/
theorem witness_SchedulerActs_more :
    (let s := taskScene id id fun s => s.setJob 0 { record := 0, fn := 0, queue := 0, part := 0, order := 0, st := .cutting }
     ((s.job? 0).any fun j => j.st == .cutting) = true ∧ (s.task? 0 0).any (fun x => x.job == 0 && !holdsCut (s.core 0) 0 x) = true) ∧
    (let s := setLq (posted 0) 0 1 { base := 0x400000, size := 1, tail := 1, posts := [(1, 0)] }
     takeStamp s 0 1 = some 0 ∧ takesFirst s 0 1 0 = false ∧ takesFirst s 0 0 0 = true) := by decide +kernel

/-- Arrive and arrive-and-wait at core scope with nothing out, and an atomic out. -/
theorem witness_SeedsControl_bars :
    seedB (seedScene 0) 11 bareHusk (fun r => r.pay % 256 == 0 && r.task.seed.waitBar.isNone && r.task.phase.isNone && r.task.held.isNone && ((seedScene 0).core 0).stores.isEmpty) = true ∧
    seedB (seedScene 1) 11 bareHusk (fun r => r.pay % 256 == 1 && r.task.seed.waitBar.isNone) = true ∧
    (let s := seedScene 0x100 id fun t => { t with held := some { barePhase 96 (wordOf (.aadd { okMem with ty := 12 })) with accs := [(96, [{ issuedAt 0x80 false false with w := { okMem with ty := 12, scope := 1 } }])] } }
     seedB s 11 bareHusk (fun r => (r.task.held.any fun p => (accsOf p 96).any fun a => notReached false 1 a)) = true) := by decide +kernel

/-- A completion word whose controller trains and one that takes it; an engine's reader whose task is there; a kvsend to another package with no path, one whose deposits board
and one whose can not, one whose flag is held up and one with none. -/
theorem witness_SweepEvents_more :
    (let w : MemRun := ⟨0, 4, 0⟩
     cwOpen (State.reset.setChan 0 { State.reset.chan 0 with train := true }) w 3 = false ∧ cwOpen State.reset w 3 = true ∧ State.reset.latent = []) ∧
    (getTask taskScene 0 0).isSome = true ∧ getTask State.reset 0 0 = none ∧ podReachable State.reset = false ∧
    (let x : KvSend := { part := 0, core := 0, job := 0, rank := 0, seq := 1, seqVa := 0, card := 0, pages := [], nlayl := 0, layer := 0, left := 1, dst := some 64, reader := some 1 }
     let r : Rider := { part := 0, ticket := 1, op := 0xC8 }
     (sendDeposits taskScene 9 x r).isSome = true ∧ sendDeposits taskScene 9 { x with pages := [(0, 1)] } r = none ∧
     tabFind (({ arms := [(64, ⟨0, 4, 0⟩)] } : Die).arms) 64 = some ⟨0, 4, 0⟩ ∧ tabFind (State.reset.die 0).arms 64 = none) ∧
    ({ slot := 0, train := true } : Channel).train = true ∧ needsPipe 0xC8 = false ∧ needsPipe 0xC9 = true := by decide +kernel

/-- A leave request that has waited and one that has not; a card of a handler whose task is trapped; a tile record in progress; a line for a joined task that faults or not. -/
theorem witness_EngineEvents_more :
    (let r : LeaveReq := ⟨4, 1, 0, 0, 0, 1, none, 0⟩
     leaveForced State.reset r = false ∧ State.reset.grantmax ≠ 0 ∧
     leaveForced (State.reset.setCore 0 { State.reset.core 0 with refTime := 408 * 0x10000 }) r = true ∧ r.prio = 1 ∧
     (let s := (State.reset.setDie 0 { State.reset.die 0 with leaves := [{ r with core := 1 }, r] }).setCore 0 { State.reset.core 0 with refTime := 408 * 0x10000 }
      let t := s.setCore 1 { s.core 1 with refTime := 408 * 0x10000 }
      (t.die 0).leaves[0]? = some { r with core := 1 } ∧ leaveForced t { r with core := 1 } = true ∧ leaveForced t r = true ∧ ((t.die 0).leaves.any fun y => y.core < 0) = false)) ∧
    (let k : Card := { seq := 1, op := 0xBB, sub := 0, st := .withheld, handler := true, fault := some { cls := 3, src := 1 } }
     ((carded k fun t => { t with st := .trapped }).task? 0 0).any (fun t => t.st == .trapped && (cardOf t 0 1).any fun k => k.handler && !k.taken && k.fault.isSome && k.st == .withheld) = true) ∧
    (let s := { (paged State.reset).setQuad 0 { ttbase := 0x400000, ttsize := 1 } with mem := memWrite (paged State.reset).mem 0x78000000 128 (2 ^ 1016) }
     (match directKeys 0 0 needRead 0x400000 128 s with
      | (.ok ks, m) => readsOpen (checkKeys m ks) ks && !keysPoisoned (checkKeys m ks) ks && (BitVec.ofNat 1024 (readKeys (checkKeys m ks) ks)).getLsbD 1016 && partOfQuad s 0 == some 0
      | _ => false) = true ∧
     (({ ttbase := 0x400000, ttsize := 1, ttasks := [{ addr := 0x400000, record := 0, order := 0 }] } : Quad).ttasks.any fun y => y.addr == 0x400000) = true) := by decide +kernel

/-- A window access and a request of another package whose controller trains and does not; poison there. -/
theorem witness_homes :
    (let s := State.reset.setChan (chanOfPa 0x78000000) { State.reset.chan (chanOfPa 0x78000000) with trctl := true }
     homeOpen s 0x78000000 4 3 = false ∧ homeOpen State.reset 0x78000000 4 3 = true ∧ homeOpen s 0x78000000 4 2 = true ∧
     (let t := (stands { issuedAt 0x80 false false with w := { okMem with ty := 12, scope := 1 }, pieces := [⟨0x78000000, 4, 0, 0, 0, true, 0⟩] })
      homeOpen t 0x78000000 4 2 = false) ∧
     poisoned { State.reset with poison := [(0x78000000 / 32, true)] } 0x78000000 4 = true) := by decide +kernel

/-- Another package's atomic, arrival and message: a page that it may use, a core of the partition with room and with none, and a core of another. -/
theorem witness_PodEvents_requests :
    (let s := { paged State.reset with boot := .running }
     (match (directSpan s 0 { r := true, w := true, acc := 1 } 0x400000 8).1 with | .ok ks => ks == [⟨0x78000000, 8, 2⟩] | _ => false) = true ∧
     (atomicNew 0x87 12 1 2 3).isNone = true ∧ (atomicNew 0x80 12 1 2 3).isSome = true ∧
     (s.partn 0).quads.contains (quadOfCore 3) = true ∧ (s.partn 0).quads.contains (quadOfCore 4) = false ∧
     (tabGet {} (s.core 3).chans 63).queue.length < 16 ∧
     (tabGet {} ((s.setCore 3 { chans := [(63, { queue := List.replicate 16 (0, 0) })] }).core 3).chans 63).queue.length = 16) := by decide +kernel

/-- An event that no unit of the machine can make, a seed with a line still at the intake, and each move that waits or yields. -/
theorem witness_StepRuns_waits :
    eventNamesUnits (.phaseEnd 512) = false ∧ eventNamesUnits (.phaseEnd 511) = true ∧
    (let line : SeedLine := ⟨0x1000, 0, 0, false, true, true, true⟩
     let s := { State.reset.setCore 0 { State.reset.core 0 with seedIn := [line] } with moves := [.seed 0] }
     nextMove s = .seed 0 ∧ (s.core 0).seedIn ≠ [] ∧ moveAllowed (takeMove s) (.seed 0) = false ∧ moveAllowed (takeMove s) (.cycle 0) = false) ∧
    (let k : Card := { seq := 2, op := 0xBB, sub := 0, st := .withheld, fault := some { cls := 3, src := 1 } }
     let s := taskScene fun t => { t with chains := [(0, { tail := 2, cards := [{ k with seq := 1 }, k] })] }
     cardFaultYields s 0 0 0 2 = true ∧ cardFaultYields s 0 0 0 1 = false ∧
     intakeYields (s.setTask 0 1 { bareTask with st := .ready, seed := { joined := true }, chains := [(0, { tail := 1, cards := [{ k with seq := 1 }] })] }) 0 = true ∧ intakeYields s 0 = false) ∧
    (let s := placeWord State.reset (wordOf (.vadd okStage))
     losesPath (takeMove s) 0 0 = false ∧ yieldsFault (takeMove s) 0 0 = false) ∧
    (let s := State.reset.setDie 0 { State.reset.die 0 with leaves := [⟨4, 1, 0, 0, 0, 1, none, 0⟩] }
     let t := s.setCore 0 { s.core 0 with refTime := 408 * 0x10000 }
     leaveDue t 0 = true ∧ leaveDue s 0 = false) ∧
    needsRunning (.oppointWrite 0) = true ∧ needsRunning (.reset ⟨0, true⟩) = false ∧ (State.reset.boot == .running) = false := by decide +kernel

/-- Of two nodes whose firings would fault now, the later one's yields. -/
theorem witness_StepRuns_yields :
    (let x := wordOf (.fadd { okStage with ty := 0 })
     let nd : Node := { full with qa := [snans] }
     let s := scene x nd (fun t => { t with fpen := 16 }) (fun p => { p with words := p.words.set 1 x, nodes := p.nodes ++ [(1, nd)] }) paged
     yieldsFault s 0 1 = true ∧ yieldsFault s 0 0 = false) := by decide +kernel

/-! The hypotheses of the wider clauses, each met. -/

/-- An access of an operation and scope, not yet performed or halfway, with one word at a key. -/
def placeAcc (op key scope : Nat) (doneP : Bool := false) : Access :=
  { issuedAt op false false with w := { okMem with ty := 12, scope := BitVec.ofNat 3 scope, strong := if scope = 0 then 0 else 1 }, pieces := [⟨key, 4, 0x400000, 0, 0, doneP, 0⟩] }

/-- That access is issued, its place is clean and outside the scratchpad, and p holds. -/
def placeB (op key scope : Nat) (doneP : Bool) (g : State → State) (p : State → Bool) : Bool :=
  let s := g (stands (placeAcc op key scope doneP))
  ((accFind s (accRef 0 0 0)).any fun x => x.2.stage == .issued && !x.2.waiting && x.2.pieces.head?.any fun p => p.doneP == doneP && !isScratch p.key && decide (0 < p.len)) &&
    s.latent.isEmpty && !poisoned s key 4 && p s

/-- Loads of this package, the host and a package that no port reaches; atomics of each scope, free, behind a pending store, at a controller that trains, and halfway. -/
theorem witness_AccessesAnswered_places :
    (let free := fun (key scope : Nat) (s : State) => homeOpen s key 4 scope && !pendingAt (s.core 0) key 4 && !isRemote key && (remoteFault s key).isNone
     placeB 0x70 0x78000000 0 false id (free 0x78000000 0) = true ∧ placeB 0x72 (keyHost 0) 5 false id (free (keyHost 0) 5) = true ∧
     placeB 0x72 (keyRemote 1 0 0) 4 false id (fun s => homeOpen s (keyRemote 1 0 0) 4 4 && remoteFault s (keyRemote 1 0 0) == some 9) = true ∧
     placeB 0x80 0x78000000 3 false id (free 0x78000000 3) = true ∧ placeB 0x80 0x78000000 0 false id (free 0x78000000 0) = true ∧ placeB 0x87 (keyHost 0) 5 false id (free (keyHost 0) 5) = true ∧
     placeB 0x80 0x78000000 3 true id (fun s => !homeOpen s 0x78000000 4 3) = true ∧
     placeB 0x80 0x78000000 3 false (fun s => s.setCore 0 { s.core 0 with stores := [pend 0x78000000] }) (fun s => pendingAt (s.core 0) 0x78000000 4) = true ∧
     placeB 0x80 0x78000000 3 false (fun s => s.setChan (chanOfPa 0x78000000) { s.chan (chanOfPa 0x78000000) with train := true }) (fun s => !homeOpen s 0x78000000 4 3) = true) := by decide +kernel

/-- A store to a package that no port reaches, that an access awaits and that none does; a strong store to a host behind a buffered write to its bytes, and one to others; a
write on the link that meets an earlier one. -/
theorem witness_StoresDrain_faults :
    (let p := { pend (keyRemote 1 0 0) with waiter := some (1, 96, 0) }
     let s := (stands (placeAcc 0x73 (keyRemote 1 0 0) 4)).setCore 0 { (stands (placeAcc 0x73 (keyRemote 1 0 0) 4)).core 0 with stores := [p] }
     remoteFault s p.key = some 9 ∧ isHost p.key = false ∧ pipeOpen s p.key (drainScope p) = true ∧ (pend 8).waiter = none ∧ (waiterRef s 0 0 (1, 96, 0)).isSome = true) ∧
    (let h : HostWrite := { job := 0, addr := 0, bytes := [1, 2], ro := true }
     h.meets { h with addr := 1 } = true ∧ h.meets { h with addr := 2 } = false ∧ ({ pend (keyHost 1) with ro := false } : PStore).ro = false) := by decide +kernel

/-- A started card of an operation on chain n of core 0's task, every tile of its package in its footprint. -/
def rowScene (n : Nat) (k : Card) (task : Task → Task := id) (g : State → State := id) : State :=
  taskScene (fun t => task { t with chains := [(n, { tail := 1, cards := [{ k with seq := 1, st := .started }] })] }) id g

def rowB (n : Nat) (k : Card) (p : State → Task → Card → Bool) (task : Task → Task := id) (g : State → State := id) : Bool :=
  let s := rowScene n k task g
  (s.task? 0 0).any fun t => !t.cutting && (cardOf t n 1).any fun k => k.st == .started && p s t k

def rowCard (op card : Nat) : Card := { seq := 1, op := op, sub := 0, card := BitVec.ofNat 512 (card + (3 * 2 ^ 46 + 2 ^ 23 - 1) * 2 ^ 256) }

/-- The rows that the clauses of a matrix card read and write at record 0. -/
def rowReads (s : State) (t : Task) (k : Card) (n : Nat) : Bool :=
  isOk (readElems 0 t.part (some k.card) (cardRec (s.core 0) k 0) ((List.range n).map fun j => (j, 0)) s).1
def rowPuts (s : State) (t : Task) (k : Card) (n : Nat) : Bool := isOk (resolvePuts 0 t.part (some k.card) (cardRec (s.core 0) k 0) false [(0, 0, n, 0)] s).1
def rowOpen (k : Card) : Bool := !k.relatch && decide (k.prog < cardRows k)
def rowFits (t : Task) (k : Card) : Bool := rowsFit t (mcAcc k.card) (mcAstr k.card) (mcM k.card) (mcN k.card)

/-- A record of one row of elements of a type, and the tile of one weight that a stream uses. -/
def rowRec (ty ext : Nat) (base : Nat := 0) (s : State) : State := withRec (BitVec.ofNat 512 (base + ty * 2 ^ 57 + (ext - 1) * 2 ^ 90)) s
def oneTile : Latched := { valid := true, ty := 3, rows := 1, cols := 1, elems := [[0]], card := 0, lrec := 0 }

/-- The row moves of each matrix instruction: a latch whose row is its last and whose is not, of another type, and that faults; a stream that runs, with no tile, and whose rows
do not fit; drains of one type and of hx4; the accumulator moves, and one beyond the allotment; a tile latched again; mxv that has no reader, and one whose reader is done. -/
theorem witness_CardsIssue_rows :
    (let typed := fun (s : State) (k : Card) => recFmt (cardRec (s.core 0) k 0) == k.ty
     rowB 0 { rowCard 0xB8 0 with ty := 11 } (fun s t k => rowOpen k && typed s k && rowReads s t k 1 && decide (mcK k.card ≤ k.tile.length + 1)) id (withRec (layout 0)) = true ∧
     rowB 0 { rowCard 0xB8 (2 ^ 105) with ty := 11 } (fun _ _ k => rowOpen k && decide (k.tile.length + 1 < mcK k.card)) id (withRec (layout 0)) = true ∧
     rowB 0 { rowCard 0xB8 0 with ty := 3 } (fun s _ k => rowOpen k && !typed s k) id (withRec (layout 0)) = true ∧
     rowB 0 { rowCard 0xB8 0 with ty := 11 } (fun s t k => rowOpen k && typed s k && !rowReads s t k 1) id (withRec (layout 0x200000)) = true ∧
     rowB 0 { rowCard 0xB9 0 with ty := 11 } (fun s t k => rowOpen k && !mcLatch k.card && t.latched.valid && decide (mcK k.card ≤ t.latched.rows) && decide (mcN k.card ≤ t.latched.cols) && rowFits t k &&
       typed s k && rowReads s t k 1 && decide t.acc.Nodup) (fun t => { t with acc := [0], latched := oneTile }) (withRec (layout 0)) = true ∧
     rowB 0 { rowCard 0xB9 0 with ty := 11 } (fun _ t k => rowOpen k && !t.latched.valid) = true ∧
     rowB 0 { rowCard 0xB9 0 with ty := 11 } (fun _ t k => rowOpen k && t.latched.valid && !rowFits t k) (fun t => { t with latched := oneTile }) = true ∧
     rowB 0 { rowCard 0xC0 0 with ty := 11 } (fun s t k => rowOpen k && t.latched.valid && rowFits t k && typed s k && recNdim (cardRec (s.core 0) k 0) != 3)
       (fun t => { t with acc := [0], latched := oneTile }) (withRec (layout 0)) = true) ∧
    (let typed := fun (s : State) (k : Card) => recFmt (cardRec (s.core 0) k 0) == k.ty
     rowB 0 { rowCard 0xBA 0 with ty := 3 } (fun s t k => rowOpen k && rowFits t k && typed s k && rowPuts s t k 1) (fun t => { t with acc := [0] }) (rowRec 3 64) = true ∧
     rowB 0 { rowCard 0xBA (31 * 2 ^ 99 + 2 ^ 140) with ty := 6 } (fun s t k => rowOpen k && rowFits t k && typed s k && rowPuts s t k 18) (fun t => { t with acc := [0, 1] }) (rowRec 6 32) = true ∧
     (∀ op ∈ [0xBB, 0xBC, 0xBD, 0xBE], rowB 0 (rowCard op 0) (fun s t k => rowOpen k && decide (mcAcc k.card + mcCnt k.card ≤ t.acc.length) && typed s k && rowReads s t k 16 && rowPuts s t k 4)
       (fun t => { t with acc := [0] }) (rowRec 0 16) = true) ∧
     rowB 0 (rowCard 0xBB 0) (fun _ t k => rowOpen k && !decide (mcAcc k.card + mcCnt k.card ≤ t.acc.length)) = true ∧
     rowB 0 { rowCard 0xBB 0 with relatch := true } (fun s t k => k.relatch && isOk (readElems 0 t.part none t.latched.lrec [(0, 0)] s).1 && decide (t.latched.rows ≤ k.tile.length + 1))
       (fun t => { t with latched := oneTile }) = true ∧
     rowB 0 { rowCard 0xBF 0 with ty := 3 } (fun s t k => rowOpen k && weightType (recFmt (cardRec (s.core 0) k 0)) && typed s k && k.ticket.isNone && (weightMiss k.card (cardRec (s.core 0) k 0)).isNone &&
       isOk (boardReader s 0 t.part t.job t.rank (weightLines (cardRec (s.core 0) k 0))).1) id (rowRec 3 1 0x200000) = true ∧
     rowB 0 { rowCard 0xBF 0 with ty := 3, ticket := some 1 } (fun s t k => rowOpen k && typed s k && (s.rider? 1).any (fun r => r.alit && r.bad.isEmpty) && rowReads s t k 1) id
       (fun s => rowRec 3 1 0 (rider1 (fun r => { r with alit := true }) s)) = true) := by decide +kernel

/-- A second task of the gang on core 0, with a collective's card whose source has n elements. -/
def partner (n : Nat) (s : State) : State :=
  s.setTask 0 1 { bareTask with rank := 1, st := .ready, chains := [(2, { tail := 1, cards := [{ rowCard 0xD9 (2 ^ 32) with st := .started, recs := [(0, BitVec.ofNat 512 (11 * 2 ^ 57 + (n - 1) * 2 ^ 90))] }] })] }

/-- The units of each engine card: one that is read and one that is written; a copy with no task to take it, a slot that is free and none. -/
theorem witness_CardChecks_units :
    (∀ op ∈ [0xD8, 0xD9, 0xDA], rowB 2 (rowCard op 0) (fun s t k => isEngineOp k.op && readerReady s k && decide (k.prog < unitCount (sourceOf s 0 k)) && isOk (readUnit 0 t.part k (sourceOf s 0 k) 0 s).1)
      id (withRec (layout 0)) = true) ∧
    (∀ op ∈ [0xD8, 0xD9, 0xDA], rowB 2 { rowCard op 0 with block := [{ x := 5 }], prog := if op = 0xD8 then 0 else 1, tile := [[5, 0]], recs := if op = 0xDA then [(64, layout 0)] else [] }
      (fun s t k => isOk (writeUnit 0 t.part k (cardRec (s.core 0) k (if op = 0xDA then 64 else 0)) 0 5 false s).1) id (withRec (layout 0)) = true) ∧
    (let bufs := fun (b : CBuf) (s : State) => (withRec (layout 0) s).setCore 0 { (withRec (layout 0) s).core 0 with bufs := [(0, b)] }
     rowB 2 { rowCard 0xD8 (2 ^ 6) with args := [7] } (fun s t k => ecTocb k.card && (copyTarget s t k).isNone) id (withRec (layout 0)) = true ∧
     rowB 2 { rowCard 0xD8 (2 ^ 6) with args := [0] } (fun s t k => (copyTarget s t k).any fun dc => (bufOf (s.core dc) (ecCbn k.card)).free == 0) id (bufs (buffer 2 0 0 0 0 0 [])) = true ∧
     rowB 2 { rowCard 0xD8 (2 ^ 6) with args := [0], block := List.replicate 16 { x := 5 } } (fun s t k => (copyTarget s t k).any fun dc => (bufOf (s.core dc) (ecCbn k.card)).free != 0 &&
       decide (copyNeed s (sourceOf s 0 k) (some dc) k ≤ k.block.length) && (cbDeliver s dc (ecCbn k.card) 0).isSome) id (bufs (buffer 0 2 0 0 0 0 [])) = true) ∧
    (inWindow (unitAddr (layout 0x17FFC0) 15) && inWindow (unitAddr (layout 0x17FFC0) 15 + unitSize 11 - 1) && unitTouchOk (rowCard 0xD8 0).card (layout 0x17FFC0) 15 true &&
      !unitTouchOk 0 (layout 0) 0 false) = true := by decide +kernel

/-- The tasks of job 0 on core 0, in the order of the list of cores. -/
def tasksOf (s : State) : List (Nat × Nat × Task) :=
  s.cores.flatMap fun e => (e.2.tasks.filter fun x => x.2.job == 0 && scopeUnit 0 e.1 == scopeUnit 0 0 && x.2.st != .ended).map fun x => (e.1, x.1, x.2)

def byRank (a b : Nat × Nat × Task) : Bool := a.2.2.rank ≤ b.2.2.rank

theorem scopeTasks_of (s : State) (h : (tasksOf s).Pairwise fun a b => byRank a b = true) : scopeTasks s 0 0 0 = tasksOf s :=
  List.mergeSort_of_pairwise h

/-- Core 0's task has an engine card, and p holds of the tasks of the gang there, it, and its card. -/
def gangB (s : State) (p : List (Nat × Nat × Task) → Task → Card → Bool) : Bool :=
  decide ((tasksOf s).Pairwise fun a b => byRank a b = true) && (s.task? 0 0).any fun t => t.job == 0 && (cardOf t 2 1).any fun k => k.escope == 0 && p (tasksOf s) t k

theorem gangB_iff (s : State) (p : List (Nat × Nat × Task) → Task → Card → Bool) (h : gangB s p = true) :
    ∃ t k, s.task? 0 0 = some t ∧ cardOf t 2 1 = some k ∧ p (ringOf s 0 t k.escope) t k = true := by
  simp only [gangB, Bool.and_eq_true, decide_eq_true_eq, Option.any_eq_true, beq_iff_eq] at h
  obtain ⟨h1, t, ht, hj, k, hk, he, hp⟩ := h
  refine ⟨t, k, ht, hk, ?_⟩
  rw [ringOf, hj, he, scopeTasks_of s h1]
  exact hp

/-- The parties of a collective of that gang, as the model gathers them. -/
def partiesOf (s : State) (l : List (Nat × Nat × Task)) : Option (List Party) :=
  l.mapM fun e => (collOf e.2.2 0).map fun x => localParty s e.1 e.2.1 e.2.2 x

theorem collGather_of (s : State) (t : Task) (k : Card) (he : k.escope = 0) : collGather s 0 t k = partiesOf s (scopeTasks s t.job 0 0) := by
  simp [collGather, partiesOf, he]

/-- A collective of one that reads and combines, of two of another form, of two of other sizes, of two of which one has read; a ring step that reads and one that takes its block. -/
theorem witness_CardChecks_gangs :
    (let turns := fun (card n : Nat) (g : State → State) (p : CollTurn → Bool) =>
       let s := rowScene 2 { rowCard 0xD9 card with block := List.replicate n { x := 5 } } id fun s => g (withRec (layout 0) s)
       gangB s fun l _ k => (partiesOf s l).any fun ps => p (collTurn s 0 0 k ps)
     turns 0 0 id (fun x => x == .reads) = true ∧ turns 0 16 id (fun x => x == .combines) = true ∧ turns (2 ^ 32) 0 id (fun x => x == .refused 8) = true ∧
     turns (2 ^ 32) 0 (partner 8) (fun x => x == .refused 4) = true ∧ turns (2 ^ 32) 16 (partner 16) (fun x => x == .waits) = true) ∧
    (let ring := fun (n : Nat) => rowScene 2 { rowCard 0xDA 0 with block := List.replicate n { x := 1 } } id (withRec (layout 0))
     gangB (ring 0) (fun l t k => (ringMate l t k).isSome && !ownRead (ring 0) 0 k) = true ∧
     gangB (ring 16) (fun l t k => (ringMate l t k).isSome && ownRead (ring 16) 0 k &&
       isOk (writerFor (sweptLines 0 t.part (layout 0) (ring 16)).2 0 t (sweptLines 0 t.part (layout 0) (ring 16)).1).1) = true) := by decide +kernel

/-- A rider that acts on line 0 of channel 0 at its next pass. -/
def passing (r : Rider → Rider) : State := rider1 (fun x => r { x with chans := [(0, { todo := [(0, 0)], admitted := true })] }) State.reset

/-- Riders of each kind at the pass of their line: the queue with room and full, a landing line, a source and a destination of a clone, and a line that a clone holds. -/
theorem witness_SweepControl_passes :
    (let ready := fun (r : Rider → Rider) (p : Rider → RiderChan → Bool) => ((passing r).rider? 1).any fun y => (tabFind y.chans 0).any fun x =>
       !cloneHolds (passing r) y.part y.ticket 0 0 && (x.dest.filter fun d => d.1 == 0 && (tabFind y.data d.2).isSome).isEmpty && (x.todo.filter fun e => e.1 == 0) == [(0, 0)] && y.kind != 3 && p y x
     ready id (fun y x => y.op == 0xC8 && !rcLand y.card && decide (x.queue.length < 16)) = true ∧
     ready (fun r => { r with chans := [(0, { todo := [(0, 0)], queue := List.replicate 16 (0, 0, true) })] }) (fun _ x => decide (16 ≤ x.queue.length)) = true ∧
     (∀ op ∈ [0xC9, 0xCA, 0xCB, 0xCC, 0xCD, 0xCE, 0xCF], ready (fun r => { r with op := op }) (fun y _ => y.op == op) = true) ∧
     ready (fun r => { r with kind := 1 }) (fun y _ => y.op == 0xC8 && y.kind == 1) = true ∧
     ready (fun r => { r with op := 0xD4, sub := 2 }) (fun y _ => standKind y.sub == 0xCA) = true) ∧
    (let y : Rider := { part := 0, ticket := 1, op := 0xC8, card := 2 ^ 159, land := [(0, [⟨0x78000000, 256, 2⟩])] }
     tabGet [] y.land 0 = [⟨0x78000000, 256, 2⟩] ∧ isRemote 0x78000000 = false ∧ (rcLand (BitVec.ofNat 512 (2 ^ 512 - 1))) = true) ∧
    (let s := rider1 (fun r => { r with op := 0xCF, data := [(0, 5)], chans := [(0, { dest := [(0, 0)] })] }) State.reset
     cloneHolds s 0 2 0 0 = true ∧ cloneHolds s 0 1 0 0 = false ∧ (s.rider? 1).any (fun y => (tabFind y.chans 0).any fun x =>
       (x.dest.filter fun d => d.1 == 0 && (tabFind y.data d.2).isSome) == [(0, 0)] && x.todo.isEmpty && (tabFind y.masks 0).isNone && lostSectors y 0 == 0) = true) ∧
    lostSectors { part := 0, ticket := 1, op := 0xCF, bad := [(0, 255)] } 0 ≠ 0 ∧ nextSlot (State.reset.chan 0) = .advancing ∧ State.reset.latent = [] ∧
    lineBad { State.reset with poison := [(0, true)] } 0 ≠ 0 ∧ lineBad State.reset 0 = 0 := by decide +kernel

/-- Core 0's task has a kv transaction of an instruction on the record at 0x40_0000 in its phase, sent with a stamp. -/
def kvScene (op stamp card : Nat) (g : State → State := id) : State :=
  scene (wordOf (.kvlen okEp)) {} id (fun p => { p with kvReqs := [{ op := op, sub := 0, card := BitVec.ofNat 512 (0x400000 + card), iter := 0, key := 2 ^ 400, stamp := stamp }] }) fun s => g (paged s)

/-- The transaction stands there, and p holds of the state, its task and it. -/
def kvB (s : State) (p : State → Task → KvReq → Bool) : Bool :=
  (s.task? 0 0).any fun t => t.phase.any fun ph => (ph.kvReqs[0]?).any fun q => (phaseAt t false).isSome && !t.cutting && (s.core 0).running == some 0 && !q.again && p s t q

/-- An open sequence's descriptor at 0x40_0000, of pages of 16 positions. -/
def descr (more : Nat) (s : State) : State := { s with mem := memWrite s.mem 0x78000000 64 (4 * 2 ^ 194 + 2 ^ 214 + more) }

/-- A transaction that is done, one that is refused and one that faults; stores out before it, its record pending at its core, and its channel in training; a kvsend that fails its check. -/
theorem witness_KvFires_moves :
    (let trains := fun (s : State) => s.setChan (chanOfPa 0x78000000) { s.chan (chanOfPa 0x78000000) with train := true }
     let stored := fun (key : Nat) (s : State) => s.setCore 0 { s.core 0 with stores := [{ pend key with task := 3 }] }
     let run := fun (op : Nat) (s : State) (q : KvReq) => kvTransaction op 0 0 q.card s
     (kvB (kvScene 0xE1 0 0 (descr 0)) (fun s _ q => isOk (run 0xE1 s q).1 && !(run 0xE1 s q).2.mustWait && (s.core 0).stores.isEmpty)) = true ∧
     (kvB (kvScene 0xE3 0 0 (descr 0)) (fun s t q => !isOk (kvSendCheck 0 t.part s.pkgId q.card s).1 && !(kvSendCheck 0 t.part s.pkgId q.card s).2.mustWait)) = true ∧
     (kvB (kvScene 0xE1 0 1 (descr 0)) (fun s _ q => !isOk (run 0xE1 s q).1 && !(run 0xE1 s q).2.mustWait)) = true ∧
     (kvB (kvScene 0xE1 1 0 fun s => s.setCore 0 { s.core 0 with stores := [{ pend 8 with scope := 3 }] }) (fun s _ q => (s.core 0).stores.any fun p => p.task == 0 && p.scope ≤ 3 && decide (p.stamp < q.stamp))) = true ∧
     (kvB (kvScene 0xE1 0 0 fun s => stored 0x78000000 (descr 0 s)) (fun s _ q => pendingAt (s.core 0) 0x78000000 64 && (run 0xE1 s q).2.mustWait)) = true ∧
     (kvB (kvScene 0xE1 0 0 fun s => trains (descr 0 s)) (fun s _ q => !homeOpen s 0x78000000 64 3 && (run 0xE1 s q).2.mustWait)) = true) := by decide +kernel

/-- An arrival that its task takes back, and ones that it can not: none open, and a barrier with COUNT. -/
theorem witness_BarriersFire_withdraws :
    (let key := barrierKey 0 1 0 3
     let t := fun (n : Nat) => { bareTask with arrived := [(key, n)] }
     let s := fun (n count : Nat) => State.reset.setBarrier key { arrivals := n, count := count }
     (decide (2 ^ 40 ≤ key) && leftCode key == 19 && ((s 1 0).barrier key).arrivals == 1 && ((withdraw (s 1 0) (t 1) key).barrier key).arrivals == 0) = true ∧
     (((withdraw (s 1 0) (t 2) key).barrier key).arrivals == 1) = true ∧
     (((withdraw (s 1 2) (t 1) key).barrier key).arrivals == 1) = true ∧
     (((stands (issuedAt 0x80 false false)).task? 0 0).any fun t => t.phase.any fun p => (accsOf p 96).any fun a => notReached false 3 a) = true ∧
     (leftCode (podKey 5 3 2) == 256 + 50) = true) := by decide +kernel

/-- The status write of a gang that has no store out and one that has, behind another of the job, and at a place that takes it. -/
theorem witness_HandlerFaultEndsGang_status :
    (let at_ := fun (g : State → State) => taskScene id id fun s => g (s.setJob 0 { record := BitVec.ofNat 1024 (0x400000 * 2 ^ 128), fn := 0, queue := 0, part := 0, order := 0, st := .placed })
     let gone := fun (g : State → State) => ((at_ g).job? 0).map fun job => dropGang (at_ g) 0 job
     ((gone id).any fun u => jobSettled u 0 && u.statusOut.isEmpty && (match (resolveFor { u with mustWait := false } 0 needWrite 0x400000) with | (.ok pl, v) => homeOpen v pl.key 32 3 && !v.mustWait | _ => false)) = true ∧
     ((gone fun s => { s with statusOut := [⟨0, 0, 0, 0, 0⟩] }).any fun u => u.statusOut.any fun x => x.job == 0) = true ∧
     ((gone fun s => { s with hostLink := [{ job := 0, addr := 0, bytes := [1], ro := false }] }).any fun u => !jobSettled u 0 || u.hostLink.isEmpty) = true) := by decide +kernel

/-- A phase that ends while its gang is to be cut. -/
theorem witness_PhasesEnd_cuts :
    (let s := taskScene id (fun p => { p with n := 0 }) fun s => s.setJob 0 { record := 0, fn := 0, queue := 0, part := 0, order := 0, st := .cutting }
     (((s.core 0).running == some 0) && (s.task? 0 0).any fun t => !t.cutting && !t.seed.joined && cutWaits s t && t.phase.any fun p => phaseDone p && !p.endOp && p.eretOp.isNone) = true) := by decide +kernel

/-- Nodes that lack an operand, whose target has no room, and that count none; a started card that made no row and one that made one; a running task that begins its cut; tasks passed over eight times and not. -/
theorem witness_FabricEvents_counts :
    (let held := fun (q : List Token) (w : List (Nat × List Token)) (p : Phase → Foc → Bool) =>
       let s := scene (wordOf (.vadd { okStage with t0 := 4 })) { qa := q, qb := q } id fun x => { x with wires := w }
       (foc? s).any fun f => p f.ph f
     let core := fun (n : Nat) => ({ tasks := [(1, { bareTask with st := .ready, passed := n }), (3, { bareTask with st := .ready, passed := 9 })] } : Core)
     (held [] [] fun ph f => decide (f.nd.iter < phaseEnd ph) && (neededPorts ph f.slot).any fun p => (portQ f.nd p).isEmpty) = true ∧
     (held [zeroToken] [] fun ph f => (neededPorts ph f.slot).all fun p => !(portQ f.nd p).isEmpty) = true ∧
     (held [zeroToken] [(4, List.replicate 4 zeroToken)] fun ph f => (wTargets (wordAt ph f.slot)).any fun g => decide (4 ≤ portLoad ph g)) = true ∧
     ((taskScene fun t => { t with cutting := true }).task? 0 0 |>.any fun t => t.cutting) = true ∧
     (decide (({ seq := 1, op := 0xBB, sub := 0, st := .started } : Card).rowed = false) && ({ seq := 1, op := 0xBB, sub := 0, rowed := true } : Card).rowed) = true ∧
     (choosePick (core 8) == some 3 && (candidates (core 8)).length == 2) = true ∧
     (choosePick (core 0) == some 3 && choosePick { core 0 with tasks := [(1, { bareTask with st := .ready })] } == some 1) = true ∧
     ((State.reset.core 0).running.isNone) = true) := by decide +kernel

/-- A job of one task that waits for quad 0, whose four cores are taken by the tasks of a gang of lower priority that may be cut, and its effort. -/
theorem witness_SchedulerActs_waits :
    (let s := (List.range 4).foldl (fun s c => (List.range 4).foldl (fun s t => s.setTask c t { bareTask with job := 7, st := .ready }) s) (waiting .ready)
     let lower : Job := { record := BitVec.ofNat 1024 (2 ^ 64), fn := 0, queue := 0, part := 0, order := 7, st := .placed }
     let at_ := fun (save : Bool) => s.setJob 7 (if save then lower else { lower with record := 0 })
     let job : Job := { record := BitVec.ofNat 1024 (2 ^ 384 + 2 ^ 512 + 2 ^ 57), fn := 0, queue := 0, part := 0, order := 0 }
     ((fitCores (at_ true) 0 job [] []).isNone && (at_ true).effort.isNone) = true ∧
     (fitCores (at_ true) 0 job [] [7] == some [0]) = true ∧
     (lrSave lower.record != 0) = true ∧
     (effPrio (at_ true) job > 0) = true ∧
     (cutCandidates (at_ true) job == [7]) = true ∧
     (cutCandidates (at_ false) job == []) = true ∧
     ((fitCores (at_ true) 0 job [0] []).isNone && (fitCores (waiting .ready) 0 job [0] []).isNone && (fitCores (waiting .ready) 0 job [] []).isSome) = true ∧
     ((let u := { at_ true with effort := some (0, [7]) }
 !someCut u && (u.job? 0).any jobWaits && (u.job? 7).any fun x => x.st == .placed)) = true ∧
     (checkRecord (posted 0) { job with record := 0 } |>.1 |> isOk |> not) = true) := by decide +kernel

/-- What cellsInside asks of the chosen elements of columns o to o + n of the rows of a seed, by element. -/
def insideB (r : SeedRun) (b : BitVec 512) (o n : Nat) : Bool :=
  let w := (typeWidth (recFmt b) + 7) / 8
  (List.range r.m).all fun m => (List.range n).all fun j => beyond b (o + j) m ||
    (inWindow (elemAddress b (o + j) m) && inWindow (elemAddress b (o + j) m + w - 1) && elemAddress b (o + j) m % w == 0)

theorem insideB_inside (r : SeedRun) (b : BitVec 512) (o n : Nat) (rows : Nat → Bool) (hr : r.c < 512) (h : insideB r b o n = true) :
    cellsInside r.c b (r.cells o n rows) := by
  refine ⟨hr, ?_⟩
  intro i m hc hb
  have hc : (decide (m < r.m) && rows m && decide (o ≤ i ∧ i < o + n)) = true := hc
  simp only [Bool.and_eq_true, decide_eq_true_eq] at hc
  simp only [insideB, List.all_eq_true, List.mem_range, Bool.or_eq_true, Bool.and_eq_true, beq_iff_eq] at h
  have := h m hc.1.1 (i - o) (by omega)
  rw [Nat.add_sub_cancel' hc.2.1] at this
  simp only [hb, Bool.false_eq_true, false_or] at this
  exact ⟨this.1.1, this.1.2, this.2⟩

/-- A seed of 16 columns of one row, whose buffer and identifiers have records of the given types. -/
def wideScene (ty ids pay : Nat) (acc : List Nat) (ext : Nat := 64) : State :=
  let s := seedScene pay (fun d => { d with m := 1, astrm1 := 3, idrec := 1 }) fun t => { t with acc := acc }
  s.setCore 0 { s.core 0 with recs := [(0, BitVec.ofNat 512 (0x2000 + ty * 2 ^ 57 + (ext - 1) * 2 ^ 90)), (1, BitVec.ofNat 512 (0x4000 + ids * 2 ^ 57 + 15 * 2 ^ 90))] }

def wide (op fmt : Nat) (s : State) (p : SeedRun → Bool) (cols : Nat := 1) : Bool :=
  seedB s op { bareHusk with fmt := BitVec.ofNat _ fmt, cols16 := BitVec.ofNat _ cols } fun r => decide (0 < 16 * r.h.cols16.toNat) && p r

def wideBuf (s : State) : BitVec 512 := recOf (s.core 0) 0
def wideFits (r : SeedRun) : Bool := rowsFit r.task r.acc r.astr r.m (16 * r.h.cols16.toNat)
def wideRows (s : State) (r : SeedRun) : Bool := (List.range r.m).all fun m => isOk (r.row s (wideBuf s) 0 16 m)

/-- A seed without columns, of each kind; a sact and a sdrain whose codes are out of range; types that a buffer may not have; rows beyond the allotment. -/
theorem witness_SeedsCompute_checks :
    (let acc := [0, 1, 2, 3]
     ([3, 4, 5, 6, 7, 13, 1, 2].all fun op => seedB (seedScene 0) op bareHusk fun r => 16 * r.h.cols16.toNat == 0 && r.h.accrow == 0 && r.h.rows16 == 0 && r.h.abuf == 0 && r.pay == 0) = true ∧
     (seedB (seedScene 6) 6 bareHusk fun r => decide (5 < r.pay % 256)) = true ∧
     (seedB (seedScene 0) 7 { bareHusk with fmt := 6, cols16 := 1 } fun r => 16 * r.h.cols16.toNat != 0 && 16 * r.h.cols16.toNat != 32) = true ∧
     (seedB (seedScene 0) 4 { bareHusk with rows16 := 1 } fun r => r.h.rows16 != 0) = true ∧
     ([3, 5].all fun op => wide op 0 (wideScene 11 12 0 acc) fun _ => decide (2 < recFmt (wideBuf (wideScene 11 12 0 acc)))) = true ∧
     ([6, 7].all fun op => wide op 1 (wideScene 0 12 0 acc) fun _ => recFmt (wideBuf (wideScene 0 12 0 acc)) != 1) = true ∧
     (wide 13 0 (wideScene 6 12 0 acc) fun _ => recFmt (wideBuf (wideScene 6 12 0 acc)) == 6) = true ∧
     ([4, 6, 7].all fun op => wide op 0 (wideScene 0 12 0 []) fun r => !wideFits r) = true) := by decide +kernel

/-- One row of 16 columns: the accumulators of sbias, the rows that svec, snorm and a gated sact read, what sdrain stores, its hx4 block, and the row of sembed. -/
theorem witness_SeedsCompute_rows :
    (let acc := [0, 1, 2, 3]
     let s := wideScene 0 12 0 acc
     (wide 4 0 s fun r => wideFits r && decide r.task.acc.Nodup) = true ∧
     ([3, 5].all fun op => wide op 0 s fun r => wideRows s r && insideB r (wideBuf s) 0 16) = true ∧
     (wide 6 0 (wideScene 0 12 256 acc) fun r => wideFits r && wideRows (wideScene 0 12 256 acc) r && insideB r (wideBuf s) 0 16 && r.pay / 256 % 256 == 1) = true ∧
     (wide 7 0 s fun r => wideFits r && insideB r (wideBuf s) 0 16) = true ∧
     (wide 7 6 (wideScene 6 12 0 acc) (fun r => wideFits r && !beyond (wideBuf (wideScene 6 12 0 acc)) 0 0 && isOk (seedSdrain r (wideScene 6 12 0 acc))) 2) = true ∧
     (wide 13 0 s fun r => (List.range r.m).all (fun m => isOk (seedElem s r.c r.task.part (recOf (s.core 0) 1) 0 m)) && insideB r (wideBuf s) 0 16) = true) := by decide +kernel

/-- A rider that is done: one whose completion word is held, one with entries in its queue, one with none, a fold with a slot and with none, a completion word in this package and in a host's memory; a kvsend's layer with its flag held, at a reader's end, and a next layer whose lines can be read and can not. -/
theorem witness_SweepEvents_alights :
    (let run : MemRun := ⟨0x78000000, 4, 0⟩
     let done := fun (g : Rider → Rider) => rider1 (fun r => g { r with chans := [(0, { gone := true })] }) taskScene
     let folds := fun (b : CBuf) => (rider1 (fun r => { r with op := 0xC9, chans := [(0, { gone := true })] }) taskScene).setCore 0 { taskScene.core 0 with bufs := [(0, b)] }
     let x : KvSend := { part := 0, core := 0, job := 0, rank := 0, seq := 1, seqVa := 0, card := 0, pages := [], nlayl := 0, layer := 0, left := 2, dst := some 64, reader := some 1, writer := some 2 }
     let sends := fun (g : KvSend → KvSend) => { (rider1 (fun r => { r with kind := 1, alit := true }) taskScene).setRider 2 { part := 0, ticket := 2, op := 0xCB, kind := 1, alit := true }
       with kvsends := [(9, g x)] }
     (((done fun r => { r with cwHeld := some (run, 7) }).rider? 1).any fun r => riderDone r && !r.standing && r.kind == 0 && r.op != 0xCD && r.op != 0xD4 && r.parent.isNone && r.cwHeld.isSome) = true ∧
     (((done fun r => { r with chans := [(0, { gone := true, queue := [(0, 0, true)] })] }).rider? 1).any fun r => riderDone r && r.cwHeld.isNone) = true ∧
     (((drainAll (done id) 1 ((done id).rider? 1).get!).rider? 1).any fun q => q.chans.all fun e => e.2.queue.isEmpty) = true ∧
     (((folds (buffer 0 2 0 0 0 0 [])).rider? 1).any fun r => (deliverSlot (folds (buffer 0 2 0 0 0 0 [])) r.core (rcCbn r.card) (foldSlot r) 0).isSome) = true ∧
     (((folds (buffer 2 0 0 0 0 0 [])).rider? 1).any fun r => (deliverSlot (folds (buffer 2 0 0 0 0 0 [])) r.core (rcCbn r.card) (foldSlot r) 0).isNone) = true ∧
     (((done fun r => { r with cw := some run }).rider? 1).any fun r => r.cw == some run && cwOpen (done id) run 3 && isLocal run.key) = true ∧
     (cwOpen (done id) ⟨keyHost 0, 4, 0⟩ 3 && !isLocal (keyHost 0)) = true ∧
     ((tabFind (sends fun x => { x with cwHeld := some (run, 7) }).kvsends 9).any fun z => z.cwHeld.isSome && decide (1 < z.left)) = true ∧
     ((match sendLayer (sends id) 9 { x with layer := 1, left := 1 } with | .ok _ => true | .error _ => false)) = true ∧
     ((match sendLayer (sends id) 9 { x with pages := [(0x600000, 0)] } with | .ok _ => false | .error i => i.cls != notYet.cls)) = true ∧
     ((tabFind (sends fun x => { x with dst := none, writer := none }).kvsends 9).any fun z => z.dst.isNone && z.writer.isNone && !podReach (sends id) (kcDpkg z.card) && podReach (podUp (sends id)) (kcDpkg z.card)) = true) := by decide +kernel

/-- An engine card that is due, with leave and without, with the edges of its records clear; no swept lines, and swept ones, that it reads or writes; an mxv whose bank half boards, and one whose weights are refused. -/
theorem witness_EngineEvents_boards :
    (let at_ := fun (n : Nat) (k : Card) (g : State → State) => taskScene (fun t => { t with chains := [(n, { tail := 1, cards := [{ k with seq := 1 }] })] }) id g
     let find := fun (n : Nat) (k : Card) (g : State → State) (p : State → Task → Card → Bool) => ((at_ n k g).task? 0 0).any fun t => !t.cutting && (cardOf t n 1).any fun k =>
       k.st == .waiting && edgesClear (at_ n k g) 0 t.part k && storesDrained (at_ n k g) 0 0 k.stamp && p (at_ n k g) t k
     let lines := fun (s : State) (t : Task) (k : Card) => (sweptLines 0 t.part (cardRec (s.core 0) { k with recs := snapRecs s 0 k } (ecSrec k.card)) s).1
     (find 2 (rowCard 0xD8 0) (withRec (layout 0)) fun _ _ k => !k.leave && !k.asked) = true ∧
     (find 2 { rowCard 0xD8 0 with asked := true } (withRec (layout 0)) fun _ _ k => !k.leave && k.asked) = true ∧
     (find 2 { rowCard 0xD8 0 with leave := true } (withRec (layout 0)) fun s t k => k.leave && (lines s t k).isEmpty && isOk (readerFor s 0 t []).1 && isOk (writerFor s 0 t []).1) = true ∧
     (find 2 { rowCard 0xD9 0 with leave := true } (withRec (layout 0x200000)) fun s t k => k.leave && !(lines s t k).isEmpty && isOk (readerFor s 0 t (lines s t k)).1 && isOk (writerFor s 0 t (lines s t k)).1) = true ∧
     (find 2 { rowCard 0xD8 0 with leave := true } (withRec (layout 0x200000)) fun s t k => match (readerFor { s with jobs := [] } 0 t [2 ^ 40]).1 with | .error e => e.cls != notYet.cls && k.leave | _ => false) = true ∧
     (find 0 { rowCard 0xBF 0 with bank := 1, bankDone := false, ty := 3 } id fun s t k => match (prepareBank s 0 0 t k.card (some k.ty) k.bank).1 with | .error e => e.cls != notYet.cls | _ => false) = true ∧
     (find 0 { rowCard 0xBF (2 ^ 20) with bank := 1, bankDone := false, ty := 1 } (fun s => s.setCore 0 { s.core 0 with recs := [(0, BitVec.ofNat 512 (0x200000 + 2 ^ 57)), (1, BitVec.ofNat 512 (2 ^ 57))] }) fun s t k => match prepareBank s 0 0 t k.card (some k.ty) k.bank with
 | (.ok r, m) => roomNow m t.job (r.chans.map Prod.fst) 1 1
 | _ => false) = true) := by decide +kernel

/-- Copies whose word is held, that have none, and that have one that its place takes; a collective that is done and one that is not; a ring step that is done; fences to be sent, out and none; a tile task without leave, asked for, with leave, with a completion word, and one whose limits fail. -/
theorem witness_EngineEvents_completes :
    (let word := 2 ^ 30 + 0x400000 * 2 ^ 128
     let tt : TileTask := { addr := 0x400000, record := 0, order := 0 }
     let tile := fun (tt : TileTask) => (paged State.reset).setQuad 0 { ttbase := 0x400000, ttsize := 1, ttasks := [tt] }
     let tiles := fun (tt : TileTask) (p : TileTask → Bool) => ((tile tt).quad 0).ttasks[0]? |>.any fun x => partOfQuad (tile tt) 0 == some 0 && edgesClear (tile tt) 0 0 (tileCard x) && p x
     let ends := fun (k : Card) (p : State → Task → Card → Bool) => rowB 2 k (fun s t k => writerDone s k && p s t k) id (withRec (layout 0))
     (ends { rowCard 0xD8 0 with prog := 16 } fun s _ k => decide (unitCount (cardRec (s.core 0) k (ecSrec k.card)) ≤ k.prog) && !ecCw k.card && k.cwHeld.isNone) = true ∧
     (ends { rowCard 0xD8 0 with prog := 16, cwHeld := some (⟨0x78000000, 4, 0⟩, 7) } fun _ _ k => k.cwHeld.isSome) = true ∧
     (ends { rowCard 0xD8 word with prog := 16 } fun s t k => ecCw k.card && match (directKeys 0 t.part needWord (ecCwaddr k.card) 4 s) with
 | (.ok (w :: _), m) => cwOpen m w 3 && isLocal w.key
 | _ => false) = true ∧
     (ends { rowCard 0xD9 0 with unit := 1, prog := 1 } fun s _ k => k.unit != 0 && (collMembers s k.unit).all (fun x => x.prog == 1 + x.tile.length && writerDone s x) && s.remoteColls.isEmpty) = true ∧
     (ends { rowCard 0xD9 0 with unit := 0, prog := 1 } fun _ _ k => k.unit == 0) = true ∧
     (ends { rowCard 0xDA 0 with unit := 1, prog := 1 } fun _ _ k => k.prog == 1 + k.tile.length && k.unit == 1) = true ∧
     (ends { rowCard 0xD9 0 with escope := 4 } fun s _ k => k.escope == 4 && k.fences.isNone && pathSwitches (podUp s) == [0] && pathSwitches s == []) = true ∧
     (ends { rowCard 0xD9 0 with escope := 4, fences := some [0] } fun s _ k => podReachable (podUp s) && k.fences == some [0] && hostSettled s k.escope) = true ∧
     (tiles tt fun x => !x.leave && !x.asked && x.cwHeld.isNone) = true ∧
     (tiles { tt with asked := true } fun x => x.asked && !x.leave) = true ∧
     (tiles { tt with leave := true } fun x => x.leave && !isOk (tileWork 0 0 x.record (tile { tt with leave := true })).1) = true) := by decide +kernel

/-- A test under way of each kind, and a repaired lane. -/
theorem witness_RegisterWrites_tests :
    (let x := fun (kind : Bool) => ({ train := true, test := some (kind, 5), repair := 0x8000 } : Channel)
     ((x true).test == some (true, 5) && (x false).test == some (false, 5)) = true ∧
     ((x true).repair.getLsbD 15 && !(x true).repair.getLsbD 7) = true) := by decide +kernel

/-- A queue's registers, accesses of another size or alignment, a unit whose host bytes a card reads, and a vector whose pending message is sent, held back and masked. -/
theorem witness_QueuesAndHost_reads :
    (let up := fun (s : State) => s.boot == .running
     let hostPage := fun (s : State) => { withRec (layout 0x400000) s with mem := memWrite s.mem 0x7FFFE010 8 (2 ^ 56 + 0x8F) }
     let fn := fun (e : Bool × Bool) (ctl : BitVec 16) => ({ msix := [(5, e)], msixControl := ctl } : Fn)
     let sends := fun (f : Fn) => (tabGet (true, false) f.msix 5).2 && f.msixControl.getLsbD 15 && !f.msixControl.getLsbD 14
     (up (posted 0) && decide (3 < 4)) = true ∧
     (decide (¬((8 = 4 ∨ 8 = 8) ∧ 4 % 8 = 0)) && decide (¬((2 = 4 ∨ 2 = 8) ∧ 0 % 2 = 0))) = true ∧
     (rowB 2 (rowCard 0xD8 0) (fun s t k => unitDue s 0 0 t k == some 0 && match (runKeys 0 t.part (engineNeed needRead k) (unitAddr (sourceOf s 0 k) 0) (unitSize (recFmt (sourceOf s 0 k))) s).1 with
 | .ok ks => ks.any fun x => isHost x.key
 | _ => false) id hostPage) = true ∧
     (sends (fn (true, true) 0x8000)) = true ∧
     (!sends (fn (true, true) 0xC000) && !sends (fn (true, false) 0x8000) && !sends (fn (true, true) 0)) = true ∧
     ((let s := { State.reset with poison := [(0, true)] }
 homeOpen s 8 32 3 && tabGet false s.poison 0 && !tabGet false s.poison 1)) = true) := by decide +kernel

/-- Requests that are served: an await that is met and one that is not, at a place that takes it; an accept at a descriptor that fits and at one that does not; the end of a layer with riders aboard, with none and no flag, and with a flag in this package and in a host's memory; a deposit whose lines board; a share that is held and none; an atomic halfway; a port to come up. -/
theorem witness_PodEvents_serves :
    (let s := { paged State.reset with boot := .running }
     let at_ := fun (d : Nat) (arm : Option MemRun) => { s with mem := memWrite s.mem 0x78000000 64 d, dies := (arm.toList.map fun w => (homeDie 0x78000000, { arms := [(0x78000000, w)] })) }
     let run : MemRun := ⟨0x78000000, 4, 0⟩
     let record := fun (s : State) (p : MemRun → Nat → State → Bool) => match kvKey (firstCore s 0) 0 0x400000 64 64 s with
      | (.ok k, u) => (match kvRead k 64 u with
        | (.ok d, m) => p k.run d m
        | _ => false)
      | _ => false
     let flag := fun (s : State) => record s fun k _ m => (tabFind (m.die (homeDie k.key)).arms k.key).any fun w => homeOpen m w.key w.len 3
     let share : RemoteColl := { pkg := 1, podPart := 0, rank := 2, key := 3, form := [], elems := [], unit := 1, order := 0 }
     (satisfies 12 5 5 && !satisfies 12 4 5 && (match directSpan s 0 needRead 0x400000 4 with | (.ok ks, u) => ks == [⟨0x78000000, 4, 2⟩] && homeOpen u 0x78000000 4 3 | _ => false)) = true ∧
     (record (at_ (2 ^ 214) (some run)) fun k d m => sdState d == 1 && (tabFind (m.die (homeDie k.key)).arms k.key).isSome) = true ∧
     (record (at_ 0 none) fun _ d _ => sdState d != 1) = true ∧
     ((match kvKey (firstCore s 0) 0 0x600000 64 64 s with | (.error i, _) => i.cls != 9 | _ => false)) = true ∧
     (!flag (at_ 0 none) && flag (at_ 0 (some run)) && isLocal run.key && flag (at_ 0 (some ⟨keyHost 0, 4, 0⟩))) = true ∧
     ((rider1 (fun r => { r with kind := 1, job := 2 ^ 40, rank := 1 }) s).riders.any fun e => e.2.kind == 1 && e.2.job == 2 ^ 40 && e.2.rank == 1) = true ∧
     (s.riders.all fun e => e.2.job != 2 ^ 40) = true ∧
     ((match directSpan s 0 needWrite 0x200000 256 with | (.error _, u) => isOk (boardDeposit u (firstCore u 0) 0 (2 ^ 40) 1 [(0x2000, 5)] []).1 | _ => false)) = true ∧
     ((match directSpan s 0 needWrite 0x600000 256 with | (.error _, u) => !isOk (boardDeposit u (firstCore u 0) 0 (2 ^ 40) 1 [(0x6000, 5)] []).1 | _ => false)) = true ∧
     ([share].any (fun e => e.pkg == 1 && e.podPart == 0 && e.rank == 2 && e.key == 3 && e.unit != 0) && s.remoteColls.isEmpty) = true ∧
     (({ s with homeAtoms := [⟨run, 7, false, 1, .data []⟩] } : State).homeAtoms[0]?.isSome) = true ∧
     ((let t := { s with ports := [(0, { unacked := [mkFlit 0 0 0 []] })] }
 t.ports == [(0, t.port 0)] && !(t.port 0).up && !(t.port 3).up && !((podUp s).ports.any fun e => !e.2.up && !e.2.unacked.isEmpty))) = true) := by decide +kernel

/-- A card that waits for one of an earlier chain, a seed and a response that yield to a fault of their task, a move of no unit, an event that a freeze lets run, and the moves that may be made. -/
theorem witness_StepRuns_moves :
    (let k : Card := { seq := 1, op := 0xBB, sub := 0, st := .withheld, fault := some { cls := 3, src := 1 } }
     let s := taskScene fun t => { t with chains := [(0, { tail := 1, cards := [k] })] }
     ((let bad : BitVec 128 := encodeHusk 3 { bareHusk with accrow := 1 }
 let u := seedScene 0 (fun d => { d with buf := d.buf.map fun b => { b with husk := bad } }) fun t => { t with chains := [(0, { tail := 1, cards := [k] })] }
 seedYields u 0 && !seedYields taskScene 0)) = true ∧
     (!cardWaits taskScene 0 0) = true ∧
     ((let u := scene (wordOf (.mdrain okEp 0)) { qa := [num 0] } id fun p => { p with words := p.words.set 126 (wordOf (.copy okEp 0)), nodes := p.nodes ++ [(126, { qa := [num 0] })] }
 cardWaits u 0 126 && !cardWaits u 0 124)) = true ∧
     (!moveNamesUnits (.fire 512 0) && moveNamesUnits (.fire 511 127)) = true ∧
     (moveAllowed { State.reset with moves := [] } (.cycle 0) && nextMove { State.reset with moves := [.cycle 0] } == .cycle 0) = true) := by decide +kernel

/-- A group whose tokens are not all there, and one whose are. -/
theorem witness_CodecFires_gathers :
    (let s := fun (n : Nat) => scene (wordOf (.bpc okStage)) { qa := List.replicate n zeroToken, qb := [zeroToken] } id fun p => { p with n := 8 }
     ((foc? (s 3)).any fun f => f.nd.iter % 4 == 0 && min 4 (phaseEnd f.ph - f.nd.iter) == 4 && decide (f.nd.qa.length < 4)) = true ∧
     ((foc? (s 4)).any fun f => decide (4 ≤ f.nd.qa.length)) = true) := by decide +kernel

/-- A finite value below 0, a positive one that is no square and one that is, exact cases, and differences that are no integer, an integer whose power is exact, and one whose is not. -/
theorem witness_FloatParts_values :
    (let diff := fun (a u : Nat) => (addVal 0 (decodeFloat 0 a) (decodeFloat 0 u).negate).1
     let fin := fun (v : Val) => match v with
      | .fin _ m _ => m != 0
      | _ => false
     ((match decodeFloat 0 0xBF800000 with | .fin n m _ => n && m != 0 | _ => false)) = true ∧
     (sqrtBits 0 0 0x40800000 == (0x40000000, 0) && (sqrtBits 0 0 0x40000000).2 == nxFlag) = true ∧
     (specialBits 0x40 0 0x40000000 == (0x3F000000, 0) && specialBits 0x43 0 0x40400000 == (0x41000000, 0) && specialBits 0x44 0 0x41000000 == (0x40400000, 0) && specialBits 0x41 0 0x40800000 == (0x3F000000, 0)) = true ∧
     (fin (diff 0x3F800000 0x40200000) && fin (diff 0x40400000 0x3F800000) && smexpBits 0x40400000 0x3F800000 == (0x40800000, 0)) = true) := by decide +kernel

/-- A buffered host write that meets an earlier one and one that does not; a card with a fence out. -/
theorem witness_MemoryEvents_sends :
    (let h : HostWrite := { job := 0, addr := 0, bytes := [1, 2], ro := false }
     (([h, { h with addr := 1 }].take 1).any { h with addr := 1 }.meets) = true ∧
     (!([h, { h with addr := 2 }].take 1).any { h with addr := 2 }.meets) = true ∧
     (rowB 2 { rowCard 0xD9 0 with fences := some [0] } fun _ _ k => k.fences == some [0]) = true) := by decide +kernel

/-- A frozen device whose next move is a host's request, a firing, a cycle, and an idle flit of a port that is up and of one that is down; an event that a freeze lets run. -/
theorem witness_FrozenStands_holds :
    (let s := fun (m : Move) => { podUp State.reset with freezeReg := true, moves := [m] }
     (∀ m ∈ [Move.fire 0 0, .ev (.hostWindowRead 0 0 4), .cycle 0, .ev .pickPass], frozen (s m) = true ∧ moveNamesUnits (nextMove (s m)) = true ∧
       (∀ i, nextMove (s m) = .ev i → runsFrozen i = false) ∧ ∀ p, nextMove (s m) ≠ .idleFlit p) ∧
     heldInFreeze (.ev (.hostWindowRead 0 0 4)) = true ∧ heldInFreeze (.cycle 0) = false ∧
     nextMove (s (.idleFlit 0)) = .idleFlit 0 ∧ ((s (.idleFlit 0)).port 0).up = true ∧ ((s (.idleFlit 1)).port 1).up = false ∧
     (s (.cycle 0)).oppointReg = (s (.cycle 0)).oppoint ∧ State.reset.freezeReg = false ∧ State.reset.freezePin = false ∧
     runsFrozen .resume = true ∧ heldInFreeze (.ev .resume) = false ∧ isEvent .resume = true ∧ eventNamesUnits .resume = true) := by
  refine ⟨fun m hm => ?_, by decide +kernel⟩
  simp only [List.mem_cons, List.not_mem_nil, or_false] at hm
  rcases hm with rfl | rfl | rfl | rfl <;>
    refine ⟨by decide +kernel, by decide +kernel, ?_, ?_⟩ <;> intro x hx <;> simp [nextMove] at hx <;> subst hx <;> rfl

end Sys2Proof.Machine
end

section
/-! PROOFS. Null tokens (R29, R66), the rounds of barriers (R43, R301), and what a step runs (R34, R252, R314, R417). -/

namespace Sys2Proof.Machine

/-! The operands of a firing by port. -/

/-- The tokens taken stand under the ports they were taken from, in the order of the ports. -/
theorem heads_ports {nd : Node} {ports : List Nat} {ops : List (Nat × Token)} (h : heads nd ports = some ops) :
    ops.map Prod.fst = ports := by
  unfold heads at h
  induction ports generalizing ops with
  | nil => simp_all
  | cons p ps ih =>
    simp only [List.mapM_cons, Option.bind_eq_bind, Option.bind_eq_some_iff, Option.map_eq_some_iff, Option.pure_def, Option.some.injEq] at h
    obtain ⟨_, ⟨x, -, rfl⟩, rest, hrest, rfl⟩ := h
    rw [List.map_cons, ih hrest]

/-- In a list with one entry a key, an entry is the one found under its key. -/
theorem find?_key_of_mem {α : Type} {l : List (Nat × α)} (hn : (l.map Prod.fst).Nodup) {k : Nat} {x : α} (hx : (k, x) ∈ l) :
    (l.find? fun e => e.1 == k) = some (k, x) := by
  induction l with
  | nil => cases hx
  | cons e l ih =>
    rw [List.map_cons, List.nodup_cons] at hn
    rcases List.mem_cons.1 hx with rfl | hmem
    · simp
    · have hk : e.1 ≠ k := fun h => hn.1 (h ▸ List.mem_map_of_mem (f := Prod.fst) hmem)
      rw [List.find?_cons_of_neg (by simpa using hk)]
      exact ih hn.2 hmem

theorem three_notMem_stageNeeds (op : Nat) (w : StageW) : 3 ∉ stageNeeds op w := by
  have h : 3 ∉ stagePorts op w := by
    unfold stagePorts
    repeat' split
    all_goals simp
  exact fun hm => h (List.mem_filter.1 hm).1

theorem predValue_iff (x : Token) : predValue x = true ↔ ∃ l, l < 16 ∧ maskBit x.mask l = true ∧ x.data.getLsbD (32 * l) = true := by
  simp [predValue]

/-! A stage's operands act as null (R29, R66). -/

theorem actsNull_of_null (pm : Nat) {ops : List (Nat × Token)} {p : Nat} {x : Token} (hx : (p, x) ∈ ops) (hn : x.null = true) :
    actsNull pm ops = true := by
  have h : ops.any (fun x => x.2.null) = true := List.any_eq_true.2 ⟨_, hx, hn⟩
  simp [actsNull, h]

/-- A predicate's token stands at port p of a stage only where its PM asks for one. -/
theorem stageReady_pm_ne_zero {i : Instr} {w : StageW} {s : State} {f : Foc} {ops : List (Nat × Token)} (hr : stageReady i w s f ops)
    {x : Token} (hx : (3, x) ∈ ops) : w.pm.toNat ≠ 0 := by
  intro h0
  have h3 : 3 ∈ ops.map Prod.fst := List.mem_map_of_mem (f := Prod.fst) hx
  rw [heads_ports (readyOps_heads hr.2), withPred, if_pos h0] at h3
  exact three_notMem_stageNeeds _ _ h3

theorem actsNull_of_unmatched {i : Instr} {w : StageW} {s : State} {f : Foc} {ops : List (Nat × Token)} (hr : stageReady i w s f ops)
    {x : Token} (hx : (3, x) ∈ ops) (hp : ¬ (w.pm = 1#2 ↔ predValue x = true)) : actsNull w.pm.toNat ops = true := by
  have hfind : (ops.find? fun e => e.1 == 3) = some (3, x) :=
    find?_key_of_mem (by rw [heads_ports (readyOps_heads hr.2)]; exact (goodPorts_stage _ _).1) hx
  have h1 : w.pm = 1#2 ↔ w.pm.toNat = 1 := BitVec.toNat_inj.symm
  have hne : predValue x ≠ (w.pm.toNat == 1) := by
    intro h
    rw [h1, h, beq_iff_eq] at hp
    exact hp Iff.rfl
  simp [actsNull, hfind, stageReady_pm_ne_zero hr hx, hne]

@[simp] theorem trapsOn_zero (fpen : Flags) : trapsOn fpen 0 = false := by
  simp [trapsOn]

/-! The stage instructions that send two tokens at every firing. -/

theorem stageForms_op_ne_wrb (w : StageW) : ∀ i ∈ stageForms w, i.op ≠ 0x23 := by
  have h : ((stageForms w).all fun i => i.op != 0x23) = true := rfl
  simpa only [List.all_eq_true, bne_iff_ne] using h

theorem stageForms_stageFn {w : StageW} {i : Instr} (hi : i ∈ stageForms w) : ∃ g, stageFn i = some (w, g) := by
  have h : (stageForms w).map (fun i => (stageFn i).map Prod.fst) = List.replicate 73 (some w) := rfl
  obtain ⟨⟨_, g⟩, hg, rfl⟩ := Option.map_eq_some_iff.1 (List.map_eq_replicate_iff.1 h i hi)
  exact ⟨g, hg⟩

/-- Every stage function but that of wrb gives a token for each target, on all operands. -/
theorem stageFn_givesTokens {i : Instr} {w : StageW} {g : StageW → StageIn → StageOut} (hi : stageFn i = some (w, g)) (hop : i.op ≠ 0x23)
    (x : StageIn) : ∃ a b, (g w x).out0 = some a ∧ (g w x).out1 = some b := by
  cases i <;> simp only [stageFn, Option.some.injEq, Prod.mk.injEq, reduceCtorEq] at hi <;> obtain ⟨rfl, rfl⟩ := hi
  case wrb => exact absurd rfl hop
  case lperm => unfold stLperm; split <;> exact ⟨_, _, rfl, rfl⟩
  all_goals exact ⟨_, _, rfl, rfl⟩

/-- Settles O1: operands that act as null send null tokens; else what a stage's own function gives is what is sent. -/
theorem nullOperands : Obligations.NullOperands := by
  refine ⟨fun i w g s f ops hi hop hr hnull => ?_, fun w i hi => ?_⟩
  · have hact : actsNull w.pm.toNat ops = true := by
      rcases hnull with ⟨p, x, hx, hn⟩ | ⟨x, hx, hp⟩
      · exact actsNull_of_null _ hx hn
      · exact actsNull_of_unmatched hr hx (by rwa [predValue_iff])
    exact stage_sends hi hop hr (by rw [if_pos hact]; rfl) (trapsOn_zero _)
  · obtain ⟨g, hg⟩ := stageForms_stageFn hi
    have hop := stageForms_op_ne_wrb w i hi
    refine ⟨g, hg, hop, fun s f ops hr hact htrap => ?_⟩
    obtain ⟨x, y, hx, hy⟩ := stageFn_givesTokens hg hop (stageReads w f ops)
    refine ⟨x, y, hx, hy, stage_sends hg hop hr ?_ htrap⟩
    simp [hact, ← hx, ← hy]

/-! The rounds of a barrier (R43, R301). -/

/-- From s to t only what cores hold differs. -/
def onlyCores (s t : State) : Prop := t = { s with cores := t.cores }

theorem onlyCores.trans {s t u : State} (h : onlyCores s t) (h' : onlyCores t u) : onlyCores s u := by
  unfold onlyCores at h h' ⊢
  rw [h', h]

theorem onlyCores_setTask (s : State) (c t : Nat) (x : Task) : onlyCores s (s.setTask c t x) := rfl

theorem onlyCores_acquireAt (s : State) (c scope : Nat) : onlyCores s (acquireAt s c scope) := by
  unfold acquireAt
  split <;> rfl

theorem onlyCores_foldl {α : Type} {f : State → α → State} (hf : ∀ s a, onlyCores s (f s a)) (l : List α) (s : State) :
    onlyCores s (l.foldl f s) := by
  induction l generalizing s with
  | nil => rfl
  | cons a l ih => exact (hf s a).trans (ih (f s a))

theorem onlyCores_releaseWaits (s : State) (c key round scope : Nat) (x : Token) : onlyCores s (releaseWaits s c key round scope x) := by
  unfold releaseWaits
  apply onlyCores_foldl
  exact fun s e => (onlyCores_setTask s c e.1 _).trans (onlyCores_acquireAt _ c scope)

theorem State.barrier_setBarrier (s : State) (k : Nat) (b : Barrier) (j : Nat) :
    (s.setBarrier k b).barrier j = if j = k then b else s.barrier j := tabGet_tabSet k b j

@[simp] theorem State.barrier_setBarrier_self (s : State) (k : Nat) (b : Barrier) : (s.setBarrier k b).barrier k = b := by
  rw [State.barrier_setBarrier, if_pos rfl]

theorem State.barrier_setBarrier_ne (s : State) (b : Barrier) {k j : Nat} (h : j ≠ k) : (s.setBarrier k b).barrier j = s.barrier j := by
  rw [State.barrier_setBarrier, if_neg h]

/-- Barriers stand apart from cores. -/
theorem onlyCores.barrier {s t : State} (h : onlyCores s t) (k : Nat) : t.barrier k = s.barrier k := by
  rw [h]; rfl

/-- A barrier whose open round has completed: its ERRARR is kept, and the next round is open with no arrival. -/
def Barrier.completed (b : Barrier) : Barrier := { done := b.done + 1, errs := if b.err then (b.done + 1) :: b.errs else b.errs }

/-- A barrier with one arrival more, the first of a round setting its COUNT. -/
def Barrier.arrived (b : Barrier) (count : Nat) (err : Bool) : Barrier :=
  { b with arrivals := b.arrivals + 1, count := if b.arrivals = 0 then count else b.count, err := b.err || err }

/-- The arrivals that the round open at a barrier needs once an arrival has been counted. -/
def needAt (s : State) (key count : Nat) : Nat :=
  let n := if (s.barrier key).arrivals = 0 then count else (s.barrier key).count
  if n = 0 then participants s key else n

theorem barrierNeed_arrived (s : State) (key count : Nat) (err : Bool) :
    barrierNeed (s.setBarrier key ((s.barrier key).arrived count err)) key = needAt s key count := by
  unfold barrierNeed
  rw [State.barrier_setBarrier_self]
  rfl

/-- A round that lacks an arrival stays open. -/
theorem tryComplete_open {s : State} {key : Nat} (h : (s.barrier key).arrivals < barrierNeed s key) : tryComplete s key = s := by
  simp [tryComplete, h]

/-- A round that has its arrivals completes: the next one is open, and the tasks that waited for it have their tokens. -/
theorem tryComplete_full {s : State} {key : Nat} (h0 : (s.barrier key).arrivals ≠ 0) (h : barrierNeed s key ≤ (s.barrier key).arrivals) :
    onlyCores (s.setBarrier key (s.barrier key).completed) (tryComplete s key) := by
  dsimp only [tryComplete]
  rw [if_neg (by simp [h0, h])]
  apply onlyCores_foldl
  exact fun u e => onlyCores_releaseWaits u e.1 key _ _ _

theorem arriveAt_eq (s : State) (key count : Nat) (err : Bool) :
    arriveAt s key count err = tryComplete (s.setBarrier key ((s.barrier key).arrived count err)) key := rfl

/-- An arrival that does not complete its round is counted, and nothing else changes. -/
theorem arriveAt_open {s : State} {key count : Nat} (err : Bool) (h : (s.barrier key).arrivals + 1 < needAt s key count) :
    arriveAt s key count err = s.setBarrier key ((s.barrier key).arrived count err) := by
  rw [arriveAt_eq]
  apply tryComplete_open
  rwa [barrierNeed_arrived, State.barrier_setBarrier_self]

/-- The last arrival of a round completes it. -/
theorem arriveAt_last {s : State} {key count : Nat} (err : Bool) (h : needAt s key count ≤ (s.barrier key).arrivals + 1) :
    onlyCores ((s.setBarrier key ((s.barrier key).arrived count err)).setBarrier key ((s.barrier key).arrived count err).completed)
      (arriveAt s key count err) := by
  have hfull := tryComplete_full (s := s.setBarrier key ((s.barrier key).arrived count err)) (key := key)
  rw [barrierNeed_arrived, State.barrier_setBarrier_self] at hfull
  exact hfull (Nat.succ_ne_zero _) h

/-- Settles O37: an arrival is counted, and where it is the last of its round the round completes. -/
theorem barrierRounds : Obligations.BarrierRounds := by
  intro s key count err b n need after
  rcases Nat.lt_or_ge (b.arrivals + 1) need with hopen | hlast
  · have hafter : after = s.setBarrier key (b.arrived count err) := arriveAt_open err hopen
    rw [hafter]
    refine ⟨fun k hk => State.barrier_setBarrier_ne _ _ hk, fun _ => ⟨State.barrier_setBarrier_self _ _ _, rfl⟩, fun h => ?_, rfl⟩
    exact absurd hopen (Nat.not_lt.2 h)
  · have hafter : onlyCores _ after := arriveAt_last err hlast
    refine ⟨fun k hk => ?_, fun h => absurd h (Nat.not_lt.2 hlast), fun _ => ?_, ?_⟩
    · rw [hafter.barrier, State.barrier_setBarrier_ne _ _ hk, State.barrier_setBarrier_ne _ _ hk]
    · rw [hafter.barrier, State.barrier_setBarrier_self]
      rfl
    · rw [hafter]
      rfl

/-! What a step does with the move that comes next (R314, R417). -/

@[simp] theorem frozen_takeMove (s : State) : frozen (takeMove s) = frozen s := rfl

@[simp] theorem core_takeMove (s : State) (c : Nat) : (takeMove s).core c = s.core c := rfl

theorem step_noSuchUnit {s : State} (h : moveNamesUnits (nextMove s) = false) : step s = .fault .noSuchUnit := by
  simp [step, h]

/-- A move that a freeze does not hold is made where it can be made now, unless it meets something to wait for. -/
theorem step_of_not_held {s : State} {m : Move} (hm : nextMove s = m) (hu : moveNamesUnits m = true)
    (hh : (frozen s && heldInFreeze m) = false) :
    step s = if moveAllowed (takeMove s) m then unlessWaiting (takeMove s) (makeMove (takeMove s) m) else .next (takeMove s) := by
  simp only [step, hm, hu, frozen_takeMove, hh, Bool.not_true, Bool.false_eq_true, if_false, Bool.not_eq_true']
  cases moveAllowed (takeMove s) m <;> rfl

theorem step_of_running {s : State} {m : Move} (hm : nextMove s = m) (hu : moveNamesUnits m = true) (hf : frozen s = false) :
    step s = if moveAllowed (takeMove s) m then unlessWaiting (takeMove s) (makeMove (takeMove s) m) else .next (takeMove s) :=
  step_of_not_held hm hu (by rw [hf, Bool.false_and])

theorem step_of_held {s : State} {m : Move} (hm : nextMove s = m) (hu : moveNamesUnits m = true) (hf : frozen s = true)
    (hh : heldInFreeze m = true) : step s = .next { takeMove s with heldMoves := s.heldMoves ++ [m] } := by
  simp [step, hm, hu, hf, hh]

/-- The state right after a move is taken waits for nothing. -/
theorem unlessWaiting_takeMove (s : State) : unlessWaiting (takeMove s) (.next (takeMove s)) = .next (takeMove s) := rfl

/-! Firings (R34). -/

/-- What holds a firing back: a router path that another takes, a card that goes first, a fault that goes first (R32, R291, R334). -/
def fireHeld (s : State) (c k : Nat) : Prop := losesPath s c k = true ∨ cardWaits s c k = true ∨ yieldsFault s c k = true

theorem moveAllowed_fire {s : State} (hf : frozen s = false) (c k : Nat) : moveAllowed s (.fire c k) = true ↔ ¬ fireHeld s c k := by
  simp [moveAllowed, hf, fireHeld, and_assoc]

theorem makeMove_fire {s : State} {c k : Nat} {x : Word64} {i : Instr} (hx : fetchWord s c k = some x) (hi : decode x = .ok i) :
    makeMove s (.fire c k) = exec i { s with focus := (c, k) } := by
  simp [makeMove, hx, hi, Except.toOption, runFetched]

theorem makeMove_fire_none {s : State} {c k : Nat} (hx : fetchWord s c k = none) : makeMove s (.fire c k) = .next s := by
  simp [makeMove, hx]

theorem moveNamesUnits_fire {c k : Nat} (hc : c < 512) (hk : k < 128) : moveNamesUnits (.fire c k) = true := by
  simp [moveNamesUnits, hc, hk]

theorem step_fire {s : State} {c k : Nat} (hm : nextMove s = .fire c k) (hc : c < 512) (hk : k < 128) (hf : frozen s = false)
    {x : Word64} {i : Instr} (hw : ¬ fireHeld (takeMove s) c k) (hx : fetchWord s c k = some x) (hi : decode x = .ok i) :
    step s = unlessWaiting (takeMove s) (exec i { takeMove s with focus := (c, k) }) := by
  rw [step_of_running hm (moveNamesUnits_fire hc hk) hf, if_pos ((moveAllowed_fire (s := takeMove s) hf c k).2 hw), makeMove_fire (s := takeMove s) hx hi]

theorem step_fire_waits {s : State} {c k : Nat} (hm : nextMove s = .fire c k) (hc : c < 512) (hk : k < 128) (hf : frozen s = false)
    (hw : fireHeld (takeMove s) c k ∨ fetchWord s c k = none) : step s = .next (takeMove s) := by
  rw [step_of_running hm (moveNamesUnits_fire hc hk) hf]
  split
  · next ha =>
    have hx : fetchWord s c k = none := hw.resolve_left ((moveAllowed_fire (s := takeMove s) hf c k).1 ha)
    rw [makeMove_fire_none (s := takeMove s) hx, unlessWaiting_takeMove]
  · rfl

/-! Seeds (R252). -/

/-- What holds a seed back: lines that its core's intake has still to judge, a fault of a card of its task (Table 12.8, R334). -/
def seedHeld (s : State) (c : Nat) : Prop := (s.core c).seedIn ≠ [] ∨ seedYields s c = true

theorem moveAllowed_seed {s : State} (hf : frozen s = false) (c : Nat) : moveAllowed s (.seed c) = true ↔ ¬ seedHeld s c := by
  simp [moveAllowed, hf, seedHeld]

theorem makeMove_seed {s : State} {c : Nat} {x : BitVec 128} {i : Instr} (hx : fetchHusk s c = some x) (hi : decodeHusk x = .ok i) :
    makeMove s (.seed c) = exec i { s with focus := (c, 0) } := by
  simp [makeMove, hx, hi, Except.toOption, runFetched]

theorem makeMove_seed_none {s : State} {c : Nat} (hx : fetchHusk s c = none) : makeMove s (.seed c) = .next s := by
  simp [makeMove, hx]

theorem moveNamesUnits_seed {c : Nat} (hc : c < 512) : moveNamesUnits (.seed c) = true := by
  simp [moveNamesUnits, hc]

theorem step_seed {s : State} {c : Nat} (hm : nextMove s = .seed c) (hc : c < 512) (hf : frozen s = false)
    {x : BitVec 128} {i : Instr} (hw : ¬ seedHeld (takeMove s) c) (hx : fetchHusk s c = some x) (hi : decodeHusk x = .ok i) :
    step s = unlessWaiting (takeMove s) (exec i { takeMove s with focus := (c, 0) }) := by
  rw [step_of_running hm (moveNamesUnits_seed hc) hf, if_pos ((moveAllowed_seed (s := takeMove s) hf c).2 hw), makeMove_seed (s := takeMove s) hx hi]

theorem step_seed_waits {s : State} {c : Nat} (hm : nextMove s = .seed c) (hc : c < 512) (hf : frozen s = false)
    (hw : seedHeld (takeMove s) c ∨ fetchHusk s c = none) : step s = .next (takeMove s) := by
  rw [step_of_running hm (moveNamesUnits_seed hc) hf]
  split
  · next ha =>
    have hx : fetchHusk s c = none := hw.resolve_left ((moveAllowed_seed (s := takeMove s) hf c).1 ha)
    rw [makeMove_seed_none (s := takeMove s) hx, unlessWaiting_takeMove]
  · rfl

/-! Events and cycles. -/

theorem makeMove_ev {i : Instr} (hi : isEvent i = true) (s : State) : makeMove s (.ev i) = exec i s := by
  simp [makeMove, hi, runFetched]

theorem step_ev {s : State} {i : Instr} (hm : nextMove s = .ev i) (hi : isEvent i = true) (hf : frozen s = false) :
    step s = if !eventNamesUnits i then .fault .noSuchUnit
      else if moveAllowed (takeMove s) (.ev i) then unlessWaiting (takeMove s) (exec i (takeMove s)) else .next (takeMove s) := by
  cases hu : eventNamesUnits i
  · exact step_noSuchUnit (by rw [hm]; exact hu)
  · exact (step_of_running hm hu hf).trans (by rw [makeMove_ev hi]; rfl)

/-- While a device runs, an event can be made unless its fault yields (R334) or it writes a register before a configuration block is
accepted (R411). -/
theorem moveAllowed_ev {s : State} (hf : frozen s = false) (i : Instr) : moveAllowed s (.ev i) = match i with
      | .memoryResponse c t n => !responseYields s c t n
      | .cardFault c t chain seq => !cardFaultYields s c t chain seq
      | .seedIntake c => !intakeYields s c
      | _ => s.boot == .running || !needsRunning i := by
  split
  · simp [moveAllowed, hf]
  · simp [moveAllowed, hf]
  · simp [moveAllowed, hf]
  · rw [moveAllowed.eq_def]
    split <;> simp_all

/-- A frozen device makes link housekeeping and what ends the freeze alone (R417, R418). -/
theorem moveAllowed_ev_frozen {s : State} (hf : frozen s = true) (i : Instr) :
    moveAllowed s (.ev i) = (runsFrozen i && (s.boot == .running || !needsRunning i)) := by
  unfold moveAllowed
  split <;> simp_all [runsFrozen]

theorem step_ev_frozen {s : State} {i : Instr} (hm : nextMove s = .ev i) (hi : isEvent i = true) (hu : eventNamesUnits i = true)
    (hf : frozen s = true) :
    step s = if heldInFreeze (.ev i) then .next { takeMove s with heldMoves := s.heldMoves ++ [.ev i] }
      else if runsFrozen i && (s.boot == .running || !needsRunning i) then unlessWaiting (takeMove s) (exec i (takeMove s))
      else .next (takeMove s) := by
  cases hh : heldInFreeze (.ev i)
  · rw [step_of_not_held hm hu (by rw [hh, Bool.and_false]), moveAllowed_ev_frozen (s := takeMove s) hf, makeMove_ev hi]
    rfl
  · rw [step_of_held hm hu hf hh]
    rfl

theorem step_cycle {s : State} {c : Nat} (hm : nextMove s = .cycle c) (hc : c < 512) (hf : frozen s = false) :
    step s = if (s.core c).seedIn = [] ∧ leaveDue (takeMove s) c = false
      then unlessWaiting (takeMove s) (.next (cycleMove c (takeMove s))) else .next (takeMove s) := by
  have hu : moveNamesUnits (.cycle c) = true := by simp [moveNamesUnits, hc]
  have ha : moveAllowed (takeMove s) (.cycle c) = true ↔ (s.core c).seedIn = [] ∧ leaveDue (takeMove s) c = false := by
    simp [moveAllowed, hf]
  rw [step_of_running hm hu hf, if_congr ha rfl rfl]
  rfl

/-! A word placed in a bare phase of core 0 (log entry 11). -/

theorem firstSlot_lt (op : Nat) : firstSlot op < 128 := by
  have h : opClass op < 8 := by
    unfold opClass
    repeat' split
    all_goals decide
  unfold firstSlot
  split <;> omega

/-- The slots of a block that hold a word. -/
theorem mem_blockSlots {words : List Word64} {p : Nat × Word64} (hp : p ∈ blockSlots words) : words[p.1]? = some p.2 ∧ p.2 ≠ 0#64 := by
  obtain ⟨hzip, hne⟩ := List.mem_filter.1 hp
  obtain ⟨n, hn⟩ := List.mem_iff_getElem?.1 hzip
  obtain ⟨hi, hw⟩ := List.getElem?_zip_eq_some.1 hn
  obtain ⟨hlt, hi⟩ := List.getElem?_eq_some_iff.1 hi
  rw [List.getElem_range] at hi
  exact ⟨hi ▸ hw, by simpa using hne⟩

theorem barePhase_word_self {slot : Nat} (hs : slot < 128) (x : Word64) : (barePhase slot x).words[slot]? = some x := by
  simp [barePhase, hs]

theorem barePhase_word_ne {slot k : Nat} (hk : k ≠ slot) {x y : Word64} (hy : (barePhase slot x).words[k]? = some y) : y = 0#64 := by
  rw [barePhase, List.getElem?_set_ne hk.symm] at hy
  exact List.eq_of_mem_replicate (List.mem_of_getElem? hy)

/-- A bare phase holds a word in its one slot alone. -/
theorem slot_of_mem_barePhase {slot : Nat} {x : Word64} {p : Nat × Word64} (hp : p ∈ blockSlots (barePhase slot x).words) : p.1 = slot := by
  obtain ⟨hw, hne⟩ := mem_blockSlots hp
  by_contra h
  exact hne (barePhase_word_ne h hw)

section PlacedWord
variable (s : State) (x : Word64)

/-- What core 0 holds of a placed word: its task runs, with the bare phase, and nothing has fired in the cycle. -/
theorem placeWord_core : ((placeWord s x).core 0).running = some 0 ∧ ((placeWord s x).core 0).firedNow = [] ∧
    tabFind ((placeWord s x).core 0).tasks 0 = some { bareTask with phase := some (barePhase (firstSlot (wordOp x)) x), phases := 1 } := by
  have h : (placeWord s x).core 0 = _ := State.core_setCore_self _ 0 _
  rw [h]
  exact ⟨rfl, rfl, State.task_setTask_self s 0 0 _⟩

theorem fetchWord_placeWord (k : Nat) : fetchWord (placeWord s x) 0 k = (barePhase (firstSlot (wordOp x)) x).words[k]? := by
  obtain ⟨hrun, -, htask⟩ := placeWord_core s x
  simp [fetchWord, hrun, htask]

theorem runningPhase_placeWord : runningPhase (placeWord s x) 0 = some (barePhase (firstSlot (wordOp x)) x) := by
  obtain ⟨hrun, -, htask⟩ := placeWord_core s x
  simp [runningPhase, holder, State.task?, hrun, htask]

/-- A slot of the placed block that holds no word has no firing. -/
theorem readyNow_placeWord {k : Nat} (hk : k ≠ firstSlot (wordOp x)) : readyNow (takeMove (placeWord s x)) 0 k = false := by
  have hnone : fireOutcome (takeMove (placeWord s x)) 0 k = none := by
    have hfetch : fetchWord (takeMove (placeWord s x)) 0 k = (barePhase (firstSlot (wordOp x)) x).words[k]? := fetchWord_placeWord s x k
    unfold fireOutcome
    rw [hfetch]
    cases hy : (barePhase (firstSlot (wordOp x)) x).words[k]? with
    | none => rfl
    | some y =>
      rw [barePhase_word_ne hk hy]
      rfl
  rw [readyNow, hnone]
  rfl

theorem respFaults_placeWord : respFaults (takeMove (placeWord s x)) 0 = [] := by
  have hrun : ((takeMove (placeWord s x)).core 0).running = some 0 := (placeWord_core s x).1
  have hph : runningPhase (takeMove (placeWord s x)) 0 = _ := runningPhase_placeWord s x
  unfold respFaults
  rw [hrun, hph]
  rfl

/-- The placed word is alone in its block, so nothing of its cycle goes before its firing. -/
theorem not_fireHeld_placeWord : ¬ fireHeld (takeMove (placeWord s x)) 0 (firstSlot (wordOp x)) := by
  have hph : runningPhase (takeMove (placeWord s x)) 0 = _ := runningPhase_placeWord s x
  have hfired : ((takeMove (placeWord s x)).core 0).firedNow = [] := (placeWord_core s x).2.1
  rintro (hpath | hcard | hfault)
  · simp only [losesPath, hph, Option.any_some, List.any_eq_true, Bool.and_eq_true, bne_iff_ne] at hpath
    obtain ⟨p, hp, ⟨⟨hne, -⟩, -⟩, -⟩ := hpath
    exact hne (slot_of_mem_barePhase hp)
  · simp only [cardWaits, hfired, List.contains_nil, Bool.not_false, Bool.and_true, Bool.and_false, Bool.or_false, Bool.and_eq_true, beq_iff_eq] at hcard
    obtain ⟨⟨hslot, hready⟩, -⟩ := hcard
    rw [readyNow_placeWord s x (by omega)] at hready
    cases hready
  · simp only [yieldsFault, faultYields, respFaults_placeWord, hph, Option.any_some, List.any_nil, Bool.or_false, List.any_eq_true, Bool.and_eq_true] at hfault
    obtain ⟨-, p, hp, hearlier, -⟩ := hfault
    rw [slot_of_mem_barePhase hp] at hearlier
    simp [earlierFiring] at hearlier

theorem step_placeWord {i : Instr} (hi : decode x = .ok i) :
    step (placeWord s x) = unlessWaiting (takeMove (placeWord s x)) (exec i { takeMove (placeWord s x) with focus := (0, firstSlot (wordOp x)) }) := by
  have hfetch : fetchWord (placeWord s x) 0 (firstSlot (wordOp x)) = some x :=
    (fetchWord_placeWord s x _).trans (barePhase_word_self (firstSlot_lt _) x)
  exact step_fire rfl (by decide) (firstSlot_lt _) rfl (not_fireHeld_placeWord s x) hfetch hi

end PlacedWord

/-! A husk placed in the buffer of core 0's running task (log entry 11). -/

section PlacedHusk
variable (s : State) (x : BitVec 128)

/-- What core 0 holds of a placed husk: its task runs with the husk at the head of its buffer, and no line is at the intake. -/
theorem placeHusk_core : ((placeHusk s x).core 0).running = some 0 ∧ ((placeHusk s x).core 0).seedIn = [] ∧
    tabFind ((placeHusk s x).core 0).tasks 0 =
      some { bareTask with phases := 1, seed := { joined := true, running := true, leave := true, buf := [⟨0, x, [], 0, 0, false⟩] } } := by
  have h : (placeHusk s x).core 0 = _ := State.core_setCore_self _ 0 _
  rw [h]
  exact ⟨rfl, rfl, State.task_setTask_self s 0 0 _⟩

theorem fetchHusk_placeHusk : fetchHusk (placeHusk s x) 0 = some x := by
  obtain ⟨hrun, -, htask⟩ := placeHusk_core s x
  simp only [fetchHusk, hrun, htask, Option.bind_some]
  rfl

theorem pendingCardFault_of_no_chains {task : Task} (h : task.chains = []) : pendingCardFault task = none := by
  rw [pendingCardFault, h]
  rfl

/-- The task of the placed husk has no card, so no fault of one goes before its seed. -/
theorem not_seedHeld_placeHusk : ¬ seedHeld (takeMove (placeHusk s x)) 0 := by
  obtain ⟨hrun, hin, htask⟩ := placeHusk_core s x
  rintro (hlines | hyields)
  · exact hlines hin
  · simp only [seedYields, holder, State.task?, core_takeMove, hrun, htask, Option.bind_some, Option.any_some, Bool.and_eq_true] at hyields
    obtain ⟨hcards, -⟩ := hyields
    rw [pendingCardFault_of_no_chains rfl] at hcards
    cases hcards

theorem step_placeHusk {i : Instr} (hi : decodeHusk x = .ok i) :
    step (placeHusk s x) = unlessWaiting (takeMove (placeHusk s x)) (exec i { takeMove (placeHusk s x) with focus := (0, 0) }) :=
  step_seed rfl (by decide) rfl (not_seedHeld_placeHusk s x) (fetchHusk_placeHusk s x) hi

end PlacedHusk

theorem withFetchWord_word (s : State) (x : Word64) : s.withFetchWord 64 x.toNat = placeWord s x := by
  rw [State.withFetchWord, if_pos (by decide), BitVec.ofNat_toNat, BitVec.setWidth_eq]

theorem withFetchWord_husk (s : State) (x : BitVec 128) : s.withFetchWord 128 x.toNat = placeHusk s x := by
  rw [State.withFetchWord, if_neg (by decide), BitVec.ofNat_toNat, BitVec.setWidth_eq]

/-- Settles O60: the move is taken and counted, and where nothing holds it back its instruction runs. -/
theorem stepRuns : Obligations.StepRuns := by
  intro s at_ u made
  have hmade : made = unlessWaiting := by
    funext v o
    cases o <;> rfl
  clear_value made
  subst hmade
  refine ⟨step_noSuchUnit, fun hu hf ha => ?_, fun hf => ⟨fun c k hm hc hk => ⟨fun x i => ?_, ?_⟩, fun c hm hc => ⟨fun x i => ?_, ?_⟩, fun i hm hi => ?_, ?_, fun c hm hc => ?_⟩,
    fun hf i hm hi hu => ?_, fun x i hi => ?_, fun x i hi => ?_⟩
  · rw [step_of_running rfl hu hf, if_pos ha]
  · exact step_fire hm hc hk hf
  · exact step_fire_waits hm hc hk hf
  · exact step_seed hm hc hf
  · exact step_seed_waits hm hc hf
  · exact step_ev hm hi hf
  · exact moveAllowed_ev hf
  · exact step_cycle hm hc hf
  · exact step_ev_frozen hm hi hu hf
  · rw [withFetchWord_word]
    exact step_placeWord s x hi
  · rw [withFetchWord_husk]
    exact step_placeHusk s x hi

end Sys2Proof.Machine
end

section
/-! PROOFS. Encoding is the inverse of decoding, class by class (R60, R61, R68, R74): the fields read from a word give the word back, and a
row of the opcode tables reads as an instruction exactly where the instruction has the row's opcode, variant and fields. -/

namespace Sys2Proof

/-! A word put together again from its fields. -/

theorem encodeStage_readStage (x : BitVec 64) (h : x.extractLsb' 24 1 = 0#1) : encodeStage (wordOp x) (readStage x) = x := by
  simp only [encodeStage, readStage, wordOp, BitVec.ofNat_toNat, BitVec.setWidth_eq, ← h]
  repeat rw [BitVec.extractLsb'_append_extractLsb'_eq_extractLsb' (by rfl)]
  exact BitVec.extractLsb'_eq_self

theorem encodeMem_readMem (x : BitVec 64) : encodeMem (wordOp x) (readMem x) = x := by
  simp only [encodeMem, readMem, wordOp, BitVec.ofNat_toNat, BitVec.setWidth_eq]
  repeat rw [BitVec.extractLsb'_append_extractLsb'_eq_extractLsb' (by rfl)]
  exact BitVec.extractLsb'_eq_self

theorem encodeCp_readCp (x : BitVec 64) : encodeCp (wordOp x) (x.extractLsb' 28 4).toNat (readCp x) = x := by
  simp only [encodeCp, readCp, wordOp, BitVec.ofNat_toNat, BitVec.setWidth_eq]
  repeat rw [BitVec.extractLsb'_append_extractLsb'_eq_extractLsb' (by rfl)]
  exact BitVec.extractLsb'_eq_self

theorem encodeRe_readRe (x : BitVec 64) : encodeRe (wordOp x) (readRe x) = x := by
  simp only [encodeRe, readRe, wordOp, BitVec.ofNat_toNat, BitVec.setWidth_eq]
  repeat rw [BitVec.extractLsb'_append_extractLsb'_eq_extractLsb' (by rfl)]
  exact BitVec.extractLsb'_eq_self

theorem encodeEp_readEp (x : BitVec 64) : encodeEp (wordOp x) (x.extractLsb' 24 8).toNat (readEp x) = x := by
  simp only [encodeEp, readEp, wordOp, BitVec.ofNat_toNat, BitVec.setWidth_eq]
  repeat rw [BitVec.extractLsb'_append_extractLsb'_eq_extractLsb' (by rfl)]
  exact BitVec.extractLsb'_eq_self

theorem encodeHusk_readHusk (x : BitVec 128) : encodeHusk (x.extractLsb' 120 8).toNat (readHusk x) = x := by
  simp only [encodeHusk, readHusk, BitVec.ofNat_toNat, BitVec.setWidth_eq]
  repeat rw [BitVec.extractLsb'_append_extractLsb'_eq_extractLsb' (by rfl)]
  exact BitVec.extractLsb'_eq_self

/-! The rows of Tables 4.1 and 4.5: one instruction for each opcode and variant. -/

theorem stageInstr_eq_ok_iff {op : Nat} {w : StageW} {i : Instr} :
    stageInstr op w = .ok i ↔ i.fields = .stage w ∧ i.op = op := by
  constructor
  · intro h
    unfold stageInstr at h
    split at h <;> cases h <;> exact ⟨rfl, rfl⟩
  · rintro ⟨hw, rfl⟩
    cases i <;> cases hw <;> rfl

theorem memInstr_eq_ok_iff {op : Nat} {w : MemW} {i : Instr} :
    memInstr op w = .ok i ↔ i.fields = .mem w ∧ i.op = op := by
  constructor
  · intro h
    unfold memInstr at h
    split at h <;> cases h <;> exact ⟨rfl, rfl⟩
  · rintro ⟨hw, rfl⟩
    cases i <;> cases hw <;> rfl

theorem cpInstr_eq_ok_iff {op mode : Nat} {w : CpW} {i : Instr} :
    cpInstr op mode w = .ok i ↔ i.fields = .cp w ∧ i.op = op ∧ i.variant = mode := by
  constructor
  · intro h
    unfold cpInstr at h
    split at h <;> cases h <;> exact ⟨rfl, rfl, rfl⟩
  · rintro ⟨hw, rfl, rfl⟩
    cases i <;> cases hw <;> rfl

theorem reInstr_eq_ok_iff {op : Nat} {w : ReW} {i : Instr} :
    reInstr op w = .ok i ↔ i.fields = .re w ∧ i.op = op := by
  constructor
  · intro h
    unfold reInstr at h
    split at h <;> cases h <;> exact ⟨rfl, rfl⟩
  · rintro ⟨hw, rfl⟩
    cases i <;> cases hw <;> rfl

theorem fields_op_variant_of_epInstr {op : Nat} {sub : BitVec 8} {w : EpW} {i : Instr} (h : epInstr op sub w = .ok i) :
    i.fields = .ep w ∧ i.op = op ∧ i.variant = sub.toNat := by
  unfold epInstr at h
  split at h
  all_goals (repeat' split at h) <;> cases h <;> exact ⟨rfl, rfl, by simp_all [Instr.variant]⟩

theorem epInstr_op_variant {i : Instr} {w : EpW} (h : i.fields = .ep w) :
    epInstr i.op (BitVec.ofNat 8 i.variant) w = .ok i := by
  cases i <;> cases h <;> simp only [Instr.variant, BitVec.ofNat_toNat, BitVec.setWidth_eq] <;> rfl

theorem seedInstr_eq_ok_iff {op : Nat} {h : Husk} {i : Instr} :
    seedInstr op h = .ok i ↔ i.fields = .seed h ∧ i.op = op := by
  constructor
  · intro hi
    unfold seedInstr at hi
    split at hi <;> cases hi <;> exact ⟨rfl, rfl⟩
  · rintro ⟨hw, rfl⟩
    cases i <;> cases hw <;> rfl

/-! The opcodes of each class lie in the range of R61, and MODE of a control point fits its four bits. -/

theorem op_range_of_stage {i : Instr} {w : StageW} (h : i.fields = .stage w) : 0 < i.op ∧ i.op < 0x70 := by
  cases i <;> cases h <;> exact ⟨of_decide_eq_true rfl, of_decide_eq_true rfl⟩

theorem op_range_of_mem {i : Instr} {w : MemW} (h : i.fields = .mem w) : 0x70 ≤ i.op ∧ i.op < 0xA0 := by
  cases i <;> cases h <;> exact ⟨of_decide_eq_true rfl, of_decide_eq_true rfl⟩

theorem op_range_of_cp {i : Instr} {w : CpW} (h : i.fields = .cp w) : 0xA0 ≤ i.op ∧ i.op < 0xB0 ∧ i.variant < 16 := by
  cases i <;> cases h <;> exact ⟨of_decide_eq_true rfl, of_decide_eq_true rfl, of_decide_eq_true rfl⟩

theorem op_range_of_re {i : Instr} {w : ReW} (h : i.fields = .re w) : 0xB0 ≤ i.op ∧ i.op < 0xB8 := by
  cases i <;> cases h <;> exact ⟨of_decide_eq_true rfl, of_decide_eq_true rfl⟩

theorem op_range_of_ep {i : Instr} {w : EpW} (h : i.fields = .ep w) : 0xB8 ≤ i.op ∧ i.op < 256 := by
  cases i <;> cases h <;> exact ⟨of_decide_eq_true rfl, of_decide_eq_true rfl⟩

theorem op_range_of_seed {i : Instr} {h : Husk} (hi : i.fields = .seed h) : i.op < 256 := by
  cases i <;> cases hi <;> exact of_decide_eq_true rfl

/-! Both ways, for a word and for a husk. -/

/-- A configuration word decodes to the instruction it was encoded from. -/
theorem decode_of_encode {i : Instr} {x : BitVec 64} (h : encode i = some x) : decode x = .ok i := by
  unfold encode at h
  split at h
  next w hw =>
    obtain ⟨hpos, hlt⟩ := op_range_of_stage hw
    rw [← Option.some.inj h, decode_encodeStage _ _ hpos hlt]
    exact stageInstr_eq_ok_iff.2 ⟨hw, rfl⟩
  next w hw =>
    obtain ⟨hle, hlt⟩ := op_range_of_mem hw
    rw [← Option.some.inj h, decode_encodeMem _ _ hle hlt]
    exact memInstr_eq_ok_iff.2 ⟨hw, rfl⟩
  next w hw =>
    obtain ⟨hle, hlt, hmode⟩ := op_range_of_cp hw
    rw [← Option.some.inj h, decode_encodeCp _ _ _ hle hlt hmode]
    exact cpInstr_eq_ok_iff.2 ⟨hw, rfl, rfl⟩
  next w hw =>
    obtain ⟨hle, hlt⟩ := op_range_of_re hw
    rw [← Option.some.inj h, decode_encodeRe _ _ hle hlt]
    exact reInstr_eq_ok_iff.2 ⟨hw, rfl⟩
  next w hw =>
    obtain ⟨hle, hlt⟩ := op_range_of_ep hw
    rw [← Option.some.inj h, decode_encodeEp _ _ _ hle hlt]
    exact epInstr_op_variant hw
  · cases h
  · cases h

/-- No bit of a word that decodes is dropped: its instruction encodes to the same word. -/
theorem encode_of_decode {i : Instr} {x : BitVec 64} (h : decode x = .ok i) : encode i = some x := by
  simp only [decode] at h
  split at h
  · split at h <;> cases h
  split at h
  · split at h
    next hz =>
      obtain ⟨hw, hop⟩ := stageInstr_eq_ok_iff.1 h
      simp only [encode, hw, hop, encodeStage_readStage x hz]
    · split at h <;> cases h
  split at h
  · obtain ⟨hw, hop⟩ := memInstr_eq_ok_iff.1 h
    simp only [encode, hw, hop, encodeMem_readMem]
  split at h
  · obtain ⟨hw, hop, hmode⟩ := cpInstr_eq_ok_iff.1 h
    simp only [encode, hw, hop, hmode, encodeCp_readCp]
  split at h
  · obtain ⟨hw, hop⟩ := reInstr_eq_ok_iff.1 h
    simp only [encode, hw, hop, encodeRe_readRe]
  · obtain ⟨hw, hop, hsub⟩ := fields_op_variant_of_epInstr h
    simp only [encode, hw, hop, hsub, encodeEp_readEp]

theorem encode_eq_some_iff {i : Instr} {x : BitVec 64} : encode i = some x ↔ decode x = .ok i :=
  ⟨decode_of_encode, encode_of_decode⟩

theorem encodeSeed_eq_some_iff {i : Instr} {x : BitVec 128} : encodeSeed i = some x ↔ decodeHusk x = .ok i := by
  constructor
  · intro h
    unfold encodeSeed at h
    split at h
    next husk hw =>
      rw [← Option.some.inj h, decode_encodeHusk _ _ (op_range_of_seed hw)]
      exact seedInstr_eq_ok_iff.2 ⟨hw, rfl⟩
    · cases h
  · intro h
    obtain ⟨hw, hop⟩ := seedInstr_eq_ok_iff.1 h
    simp only [encodeSeed, hw, hop, encodeHusk_readHusk]

/-! Bytes in ascending address order (R55). -/

theorem leBytes_succ (n x : Nat) : leBytes (n + 1) x = byteOf x 0 :: leBytes n (x / 256) := by
  simp only [leBytes, List.range_succ_eq_map, List.map_cons, List.map_map, List.cons.injEq, true_and]
  refine List.map_congr_left fun k _ => ?_
  simp only [Function.comp_apply, byteOf, Nat.pow_succ', Nat.div_div_eq_div_mul]

theorem leNat_leBytes (n x : Nat) : leNat (leBytes n x) = x % 256 ^ n := by
  induction n generalizing x with
  | zero => simp [leBytes, leNat, Nat.mod_one]
  | succ n ih =>
    rw [leBytes_succ, leNat, ih, Nat.pow_succ', Nat.mod_mul]
    simp [byteOf]

theorem ofNat_leNat_leBytes (n : Nat) (x : BitVec (8 * n)) : BitVec.ofNat (8 * n) (leNat (leBytes n x.toNat)) = x := by
  have hx : x.toNat < 256 ^ n := by simpa [Nat.pow_mul] using x.isLt
  rw [leNat_leBytes, Nat.mod_eq_of_lt hx, BitVec.ofNat_toNat, BitVec.setWidth_eq]

theorem length_leBytes (n x : Nat) : (leBytes n x).length = n := by simp [leBytes]

theorem decodeTableWord_word (x : BitVec 64) : decodeTableWord 64 x.toNat = (decode x).toOption := by
  rw [decodeTableWord, if_pos (by decide), decodeBytes, if_pos (length_leBytes 8 _), ofNat_leNat_leBytes 8 x]

theorem decodeTableWord_husk (x : BitVec 128) : decodeTableWord 128 x.toNat = (decodeHusk x).toOption := by
  rw [decodeTableWord, if_neg (by decide), if_pos (by decide), decodeBytes, length_leBytes, if_neg (by decide), if_pos rfl,
    ofNat_leNat_leBytes 16 x]

/-- Settles O57: encoding is the inverse of decoding class by class, and the table's decoder reads the bytes of a word or husk as the
word or husk. -/
theorem decodeEncode : Obligations.DecodeEncode := by
  unfold Obligations.DecodeEncode
  refine ⟨fun i x => encode_eq_some_iff, fun i x => encodeSeed_eq_some_iff, fun i x h => ?_, fun i x h => ?_⟩
  · rw [decodeTableWord_word, encode_eq_some_iff.1 h]
    rfl
  · rw [decodeTableWord_husk, encodeSeed_eq_some_iff.1 h]
    rfl

/-- Settles O56: each word, as its opcode and fields are laid out, is its instruction's row of the tables. -/
theorem workedWords : Obligations.WorkedWords := by
  unfold Obligations.WorkedWords
  exact ⟨rfl, rfl, rfl, rfl, rfl, rfl, rfl, rfl, rfl, rfl, rfl, rfl, rfl, rfl⟩

end Sys2Proof
end

section
/-! PROOFS. The completion of a message in a core table out of order (R40, R303). -/

namespace Sys2Proof.Machine

/-- A message of a task of job 0 and rank 0 to channel 0 of core 0. -/
def sentMessage : Message := { core := 0, chan := 0, scope := 0, data := 0, job := 0, rank := 0, key := 5 }

/-- The phase of its sender, whose `msend` in slot 127 still owes the completion token. -/
def sendingPhase : Phase :=
  { barePhase 127 (encodeEp 0xF1 0 ⟨0, 0, 0x1FF, 0x1FF, 0, 0⟩) with owed := [(127, [⟨0, sentMessage.key, none⟩])] }

def sendingTask : Task := { bareTask with phase := some sendingPhase }

/-- A state whose core table lists core 1 before core 0, each with a task that has sent the message under way. -/
def coresOutOfOrder : State :=
  { State.reset with
    cores := [(1, { tasks := [(0, sendingTask)] }), (0, { tasks := [(0, sendingTask)] })]
    messages := [sentMessage] }

/-- The sender is the task of core 1, the first that the table lists. -/
theorem findTask_coresOutOfOrder : findTask coresOutOfOrder 0 0 = some (1, 0) := rfl

/-- The message joins its queue; core 0, whose queue was written, is then listed first, so the completion token goes to its task and core 1's
still owes its own. -/
theorem messageArrive_coresOutOfOrder : (messageArrive 0 coresOutOfOrder).task? 1 0 = some sendingTask := rfl

/-- With its token known, the sender owes nothing more. -/
theorem owed_settled_sendingPhase :
    (flushOwed (setOwed sendingPhase 127 ((owedOf sendingPhase 127).map fun o =>
      if o.key = sentMessage.key ∧ o.tok = none then { o with tok := some (completion, completion) } else o)) 127).owed = [] := rfl

/-- Refutes O45: in a state whose core table is not in rising order of its keys, the write of the channel's queue lists the receiving core
anew before the sender's, and the completion token goes to another task of the sender's job and rank. The clause on a message under way asks
it of the task that was found before; it says nothing of the order of the tables. -/
theorem not_fabricEvents : ¬ Obligations.FabricEvents := by
  unfold Obligations.FabricEvents
  intro h
  obtain ⟨-, harrives, -⟩ := h coresOutOfOrder 0
  obtain ⟨-, hjoins⟩ := harrives 0 sentMessage rfl (by decide)
  obtain ⟨u, hu, -, -, -, -, hsettled⟩ := hjoins (by simp) (by decide)
  obtain ⟨y, hy, hphase⟩ := hsettled 1 0 sendingTask sendingPhase findTask_coresOutOfOrder rfl rfl
  have hu' : messageArrive 0 coresOutOfOrder = u := Host.Outcome.next.inj hu
  rw [← hu', messageArrive_coresOutOfOrder, Option.some.injEq] at hy
  rw [← hy] at hphase
  have howed := congrArg Phase.owed (Option.some.inj hphase)
  rw [owed_settled_sendingPhase] at howed
  cases howed

end Sys2Proof.Machine
end

section
/-! PROOFS. The rounding codes against the floor, the ceiling and the fraction of the exact value, and sums and products as rationals (R100,
R129). -/

namespace Sys2Proof.Machine

/-! The floor and the fraction of m 2^sh. Where 0 ≤ sh the divisor below is 1, so that one equation serves both directions of the shift. -/

/-- m 2^sh is its floored shift and what the shift drops. -/
theorem scaled_eq_shiftNat_add (m : Nat) (sh : Int) :
    (m : ℚ) * 2 ^ sh = shiftNat m sh + ((m % 2 ^ (-sh).toNat : Nat) : ℚ) / 2 ^ (-sh).toNat := by
  rcases Int.le_total 0 sh with h | h
  · obtain ⟨n, rfl⟩ := Int.eq_ofNat_of_zero_le h
    simp [shiftNat, Nat.mod_one]
  · obtain ⟨n, rfl⟩ := Int.exists_eq_neg_ofNat h
    have hdiv : shiftNat m (-(n : Int)) = m / 2 ^ n := by
      rcases n.eq_zero_or_pos with rfl | hn
      · simp [shiftNat]
      · rw [shiftNat, if_neg (by omega), neg_neg, Int.toNat_natCast]
    rw [hdiv, neg_neg, Int.toNat_natCast, zpow_neg, zpow_natCast, ← div_eq_mul_inv, div_eq_iff (by positivity), add_mul,
      div_mul_cancel₀ _ (by positivity)]
    exact_mod_cast (Nat.div_add_mod' m (2 ^ n)).symm

theorem fract_scaled (m : Nat) (sh : Int) :
    Int.fract ((m : ℚ) * 2 ^ sh) = ((m % 2 ^ (-sh).toNat : Nat) : ℚ) / 2 ^ (-sh).toNat := by
  have hlt : ((m % 2 ^ (-sh).toNat : Nat) : ℚ) < 2 ^ (-sh).toNat := by exact_mod_cast Nat.mod_lt m (Nat.two_pow_pos _)
  rw [scaled_eq_shiftNat_add, Int.fract_natCast_add, Int.fract_eq_self]
  exact ⟨by positivity, (div_lt_one (by positivity)).2 hlt⟩

theorem shiftNat_add_fract (m : Nat) (sh : Int) : (shiftNat m sh : ℚ) + Int.fract ((m : ℚ) * 2 ^ sh) = m * 2 ^ sh := by
  rw [fract_scaled, ← scaled_eq_shiftNat_add]

theorem shiftNat_eq_floor (m : Nat) (sh : Int) : (shiftNat m sh : ℚ) = ⌊(m : ℚ) * 2 ^ sh⌋ := by
  linarith [shiftNat_add_fract m sh, Int.floor_add_fract ((m : ℚ) * 2 ^ sh)]

theorem shiftLost_iff (m : Nat) (sh : Int) : shiftLost m sh = true ↔ Int.fract ((m : ℚ) * 2 ^ sh) ≠ 0 := by
  have hrem : shiftLost m sh = true ↔ m % 2 ^ (-sh).toNat ≠ 0 := by
    rcases lt_or_ge sh 0 with h | h
    · simp [shiftLost, h]
    · simp [shiftLost, Int.toNat_of_nonpos (Int.neg_nonpos_of_nonneg h), Nat.mod_one]
  rw [hrem, fract_scaled, div_ne_zero_iff]
  simp

theorem shiftNat_add_lost_eq_ceil (m : Nat) (sh : Int) :
    ((shiftNat m sh + (shiftLost m sh).toNat : Nat) : ℚ) = ⌈(m : ℚ) * 2 ^ sh⌉ := by
  have hsum := shiftNat_add_fract m sh
  by_cases h : Int.fract ((m : ℚ) * 2 ^ sh) = 0
  · have hlost : shiftLost m sh = false := Bool.eq_false_iff.2 fun hl => (shiftLost_iff m sh).1 hl h
    rw [h, add_zero] at hsum
    rw [hlost, ← hsum]
    simp
  · rw [(shiftLost_iff m sh).2 h, Int.ceil_eq_add_one_sub_fract h, Bool.toNat_true, Nat.cast_add_one]
    linarith

/-! What each rounding code adds to the floor (R100). -/

theorem roundShift_toZero (neg : Bool) (m : Nat) (sh : Int) : roundShift 1 neg m sh = shiftNat m sh := by simp [roundShift]

theorem roundShift_up (neg : Bool) (m : Nat) (sh : Int) :
    roundShift 2 neg m sh = shiftNat m sh + if neg then 0 else (shiftLost m sh).toNat := by
  cases neg <;> cases hl : shiftLost m sh <;> simp [roundShift, hl]

theorem roundShift_down (neg : Bool) (m : Nat) (sh : Int) :
    roundShift 3 neg m sh = shiftNat m sh + if neg then (shiftLost m sh).toNat else 0 := by
  cases neg <;> cases hl : shiftLost m sh <;> simp [roundShift, hl]

/-- What the shift drops, against one half of the last place, where it drops something. -/
theorem rem_compare_half {m : Nat} {sh : Int} (h : shiftLost m sh = true) :
    (2 ^ ((-sh).toNat - 1) < m % 2 ^ (-sh).toNat ↔ 1 / 2 < Int.fract ((m : ℚ) * 2 ^ sh)) ∧
    (m % 2 ^ (-sh).toNat = 2 ^ ((-sh).toNat - 1) ↔ Int.fract ((m : ℚ) * 2 ^ sh) = 1 / 2) := by
  have hpos : (-sh).toNat ≠ 0 := by
    simp only [shiftLost, Bool.and_eq_true, Bool.not_eq_true', decide_eq_false_iff_not] at h
    omega
  rw [fract_scaled]
  obtain ⟨n, hn⟩ := Nat.exists_eq_succ_of_ne_zero hpos
  rw [hn, Nat.succ_sub_one]
  generalize m % 2 ^ (n + 1) = r
  have hhalf : (1 / 2 : ℚ) * 2 ^ (n + 1) = (2 ^ n : Nat) := by
    push_cast
    ring
  rw [lt_div_iff₀ (by positivity), div_eq_iff (by positivity), hhalf]
  norm_cast

/-- Nearest-even leaves the floor where the fraction is above one half, or is one half and the floor is odd. -/
theorem roundShift_nearest (neg : Bool) (m : Nat) (sh : Int) :
    roundShift 0 neg m sh =
      if 1 / 2 < Int.fract ((m : ℚ) * 2 ^ sh) ∨ (Int.fract ((m : ℚ) * 2 ^ sh) = 1 / 2 ∧ shiftNat m sh % 2 = 1)
      then shiftNat m sh + 1 else shiftNat m sh := by
  cases hl : shiftLost m sh with
  | true =>
    obtain ⟨habove, htie⟩ := rem_compare_half hl
    simp only [← habove, ← htie]
    simp [roundShift, hl]
  | false =>
    have hfract : Int.fract ((m : ℚ) * 2 ^ sh) = 0 := by simpa [hl] using shiftLost_iff m sh
    rw [hfract, if_neg (by norm_num)]
    simp [roundShift, hl]

theorem roundShift_nearest_within_half (neg : Bool) (m : Nat) (sh : Int) :
    |(roundShift 0 neg m sh : ℚ) - m * 2 ^ sh| ≤ 1 / 2 := by
  have hsum := shiftNat_add_fract m sh
  have hnonneg := Int.fract_nonneg ((m : ℚ) * 2 ^ sh)
  have hlt := Int.fract_lt_one ((m : ℚ) * 2 ^ sh)
  rw [roundShift_nearest, abs_le]
  split
  next hup =>
    have hge : 1 / 2 ≤ Int.fract ((m : ℚ) * 2 ^ sh) := hup.elim le_of_lt fun htie => htie.1.ge
    push_cast
    constructor <;> linarith
  next hdown =>
    have hle : Int.fract ((m : ℚ) * 2 ^ sh) ≤ 1 / 2 := not_lt.1 fun habove => hdown (.inl habove)
    constructor <;> linarith

theorem roundShift_nearest_even_of_tie {neg : Bool} {m : Nat} {sh : Int}
    (h : |(roundShift 0 neg m sh : ℚ) - m * 2 ^ sh| = 1 / 2) : roundShift 0 neg m sh % 2 = 0 := by
  have hsum := shiftNat_add_fract m sh
  have hnonneg := Int.fract_nonneg ((m : ℚ) * 2 ^ sh)
  have hlt := Int.fract_lt_one ((m : ℚ) * 2 ^ sh)
  have htie : Int.fract ((m : ℚ) * 2 ^ sh) = 1 / 2 := by
    rw [roundShift_nearest] at h
    split at h
    · rw [abs_of_nonneg (by push_cast; linarith)] at h
      push_cast at h
      linarith
    · rw [abs_of_nonpos (by linarith)] at h
      linarith
  rw [roundShift_nearest]
  simp only [htie, lt_irrefl, false_or, true_and]
  split <;> omega

/-- Settles O11: nearest-even by the fraction that is dropped, the other codes by the floor and the ceiling. -/
theorem roundingModes : Obligations.RoundingModes := by
  unfold Obligations.RoundingModes
  intro neg m sh x k
  simp only [x, k]
  refine ⟨⟨roundShift_nearest_within_half neg m sh, roundShift_nearest_even_of_tie⟩, ?_, ?_, ?_⟩
  · rw [roundShift_toZero, shiftNat_eq_floor]
  · rw [roundShift_up, ← shiftNat_eq_floor, ← shiftNat_add_lost_eq_ceil]
    cases neg <;> rfl
  · rw [roundShift_down, ← shiftNat_eq_floor, ← shiftNat_add_lost_eq_ceil]
    cases neg <;> rfl

/-! Finite values as rationals. -/

/-- The rational that a finite value of sign neg, magnitude m and exponent e is. -/
def finRat (neg : Bool) (m : Nat) (e : Int) : ℚ := (if neg then -1 else 1) * m * 2 ^ e

theorem finRat_zero (neg : Bool) (e : Int) : finRat neg 0 e = 0 := by simp [finRat]

theorem finRat_of_int (z e : Int) : finRat (z < 0) z.natAbs e = z * 2 ^ e := by
  have hz : (if z < 0 then -1 else 1 : ℚ) * z.natAbs = z := by
    rw [Nat.cast_natAbs]
    split
    next hneg => rw [abs_of_neg hneg, Int.cast_neg, neg_one_mul, neg_neg]
    next hnonneg => rw [abs_of_nonneg (not_lt.1 hnonneg), one_mul]
  simp only [finRat, decide_eq_true_eq, hz]

/-- Aligning a value to a lower exponent loses nothing. -/
theorem alignTo_mul_zpow (neg : Bool) (m : Nat) {e' e : Int} (h : e ≤ e') : (alignTo neg m e' e : ℚ) * 2 ^ e = finRat neg m e' := by
  obtain ⟨n, rfl⟩ := Int.le.dest h
  have hn : (e + n - e).toNat = n := by omega
  rw [alignTo, hn, finRat, zpow_add₀ two_ne_zero, zpow_natCast]
  cases neg <;> simp <;> ring

theorem alignTo_add_alignTo (na nb : Bool) (ma mb : Nat) (ea eb : Int) :
    ((alignTo na ma ea (min ea eb) + alignTo nb mb eb (min ea eb) : Int) : ℚ) * 2 ^ min ea eb = finRat na ma ea + finRat nb mb eb := by
  rw [Int.cast_add, add_mul, alignTo_mul_zpow _ _ (min_le_left ..), alignTo_mul_zpow _ _ (min_le_right ..)]

/-- The sum of two finite values is finite, exact and valid, with R100's sign where operands of opposite sign cancel. -/
theorem addVal_fin_exact (rnd : Nat) (na nb : Bool) (ma mb : Nat) (ea eb : Int) :
    ∃ n m e, addVal rnd (.fin na ma ea) (.fin nb mb eb) = (.fin n m e, false) ∧
      finRat n m e = finRat na ma ea + finRat nb mb eb ∧ (na ≠ nb → finRat na ma ea + finRat nb mb eb = 0 → n = (rnd == 3)) := by
  have hsum := alignTo_add_alignTo na nb ma mb ea eb
  generalize hs : alignTo na ma ea (min ea eb) + alignTo nb mb eb (min ea eb) = s at hsum
  by_cases hzero : s = 0
  · rw [hzero, Int.cast_zero, zero_mul] at hsum
    refine ⟨if na = nb then na else rnd == 3, 0, 0, ?_, by rw [finRat_zero, hsum], fun hne _ => if_neg hne⟩
    simp only [addVal, hs, hzero, if_true]
    split <;> rfl
  · refine ⟨s < 0, s.natAbs, min ea eb, by simp only [addVal, hs, if_neg hzero], by rw [finRat_of_int, hsum], fun _ hcancel => ?_⟩
    rw [← hsum] at hcancel
    exact absurd hcancel (mul_ne_zero (Int.cast_ne_zero.2 hzero) (zpow_ne_zero _ two_ne_zero))

theorem finRat_mul (na nb : Bool) (ma mb : Nat) (ea eb : Int) :
    finRat (na != nb) (ma * mb) (ea + eb) = finRat na ma ea * finRat nb mb eb := by
  have hsign : (if (na != nb) = true then -1 else 1 : ℚ) = (if na then -1 else 1) * (if nb then -1 else 1) := by
    cases na <;> cases nb <;> norm_num
  rw [finRat, finRat, finRat, hsign, zpow_add₀ two_ne_zero, Nat.cast_mul]
  ring

/-- Settles O12: the sum by aligning both operands to the lower exponent, the product by multiplying signs and magnitudes. -/
theorem exactBeforeRounding : Obligations.ExactBeforeRounding := by
  unfold Obligations.ExactBeforeRounding
  intro rnd na nb ma mb ea eb
  exact ⟨addVal_fin_exact rnd na nb ma mb ea eb, na != nb, ma * mb, ea + eb, rfl, finRat_mul na nb ma mb ea eb⟩

end Sys2Proof.Machine
end

section
/-! PROOFS. What a stage yields, gives or traps on, from its function, and the record of `wrb` (R35, R103, R118). -/

namespace Sys2Proof.Machine

theorem elem_mod (x : Token) (t e : Nat) : x.elem t e % 2 ^ typeWidth t = x.elem t e := Nat.mod_eq_of_lt (elem_lt x t e)

/-- An elementwise instruction that raises no status yields its rule on its operands' elements; that it is no `wrb` is read off its opcode. -/
theorem quiet_yields {i : Instr} {w : StageW} {g : StageW → StageIn → StageOut} (hi : stageFn i = some (w, g)) (hop : (i.op == 0x23) = false)
    {srcs : StageIn → List Token} {f : StageIn → List Nat → Nat} {r : StageIn → Nat → Nat}
    (hg : ∀ x, g w x = elementwiseQuiet w.ty.toNat (srcs x) (f x))
    (h : ∀ x e, f x ((srcs x).map fun y => y.elem w.ty.toNat e) % 2 ^ typeWidth w.ty.toNat = r x e) : stageYields i w srcs (quietly r) :=
  quiet_of hi (by simpa using hop) f hg h

/-- What an instruction gives that raises no status and is no `wrb`, from its function. -/
theorem stageGives_of {i : Instr} {w : StageW} {g : StageW → StageIn → StageOut} (hi : stageFn i = some (w, g)) (hop : (i.op == 0x23) = false)
    {P : StageIn → Token → Prop} (h : ∀ x, ∃ y, g w x = .both y 0 ∧ P x y) : stageGives i w P := by
  intro s f ops hr hn
  obtain ⟨y, hy, hP⟩ := h (stageReads w f ops)
  refine ⟨y, stage_sends hi (by simpa using hop) hr ?_ (trapsOn_zero _), hP⟩
  rw [if_neg (by simp [hn]), hy]
  rfl

/-- A stage that gives one token traps where a bit it raises is enabled, and sends the token where none is (R103). -/
theorem stage_sends_or_traps {i : Instr} {w : StageW} {g : StageW → StageIn → StageOut} (hi : stageFn i = some (w, g)) (hop : (i.op == 0x23) = false)
    {s : State} {f : Foc} {ops : List (Nat × Token)} (hr : stageReady i w s f ops) (hn : actsNull w.pm.toNat ops = false) {y : Token} {fl : Flags}
    (hout : g w (stageReads w f ops) = .both y fl) :
    (trapsOn f.task.fpen fl = true → stageTraps i s f fl) ∧ (trapsOn f.task.fpen fl = false → stageSends i w s f y y fl) := by
  refine ⟨fun ht => ?_, stage_sends hi (by simpa using hop) hr (by rw [if_neg (by simp [hn]), hout]; rfl)⟩
  obtain ⟨hf, hr⟩ := hr
  unfold stageReads at hout
  unfold stageTraps
  rw [exec_stage hi]
  unfold fireStage
  simp only [hf, hr, hn, hout, Bool.false_eq_true, if_false]
  exact if_pos ht

/-! The record of `wrb` (R35, R118). -/

/-- A node that took its operands and sent nothing. -/
theorem nodeFired_none {f : Foc} {s : State} (hf : foc? s = some f) {ports : List Nat} (hg : goodPorts ports)
    (hne : ∀ p ∈ ports, portQ f.nd p ≠ []) : nodeFired f ports [] (setNode f.ph f.slot (advance f.nd ports)) := by
  obtain ⟨-, -, -, -, -, -, -, hnd⟩ := foc_cases hf
  refine ⟨rfl, ⟨fun u => ?_, fun n hn => ?_⟩, ?_⟩
  · rw [inFlight_advance _ _ _ _ hg (hnd ▸ hne) (fun q _ => by rw [hnd])]
    simp
  · rw [nodeOf_setNode_ne _ _ hn]
  · have hrest := popPorts_rest f.nd ports
    rw [nodeOf_setNode_self]
    simp only [Node.rest, advance, Node.mk.injEq] at hrest ⊢
    simp_all

/-- What the firing of `wrb` makes of its phase, its operand taken: a value is recorded, where its operands do not act as null and have one. -/
def wrbPhase (w : StageW) (f : Foc) (ops : List (Nat × Token)) (ph : Phase) : Phase :=
  match (if actsNull w.pm.toNat ops then none else wrbValue w (tokAt ops 0)) with
  | some v => putWrb ph (w.aux.toNat % 16) f.nd.iter v
  | none => ph

/-- A `wrb` that can fire does: it takes its operand, sends nothing and records its value (R118). -/
theorem wrb_fires {w : StageW} {s : State} {f : Foc} {ops : List (Nat × Token)} (hr : stageReady (.wrb w) w s f ops) :
    firesWith (.wrb w) s f (withPred w.pm.toNat [0]) (wrbPhase w f ops) := by
  obtain ⟨hf, hr⟩ := hr
  have hexec : exec (.wrb w) s = .next (fired (raiseFlags s f.c f.t 0) f
      (wrbPhase w f ops (setNode f.ph f.slot (advance f.nd (withPred w.pm.toNat [0]))))) := by
    rw [exec_stage rfl]
    unfold fireStage
    have hflags : (if actsNull w.pm.toNat ops = true then StageOut.both nullToken 0 else stWrb w (stageReads w f ops)).flags = 0 := by
      split <;> rfl
    unfold stageReads at hflags
    simp only [hf, hr, hflags, trapsOn_zero]
    rfl
  exact ⟨_, _, hexec, fired_spec hf 0 _, nodeFired_none hf (goodPorts_stage 0x23 w) (heads_nonempty (readyOps_heads hr))⟩

theorem firesWith.congr {i : Instr} {s : State} {f : Foc} {ports : List Nat} {g g' : Phase → Phase} (h : firesWith i s f ports g)
    (hg : ∀ ph, g ph = g' ph) : firesWith i s f ports g' := (funext hg : g = g') ▸ h

/-- The record of the latest iteration stands (R35). -/
theorem putWrb_eq (ph : Phase) (r k : Nat) (v : Word64) :
    putWrb ph r k v = if (tabFind ph.wrbs r).all fun x => decide (x.1 ≤ k) then { ph with wrbs := tabPut ph.wrbs r (k, v) } else ph := by
  unfold putWrb
  cases tabFind ph.wrbs r with
  | none => rfl
  | some e =>
    simp only [Option.all_some, decide_eq_true_eq]
    rcases Nat.lt_or_ge k e.1 with h | h
    · rw [if_pos h, if_neg (by omega)]
    · rw [if_neg (by omega), if_pos h]

/-- Element 0 lies in lane 0, for a 64-bit type in lanes 0 and 1 (R99). -/
theorem elemValid_zero (t : Nat) (m : BitVec 16) : elemValid t m 0 = (maskBit m 0 && (!is64 t || maskBit m 1)) := by
  unfold elemValid
  cases is64 t <;> simp

/-- The value of `wrb` (R118). -/
theorem wrbValue_eq {w : StageW} (ht : isWide w.ty.toNat = true) (a : Token) :
    wrbValue w a = if maskBit a.mask 0 && (!is64 w.ty.toNat || maskBit a.mask 1) then
      some (BitVec.ofNat 64 (if w.ty.toNat = 11 then wrapTo 64 (signedOf 32 (a.lane 0)) else if w.ty.toNat = 12 then a.lane 0 else a.elem 13 0))
    else none := by
  have hcases : w.ty.toNat = 11 ∨ w.ty.toNat = 12 ∨ w.ty.toNat = 13 ∨ w.ty.toNat = 14 := by
    simp only [isWide, Bool.and_eq_true, decide_eq_true_eq] at ht
    omega
  have helem : (if w.ty.toNat = 11 then wrapTo 64 (signedOf 32 (a.lane 0)) else a.elem w.ty.toNat 0) =
      if w.ty.toNat = 11 then wrapTo 64 (signedOf 32 (a.lane 0)) else if w.ty.toNat = 12 then a.lane 0 else a.elem 13 0 := by
    rcases hcases with h | h | h | h <;> rw [h] <;> rfl
  rw [← elemValid_zero, ← helem]
  rfl

/-- Settles O2: the record that `wrb` leaves, from its value and the record that stands. -/
theorem registerWriteRecorded : Obligations.RegisterWriteRecorded := by
  intro w s f ops hr ht a v r writes
  refine (wrb_fires hr).congr fun ph => ?_
  unfold wrbPhase
  rw [wrbValue_eq ht]
  cases hn : actsNull w.pm.toNat ops with
  | true =>
    have hwrites : writes = false := by simp [writes, hn]
    simp only [hwrites, Bool.false_and, Bool.false_eq_true, if_false, if_true]
  | false =>
    cases hm : maskBit a.mask 0 && (!is64 w.ty.toNat || maskBit a.mask 1) with
    | false =>
      have hwrites : writes = false := by simp only [writes, hn, Bool.not_false, Bool.true_and, hm]
      simp only [hwrites, Bool.false_and, Bool.false_eq_true, if_false]
    | true =>
      have hwrites : writes = true := by simp only [writes, hn, Bool.not_false, Bool.true_and, hm]
      simp only [hwrites, Bool.true_and, Bool.false_eq_true, if_false, if_true]
      exact putWrb_eq ph r f.nd.iter _

end Sys2Proof.Machine
end

section
/-! PROOFS. Integer arithmetic and bitwise logic by element (R97, R98, R111). -/

namespace Sys2Proof.Machine

theorem encodeInt_mod (t : Nat) (n : Int) : encodeInt t n % 2 ^ typeWidth t = wrapTo (typeWidth t) n := wrapTo_mod _ _

theorem wrapOrSat_eq (w : StageW) (n : Int) :
    wrapOrSat w n = if w.sat = 1#1 then wrapTo (typeWidth w.ty.toNat) (max (intMin w.ty.toNat) (min (intMax w.ty.toNat) n))
      else wrapTo (typeWidth w.ty.toNat) n := by
  simp only [wrapOrSat, encodeInt, saturate]
  split <;> rfl

theorem wrapOrSat_mod (w : StageW) (n : Int) : wrapOrSat w n % 2 ^ typeWidth w.ty.toNat = wrapOrSat w n := wrapTo_mod _ _

/-- An integer of the type wraps and saturates to its own bits (R97). -/
theorem wrapOrSat_decodeInt_elem (w : StageW) (x : Token) (e : Nat) :
    wrapOrSat w (decodeInt w.ty.toNat (x.elem w.ty.toNat e)) = x.elem w.ty.toNat e := by
  rw [wrapOrSat_eq, sat_decode, decodeInt_wrap_elem, ite_self]

/-- The bits of an integer of the type are its own (R97). -/
theorem encodeInt_decodeInt {t p : Nat} (hp : p < 2 ^ typeWidth t) : encodeInt t (decodeInt t p) = p := by
  rw [encodeInt, decodeInt_wrap, Nat.mod_eq_of_lt hp]

theorem encodeInt_min {t p q : Nat} (hp : p < 2 ^ typeWidth t) (hq : q < 2 ^ typeWidth t) :
    encodeInt t (min (decodeInt t p) (decodeInt t q)) = if decodeInt t p ≤ decodeInt t q then p else q := by
  rw [min_def, apply_ite (encodeInt t), encodeInt_decodeInt hp, encodeInt_decodeInt hq]

theorem encodeInt_max {t p q : Nat} (hp : p < 2 ^ typeWidth t) (hq : q < 2 ^ typeWidth t) :
    encodeInt t (max (decodeInt t p) (decodeInt t q)) = if decodeInt t p ≤ decodeInt t q then q else p := by
  rw [max_def, apply_ite (encodeInt t), encodeInt_decodeInt hp, encodeInt_decodeInt hq]

/-- The magnitude of an element is the element itself where it is not negative. -/
theorem wrapOrSat_natAbs_elem (w : StageW) (x : Token) (e : Nat) :
    wrapOrSat w (decodeInt w.ty.toNat (x.elem w.ty.toNat e)).natAbs =
      if decodeInt w.ty.toNat (x.elem w.ty.toNat e) < 0 then wrapOrSat w (-decodeInt w.ty.toNat (x.elem w.ty.toNat e)) else x.elem w.ty.toNat e := by
  split
  next hneg => rw [Int.ofNat_natAbs_of_nonpos hneg.le]
  next hnonneg => rw [Int.natAbs_of_nonneg (not_lt.1 hnonneg), wrapOrSat_decodeInt_elem]

theorem intBin_yields {i : Instr} {w : StageW} {g : StageW → StageIn → StageOut} (f : Int → Int → Nat) (hi : stageFn i = some (w, g))
    (hop : (i.op == 0x23) = false) (hg : ∀ x, g w x = intBin w x f) {r : StageIn → Nat → Nat}
    (h : ∀ x e, f (decodeInt w.ty.toNat (x.a.elem w.ty.toNat e)) (decodeInt w.ty.toNat (x.b.elem w.ty.toNat e)) % 2 ^ typeWidth w.ty.toNat = r x e) :
    stageYields i w (fun x => [x.a, x.b]) (quietly r) := quiet_yields hi hop hg h

theorem intUn_yields {i : Instr} {w : StageW} {g : StageW → StageIn → StageOut} (f : Int → Nat) (hi : stageFn i = some (w, g))
    (hop : (i.op == 0x23) = false) (hg : ∀ x, g w x = intUn w x f) {r : StageIn → Nat → Nat}
    (h : ∀ x e, f (decodeInt w.ty.toNat (x.a.elem w.ty.toNat e)) % 2 ^ typeWidth w.ty.toNat = r x e) :
    stageYields i w (fun x => [x.a]) (quietly r) := quiet_yields hi hop hg h

/-- Settles O3: the exact result of each rule, wrapped or saturated. -/
theorem integerArithmetic : Obligations.IntegerArithmetic := by
  unfold Obligations.IntegerArithmetic
  intro w t wd v sat red ab
  have hred (n : Int) : wrapOrSat w n % 2 ^ typeWidth w.ty.toNat = red n := (wrapOrSat_mod w n).trans (wrapOrSat_eq w n)
  refine ⟨?vadd, ?vsub, ?vaddsat, ?vsubsat, ?vmul, ?vmulhi, ?vmad, ?vneg, ?vabs, ?vmin, ?vmax⟩
  case vadd => exact intBin_yields _ rfl rfl (fun _ => rfl) fun _ _ => encodeInt_mod t _
  case vsub => exact intBin_yields _ rfl rfl (fun _ => rfl) fun _ _ => encodeInt_mod t _
  case vaddsat => exact intBin_yields _ rfl rfl (fun _ => rfl) fun _ _ => encodeInt_mod t _
  case vsubsat => exact intBin_yields _ rfl rfl (fun _ => rfl) fun _ _ => encodeInt_mod t _
  case vmul => exact intBin_yields _ rfl rfl (fun _ => rfl) fun _ _ => hred _
  case vmulhi => exact intBin_yields _ rfl rfl (fun _ => rfl) fun _ _ => (encodeInt_mod t _).trans (wrapTo_hi wd _).symm
  case vmad => exact quiet_yields rfl rfl (fun _ => rfl) fun _ _ => hred _
  case vneg => exact intUn_yields _ rfl rfl (fun _ => rfl) fun _ _ => hred _
  case vabs =>
    refine intUn_yields (fun a => wrapOrSat w a.natAbs) rfl rfl (fun _ => rfl) fun x e => (wrapOrSat_mod w _).trans ?_
    rw [wrapOrSat_natAbs_elem, wrapOrSat_eq]
  case vmin => exact intBin_yields _ rfl rfl (fun _ => rfl) fun _ _ => (wrapTo_mod wd _).trans (encodeInt_min (elem_lt ..) (elem_lt ..))
  case vmax => exact intBin_yields _ rfl rfl (fun _ => rfl) fun _ _ => (wrapTo_mod wd _).trans (encodeInt_max (elem_lt ..) (elem_lt ..))

/-! Bitwise logic (R98, R111). -/

/-- Bit k of the element that a bitwise instruction forms from p and q by the rule b on bits: for pred bit 0 alone (R98). -/
def logicBit (t : Nat) (b : Bool → Bool → Bool) (p q k : Nat) : Bool :=
  if t = 15 ∧ k ≠ 0 then false else decide (k < typeWidth t) && b (p.testBit k) (q.testBit k)

/-- A bitwise instruction, by the bits below the element's width. -/
theorem bitwise_yields {i : Instr} {w : StageW} {g : StageW → StageIn → StageOut} (f : Nat → Nat → Nat) (b : Bool → Bool → Bool)
    (hi : stageFn i = some (w, g)) (hop : (i.op == 0x23) = false) (hg : ∀ x, g w x = bitwise w x f)
    (hf : ∀ p q k, k < typeWidth w.ty.toNat → (f p q).testBit k = b (p.testBit k) (q.testBit k)) :
    ∃ r, stageYields i w (fun x => [x.a, x.b]) (quietly r) ∧
      ∀ x e k, (r x e).testBit k = logicBit w.ty.toNat b (x.a.elem w.ty.toNat e) (x.b.elem w.ty.toNat e) k := by
  refine ⟨_, quiet_yields hi hop hg fun _ _ => rfl, fun x e k => ?_⟩
  generalize hp : x.a.elem w.ty.toNat e = p
  generalize hq : x.b.elem w.ty.toNat e = q
  simp only [List.map_cons, List.map_nil, hp, hq, logicBit, Nat.testBit_mod_two_pow]
  by_cases hk : k < typeWidth w.ty.toNat
  · by_cases ht : w.ty.toNat = 15
    · have hlow (n : Nat) : (n % 2).testBit k = (decide (k = 0) && n.testBit k) := by
        simpa using Nat.testBit_mod_two_pow n 1 k
      rcases Nat.eq_zero_or_pos k with rfl | hpos
      · simp [ht, hlow, hf _ _ _ hk]
      · simp [ht, hlow, hpos.ne']
    · simp [ht, hf _ _ _ hk, hk]
  · simp [hk]

theorem testBit_allOnes (n k : Nat) : (allOnes n).testBit k = decide (k < n) := Nat.testBit_two_pow_sub_one n k

/-- Settles O4: each bit of the result from the operands' bits there. -/
theorem bitwiseLogic : Obligations.BitwiseLogic := by
  unfold Obligations.BitwiseLogic
  intro w t yields
  refine ⟨?vand, ?vor, ?vxor, ?vandn⟩
  case vand => exact bitwise_yields _ _ rfl rfl (fun _ => rfl) fun p q k _ => Nat.testBit_and p q k
  case vor => exact bitwise_yields _ _ rfl rfl (fun _ => rfl) fun p q k _ => Nat.testBit_or p q k
  case vxor => exact bitwise_yields _ _ rfl rfl (fun _ => rfl) fun p q k _ => Nat.testBit_xor p q k
  case vandn =>
    refine bitwise_yields (i := .vandn w) (g := stVandn) _ (fun p q => p && !q) rfl rfl (fun _ => rfl) fun p q k hk => ?_
    rw [Nat.testBit_and, Nat.testBit_xor, testBit_allOnes, decide_eq_true hk, Bool.xor_true]

end Sys2Proof.Machine
end

section
/-! PROOFS. Shifts by any amount, and the counts of leading zeros and of one bits (R112, R113). -/

namespace Sys2Proof.Machine

theorem shiftOp_yields {i : Instr} {w : StageW} {g : StageW → StageIn → StageOut} (f : Nat → Nat → Nat) (hi : stageFn i = some (w, g))
    (hop : (i.op == 0x23) = false) (hg : ∀ x, g w x = shiftOp w x f) {r : StageIn → Nat → Nat}
    (h : ∀ x e, f (x.a.elem w.ty.toNat e) (x.b.elem w.ty.toNat e) % 2 ^ typeWidth w.ty.toNat = r x e) :
    stageYields i w (fun x => [x.a, x.b]) (quietly r) := quiet_yields hi hop hg h

/-! Left shifts by more than the exponent that the model forms (R112). -/

theorem wrapTo_eq_zero {w : Nat} {n : Int} (h : (2 : Int) ^ w ∣ n) : wrapTo w n = 0 := by
  rw [wrapTo, Int.emod_eq_zero_of_dvd h, Int.toNat_zero]

theorem intMin_le_zero (t : Nat) : intMin t ≤ 0 := by
  unfold intMin
  split
  · exact neg_nonpos.2 (by positivity)
  · exact le_rfl

theorem zero_le_intMax (t : Nat) : 0 ≤ intMax t := by
  unfold intMax
  split <;> exact sub_nonneg.2 (one_le_pow₀ (by norm_num))

theorem neg_two_pow_le_intMin (t : Nat) : -(2 : Int) ^ typeWidth t ≤ intMin t := by
  unfold intMin
  split
  · exact neg_le_neg (pow_le_pow_right₀ (by norm_num) (Nat.sub_le _ _))
  · exact neg_nonpos.2 (by positivity)

theorem intMax_le_two_pow (t : Nat) : intMax t ≤ 2 ^ typeWidth t := by
  have hle : (2 : Int) ^ (typeWidth t - 1) ≤ 2 ^ typeWidth t := pow_le_pow_right₀ (by norm_num) (Nat.sub_le _ _)
  unfold intMax
  split <;> omega

theorem saturate_of_ge {t : Nat} {n : Int} (h : 2 ^ typeWidth t ≤ n) : saturate t n = intMax t := by
  rw [saturate, min_eq_left ((intMax_le_two_pow t).trans h), max_eq_right ((intMin_le_zero t).trans (zero_le_intMax t))]

theorem saturate_of_le {t : Nat} {n : Int} (h : n ≤ -2 ^ typeWidth t) : saturate t n = intMin t := by
  have hn : n ≤ intMin t := h.trans (neg_two_pow_le_intMin t)
  rw [saturate, min_eq_right (hn.trans ((intMin_le_zero t).trans (zero_le_intMax t))), max_eq_left hn]

/-- Past the width of the type a left shift saturates by its sign alone. -/
theorem saturate_mul_two_pow {t s : Nat} (a : Int) (h : typeWidth t ≤ s) :
    saturate t (a * 2 ^ s) = if a = 0 then saturate t 0 else if 0 < a then intMax t else intMin t := by
  have hpow : (2 : Int) ^ typeWidth t ≤ 2 ^ s := pow_le_pow_right₀ (by norm_num) h
  have hpos : (0 : Int) < 2 ^ s := by positivity
  rcases lt_trichotomy a 0 with hneg | rfl | hgt
  · rw [if_neg hneg.ne, if_neg hneg.not_gt, saturate_of_le (by nlinarith)]
  · simp
  · rw [if_neg hgt.ne', if_pos hgt, saturate_of_ge (by nlinarith)]

theorem wrapOrSat_shlExact (w : StageW) (a : Int) (s : Nat) :
    wrapOrSat w (shlExact (typeWidth w.ty.toNat) a s) = wrapOrSat w (a * 2 ^ s) := by
  rcases Nat.le_total s (2 * typeWidth w.ty.toNat) with hs | hs
  · rw [shlExact, min_eq_left hs]
  · have hdvd {k : Nat} (hk : typeWidth w.ty.toNat ≤ k) : (2 : Int) ^ typeWidth w.ty.toNat ∣ a * 2 ^ k :=
      Dvd.dvd.mul_left (pow_dvd_pow 2 hk) a
    rw [shlExact, min_eq_right hs]
    simp only [wrapOrSat, encodeInt]
    split
    · rw [saturate_mul_two_pow a (by omega), saturate_mul_two_pow a (by omega)]
    · rw [wrapTo_eq_zero (hdvd (by omega)), wrapTo_eq_zero (hdvd (by omega))]

/-! Right shifts and rotation (R112). -/

theorem signedOf_bounds (w x : Nat) : -(2 : Int) ^ w ≤ signedOf w x ∧ signedOf w x < 2 ^ w := by
  have hlt : ((x % 2 ^ w : Nat) : Int) < 2 ^ w := by exact_mod_cast Nat.mod_lt x (Nat.two_pow_pos w)
  unfold signedOf
  split <;> omega

/-- Divided by at least its range, a number rounds down to 0 or -1 by its sign alone. -/
theorem ediv_two_pow_of_bounds {w s : Nat} {n : Int} (h : -(2 : Int) ^ w ≤ n ∧ n < 2 ^ w) (hs : w ≤ s) : n / 2 ^ s = if n < 0 then -1 else 0 := by
  have hpow : (2 : Int) ^ w ≤ 2 ^ s := pow_le_pow_right₀ (by norm_num) hs
  split
  next hneg =>
    have hdiv := (Int.ediv_emod_unique (a := n) (b := 2 ^ s) (r := n + 2 ^ s) (q := -1) (by positivity)).2 ⟨by ring, by omega, by omega⟩
    exact hdiv.1
  next hnonneg => exact Int.ediv_eq_zero_of_lt (by omega) (by omega)

theorem signedOf_ediv_min (w x s : Nat) : signedOf w x / 2 ^ min s w = signedOf w x / 2 ^ s := by
  rcases Nat.le_total s w with hs | hs
  · rw [min_eq_left hs]
  · rw [min_eq_right hs, ediv_two_pow_of_bounds (signedOf_bounds w x) le_rfl, ediv_two_pow_of_bounds (signedOf_bounds w x) hs]

theorem shiftRight_or_zero {w p : Nat} (hp : p < 2 ^ w) (s : Nat) : (if w ≤ s then 0 else p >>> s) = p / 2 ^ s := by
  rw [Nat.shiftRight_eq_div_pow]
  split
  next hs => exact (Nat.div_eq_of_lt (hp.trans_le (Nat.pow_le_pow_right two_pos hs))).symm
  next => rfl

theorem rotl_eq_rotateLeft {w p : Nat} (hp : p < 2 ^ w) (s : Nat) :
    ((p <<< (s % w)) ||| (p >>> (w - s % w))) % 2 ^ w = ((BitVec.ofNat w p).rotateLeft s).toNat := by
  have hshift : p >>> (w - s % w) < 2 ^ w := (Nat.shiftRight_le _ _).trans_lt hp
  rw [BitVec.toNat_rotateLeft, BitVec.toNat_ofNat, Nat.mod_eq_of_lt hp, Nat.or_mod_two_pow, Nat.mod_eq_of_lt hshift]

/-! Counts (R113). -/

theorem clz_eq_sub_size (w x : Nat) : clz w x = w - Nat.size x := by
  unfold clz
  split
  next hzero => rw [hzero, Nat.size_zero, Nat.sub_zero]
  next hx =>
    have hsize : Nat.size x = Nat.log2 x + 1 :=
      le_antisymm (Nat.size_le.2 Nat.lt_log2_self) (Nat.lt_size.2 (Nat.log2_self_le hx))
    omega

theorem popc_succ (w x : Nat) : popc (w + 1) x = x % 2 + popc w (x / 2) := by
  have hsum (l : List Nat) (y n : Nat) : l.foldl (fun n i => n + y / 2 ^ i % 2) n = n + (l.map fun i => y / 2 ^ i % 2).sum := by
    induction l generalizing n with
    | nil => rfl
    | cons i l ih => rw [List.foldl_cons, ih, List.map_cons, List.sum_cons, Nat.add_assoc]
  rw [popc, popc, hsum, hsum, List.range_succ_eq_map]
  simp [Nat.pow_succ', Nat.div_div_eq_div_mul, Function.comp_def]

theorem count_bits (x : Nat) : (Nat.bits x).count true = x % 2 + (Nat.bits (x / 2)).count true := by
  rcases Nat.even_or_odd' x with ⟨n, rfl | rfl⟩
  · rcases n.eq_zero_or_pos with rfl | hn
    · simp
    · simp [Nat.bit0_bits n hn.ne']
  · have hdiv : (2 * n + 1) / 2 = n := by omega
    rw [Nat.bit1_bits, hdiv, List.count_cons_self]
    omega

theorem popc_eq_count_bits {w x : Nat} (hx : x < 2 ^ w) : popc w x = (Nat.bits x).count true := by
  induction w generalizing x with
  | zero =>
    obtain rfl : x = 0 := by simpa using hx
    rfl
  | succ w ih => rw [popc_succ, count_bits x, ih (by rw [Nat.pow_succ] at hx; omega)]

/-- The one bits of a w-bit element are at most w. -/
theorem count_bits_le {w x : Nat} (hx : x < 2 ^ w) : (Nat.bits x).count true ≤ w :=
  List.count_le_length.trans ((Nat.size_eq_bits_len x).trans_le (Nat.size_le.2 hx))

/-- Settles O5: the shifts for every amount, and the counts from the size and the bits of the element. -/
theorem shiftsAndCounts : Obligations.ShiftsAndCounts := by
  unfold Obligations.ShiftsAndCounts
  intro w t wd ab a s
  refine ⟨?vshl, ?vshr, ?vsra, ?vrotl, ?vclz, ?vpopc⟩
  case vshl =>
    refine shiftOp_yields _ rfl rfl (fun _ => rfl) fun x e => (wrapOrSat_mod w _).trans ?_
    exact (wrapOrSat_shlExact w _ _).trans (wrapOrSat_eq w _)
  case vshr =>
    refine shiftOp_yields _ rfl rfl (fun _ => rfl) fun x e => ?_
    have hp : a x e < 2 ^ wd := elem_lt _ _ _
    rw [shiftRight_or_zero hp, Nat.mod_eq_of_lt ((Nat.div_le_self _ _).trans_lt hp)]
  case vsra =>
    refine shiftOp_yields _ rfl rfl (fun _ => rfl) fun x e => (wrapTo_mod wd _).trans ?_
    exact congrArg (wrapTo wd) (signedOf_ediv_min wd _ _)
  case vrotl =>
    exact shiftOp_yields _ rfl rfl (fun _ => rfl) fun x e => (Nat.mod_mod _ _).trans (rotl_eq_rotateLeft (elem_lt _ _ _) _)
  case vclz =>
    refine quiet_yields rfl rfl (fun _ => rfl) fun x e => ?_
    exact (Nat.mod_eq_of_lt (by rw [clz_eq_sub_size]; exact (Nat.sub_le _ _).trans_lt Nat.lt_two_pow_self)).trans (clz_eq_sub_size _ _)
  case vpopc =>
    refine quiet_yields rfl rfl (fun _ => rfl) fun x e => ?_
    have hx : x.a.elem t e < 2 ^ wd := elem_lt _ _ _
    exact (congrArg (· % 2 ^ wd) (popc_eq_count_bits hx)).trans (Nat.mod_eq_of_lt ((count_bits_le hx).trans_lt Nat.lt_two_pow_self))

end Sys2Proof.Machine
end

section
/-! PROOFS. Comparison and selection (R114, R115), and bitfields by bit (R116). -/

namespace Sys2Proof.Machine

/-! Conditions (R114). -/

/-- The condition codes of R114 as a table; every code above 5 asks for `ge`, as 5 does. -/
theorem condHolds_eq_getD (code : Nat) (n : Int) :
    condHolds code n = [n == 0, n != 0, decide (n < 0), decide (n ≤ 0), decide (0 < n), decide (0 ≤ n)].getD code (decide (0 ≤ n)) := by
  rcases code with _ | _ | _ | _ | _ | _ | code <;> rfl

/-- A condition holds of a difference as of its sign. -/
theorem condHolds_signOf (code : Nat) (n : Int) : condHolds code (signOf n) = condHolds code n := by
  have hlt : signOf n < 0 ↔ n < 0 := by unfold signOf; split_ifs <;> omega
  have hgt : 0 < signOf n ↔ 0 < n := by unfold signOf; split_ifs <;> omega
  have hle : signOf n ≤ 0 ↔ n ≤ 0 := by rw [← not_lt, hgt, not_lt]
  have hge : 0 ≤ signOf n ↔ 0 ≤ n := by rw [← not_lt, hlt, not_lt]
  have heq : signOf n = 0 ↔ n = 0 := by rw [le_antisymm_iff, hle, hge, ← le_antisymm_iff]
  have hbeq : (signOf n == 0) = (n == 0) := Bool.eq_iff_iff.2 (by simpa using heq)
  simp only [condHolds, bne, hbeq, hlt, hgt, hle, hge]

theorem boolElem_mod (w : Nat) (p : Bool) : boolElem w p % 2 ^ w = boolElem w p := by
  refine Nat.mod_eq_of_lt ?_
  have hpos := Nat.two_pow_pos w
  cases p
  · exact hpos
  · exact Nat.sub_lt hpos one_pos

theorem vcmpBits_mod (t code a b : Nat) : (vcmpBits t code a b).1 % 2 ^ typeWidth t = (vcmpBits t code a b).1 := by
  unfold vcmpBits
  split <;> exact boolElem_mod _ _

/-- A choice by bit 0, asked of its two values. -/
theorem ite_mod_two_eq_zero (c p q : Nat) : (if c % 2 = 0 then q else p) = if c % 2 = 1 then p else q := by
  rcases Nat.mod_two_eq_zero_or_one c with h | h <;> simp [h]

theorem vcmp_yields {w : StageW} {r : StageIn → Nat → Nat × Flags}
    (h : ∀ x e, vcmpBits w.ty.toNat w.aux.toNat (x.a.elem w.ty.toNat e) (x.b.elem w.ty.toNat e) = r x e) :
    stageYields (.vcmp w) w (fun x => [x.a, x.b]) r :=
  yields_of (i := .vcmp w) (g := stVcmp) rfl (Nat.ne_of_beq_eq_false rfl) _ (fun _ => rfl) fun x e =>
    ⟨(vcmpBits_mod ..).trans (congrArg Prod.fst (h x e)), congrArg Prod.snd (h x e)⟩

/-- Settles O6: `vcmp` by its condition on the order or the difference of its operands, `vsel` by element c. -/
theorem compareAndSelect : Obligations.CompareAndSelect := by
  unfold Obligations.CompareAndSelect
  intro w t ones holds
  refine ⟨?vcmp, fun ht => ?vsel, fun ht => ?vselPred⟩
  case vcmp =>
    refine vcmp_yields fun x e => ?_
    simp only [vcmpBits, condHolds_signOf]
    simp only [condHolds_eq_getD]
    rfl
  case vsel =>
    refine quiet_yields rfl rfl (fun _ => rfl) fun x e => ?_
    have hpred : decide (w.ty.toNat = 15) = false := decide_eq_false ht
    simp only [List.map, hpred, Bool.false_eq_true, if_false, ite_not]
    split <;> exact elem_mod _ _ _
  case vselPred =>
    refine quiet_yields rfl rfl (fun _ => rfl) fun x e => ?_
    have hpred : decide (w.ty.toNat = 15) = true := decide_eq_true ht
    simp only [List.map, hpred, if_true]
    rw [Nat.mod_eq_of_lt ((Nat.mod_lt _ two_pos).trans_le (Nat.le_self_pow (typeWidth_pos _).ne' 2)), ite_mod_two_eq_zero]

/-! Fields of an element (R116). -/

theorem bitsOf_eq_div_mod (x lo len : Nat) : bitsOf x lo len = x / 2 ^ lo % 2 ^ len := by
  rw [bitsOf, Nat.shiftRight_eq_div_pow]

/-- Extending a field shorter than the element stays within the element. -/
theorem extendField_mod (t x : Nat) {n : Nat} (hn : n ≤ typeWidth t) : extendField t n x % 2 ^ typeWidth t = extendField t n x := by
  unfold extendField
  split
  · exact wrapTo_mod _ _
  · exact Nat.mod_eq_of_lt ((Nat.mod_lt _ (Nat.two_pow_pos n)).trans_le (Nat.pow_le_pow_right two_pos hn))

/-- A number with the m bits from pos on taken out: what stands above them, and what stands below. -/
theorem sub_field_eq (a pos m : Nat) : a - bitsOf a pos m * 2 ^ pos = 2 ^ pos * (2 ^ m * (a / 2 ^ (pos + m))) + a % 2 ^ pos := by
  have hlow : 2 ^ pos * (a / 2 ^ pos) + a % 2 ^ pos = a := Nat.div_add_mod a (2 ^ pos)
  have hhigh : 2 ^ m * (a / 2 ^ (pos + m)) + a / 2 ^ pos % 2 ^ m = a / 2 ^ pos := by
    rw [Nat.pow_add, ← Nat.div_div_eq_div_mul]
    exact Nat.div_add_mod _ _
  rw [← hhigh, Nat.mul_add] at hlow
  rw [bitsOf_eq_div_mod, Nat.mul_comm (_ % _)]
  omega

/-- The bits of a number whose m bits from pos on are replaced by the low bits of c. -/
theorem testBit_replaceField (a c pos m i : Nat) :
    (a - bitsOf a pos m * 2 ^ pos + c % 2 ^ m * 2 ^ pos).testBit i =
      if pos ≤ i ∧ i < pos + m then c.testBit (i - pos) else a.testBit i := by
  have hsplit : a - bitsOf a pos m * 2 ^ pos + c % 2 ^ m * 2 ^ pos =
      2 ^ pos * (2 ^ m * (a / 2 ^ (pos + m)) + c % 2 ^ m) + a % 2 ^ pos := by
    rw [sub_field_eq]
    ring
  rw [hsplit, Nat.testBit_two_pow_mul_add _ (Nat.mod_lt _ (Nat.two_pow_pos pos)),
    Nat.testBit_two_pow_mul_add _ (Nat.mod_lt _ (Nat.two_pow_pos m)), Nat.testBit_mod_two_pow, Nat.testBit_mod_two_pow,
    Nat.testBit_div_two_pow]
  by_cases hlow : i < pos
  · simp [hlow, hlow.not_ge]
  · by_cases hmid : i < pos + m
    · have hm : i - pos < m := by omega
      simp [hlow, not_lt.1 hlow, hmid, hm]
    · have hm : ¬ i - pos < m := by omega
      have hi : i - pos - m + (pos + m) = i := by omega
      simp [hlow, hmid, hm, hi]

/-- The bits of an element after `vbfi` (R116): a field that reaches past the element is cut there. -/
theorem testBit_insertField {wd a : Nat} (ha : a < 2 ^ wd) (c pos k i : Nat) :
    ((if wd ≤ pos ∨ bitsOf k 8 8 = 0 then a
      else a - bitsOf a pos (min (bitsOf k 8 8) (wd - pos)) * 2 ^ pos + c % 2 ^ min (bitsOf k 8 8) (wd - pos) * 2 ^ pos) % 2 ^ wd).testBit i =
      if pos ≤ i ∧ i < pos + k / 256 % 256 ∧ i < wd then c.testBit (i - pos) else a.testBit i := by
  have hlen : bitsOf k 8 8 = k / 256 % 256 := bitsOf_eq_div_mod k 8 8
  rw [Nat.testBit_mod_two_pow, hlen]
  rcases lt_or_ge i wd with hi | hi
  · rw [decide_eq_true hi, Bool.true_and]
    split
    next hnone => rw [if_neg (by omega)]
    next hsome =>
      have hfield : pos ≤ i ∧ i < pos + min (k / 256 % 256) (wd - pos) ↔ pos ≤ i ∧ i < pos + k / 256 % 256 ∧ i < wd := by omega
      rw [testBit_replaceField, if_congr hfield rfl rfl]
  · have hhigh : a.testBit i = false := Nat.testBit_lt_two_pow (ha.trans_le (Nat.pow_le_pow_right two_pos hi))
    rw [decide_eq_false hi.not_gt, Bool.false_and, if_neg (fun h => hi.not_gt h.2.2), hhigh]

/-- Settles O7: `vext` and `vbfx` by the field that they extend, `vbfi` bit by bit. -/
theorem bitfields : Obligations.Bitfields := by
  unfold Obligations.Bitfields
  intro w t wd k ext
  refine ⟨?vext, ?vbfx, _, quiet_yields rfl rfl (fun _ => rfl) fun _ _ => rfl, ?vbfi⟩
  case vext =>
    refine quiet_yields rfl rfl (fun _ => rfl) fun x e => ?_
    dsimp only [List.map]
    split
    · exact Nat.zero_mod _
    · split
      · exact elem_mod x.a t e
      next hlt => exact extendField_mod _ _ (not_le.1 hlt).le
  case vbfx =>
    refine quiet_yields rfl rfl (fun _ => rfl) fun x e => ?_
    dsimp only [List.map]
    rw [Nat.shiftRight_eq_div_pow, bitsOf_eq_div_mod]
    by_cases h : typeWidth t ≤ x.b.elem t e % 256 ∨ x.b.elem t e / 2 ^ 8 % 2 ^ 8 = 0
    · rw [if_pos h, Nat.zero_mod]
      exact (if_pos h).symm
    · rw [if_neg h]
      exact (extendField_mod _ _ ((min_le_right _ _).trans (Nat.sub_le _ _))).trans (if_neg h).symm
  case vbfi =>
    intro x e i
    exact testBit_insertField (elem_lt x.a t e) _ _ _ i

end Sys2Proof.Machine
end

section
/-! PROOFS. Masks and lanes of tokens, and tokens whose lanes are taken from another's (R28, R98, R99, R123 to R125). -/

namespace Sys2Proof.Machine

/-! Masks (R28, R99). -/

theorem maskBit_maskOf (f : Nat → Bool) (l : Nat) : maskBit (maskOf f) l = (decide (l < 16) && f l) := by
  have hbit := bitsOf_packElems 1 ((List.range 16).map fun l => (f l).toNat) l
  rw [bitsOf, Nat.shiftRight_eq_div_pow, Nat.mul_one, pow_one] at hbit
  rw [maskBit, maskOf, BitVec.getLsbD_ofNat, Nat.testBit_eq_decide_div_mod_eq]
  by_cases hl : l < 16
  · rw [hbit]
    cases hf : f l <;> simp [List.getD, hl, hf]
  · simp [hl]

theorem maskBit_pairMask (m : BitVec 16) {l : Nat} (hl : l < 16) :
    maskBit (pairMask m) l = (maskBit m (l / 2 * 2) && maskBit m (l / 2 * 2 + 1)) := by
  rw [pairMask, maskBit_maskOf, decide_eq_true hl, Bool.true_and]

/-- An element of a 32-bit type lies in its own lane. -/
theorem elemValid_lane (m : BitVec 16) (l : Nat) : elemValid 12 m l = maskBit m l := by
  have h : l * 32 / 32 = l := Nat.mul_div_cancel l (by norm_num)
  exact congrArg (maskBit m) h

/-! Lanes (R99). -/

theorem lane_eq_elem (x : Token) (l : Nat) : x.lane l = x.elem 12 l := by
  rw [Token.lane, Token.elem, Nat.mul_comm]
  rfl

theorem lane_lt (x : Token) (l : Nat) : x.lane l < 2 ^ 32 := bitsOf_lt _ _ _

theorem lane_laneToken (m : BitVec 16) (f : Nat → Nat) {l : Nat} (hl : l < 16) :
    (laneToken m f).lane l = if maskBit m l then f l % 2 ^ 32 else 0 := by
  rw [lane_eq_elem, laneToken, elem_tokenOf 12 m f l hl, elemValid_lane]
  rfl

theorem holdsLanes.congr {y : Token} {ok ok' : Nat → Bool} {v v' : Nat → Nat} (h : holdsLanes y ok v)
    (hok : ∀ l, l < 16 → ok l = ok' l) (hv : ∀ l, l < 16 → ok' l = true → v l = v' l) : holdsLanes y ok' v' := by
  obtain ⟨hnull, hlanes⟩ := h
  refine ⟨hnull, fun l hl => ?_⟩
  obtain ⟨hmask, hlane⟩ := hlanes l hl
  rw [hmask, hlane, hok l hl]
  exact ⟨rfl, ite_congr rfl (hv l hl) fun _ => rfl⟩

/-! Tokens of TYPE pred (R98). -/

/-- What a node of TYPE t makes of an element: for pred bit 0 alone (R98). -/
def predElem (t v : Nat) : Nat := if t = 15 then v % 2 else v

@[simp] theorem predElem_zero (t : Nat) : predElem t 0 = 0 := by simp [predElem]

theorem bitsOf_and (a b lo len : Nat) : bitsOf (a &&& b) lo len = bitsOf a lo len &&& bitsOf b lo len := by
  rw [bitsOf, Nat.shiftRight_and_distrib, Nat.and_mod_two_pow]
  rfl

@[simp] theorem predForm_mask (t : Nat) (x : Token) : (predForm t x).mask = x.mask := by
  unfold predForm
  split <;> rfl

@[simp] theorem predForm_null (t : Nat) (x : Token) : (predForm t x).null = x.null := by
  unfold predForm
  split <;> rfl

theorem elem_and (a b : BitVec 512) (m : BitVec 16) (n : Bool) (t e : Nat) :
    Token.elem ⟨a &&& b, m, n⟩ t e = Token.elem ⟨a, m, n⟩ t e &&& Token.elem ⟨b, m, n⟩ t e := by
  simp only [Token.elem, BitVec.toNat_and, bitsOf_and]

theorem elem_predForm (t : Nat) (x : Token) {e : Nat} (he : e < elemsPerToken t) : (predForm t x).elem t e = predElem t (x.elem t e) := by
  unfold predForm predElem
  split
  next ht =>
    subst ht
    have hbit : Token.elem ⟨BitVec.ofNat 512 (packElems 32 (List.replicate 16 1)), x.mask, x.null⟩ 15 e = 1 := by
      rw [show 32 = typeWidth 15 from rfl, elem_pack 15 _ rfl, List.getD_eq_getElem _ _ (show e < 16 from he), List.getElem_replicate]
      rfl
    rw [elem_and, hbit]
    exact Nat.and_one_is_mod _
  next => rfl

theorem lane_predForm (t : Nat) (x : Token) {l : Nat} (hl : l < 16) : (predForm t x).lane l = predElem t (x.lane l) := by
  by_cases ht : t = 15
  · subst ht
    rw [lane_eq_elem, lane_eq_elem]
    exact elem_predForm 15 x hl
  · rw [predForm, predElem, if_neg ht, if_neg ht]

/-! Lanes taken from another token (R123 to R125). -/

/-- Lane l as a 64-bit type has it: valid with its pair or not at all (R99). -/
def pairOk (t : Nat) (p : Nat → Bool) (l : Nat) : Bool := if is64 t then p (l / 2 * 2) && p (l / 2 * 2 + 1) else p l

/-- Whether the source of a lane is a valid lane of x. -/
def srcOk (x : Token) (src : Nat → Option Nat) (l : Nat) : Bool := (src l).any (maskBit x.mask)

/-- What a lane holds that is taken from its source. -/
def srcLane (x : Token) (src : Nat → Option Nat) (l : Nat) : Nat := ((src l).map x.lane).getD 0

theorem selectLanes_eq (t : Nat) (x : Token) (src : Nat → Option Nat) : selectLanes t x src =
    predForm t (laneToken (if is64 t then pairMask (maskOf (srcOk x src)) else maskOf (srcOk x src)) (srcLane x src)) := by
  have hok : (fun i => match src i with | some j => maskBit x.mask j | none => false) = srcOk x src := by
    funext i
    unfold srcOk
    cases src i <;> rfl
  have hlane : (fun i => match src i with | some j => x.lane j | none => 0) = srcLane x src := by
    funext i
    unfold srcLane
    cases src i <;> rfl
  rw [← hok, ← hlane]
  rfl

theorem maskBit_pairOk (t : Nat) (p : Nat → Bool) {l : Nat} (hl : l < 16) :
    maskBit (if is64 t then pairMask (maskOf p) else maskOf p) l = pairOk t p l := by
  have hlow : l / 2 * 2 < 16 := by omega
  have hhigh : l / 2 * 2 + 1 < 16 := by omega
  unfold pairOk
  split
  · rw [maskBit_pairMask _ hl, maskBit_maskOf, maskBit_maskOf, decide_eq_true hlow, decide_eq_true hhigh, Bool.true_and, Bool.true_and]
  · rw [maskBit_maskOf, decide_eq_true hl, Bool.true_and]

/-- A token whose lanes are taken from another's. -/
theorem selectLanes_holds (t : Nat) (x : Token) (src : Nat → Option Nat) :
    holdsLanes (selectLanes t x src) (pairOk t (srcOk x src)) fun l => predElem t (srcLane x src l) := by
  rw [selectLanes_eq]
  refine ⟨predForm_null _ _, fun l hl => ?_⟩
  have hlt : srcLane x src l < 2 ^ 32 := by
    unfold srcLane
    cases src l with
    | none => exact Nat.two_pow_pos 32
    | some j => exact lane_lt x j
  rw [lane_predForm _ _ hl, lane_laneToken _ _ hl, Nat.mod_eq_of_lt hlt, predForm_mask]
  refine ⟨maskBit_pairOk t _ hl, ?_⟩
  rw [maskBit_pairOk t _ hl, apply_ite (predElem t)]
  exact ite_congr rfl (fun _ => rfl) fun _ => predElem_zero t

/-- A lane that is valid with its pair is valid itself. -/
theorem pairOk_self {t : Nat} {p : Nat → Bool} {l : Nat} (h : pairOk t p l = true) : p l = true := by
  unfold pairOk at h
  split at h
  · rw [Bool.and_eq_true] at h
    rcases Nat.mod_two_eq_zero_or_one l with hl | hl
    · exact (show l / 2 * 2 = l by omega) ▸ h.1
    · exact (show l / 2 * 2 + 1 = l by omega) ▸ h.2
  · exact h

theorem pairOk_congr {t : Nat} {p q : Nat → Bool} (h : ∀ l, l < 16 → p l = q l) {l : Nat} (hl : l < 16) : pairOk t p l = pairOk t q l := by
  unfold pairOk
  rw [h l hl, h _ (by omega), h _ (by omega)]

/-- A token whose lanes are taken from another's under a condition. -/
theorem selectLanes_ite_holds (t : Nat) (x : Token) (c : Nat → Prop) [DecidablePred c] (j : Nat → Nat) :
    holdsLanes (selectLanes t x fun l => if c l then some (j l) else none) (pairOk t fun l => decide (c l) && maskBit x.mask (j l))
      fun l => predElem t (x.lane (j l)) := by
  have hok (l : Nat) : srcOk x (fun l => if c l then some (j l) else none) l = (decide (c l) && maskBit x.mask (j l)) := by
    by_cases hc : c l <;> simp [srcOk, hc]
  refine (selectLanes_holds t x _).congr (fun l hl => pairOk_congr (fun l _ => hok l) hl) fun l _ hl => ?_
  have hc : c l := of_decide_eq_true (Bool.and_eq_true_iff.1 (pairOk_self hl)).1
  rw [srcLane, if_pos hc]
  rfl

end Sys2Proof.Machine
end

section
/-! PROOFS. Moves (R117, R119), and the lane operations but the reductions (R122 to R126). -/

namespace Sys2Proof.Machine

/-! Moves (R119). -/

theorem immToken_holds (t : Nat) (imm : BitVec 16) : holdsElems (immToken t imm) t 0xFFFF#16 fun _ =>
    if t = 0 then imm.toNat * 2 ^ 16 else if t = 11 then wrapTo 32 (signedOf 16 imm.toNat) else if t = 13 then wrapTo 64 (signedOf 16 imm.toNat)
    else if t = 15 then imm.toNat % 2 else imm.toNat % 2 ^ typeWidth t := by
  refine holdsElems_tokenOf _ _ _ _ fun e _ _ => ?_
  have himm : imm.toNat < 2 ^ 16 := imm.isLt
  by_cases h0 : t = 0
  · subst h0
    exact Nat.mod_eq_of_lt (Nat.mul_lt_mul_of_pos_right himm (by norm_num))
  by_cases h11 : t = 11
  · subst h11
    exact wrapTo_mod 32 _
  by_cases h13 : t = 13
  · subst h13
    exact wrapTo_mod 64 _
  by_cases h15 : t = 15
  · subst h15
    exact Nat.mod_eq_of_lt ((Nat.mod_lt _ two_pos).trans (by decide))
  simp only [h0, h11, h13, h15, or_self, if_false]

theorem splat_holds (x : Nat) : holdsElems (splat x) 12 0xFFFF#16 fun _ => x % 2 ^ 32 :=
  holdsElems_tokenOf _ _ _ _ fun _ _ _ => rfl

theorem toNat_mod_eq_ite (b : Bool) : b.toNat % 2 ^ 32 = if b then 1 else 0 := by cases b <;> rfl

/-- Settles O8: each token by its elements, the immediate token by the types of Table 3.7. -/
theorem moves : Obligations.Moves := by
  unfold Obligations.Moves
  intro w t v
  refine ⟨?const, ?dup, ?rdb, ?itr, ?lidx, ?mkpred, ?nul⟩
  case const => exact stageGives_of rfl rfl fun x => ⟨_, rfl, immToken_holds t w.imm⟩
  case dup => exact stageGives_of rfl rfl fun x => ⟨_, rfl, rfl⟩
  case rdb => exact stageGives_of rfl rfl fun x => ⟨_, rfl, holdsElems_tokenOf _ _ _ _ fun _ _ _ => Nat.mod_mod _ _⟩
  case itr => exact stageGives_of rfl rfl fun x => ⟨_, rfl, splat_holds x.iter⟩
  case lidx =>
    refine stageGives_of rfl rfl fun x => ⟨_, rfl, holdsElems_tokenOf _ _ _ _ fun l hl _ => Nat.mod_eq_of_lt ?_⟩
    exact (show l < 16 from hl).trans (by decide)
  case mkpred =>
    refine stageGives_of rfl rfl fun x => ⟨_, rfl, holdsElems_tokenOf _ _ _ _ fun l _ _ => ?_⟩
    dsimp only
    rw [← apply_ite Bool.toNat]
    exact toNat_mod_eq_ite _
  case nul => exact stageGives_of rfl rfl fun x => ⟨_, rfl, rfl⟩

/-! Broadcast (R122). -/

theorem laneToken_zero (f : Nat → Nat) : laneToken 0#16 f = ⟨0, 0, false⟩ := by
  have hnone : (fun e => if elemValid 12 0#16 e = true then f e else 0) = fun _ => 0 := by
    funext e
    rw [elemValid_lane, maskBit, BitVec.getLsbD_zero]
    rfl
  rw [laneToken, tokenOf, hnone]
  rfl

theorem holdsElems_broadcast (t : Nat) (x : Token) (e : Nat) :
    holdsElems (predForm t (tokenOf t 0xFFFF#16 fun _ => x.elem t e)) t 0xFFFF#16 fun _ => predElem t (x.elem t e) := by
  refine ⟨predForm_null _ _, predForm_mask _ _, fun i hi => ?_⟩
  rw [elem_predForm _ _ hi, elem_tokenOf _ _ _ _ hi, apply_ite (predElem t), Nat.mod_eq_of_lt (elem_lt x t e)]
  exact ite_congr rfl (fun _ => rfl) fun _ => predElem_zero t

theorem predForm_zero (t : Nat) : predForm t ⟨0, 0, false⟩ = ⟨0, 0, false⟩ := by
  unfold predForm
  split
  · simp
  · rfl

/-! Permute (R124). -/

theorem predElem_of_64 {t : Nat} (h : is64 t = true) (v : Nat) : predElem t v = v := by
  refine if_neg ?_
  rintro rfl
  cases h

/-- A pair moved as one is valid where its source pair is, and the lane of the other token that names it. -/
theorem pairOk_movedPair {t : Nat} (ht : is64 t = true) (b a : Nat → Bool) (q : Nat → Nat) (l : Nat) :
    pairOk t (fun l => (b (l / 2 * 2) && a (2 * q (l / 2 * 2)) && a (2 * q (l / 2 * 2) + 1)) && a (2 * q (l / 2 * 2) + l % 2)) l =
      (b (l / 2 * 2) && a (2 * q (l / 2 * 2)) && a (2 * q (l / 2 * 2) + 1)) := by
  have hlow : l / 2 * 2 / 2 * 2 = l / 2 * 2 ∧ l / 2 * 2 % 2 = 0 := by omega
  have hhigh : (l / 2 * 2 + 1) / 2 * 2 = l / 2 * 2 ∧ (l / 2 * 2 + 1) % 2 = 1 := by omega
  simp only [pairOk, ht, if_true, hlow, hhigh, Nat.add_zero]
  cases b (l / 2 * 2) <;> cases a (2 * q (l / 2 * 2)) <;> cases a (2 * q (l / 2 * 2) + 1) <;> rfl

/-! Pack (R125). -/

/-- A predicate on pairs picks an even number of lanes. -/
theorem length_filter_pairs (q : Nat → Bool) (n : Nat) :
    ((List.range (2 * n)).filter fun l => q (l / 2)).length = 2 * ((List.range n).filter q).length := by
  induction n with
  | zero => rfl
  | succ n ih =>
    have hlow : (2 * n) / 2 = n := by omega
    have hhigh : (2 * n + 1) / 2 = n := by omega
    rw [Nat.mul_succ, List.range_succ, List.range_succ, List.range_succ]
    simp only [List.filter_append, List.length_append, ih, List.filter_singleton, hlow, hhigh]
    cases q n <;> rfl

theorem pairOk_lt {t n : Nat} (h : is64 t = true → n % 2 = 0) (l : Nat) : pairOk t (fun l => decide (l < n)) l = decide (l < n) := by
  unfold pairOk
  split
  next ht =>
    have := h ht
    rw [← Bool.decide_and]
    exact decide_eq_decide.2 (by omega)
  next => rfl

/-- A list of valid lanes, in pairs for a 64-bit type, moved down in order: what `lpack` makes of the lanes it marks (R125). -/
theorem selectLanes_packs (t : Nat) (x : Token) (picked : List Nat) (hlen : picked.length ≤ 16) (hok : ∀ l ∈ picked, maskBit x.mask l = true)
    (heven : is64 t = true → picked.length % 2 = 0) :
    let y := selectLanes t x fun l => picked[l]?
    (∀ l, l < 16 → maskBit y.mask l = decide (l < picked.length)) ∧ y.null = false ∧
    (List.range picked.length).map y.lane = picked.map (fun l => predElem t (x.lane l)) ∧ ∀ l, picked.length ≤ l → l < 16 → y.lane l = 0 := by
  intro y
  have hsrc (l : Nat) : srcOk x (fun l => picked[l]?) l = decide (l < picked.length) := by
    change (picked[l]?).any (maskBit x.mask) = _
    rcases Nat.lt_or_ge l picked.length with hl | hl
    · rw [List.getElem?_eq_getElem hl, Option.any_some, hok _ (List.getElem_mem hl), decide_eq_true hl]
    · rw [List.getElem?_eq_none hl, Option.any_none, decide_eq_false hl.not_gt]
  have hmask (l : Nat) (hl : l < 16) : pairOk t (srcOk x fun l => picked[l]?) l = decide (l < picked.length) := by
    rw [pairOk_congr (fun l _ => hsrc l) hl, pairOk_lt heven]
  obtain ⟨hnull, hlanes⟩ := selectLanes_holds t x fun l => picked[l]?
  refine ⟨fun l hl => (hlanes l hl).1.trans (hmask l hl), hnull, List.ext_getElem (by simp) fun l h1 h2 => ?_, fun l hn hl => ?_⟩
  · have hl : l < picked.length := by simpa using h2
    rw [List.getElem_map, List.getElem_map, List.getElem_range, (hlanes l (by omega)).2, hmask l (by omega), if_pos (decide_eq_true hl)]
    exact congrArg (fun src => predElem t ((src.map x.lane).getD 0)) (List.getElem?_eq_getElem hl)
  · rw [(hlanes l hl).2, hmask l hl, if_neg (by simpa using hn)]

/-- Whether `lpack` takes a lane of a: it is valid and marked in b; for a 64-bit type its pair is, in the pair's low lane (R125). -/
def packMarks (t : Nat) (a b : Token) (l : Nat) : Bool :=
  if is64 t then
    maskBit a.mask (l / 2 * 2) && maskBit a.mask (l / 2 * 2 + 1) && maskBit b.mask (l / 2 * 2) && b.lane (l / 2 * 2) % 2 == 1
  else maskBit a.mask l && maskBit b.mask l && b.lane l % 2 == 1

theorem stLpack_eq (w : StageW) (x : StageIn) : stLpack w x =
    .both (selectLanes w.ty.toNat x.a fun l => ((List.range 16).filter (packMarks w.ty.toNat x.a x.b))[l]?) 0 := rfl

theorem maskBit_of_packMarks {t : Nat} {a b : Token} {l : Nat} (h : packMarks t a b l = true) : maskBit a.mask l = true := by
  refine pairOk_self (t := t) ?_
  unfold packMarks at h
  unfold pairOk
  split <;> simp_all

/-- Both lanes of a 64-bit pair are marked or neither. -/
theorem length_packMarks_even {t : Nat} (h : is64 t = true) (a b : Token) : ((List.range 16).filter (packMarks t a b)).length % 2 = 0 := by
  have hpair : packMarks t a b = fun l => packMarks t a b (l / 2 * 2) := by
    funext l
    have hl : l / 2 * 2 / 2 * 2 = l / 2 * 2 := by omega
    simp only [packMarks, h, if_true, hl]
  rw [hpair]
  exact (congrArg (· % 2) (length_filter_pairs (fun p => packMarks t a b (p * 2)) 8)).trans (Nat.mul_mod_right 2 _)

/-! Count (R126). -/

/-- Counting one by one is the length of what is picked. -/
theorem foldl_count (p : Nat → Bool) (ls : List Nat) (n : Nat) :
    ls.foldl (fun n l => n + (p l).toNat) n = n + (ls.filter p).length := by
  induction ls generalizing n with
  | nil => rfl
  | cons l ls ih =>
    rw [List.foldl_cons, ih]
    cases hp : p l
    · rw [List.filter_cons_of_neg (by simp [hp])]; rfl
    · rw [List.filter_cons_of_pos hp, List.length_cons, Bool.toNat_true]; omega

theorem oneLane_holds {n : Nat} (hn : n < 2 ^ 32) : holdsLanes (oneLane n) (fun l => l == 0) fun _ => n := by
  refine ⟨rfl, fun l hl => ?_⟩
  have hmask : maskBit 1#16 l = (l == 0) := by
    rw [maskBit, BitVec.getLsbD_one]
    rfl
  rw [oneLane, lane_laneToken _ _ hl, hmask, Nat.mod_eq_of_lt hn]
  exact ⟨hmask, rfl⟩

/-- Settles O9: the lanes of each token by the source of each lane, `lpack` by the list of lanes that it marks. -/
theorem laneMoves : Obligations.LaneMoves := by
  unfold Obligations.LaneMoves
  intro w t ok form pair marked
  refine ⟨?lbcast, ?lshift, ?lperm, ?lpack, ?lcount, rfl, rfl, rfl⟩
  case lbcast =>
    refine stageGives_of rfl rfl fun x => ⟨_, rfl, ?_⟩
    by_cases h : elemValid t x.a.mask w.aux.toNat = true
    · rw [if_pos h, if_pos h]
      exact holdsElems_broadcast _ _ _
    · rw [if_neg h, if_neg h, laneToken_zero, predForm_zero]
      exact ⟨rfl, rfl, rfl⟩
  case lshift =>
    refine stageGives_of rfl rfl fun x => ⟨_, rfl, ?_⟩
    dsimp only
    by_cases hsub : w.sub = 1#3
    · have hwrap : decide (w.sub.toNat = 1) = true := by rw [hsub]; rfl
      rw [hwrap, if_pos hsub]
      exact selectLanes_holds t x.a _
    · have hwrap : decide (w.sub.toNat = 1) = false := decide_eq_false fun h => hsub (BitVec.eq_of_toNat_eq h)
      rw [hwrap, if_neg hsub]
      exact selectLanes_ite_holds t x.a (fun l => 0 ≤ (l : Int) - signedOf 8 w.aux.toNat ∧ (l : Int) - signedOf 8 w.aux.toNat < 16) _
  case lperm =>
    refine stageGives_of rfl rfl fun x => ?_
    by_cases h64 : is64 t = true
    · refine ⟨_, if_pos h64, ?_⟩
      rw [if_pos h64]
      dsimp only
      refine (selectLanes_ite_holds t x.a _ _).congr (fun l _ => ?_) fun l _ _ => ?_
      · simp only [Bool.decide_eq_true, Nat.mul_comm 2 (_ / 2)]
        exact pairOk_movedPair h64 (maskBit x.b.mask) (maskBit x.a.mask) (fun p => x.b.lane p % 8) l
      · rw [predElem_of_64 h64, Nat.mul_comm 2 (l / 2)]
    · refine ⟨_, if_neg h64, ?_⟩
      rw [if_neg h64]
      refine (selectLanes_ite_holds t x.a _ _).congr (fun l _ => ?_) fun l _ _ => rfl
      rw [pairOk, if_neg h64, Bool.decide_eq_true]
  case lpack =>
    refine stageGives_of rfl rfl fun x => ⟨_, rfl, ?_⟩
    exact selectLanes_packs t x.a ((List.range 16).filter (packMarks t x.a x.b)) ((List.length_filter_le _ _).trans_eq List.length_range)
      (fun l hl => maskBit_of_packMarks (List.mem_filter.1 hl).2) fun h64 => length_packMarks_even h64 x.a x.b
  case lcount =>
    refine stageGives_of rfl rfl fun x => ⟨_, rfl, ?_⟩
    rw [foldl_count, Nat.zero_add]
    refine oneLane_holds ?_
    exact ((List.length_filter_le _ _).trans_eq List.length_range).trans_lt (by decide)

end Sys2Proof.Machine
end

section
/-! PROOFS. Reductions and scans (R120, R121): the model's rule and the statement's agree on the values of a type, which both keep to. -/

namespace Sys2Proof.Machine

/-! Words of reductions (R120). -/

theorem stageReason_none {op : Nat} {w : StageW} (h : (stageReason op w).isNone = true) : stageTypeOk op w = true ∧ stageAuxOk op w = true := by
  unfold stageReason at h
  split_ifs at h <;> simp_all

/-- The types and function codes of a reduction (R120). -/
def reduces (t code : Nat) : Prop := (isF t = true ∧ code ≤ 2) ∨ (isInt t = true ∧ isF t = false ∧ code ≤ 5)

theorem reduces_of_wf {op : Nat} {w : StageW} (hop : op = 0x28 ∨ op = 0x29) (h : (stageReason op w).isNone = true) :
    reduces w.ty.toNat w.aux.toNat := by
  obtain ⟨htype, haux⟩ := stageReason_none h
  have htype' : (isInt w.ty.toNat || isF w.ty.toNat) = true := by
    rcases hop with rfl | rfl <;> exact (Bool.and_eq_true_iff.1 htype).1
  have haux' : w.aux.toNat ≤ if isF w.ty.toNat then 2 else 5 := by
    rcases hop with rfl | rfl <;> exact of_decide_eq_true haux
  cases hF : isF w.ty.toNat with
  | true =>
    rw [if_pos hF] at haux'
    exact .inl ⟨hF, haux'⟩
  | false =>
    rw [hF, Bool.or_false] at htype'
    rw [hF] at haux'
    exact .inr ⟨htype', hF, haux'⟩

/-! Results of reductions lie in their type. -/

theorem isF_cases {t : Nat} (h : isF t = true) : t = 0 ∨ t = 1 ∨ t = 2 := by
  simp only [isF, decide_eq_true_eq] at h
  omega

theorem signBit_le (t : Nat) (neg : Bool) : signBit t neg ≤ 2 ^ (typeWidth t - 1) := by
  cases neg
  · exact Nat.zero_le _
  · exact le_rfl

/-- The patterns of a floating-point type: a sign bit above the infinity, and the canonical NaN. -/
theorem fmt_bounds {t : Nat} (h : isF t = true) :
    2 ^ (typeWidth t - 1) + fmtMax t + 1 < 2 ^ typeWidth t ∧ fmtNan t < 2 ^ typeWidth t := by
  rcases isF_cases h with rfl | rfl | rfl <;> decide

theorem roundFloat_lt {t : Nat} (h : isF t = true) (rnd : Nat) (sat : Bool) (v : Val) : (roundFloat t rnd sat v).bits < 2 ^ typeWidth t := by
  obtain ⟨hinf, hnan⟩ := fmt_bounds h
  have hmag (neg : Bool) {k : Nat} (hk : k ≤ fmtMax t + 1) : signBit t neg + k < 2 ^ typeWidth t :=
    (Nat.add_le_add (signBit_le t neg) hk).trans_lt hinf
  unfold roundFloat
  cases v with
  | nan neg sig =>
    dsimp only
    split
    · exact hnan
    · exact hmag neg (Nat.le_succ _)
  | inf neg =>
    dsimp only
    split
    · exact hmag neg le_rfl
    · exact hmag neg (Nat.le_succ _)
  | fin neg m e =>
    have hsign := hmag neg le_rfl
    dsimp only
    split_ifs <;> dsimp only <;> omega

theorem minMaxBits_lt {t a b : Nat} (h : isF t = true) (ha : a < 2 ^ typeWidth t) (hb : b < 2 ^ typeWidth t) (wantMax : Bool) :
    (minMaxBits t wantMax a b).1 < 2 ^ typeWidth t := by
  obtain ⟨-, hnan⟩ := fmt_bounds h
  unfold minMaxBits
  dsimp only
  split_ifs <;> assumption

/-- Comb of R120 as the statements give it: the codes of floating-point, and the six codes of integers in a list. -/
def combRule (t code rnd a b : Nat) : Nat × Flags :=
  if isF t then (if code = 0 then faddBits t rnd a b else minMaxBits t (code == 2) a b)
  else ([wrapTo (typeWidth t) (decodeInt t a + decodeInt t b), if decodeInt t a ≤ decodeInt t b then a else b,
    if decodeInt t a ≤ decodeInt t b then b else a, a &&& b, a ||| b, a ^^^ b].getD code 0, 0)

theorem redComb_eq_combRule {t code : Nat} (h : reduces t code) (rnd : Nat) {a b : Nat} (ha : a < 2 ^ typeWidth t) (hb : b < 2 ^ typeWidth t) :
    redComb t code rnd a b = combRule t code rnd a b := by
  unfold redComb combRule
  rcases h with ⟨hF, hcode⟩ | ⟨-, hF, hcode⟩
  · rw [if_pos hF, if_pos hF]
    interval_cases code <;> rfl
  · simp only [hF, Bool.false_eq_true, if_false, encodeInt_min ha hb, encodeInt_max ha hb]
    interval_cases code <;> rfl

theorem combRule_lt {t code : Nat} (h : reduces t code) (rnd : Nat) {a b : Nat} (ha : a < 2 ^ typeWidth t) (hb : b < 2 ^ typeWidth t) :
    (combRule t code rnd a b).1 < 2 ^ typeWidth t := by
  unfold combRule
  rcases h with ⟨hF, -⟩ | ⟨-, hF, hcode⟩
  · rw [if_pos hF]
    split
    · exact roundFloat_lt hF _ _ _
    · exact minMaxBits_lt hF ha hb _
  · rw [hF]
    interval_cases code
    · exact wrapTo_lt _ _
    · change (if _ then a else b) < _
      split <;> assumption
    · change (if _ then b else a) < _
      split <;> assumption
    · exact Nat.and_lt_two_pow _ hb
    · exact Nat.or_lt_two_pow ha hb
    · exact Nat.xor_lt_two_pow ha hb

/-- The identity of a function code (R120), as the statements give it. -/
def combIdent (t code : Nat) : Nat :=
  if isF t then [0, fmtMax t + 1, 2 ^ (typeWidth t - 1) + fmtMax t + 1].getD code 0
  else [0, wrapTo (typeWidth t) (intMax t), wrapTo (typeWidth t) (intMin t), 2 ^ typeWidth t - 1, 0, 0].getD code 0

theorem redIdentity_eq {t code : Nat} (h : reduces t code) : redIdentity t code = combIdent t code := by
  unfold redIdentity combIdent
  rcases h with ⟨hF, hcode⟩ | ⟨-, hF, hcode⟩
  · rw [if_pos hF, if_pos hF]
    interval_cases code <;> rfl
  · simp only [hF, Bool.false_eq_true, if_false]
    interval_cases code <;> rfl

theorem combIdent_lt {t code : Nat} (h : reduces t code) : combIdent t code < 2 ^ typeWidth t := by
  have hpos := Nat.two_pow_pos (typeWidth t)
  unfold combIdent
  rcases h with ⟨hF, hcode⟩ | ⟨-, hF, hcode⟩
  · obtain ⟨hinf, -⟩ := fmt_bounds hF
    rw [if_pos hF]
    interval_cases code
    · exact hpos
    · exact (Nat.le_add_left _ (2 ^ (typeWidth t - 1))).trans_lt hinf
    · exact hinf
  · rw [hF]
    interval_cases code
    · exact hpos
    · exact wrapTo_lt _ _
    · exact wrapTo_lt _ _
    · exact Nat.sub_lt hpos one_pos
    · exact hpos
    · exact hpos

/-! Rules that agree on the values they meet. -/

section Agree

variable {P : Nat → Prop} {f f' : Nat → Nat → Nat × Flags}

/-- Two rules agree on the values of P, and keep to them. -/
structure AgreeOn (P : Nat → Prop) (f f' : Nat → Nat → Nat × Flags) : Prop where
  eq : ∀ {a b}, P a → P b → f a b = f' a b
  closed : ∀ {a b}, P a → P b → P (f' a b).1

theorem AgreeOn.combPairs (h : AgreeOn P f f') : ∀ xs : List Nat, (∀ x ∈ xs, P x) →
    combPairs f xs = combPairs f' xs ∧ ∀ x ∈ (combPairs f' xs).1, P x
  | [], hxs => ⟨rfl, hxs⟩
  | [_], hxs => ⟨rfl, hxs⟩
  | a :: b :: rest, hxs => by
    obtain ⟨ha, hb, hrest⟩ : P a ∧ P b ∧ ∀ x ∈ rest, P x := by simpa using hxs
    obtain ⟨heq, hP⟩ := h.combPairs rest hrest
    refine ⟨by simp only [Machine.combPairs, heq, h.eq ha hb], fun x hx => ?_⟩
    rcases List.mem_cons.1 hx with rfl | hx
    · exact h.closed ha hb
    · exact hP x hx

theorem AgreeOn.combRounds (h : AgreeOn P f f') (n : Nat) (xs : List Nat) (fl : Flags) (hxs : ∀ x ∈ xs, P x) :
    combRounds f n (xs, fl) = combRounds f' n (xs, fl) := by
  induction n generalizing xs fl with
  | zero => rfl
  | succ n ih =>
    obtain ⟨heq, hP⟩ := h.combPairs xs hxs
    simp only [Machine.combRounds, heq]
    exact ih _ _ hP

theorem AgreeOn.foldl (h : AgreeOn P f f') (xs : List Nat) (hxs : ∀ x ∈ xs, P x) (acc : Nat × Flags) (hacc : P acc.1) :
    xs.foldl (fun acc x => ((f acc.1 x).1, acc.2 ||| (f acc.1 x).2)) acc = xs.foldl (fun acc x => ((f' acc.1 x).1, acc.2 ||| (f' acc.1 x).2)) acc ∧
      P (xs.foldl (fun acc x => ((f' acc.1 x).1, acc.2 ||| (f' acc.1 x).2)) acc).1 := by
  induction xs generalizing acc with
  | nil => exact ⟨rfl, hacc⟩
  | cons x xs ih =>
    obtain ⟨hx, hxs⟩ := List.forall_mem_cons.1 hxs
    rw [List.foldl_cons, List.foldl_cons, h.eq hacc hx]
    exact ih hxs _ (h.closed hacc hx)

theorem AgreeOn.combChain (h : AgreeOn P f f') {ident : Nat} (hident : P ident) (xs : List Nat) (hxs : ∀ x ∈ xs, P x) :
    combChain f ident xs = combChain f' ident xs ∧ P (combChain f' ident xs).1 := by
  cases xs with
  | nil => exact ⟨rfl, hident⟩
  | cons x xs =>
    obtain ⟨hx, hxs⟩ := List.forall_mem_cons.1 hxs
    exact h.foldl xs hxs (x, 0) hx

end Agree

theorem agreeOn_combRule {t code : Nat} (h : reduces t code) (rnd : Nat) : AgreeOn (· < 2 ^ typeWidth t) (redComb t code rnd) (combRule t code rnd) :=
  ⟨redComb_eq_combRule h rnd, combRule_lt h rnd⟩

/-! The fixed pairing (R120). -/

theorem redRound_eq (f : Nat → Nat → Nat × Flags) : ∀ xs, redRound f xs = combPairs f xs
  | [] => rfl
  | [_] => rfl
  | a :: b :: rest => by simp only [redRound, combPairs, redRound_eq f rest]

/-- At most one element is paired with nothing. -/
theorem combRounds_short (f : Nat → Nat → Nat × Flags) {xs : List Nat} (h : xs.length ≤ 1) (n : Nat) (fl : Flags) :
    combRounds f n (xs, fl) = (xs, fl) := by
  have hpairs : combPairs f xs = (xs, 0) := by
    match xs, h with
    | [], _ => rfl
    | [_], _ => rfl
  induction n with
  | zero => rfl
  | succ n ih =>
    rw [combRounds, hpairs]
    simpa using ih

theorem redTree_eq (f : Nat → Nat → Nat × Flags) (n : Nat) (xs : List Nat) (fl : Flags) : redTree f n xs fl = combRounds f n (xs, fl) := by
  induction n generalizing xs fl with
  | zero => rfl
  | succ n ih =>
    rw [redTree]
    split
    next hshort => rw [combRounds_short f hshort]
    next => rw [redRound_eq, ih, combRounds]

/-! The scan (R121). -/

/-- The running value of a scan after these elements; none before the first. -/
def runValue (f : Nat → Nat → Nat × Flags) (pre : List Nat) : Option Nat := if pre = [] then none else some (combChain f 0 pre).1

theorem combChain_flags (f : Nat → Nat → Nat × Flags) (i j : Nat) (pre : List Nat) : (combChain f i pre).2 = (combChain f j pre).2 := by
  cases pre <;> rfl

theorem runValue_getD (f : Nat → Nat → Nat × Flags) (ident : Nat) (pre : List Nat) : (runValue f pre).getD ident = (combChain f ident pre).1 := by
  cases pre <;> rfl

/-- One element more in a chain. -/
theorem combChain_concat (f : Nat → Nat → Nat × Flags) (ident : Nat) (pre : List Nat) (x : Nat) :
    combChain f ident (pre ++ [x]) = ((scanStep f (runValue f pre) x).1, (combChain f ident pre).2 ||| (scanStep f (runValue f pre) x).2) := by
  cases pre with
  | nil => simp [combChain, scanStep, runValue]
  | cons v rest =>
    rw [List.cons_append, combChain, List.foldl_append]
    rfl

theorem runValue_concat (f : Nat → Nat → Nat × Flags) (pre : List Nat) (x : Nat) :
    runValue f (pre ++ [x]) = some (scanStep f (runValue f pre) x).1 := by
  rw [runValue, if_neg (by simp), combChain_concat]

/-- What a scan gives that has met these elements before: its elements and its status. -/
theorem scanElems_spec (f : Nat → Nat → Nat × Flags) (excl : Bool) (ident : Nat) (xs : List (Option Nat)) (pre : List Nat) :
    (scanElems f excl ident (runValue f pre) xs).1 = xs.mapIdx (fun k v =>
      if v.isSome then (combChain f ident (pre ++ (xs.take (if excl then k else k + 1)).filterMap id)).1 else 0) ∧
    (combChain f ident pre).2 ||| (scanElems f excl ident (runValue f pre) xs).2 = (combChain f ident (pre ++ xs.filterMap id)).2 := by
  induction xs generalizing pre with
  | nil => simp [scanElems]
  | cons v xs ih =>
    cases v with
    | none =>
      obtain ⟨hlist, hflags⟩ := ih pre
      rw [scanElems, hlist]
      refine ⟨?_, by simpa using hflags⟩
      rw [List.mapIdx_cons]
      cases excl <;> simp
    | some x =>
      obtain ⟨hlist, hflags⟩ := ih (pre ++ [x])
      rw [runValue_concat] at hlist hflags
      rw [scanElems, hlist]
      rw [combChain_concat] at hflags
      refine ⟨?_, ?_⟩
      · rw [List.mapIdx_cons]
        cases excl <;> simp [runValue_getD, combChain_concat]
      · simpa [BitVec.or_assoc] using hflags

/-- The scan from its first element. -/
theorem scanElems_start (f : Nat → Nat → Nat × Flags) (excl : Bool) (ident : Nat) (xs : List (Option Nat)) :
    (scanElems f excl ident none xs).1 = xs.mapIdx (fun k v =>
      if v.isSome then (combChain f ident ((xs.take (if excl then k else k + 1)).filterMap id)).1 else 0) ∧
    (scanElems f excl ident none xs).2 = (combChain f ident (xs.filterMap id)).2 := by
  obtain ⟨hlist, hflags⟩ := scanElems_spec f excl ident xs []
  exact ⟨hlist, by simpa [combChain, runValue] using hflags⟩

theorem filterMap_scanInputs_take (t : Nat) (x : Token) {n : Nat} (hn : n ≤ elemsPerToken t) :
    ((scanInputs t x).take n).filterMap id = validBelow t x n := by
  rw [scanInputs, ← List.map_take, List.take_range, min_eq_left hn, List.filterMap_map]
  rfl

theorem filterMap_scanInputs (t : Nat) (x : Token) : (scanInputs t x).filterMap id = validBelow t x (elemsPerToken t) := by
  rw [scanInputs, List.filterMap_map]
  rfl

theorem validBelow_lt {t : Nat} {x : Token} {n : Nat} : ∀ v ∈ validBelow t x n, v < 2 ^ typeWidth t := by
  intro v hv
  obtain ⟨e, -, he⟩ := List.mem_filterMap.1 hv
  split at he
  · rw [← Option.some.inj he]
    exact elem_lt x t e
  · cases he

/-- The mask of a result of one operand has the operand's valid elements (R28, R99). -/
theorem elemValid_resultMask (t : Nat) (x : Token) {e : Nat} (he : e < elemsPerToken t) :
    elemValid t (resultMask t [x]) e = elemValid t x.mask e := by
  have hones : (0xFFFF#16) = BitVec.allOnes 16 := rfl
  simp only [resultMask, List.foldl_cons, List.foldl_nil, hones, BitVec.allOnes_and]
  by_cases h64 : is64 t = true
  · have he' : e < 8 := by
      simp only [is64, Bool.or_eq_true, beq_iff_eq] at h64
      rcases h64 with rfl | rfl <;> exact he
    have hlow : 2 * e / 2 * 2 = 2 * e := by omega
    have hhigh : (2 * e + 1) / 2 * 2 = 2 * e := by omega
    simp only [elemValid, h64, if_true, maskBit_pairMask _ (show 2 * e < 16 by omega), maskBit_pairMask _ (show 2 * e + 1 < 16 by omega), hlow, hhigh,
      Bool.and_self]
  · rw [if_neg h64]

/-- Narrow integers are widened to the 32-bit type of their signedness (R120). -/
theorem redType_eq (t : Nat) : redType t = if t = 7 ∨ t = 9 then 11 else if t = 8 ∨ t = 10 then 12 else t := by
  by_cases h : 7 ≤ t ∧ t ≤ 14
  · obtain ⟨h7, h14⟩ := h
    interval_cases t <;> rfl
  · have hint : isInt t = false := by simpa [isInt] using h
    rw [redType, hint, if_neg (by simp), if_neg (by omega), if_neg (by omega)]

theorem reduces_redType {t code : Nat} (h : reduces t code) : reduces (redType t) code := by
  rcases h with ⟨hF, hcode⟩ | ⟨hI, hF, hcode⟩
  · have htype : redType t = t := by rcases isF_cases hF with rfl | rfl | rfl <;> rfl
    rw [htype]
    exact .inl ⟨hF, hcode⟩
  · have htype : isInt (redType t) = true ∧ isF (redType t) = false := by
      simp only [isInt, Bool.and_eq_true, decide_eq_true_eq] at hI
      obtain ⟨h7, h14⟩ := hI
      interval_cases t <;> exact ⟨rfl, rfl⟩
    exact .inr ⟨htype.1, htype.2, hcode⟩

theorem widenElem_eq (t v : Nat) : widenElem t v = if redType t = t then v else wrapTo 32 (decodeInt t v) := by
  have hwidth : redType t ≠ t → typeWidth (redType t) = 32 := by
    rw [redType_eq]
    split_ifs <;> simp [typeWidth]
  exact ite_congr rfl (fun _ => rfl) fun hne => by rw [encodeInt, hwidth hne]

theorem widenElem_lt {t v : Nat} (h : v < 2 ^ typeWidth t) : widenElem t v < 2 ^ typeWidth (redType t) := by
  unfold widenElem
  split
  next heq => rwa [heq]
  next => exact wrapTo_lt _ _

/-- What `lred` gives (R120). -/
theorem stLred_eq {w : StageW} (h : reduces w.ty.toNat w.aux.toNat) (x : StageIn) :
    let v := combRounds (combRule (redType w.ty.toNat) w.aux.toNat w.rnd.toNat) 7
      ((validBelow w.ty.toNat x.a (elemsPerToken w.ty.toNat)).map (widenElem w.ty.toNat), 0)
    stLred w x = .both ⟨BitVec.ofNat 512 (v.1.headD (widenElem w.ty.toNat (combIdent w.ty.toNat w.aux.toNat))),
      if is64 w.ty.toNat then 3#16 else 1#16, false⟩ v.2 := by
  intro v
  have hv : redTree (redComb (redType w.ty.toNat) w.aux.toNat w.rnd.toNat) 7 ((validElems w.ty.toNat x.a).map (widenElem w.ty.toNat)) 0 = v := by
    rw [redTree_eq]
    refine (agreeOn_combRule (reduces_redType h) _).combRounds 7 _ 0 fun y hy => ?_
    obtain ⟨e, he, rfl⟩ := List.mem_map.1 hy
    exact widenElem_lt (validBelow_lt e he)
  rw [← redIdentity_eq h, ← hv]
  rfl

/-- The elements that a scan raises its status on: an exclusive one does not combine the last (R121). -/
def scanned (w : StageW) (a : Token) : List Nat :=
  let vs := validBelow w.ty.toNat a (elemsPerToken w.ty.toNat)
  if w.sub = 1#3 then vs.dropLast else vs

/-- Element e of a scan: the chain of the valid elements up to it, or before it (R121). -/
def scanValue (w : StageW) (a : Token) (e : Nat) : Nat :=
  (combChain (combRule w.ty.toNat w.aux.toNat w.rnd.toNat) (combIdent w.ty.toNat w.aux.toNat)
    (validBelow w.ty.toNat a (if w.sub = 1#3 then e else e + 1))).1

/-- What `lscan` raises (R121). -/
theorem stLscan_flags {w : StageW} (h : reduces w.ty.toNat w.aux.toNat) (x : StageIn) :
    (stLscan w x).flags = (combChain (combRule w.ty.toNat w.aux.toNat w.rnd.toNat) 0 (scanned w x.a)).2 := by
  have hagree := agreeOn_combRule h w.rnd.toNat
  have hsub : w.sub.toNat = 1 ↔ w.sub = 1#3 := BitVec.toNat_inj (y := 1#3)
  have hscanned : ∀ v ∈ scanned w x.a, v < 2 ^ typeWidth w.ty.toNat := by
    intro v hv
    unfold scanned at hv
    split at hv
    · exact validBelow_lt v (List.mem_of_mem_dropLast hv)
    · exact validBelow_lt v hv
  rw [← (hagree.combChain (Nat.two_pow_pos _) _ hscanned).1]
  unfold stLscan scanned
  simp only [StageOut.both, hsub, decide_eq_true_eq, filterMap_scanInputs, (scanElems_start _ _ _ _).2]
  split
  · simp
  · exact combChain_flags ..

/-- What a scan of a token's elements packs at element e. -/
theorem getD_scanElems (f : Nat → Nat → Nat × Flags) (excl : Bool) (ident t : Nat) (a : Token) {e : Nat} (he : e < elemsPerToken t) :
    (scanElems f excl ident none (scanInputs t a)).1.getD e 0 =
      if elemValid t a.mask e then (combChain f ident (validBelow t a (if excl then e else e + 1))).1 else 0 := by
  have hlen : (scanInputs t a).length = elemsPerToken t := by simp [scanInputs]
  have hbelow : (if excl then e else e + 1) ≤ elemsPerToken t := by split <;> omega
  rw [(scanElems_start f excl ident (scanInputs t a)).1, List.getD_eq_getElem _ _ (by simpa [hlen] using he), List.getElem_mapIdx,
    filterMap_scanInputs_take t a hbelow]
  simp only [scanInputs, List.getElem_map, List.getElem_range]
  cases elemValid t a.mask e <;> rfl

theorem length_scanElems (f : Nat → Nat → Nat × Flags) (excl : Bool) (ident t : Nat) (a : Token) :
    (scanElems f excl ident none (scanInputs t a)).1.length = elemsPerToken t := by
  rw [(scanElems_start f excl ident (scanInputs t a)).1]
  simp [scanInputs]

/-- What `lscan` gives (R121). -/
theorem stLscan_holds {w : StageW} (h : reduces w.ty.toNat w.aux.toNat) (x : StageIn) :
    ∃ y, stLscan w x = .both y (stLscan w x).flags ∧ holdsElems y w.ty.toNat (resultMask w.ty.toNat [x.a]) (scanValue w x.a) := by
  refine ⟨_, rfl, rfl, rfl, fun e he => ?_⟩
  have hsub : w.sub.toNat = 1 ↔ w.sub = 1#3 := BitVec.toNat_inj (y := 1#3)
  obtain ⟨heq, hlt⟩ := (agreeOn_combRule h w.rnd.toNat).combChain (combIdent_lt h)
    (validBelow w.ty.toNat x.a (if w.sub = 1#3 then e else e + 1)) validBelow_lt
  rw [elem_pack _ _ (length_scanElems ..), getD_scanElems _ _ _ _ _ he, redIdentity_eq h, elemValid_resultMask _ _ he]
  simp only [hsub, decide_eq_true_eq, heq]
  split
  · exact Nat.mod_eq_of_lt hlt
  · exact Nat.zero_mod _

/-- Settles O10: `lred` by the rounds of its tree, `lscan` by the chains of its prefixes, each with the statement's own rule on the values met. -/
theorem reductions : Obligations.Reductions := by
  unfold Obligations.Reductions
  intro w t rt code ident comb widen
  have hrt : redType w.ty.toNat = rt := redType_eq t
  have hwiden : widenElem w.ty.toNat = widen := by
    funext a
    rw [widenElem_eq, hrt]
  constructor
  · intro hwf s f ops hr hn
    have hv := stLred_eq (reduces_of_wf (.inl rfl) hwf) (stageReads w f ops)
    simp only at hv
    rw [hwiden, hrt] at hv
    obtain ⟨htraps, hsends⟩ := stage_sends_or_traps rfl rfl hr hn hv
    exact ⟨htraps, fun ht => ⟨_, hsends ht, rfl, rfl, rfl⟩⟩
  · intro hwf s f ops hr hn
    have h : reduces t code := reduces_of_wf (.inr rfl) hwf
    obtain ⟨y, hy, hholds⟩ := stLscan_holds h (stageReads w f ops)
    rw [stLscan_flags h] at hy
    obtain ⟨htraps, hsends⟩ := stage_sends_or_traps rfl rfl hr hn hy
    exact ⟨htraps, fun ht => ⟨y, hsends ht, hholds⟩⟩

end Sys2Proof.Machine
end

section
/-! PROOFS. Floating-point arithmetic by element (R129 to R132). -/

namespace Sys2Proof.Machine

/-! Elementwise floating-point instructions, from the function of their elements (R129). -/

theorem fl1_yields {i : Instr} {w : StageW} {g : StageW → StageIn → StageOut} (f : Nat → Nat × Flags) (hi : stageFn i = some (w, g))
    (hop : (i.op == 0x23) = false) (hg : ∀ x, g w x = fl1 w x f)
    (hlt : ∀ p, p < 2 ^ typeWidth w.ty.toNat → (f p).1 < 2 ^ typeWidth w.ty.toNat) {r : StageIn → Nat → Nat × Flags}
    (h : ∀ x e, f (x.a.elem w.ty.toNat e) = r x e) : stageYields i w (fun x => [x.a]) r :=
  yields_of hi (by simpa using hop) _ hg fun x e =>
    ⟨(Nat.mod_eq_of_lt (hlt _ (elem_lt ..))).trans (congrArg Prod.fst (h x e)), congrArg Prod.snd (h x e)⟩

theorem fl2_yields {i : Instr} {w : StageW} {g : StageW → StageIn → StageOut} (f : Nat → Nat → Nat × Flags) (hi : stageFn i = some (w, g))
    (hop : (i.op == 0x23) = false) (hg : ∀ x, g w x = fl2 w x f)
    (hlt : ∀ p q, p < 2 ^ typeWidth w.ty.toNat → q < 2 ^ typeWidth w.ty.toNat → (f p q).1 < 2 ^ typeWidth w.ty.toNat)
    {r : StageIn → Nat → Nat × Flags} (h : ∀ x e, f (x.a.elem w.ty.toNat e) (x.b.elem w.ty.toNat e) = r x e) :
    stageYields i w (fun x => [x.a, x.b]) r :=
  yields_of hi (by simpa using hop) _ hg fun x e =>
    ⟨(Nat.mod_eq_of_lt (hlt _ _ (elem_lt ..) (elem_lt ..))).trans (congrArg Prod.fst (h x e)), congrArg Prod.snd (h x e)⟩

theorem fl3_yields {i : Instr} {w : StageW} {g : StageW → StageIn → StageOut} (f : Nat → Nat → Nat → Nat × Flags)
    (hi : stageFn i = some (w, g)) (hop : (i.op == 0x23) = false) (hg : ∀ x, g w x = fl3 w x f)
    (hlt : ∀ p q s, (f p q s).1 < 2 ^ typeWidth w.ty.toNat) {r : StageIn → Nat → Nat × Flags}
    (h : ∀ x e, f (x.a.elem w.ty.toNat e) (x.b.elem w.ty.toNat e) (x.c.elem w.ty.toNat e) = r x e) :
    stageYields i w (fun x => [x.a, x.b, x.c]) r :=
  yields_of hi (by simpa using hop) _ hg fun x e =>
    ⟨(Nat.mod_eq_of_lt (hlt _ _ _)).trans (congrArg Prod.fst (h x e)), congrArg Prod.snd (h x e)⟩

theorem isF_of_le {t : Nat} (h : t ≤ 2) : isF t = true := decide_eq_true h

theorem arith_lt {t : Nat} (h : isF t = true) (rnd : Nat) (ops : List Val) (r : Val × Bool) : (arith t rnd ops r).1 < 2 ^ typeWidth t :=
  roundFloat_lt h _ _ _

/-! Signs and magnitudes of patterns (R130). -/

/-- A pattern's width is its sign bit above its magnitude. -/
theorem two_pow_typeWidth (t : Nat) : 2 ^ typeWidth t = 2 * 2 ^ (typeWidth t - 1) := by
  rw [← Nat.pow_succ', Nat.succ_eq_add_one, Nat.sub_add_cancel (typeWidth_pos t)]

/-- The sign bit of a pattern of the type is all that stands above its magnitude. -/
theorem div_sign_lt_two {t p : Nat} (hp : p < 2 ^ typeWidth t) : p / 2 ^ (typeWidth t - 1) < 2 := by
  rw [two_pow_typeWidth, Nat.mul_comm] at hp
  exact Nat.div_lt_of_lt_mul hp

theorem fmtSign_eq {t p : Nat} (hp : p < 2 ^ typeWidth t) : fmtSign t p = decide (p / 2 ^ (typeWidth t - 1) = 1) := by
  rw [fmtSign, Nat.mod_eq_of_lt (div_sign_lt_two hp)]
  rfl

theorem fmtMag_lt (t p : Nat) : fmtMag t p < 2 ^ (typeWidth t - 1) := Nat.mod_lt _ (Nat.two_pow_pos _)

/-- A magnitude under a sign is a pattern of the type. -/
theorem mag_add_signBit_lt {t m : Nat} (hm : m < 2 ^ (typeWidth t - 1)) (n : Bool) : m + signBit t n < 2 ^ typeWidth t := by
  have hsign := signBit_le t n
  rw [two_pow_typeWidth]
  omega

/-- The sign bit of a pattern, as it stands in the pattern. -/
theorem signBit_fmtSign {t p : Nat} (hp : p < 2 ^ typeWidth t) :
    signBit t (fmtSign t p) = p / 2 ^ (typeWidth t - 1) * 2 ^ (typeWidth t - 1) := by
  have hlt := div_sign_lt_two hp
  rw [fmtSign_eq hp, signBit]
  generalize p / 2 ^ (typeWidth t - 1) = s at hlt ⊢
  interval_cases s <;> simp

/-- Turning the sign of a pattern adds its weight, which wraps (R130). -/
theorem mag_add_signBit_not {t p : Nat} (hp : p < 2 ^ typeWidth t) :
    fmtMag t p + signBit t (!fmtSign t p) = (p + 2 ^ (typeWidth t - 1)) % (2 * 2 ^ (typeWidth t - 1)) := by
  have hpos := Nat.two_pow_pos (typeWidth t - 1)
  have hsplit := Nat.div_add_mod p (2 ^ (typeWidth t - 1))
  have hmag : p % 2 ^ (typeWidth t - 1) < 2 ^ (typeWidth t - 1) := Nat.mod_lt _ hpos
  have hlt := div_sign_lt_two hp
  rw [fmtSign_eq hp, fmtMag, signBit]
  generalize 2 ^ (typeWidth t - 1) = S at *
  generalize p / S = s at *
  generalize p % S = m at *
  interval_cases s
  · rw [if_pos (by decide), Nat.mod_eq_of_lt (by omega)]
    omega
  · rw [if_neg (by decide), show p + S = m + 2 * S by omega, Nat.add_mod_right, Nat.mod_eq_of_lt (by omega), Nat.add_zero]

/-! Order of values (R130, R131). -/

/-- The order of two values turns with them. -/
theorem cmpVal_swap (a b : Val) : cmpVal b a = -cmpVal a b := by
  cases a with
  | nan => cases b with
    | nan => rfl
    | inf n => cases n <;> rfl
    | fin => rfl
  | inf n => cases b with
    | nan => cases n <;> rfl
    | inf n' => cases n <;> cases n' <;> rfl
    | fin => cases n <;> rfl
  | fin na ma ea => cases b with
    | nan => rfl
    | inf n => cases n <;> rfl
    | fin nb mb eb =>
      simp only [cmpVal, min_comm eb ea]
      split_ifs <;> omega

/-- Whether the first of two values that are no NaN is the smaller, -0 being smaller than +0 (R130). -/
def lessVal (p q : Val) : Bool := decide (cmpVal p q < 0) || (cmpVal p q == 0 && p.neg? && !q.neg?)

theorem snanFlags_pair (p q : Val) : snanFlags [p, q] = if p.isSnan || q.isSnan then nvFlag else 0 := by
  simp [snanFlags]

/-- What `fmin` and `fmax` give (R130): the later operand where it comes first in their order. -/
theorem minMaxBits_eq (t : Nat) (wantMax : Bool) (a b : Nat) :
    minMaxBits t wantMax a b =
      let va := decodeFloat t a
      let vb := decodeFloat t b
      (if va.isNan then (if vb.isNan then fmtNan t else b) else if vb.isNan then a
        else if (if wantMax then lessVal va vb else lessVal vb va) then b else a, if va.isSnan || vb.isSnan then nvFlag else 0) := by
  dsimp only [minMaxBits]
  rw [snanFlags_pair]
  generalize decodeFloat t a = va
  generalize decodeFloat t b = vb
  have hswap := cmpVal_swap va vb
  have hless : (if cmpVal va vb = 0 then va.neg? && !vb.neg? else decide (cmpVal va vb < 0)) = lessVal va vb := by
    unfold lessVal
    split
    next h => simp [h]
    next h => simp [h]
  have hmore : (if cmpVal va vb = 0 then vb.neg? && !va.neg? else decide (0 < cmpVal va vb)) = lessVal vb va := by
    unfold lessVal
    rw [hswap]
    split
    next h => simp [h]
    next h => simp [h]
  rw [hless, hmore]
  cases va.isNan <;> cases vb.isNan <;> cases wantMax <;> rfl

/-! Comparison and class (R131, R132). -/

theorem boolElem_lt (w : Nat) (p : Bool) : boolElem w p < 2 ^ w := boolElem_mod w p ▸ Nat.mod_lt _ (Nat.two_pow_pos w)

theorem fcmpBits_lt (t code a b : Nat) : (fcmpBits t code a b).1 < 2 ^ typeWidth t := boolElem_lt _ _

theorem fclassBits_lt {t : Nat} (h : isF t = true) (a : Nat) : fclassBits t a < 2 ^ typeWidth t := by
  have hwidth : 2 ^ 10 ≤ 2 ^ typeWidth t := by rcases isF_cases h with rfl | rfl | rfl <;> decide
  refine lt_of_lt_of_le ?_ hwidth
  unfold fclassBits
  cases decodeFloat t a <;> dsimp only <;> split_ifs <;> decide

/-- The class of a value as the number of its bit (R132). -/
theorem fclassBits_eq (t a : Nat) : fclassBits t a = 2 ^
    (match decodeFloat t a with
    | .nan _ sig => if sig then 8 else 9
    | .inf n => if n then 0 else 7
    | .fin n m _ => if m = 0 then (if n then 3 else 4) else if fmtMag t a < 2 ^ fmtMant t then (if n then 2 else 5)
      else (if n then 1 else 6)) := by
  unfold fclassBits
  cases decodeFloat t a <;> dsimp only <;> split_ifs <;> rfl

theorem totalKey_eq {t p : Nat} (hp : p < 2 ^ typeWidth t) :
    totalKey t p = if p / 2 ^ (typeWidth t - 1) = 1 then -((p % 2 ^ (typeWidth t - 1) : Nat) : Int) - 1 else ((p % 2 ^ (typeWidth t - 1) : Nat) : Int) := by
  rw [totalKey, fmtSign_eq hp]
  simp only [decide_eq_true_eq]
  rfl

/-- The conditions of Table 7.3 as a table. -/
theorem fcmpBits_eq {t code p q : Nat} (hcode : code ≤ 9) (hp : p < 2 ^ typeWidth t) (hq : q < 2 ^ typeWidth t) :
    fcmpBits t code p q =
      let va := decodeFloat t p
      let vb := decodeFloat t q
      let c := cmpVal va vb
      let nan := va.isNan || vb.isNan
      let sign := 2 ^ (typeWidth t - 1)
      let key := fun (p : Nat) => if p / sign = 1 then -((p % sign : Nat) : Int) - 1 else ((p % sign : Nat) : Int)
      let hit := [!nan && c == 0, nan || c != 0, !nan && decide (c < 0), !nan && decide (c ≤ 0), !nan && decide (0 < c),
        !nan && decide (0 ≤ c), nan, !nan, decide (key p < key q), p == q].getD code false
      (if hit then 2 ^ typeWidth t - 1 else 0, if code ≤ 7 then if va.isSnan || vb.isSnan then nvFlag else 0 else 0) := by
  simp only [← totalKey_eq hp, ← totalKey_eq hq, ← snanFlags_pair]
  refine Prod.ext (congrArg (boolElem _) ?_) rfl
  generalize ((decodeFloat t p).isNan || (decodeFloat t q).isNan) = nan
  interval_cases code <;> cases nan <;> rfl

/-- Settles O13: each instruction by the function of its elements; `fmin` and `fmax` by the order that turns with its operands. -/
theorem floatArithmetic : Obligations.FloatArithmetic := by
  unfold Obligations.FloatArithmetic
  intro w t rnd sign ab abc d nv out mulAdd less pick ht
  have hF : isF t = true := isF_of_le ht
  refine ⟨?fadd, ?fsub, ?fmul, ?fma, ?fnma, ?fmin, ?fmax, ?fabs, ?fneg, ?fcpsgn, fun haux => ?fcmp, ?fclass⟩
  case fadd => exact fl2_yields _ rfl rfl (fun _ => rfl) (fun _ _ _ _ => arith_lt hF _ _ _) fun _ _ => rfl
  case fsub => exact fl2_yields _ rfl rfl (fun _ => rfl) (fun _ _ _ _ => arith_lt hF _ _ _) fun _ _ => rfl
  case fmul => exact fl2_yields _ rfl rfl (fun _ => rfl) (fun _ _ _ _ => arith_lt hF _ _ _) fun _ _ => rfl
  case fma => exact fl3_yields _ rfl rfl (fun _ => rfl) (fun _ _ _ => arith_lt hF _ _ _) fun _ _ => rfl
  case fnma => exact fl3_yields _ rfl rfl (fun _ => rfl) (fun _ _ _ => arith_lt hF _ _ _) fun _ _ => rfl
  case fmin =>
    refine fl2_yields _ rfl rfl (fun _ => rfl) (fun _ _ hp hq => minMaxBits_lt hF hp hq _) fun x e => ?_
    rw [minMaxBits_eq]
    rfl
  case fmax =>
    refine fl2_yields _ rfl rfl (fun _ => rfl) (fun _ _ hp hq => minMaxBits_lt hF hp hq _) fun x e => ?_
    rw [minMaxBits_eq]
    rfl
  case fabs =>
    exact fl1_yields _ rfl rfl (fun _ => rfl) (fun p _ => mag_add_signBit_lt (fmtMag_lt t p) false) fun _ _ => rfl
  case fneg =>
    refine fl1_yields _ rfl rfl (fun _ => rfl) (fun p _ => mag_add_signBit_lt (fmtMag_lt t p) _) fun x e => ?_
    exact congrArg (·, 0) (mag_add_signBit_not (elem_lt x.a t e))
  case fcpsgn =>
    refine fl2_yields _ rfl rfl (fun _ => rfl) (fun p _ _ _ => mag_add_signBit_lt (fmtMag_lt t p) _) fun x e => ?_
    exact congrArg (fun s => (fmtMag t (x.a.elem t e) + s, 0)) (signBit_fmtSign (elem_lt x.b t e))
  case fcmp =>
    refine fl2_yields _ rfl rfl (fun _ => rfl) (fun _ _ _ _ => fcmpBits_lt _ _ _ _) fun x e => ?_
    exact fcmpBits_eq haux (elem_lt x.a t e) (elem_lt x.b t e)
  case fclass =>
    refine fl1_yields _ rfl rfl (fun _ => rfl) (fun p _ => fclassBits_lt hF p) fun x e => ?_
    rw [fclassBits_eq]
    rfl

end Sys2Proof.Machine
end

section
/-! PROOFS. Patterns of fp32, bf16 and fp16 as rationals: their order, and the values that Round keeps (R91, R100). -/

namespace Sys2Proof.Machine

/-! Powers of two around a value. -/

theorem zpow_two_pos (k : Int) : (0 : ℚ) < 2 ^ k := by positivity

/-- m 2^e lies between the powers of two that its binary logarithm names. -/
theorem log2_bounds {m : Nat} (hm : m ≠ 0) (e : Int) :
    (2 : ℚ) ^ ((Nat.log2 m : Int) + e) ≤ m * 2 ^ e ∧ (m : ℚ) * 2 ^ e < 2 ^ ((Nat.log2 m : Int) + e + 1) := by
  have hlow : ((2 ^ Nat.log2 m : Nat) : ℚ) ≤ m := Nat.cast_le.2 (Nat.log2_self_le hm)
  have hhigh : (m : ℚ) < ((2 ^ (Nat.log2 m + 1) : Nat) : ℚ) := Nat.cast_lt.2 Nat.lt_log2_self
  have hsum : (Nat.log2 m : Int) + e + 1 = ((Nat.log2 m + 1 : Nat) : Int) + e := by push_cast; ring
  rw [hsum, zpow_add₀ two_ne_zero, zpow_add₀ two_ne_zero, zpow_natCast, zpow_natCast]
  push_cast at hlow hhigh
  exact ⟨mul_le_mul_of_nonneg_right hlow (zpow_two_pos e).le, mul_lt_mul_of_pos_right hhigh (zpow_two_pos e)⟩

theorem lt_of_zpow_lt {a b : Int} (h : (2 : ℚ) ^ a < 2 ^ b) : a < b := (zpow_lt_zpow_iff_right₀ one_lt_two).1 h

theorem zpow_mono {a b : Int} (h : a ≤ b) : (2 : ℚ) ^ a ≤ 2 ^ b := zpow_le_zpow_right₀ one_le_two h

/-! Magnitudes in steps (R91). -/

/-- The value of a magnitude pattern. -/
def magRat (t mag : Nat) : ℚ := (magVal t mag).1 * 2 ^ (magVal t mag).2

theorem fmtMant_pos (t : Nat) : 0 < fmtMant t := by
  unfold fmtMant
  split <;> decide

/-- A pattern d steps of the exponent above its low k is k units of that exponent, where k has the leading bit or the exponent is the least. -/
theorem magRat_steps (t d k : Nat) (hk : k ≤ 2 ^ (fmtMant t + 1)) (hlead : d = 0 ∨ 2 ^ fmtMant t ≤ k) :
    magRat t (d * 2 ^ fmtMant t + k) = k * 2 ^ (fmtMinExp t + d) := by
  have hpos := Nat.two_pow_pos (fmtMant t)
  rw [Nat.pow_succ] at hk
  unfold magRat magVal
  dsimp only
  generalize hS : 2 ^ fmtMant t = S at *
  rcases Nat.lt_or_ge k S with hlt | hge
  · obtain rfl : d = 0 := hlead.resolve_right (by omega)
    rw [Nat.zero_mul, Nat.zero_add, if_pos (Nat.div_eq_of_lt hlt)]
    simp
  · rcases Nat.lt_or_ge k (S * 2) with hlt2 | hge2
    · have hsplit : d * S + k = (k - S) + S * (d + 1) := by rw [Nat.mul_succ, Nat.mul_comm S]; omega
      have hdiv : (d * S + k) / S = d + 1 := by rw [hsplit, Nat.add_mul_div_left _ _ hpos, Nat.div_eq_of_lt (by omega), Nat.zero_add]
      have hmod : (d * S + k) % S = k - S := by rw [hsplit, Nat.add_mul_mod_self_left, Nat.mod_eq_of_lt (by omega)]
      rw [hdiv, hmod, if_neg (by omega), Nat.sub_add_cancel hge]
      congr 2
      push_cast
      ring
    · obtain rfl : k = S * 2 := by omega
      have hsplit : d * S + S * 2 = S * (d + 2) := by ring
      rw [hsplit, Nat.mul_div_cancel_left _ hpos, Nat.mul_mod_right, if_neg (by omega), Nat.zero_add]
      have hexp : fmtMinExp t + ((d + 2 : Nat) : Int) - 1 = fmtMinExp t + d + 1 := by push_cast; ring
      rw [hexp, zpow_add_one₀ two_ne_zero]
      push_cast
      ring

/-- Every magnitude is some units of its exponent, the leading bit among them but at the least exponent. -/
theorem exists_steps (t mag : Nat) : ∃ d k, mag = d * 2 ^ fmtMant t + k ∧ k < 2 ^ (fmtMant t + 1) ∧ (d = 0 ∨ 2 ^ fmtMant t ≤ k) := by
  have hpos := Nat.two_pow_pos (fmtMant t)
  have hsplit := Nat.div_add_mod' mag (2 ^ fmtMant t)
  have hmod := Nat.mod_lt mag hpos
  rw [Nat.pow_succ]
  generalize 2 ^ fmtMant t = S at *
  rcases Nat.eq_zero_or_pos (mag / S) with hzero | hdiv
  · exact ⟨0, mag, by omega, by rw [hzero] at hsplit; omega, .inl rfl⟩
  · obtain ⟨d, hd⟩ := Nat.exists_eq_succ_of_ne_zero hdiv.ne'
    refine ⟨d, S + mag % S, ?_, by omega, .inr (by omega)⟩
    rw [hd, Nat.succ_mul] at hsplit
    omega

theorem magRat_lt_succ (t mag : Nat) : magRat t mag < magRat t (mag + 1) := by
  obtain ⟨d, k, rfl, hk, hlead⟩ := exists_steps t mag
  rw [Nat.add_assoc, magRat_steps t d k hk.le hlead, magRat_steps t d (k + 1) hk (hlead.imp_right fun h => h.trans (Nat.le_succ k))]
  push_cast
  exact mul_lt_mul_of_pos_right (lt_add_one _) (zpow_two_pos _)

theorem magRat_strictMono (t : Nat) : StrictMono (magRat t) := strictMono_nat_of_lt_succ (magRat_lt_succ t)

@[simp] theorem magRat_zero (t : Nat) : magRat t 0 = 0 := by simp [magRat, magVal]

theorem magRat_nonneg (t mag : Nat) : 0 ≤ magRat t mag := by unfold magRat; positivity

theorem magRat_pos {t mag : Nat} (h : mag ≠ 0) : 0 < magRat t mag := by
  rw [← magRat_zero t]
  exact magRat_strictMono t (Nat.pos_of_ne_zero h)

/-- The exponent of a magnitude is at least the least one, and its significand has no more bits than the format keeps. -/
theorem magVal_bounds (t mag : Nat) : fmtMinExp t ≤ (magVal t mag).2 ∧ (magVal t mag).1 < 2 ^ (fmtMant t + 1) := by
  have hmod := Nat.mod_lt mag (Nat.two_pow_pos (fmtMant t))
  unfold magVal
  dsimp only
  rw [Nat.pow_succ]
  split
  next h =>
    have := Nat.lt_of_div_eq_zero (Nat.two_pow_pos _) h
    exact ⟨le_rfl, by omega⟩
  next h =>
    have hpos := Nat.pos_of_ne_zero h
    exact ⟨by omega, by omega⟩

/-! What a pattern decodes to (R91, R92). -/

/-- The rational that a finite value is; 0 for the others. -/
def Val.rat : Val → ℚ
  | .fin n m k => finRat n m k
  | _ => 0

/-- The rational of a pattern. -/
def patRat (t p : Nat) : ℚ := (decodeFloat t p).rat

theorem decodeFloat_eq {t : Nat} (h : isF t = true) (p : Nat) : decodeFloat t p =
    if fmtMag t p ≤ fmtMax t then .fin (fmtSign t p) (magVal t (fmtMag t p)).1 (magVal t (fmtMag t p)).2
    else if fmtMag t p = fmtMax t + 1 then .inf (fmtSign t p) else .nan (fmtSign t p) (fmtMag t p / 2 ^ (fmtMant t - 1) % 2 == 0) := by
  have hformat : t ≠ 5 ∧ t ≠ 3 ∧ fmtHasInf t = true := by rcases isF_cases h with rfl | rfl | rfl <;> decide
  obtain ⟨h5, h3, hinf⟩ := hformat
  unfold decodeFloat
  simp only [h5, h3, hinf, false_and, if_false, true_and]
  rcases Nat.lt_or_ge (fmtMax t) (fmtMag t p) with hgt | hle
  · rw [if_pos hgt, if_neg (not_le.2 hgt)]
  · rw [if_neg (not_lt.2 hle), if_pos hle]

theorem decodeFloat_fin {t : Nat} (h : isF t = true) {p m : Nat} {n : Bool} {k : Int} (hp : decodeFloat t p = .fin n m k) :
    fmtMag t p ≤ fmtMax t ∧ n = fmtSign t p ∧ m = (magVal t (fmtMag t p)).1 ∧ k = (magVal t (fmtMag t p)).2 := by
  rw [decodeFloat_eq h] at hp
  split_ifs at hp with hle
  cases hp
  exact ⟨hle, rfl, rfl, rfl⟩

theorem finRat_eq (n : Bool) (m : Nat) (e : Int) : finRat n m e = (if n then -1 else 1) * (m * 2 ^ e) := mul_assoc _ _ _

/-- The rational of a pattern by its sign and magnitude. -/
theorem patRat_eq {t : Nat} (h : isF t = true) (p : Nat) :
    patRat t p = if fmtMag t p ≤ fmtMax t then (if fmtSign t p then -1 else 1) * magRat t (fmtMag t p) else 0 := by
  rw [patRat, decodeFloat_eq h]
  split
  · exact finRat_eq _ _ _
  · split <;> rfl

theorem fmtMag_signBit_add {t k : Nat} (hk : k < 2 ^ (typeWidth t - 1)) (n : Bool) : fmtMag t (signBit t n + k) = k := by
  rw [fmtMag, signBit]
  split
  · rw [Nat.add_mod_left, Nat.mod_eq_of_lt hk]
  · rw [Nat.zero_add, Nat.mod_eq_of_lt hk]

theorem fmtSign_signBit_add {t k : Nat} (hk : k < 2 ^ (typeWidth t - 1)) (n : Bool) : fmtSign t (signBit t n + k) = n := by
  have hpos := Nat.two_pow_pos (typeWidth t - 1)
  cases n
  · simp [fmtSign, signBit, Nat.div_eq_of_lt hk]
  · simp [fmtSign, signBit, Nat.add_div_left _ hpos, Nat.div_eq_of_lt hk]

theorem fmtMax_lt {t : Nat} (h : isF t = true) : fmtMax t + 1 < 2 ^ (typeWidth t - 1) := by
  rcases isF_cases h with rfl | rfl | rfl <;> decide

/-- A pattern of the type is its sign bit above its magnitude. -/
theorem signBit_add_fmtMag {t p : Nat} (hp : p < 2 ^ typeWidth t) : signBit t (fmtSign t p) + fmtMag t p = p := by
  rw [signBit_fmtSign hp, fmtMag]
  exact Nat.div_add_mod' p _

/-- The rational of a sign and a finite magnitude. -/
theorem patRat_signBit_add {t k : Nat} (h : isF t = true) (hk : k ≤ fmtMax t) (n : Bool) :
    patRat t (signBit t n + k) = (if n then -1 else 1) * magRat t k := by
  have hlt : k < 2 ^ (typeWidth t - 1) := by have := fmtMax_lt h; omega
  rw [patRat_eq h, fmtMag_signBit_add hlt, fmtSign_signBit_add hlt, if_pos hk]

/-! What Round keeps (R100). -/

/-- The steps of a value's rounding. -/
def roundSteps (t rnd : Nat) (neg : Bool) (m : Nat) (e : Int) : Nat :=
  stepsOf t (roundShift rnd neg m (e - lastPlace t m e)) (lastPlace t m e)

theorem roundFloat_fin {t : Nat} (h : isF t = true) (rnd : Nat) (neg : Bool) {m : Nat} (hm : m ≠ 0) (e : Int) :
    let steps := roundSteps t rnd neg m e
    (steps ≤ fmtMax t → roundFloat t rnd false (.fin neg m e) = ⟨signBit t neg + steps, roundStatus t steps (shiftLost m (e - lastPlace t m e)), false⟩) ∧
      (fmtMax t < steps → (roundFloat t rnd false (.fin neg m e)).out = true) := by
  have h5 : t ≠ 5 := by rcases isF_cases h with rfl | rfl | rfl <;> decide
  intro steps
  have hround : roundFloat t rnd false (.fin neg m e) = if steps ≤ fmtMax t then
        ⟨(if t = 5 && steps == 0 then 0 else signBit t neg + steps), roundStatus t steps (shiftLost m (e - lastPlace t m e)), false⟩
      else if fmtHasInf t && !false && (rnd == 0 || (rnd == 2 && !neg) || (rnd == 3 && neg)) then
        ⟨signBit t neg + fmtMax t + 1, ofFlag ||| nxFlag, true⟩
      else ⟨signBit t neg + fmtMax t, ofFlag ||| nxFlag, true⟩ := if_neg hm
  rw [hround]
  refine ⟨fun hle => ?_, fun hgt => ?_⟩
  · rw [if_pos hle]
    simp [h5]
  · rw [if_neg (by omega)]
    split <;> rfl

theorem fmtMinExp_le_lastPlace (t m : Nat) (e : Int) : fmtMinExp t ≤ lastPlace t m e := le_max_right _ _

/-- A value in units of its last place has no more bits than the format keeps, and the leading one of them but at the least exponent. -/
theorem scaled_lastPlace {t m : Nat} (hm : m ≠ 0) (e : Int) :
    (m : ℚ) * 2 ^ (e - lastPlace t m e) < 2 ^ (fmtMant t + 1) ∧
      (lastPlace t m e = fmtMinExp t ∨ (2 : ℚ) ^ fmtMant t ≤ m * 2 ^ (e - lastPlace t m e)) := by
  obtain ⟨hlow, hhigh⟩ := log2_bounds hm (e - lastPlace t m e)
  constructor
  · refine hhigh.trans_le ?_
    rw [← zpow_natCast]
    have : (Nat.log2 m : Int) + e - fmtMant t ≤ lastPlace t m e := le_max_left _ _
    exact zpow_mono (by push_cast; omega)
  · rcases max_choice ((Nat.log2 m : Int) + e - fmtMant t) (fmtMinExp t) with hmax | hmax
    · right
      refine le_trans ?_ hlow
      rw [← zpow_natCast]
      have : lastPlace t m e = (Nat.log2 m : Int) + e - fmtMant t := hmax
      exact zpow_mono (by omega)
    · exact .inl hmax

theorem roundShift_floor_or_succ (rnd : Nat) (neg : Bool) (m : Nat) (sh : Int) :
    roundShift rnd neg m sh = shiftNat m sh ∨ roundShift rnd neg m sh = shiftNat m sh + 1 := by
  unfold roundShift
  dsimp only
  split_ifs <;> simp

theorem roundShift_exact {m : Nat} {sh : Int} (h : shiftLost m sh = false) (rnd : Nat) (neg : Bool) : roundShift rnd neg m sh = shiftNat m sh := by
  simp [roundShift, h]

/-- What is rounded in units of its last place is a magnitude of the format, the infinity's among them. -/
theorem magRat_roundSteps (t rnd : Nat) (neg : Bool) {m : Nat} (hm : m ≠ 0) (e : Int) :
    magRat t (roundSteps t rnd neg m e) = roundShift rnd neg m (e - lastPlace t m e) * 2 ^ lastPlace t m e := by
  obtain ⟨hlt, hlead⟩ := scaled_lastPlace (t := t) hm e
  have hmin := fmtMinExp_le_lastPlace t m e
  generalize hq : lastPlace t m e = q at *
  have hfloor : ((shiftNat m (e - q) : Nat) : ℚ) = ⌊(m : ℚ) * 2 ^ (e - q)⌋ := shiftNat_eq_floor m (e - q)
  have hle : shiftNat m (e - q) < 2 ^ (fmtMant t + 1) := by
    have := (Int.floor_le ((m : ℚ) * 2 ^ (e - q))).trans_lt hlt
    rw [← hfloor] at this
    exact_mod_cast this
  have hge : q = fmtMinExp t ∨ 2 ^ fmtMant t ≤ shiftNat m (e - q) := by
    refine hlead.imp_right fun h => ?_
    have : ((2 ^ fmtMant t : Nat) : Int) ≤ ⌊(m : ℚ) * 2 ^ (e - q)⌋ := Int.le_floor.2 (by exact_mod_cast h)
    have : ((2 ^ fmtMant t : Nat) : ℚ) ≤ (shiftNat m (e - q) : Nat) := by rw [hfloor]; exact_mod_cast this
    exact_mod_cast this
  obtain ⟨d, hd⟩ := Int.le.dest hmin
  have hdq : (q - fmtMinExp t).toNat = d := by omega
  rw [roundSteps, hq, stepsOf, hdq, ← hd]
  have hround := roundShift_floor_or_succ rnd neg m (e - q)
  rw [← hd] at hround hge hle
  exact magRat_steps t d _ (by omega) (by omega)

/-! Values that the format has (R135). -/

/-- A nonzero value has one sign and one magnitude. -/
theorem sign_mul_inj {s n : Bool} {a b : ℚ} (ha : 0 ≤ a) (hb : 0 < b) (h : (if s then -1 else 1) * a = (if n then -1 else 1 : ℚ) * b) :
    s = n ∧ a = b := by
  cases s <;> cases n <;> simp at h ⊢ <;> linarith

theorem finRat_ne_zero (n : Bool) {m : Nat} (hm : m ≠ 0) (e : Int) : finRat n m e ≠ 0 := by
  rw [finRat_eq]
  have : (0 : ℚ) < m * 2 ^ e := mul_pos (Nat.cast_pos.2 (Nat.pos_of_ne_zero hm)) (zpow_two_pos e)
  cases n <;> simp [this.ne']

/-- A pattern of a nonzero value has that value's sign and magnitude. -/
theorem patRat_eq_finRat {t : Nat} (h : isF t = true) {p : Nat} {n : Bool} {m : Nat} (hm : m ≠ 0) {e : Int} (hp : patRat t p = finRat n m e) :
    fmtMag t p ≤ fmtMax t ∧ fmtSign t p = n ∧ magRat t (fmtMag t p) = m * 2 ^ e := by
  have hpos : (0 : ℚ) < m * 2 ^ e := mul_pos (Nat.cast_pos.2 (Nat.pos_of_ne_zero hm)) (zpow_two_pos e)
  by_cases hle : fmtMag t p ≤ fmtMax t
  · rw [patRat_eq h, if_pos hle, finRat_eq] at hp
    exact ⟨hle, sign_mul_inj (magRat_nonneg _ _) hpos hp⟩
  · rw [patRat_eq h, if_neg hle] at hp
    exact absurd hp.symm (finRat_ne_zero n hm e)

theorem shiftLost_eq_false {m : Nat} {sh : Int} {z : Nat} (h : (m : ℚ) * 2 ^ sh = z) : shiftLost m sh = false := by
  refine Bool.eq_false_iff.2 fun hlost => (shiftLost_iff m sh).1 hlost ?_
  rw [h, Int.fract_natCast]

theorem shiftNat_of_not_lost {m : Nat} {sh : Int} (h : shiftLost m sh = false) : (shiftNat m sh : ℚ) = m * 2 ^ sh := by
  have hfract : Int.fract ((m : ℚ) * 2 ^ sh) = 0 := by simpa [h] using shiftLost_iff m sh
  simpa [hfract] using shiftNat_add_fract m sh

/-- A magnitude of the format in units of the last place of its value is an integer. -/
theorem not_lost_of_magRat {t mag m : Nat} (hm : m ≠ 0) {e : Int} (hval : magRat t mag = m * 2 ^ e) : shiftLost m (e - lastPlace t m e) = false := by
  obtain ⟨hmin, hbits⟩ := magVal_bounds t mag
  unfold magRat at hval
  generalize (magVal t mag).1 = M at *
  generalize (magVal t mag).2 = E at *
  have hlog : (2 : ℚ) ^ ((Nat.log2 m : Int) + e) < 2 ^ (((fmtMant t + 1 : Nat) : Int) + E) := by
    refine (log2_bounds hm e).1.trans_lt ?_
    rw [← hval, zpow_add₀ two_ne_zero, zpow_natCast]
    exact mul_lt_mul_of_pos_right (by exact_mod_cast hbits) (zpow_two_pos E)
  have hlast : lastPlace t m e ≤ E := by
    have := lt_of_zpow_lt hlog
    exact max_le (by push_cast at this; omega) hmin
  obtain ⟨d, hd⟩ := Int.le.dest hlast
  refine shiftLost_eq_false (z := M * 2 ^ d) ?_
  rw [zpow_sub₀ two_ne_zero, ← mul_div_assoc, ← hval, ← hd, zpow_add₀ two_ne_zero, zpow_natCast]
  push_cast
  field_simp

theorem magRat_roundSteps_exact {t m : Nat} (hm : m ≠ 0) {e : Int} (hlost : shiftLost m (e - lastPlace t m e) = false) (rnd : Nat) (n : Bool) :
    magRat t (roundSteps t rnd n m e) = m * 2 ^ e := by
  rw [magRat_roundSteps t rnd n hm e, roundShift_exact hlost, shiftNat_of_not_lost hlost, mul_assoc, ← zpow_add₀ two_ne_zero, sub_add_cancel]

/-- Round keeps a value that the format has, in every mode and with no status (R100). -/
theorem roundFloat_of_patRat {t : Nat} (h : isF t = true) {p : Nat} (hp : p < 2 ^ typeWidth t) {n : Bool} {m : Nat} (hm : m ≠ 0) {e : Int}
    (hval : patRat t p = finRat n m e) (rnd : Nat) : roundFloat t rnd false (.fin n m e) = ⟨p, 0, false⟩ := by
  obtain ⟨hmax, hsign, hmag⟩ := patRat_eq_finRat h hm hval
  have hlost := not_lost_of_magRat hm hmag
  have hsteps : roundSteps t rnd n m e = fmtMag t p :=
    (magRat_strictMono t).injective ((magRat_roundSteps_exact hm hlost rnd n).trans hmag.symm)
  obtain ⟨hround, -⟩ := roundFloat_fin h rnd n hm e
  rw [hsteps] at hround
  rw [hround hmax, hlost, ← hsign, signBit_add_fmtMag hp]
  rfl

theorem exactBits?_of_patRat {t : Nat} (h : isF t = true) {p : Nat} (hp : p < 2 ^ typeWidth t) {n : Bool} {m : Nat} (hm : m ≠ 0) {e : Int}
    (hval : patRat t p = finRat n m e) : exactBits? t (.fin n m e) = some p := by
  rw [exactBits?, roundFloat_of_patRat h hp hm hval]
  rfl

theorem roundStatus_eq_zero {t steps : Nat} {inexact : Bool} (h : roundStatus t steps inexact = 0) : inexact = false := by
  unfold roundStatus at h
  split_ifs at h with hi
  · exact absurd h (by decide)
  · exact absurd h (by decide)
  · simpa using hi

/-- Bits that are given for a value exactly are a pattern of that value. -/
theorem exactBits?_some {t : Nat} (h : isF t = true) {b : Nat} {n : Bool} {m : Nat} (hm : m ≠ 0) {e : Int}
    (hb : exactBits? t (.fin n m e) = some b) : b < 2 ^ typeWidth t ∧ patRat t b = finRat n m e := by
  obtain ⟨hround, hout⟩ := roundFloat_fin h 0 n hm e
  unfold exactBits? at hb
  dsimp only at hb
  split at hb
  next hcond =>
    have hsteps : roundSteps t 0 n m e ≤ fmtMax t := not_lt.1 fun hgt => hcond.2 (hout hgt)
    rw [hround hsteps] at hcond hb
    have hlost := roundStatus_eq_zero hcond.1
    rw [← Option.some.inj hb]
    refine ⟨?_, ?_⟩
    · have := fmtMax_lt h
      have := signBit_le t n
      rw [two_pow_typeWidth]
      dsimp only
      omega
    · rw [patRat_signBit_add h hsteps, magRat_roundSteps_exact hm hlost, finRat_eq]
  next => cases hb

end Sys2Proof.Machine
end

section
/-! PROOFS. The special functions: their exact cases, the values that they choose elsewhere, and `smexp` (R134, R135, R137). -/

namespace Sys2Proof.Machine

/-! Powers of two (R135). -/

/-- The binary logarithm of a value that is a power of two. -/
theorem powerOfTwo?_eq_some {m : Nat} {e k : Int} : powerOfTwo? m e = some k ↔ (m : ℚ) * 2 ^ e = 2 ^ k := by
  have hpower (h : m = 2 ^ Nat.log2 m) : (m : ℚ) * 2 ^ e = 2 ^ ((Nat.log2 m : Int) + e) := by
    rw [zpow_add₀ two_ne_zero, zpow_natCast]
    exact congrArg (· * (2 : ℚ) ^ e) (by exact_mod_cast h)
  unfold powerOfTwo?
  constructor
  · intro h
    split at h
    next hcond => rw [← Option.some.inj h, hpower hcond.2]
    next => cases h
  · intro h
    have hm : m ≠ 0 := by
      rintro rfl
      exact (zpow_two_pos k).ne (by simpa using h)
    obtain ⟨hlow, hhigh⟩ := log2_bounds hm e
    rw [h] at hlow hhigh
    have hlog : (Nat.log2 m : Int) + e = k := by
      have := (zpow_le_zpow_iff_right₀ (one_lt_two (α := ℚ))).1 hlow
      have := lt_of_zpow_lt hhigh
      omega
    have hself : m = 2 ^ Nat.log2 m := by
      rw [← hlog, zpow_add₀ two_ne_zero, zpow_natCast] at h
      exact_mod_cast mul_right_cancel₀ (zpow_two_pos e).ne' h
    rw [if_pos ⟨hm, hself⟩, hlog]

/-- The factors of a power of two are powers of two. -/
theorem powerOfTwo?_of_mul {m M : Nat} {e z k : Int} (h : ((m * M : Nat) : ℚ) * 2 ^ z = 2 ^ k) : ∃ j, powerOfTwo? m e = some j := by
  have hprod := powerOfTwo?_eq_some.2 h
  unfold powerOfTwo? at hprod
  split at hprod
  next hcond =>
    obtain ⟨i, -, hi⟩ := (Nat.dvd_prime_pow Nat.prime_two).1 (Dvd.intro M hcond.2)
    refine ⟨i + e, powerOfTwo?_eq_some.2 ?_⟩
    rw [hi, zpow_add₀ two_ne_zero, zpow_natCast]
    push_cast
    rfl
  next => cases hprod

theorem finRat_one (n : Bool) (k : Int) : finRat n 1 k = (if n then -1 else 1) * 2 ^ k := by simp [finRat]

theorem abs_finRat (n : Bool) (m : Nat) (k : Int) : |finRat n m k| = m * 2 ^ k := by
  have hnonneg : (0 : ℚ) ≤ m * 2 ^ k := by positivity
  rw [finRat_eq]
  cases n <;> simp [abs_of_nonneg hnonneg]

theorem sign_mul_sign (n : Bool) : (if n then -1 else 1 : ℚ) * (if n then -1 else 1) = 1 := by cases n <;> norm_num

/-- A pattern that is no zero, infinity or NaN, as a value. -/
theorem patRat_fin {t p : Nat} (h : patRat t p ≠ 0) : ∃ n M E, decodeFloat t p = .fin n M E ∧ patRat t p = finRat n M E := by
  unfold patRat Val.rat at h ⊢
  cases hd : decodeFloat t p with
  | nan n s => simp [hd] at h
  | inf n => simp [hd] at h
  | fin n M E => exact ⟨n, M, E, rfl, rfl⟩

/-! The exact cases (R135). -/

/-- What R135 has each special function give exactly: y for x. -/
def exactPair (op : Nat) (x y : ℚ) : Prop :=
  (op = 0x40 ∧ x * y = 1) ∨ (op = 0x41 ∧ 0 < y ∧ x * y ^ 2 = 1) ∨ (op = 0x43 ∧ x ≠ 0 ∧ ∃ k : Int, x = k ∧ y = 2 ^ k)

/-- A reciprocal that the format has is that of a power of two. -/
theorem recip_power {n n' : Bool} {m M : Nat} {e E : Int} (h : finRat n m e * finRat n' M E = 1) :
    ∃ k, powerOfTwo? m e = some k ∧ finRat n' M E = finRat n 1 (-k) := by
  have habs : ((m * M : Nat) : ℚ) * 2 ^ (e + E) = 2 ^ (0 : Int) := by
    have := congrArg abs h
    rw [abs_mul, abs_finRat, abs_finRat, abs_one] at this
    rw [zpow_add₀ two_ne_zero, zpow_zero, ← this]
    push_cast
    ring
  obtain ⟨k, hk⟩ := powerOfTwo?_of_mul (e := e) habs
  have hval := powerOfTwo?_eq_some.1 hk
  refine ⟨k, hk, ?_⟩
  have hinv : finRat n m e * finRat n 1 (-k) = 1 := by
    rw [finRat_eq, hval, finRat_one, mul_mul_mul_comm, sign_mul_sign, ← zpow_add₀ two_ne_zero, add_neg_cancel, zpow_zero, one_mul]
  exact mul_left_cancel₀ (left_ne_zero_of_mul_eq_one hinv) (h.trans hinv.symm)

/-- A reciprocal root that the format has is that of an even power of two. -/
theorem rsqrt_power {n n' : Bool} {m M : Nat} {e E : Int} (hpos : 0 < finRat n' M E) (h : finRat n m e * finRat n' M E ^ 2 = 1) :
    ∃ k, powerOfTwo? m e = some k ∧ k % 2 = 0 ∧ finRat n' M E = finRat false 1 (-(k / 2)) := by
  have hy : finRat n' M E = M * 2 ^ E := by
    cases n'
    · simp [finRat]
    · have : (0 : ℚ) ≤ M * 2 ^ E := by positivity
      rw [finRat_eq] at hpos
      simp at hpos
      linarith
  have hx : finRat n m e = m * 2 ^ e := by
    cases n
    · simp [finRat]
    · have : (0 : ℚ) ≤ m * 2 ^ e * finRat n' M E ^ 2 := by positivity
      rw [finRat_eq] at h
      simp at h
      linarith
  rw [hx, hy] at h
  have hprod : ((m * (M * M) : Nat) : ℚ) * 2 ^ (e + (E + E)) = 2 ^ (0 : Int) := by
    rw [zpow_zero, ← h, zpow_add₀ two_ne_zero, zpow_add₀ two_ne_zero]
    push_cast
    ring
  have hprod' : ((M * (m * M) : Nat) : ℚ) * 2 ^ (e + (E + E)) = 2 ^ (0 : Int) := by
    rw [← hprod]
    congr 2
    ring
  obtain ⟨k, hk⟩ := powerOfTwo?_of_mul (e := e) hprod
  obtain ⟨j, hj⟩ := powerOfTwo?_of_mul (e := E) hprod'
  have hkval := powerOfTwo?_eq_some.1 hk
  have hjval := powerOfTwo?_eq_some.1 hj
  have hsum : k + (j + j) = 0 := by
    rw [hkval, hjval, pow_two, ← zpow_add₀ two_ne_zero, ← zpow_add₀ two_ne_zero, ← zpow_zero (2 : ℚ)] at h
    exact zpow_right_injective₀ two_pos (by norm_num) h
  refine ⟨k, hk, by omega, ?_⟩
  rw [hy, hjval, finRat_one, show -(k / 2) = j by omega]
  simp

/-! Integers as exponents (R135). -/

/-- The integer that a nonzero value is, where it is one of fewer than 25 bits. -/
theorem intOf?_eq_some {n : Bool} {m : Nat} (hm : m ≠ 0) {e z : Int} :
    intOf? n m e = some z ↔ finRat n m e = z ∧ (Nat.log2 m : Int) + e < 24 := by
  have hvalue (hlost : shiftLost m e = false) : finRat n m e = ((if n then -(shiftNat m e : Int) else shiftNat m e : Int) : ℚ) := by
    rw [finRat_eq, ← shiftNat_of_not_lost hlost]
    cases n <;> simp
  unfold intOf?
  constructor
  · intro h
    split at h
    · cases h
    next hlost =>
      split at h
      · cases h
      next hlog =>
        rw [← Option.some.inj h]
        exact ⟨hvalue (by simpa using hlost), not_le.1 hlog⟩
  · rintro ⟨hz, hlog⟩
    have hlost : shiftLost m e = false := by
      refine shiftLost_eq_false (z := z.natAbs) ?_
      have := congrArg abs hz
      rw [abs_finRat] at this
      rw [this, Nat.cast_natAbs, Int.cast_abs]
    rw [hlost, if_neg (by simp), if_neg hm, if_neg (by omega)]
    rw [hvalue hlost] at hz
    exact congrArg some (by exact_mod_cast hz)

/-! The range of a format's powers of two. -/

/-- The infinity's magnitude would be the power of two past the bias. -/
theorem magRat_infinity {t : Nat} (h : isF t = true) : magRat t (fmtMax t + 1) = 2 ^ ((fmtBias t : Int) + 1) := by
  have hmax : fmtMax t + 1 = 2 * fmtBias t * 2 ^ fmtMant t + 2 ^ fmtMant t := by rcases isF_cases h with rfl | rfl | rfl <;> rfl
  rw [hmax, magRat_steps _ _ _ (Nat.pow_le_pow_right two_pos (Nat.le_succ _)) (.inr le_rfl)]
  push_cast
  rw [← zpow_natCast, ← zpow_add₀ two_ne_zero]
  congr 1
  unfold fmtMinExp
  ring

theorem magRat_one (t : Nat) : magRat t 1 = 2 ^ fmtMinExp t := by
  have := magRat_steps t 0 1 (Nat.one_le_two_pow) (.inl rfl)
  simpa using this

/-- A nonzero magnitude of the format lies between its least subnormal and its infinity. -/
theorem magRat_range {t mag : Nat} (h : isF t = true) (hpos : mag ≠ 0) (hmax : mag ≤ fmtMax t) :
    (2 : ℚ) ^ fmtMinExp t ≤ magRat t mag ∧ magRat t mag < 2 ^ ((fmtBias t : Int) + 1) := by
  rw [← magRat_one, ← magRat_infinity h]
  exact ⟨(magRat_strictMono t).monotone (Nat.one_le_iff_ne_zero.2 hpos), magRat_strictMono t (Nat.lt_succ_of_le hmax)⟩

/-- A pattern that is a power of two is one in the range of the format. -/
theorem patRat_power_range {t p : Nat} (h : isF t = true) {k : Int} (hp : patRat t p = 2 ^ k) : fmtMinExp t ≤ k ∧ k ≤ fmtBias t := by
  have hfin : patRat t p = finRat false 1 k := by rw [hp, finRat_one]; simp
  obtain ⟨hmax, -, hmag⟩ := patRat_eq_finRat h one_ne_zero hfin
  rw [Nat.cast_one, one_mul] at hmag
  have hpos : fmtMag t p ≠ 0 := by
    intro h0
    rw [h0, magRat_zero] at hmag
    exact (zpow_two_pos k).ne hmag
  obtain ⟨hlow, hhigh⟩ := magRat_range h hpos hmax
  rw [hmag] at hlow hhigh
  have := (zpow_le_zpow_iff_right₀ (one_lt_two (α := ℚ))).1 hlow
  have := lt_of_zpow_lt hhigh
  omega

/-- The exponents of a format are integers that the format has. -/
theorem natAbs_lt_of_range {t : Nat} (h : isF t = true) {k : Int} (hk : fmtMinExp t ≤ k ∧ k ≤ fmtBias t) :
    k.natAbs < 2 ^ (fmtMant t + 1) ∧ fmtMant t ≤ 23 := by
  rcases isF_cases h with rfl | rfl | rfl <;> simp [fmtMinExp, fmtBias, fmtMant] at hk ⊢ <;> omega

/-- An integer of no more bits than the format keeps is given exactly (R135). -/
theorem exactBits?_ofInt {t : Nat} (h : isF t = true) {k : Int} (hk : k.natAbs < 2 ^ (fmtMant t + 1)) :
    exactBits? t (.ofInt k) = some (roundFloat t 0 false (.ofInt k)).bits := by
  suffices hexact : (roundFloat t 0 false (.ofInt k)).flags = 0 ∧ (roundFloat t 0 false (.ofInt k)).out = false from
    if_pos ⟨hexact.1, by simp [hexact.2]⟩
  rcases eq_or_ne k.natAbs 0 with hzero | hne
  · have hround : roundFloat t 0 false (.ofInt k) = ⟨if t = 5 then 0 else signBit t (k < 0), 0, false⟩ := if_pos hzero
    rw [hround]
    exact ⟨rfl, rfl⟩
  · have hlast : lastPlace t k.natAbs 0 ≤ 0 := by
      have hlog : Nat.log2 k.natAbs < fmtMant t + 1 := (Nat.log2_lt hne).2 hk
      have hmin : fmtMinExp t ≤ 0 := by rcases isF_cases h with rfl | rfl | rfl <;> decide
      exact max_le (by omega) hmin
    have hlost : shiftLost k.natAbs (0 - lastPlace t k.natAbs 0) = false := by
      rw [shiftLost, decide_eq_true (by omega)]
      rfl
    have hmag := magRat_roundSteps_exact hne hlost 0 (decide (k < 0))
    have hsteps : roundSteps t 0 (decide (k < 0)) k.natAbs 0 ≤ fmtMax t := by
      refine Nat.le_of_lt_succ ((magRat_strictMono t).lt_iff_lt.1 ?_)
      rw [hmag, Nat.succ_eq_add_one, magRat_infinity h, zpow_zero, mul_one]
      have hbig : 2 ^ (fmtMant t + 1) ≤ 2 ^ (fmtBias t + 1) := by rcases isF_cases h with rfl | rfl | rfl <;> decide
      exact_mod_cast hk.trans_le hbig
    obtain ⟨hround, -⟩ := roundFloat_fin h 0 (decide (k < 0)) hne 0
    have hval : roundFloat t 0 false (.ofInt k) = _ := hround hsteps
    rw [hval, hlost]
    exact ⟨rfl, rfl⟩

/-! The exact cases as the model decides them (R135). -/

theorem specialExact?_of_pair {t op p : Nat} (h : isF t = true) (hp : p < 2 ^ typeWidth t) {n : Bool} {m : Nat} (hm : m ≠ 0) {e : Int}
    (hpair : exactPair op (finRat n m e) (patRat t p)) : specialExact? op t n m e = some p := by
  rcases hpair with ⟨rfl, hxy⟩ | ⟨rfl, hpos, hxy⟩ | ⟨rfl, -, k, hx, hy⟩
  · obtain ⟨n', M, E, -, hval⟩ := patRat_fin (right_ne_zero_of_mul_eq_one hxy)
    rw [hval] at hxy
    obtain ⟨k, hk, hy⟩ := recip_power hxy
    have hbits := exactBits?_of_patRat h hp one_ne_zero (hval.trans hy)
    simp only [specialExact?, hk, Option.bind_some, hbits]
  · obtain ⟨n', M, E, -, hval⟩ := patRat_fin hpos.ne'
    rw [hval] at hxy hpos
    obtain ⟨k, hk, heven, hy⟩ := rsqrt_power hpos hxy
    have hbits := exactBits?_of_patRat h hp one_ne_zero (hval.trans hy)
    simp only [specialExact?, hk, Option.bind_some, heven, if_true, hbits]
  · have hbits := exactBits?_of_patRat h hp one_ne_zero (n := false) (e := k) (by rw [hy, finRat_one]; simp)
    have hint : intOf? n m e = some k := by
      obtain ⟨habs, hmant⟩ := natAbs_lt_of_range h (patRat_power_range h hy)
      refine (intOf?_eq_some hm).2 ⟨hx, lt_of_zpow_lt ((log2_bounds hm e).1.trans_lt ?_)⟩
      have hmag : (m : ℚ) * 2 ^ e = (k.natAbs : Nat) := by
        have := congrArg abs hx
        rw [abs_finRat] at this
        rw [this, Nat.cast_natAbs, Int.cast_abs]
      rw [hmag]
      have : k.natAbs < 2 ^ 24 := habs.trans_le (Nat.pow_le_pow_right two_pos (by omega))
      exact_mod_cast this
    simp only [specialExact?, hint, Option.bind_some, hbits]

theorem pair_of_specialExact? {t op b : Nat} (h : isF t = true) {n : Bool} {m : Nat} (hm : m ≠ 0) {e : Int} (hneg : n = true → op ≠ 0x41)
    (hlog : op ≠ 0x44) (hb : specialExact? op t n m e = some b) : exactPair op (finRat n m e) (patRat t b) := by
  unfold specialExact? at hb
  split at hb
  · obtain ⟨k, hk, hbits⟩ := Option.bind_eq_some_iff.1 hb
    obtain ⟨-, hy⟩ := exactBits?_some h one_ne_zero hbits
    refine .inl ⟨rfl, ?_⟩
    rw [hy, finRat_eq, powerOfTwo?_eq_some.1 hk, finRat_one, mul_mul_mul_comm, sign_mul_sign, ← zpow_add₀ two_ne_zero, add_neg_cancel, zpow_zero,
      one_mul]
  · obtain ⟨k, hk, hbits⟩ := Option.bind_eq_some_iff.1 hb
    split at hbits
    next heven =>
      obtain ⟨-, hy⟩ := exactBits?_some h one_ne_zero hbits
      obtain rfl : n = false := Bool.eq_false_iff.2 fun hn => hneg hn rfl
      have hsum : k + (-(k / 2) + -(k / 2)) = 0 := by omega
      refine .inr (.inl ⟨rfl, ?_, ?_⟩)
      · rw [hy, finRat_one]
        simp [zpow_two_pos]
      · rw [hy, finRat_eq, powerOfTwo?_eq_some.1 hk, finRat_one, if_neg (by simp), one_mul, one_mul, pow_two, ← zpow_add₀ two_ne_zero,
          ← zpow_add₀ two_ne_zero, hsum, zpow_zero]
    next => cases hbits
  · obtain ⟨k, hk, hbits⟩ := Option.bind_eq_some_iff.1 hb
    obtain ⟨-, hy⟩ := exactBits?_some h one_ne_zero hbits
    obtain ⟨hx, -⟩ := (intOf?_eq_some hm).1 hk
    exact .inr (.inr ⟨rfl, finRat_ne_zero n hm e, k, hx, by rw [hy, finRat_one]; simp⟩)
  · exact absurd rfl hlog
  · cases hb

end Sys2Proof.Machine
end

section
/-! PROOFS. The special functions of an operand pattern (R134, R135, Table 7.5) and `smexp` (R137). -/

namespace Sys2Proof.Machine

/-! The value chosen in a window (R134). -/

/-- A result of the window around the enclosure of op at n m 2^k, with the status of R134. -/
def chosenWithin (t op : Nat) (n : Bool) (m : Nat) (k : Int) (r : Nat × Flags) : Prop :=
  let c := specialEncl op n m k
  let window := specialWindow t (specialBound op t m k) c
  ∃ o : Int, window.1 ≤ o ∧ o ≤ max window.1 window.2 ∧ r =
    (bitsOfOrd t c.neg o, if o.natAbs > fmtMax t then ofFlag ||| nxFlag else if o.natAbs < 2 ^ fmtMant t then ufFlag ||| nxFlag else nxFlag)

theorem pickSpecial_chosenWithin (t op pick : Nat) (n : Bool) (m : Nat) (k : Int) :
    chosenWithin t op n m k (pickSpecial t pick (specialEncl op n m k).neg (specialWindow t (specialBound op t m k) (specialEncl op n m k))) := by
  unfold chosenWithin pickSpecial
  dsimp only
  generalize specialWindow t (specialBound op t m k) (specialEncl op n m k) = w
  have hpick : pick % ((w.2 - w.1).toNat + 1) < (w.2 - w.1).toNat + 1 := Nat.mod_lt _ (Nat.succ_pos _)
  exact ⟨_, by omega, by omega, rfl⟩

theorem ordAt_natAbs_le (t : Nat) (up : Bool) (x e : Int) : (ordAt t up x e).natAbs ≤ fmtMax t + 1 := by
  have hsteps (up : Bool) (k : Nat) : stepsAt t up k e ≤ fmtMax t + 1 := by
    unfold stepsAt
    split
    · exact Nat.zero_le _
    · exact min_le_right _ _
  have htrue := hsteps up x.natAbs
  have hfalse := hsteps (!up) x.natAbs
  unfold ordAt
  split <;> omega

theorem specialWindow_bounds (t : Nat) (b : Nat × Option Int) (c : Encl) :
    (specialWindow t b c).1.natAbs ≤ fmtMax t + 1 ∧ (specialWindow t b c).2.natAbs ≤ fmtMax t + 1 := by
  unfold specialWindow
  dsimp only
  split
  · exact ⟨ordAt_natAbs_le .., ordAt_natAbs_le ..⟩
  · exact ⟨ordAt_natAbs_le .., ordAt_natAbs_le ..⟩

theorem bitsOfOrd_lt {t : Nat} (h : isF t = true) (neg : Bool) {o : Int} (ho : o.natAbs ≤ fmtMax t + 1) : bitsOfOrd t neg o < 2 ^ typeWidth t := by
  obtain ⟨hinf, -⟩ := fmt_bounds h
  have hsign (n : Bool) := signBit_le t n
  unfold bitsOfOrd
  split
  · exact (hsign neg).trans_lt (by omega)
  · exact (Nat.add_le_add (hsign _) ho).trans_lt hinf

theorem chosenWithin_lt {t op : Nat} (h : isF t = true) {n : Bool} {m : Nat} {k : Int} {r : Nat × Flags} (hr : chosenWithin t op n m k r) :
    r.1 < 2 ^ typeWidth t := by
  obtain ⟨o, hlow, hhigh, rfl⟩ := hr
  obtain ⟨hfirst, hsecond⟩ := specialWindow_bounds t (specialBound op t m k) (specialEncl op n m k)
  exact bitsOfOrd_lt h _ (by omega)

/-! Results by operand (Table 7.5). -/

theorem specialBits_nan {t op a : Nat} {n sig : Bool} (ha : decodeFloat t a = .nan n sig) :
    specialBits op t a = (fmtNan t, if sig then nvFlag else 0) := by
  simp only [specialBits, ha, specialTable]

theorem specialTable_fin {t op m : Nat} (hm : m ≠ 0) {n : Bool} (hdom : n = true → op ≠ 0x41 ∧ op ≠ 0x44) (k : Int) :
    specialTable op t (.fin n m k) = (specialExact? op t n m k).map fun b => (b, 0) := by
  have hin : (n && (op == 0x41 || op == 0x44)) = false := by
    cases n with
    | false => rfl
    | true =>
      obtain ⟨h41, h44⟩ := hdom rfl
      simp [h41, h44]
  simp [specialTable, hm, hin]

theorem specialBits_outside {t op a m : Nat} {k : Int} (ha : decodeFloat t a = .fin true m k) (hm : m ≠ 0) (hop : op = 0x41 ∨ op = 0x44) :
    specialBits op t a = (fmtNan t, nvFlag) := by
  have hin : (true && (op == 0x41 || op == 0x44)) = true := by simpa using hop
  simp only [specialBits, ha, specialTable, hm, hin, if_false, if_true]

theorem specialBits_exact {t op a m b : Nat} {n : Bool} {k : Int} (ha : decodeFloat t a = .fin n m k) (hm : m ≠ 0)
    (hdom : n = true → op ≠ 0x41 ∧ op ≠ 0x44) (hb : specialExact? op t n m k = some b) : specialBits op t a = (b, 0) := by
  simp only [specialBits, ha, specialTable_fin hm hdom, hb, Option.map_some]

theorem specialBits_inexact {t op a m : Nat} {n : Bool} {k : Int} (ha : decodeFloat t a = .fin n m k) (hm : m ≠ 0)
    (hdom : n = true → op ≠ 0x41 ∧ op ≠ 0x44) (hb : specialExact? op t n m k = none) : chosenWithin t op n m k (specialBits op t a) := by
  simp only [specialBits, ha, specialTable_fin hm hdom, hb, Option.map_none]
  exact pickSpecial_chosenWithin _ _ _ _ _ _

theorem exactBits?_lt {t b : Nat} (h : isF t = true) {v : Val} (hb : exactBits? t v = some b) : b < 2 ^ typeWidth t := by
  unfold exactBits? at hb
  dsimp only at hb
  split at hb
  · rw [← Option.some.inj hb]
    exact roundFloat_lt h _ _ _
  · cases hb

theorem specialExact?_lt {t op m b : Nat} (h : isF t = true) {n : Bool} {k : Int} (hb : specialExact? op t n m k = some b) :
    b < 2 ^ typeWidth t := by
  unfold specialExact? at hb
  split at hb
  · obtain ⟨_, -, hbits⟩ := Option.bind_eq_some_iff.1 hb
    exact exactBits?_lt h hbits
  · obtain ⟨_, -, hbits⟩ := Option.bind_eq_some_iff.1 hb
    split at hbits
    · exact exactBits?_lt h hbits
    · cases hbits
  · obtain ⟨_, -, hbits⟩ := Option.bind_eq_some_iff.1 hb
    exact exactBits?_lt h hbits
  · obtain ⟨_, -, hbits⟩ := Option.bind_eq_some_iff.1 hb
    exact exactBits?_lt h hbits
  · cases hb

theorem infinity_lt {t : Nat} (h : isF t = true) (n : Bool) : signBit t n + fmtMax t + 1 < 2 ^ typeWidth t :=
  (Nat.add_le_add_right (Nat.add_le_add_right (signBit_le t n) _) 1).trans_lt (fmt_bounds h).1

theorem signBit_lt {t : Nat} (h : isF t = true) (n : Bool) : signBit t n < 2 ^ typeWidth t :=
  (Nat.le_add_right _ (fmtMax t + 1)).trans_lt (infinity_lt h n)

theorem specialTable_lt {t op : Nat} (h : isF t = true) {v : Val} {r : Nat × Flags} (hr : specialTable op t v = some r) :
    r.1 < 2 ^ typeWidth t := by
  obtain ⟨-, hnan⟩ := fmt_bounds h
  have hmax : fmtMax t + 1 < 2 ^ typeWidth t := by simpa [signBit] using infinity_lt h false
  have hround (v : Val) := roundFloat_lt h 0 false v
  cases v with
  | nan n s =>
    obtain rfl := Option.some.inj hr
    exact hnan
  | inf n =>
    unfold specialTable at hr
    dsimp only at hr
    split at hr <;> obtain rfl := Option.some.inj hr
    · exact signBit_lt h n
    · cases n
      · exact Nat.two_pow_pos _
      · exact hnan
    · cases n
      · exact hmax
      · exact Nat.two_pow_pos _
    · cases n
      · exact hmax
      · exact hnan
    · exact hround _
    · exact hnan
    · exact hnan
    · cases n
      · exact hround _
      · exact Nat.two_pow_pos _
  | fin n m k =>
    unfold specialTable at hr
    dsimp only at hr
    split at hr
    · split at hr <;> obtain rfl := Option.some.inj hr
      · exact infinity_lt h n
      · exact infinity_lt h n
      · exact infinity_lt h true
      · exact signBit_lt h n
      · exact signBit_lt h n
      · exact hround _
      · exact hround _
      · exact hround _
    · split at hr
      · obtain rfl := Option.some.inj hr
        exact hnan
      · obtain ⟨b, hb, rfl⟩ := Option.map_eq_some_iff.1 hr
        exact specialExact?_lt h hb

theorem specialBits_lt {t : Nat} (h : isF t = true) (op a : Nat) : (specialBits op t a).1 < 2 ^ typeWidth t := by
  obtain ⟨-, hnan⟩ := fmt_bounds h
  unfold specialBits
  dsimp only
  split
  next r hr => exact specialTable_lt h hr
  next =>
    split
    next n m k _ => exact chosenWithin_lt h (pickSpecial_chosenWithin t op _ n m k)
    next => exact hnan

/-! Results by value (R134, R135). -/

theorem finRat_neg_iff {n : Bool} {m : Nat} (hm : m ≠ 0) (k : Int) : finRat n m k < 0 ↔ n = true := by
  have hpos : (0 : ℚ) < m * 2 ^ k := mul_pos (Nat.cast_pos.2 (Nat.pos_of_ne_zero hm)) (zpow_two_pos k)
  rw [finRat_eq]
  cases n <;> simp [hpos, hpos.le]

/-- A pattern that is no zero, infinity or NaN, with its significand. -/
theorem decodeFloat_of_patRat_ne_zero {t p : Nat} (h : patRat t p ≠ 0) :
    ∃ n m k, decodeFloat t p = .fin n m k ∧ m ≠ 0 ∧ patRat t p = finRat n m k := by
  obtain ⟨n, m, k, hd, hval⟩ := patRat_fin h
  refine ⟨n, m, k, hd, ?_, hval⟩
  rintro rfl
  exact h (by simp [hval, finRat])

theorem specialBits_of_neg {t op a : Nat} (ha : patRat t a < 0) (hop : op = 0x41 ∨ op = 0x44) : specialBits op t a = (fmtNan t, nvFlag) := by
  obtain ⟨n, m, k, hd, hm, hval⟩ := decodeFloat_of_patRat_ne_zero ha.ne
  rw [hval] at ha
  obtain rfl := (finRat_neg_iff hm k).1 ha
  exact specialBits_outside hd hm hop

/-- R135's operand is in the domain of its function. -/
theorem exactPair_domain {op : Nat} {x y : ℚ} (h : exactPair op x y) : x ≠ 0 ∧ (x < 0 → op ≠ 0x41 ∧ op ≠ 0x44) := by
  rcases h with ⟨rfl, hxy⟩ | ⟨rfl, hpos, hxy⟩ | ⟨rfl, hx, -⟩
  · exact ⟨left_ne_zero_of_mul_eq_one hxy, fun _ => by decide⟩
  · have : 0 < y ^ 2 := by positivity
    refine ⟨left_ne_zero_of_mul_eq_one hxy, fun hneg => absurd hxy (by nlinarith)⟩
  · exact ⟨hx, fun _ => by decide⟩

theorem specialBits_of_pair {t op a p : Nat} (h : isF t = true) (hp : p < 2 ^ typeWidth t) (hpair : exactPair op (patRat t a) (patRat t p)) :
    specialBits op t a = (p, 0) := by
  obtain ⟨hne, hdom⟩ := exactPair_domain hpair
  obtain ⟨n, m, k, hd, hm, hval⟩ := decodeFloat_of_patRat_ne_zero hne
  rw [hval, finRat_neg_iff hm] at hdom
  rw [hval] at hpair
  exact specialBits_exact hd hm hdom (specialExact?_of_pair h hp hm hpair)

/-- The logarithm of a power of two is exact (R135). -/
theorem specialBits_log2_power {t a : Nat} (h : isF t = true) {k : Int} (ha : patRat t a = 2 ^ k) :
    specialBits 0x44 t a = ((roundFloat t 0 false (.ofInt k)).bits, 0) := by
  have hpos := zpow_two_pos k
  obtain ⟨n, m, e, hd, hm, hval⟩ := decodeFloat_of_patRat_ne_zero (ha ▸ hpos.ne')
  obtain rfl : n = false := Bool.eq_false_iff.2 fun hn => by
    have := (finRat_neg_iff (n := n) hm e).2 hn
    rw [← hval, ha] at this
    linarith
  have hpower : powerOfTwo? m e = some k := powerOfTwo?_eq_some.2 (by rw [← ha, hval]; simp [finRat])
  obtain ⟨habs, -⟩ := natAbs_lt_of_range h (patRat_power_range h ha)
  refine specialBits_exact hd hm (by simp) ?_
  simp only [specialExact?, hpower, Option.bind_some, exactBits?_ofInt h habs]

/-- An operand whose logarithm is decided exactly is a power of two. -/
theorem power_of_specialExact?_log2 {t m b : Nat} {k : Int} (hb : specialExact? 0x44 t false m k = some b) : ∃ j : Int, finRat false m k = 2 ^ j := by
  obtain ⟨j, hj, -⟩ := Option.bind_eq_some_iff.1 hb
  exact ⟨j, by rw [← powerOfTwo?_eq_some.1 hj]; simp [finRat]⟩

theorem specialBits_of_no_pair {t op a : Nat} (h : isF t = true) {n : Bool} {m : Nat} {k : Int} (ha : decodeFloat t a = .fin n m k) (hm : m ≠ 0)
    (hdom : patRat t a < 0 → op ≠ 0x41 ∧ op ≠ 0x44) (hpair : ∀ p, ¬exactPair op (patRat t a) (patRat t p))
    (hlog : ∀ j : Int, op = 0x44 → patRat t a ≠ 2 ^ j) : chosenWithin t op n m k (specialBits op t a) := by
  have hval : patRat t a = finRat n m k := congrArg Val.rat ha
  rw [hval, finRat_neg_iff hm] at hdom
  rw [hval] at hpair hlog
  refine specialBits_inexact ha hm hdom (Option.eq_none_iff_forall_ne_some.2 fun b hb => ?_)
  rcases eq_or_ne op 0x44 with rfl | h44
  · obtain rfl : n = false := Bool.eq_false_iff.2 fun hn => (hdom hn).2 rfl
    obtain ⟨j, hj⟩ := power_of_specialExact?_log2 hb
    exact hlog j rfl hj
  · exact hpair b (pair_of_specialExact? h hm (fun hn => (hdom hn).1) h44 hb)

/-! `smexp` (R137). -/

/-- The power of the exact difference v that `smexp` gives. -/
def smexpOf (pick : Nat) (v : Val) : Nat × Flags :=
  match v with
  | .nan _ _ => (fmtNan 0, nvFlag)
  | .inf n => (if n then 0 else fmtMax 0 + 1, 0)
  | .fin n m e =>
    if m = 0 then (0x3F800000, 0)
    else match specialExact? 0x43 0 n m e with
      | some b => (b, 0)
      | none => pickSpecial 0 pick (specialEncl 0x43 n m e).neg (specialWindow 0 (specialBound 0x43 0 m e) (specialEncl 0x43 n m e))

/-- What `smexp` takes the power of: a - u. -/
def smexpDiff (a u : Nat) : Val × Bool := addVal 0 (decodeFloat 0 a) (decodeFloat 0 u).negate

theorem smexpBits_eq {a u : Nat} (ha : (decodeFloat 0 a).isNan = false) (hu : (decodeFloat 0 u).isNan = false) :
    smexpBits a u = smexpOf (Config.special 0x4A a u) (smexpDiff a u).1 := by
  unfold smexpBits smexpDiff
  dsimp only
  rw [ha, hu, Bool.or_self, if_neg Bool.false_ne_true]
  generalize addVal 0 (decodeFloat 0 a) (decodeFloat 0 u).negate = d
  obtain ⟨v, i⟩ := d
  cases v <;> rfl

theorem isNan_eq_false {v : Val} (h : ∀ n sig, v ≠ .nan n sig) : v.isNan = false := by
  cases v with
  | nan n sig => exact absurd rfl (h n sig)
  | inf => rfl
  | fin => rfl

/-- An invalid sum is a NaN. -/
theorem addVal_of_invalid {rnd : Nat} {a b : Val} (h : (addVal rnd a b).2 = true) : ∃ n sig, (addVal rnd a b).1 = .nan n sig := by
  unfold addVal at h ⊢
  split at h
  · cases h
  · cases h
  next x y =>
    split at h
    · cases h
    next hne => exact ⟨false, false, by rw [if_neg hne]⟩
  · cases h
  · cases h
  · dsimp only at h
    split_ifs at h

theorem smexpOf_exact {m b : Nat} {n : Bool} {k : Int} (hm : m ≠ 0) (hb : specialExact? 0x43 0 n m k = some b) (pick : Nat) :
    smexpOf pick (.fin n m k) = (b, 0) := by
  simp only [smexpOf, hm, if_false, hb]

theorem smexpOf_inexact {m : Nat} {n : Bool} {k : Int} (hm : m ≠ 0) (hb : specialExact? 0x43 0 n m k = none) (pick : Nat) :
    chosenWithin 0 0x43 n m k (smexpOf pick (.fin n m k)) := by
  simp only [smexpOf, hm, if_false, hb]
  exact pickSpecial_chosenWithin 0 0x43 pick n m k

theorem smexpOf_of_pair {t m p : Nat} {n : Bool} {k : Int} (ht : t = 0) (hm : m ≠ 0) (hp : p < 2 ^ typeWidth t)
    (hpair : exactPair 0x43 (finRat n m k) (patRat t p)) (pick : Nat) : smexpOf pick (.fin n m k) = (p, 0) := by
  subst ht
  exact smexpOf_exact hm (specialExact?_of_pair rfl hp hm hpair) pick

theorem smexpOf_of_no_pair {t m : Nat} {n : Bool} {k : Int} (ht : t = 0) (hm : m ≠ 0)
    (hpair : ∀ p, ¬exactPair 0x43 (finRat n m k) (patRat t p)) (pick : Nat) : chosenWithin t 0x43 n m k (smexpOf pick (.fin n m k)) := by
  subst ht
  exact smexpOf_inexact hm (Option.eq_none_iff_forall_ne_some.2 fun b hb =>
    hpair b (pair_of_specialExact? rfl hm (fun _ => by decide) (by decide) hb)) pick

theorem smexpOf_lt (pick : Nat) (v : Val) : (smexpOf pick v).1 < 2 ^ typeWidth 0 := by
  cases v with
  | nan => exact (by decide : fmtNan 0 < 2 ^ typeWidth 0)
  | inf n =>
    cases n
    · exact (by decide : fmtMax 0 + 1 < 2 ^ typeWidth 0)
    · exact Nat.two_pow_pos _
  | fin n m k =>
    rcases eq_or_ne m 0 with rfl | hm
    · exact (by decide : 0x3F800000 < 2 ^ typeWidth 0)
    · rcases hb : specialExact? 0x43 0 n m k with _ | b
      · exact chosenWithin_lt rfl (smexpOf_inexact hm hb pick)
      · rw [smexpOf_exact hm hb]
        exact specialExact?_lt rfl hb

theorem smexpBits_lt (a u : Nat) : (smexpBits a u).1 < 2 ^ typeWidth 0 := by
  rcases hnan : (decodeFloat 0 a).isNan || (decodeFloat 0 u).isNan with _ | _
  · obtain ⟨ha, hu⟩ := Bool.or_eq_false_iff.1 hnan
    rw [smexpBits_eq ha hu]
    exact smexpOf_lt _ _
  · rw [smexpBits, if_pos hnan]
    exact (by decide : fmtNan 0 < 2 ^ typeWidth 0)

end Sys2Proof.Machine
end

section
/-! PROOFS. The square root, rounded once (R134, R135). -/

namespace Sys2Proof.Machine

/-! The root with its sticky bit (R135). -/

/-- The significand that stands for the root of m 2^e: 120 bits below the root's integer part, and the sticky bit. -/
def rootSig (m : Nat) (e : Int) : Nat :=
  let mm := m * 2 ^ (e % 2).toNat * 2 ^ 240
  2 * Nat.sqrt mm + (if Nat.sqrt mm * Nat.sqrt mm = mm then 0 else 1)

/-- The place of the sticky bit. -/
def rootExp (e : Int) : Int := (e - e % 2) / 2 - 121

theorem sqrtVal_eq (m : Nat) (e : Int) : sqrtVal m e = .fin false (rootSig m e) (rootExp e) := rfl

/-- The value that is rounded for the root. -/
def rootApprox (m : Nat) (e : Int) : ℚ := rootSig m e * 2 ^ rootExp e

/-- A multiple of the place above the sticky bit. -/
def onRootGrid (e : Int) (y : ℚ) : Prop := ∃ j : Nat, y = j * 2 ^ (rootExp e + 1)

theorem onRootGrid_mul_zpow {e z : Int} (h : rootExp e + 1 ≤ z) (k : Nat) : onRootGrid e (k * 2 ^ z) := by
  obtain ⟨d, hd⟩ := Int.le.dest h
  refine ⟨k * 2 ^ d, ?_⟩
  rw [← hd, zpow_add₀ two_ne_zero, zpow_natCast]
  push_cast
  ring

theorem rootSig_ge {m : Nat} (hm : m ≠ 0) (e : Int) : 2 ^ 121 ≤ rootSig m e := by
  have hroot : 2 ^ 120 ≤ Nat.sqrt (m * 2 ^ (e % 2).toNat * 2 ^ 240) := by
    refine Nat.le_sqrt.2 ?_
    rw [← pow_add]
    exact Nat.le_mul_of_pos_left _ (Nat.mul_pos (Nat.pos_of_ne_zero hm) (Nat.two_pow_pos _))
  unfold rootSig
  dsimp only
  omega

theorem rootSig_ne_zero {m : Nat} (hm : m ≠ 0) (e : Int) : rootSig m e ≠ 0 := ((Nat.two_pow_pos 121).trans_le (rootSig_ge hm e)).ne'

/-- An integer against the root with its sticky bit is that integer's square against the operand. -/
theorem two_mul_compare_sticky (mm j : Nat) :
    let c := 2 * Nat.sqrt mm + (if Nat.sqrt mm * Nat.sqrt mm = mm then 0 else 1)
    (2 * j ≤ c ↔ j * j ≤ mm) ∧ (c ≤ 2 * j ↔ mm ≤ j * j) := by
  have hle : Nat.sqrt mm * Nat.sqrt mm ≤ mm := Nat.sqrt_le mm
  have hsqrt := Nat.le_sqrt (m := j) (n := mm)
  intro c
  constructor
  · rw [← hsqrt]
    simp only [c]
    split <;> omega
  · simp only [c]
    split
    next hexact =>
      have hmono := Nat.mul_self_le_mul_self_iff (m := Nat.sqrt mm) (n := j)
      rw [hexact] at hmono
      omega
    next hne =>
      have hlt : Nat.sqrt mm < j ↔ mm < j * j := Nat.sqrt_lt
      have hj : j * j ≠ mm := by
        rintro rfl
        exact hne (by rw [Nat.sqrt_eq])
      omega

/-- On the grid the rounded value compares as the root does. -/
theorem root_compare {m : Nat} {e : Int} {y : ℚ} (hy : onRootGrid e y) :
    (y ≤ rootApprox m e ↔ y ^ 2 ≤ m * 2 ^ e) ∧ (rootApprox m e ≤ y ↔ m * 2 ^ e ≤ y ^ 2) := by
  obtain ⟨j, rfl⟩ := hy
  have hpos := zpow_two_pos (rootExp e)
  have hpos2 : (0 : ℚ) < (2 ^ (rootExp e + 1)) ^ 2 := pow_pos (zpow_two_pos _) 2
  have hgrid : (j : ℚ) * 2 ^ (rootExp e + 1) = ((2 * j : Nat) : ℚ) * 2 ^ rootExp e := by
    rw [zpow_add_one₀ two_ne_zero]
    push_cast
    ring
  have hval : (m : ℚ) * 2 ^ e = ((m * 2 ^ (e % 2).toNat * 2 ^ 240 : Nat) : ℚ) * (2 ^ (rootExp e + 1)) ^ 2 := by
    have hexp : e = ((e % 2).toNat : Int) + 240 + (rootExp e + 1 + (rootExp e + 1)) := by unfold rootExp; omega
    have hsplit : (2 : ℚ) ^ e = 2 ^ (e % 2).toNat * 2 ^ 240 * (2 ^ (rootExp e + 1) * 2 ^ (rootExp e + 1)) := by
      rw [← zpow_add₀ two_ne_zero, ← zpow_natCast, ← zpow_natCast, ← zpow_add₀ two_ne_zero, ← zpow_add₀ two_ne_zero]
      exact congrArg _ hexp
    rw [hsplit]
    push_cast
    ring
  have hsquare : ((j : ℚ) * 2 ^ (rootExp e + 1)) ^ 2 = ((j * j : Nat) : ℚ) * (2 ^ (rootExp e + 1)) ^ 2 := by
    push_cast
    ring
  obtain ⟨hle, hge⟩ := two_mul_compare_sticky (m * 2 ^ (e % 2).toNat * 2 ^ 240) j
  rw [hsquare, hval, mul_le_mul_iff_left₀ hpos2, mul_le_mul_iff_left₀ hpos2, rootApprox, hgrid, mul_le_mul_iff_left₀ hpos,
    mul_le_mul_iff_left₀ hpos, Nat.cast_le, Nat.cast_le, Nat.cast_le, Nat.cast_le]
  exact ⟨hle, hge⟩

theorem root_eq_iff {m : Nat} {e : Int} {y : ℚ} (hy : onRootGrid e y) : y ^ 2 = m * 2 ^ e ↔ y = rootApprox m e := by
  obtain ⟨hle, hge⟩ := root_compare (m := m) hy
  rw [le_antisymm_iff, le_antisymm_iff, hle, hge]

/-! The rounded root in steps (R91). -/

def rootPlace (t m : Nat) (e : Int) : Int := lastPlace t (rootSig m e) (rootExp e)

/-- The root in units of its last place. -/
def rootScaled (t m : Nat) (e : Int) : ℚ := rootSig m e * 2 ^ (rootExp e - rootPlace t m e)

def rootRound (t rnd m : Nat) (e : Int) : Nat := roundShift rnd false (rootSig m e) (rootExp e - rootPlace t m e)

def rootSteps (t rnd m : Nat) (e : Int) : Nat := roundSteps t rnd false (rootSig m e) (rootExp e)

theorem rootApprox_eq (t m : Nat) (e : Int) : rootApprox m e = rootScaled t m e * 2 ^ rootPlace t m e := by
  rw [rootApprox, rootScaled, mul_assoc, ← zpow_add₀ two_ne_zero, sub_add_cancel]

theorem magRat_rootSteps (t rnd : Nat) {m : Nat} (hm : m ≠ 0) (e : Int) :
    magRat t (rootSteps t rnd m e) = rootRound t rnd m e * 2 ^ rootPlace t m e :=
  magRat_roundSteps t rnd false (rootSig_ne_zero hm e) (rootExp e)

theorem rootPlace_ge {t m : Nat} (h : isF t = true) (hm : m ≠ 0) (e : Int) : rootExp e + 2 ≤ rootPlace t m e := by
  have hlog : 121 ≤ Nat.log2 (rootSig m e) := (Nat.le_log2 (rootSig_ne_zero hm e)).2 (rootSig_ge hm e)
  have hmant : fmtMant t ≤ 23 := by rcases isF_cases h with rfl | rfl | rfl <;> decide
  exact le_trans (by omega) (le_max_left _ _)

theorem rootSteps_grid {t m : Nat} (h : isF t = true) (hm : m ≠ 0) (e : Int) (rnd : Nat) : onRootGrid e (magRat t (rootSteps t rnd m e)) := by
  rw [magRat_rootSteps t rnd hm e]
  exact onRootGrid_mul_zpow (by have := rootPlace_ge h hm e; omega) _

/-- The root of a value of the format is normal. -/
theorem rootScaled_ge {t m : Nat} (h : isF t = true) (hm : m ≠ 0) {e : Int} (he : fmtMinExp t ≤ e) : (2 : ℚ) ^ fmtMant t ≤ rootScaled t m e := by
  obtain ⟨-, hplace | hlead⟩ := scaled_lastPlace (t := t) (rootSig_ne_zero hm e) (rootExp e)
  · have hsig : (2 : ℚ) ^ (121 : Nat) ≤ rootSig m e := by exact_mod_cast rootSig_ge hm e
    have hmin : (fmtMant t : Int) ≤ 121 + (rootExp e - fmtMinExp t) := by
      unfold rootExp
      rcases isF_cases h with rfl | rfl | rfl <;> simp [fmtMinExp, fmtBias, fmtMant] at he ⊢ <;> omega
    rw [rootScaled, rootPlace, hplace]
    calc (2 : ℚ) ^ fmtMant t ≤ 2 ^ (121 + (rootExp e - fmtMinExp t)) := by
          rw [← zpow_natCast]
          exact zpow_mono hmin
      _ = 2 ^ (121 : Nat) * 2 ^ (rootExp e - fmtMinExp t) := by
          rw [zpow_add₀ two_ne_zero]
          norm_num
      _ ≤ _ := mul_le_mul_of_nonneg_right hsig (zpow_two_pos _).le
  · exact hlead

theorem rootScaled_lt (t : Nat) {m : Nat} (hm : m ≠ 0) (e : Int) : rootScaled t m e < 2 ^ (fmtMant t + 1) :=
  (scaled_lastPlace (rootSig_ne_zero hm e) (rootExp e)).1

/-- A rounding is the integer below or at a value, or the one above a value that is no integer. -/
theorem roundShift_bounds (rnd : Nat) (neg : Bool) (m : Nat) (sh : Int) :
    (m : ℚ) * 2 ^ sh - 1 < roundShift rnd neg m sh ∧ (roundShift rnd neg m sh : ℚ) < m * 2 ^ sh + 1 ∧
      (shiftLost m sh = true ↔ (roundShift rnd neg m sh : ℚ) ≠ m * 2 ^ sh) := by
  have hsum := shiftNat_add_fract m sh
  have hnonneg := Int.fract_nonneg ((m : ℚ) * 2 ^ sh)
  have hlt := Int.fract_lt_one ((m : ℚ) * 2 ^ sh)
  cases hlost : shiftLost m sh with
  | false =>
    rw [roundShift_exact hlost, shiftNat_of_not_lost hlost]
    simp
  | true =>
    have hpos : 0 < Int.fract ((m : ℚ) * 2 ^ sh) := lt_of_le_of_ne hnonneg ((shiftLost_iff m sh).1 hlost).symm
    rcases roundShift_floor_or_succ rnd neg m sh with hr | hr <;> rw [hr] <;> push_cast
    · exact ⟨by linarith, by linarith, by simpa using (by linarith : (shiftNat m sh : ℚ) < m * 2 ^ sh).ne⟩
    · exact ⟨by linarith, by linarith, by simpa using (by linarith : (m : ℚ) * 2 ^ sh < shiftNat m sh + 1).ne'⟩

theorem exists_rootSteps (t rnd m : Nat) (e : Int) : ∃ d : Nat, fmtMinExp t + d = rootPlace t m e ∧ rootSteps t rnd m e = d * 2 ^ fmtMant t + rootRound t rnd m e := by
  obtain ⟨d, hd⟩ := Int.le.dest (fmtMinExp_le_lastPlace t (rootSig m e) (rootExp e))
  refine ⟨d, hd, ?_⟩
  rw [rootSteps, roundSteps, stepsOf, show (lastPlace t (rootSig m e) (rootExp e) - fmtMinExp t).toNat = d by omega]
  rfl

section Root
variable {t m : Nat} {e : Int} (h : isF t = true) (hm : m ≠ 0) (he : fmtMinExp t ≤ e) (rnd : Nat)
include h hm he

theorem rootRound_bounds : 2 ^ fmtMant t ≤ rootRound t rnd m e ∧ rootRound t rnd m e ≤ 2 ^ (fmtMant t + 1) := by
  obtain ⟨hlow, hhigh, -⟩ := roundShift_bounds rnd false (rootSig m e) (rootExp e - rootPlace t m e)
  have hge : (2 : ℚ) ^ fmtMant t ≤ rootSig m e * 2 ^ (rootExp e - rootPlace t m e) := rootScaled_ge h hm he
  have hlt : (rootSig m e : ℚ) * 2 ^ (rootExp e - rootPlace t m e) < 2 ^ (fmtMant t + 1) := rootScaled_lt t hm e
  constructor
  · refine Nat.lt_add_one_iff.1 ?_
    have : ((2 ^ fmtMant t : Nat) : ℚ) < ((rootRound t rnd m e + 1 : Nat) : ℚ) := by
      push_cast
      unfold rootRound
      linarith
    exact_mod_cast this
  · refine Nat.lt_add_one_iff.1 ?_
    have : ((rootRound t rnd m e : Nat) : ℚ) < ((2 ^ (fmtMant t + 1) + 1 : Nat) : ℚ) := by
      push_cast
      unfold rootRound
      linarith
    exact_mod_cast this

theorem two_pow_le_rootSteps : 2 ^ fmtMant t ≤ rootSteps t rnd m e := by
  obtain ⟨d, -, hsteps⟩ := exists_rootSteps t rnd m e
  obtain ⟨hlow, -⟩ := rootRound_bounds h hm he rnd
  rw [hsteps]
  exact hlow.trans (Nat.le_add_left _ _)

/-- The next pattern is at least one unit of the last place above. -/
theorem le_magRat_rootSteps_succ : ((rootRound t rnd m e : ℚ) + 1) * 2 ^ rootPlace t m e ≤ magRat t (rootSteps t rnd m e + 1) := by
  obtain ⟨d, hd, hsteps⟩ := exists_rootSteps t rnd m e
  obtain ⟨hlow, hhigh⟩ := rootRound_bounds h hm he rnd
  rw [hsteps, ← hd]
  rcases hhigh.lt_or_eq with hlt | heq
  · rw [Nat.add_assoc, magRat_steps t d _ hlt (.inr (hlow.trans (Nat.le_succ _)))]
    push_cast
    exact le_rfl
  · have hpow : 2 ^ fmtMant t + 1 ≤ 2 ^ (fmtMant t + 1) := by
      rw [Nat.pow_succ]
      have := Nat.two_pow_pos (fmtMant t)
      omega
    have hcarry : d * 2 ^ fmtMant t + rootRound t rnd m e + 1 = (d + 1) * 2 ^ fmtMant t + (2 ^ fmtMant t + 1) := by
      rw [heq]
      ring
    have hexp : fmtMinExp t + ((d + 1 : Nat) : Int) = fmtMinExp t + d + 1 := by push_cast; ring
    rw [hcarry, magRat_steps t (d + 1) _ hpow (.inr (Nat.le_succ _)), hexp, zpow_add_one₀ two_ne_zero, heq]
    have := zpow_two_pos (fmtMinExp t + d)
    push_cast
    rw [pow_succ]
    nlinarith

/-- The pattern before is one unit of the last place below, or the rounded root is a power of two, which no rounding has raised. -/
theorem magRat_rootSteps_pred :
    (rootRound t rnd m e = 2 ^ fmtMant t) ∨
      magRat t (rootSteps t rnd m e - 1) = ((rootRound t rnd m e - 1 : Nat) : ℚ) * 2 ^ rootPlace t m e := by
  obtain ⟨d, hd, hsteps⟩ := exists_rootSteps t rnd m e
  obtain ⟨hlow, hhigh⟩ := rootRound_bounds h hm he rnd
  rcases hlow.eq_or_lt with heq | hlt
  · exact .inl heq.symm
  · right
    rw [hsteps, Nat.add_sub_assoc (by omega), magRat_steps t d _ (by omega) (.inr (by omega)), hd]

/-- The root of a finite value is far below the largest one. -/
theorem rootSteps_lt (hmax : (m : ℚ) * 2 ^ e < 2 ^ ((fmtBias t : Int) + 1)) : rootSteps t rnd m e + 1 ≤ fmtMax t := by
  obtain ⟨hlow, hhigh, -⟩ := roundShift_bounds rnd false (rootSig m e) (rootExp e - rootPlace t m e)
  obtain ⟨H, hH, hH1⟩ : ∃ H : Nat, fmtBias t + 1 = H + H ∧ H + 2 ≤ fmtBias t := by
    rcases isF_cases h with rfl | rfl | rfl
    · exact ⟨64, rfl, by decide⟩
    · exact ⟨64, rfl, by decide⟩
    · exact ⟨8, rfl, by decide⟩
  have hgrid : rootExp e + 1 ≤ H := by
    have hone : (1 : ℚ) ≤ m := by exact_mod_cast Nat.one_le_iff_ne_zero.2 hm
    have := lt_of_zpow_lt ((le_mul_of_one_le_left (zpow_two_pos e).le hone).trans_lt hmax)
    unfold rootExp
    omega
  have hroot : rootApprox m e < 2 ^ (H : Int) := by
    have hy : onRootGrid e (2 ^ (H : Int)) := by simpa using onRootGrid_mul_zpow hgrid 1
    refine not_le.1 fun hle => hmax.not_ge ?_
    have := (root_compare hy).1.1 hle
    rw [pow_two, ← zpow_add₀ two_ne_zero] at this
    rwa [show (fmtBias t : Int) + 1 = H + H by omega]
  have hscaled := rootScaled_ge h hm he
  have hval : magRat t (rootSteps t rnd m e) < 2 ^ ((H : Int) + 1) := by
    rw [magRat_rootSteps t rnd hm e, zpow_add_one₀ two_ne_zero]
    have hround : (rootRound t rnd m e : ℚ) ≤ 2 * rootScaled t m e := by
      have : (1 : ℚ) ≤ 2 ^ fmtMant t := one_le_pow₀ one_le_two
      unfold rootRound
      unfold rootScaled at hscaled ⊢
      linarith
    have := mul_le_mul_of_nonneg_right hround (zpow_two_pos (rootPlace t m e)).le
    rw [mul_assoc, ← rootApprox_eq] at this
    linarith
  have hlast : (2 : ℚ) ^ (fmtBias t : Int) = magRat t ((2 * fmtBias t - 1) * 2 ^ fmtMant t + 2 ^ fmtMant t) := by
    rw [magRat_steps _ _ _ (Nat.pow_le_pow_right two_pos (Nat.le_succ _)) (.inr le_rfl)]
    push_cast
    rw [← zpow_natCast, ← zpow_add₀ two_ne_zero]
    congr 1
    unfold fmtMinExp
    omega
  have hlt : rootSteps t rnd m e < (2 * fmtBias t - 1) * 2 ^ fmtMant t + 2 ^ fmtMant t := by
    refine (magRat_strictMono t).lt_iff_lt.1 (hval.trans_le ?_)
    rw [← hlast]
    exact zpow_mono (by omega)
  refine hlt.trans_le ?_
  rcases isF_cases h with rfl | rfl | rfl <;> decide

/-! The root's roundings (R100) against the operand. -/

/-- The status of the root: NX where it is not the exact one. -/
theorem root_status : roundStatus t (rootSteps t rnd m e) (shiftLost (rootSig m e) (rootExp e - rootPlace t m e)) =
    if magRat t (rootSteps t rnd m e) ^ 2 = m * 2 ^ e then 0 else nxFlag := by
  obtain ⟨-, -, hlost⟩ := roundShift_bounds rnd false (rootSig m e) (rootExp e - rootPlace t m e)
  have hnormal := two_pow_le_rootSteps h hm he rnd
  have hexact : magRat t (rootSteps t rnd m e) ^ 2 = m * 2 ^ e ↔ shiftLost (rootSig m e) (rootExp e - rootPlace t m e) = false := by
    rw [root_eq_iff (rootSteps_grid h hm e rnd), ← Bool.not_eq_true, hlost, not_not, magRat_rootSteps t rnd hm e, rootApprox_eq t,
      mul_left_inj' (zpow_two_pos _).ne']
    rfl
  unfold roundStatus
  rw [if_neg (not_lt.2 hnormal)]
  split
  next hinexact => rw [if_neg (by simp [hexact, hinexact])]
  next hinexact => rw [if_pos (hexact.2 (by simpa using hinexact))]

/-- No rounding has raised a root that is a power of two. -/
theorem root_sq_le_of_lead (hlead : rootRound t rnd m e = 2 ^ fmtMant t) : magRat t (rootSteps t rnd m e) ^ 2 ≤ m * 2 ^ e := by
  have hscaled := rootScaled_ge h hm he
  refine (root_compare (rootSteps_grid h hm e rnd)).1.1 ?_
  rw [magRat_rootSteps t rnd hm e, rootApprox_eq t, hlead]
  push_cast
  exact mul_le_mul_of_nonneg_right hscaled (zpow_two_pos _).le

/-- To nearest the root lies between the middles of the steps around its pattern. -/
theorem root_nearest : ((magRat t (rootSteps t 0 m e - 1) + magRat t (rootSteps t 0 m e)) / 2) ^ 2 ≤ m * 2 ^ e ∧
    (m : ℚ) * 2 ^ e ≤ ((magRat t (rootSteps t 0 m e) + magRat t (rootSteps t 0 m e + 1)) / 2) ^ 2 := by
  have hq := rootPlace_ge h hm e
  have hunit : (2 : ℚ) ^ rootPlace t m e = 2 ^ (rootPlace t m e - 1) * 2 := by rw [← zpow_add_one₀ two_ne_zero, sub_add_cancel]
  have hpos := zpow_two_pos (rootPlace t m e)
  obtain ⟨hlow, hhigh⟩ := abs_le.1 (roundShift_nearest_within_half false (rootSig m e) (rootExp e - rootPlace t m e))
  change -(1 / 2) ≤ (rootRound t 0 m e : ℚ) - rootScaled t m e at hlow
  change (rootRound t 0 m e : ℚ) - rootScaled t m e ≤ 1 / 2 at hhigh
  have hsteps := magRat_rootSteps t 0 hm e
  constructor
  · rcases magRat_rootSteps_pred h hm he 0 with hlead | hpred
    · have hnonneg := magRat_nonneg t (rootSteps t 0 m e - 1)
      have hmono := (magRat_strictMono t).monotone (Nat.sub_le (rootSteps t 0 m e) 1)
      exact (pow_le_pow_left₀ (by linarith) (by linarith) 2).trans (root_sq_le_of_lead h hm he 0 hlead)
    · obtain ⟨k, hk⟩ : ∃ k, rootRound t 0 m e = k + 1 :=
        Nat.exists_eq_succ_of_ne_zero ((Nat.two_pow_pos _).trans_le (rootRound_bounds h hm he 0).1).ne'
      rw [hk] at hhigh hpred hsteps
      have hmid : (magRat t (rootSteps t 0 m e - 1) + magRat t (rootSteps t 0 m e)) / 2 = ((2 * k + 1 : Nat) : ℚ) * 2 ^ (rootPlace t m e - 1) := by
        rw [hpred, hsteps, hunit, Nat.add_sub_cancel]
        push_cast
        ring
      have hgrid := onRootGrid_mul_zpow (e := e) (z := rootPlace t m e - 1) (by omega) (2 * k + 1)
      rw [hmid]
      refine (root_compare hgrid).1.1 ?_
      rw [rootApprox_eq t, hunit]
      have : ((2 * k + 1 : Nat) : ℚ) ≤ rootScaled t m e * 2 := by push_cast at hhigh ⊢; linarith
      calc _ ≤ rootScaled t m e * 2 * 2 ^ (rootPlace t m e - 1) := mul_le_mul_of_nonneg_right this (zpow_two_pos _).le
        _ = _ := by ring
  · have hgrid := onRootGrid_mul_zpow (e := e) (z := rootPlace t m e - 1) (by omega) (2 * rootRound t 0 m e + 1)
    have hnext := le_magRat_rootSteps_succ h hm he 0
    have hmid : ((2 * rootRound t 0 m e + 1 : Nat) : ℚ) * 2 ^ (rootPlace t m e - 1) ≤
        (magRat t (rootSteps t 0 m e) + magRat t (rootSteps t 0 m e + 1)) / 2 := by
      rw [hsteps]
      rw [hunit] at hnext ⊢
      push_cast
      linarith
    refine ((root_compare hgrid).2.1 ?_).trans (pow_le_pow_left₀ (by positivity) hmid 2)
    rw [rootApprox_eq t, hunit]
    have : rootScaled t m e * 2 ≤ ((2 * rootRound t 0 m e + 1 : Nat) : ℚ) := by push_cast; linarith
    calc _ = rootScaled t m e * 2 * 2 ^ (rootPlace t m e - 1) := by ring
      _ ≤ _ := mul_le_mul_of_nonneg_right this (zpow_two_pos _).le

/-- Toward zero and down the root lies at its pattern or above, below the next. -/
theorem root_down (hrnd : rnd = 1 ∨ rnd = 3) :
    magRat t (rootSteps t rnd m e) ^ 2 ≤ m * 2 ^ e ∧ (m : ℚ) * 2 ^ e < magRat t (rootSteps t rnd m e + 1) ^ 2 := by
  have hfloor : rootRound t rnd m e = shiftNat (rootSig m e) (rootExp e - rootPlace t m e) := by
    rcases hrnd with rfl | rfl
    · exact roundShift_toZero _ _ _
    · exact roundShift_down _ _ _
  have hpos := zpow_two_pos (rootPlace t m e)
  have hsum : (rootRound t rnd m e : ℚ) + Int.fract (rootScaled t m e) = rootScaled t m e := hfloor ▸ shiftNat_add_fract _ _
  have hnonneg := Int.fract_nonneg (rootScaled t m e)
  have hlt := Int.fract_lt_one (rootScaled t m e)
  constructor
  · refine (root_compare (rootSteps_grid h hm e rnd)).1.1 ?_
    rw [magRat_rootSteps t rnd hm e, rootApprox_eq t]
    exact mul_le_mul_of_nonneg_right (by linarith) hpos.le
  · have hgrid := onRootGrid_mul_zpow (e := e) (z := rootPlace t m e) (by have := rootPlace_ge h hm e; omega) (rootRound t rnd m e + 1)
    have hnext := le_magRat_rootSteps_succ h hm he rnd
    rw [← Nat.cast_add_one] at hnext
    refine lt_of_lt_of_le (not_le.1 fun hle => ?_) (pow_le_pow_left₀ (by positivity) hnext 2)
    have := (root_compare hgrid).1.2 hle
    rw [rootApprox_eq t] at this
    have := le_of_mul_le_mul_right this hpos
    push_cast at this
    linarith

/-- Up the root lies at its pattern or below, above the one before. -/
theorem root_up : magRat t (rootSteps t 2 m e - 1) ^ 2 < m * 2 ^ e ∧ (m : ℚ) * 2 ^ e ≤ magRat t (rootSteps t 2 m e) ^ 2 := by
  have hround : rootRound t 2 m e = shiftNat (rootSig m e) (rootExp e - rootPlace t m e) + (shiftLost (rootSig m e) (rootExp e - rootPlace t m e)).toNat :=
    roundShift_up _ _ _
  have hceil : (rootRound t 2 m e : ℚ) = ⌈rootScaled t m e⌉ := hround ▸ shiftNat_add_lost_eq_ceil _ _
  have hle := Int.le_ceil (rootScaled t m e)
  have hlt := Int.ceil_lt_add_one (rootScaled t m e)
  rw [← hceil] at hle hlt
  have hpos := zpow_two_pos (rootPlace t m e)
  constructor
  · rcases magRat_rootSteps_pred h hm he 2 with hlead | hpred
    · have hnormal := two_pow_le_rootSteps h hm he 2
      have hpow := Nat.two_pow_pos (fmtMant t)
      have hmono := magRat_strictMono t (Nat.sub_lt (hpow.trans_le hnormal) one_pos)
      exact (pow_lt_pow_left₀ hmono (magRat_nonneg _ _) two_ne_zero).trans_le (root_sq_le_of_lead h hm he 2 hlead)
    · obtain ⟨k, hk⟩ : ∃ k, rootRound t 2 m e = k + 1 :=
        Nat.exists_eq_succ_of_ne_zero ((Nat.two_pow_pos _).trans_le (rootRound_bounds h hm he 2).1).ne'
      rw [hk, Nat.add_sub_cancel] at hpred
      have hgrid := onRootGrid_mul_zpow (e := e) (z := rootPlace t m e) (by have := rootPlace_ge h hm e; omega) k
      rw [hpred]
      refine not_le.1 fun hge => ?_
      have := (root_compare hgrid).2.2 hge
      rw [rootApprox_eq t] at this
      have := le_of_mul_le_mul_right this hpos
      rw [hk] at hlt
      push_cast at hlt
      linarith
  · refine (root_compare (rootSteps_grid h hm e 2)).2.1 ?_
    rw [magRat_rootSteps t 2 hm e, rootApprox_eq t]
    exact mul_le_mul_of_nonneg_right hle hpos.le

end Root

/-! The instruction's function (Table 7.5). -/

theorem sqrtBits_fin {t a m : Nat} {e : Int} (ha : decodeFloat t a = .fin false m e) (hm : m ≠ 0) (rnd : Nat) :
    sqrtBits t rnd a = ((roundFloat t rnd false (sqrtVal m e)).bits, (roundFloat t rnd false (sqrtVal m e)).flags) := by
  rw [sqrtBits, ha]
  exact (if_neg hm).trans (if_neg Bool.false_ne_true)

theorem sqrtBits_negative {t a m : Nat} {e : Int} (ha : decodeFloat t a = .fin true m e) (hm : m ≠ 0) (rnd : Nat) :
    sqrtBits t rnd a = (fmtNan t, nvFlag) := by
  rw [sqrtBits, ha]
  exact (if_neg hm).trans (if_pos rfl)

theorem sqrtBits_zero {t a : Nat} {n : Bool} {e : Int} (ha : decodeFloat t a = .fin n 0 e) (rnd : Nat) : sqrtBits t rnd a = (a, 0) := by
  rw [sqrtBits, ha]
  exact if_pos rfl

theorem sqrtBits_inf {t a : Nat} {n : Bool} (ha : decodeFloat t a = .inf n) (rnd : Nat) :
    sqrtBits t rnd a = if n then (fmtNan t, nvFlag) else (a, 0) := by
  rw [sqrtBits, ha]

theorem sqrtBits_nan {t a : Nat} {n sig : Bool} (ha : decodeFloat t a = .nan n sig) (rnd : Nat) :
    sqrtBits t rnd a = (fmtNan t, if sig then nvFlag else 0) := by
  rw [sqrtBits, ha]

/-- The root of a positive value, by its steps. -/
theorem sqrtBits_of_pos {t a : Nat} (h : isF t = true) (rnd : Nat) (ha : 0 < patRat t a) :
    ∃ (m : Nat) (e : Int), m ≠ 0 ∧ fmtMinExp t ≤ e ∧ patRat t a = m * 2 ^ e ∧ rootSteps t rnd m e + 1 ≤ fmtMax t ∧
      sqrtBits t rnd a = (rootSteps t rnd m e, if magRat t (rootSteps t rnd m e) ^ 2 = patRat t a then 0 else nxFlag) := by
  obtain ⟨n, m, e, hd, hm, hval⟩ := decodeFloat_of_patRat_ne_zero ha.ne'
  obtain rfl : n = false := Bool.eq_false_iff.2 fun hn => by
    have := (finRat_neg_iff (n := n) hm e).2 hn
    rw [← hval] at this
    linarith
  have hpat : patRat t a = m * 2 ^ e := by rw [hval, finRat_eq, if_neg Bool.false_ne_true, one_mul]
  obtain ⟨hmax, -, hmag⟩ := patRat_eq_finRat h hm hval
  have he : fmtMinExp t ≤ e := by
    obtain ⟨-, -, -, rfl⟩ := decodeFloat_fin h hd
    exact (magVal_bounds t _).1
  have hlt : (m : ℚ) * 2 ^ e < 2 ^ ((fmtBias t : Int) + 1) := by
    rw [← hmag, ← magRat_infinity h]
    exact magRat_strictMono t (Nat.lt_succ_of_le hmax)
  have hsteps := rootSteps_lt h hm he rnd hlt
  refine ⟨m, e, hm, he, hpat, hsteps, ?_⟩
  obtain ⟨hround, -⟩ := roundFloat_fin h rnd false (rootSig_ne_zero hm e) (rootExp e)
  have hbits := hround ((Nat.le_succ _).trans hsteps)
  rw [sqrtBits_fin hd hm, sqrtVal_eq, hbits, hpat]
  exact Prod.ext (Nat.zero_add _) (root_status h hm he rnd)

theorem patRat_of_le {t k : Nat} (h : isF t = true) (hk : k ≤ fmtMax t) : patRat t k = magRat t k := by
  have := patRat_signBit_add h hk false
  simpa [signBit] using this

/-- The root of a positive value, rounded once (R134): its value and status, to nearest, down and up. -/
theorem sqrtBits_rounds {t a : Nat} (h : isF t = true) (rnd : Nat) (ha : 0 < patRat t a) :
    let r := sqrtBits t rnd a
    0 < patRat t r.1 ∧ r.2 = (if patRat t r.1 ^ 2 = patRat t a then 0 else nxFlag) ∧
      (rnd = 0 → ((patRat t (r.1 - 1) + patRat t r.1) / 2) ^ 2 ≤ patRat t a ∧ patRat t a ≤ ((patRat t r.1 + patRat t (r.1 + 1)) / 2) ^ 2) ∧
      (rnd = 1 ∨ rnd = 3 → patRat t r.1 ^ 2 ≤ patRat t a ∧ patRat t a < patRat t (r.1 + 1) ^ 2) ∧
      (rnd = 2 → patRat t (r.1 - 1) ^ 2 < patRat t a ∧ patRat t a ≤ patRat t r.1 ^ 2) := by
  obtain ⟨m, e, hm, he, hpat, hsteps, hbits⟩ := sqrtBits_of_pos h rnd ha
  have hnormal := two_pow_le_rootSteps h hm he rnd
  have hpow := Nat.two_pow_pos (fmtMant t)
  rw [hbits]
  dsimp only
  rw [patRat_of_le h hsteps, patRat_of_le h (by omega : rootSteps t rnd m e ≤ fmtMax t), patRat_of_le h (by omega : rootSteps t rnd m e - 1 ≤ fmtMax t),
    hpat]
  refine ⟨magRat_pos (by omega), rfl, ?_, root_down h hm he rnd, ?_⟩
  · rintro rfl
    exact root_nearest h hm he
  · rintro rfl
    exact root_up h hm he

theorem sqrtBits_of_neg {t a : Nat} (rnd : Nat) (ha : patRat t a < 0) : sqrtBits t rnd a = (fmtNan t, nvFlag) := by
  obtain ⟨n, m, k, hd, hm, hval⟩ := decodeFloat_of_patRat_ne_zero ha.ne
  rw [hval] at ha
  obtain rfl := (finRat_neg_iff hm k).1 ha
  exact sqrtBits_negative hd hm rnd

theorem sqrtBits_lt {t a : Nat} (h : isF t = true) (rnd : Nat) (ha : a < 2 ^ typeWidth t) : (sqrtBits t rnd a).1 < 2 ^ typeWidth t := by
  obtain ⟨-, hnan⟩ := fmt_bounds h
  have hpair (r : Rounded) (hr : r.bits < 2 ^ typeWidth t) : ((r.bits, r.flags) : Nat × Flags).1 < 2 ^ typeWidth t := hr
  cases hd : decodeFloat t a with
  | nan n sig =>
    rw [sqrtBits_nan hd]
    exact hnan
  | inf n =>
    rw [sqrtBits_inf hd]
    cases n
    · exact ha
    · exact hnan
  | fin n m e =>
    rcases eq_or_ne m 0 with rfl | hm
    · rw [sqrtBits_zero hd]
      exact ha
    · cases n
      · rw [sqrtBits_fin hd hm]
        exact hpair _ (roundFloat_lt h _ _ _)
      · rw [sqrtBits_negative hd hm]
        exact hnan

end Sys2Proof.Machine
end

section
/-! PROOFS. Rounding, exponents and special functions by element (R133 to R137). -/

namespace Sys2Proof.Machine

/-! Results lie in their type. -/

theorem frndBits_lt {t a : Nat} (h : isF t = true) (rnd : Nat) (ha : a < 2 ^ typeWidth t) : (frndBits t rnd a).1 < 2 ^ typeWidth t := by
  unfold frndBits
  cases decodeFloat t a with
  | nan => exact (fmt_bounds h).2
  | inf => exact ha
  | fin => exact roundFloat_lt h _ _ _

theorem fscalebBits_lt {t : Nat} (h : isF t = true) (a b : Nat) : (fscalebBits t a b).1 < 2 ^ typeWidth t := by
  unfold fscalebBits
  dsimp only
  split
  · exact (fmt_bounds h).2
  · exact arith_lt h _ _ _

theorem fgetexpBits_lt {t : Nat} (h : isF t = true) (a : Nat) : (fgetexpBits t a).1 < 2 ^ typeWidth t := by
  unfold fgetexpBits
  cases decodeFloat t a with
  | nan => exact (fmt_bounds h).2
  | inf => simpa [signBit] using infinity_lt h false
  | fin n m k =>
    dsimp only
    split
    · exact infinity_lt h true
    · exact roundFloat_lt h _ _ _

theorem fgetmanBits_lt {t a : Nat} (h : isF t = true) (ha : a < 2 ^ typeWidth t) : (fgetmanBits t a).1 < 2 ^ typeWidth t := by
  unfold fgetmanBits
  cases decodeFloat t a with
  | nan => exact (fmt_bounds h).2
  | inf => exact (fmt_bounds h).2
  | fin n m k =>
    dsimp only
    split
    · exact ha
    · exact roundFloat_lt h _ _ _

theorem ceilBits_lt {a : Nat} (ha : a < 2 ^ typeWidth 0) : ceilBits a < 2 ^ typeWidth 0 := by
  unfold ceilBits
  cases decodeFloat 0 a with
  | nan => exact ha
  | inf => exact ha
  | fin => exact roundFloat_lt rfl _ _ _

theorem smrefBits_lt {a u : Nat} (ha : a < 2 ^ typeWidth 0) (hu : u < 2 ^ typeWidth 0) : (smrefBits a u).1 < 2 ^ typeWidth 0 := by
  unfold smrefBits
  dsimp only
  split
  · exact Nat.two_pow_pos _
  · exact minMaxBits_lt rfl hu (ceilBits_lt ha) _

/-! Equations by operand (R133, Table 7.5). -/

/-- What `fscaleb` gives: the scaled operand rounded once, a NaN for a NaN amount. -/
theorem fscalebBits_eq (t a b : Nat) : fscalebBits t a b =
    let va := decodeFloat t a
    let vb := decodeFloat t b
    if vb.isNan then (fmtNan t, if va.isSnan || vb.isSnan then nvFlag else 0)
    else ((roundFloat t 0 false (scaleVal (scaleAmount vb) va)).bits,
      (roundFloat t 0 false (scaleVal (scaleAmount vb) va)).flags ||| if va.isSnan then nvFlag else 0) := by
  have hor (x y : Flags) : x ||| y ||| (if false then nvFlag else 0) = x ||| y := BitVec.or_zero
  have hquiet {v : Val} (hv : ¬v.isNan) : v.isSnan = false := by
    cases v with
    | nan => exact absurd rfl hv
    | inf => rfl
    | fin => rfl
  dsimp only [fscalebBits, arith]
  split
  · rw [snanFlags_pair]
  next hv => rw [hor, snanFlags_pair, hquiet hv, Bool.or_false]

/-- What `smref` gives (R136): the larger of u and the ceiling of a, a zero as +0. -/
theorem smrefBits_elem {t : Nat} (h : t = 0) (x y : Token) (e : Nat) : smrefBits (x.elem t e) (y.elem t e) =
    let c := match decodeFloat t (x.elem t e) with
      | .fin n m k => (roundFloat t 0 false (.fin n (roundShift 2 n m k) 0)).bits
      | _ => x.elem 0 e
    let r := minMaxBits 0 true (y.elem 0 e) c
    (if r.1 % 2 ^ (typeWidth t - 1) = 0 then 0 else r.1, r.2) := by
  subst h
  rfl

/-- The zeros and the infinities as values. -/
theorem decodeFloat_specials {t : Nat} (h : isF t = true) (n : Bool) :
    decodeFloat t (signBit t n) = .fin n 0 (fmtMinExp t) ∧ decodeFloat t (signBit t n + (fmtMax t + 1)) = .inf n := by
  rcases isF_cases h with rfl | rfl | rfl <;> cases n <;> exact ⟨rfl, rfl⟩

/-- The results of Table 7.5 on +0, -0, +infinity and -infinity. -/
theorem specialBits_specials {t : Nat} (h : isF t = true) :
    let neg := 2 ^ (typeWidth t - 1)
    let inf := fmtMax t + 1
    let bits := fun (n : Bool) (k : Int) => (roundFloat t 0 false (.fin n 1 k)).bits
    let row := fun (op : Nat) => [0, neg, inf, neg + inf].map (specialBits op t)
    row 0x40 = [(inf, dzFlag), (neg + inf, dzFlag), (0, 0), (neg, 0)] ∧
    row 0x41 = [(inf, dzFlag), (neg + inf, dzFlag), (0, 0), (fmtNan t, nvFlag)] ∧
    row 0x43 = [(bits false 0, 0), (bits false 0, 0), (inf, 0), (0, 0)] ∧
    row 0x44 = [(neg + inf, dzFlag), (neg + inf, dzFlag), (inf, 0), (fmtNan t, nvFlag)] ∧
    row 0x45 = [(0, 0), (neg, 0), (bits false 0, 0), (neg + bits false 0, 0)] ∧
    row 0x46 = [(0, 0), (neg, 0), (fmtNan t, nvFlag), (fmtNan t, nvFlag)] ∧
    row 0x47 = [(bits false 0, 0), (bits false 0, 0), (fmtNan t, nvFlag), (fmtNan t, nvFlag)] ∧
    row 0x48 = [(bits false (-1), 0), (bits false (-1), 0), (bits false 0, 0), (0, 0)] := by
  rcases isF_cases h with rfl | rfl | rfl <;> exact ⟨rfl, rfl, rfl, rfl, rfl, rfl, rfl, rfl⟩

theorem sqrtBits_specials {t : Nat} (h : isF t = true) (rnd : Nat) :
    [0, 2 ^ (typeWidth t - 1), fmtMax t + 1, 2 ^ (typeWidth t - 1) + (fmtMax t + 1)].map (sqrtBits t rnd) =
      [(0, 0), (2 ^ (typeWidth t - 1), 0), (fmtMax t + 1, 0), (fmtNan t, nvFlag)] := by
  have hpos := decodeFloat_specials h false
  have hneg := decodeFloat_specials h true
  simp only [signBit, Bool.false_eq_true, if_false, if_true, Nat.zero_add] at hpos hneg
  simp only [List.map_cons, List.map_nil, sqrtBits_zero hpos.1, sqrtBits_zero hneg.1, sqrtBits_inf hpos.2, sqrtBits_inf hneg.2,
    Bool.false_eq_true, if_false, if_true]

/-- Settles O14: the special functions by their operand's value, the root by the value that rounds as it does. -/
theorem floatParts : Obligations.FloatParts := by
  unfold Obligations.FloatParts
  intro w t rnd one ab d nv bits inf neg unit special exactly val within exact' table ht
  have hF : isF t = true := isF_of_le ht
  have hwidth : 2 * neg = 2 ^ typeWidth t := (two_pow_typeWidth t).symm
  have htable (op : Nat) (rs : List (Nat × Flags)) (hrow : [0, neg, inf, neg + inf].map (specialBits op t) = rs) : table op rs := by
    refine ⟨hrow, fun a sig n ha => specialBits_nan ha, fun a ha hop => specialBits_of_neg (t := t) ha hop,
      fun a p hp hpair => specialBits_of_pair hF (hwidth ▸ hp) hpair, ?_,
      fun a n m k ha hm hdom hpair hlog => specialBits_of_no_pair hF ha hm hdom hpair hlog⟩
    rintro a k rfl ha
    exact specialBits_log2_power hF ha
  clear_value table
  have hspecial {i : Instr} {g : StageW → StageIn → StageOut} (op : Nat) (hi : stageFn i = some (w, g)) (hop : (i.op == 0x23) = false)
      (hg : ∀ x, g w x = fl1 w x (specialBits op t)) : stageYields i w one (special op) :=
    fl1_yields _ hi hop hg (fun p _ => specialBits_lt hF op p) fun _ _ => rfl
  obtain ⟨hrcp, hrsq, hexp2, hlog2, htanh, hsin, hcos, hsigm⟩ := specialBits_specials hF
  refine ⟨?frnd, ?fscaleb, ?fgetexp, ?fgetman, hspecial 0x40 rfl rfl fun _ => rfl, htable _ _ hrcp, hspecial 0x41 rfl rfl fun _ => rfl,
    htable _ _ hrsq, ?fsqrt, sqrtBits_specials hF rnd, fun a sig n ha => sqrtBits_nan ha rnd, fun a ha => sqrtBits_of_neg rnd ha,
    fun a ha => sqrtBits_rounds hF rnd ha, hspecial 0x43 rfl rfl fun _ => rfl, htable _ _ hexp2, hspecial 0x44 rfl rfl fun _ => rfl,
    htable _ _ hlog2, hspecial 0x45 rfl rfl fun _ => rfl, htable _ _ htanh, hspecial 0x46 rfl rfl fun _ => rfl, htable _ _ hsin,
    hspecial 0x47 rfl rfl fun _ => rfl, htable _ _ hcos, ⟨hspecial 0x48 rfl rfl fun _ => rfl, htable _ _ hsigm⟩, fun ht0 => ?smref,
    fun ht0 => ⟨?smexp, ?power⟩⟩
  case frnd => exact fl1_yields _ rfl rfl (fun _ => rfl) (fun p hp => frndBits_lt hF rnd hp) fun _ _ => rfl
  case fscaleb => exact fl2_yields _ rfl rfl (fun _ => rfl) (fun p q _ _ => fscalebBits_lt hF p q) fun _ _ => fscalebBits_eq t _ _
  case fgetexp => exact fl1_yields _ rfl rfl (fun _ => rfl) (fun p _ => fgetexpBits_lt hF p) fun _ _ => rfl
  case fgetman => exact fl1_yields _ rfl rfl (fun _ => rfl) (fun p hp => fgetmanBits_lt hF hp) fun _ _ => rfl
  case fsqrt => exact fl1_yields _ rfl rfl (fun _ => rfl) (fun p hp => sqrtBits_lt hF rnd hp) fun _ _ => rfl
  case smref =>
    have hty : w.ty.toNat = 0 := ht0
    have hlt (p q : Nat) (hp : p < 2 ^ typeWidth w.ty.toNat) (hq : q < 2 ^ typeWidth w.ty.toNat) : (smrefBits p q).1 < 2 ^ typeWidth w.ty.toNat := by
      rw [hty] at hp hq ⊢
      exact smrefBits_lt hp hq
    exact fl2_yields _ rfl rfl (fun _ => rfl) hlt fun x e => smrefBits_elem ht0 x.a x.b e
  case smexp =>
    have hty : w.ty.toNat = 0 := ht0
    refine fl2_yields _ rfl rfl (fun _ => rfl) (fun p q _ _ => ?_) fun x e => ?_
    · rw [hty]
      exact smexpBits_lt p q
    · rw [hty]
  case power =>
    intro a u ha hu
    have hbits := smexpBits_eq (isNan_eq_false ha) (isNan_eq_false hu)
    change ((smexpDiff a u).2 = true → _) ∧ (∀ n, (smexpDiff a u).1 = .inf n → _) ∧ ∀ n m k, (smexpDiff a u).1 = .fin n m k → _
    refine ⟨fun hinvalid => ?invalid, fun n hinf => ?infinite, fun n m k hfin => ?finite⟩
    case invalid =>
      obtain ⟨n, sig, hnan⟩ := addVal_of_invalid hinvalid
      exact hbits.trans (congrArg (smexpOf _) hnan)
    case infinite => exact (hbits.trans (congrArg (smexpOf _) hinf)).trans (congrArg (fun t => (if n then 0 else fmtMax t + 1, 0)) ht0.symm)
    case finite =>
      rw [hbits, hfin]
      refine ⟨?_, fun hm => ⟨fun p hp hpair => smexpOf_of_pair ht0 hm (hwidth ▸ hp) hpair _, fun hpair => smexpOf_of_no_pair ht0 hm hpair _⟩⟩
      rintro rfl
      rfl

end Sys2Proof.Machine
end

section
/-! PROOFS. Conversions by part, with the overflow token (R102, R138, R139). -/

namespace Sys2Proof.Machine

/-- A stage that gives a token to each target traps where a bit it raises is enabled, and sends the tokens where none is (R103). -/
theorem stage_sendsTwo_or_traps {i : Instr} {w : StageW} {g : StageW → StageIn → StageOut} (hi : stageFn i = some (w, g))
    (hop : (i.op == 0x23) = false) {s : State} {f : Foc} {ops : List (Nat × Token)} (hr : stageReady i w s f ops)
    (hn : actsNull w.pm.toNat ops = false) {x y : Token} {fl : Flags} (hout : g w (stageReads w f ops) = ⟨some x, some y, fl⟩) :
    (trapsOn f.task.fpen fl = true → stageTraps i s f fl) ∧ (trapsOn f.task.fpen fl = false → stageSends i w s f x y fl) := by
  refine ⟨fun ht => ?_, stage_sends hi (by simpa using hop) hr (by rw [if_neg (by simp [hn]), hout])⟩
  obtain ⟨hf, hr⟩ := hr
  unfold stageReads at hout
  unfold stageTraps
  rw [exec_stage hi]
  unfold fireStage
  simp only [hf, hr, hn, hout, Bool.false_eq_true, if_false]
  exact if_pos ht

/-! Results of Round lie in their type (R100). -/

/-- A sign bit above a magnitude of a floating-point format. -/
theorem signBit_add_lt {t k : Nat} (h : isFloat t = true) (hk : k ≤ fmtMax t ∨ fmtHasInf t = true ∧ k ≤ fmtMax t + 1) (neg : Bool) :
    signBit t neg + k < 2 ^ typeWidth t := by
  have ht : t ≤ 5 := of_decide_eq_true h
  have hsign := signBit_le t neg
  interval_cases t <;> simp [fmtHasInf, fmtMax, typeWidth] at hk hsign ⊢ <;> omega

theorem fmtNan_lt {t : Nat} (h : fmtHasNan t = true) : fmtNan t < 2 ^ typeWidth t := by
  have ht : t ≤ 4 := of_decide_eq_true h
  interval_cases t <;> decide

theorem roundFloat_bits_lt {t : Nat} (h : isFloat t = true) (rnd : Nat) (sat : Bool) (v : Val) :
    (roundFloat t rnd sat v).bits < 2 ^ typeWidth t := by
  have hmax (neg : Bool) : signBit t neg + fmtMax t < 2 ^ typeWidth t := signBit_add_lt h (.inl le_rfl) neg
  have hinf (neg : Bool) (hi : fmtHasInf t = true) : signBit t neg + fmtMax t + 1 < 2 ^ typeWidth t := signBit_add_lt h (.inr ⟨hi, le_rfl⟩) neg
  unfold roundFloat
  cases v with
  | nan neg sig =>
    dsimp only
    split
    next hnan => exact fmtNan_lt hnan
    next => exact hmax neg
  | inf neg =>
    dsimp only
    split
    next hi => exact hinf neg (Bool.and_eq_true_iff.1 hi).1
    next => exact hmax neg
  | fin neg m e =>
    have hpos := Nat.two_pow_pos (typeWidth t)
    dsimp only
    split_ifs
    · exact hpos
    · exact signBit_add_lt h (.inl (Nat.zero_le _)) neg
    · exact hpos
    next hsteps _ => exact signBit_add_lt h (.inl hsteps) neg
    next hi => exact hinf neg (Bool.and_eq_true_iff.1 (Bool.and_eq_true_iff.1 hi).1).1
    · exact hmax neg

theorem roundInt_bits_lt (t rnd : Nat) (v : Val) : (roundInt t rnd v).bits < 2 ^ typeWidth t := by
  unfold roundInt
  cases v with
  | nan => exact wrapTo_lt _ _
  | inf => exact wrapTo_lt _ _
  | fin neg m e =>
    dsimp only
    generalize (if neg then -(roundShift rnd neg m e : Int) else roundShift rnd neg m e) = x
    split <;> exact wrapTo_lt _ _

/-! A mask as a number (R102). -/

theorem packElems_one_eq_sum (f : Nat → Bool) (n : Nat) :
    packElems 1 ((List.range n).map fun l => (f l).toNat) = ((List.range n).map fun l => if f l then 2 ^ l else 0).sum := by
  induction n generalizing f with
  | zero => rfl
  | succ n ih =>
    have hcons (y : Nat) (ys : List Nat) : packElems 1 (y :: ys) = y % 2 ^ 1 + 2 ^ 1 * packElems 1 ys := rfl
    have hfirst : (f 0).toNat % 2 ^ 1 = if f 0 then 2 ^ 0 else 0 := by cases f 0 <;> rfl
    have hrest : (List.range n).map ((fun l => if f l then 2 ^ l else 0) ∘ Nat.succ) =
        (List.range n).map fun l => 2 ^ 1 * if f (l + 1) then 2 ^ l else 0 := by
      refine List.map_congr_left fun l _ => ?_
      rw [Function.comp_apply, Nat.succ_eq_add_one, Nat.pow_succ', mul_ite, Nat.mul_zero, pow_one]
    rw [List.range_succ_eq_map, List.map_cons, List.map_cons, List.sum_cons, List.map_map, List.map_map, hcons, hfirst, hrest,
      List.sum_map_mul_left]
    exact congrArg (fun k => _ + 2 ^ 1 * k) (ih fun l => f (l + 1))

theorem maskOf_toNat (f : Nat → Bool) : (maskOf f).toNat = ((List.range 16).map fun l => if f l then 2 ^ l else 0).sum := by
  have hlt := packElems_lt 1 ((List.range 16).map fun l => (f l).toNat)
  rw [List.length_map, List.length_range] at hlt
  rw [maskOf, BitVec.toNat_ofNat, Nat.mod_eq_of_lt hlt, packElems_one_eq_sum]

/-- The overflow token of lanes (R102). -/
theorem overflowToken_holds {lanes : List Nat} (h : lanes ≠ []) : holdsLanes (overflowToken lanes) (fun l => l == 0)
    fun _ => ((List.range 16).map fun l => if lanes.contains l then 2 ^ l else 0).sum := by
  have hlt : (maskOf fun l => lanes.contains l).toNat < 2 ^ 32 := (maskOf _).isLt.trans (by norm_num)
  rw [overflowToken, if_neg (by simpa using h), ← maskOf_toNat]
  exact oneLane_holds hlt

/-! Elements and the lanes that hold them (R99). -/

/-- A type is one of pairs of lanes, or its lanes hold a whole number of elements each. -/
theorem lane_elems (t : Nat) :
    (is64 t = true ∧ elemsPerToken t = 8) ∨
      (is64 t = false ∧ ∃ n, 0 < n ∧ typeWidth t * n = 32 ∧ 32 / typeWidth t = n ∧ elemsPerToken t = 16 * n) := by
  rcases Nat.lt_or_ge t 15 with h | h
  · interval_cases t <;> simp [is64, elemsPerToken, typeWidth]
  · have h15 : typeWidth t = 32 := by
      unfold typeWidth
      split <;> omega
    have h64 : is64 t = false := by
      simp only [is64, Bool.or_eq_false_iff, beq_eq_false_iff_ne]
      omega
    exact .inr ⟨h64, 1, by simp [elemsPerToken, h15]⟩

theorem mem_elemsOfLane {t e l : Nat} (hl : l < 16) : e ∈ elemsOfLane t l ↔ e < elemsPerToken t ∧ l ∈ lanesOfElem t e := by
  unfold elemsOfLane lanesOfElem
  rcases lane_elems t with ⟨h64, hn⟩ | ⟨h64, n, hpos, hwidth, hdiv, hn⟩
  · simp only [h64, if_true, hn, List.mem_cons, List.not_mem_nil, or_false]
    omega
  · have hlane : e * typeWidth t / 32 = e / n := by
      rw [← hwidth, Nat.mul_comm e, Nat.mul_div_mul_left _ _ (typeWidth_pos t)]
    simp only [h64, Bool.false_eq_true, if_false, hn, hdiv, hlane, List.mem_map, List.mem_range, List.mem_singleton]
    constructor
    · rintro ⟨i, hi, rfl⟩
      refine ⟨?_, ?_⟩
      · calc l * n + i < (l + 1) * n := by rw [Nat.add_mul]; omega
          _ ≤ 16 * n := Nat.mul_le_mul_right n hl
      · rw [Nat.mul_comm, Nat.mul_add_div hpos, Nat.div_eq_of_lt hi, Nat.add_zero]
    · rintro ⟨-, rfl⟩
      exact ⟨e % n, Nat.mod_lt _ hpos, Nat.div_add_mod' e n⟩

theorem lanesOfElem_lt {t e l : Nat} (he : e < elemsPerToken t) (hl : l ∈ lanesOfElem t e) : l < 16 := by
  unfold lanesOfElem at hl
  rcases lane_elems t with ⟨h64, hn⟩ | ⟨h64, n, hpos, hwidth, -, hn⟩
  · simp only [h64, if_true, List.mem_cons, List.not_mem_nil, or_false] at hl
    omega
  · simp only [h64, Bool.false_eq_true, if_false, List.mem_singleton] at hl
    rw [hl, ← hwidth, Nat.mul_comm e, Nat.mul_div_mul_left _ _ (typeWidth_pos t)]
    exact Nat.div_lt_of_lt_mul (by rwa [hn, Nat.mul_comm] at he)

/-- Whether every element that lies in lane l, whole or in half, has the property. -/
def laneAll (t : Nat) (p : Nat → Bool) (l : Nat) : Bool := (List.range (elemsPerToken t)).all fun e => !(lanesOfElem t e).contains l || p e

theorem all_elemsOfLane (t : Nat) (p : Nat → Bool) {l : Nat} (hl : l < 16) : (elemsOfLane t l).all p = laneAll t p l := by
  refine Bool.eq_iff_iff.2 ?_
  simp only [laneAll, List.all_eq_true, mem_elemsOfLane hl, List.mem_range, Bool.or_eq_true, Bool.not_eq_true',
    List.contains_eq_mem, decide_eq_false_iff_not]
  exact ⟨fun h e he => or_iff_not_imp_left.2 fun hc => h e ⟨he, not_not.1 hc⟩, fun h e he => (h e he.1).resolve_left fun hc => hc he.2⟩

theorem maskBit_laneAll (t : Nat) (p : Nat → Bool) {l : Nat} (hl : l < 16) :
    maskBit (maskOf fun l => (elemsOfLane t l).all p) l = laneAll t p l := by
  rw [maskBit_maskOf, decide_eq_true hl, Bool.true_and, all_elemsOfLane t p hl]

/-- An element is valid where its lanes are (R99). -/
theorem elemValid_eq_all (t : Nat) (m : BitVec 16) (e : Nat) : elemValid t m e = (lanesOfElem t e).all (maskBit m) := by
  unfold elemValid lanesOfElem
  split <;> simp

theorem elemValid_laneAll (t : Nat) (p : Nat → Bool) {e : Nat} (he : e < elemsPerToken t) :
    elemValid t (maskOf fun l => (elemsOfLane t l).all p) e = (lanesOfElem t e).all (laneAll t p) := by
  rw [elemValid_eq_all, Bool.eq_iff_iff, List.all_eq_true, List.all_eq_true]
  exact forall₂_congr fun l hl => by rw [maskBit_laneAll t p (lanesOfElem_lt he hl)]

/-! What a conversion takes and gives (R138). -/

/-- Whether the source of element e is valid; filler has none and is valid. -/
def convValid (u : Nat) (src : Nat → Option Nat) (a : Token) (e : Nat) : Bool :=
  match src e with
  | some k => elemValid u a.mask k
  | none => true

/-- What is converted for element e: the source element and its result, where the lanes of e are valid. -/
def convTaken (t u : Nat) (src : Nat → Option Nat) (a : Token) (f : Nat → Rounded) (e : Nat) : Option (Nat × Rounded) :=
  if (lanesOfElem t e).all (laneAll t (convValid u src a)) then (src e).map fun k => (k, f (a.elem u k)) else none

theorem foldl_filterMap_flags {α : Type} (g : α → Option (Nat × Rounded)) (l : List α) (fl : Flags) :
    l.foldl (fun a e => match g e with | some (_, y) => a ||| y.flags | none => a) fl =
      (l.filterMap g).foldl (fun fl r => fl ||| r.2.flags) fl := by
  rw [List.foldl_filterMap]
  congr 1
  funext a e
  cases g e <;> rfl

theorem flatMap_filterMap_out {α β : Type} (g : α → Option (Nat × Rounded)) (h : Nat → List β) (l : List α) :
    (l.flatMap fun e => match g e with | some (k, y) => if y.out then h k else [] | none => []) =
      ((l.filterMap g).filter fun r => r.2.out).flatMap fun r => h r.1 := by
  induction l with
  | nil => rfl
  | cons e l ih =>
    rw [List.flatMap_cons, ih]
    cases hg : g e with
    | none => rw [List.filterMap_cons_none hg]; rfl
    | some r =>
      rw [List.filterMap_cons_some hg]
      cases hr : r.2.out with
      | false => rw [List.filter_cons_of_neg (by simp [hr])]; simp [hr]
      | true => rw [List.filter_cons_of_pos (by simp [hr]), List.flatMap_cons]; simp [hr]

/-- What `convert` makes of element e under a mask: its bits, and what was converted. -/
def convEntry (t u : Nat) (src : Nat → Option Nat) (m : BitVec 16) (a : Token) (f : Nat → Rounded) (e : Nat) : Nat × Option (Nat × Rounded) :=
  match src e with
  | some k => if elemValid t m e then ((f (a.elem u k)).bits, some (k, f (a.elem u k))) else (0, none)
  | none => (0, none)

/-- The mask of a conversion's result: lanes all of whose elements have a valid source. -/
def convMask (t u : Nat) (src : Nat → Option Nat) (a : Token) : BitVec 16 := maskOf fun l => (elemsOfLane t l).all (convValid u src a)

/-- The tokens and the status that `convert` forms from its entries. -/
def convGather (t u : Nat) (m : BitVec 16) (rs : List (Nat × Option (Nat × Rounded))) : StageOut :=
  ⟨some ⟨BitVec.ofNat 512 (packElems (typeWidth t) (rs.map Prod.fst)), m, false⟩,
    some (overflowToken (rs.flatMap fun r => match r.2 with | some (k, y) => if y.out then lanesOfElem u k else [] | none => [])),
    rs.foldl (fun a r => match r.2 with | some (_, y) => a ||| y.flags | none => a) 0⟩

theorem convert_eq (w : StageW) (x : StageIn) (f : Nat → Rounded) {t u : Nat} {src : Nat → Option Nat} (ht : w.ty.toNat = t)
    (hu : w.aux.toNat % 16 = u) (hsrc : convSource t u w.sub.toNat = src) :
    convert w x f = convGather t u (convMask t u src x.a) ((List.range (elemsPerToken t)).map (convEntry t u src (convMask t u src x.a) x.a f)) := by
  subst ht hu hsrc
  rfl

/-- What a conversion packs at element e. -/
def convBits (g : Nat → Option (Nat × Rounded)) (e : Nat) : Nat := ((g e).map fun r => r.2.bits).getD 0

theorem convGather_map (t u : Nat) (m : BitVec 16) (g : Nat → Option (Nat × Rounded)) (l : List Nat) :
    convGather t u m (l.map fun e => (convBits g e, g e)) =
      ⟨some ⟨BitVec.ofNat 512 (packElems (typeWidth t) (l.map (convBits g))), m, false⟩,
        some (overflowToken (((l.filterMap g).filter fun r => r.2.out).flatMap fun r => lanesOfElem u r.1)),
        (l.filterMap g).foldl (fun fl r => fl ||| r.2.flags) 0⟩ := by
  unfold convGather
  rw [List.map_map, List.flatMap_map, List.foldl_map, ← flatMap_filterMap_out, ← foldl_filterMap_flags]
  rfl

theorem convEntry_eq (t u : Nat) (src : Nat → Option Nat) (a : Token) (f : Nat → Rounded) {e : Nat} (he : e < elemsPerToken t) :
    convEntry t u src (convMask t u src a) a f e = (convBits (convTaken t u src a f) e, convTaken t u src a f e) := by
  unfold convEntry convBits convTaken
  rw [convMask, elemValid_laneAll t _ he]
  cases src e with
  | none => simp
  | some k =>
    dsimp only
    split <;> rfl

/-- What a conversion gives: its tokens and its status. -/
theorem convert_spec (w : StageW) (x : StageIn) {f : Nat → Rounded} {t u : Nat} {src : Nat → Option Nat} (ht : w.ty.toNat = t)
    (hu : w.aux.toNat % 16 = u) (hsrc : convSource t u w.sub.toNat = src) (hf : ∀ p, (f p).bits < 2 ^ typeWidth t)
    {taken : List (Nat × Rounded)} (htaken : (List.range (elemsPerToken t)).filterMap (convTaken t u src x.a f) = taken) :
    ∃ y, convert w x f = ⟨some y, some (overflowToken ((taken.filter fun r => r.2.out).flatMap fun r => lanesOfElem u r.1)),
        taken.foldl (fun fl r => fl ||| r.2.flags) 0⟩ ∧
      y.null = false ∧ (∀ l, l < 16 → maskBit y.mask l = laneAll t (convValid u src x.a) l) ∧
      ∀ e, e < elemsPerToken t → y.elem t e = match src e with
        | some k => if (lanesOfElem t e).all (laneAll t (convValid u src x.a)) then (f (x.a.elem u k)).bits else 0
        | none => 0 := by
  have hentries : (List.range (elemsPerToken t)).map (convEntry t u src (convMask t u src x.a) x.a f) =
      (List.range (elemsPerToken t)).map fun e => (convBits (convTaken t u src x.a f) e, convTaken t u src x.a f e) :=
    List.map_congr_left fun e he => convEntry_eq t u src x.a f (List.mem_range.1 he)
  have hconvert := convert_eq w x f ht hu hsrc
  rw [hentries, convGather_map, htaken] at hconvert
  refine ⟨_, hconvert, rfl, fun l hl => maskBit_laneAll t _ hl, fun e he => ?_⟩
  rw [elem_pack _ _ (by simp), List.getD_eq_getElem _ _ (by simpa using he), List.getElem_map, List.getElem_range, convBits, convTaken]
  cases src e with
  | none => simp
  | some k =>
    dsimp only
    split
    · exact Nat.mod_eq_of_lt (hf _)
    · exact Nat.zero_mod _

theorem convSource_eq (t u part : Nat) : convSource t u part = fun e =>
    if typeWidth t < typeWidth u then (if part * elemsPerToken u ≤ e ∧ e < (part + 1) * elemsPerToken u then some (e - part * elemsPerToken u) else none)
    else if typeWidth u < typeWidth t then some (part * elemsPerToken t + e) else some e := by
  funext e
  rw [Nat.succ_mul]
  rfl

/-- The firing of a conversion: the part it sends, and the overflow token. -/
theorem convert_fires {i : Instr} {w : StageW} {g : StageW → StageIn → StageOut} (hi : stageFn i = some (w, g)) (hop : (i.op == 0x23) = false)
    {f : Nat → Rounded} (hg : ∀ x, g w x = convert w x f) {t u : Nat} (ht : w.ty.toNat = t) (hu : w.aux.toNat % 16 = u)
    (hf : ∀ p, (f p).bits < 2 ^ typeWidth t) {src : Nat → Option Nat} (hsrc : convSource t u w.sub.toNat = src) {s : State} {foc : Foc}
    {ops : List (Nat × Token)} (hr : stageReady i w s foc ops) (hn : actsNull w.pm.toNat ops = false) {ok : Nat → Bool}
    (hok : laneAll t (convValid u src (tokAt ops 0)) = ok) {taken : List (Nat × Rounded)}
    (htaken : (List.range (elemsPerToken t)).filterMap (convTaken t u src (tokAt ops 0) f) = taken) {fl : Flags}
    (hfl : taken.foldl (fun fl r => fl ||| r.2.flags) 0 = fl) {out : List Nat}
    (hout : ((taken.filter fun r => r.2.out).flatMap fun r => lanesOfElem u r.1) = out) :
    (trapsOn foc.task.fpen fl = true → stageTraps i s foc fl) ∧ (trapsOn foc.task.fpen fl = false →
      ∃ x y, stageSends i w s foc x y fl ∧ x.null = false ∧ (∀ l, l < 16 → maskBit x.mask l = ok l) ∧
        (∀ e, e < elemsPerToken t → x.elem t e = match src e with
          | some k => if (lanesOfElem t e).all ok then (f ((tokAt ops 0).elem u k)).bits else 0
          | none => 0) ∧
        if out = [] then y = ⟨0, 0, true⟩ else holdsLanes y (fun l => l == 0) fun _ => ((List.range 16).map fun l => if out.contains l then 2 ^ l else 0).sum) := by
  subst hok hfl hout
  obtain ⟨y, hy, hnull, hmask, helems⟩ := convert_spec w (stageReads w foc ops) ht hu hsrc hf htaken
  obtain ⟨htraps, hsends⟩ := stage_sendsTwo_or_traps hi hop hr hn ((hg _).trans hy)
  refine ⟨htraps, fun ht => ⟨y, _, hsends ht, hnull, hmask, helems, ?_⟩⟩
  split
  next hout => exact if_pos (List.isEmpty_iff.2 hout)
  next hout => exact overflowToken_holds hout

/-- The types of a conversion between integers and floating-point (R138). -/
theorem cvt_types {w : StageW} (h : (Instr.cvt w).wf = true) :
    (isFloat w.ty.toNat = true ∧ isInt (w.aux.toNat % 16) = true) ∨ (isInt w.ty.toNat = true ∧ isFloat (w.aux.toNat % 16) = true) := by
  obtain ⟨htype, -⟩ := stageReason_none (op := 0x50) h
  simpa using (Bool.and_eq_true_iff.1 htype).1

theorem cvtf_type {w : StageW} (h : (Instr.cvtf w).wf = true) : isFloat w.ty.toNat = true := by
  obtain ⟨htype, -⟩ := stageReason_none (op := 0x52) h
  exact (Bool.and_eq_true_iff.1 (Bool.and_eq_true_iff.1 (Bool.and_eq_true_iff.1 htype).1).1).1

theorem isInt_of_isFloat {t : Nat} (h : isFloat t = true) : isInt t = false := by
  simp only [isFloat, decide_eq_true_eq] at h
  simp only [isInt, Bool.and_eq_false_iff, decide_eq_false_iff_not]
  omega

/-- An element of `cvt` by the direction of the conversion (R139). -/
theorem convElem_eq {w : StageW} (h : (Instr.cvt w).wf = true) (rnd : Nat) (sat : Bool) (p : Nat) :
    convElem w.ty.toNat (w.aux.toNat % 16) rnd sat p =
      if isInt w.ty.toNat then roundInt w.ty.toNat rnd (decodeFloat (w.aux.toNat % 16) p)
      else roundFloat w.ty.toNat rnd sat (.ofInt (decodeInt (w.aux.toNat % 16) p)) := by
  rcases cvt_types h with ⟨ht, hu⟩ | ⟨ht, hu⟩
  · simp [convElem, decodeElem, isInt_of_isFloat ht, hu]
  · simp [convElem, decodeElem, isInt_of_isFloat hu, ht]

/-- An element of `cvti` (R102, R139). -/
theorem cvtiElem_eq (t u : Nat) (sat : Bool) (p : Nat) :
    cvtiElem t u sat p =
      let v := decodeInt u p
      let inRange := max (intMin t) (min (intMax t) v)
      ⟨wrapTo (typeWidth t) (if sat then inRange else v), 0, decide (inRange ≠ v)⟩ := by
  dsimp only
  rw [decide_not]
  rfl

/-- Settles O15: the part of each conversion by the source of each element, the overflow token by the lanes of what was out of range. -/
theorem conversions : Obligations.Conversions := by
  unfold Obligations.Conversions
  intro w t u part sat source lanes okLane converts
  have hconverts {i : Instr} {g : StageW → StageIn → StageOut} {one : Nat → Rounded} (hi : stageFn i = some (w, g)) (hop : (i.op == 0x23) = false)
      (hg : ∀ x, g w x = convert w x one) (hlt : ∀ p, (one p).bits < 2 ^ typeWidth t) : converts i one := fun s f ops hr hn =>
    convert_fires hi hop hg rfl rfl hlt (convSource_eq t u part) hr hn rfl rfl rfl rfl
  clear_value converts
  refine ⟨fun hwf => hconverts rfl rfl (fun x => congrArg (convert w x) (funext (convElem_eq hwf _ _))) fun p => ?cvt,
    fun _ => hconverts rfl rfl (fun x => congrArg (convert w x) (funext (cvtiElem_eq t u sat))) fun _ => wrapTo_lt _ _,
    fun hwf => hconverts rfl rfl (fun _ => rfl) fun _ => roundFloat_bits_lt (cvtf_type hwf) _ _ _⟩
  case cvt =>
    split
    next => exact roundInt_bits_lt _ _ _
    next ht =>
      obtain ⟨hfloat, -⟩ := (cvt_types hwf).resolve_right fun h => ht h.1
      exact roundFloat_bits_lt hfloat _ _ _

end Sys2Proof.Machine
end

section
/-! PROOFS. The hx4 block instructions (R140 to R142). -/

namespace Sys2Proof.Machine

/-! Numbers placed in a token. -/

/-- A field of a number that is cut above the field. -/
theorem bitsOf_toNat_ofNat {n lo len : Nat} (h : lo + len ≤ n) (x : Nat) : bitsOf (BitVec.ofNat n x).toNat lo len = bitsOf x lo len := by
  refine Nat.eq_of_testBit_eq fun k => ?_
  rw [bitsOf, bitsOf, Nat.testBit_mod_two_pow, Nat.testBit_mod_two_pow, Nat.testBit_shiftRight, Nat.testBit_shiftRight, BitVec.toNat_ofNat,
    Nat.testBit_mod_two_pow]
  by_cases hk : k < len
  · rw [decide_eq_true (show lo + k < n by omega), Bool.true_and]
  · rw [decide_eq_false hk, Bool.false_and, Bool.false_and]

/-- A field of a number that stands alone in block j of width W: its own field there, zero in every other block. -/
theorem bitsOf_mul_two_pow {v W : Nat} (hv : v < 2 ^ W) (j q r len : Nat) (hr : r + len ≤ W) :
    bitsOf (v * 2 ^ (W * j)) (W * q + r) len = if q = j then bitsOf v r len else 0 := by
  refine Nat.eq_of_testBit_eq fun k => ?_
  rw [apply_ite (Nat.testBit · k), bitsOf, bitsOf, Nat.testBit_mod_two_pow, Nat.testBit_mod_two_pow, Nat.testBit_shiftRight, Nat.testBit_shiftRight,
    Nat.zero_testBit]
  by_cases hk : k < len
  · rw [decide_eq_true hk, Bool.true_and, Bool.true_and, Nat.testBit_mul_two_pow]
    rcases lt_trichotomy q j with hlt | rfl | hgt
    · have hbelow : W * q + W ≤ W * j := by rw [← Nat.mul_succ]; exact Nat.mul_le_mul_left W hlt
      rw [if_neg hlt.ne, decide_eq_false (by omega), Bool.false_and]
    · have hindex : W * q + r + k - W * q = r + k := by omega
      rw [if_pos rfl, decide_eq_true (by omega), Bool.true_and, hindex]
    · have habove : W * j + W ≤ W * q := by rw [← Nat.mul_succ]; exact Nat.mul_le_mul_left W hgt
      rw [if_neg hgt.ne', Nat.testBit_lt_two_pow (hv.trans_le (Nat.pow_le_pow_right two_pos (by omega))), Bool.and_false]
  · simp [hk]

/-- Lanes of a token whose data are words from lane 0 on. -/
theorem lane_packWords (xs : List Nat) (m : BitVec 16) (n : Bool) {l : Nat} (hl : l < 16) :
    Token.lane ⟨BitVec.ofNat 512 (packElems 32 xs), m, n⟩ l = xs.getD l 0 % 2 ^ 32 := by
  rw [Token.lane, bitsOf_toNat_ofNat (by omega), Nat.mul_comm, bitsOf_packElems]

/-- The status of the entries that are formed, over those that are not. -/
theorem foldl_or_filter (p : Nat → Bool) (g : Nat → Flags) (ls : List Nat) (fl : Flags) :
    ls.foldl (fun a e => a ||| if p e then g e else 0) fl = (ls.filter p).foldl (fun a e => a ||| g e) fl := by
  induction ls generalizing fl with
  | nil => rfl
  | cons e ls ih =>
    rw [List.foldl_cons, ih]
    cases hp : p e with
    | false => rw [List.filter_cons_of_neg (by simp [hp])]; simp
    | true => rw [List.filter_cons_of_pos hp]; rfl

/-! Scaling (R142). -/

theorem maskBit_and (m n : BitVec 16) (l : Nat) : maskBit (m &&& n) l = (maskBit m l && maskBit n l) := BitVec.getLsbD_and

theorem sideExtra_lt (x : Token) (j : Nat) : sideExtra x j < 256 := bitsOf_lt _ _ 8

theorem blkscaleLane_lt {scale : Nat} (d : Int) : (blkscaleLane scale d).1 < 256 := by
  unfold blkscaleLane
  dsimp only
  split_ifs <;> dsimp only <;> omega

/-- What `blkscale` gives (R142). -/
theorem stBlkscale_spec (w : StageW) (x : StageIn) {ok : Nat → Bool} (hok : ∀ l, maskBit (x.a.mask &&& x.b.mask) l = ok l)
    {scaled : Nat → Nat × Flags} (hscaled : ∀ l, blkscaleLane (sideScale x.a l) (signedOf 32 (x.b.lane l)) = scaled l) :
    ∃ y, stBlkscale w x = .both y (((List.range 4).filter ok).foldl (fun fl l => fl ||| (scaled l).2) 0) ∧ y.null = false ∧
      y.mask = (x.a.mask &&& x.b.mask) ∧ ∀ l, l < 16 → y.lane l = if l < 4 ∧ ok l then (scaled l).1 + 256 * sideExtra x.a l else 0 := by
  have hentry (l : Nat) : (if maskBit (x.a.mask &&& x.b.mask) l then
      (let r := blkscaleLane (sideScale x.a l) (signedOf 32 (x.b.lane l)); (r.1 + 256 * sideExtra x.a l, r.2)) else (0, 0)) =
      (if ok l then (scaled l).1 + 256 * sideExtra x.a l else 0, if ok l then (scaled l).2 else 0) := by
    rw [hok, hscaled]
    split <;> rfl
  have hout : stBlkscale w x = .both ⟨BitVec.ofNat 512 (packElems 32 ((List.range 4).map fun l => if ok l then (scaled l).1 + 256 * sideExtra x.a l else 0)),
      x.a.mask &&& x.b.mask, false⟩ ((List.range 4).foldl (fun fl l => fl ||| if ok l then (scaled l).2 else 0) 0) := by
    unfold stBlkscale
    simp only [hentry, List.map_map, List.foldl_map]
    rfl
  rw [foldl_or_filter] at hout
  refine ⟨_, hout, rfl, rfl, fun l hlane => ?_⟩
  rw [lane_packWords _ _ _ hlane]
  by_cases hl : l < 4
  · rw [List.getD_eq_getElem _ _ (by simpa using hl), List.getElem_map, List.getElem_range]
    by_cases hv : ok l = true
    · have hlt : (scaled l).1 < 256 := hscaled l ▸ blkscaleLane_lt _
      have hextra := sideExtra_lt x.a l
      rw [if_pos hv, if_pos ⟨hl, hv⟩, Nat.mod_eq_of_lt (by omega)]
    · rw [if_neg hv, if_neg fun h => hv h.2, Nat.zero_mod]
  · rw [List.getD_eq_default _ _ (by simpa using hl), if_neg fun h => hl h.1, Nat.zero_mod]

/-! Unpacking (R141). -/

/-- Lane l of an unpacked part: its data lane and its side lane, for a 16-bit type the same for both its elements. -/
def unpackOk (t part : Nat) (x : StageIn) (l : Nat) : Bool :=
  let b := if t = 0 then part / 2 else part
  maskBit x.b.mask b && (if t = 0 then maskBit x.a.mask (4 * b + (16 * (part % 2) + l) / 8) else maskBit x.a.mask (4 * b + l / 4))

theorem unpack_lane {t : Nat} (ht : isF t = true) (part : Nat) (x : StageIn) (l : Nat) :
    ((elemsOfLane t l).all fun e => maskBit x.a.mask (4 * (unpackPlace t part e).1 + (unpackPlace t part e).2 / 8) &&
      maskBit x.b.mask (unpackPlace t part e).1) = unpackOk t part x l := by
  have hlow : l * 2 / 8 = l / 4 := by omega
  have hhigh : (l * 2 + 1) / 8 = l / 4 := by omega
  rcases isF_cases ht with rfl | rfl | rfl
  · simp [elemsOfLane, is64, typeWidth, unpackPlace, unpackOk, Bool.and_comm]
  · simp [elemsOfLane, is64, typeWidth, unpackPlace, unpackOk, List.range_succ, hlow, hhigh, Bool.and_comm]
  · simp [elemsOfLane, is64, typeWidth, unpackPlace, unpackOk, List.range_succ, hlow, hhigh, Bool.and_comm]

theorem elemValid_of_isF {t : Nat} (ht : isF t = true) (m : BitVec 16) (e : Nat) : elemValid t m e = maskBit m (if t = 0 then e else e / 2) := by
  have hhalf : e * 16 / 32 = e / 2 := by omega
  rcases isF_cases ht with rfl | rfl | rfl
  · exact elemValid_lane m e
  · exact congrArg (maskBit m) hhalf
  · exact congrArg (maskBit m) hhalf

theorem isFloat_of_isF {t : Nat} (h : isF t = true) : isFloat t = true := decide_eq_true ((of_decide_eq_true h : t ≤ 2).trans (by decide))

/-- Element e of an unpacked part, decoded and rounded (R141). -/
def unpackElem (t part : Nat) (x : StageIn) (e : Nat) : Rounded :=
  let b := if t = 0 then part / 2 else part
  let i := if t = 0 then 16 * (part % 2) + e else e
  roundFloat t 0 false (decodeHx4 (hx4Code x.a b i) (sideScale x.b b) (sideExtra x.b b))

theorem unpackElem_place (t part : Nat) (x : StageIn) (e : Nat) :
    roundFloat t 0 false (decodeHx4 (hx4Code x.a (unpackPlace t part e).1 (unpackPlace t part e).2) (sideScale x.b (unpackPlace t part e).1)
      (sideExtra x.b (unpackPlace t part e).1)) = unpackElem t part x e := by
  unfold unpackPlace unpackElem
  split <;> rfl

/-- The mask of an unpacked part as the model forms it. -/
def unpackMask (t part : Nat) (x : StageIn) : BitVec 16 := maskOf fun l => (elemsOfLane t l).all fun e =>
  maskBit x.a.mask (4 * (unpackPlace t part e).1 + (unpackPlace t part e).2 / 8) && maskBit x.b.mask (unpackPlace t part e).1

theorem stBlkunpack_eq (w : StageW) (x : StageIn) :
    let t := w.ty.toNat
    let part := w.sub.toNat
    let rs := (List.range (elemsPerToken t)).map fun e =>
      if elemValid t (unpackMask t part x) e then ((unpackElem t part x e).bits, (unpackElem t part x e).flags) else (0, 0)
    stBlkunpack w x = .both ⟨BitVec.ofNat 512 (packElems (typeWidth t) (rs.map Prod.fst)), unpackMask t part x, false⟩
      (rs.foldl (fun a r => a ||| r.2) 0) := by
  simp only [stBlkunpack, unpackElem_place]
  rfl

theorem maskBit_unpackMask {t : Nat} (ht : isF t = true) (part : Nat) (x : StageIn) {l : Nat} (hl : l < 16) :
    maskBit (unpackMask t part x) l = unpackOk t part x l := by
  rw [unpackMask, maskBit_maskOf, decide_eq_true hl, Bool.true_and, unpack_lane ht]

theorem elemValid_unpackMask {t : Nat} (ht : isF t = true) (part : Nat) (x : StageIn) {e : Nat} (he : e < elemsPerToken t) :
    elemValid t (unpackMask t part x) e = unpackOk t part x (if t = 0 then e else e / 2) := by
  have hlane : (if t = 0 then e else e / 2) < 16 := by
    rcases isF_cases ht with rfl | rfl | rfl <;> simp [elemsPerToken, typeWidth] at he ⊢ <;> omega
  rw [elemValid_of_isF ht, maskBit_unpackMask ht part x hlane]

/-- What `blkunpack` gives (R141). -/
theorem stBlkunpack_spec (w : StageW) (x : StageIn) (hF : isF w.ty.toNat = true) :
    let t := w.ty.toNat
    let part := w.sub.toNat
    let ok := fun e => unpackOk t part x (if t = 0 then e else e / 2)
    ∃ y, stBlkunpack w x = .both y (((List.range (elemsPerToken t)).filter ok).foldl (fun fl e => fl ||| (unpackElem t part x e).flags) 0) ∧
      y.null = false ∧ (∀ l, l < 16 → maskBit y.mask l = unpackOk t part x l) ∧
      ∀ e, e < elemsPerToken t → y.elem t e = if ok e then (unpackElem t part x e).bits else 0 := by
  intro t part ok
  have hentries : ((List.range (elemsPerToken t)).map fun e =>
      if elemValid t (unpackMask t part x) e then ((unpackElem t part x e).bits, (unpackElem t part x e).flags) else (0, 0)) =
      (List.range (elemsPerToken t)).map fun e => (if ok e then (unpackElem t part x e).bits else 0, if ok e then (unpackElem t part x e).flags else 0) := by
    refine List.map_congr_left fun e he => ?_
    rw [elemValid_unpackMask hF part x (List.mem_range.1 he)]
    exact (apply_ite₂ Prod.mk (ok e = true) _ 0 _ (0 : Flags)).symm
  have hout := stBlkunpack_eq w x
  dsimp only at hout
  rw [hentries, List.map_map, List.foldl_map] at hout
  dsimp only at hout
  rw [foldl_or_filter] at hout
  refine ⟨_, hout, rfl, fun l hl => maskBit_unpackMask hF part x hl, fun e he => ?_⟩
  rw [elem_pack t _ (by simp), List.getD_eq_getElem _ _ (by simpa using he), List.getElem_map, List.getElem_range, Function.comp_apply]
  split
  · exact Nat.mod_eq_of_lt (roundFloat_bits_lt (isFloat_of_isF hF) _ _ _)
  · exact Nat.zero_mod _

/-! Packing (R140). -/

/-- The source elements of `blkpack` with the port and lane of each, as the statement has them. -/
theorem packSources_eq (u : Nat) (x : StageIn) : packSources u x =
    if u = 0 then (List.range 32).map fun e => (e / 16, e % 16, (if e < 16 then x.a else x.b).elem 0 (e % 16))
      else (List.range 32).map fun e => (0, e / 2, x.a.elem u e) := by
  unfold packSources
  split <;> rfl

theorem packSources_port {u : Nat} {x : StageIn} {q : Nat × Nat × Nat} (hq : q ∈ packSources u x) : q.1 = 0 ∨ u = 0 ∧ q.1 = 1 := by
  unfold packSources at hq
  split at hq
  next hu =>
    rcases List.mem_append.1 hq with h | h <;> obtain ⟨e, -, rfl⟩ := List.mem_map.1 h
    · exact .inl rfl
    · exact .inr ⟨hu, rfl⟩
  next =>
    obtain ⟨e, -, rfl⟩ := List.mem_map.1 hq
    exact .inl rfl

theorem length_packSources (u : Nat) (x : StageIn) : (packSources u x).length = 32 := by
  unfold packSources
  split <;> simp

/-- A block has 32 codes and a SCALE and an EXTRA of one byte each (R95). -/
theorem packBlock_spec (rnd : Nat) (sat : Bool) {xs : List Val} (hxs : xs.length = 32) :
    (packBlock rnd sat xs).codes.length = 32 ∧ (packBlock rnd sat xs).scale < 256 ∧ (packBlock rnd sat xs).extra < 256 := by
  have hscale (amax : Nat × Int) : (blockScale amax + 127).toNat < 256 := by
    unfold blockScale
    split <;> omega
  unfold packBlock
  split
  · exact ⟨List.length_replicate, by decide, by decide⟩
  · dsimp only
    split
    · exact ⟨by simp [hxs], hscale _, Nat.two_pow_pos 8⟩
    · exact ⟨by simp [hxs], hscale _, roundFloat_bits_lt (t := 3) rfl _ _ _⟩

/-- The token that `blkpack` sends to target 0: the codes in part j, or SCALE and EXTRA in lane j of a side token. -/
def packMain (part : Nat) (whole : Bool) (b : Hx4Block) : Token :=
  if part < 4 then rawToken (maskOf fun l => whole || l / 4 != part % 4) (if whole then packElems 4 b.codes * 2 ^ (128 * (part % 4)) else 0)
  else rawToken (maskOf fun l => l < 4 && (whole || l != part % 4)) (if whole then (b.scale + 256 * b.extra) * 2 ^ (32 * (part % 4)) else 0)

/-- The lanes of port p that hold a NaN or an infinity. -/
def packOut (zipped : List ((Nat × Nat × Nat) × Val)) (p : Nat) : List Nat :=
  zipped.filterMap fun q => if q.1.1 = p && !q.2.isFin then some q.1.2.1 else none

/-- The token that `blkpack` sends to target 1. -/
def packOverflow (u : Nat) (whole : Bool) (out : Nat → List Nat) : Token :=
  if !whole || ((out 0).isEmpty && (out 1).isEmpty) then nullToken
  else if u = 0 then laneToken 3#16 fun l => if l ≤ 1 then (maskOf fun k => (out l).contains k).toNat else 0
  else overflowToken (out 0)

theorem stBlkpack_eq (w : StageW) (x : StageIn) :
    let u := w.aux.toNat % 16
    let srcs := packSources u x
    let ok := fun p l => maskBit (if p = 0 then x.a.mask else x.b.mask) l
    let whole := srcs.all fun q => ok q.1 q.2.1
    let vals := srcs.map fun q => if ok q.1 q.2.1 then decodeFloat u q.2.2 else .fin false 0 0
    let b := packBlock w.rnd.toNat (w.sat = 1#1) vals
    stBlkpack w x = ⟨some (packMain w.sub.toNat whole b), some (packOverflow u whole (packOut (srcs.zip vals))),
      if whole then packStatus (w.sat = 1#1) vals b else 0⟩ := rfl

theorem elem_rawToken (m : BitVec 16) (x : Nat) {t e : Nat} (he : e < elemsPerToken t) :
    (rawToken m x).elem t e = bitsOf x (e * typeWidth t) (typeWidth t) := by
  have hend : e * typeWidth t + typeWidth t ≤ 512 := by
    rw [← Nat.succ_mul, ← typeWidth_elems t, Nat.mul_comm]
    exact Nat.mul_le_mul_left _ he
  exact bitsOf_toNat_ofNat hend x

/-- The codes of a block in its part (R140). -/
theorem packMain_codes {part : Nat} (hpart : part < 4) (whole : Bool) {b : Hx4Block} (hb : b.codes.length = 32) :
    (packMain part whole b).null = false ∧ (∀ l, l < 16 → maskBit (packMain part whole b).mask l = (whole || l / 4 != part)) ∧
      ∀ i, i < 128 → (packMain part whole b).elem 6 i = if whole ∧ i / 32 = part then b.codes.getD (i % 32) 0 % 16 else 0 := by
  have hmain : packMain part whole b = rawToken (maskOf fun l => whole || l / 4 != part) (if whole then packElems 4 b.codes * 2 ^ (128 * part) else 0) := by
    rw [packMain, if_pos hpart, Nat.mod_eq_of_lt hpart]
  have hlt : packElems 4 b.codes < 2 ^ 128 := by
    have h := packElems_lt 4 b.codes
    rwa [hb] at h
  rw [hmain]
  refine ⟨rfl, fun l hl => ?_, fun i hi => ?_⟩
  · rw [rawToken, maskBit_maskOf, decide_eq_true hl, Bool.true_and]
  · rw [elem_rawToken _ _ (show i < elemsPerToken 6 from hi)]
    change bitsOf _ (i * 4) 4 = _
    have hindex : i * 4 = 128 * (i / 32) + i % 32 * 4 := by omega
    cases whole with
    | false => simp [bitsOf]
    | true =>
      rw [if_pos rfl, hindex, bitsOf_mul_two_pow hlt _ _ _ _ (by omega), bitsOf_packElems]
      exact if_congr (by simp) rfl rfl

/-- SCALE and EXTRA of a block in its lane of a side token (R140). -/
theorem packMain_side {part : Nat} (hpart : ¬ part < 4) (whole : Bool) {b : Hx4Block} (hscale : b.scale < 256) (hextra : b.extra < 256) :
    (packMain part whole b).null = false ∧
      (∀ l, l < 16 → maskBit (packMain part whole b).mask l = (decide (l < 4) && (whole || l != part % 4))) ∧
      ∀ l, l < 16 → (packMain part whole b).lane l = if whole ∧ l = part % 4 then (b.scale + 256 * b.extra) % 2 ^ 32 else 0 := by
  have hmain : packMain part whole b = rawToken (maskOf fun l => l < 4 && (whole || l != part % 4))
      (if whole then (b.scale + 256 * b.extra) * 2 ^ (32 * (part % 4)) else 0) := by
    rw [packMain, if_neg hpart]
  have hlt : b.scale + 256 * b.extra < 2 ^ 32 := by omega
  rw [hmain]
  refine ⟨rfl, fun l hl => ?_, fun l hl => ?_⟩
  · rw [rawToken, maskBit_maskOf, decide_eq_true hl, Bool.true_and]
  · rw [lane_eq_elem, elem_rawToken _ _ (show l < elemsPerToken 12 from hl)]
    change bitsOf _ (l * 32) 32 = _
    have hindex : l * 32 = 32 * l + 0 := by omega
    cases whole with
    | false => simp [bitsOf]
    | true =>
      rw [if_pos rfl, hindex, bitsOf_mul_two_pow hlt _ _ _ _ (by omega)]
      exact if_congr (by simp) rfl rfl

/-! The token to target 1 of `blkpack` (R140). -/

theorem mem_packOut {zipped : List ((Nat × Nat × Nat) × Val)} {p l : Nat} :
    l ∈ packOut zipped p ↔ ∃ q ∈ zipped, q.1.1 = p ∧ q.1.2.1 = l ∧ q.2.isFin = false := by
  simp only [packOut, List.mem_filterMap, Option.ite_none_right_eq_some, Option.some.injEq, Bool.and_eq_true, decide_eq_true_eq, Bool.not_eq_true']
  exact exists_congr fun q => and_congr_right fun _ => ⟨fun h => ⟨h.1.1, h.2, h.1.2⟩, fun h => ⟨⟨h.1, h.2.2⟩, h.2.1⟩⟩

theorem contains_packOut (zipped : List ((Nat × Nat × Nat) × Val)) (p l : Nat) :
    (packOut zipped p).contains l = zipped.any fun q => q.1.1 == p && q.1.2.1 == l && !q.2.isFin := by
  refine Bool.eq_iff_iff.2 ?_
  simp only [List.contains_iff_mem, mem_packOut, List.any_eq_true, Bool.and_eq_true, beq_iff_eq, Bool.not_eq_true', and_assoc]

/-- The lanes of port p that hold a NaN or an infinity, as a number. -/
def nonfiniteLanes (zipped : List ((Nat × Nat × Nat) × Val)) (p : Nat) : Nat :=
  ((List.range 16).map fun l => if zipped.any (fun q => q.1.1 == p && q.1.2.1 == l && !q.2.isFin) then 2 ^ l else 0).sum

theorem maskOf_packOut (zipped : List ((Nat × Nat × Nat) × Val)) (p : Nat) :
    (maskOf fun l => (packOut zipped p).contains l).toNat = nonfiniteLanes zipped p := by
  rw [maskOf_toNat]
  simp only [contains_packOut]
  rfl

section Overflow

variable {u : Nat} {whole : Bool} {zipped : List ((Nat × Nat × Nat) × Val)}

/-- Where port b is read, the type is fp32. -/
def portsOk (u : Nat) (zipped : List ((Nat × Nat × Nat) × Val)) : Prop := ∀ q ∈ zipped, q.1.1 = 0 ∨ u = 0 ∧ q.1.1 = 1

/-- A block of finite values alone marks nothing. -/
theorem packOut_nil_iff (h : portsOk u zipped) : packOut zipped 0 = [] ∧ packOut zipped 1 = [] ↔ ∀ q ∈ zipped, q.2.isFin = true := by
  simp only [List.eq_nil_iff_forall_not_mem, mem_packOut, not_exists, not_and, Bool.not_eq_false]
  refine ⟨fun hnil q hq => ?_, fun hfin => ⟨fun _ q hq _ _ => hfin q hq, fun _ q hq _ _ => hfin q hq⟩⟩
  rcases h q hq with hp | ⟨-, hp⟩
  · exact hnil.1 _ q hq hp rfl
  · exact hnil.2 _ q hq hp rfl

/-- Whether `blkpack` sends target 1 a null token: where the block is not whole or all its values are finite. -/
theorem packOverflow_cond (h : portsOk u zipped) :
    (!whole || ((packOut zipped 0).isEmpty && (packOut zipped 1).isEmpty)) = true ↔ ¬ (whole = true ∧ ∃ q ∈ zipped, q.2.isFin = false) := by
  rw [Bool.or_eq_true, Bool.and_eq_true, List.isEmpty_iff, List.isEmpty_iff, packOut_nil_iff h]
  cases whole <;> simp

theorem packOverflow_finite (h : portsOk u zipped) (hfin : ¬ (whole = true ∧ ∃ q ∈ zipped, q.2.isFin = false)) :
    packOverflow u whole (packOut zipped) = nullToken := if_pos ((packOverflow_cond h).2 hfin)

theorem nonfiniteLanes_lt (zipped : List ((Nat × Nat × Nat) × Val)) (p : Nat) : nonfiniteLanes zipped p < 2 ^ 32 := by
  rw [← maskOf_packOut]
  exact (maskOf _).isLt.trans (by norm_num)

theorem laneToken_holds {m : BitVec 16} {ok : Nat → Bool} (h : ∀ l, l < 16 → maskBit m l = ok l) (f : Nat → Nat) :
    holdsLanes (laneToken m f) ok fun l => f l % 2 ^ 32 :=
  ⟨rfl, fun l hl => ⟨h l hl, by rw [lane_laneToken _ _ hl, h l hl]⟩⟩

theorem packOverflow_nonfinite (h : portsOk u zipped) (hnon : whole = true ∧ ∃ q ∈ zipped, q.2.isFin = false) :
    holdsLanes (packOverflow u whole (packOut zipped)) (fun l => l == 0 || (u == 0 && l == 1)) (nonfiniteLanes zipped) := by
  have hcond := (packOverflow_cond h).not_left.2 hnon
  have hsent : packOverflow u whole (packOut zipped) = _ := if_neg hcond
  rw [hsent]
  split
  next hu =>
    have hmask (l : Nat) (hl : l < 16) : maskBit 3#16 l = (l == 0 || l == 1) := by interval_cases l <;> rfl
    refine (laneToken_holds hmask _).congr (fun l _ => by simp [hu]) fun l _ hl => ?_
    have hle : l ≤ 1 := by
      simp only [Bool.or_eq_true, Bool.and_eq_true, beq_iff_eq] at hl
      omega
    rw [if_pos hle, maskOf_packOut, Nat.mod_eq_of_lt (nonfiniteLanes_lt _ _)]
  next hu =>
    obtain ⟨q, hq, hqnon⟩ := hnon.2
    have hport : q.1.1 = 0 := (h q hq).resolve_right fun hp => hu hp.1
    have hne : packOut zipped 0 ≠ [] := List.ne_nil_of_mem (mem_packOut.2 ⟨q, hq, hport, rfl, hqnon⟩)
    refine (overflowToken_holds hne).congr (fun l _ => by simp [hu]) fun l _ hl => ?_
    have hl0 : l = 0 := by simpa [hu] using hl
    rw [hl0, ← maskOf_packOut, maskOf_toNat]

/-- What `blkpack` sends to target 1 (R140). -/
theorem packOverflow_spec (h : portsOk u zipped) :
    ((packOverflow u whole (packOut zipped)).null = true ↔ ¬ (whole = true ∧ ∃ q ∈ zipped, q.2.isFin = false)) ∧
      ((packOverflow u whole (packOut zipped)).null = false →
        holdsLanes (packOverflow u whole (packOut zipped)) (fun l => l == 0 || (u == 0 && l == 1)) (nonfiniteLanes zipped)) := by
  by_cases hnon : whole = true ∧ ∃ q ∈ zipped, q.2.isFin = false
  · have hholds := packOverflow_nonfinite h hnon
    exact ⟨⟨fun hnull => absurd hnull (by simp [hholds.1]), fun hfin => absurd hnon hfin⟩, fun _ => hholds⟩
  · rw [packOverflow_finite h hnon]
    exact ⟨⟨fun _ => hnon, fun _ => rfl⟩, fun hnull => absurd hnull (by simp [nullToken])⟩

end Overflow

/-- A value of a list that is zipped with as many sources. -/
theorem exists_zip_iff {srcs : List (Nat × Nat × Nat)} {vals : List Val} (h : srcs.length = vals.length) :
    (∃ q ∈ srcs.zip vals, q.2.isFin = false) ↔ ∃ v ∈ vals, Val.isFin v = false := by
  have hsnd : (srcs.zip vals).map Prod.snd = vals := List.map_snd_zip h.ge
  conv_rhs => rw [← hsnd]
  simp only [List.mem_map, exists_exists_and_eq_and]

/-- The firing of `blkpack`: its part of the block, and the lanes of what is not finite. -/
theorem blkpack_fires {w : StageW} {s : State} {foc : Foc} {ops : List (Nat × Token)} (hr : stageReady (.blkpack w) w s foc ops)
    (hn : actsNull w.pm.toNat ops = false) {x : StageIn} (hx : stageReads w foc ops = x) {u j : Nat} (hu : w.aux.toNat % 16 = u)
    (hj : w.sub.toNat = j) {srcs : List (Nat × Nat × Nat)} (hsrcs : packSources u x = srcs) {ok : Nat → Nat → Bool}
    (hok : (fun p l => maskBit (if p = 0 then x.a.mask else x.b.mask) l) = ok) {whole : Bool} (hwhole : (srcs.all fun q => ok q.1 q.2.1) = whole)
    {vals : List Val} (hvals : (srcs.map fun q => if ok q.1 q.2.1 then decodeFloat u q.2.2 else .fin false 0 0) = vals) {sat : Bool}
    (hsat : decide (w.sat = 1#1) = sat) {b : Hx4Block} (hb : packBlock w.rnd.toNat sat vals = b) {fl : Flags}
    (hfl : (if whole then packStatus sat vals b else 0) = fl) :
    (trapsOn foc.task.fpen fl = true → stageTraps (.blkpack w) s foc fl) ∧ (trapsOn foc.task.fpen fl = false →
    ∃ y z, stageSends (.blkpack w) w s foc y z fl ∧ y.null = false ∧
      (if j < 4 then (∀ l, l < 16 → maskBit y.mask l = (whole || l / 4 != j)) ∧
          ∀ i, i < 128 → y.elem 6 i = if whole ∧ i / 32 = j then b.codes.getD (i % 32) 0 % 16 else 0
        else (∀ l, l < 16 → maskBit y.mask l = (decide (l < 4) && (whole || l != j % 4))) ∧
          ∀ l, l < 16 → y.lane l = if whole ∧ l = j % 4 then (b.scale + 256 * b.extra) % 2 ^ 32 else 0) ∧
      (z.null = true ↔ ¬ (whole = true ∧ ∃ v ∈ vals, Val.isFin v = false)) ∧
      (z.null = false → holdsLanes z (fun l => l == 0 || (u == 0 && l == 1)) (nonfiniteLanes (srcs.zip vals)))) := by
  have hlen : srcs.length = 32 := hsrcs ▸ length_packSources u x
  have hvlen : vals.length = 32 := by rw [← hvals, List.length_map, hlen]
  have hports : portsOk u (srcs.zip vals) := fun q hq => packSources_port (hsrcs ▸ (List.of_mem_zip hq).1)
  obtain ⟨hcodes, hscale, hextra⟩ := packBlock_spec w.rnd.toNat sat hvlen
  rw [hb] at hcodes hscale hextra
  have hout : stBlkpack w (stageReads w foc ops) = ⟨some (packMain j whole b), some (packOverflow u whole (packOut (srcs.zip vals))), fl⟩ := by
    subst hfl hb hsat hvals hwhole hok hsrcs hj hu hx
    rfl
  obtain ⟨htraps, hsends⟩ := stage_sendsTwo_or_traps rfl rfl hr hn hout
  obtain ⟨hnull, hholds⟩ := packOverflow_spec (whole := whole) hports
  rw [exists_zip_iff (hlen.trans hvlen.symm)] at hnull
  refine ⟨htraps, fun ht => ⟨_, _, hsends ht, ?_, ?_, hnull, hholds⟩⟩
  · by_cases hpart : j < 4
    · exact (packMain_codes hpart whole hcodes).1
    · exact (packMain_side hpart whole hscale hextra).1
  · split
    next hpart => exact (packMain_codes hpart whole hcodes).2
    next hpart => exact (packMain_side hpart whole hscale hextra).2

theorem blkunpack_type {w : StageW} (h : (Instr.blkunpack w).wf = true) : isF w.ty.toNat = true := by
  obtain ⟨htype, -⟩ := stageReason_none (op := 0x54) h
  exact (Bool.and_eq_true_iff.1 (Bool.and_eq_true_iff.1 htype).1).1

/-- Settles O16: `blkscale` by its lanes, `blkunpack` by its elements, `blkpack` by the block's number and the lanes of its sources. -/
theorem blockFormats : Obligations.BlockFormats := by
  unfold Obligations.BlockFormats
  refine fun w => ⟨fun _ s f ops hr hn => ?blkscale, fun hwf s f ops hr hn => ?blkunpack, fun _ s f ops hr hn => ?blkpack⟩
  case blkscale =>
    obtain ⟨y, hy, hholds⟩ := stBlkscale_spec w (stageReads w f ops) (fun l => maskBit_and _ _ l) fun _ => rfl
    obtain ⟨htraps, hsends⟩ := stage_sends_or_traps rfl rfl hr hn hy
    exact ⟨htraps, fun ht => ⟨y, hsends ht, hholds⟩⟩
  case blkunpack =>
    obtain ⟨y, hy, hholds⟩ := stBlkunpack_spec w (stageReads w f ops) (blkunpack_type hwf)
    obtain ⟨htraps, hsends⟩ := stage_sends_or_traps rfl rfl hr hn hy
    exact ⟨htraps, fun ht => ⟨y, hsends ht, hholds⟩⟩
  case blkpack => exact blkpack_fires hr hn rfl rfl rfl (packSources_eq _ _) rfl rfl rfl rfl rfl rfl

end Sys2Proof.Machine
end

section
/-! PROOFS. The firings of the bit-plane codec by groups of four iterations (R143 to R145). -/

namespace Sys2Proof.Machine

/-! Tokens sent in turn by a node that fires. -/

/-- Tokens sent in order to targets. -/
def sendAll (slot : Nat) (sent : List (Nat × Token)) (ph : Phase) : Phase := sent.foldl (fun ph x => sendTok ph slot x.1 x.2) ph

theorem inFlight_sendAll (slot : Nat) (sent : List (Nat × Token)) (ph : Phase) (u : Nat) :
    inFlight (sendAll slot sent ph) u = inFlight ph u ++ (sent.filter fun x => x.1 == u && x.1 != noTarget).map Prod.snd := by
  induction sent generalizing ph with
  | nil => simp [sendAll]
  | cons x sent ih =>
    rw [sendAll, List.foldl_cons, ← sendAll, ih, inFlight_sendTok, List.append_assoc]
    by_cases hx : x.1 = u ∧ x.1 ≠ noTarget
    · rw [if_pos hx, List.filter_cons_of_pos (by simpa using hx)]
      rfl
    · rw [if_neg hx, List.filter_cons_of_neg (by simpa using hx)]
      rfl

theorem sendAll_rest (slot : Nat) (sent : List (Nat × Token)) (ph : Phase) (n : Nat) :
    (nodeOf (sendAll slot sent ph) n).rest = (nodeOf ph n).rest := by
  induction sent generalizing ph with
  | nil => rfl
  | cons x sent ih => exact (ih (sendTok ph slot x.1 x.2)).trans (sendTok_rest ..)

theorem sendAll_frame (slot : Nat) (sent : List (Nat × Token)) (ph : Phase) :
    ∃ ns ws, sendAll slot sent ph = { ph with nodes := ns, wires := ws } := by
  induction sent generalizing ph with
  | nil => exact ⟨ph.nodes, ph.wires, rfl⟩
  | cons x sent ih =>
    obtain ⟨ns, ws, h⟩ := ih (sendTok ph slot x.1 x.2)
    rw [sendTok_frame ph slot x.1 x.2] at h
    exact ⟨ns, ws, (congrArg (sendAll slot sent) (sendTok_frame ph slot x.1 x.2)).trans h⟩

/-- A node that fires without raising status: it takes its operands, becomes nd but for its queues, and sends. -/
theorem firesTo_of_sendAll {i : Instr} {s : State} {f : Foc} (hf : foc? s = some f) {ports : List Nat} (hg : goodPorts ports)
    (hne : ∀ p ∈ ports, portQ f.nd p ≠ []) {sent : List (Nat × Token)} {nd nd' : Node} (hq : ∀ q, q < 4 → portQ nd q = portQ (advance f.nd ports) q)
    (hrest : nd.rest = nd'.rest) (hexec : exec i s = .next (fired s f (sendAll f.slot sent (setNode f.ph f.slot nd)))) :
    firesTo i s f ports sent nd' := by
  obtain ⟨-, -, -, -, -, -, -, hnd⟩ := foc_cases hf
  obtain ⟨ns, ws, hframe⟩ := sendAll_frame f.slot sent (setNode f.ph f.slot nd)
  refine ⟨_, _, hexec, fired_quiet hf _, by rw [hframe]; rfl, ⟨fun u => ?_, fun n hn => ?_⟩, ?_⟩
  · rw [inFlight_sendAll, inFlight_advance _ _ _ _ hg (hnd ▸ hne) (hnd ▸ hq)]
  · rw [sendAll_rest, nodeOf_setNode_ne _ _ hn]
  · rw [sendAll_rest, nodeOf_setNode_self, hrest]

/-! The codec's firings. -/

theorem goodPorts_withPred {ports : List Nat} (h : ∀ p ∈ ports, p < 3) (hn : ports.Nodup) (pm : Nat) : goodPorts (withPred pm ports) := by
  unfold withPred goodPorts
  split
  · exact ⟨hn, fun p hp => (h p hp).trans (by decide)⟩
  · refine ⟨hn.append (by simp) ?_, fun p hp => ?_⟩
    · simp only [List.disjoint_singleton]
      exact fun h3 => absurd (h 3 h3) (by decide)
    · rcases List.mem_append.1 hp with hp | hp
      · exact (h p hp).trans (by decide)
      · simp_all

/-- A node after its firing, but for its queues and with another group's outputs to send. -/
theorem advance_group_rest (nd : Node) (ports : List Nat) (g : List Token) :
    ({ advance nd ports with group := g } : Node).rest = ({ nd with iter := nd.iter + 1, group := g } : Node).rest := by
  have hrest := popPorts_rest nd ports
  simp only [Node.rest, advance, Node.mk.injEq] at hrest ⊢
  simp_all

/-- What the codec forms from a group's inputs: the outputs of its firings, and the map's token for target 1 (R144, R145). -/
def codecGroup (unpack : Bool) (ins : List Token) (ops : List (Nat × Token)) : List Token × Token :=
  if unpack then (bpxGroup ins (tokAt ops 1), nullToken) else bpcGroup ins

/-- The operand ports of the codec: `bpx` takes the map at a group's first firing (R145). -/
def codecPorts (unpack first : Bool) : List Nat := if unpack && first then [0, 1] else [0]

/-- The node of the codec after a firing: its operands taken, the outputs that are still to send. -/
def codecNode (f : Foc) (ports : List Nat) (g : List Token) : Node := { advance f.nd ports with group := g }

theorem portQ_codecNode (f : Foc) (ports : List Nat) (g : List Token) (q : Nat) :
    portQ (codecNode f ports g) q = portQ (advance f.nd ports) q := by
  rcases q with _ | _ | _ | q <;> rfl

theorem goodPorts_codec (pm : Nat) (unpack first : Bool) : goodPorts (withPred pm (codecPorts unpack first)) := by
  cases unpack <;> cases first <;> exact goodPorts_withPred (by decide) (by decide) pm

/-- The codec's firing, from the tokens that it takes and sends. -/
theorem codec_fires {i : Instr} {s : State} {f : Foc} {w : StageW} {unpack first : Bool} {ops : List (Nat × Token)}
    (hr : canFire s f (withPred w.pm.toNat (codecPorts unpack first)) ops) {sent : List (Nat × Token)} {g : List Token}
    (hexec : exec i s = .next (fired s f (sendAll f.slot sent
      (setNode f.ph f.slot (codecNode f (withPred w.pm.toNat (codecPorts unpack first)) g))))) :
    firesTo i s f (withPred w.pm.toNat (codecPorts unpack first)) sent { f.nd with iter := f.nd.iter + 1, group := g } := by
  obtain ⟨hf, hops⟩ := hr
  exact firesTo_of_sendAll hf (goodPorts_codec ..) (heads_nonempty (readyOps_heads hops)) (fun q _ => portQ_codecNode _ _ _ q) (advance_group_rest ..) hexec

/-- The first firing of a group whose tokens are all there. -/
theorem fireCodec_first {s : State} {f : Foc} {w : StageW} {unpack : Bool} {ops : List (Nat × Token)} (hk : f.nd.iter % 4 = 0)
    (hr : canFire s f (withPred w.pm.toNat (codecPorts unpack true)) ops) {ins : List Token}
    (hins : groupInputs w.pm.toNat f.nd (min 4 (phaseEnd f.ph - f.nd.iter)) = some ins) :
    let g := codecGroup unpack ins ops
    fireCodec unpack w s = .next (fired s f (sendAll f.slot
      [(w.t0.toNat, g.1.headD nullToken), (w.t1.toNat, if unpack then g.1.headD nullToken else g.2)]
      (setNode f.ph f.slot (codecNode f (withPred w.pm.toNat (codecPorts unpack true)) g.1.tail)))) := by
  obtain ⟨hf, hops⟩ := hr
  have hfirst : (f.nd.iter % 4 == 0) = true := by simpa using hk
  unfold codecPorts at hops ⊢
  simp only [fireCodec, hf, hfirst, hops, hins, if_true]
  rfl

/-- The first firing of a group waits while the group's tokens are not all there (R143). -/
theorem fireCodec_waits {s : State} {f : Foc} {w : StageW} {unpack : Bool} {ops : List (Nat × Token)} (hk : f.nd.iter % 4 = 0)
    (hr : canFire s f (withPred w.pm.toNat (codecPorts unpack true)) ops)
    (hins : groupInputs w.pm.toNat f.nd (min 4 (phaseEnd f.ph - f.nd.iter)) = none) : fireCodec unpack w s = .next s := by
  obtain ⟨hf, hops⟩ := hr
  have hfirst : (f.nd.iter % 4 == 0) = true := by simpa using hk
  unfold codecPorts at hops
  simp only [fireCodec, hf, hfirst, hops, hins, if_true]

/-- A later firing of a group sends the next of its outputs. -/
theorem fireCodec_later {s : State} {f : Foc} {w : StageW} {unpack : Bool} {ops : List (Nat × Token)} (hk : f.nd.iter % 4 ≠ 0)
    (hr : canFire s f (withPred w.pm.toNat (codecPorts unpack false)) ops) :
    let x := f.nd.group.headD nullToken
    fireCodec unpack w s = .next (fired s f (sendAll f.slot ((w.t0.toNat, x) :: if unpack then [(w.t1.toNat, x)] else [])
      (setNode f.ph f.slot (codecNode f (withPred w.pm.toNat (codecPorts unpack false)) f.nd.group.tail)))) := by
  obtain ⟨hf, hops⟩ := hr
  have hfirst : (f.nd.iter % 4 == 0) = false := by simpa using hk
  unfold codecPorts at hops ⊢
  simp only [fireCodec, hf, hfirst, hops, Bool.false_eq_true, if_false]
  cases unpack <;> rfl

/-! The inputs of a group (R143). -/

/-- A group's inputs are all there. -/
def gathered (w : StageW) (nd : Node) (r : Nat) : Prop := r ≤ nd.qa.length ∧ (w.pm ≠ 0#2 → r ≤ nd.qp.length)

/-- Whether the predicate turns input i of a group into a null token (R66). -/
abbrev codecOff (w : StageW) (nd : Node) (i : Nat) : Prop :=
  w.pm ≠ 0#2 ∧ ((nd.qp.getD i nullToken).null = true ∨ predValue (nd.qp.getD i nullToken) ≠ decide (w.pm = 1#2))

theorem groupInputs_eq_none {w : StageW} {nd : Node} {r : Nat} (h : ¬ gathered w nd r) : groupInputs w.pm.toNat nd r = none := by
  have hpm : w.pm.toNat = 0 ↔ w.pm = 0#2 := BitVec.toNat_inj (y := 0#2)
  unfold gathered at h
  unfold groupInputs
  refine if_pos ?_
  by_cases ha : r ≤ nd.qa.length
  · obtain ⟨hne, hp⟩ : w.pm ≠ 0#2 ∧ nd.qp.length < r := by simpa [ha] using h
    simp [hp, hpm, hne]
  · simp [not_le.1 ha]

theorem groupInputs_eq_some {w : StageW} {nd : Node} {r : Nat} (h : gathered w nd r) :
    groupInputs w.pm.toNat nd r = some ((List.range r).map fun i => if codecOff w nd i then nullToken else nd.qa.getD i nullToken) := by
  have hpm : w.pm.toNat = 0 ↔ w.pm = 0#2 := BitVec.toNat_inj (y := 0#2)
  have hpm1 : w.pm.toNat = 1 ↔ w.pm = 1#2 := BitVec.toNat_inj (y := 1#2)
  obtain ⟨ha, hp⟩ := h
  unfold groupInputs
  rw [if_neg ?_]
  · congr 2
    funext i
    refine if_congr ?_ rfl rfl
    simp [codecOff, hpm, Bool.beq_eq_decide_eq, hpm1]
  · by_cases h0 : w.pm = 0#2
    · simp [h0, ha]
    · simp [ha, hp h0]

theorem bpcGroup_null {ins : List Token} (h : ∃ y ∈ ins, y.null = true) : bpcGroup ins = (List.replicate 4 nullToken, nullToken) :=
  if_pos (List.any_eq_true.2 h)

theorem bpxGroup_null {ins : List Token} (h : ∃ y ∈ ins, y.null = true) (m : Token) : bpxGroup ins m = List.replicate 4 nullToken := by
  have hany : ins.any Token.null = true := List.any_eq_true.2 h
  simp [bpxGroup, hany]

/-- Settles O17: the first firing of a group by the inputs gathered, the later ones by the outputs that the node holds. -/
theorem codecFires : Obligations.CodecFires := by
  unfold Obligations.CodecFires
  intro w s f ops k r port off ins gathered rest ps x
  have hins (h : gathered) : groupInputs w.pm.toNat f.nd r = some ins := groupInputs_eq_some h
  refine ⟨fun hk hg hr => ?bpcFirst, fun hk hg hr => ?bpxFirst, fun hk hg => ⟨fun hr => ?bpcWaits, fun hr => ?bpxWaits⟩, fun hk hr => ⟨?bpcLater, ?bpxLater⟩,
    fun m h => ⟨bpcGroup_null h, bpxGroup_null h m⟩⟩
  case bpcFirst => exact codec_fires (unpack := false) (first := true) hr (fireCodec_first (unpack := false) hk hr (hins hg))
  case bpxFirst => exact codec_fires (unpack := true) (first := true) hr (fireCodec_first (unpack := true) hk hr (hins hg))
  case bpcWaits => exact fireCodec_waits (unpack := false) hk hr (groupInputs_eq_none hg)
  case bpxWaits => exact fireCodec_waits (unpack := true) hk hr (groupInputs_eq_none hg)
  case bpcLater => exact codec_fires (unpack := false) (first := false) hr (fireCodec_later (unpack := false) hk hr)
  case bpxLater => exact codec_fires (unpack := true) (first := false) hr (fireCodec_later (unpack := true) hk hr)

end Sys2Proof.Machine
end

section
/-! PROOFS. The bit-plane codec undone (R144, R145): the map names the planes of the stream, the planes give the deltas, the deltas the words. -/

namespace Sys2Proof.Machine

/-! Bits of packed bits. -/

theorem getD_packElems_one (xs : List Nat) (e : Nat) : packElems 1 xs / 2 ^ e % 2 = xs.getD e 0 % 2 := by
  simpa only [bitsOf_eq_div_mod, Nat.mul_one, pow_one] using bitsOf_packElems 1 xs e

/-- A number made of its own bits. -/
theorem packElems_bits (n x : Nat) : packElems 1 ((List.range n).map fun b => x / 2 ^ b % 2) = x % 2 ^ n := by
  induction n generalizing x with
  | zero => simp [packElems, Nat.mod_one]
  | succ n ih =>
    have hcons (y : Nat) (ys : List Nat) : packElems 1 (y :: ys) = y % 2 ^ 1 + 2 ^ 1 * packElems 1 ys := rfl
    have htail : (List.range n).map ((fun b => x / 2 ^ b % 2) ∘ Nat.succ) = (List.range n).map fun b => x / 2 / 2 ^ b % 2 := by
      refine List.map_congr_left fun b _ => ?_
      rw [Function.comp_apply, Nat.div_div_eq_div_mul, Nat.pow_succ']
    rw [List.range_succ_eq_map, List.map_cons, List.map_map, hcons, htail, ih]
    have hmul : x % (2 * 2 ^ n) = x % 2 + 2 * (x / 2 % 2 ^ n) := Nat.mod_mul
    simpa [Nat.pow_succ'] using hmul.symm

/-! Words and deltas (R144). -/

/-- The differences of a group's words, each from the one before it. -/
def wordDeltas (ws : List Nat) : List Nat := (ws.zip (0 :: ws)).map fun p => (p.1 + 2 ^ 32 - p.2) % 2 ^ 32

/-- Adding up differences modulo 2^32. -/
def addDeltas (d : List Nat) : List Nat × Nat → List Nat × Nat :=
  d.foldl fun acc x => (acc.1 ++ [(acc.2 + x) % 2 ^ 32], (acc.2 + x) % 2 ^ 32)

theorem add_delta {v x : Nat} (hv : v < 2 ^ 32) (hx : x < 2 ^ 32) : (v + (x + 2 ^ 32 - v) % 2 ^ 32) % 2 ^ 32 = x := by
  rw [Nat.add_mod_mod, Nat.add_sub_cancel' (by omega), Nat.add_mod_right, Nat.mod_eq_of_lt hx]

theorem addDeltas_from (ws : List Nat) (hws : ∀ x ∈ ws, x < 2 ^ 32) (pre : List Nat) (v : Nat) (hv : v < 2 ^ 32) :
    (addDeltas ((ws.zip (v :: ws)).map fun p => (p.1 + 2 ^ 32 - p.2) % 2 ^ 32) (pre, v)).1 = pre ++ ws := by
  induction ws generalizing pre v with
  | nil => simp [addDeltas]
  | cons x ws ih =>
    obtain ⟨hx, hws⟩ := List.forall_mem_cons.1 hws
    have hrest := ih hws (pre ++ [x]) x hx
    rw [List.append_assoc] at hrest
    rw [List.zip_cons_cons, List.map_cons, addDeltas, List.foldl_cons, add_delta hv hx]
    exact hrest

theorem addDeltas_wordDeltas {ws : List Nat} (hws : ∀ x ∈ ws, x < 2 ^ 32) : (addDeltas (wordDeltas ws) ([], 0)).1 = ws :=
  addDeltas_from ws hws [] 0 (by norm_num)

theorem wordDeltas_lt {ws : List Nat} : ∀ x ∈ wordDeltas ws, x < 2 ^ 32 := by
  intro x hx
  obtain ⟨p, -, rfl⟩ := List.mem_map.1 hx
  exact Nat.mod_lt _ (by norm_num)

@[simp] theorem length_wordDeltas (ws : List Nat) : (wordDeltas ws).length = ws.length := by simp [wordDeltas]

/-! Planes (R144, R145). -/

/-- Plane b of the stream: a plane of the deltas, the one above it taken off; the last as it is. -/
def codedPlane (d : List Nat) (b : Nat) : Nat := if b = 31 then planeOf d 31 else planeOf d b ^^^ planeOf d (b + 1)

theorem planeOf_lt {d : List Nat} (hd : d.length = 64) (b : Nat) : planeOf d b < 2 ^ 64 := by
  have hlt := packElems_lt 1 (d.map fun x => x / 2 ^ b % 2)
  rwa [List.length_map, hd] at hlt

theorem codedPlane_lt {d : List Nat} (hd : d.length = 64) (b : Nat) : codedPlane d b < 2 ^ 64 := by
  unfold codedPlane
  split
  · exact planeOf_lt hd _
  · exact Nat.xor_lt_two_pow (planeOf_lt hd _) (planeOf_lt hd _)

/-- What the stream holds for a plane: nothing for a zero plane, else its low and its high word. -/
def planeWords (q : Nat) : List Nat := if q = 0 then [] else [q % 2 ^ 32, q / 2 ^ 32]

/-- The map of the planes that the stream holds. -/
def planeMap (d : List Nat) : Nat := packElems 1 ((List.range 32).map fun b => if codedPlane d b = 0 then 0 else 1)

theorem bpcCode_eq (ws : List Nat) :
    bpcCode ws = ((List.range 32).flatMap fun b => planeWords (codedPlane (wordDeltas ws) b), planeMap (wordDeltas ws)) := rfl

theorem planeMap_lt (d : List Nat) : planeMap d < 2 ^ 32 := by
  have hlt := packElems_lt 1 ((List.range 32).map fun b => if codedPlane d b = 0 then 0 else 1)
  rwa [List.length_map, List.length_range] at hlt

theorem planeMap_bit (d : List Nat) {b : Nat} (hb : b < 32) : planeMap d / 2 ^ b % 2 = if codedPlane d b = 0 then 0 else 1 := by
  rw [planeMap, getD_packElems_one, List.getD_eq_getElem _ _ (by simpa using hb), List.getElem_map, List.getElem_range]
  split <;> rfl

/-- The bits from 32 - n up, which `bpxPlanes` walks. -/
theorem bpxPlanes_planeWords (d : List Nat) (pad : List Nat) (n : Nat) (hn : n ≤ 32) :
    bpxPlanes (planeMap d) n (((List.range' (32 - n) n).flatMap fun b => planeWords (codedPlane d b)) ++ pad) =
      (List.range' (32 - n) n).map (codedPlane d) := by
  induction n with
  | zero => rfl
  | succ n ih =>
    have hfirst : 32 - (n + 1) = 31 - n := by omega
    have hnext : 31 - n + 1 = 32 - n := by omega
    rw [hfirst, List.range'_succ, hnext, List.flatMap_cons, List.map_cons, bpxPlanes, planeMap_bit d (by omega), ← ih (by omega)]
    by_cases hq : codedPlane d (31 - n) = 0
    · simp [hq, planeWords]
    · simp only [planeWords, hq, if_false, if_true]
      exact congrArg (· :: _) (Nat.mod_add_div _ _)

/-- One plane more of the deltas from the stream's, the planes above it known (R145). -/
def undoPlane (acc : List Nat) (x : Nat) : List Nat :=
  match acc with
  | [] => [x]
  | y :: ys => (x ^^^ y) :: y :: ys

theorem undoPlanes_codedPlane (d : List Nat) (n : Nat) (hn : n ≤ 32) :
    ((List.range' (32 - n) n).map (codedPlane d)).reverse.foldl undoPlane [] = (List.range' (32 - n) n).map (planeOf d) := by
  induction n with
  | zero => rfl
  | succ n ih =>
    have hfirst : 32 - (n + 1) = 31 - n := by omega
    have hnext : 31 - n + 1 = 32 - n := by omega
    rw [hfirst, List.range'_succ, hnext, List.map_cons, List.map_cons, List.reverse_cons, List.foldl_append, ih (by omega)]
    cases n with
    | zero => rfl
    | succ n =>
      have hne : 31 - (n + 1) ≠ 31 := by omega
      rw [← hnext, List.range'_succ, List.map_cons]
      simp only [List.foldl_cons, List.foldl_nil, undoPlane, codedPlane, hne, if_false, Nat.xor_assoc, Nat.xor_self, Nat.xor_zero]

/-- Delta i from bit i of each plane. -/
theorem packElems_planes {d : List Nat} (hd : ∀ x ∈ d, x < 2 ^ 32) {i : Nat} (hi : i < d.length) :
    packElems 1 (((List.range 32).map (planeOf d)).map fun pl => pl / 2 ^ i % 2) = d[i] := by
  have hbit (b : Nat) : planeOf d b / 2 ^ i % 2 = d[i] / 2 ^ b % 2 := by
    rw [planeOf, getD_packElems_one, List.getD_eq_getElem _ _ (by simpa using hi), List.getElem_map, Nat.mod_mod]
  rw [List.map_map]
  simp only [Function.comp_def, hbit]
  rw [packElems_bits, Nat.mod_eq_of_lt (hd _ (List.getElem_mem hi))]

theorem bpxDecode_eq (s : List Nat) (m : Nat) :
    bpxDecode s m = (addDeltas ((List.range 64).map fun i =>
      packElems 1 (((bpxPlanes m 32 s).reverse.foldl undoPlane []).map fun pl => pl / 2 ^ i % 2)) ([], 0)).1 := rfl

/-- `bpx` on the stream and the map that `bpc` makes of 64 words, whatever follows the stream. -/
theorem bpxDecode_bpcCode {ws : List Nat} (hlen : ws.length = 64) (hws : ∀ x ∈ ws, x < 2 ^ 32) (pad : List Nat) :
    bpxDecode ((bpcCode ws).1 ++ pad) (bpcCode ws).2 = ws := by
  have hplanes := bpxPlanes_planeWords (wordDeltas ws) pad 32 le_rfl
  have hundo := undoPlanes_codedPlane (wordDeltas ws) 32 le_rfl
  rw [Nat.sub_self, ← List.range_eq_range'] at hplanes hundo
  have hdeltas : (List.range 64).map (fun i => packElems 1 (((List.range 32).map (planeOf (wordDeltas ws))).map fun pl => pl / 2 ^ i % 2)) =
      wordDeltas ws := by
    refine List.ext_getElem (by simp [hlen]) fun i h1 h2 => ?_
    rw [List.getElem_map, List.getElem_range, packElems_planes wordDeltas_lt h2]
  rw [bpxDecode_eq, bpcCode_eq]
  dsimp only
  rw [hplanes, hundo, hdeltas, addDeltas_wordDeltas hws]

/-! The stream in tokens (R144). -/

theorem length_flatMap_planeWords (q : Nat → Nat) (bs : List Nat) : (bs.flatMap fun b => planeWords (q b)).length ≤ 2 * bs.length := by
  induction bs with
  | nil => simp
  | cons b bs ih =>
    have hb : (planeWords (q b)).length ≤ 2 := by
      unfold planeWords
      split <;> simp
    rw [List.flatMap_cons, List.length_append, List.length_cons]
    omega

theorem bpcCode_fst_length (ws : List Nat) : (bpcCode ws).1.length ≤ 64 := by
  rw [bpcCode_eq]
  exact (length_flatMap_planeWords _ _).trans_eq (by rw [List.length_range])

theorem bpcCode_fst_lt {ws : List Nat} (hlen : ws.length = 64) : ∀ x ∈ (bpcCode ws).1, x < 2 ^ 32 := by
  intro x hx
  rw [bpcCode_eq] at hx
  obtain ⟨b, -, hb⟩ := List.mem_flatMap.1 hx
  have hq := codedPlane_lt (d := wordDeltas ws) (by simpa using hlen) b
  unfold planeWords at hb
  split at hb
  · cases hb
  · rcases List.mem_cons.1 hb with rfl | hb
    · exact Nat.mod_lt _ (by norm_num)
    · rw [List.mem_singleton.1 hb]
      exact Nat.div_lt_of_lt_mul (by omega)

theorem lane_streamToken {s : List Nat} (hs : ∀ x ∈ s, x < 2 ^ 32) (t : Nat) {l : Nat} (hl : l < 16) :
    (streamToken s t).lane l = s.getD (16 * t + l) 0 := by
  rw [streamToken, lane_laneToken _ _ hl, maskBit_maskOf, decide_eq_true hl, Bool.true_and]
  by_cases h : 16 * t + l < s.length
  · rw [if_pos (decide_eq_true h), List.getD_eq_getElem _ _ h, Nat.mod_eq_of_lt (hs _ (List.getElem_mem h))]
  · rw [if_neg (by simpa using h), List.getD_eq_default _ _ (not_lt.1 h)]

/-- The words of the four stream tokens are the stream, filled up with zeros. -/
theorem groupWords_streamTokens {s : List Nat} (hs : ∀ x ∈ s, x < 2 ^ 32) (hlen : s.length ≤ 64) :
    groupWords false ((List.range 4).map (streamToken s)) = s ++ List.replicate (64 - s.length) 0 := by
  refine List.ext_getElem (by simp [groupWords, hlen]) fun i h1 h2 => ?_
  have hi : i < 64 := by simpa [groupWords] using h1
  have htoken : ((List.range 4).map (streamToken s))[i / 16]? = some (streamToken s (i / 16)) := by
    rw [List.getElem?_map, List.getElem?_range (by omega)]
    rfl
  have hindex : 16 * (i / 16) + i % 16 = i := Nat.div_add_mod i 16
  simp only [groupWords, List.getElem_map, List.getElem_range, htoken, Bool.not_false, Bool.true_or, if_true]
  rw [lane_streamToken hs _ (Nat.mod_lt _ (by decide)), hindex, List.getElem_append]
  split
  next h => exact List.getD_eq_getElem _ _ h
  next h => rw [List.getElem_replicate, List.getD_eq_default _ _ (not_lt.1 h)]

/-- Word 16t + l of a group of tokens. -/
theorem getD_groupWords {xs : List Token} {t l : Nat} (ht : t < xs.length) (hxs : xs.length = 4) (hl : l < 16) :
    (groupWords true xs).getD (16 * t + l) 0 =
      if maskBit (xs.getD t nullToken).mask l then (xs.getD t nullToken).lane l else 0 := by
  have hdiv : (16 * t + l) / 16 = t := by omega
  have hmod : (16 * t + l) % 16 = l := by omega
  rw [List.getD_eq_getElem _ _ (by simp [groupWords]; omega), List.getD_eq_getElem _ _ ht]
  simp only [groupWords, List.getElem_map, List.getElem_range, hdiv, hmod, List.getElem?_eq_getElem ht, Bool.not_true, Bool.false_or]

theorem groupWords_lt (masked : Bool) (xs : List Token) : ∀ x ∈ groupWords masked xs, x < 2 ^ 32 := by
  intro x hx
  obtain ⟨i, -, rfl⟩ := List.mem_map.1 hx
  split
  · split
    · exact lane_lt _ _
    · norm_num
  · norm_num

@[simp] theorem length_groupWords (masked : Bool) (xs : List Token) : (groupWords masked xs).length = 64 := by simp [groupWords]

/-- What `bpx` gives for the tokens that `bpc` formed. -/
theorem bpxGroup_bpcGroup {xs : List Token} (hnull : ∀ x ∈ xs, x.null = false) :
    bpxGroup (bpcGroup xs).1 (bpcGroup xs).2 =
      (List.range 4).map fun t => laneToken 0xFFFF#16 fun l => (groupWords true xs).getD (16 * t + l) 0 := by
  have hany : xs.any Token.null = false := List.any_eq_false.2 fun x hx => by simp [hnull x hx]
  have hlen := length_groupWords true xs
  have hcode : bpcGroup xs = ((List.range 4).map (streamToken (bpcCode (groupWords true xs)).1), oneLane (bpcCode (groupWords true xs)).2) := by
    simp [bpcGroup, hany]
  have hstream : ((List.range 4).map (streamToken (bpcCode (groupWords true xs)).1)).any Token.null = false := rfl
  obtain ⟨hmapNull, hmapLanes⟩ := oneLane_holds (planeMap_lt (wordDeltas (groupWords true xs)))
  obtain ⟨hmapMask, hmapLane⟩ := hmapLanes 0 (by decide)
  have hmap : maskBit (oneLane (bpcCode (groupWords true xs)).2).mask 0 = true ∧
      (oneLane (bpcCode (groupWords true xs)).2).lane 0 = (bpcCode (groupWords true xs)).2 := ⟨hmapMask, hmapLane⟩
  obtain ⟨hmask, hlane⟩ := hmap
  have hdecode := bpxDecode_bpcCode hlen (groupWords_lt true xs) (List.replicate (64 - (bpcCode (groupWords true xs)).1.length) 0)
  rw [← groupWords_streamTokens (bpcCode_fst_lt hlen) (bpcCode_fst_length _)] at hdecode
  rw [hcode]
  unfold bpxGroup
  rw [hstream, hmask, hlane, hdecode]
  rfl

/-- Settles O18. -/
theorem codecInverts : Obligations.CodecInverts := by
  unfold Obligations.CodecInverts
  intro xs hlen hnull c t l ht hl
  have hones : maskBit 0xFFFF#16 l = true := by interval_cases l <;> rfl
  refine ⟨laneToken 0xFFFF#16 fun l => (groupWords true xs).getD (16 * t + l) 0, ?_, rfl, rfl, ?_⟩
  · rw [bpxGroup_bpcGroup hnull, List.getElem?_map, List.getElem?_range ht]
    rfl
  · rw [lane_laneToken _ _ hl, if_pos hones, getD_groupWords (hlen ▸ ht) hlen hl, Nat.mod_eq_of_lt]
    split
    · exact lane_lt _ _
    · norm_num

end Sys2Proof.Machine
end

section
/-! PROOFS. The firings of control points, `exit` among them, and of the reorder elements (R170 to R187). -/

namespace Sys2Proof.Machine

/-! A node put back twice, and its state after a firing. -/

theorem tabPut_tabPut {α : Type} (t : List (Nat × α)) (k : Nat) (u v : α) : tabPut (tabPut t k u) k v = tabPut t k v := by
  induction t with
  | nil => simp [tabPut]
  | cons e t ih =>
    obtain ⟨a, x⟩ := e
    by_cases hlt : k < a
    · simp [tabPut, hlt]
    · by_cases heq : k = a
      · simp [tabPut, heq]
      · simp [tabPut, hlt, heq, ih]

@[simp] theorem setNode_setNode (ph : Phase) (n : Nat) (a b : Node) : setNode (setNode ph n a) n b = setNode ph n b := by
  simp only [setNode, tabPut_tabPut]

theorem advance_rest (nd : Node) (ports : List Nat) : (advance nd ports).rest = ({ nd with iter := nd.iter + 1 } : Node).rest :=
  congrArg (fun x : Node => { x with iter := nd.iter + 1 }) (popPorts_rest nd ports)

theorem advance_value_rest (nd : Node) (ports : List Nat) (v : Token) :
    ({ advance nd ports with value := v } : Node).rest = ({ nd with iter := nd.iter + 1, value := v } : Node).rest :=
  congrArg (fun x : Node => { x with value := v }) (advance_rest nd ports)

theorem portQ_with_value (nd : Node) (v : Token) (q : Nat) : portQ { nd with value := v } q = portQ nd q := by
  rcases q with _ | _ | _ | q <;> rfl

theorem portQ_with_group (nd : Node) (g : List Token) (q : Nat) : portQ { nd with group := g } q = portQ nd q := by
  rcases q with _ | _ | _ | q <;> rfl

/-- A node that took its operands and sent tokens. -/
theorem nodeFired_sendAll {f : Foc} {s : State} (hf : foc? s = some f) {ports : List Nat} (hg : goodPorts ports)
    (hne : ∀ p ∈ ports, portQ f.nd p ≠ []) (sent : List (Nat × Token)) :
    nodeFired f ports sent (sendAll f.slot sent (setNode f.ph f.slot (advance f.nd ports))) := by
  obtain ⟨-, -, -, -, -, -, -, hnd⟩ := foc_cases hf
  obtain ⟨ns, ws, hframe⟩ := sendAll_frame f.slot sent (setNode f.ph f.slot (advance f.nd ports))
  refine ⟨by rw [hframe]; rfl, ⟨fun u => ?_, fun n hn => ?_⟩, ?_⟩
  · rw [inFlight_sendAll, inFlight_advance _ _ _ _ hg (hnd ▸ hne) (fun q _ => by rw [hnd])]
  · rw [sendAll_rest, nodeOf_setNode_ne _ _ hn]
  · rw [sendAll_rest, nodeOf_setNode_self, advance_rest]

/-! Control points but `exit` (R170 to R176). -/

theorem fireCp_eq {s : State} {f : Foc} {ports : Foc → List Nat} {ops : List (Nat × Token)} (hr : canFire s f (ports f) ops)
    (g : Foc → List (Nat × Token) → Phase → Phase) :
    fireCp ports g s = .next (fired s f (g f ops (setNode f.ph f.slot (advance f.nd (ports f))))) := by
  obtain ⟨hf, hops⟩ := hr
  simp only [fireCp, hf, hops]

theorem sendFour_eq (ph : Phase) (slot : Nat) (w : CpW) (x y : Token) :
    sendFour ph slot w x y = sendAll slot [(w.t0.toNat, x), (w.t1.toNat, x), (w.t2.toNat, y), (w.t3.toNat, y)] ph := rfl

/-- A control point whose firing sends, and keeps the value that it held. -/
theorem cpSends_of_sendFour {i : Instr} {w : CpW} {s : State} {f : Foc} {ports : Foc → List Nat} {ops : List (Nat × Token)}
    {g : Foc → List (Nat × Token) → Phase → Phase} (hexec : exec i s = fireCp ports g s) (hg : goodPorts (ports f)) {x y : Token}
    (hsend : ∀ ph, g f ops ph = sendFour ph f.slot w x y) (hr : canFire s f (ports f) ops) : cpSends i w s f (ports f) x y f.nd.value :=
  firesTo_of_sendAll hr.1 hg (heads_nonempty (readyOps_heads hr.2)) (fun _ _ => rfl) (advance_rest ..)
    (by rw [hexec, fireCp_eq hr, hsend, sendFour_eq])

/-- A control point whose firing sends one value and keeps it. -/
theorem cpSends_of_keepAndSend {i : Instr} {w : CpW} {s : State} {f : Foc} {ports : Foc → List Nat} {ops : List (Nat × Token)}
    {g : Foc → List (Nat × Token) → Phase → Phase} (hexec : exec i s = fireCp ports g s) (hg : goodPorts (ports f)) {v : Token}
    (hsend : ∀ ph, g f ops ph = keepAndSend w f ph v) (hr : canFire s f (ports f) ops) : cpSends i w s f (ports f) v v v := by
  refine firesTo_of_sendAll (nd := { advance f.nd (ports f) with value := v }) hr.1 hg (heads_nonempty (readyOps_heads hr.2))
    (fun q _ => portQ_with_value _ _ q) (advance_value_rest ..) ?_
  rw [hexec, fireCp_eq hr, hsend, keepAndSend, sendFour_eq, nodeOf_setNode_self, setNode_setNode]

theorem goodPorts_carry (f : Foc) : goodPorts (carryPorts f) := by
  unfold carryPorts
  split <;> simp [goodPorts]

theorem goodPorts_order (w : CpW) (f : Foc) : goodPorts (orderPorts w f) := by
  unfold orderPorts
  split <;> simp [goodPorts]

theorem goodPorts_join (w : CpW) (f : Foc) : goodPorts (joinPorts w f) := goodPorts_filter (by unfold goodPorts; decide) _

theorem cpSteer_eq (w : CpW) (f : Foc) (ops : List (Nat × Token)) (ph : Phase) :
    let a := tokAt ops 0
    let p := tokAt ops 3
    let hit : Bool := !p.null && predValue p
    cpSteer w f ops ph =
      sendFour ph f.slot w (if !a.null && hit then a else nullToken) (if a.null || p.null || hit then nullToken else a) := by
  intro a p hit
  unfold cpSteer
  by_cases hnull : (a.null || p.null) = true
  · have hmiss : (!a.null && hit) = false := by
      rcases Bool.or_eq_true_iff.1 hnull with h | h <;> simp [hit, h]
    rw [if_pos hnull, hnull, hmiss]
    rfl
  · obtain ⟨ha, hp⟩ : a.null = false ∧ p.null = false := by simpa using hnull
    rw [if_neg hnull]
    cases hpred : predValue p <;> simp [a, p, hit, ha, hp, hpred]

theorem cpGate_eq (w : CpW) (f : Foc) (ops : List (Nat × Token)) (ph : Phase) {x : Token}
    (hx : (if gateOpen ops then tokAt ops 0 else nullToken) = x) : cpGate w f ops ph = sendFour ph f.slot w x x := by rw [← hx]; rfl

theorem cpGateBrk_closed (w : CpW) (f : Foc) {ops : List (Nat × Token)} (h : gateOpen ops = false) (ph : Phase) :
    cpGateBrk w f ops ph = sendFour ph f.slot w nullToken nullToken := by
  rw [cpGateBrk, cpGate_eq w f ops ph rfl, h]
  rfl

/-- The answer of `nulchk` as a token. -/
theorem splat_toNat (b : Bool) :
    splat (if b then 1 else 0) = ⟨BitVec.ofNat 512 (packElems 32 (List.replicate 16 b.toNat)), 0xFFFF#16, false⟩ := by
  cases b <;> rfl

/-- Settles O19: each control point by the tokens that it sends; `carry` and `inv` keep theirs. -/
theorem controlPoints : Obligations.ControlPoints := by
  unfold Obligations.ControlPoints
  intro w s f ops a b p k r resets held fires keeps all null hit needs bit
  have hone : goodPorts [0] := by simp [goodPorts]
  have hpred : goodPorts [0, 3] := by simp [goodPorts]
  have hbit (x : Bool) : splat (if x then 1 else 0) = bit x := splat_toNat x
  refine ⟨?steer, ?carry, ?inv, ?mergeSel, ?mergeAny, ?fan, ?join, ?order, ?gatePass, fun hmiss => ?gateBrk, ?isnull, ?present⟩
  case steer => exact cpSends_of_sendFour (ports := fun _ => [0, 3]) rfl hpred (cpSteer_eq w f ops)
  case carry => exact cpSends_of_keepAndSend rfl (goodPorts_carry f) fun _ => rfl
  case inv => exact cpSends_of_keepAndSend (ports := fun _ => [0]) rfl hone fun _ => rfl
  case mergeSel => exact cpSends_of_sendFour (ports := fun _ => [0, 1, 3]) rfl (by simp [goodPorts]) fun _ => rfl
  case mergeAny => exact cpSends_of_sendFour (ports := fun _ => [0, 1]) rfl (by simp [goodPorts]) fun _ => rfl
  case fan => exact cpSends_of_sendFour (ports := fun _ => [0]) rfl hone fun _ => rfl
  case join => exact cpSends_of_sendFour rfl (goodPorts_join w f) fun _ => rfl
  case order => exact cpSends_of_sendFour rfl (goodPorts_order w f) fun _ => rfl
  case gatePass => exact cpSends_of_sendFour (ports := fun _ => [0, 3]) rfl hpred fun ph => cpGate_eq w f ops ph rfl
  case gateBrk => exact cpSends_of_sendFour (ports := fun _ => [0, 3]) rfl hpred (cpGateBrk_closed w f hmiss)
  case isnull =>
    refine cpSends_of_sendFour (ports := fun _ => [0]) rfl hone fun ph => ?_
    rw [cpNulchk, ← hbit, Bool.bne_false]
  case present =>
    refine cpSends_of_sendFour (ports := fun _ => [0]) rfl hone fun ph => ?_
    rw [cpNulchk, ← hbit, Bool.bne_true]

/-- A node past the end of its phase fires no more (R176). -/
theorem mayFire_of_phaseEnd_le {ph : Phase} {slot : Nat} (h : phaseEnd ph ≤ (nodeOf ph slot).iter) : mayFire ph slot = false := by
  simp [mayFire, Nat.not_lt.2 h]

/-- Settles O20: the gate sends its operand, and its iteration is the phase's last. -/
theorem gateBreaks : Obligations.GateBreaks := by
  unfold Obligations.GateBreaks
  intro w s f ops hr hnull hpred
  have hopen : gateOpen ops = true := by simp [gateOpen, hnull, hpred]
  have hexec : exec (.gateBrk w) s = fireCp (fun _ => [0, 3]) (cpGateBrk w) s := rfl
  rw [fireCp_eq (ports := fun _ => [0, 3]) hr, cpGateBrk, if_pos hopen, cpGate_eq w f ops _ (if_pos hopen), sendFour_eq] at hexec
  exact ⟨_, _, hexec, fired_quiet hr.1 _, nodeFired_sendAll hr.1 (by simp [goodPorts]) (heads_nonempty (readyOps_heads hr.2)) _, rfl,
    fun slot hslot => mayFire_of_phaseEnd_le hslot⟩

/-! `exit` (R178 to R180). -/

theorem exec_exit {w : CpW} {i : Instr} (hi : i ∈ [Instr.exitSel w, .exitCall w, .exitRet w, .exitJump w, .exitBr w]) (s : State) :
    ∃ mode, exec i s = fireExit mode w s := by
  simp only [List.mem_cons, List.not_mem_nil, or_false] at hi
  rcases hi with rfl | rfl | rfl | rfl | rfl
  exacts [⟨0, rfl⟩, ⟨1, rfl⟩, ⟨2, rfl⟩, ⟨3, rfl⟩, ⟨4, rfl⟩]

section
variable {i : Instr} {mode : Nat} {w : CpW} {s : State} {f : Foc} {ops : List (Nat × Token)}

/-- A firing of `exit` that only takes its operand and changes the phase by g. -/
theorem firesWith_of_advance {g : Phase → Phase} (hr : canFire s f [0] ops)
    (hexec : exec i s = .next (fired s f (g (setNode f.ph f.slot (advance f.nd [0]))))) : firesWith i s f [0] g :=
  ⟨_, _, hexec, fired_quiet hr.1 _, nodeFired_none hr.1 (by simp [goodPorts]) (heads_nonempty (readyOps_heads hr.2))⟩

theorem exit_early (hexec : exec i s = fireExit mode w s) (hr : canFire s f [0] ops) (hk : f.nd.iter + 1 ≠ phaseEnd f.ph) :
    firesWith i s f [0] id := by
  refine firesWith_of_advance hr ?_
  obtain ⟨hf, hops⟩ := hr
  simp [hexec, fireExit, hf, hops, isDeciding, hk]

theorem exit_decides (hexec : exec i s = fireExit mode w s) (hr : canFire s f [0] ops) (hk : f.nd.iter + 1 = phaseEnd f.ph) {r : ExitRes}
    (hc : exitChoice mode w f (tokAt ops 0) = .ok r) : firesWith i s f [0] fun ph => { ph with exitRes := some r } := by
  refine firesWith_of_advance hr ?_
  obtain ⟨hf, hops⟩ := hr
  simp [hexec, fireExit, hf, hops, isDeciding, hk, hc]

theorem exit_faults (hexec : exec i s = fireExit mode w s) (hr : canFire s f [0] ops) (hk : f.nd.iter + 1 = phaseEnd f.ph) {x : FaultInfo}
    (hc : exitChoice mode w f (tokAt ops 0) = .error x) : exec i s = .next (nodeFault s f x) := by
  obtain ⟨hf, hops⟩ := hr
  simp [hexec, fireExit, hf, hops, isDeciding, hk, hc]

end

/-- Settles O21: the choice of each MODE, where lane 0 is valid and where it is not. -/
theorem exitDecides : Obligations.ExitDecides := by
  unfold Obligations.ExitDecides
  intro w s f ops hr a x succ bn lr skips none0 decides exits
  refine ⟨fun hk i hi => ?early, fun hk hskip i hi => ?skipped, fun hk hskip => ⟨?sel, ?br, fun hlr => ?ret, fun hodd hjoined => ?retFault, fun hbn => ⟨?call, ?jump⟩,
    fun hbn i hi => ?unaligned⟩⟩
  case early =>
    obtain ⟨mode, hexec⟩ := exec_exit hi s
    exact exit_early hexec hr hk
  case skipped =>
    obtain ⟨mode, hexec⟩ := exec_exit hi s
    exact exit_decides hexec hr hk (if_pos hskip)
  all_goals have hchoice : ¬ (a.null || !maskBit a.mask 0) = true := Bool.not_eq_true _ ▸ hskip
  case sel => exact exit_decides (mode := 0) rfl hr hk (if_neg hchoice)
  case br => exact exit_decides (mode := 4) rfl hr hk (if_neg hchoice)
  case ret =>
    refine exit_decides (mode := 2) rfl hr hk ((if_neg hchoice).trans (if_neg ?_))
    simp only [Bool.and_eq_true, decide_eq_true_eq, Bool.not_eq_true']
    rintro ⟨hodd, hjoined⟩
    rcases hlr with h | h
    · exact absurd (hodd.symm.trans h) one_ne_zero
    · exact Bool.false_ne_true (hjoined.symm.trans h)
  case retFault =>
    have hfault : (decide (lr % 2 = 1) && !f.task.seed.joined) = true := by simp [hodd, hjoined]
    exact exit_faults (mode := 2) rfl hr hk ((if_neg hchoice).trans (if_pos hfault))
  case call => exact exit_decides (mode := 1) rfl hr hk ((if_neg hchoice).trans (if_neg (not_not.2 hbn)))
  case jump => exact exit_decides (mode := 3) rfl hr hk ((if_neg hchoice).trans (if_neg (not_not.2 hbn)))
  case unaligned =>
    simp only [List.mem_cons, List.not_mem_nil, or_false] at hi
    rcases hi with rfl | rfl
    · exact exit_faults (mode := 1) rfl hr hk ((if_neg hchoice).trans (if_pos hbn))
    · exact exit_faults (mode := 3) rfl hr hk ((if_neg hchoice).trans (if_pos hbn))

end Sys2Proof.Machine
end

section
/-! PROOFS. The groups of the reorder elements (R182 to R186). -/

namespace Sys2Proof.Machine

/-! An output token of a group (R182, R186). -/

/-- Whether element j of a group's inputs was gathered and valid. -/
def gatheredOk (t : Nat) (ins : List Token) (j : Nat) : Bool :=
  decide (j / elemsPerToken t < ins.length) && elemValid t (ins.getD (j / elemsPerToken t) nullToken).mask (j % elemsPerToken t)

/-- Element j of a group's inputs. -/
def gatheredElem (t : Nat) (ins : List Token) (j : Nat) : Nat := (ins.getD (j / elemsPerToken t) nullToken).elem t (j % elemsPerToken t)

theorem gatheredElem_lt (t : Nat) (ins : List Token) (j : Nat) : gatheredElem t ins j < 2 ^ typeWidth t := elem_lt _ _ _

theorem nullToken_elem (t e : Nat) : nullToken.elem t e = 0 := by
  have hdata : nullToken.data.toNat = 0 := BitVec.toNat_zero
  rw [Token.elem, hdata, bitsOf, Nat.zero_shiftRight, Nat.zero_mod]

theorem reorderToken_null {op : Nat} {w : ReW} {ins : List Token} (h : ∃ z ∈ ins, z.null = true) (o : Nat) : reorderToken op w ins o = nullToken :=
  if_pos (List.any_eq_true.2 h)

theorem all_elemsOfLane_eq (t : Nat) (p : Nat → Bool) (l : Nat) : (elemsOfLane t l).all p =
    if is64 t then p (l / 2) else (List.range (32 / typeWidth t)).all fun q => p (l * (32 / typeWidth t) + q) := by
  unfold elemsOfLane
  split <;> simp [Function.comp_def]

theorem reorderToken_eq {op : Nat} {w : ReW} {ins : List Token} (h : ¬ ∃ z ∈ ins, z.null = true) (o : Nat) :
    let t := w.ty.toNat
    let src := fun e => reorderSource op w (o * elemsPerToken t + e)
    reorderToken op w ins o = predForm t
      (tokenOf t (maskOf fun l => (elemsOfLane t l).all fun e => gatheredOk t ins (src e)) fun e => gatheredElem t ins (src e)) := by
  intro t src
  have hok (j : Nat) : (match ins[j / elemsPerToken t]? with
      | some x => elemValid t x.mask (j % elemsPerToken t)
      | none => false) = gatheredOk t ins j := by
    by_cases hj : j / elemsPerToken t < ins.length <;> simp [gatheredOk, hj]
  have hval (j : Nat) : (match ins[j / elemsPerToken t]? with
      | some x => x.elem t (j % elemsPerToken t)
      | none => 0) = gatheredElem t ins j := by
    by_cases hj : j / elemsPerToken t < ins.length <;> simp [gatheredElem, hj, nullToken_elem]
  rw [← List.any_eq_true] at h
  simp only [reorderToken, if_neg h, all_elemsOfLane_eq, ← hok, ← hval]
  rfl

/-- An element's lanes hold it and, for a type narrower than a lane, the elements that lie beside it. -/
theorem all_laneAll_iff (t : Nat) (p : Nat → Bool) (e : Nat) : (lanesOfElem t e).all (laneAll t p) = true ↔
    ∀ e', e' < elemsPerToken t → (if is64 t then e' = e else e' * typeWidth t / 32 = e * typeWidth t / 32) → p e' = true := by
  unfold laneAll lanesOfElem
  cases h64 : is64 t
  · simp only [Bool.false_eq_true, if_false, List.all_cons, List.all_nil, Bool.and_true, List.all_eq_true, List.mem_range, Bool.or_eq_true,
      Bool.not_eq_true', List.contains_eq_mem, List.mem_singleton, decide_eq_false_iff_not]
    exact forall₂_congr fun e' _ => by rw [← imp_iff_not_or, eq_comm]
  · simp only [if_true, List.all_eq_true, List.mem_cons, List.not_mem_nil, or_false, List.mem_range, Bool.or_eq_true,
      Bool.not_eq_true', List.contains_eq_mem, decide_eq_false_iff_not]
    constructor
    · rintro h e' he' rfl
      exact (h (2 * e') (.inl rfl) e' he').resolve_left (by simp)
    · intro h l hl e' he'
      refine or_iff_not_imp_left.2 fun hl' => h e' he' ?_
      omega

/-- The elements of an output token: which are valid, and what they hold (R182, R186). -/
theorem reorderToken_holds {op : Nat} {w : ReW} {ins : List Token} (h : ¬ ∃ z ∈ ins, z.null = true) (o : Nat) {e : Nat} :
    let t := w.ty.toNat
    let y := reorderToken op w ins o
    let src := fun e => reorderSource op w (o * elemsPerToken t + e)
    e < elemsPerToken t →
    (elemValid t y.mask e = true ↔ ∀ e', e' < elemsPerToken t → (if is64 t then e' = e else e' * typeWidth t / 32 = e * typeWidth t / 32) →
      gatheredOk t ins (src e') = true) ∧
    y.elem t e = if elemValid t y.mask e then predElem t (gatheredElem t ins (src e)) else 0 := by
  intro t y src he
  rw [show y = _ from reorderToken_eq h o, predForm_mask, elem_predForm _ _ he, elem_tokenOf _ _ _ _ he]
  refine ⟨?_, ?_⟩
  · exact (Bool.eq_iff_iff.1 (elemValid_laneAll t (fun e => gatheredOk t ins (src e)) he)).trans (all_laneAll_iff t _ e)
  · rw [Nat.mod_eq_of_lt (gatheredElem_lt ..), apply_ite (predElem t), predElem_zero]
    rfl

theorem reorderToken_not_null {op : Nat} {w : ReW} {ins : List Token} (h : ¬ ∃ z ∈ ins, z.null = true) (o : Nat) :
    (reorderToken op w ins o).null = false := by rw [reorderToken_eq h, predForm_null]; rfl

/-! The firings of a group (R182). -/

/-- The outputs of a group, in order, to both targets. -/
def reorderSent (op : Nat) (w : ReW) (ins : List Token) : List (Nat × Token) :=
  ((List.range ins.length).map (reorderToken op w ins)).flatMap fun y => [(w.t0.toNat, y), (w.t1.toNat, y)]

theorem sendAll_flatMap_two (slot a b : Nat) (g : Nat → Token) (l : List Nat) (ph : Phase) :
    sendAll slot ((l.map g).flatMap fun y => [(a, y), (b, y)]) ph = l.foldl (fun ph o => sendTok (sendTok ph slot a (g o)) slot b (g o)) ph := by
  induction l generalizing ph with
  | nil => rfl
  | cons o l ih => exact ih (sendTok (sendTok ph slot a (g o)) slot b (g o))

theorem flushReorder_setNode (op : Nat) (w : ReW) (ph : Phase) (slot : Nat) (nd : Node) :
    flushReorder op w (setNode ph slot nd) slot = sendAll slot (reorderSent op w nd.group) (setNode ph slot { nd with group := [] }) := by
  simp only [flushReorder, nodeOf_setNode_self, setNode_setNode, reorderSent, sendAll_flatMap_two]

/-- The inputs of a group with the one that a firing takes. -/
def groupWith (w : ReW) (f : Foc) (ops : List (Nat × Token)) : List Token :=
  f.nd.group ++ [if actsNull w.pm.toNat ops then nullToken else tokAt ops 0]

theorem popPorts_group (nd : Node) (ports : List Nat) : (popPorts nd ports).group = nd.group := by
  have h : (popPorts nd ports).rest.group = nd.rest.group := by rw [popPorts_rest]
  exact h

section
variable {i : Instr} {op : Nat} {w : ReW} {s : State} {f : Foc} {ops : List (Nat × Token)}

theorem fireReorder_eq (hr : canFire s f (withPred w.pm.toNat [0]) ops) :
    let ins := groupWith w f ops
    let ph := setNode f.ph f.slot { advance f.nd (withPred w.pm.toNat [0]) with group := ins }
    fireReorder op w s = .next (fired s f (if ins.length = groupTokens op w ∨ f.nd.iter + 1 = phaseEnd f.ph then flushReorder op w ph f.slot else ph)) := by
  obtain ⟨hf, hops⟩ := hr
  have hgroup : (advance f.nd (withPred w.pm.toNat [0])).group = f.nd.group := popPorts_group ..
  have hend (nd : Node) : phaseEnd (setNode f.ph f.slot nd) = phaseEnd f.ph := rfl
  simp only [fireReorder, hf, hops, hgroup, nodeOf_setNode_self, hend, advance_iter, Bool.or_eq_true, beq_iff_eq]
  rfl

/-- A firing that completes no group takes its operand into it. -/
theorem reorder_gathers (hexec : exec i s = fireReorder op w s) (hr : canFire s f (withPred w.pm.toNat [0]) ops)
    (hlen : (groupWith w f ops).length ≠ groupTokens op w) (hk : f.nd.iter + 1 ≠ phaseEnd f.ph) :
    firesTo i s f (withPred w.pm.toNat [0]) [] { f.nd with iter := f.nd.iter + 1, group := groupWith w f ops } := by
  refine firesTo_of_sendAll hr.1 (goodPorts_withPred (by decide) (by decide) _) (heads_nonempty (readyOps_heads hr.2))
    (fun q _ => portQ_with_group _ _ q) (advance_group_rest ..) ?_
  rw [hexec, fireReorder_eq hr, if_neg (not_or.2 ⟨hlen, hk⟩)]
  rfl

/-- A firing that completes its group, or the activation's last, sends the group's outputs. -/
theorem reorder_completes (hexec : exec i s = fireReorder op w s) (hr : canFire s f (withPred w.pm.toNat [0]) ops)
    (hlast : (groupWith w f ops).length = groupTokens op w ∨ f.nd.iter + 1 = phaseEnd f.ph) :
    firesTo i s f (withPred w.pm.toNat [0]) (reorderSent op w (groupWith w f ops)) { f.nd with iter := f.nd.iter + 1, group := [] } := by
  refine firesTo_of_sendAll (nd := { advance f.nd (withPred w.pm.toNat [0]) with group := [] }) hr.1 (goodPorts_withPred (by decide) (by decide) _)
    (heads_nonempty (readyOps_heads hr.2)) (fun q _ => portQ_with_group _ _ q) (advance_group_rest ..) ?_
  rw [hexec, fireReorder_eq hr, if_pos hlast, flushReorder_setNode]

end

/-- Settles O22: what a firing gathers or sends, and each output by the elements that its rule names. -/
theorem reorderGroups : Obligations.ReorderGroups := by
  unfold Obligations.ReorderGroups
  intro w s f ops t n ps x ins inner outer elemAt okAt good gathers
  have hgathers (i : Instr) (op size : Nat) (source : Nat → Nat) (hexec : exec i s = fireReorder op w s) (hsize : reorderGroup op w = size)
      (hsource : ∀ m, reorderSource op w m = source m) : gathers i size source := by
    intro _ hr
    subst hsize
    obtain rfl : reorderSource op w = source := funext hsource
    refine ⟨reorder_gathers hexec hr, fun hlast => ⟨(List.range ins.length).map (reorderToken op w ins), by simp, fun o y hy => ?_, reorder_completes hexec hr hlast⟩⟩
    rw [List.getElem?_map, Option.map_eq_some_iff] at hy
    obtain ⟨o', ho', rfl⟩ := hy
    obtain rfl : o = o' := by simpa using (List.getElem?_eq_some_iff.1 ho').2
    by_cases hnull : ∃ z ∈ ins, z.null = true
    · exact (if_pos hnull).mpr (reorderToken_null hnull o)
    · exact (if_neg hnull).mpr ⟨reorderToken_not_null hnull o, fun e he => reorderToken_holds hnull o he⟩
  exact ⟨hgathers _ 0xB0 _ _ rfl rfl fun _ => rfl, hgathers _ 0xB1 _ _ rfl rfl fun _ => rfl, hgathers _ 0xB2 _ _ rfl rfl fun _ => rfl⟩

end Sys2Proof.Machine
end

section
/-! PROOFS. The end of a phase and the return from a handler (R36, R37, R181, R305, R338). -/

namespace Sys2Proof.Machine

/-! A message for the task that waits (R305). -/

theorem isSome_foldl {α β : Type} {f : Option β → α → Option β} {p : α → Bool} (hf : ∀ b a, (f b a).isSome = (b.isSome || p a)) (l : List α)
    (b : Option β) : (l.foldl f b).isSome = (b.isSome || l.any p) := by
  induction l generalizing b with
  | nil => simp
  | cons a l ih => rw [List.foldl_cons, ih, hf, List.any_cons, Bool.or_assoc]

theorem isSome_messageChan (core : Core) (t : Nat) :
    (messageChan core t).isSome = (boundChans core t).any fun e => !e.2.queue.isEmpty := by
  unfold messageChan
  refine (isSome_foldl (fun b e => ?_) _ _).trans (Bool.false_or _)
  cases hq : e.2.queue.isEmpty
  · cases b with
    | none => rfl
    | some b =>
      rw [if_neg Bool.false_ne_true]
      dsimp only
      split <;> rfl
  · simp

theorem messageChan_eq_none_iff (core : Core) (t : Nat) : (messageChan core t).isSome = false ↔ ∀ e ∈ boundChans core t, e.2.queue = [] := by
  simp [isSome_messageChan]

/-! What the end of a phase makes of its core and task (R181). -/

/-- The core of a task that ends its phase, which stands behind its equals after a plain `yield` (R38). -/
def endedCore (core : Core) (t : Nat) (task : Task) (ph : Phase) : Core :=
  if ph.yieldOp = some false && !ph.handler then standBehind core t task else core

/-- The state in which the running task has ended its phase. -/
def phaseEnded (s : State) (c t : Nat) (task : Task) (ph : Phase) : State :=
  s.setCore c { endedCore (s.core c) t task ph with
    running := none
    tasks := tabPut (endedCore (s.core c) t task ph).tasks t (endedTask (endedCore (s.core c) t task ph) t task ph) }

/-- What follows the end of a phase: the return of `eret`, then the cut that waits, or a withheld fault (R338, R339, R334). -/
def afterPhase (u : State) (c t : Nat) (task : Task) (ph : Phase) : State :=
  let v := match ph.eretOp with
    | none => u
    | some restart => eretEnd u c t restart
  if cutWaits v task then beginCut v c t else takeCardFault v c t

section
variable {s : State} {c t : Nat} {task : Task} {ph : Phase}

theorem phaseEndMove_done (hrun : (s.core c).running = some t) (htask : s.task? c t = some task) (hph : task.phase = some ph)
    (hcut : task.cutting = false) (hdone : phaseDone ph = true) (hend : ph.endOp = false) :
    phaseEndMove c s = afterPhase (phaseEnded s c t task ph) c t task ph := by
  rw [State.task?] at htask
  simp only [phaseEndMove, hrun, htask, hph, hcut, hdone, hend, Bool.not_true, Bool.or_self, Bool.false_eq_true, if_false]
  unfold afterPhase
  cases ph.eretOp <;> rfl

theorem phaseEndMove_waits (hrun : (s.core c).running = some t) (htask : s.task? c t = some task) (hph : task.phase = some ph)
    (hwait : task.cutting = true ∨ phaseDone ph = false ∨ ph.endOp = true) : phaseEndMove c s = s := by
  rw [State.task?] at htask
  simp only [phaseEndMove, hrun, htask, hph]
  refine if_pos ?_
  rcases hwait with h | h | h <;> simp [h]

end

theorem endedCore_eq (core : Core) (t : Nat) (task : Task) (ph : Phase) : endedCore core t task ph = { core with
    lastPicks := if ph.handler = false ∧ ph.yieldOp = some false then tabPut core.lastPicks (pickPrio core t task) t else core.lastPicks } := by
  by_cases h : ph.handler = false ∧ ph.yieldOp = some false
  · simp [endedCore, standBehind, h]
  · rw [endedCore, if_neg h, if_neg (by simpa [and_comm] using h)]

theorem endedTask_endedCore (core : Core) (t : Nat) (task : Task) (ph : Phase) :
    endedTask (endedCore core t task ph) t task ph = endedTask core t task ph := by
  rw [endedCore_eq]
  rfl

theorem core_phaseEnded (s : State) (c t : Nat) (task : Task) (ph : Phase) :
    (phaseEnded s c t task ph).core c = { s.core c with
      tasks := ((phaseEnded s c t task ph).core c).tasks
      running := none
      lastPicks := if ph.handler = false ∧ ph.yieldOp = some false then tabPut (s.core c).lastPicks (pickPrio (s.core c) t task) t
        else (s.core c).lastPicks } := by
  simp only [phaseEnded, State.core_setCore_self, endedCore_eq]

theorem task_phaseEnded (s : State) (c t : Nat) (task : Task) (ph : Phase) (k : Nat) :
    (phaseEnded s c t task ph).task? c k = if k = t then some (endedTask (s.core c) t task ph) else s.task? c k := by
  rw [phaseEnded, State.task_setCore_self, tabFind_tabPut, endedTask_endedCore, endedCore_eq]
  rfl

theorem onlyCore_setCore (s : State) (c : Nat) (x : Core) : onlyCore c s (s.setCore c x) := ⟨rfl, fun _ hd => s.core_setCore_ne x hd⟩

/-- The task after its phase, where no `wdrive` and no feed take it further (R181, R305). -/
theorem endedTask_eq (core : Core) (t : Nat) (task : Task) {ph : Phase} (hw : ph.wdrive = none) (hj : task.seed.joined = false) :
    let idle := ph.yieldOp = some true ∧ ∀ e ∈ boundChans core t, e.2.queue = []
    endedTask core t task ph = { liveOut task ph with
      pc := successor ph
      st := if ph.handler = false then (if idle then .idle else .ready) else task.st
      woken := if ph.handler = false ∧ ph.yieldOp = some true ∧ ¬idle then true else task.woken } := by
  intro idle
  have hseeds (x : Task) (hx : x.seed = task.seed) : retsToSeeds x ph = false := by simp [retsToSeeds, hx, hj]
  cases hh : ph.handler
  · by_cases hy : ph.yieldOp = some true
    · cases hm : (messageChan core t).isSome
      · have hidle : idle := ⟨hy, (messageChan_eq_none_iff core t).1 hm⟩
        simp [endedTask, nextState, hh, hw, hy, hm, hidle, hseeds, liveOut]
      · have hidle : ¬ idle := fun h => Bool.false_ne_true (((messageChan_eq_none_iff core t).2 h.2).symm.trans hm)
        simp [endedTask, nextState, hh, hw, hy, hm, hidle, hseeds, liveOut]
    · have hidle : ¬ idle := fun h => hy h.1
      simp [endedTask, nextState, hh, hw, hy, hidle, hseeds, liveOut]
  · simp [endedTask, hh, liveOut]

/-- The live-outs where no `exit` decided. -/
theorem liveOut_of_none (task : Task) {ph : Phase} (h : ph.exitRes = none) :
    (liveOut task ph).b = ph.wrbs.foldl (fun b x => b.set x.1 x.2.2) task.b ∧ (liveOut task ph).lr = task.lr ∧
      successor ph = succAddr ph.addr ph.hdr 0 := by
  simp [liveOut, successor, h]

/-- The live-outs, then what `exit` chose (Table 9.2). -/
theorem liveOut_of_some (task : Task) {ph : Phase} {r : ExitRes} (h : ph.exitRes = some r) :
    let b := ph.wrbs.foldl (fun b x => b.set x.1 x.2.2) task.b
    successor ph = r.pc ∧ (liveOut task ph).lr = (if r.ret then (b.getD 12 0).toNat % 2 ^ 57 else r.lr.getD task.lr) ∧
      (liveOut task ph).b = (match r.b12 with
        | some v => b.set 12 v
        | none => b) := by
  simp only [liveOut, successor, h, Option.any_some, Option.bind_some, true_and] <;> rfl

theorem takeCardFault_of_none {s : State} {c t : Nat} {task : Task} (htask : s.task? c t = some task) (h : pendingCardFault task = none) :
    takeCardFault s c t = s := by
  simp [takeCardFault, htask, h]

/-! The return (R338). -/

/-- The task that a return leaves. -/
def returnedTask (task : Task) (restart : Bool) : Task :=
  let held := if restart then none else task.held
  { task with
    st := .ready
    phase := held
    held := none
    pc := (match held with
      | some ph => ph.addr
      | none => (task.frec.extractLsb' 288 57).toNat)
    seed := if restart = false ∧ task.held = none then { task.seed with inBlocks := false } else task.seed }

@[simp] theorem State.setCore_setCore (s : State) (c : Nat) (x y : Core) : (s.setCore c x).setCore c y = s.setCore c y := by
  simp only [State.setCore, tabPut_tabPut]

theorem returnFrom_eq {s : State} {c t : Nat} {task : Task} (htask : s.task? c t = some task) (restart : Bool) :
    returnFrom s c t restart = s.setCore c { s.core c with
      tasks := tabPut (s.core c).tasks t (returnedTask task restart)
      running := none
      handlerOwner := none } := by
  have hseed : (!restart && task.held.isNone) = true ↔ restart = false ∧ task.held = none := by simp
  simp only [returnFrom, htask, hseed, State.setTask, State.core_setCore_self, State.setCore_setCore, returnedTask, frecPc] <;> rfl

/-- Settles O44: the task and core that a phase's end leaves, and what a return leaves. -/
theorem phasesEnd : Obligations.PhasesEnd := by
  unfold Obligations.PhasesEnd
  intro s c t task hrun htask
  refine ⟨fun ph hph hwait => ?waits, fun ph hph hcut hdone hend hw hj => ?ends, fun restart => ?returns⟩
  case waits => exact congrArg _ (phaseEndMove_waits hrun htask hph hwait)
  case ends =>
    intro b own idle
    have hexec : exec (.phaseEnd c) s = .next (afterPhase (phaseEnded s c t task ph) c t task ph) :=
      congrArg _ (phaseEndMove_done hrun htask hph hcut hdone hend)
    have htask' : (phaseEnded s c t task ph).task? c t = some (endedTask (s.core c) t task ph) := by rw [task_phaseEnded, if_pos rfl]
    have hended := endedTask_eq (s.core c) t task hw hj
    refine ⟨phaseEnded s c t task ph, endedTask (s.core c) t task ph, ?_, fun heret hcuts hfault => ?_, onlyCore_setCore _ _ _,
      fun k hk => by rw [task_phaseEnded, if_neg hk], core_phaseEnded .., htask', ?_, fun hexit => ?_, fun r hexit => ?_⟩
    · rw [hexec]
      unfold afterPhase
      cases ph.eretOp <;> rfl
    · have hcuts' : cutWaits (phaseEnded s c t task ph) task = false := hcuts
      simp only [hexec, afterPhase, heret, hcuts', takeCardFault_of_none htask' hfault]
      rfl
    · rw [hended]
      rfl
    · obtain ⟨hb, hlr, hpc⟩ := liveOut_of_none task hexit
      rw [hended]
      exact ⟨hb, hlr, hpc⟩
    · rw [hended]
      exact liveOut_of_some task hexit
  case returns =>
    intro u held
    have hu : u = _ := returnFrom_eq htask restart
    rw [hu]
    refine ⟨onlyCore_setCore _ _ _, fun k hk => ?_, ?_, ?_⟩
    · rw [State.task_setCore_self, tabFind_tabPut_ne _ _ hk]
      rfl
    · rw [State.core_setCore_self]
    · rw [State.task_setCore_self, tabFind_tabPut_self]
      rfl

end Sys2Proof.Machine
end

section
/-! PROOFS. What the reads, lookups, boardings and writes of engines and cards leave of the state. -/

namespace Sys2Proof.Machine

/-! Reads, lookups and boardings keep every core and every byte. -/

/-- From s to t the cores, the bytes of memory and the key each block stands under are as before. -/
structure Looks (s t : State) : Prop where
  cores : t.cores = s.cores
  mem : t.mem = s.mem
  views : t.views = s.views

theorem Looks.refl (s : State) : Looks s s := ⟨rfl, rfl, rfl⟩

theorem Looks.trans {s t u : State} (h : Looks s t) (h' : Looks t u) : Looks s u :=
  ⟨h'.cores.trans h.cores, h'.mem.trans h.mem, h'.views.trans h.views⟩

/-- The state of an answer that is known. -/
theorem Looks.of_snd {α : Type} {s t : State} {p : α × State} {a : α} (hp : p = (a, t)) (h : Looks s p.2) : Looks s t := by
  subst hp
  exact h

theorem Looks.core {s t : State} (h : Looks s t) (c : Nat) : t.core c = s.core c := by rw [State.core, h.cores]; rfl

theorem Looks.task {s t : State} (h : Looks s t) (c k : Nat) : t.task? c k = s.task? c k := by rw [State.task?, h.core]; rfl

theorem Looks.byte {s t : State} (h : Looks s t) (a : Nat) : t.byte a = s.byte a := by rw [State.byte, h.mem]; rfl

theorem Looks.viewRead {s t : State} (h : Looks s t) (view key n : Nat) : viewRead t view key n = viewRead s view key n := by
  simp only [Machine.viewRead, shownBlock, h.mem, h.views]

theorem looks_foldl {α : Type} {f : State → α → State} (hf : ∀ s a, Looks s (f s a)) (l : List α) (s : State) : Looks s (l.foldl f s) := by
  induction l generalizing s with
  | nil => exact .refl s
  | cons a l ih => exact (hf s a).trans (ih _)

theorem looks_readCheck (s : State) (key n : Nat) : Looks s (readCheck s key n) := by
  refine looks_foldl (fun s e => ?_) _ s
  dsimp only
  split
  · exact ⟨rfl, rfl, rfl⟩
  · exact ⟨rfl, rfl, rfl⟩

theorem looks_countInTurn (s : State) (key : Nat) : Looks s (countInTurn s key) := by
  unfold countInTurn
  dsimp only
  split
  · exact ⟨rfl, rfl, rfl⟩
  · exact .refl s

theorem looks_countDirect (s : State) (key scope : Nat) : Looks s (countDirect s key scope) := by
  unfold countDirect
  dsimp only
  split
  · exact ⟨rfl, rfl, rfl⟩
  · exact .refl s

theorem looks_walkRequests (s : State) (keys : List Nat) : Looks s (walkRequests s keys) :=
  looks_foldl (fun s k => (looks_readCheck s k 8).trans (looks_countInTurn _ k)) keys s

theorem looks_walk (s : State) (quad part va : Nat) : Looks s (walk s quad part va).2 := by
  unfold walk
  dsimp only
  split
  · exact .refl s
  · split
    · exact ⟨rfl, rfl, rfl⟩
    · exact (looks_walkRequests s _).trans ⟨rfl, rfl, rfl⟩

theorem looks_lookupNoFill (s : State) (quad part va : Nat) : Looks s (lookupNoFill s quad part va).2 := by
  unfold lookupNoFill
  split <;> exact .of_snd ‹_› (looks_walk s quad part va)

theorem looks_lookup (s : State) (quad part va : Nat) : Looks s (lookup s quad part va).2 := by
  unfold lookup
  dsimp only
  split
  · exact ⟨rfl, rfl, rfl⟩
  · split
    · exact .of_snd ‹_› (looks_walk s quad part va)
    · rename_i hw
      exact (Looks.of_snd hw (looks_walk s quad part va)).trans ⟨rfl, rfl, rfl⟩

theorem looks_translate (s : State) (quad part : Nat) (nd : Need) (va : Nat) : Looks s (translate s quad part nd va).2 := by
  have hl : Looks s (if nd.boards then lookupNoFill s quad part va else lookup s quad part va).2 := by
    split
    · exact looks_lookupNoFill s quad part va
    · exact looks_lookup s quad part va
  unfold translate
  split
  · exact .of_snd ‹_› hl
  · split <;> exact .of_snd ‹_› hl

theorem looks_runKeys (c part : Nat) (nd : Need) (va n : Nat) (s : State) : Looks s (runKeys c part nd va n s).2 := by
  unfold runKeys
  dsimp only
  split
  · exact .refl s
  · split
    · exact .refl s
    · split
      · exact looks_translate ..
      · exact (looks_translate ..).trans (looks_translate ..)

theorem looks_directKeys (c part : Nat) (nd : Need) (va n : Nat) (s : State) : Looks s (directKeys c part nd va n s).2 := by
  unfold directKeys
  split
  · exact .refl s
  · exact looks_runKeys ..

theorem looks_checkKeys (s : State) (ks : List MemRun) : Looks s (checkKeys s ks) := looks_foldl (fun s _ => looks_readCheck s _ _) ks s

theorem looks_podSend (s : State) (pkg pa : Nat) : Looks s (podSend s pkg pa) := by
  unfold podSend
  dsimp only
  split
  · exact ⟨rfl, rfl, rfl⟩
  · exact .refl s

theorem looks_podSendKey (s : State) (key : Nat) : Looks s (podSendKey s key) := by
  unfold podSendKey
  split
  · exact looks_podSend ..
  · exact .refl s

theorem looks_podSendRuns (s : State) (ks : List MemRun) : Looks s (podSendRuns s ks) := looks_foldl (fun s _ => looks_podSendKey s _) ks s

/-! Elements read and writes resolved through a record. -/

theorem looks_readStored (c part fmt c0 va : Nat) (foot : Bool) (s : State) : Looks s (readStored c part fmt c0 va foot s).2 := by
  unfold readStored
  have hk := looks_runKeys c part needRead va (elemBytes fmt) s
  split
  · exact .of_snd ‹_› hk
  · have h := Looks.of_snd ‹_› hk
    have hc := fun ks => h.trans ((looks_podSendRuns _ ks).trans (looks_checkKeys _ ks))
    split
    · exact h
    · split
      · exact h
      · dsimp only
        split
        · exact hc _
        · split <;> exact hc _

theorem looks_readElem (c part : Nat) (card : Option (BitVec 512)) (r : BitVec 512) (c0 c1 : Nat) (s : State) :
    Looks s (readElem c part card r c0 c1 s).2 := by
  unfold readElem
  split
  · exact .refl s
  · exact looks_readStored ..

theorem looks_readElems (c part : Nat) (card : Option (BitVec 512)) (r : BitVec 512) (cs : List (Nat × Nat)) (s : State) :
    Looks s (readElems c part card r cs s).2 := by
  induction cs generalizing s with
  | nil => exact .refl s
  | cons x xs ih =>
    have hx := looks_readElem c part card r x.1 x.2 s
    unfold readElems
    split
    · exact .of_snd ‹_› hx
    · have hs := (Looks.of_snd ‹_› hx).trans (ih _)
      split <;> exact .of_snd ‹_› hs

theorem looks_readUnfold (c part : Nat) (card r : BitVec 512) (m n : Nat) (s : State) : Looks s (readUnfold c part card r m n s).2 := by
  induction n generalizing s with
  | zero => exact .refl s
  | succ n ih =>
    unfold readUnfold
    split
    · exact .of_snd ‹_› (ih s)
    · have h := Looks.of_snd ‹_› (ih s)
      split
      · exact h
      · dsimp only
        split <;> exact h.trans (.of_snd ‹_› (looks_readStored ..))

theorem looks_writeRuns (c part : Nat) (card : Option (BitVec 512)) (r : BitVec 512) (c0 c1 n : Nat) (s : State) :
    Looks s (writeRuns c part card r c0 c1 n s).2 := by
  unfold writeRuns
  split
  · exact .refl s
  · dsimp only
    split
    · exact .refl s
    · have hk := looks_runKeys c part needWrite (elemAddress r c0 c1) n s
      generalize Option.all _ card = touches
      split
      · exact .of_snd ‹_› hk
      · have h := Looks.of_snd ‹_› hk
        split
        · exact h
        · split
          · exact h
          · split <;> exact h

theorem looks_resolvePuts (c part : Nat) (card : Option (BitVec 512)) (r : BitVec 512) (p : Bool) (cells : List (Nat × Nat × Nat × Nat)) (s : State) :
    Looks s (resolvePuts c part card r p cells s).2 := by
  induction cells generalizing s with
  | nil => exact .refl s
  | cons x xs ih =>
    have hx := looks_writeRuns c part card r x.1 x.2.1 x.2.2.1 s
    unfold resolvePuts
    split
    · exact .of_snd ‹_› hx
    · have hs := (Looks.of_snd ‹_› hx).trans (ih _)
      split <;> exact .of_snd ‹_› hs

/-! Boardings (R223). -/

/-- Whether a rider asks for leave as it enters: a kernel or bank-MAC rider of a task (R393). -/
def riderAsks (r : Rider) : Bool := r.kind == 0 && needsPipe (if r.op = 0xD4 then standKind r.sub else r.op)

/-- The state once the ticket of a rider is taken and it stands under its key, its request for leave apart (R218). -/
def ticketed (s : State) (r : Rider) : State :=
  let t := takeTicket s r.part
  let key := riderKey r.part t.1
  let first := { r with ticket := t.1, asked := riderAsks r }
  if r.standing then (t.2.setRider (2 ^ 80 + key) { first with standing := true }).setRider key { first with standing := false, parent := some (2 ^ 80 + key) }
  else t.2.setRider key first

theorem enterRider_eq (s : State) (r : Rider) : enterRider s r = ((s.partn r.part).tickets,
    if riderAsks r then askLeave (ticketed s r) (dieOfCore r.core) ⟨1, prioOf (ticketed s r) r.job, r.core, r.task, 1, r.seq,
      some (if r.standing then 2 ^ 80 + riderKey r.part (s.partn r.part).tickets else riderKey r.part (s.partn r.part).tickets), 0⟩
    else ticketed s r) := rfl

theorem looks_ticketed (s : State) (r : Rider) : Looks s (ticketed s r) := by
  unfold ticketed
  dsimp only
  split <;> exact ⟨rfl, rfl, rfl⟩

theorem looks_enterRider (s : State) (r : Rider) : Looks s (enterRider s r).2 := by
  rw [enterRider_eq]
  dsimp only
  split
  · exact (looks_ticketed s r).trans ⟨rfl, rfl, rfl⟩
  · exact looks_ticketed s r

/-- A rider that has entered stands under its key as it was, but for its ticket, its request and its turn of a standing one. -/
theorem enterRider_rider (s : State) (r : Rider) : ∃ y, (enterRider s r).2.rider? (riderKey r.part (s.partn r.part).tickets) = some y ∧
    y = { r with ticket := y.ticket, asked := y.asked, standing := y.standing, parent := y.parent } := by
  have ht : ∃ y, (ticketed s r).rider? (riderKey r.part (s.partn r.part).tickets) = some y ∧
      y = { r with ticket := y.ticket, asked := y.asked, standing := y.standing, parent := y.parent } := by
    unfold ticketed takeTicket
    dsimp only
    split
    · exact ⟨_, State.rider_setRider_self _ _ _, rfl⟩
    · exact ⟨_, State.rider_setRider_self _ _ _, rfl⟩
  rw [enterRider_eq]
  dsimp only
  split
  · exact ht
  · exact ht

theorem looks_listLines (quad part : Nat) (nd : Need) (ls : List (Nat × Nat)) (s : State) : Looks s (listLines quad part nd ls s).2.2 := by
  induction ls generalizing s with
  | nil => exact .refl s
  | cons x xs ih =>
    have hx := looks_lookupNoFill s quad part (256 * x.2)
    unfold listLines
    split <;> exact (Looks.of_snd ‹_› hx).trans (ih _)

theorem looks_boardReader (s : State) (c part j rank : Nat) (lines : List Nat) : Looks s (boardReader s c part j rank lines).2 := by
  unfold boardReader
  dsimp only
  have h := looks_listLines (quadOfCore c) part needRead ((List.range lines.length).zip lines) s
  split
  · exact h
  · refine h.trans ?_
    dsimp only
    exact looks_enterRider _ _

theorem looks_boardWriter (s : State) (c part j rank : Nat) (lines : List Nat) : Looks s (boardWriter s c part j rank lines).2 := by
  unfold boardWriter
  dsimp only
  have h := looks_listLines (quadOfCore c) part needWrite ((List.range lines.length).zip lines) s
  split
  · exact h
  · refine h.trans ?_
    dsimp only
    exact looks_enterRider _ _

theorem looks_readerFor (s : State) (c : Nat) (task : Task) (lines : List Nat) : Looks s (readerFor s c task lines).2 := by
  unfold readerFor
  split
  · exact .refl s
  · split <;> exact .of_snd ‹_› (looks_boardReader ..)

theorem looks_writerFor (s : State) (c : Nat) (task : Task) (lines : List Nat) : Looks s (writerFor s c task lines).2 := by
  unfold writerFor
  split
  · exact .refl s
  · split <;> exact .of_snd ‹_› (looks_boardWriter ..)

theorem looks_sweptLines (quad part : Nat) (r : BitVec 512) (s : State) : Looks s (sweptLines quad part r s).2 := by
  unfold sweptLines
  dsimp only
  generalize (List.range (unitCount r)).foldl _ [] = lines
  suffices h : ∀ a : List Nat × State, Looks s a.2 → Looks s (lines.foldl (fun acc l =>
      let r := lookupNoFill acc.2 quad part (256 * l)
      (match r.1 with
        | .ok pl => if peSwept pl.leaf && peTgt pl.leaf == 0 then acc.1 ++ [l] else acc.1
        | .error _ => acc.1, r.2)) a).2 from h ([], s) (.refl s)
  intro a ha
  induction lines generalizing a with
  | nil => exact ha
  | cons l ls ih => exact ih _ (ha.trans (looks_lookupNoFill ..))

theorem looks_prepareBank (s : State) (c t : Nat) (task : Task) (card : BitVec 512) (ty : Option Nat) (rows : Nat) :
    Looks s (prepareBank s c t task card ty rows).2 := by
  unfold prepareBank
  dsimp only
  have h := looks_listLines (quadOfCore c) task.part needRead
    ((List.range (weightLines (recOf (s.core c) (mcWrec card))).length).zip (weightLines (recOf (s.core c) (mcWrec card)))) s
  split
  · exact h
  · split <;> exact h.trans (.of_snd ‹_› (looks_readElems ..))

theorem looks_dropCardRiders (s : State) (k : Card) : Looks s (dropCardRiders s k) := ⟨rfl, rfl, rfl⟩

theorem looks_releaseDeposit (s : State) (k : Card) : Looks s (releaseDeposit s k) := by
  unfold releaseDeposit
  split
  · unfold releaseWriter
    split
    · exact .refl s
    · exact ⟨rfl, rfl, rfl⟩
  · exact .refl s

end Sys2Proof.Machine
end

section
/-! PROOFS. The bytes that runs written leave (R361, R365), and what a read or write of a scratchpad run is (R149, R196). -/

namespace Sys2Proof.Machine

/-! Writes do not look at the cores. -/

/-- The state with other cores. -/
def State.withCores (s : State) (x : List (Nat × Core)) : State := { s with cores := x }

@[simp] theorem withCores_self (s : State) : s.withCores s.cores = s := rfl

theorem setTask_eq_withCores (s : State) (c t : Nat) (x : Task) : s.setTask c t x = s.withCores (s.setTask c t x).cores := rfl

/-- An operation that does not look at the cores and leaves them. -/
def blindToCores (f : State → State) : Prop := ∀ s x, f (s.withCores x) = (f s).withCores x

theorem blindToCores.cores {f : State → State} (h : blindToCores f) (s : State) : (f s).cores = s.cores := by
  have := h s s.cores
  rw [withCores_self] at this
  rw [this]
  rfl

theorem blindToCores_foldl {α : Type} {f : State → α → State} (h : ∀ a, blindToCores fun s => f s a) (l : List α) :
    blindToCores fun s => l.foldl f s := by
  induction l with
  | nil => exact fun _ _ => rfl
  | cons a l ih =>
    intro s x
    simp only [List.foldl_cons]
    have ha : f (s.withCores x) a = (f s a).withCores x := h a s x
    rw [ha]
    exact ih (f s a) x

theorem blindToCores_podSendKey (key : Nat) : blindToCores fun s => podSendKey s key := by
  intro s x
  unfold podSendKey podSend
  have hup : upPorts (s.withCores x) = upPorts s := rfl
  simp only [hup]
  split
  · split <;> rfl
  · rfl

theorem blindToCores_takeView (view key n : Nat) : blindToCores fun s => takeView s view key n := by
  intro s x
  unfold takeView
  dsimp only
  split
  · rfl
  · exact blindToCores_foldl (f := fun s b => _) (fun b s x => rfl) _ s x

theorem blindToCores_writeView (view key n y : Nat) (p : Bool) : blindToCores fun s => writeView s view key n y p := by
  intro s x
  have h := blindToCores_takeView view key n s x
  unfold writeView
  dsimp only at h ⊢
  rw [h]
  rfl

theorem blindToCores_writeKeys (ks : List MemRun) (y : Nat) (p : Bool) : blindToCores fun s => writeKeys s ks y p := by
  induction ks generalizing y with
  | nil => exact fun _ _ => rfl
  | cons k ks ih =>
    intro s x
    unfold writeKeys
    have h := blindToCores_writeView k.view k.key k.len (y % 2 ^ (8 * k.len)) p s x
    dsimp only at h ⊢
    rw [h]
    exact ih _ _ x

theorem readKeys_withCores (s : State) (x : List (Nat × Core)) (ks : List MemRun) : readKeys (s.withCores x) ks = readKeys s ks := by
  induction ks with
  | nil => rfl
  | cons k ks ih =>
    unfold readKeys
    rw [ih]
    rfl

theorem blindToCores_doPut (p : Put) : blindToCores fun s => doPut s p := by
  intro s x
  have hp := blindToCores_foldl (fun k : MemRun => blindToCores_podSendKey k.key) p.keys s x
  unfold doPut podSendRuns
  dsimp only at hp ⊢
  rw [hp, readKeys_withCores]
  split <;> exact blindToCores_writeKeys ..

theorem blindToCores_doPuts (ps : List Put) : blindToCores fun s => ps.foldl doPut s := blindToCores_foldl blindToCores_doPut ps

theorem core_of_cores {s t : State} (h : t.cores = s.cores) (c : Nat) : t.core c = s.core c := by rw [State.core, h]; rfl

theorem task_of_cores {s t : State} (h : t.cores = s.cores) (c k : Nat) : t.task? c k = s.task? c k := by
  rw [State.task?, core_of_cores h]
  rfl

theorem cores_doPuts (ps : List Put) (s : State) : (ps.foldl doPut s).cores = s.cores := (blindToCores_doPuts ps).cores s

/-! Bytes after a run is written. -/

theorem mem_blocksOf {key n b : Nat} : b ∈ blocksOf key n ↔ key / 16 ≤ b ∧ b ≤ (key + n - 1) / 16 := by
  simp only [blocksOf, List.mem_map, List.mem_range]
  constructor
  · rintro ⟨i, hi, rfl⟩
    omega
  · intro h
    exact ⟨b - key / 16, by omega, by omega⟩

/-- The blocks of a list put under a reading: a byte whose block is not among them, or stands under that reading, is as before. -/
theorem byte_foldl_takeView (view : Nat) (a : Nat) (l : List Nat) (s : State) (h : a / 16 ∈ l → ∀ v, tabFind s.views (a / 16) = some v → v = view) :
    (l.foldl (fun s b =>
      { s with mem := if (tabFind s.views b).any fun v => v != view then memWrite s.mem (16 * b) 16 (shownBlock s view b) else s.mem
               views := tabPut s.views b view }) s).byte a = s.byte a := by
  induction l generalizing s with
  | nil => rfl
  | cons b l ih =>
    rw [List.foldl_cons, ih]
    · simp only [State.byte]
      split
      · rename_i hv
        obtain ⟨v, hv, hne⟩ := (Option.any_eq_true _ _).1 hv
        refine memByte_memWrite_ne _ _ _ _ _ ?_
        by_cases hb : a / 16 = b
        · exact absurd (h (by simp [hb]) v (by rw [hb]; exact hv)) (by simpa using hne)
        · omega
      · rfl
    · intro hl v hv
      simp only [tabFind_tabPut] at hv
      split at hv
      · exact (Option.some.inj hv).symm
      · exact h (List.mem_cons_of_mem _ hl) v hv

theorem byte_takeView (s : State) (view key n a : Nat) (h : view = 0 ∨ n = 0 ∨ a / 16 ∉ blocksOf key n ∨ ∀ v, tabFind s.views (a / 16) = some v → v = view) :
    (takeView s view key n).byte a = s.byte a := by
  unfold takeView
  split
  · rfl
  · rename_i hc
    refine byte_foldl_takeView view a _ s fun hm => ?_
    rcases h with h | h | h | h
    · exact absurd (by simp [h]) hc
    · exact absurd (by simp [h]) hc
    · exact absurd hm h
    · exact h

theorem byte_writeRun_of_lt (s : State) (key n x : Nat) (p : Bool) {a : Nat} (h1 : key ≤ a) (h2 : a < key + n) :
    (writeRun s key n x p).byte a = byteOf x (a - key) := by
  have := memByte_memWrite s.mem key n x (a - key) (by omega)
  rwa [Nat.add_sub_cancel' h1] at this

theorem byte_writeRun_ne (s : State) (key n x : Nat) (p : Bool) {a : Nat} (h : a < key ∨ key + n ≤ a) : (writeRun s key n x p).byte a = s.byte a :=
  memByte_memWrite_ne s.mem key n x a h

/-- A write under a reading writes its bytes (R361, R365). -/
theorem bytesWritten_writeView (s : State) (view key n x : Nat) (p : Bool) : bytesWritten s (writeView s view key n x p) view key n (byteOf x) := by
  unfold writeView
  refine ⟨fun a h1 h2 => byte_writeRun_of_lt _ _ _ _ _ h1 h2, fun a ha => ?_, fun hv a ha => ?_⟩
  · by_cases hn : n = 0
    · subst hn
      rw [byte_writeRun_ne _ _ _ _ _ (by omega), byte_takeView _ _ _ _ _ (.inr (.inl rfl))]
    · rw [byte_writeRun_ne _ _ _ _ _ (by omega), byte_takeView _ _ _ _ _ (.inr (.inr (.inl fun h => ?_)))]
      have := mem_blocksOf.1 h
      omega
  · rw [byte_writeRun_ne _ _ _ _ _ ha]
    refine byte_takeView _ _ _ _ _ ?_
    rcases hv with hv | hv
    · exact .inl hv
    · by_cases hm : a / 16 ∈ blocksOf key n
      · exact .inr (.inr (.inr (hv _ hm)))
      · exact .inr (.inr (.inl hm))

theorem bytesWritten.congr {s t u : State} {view key n : Nat} {f : Nat → Byte} (h : bytesWritten s t view key n f) (hu : ∀ a, u.byte a = t.byte a) :
    bytesWritten s u view key n f := by
  obtain ⟨hin, hout, hview⟩ := h
  exact ⟨fun a h1 h2 => (hu a).trans (hin a h1 h2), fun a ha => (hu a).trans (hout a ha), fun hv a ha => (hu a).trans (hview hv a ha)⟩

theorem bytesWritten.congrBytes {s t : State} {view key n : Nat} {f g : Nat → Byte} (h : bytesWritten s t view key n f) (hg : ∀ k, k < n → g k = f k) :
    bytesWritten s t view key n g := by
  obtain ⟨hin, hrest⟩ := h
  exact ⟨fun a h1 h2 => (hin a h1 h2).trans (hg _ (by omega)).symm, hrest⟩

/-- The bytes of a number cut to its run. -/
theorem byteOf_mod (x : Nat) {n k : Nat} (hk : k < n) : byteOf (x % 2 ^ (8 * n)) k = byteOf x k := by
  apply BitVec.eq_of_toNat_eq
  have hp : 2 ^ (8 * n) = 256 ^ k * (256 * 256 ^ (n - k - 1)) := by
    rw [show (256 : Nat) = 2 ^ 8 from rfl, ← pow_mul, ← pow_mul, ← pow_add, ← pow_add]
    congr 1
    omega
  simp only [byteOf, BitVec.toNat_ofNat]
  rw [hp, Nat.mod_mul_right_div_self, show (2 : Nat) ^ 8 = 256 from rfl, Nat.mod_mul_right_mod]

/-! Runs of a scratchpad window (R149). -/

theorem isRemote_keyScratch {c va : Nat} (hc : c < 512) (hva : inWindow va = true) : isRemote (keyScratch c va) = false := by
  have hlt : va < 0x180000 := of_decide_eq_true hva
  have : ¬ 2 ^ 72 ≤ keyScratch c va := by
    simp only [keyScratch]
    omega
  rw [isRemote, decide_eq_false this, Bool.false_and]

theorem isHost_keyScratch {c va : Nat} (hc : c < 512) (hva : inWindow va = true) : isHost (keyScratch c va) = false := by
  have hlt : va < 0x180000 := of_decide_eq_true hva
  refine decide_eq_false ?_
  simp only [keyScratch]
  omega

theorem runKeys_window {va n : Nat} (h : inWindow va = true) (h' : inWindow (va + n - 1) = true) (c part : Nat) (nd : Need) (s : State) :
    runKeys c part nd va n s = (.ok [⟨keyScratch c va, n, 0⟩], s) := by
  simp only [runKeys, h, h', if_true]

theorem podSendRuns_scratch {c va : Nat} (hc : c < 512) (hva : inWindow va = true) (s : State) (n : Nat) :
    podSendRuns s [⟨keyScratch c va, n, 0⟩] = s := by
  simp only [podSendRuns, List.foldl_cons, List.foldl_nil, podSendKey, isRemote_keyScratch hc hva, Bool.false_eq_true, if_false]

theorem readKeys_scratch (s : State) (key n : Nat) : readKeys s [⟨key, n, 0⟩] = memRead s.mem key n := by
  simp [readKeys, viewRead]

theorem readCheck_of_no_latent {s : State} (h : s.latent = []) (key n : Nat) : readCheck s key n = s := by
  simp only [readCheck, h, List.filter_nil, List.foldl_nil]

/-- Whole bytes put at a scratchpad run. -/
theorem doPut_scratch {c va : Nat} (hc : c < 512) (hva : inWindow va = true) (s : State) (n x : Nat) (p : Bool) :
    doPut s ⟨[⟨keyScratch c va, n, 0⟩], x, none, p⟩ = writeView s 0 (keyScratch c va) n (x % 2 ^ (8 * n)) p := by
  simp only [doPut, podSendRuns_scratch hc hva, writeKeys]

theorem bytesWritten_doPut_scratch {c va : Nat} (hc : c < 512) (hva : inWindow va = true) (s : State) (n x : Nat) (p : Bool) :
    bytesWritten s (doPut s ⟨[⟨keyScratch c va, n, 0⟩], x, none, p⟩) 0 (keyScratch c va) n (byteOf x) := by
  rw [doPut_scratch hc hva]
  exact (bytesWritten_writeView _ _ _ _ _ _).congrBytes fun k hk => (byteOf_mod x hk).symm

end Sys2Proof.Machine
end

section
/-! PROOFS. The checks of cards at their append (R195, R198, R201 to R205, R294, R296 to R298). -/

namespace Sys2Proof.Machine

/-- Bits of a card set that its instruction does not use (R195). -/
def reservedSet (card : BitVec 512) (mask : Nat) : Prop := card.toNat % 2 ^ 256 &&& (2 ^ 256 - 1 - mask) ≠ 0

/-- What makes a matrix card bad, its limits by opcode (Tables 10.4 and 10.5). -/
def matrixBad (s : State) (c op sub ty : Nat) (card : BitVec 512) : Prop :=
  reservedSet card (matrixMask op sub card) ∨ footprintOk card = false ∨ (op = 0xB8 ∧ kMax ty < mcK card) ∨
    ((op = 0xB9 ∨ op = 0xC0) ∧ mcLatch card = true ∧ kMax (recFmt (recOf (s.core c) (mcWrec card))) < mcK card) ∨ (op = 0xC0 ∧ mcOw card = 0) ∨
    (op = 0xBA ∧ ty = 6 ∧ mcN card % 32 ≠ 0) ∨ (op = 0xBC ∧ 15 < (mcCnt card - 1) / mcAstr card) ∨ (op = 0xBF ∧ 2 ≤ sub ∧ mcM card < mcMs card)

theorem matrixCheck_cond (s : State) (c op sub ty : Nat) (card : BitVec 512) :
    ((card.toNat % 2 ^ 256 &&& (2 ^ 256 - 1 - matrixMask op sub card) != 0 || !footprintOk card ||
      ((op == 0xB8 || ((op == 0xB9 || op == 0xC0) && mcLatch card)) && kMax (if op = 0xB8 then ty else recFmt (recOf (s.core c) (mcWrec card))) < mcK card) ||
      (op == 0xC0 && mcOw card == 0) || (op == 0xBA && ty == 6 && mcN card % 32 != 0) || (op == 0xBC && 15 < (mcCnt card - 1) / mcAstr card) ||
      (op == 0xBF && 2 ≤ sub && mcM card < mcMs card)) = true) ↔ matrixBad s c op sub ty card := by
  by_cases h8 : op = 0xB8
  · subst h8
    simp [matrixBad, reservedSet, or_assoc]
  · simp [matrixBad, reservedSet, h8, or_assoc, and_assoc]

theorem matrixCheck_bad {s : State} {c op sub ty : Nat} {card : BitVec 512} (h : matrixBad s c op sub ty card) :
    matrixCheck s c op sub ty card = some { cls := 0x05 } := if_pos ((matrixCheck_cond s c op sub ty card).2 h)

theorem matrixCheck_none {s : State} {c op sub ty : Nat} {card : BitVec 512} (h : ¬matrixBad s c op sub ty card) :
    matrixCheck s c op sub ty card = none := if_neg fun hc => h ((matrixCheck_cond s c op sub ty card).1 hc)

/-- The limits that a matrix card keeps where its check passes. -/
theorem matrixCheck_passes {s : State} {c op sub ty : Nat} {card : BitVec 512} (hres : ¬reservedSet card (matrixMask op sub card))
    (hfoot : footprintOk card = true) (h8 : op = 0xB8 → mcK card ≤ kMax ty)
    (h9 : op = 0xB9 ∨ op = 0xC0 → mcLatch card = true → mcK card ≤ kMax (recFmt (recOf (s.core c) (mcWrec card))))
    (hC : op = 0xC0 → mcOw card ≠ 0) (hA : op = 0xBA → ty = 6 → mcN card % 32 = 0)
    (hB : op = 0xBC → (mcCnt card - 1) / mcAstr card ≤ 15) (hF : op = 0xBF → 2 ≤ sub → mcMs card ≤ mcM card) :
    matrixCheck s c op sub ty card = none := by
  refine matrixCheck_none ?_
  rintro (h | h | ⟨ho, h⟩ | ⟨ho, hl, h⟩ | ⟨ho, h⟩ | ⟨ho, ht, h⟩ | ⟨ho, h⟩ | ⟨ho, hs, h⟩)
  · exact hres h
  · exact Bool.false_ne_true (h.symm.trans hfoot)
  · exact absurd (h8 ho) (by omega)
  · exact absurd (h9 ho hl) (by omega)
  · exact hC ho h
  · exact h (hA ho ht)
  · exact absurd (hB ho) (by omega)
  · exact absurd (hF ho hs) (by omega)

/-! Engine cards. -/

/-- Source and destination of a card agree in format and in number of elements (R296, R298). -/
def recsAlike (src dst : BitVec 512) : Prop := recFmt src = recFmt dst ∧ elemCount src = elemCount dst

/-- The buffer of a copy is declared by a task of the job where it stands (R296). -/
def bufDeclared (s : State) (f : Foc) (card : BitVec 512) : Prop :=
  ecCbn card ≤ 30 ∧ ∃ e ∈ (s.core (ecDcore card)).tasks, e.2.job = f.task.job ∧ e.2.bufs.getLsbD (ecCbn card) = true

/-- The form of a collective card is out of its range (R297). -/
def collBad (escope : Nat) (card : BitVec 512) : Prop :=
  4 < ecOp card ∨ 2 < ecFold card ∨ ecFtype card ∉ [0, 1, 11, 12] ∨ (escope < 4 ∧ ecKey card ≠ 0) ∨ (ecOp card ≠ 3 ∧ ecOp card ≠ 4 ∧ ecRoot card ≠ 0)

theorem recsAlike_cond (src dst : BitVec 512) : (recFmt src != recFmt dst || elemCount src != elemCount dst) = true ↔ ¬recsAlike src dst := by
  simp only [recsAlike, Bool.or_eq_true, bne_iff_ne]
  tauto

theorem bufDeclared_cond (s : State) (f : Foc) (card : BitVec 512) :
    (30 < ecCbn card || !((s.core (ecDcore card)).tasks.any fun e => e.2.job == f.task.job && e.2.bufs.getLsbD (ecCbn card))) = true ↔ ¬bufDeclared s f card := by
  simp [bufDeclared, or_iff_not_imp_left]

theorem collBad_cond (escope : Nat) (card : BitVec 512) : (4 < ecOp card || 2 < ecFold card ||
    !(ecFtype card == 11 || ecFtype card == 12 || ecFtype card == 0 || ecFtype card == 1) || (escope < 4 && ecKey card != 0) ||
    (ecOp card != 3 && ecOp card != 4 && ecRoot card != 0)) = true ↔ collBad escope card := by
  simp [collBad, or_assoc, and_assoc]
  tauto

theorem engineCheck_reserved {s : State} {f : Foc} {op escope : Nat} {card : BitVec 512}
    (h : reservedSet card (engineMask op card) ∨ footprintOk card = false) : engineCheck s f op escope card = some { cls := 0x05 } := by
  unfold engineCheck
  refine if_pos ?_
  simpa [reservedSet] using h

/-- The card's own conditions, where its reserved bits and its footprint are as they must be. -/
theorem engineCheck_sound {s : State} {f : Foc} {op escope : Nat} {card : BitVec 512} (hres : ¬reservedSet card (engineMask op card))
    (hfoot : footprintOk card = true) : engineCheck s f op escope card =
      if op = 0xD8 then
        if ecCw card && ecCwaddr card % 4 != 0 then some { cls := 0x05, addr := ecCwaddr card }
        else if ecTocb card then
          if !((s.partn f.task.part).quads.contains (quadOfCore (ecDcore card))) then some { cls := 0x0E }
          else if 30 < ecCbn card || !((s.core (ecDcore card)).tasks.any fun e => e.2.job == f.task.job && e.2.bufs.getLsbD (ecCbn card)) then some { cls := 0x0D }
          else none
        else if recFmt (recOf f.core (ecSrec card)) != recFmt (recOf f.core (ecDrec card)) ||
          elemCount (recOf f.core (ecSrec card)) != elemCount (recOf f.core (ecDrec card)) then some { cls := 0x05 }
        else none
      else if op = 0xD9 then
        if 4 < ecOp card || 2 < ecFold card || !(ecFtype card == 11 || ecFtype card == 12 || ecFtype card == 0 || ecFtype card == 1) ||
            (escope < 4 && ecKey card != 0) || (ecOp card != 3 && ecOp card != 4 && ecRoot card != 0) then some { cls := 0x05 } else none
      else if ecSrec card == ecDrec card || recFmt (recOf f.core (ecSrec card)) != recFmt (recOf f.core (ecDrec card)) ||
        elemCount (recOf f.core (ecSrec card)) != elemCount (recOf f.core (ecDrec card)) then some { cls := 0x05 }
      else none := by
  unfold engineCheck
  refine if_neg ?_
  simpa [reservedSet, hfoot] using hres

theorem sound_or_bad {s : State} {f : Foc} {op escope : Nat} {card : BitVec 512}
    (h : ¬reservedSet card (engineMask op card) → footprintOk card = true → engineCheck s f op escope card = some { cls := 0x05 }) :
    engineCheck s f op escope card = some { cls := 0x05 } := by
  by_cases hres : reservedSet card (engineMask op card)
  · exact engineCheck_reserved (.inl hres)
  · cases hfoot : footprintOk card
    · exact engineCheck_reserved (.inr hfoot)
    · exact h hres hfoot

section Sound
variable {s : State} {f : Foc} {escope : Nat} {card : BitVec 512}

open scoped Classical in
theorem engineCheck_ring (hres : ¬reservedSet card (engineMask 0xDA card)) (hfoot : footprintOk card = true) :
    engineCheck s f 0xDA escope card = if ecSrec card = ecDrec card ∨ ¬recsAlike (recOf f.core (ecSrec card)) (recOf f.core (ecDrec card))
      then some { cls := 0x05 } else none := by
  rw [engineCheck_sound hres hfoot, if_neg (by decide), if_neg (by decide)]
  refine if_congr ?_ rfl rfl
  rw [Bool.or_assoc, Bool.or_eq_true, recsAlike_cond, beq_iff_eq]

open scoped Classical in
theorem engineCheck_coll (hres : ¬reservedSet card (engineMask 0xD9 card)) (hfoot : footprintOk card = true) :
    engineCheck s f 0xD9 escope card = if collBad escope card then some { cls := 0x05 } else none := by
  rw [engineCheck_sound hres hfoot, if_neg (by decide), if_pos rfl]
  exact if_congr (collBad_cond escope card) rfl rfl

open scoped Classical in
theorem engineCheck_copy (hres : ¬reservedSet card (engineMask 0xD8 card)) (hfoot : footprintOk card = true)
    (hcw : ecCw card = true → ecCwaddr card % 4 = 0) :
    engineCheck s f 0xD8 escope card =
      if ecTocb card = true then
        if quadOfCore (ecDcore card) ∉ (s.partn f.task.part).quads then some { cls := 0x0E }
        else if ¬bufDeclared s f card then some { cls := 0x0D } else none
      else if ¬recsAlike (recOf f.core (ecSrec card)) (recOf f.core (ecDrec card)) then some { cls := 0x05 } else none := by
  rw [engineCheck_sound hres hfoot, if_pos rfl, if_neg (by simpa using hcw)]
  refine if_congr Iff.rfl (if_congr ?_ rfl (if_congr ?_ rfl rfl)) (if_congr ?_ rfl rfl)
  · simp
  · exact bufDeclared_cond s f card
  · exact recsAlike_cond _ _

end Sound

end Sys2Proof.Machine
end

section
/-! PROOFS. Cards in their chains, the moves of their rows, and the units of engine cards (R293, R294, R296 to R298). -/

namespace Sys2Proof.Machine

/-! A card written back (R289). -/

theorem seq_of_cardOf {task : Task} {chain n : Nat} {k : Card} (h : cardOf task chain n = some k) : k.seq = n := by
  have := List.find?_some h
  simpa using this

theorem putCard_eq {s : State} {c t : Nat} {task : Task} (h : s.task? c t = some task) (chain : Nat) (k : Card) :
    putCard s c t chain k = s.setTask c t (setCard task chain k) := by
  unfold putCard
  rw [h]

@[simp] theorem chainOf_setCard_self (task : Task) (chain : Nat) (k : Card) : chainOf (setCard task chain k) chain =
    { chainOf task chain with cards := (chainOf task chain).cards.map fun y => if y.seq = k.seq then k else y } := tabGet_tabPut_self _ _ _ _

/-- A card written back stands in place of the one of its number, and every other card stays. -/
theorem cardOf_setCard (task : Task) (chain : Nat) (k : Card) (n : Nat) :
    cardOf (setCard task chain k) chain n = (cardOf task chain n).map fun y => if y.seq = k.seq then k else y := by
  rw [cardOf, chainOf_setCard_self]
  dsimp only
  rw [List.find?_map]
  refine congrArg _ (List.find?_congr fun y _ => ?_)
  dsimp only [Function.comp]
  split
  · rename_i h
    rw [h]
  · rfl

theorem cardOf_setCard_self {task : Task} {chain n : Nat} {y k : Card} (h : cardOf task chain n = some y) (hn : k.seq = n) :
    cardOf (setCard task chain k) chain n = some k := by
  rw [cardOf_setCard, h, Option.map_some, if_pos ((seq_of_cardOf h).trans hn.symm)]

theorem cardOf_setCard_ne {task : Task} {chain n : Nat} {k : Card} (hn : n ≠ k.seq) : cardOf (setCard task chain k) chain n = cardOf task chain n := by
  rw [cardOf_setCard]
  cases h : cardOf task chain n with
  | none => rfl
  | some y => rw [Option.map_some, if_neg (by rw [seq_of_cardOf h]; exact hn)]

/-- The card that a chain of a task holds under a number. -/
def cardAt (s : State) (c t chain n : Nat) : Option Card := (s.task? c t).bind fun y => cardOf y chain n

theorem cardAt_eq {s : State} {c t : Nat} {task : Task} (h : s.task? c t = some task) (chain n : Nat) : cardAt s c t chain n = cardOf task chain n := by
  rw [cardAt, h, Option.bind_some]

theorem exists_of_cardAt {s : State} {c t chain n : Nat} {k : Card} (h : cardAt s c t chain n = some k) :
    ∃ task, s.task? c t = some task ∧ cardOf task chain n = some k := Option.bind_eq_some_iff.1 h

theorem task_putCard_of_ne {s : State} {c t d j : Nat} (h : (d, j) ≠ (c, t)) (chain : Nat) (k : Card) : (putCard s c t chain k).task? d j = s.task? d j := by
  unfold putCard
  split
  · by_cases hd : d = c
    · subst hd
      exact s.task_setTask_ne d _ fun hj => h (by rw [hj])
    · exact s.task_setTask_core t _ hd j
  · rfl

/-- What stands in a chain once a card is written back. -/
theorem cardAt_putCard_self {s : State} {c t chain n : Nat} {y k : Card} (h : cardAt s c t chain n = some y) (hn : k.seq = n) :
    cardAt (putCard s c t chain k) c t chain n = some k := by
  obtain ⟨task, htask, hy⟩ := exists_of_cardAt h
  rw [putCard_eq htask, cardAt_eq (State.task_setTask_self _ _ _ _)]
  exact cardOf_setCard_self hy hn

theorem cardAt_putCard_ne {s : State} {c t d j chain n : Nat} {k : Card} (h : (d, j, n) ≠ (c, t, k.seq)) :
    cardAt (putCard s c t chain k) d j chain n = cardAt s d j chain n := by
  by_cases hd : (d, j) = (c, t)
  · obtain ⟨rfl, rfl⟩ := Prod.mk.inj hd
    have hn : n ≠ k.seq := fun hn => h (by rw [hn])
    cases htask : s.task? d j with
    | none => simp only [putCard, htask]
    | some task => rw [putCard_eq htask, cardAt_eq (State.task_setTask_self _ _ _ _), cardAt_eq htask, cardOf_setCard_ne hn]
  · rw [cardAt, task_putCard_of_ne hd, cardAt]

theorem Looks.cardAt {s t : State} (h : Looks s t) (c k chain n : Nat) : cardAt t c k chain n = cardAt s c k chain n := by
  rw [Machine.cardAt, h.task, Machine.cardAt]

theorem putCard_withCores (s : State) (c t chain : Nat) (k : Card) : putCard s c t chain k = s.withCores (putCard s c t chain k).cores := by
  unfold putCard
  split
  · exact setTask_eq_withCores ..
  · rfl

theorem byte_putCard (s : State) (c t chain : Nat) (k : Card) (a : Nat) : (putCard s c t chain k).byte a = s.byte a := by
  rw [putCard_withCores]
  rfl

theorem recs_putCard (s : State) (c t chain : Nat) (k : Card) (d : Nat) : ((putCard s c t chain k).core d).recs = (s.core d).recs := by
  unfold putCard
  split
  · by_cases hd : d = c
    · subst hd
      rw [State.core_setTask_self]
    · rw [s.core_setTask_ne t _ hd]
  · rfl

/-! The outcome of a row (R207). -/

/-- A card whose generator withholds a fault (R207). -/
def withheldFor (k : Card) (chain : Nat) (e : FaultInfo) (gen iter : Nat) : Card :=
  { k with
    st := .withheld
    taken := false
    ticket := if e.cls = 9 then none else k.ticket
    fault := some { cls := e.cls, src := 1, slot := 124 + chain, gen := gen, acc := e.acc, detail := e.detail, iter := iter,
                    stall := tabGet 0 k.stalls gen, addr := e.addr, seqno := k.seq, info := e.info } }

theorem afterRow_rowErr (s0 : State) (c t chain : Nat) (k : Card) (e : FaultInfo) (gen iter : Nat) (v : State) :
    afterRow s0 c t chain k (rowErr e gen iter v) = if e.cls = notYet.cls then s0 else putCard v c t chain (withheldFor k chain e gen iter) := by
  simp only [afterRow, rowErr, waits, Option.any_some, beq_iff_eq]
  rfl

/-- The mark of a row made in this cycle. -/
theorem afterRow_made (s0 : State) (c t chain : Nat) (k k' : Card) (v : State)
    (h : k'.prog ≠ k.prog ∨ k'.tile.length ≠ k.tile.length ∨ k'.block.length ≠ k.block.length) :
    afterRow s0 c t chain k (.ok k', v) = putCard v c t chain { k' with rowed := true } := by
  have : (k'.prog != k.prog || k'.tile.length != k.tile.length || k'.block.length != k.block.length) = true := by
    simpa [or_assoc] using h
  rw [afterRow, this]

theorem afterRow_idle (s0 : State) (c t chain : Nat) (k : Card) (v : State) :
    afterRow s0 c t chain k (.ok k, v) = putCard v c t chain { k with rowed := false } := by
  simp [afterRow]

theorem cardRowMove_engine {s : State} {c t n : Nat} {task : Task} {k : Card} (htask : s.task? c t = some task) (hk : cardOf task 2 n = some k)
    (hcut : task.cutting = false) (hop : isEngineOp k.op = true) (hst : k.st = .started) : cardRowMove c t 2 n s = engineRow c t task k s := by
  have hm : isMatrixOp k.op = false := by
    simp only [isEngineOp, isMatrixOp, Bool.and_eq_true, decide_eq_true_eq, Bool.and_eq_false_imp, decide_eq_false_iff_not] at hop ⊢
    omega
  simp [cardRowMove, taskRowMove, withCard, htask, hk, hst, cardRuns, hcut, hm, hop]

theorem cardRowMove_matrix {s : State} {c t n : Nat} {task : Task} {k : Card} (htask : s.task? c t = some task) (hk : cardOf task 0 n = some k)
    (hcut : task.cutting = false) (hop : isMatrixOp k.op = true) : cardRowMove c t 0 n s =
      if k.st = .started ∧ (k.relatch = true ∨ k.prog < cardRows k) then afterRow s c t 0 k (matrixRow c t task k s) else s := by
  by_cases hst : k.st = .started
  · simp [cardRowMove, taskRowMove, withCard, htask, hk, hst, cardRuns, hcut, hop]
  · simp [cardRowMove, taskRowMove, withCard, htask, hk, hst]

end Sys2Proof.Machine
end

section
/-! PROOFS. The units of engine cards: copies, collectives and ring steps (R293, R294, R296 to R298). -/

namespace Sys2Proof.Machine

/-! A unit read (R327). -/

/-- A row that reads unit i of a record, as its row `iter`. -/
def unitRow (c : Nat) (task : Task) (k : Card) (src : BitVec 512) (i iter : Nat) (s : State) : RowOut :=
  match readUnit c task.part k src i s with
  | (.error f, s) => rowErr f 0 iter s
  | (.ok u, s) => (.ok (holdUnit k u), s)

theorem copyRead_eq (c : Nat) (task : Task) (k : Card) (s : State) : copyRead c task k s =
    unitRow c task k (sourceOf s c k) (reordSrc (ecReord k.card) (unitCount (sourceOf s c k)) (k.prog + k.block.length)) (k.prog + k.block.length) s := rfl

theorem readOwn_mismatch {c : Nat} {task : Task} {k : Card} {s : State} (hop : k.op = 0xD9) (h : recFmt (sourceOf s c k) ≠ ecFtype k.card) :
    readOwn c task k s = rowErr { cls := 0x02, addr := recBase (sourceOf s c k) } 0 0 s := by
  unfold readOwn
  exact if_pos (by simp [hop, h])

theorem readOwn_eq {c : Nat} {task : Task} {k : Card} {s : State} (h : k.op = 0xD9 → recFmt (sourceOf s c k) = ecFtype k.card) :
    readOwn c task k s = unitRow c task k (sourceOf s c k) k.block.length k.block.length s := by
  unfold readOwn
  refine if_neg ?_
  simpa using h

theorem holdUnit_eq (k : Card) (u : UnitIn) : holdUnit k u = { k with
    block := k.block ++ [u]
    status := k.status ||| (if u.lost then 1 else 0) ||| (if u.gone then 0x13 else 0)
    chmask := k.chmask ||| u.mask } := by
  unfold holdUnit noteGone
  cases u.gone <;> simp

section UnitRow
variable {c : Nat} {task : Task} {k : Card} {src : BitVec 512} {i : Nat} {s v : State}

theorem afterRow_unit_error {e : FaultInfo} (h : readUnit c task.part k src i s = (.error e, v)) (s0 : State) (t iter : Nat) :
    afterRow s0 c t 2 k (unitRow c task k src i iter s) = if e.cls = notYet.cls then s0 else putCard v c t 2 (withheldFor k 2 e 0 iter) := by
  rw [unitRow, h]
  exact afterRow_rowErr ..

theorem afterRow_unit_ok {u : UnitIn} (h : readUnit c task.part k src i s = (.ok u, v)) (s0 : State) (t iter : Nat) :
    afterRow s0 c t 2 k (unitRow c task k src i iter s) = putCard v c t 2 { k with
      block := k.block ++ [u]
      status := k.status ||| (if u.lost then 1 else 0) ||| (if u.gone then 0x13 else 0)
      chmask := k.chmask ||| u.mask
      rowed := true } := by
  rw [unitRow, h]
  dsimp only
  rw [holdUnit_eq, afterRow_made]
  exact .inr (.inr (by simp))

end UnitRow

/-! What a started engine card does next. -/

theorem engineRow_copy_done {c t : Nat} {task : Task} {k : Card} {s : State} (hop : k.op = 0xD8) (h : unitCount (sourceOf s c k) ≤ k.prog) :
    engineRow c t task k s = s := by
  unfold engineRow
  rw [hop]
  exact if_pos h

theorem engineRow_copy {c t : Nat} {task : Task} {k : Card} {s : State} (hop : k.op = 0xD8) (h : k.prog < unitCount (sourceOf s c k)) :
    engineRow c t task k s = afterRow s c t 2 k (copyRow c task k s) := by
  unfold engineRow
  rw [hop]
  exact if_neg (Nat.not_le.2 h)

theorem engineRow_coll {c t : Nat} {task : Task} {k : Card} {s : State} (hop : k.op = 0xD9) (h : k.prog = 0) :
    engineRow c t task k s = collStep c t task k s := by
  unfold engineRow
  rw [hop]
  exact if_pos h

theorem engineRow_ring {c t : Nat} {task : Task} {k : Card} {s : State} (hop : k.op = 0xDA) (h : k.prog = 0) :
    engineRow c t task k s = ringStepMove c t task k s := by
  unfold engineRow
  rw [hop]
  exact if_pos h

theorem engineRow_bound {c t : Nat} {task : Task} {k : Card} {s : State} (hop : k.op ≠ 0xD8) (h : k.prog ≠ 0) :
    engineRow c t task k s = afterRow s c t 2 k (boundUnit c task k s) := by
  unfold engineRow
  split
  · contradiction
  · exact if_neg h
  · exact if_neg h

/-! Copies (R296). -/

section Copy
variable {c : Nat} {task : Task} {k : Card} {s : State}

theorem copyRow_unready (h : readerReady s k = false) : copyRow c task k s = (.ok k, s) := by
  unfold copyRow
  exact if_pos (by simp [h])

theorem copyRow_reads (h : readerReady s k = true) (hcb : ecTocb k.card = false) (hb : k.block = []) : copyRow c task k s = copyRead c task k s := by
  unfold copyRow
  simp [h, hcb, hb]

theorem copyRow_writes {u : UnitIn} {rest : List UnitIn} (h : readerReady s k = true) (hcb : ecTocb k.card = false) (hb : k.block = u :: rest) :
    copyRow c task k s = copyUnit c task k u s := by
  unfold copyRow
  simp [h, hcb, hb]

theorem copyRow_ends (h : readerReady s k = true) (hcb : ecTocb k.card = true) (ht : copyTarget s task k = none) : copyRow c task k s =
    (.ok { k with prog := unitCount (sourceOf s c k), block := [], status := k.status ||| 17 }, s) := by
  unfold copyRow
  simp only [h, hcb, ht]
  rfl

theorem copyRow_buffer {dc : Nat} (h : readerReady s k = true) (hcb : ecTocb k.card = true) (ht : copyTarget s task k = some dc) : copyRow c task k s =
    if (bufOf (s.core dc) (ecCbn k.card)).free = 0 then (.ok k, s)
    else if k.block.length < copyNeed s (sourceOf s c k) (some dc) k then copyRead c task k s
    else copySlot c dc k s := by
  unfold copyRow
  simp only [h, hcb, ht]
  rfl

theorem noteGone_noteLost (k : Card) (lost gone : Bool) : noteGone (noteLost k lost 0) gone =
    { k with status := k.status ||| (if lost then 3 else 0) ||| (if gone then 0x13 else 0) } := by
  cases lost <;> cases gone <;> simp [noteGone, noteLost]

theorem copyUnit_error {u : UnitIn} {e : FaultInfo} {v : State}
    (h : writeUnit c task.part k (cardRec (s.core c) k (ecDrec k.card)) k.prog (heldUnit (recFmt (cardRec (s.core c) k (ecDrec k.card))) u) u.lost s =
      (.error e, v)) : copyUnit c task k u s = rowErr e 2 k.prog v := by
  unfold copyUnit
  dsimp only
  rw [h]

theorem copyUnit_ok {u : UnitIn} {ks : List (Nat × Nat)} {g : Bool} {v : State}
    (h : writeUnit c task.part k (cardRec (s.core c) k (ecDrec k.card)) k.prog (heldUnit (recFmt (cardRec (s.core c) k (ecDrec k.card))) u) u.lost s =
      (.ok (ks, g), v)) : copyUnit c task k u s =
      (.ok { k with prog := k.prog + 1, block := [], wrote := ks ++ k.wrote
                    status := k.status ||| (if u.lost then 3 else 0) ||| (if g then 0x13 else 0) },
        if k.prog + 1 = unitCount (cardRec (s.core c) k (ecDrec k.card)) then releaseDeposit v k else v) := by
  unfold copyUnit
  dsimp only
  rw [h]
  dsimp only
  rw [noteGone_noteLost]

/-- Sectors marked poisoned leave the rest of the state as it was. -/
theorem onlyPoison_foldl (p : Nat → Bool) (sec : Nat → Nat) (l : List Nat) (v : State) :
    let u := l.foldl (fun s i => if p i then { s with poison := tabSet false s.poison (sec i) true } else s) v
    u = { v with poison := u.poison } ∧ ((∀ i ∈ l, p i = false) → u = v) := by
  induction l generalizing v with
  | nil => exact ⟨rfl, fun _ => rfl⟩
  | cons i l ih =>
    simp only [List.foldl_cons, List.mem_cons, forall_eq_or_imp]
    cases hp : p i
    · rw [if_neg (by simp)]
      exact ⟨(ih v).1, fun h => (ih v).2 h.2⟩
    · rw [if_pos rfl]
      exact ⟨(ih _).1, fun h => absurd h.1 (by simp)⟩

/-- The sector of the slot that a copy delivers next in which its held unit i lies. -/
def slotSector (s : State) (dc fmt : Nat) (k : Card) (i : Nat) : Nat :=
  let b := bufOf (s.core dc) (ecCbn k.card)
  keyScratch dc (cbAddr b.desc (cbNextClaim b.desc) 0) / 32 + (if fmt = 6 then i / 4 * 4 + i % 4 / 2 else i * typeWidth fmt / 256)

theorem copySlot_eq {dc : Nat} {v : State} (h : cbDeliver s dc (ecCbn k.card) (packSlot (recFmt (sourceOf s c k))
      (k.block.map (heldUnit (recFmt (sourceOf s c k))))) = some v) :
    copySlot c dc k s = (.ok { noteLost k (k.block.any UnitIn.lost) 0 with prog := k.prog + k.block.length, block := [] },
      (List.range k.block.length).foldl (fun s' i => if (k.block.getD i default).lost then
        { s' with poison := tabSet false s'.poison (slotSector s dc (recFmt (sourceOf s c k)) k i) true } else s') v) := by
  unfold copySlot
  dsimp only
  unfold sourceOf at h
  rw [h]
  rfl

/-- A slot that a buffer takes: the units are passed on, and those lost leave their sectors poisoned. -/
theorem copySlot_some {dc : Nat} {v : State} (h : cbDeliver s dc (ecCbn k.card) (packSlot (recFmt (sourceOf s c k))
      (k.block.map (heldUnit (recFmt (sourceOf s c k))))) = some v) :
    ∃ u, copySlot c dc k s = (.ok { k with prog := k.prog + k.block.length, block := []
                                           status := k.status ||| (if k.block.any UnitIn.lost then 3 else 0) }, u) ∧
      u = { v with poison := u.poison } ∧ (k.block.any UnitIn.lost = false → u = v) := by
  have hp := onlyPoison_foldl (fun i => (k.block.getD i default).lost) (slotSector s dc (recFmt (sourceOf s c k)) k) (List.range k.block.length) v
  refine ⟨_, ?_, hp.1, fun hl => hp.2 fun i hi => ?_⟩
  · rw [copySlot_eq h]
    cases k.block.any UnitIn.lost <;> simp [noteLost]
  · have hi' := List.mem_range.1 hi
    simp only [List.getD_eq_getElem _ _ hi']
    simpa using List.any_eq_false.1 hl _ (List.getElem_mem hi')

end Copy

/-! Bound cards: what a collective or a ring step has given them to write (R293, R297, R298). -/

section Bound
variable {c : Nat} {task : Task} {k : Card} {s : State}

theorem boundUnit_done (h : k.prog = 1 + k.tile.length) : boundUnit c task k s = (.ok k, s) := by
  unfold boundUnit
  exact if_pos (by simp [boundDone, h])

theorem boundUnit_mismatch (h : k.prog ≠ 1 + k.tile.length) (hop : k.op = 0xD9) (hf : recFmt (boundRec s c k) ≠ ecFtype k.card) :
    boundUnit c task k s = rowErr { cls := 0x02, acc := 1, addr := recBase (boundRec s c k) } 2 (k.prog - 1) s := by
  unfold boundUnit
  dsimp only
  rw [if_neg (by simp [boundDone, h])]
  exact if_pos (by simp [hop, hf])

section Writes
variable {e : FaultInfo} {ks : List (Nat × Nat)} {g : Bool} {v : State} (h : k.prog ≠ 1 + k.tile.length)
  (hf : k.op = 0xD9 → recFmt (boundRec s c k) = ecFtype k.card)
include h hf

theorem boundUnit_error (hw : writeUnit c task.part k (boundRec s c k) (k.prog - 1) ((k.tile.getD (k.prog - 1) []).headD 0)
    ((k.tile.getD (k.prog - 1) []).getD 1 0 == 1) s = (.error e, v)) : boundUnit c task k s = rowErr e 2 (k.prog - 1) v := by
  unfold boundUnit
  dsimp only
  rw [if_neg (by simp [boundDone, h]), if_neg (by simpa using hf), hw]

theorem boundUnit_ok (hw : writeUnit c task.part k (boundRec s c k) (k.prog - 1) ((k.tile.getD (k.prog - 1) []).headD 0)
    ((k.tile.getD (k.prog - 1) []).getD 1 0 == 1) s = (.ok (ks, g), v)) : boundUnit c task k s =
      (.ok { k with prog := k.prog + 1, wrote := ks ++ k.wrote, status := k.status ||| (if g then 0x13 else 0) },
        if k.prog = k.tile.length then releaseDeposit v k else v) := by
  unfold boundUnit
  dsimp only
  rw [if_neg (by simp [boundDone, h]), if_neg (by simpa using hf), hw]
  cases g <;> simp [noteGone]

end Writes

/-- What a card keeps as it takes the units that its destination is to hold. -/
def boundCard (k : Card) (ys : List (Nat × Bool)) (mask : BitVec 384) : Card :=
  { k with
    prog := 1
    tile := ys.map fun y => [y.1, y.2.toNat]
    status := k.status ||| (if ys.any Prod.snd then 3 else 0)
    chmask := if ys.any Prod.snd then k.chmask ||| mask else k.chmask }

theorem bindCard_eq (s : State) (c t : Nat) (k : Card) (ys : List (Nat × Bool)) (mask : BitVec 384) :
    ∃ v, Looks s v ∧ bindCard s c t k ys mask = putCard v c t 2 (boundCard k (ys.take (unitCount (boundRec s c k))) mask) := by
  refine ⟨if (ys.take (unitCount (boundRec s c k))).isEmpty then releaseDeposit s k else s, ?_, ?_⟩
  · split
    · exact looks_releaseDeposit s k
    · exact .refl s
  · unfold bindCard
    dsimp only
    congr 1
    unfold noteLost boundCard
    cases (ys.take (unitCount (boundRec s c k))).any Prod.snd <;> simp

theorem cardAt_bindCard_self {s : State} {c t n : Nat} {y k : Card} (h : cardAt s c t 2 n = some y) (hn : k.seq = n) (ys : List (Nat × Bool)) (mask : BitVec 384) :
    cardAt (bindCard s c t k ys mask) c t 2 n = some (boundCard k (ys.take (unitCount (boundRec s c k))) mask) := by
  obtain ⟨v, hv, he⟩ := bindCard_eq s c t k ys mask
  rw [he]
  exact cardAt_putCard_self ((hv.cardAt c t 2 n).trans h) hn

theorem cardAt_bindCard_ne {s : State} {c t d j n : Nat} {k : Card} (h : (d, j, n) ≠ (c, t, k.seq)) (ys : List (Nat × Bool)) (mask : BitVec 384) :
    cardAt (bindCard s c t k ys mask) d j 2 n = cardAt s d j 2 n := by
  obtain ⟨v, hv, he⟩ := bindCard_eq s c t k ys mask
  rw [he, cardAt_putCard_ne (by exact h), hv.cardAt]

theorem byte_bindCard (s : State) (c t : Nat) (k : Card) (ys : List (Nat × Bool)) (mask : BitVec 384) (a : Nat) :
    (bindCard s c t k ys mask).byte a = s.byte a := by
  obtain ⟨v, hv, he⟩ := bindCard_eq s c t k ys mask
  rw [he, byte_putCard, hv.byte]

theorem recs_bindCard (s : State) (c t : Nat) (k : Card) (ys : List (Nat × Bool)) (mask : BitVec 384) (d : Nat) :
    ((bindCard s c t k ys mask).core d).recs = (s.core d).recs := by
  obtain ⟨v, hv, he⟩ := bindCard_eq s c t k ys mask
  rw [he, recs_putCard, hv.core]

end Bound

/-! Collectives (R297). -/

theorem exists_of_mem_mapM {α β : Type} {f : α → Option β} {l : List α} {ys : List β} (h : l.mapM f = some ys) {y : β} (hy : y ∈ ys) :
    ∃ x ∈ l, f x = some y := by
  induction l generalizing ys with
  | nil =>
    cases h
    cases hy
  | cons x l ih =>
    simp only [List.mapM_cons, Option.bind_eq_bind, Option.bind_eq_some_iff, Option.pure_def, Option.some.injEq] at h
    obtain ⟨z, hz, zs, hzs, rfl⟩ := h
    rcases List.mem_cons.1 hy with rfl | hy
    · exact ⟨x, by simp, hz⟩
    · obtain ⟨x', hx', he⟩ := ih hzs hy
      exact ⟨x', by simp [hx'], he⟩

/-- Every card that a collective gathers here is one of its own. -/
theorem op_of_collGather {s : State} {c : Nat} {task : Task} {k : Card} {ps : List Party} (h : collGather s c task k = some ps)
    {p : Party} (hp : p ∈ ps) {d j : Nat} {w : Task} {y : Card} (hy : p.here = some (d, j, w, y)) : y.op = 0xD9 := by
  unfold collGather at h
  split at h
  · obtain ⟨e, -, he⟩ := exists_of_mem_mapM h hp
    obtain ⟨z, hz, rfl⟩ := Option.map_eq_some_iff.1 he
    simp only [localParty, Option.some.injEq, Prod.mk.injEq] at hy
    obtain ⟨-, -, -, rfl⟩ := hy
    have := List.find?_some hz
    simp only [Bool.and_eq_true, beq_iff_eq] at this
    exact this.1.1
  · dsimp only at h
    split at h
    · cases h
    · cases h
      have hmem := List.mem_of_mem_take ((List.mergeSort_perm _ _).mem_iff.1 hp)
      rcases List.mem_append.1 ((List.mergeSort_perm _ _).mem_iff.1 hmem) with hm | hm
      · simp only [List.mem_flatMap, List.mem_map, List.mem_filter, Bool.and_eq_true, beq_iff_eq] at hm
        obtain ⟨e, -, x, -, z, ⟨-, hz⟩, rfl⟩ := hm
        simp only [localParty, Option.some.injEq, Prod.mk.injEq] at hy
        obtain ⟨-, -, -, rfl⟩ := hy
        exact hz.1.1.1
      · obtain ⟨r, -, rfl⟩ := List.mem_map.1 hm
        cases hy

/-- The cards of a collective here, by core, task and number. -/
def placesOf (ps : List Party) : List (Nat × Nat × Nat) := (ps.filterMap Party.here).map fun p => (p.1, p.2.1, p.2.2.2.seq)

/-- The units that rank r of a collective is to hold. -/
def shareOf (k : Card) (xss : Option (List (List (Nat × Bool)))) (r : Nat) : List (Nat × Bool) :=
  match xss with
  | some xss => collResult (ecOp k.card) (ecFold k.card) (ecFtype k.card) (ecRoot k.card) r xss
  | none => []

/-- What one participant becomes as its collective is bound. -/
def bindParty (id : Nat) (st : Word32) (mask : BitVec 384) (ys : List (Nat × Bool)) (p : Party) (s : State) : State :=
  match p.here with
  | none => podSend { s with remoteColls := s.remoteColls.map fun e => if e.order == p.order then { e with unit := id } else e } p.pkg 0
  | some (c, t, _, x) => bindCard s c t { x with unit := id, status := x.status ||| st } ys mask

theorem collBind_cons (k : Card) (id : Nat) (st : Word32) (mask : BitVec 384) (xss : Option (List (List (Nat × Bool)))) (s : State) (r : Nat)
    (p : Party) (ps : List Party) : collBind k id st mask xss s r (p :: ps) =
      collBind k id st mask xss (bindParty id st mask (shareOf k xss r) p s) (r + 1) ps := rfl

section BindParty
variable (id : Nat) (st : Word32) (mask : BitVec 384) (ys : List (Nat × Bool)) (p : Party) (s : State)

theorem looks_bindParty_far (h : p.here = none) : Looks s (bindParty id st mask ys p s) := by
  have hs : Looks s { s with remoteColls := s.remoteColls.map fun e => if e.order == p.order then { e with unit := id } else e } := ⟨rfl, rfl, rfl⟩
  unfold bindParty
  rw [h]
  exact hs.trans (looks_podSend _ _ _)

theorem byte_bindParty (a : Nat) : (bindParty id st mask ys p s).byte a = s.byte a := by
  cases h : p.here with
  | none => exact (looks_bindParty_far id st mask ys p s h).byte a
  | some q =>
    unfold bindParty
    rw [h]
    exact byte_bindCard ..

theorem recs_bindParty (d : Nat) : ((bindParty id st mask ys p s).core d).recs = (s.core d).recs := by
  cases h : p.here with
  | none => rw [(looks_bindParty_far id st mask ys p s h).core]
  | some q =>
    unfold bindParty
    rw [h]
    exact recs_bindCard ..

theorem cardAt_bindParty_ne {d j n : Nat} (h : ∀ q, p.here = some q → (d, j, n) ≠ (q.1, q.2.1, q.2.2.2.seq)) :
    cardAt (bindParty id st mask ys p s) d j 2 n = cardAt s d j 2 n := by
  cases hp : p.here with
  | none => exact (looks_bindParty_far id st mask ys p s hp).cardAt ..
  | some q =>
    unfold bindParty
    rw [hp]
    exact cardAt_bindCard_ne (by exact h q hp) _ _

end BindParty

theorem byte_collBind (k : Card) (id : Nat) (st : Word32) (mask : BitVec 384) (xss : Option (List (List (Nat × Bool)))) (ps : List Party) (s : State) (r a : Nat) :
    (collBind k id st mask xss s r ps).byte a = s.byte a := by
  induction ps generalizing s r with
  | nil => rfl
  | cons p ps ih => rw [collBind_cons, ih, byte_bindParty]

theorem cardAt_collBind_ne (k : Card) (id : Nat) (st : Word32) (mask : BitVec 384) (xss : Option (List (List (Nat × Bool)))) (ps : List Party) (s : State) (r : Nat)
    {d j n : Nat} (h : (d, j, n) ∉ placesOf ps) : cardAt (collBind k id st mask xss s r ps) d j 2 n = cardAt s d j 2 n := by
  induction ps generalizing s r with
  | nil => rfl
  | cons p ps ih =>
    have hps : (d, j, n) ∉ placesOf ps := fun hm => h (by
      obtain ⟨q, hq, he⟩ := List.mem_map.1 hm
      refine List.mem_map.2 ⟨q, ?_, he⟩
      obtain ⟨p', hp', hh⟩ := List.mem_filterMap.1 hq
      exact List.mem_filterMap.2 ⟨p', List.mem_cons_of_mem _ hp', hh⟩)
    rw [collBind_cons, ih _ _ hps]
    refine cardAt_bindParty_ne _ _ _ _ _ _ fun q hq he => h ?_
    exact List.mem_map.2 ⟨q, List.mem_filterMap.2 ⟨p, by simp, hq⟩, he.symm⟩

theorem placesOf_cons_some {p : Party} {q : Nat × Nat × Task × Card} (h : p.here = some q) (ps : List Party) :
    placesOf (p :: ps) = (q.1, q.2.1, q.2.2.2.seq) :: placesOf ps := by
  simp [placesOf, h]

theorem placesOf_cons_none {p : Party} (h : p.here = none) (ps : List Party) : placesOf (p :: ps) = placesOf ps := by
  simp [placesOf, h]

theorem cardRec_congr {core core' : Core} (h : core'.recs = core.recs) (k : Card) (n : Nat) : cardRec core' k n = cardRec core k n := by
  simp only [cardRec, recOf, h]

/-- Each card of a collective takes what its rank's destination is to hold, where no two participants are one card. -/
theorem cardAt_collBind (k : Card) (id : Nat) (st : Word32) (mask : BitVec 384) (xss : Option (List (List (Nat × Bool)))) (ps : List Party) (s : State) (r : Nat)
    (hn : (placesOf ps).Nodup) (hat : ∀ q ∈ ps.filterMap Party.here, cardAt s q.1 q.2.1 2 q.2.2.2.seq = some q.2.2.2)
    {i : Nat} {p : Party} {d j : Nat} {w : Task} {y : Card} (hi : ps[i]? = some p) (hp : p.here = some (d, j, w, y)) :
    cardAt (collBind k id st mask xss s r ps) d j 2 y.seq = some (boundCard { y with unit := id, status := y.status ||| st }
      ((shareOf k xss (r + i)).take (unitCount (boundRec s d { y with unit := id, status := y.status ||| st }))) mask) := by
  induction ps generalizing s r i with
  | nil => cases hi
  | cons q ps ih =>
    rw [collBind_cons]
    cases i with
    | zero =>
      obtain rfl : q = p := by simpa using hi
      rw [placesOf_cons_some hp] at hn
      rw [cardAt_collBind_ne _ _ _ _ _ _ _ _ (List.nodup_cons.1 hn).1, bindParty, hp]
      refine cardAt_bindCard_self (y := y) ?_ rfl _ _
      exact hat (d, j, w, y) (List.mem_filterMap.2 ⟨q, by simp, hp⟩)
    | succ i =>
      have hi' : ps[i]? = some p := by simpa using hi
      have hn' : (placesOf ps).Nodup := by
        cases hq : q.here with
        | none => rwa [placesOf_cons_none hq] at hn
        | some z =>
          rw [placesOf_cons_some hq] at hn
          exact (List.nodup_cons.1 hn).2
      have hrec : boundRec (bindParty id st mask (shareOf k xss r) q s) d { y with unit := id, status := y.status ||| st } =
          boundRec s d { y with unit := id, status := y.status ||| st } := cardRec_congr (recs_bindParty _ _ _ _ _ _ _) _ _
      rw [ih (bindParty id st mask (shareOf k xss r) q s) (r + 1) hn' (fun z hz => ?_) hi', hrec, show r + 1 + i = r + (i + 1) by omega]
      rw [cardAt_bindParty_ne _ _ _ _ _ _ fun z' hz' he => ?_]
      · obtain ⟨p', hp', hh⟩ := List.mem_filterMap.1 hz
        exact hat z (List.mem_filterMap.2 ⟨p', List.mem_cons_of_mem _ hp', hh⟩)
      · rw [placesOf_cons_some hz'] at hn
        exact (List.nodup_cons.1 hn).1 (List.mem_map.2 ⟨z, hz, he⟩)

end Sys2Proof.Machine
end

section
/-! PROOFS. The steps of collectives and rings by their turns, and units in a scratchpad window (R149, R297, R298). -/

namespace Sys2Proof.Machine

/-! The turn of a collective card (R297). -/

section Turn
variable {s : State} {c t : Nat} {k : Card} {ps : List Party}

/-- The card is of the collective, and every card of it here has started and has its reader's lines. -/
def collReady (s : State) (c t : Nat) (k : Card) (ps : List Party) : Prop :=
  (∃ p ∈ ps.filterMap Party.here, p.1 = c ∧ p.2.1 = t ∧ p.2.2.2.seq = k.seq) ∧
    ∀ p ∈ ps.filterMap Party.here, p.2.2.2.st = .started ∧ readerReady s p.2.2.2 = true

/-- The participants' sources are of one size, which a reduce-scatter divides among them. -/
def collFitting (s : State) (k : Card) (ps : List Party) : Prop :=
  (∀ p ∈ ps, partyElems s p = partyElems s (ps.headD ⟨0, 0, 0, [], none, []⟩)) ∧
    (ecOp k.card = 1 → partyElems s (ps.headD ⟨0, 0, 0, [], none, []⟩) % ps.length = 0)

theorem collReady_cond : (!((ps.filterMap Party.here).any fun p => p.1 == c && p.2.1 == t && p.2.2.2.seq == k.seq) ||
    (ps.filterMap Party.here).any (fun p => p.2.2.2.st != .started || !readerReady s p.2.2.2)) = true ↔ ¬collReady s c t k ps := by
  rw [Bool.or_eq_true, Bool.not_eq_true', collReady, not_and_or]
  refine or_congr ?_ ?_
  · rw [List.any_eq_false]
    simp only [Bool.and_eq_true, beq_iff_eq, not_exists, not_and, and_imp]
  · rw [List.any_eq_true]
    simp only [Bool.or_eq_true, bne_iff_ne, Bool.not_eq_true', not_forall, exists_prop, not_and_or, Bool.not_eq_true]

theorem headD_partyElems : (ps.map (partyElems s)).headD 0 = partyElems s (ps.headD ⟨0, 0, 0, [], none, []⟩) := by
  cases ps <;> rfl

theorem collFitting_cond : ((ps.map (partyElems s)).any (fun e => e != (ps.map (partyElems s)).headD 0) ||
    (ecOp k.card == 1 && (ps.map (partyElems s)).headD 0 % ps.length != 0)) = true ↔ ¬collFitting s k ps := by
  rw [headD_partyElems, Bool.or_eq_true, collFitting, not_and_or]
  refine or_congr ?_ ?_
  · simp [List.any_map]
  · simp

open scoped Classical in
theorem collTurn_eq : collTurn s c t k ps =
    if ¬collReady s c t k ps then .waits
    else if ¬collForm k ps = true then .refused 8
    else if ¬collFitting s k ps then .refused 4
    else if ¬ownRead s c k = true then .reads
    else if ¬∀ p ∈ ps.filterMap Party.here, ownRead s p.1 p.2.2.2 = true then .waits
    else .combines := by
  unfold collTurn
  refine if_congr collReady_cond rfl (if_congr (by simp) rfl (if_congr collFitting_cond rfl (if_congr (by simp) rfl (if_congr ?_ rfl rfl))))
  rw [Bool.not_eq_true', ← Bool.not_eq_true, List.all_eq_true]

end Turn

theorem collStep_none {c t : Nat} {task : Task} {k : Card} {s : State} (h : collGather s c task k = none) : collStep c t task k s = s := by
  unfold collStep
  rw [h]

section Step
variable {c t : Nat} {task : Task} {k : Card} {s : State} {ps : List Party} (h : collGather s c task k = some ps)
include h

theorem collStep_waits (ht : collTurn s c t k ps = .waits) : collStep c t task k s = s := by
  unfold collStep
  rw [h]
  dsimp only
  rw [ht]

theorem collStep_reads (ht : collTurn s c t k ps = .reads) : collStep c t task k s = afterRow s c t 2 k (readOwn c task k s) := by
  unfold collStep
  rw [h]
  dsimp only
  rw [ht]

theorem collStep_refused {st : Word32} (ht : collTurn s c t k ps = .refused st) : collStep c t task k s = collBind k (collId ps) st 0 none s 0 ps := by
  unfold collStep
  rw [h]
  dsimp only
  rw [ht]

theorem collStep_combines (ht : collTurn s c t k ps = .combines) : collStep c t task k s = collBind k (collId ps) 0
    ((ps.filterMap Party.here).foldl (fun m p => m ||| p.2.2.2.chmask) 0) (some (ps.map Party.elems)) s 0 ps := by
  unfold collStep
  rw [h]
  dsimp only
  rw [ht]

/-- The cards of a collective that is bound, each with its share. -/
theorem collBind_binds (id : Nat) (st : Word32) (mask : BitVec 384) (xss : Option (List (List (Nat × Bool)))) (hn : (placesOf ps).Nodup)
    (hat : ∀ q ∈ ps.filterMap Party.here, s.task? q.1 q.2.1 = some q.2.2.1 ∧ cardOf q.2.2.1 2 q.2.2.2.seq = some q.2.2.2)
    {r : Nat} {p : Party} {d j : Nat} {w : Task} {y : Card} (hr : ps[r]? = some p) (hp : p.here = some (d, j, w, y)) :
    let own := (shareOf k xss r).take (unitCount (cardRec (s.core d) y (ecDrec y.card)))
    ∃ z, cardAt (collBind k id st mask xss s 0 ps) d j 2 y.seq = some z ∧ z.unit = id ∧ z.prog = 1 ∧
      z.tile = own.map (fun e => [e.1, e.2.toNat]) ∧ z.status = y.status ||| st ||| (if own.any Prod.snd then 3 else 0) := by
  have hop : y.op = 0xD9 := op_of_collGather h (List.mem_of_getElem? hr) hp
  have hrec : boundRec s d { y with unit := id, status := y.status ||| st } = cardRec (s.core d) y (ecDrec y.card) := by
    simp [boundRec, hop, cardRec]
  have hbound := cardAt_collBind k id st mask xss ps s 0 hn (fun q hq => (cardAt_eq (hat q hq).1 2 _).trans (hat q hq).2) hr hp
  rw [hrec, Nat.zero_add] at hbound
  exact ⟨_, hbound, rfl, rfl, rfl, rfl⟩

end Step

/-! Rings (R298). -/

section Ring
variable {c t : Nat} {task : Task} {k : Card} {s : State}

theorem ringStepMove_unready (h : readerReady s k = false) : ringStepMove c t task k s = s := by
  unfold ringStepMove
  exact if_pos (by simp [h])

theorem ringStepMove_reads (h : readerReady s k = true) (hown : ownRead s c k = false) :
    ringStepMove c t task k s = afterRow s c t 2 k (readOwn c task k s) := by
  unfold ringStepMove
  rw [if_neg (by simp [h]), if_pos (by simp [hown])]

variable (h : readerReady s k = true) (hown : ownRead s c k = true)
include h hown

theorem ringStepMove_alone (hm : ringMate (ringOf s c task k.escope) task k = none) : ringStepMove c t task k s = s := by
  unfold ringStepMove
  rw [if_neg (by simp [h]), if_neg (by simp [hown]), hm]

variable {pc pt : Nat} {pk : Task} {y : Card} (hm : ringMate (ringOf s c task k.escope) task k = some (pc, pt, pk, y))
include hm

theorem ringStepMove_waits (hy : y.st ≠ .started ∨ ownRead s pc y = false) : ringStepMove c t task k s = s := by
  unfold ringStepMove
  rw [if_neg (by simp [h]), if_neg (by simp [hown]), hm]
  dsimp only
  exact if_pos (by simpa using hy)

/-- The block of a ring card's predecessor is marked as taken. -/
def blockTaken (pc pt n : Nat) (s : State) : State :=
  match cardAt s pc pt 2 n with
  | some x => putCard s pc pt 2 { x with unit := 1 }
  | none => s

theorem ringStepMove_differs (hst : y.st = .started) (hy : ownRead s pc y = true)
    (ha : ¬(unitCount (sourceOf s pc y) = unitCount (cardRec (s.core c) k (ecDrec y.card)) ∧
      recFmt (sourceOf s pc y) = recFmt (cardRec (s.core c) k (ecDrec y.card)))) :
    ringStepMove c t task k s = blockTaken pc pt y.seq (bindCard s c t
      { k with recs := k.recs ++ [(64, cardRec (s.core c) k (ecDrec y.card))], status := k.status ||| 4 } [] 0) := by
  unfold ringStepMove
  rw [if_neg (by simp [h]), if_neg (by simp [hown]), hm]
  dsimp only
  rw [if_neg (by simp [hst, hy])]
  refine (if_pos ?_).trans rfl
  rw [Bool.or_eq_true, bne_iff_ne, bne_iff_ne]
  tauto

theorem ringStepMove_takes (hst : y.st = .started) (hy : ownRead s pc y = true)
    (ha : unitCount (sourceOf s pc y) = unitCount (cardRec (s.core c) k (ecDrec y.card)) ∧
      recFmt (sourceOf s pc y) = recFmt (cardRec (s.core c) k (ecDrec y.card))) {w : Option Nat} {v : State}
    (hw : writerFor (sweptLines (quadOfCore c) task.part (cardRec (s.core c) k (ecDrec y.card)) s).2 c task
      (sweptLines (quadOfCore c) task.part (cardRec (s.core c) k (ecDrec y.card)) s).1 = (.ok w, v)) :
    ringStepMove c t task k s = blockTaken pc pt y.seq (bindCard v c t
      { k with recs := k.recs ++ [(64, cardRec (s.core c) k (ecDrec y.card))], deposit := w }
      (y.block.map fun u => (heldUnit (recFmt (sourceOf s pc y)) u, u.lost)) (y.block.foldl (fun m u => m ||| u.mask) 0)) := by
  unfold ringStepMove
  rw [if_neg (by simp [h]), if_neg (by simp [hown]), hm]
  dsimp only
  rw [if_neg (by simp [hst, hy]), if_neg (by simp [ha]), hw]
  rfl

end Ring

theorem cardAt_blockTaken {s : State} {c t pc pt n : Nat} (h : (pc, pt) ≠ (c, t)) (m : Nat) : cardAt (blockTaken pc pt n s) c t 2 m = cardAt s c t 2 m := by
  unfold blockTaken
  split
  · exact cardAt_putCard_ne fun he => h (by
      obtain ⟨rfl, rfl, -⟩ := Prod.mk.inj he |>.imp id Prod.mk.inj
      rfl)
  · rfl

theorem cardAt_blockTaken_self {s : State} {pc pt n : Nat} {z : Card} (h : cardAt s pc pt 2 n = some z) :
    cardAt (blockTaken pc pt n s) pc pt 2 n = some { z with unit := 1 } := by
  obtain ⟨task, -, hz⟩ := exists_of_cardAt h
  unfold blockTaken
  rw [h]
  exact cardAt_putCard_self h (show z.seq = n from seq_of_cardOf hz)

/-- A ring card that takes its predecessor's block, where they are two tasks: what it holds then, and the predecessor. -/
theorem ringTakes {s v : State} (hv : Looks s v) {c t pc pt n m : Nat} {k k' z : Card} (hk : cardAt s c t 2 n = some k) (hn : k'.seq = n)
    (hne : (pc, pt) ≠ (c, t)) (hz : cardAt s pc pt 2 m = some z) (ys : List (Nat × Bool)) (mask : BitVec 384) :
    let u := blockTaken pc pt m (bindCard v c t k' ys mask)
    cardAt u c t 2 n = some (boundCard k' (ys.take (unitCount (boundRec v c k'))) mask) ∧ cardAt u pc pt 2 m = some { z with unit := 1 } := by
  constructor
  · rw [cardAt_blockTaken hne, cardAt_bindCard_self ((hv.cardAt c t 2 n).trans hk) hn]
  · refine cardAt_blockTaken_self ?_
    rw [cardAt_bindCard_ne (fun he => hne (by
      simp only [Prod.mk.injEq] at he ⊢
      exact ⟨he.1, he.2.1⟩)), hv.cardAt, hz]

/-! Units in a scratchpad window (R149). -/

section Scratch
variable {c part : Nat} {k : Card} {r : BitVec 512} {i : Nat} {s : State} (hc : c < 512) (hva : inWindow (unitAddr r i) = true)
  (hend : inWindow (unitAddr r i + unitSize (recFmt r) - 1) = true)
include hva hend

theorem readUnit_untouchable (h : unitTouchOk k.card r i false = false) :
    (readUnit c part k r i s).1 = .error { cls := 0x0D, addr := unitAddr r i } := by
  unfold readUnit
  dsimp only
  rw [runKeys_window hva hend]
  simp [h]

include hc

theorem readUnit_window (hl : s.latent = []) (h : unitTouchOk k.card r i false = true) (hf : recFmt r ≠ 5) :
    let key := keyScratch c (unitAddr r i)
    let lost := poisoned s key (unitSize (recFmt r))
    readUnit c part k r i s = (.ok { x := memRead s.mem key (unitSize (recFmt r)), lost := lost
                                     mask := if lost then runChans [⟨key, unitSize (recFmt r), 0⟩] else 0 }, s) := by
  have hread : checkKeys (podSendRuns s [⟨keyScratch c (unitAddr r i), unitSize (recFmt r), 0⟩])
      [⟨keyScratch c (unitAddr r i), unitSize (recFmt r), 0⟩] = s := by
    rw [podSendRuns_scratch hc hva]
    exact readCheck_of_no_latent hl _ _
  unfold readUnit
  dsimp only
  rw [runKeys_window hva hend]
  simp [h, unreachable, remoteRefused, isRemote_keyScratch hc hva, readsOpen, hostReady, isHost_keyScratch hc hva, hread, readKeys_scratch,
    keysPoisoned, unitHalf, hf]

theorem writeUnit_window (ha : unitAddr r i % unitSize (recFmt r) = 0 ∨ recFmt r = 6) (h : unitTouchOk k.card r i true = true)
    (hf : recFmt r ≠ 5) (x : Nat) (bad : Bool) :
    writeUnit c part k r i x bad s = (.ok ([(keyScratch c (unitAddr r i), unitSize (recFmt r))], false),
      doPut s ⟨[⟨keyScratch c (unitAddr r i), unitSize (recFmt r), 0⟩], x, none, bad⟩) := by
  have hal : ¬(recFmt r != 6 && unitAddr r i % unitSize (recFmt r) != 0) = true := by
    simp only [Bool.and_eq_true, bne_iff_ne, not_and_or, not_not]
    exact ha.symm
  unfold writeUnit
  dsimp only
  rw [if_neg hal, runKeys_window hva hend]
  simp [h, unreachable, remoteRefused, isRemote_keyScratch hc hva, writesOpen, isHost_keyScratch hc hva, unitHalf, hf]

end Scratch

end Sys2Proof.Machine
end

section
/-! PROOFS. The checks of cards, and what a started engine card does by units (R195, R198, R201 to R205, R293, R294, R296 to R298). -/

namespace Sys2Proof.Machine

/-! What each rank of a combined collective is to hold (Table 14.6). -/

theorem keptElem_eq (ty : Nat) : (fun x : Nat × Bool => if x.2 then (poisonElem ty, true) else x) = fun e => (if e.2 then poisonElem ty else e.1, e.2) := by
  funext ⟨a, b⟩
  cases b <;> rfl

section Share
variable (fold ty root r : Nat) (xss : List (List (Nat × Bool)))

theorem collResult_allgather : collResult 2 fold ty root r xss = xss.flatten.map fun e => (if e.2 then poisonElem ty else e.1, e.2) := by
  rw [← keptElem_eq]
  rfl

theorem collResult_broadcast : collResult 3 fold ty root r xss = (xss.getD root []).map fun e => (if e.2 then poisonElem ty else e.1, e.2) := by
  rw [← keptElem_eq]
  rfl

end Share

/-- A ring card's own record of the number that its predecessor's card names, kept under number 64. -/
theorem boundRec_ring {s : State} {c : Nat} {k : Card} {recs : List (Nat × BitVec 512)} {dst : BitVec 512} (hop : k.op = 0xDA)
    (hrecs : k.recs = recs ++ [(64, dst)]) (h64 : ∀ e ∈ recs, e.1 ≠ 64) : boundRec s c k = dst := by
  have hnone : recs.find? (fun e => e.1 == 64) = none := List.find?_eq_none.2 fun e he => by simpa using h64 e he
  rw [boundRec, if_pos hop, cardRec, hrecs, List.find?_append, hnone]
  rfl

/-- What a ring card takes of a block, by its units. -/
theorem boundCard_map (k : Card) (fmt n : Nat) (block : List UnitIn) (mask : BitVec 384) :
    boundCard k ((block.map fun u => (heldUnit fmt u, u.lost)).take n) mask = { k with
      prog := 1
      tile := (block.take n).map fun u => [heldUnit fmt u, u.lost.toNat]
      status := k.status ||| (if (block.take n).any UnitIn.lost then 3 else 0)
      chmask := if (block.take n).any UnitIn.lost then k.chmask ||| mask else k.chmask } := by
  simp [boundCard, ← List.map_take, Function.comp_def]

section Ring
variable {s v : State} {c t n pc pt m : Nat} {task : Task} {k z : Card} (htask : s.task? c t = some task) (hk : cardOf task 2 n = some k)
  (hv : Looks s v) (hne : (pc, pt) ≠ (c, t)) (hz : cardAt s pc pt 2 m = some z)
include htask hk hv hne hz

/-- A ring card and its predecessor, of two tasks, once the block is taken. -/
theorem cardAt_ringTaken (k' : Card) (hseq : k'.seq = k.seq) (ys : List (Nat × Bool)) (mask : BitVec 384) :
    let u := blockTaken pc pt m (bindCard v c t k' ys mask)
    cardAt u c t 2 k.seq = some (boundCard k' (ys.take (unitCount (boundRec v c k'))) mask) ∧ cardAt u pc pt 2 m = some { z with unit := 1 } := by
  have hn := seq_of_cardOf hk
  rw [hn]
  exact ringTakes hv ((cardAt_eq htask 2 n).trans hk) (hseq.trans hn) hne hz ys mask

end Ring

/-- Settles O32: the conditions of each card's check, and each unit's row by the step of its engine. -/
theorem cardChecks : Obligations.CardChecks := by
  unfold Obligations.CardChecks
  intro s f op sub ty escope card bad wf kept
  refine ⟨fun h => matrixCheck_bad (.inl h), fun h => matrixCheck_bad (.inr (.inr (.inl ⟨rfl, h⟩))),
    fun h hl => matrixCheck_bad (.inr (.inr (.inr (.inl ⟨.inl rfl, hl, h⟩)))), fun h => matrixCheck_bad (.inr (.inr (.inr (.inr (.inl ⟨rfl, h⟩))))),
    fun h => matrixCheck_bad (.inr (.inr (.inr (.inr (.inr (.inl ⟨rfl, rfl, h⟩)))))),
    fun h => matrixCheck_bad (.inr (.inr (.inr (.inr (.inr (.inr (.inl ⟨rfl, h⟩))))))),
    fun hs h => matrixCheck_bad (.inr (.inr (.inr (.inr (.inr (.inr (.inr ⟨rfl, hs, h⟩))))))), fun h => engineCheck_reserved (.inl h),
    fun h => ⟨matrixCheck_bad (.inr (.inl h)), engineCheck_reserved (.inr h)⟩, matrixCheck_passes, ?engines, ?rows, ?window⟩
  case engines =>
    intro src dst alike far declared sound counts
    refine ⟨fun h => ⟨sound_or_bad fun h1 h2 => ?_, fun hcb hcw => sound_or_bad fun h1 h2 => ?_⟩, fun h => sound_or_bad fun h1 h2 => ?_,
      fun ⟨h1, h2⟩ hne h => ?_, fun ⟨h1, h2⟩ hcw hcb h => ?_, fun ⟨h1, h2⟩ hcw hcb h => ?_, fun ⟨h1, h2⟩ hcw hcb h hd => ?_,
      fun ⟨h1, h2⟩ hcw hcb h hd => ?_, fun ⟨h1, h2⟩ ho hf ht hkey hroot => ?_, fun h => sound_or_bad fun h1 h2 => ?_⟩
    · exact (engineCheck_ring h1 h2).trans (if_pos (.inr h))
    · rw [engineCheck_copy h1 h2 (by simp [hcw]), if_neg (by simp [hcb])]
      exact if_pos h
    · exact (engineCheck_ring h1 h2).trans (if_pos (.inl h))
    · refine (engineCheck_ring h1 h2).trans (if_neg ?_)
      rintro (he | he)
      · exact hne he
      · exact he h
    · rw [engineCheck_copy h1 h2 hcw, if_neg (by simp [hcb])]
      exact if_neg (not_not.2 h)
    · rw [engineCheck_copy h1 h2 hcw, if_pos hcb]
      exact if_pos h
    · rw [engineCheck_copy h1 h2 hcw, if_pos hcb]
      exact (if_neg h).trans (if_pos hd)
    · rw [engineCheck_copy h1 h2 hcw, if_pos hcb]
      exact (if_neg h).trans (if_neg (not_not.2 hd))
    · refine (engineCheck_coll h1 h2).trans (if_neg ?_)
      rintro (hb | hb | hb | ⟨he, hb⟩ | ⟨h3, h4, hb⟩)
      · omega
      · omega
      · exact hb ht
      · exact hb (hkey he)
      · exact hb (hroot h3 h4)
    · exact (engineCheck_coll h1 h2).trans (if_pos h)
  case window =>
    intro c part k r i x lostUnit va size key hc hva hend hl
    refine ⟨fun h => readUnit_untouchable hva hend h, fun h hf => ⟨_, readUnit_window hc hva hend hl h hf⟩, fun ha h hf => ⟨_, writeUnit_window hc hva hend ha h hf x lostUnit, ?_⟩⟩
    exact bytesWritten_doPut_scratch hc hva ..
  case rows =>
    intro c t n task k htask hk hcut hop hst x src count moves idles becomes fails lost gone readsUnit readsOwn
    have hrow : cardRowMove c t 2 n s = engineRow c t task k s := cardRowMove_engine htask hk hcut hop hst
    have hseq := seq_of_cardOf hk
    have hfails : ∀ v e gen iter, engineRow c t task k s = (if e.cls = notYet.cls then s else putCard v c t 2 (withheldFor k 2 e gen iter)) → fails v e gen iter :=
      fun v e gen iter h => hrow.trans h
    have hreads : ∀ i iter, engineRow c t task k s = afterRow s c t 2 k (unitRow c task k src i iter s) → readsUnit i iter := fun i iter h =>
      ⟨fun e v he => hfails v e 0 iter (h.trans (afterRow_unit_error he ..)), fun u v hu => hrow.trans (h.trans (afterRow_unit_ok hu ..))⟩
    have hown : engineRow c t task k s = afterRow s c t 2 k (readOwn c task k s) → readsOwn := fun h =>
      ⟨fun ho hf => hfails s _ 0 0 (by rw [h, readOwn_mismatch ho hf, afterRow_rowErr]), fun hf => hreads _ _ (by rw [h, readOwn_eq hf])⟩
    refine ⟨fun h8 => ?copy, fun h9 hp => ?coll, fun hA hp h64 => ?ring, fun h8 hp => ?bound⟩
    case copy =>
      intro dst
      have hcopy : k.prog < count → engineRow c t task k s = afterRow s c t 2 k (copyRow c task k s) := engineRow_copy h8
      refine ⟨fun h => hrow.trans (engineRow_copy_done h8 h), fun h hr => ?_, fun h hr hcb => ⟨fun hb => ?_, fun u rest hb => ?_⟩,
        fun h hr hcb => ⟨fun ht => ?_, fun dc ht => ?_⟩⟩
      · exact hrow.trans ((hcopy h).trans (by rw [copyRow_unready hr, afterRow_idle]))
      · refine hreads _ _ ((hcopy h).trans ?_)
        rw [copyRow_reads hr hcb hb, copyRead_eq, hb]
        rfl
      · intro write
        refine ⟨fun e v hw => hfails v e 2 _ ((hcopy h).trans ?_), fun ks g v hw => hrow.trans ((hcopy h).trans ?_)⟩
        · rw [copyRow_writes hr hcb hb, copyUnit_error hw, afterRow_rowErr]
        · rw [copyRow_writes hr hcb hb, copyUnit_ok hw]
          exact afterRow_made _ _ _ _ _ _ _ (.inl (Nat.succ_ne_self _))
      · exact hrow.trans ((hcopy h).trans (by rw [copyRow_ends hr hcb ht]; exact afterRow_made _ _ _ _ _ _ _ (.inl (Nat.ne_of_gt h))))
      · intro b need slot
        have hbuf := (hcopy h).trans (congrArg _ (copyRow_buffer hr hcb ht))
        refine ⟨fun hb => hrow.trans (hbuf.trans ?_), fun hb hlt => hreads _ _ (hbuf.trans ?_), fun hb hle hne v hv => ?_⟩
        · rw [if_pos hb, afterRow_idle]
        · rw [if_neg hb, if_pos hlt, copyRead_eq]
        · obtain ⟨u, hu, hpois, hsame⟩ := copySlot_some (c := c) (k := k) hv
          refine ⟨u, hrow.trans (hbuf.trans ?_), hpois, hsame⟩
          rw [if_neg hb, if_neg (Nat.not_lt.2 hle), hu]
          refine afterRow_made _ _ _ _ _ _ _ (.inl ?_)
          have := List.length_pos_iff.2 hne
          dsimp only
          omega
    case coll =>
      have hstep : cardRowMove c t 2 n s = collStep c t task k s := hrow.trans (engineRow_coll h9 hp)
      refine ⟨fun hg => hstep.trans (collStep_none hg), fun ps hg => ?_⟩
      intro mine id turn distinct ready alike size fitting binds one all kept fold len
      have hbinds : ∀ (st : Word32) mask xss (ys : Nat → List (Nat × Bool)), (∀ r, shareOf k xss r = ys r) →
          collStep c t task k s = collBind k (collId ps) st mask xss s 0 ps → binds st ys := by
        intro st mask xss ys hys he
        refine ⟨_, hstep.trans he, fun a => byte_collBind .., fun hd r p d j y hr hh => ?_⟩
        have := collBind_binds hg (collId ps) st mask xss (by simpa only [placesOf] using hd.1) hd.2 hr (w := y.1) (y := y.2) (by exact hh)
        rw [hys] at this
        exact this
      have hturn := collTurn_eq (s := s) (c := c) (t := t) (k := k) (ps := ps)
      refine ⟨fun h => hturn.trans (if_pos h), fun h1 h2 => ?_, fun h1 h2 h3 => ?_, fun h1 h2 h3 h4 => ?_, fun h1 h2 h3 h4 h5 => ?_, fun h1 h2 h3 h4 h5 => ?_,
        fun h => hstep.trans (collStep_waits hg h), fun h => hown ((engineRow_coll h9 hp).trans (collStep_reads hg h)), fun st h => ?_, fun h hall => ?_⟩
      · exact hturn.trans ((if_neg (not_not.2 h1)).trans (if_pos h2))
      · exact hturn.trans ((if_neg (not_not.2 h1)).trans ((if_neg (not_not.2 h2)).trans (if_pos h3)))
      · exact hturn.trans ((if_neg (not_not.2 h1)).trans ((if_neg (not_not.2 h2)).trans ((if_neg (not_not.2 h3)).trans (if_pos (by simp [h4])))))
      · refine hturn.trans ((if_neg (not_not.2 h1)).trans ((if_neg (not_not.2 h2)).trans ((if_neg (not_not.2 h3)).trans ((if_neg (not_not.2 h4)).trans (if_pos ?_)))))
        obtain ⟨p, hp', hno⟩ := h5
        exact fun hr => Bool.false_ne_true (hno.symm.trans (hr p hp'))
      · exact hturn.trans ((if_neg (not_not.2 h1)).trans ((if_neg (not_not.2 h2)).trans ((if_neg (not_not.2 h3)).trans ((if_neg (not_not.2 h4)).trans (if_neg (not_not.2 h5))))))
      · exact hbinds st _ none _ (fun r => rfl) (collStep_refused hg h)
      · refine hbinds 0 _ (some all) _ (fun r => ?_) (collStep_combines hg h)
        obtain ⟨xs, xss, hxs⟩ := List.exists_cons_of_ne_nil hall
        have hlen : (xs :: xss).length = ps.length := hxs ▸ List.length_map _
        simp only [shareOf, fold, one, len, hxs, ← hlen]
        match ecOp x with
        | 0 => rfl
        | 1 => rfl
        | 2 => exact collResult_allgather ..
        | 3 => exact collResult_broadcast ..
        | _ + 4 => rfl
    case ring =>
      have hstep : cardRowMove c t 2 n s = ringStepMove c t task k s := hrow.trans (engineRow_ring hA hp)
      refine ⟨fun hr => hstep.trans (ringStepMove_unready hr), fun hr ho => hown ((engineRow_ring hA hp).trans (ringStepMove_reads hr ho)), fun hr ho => ?_⟩
      refine ⟨fun hm => hstep.trans (ringStepMove_alone hr ho hm), fun pc pt pk y hm => ?_⟩
      intro from_ dst alike kept dl taken
      refine ⟨fun hy => hstep.trans (ringStepMove_waits hr ho hm hy), fun hy1 hy2 ha => ⟨_, hstep.trans (ringStepMove_differs hr ho hm hy1 hy2 ha), ?_⟩,
        fun hy1 hy2 ha w v hw => ⟨_, hstep.trans (ringStepMove_takes hr ho hm hy1 hy2 ha hw), ?_⟩⟩
      · intro z hne hz
        obtain ⟨h1, h2⟩ := cardAt_ringTaken htask hk (.refl s) hne hz { k with recs := kept, status := k.status ||| 4 } rfl [] 0
        refine ⟨h1.trans ?_, h2⟩
        simp [boundCard]
      · intro ys z hne hz
        obtain ⟨h1, h2⟩ := cardAt_ringTaken htask hk ((looks_sweptLines ..).trans (.of_snd hw (looks_writerFor ..))) hne hz
          { k with recs := kept, deposit := w } rfl (y.block.map fun u => (heldUnit (recFmt from_) u, u.lost)) (y.block.foldl (fun m u => m ||| u.mask) 0)
        refine ⟨h1.trans (congrArg some ?_), h2⟩
        rw [boundRec_ring (k := { k with recs := kept, deposit := w }) hA rfl h64, boundCard_map]
        rfl
    case bound =>
      intro dst y write
      have hbound : engineRow c t task k s = afterRow s c t 2 k (boundUnit c task k s) := engineRow_bound h8 hp
      refine ⟨fun hd => hrow.trans (hbound.trans ?_), fun hd h9 hf => hfails _ _ _ _ (hbound.trans ?_),
        fun hd hf => ⟨fun e v hw => hfails _ _ _ _ (hbound.trans ?_), fun ks g v hw => hrow.trans (hbound.trans ?_)⟩⟩
      · rw [boundUnit_done hd, afterRow_idle]
      · rw [boundUnit_mismatch hd h9 hf, afterRow_rowErr]
        rfl
      · rw [boundUnit_error hd hf hw, afterRow_rowErr]
      · rw [boundUnit_ok hd hf hw]
        exact afterRow_made _ _ _ _ _ _ _ (.inl (Nat.succ_ne_self _))

end Sys2Proof.Machine
end

section
/-! PROOFS. Cards issued by engine-port nodes (R194, R289, R294, R298). -/

namespace Sys2Proof.Machine

/-! An engine-port node's firing (R147). -/

/-- A node that took its operands and sent nothing yet. -/
theorem nodeFired_taken {f : Foc} {s : State} (hf : foc? s = some f) {ports : List Nat} (hg : goodPorts ports) (hne : ∀ p ∈ ports, portQ f.nd p ≠ []) :
    nodeFired f ports [] (setNode f.ph f.slot (advance f.nd ports)) := by
  obtain ⟨-, -, -, -, -, -, -, hnd⟩ := foc_cases hf
  refine ⟨rfl, ⟨fun u => ?_, fun n hn => congrArg _ (nodeOf_setNode_ne _ _ hn)⟩, ?_⟩
  · rw [inFlight_advance _ _ _ _ hg (hnd ▸ hne) (by rw [hnd]; intros; rfl)]
    simp
  · rw [nodeOf_setNode_self]
    have hrest := popPorts_rest f.nd ports
    simp only [Node.rest, advance, Node.mk.injEq] at hrest ⊢
    simp_all

/-- A firing of a machine that has become u, with the task in focus as it is there. -/
theorem firedFrom_fired {u : State} {f : Foc} {task : Task} (h : u.task? f.c f.t = some task) (ph : Phase) : FiredFrom u f task (fired u f ph) ph := by
  have hfind : tabFind (u.core f.c).tasks f.t = some task := h
  have hfired : fired u f ph = u.setCore f.c { u.core f.c with
      orphan := 0, firedNow := f.slot :: (u.core f.c).firedNow,
      tasks := tabPut (u.core f.c).tasks f.t { task with phase := some ph, firings := task.firings + 1 } } := by
    unfold fired
    simp only [hfind]
  rw [hfired]
  refine ⟨⟨⟨rfl, fun d hd => State.core_setCore_ne _ _ hd⟩, ?_, fun j hj => ?_⟩, ⟨fun _ => rfl, rfl, rfl, rfl⟩, ?_, ?_, ?_⟩
  · simp
  · simp [State.task?, tabFind_tabPut_ne _ _ hj]
  · simp
  · simp
  · simp

theorem epReady_heads {s : State} {f : Foc} {ports : List Nat} {ops : List (Nat × Token)} (h : epReady s f ports ops) : heads f.nd ports = some ops := by
  have hready := h.2
  unfold readyEp at hready
  split at hready
  · exact hready
  · cases hready

/-- What `epFired` makes of the machine. -/
theorem epFires_of_epFired {i : Instr} {s u : State} {f : Foc} {task : Task} {ports : List Nat} {ops : List (Nat × Token)} {key : Nat} {x : Option Token}
    (hr : epReady s f ports ops) (hg : goodPorts ports) (hu : u.task? f.c f.t = some task) (hexec : exec i s = .next (epFired u f ports key x)) :
    epFires i s u f task ports key x :=
  ⟨_, _, hexec, nodeFired_taken hr.1 hg (heads_nonempty (epReady_heads hr)), firedFrom_fired hu _⟩

/-! The issue of a card (R194, R289). -/

theorem chainOf_appendCard (task : Task) (n : Nat) (k : Card) : chainOf (appendCard task n k) n =
    { chainOf task n with tail := (chainOf task n).tail + 1, cards := (chainOf task n).cards ++ [{ k with seq := (chainOf task n).tail + 1 }] } :=
  tabGet_tabPut_self _ _ _ _

theorem onlyTask_setTask (s : State) (c t : Nat) (task : Task) : onlyTask c t s (s.setTask c t task) :=
  ⟨⟨rfl, fun d hd => s.core_setTask_ne t task hd⟩, by rw [State.core_setTask_self], fun j hj => s.task_setTask_ne c task hj⟩

/-- A card issued counts in the order of cards, and its task holds it. -/
def cardIssued (s : State) (f : Foc) (task : Task) : State := ({ s with cardOrder := s.cardOrder + 1 }).setTask f.c f.t task

theorem cardIssued_frame (s : State) (f : Foc) (task : Task) :
    cardIssued s f task = { s with cardOrder := s.cardOrder + 1, cores := (cardIssued s f task).cores } ∧
      onlyTask f.c f.t { s with cardOrder := s.cardOrder + 1 } (cardIssued s f task) ∧ (cardIssued s f task).task? f.c f.t = some task :=
  ⟨rfl, onlyTask_setTask .., State.task_setTask_self ..⟩

/-- The card of a matrix node. -/
def matrixCard (s : State) (f : Foc) (op : Nat) (w : EpW) (sub : BitVec 8) (card : BitVec 512) (arg : Token) : Card :=
  let bank := if op = 0xBF then bankShare s f.c f.task.job sub.toNat card else 0
  { seq := 0, op := op, sub := sub.toNat, ty := w.ty.toNat, card := card, arg := arg, handler := f.ph.handler,
    order := s.cardOrder, stamp := s.stamp, bank := bank, bankDone := bank == 0, prog := bank, relatch := f.task.latched.again }

/-- The card of an EP2 node. -/
def engineCard (s : State) (f : Foc) (op : Nat) (w : EpW) (sub : BitVec 8) (card : BitVec 512) : Card :=
  { seq := 0, op := op, sub := sub.toNat, escope := w.escope.toNat, card := card, handler := f.ph.handler,
    order := s.cardOrder, stamp := s.stamp, args := engineArgs s f.task op w.escope.toNat card }

section Fire
variable {op : Nat} {w : EpW} {sub : BitVec 8} {s : State} {f : Foc} {ops : List (Nat × Token)}

theorem fireMatrix_eq (hr : epReady s f (withPred w.pm.toNat (if op = 0xBC then [0, 1] else [0])) ops) : fireMatrix op w sub s =
    if actsNull w.pm.toNat ops then .next (epFired s f (withPred w.pm.toNat (if op = 0xBC then [0, 1] else [0])) 0 (some nullToken))
    else match matrixCheck s f.c op sub.toNat w.ty.toNat (tokAt ops 0).data with
      | some e => .next (nodeFault s f e)
      | none =>
        let task := appendCard { f.task with latched := { f.task.latched with again := false } } 0 (matrixCard s f op w sub (tokAt ops 0).data (tokAt ops 1))
        .next (epFired (cardIssued s f task) f (withPred w.pm.toNat (if op = 0xBC then [0, 1] else [0])) (cardKey 0 (chainOf task 0).tail)
          (if sub.toNat % 2 = 1 then none else some (issueToken (chainOf task 0).tail))) := by
  unfold fireMatrix
  rw [hr.1]
  dsimp only
  rw [hr.2]
  rfl

theorem fireEngine_eq (hr : epReady s f (withPred w.pm.toNat [0]) ops) : fireEngine op w sub s =
    if actsNull w.pm.toNat ops then .next (epFired s f (withPred w.pm.toNat [0]) 0 (some nullToken))
    else match engineCheck s f op w.escope.toNat (tokAt ops 0).data with
      | some e => .next (nodeFault s f e)
      | none =>
        let task := countRing (appendCard f.task 2 (engineCard s f op w sub (tokAt ops 0).data)) op w.escope.toNat
        .next (epFired (cardIssued s f task) f (withPred w.pm.toNat [0]) (cardKey 2 (chainOf task 2).tail)
          (if sub.toNat = 1 then none else some (issueToken (chainOf task 2).tail))) := by
  unfold fireEngine
  rw [hr.1]
  dsimp only
  rw [hr.2]
  rfl

end Fire

theorem goodPorts_matrix (pm op : Nat) : goodPorts (withPred pm (if op = 0xBC then [0, 1] else [0])) := by
  split
  · exact goodPorts_withPred (by decide) (by decide) pm
  · exact goodPorts_withPred (by decide) (by decide) pm

/-- The task whose EP2 node has issued a card: its chain holds it, and a ring card counts in its ring. -/
theorem countRing_appendCard (task : Task) (k : Card) (op escope : Nat) : countRing (appendCard task 2 k) op escope = { task with
    chains := tabPut task.chains 2 { chainOf task 2 with tail := (chainOf task 2).tail + 1, cards := (chainOf task 2).cards ++ [{ k with seq := (chainOf task 2).tail + 1 }] }
    rings := if op = 0xDA then tabPut task.rings escope { ringAt task escope with issued := (ringAt task escope).issued + 1 } else task.rings } := by
  unfold countRing
  split
  · rfl
  · rfl

theorem tail_countRing_appendCard (task : Task) (k : Card) (op escope : Nat) : (chainOf (countRing (appendCard task 2 k) op escope) 2).tail = (chainOf task 2).tail + 1 := by
  rw [countRing_appendCard]
  exact congrArg Chain.tail (tabGet_tabPut_self _ _ _ _)

theorem engineArgs_eq (s : State) (task : Task) (op escope : Nat) (card : BitVec 512) : engineArgs s task op escope card =
    if op = 0xDA then [(ringAt task escope).issued]
    else if op = 0xD8 ∧ ecTocb card = true then
      ((s.core (ecDcore card)).tasks.filter fun e => e.2.job == task.job && e.2.bufs.getLsbD (ecCbn card)).map fun e => e.2.rank
    else [] := by
  unfold engineArgs
  refine if_congr Iff.rfl rfl (if_congr ?_ rfl rfl)
  rw [Bool.and_eq_true, decide_eq_true_iff]

end Sys2Proof.Machine
end

section
/-! PROOFS. The accumulator rows that cards of EP0 work (R197, R200, R203). -/

namespace Sys2Proof.Machine

/-! Elements of a row. -/

theorem accElem_eq (v : BitVec 512) (e : Nat) : accElem v e = bitsOf v.toNat (e * 32) 32 := by
  rw [accElem, BitVec.extractLsb'_toNat, Nat.mul_comm]
  rfl

theorem accElem_lt (v : BitVec 512) (e : Nat) : accElem v e < 2 ^ 32 := (v.extractLsb' (32 * e) 32).isLt

theorem accElem_zero (e : Nat) : accElem 0 e = 0 := by simp [accElem_eq, bitsOf]

/-- An element of a row in which some are replaced. -/
theorem accElem_rowWith (v : BitVec 512) (f : Nat → Option Nat) {e : Nat} (he : e < 16) : accElem (rowWith v f) e = (f e).getD (accElem v e) % 2 ^ 32 := by
  have hlt : packElems 32 ((List.range 16).map fun e => (f e).getD (accElem v e)) < 2 ^ 512 := packElems_lt ..
  rw [accElem_eq, rowWith, BitVec.toNat_ofNat, Nat.mod_eq_of_lt hlt, bitsOf_packElems, List.getD_eq_getElem _ _ (by simpa using he)]
  simp

theorem accumulate_lt {a : Nat} (ha : a < 2 ^ 32) (xs : List (Val × Val)) : accumulate a xs < 2 ^ 32 := by
  induction xs generalizing a with
  | nil => exact ha
  | cons p xs ih =>
    refine ih ?_
    dsimp only
    split
    · exact ha
    · exact roundFloat_bits_lt rfl ..

theorem scalePow2_lt {a : Nat} (ha : a < 2 ^ 32) (n : Int) : scalePow2 a n < 2 ^ 32 := by
  unfold scalePow2
  split
  · split
    · exact ha
    · exact roundFloat_bits_lt rfl ..
  · exact ha

/-! Rows written. -/

theorem accRow_congr {s v : State} {c : Nat} (h : (v.core c).acc = (s.core c).acc) (task : Task) (row : Nat) : accRow v c task row = accRow s c task row := by
  rw [accRow, h, accRow]

/-- In an allotment that lists no row twice, one row written leaves every other. -/
theorem accRow_setAccRow {task : Task} (hn : task.acc.Nodup) {row r : Nat} (hrow : row < task.acc.length) (hr : r < task.acc.length) (s : State) (c : Nat) (v : BitVec 512) :
    accRow (setAccRow s c task r v) c task row = if row = r then v else accRow s c task row := by
  rw [accRow, setAccRow, State.core_setCore_self]
  dsimp only
  rw [tabGet_tabSet, List.getD_eq_getElem _ _ hrow, List.getD_eq_getElem _ _ hr]
  refine if_congr (hn.getElem_inj_iff) rfl ?_
  rw [accRow, List.getD_eq_getElem _ _ hrow]

/-- Of the machine only accumulator rows of a core differ, and of the rows in the task's allotment only those elements that `new` names. -/
def accsBecome (c : Nat) (task : Task) (s v u : State) (new : Nat → Nat → Option Nat) : Prop :=
  onlyCore c v u ∧ u.core c = { v.core c with acc := (u.core c).acc } ∧
    (task.acc.Nodup → ∀ row e, row < task.acc.length → e < 16 → accElem (accRow u c task row) e = (new row e).getD (accElem (accRow s c task row) e))

theorem onlyAcc_setAccRow (s : State) (c : Nat) (task : Task) (row : Nat) (v : BitVec 512) :
    onlyCore c s (setAccRow s c task row v) ∧ (setAccRow s c task row v).core c = { s.core c with acc := ((setAccRow s c task row v).core c).acc } :=
  ⟨onlyCore_setCore .., by rw [setAccRow, State.core_setCore_self]⟩

theorem onlyAcc_trans {c : Nat} {s t u : State} (h : onlyCore c s t ∧ t.core c = { s.core c with acc := (t.core c).acc })
    (h' : onlyCore c t u ∧ u.core c = { t.core c with acc := (u.core c).acc }) : onlyCore c s u ∧ u.core c = { s.core c with acc := (u.core c).acc } := by
  obtain ⟨⟨hs, hd⟩, hacc⟩ := h
  obtain ⟨⟨hs', hd'⟩, hacc'⟩ := h'
  refine ⟨⟨?_, fun d hne => (hd' d hne).trans (hd d hne)⟩, ?_⟩
  · rw [hs', hs]
  · rw [hacc', hacc]

/-- Rows base to base + n, each made of what it held. -/
def mapRows (c : Nat) (task : Task) (base : Nat) (f : Nat → BitVec 512 → BitVec 512) (n : Nat) (v : State) : State :=
  (List.range n).foldl (fun u g => setAccRow u c task (base + g) (f g (accRow u c task (base + g)))) v

section MapRows
variable (c : Nat) (task : Task) (base : Nat) (f : Nat → BitVec 512 → BitVec 512) (n : Nat) (v : State)

theorem mapRows_succ : mapRows c task base f (n + 1) v =
    setAccRow (mapRows c task base f n v) c task (base + n) (f n (accRow (mapRows c task base f n v) c task (base + n))) := by
  rw [mapRows, List.range_succ, List.foldl_append]
  rfl

theorem onlyAcc_mapRows : onlyCore c v (mapRows c task base f n v) ∧ (mapRows c task base f n v).core c = { v.core c with acc := ((mapRows c task base f n v).core c).acc } := by
  induction n with
  | zero => exact ⟨⟨rfl, fun _ _ => rfl⟩, rfl⟩
  | succ n ih =>
    rw [mapRows_succ]
    exact onlyAcc_trans ih (onlyAcc_setAccRow ..)

theorem accRow_mapRows (hn : task.acc.Nodup) (hfit : base + n ≤ task.acc.length) {row : Nat} (hrow : row < task.acc.length) :
    accRow (mapRows c task base f n v) c task row = if base ≤ row ∧ row < base + n then f (row - base) (accRow v c task row) else accRow v c task row := by
  induction n with
  | zero => exact (if_neg (by omega)).symm
  | succ n ih =>
    have ih := ih (by omega)
    rw [mapRows_succ, accRow_setAccRow hn hrow (by omega)]
    split
    · next h =>
      subst h
      rw [ih, if_neg (by omega), if_pos (by omega), Nat.add_sub_cancel_left]
    · rw [ih]
      exact if_congr (by omega) rfl rfl

/-- What the allotment holds once its rows from base on are each made of what they held. -/
theorem accsBecome_mapRows {s : State} (hv : (v.core c).acc = (s.core c).acc) (hfit : base + n ≤ task.acc.length) {new : Nat → Nat → Option Nat}
    (hin : ∀ row e, base ≤ row → row < base + n → e < 16 → accElem (f (row - base) (accRow s c task row)) e = (new row e).getD (accElem (accRow s c task row) e))
    (hout : ∀ row e, ¬(base ≤ row ∧ row < base + n) → new row e = none) : accsBecome c task s v (mapRows c task base f n v) new := by
  obtain ⟨honly, hacc⟩ := onlyAcc_mapRows c task base f n v
  refine ⟨honly, hacc, fun hn row e hrow he => ?_⟩
  rw [accRow_mapRows c task base f n v hn hfit hrow, accRow_congr hv]
  split
  · next h => exact hin row e h.1 h.2 he
  · next h => rw [hout row e h, Option.getD_none]

end MapRows

/-- One row made of what it held. -/
theorem accsBecome_row (c : Nat) (task : Task) {s v : State} (hv : (v.core c).acc = (s.core c).acc) {row : Nat} (hfit : row < task.acc.length) (x : BitVec 512) {new : Nat → Option Nat}
    (hin : ∀ e, e < 16 → accElem x e = (new e).getD (accElem (accRow s c task row) e)) :
    accsBecome c task s v (setAccRow v c task row x) fun r e => if r = row then new e else none := by
  refine accsBecome_mapRows c task row (fun _ _ => x) 1 v hv hfit (fun r e h1 h2 he => ?_) fun r e h => if_neg (by omega)
  obtain rfl : r = row := by omega
  rw [if_pos rfl]
  exact hin e he

/-- No row written. -/
theorem accsBecome_none (c : Nat) (task : Task) {s v : State} (hv : (v.core c).acc = (s.core c).acc) {new : Nat → Nat → Option Nat} (h : ∀ row e, new row e = none) : accsBecome c task s v v new :=
  ⟨⟨rfl, fun _ _ => rfl⟩, rfl, fun _ row e _ _ => by rw [h, accRow_congr hv, Option.getD_none]⟩

end Sys2Proof.Machine
end

section
/-! PROOFS. The elements that a card writes through a record in the window (R196, R202). -/

namespace Sys2Proof.Machine

/-! The writes of a row, resolved. -/

section Cell
variable (c : Nat) (r : BitVec 512)

/-- Which half of its byte an element of a record is, where it is half of one. -/
def cellHalf (i : Nat) : Option Nat := if typeWidth (recFmt r) = 4 && recFmt r != 6 then some (wrapCoord r 0 i % 2) else none

/-- The write of an element (c0, c1) of a record in the window: none beyond the extent. -/
def cellPut (n i m x : Nat) : Put :=
  ⟨if beyond r i m then [] else [⟨keyScratch c (elemAddress r i m), n, 0⟩], x, cellHalf r i, false⟩

end Cell

section Resolve
variable {c part : Nat} {card : Option (BitVec 512)} {r : BitVec 512}

theorem remoteMiss_scratch {va : Nat} (hc : c < 512) (hva : inWindow va = true) (s : State) (n : Nat) : remoteMiss s [⟨keyScratch c va, n, 0⟩] = none := by
  simp [remoteMiss, remoteFault, unreachable, remoteRefused, isRemote_keyScratch hc hva]

theorem writesOpen_scratch {va : Nat} (hc : c < 512) (hva : inWindow va = true) (s : State) (n : Nat) : writesOpen s [⟨keyScratch c va, n, 0⟩] = true := by
  simp [writesOpen, isHost_keyScratch hc hva]

theorem writeRuns_window {i m n : Nat} (hc : c < 512) (hin : beyond r i m = false → inWindow (elemAddress r i m) = true ∧ inWindow (elemAddress r i m + n - 1) = true)
    {s v : State} {ks : List MemRun} (h : writeRuns c part card r i m n s = (.ok ks, v)) :
    v = s ∧ ks = if beyond r i m then [] else [⟨keyScratch c (elemAddress r i m), n, 0⟩] := by
  unfold writeRuns at h
  cases hb : beyond r i m
  · obtain ⟨h1, h2⟩ := hin hb
    rw [if_neg (by simp [hb])] at h
    dsimp only at h
    split at h
    · cases h
    · rw [runKeys_window h1 h2] at h
      dsimp only at h
      rw [remoteMiss_scratch hc h1, writesOpen_scratch hc h1] at h
      generalize Option.all _ card = touches at h
      split at h
      · cases h
      · cases h
        exact ⟨rfl, rfl⟩
  · rw [if_pos hb] at h
    cases h
    exact ⟨rfl, rfl⟩

/-- The writes of elements in the window stand as they are named, and no move of the memory comes before them. -/
theorem resolvePuts_window {cells : List (Nat × Nat × Nat × Nat)} (hc : c < 512) (hin : ∀ x ∈ cells, beyond r x.1 x.2.1 = false →
      inWindow (elemAddress r x.1 x.2.1) = true ∧ inWindow (elemAddress r x.1 x.2.1 + x.2.2.1 - 1) = true)
    {s v : State} {ps : List Put} (h : resolvePuts c part card r false cells s = (.ok ps, v)) :
    v = s ∧ ps = cells.map fun x => cellPut c r x.2.2.1 x.1 x.2.1 x.2.2.2 := by
  induction cells generalizing ps v with
  | nil =>
    cases h
    exact ⟨rfl, rfl⟩
  | cons x xs ih =>
    unfold resolvePuts at h
    split at h
    · cases h
    · next ks u hx =>
      obtain ⟨rfl, rfl⟩ := writeRuns_window hc (hin x (by simp)) hx
      split at h
      · cases h
      · next qs w hxs =>
        obtain ⟨rfl, rfl⟩ := ih (fun y hy => hin y (by simp [hy])) hxs
        cases h
        exact ⟨rfl, rfl⟩

end Resolve

/-! Elements put. -/

theorem memRead_one (m : List Host.Cell) (key : Nat) : memRead m key 1 = (memByte m key).toNat := rfl

/-- Half a byte put at a scratchpad byte. -/
theorem doPut_nibble {c va : Nat} (hc : c < 512) (hva : inWindow va = true) (s : State) (x h : Nat) :
    let old := (s.byte (keyScratch c va)).toNat
    bytesWritten s (doPut s ⟨[⟨keyScratch c va, 1, 0⟩], x, some h, false⟩) 0 (keyScratch c va) 1
      (byteOf (if h = 0 then old / 16 * 16 + x % 16 else old % 16 + 16 * (x % 16))) := by
  have hput : doPut s ⟨[⟨keyScratch c va, 1, 0⟩], x, some h, false⟩ = writeView s 0 (keyScratch c va) 1
      ((if h = 0 then (s.byte (keyScratch c va)).toNat / 16 * 16 + x % 16 else (s.byte (keyScratch c va)).toNat % 16 + 16 * (x % 16)) % 2 ^ (8 * 1)) false := by
    simp only [doPut, podSendRuns_scratch hc hva, writeKeys, readKeys_scratch, memRead_one]
    rfl
  intro old
  rw [hput]
  exact (bytesWritten_writeView _ _ _ _ _ _).congrBytes fun k hk => (byteOf_mod _ hk).symm

/-- An element of a record stands in memory as x. -/
def cellHolds (t : State) (c : Nat) (r : BitVec 512) (i m x : Nat) : Prop :=
  (typeWidth (recFmt r) ≠ 4 → ∀ k, k < (typeWidth (recFmt r) + 7) / 8 → t.byte (keyScratch c (elemAddress r i m) + k) = byteOf x k) ∧
  (typeWidth (recFmt r) = 4 → (t.byte (keyScratch c (elemAddress r i m))).toNat / 16 ^ (wrapCoord r 0 i % 2) % 16 = x % 16)

/-- Two elements of a record that share no bits. -/
def cellsApart (c : Nat) (r : BitVec 512) (j n i m : Nat) : Prop :=
  let place := fun i m => keyScratch c (elemAddress r i m)
  let size := (typeWidth (recFmt r) + 7) / 8
  place j n + size ≤ place i m ∨ place i m + size ≤ place j n ∨
    (typeWidth (recFmt r) = 4 ∧ place j n = place i m ∧ wrapCoord r 0 j % 2 ≠ wrapCoord r 0 i % 2)

section Put
variable {c : Nat} {r : BitVec 512} (hc : c < 512) (hf : recFmt r ≠ 6) (s : State) {i m : Nat} (x : Nat)
include hf

theorem cellHalf_eq : cellHalf r i = if typeWidth (recFmt r) = 4 then some (wrapCoord r 0 i % 2) else none := by
  rw [cellHalf]
  exact if_congr (by simp [hf]) rfl rfl

theorem doPut_beyond (hb : beyond r i m = true) (n : Nat) : doPut s (cellPut c r n i m x) = s := by
  rw [cellPut, if_pos hb, cellHalf_eq hf]
  split <;> rfl

variable (hb : beyond r i m = false) (hva : inWindow (elemAddress r i m) = true)
include hb

theorem doPut_cell : doPut s (cellPut c r ((typeWidth (recFmt r) + 7) / 8) i m x) =
    doPut s ⟨[⟨keyScratch c (elemAddress r i m), (typeWidth (recFmt r) + 7) / 8, 0⟩], x, if typeWidth (recFmt r) = 4 then some (wrapCoord r 0 i % 2) else none, false⟩ := by
  rw [cellPut, if_neg (by simp [hb]), cellHalf_eq hf]

include hc hva

/-- The element put stands in memory. -/
theorem cellHolds_doPut : cellHolds (doPut s (cellPut c r ((typeWidth (recFmt r) + 7) / 8) i m x)) c r i m x := by
  rw [doPut_cell (c := c) hf s x hb]
  by_cases hw : typeWidth (recFmt r) = 4
  · refine ⟨fun h => absurd hw h, fun _ => ?_⟩
    rw [if_pos hw, hw, (doPut_nibble hc hva s x _).1 _ le_rfl (by omega), Nat.sub_self]
    rcases Nat.mod_two_eq_zero_or_one (wrapCoord r 0 i) with h | h
    · rw [h, if_pos rfl, byteOf, BitVec.toNat_ofNat]
      omega
    · rw [h, if_neg (by decide), byteOf, BitVec.toNat_ofNat]
      omega
  · refine ⟨fun _ k hk => ?_, fun h => absurd h hw⟩
    rw [if_neg hw, (bytesWritten_doPut_scratch hc hva s _ x false).1 _ (by omega) (by omega), Nat.add_sub_cancel_left]

/-- Bytes beside the element stay. -/
theorem byte_doPut_cell {a : Nat} (ha : a < keyScratch c (elemAddress r i m) ∨ keyScratch c (elemAddress r i m) + (typeWidth (recFmt r) + 7) / 8 ≤ a) :
    (doPut s (cellPut c r ((typeWidth (recFmt r) + 7) / 8) i m x)).byte a = s.byte a := by
  rw [doPut_cell (c := c) hf s x hb]
  by_cases hw : typeWidth (recFmt r) = 4
  · rw [hw] at ha
    rw [if_pos hw, hw]
    exact (doPut_nibble hc hva s x _).2.2 (.inl rfl) _ ha
  · rw [if_neg hw]
    exact (bytesWritten_doPut_scratch hc hva s _ x false).2.2 (.inl rfl) _ ha

/-- An element that shares no bits with the one put stays. -/
theorem cellHolds_doPut_apart {j n y : Nat} (hap : cellsApart c r i m j n) (h : cellHolds s c r j n y) :
    cellHolds (doPut s (cellPut c r ((typeWidth (recFmt r) + 7) / 8) i m x)) c r j n y := by
  have hbyte : ∀ a, _ := fun a => byte_doPut_cell hc hf s x hb hva (a := a)
  have hpos := typeWidth_pos (recFmt r)
  obtain ⟨hwide, hhalf⟩ := h
  rcases hap with hap | hap | ⟨hw, hplace, hne⟩
  · refine ⟨fun hw k hk => (hbyte _ (by dsimp only at hap; omega)).trans (hwide hw k hk), fun hw => ?_⟩
    rw [hbyte _ (by dsimp only at hap; omega), hhalf hw]
  · refine ⟨fun hw k hk => (hbyte _ (by dsimp only at hap; omega)).trans (hwide hw k hk), fun hw => ?_⟩
    rw [hbyte _ (by dsimp only at hap; omega), hhalf hw]
  · refine ⟨fun h => absurd hw h, fun _ => ?_⟩
    have hold := hhalf hw
    dsimp only at hplace
    rw [← hplace] at hold ⊢
    rw [doPut_cell (c := c) hf s x hb, if_pos hw, hw, (doPut_nibble hc hva s x _).1 _ le_rfl (by omega), Nat.sub_self]
    generalize (s.byte (keyScratch c (elemAddress r i m))) = old at hold ⊢
    have hlt := old.isLt
    rcases Nat.mod_two_eq_zero_or_one (wrapCoord r 0 i) with h | h <;> rcases Nat.mod_two_eq_zero_or_one (wrapCoord r 0 j) with h' | h'
    · omega
    · rw [h'] at hold ⊢
      rw [h, if_pos rfl, byteOf, BitVec.toNat_ofNat]
      omega
    · rw [h'] at hold ⊢
      rw [h, if_neg (by decide), byteOf, BitVec.toNat_ofNat]
      omega
    · omega

end Put

end Sys2Proof.Machine
end

section
/-! PROOFS. The rows of cards that write through a record: drains, stores of accumulators and products (R202, R203, R205). -/

namespace Sys2Proof.Machine

/-! A row of elements put. -/

theorem cellsWritten.congr {s t u : State} {c : Nat} {r : BitVec 512} {has : Nat → Nat → Bool} {v : Nat → Nat → Nat} (h : cellsWritten s t c r has v)
    (hu : ∀ a, u.byte a = t.byte a) : cellsWritten s u c r has v := by
  obtain ⟨hout, hin⟩ := h
  refine ⟨fun a ha => (hu a).trans (hout a ha), fun i m hp hap => ?_⟩
  obtain ⟨hwide, hhalf⟩ := hin i m hp hap
  exact ⟨fun hw k hk => (hu _).trans (hwide hw k hk), fun hw => by rw [hu, hhalf hw]⟩

/-- The writes of a row of elements, columns c0 to c0 + n of row c1, to a record in the window. -/
def cellPuts (c : Nat) (r : BitVec 512) (c0 c1 n : Nat) (f : Nat → Nat) : List Put :=
  (List.range n).map fun j => cellPut c r ((typeWidth (recFmt r) + 7) / 8) (c0 + j) c1 (f j)

theorem cellPuts_succ (c : Nat) (r : BitVec 512) (c0 c1 n : Nat) (f : Nat → Nat) (s : State) : (cellPuts c r c0 c1 (n + 1) f).foldl doPut s =
    doPut ((cellPuts c r c0 c1 n f).foldl doPut s) (cellPut c r ((typeWidth (recFmt r) + 7) / 8) (c0 + n) c1 (f n)) := by
  rw [cellPuts, List.range_succ, List.map_append, List.foldl_append]
  rfl

section Row
variable {c : Nat} {r : BitVec 512} (hc : c < 512) (hf : recFmt r ≠ 6) {c0 c1 n : Nat} (f : Nat → Nat) (s : State)
  (hin : ∀ j, j < n → beyond r (c0 + j) c1 = false → inWindow (elemAddress r (c0 + j) c1) = true)
include hc hf hin

theorem byte_cellPuts {a : Nat} (ha : ∀ j, j < n → beyond r (c0 + j) c1 = false →
      a < keyScratch c (elemAddress r (c0 + j) c1) ∨ keyScratch c (elemAddress r (c0 + j) c1) + (typeWidth (recFmt r) + 7) / 8 ≤ a) :
    ((cellPuts c r c0 c1 n f).foldl doPut s).byte a = s.byte a := by
  induction n with
  | zero => rfl
  | succ n ih =>
    have ih := ih (fun j hj => hin j (by omega)) fun j hj => ha j (by omega)
    rw [cellPuts_succ]
    cases hb : beyond r (c0 + n) c1
    · rw [byte_doPut_cell hc hf _ _ hb (hin n (by omega) hb) (ha n (by omega) hb), ih]
    · rw [doPut_beyond hf _ _ hb, ih]

theorem cellHolds_cellPuts {j : Nat} (hj : j < n) (hb : beyond r (c0 + j) c1 = false)
    (hap : ∀ i, i < n → i ≠ j → beyond r (c0 + i) c1 = false → cellsApart c r (c0 + i) c1 (c0 + j) c1) :
    cellHolds ((cellPuts c r c0 c1 n f).foldl doPut s) c r (c0 + j) c1 (f j) := by
  induction n with
  | zero => omega
  | succ n ih =>
    rw [cellPuts_succ]
    by_cases hjn : j = n
    · subst hjn
      exact cellHolds_doPut hc hf _ _ hb (hin j hj hb)
    · have hold := ih (fun j hj => hin j (by omega)) (by omega) fun i hi => hap i (by omega)
      cases hbn : beyond r (c0 + n) c1
      · exact cellHolds_doPut_apart hc hf _ _ hbn (hin n (by omega) hbn) (hap n (by omega) (Ne.symm hjn) hbn) hold
      · rwa [doPut_beyond hf _ _ hbn]

end Row

/-- A row of elements put in the window (R196). -/
theorem cellsWritten_cellPuts {c : Nat} {r : BitVec 512} (hf : recFmt r ≠ 6) {c0 c1 n : Nat} (f : Nat → Nat) (s : State)
    (hin : cellsInside c r fun i j => decide (c0 ≤ i ∧ i < c0 + n ∧ j = c1)) :
    cellsWritten s ((cellPuts c r c0 c1 n f).foldl doPut s) c r (fun i j => decide (c0 ≤ i ∧ i < c0 + n ∧ j = c1)) fun i _ => f (i - c0) := by
  obtain ⟨hc, hwin⟩ := hin
  have hrow : ∀ j, j < n → beyond r (c0 + j) c1 = false → inWindow (elemAddress r (c0 + j) c1) = true :=
    fun j hj hb => (hwin _ _ (decide_eq_true ⟨by omega, by omega, rfl⟩) hb).1
  refine ⟨fun a ha => byte_cellPuts hc hf f s hrow fun j hj hb => ha _ _ ⟨decide_eq_true ⟨by omega, by omega, rfl⟩, hb⟩, ?_⟩
  rintro i m ⟨hput, hb⟩ hap
  obtain ⟨h1, h2, rfl⟩ := of_decide_eq_true hput
  obtain ⟨j, rfl⟩ := Nat.exists_eq_add_of_le h1
  dsimp only
  rw [Nat.add_sub_cancel_left]
  refine cellHolds_cellPuts hc hf f s hrow (by omega) hb fun i hi hne hbi => ?_
  exact hap _ _ ⟨decide_eq_true ⟨by omega, by omega, rfl⟩, hbi⟩ fun he => hne (by simpa using he)

/-- The writes of a row, resolved in the window. -/
theorem resolvePuts_cells {c part : Nat} {card : Option (BitVec 512)} {r : BitVec 512} {c0 c1 n size : Nat} {f : Nat → Nat}
    (hsize : size = (typeWidth (recFmt r) + 7) / 8) (hin : cellsInside c r fun i j => decide (c0 ≤ i ∧ i < c0 + n ∧ j = c1)) {s v : State} {ps : List Put}
    (h : resolvePuts c part card r false ((List.range n).map fun j => (c0 + j, c1, size, f j)) s = (.ok ps, v)) : v = s ∧ ps = cellPuts c r c0 c1 n f := by
  subst hsize
  obtain ⟨hc, hwin⟩ := hin
  have := resolvePuts_window hc (fun x hx hb => ?_) h
  · rw [List.map_map] at this
    exact this
  · obtain ⟨j, hj, rfl⟩ := List.mem_map.1 hx
    have hj := List.mem_range.1 hj
    obtain ⟨h1, h2, -⟩ := hwin _ _ (decide_eq_true ⟨by omega, by omega, rfl⟩) hb
    exact ⟨h1, h2⟩

end Sys2Proof.Machine
end

section
/-! PROOFS. What one row of a matrix card comes to (R199 to R203, R205, R208). -/

namespace Sys2Proof.Machine

/-! Which row a card works. -/

section Kind
variable {c t : Nat} {task : Task} {k : Card} {s : State}

theorem matrixRow_relatch (h : k.relatch = true) : matrixRow c t task k s = relatchStep c t task k s := by
  rw [matrixRow, if_pos h]

variable (h : k.relatch = false)
include h

/-- A card latches its own tile: `mlatch`, and a stream with LATCH set until its tile is whole. -/
theorem matrixRow_latches (hl : k.op = 0xB8 ∨ ((k.op = 0xB9 ∨ k.op = 0xC0) ∧ mcLatch k.card = true ∧ k.tile.length < mcK k.card)) :
    matrixRow c t task k s = latchStep c t task k s := by
  rw [matrixRow, if_neg (by simp [h])]
  rcases hl with ho | ⟨ho, hl, hlt⟩
  · rw [ho]
    rfl
  · rcases ho with ho | ho
    · rw [ho]
      exact if_pos (by simp [hl, hlt])
    · rw [ho]
      exact if_pos (by simp [hl, hlt])

theorem matrixRow_streams (ho : k.op = 0xB9 ∨ k.op = 0xC0) (hl : ¬(mcLatch k.card = true ∧ k.tile.length < mcK k.card)) :
    matrixRow c t task k s = streamRow c task k s := by
  rw [matrixRow, if_neg (by simp [h])]
  rcases ho with ho | ho
  · rw [ho]
    exact if_neg (by simpa using hl)
  · rw [ho]
    exact if_neg (by simpa using hl)

theorem matrixRow_drain (ho : k.op = 0xBA) : matrixRow c t task k s = drainRow c t task k s := by
  rw [matrixRow, if_neg (by simp [h]), ho]
  rfl

theorem matrixRow_mxv (ho : k.op = 0xBF) : matrixRow c t task k s = mxvStep c t task k s := by
  rw [matrixRow, if_neg (by simp [h]), ho]
  rfl

theorem matrixRow_accStore (ho : k.op ∈ [0xBB, 0xBC, 0xBD, 0xBE]) : matrixRow c t task k s = accStoreRow c task k s := by
  rw [matrixRow, if_neg (by simp [h])]
  simp only [List.mem_cons, List.not_mem_nil, or_false] at ho
  rcases ho with ho | ho | ho | ho
  all_goals
    rw [ho]
    rfl

end Kind

/-! Latches (R199, R208). -/

section Latch
variable {c t : Nat} {task : Task} {k : Card} {s v : State}

/-- The coordinates of weight row k of a latch. -/
def latchCoords (x : BitVec 512) (i : Nat) : List (Nat × Nat) := (List.range (mcN x)).map fun j => (mcWn0 x + j, mcWk0 x + i)

theorem latchRow_mismatch (part : Nat) (foot : Option (BitVec 512)) (r : BitVec 512) {ok : Bool} (h : ok = false) (x : BitVec 512) (i : Nat) :
    latchRow c part foot r ok x i s = (.error ⟨{ cls := 0x02, addr := recBase r }, 0, i⟩, s) := by
  rw [latchRow, if_pos (by simp [h])]

theorem latchRow_error {part : Nat} {foot : Option (BitVec 512)} {r : BitVec 512} {ok : Bool} (h : ok = true) {x : BitVec 512} {i : Nat} {e : FaultInfo}
    (hr : readElems c part foot r (latchCoords x i) s = (.error e, v)) : latchRow c part foot r ok x i s = (.error ⟨e, 0, i⟩, v) := by
  rw [latchRow, if_neg (by simp [h])]
  rw [latchCoords] at hr
  rw [hr]

theorem latchRow_ok {part : Nat} {foot : Option (BitVec 512)} {r : BitVec 512} {ok : Bool} (h : ok = true) {x : BitVec 512} {i : Nat} {vs : List Nat}
    (hr : readElems c part foot r (latchCoords x i) s = (.ok vs, v)) : latchRow c part foot r ok x i s = (.ok vs, v) := by
  rw [latchRow, if_neg (by simp [h])]
  rw [latchCoords] at hr
  rw [hr]

/-- Whether the weights' record is of the type that the card latches. -/
def latchSound (k : Card) (r : BitVec 512) : Bool := if k.op = 0xB8 then recFmt r == k.ty else weightType (recFmt r)

theorem latchSound_iff (k : Card) (r : BitVec 512) : latchSound k r = true ↔ if k.op = 0xB8 then recFmt r = k.ty else weightType (recFmt r) = true := by
  unfold latchSound
  split
  · rw [beq_iff_eq]
  · rfl

theorem latchStep_error {e : CardFault} (h : latchRow c task.part (some k.card) (cardRec (s.core c) k (mcWrec k.card))
    (latchSound k (cardRec (s.core c) k (mcWrec k.card))) k.card k.tile.length s = (.error e, v)) : latchStep c t task k s = (.error e, v) := by
  unfold latchStep
  unfold latchSound at h
  dsimp only
  rw [h]

section Made
variable {vs : List Nat} (h : latchRow c task.part (some k.card) (cardRec (s.core c) k (mcWrec k.card))
    (latchSound k (cardRec (s.core c) k (mcWrec k.card))) k.card k.tile.length s = (.ok vs, v))
include h

theorem latchStep_more (hlt : k.tile.length + 1 < mcK k.card) : latchStep c t task k s = (.ok { k with tile := k.tile ++ [vs] }, v) := by
  unfold latchStep
  unfold latchSound at h
  dsimp only
  rw [h]
  exact if_pos (by simpa using hlt)

theorem latchStep_last (hle : mcK k.card ≤ k.tile.length + 1) (htask : v.task? c t = some task) : latchStep c t task k s =
    (.ok { k with tile := k.tile ++ [vs], prog := if k.op = 0xB8 then 1 else k.prog },
      v.setTask c t { task with latched := { valid := true, ty := recFmt (cardRec (s.core c) k (mcWrec k.card)), rows := mcK k.card, cols := mcN k.card,
                                             elems := k.tile ++ [vs], card := k.card, lrec := cardRec (s.core c) k (mcWrec k.card) } }) := by
  unfold latchStep
  unfold latchSound at h
  dsimp only
  rw [h]
  refine (if_neg (by simpa using hle)).trans ?_
  rw [htask]

end Made

theorem relatchStep_error {e : CardFault} (h : latchRow c task.part none task.latched.lrec true task.latched.card k.tile.length s = (.error e, v)) :
    relatchStep c t task k s = (.error e, v) := by
  unfold relatchStep
  dsimp only
  rw [h]

theorem relatchStep_more {vs : List Nat} (h : latchRow c task.part none task.latched.lrec true task.latched.card k.tile.length s = (.ok vs, v))
    (hlt : k.tile.length + 1 < task.latched.rows) : relatchStep c t task k s = (.ok { k with tile := k.tile ++ [vs] }, v) := by
  unfold relatchStep
  dsimp only
  rw [h]
  exact if_pos (by simpa using hlt)

theorem relatchStep_last {vs : List Nat} (h : latchRow c task.part none task.latched.lrec true task.latched.card k.tile.length s = (.ok vs, v))
    (hle : task.latched.rows ≤ k.tile.length + 1) (htask : v.task? c t = some task) : relatchStep c t task k s =
      (.ok { k with tile := if mcLatch k.card && task.latched.card == k.card && task.latched.lrec == cardRec (s.core c) k (mcWrec k.card) then k.tile ++ [vs] else []
                    relatch := false },
        v.setTask c t { task with latched := { task.latched with elems := k.tile ++ [vs] } }) := by
  unfold relatchStep
  dsimp only
  rw [h]
  refine (if_neg (by simpa using hle)).trans ?_
  rw [htask]

end Latch

end Sys2Proof.Machine
end

section
/-! PROOFS. The rows of streams, drains and accumulator stores (R200 to R203). -/

namespace Sys2Proof.Machine

/-! Streams (R200, R201). -/

/-- The activations of row m of a stream. -/
def streamActs (c : Nat) (task : Task) (k : Card) (s : State) : Except FaultInfo (List Nat) × State :=
  if k.op = 0xC0 then readUnfold c task.part k.card (cardRec (s.core c) k (mcArec k.card)) k.prog (mcK k.card) s
  else readElems c task.part (some k.card) (cardRec (s.core c) k (mcArec k.card)) ((List.range (mcK k.card)).map fun i => (mcAk0 k.card + i, mcAm0 k.card + k.prog)) s

theorem looks_streamActs (c : Nat) (task : Task) (k : Card) (s : State) : Looks s (streamActs c task k s).2 := by
  unfold streamActs
  split
  · exact looks_readUnfold ..
  · exact looks_readElems ..

/-- The tile that a stream multiplies by holds its weights (R200). -/
def tileHeld (task : Task) (x : BitVec 512) : Prop := task.latched.valid = true ∧ mcK x ≤ task.latched.rows ∧ mcN x ≤ task.latched.cols

/-- What group g of an output row becomes: each element adds the products of the row's activations and its column of the tile. -/
def streamOut (task : Task) (x : BitVec 512) (av : List Val) (g : Nat) (old : BitVec 512) : BitVec 512 :=
  rowWith old fun e => if 16 * g + e < mcN x then
    some (accumulate (if mcClr x then 0 else accElem old e)
      (((List.range (mcK x)).map fun i => storedVal task.latched.ty ((task.latched.elems.getD i []).getD (16 * g + e) 0)).zip av))
  else none

theorem accElem_streamOut (task : Task) (x : BitVec 512) (av : List Val) (g : Nat) (old : BitVec 512) {e : Nat} (he : e < 16) :
    accElem (streamOut task x av g old) e = if 16 * g + e < mcN x then accumulate (if mcClr x then 0 else accElem old e)
        (((List.range (mcK x)).map fun i => storedVal task.latched.ty ((task.latched.elems.getD i []).getD (16 * g + e) 0)).zip av)
      else accElem old e := by
  have hold : (if mcClr x then 0 else accElem old e) < 2 ^ 32 := by
    split
    · decide
    · exact accElem_lt ..
  rw [streamOut, accElem_rowWith _ _ he]
  split
  · exact Nat.mod_eq_of_lt (accumulate_lt hold _)
  · exact Nat.mod_eq_of_lt (accElem_lt ..)

section Stream
variable {c : Nat} {task : Task} {k : Card} {s : State}

theorem tileHeld_cond (x : BitVec 512) : (!task.latched.valid || decide (task.latched.rows < mcK x) || decide (task.latched.cols < mcN x)) = true ↔ ¬tileHeld task x := by
  simp only [Bool.or_eq_true, Bool.not_eq_true', decide_eq_true_eq, tileHeld, not_and_or, Bool.not_eq_true, Nat.not_le, or_assoc]

theorem streamRow_empty (h : ¬tileHeld task k.card) : streamRow c task k s = rowErr { cls := 0x05 } 0 k.prog s :=
  if_pos ((tileHeld_cond k.card).2 h)

variable (h : tileHeld task k.card)
include h

theorem streamRow_beyond (hr : rowsFit task (mcAcc k.card) (mcAstr k.card) (mcM k.card) (mcN k.card) = false) :
    streamRow c task k s = rowErr { cls := 0x0D } 0 k.prog s :=
  (if_neg fun hc => (tileHeld_cond k.card).1 hc h).trans (if_pos (by simp [hr]))

variable (hr : rowsFit task (mcAcc k.card) (mcAstr k.card) (mcM k.card) (mcN k.card) = true)
include hr

theorem streamRow_mismatch (ht : ¬(recFmt (cardRec (s.core c) k (mcArec k.card)) = k.ty ∧ (k.op = 0xC0 → recNdim (cardRec (s.core c) k (mcArec k.card)) = 3))) :
    streamRow c task k s = rowErr { cls := 0x02, addr := recBase (cardRec (s.core c) k (mcArec k.card)) } 1 k.prog s := by
  refine (if_neg fun hc => (tileHeld_cond k.card).1 hc h).trans ((if_neg (by simp [hr])).trans (if_pos ?_))
  rw [not_and_or] at ht
  simpa using ht

variable (ht : recFmt (cardRec (s.core c) k (mcArec k.card)) = k.ty ∧ (k.op = 0xC0 → recNdim (cardRec (s.core c) k (mcArec k.card)) = 3))
include ht

theorem streamRow_outside (ho : k.op = 0xC0) (hw : recInWindow (cardRec (s.core c) k (mcArec k.card)) = false) :
    streamRow c task k s = rowErr { cls := 0x03, addr := recBase (cardRec (s.core c) k (mcArec k.card)) } 1 k.prog s :=
  (if_neg fun hc => (tileHeld_cond k.card).1 hc h).trans ((if_neg (by simp [hr])).trans ((if_neg (by simpa using ht)).trans (if_pos (by simp [ho, hw]))))

variable (hw : k.op = 0xC0 → recInWindow (cardRec (s.core c) k (mcArec k.card)) = true)
include hw

theorem streamRow_error {e : FaultInfo} {v : State} (ha : streamActs c task k s = (.error e, v)) : streamRow c task k s = rowErr e 1 k.prog v := by
  refine (if_neg fun hc => (tileHeld_cond k.card).1 hc h).trans ((if_neg (by simp [hr])).trans ((if_neg (by simpa using ht)).trans ((if_neg (by simpa using hw)).trans ?_)))
  unfold streamActs at ha
  dsimp only
  rw [ha]

theorem streamRow_ok {vs : List Nat} {v : State} (ha : streamActs c task k s = (.ok vs, v)) : streamRow c task k s =
    (.ok { k with prog := k.prog + 1 }, mapRows c task (mcAcc k.card + k.prog * mcAstr k.card)
      (streamOut task k.card (vs.map (storedVal (recFmt (cardRec (s.core c) k (mcArec k.card)))))) ((mcN k.card + 15) / 16) v) := by
  refine (if_neg fun hc => (tileHeld_cond k.card).1 hc h).trans ((if_neg (by simp [hr])).trans ((if_neg (by simpa using ht)).trans ((if_neg (by simpa using hw)).trans ?_)))
  unfold streamActs at ha
  dsimp only
  rw [ha]
  rfl

end Stream

/-- Row m of an output lies in the allotment with the others (R197). -/
theorem row_le_of_rowsFit {task : Task} {acc astr m n i : Nat} (h : rowsFit task acc astr m n = true) (hi : i < m) : acc + i * astr + (n + 15) / 16 ≤ task.acc.length := by
  simp only [rowsFit, Bool.and_eq_true, decide_eq_true_eq] at h
  have := Nat.mul_le_mul_right astr (Nat.le_sub_one_of_lt hi)
  omega

/-! Drains (R202). -/

/-- A value rounded into a drain type. -/
def roundTo (ty rnd : Nat) (sat : Bool) (y : Val) : Rounded := if isInt ty then roundInt ty rnd y else roundFloat ty rnd sat y

/-- The writes and the status of a drained row of values y, by elements. -/
theorem drainRowPuts_elems (skip : Nat → Bool) {ty : Nat} (hty : ty ≠ 6) (rnd : Nat) (sat : Bool) (dexp : Int) (c0 c1 n : Nat) (f : Nat → Nat) :
    let y := fun j => scaleVal dexp (decodeFloat 0 (f j))
    drainRowPuts skip ty rnd sat dexp c0 c1 ((List.range n).map f) =
      ((List.range n).map fun j => (c0 + j, c1, (typeWidth ty + 7) / 8, (roundTo ty rnd sat (y j)).bits),
       (List.range n).foldl (fun fl j => if skip (c0 + j) = false then fl ||| (roundTo ty rnd sat (y j)).flags else fl) 0) := by
  have hget : ∀ j ∈ List.range n, ((List.range n).map f).getD j 0 = f j := fun j hj => by
    rw [List.getD_eq_getElem _ _ (by simpa using List.mem_range.1 hj)]
    simp
  rw [drainRowPuts, if_neg hty, List.length_map, List.length_range]
  refine Prod.ext ?_ ?_
  · exact List.map_congr_left fun j hj => by rw [hget j hj]; rfl
  · refine List.foldl_ext _ _ _ fun fl j hj => ?_
    rw [hget j hj]
    cases skip (c0 + j) <;> rfl

/-- A fold that lists one thing and joins another does each apart. -/
theorem foldl_pair {α β γ : Type} (p : α → β) (q : γ → α → γ) (l : List α) (bs : List β) (c : γ) :
    l.foldl (fun acc a => (acc.1 ++ [p a], q acc.2 a)) (bs, c) = (bs ++ l.map p, l.foldl q c) := by
  induction l generalizing bs c with
  | nil => simp
  | cons a l ih => simp [ih]

/-- A block of 32 of a row. -/
theorem take_drop_map_range {α : Type} (f : Nat → α) {n b : Nat} (hb : b < n / 32) :
    (((List.range n).map f).drop (32 * b)).take 32 = (List.range 32).map fun i => f (32 * b + i) := by
  refine List.ext_getElem (by simp; omega) fun i h1 h2 => ?_
  simp

/-- The writes and the status of a drained row of hx4, by blocks. -/
theorem drainRowPuts_blocks (skip : Nat → Bool) (rnd : Nat) (sat : Bool) (dexp : Int) (c0 c1 n : Nat) (f : Nat → Nat) :
    let block := fun b => (List.range 32).map fun i => scaleVal dexp (decodeFloat 0 (f (32 * b + i)))
    drainRowPuts skip 6 rnd sat dexp c0 c1 ((List.range n).map f) =
      ((List.range (n / 32)).map fun b =>
        let z := packBlock rnd sat (block b)
        (c0 + 32 * b, c1, 18, packElems 4 z.codes + z.scale * 2 ^ 128 + z.extra * 2 ^ 136),
       (List.range (n / 32)).foldl (fun fl b => if skip (c0 + 32 * b) = false then fl ||| packStatus sat (block b) (packBlock rnd sat (block b)) else fl) 0) := by
  intro block
  have hblock : ∀ b ∈ List.range (n / 32), ((((List.range n).map f).drop (32 * b)).take 32).map (fun v => scaleVal dexp (decodeFloat 0 v)) = block b := fun b hb => by
    rw [take_drop_map_range f (List.mem_range.1 hb), List.map_map]
    rfl
  rw [drainRowPuts, if_pos rfl, List.length_map, List.length_range]
  refine Eq.trans (List.foldl_ext _ _ _ fun acc b hb => ?_) (foldl_pair _ _ (List.range (n / 32)) [] 0)
  rw [hblock b hb]
  cases skip (c0 + 32 * b) <;> rfl

end Sys2Proof.Machine
end

section
/-! PROOFS. The rows of drains, accumulator stores and products by outcome (R202, R203, R205). -/

namespace Sys2Proof.Machine

/-- Status raised changes a task's status alone. -/
theorem raiseFlags_eq {s : State} {c t : Nat} {task : Task} (h : s.task? c t = some task) (fl : Flags) :
    raiseFlags s c t fl = s.setTask c t { task with fpstat := task.fpstat ||| fl } := by
  rw [raiseFlags, h]

theorem acc_raiseFlags (s : State) (c t : Nat) (fl : Flags) : ((raiseFlags s c t fl).core c).acc = (s.core c).acc := by
  unfold raiseFlags
  split
  · rw [State.core_setTask_self]
  · rfl

theorem raiseFlags_withCores (s : State) (c t : Nat) (fl : Flags) : raiseFlags s c t fl = s.withCores (raiseFlags s c t fl).cores := by
  unfold raiseFlags
  split
  · rfl
  · rfl

theorem byte_doPuts_raiseFlags (ps : List Put) (s : State) (c t : Nat) (fl : Flags) (a : Nat) :
    (ps.foldl doPut (raiseFlags s c t fl)).byte a = (ps.foldl doPut s).byte a := by
  rw [raiseFlags_withCores]
  exact (congrArg (fun u => State.byte u a) (blindToCores_doPuts ps s _)).trans rfl

theorem task_doPuts_raiseFlags {s : State} {c t : Nat} {task : Task} (h : s.task? c t = some task) (ps : List Put) (fl : Flags) :
    (ps.foldl doPut (raiseFlags s c t fl)).task? c t = some { task with fpstat := task.fpstat ||| fl } := by
  rw [task_of_cores (cores_doPuts ..), raiseFlags_eq h, State.task_setTask_self]

/-! Drains (R202). -/

/-- The element of a drained row that column j is. -/
def drainSrc (c : Nat) (task : Task) (k : Card) (s : State) (j : Nat) : Nat :=
  accElem (accRow s c task (mcAcc k.card + k.prog * mcAstr k.card + j / 16)) (j % 16)

/-- The writes and the status of a drained row. -/
def drainOut (c : Nat) (task : Task) (k : Card) (s : State) : List (Nat × Nat × Nat × Nat) × Flags :=
  drainRowPuts (fun c0 => beyond (cardRec (s.core c) k (mcDrec k.card)) c0 (mcDm0 k.card + k.prog)) k.ty (mcRnd k.card) (mcSat k.card) (mcDexp k.card)
    (mcDn0 k.card) (mcDm0 k.card + k.prog) ((List.range (mcN k.card)).map (drainSrc c task k s))

/-- The rows that a drain works lie in the allotment, those that it clears among them (R197). -/
def drainFits (task : Task) (x : BitVec 512) : Bool := rowsFit task (mcAcc x) (mcAstr x) (mcM x) (if mcClra x then max (mcN x) (16 * mcAstr x) else mcN x)

section Drain
variable {c t : Nat} {task : Task} {k : Card} {s : State}

theorem drainRow_beyond (h : drainFits task k.card = false) : drainRow c t task k s = rowErr { cls := 0x0D } 0 k.prog s := by
  unfold drainFits at h
  exact if_pos (by simp [h])

variable (h : drainFits task k.card = true)
include h

theorem drainRow_mismatch (ht : recFmt (cardRec (s.core c) k (mcDrec k.card)) ≠ k.ty) :
    drainRow c t task k s = rowErr { cls := 0x02, addr := recBase (cardRec (s.core c) k (mcDrec k.card)) } 2 k.prog s := by
  unfold drainFits at h
  exact (if_neg (by simp [h])).trans (if_pos (by simpa using ht))

variable (ht : recFmt (cardRec (s.core c) k (mcDrec k.card)) = k.ty)
include ht

theorem drainRow_error {e : FaultInfo} {v : State}
    (hp : resolvePuts c task.part (some k.card) (cardRec (s.core c) k (mcDrec k.card)) false (drainOut c task k s).1 s = (.error e, v)) :
    drainRow c t task k s = rowErr e 2 k.prog v := by
  unfold drainFits at h
  refine (if_neg (by simp [h])).trans ((if_neg (by simpa using ht)).trans ?_)
  unfold drainOut drainSrc at hp
  dsimp only
  rw [hp]

section Puts
variable {ps : List Put} {v : State}
  (hp : resolvePuts c task.part (some k.card) (cardRec (s.core c) k (mcDrec k.card)) false (drainOut c task k s).1 s = (.ok ps, v))
include hp

theorem drainRow_traps (htrap : trapsOn task.fpen (drainOut c task k s).2 = true) : drainRow c t task k s =
    rowErr { cls := 0x0C, detail := (task.fpen &&& (drainOut c task k s).2).toNat } 2 k.prog (raiseFlags v c t (drainOut c task k s).2) := by
  unfold drainFits at h
  refine (if_neg (by simp [h])).trans ((if_neg (by simpa using ht)).trans ?_)
  unfold drainOut drainSrc at hp htrap ⊢
  dsimp only
  rw [hp]
  exact if_pos htrap

theorem drainRow_ok (htrap : trapsOn task.fpen (drainOut c task k s).2 = false) : drainRow c t task k s = (.ok { noteWrites k ps with prog := k.prog + 1 },
    if mcClra k.card then mapRows c task (mcAcc k.card + k.prog * mcAstr k.card) (fun _ _ => 0) (mcAstr k.card) (ps.foldl doPut (raiseFlags v c t (drainOut c task k s).2))
    else ps.foldl doPut (raiseFlags v c t (drainOut c task k s).2)) := by
  unfold drainFits at h
  refine (if_neg (by simp [h])).trans ((if_neg (by simpa using ht)).trans ?_)
  unfold drainOut drainSrc at hp htrap ⊢
  dsimp only
  rw [hp]
  exact if_neg (by simp [htrap])

end Puts

end Drain

/-- A row that a drain clears lies in the allotment. -/
theorem row_le_of_drainFits {task : Task} {x : BitVec 512} (h : drainFits task x = true) (hc : mcClra x = true) {i : Nat} (hi : i < mcM x) :
    mcAcc x + i * mcAstr x + mcAstr x ≤ task.acc.length := by
  rw [drainFits, if_pos hc] at h
  have := row_le_of_rowsFit h hi
  omega

/-- What a drain leaves in the accumulators: the rows cleared, where CLRA asks for it. -/
theorem accsBecome_drain (c : Nat) {task : Task} {x : BitVec 512} (h : drainFits task x = true) {i : Nat} (hi : i < mcM x) {s v : State}
    (hv : (v.core c).acc = (s.core c).acc) :
    accsBecome c task s v (if mcClra x then mapRows c task (mcAcc x + i * mcAstr x) (fun _ _ => 0) (mcAstr x) v else v) fun row _ =>
      if mcClra x = true ∧ mcAcc x + i * mcAstr x ≤ row ∧ row < mcAcc x + i * mcAstr x + mcAstr x then some 0 else none := by
  by_cases hc : mcClra x = true
  · rw [if_pos hc]
    refine accsBecome_mapRows c task _ _ _ v hv (row_le_of_drainFits h hc hi) (fun row e h1 h2 _ => ?_) fun row e hout => if_neg fun hin => hout hin.2
    rw [if_pos ⟨hc, h1, h2⟩]
    exact accElem_zero e
  · rw [if_neg hc]
    exact accsBecome_none c task hv fun row e => if_neg fun hin => hc hin.1

/-! The accumulator store (Table 10.6). -/

theorem cardRows_accStore {k : Card} (ho : k.op ∈ [0xBB, 0xBC, 0xBD, 0xBE]) : cardRows k = mcCnt k.card := by
  simp only [List.mem_cons, List.not_mem_nil, or_false] at ho
  rcases ho with ho | ho | ho | ho
  all_goals
    rw [cardRows, ho]
    rfl

section Store
variable {c : Nat} {task : Task} {k : Card} {s : State}

theorem accStoreRow_beyond (h : ¬mcAcc k.card + mcCnt k.card ≤ task.acc.length) : accStoreRow c task k s = rowErr { cls := 0x0D } 0 k.prog s :=
  if_pos (Nat.lt_of_not_le h)

variable (h : mcAcc k.card + mcCnt k.card ≤ task.acc.length)
include h

theorem accStoreRow_clear (ho : k.op = 0xBB) : accStoreRow c task k s = (.ok { k with prog := k.prog + 1 }, setAccRow s c task (mcAcc k.card + k.prog) 0) := by
  refine (if_neg (Nat.not_lt.2 h)).trans ?_
  rw [ho]
  rfl

/-- The exponent by which a row of accumulators is scaled, none where it stays (R203). -/
def rowExp (k : Card) : Option Int := if maskBit k.arg.mask (k.prog / mcAstr k.card) then scaleExp (k.arg.lane (k.prog / mcAstr k.card)) else none

theorem accStoreRow_stays (ho : k.op = 0xBC) (he : rowExp k = none) : accStoreRow c task k s = (.ok { k with prog := k.prog + 1 }, s) := by
  refine (if_neg (Nat.not_lt.2 h)).trans ?_
  unfold rowExp at he
  rw [ho]
  dsimp only
  rw [he]
  rfl

theorem accStoreRow_scales (ho : k.op = 0xBC) {z : Int} (he : rowExp k = some z) : accStoreRow c task k s =
    (.ok { k with prog := k.prog + 1 }, setAccRow s c task (mcAcc k.card + k.prog)
      (rowWith (accRow s c task (mcAcc k.card + k.prog)) fun e => some (scalePow2 (accElem (accRow s c task (mcAcc k.card + k.prog)) e) z))) := by
  refine (if_neg (Nat.not_lt.2 h)).trans ?_
  unfold rowExp at he
  rw [ho]
  dsimp only
  rw [he]
  rfl

/-- The row that a load of accumulators reads. -/
def accLoadRow (c : Nat) (task : Task) (k : Card) (s : State) : Except FaultInfo (List Nat) × State :=
  readElems c task.part (some k.card) (cardRec (s.core c) k (mcDrec k.card)) ((List.range 16).map fun l => (mcDn0 k.card + l, mcDm0 k.card + k.prog)) s

/-- The pattern of accumulator l of a row as it is stored (Table 10.6). -/
def accStoreVal (c : Nat) (task : Task) (k : Card) (s : State) (l : Nat) : Nat :=
  if k.ty = 0 then accElem (accRow s c task (mcAcc k.card + k.prog)) l
  else (roundFloat 1 0 false (decodeFloat 0 (accElem (accRow s c task (mcAcc k.card + k.prog)) l))).bits

/-- The writes of a store of accumulators. -/
def accStorePuts (c : Nat) (task : Task) (k : Card) (s : State) : Except FaultInfo (List Put) × State :=
  resolvePuts c task.part (some k.card) (cardRec (s.core c) k (mcDrec k.card)) false
    ((List.range 16).map fun l => (mcDn0 k.card + l, mcDm0 k.card + k.prog, typeWidth k.ty / 8, accStoreVal c task k s l)) s

theorem accStoreRow_load_mismatch (ho : k.op = 0xBD) (ht : recFmt (cardRec (s.core c) k (mcDrec k.card)) ≠ k.ty) :
    accStoreRow c task k s = rowErr { cls := 0x02, addr := recBase (cardRec (s.core c) k (mcDrec k.card)) } 1 k.prog s := by
  refine (if_neg (Nat.not_lt.2 h)).trans ?_
  rw [ho]
  exact if_pos (by simpa using ht)

theorem accStoreRow_store_mismatch (ho : k.op = 0xBE) (ht : recFmt (cardRec (s.core c) k (mcDrec k.card)) ≠ k.ty) :
    accStoreRow c task k s = rowErr { cls := 0x02, addr := recBase (cardRec (s.core c) k (mcDrec k.card)) } 2 k.prog s := by
  refine (if_neg (Nat.not_lt.2 h)).trans ?_
  rw [ho]
  exact if_pos (by simpa using ht)

variable (ht : recFmt (cardRec (s.core c) k (mcDrec k.card)) = k.ty)
include ht

theorem accStoreRow_load_error (ho : k.op = 0xBD) {e : FaultInfo} {v : State} (hr : accLoadRow c task k s = (.error e, v)) :
    accStoreRow c task k s = rowErr e 1 k.prog v := by
  refine (if_neg (Nat.not_lt.2 h)).trans ?_
  unfold accLoadRow at hr
  rw [ho]
  refine (if_neg (by simpa using ht)).trans ?_
  rw [hr]

theorem accStoreRow_loads (ho : k.op = 0xBD) {vs : List Nat} {v : State} (hr : accLoadRow c task k s = (.ok vs, v)) : accStoreRow c task k s =
    (.ok { k with prog := k.prog + 1 }, setAccRow v c task (mcAcc k.card + k.prog)
      (rowWith 0 fun l => some (if k.ty = 0 then vs.getD l 0 else vs.getD l 0 * 2 ^ 16))) := by
  refine (if_neg (Nat.not_lt.2 h)).trans ?_
  unfold accLoadRow at hr
  rw [ho]
  refine (if_neg (by simpa using ht)).trans ?_
  rw [hr]

theorem accStoreRow_store_error (ho : k.op = 0xBE) {e : FaultInfo} {v : State} (hr : accStorePuts c task k s = (.error e, v)) :
    accStoreRow c task k s = rowErr e 2 k.prog v := by
  refine (if_neg (Nat.not_lt.2 h)).trans ?_
  unfold accStorePuts accStoreVal at hr
  rw [ho]
  refine (if_neg (by simpa using ht)).trans ?_
  dsimp only
  rw [hr]

theorem accStoreRow_stores (ho : k.op = 0xBE) {ps : List Put} {v : State} (hr : accStorePuts c task k s = (.ok ps, v)) :
    accStoreRow c task k s = (.ok { noteWrites k ps with prog := k.prog + 1 }, ps.foldl doPut v) := by
  refine (if_neg (Nat.not_lt.2 h)).trans ?_
  unfold accStorePuts accStoreVal at hr
  rw [ho]
  refine (if_neg (by simpa using ht)).trans ?_
  dsimp only
  rw [hr]

end Store

/-! Products (R205). -/

theorem riderBad_of_none {r : Rider} (h : r.bad = []) (va n : Nat) : riderBad r va n = false := by
  simp [riderBad, lostSectors, h]

/-- The sums of a row, where no byte of the weights was lost. -/
theorem mxvOuts_sound {r : Rider} (h : r.bad = []) (wrec : BitVec 512) (acts : List Val) : mxvOuts r wrec acts = (List.range (recExt wrec 0)).map fun j =>
    (accumulate 0 (((List.range (recExt wrec 1)).map fun i => storedVal (recFmt wrec) (riderWeight r wrec j i).1).zip acts), false) := by
  refine List.map_congr_left fun j _ => ?_
  dsimp only
  rw [List.map_map]
  refine congrArg₂ _ rfl ?_
  rw [List.any_map, List.any_eq_false]
  intro i _
  simp [riderWeight, riderBad_of_none h]

end Sys2Proof.Machine
end

section
/-! PROOFS. The row of a product of a matrix by a vector (R205). -/

namespace Sys2Proof.Machine

/-! Writes resolved one by one. -/

section Resolve
variable {c part : Nat} {card : Option (BitVec 512)} {r : BitVec 512} {poison : Bool}

theorem resolvePuts_cons_ok {x : Nat × Nat × Nat × Nat} {xs : List (Nat × Nat × Nat × Nat)} {s v : State} {ps : List Put}
    (h : resolvePuts c part card r poison (x :: xs) s = (.ok ps, v)) : ∃ p u qs, ps = p :: qs ∧ resolvePuts c part card r poison [x] s = (.ok [p], u) ∧
      resolvePuts c part card r poison xs u = (.ok qs, v) := by
  unfold resolvePuts at h
  split at h
  · cases h
  · next ks u hx =>
    split at h
    · cases h
    · next qs w hxs =>
      cases h
      refine ⟨_, u, qs, rfl, ?_, hxs⟩
      unfold resolvePuts
      rw [hx]
      rfl

end Resolve

/-! The elements of a row of sums. -/

section Elems
variable (c part : Nat) (card drec : BitVec 512) (row : Nat)

/-- The write of one sum, the writes and the status before it in hand. -/
def mxvElem (acc : Except FaultInfo (List Put × Flags) × State) (o : Nat × Nat × Bool) : Except FaultInfo (List Put × Flags) × State :=
  match acc with
  | (.error f, s) => (.error f, s)
  | (.ok (ps, fl), s) =>
    let d := drainElem (recFmt drec) (mcRnd card) (mcSat card) (mcDexp card) o.2.1
    let v := if o.2.2 then poisonElem (recFmt drec) else d.1
    match resolvePuts c part (some card) drec o.2.2 [(mcDn0 card + o.1, row, (typeWidth (recFmt drec) + 7) / 8, v)] s with
    | (.error f, s) => (.error f, s)
    | (.ok qs, s) => (.ok (ps ++ qs, if o.2.2 || beyond drec (mcDn0 card + o.1) row then fl else fl ||| d.2), s)

theorem mxvRow_elems (h : recFmt drec ≠ 6) (m : Nat) (outs : List (Nat × Bool)) (s : State) : mxvRow c part card drec m outs s =
    ((List.range outs.length).zip outs).foldl (mxvElem c part card drec (mcDm0 card + m)) (.ok ([], 0), s) := by
  unfold mxvRow
  exact if_neg h

/-- The write of sum j of a row. -/
def sumCell (a : Nat → Nat) (j : Nat) : Nat × Nat × Nat × Nat :=
  (mcDn0 card + j, row, (typeWidth (recFmt drec) + 7) / 8, (drainElem (recFmt drec) (mcRnd card) (mcSat card) (mcDexp card) (a j)).1)

/-- The status with that of sum j of a row. -/
def sumFlags (a : Nat → Nat) (fl : Flags) (j : Nat) : Flags :=
  if beyond drec (mcDn0 card + j) row then fl else fl ||| (drainElem (recFmt drec) (mcRnd card) (mcSat card) (mcDexp card) (a j)).2

variable {c part card drec row}

theorem mxvElem_ok {a : Nat → Nat} {j : Nat} {s u : State} {qs : List Put} (h : resolvePuts c part (some card) drec false [sumCell card drec row a j] s = (.ok qs, u))
    (ps : List Put) (fl : Flags) : mxvElem c part card drec row (.ok (ps, fl), s) (j, a j, false) = (.ok (ps ++ qs, sumFlags card drec row a fl j), u) := by
  unfold sumCell at h
  unfold mxvElem
  dsimp only
  rw [if_neg (by decide), h]
  rfl

/-- Sums of which none is lost are written as they are named. -/
theorem mxvElems_ok {a : Nat → Nat} {l : List Nat} {s v : State} {qs : List Put}
    (h : resolvePuts c part (some card) drec false (l.map (sumCell card drec row a)) s = (.ok qs, v)) (ps : List Put) (fl : Flags) :
    (l.map fun j => (j, a j, false)).foldl (mxvElem c part card drec row) (.ok (ps, fl), s) = (.ok (ps ++ qs, l.foldl (sumFlags card drec row a) fl), v) := by
  induction l generalizing s qs ps fl with
  | nil =>
    cases h
    simp
  | cons j l ih =>
    obtain ⟨p, u, qs', rfl, hp, hl⟩ := resolvePuts_cons_ok h
    rw [List.map_cons, List.foldl_cons, mxvElem_ok hp, ih hl, List.append_assoc]
    rfl

theorem zip_range_map {α : Type} (n : Nat) (f : Nat → α) : (List.range n).zip ((List.range n).map f) = (List.range n).map fun j => (j, f j) := by
  rw [List.zip_map_right]
  refine List.ext_getElem (by simp) fun i h1 h2 => ?_
  simp

theorem mxvRow_ok (hf : recFmt drec ≠ 6) {m n : Nat} {a : Nat → Nat} {s v : State} {ps : List Put}
    (h : resolvePuts c part (some card) drec false ((List.range n).map (sumCell card drec (mcDm0 card + m) a)) s = (.ok ps, v)) :
    mxvRow c part card drec m ((List.range n).map fun j => (a j, false)) s = (.ok (ps, (List.range n).foldl (sumFlags card drec (mcDm0 card + m) a) 0), v) := by
  rw [mxvRow_elems c part card drec hf, List.length_map, List.length_range, zip_range_map, mxvElems_ok h, List.nil_append]

end Elems

/-! The step of the array half. -/

section Step
variable {c t : Nat} {task : Task} {k : Card} {s : State} (hw : weightType (recFmt (cardRec (s.core c) k (mcWrec k.card))) = true)
  (ha : recFmt (cardRec (s.core c) k (mcArec k.card)) = k.ty)
include hw ha

theorem mxvStep_boards (ht : k.ticket = none) {key : Nat} {v : State}
    (hb : boardReader s c task.part task.job task.rank (weightLines (cardRec (s.core c) k (mcWrec k.card))) = (.ok key, v))
    (hm : weightMiss k.card (cardRec (s.core c) k (mcWrec k.card)) = none) : mxvStep c t task k s = (.ok { k with ticket := some key }, v) := by
  refine (if_neg (by simp [hw])).trans ((if_neg (by simp [ha])).trans ?_)
  rw [ht]
  dsimp only
  rw [hb]
  dsimp only
  rw [hm]

variable {key : Nat} {r : Rider} (ht : k.ticket = some key) (hr : s.rider? key = some r)
include ht hr

theorem mxvStep_waits (hal : r.alit = false) : mxvStep c t task k s = (.ok k, s) := by
  refine (if_neg (by simp [hw])).trans ((if_neg (by simp [ha])).trans ?_)
  rw [ht]
  dsimp only
  rw [hr]
  exact if_pos (by simp [hal])

theorem mxvStep_ok (hal : r.alit = true) (hbad : r.bad = []) {vs : List Nat} {v w : State} {ps : List Put} {fl : Flags}
    (hvs : readElems c task.part (some k.card) (cardRec (s.core c) k (mcArec k.card)) (mxvCoords k.card (cardRec (s.core c) k (mcWrec k.card)) k.prog) s = (.ok vs, v))
    (hrow : mxvRow c task.part k.card (cardRec (s.core c) k (mcDrec k.card)) k.prog (mxvOuts r (cardRec (s.core c) k (mcWrec k.card))
      (vs.map (storedVal (recFmt (cardRec (s.core c) k (mcArec k.card)))))) v = (.ok (ps, fl), w)) :
    mxvStep c t task k s = (.ok { noteWrites k ps with prog := k.prog + 1, ticket := if k.prog + 1 = mcM k.card then none else some key },
      if k.prog + 1 = mcM k.card then { ps.foldl doPut (raiseFlags w c t fl) with riders := tabDel (ps.foldl doPut (raiseFlags w c t fl)).riders key }
      else ps.foldl doPut (raiseFlags w c t fl)) := by
  refine (if_neg (by simp [hw])).trans ((if_neg (by simp [ha])).trans ?_)
  rw [ht]
  dsimp only
  rw [hr]
  refine (if_neg (by simp [hal])).trans ((if_neg (by simp [hbad])).trans ?_)
  rw [hvs]
  dsimp only
  rw [hrow]
  simp only [beq_iff_eq]

end Step

end Sys2Proof.Machine
end

section
/-! PROOFS. What a matrix card's row, and an issue, come to (R194 to R203, R205, R207, R296 to R298). -/

namespace Sys2Proof.Machine

theorem getD_if_pos {α : Type} {p : Prop} [Decidable p] (h : p) (a d : α) : (if p then some a else none).getD d = a := by rw [if_pos h, Option.getD_some]

theorem getD_if_neg {α : Type} {p : Prop} [Decidable p] (h : ¬p) (a d : α) : (if p then some a else none).getD d = d := by rw [if_neg h, Option.getD_none]

/-- Settles O31: what each node issues, and each matrix card's row by the instruction it works for. -/
theorem cardsIssue : Obligations.CardsIssue := by
  unfold Obligations.CardsIssue
  intro w sub s f ports ops hr card seq issue append issued matrix engine
  refine ⟨fun x hx hports => ?matrix, fun x hx hports => ?engine, ?rows⟩
  case matrix =>
    have hexec : exec x.1 s = fireMatrix x.2 w sub s := by
      simp only [matrix, List.mem_cons, List.not_mem_nil, or_false] at hx
      rcases hx with rfl | rfl | rfl | rfl | rfl | rfl | rfl | rfl | rfl <;> rfl
    subst hports
    have hgood := goodPorts_matrix w.pm.toNat x.2
    have hfire := hexec.trans (fireMatrix_eq hr)
    split
    · next hnull =>
      rw [if_pos hnull] at hfire
      exact epFires_of_epFired hr hgood (foc_task hr.1) hfire
    · next hnull =>
      rw [if_neg hnull] at hfire
      split
      · next e hcheck =>
        rw [hcheck] at hfire
        exact hfire
      · next hcheck =>
        rw [hcheck] at hfire
        intro bank k task
        obtain ⟨hissued, honly, htask⟩ := cardIssued_frame s f task
        refine ⟨_, hissued, honly, epFires_of_epFired hr hgood htask (hfire.trans ?_)⟩
        dsimp only
        rw [chainOf_appendCard]
        rfl
  case engine =>
    have hexec : exec x.1 s = fireEngine x.2 w sub s := by
      simp only [engine, List.mem_cons, List.not_mem_nil, or_false] at hx
      rcases hx with rfl | rfl | rfl <;> rfl
    subst hports
    have hgood : goodPorts (withPred w.pm.toNat [0]) := goodPorts_withPred (by decide) (by decide) _
    have hfire := hexec.trans (fireEngine_eq hr)
    split
    · next hnull =>
      rw [if_pos hnull] at hfire
      exact epFires_of_epFired hr hgood (foc_task hr.1) hfire
    · next hnull =>
      rw [if_neg hnull] at hfire
      split
      · next e hcheck =>
        rw [hcheck] at hfire
        exact hfire
      · next hcheck =>
        rw [hcheck] at hfire
        intro ring holders k task
        obtain ⟨hissued, honly, htask⟩ := cardIssued_frame s f task
        refine ⟨_, hissued, honly, epFires_of_epFired hr hgood htask (hfire.trans ?_)⟩
        have hsub : sub.toNat = 1 ↔ sub = 1#8 := BitVec.toNat_inj (y := 1#8)
        have htask' : task = countRing (appendCard f.task 2 (engineCard s f x.2 w sub card)) x.2 w.escope.toNat := by
          rw [countRing_appendCard, engineCard, engineArgs_eq]
          rfl
        rw [htask']
        dsimp only
        rw [tail_countRing_appendCard]
        simp only [hsub]
        rfl
  case rows =>
    intro c t n task k htask hk hcut hop x m rec_ moves becomes fails acc onlyAcc bad typed reads puts wrote round
    have hmove := cardRowMove_matrix htask hk hcut hop
    have hmade : k.st = .started ∧ (k.relatch = true ∨ k.prog < cardRows k) → ∀ k' v, matrixRow c t task k s = (.ok k', v) →
        k'.prog ≠ k.prog ∨ k'.tile.length ≠ k.tile.length → becomes v k' := fun hgo k' v h hne => by
      refine hmove.trans ((if_pos hgo).trans ?_)
      rw [h]
      exact afterRow_made _ _ _ _ _ _ _ (hne.imp_right .inl)
    have hfails : k.st = .started ∧ (k.relatch = true ∨ k.prog < cardRows k) → ∀ v e gen iter, matrixRow c t task k s = rowErr e gen iter v →
        fails v e gen iter := fun hgo v e gen iter h => by
      refine hmove.trans ((if_pos hgo).trans ?_)
      rw [h]
      exact afterRow_rowErr ..
    refine ⟨fun h => hmove.trans (if_neg ?_), fun hst hre hm => ?fresh, fun hst hre => ?relatch⟩
    · rintro ⟨hst, hre | hm⟩
      · rcases h with h | ⟨h, -⟩
        · exact h hst
        · exact Bool.false_ne_true (h.symm.trans hre)
      · rcases h with h | ⟨-, h⟩
        · exact h hst
        · omega
    case relatch =>
      have hgo : k.st = .started ∧ (k.relatch = true ∨ k.prog < cardRows k) := ⟨hst, .inl hre⟩
      intro lt row
      refine ⟨fun e v hr => ?_, fun vs v hr => ⟨fun hlt => ?_, fun hle => ?_⟩⟩
      · exact hfails hgo v e 0 _ ((matrixRow_relatch hre).trans (relatchStep_error (latchRow_error rfl hr)))
      · exact hmade hgo _ v ((matrixRow_relatch hre).trans (relatchStep_more (latchRow_ok rfl hr) hlt)) (.inr (by simp))
      · have hv : v.task? c t = some task := ((Looks.of_snd hr (looks_readElems ..)).task c t).trans htask
        refine ⟨_, hmove.trans ((if_pos hgo).trans (congrArg _ ((matrixRow_relatch hre).trans (relatchStep_last (latchRow_ok rfl hr) hle hv)))), ?_⟩
        rw [afterRow, putCard_eq (State.task_setTask_self ..), State.task_setTask_self]
        rfl
    case fresh =>
      have hgo : k.st = .started ∧ (k.relatch = true ∨ k.prog < cardRows k) := ⟨hst, .inr hm⟩
      intro wr ar dr streams latching fits inDrec
      refine ⟨fun hl => ?latch, fun ho hl => ?stream, fun ho => ?drain, fun ho => ?accStore, fun ho hw ha => ?mxv⟩
      case latch =>
        have hstep := matrixRow_latches (c := c) (t := t) (task := task) (s := s) hre (hl.imp_right fun h => ⟨h.1, h.2⟩)
        have hkind := latchSound_iff k wr
        intro i sound row
        refine ⟨fun h => hfails hgo s _ 0 i (hstep.trans (latchStep_error (latchRow_mismatch _ _ _ ?_ _ _))),
          fun e v h hr => hfails hgo v e 0 i (hstep.trans (latchStep_error (latchRow_error (hkind.2 h) hr))), fun vs v h hr => ⟨fun hlt => ?_, fun hle => ?_⟩⟩
        · exact Bool.eq_false_iff.2 fun hs => h (hkind.1 hs)
        · exact hmade hgo _ v (hstep.trans (latchStep_more (latchRow_ok (hkind.2 h) hr) hlt)) (.inr (by simp))
        · have hv : v.task? c t = some task := ((Looks.of_snd hr (looks_readElems ..)).task c t).trans htask
          exact hmade hgo _ _ (hstep.trans (latchStep_last (latchRow_ok (hkind.2 h) hr) hle hv)) (.inr (by simp))
      case stream =>
        have hstep := matrixRow_streams (c := c) (t := t) (task := task) (s := s) hre ho fun h => hl (.inr ⟨ho, h⟩)
        intro lt held rows sound acts
        refine ⟨fun h => hfails hgo s _ 0 m (hstep.trans (streamRow_empty h)), fun h hr => hfails hgo s _ 0 m (hstep.trans (streamRow_beyond h (Bool.eq_false_iff.2 hr))),
          fun h hr ht => hfails hgo s _ 1 m (hstep.trans (streamRow_mismatch h hr ht)), fun h hr ht hC hw => hfails hgo s _ 1 m (hstep.trans (streamRow_outside h hr ht hC hw)),
          fun h hr ht hw => ⟨fun e v ha => hfails hgo v e 1 m (hstep.trans (streamRow_error h hr ht hw ha)), fun vs v ha => ?_⟩⟩
        refine ⟨_, hmade hgo _ _ (hstep.trans (streamRow_ok h hr ht hw ha)) (.inl (Nat.succ_ne_self _)), ?_⟩
        have hrows : m < mcM x := by
          rcases ho with ho | ho <;> simpa [cardRows, ho] using hm
        have hv : (v.core c).acc = (s.core c).acc := by rw [(Looks.of_snd ha (looks_streamActs ..)).core]
        refine accsBecome_mapRows c task _ _ _ v hv (row_le_of_rowsFit hr hrows) (fun row e h1 h2 he => ?_) fun row e h => ?_
        · rw [accElem_streamOut _ _ _ _ _ he]
          by_cases hj : 16 * (row - (mcAcc x + m * mcAstr x)) + e < mcN x
          · refine (if_pos hj).trans (getD_if_pos ?_ _ _).symm
            exact ⟨h1, by omega, hj⟩
          · refine (if_neg hj).trans (getD_if_neg ?_ _ _).symm
            exact fun hin => hj hin.2.2
        · exact if_neg fun hin => h ⟨hin.1, by omega⟩
      case drain =>
        have hstep := matrixRow_drain (c := c) (t := t) (task := task) (s := s) hre ho
        have hrows : m < mcM x := by simpa [cardRows, ho] using hm
        intro rows y block lies cells fl
        have hout : drainOut c task k s = (cells, fl) := by
          by_cases h6 : k.ty = 6
          · simp only [cells, fl, if_pos h6]
            rw [drainOut, h6, drainRowPuts_blocks]
            rfl
          · simp only [cells, fl, if_neg h6]
            rw [drainOut, drainRowPuts_elems _ h6]
            rfl
        refine ⟨fun h => hfails hgo s _ 0 m (hstep.trans (drainRow_beyond (Bool.eq_false_iff.2 h))),
          fun h ht => hfails hgo s _ 2 m (hstep.trans (drainRow_mismatch h ht)), fun h ht => ⟨fun e v hp => ?_, fun ps v hp => ?_⟩⟩
        · exact hfails hgo v e 2 m (hstep.trans (drainRow_error h ht (by rw [hout]; exact hp)))
        · have hp' : resolvePuts c task.part (some k.card) dr false (drainOut c task k s).1 s = (.ok ps, v) := by rw [hout]; exact hp
          have hlooks : Looks s v := .of_snd hp (looks_resolvePuts ..)
          intro w
          refine ⟨fun htrap => ?_, fun htrap => ⟨_, hmade hgo _ _ (hstep.trans (drainRow_ok h ht hp' (by rw [hout]; exact htrap))) (.inl (Nat.succ_ne_self _)), ?_⟩, ?_, fun h6 hin => ?_⟩
          · have htraps := drainRow_traps (c := c) (t := t) h ht hp' (by rw [hout]; exact htrap)
            rw [hout] at htraps
            exact hfails hgo w _ 2 m (hstep.trans htraps)
          · have hacc : ((ps.foldl doPut w).core c).acc = (s.core c).acc := by
              rw [core_of_cores (cores_doPuts ..), acc_raiseFlags, hlooks.core]
            have hdrain := accsBecome_drain c h hrows hacc
            rw [hout]
            exact hdrain
          · exact congrArg (Option.map Task.fpstat) (task_doPuts_raiseFlags ((hlooks.task c t).trans htask) [] fl)
          · simp only [cells, if_neg h6] at hp
            obtain ⟨rfl, rfl⟩ := resolvePuts_cells (by rw [ht]) hin hp
            exact (cellsWritten_cellPuts (ht ▸ h6) _ _ hin).congr fun a => byte_doPuts_raiseFlags ..
      case accStore =>
        have hstep := matrixRow_accStore (c := c) (t := t) (task := task) (s := s) hre ho
        have hrow : fits → mcAcc x + m < task.acc.length := fun h => by
          have hcnt : cardRows k = mcCnt x := cardRows_accStore ho
          omega
        intro i next here
        refine ⟨fun h => hfails hgo s _ 0 m (hstep.trans (accStoreRow_beyond h)), fun h ho => ?_, fun h ho => ?_, fun h ho => ?_, fun h ho => ?_⟩
        · exact ⟨_, hmade hgo _ _ (hstep.trans (accStoreRow_clear h ho)) (.inl (Nat.succ_ne_self _)),
            accsBecome_row c task rfl (hrow h) 0 fun e _ => accElem_zero e⟩
        · intro l exp
          have hexp : rowExp k = exp := by
            refine if_congr Iff.rfl ?_ rfl
            rw [scaleExp, refInt]
            cases decodeFloat 0 (k.arg.lane l) <;> rfl
          cases he : rowExp k with
          | none =>
            refine ⟨_, hmade hgo _ _ (hstep.trans (accStoreRow_stays h ho he)) (.inl (Nat.succ_ne_self _)), accsBecome_none c task rfl fun row e => ?_⟩
            rw [← hexp, he]
            exact ite_self _
          | some z =>
            refine ⟨_, hmade hgo _ _ (hstep.trans (accStoreRow_scales h ho he)) (.inl (Nat.succ_ne_self _)), accsBecome_row c task rfl (hrow h) _ fun e he' => ?_⟩
            rw [← hexp, he, accElem_rowWith _ _ he']
            exact Nat.mod_eq_of_lt (scalePow2_lt (accElem_lt ..) z)
        · intro row
          refine ⟨fun ht => ?_, fun ht => ⟨fun e v hr => ?_, fun vs v hr => ?_⟩⟩
          · exact hfails hgo s _ 1 m (hstep.trans (accStoreRow_load_mismatch h ho ht))
          · exact hfails hgo v e 1 m (hstep.trans (accStoreRow_load_error h ht ho hr))
          · have hv : (v.core c).acc = (s.core c).acc := by rw [(Looks.of_snd hr (looks_readElems ..)).core]
            exact ⟨_, hmade hgo _ _ (hstep.trans (accStoreRow_loads h ht ho hr)) (.inl (Nat.succ_ne_self _)),
              accsBecome_row c task hv (hrow h) _ fun e he => accElem_rowWith _ _ he⟩
        · intro val row has
          refine ⟨fun ht => ?_, fun ht => ⟨fun e v hr => ?_, fun ps v hr => ⟨?_, fun hty hin => ?_⟩⟩⟩
          · exact hfails hgo s _ 2 m (hstep.trans (accStoreRow_store_mismatch h ho ht))
          · exact hfails hgo v e 2 m (hstep.trans (accStoreRow_store_error h ht ho hr))
          · exact hmade hgo _ _ (hstep.trans (accStoreRow_stores h ht ho hr)) (.inl (Nat.succ_ne_self _))
          · have hsize : typeWidth k.ty / 8 = (typeWidth (recFmt dr) + 7) / 8 := by
              rw [ht]
              interval_cases k.ty <;> rfl
            obtain ⟨rfl, rfl⟩ := resolvePuts_cells hsize hin hr
            exact cellsWritten_cellPuts (by omega) _ _ hin
      case mxv =>
        have hstep := matrixRow_mxv (c := c) (t := t) (task := task) (s := s) hre ho
        refine ⟨fun hnone key v hb hmiss => hmove.trans ((if_pos hgo).trans ?_), fun key r ht hr => ⟨fun hal => hmove.trans ((if_pos hgo).trans ?_),
          fun hal hbad vs v hvs => ?_⟩⟩
        · rw [hstep, mxvStep_boards hw ha hnone hb hmiss]
          simp [afterRow]
        · rw [hstep, mxvStep_waits hw ha ht hr hal, afterRow_idle]
        · intro y cells fl h6 ps w' hp
          have hrow := mxvRow_ok (c := c) (part := task.part) (card := x) (m := m) (n := recExt wr 0) (a := fun j => accumulate 0
            (((List.range (recExt wr 1)).map fun i => storedVal (recFmt wr) (riderWeight r wr j i).1).zip (vs.map (storedVal (recFmt ar))))) h6 hp
          rw [← mxvOuts_sound hbad wr] at hrow
          have hv : w'.task? c t = some task :=
            ((Looks.of_snd hp (looks_resolvePuts ..)).task c t).trans (((Looks.of_snd hvs (looks_readElems ..)).task c t).trans htask)
          have hput := task_doPuts_raiseFlags hv ps fl
          refine ⟨_, hmade hgo _ _ (hstep.trans (mxvStep_ok hw ha ht hr hal hbad hvs hrow)) (.inl (Nat.succ_ne_self _)), fun a => ?_, ?_⟩
          · rw [apply_ite (fun u => State.byte u a)]
            exact (ite_self _).trans (byte_doPuts_raiseFlags ..)
          · rw [apply_ite (fun u => State.task? u c t)]
            exact congrArg (Option.map Task.fpstat) ((ite_self _).trans hput)

end Sys2Proof.Machine
end

section
/-! PROOFS. Power leave, the start of cards and their boardings (R204, R206, R291, R295, R327, R393). -/

namespace Sys2Proof.Machine

/-! The moves of a card that stands in its chain. -/

section Moves
variable {s : State} {c t chain seq : Nat} {task : Task} {k : Card} (htask : s.task? c t = some task) (hk : cardOf task chain seq = some k)
include htask hk

theorem withCard_eq (f : Task → Card → State) : withCard s c t chain seq f = f task k := by
  unfold withCard
  rw [htask]
  dsimp only
  rw [hk]

theorem exec_cardStart : exec (.cardStart c t chain seq) s = .next (if task.cutting then s else if isMatrixOp k.op then startMatrix c t task k s
    else if isEngineOp k.op then startEngine c t task k s else s) := congrArg Host.Outcome.next (withCard_eq htask hk _)

theorem exec_cardComplete : exec (.cardComplete c t chain seq) s = .next (if isMatrixOp k.op then completeMatrix c t k s
    else if isEngineOp k.op then completeEngine c t task k s else s) := congrArg Host.Outcome.next (withCard_eq htask hk _)

theorem exec_cardFault : exec (.cardFault c t chain seq) s = .next (if task.cutting then s else cardFaultMove c t chain seq s) :=
  congrArg Host.Outcome.next (withCard_eq htask hk _)

end Moves

theorem not_matrixOp_of_engineOp {op : Nat} (h : isEngineOp op = true) : isMatrixOp op = false := by
  simp only [isEngineOp, isMatrixOp, Bool.and_eq_true, decide_eq_true_eq, Bool.and_eq_false_imp, decide_eq_false_iff_not] at h ⊢
  omega

/-! Leave asked for (R393). -/

theorem leaves_askLeave (s : State) (d : Nat) (r : LeaveReq) :
    ((askLeave s d r).die d).leaves = (s.die d).leaves ++ [{ r with since := (s.core r.core).refTime }] := by
  rw [askLeave, State.die_setDie_self]

theorem refTime_setTask (s : State) (c t : Nat) (task : Task) : ((s.setTask c t task).core c).refTime = (s.core c).refTime := by
  rw [State.core_setTask_self]

theorem refTime_putCard (s : State) (c t chain : Nat) (k : Card) : ((putCard s c t chain k).core c).refTime = (s.core c).refTime := by
  unfold putCard
  split
  · exact refTime_setTask ..
  · rfl

/-- A card's request for leave. -/
theorem askLeave_putCard (m : State) (c t chain weight prio seq : Nat) (k : Card) :
    let u := askLeave (putCard m c t chain k) (dieOfCore c) ⟨weight, prio, c, t, chain, seq, none, 0⟩
    u = { m with cores := u.cores, dies := u.dies } ∧ u.cores = (putCard m c t chain k).cores ∧
      (u.die (dieOfCore c)).leaves = (m.die (dieOfCore c)).leaves ++ [⟨weight, prio, c, t, chain, seq, none, (m.core c).refTime⟩] := by
  intro u
  refine ⟨?_, rfl, ?_⟩
  · change { putCard m c t chain k with dies := u.dies } = _
    rw [putCard_withCores]
    rfl
  · refine (leaves_askLeave ..).trans ?_
    rw [refTime_putCard, putCard_withCores]
    rfl

/-! The start of a matrix card (R204, R206). -/

section Matrix
variable {c t : Nat} {task : Task} {k : Card} {s : State}

theorem startMatrix_held (h : k.st ≠ .waiting ∨ chainTurn task k = false ∨ edgesClear s c task.part k = false ∨ storesDrained s c t k.stamp = false) :
    startMatrix c t task k s = s := by
  refine if_pos ?_
  simpa [or_assoc] using h

variable (hst : k.st = .waiting) (hturn : chainTurn task k = true) (hedge : edgesClear s c task.part k = true) (hdrain : storesDrained s c t k.stamp = true)
include hst hturn hedge hdrain

theorem startMatrix_unboarded (hb : startBank s c t task k = none) : startMatrix c t task k s = s := by
  refine (if_neg (by simp [hst, hturn, hedge, hdrain])).trans ?_
  rw [hb]

variable {m : State} {k' : Card} (hb : startBank s c t task k = some m) (hk' : cardAt m c t 0 k.seq = some k')
include hb hk'

theorem startMatrix_asks (ha : usesArray k' = true) (hl : k'.leave = false) : startMatrix c t task k s = if k'.asked then m
    else askLeave (putCard m c t 0 { k' with asked := true }) (dieOfCore c) ⟨4, prioOf m task.job, c, t, 0, k'.seq, none, 0⟩ := by
  refine (if_neg (by simp [hst, hturn, hedge, hdrain])).trans ?_
  rw [hb]
  unfold cardAt at hk'
  dsimp only
  rw [hk']
  exact if_pos (by simp [ha, hl])

theorem startMatrix_starts (h : ¬(usesArray k' = true ∧ k'.leave = false)) : startMatrix c t task k s = putCard m c t 0 { k' with
    st := .started
    stalls := []
    recs := if k'.recs.isEmpty then snapRecs m c k' else k'.recs
    ticket := none
    status := k'.status ||| (if k'.op = 0xBF then BitVec.ofNat 32 ((if 0 < k'.bank then 4 else 0) + (if k'.bank < mcM k'.card then 8 else 0)) else 0) } := by
  refine (if_neg (by simp [hst, hturn, hedge, hdrain])).trans ?_
  rw [hb]
  unfold cardAt at hk'
  dsimp only
  rw [hk']
  exact if_neg (by simpa using h)

end Matrix

/-! The boarding of a bank half (R206). -/

section Bank
variable {c t : Nat} {task : Task} {k : Card} {s : State}

theorem startBank_none_due (h : k.bank = 0 ∨ k.bankDone = true ∨ k.ticket ≠ none) : startBank s c t task k = some s := by
  refine if_pos ?_
  simpa [or_assoc, Option.isSome_iff_ne_none] using h

variable (hb : k.bank ≠ 0) (hd : k.bankDone = false) (ht : k.ticket = none)
include hb hd ht

theorem startBank_full {r : Rider} {m : State} (hp : prepareBank s c t task k.card (some k.ty) k.bank = (.ok r, m))
    (hroom : roomNow m task.job (r.chans.map Prod.fst) 1 1 = false) : startBank s c t task k = none := by
  refine (if_neg (by simp [hb, hd, ht])).trans ?_
  rw [hp]
  exact if_pos (by simp [hroom])

/-- The state in which the bank half of a card has boarded. -/
def bankBoarded (c t : Nat) (part : Nat) (k : Card) (m : State) (r : Rider) : State :=
  putCard (enterRider m { r with sub := 1, seq := k.seq, handler := k.handler }).2 c t 0 { k with ticket := some (riderKey part (m.partn r.part).tickets) }

theorem startBank_boards {r : Rider} {m : State} (hp : prepareBank s c t task k.card (some k.ty) k.bank = (.ok r, m))
    (hroom : roomNow m task.job (r.chans.map Prod.fst) 1 1 = true) : startBank s c t task k = some (bankBoarded c t task.part k m r) := by
  refine (if_neg (by simp [hb, hd, ht])).trans ?_
  rw [hp]
  exact if_neg (by simp [hroom])

theorem startBank_fails {e : FaultInfo} {m : State} (hp : prepareBank s c t task k.card (some k.ty) k.bank = (.error e, m)) (he : e.cls ≠ notYet.cls)
    (hf : (poisonRows m c task.part k.card k.bank).1.fault.all (fun i => i.cls != notYet.cls) = true) : startBank s c t task k =
      some (putCard (poisonRows m c task.part k.card k.bank).2 c t 0 { k with
        bankDone := true
        status := k.status ||| BitVec.ofNat 32 (3 + e.cls * 256)
        wrote := (poisonRows m c task.part k.card k.bank).1.wrote ++ k.wrote }) := by
  refine (if_neg (by simp [hb, hd, ht])).trans ?_
  rw [hp]
  refine if_neg ?_
  have hno : waits (poisonRows m c task.part k.card k.bank).1.fault = false := by
    cases hfault : (poisonRows m c task.part k.card k.bank).1.fault with
    | none => rfl
    | some i =>
      rw [hfault] at hf
      simpa [waits] using hf
  rw [hno, Bool.or_false]
  simpa [waits] using he

end Bank

theorem rider_putCard (s : State) (c t chain : Nat) (k : Card) (key : Nat) : (putCard s c t chain k).rider? key = s.rider? key := by
  rw [putCard_withCores]
  rfl

/-- A bank half that has boarded: its rider, and its card with its ticket. -/
theorem bankBoarded_spec {s m : State} (hm : Looks s m) {c t seq : Nat} {k : Card} (hk : cardAt s c t 0 seq = some k) (hseq : k.seq = seq) (part : Nat) (r : Rider) :
    (∃ y, (bankBoarded c t part k m r).rider? (riderKey r.part (m.partn r.part).tickets) = some y ∧ y.op = r.op ∧ y.sub = 1 ∧
        y.seq = seq ∧ y.chans = r.chans) ∧
      cardAt (bankBoarded c t part k m r) c t 0 seq = some { k with ticket := some (riderKey part (m.partn r.part).tickets) } := by
  constructor
  · obtain ⟨y, hy, he⟩ := enterRider_rider m { r with sub := 1, seq := k.seq, handler := k.handler }
    refine ⟨y, (rider_putCard ..).trans hy, ?_⟩
    rw [he]
    exact ⟨rfl, rfl, hseq, rfl⟩
  · exact cardAt_putCard_self (((looks_enterRider ..).cardAt c t 0 seq).trans ((hm.cardAt c t 0 seq).trans hk)) hseq

/-! The start of an engine card (R291, R295). -/

section Engine
variable {c t : Nat} {task : Task} {k : Card} {s : State}

theorem startEngine_held (h : k.st ≠ .waiting ∨ edgesClear s c task.part k = false ∨ storesDrained s c t k.stamp = false) : startEngine c t task k s = s := by
  refine if_pos ?_
  simpa [or_assoc] using h

/-- A card that starts, its records as they stand and no rider yet aboard. -/
def freshCard (s : State) (c : Nat) (k : Card) : Card :=
  { k with st := .started, stalls := [], ticket := none, deposit := none, block := [], recs := if k.recs.isEmpty then snapRecs (dropCardRiders s k) c k else k.recs }

/-- The swept lines of a starting card's source, and of its destination where it knows it (R295). -/
def sourceLines (s : State) (c : Nat) (task : Task) (k : Card) : List Nat × State :=
  sweptLines (quadOfCore c) task.part (cardRec ((dropCardRiders s k).core c) (freshCard s c k) (ecSrec k.card)) (dropCardRiders s k)

def targetLines (s : State) (c : Nat) (task : Task) (k : Card) : List Nat × State :=
  if (ecTocb k.card && k.op = 0xD8) || k.op = 0xDA then ([], (sourceLines s c task k).2)
  else sweptLines (quadOfCore c) task.part (cardRec ((dropCardRiders s k).core c) (freshCard s c k) (ecDrec k.card)) (sourceLines s c task k).2

theorem looks_targetLines (s : State) (c : Nat) (task : Task) (k : Card) : Looks s (targetLines s c task k).2 := by
  have hsource : Looks s (sourceLines s c task k).2 := (looks_dropCardRiders s k).trans (looks_sweptLines ..)
  unfold targetLines
  split
  · exact hsource
  · exact hsource.trans (looks_sweptLines ..)

variable (hst : k.st = .waiting) (hedge : edgesClear s c task.part k = true) (hdrain : storesDrained s c t k.stamp = true)
include hst hedge hdrain

theorem startEngine_asks (ho : k.op ≠ 0xD8) (hl : k.leave = false) : startEngine c t task k s = if k.asked then s
    else askLeave (putCard s c t 2 { k with asked := true }) (dieOfCore c) ⟨2, prioOf s task.job, c, t, 2, k.seq, none, 0⟩ :=
  (if_neg (by simp [hst, hedge, hdrain])).trans (if_pos (by simp [ho, hl]))

variable (hgo : k.op = 0xD8 ∨ k.leave = true)
include hgo

theorem startEngine_reader_fails {e : FaultInfo} {v : State} (hr : readerFor (targetLines s c task k).2 c task (sourceLines s c task k).1 = (.error e, v)) :
    startEngine c t task k s = afterRow v c t 2 (freshCard s c k) (rowErr e 0 0 v) := by
  refine (if_neg (by simp [hst, hedge, hdrain])).trans ((if_neg (by simpa [or_iff_not_imp_left] using hgo)).trans ?_)
  unfold targetLines sourceLines freshCard at hr
  dsimp only
  rw [hr]
  rfl

variable {rd : Option Nat} {v : State} (hr : readerFor (targetLines s c task k).2 c task (sourceLines s c task k).1 = (.ok rd, v))
include hr

theorem startEngine_writer_fails {e : FaultInfo} {w : State} (hw : writerFor v c task (targetLines s c task k).1 = (.error e, w)) :
    startEngine c t task k s = afterRow w c t 2 (freshCard s c k) (rowErr e 2 0 (dropCardRiders w { freshCard s c k with ticket := rd })) := by
  refine (if_neg (by simp [hst, hedge, hdrain])).trans ((if_neg (by simpa [or_iff_not_imp_left] using hgo)).trans ?_)
  unfold targetLines sourceLines freshCard at hr hw
  dsimp only
  rw [hr]
  dsimp only
  rw [hw]
  rfl

theorem startEngine_starts {wr : Option Nat} {w : State} (hw : writerFor v c task (targetLines s c task k).1 = (.ok wr, w)) :
    startEngine c t task k s = putCard w c t 2 { freshCard s c k with ticket := rd, deposit := wr, boarded := true } := by
  refine (if_neg (by simp [hst, hedge, hdrain])).trans ((if_neg (by simpa [or_iff_not_imp_left] using hgo)).trans ?_)
  unfold targetLines sourceLines freshCard at hr hw
  dsimp only
  rw [hr]
  dsimp only
  rw [hw]
  rfl

end Engine

/-! The riders of an engine card (R223, R295). -/

section Riders
variable {s v : State} {c : Nat} {task : Task} {lines : List Nat}

theorem readerFor_nil {rd : Option Nat} (h : readerFor s c task [] = (.ok rd, v)) : rd = none := by
  cases h
  rfl

theorem writerFor_nil {wr : Option Nat} (h : writerFor s c task [] = (.ok wr, v)) : wr = none := by
  cases h
  rfl

theorem boardReader_ok {part j rank key : Nat} (h : boardReader s c part j rank lines = (.ok key, v)) :
    ∃ m r, v = (enterRider m r).2 ∧ key = riderKey r.part (m.partn r.part).tickets ∧ r.kind = 1 ∧ r.op = 0xC8 ∧ r.wlines = lines ∧ r.alit = false := by
  unfold boardReader at h
  dsimp only at h
  split at h
  · cases h
  · cases h
    refine ⟨_, _, rfl, ?_, rfl, rfl, rfl, rfl⟩
    rw [enterRider_eq]

theorem boardWriter_ok {part j rank key : Nat} (h : boardWriter s c part j rank lines = (.ok key, v)) :
    ∃ m r, v = (enterRider m r).2 ∧ key = riderKey r.part (m.partn r.part).tickets ∧ r.kind = 1 ∧ r.op = 0xCF ∧ r.wlines = lines ∧ r.data = [] := by
  unfold boardWriter at h
  dsimp only at h
  split at h
  · cases h
  · cases h
    refine ⟨_, _, rfl, ?_, rfl, rfl, rfl, rfl⟩
    rw [enterRider_eq]

theorem readerFor_some {key : Nat} (h : readerFor s c task lines = (.ok (some key), v)) :
    boardReader s c task.part task.job task.rank lines = (.ok key, v) := by
  unfold readerFor at h
  split at h
  · cases h
  · split at h
    · next hb =>
      cases h
      exact hb
    · cases h

theorem writerFor_some {key : Nat} (h : writerFor s c task lines = (.ok (some key), v)) :
    boardWriter s c task.part task.job task.rank lines = (.ok key, v) := by
  unfold writerFor at h
  split at h
  · cases h
  · split at h
    · next hb =>
      cases h
      exact hb
    · cases h

/-- The reader that a card boards. -/
theorem readerFor_rider {key : Nat} (h : readerFor s c task lines = (.ok (some key), v)) :
    ∃ y, v.rider? key = some y ∧ y.kind = 1 ∧ y.op = 0xC8 ∧ y.wlines = lines ∧ y.alit = false := by
  obtain ⟨m, r, rfl, rfl, hkind, hop, hlines, hal⟩ := boardReader_ok (readerFor_some h)
  obtain ⟨y, hy, he⟩ := enterRider_rider m r
  refine ⟨y, hy, ?_⟩
  rw [he]
  exact ⟨hkind, hop, hlines, hal⟩

/-- The deposit that a card boards. -/
theorem writerFor_rider {key : Nat} (h : writerFor s c task lines = (.ok (some key), v)) :
    ∃ y, v.rider? key = some y ∧ y.kind = 1 ∧ y.op = 0xCF ∧ y.wlines = lines ∧ y.data = [] := by
  obtain ⟨m, r, rfl, rfl, hkind, hop, hlines, hdata⟩ := boardWriter_ok (writerFor_some h)
  obtain ⟨y, hy, he⟩ := enterRider_rider m r
  refine ⟨y, hy, ?_⟩
  rw [he]
  exact ⟨hkind, hop, hlines, hdata⟩

end Riders

end Sys2Proof.Machine
end

section
/-! PROOFS. The completion of cards (R204, R293, R296 to R298). -/

namespace Sys2Proof.Machine

theorem sameMemory.refl (s : State) : sameMemory s s := ⟨fun _ => rfl, rfl, rfl, rfl⟩

theorem sameMemory.trans {s t u : State} (h : sameMemory s t) (h' : sameMemory t u) : sameMemory s u := by
  obtain ⟨hbyte, hpois, hlat, hviews⟩ := h
  obtain ⟨hbyte', hpois', hlat', hviews'⟩ := h'
  exact ⟨fun a => (hbyte' a).trans (hbyte a), hpois'.trans hpois, hlat'.trans hlat, hviews'.trans hviews⟩

/-! A card that completes leaves its chain (R289, R293). -/

theorem task_dropWritten (s : State) (c t : Nat) (ks : List (Nat × Nat)) : (dropWritten s c ks).task? c t = s.task? c t := by
  rw [dropWritten, State.task_setCore_self]
  rfl

/-- The machine as a card gives back what it holds, before it leaves its chain. -/
def cardReturns (s : State) (c weight : Nat) (k : Card) : State :=
  if k.leave then returnLeave (dropWritten s c k.wrote) (dieOfCore c) weight else dropWritten s c k.wrote

theorem sameMemory_cardReturns (s : State) (c weight : Nat) (k : Card) : sameMemory s (cardReturns s c weight k) := by
  unfold cardReturns
  split
  · exact ⟨fun _ => rfl, rfl, rfl, rfl⟩
  · exact ⟨fun _ => rfl, rfl, rfl, rfl⟩

theorem task_cardReturns (s : State) (c t weight : Nat) (k : Card) : (cardReturns s c weight k).task? c t = s.task? c t := by
  unfold cardReturns
  split
  · exact task_dropWritten ..
  · exact task_dropWritten ..

/-- The task whose card has completed. -/
def cardRetired (task : Task) (chain : Nat) (k : Card) : Task :=
  settleOwed (retireCard task chain ⟨k.seq, k.status, k.chmask, 0⟩) (124 + chain) (cardKey chain k.seq) (doneToken k.seq k.status.toNat 0 k.chmask)

theorem chainOf_cardRetired (task : Task) (chain : Nat) (k : Card) :
    (chainOf (cardRetired task chain k) chain).hist.head? = some ⟨k.seq, k.status, k.chmask, 0⟩ ∧
      ∀ z ∈ (chainOf (cardRetired task chain k) chain).cards, z.seq ≠ k.seq := by
  have hchain : chainOf (cardRetired task chain k) chain = chainOf (retireCard task chain ⟨k.seq, k.status, k.chmask, 0⟩) chain := rfl
  rw [hchain, chainOf, retireCard, tabGet_tabPut_self]
  refine ⟨rfl, fun z hz => ?_⟩
  simpa using (List.mem_filter.1 hz).2

theorem finishCard_eq {s : State} {c t : Nat} {task : Task} (h : s.task? c t = some task) (chain weight : Nat) (k : Card) :
    finishCard s c t chain weight k = (cardReturns s c weight k).setTask c t (cardRetired task chain k) := by
  have htask := (task_cardReturns s c t weight k).trans h
  unfold cardReturns at htask ⊢
  unfold finishCard
  dsimp only
  rw [htask]
  rfl

theorem sameMemory_finishCard (s : State) (c t chain weight : Nat) (k : Card) : sameMemory s (finishCard s c t chain weight k) := by
  have hback : finishCard s c t chain weight k = cardReturns s c weight k ∨
      ∃ task, finishCard s c t chain weight k = (cardReturns s c weight k).setTask c t task := by
    unfold finishCard cardReturns
    dsimp only
    split
    · exact .inl rfl
    · exact .inr ⟨_, rfl⟩
  rcases hback with h | ⟨task, h⟩
  · rw [h]
    exact sameMemory_cardReturns ..
  · rw [h]
    exact (sameMemory_cardReturns ..).trans ⟨fun _ => rfl, rfl, rfl, rfl⟩

/-- What a card that has completed leaves in its chain, and the rings of its task. -/
theorem finishCard_spec {s : State} {c t : Nat} {task : Task} (h : s.task? c t = some task) (chain weight : Nat) (k : Card) :
    ∃ y, (finishCard s c t chain weight k).task? c t = some y ∧ y.rings = task.rings ∧
      (chainOf y chain).hist.head? = some ⟨k.seq, k.status, k.chmask, 0⟩ ∧ ∀ z ∈ (chainOf y chain).cards, z.seq ≠ k.seq := by
  rw [finishCard_eq h]
  exact ⟨_, State.task_setTask_self .., rfl, chainOf_cardRetired ..⟩

/-! The completion of a matrix card. -/

section Matrix
variable {c t : Nat} {k : Card} {s : State}

theorem completeMatrix_waits (h : k.st ≠ .started ∨ k.prog < cardRows k ∨ k.bankDone = false) : completeMatrix c t k s = s := by
  refine if_neg ?_
  simp only [Bool.and_eq_true, beq_iff_eq, Bool.not_eq_true', decide_eq_true_eq, not_and_or, Bool.not_eq_true, Nat.not_le]
  tauto

theorem completeMatrix_done (hst : k.st = .started) (hre : k.relatch = false) (hrows : cardRows k ≤ k.prog) (hbank : k.bankDone = true) :
    completeMatrix c t k s = finishCard s c t 0 4 k := if_pos (by simp [hst, hre, hrows, hbank])

end Matrix

/-! The release before a completion of pod or system scope (R293, R329, R330). -/

/-- The fences that a card has sent have been completed, and what went to the host performed. -/
def fencesSettled (s : State) (k : Card) (l : List Nat) : Prop := (l = [] ∨ podReachable s = false) ∧ hostSettled s k.escope = true

/-- A card of pod or system scope has still to send its fences. -/
def sendsFences (s : State) (k : Card) : Prop := 4 ≤ k.escope ∧ k.fences = none ∧ pathSwitches s ≠ []

/-- The release of a card's scope is complete. -/
def scopeReleased (s : State) (k : Card) : Prop :=
  k.escope < 4 ∨ (k.fences = none ∧ pathSwitches s = [] ∧ hostSettled s k.escope = true) ∨ ∃ l, k.fences = some l ∧ fencesSettled s k l

section Release
variable {c t chain : Nat} {k : Card} {s : State}

theorem cardReleased_fences (h : sendsFences s k) : cardReleased c t chain k s = .error (putCard s c t chain { k with fences := some (pathSwitches s) }) := by
  obtain ⟨hscope, hf, hp⟩ := h
  refine (if_neg (Nat.not_lt.2 hscope)).trans ?_
  rw [hf]
  exact if_neg (by simpa using hp)

theorem cardReleased_done (h : scopeReleased s k) : cardReleased c t chain k s = .ok s := by
  by_cases hscope : k.escope < 4
  · exact if_pos hscope
  · refine (if_neg hscope).trans ?_
    rcases h with h | ⟨hf, hp, hh⟩ | ⟨l, hf, hl, hh⟩
    · exact absurd h hscope
    · rw [hf, hp]
      exact if_pos hh
    · rw [hf]
      exact if_pos (by simpa [hh] using hl)

theorem cardReleased_waits (h : ¬sendsFences s k) (h' : ¬scopeReleased s k) : cardReleased c t chain k s = .error s := by
  have hscope : ¬k.escope < 4 := fun hs => h' (.inl hs)
  refine (if_neg hscope).trans ?_
  cases hf : k.fences with
  | none =>
    have hp : pathSwitches s = [] := by
      by_contra hp
      exact h ⟨by omega, hf, hp⟩
    dsimp only
    rw [hp]
    exact if_neg fun hh => h' (.inr (.inl ⟨hf, hp, hh⟩))
  | some l =>
    refine if_neg fun hl => h' (.inr (.inr ⟨l, hf, ?_⟩))
    simpa [fencesSettled] using hl

end Release

end Sys2Proof.Machine
end

section
/-! PROOFS. The completion of copies, collectives and ring steps (R296 to R298), and of completion words (R224, R322). -/

namespace Sys2Proof.Machine

/-! A completion word (R322). -/

theorem tabFind_map_of_key {α : Type} {f : Nat × α → Nat × α} (hf : ∀ e, (f e).1 = e.1) {l : List (Nat × α)} {k : Nat} {x : α} (h : tabFind l k = some x) :
    tabFind (l.map f) k = some (f (k, x)).2 := by
  induction l with
  | nil => cases h
  | cons e l ih =>
    obtain ⟨j, y⟩ := e
    have hkey : (f (j, y)).1 = j := hf (j, y)
    rw [List.map_cons, show f (j, y) = (j, (f (j, y)).2) from Prod.ext hkey rfl]
    simp only [tabFind] at h ⊢
    split
    · next hj =>
      rw [if_pos hj, Option.some.injEq] at h
      rw [hj, h]
    · next hj =>
      rw [if_neg hj] at h
      exact ih h

/-- Where every core and every task of it is mapped under its own number, a task that stands still does. -/
theorem task_of_mapped {s u : State} {f : Nat × Core → Nat × Core} (hu : u.cores = s.cores.map f) (hf : ∀ e, (f e).1 = e.1)
    (hg : ∀ e, ∃ g : Nat × Task → Nat × Task, (f e).2.tasks = e.2.tasks.map g ∧ ∀ x, (g x).1 = x.1) {c t : Nat} {task : Task} (h : s.task? c t = some task) :
    ∃ y, u.task? c t = some y := by
  cases hc : tabFind s.cores c with
  | none =>
    rw [State.task?, State.core, tabGet, hc] at h
    cases h
  | some x =>
    rw [State.task?, State.core, tabGet, hc] at h
    obtain ⟨g, hg, hkey⟩ := hg (c, x)
    refine ⟨(g (t, task)).2, ?_⟩
    rw [State.task?, State.core, tabGet, hu, tabFind_map_of_key hf hc, Option.getD_some, hg]
    exact tabFind_map_of_key hkey h

theorem task_wakeWaits {s : State} {c t : Nat} {task : Task} (h : s.task? c t = some task) (place : Nat × Nat) (key v : Nat) :
    ∃ y, (wakeWaits s place key v).task? c t = some y := by
  obtain ⟨f, hu, hf, hg⟩ : ∃ f : Nat × Core → Nat × Core, (wakeWaits s place key v).cores = s.cores.map f ∧ (∀ e, (f e).1 = e.1) ∧
      ∀ e, ∃ g : Nat × Task → Nat × Task, (f e).2.tasks = e.2.tasks.map g ∧ ∀ x, (g x).1 = x.1 :=
    ⟨_, rfl, fun _ => rfl, fun e => ⟨_, rfl, fun _ => rfl⟩⟩
  exact task_of_mapped hu hf hg h

theorem task_cwWrite {s : State} {c t : Nat} {task : Task} (h : s.task? c t = some task) (w : MemRun) (scope old : Nat) :
    ∃ y, (cwWrite s w scope old).task? c t = some y := by
  refine task_wakeWaits (task := task) ?_ _ _ _
  rw [task_of_cores ((blindToCores_writeView _ _ _ _ _).cores s), h]

/-- A completion word counted on by one. -/
theorem bytesWritten_cwWrite (s : State) (w : MemRun) (scope old : Nat) :
    bytesWritten s (cwWrite s w scope old) w.view w.key 4 (byteOf ((old + 1) % 2 ^ 32)) :=
  (bytesWritten_writeView s w.view w.key 4 ((old + 1) % 2 ^ 32) false).congr fun _ => rfl

theorem cwMove_waits {s : State} {w : MemRun} {scope : Nat} (h : cwOpen s w scope = false) : cwMove s w scope = .waits := if_pos (by simp [h])

/-- A word read at its home: the machine keeps what it held. -/
theorem cwMove_reads {s : State} {w : MemRun} {scope : Nat} (h : cwOpen s w scope = true) (hl : isLocal w.key = true) :
    ∃ u, Looks s u ∧ cwMove s w scope = .read (viewRead s w.view w.key 4) u := by
  have hlooks : Looks s (countDirect (readCheck s w.key w.len) w.key scope) := (looks_readCheck ..).trans (looks_countDirect ..)
  refine ⟨_, hlooks, (if_neg (by simp [h])).trans ?_⟩
  rw [if_pos hl]
  exact congrArg (CwOut.read · _) (hlooks.viewRead ..)

/-! The completion of an engine card. -/

/-- Whether every participant of a card's collective has written its share, on every package that a path leads to. -/
def collWritten (s : State) (k : Card) : Prop :=
  k.unit ≠ 0 ∧ (∀ x ∈ collMembers s k.unit, x.prog = 1 + x.tile.length ∧ writerDone s x = true) ∧
    ∀ r ∈ s.remoteColls.filter (fun r => r.unit == k.unit), podReach s r.pkg = false

section Engine
variable {c t : Nat} {task : Task} {k : Card} {s : State}

theorem completeEngine_unready (h : k.st ≠ .started ∨ writerDone s k = false) : completeEngine c t task k s = s := if_pos (by simpa using h)

variable (hst : k.st = .started) (hdep : writerDone s k = true)
include hst hdep

theorem completeEngine_copy_short (ho : k.op = 0xD8) (h : k.prog < unitCount (cardRec (s.core c) k (ecSrec k.card))) : completeEngine c t task k s = s := by
  refine (if_neg (by simp [hst, hdep])).trans ?_
  rw [ho]
  exact if_pos h

theorem completeEngine_copy_error (ho : k.op = 0xD8) (h : unitCount (cardRec (s.core c) k (ecSrec k.card)) ≤ k.prog) {v : State}
    (hr : cardReleased c t 2 k s = .error v) : completeEngine c t task k s = v := by
  refine (if_neg (by simp [hst, hdep])).trans ?_
  rw [ho]
  refine (if_neg (Nat.not_lt.2 h)).trans ?_
  rw [hr]

section Copy
variable (ho : k.op = 0xD8) (h : unitCount (cardRec (s.core c) k (ecSrec k.card)) ≤ k.prog) (hr : cardReleased c t 2 k s = .ok s) {v : State}
include ho h hr

theorem completeEngine_copy_stays (hw : copyWord c t task k s = .error v) : completeEngine c t task k s = v := by
  refine (if_neg (by simp [hst, hdep])).trans ?_
  rw [ho]
  refine (if_neg (Nat.not_lt.2 h)).trans ?_
  rw [hr]
  dsimp only
  rw [hw]

theorem completeEngine_copy_done (hw : copyWord c t task k s = .ok v) : completeEngine c t task k s = finishCard (dropCardRiders v k) c t 2 0 k := by
  refine (if_neg (by simp [hst, hdep])).trans ?_
  rw [ho]
  refine (if_neg (Nat.not_lt.2 h)).trans ?_
  rw [hr]
  dsimp only
  rw [hw]

end Copy

theorem completeEngine_coll (ho : k.op = 0xD9) : completeEngine c t task k s = completeColl c t k s := by
  refine (if_neg (by simp [hst, hdep])).trans ?_
  rw [ho]
  rfl

theorem completeEngine_ring_open (ho : k.op = 0xDA) (h : k.prog ≠ 1 + k.tile.length ∨ k.unit ≠ 1) : completeEngine c t task k s = s := by
  refine (if_neg (by simp [hst, hdep])).trans ?_
  rw [ho]
  exact if_pos (by simpa [boundDone] using h)

theorem completeEngine_ring (ho : k.op = 0xDA) (hp : k.prog = 1 + k.tile.length) (hu : k.unit = 1) : completeEngine c t task k s = finishRing c t task k s := by
  refine (if_neg (by simp [hst, hdep])).trans ?_
  rw [ho]
  exact if_neg (by simp [boundDone, hp, hu])

end Engine

/-! A copy's completion word (R296, R322). -/

section Word
variable {c t : Nat} {task : Task} {k : Card} {s v : State} {w : MemRun} {rest : List MemRun}

theorem copyWord_held {old : Nat} (h : k.cwHeld = some (w, old)) : copyWord c t task k s = .ok (cwWrite s w 3 old) := by
  unfold copyWord
  rw [h]

variable (hn : k.cwHeld = none)
include hn

theorem copyWord_unasked (h : ecCw k.card = false) : copyWord c t task k s = .ok s := by
  unfold copyWord
  rw [hn]
  exact if_pos (by simp [h])

variable (hcw : ecCw k.card = true) (hd : directKeys c task.part needWord (ecCwaddr k.card) 4 s = (.ok (w :: rest), v))
include hcw hd

theorem copyWord_waits (h : cwOpen v w 3 = false) : copyWord c t task k s = .error s := by
  unfold copyWord
  rw [hn]
  refine (if_neg (by simp [hcw])).trans ?_
  rw [hd]
  dsimp only
  rw [cwMove_waits h]

/-- A word that is read first is kept at the card. -/
theorem copyWord_reads (h : cwOpen v w 3 = true) (hl : isLocal w.key = true) :
    ∃ u, Looks s u ∧ copyWord c t task k s = .error (putCard u c t 2 { k with cwHeld := some (w, viewRead v w.view w.key 4) }) := by
  obtain ⟨u, hu, hmove⟩ := cwMove_reads h hl
  refine ⟨u, (Looks.of_snd hd (looks_directKeys ..)).trans hu, ?_⟩
  unfold copyWord
  rw [hn]
  refine (if_neg (by simp [hcw])).trans ?_
  rw [hd]
  dsimp only
  rw [hmove]

end Word

/-! What a completion keeps in its chain. -/

/-- A chain of a task has kept the completion of one of its cards, which stands in it no longer (R204, R293). -/
def completedAs (u : State) (c t chain : Nat) (k : Card) (status : Word32) : Prop :=
  ∃ y, u.task? c t = some y ∧ (chainOf y chain).hist.head? = some ⟨k.seq, status, k.chmask, 0⟩ ∧ ∀ z ∈ (chainOf y chain).cards, z.seq ≠ k.seq

theorem completedAs_finishCard {s : State} {c t : Nat} {task : Task} (h : s.task? c t = some task) (chain weight : Nat) (k : Card) :
    completedAs (finishCard s c t chain weight k) c t chain k k.status := by
  obtain ⟨y, hy, _, hhist, hcards⟩ := finishCard_spec h chain weight k
  exact ⟨y, hy, hhist, hcards⟩

section Done
variable {s : State} {c t : Nat} {task : Task} {k : Card} (h : s.task? c t = some task)
include h

/-- A copy that has counted its completion word on. -/
theorem copyDone_counted (w : MemRun) (old : Nat) : let u := finishCard (dropCardRiders (cwWrite s w 3 old) k) c t 2 0 k
    completedAs u c t 2 k k.status ∧ bytesWritten s u w.view w.key 4 (byteOf ((old + 1) % 2 ^ 32)) := by
  intro u
  obtain ⟨y, hy⟩ := task_cwWrite h w 3 old
  have hmem := sameMemory_finishCard (dropCardRiders (cwWrite s w 3 old) k) c t 2 0 k
  obtain ⟨hbyte, _⟩ := hmem
  exact ⟨completedAs_finishCard ((looks_dropCardRiders _ k).task c t |>.trans hy) 2 0 k, (bytesWritten_cwWrite s w 3 old).congr hbyte⟩

/-- A card that gives its riders back and completes, whatever weight it returns. -/
theorem cardDone (weight : Nat) (x : Card) : let u := finishCard (dropCardRiders s k) c t 2 weight x
    completedAs u c t 2 x x.status ∧ sameMemory s u :=
  ⟨completedAs_finishCard (((looks_dropCardRiders s k).task c t).trans h) 2 weight x,
    sameMemory.trans ⟨fun _ => rfl, rfl, rfl, rfl⟩ (sameMemory_finishCard (dropCardRiders s k) c t 2 weight x)⟩

end Done

/-! The completion of a collective (R297, R408). -/

section Coll
variable {s : State} {c t : Nat} {task : Task} {k : Card}

theorem completeColl_unwritten (hw : ¬collWritten s k) : completeColl c t k s = s := by
  refine if_pos ?_
  by_contra hc
  refine hw ?_
  simpa [collWritten, boundDone, and_assoc] using hc

variable (hw : collWritten s k)
include hw

theorem completeColl_error {v : State} (hr : cardReleased c t 2 k s = .error v) : completeColl c t k s = v := by
  refine (if_neg ?_).trans ?_
  · simpa [collWritten, boundDone, and_assoc] using hw
  · rw [hr]

/-- The last participant of a collective forgets what came of it from other packages. -/
def collForgotten (s : State) (k : Card) : State :=
  if (collMembers s k.unit).length ≤ 1 then { s with remoteColls := s.remoteColls.filter fun r => r.unit != k.unit } else s

theorem completeColl_done (hr : cardReleased c t 2 k s = .ok s) : completeColl c t k s =
    finishCard (dropCardRiders (collForgotten s k) k) c t 2 2 (noteGone k !(s.remoteColls.filter fun r => r.unit == k.unit).isEmpty) := by
  refine (if_neg ?_).trans ?_
  · simpa [collWritten, boundDone, and_assoc] using hw
  · rw [hr]
    rfl

end Coll

theorem completedAs_noteGone {u : State} {c t chain : Nat} {k : Card} {gone : Bool} (h : completedAs u c t chain (noteGone k gone) (noteGone k gone).status) :
    completedAs u c t chain k (k.status ||| if gone = true then 0x13 else 0) := by
  cases gone with
  | false =>
    rw [if_neg (by decide), show k.status ||| 0 = k.status from BitVec.or_zero]
    exact h
  | true => exact h

theorem looks_collForgotten (s : State) (k : Card) : Looks s (collForgotten s k) ∧ sameMemory s (collForgotten s k) := by
  unfold collForgotten
  split
  · exact ⟨⟨rfl, rfl, rfl⟩, fun _ => rfl, rfl, rfl, rfl⟩
  · exact ⟨.refl s, .refl s⟩

section Done
variable {s : State} {c t : Nat} {task : Task} {k : Card} (h : s.task? c t = some task)
include h

theorem collDone_spec (hw : collWritten s k) (hr : cardReleased c t 2 k s = .ok s) : let u := completeColl c t k s
    completedAs u c t 2 k (k.status ||| if s.remoteColls.filter (fun r => r.unit == k.unit) = [] then 0 else 0x13) ∧ sameMemory s u := by
  intro u
  obtain ⟨hlooks, hmem⟩ := looks_collForgotten s k
  have hdone := cardDone (k := k) ((hlooks.task c t).trans h) 2 (noteGone k !(s.remoteColls.filter fun r => r.unit == k.unit).isEmpty)
  rw [← completeColl_done hw hr] at hdone
  obtain ⟨hkept, hsame⟩ := hdone
  refine ⟨?_, hmem.trans hsame⟩
  have hstatus := completedAs_noteGone hkept
  by_cases hfar : s.remoteColls.filter (fun r => r.unit == k.unit) = []
  · rw [if_pos hfar]
    rwa [hfar] at hstatus
  · rw [if_neg hfar]
    rwa [if_pos (by simpa using hfar)] at hstatus

end Done

/-! The completion of a ring step (R298). -/

theorem finishRing_spec (s : State) (c t : Nat) (task : Task) (k : Card) : let size := (ringOf s c task k.escope).length
    let ring : Ring := tabGet {} task.rings k.escope
    let step := if ring.size = size then ring.step + 1 else 1
    let u := finishRing c t task k s
    completedAs u c t 2 k (k.status ||| BitVec.ofNat 32 (size * 2 ^ 16 + step % 256 * 2 ^ 8)) ∧ sameMemory s u ∧
      (u.task? c t).map Task.rings = some (tabPut task.rings k.escope { ring with step := step, size := size }) := by
  intro size ring step u
  let m := s.setTask c t { task with rings := tabPut task.rings k.escope { ring with step := step, size := size } }
  let x : Card := { k with status := k.status ||| BitVec.ofNat 32 (size * 2 ^ 16 + step % 256 * 2 ^ 8) }
  have htask : (dropCardRiders m k).task? c t = some { task with rings := tabPut task.rings k.escope { ring with step := step, size := size } } :=
    ((looks_dropCardRiders m k).task c t).trans (State.task_setTask_self ..)
  have hu : u = finishCard (dropCardRiders m k) c t 2 2 x := rfl
  rw [hu]
  obtain ⟨y, hy, hrings, hhist, hcards⟩ := finishCard_spec htask 2 2 x
  refine ⟨⟨y, hy, hhist, hcards⟩, sameMemory.trans ⟨fun _ => rfl, rfl, rfl, rfl⟩ (sameMemory_finishCard (dropCardRiders m k) c t 2 2 x), ?_⟩
  rw [hy, Option.map_some, hrings]

end Sys2Proof.Machine
end

section
/-! PROOFS. What the events of a card come to, from the machine they leave (R207, R291, R293 to R298). -/

namespace Sys2Proof.Machine

theorem seq_of_cardAt {s : State} {c t chain n : Nat} {k : Card} (h : cardAt s c t chain n = some k) : k.seq = n := by
  obtain ⟨_, _, hk⟩ := exists_of_cardAt h
  exact seq_of_cardOf hk

section Events
variable {s : State} {c t chain seq : Nat} {task : Task} {k : Card} (htask : s.task? c t = some task)
include htask

section Start
variable (hk : cardOf task chain seq = some k)
include hk

/-- A task whose cut has begun starts no card, and a card that has started does not start again. -/
theorem cardStart_over (h : task.cutting = true ∨ k.st ≠ .waiting) : exec (.cardStart c t chain seq) s = .next s := by
  rw [exec_cardStart htask hk]
  split
  · rfl
  · next hcut =>
    have hst := h.resolve_left hcut
    rw [startMatrix_held (.inl hst), startEngine_held (.inl hst), ite_self, ite_self]

theorem cardStart_matrix (ho : isMatrixOp k.op = true) (hcut : task.cutting = false) :
    exec (.cardStart c t chain seq) s = .next (startMatrix c t task k s) := by
  rw [exec_cardStart htask hk, if_neg (by simp [hcut]), if_pos ho]

theorem cardStart_engine (ho : isEngineOp k.op = true) (hcut : task.cutting = false) :
    exec (.cardStart c t chain seq) s = .next (startEngine c t task k s) := by
  rw [exec_cardStart htask hk, if_neg (by simp [hcut]), if_neg (by simp [not_matrixOp_of_engineOp ho]), if_pos ho]

theorem cardStart_matrix_held (ho : isMatrixOp k.op = true)
    (h : chainTurn task k = false ∨ edgesClear s c task.part k = false ∨ storesDrained s c t k.stamp = false) :
    exec (.cardStart c t chain seq) s = .next s := by
  rw [exec_cardStart htask hk, if_pos ho, startMatrix_held (.inr h), ite_self]

theorem cardStart_engine_held (ho : isEngineOp k.op = true) (h : edgesClear s c task.part k = false ∨ storesDrained s c t k.stamp = false) :
    exec (.cardStart c t chain seq) s = .next s := by
  rw [exec_cardStart htask hk, if_neg (c := isMatrixOp k.op = true) (by simp [not_matrixOp_of_engineOp ho]), if_pos ho, startEngine_held (.inr h), ite_self]

theorem cardComplete_matrix (ho : isMatrixOp k.op = true) : exec (.cardComplete c t chain seq) s = .next (completeMatrix c t k s) := by
  rw [exec_cardComplete htask hk, if_pos ho]

theorem cardComplete_engine (ho : isEngineOp k.op = true) : exec (.cardComplete c t chain seq) s = .next (completeEngine c t task k s) := by
  rw [exec_cardComplete htask hk, if_neg (by simp [not_matrixOp_of_engineOp ho]), if_pos ho]

/-! A fault of a card (R207, R334). -/

theorem cardFault_kept (h : k.fault = none ∨ k.taken = true ∨ task.cutting = true ∨ k.st ≠ .withheld) : exec (.cardFault c t chain seq) s = .next s := by
  rw [exec_cardFault htask hk]
  split
  · rfl
  · next hcut =>
    refine congrArg _ ?_
    unfold cardFaultMove
    rw [htask]
    dsimp only
    rw [hk]
    dsimp only
    split
    · rfl
    · next x hx =>
      refine if_pos ?_
      simp only [hx, hcut, reduceCtorEq, false_or] at h
      simp only [Bool.or_eq_true, bne_iff_ne]
      tauto

theorem cardFault_taken {x : FrecIn} (hx : k.fault = some x) (htaken : k.taken = false) (hcut : task.cutting = false) (hst : k.st = .withheld)
    (hh : task.st = .trapped → k.handler = true) : exec (.cardFault c t chain seq) s = .next (takeFault (putCard s c t chain { k with taken := true }) c t
      { x with pc := match task.phase with
        | some ph => ph.addr
        | none => task.pc } k.handler) := by
  rw [exec_cardFault htask hk, if_neg (by simp [hcut])]
  refine congrArg _ ?_
  unfold cardFaultMove
  rw [htask]
  dsimp only
  rw [hk]
  dsimp only
  rw [hx]
  exact (if_neg (by simpa [hst, htaken] using hh))

end Start

end Events

/-! A row that a fault stops, at the card's own number. -/

theorem withheld_afterRow {s v : State} {c t chain seq gen iter : Nat} {k : Card} {e : FaultInfo} {y : Card} (he : e.cls ≠ notYet.cls)
    (hy : cardAt v c t chain seq = some y) (hseq : k.seq = seq) :
    cardAt (afterRow s c t chain k (rowErr e gen iter v)) c t chain seq = some (withheldFor k chain e gen iter) := by
  rw [afterRow_rowErr, if_neg he]
  exact cardAt_putCard_self hy hseq

end Sys2Proof.Machine
end

section
/-! PROOFS. The ring of tile tasks (R299), grants of power leave (R393), and seeds that a feed brings (R249, R252). -/

namespace Sys2Proof.Machine

/-! A quad takes the next record of its ring (R299). -/

section Take
variable {s : State} {q part : Nat}

/-- The address of the next record of a quad's ring. -/
def nextRecord (s : State) (q : Nat) : Nat := ((s.quad q).ttbase.toNat + 128 * (s.quad q).ttpos) % 2 ^ 57

theorem tileTakeMove_unowned (h : partOfQuad s q = none) : tileTakeMove q s = s := by
  unfold tileTakeMove
  rw [h]

/-- The record that a quad reads. -/
def recordRead (m : State) (ks : List MemRun) : BitVec 1024 := BitVec.ofNat 1024 (readKeys m ks)

/-- Whether a record can be read now, stands unpoisoned and is valid. -/
def recordValid (m : State) (ks : List MemRun) : Prop := readsOpen m ks = true ∧ keysPoisoned m ks = false ∧ (recordRead m ks).getLsbD 1016 = true

/-- A quad after it has taken a record into its list. -/
def tileTaken (m : State) (q : Nat) (va : Nat) (r : BitVec 1024) : State :=
  ({ m with cardOrder := m.cardOrder + 1 }).setQuad q { m.quad q with
    ttpos := ((m.quad q).ttpos + 1) % (m.quad q).ttsize.toNat
    ttasks := (m.quad q).ttasks ++ [({ addr := va, record := r, order := m.cardOrder } : TileTask)] }

variable (hp : partOfQuad s q = some part)
include hp

theorem tileTakeMove_idle (h : (s.quad q).ttsize = 0 ∨ ∃ y ∈ (s.quad q).ttasks, y.addr = nextRecord s q) : tileTakeMove q s = s := by
  unfold tileTakeMove
  rw [hp]
  refine if_pos ?_
  rcases h with h | ⟨y, hy, ha⟩
  · simp [h]
  · rw [Bool.or_eq_true]
    exact .inr (List.any_eq_true.2 ⟨y, hy, beq_iff_eq.2 ha⟩)

variable (hsize : (s.quad q).ttsize ≠ 0) (hnew : ∀ y ∈ (s.quad q).ttasks, y.addr ≠ nextRecord s q)
include hsize hnew

omit hp in
theorem takes_cond : ¬(((s.quad q).ttsize.toNat = 0 || (s.quad q).ttasks.any fun y => y.addr == nextRecord s q) = true) := by
  have hnz : (s.quad q).ttsize.toNat ≠ 0 := fun h => hsize (BitVec.eq_of_toNat_eq h)
  simpa [hnz] using hnew

variable {ks : List MemRun} {m1 : State} (hd : directKeys (4 * q) part { needRead with hostOk := false } (nextRecord s q) 128 s = (.ok ks, m1))
include hd

theorem tileTakeMove_invalid (h : ¬recordValid (checkKeys m1 ks) ks) : tileTakeMove q s = checkKeys m1 ks := by
  unfold tileTakeMove
  rw [hp]
  refine (if_neg (takes_cond hsize hnew)).trans ?_
  unfold nextRecord at hd
  rw [hd]
  refine if_pos ?_
  by_contra hc
  refine h ?_
  simpa [recordValid, recordRead, and_assoc] using hc

theorem tileTakeMove_takes (h : recordValid (checkKeys m1 ks) ks) :
    tileTakeMove q s = tileTaken (checkKeys m1 ks) q (nextRecord s q) (recordRead (checkKeys m1 ks) ks) := by
  unfold tileTakeMove
  rw [hp]
  refine (if_neg (takes_cond hsize hnew)).trans ?_
  unfold nextRecord at hd
  rw [hd]
  refine (if_neg ?_).trans rfl
  simpa [recordValid, recordRead, and_assoc] using h

end Take

theorem tileTaken_spec (m : State) (q va : Nat) (r : BitVec 1024) : let u := tileTaken m q va r
    (u.quad q).ttpos = ((m.quad q).ttpos + 1) % (m.quad q).ttsize.toNat ∧
      (u.quad q).ttasks = (m.quad q).ttasks ++ [{ addr := va, record := r, order := m.cardOrder }] ∧ u.cardOrder = m.cardOrder + 1 ∧ sameMemory m u := by
  intro u
  have hq : u.quad q = { m.quad q with
    ttpos := ((m.quad q).ttpos + 1) % (m.quad q).ttsize.toNat
    ttasks := (m.quad q).ttasks ++ [{ addr := va, record := r, order := m.cardOrder }] } := State.quad_setQuad_self ..
  rw [hq]
  exact ⟨rfl, rfl, rfl, fun _ => rfl, rfl, rfl, rfl⟩

/-! A tile task runs (R299). -/

section Run
variable {s : State} {q part n : Nat} {tt : TileTask}

theorem cardRowMove_tile (q t n : Nat) (s : State) : cardRowMove (4 * q) t 3 n s = tileRun q n s := by
  have hq : quadOfCore (4 * q) = q := by
    unfold quadOfCore
    omega
  exact (if_pos rfl).trans (by rw [hq])

variable (hp : partOfQuad s q = some part) (htt : (s.quad q).ttasks[n]? = some tt) (hn : tt.cwHeld = none)
include hp htt hn

theorem tileRun_edges (h : ¬edgesClear s (4 * q) part (tileCard tt) = true) : tileRun q n s = s := by
  unfold tileRun
  rw [hp, htt]
  dsimp only
  rw [hn]
  exact if_pos (by simpa using h)

variable (hedge : edgesClear s (4 * q) part (tileCard tt) = true)
include hedge

theorem tileRun_asks (h : tt.leave = false) : tileRun q n s = if tt.asked then s else askTile q n tt s := by
  unfold tileRun
  rw [hp, htt]
  dsimp only
  rw [hn]
  exact (if_neg (by simp [hedge])).trans (if_pos (by simp [h]))

variable (hl : tt.leave = true)
include hl

theorem tileRun_error {e : FaultInfo} {v : State} (hw : tileWork (4 * q) part tt.record s = (.error e, v)) :
    tileRun q n s = if e.cls = notYet.cls then s else tileDone q n part tt (1 + e.cls * 256) v := by
  unfold tileRun
  rw [hp, htt]
  dsimp only
  rw [hn]
  refine (if_neg (by simp [hedge])).trans ((if_neg (by simp [hl])).trans ?_)
  rw [hw]
  simp [waits]

theorem tileRun_ok {ps : List Put} {v : State} (hw : tileWork (4 * q) part tt.record s = (.ok ps, v)) :
    tileRun q n s = tileDone q n part tt 0 (ps.foldl doPut v) := by
  unfold tileRun
  rw [hp, htt]
  dsimp only
  rw [hn]
  refine (if_neg (by simp [hedge])).trans ((if_neg (by simp [hl])).trans ?_)
  rw [hw]

end Run

/-- A tile task that asks for its leave. -/
theorem askTile_spec (q n : Nat) (tt : TileTask) (s : State) : let u := askTile q n tt s
    (u.quad q).ttasks = (s.quad q).ttasks.set n { tt with asked := true } ∧ sameMemory s u ∧
      (u.die (dieOfCore (4 * q))).leaves = (s.die (dieOfCore (4 * q))).leaves ++ [⟨4, 0, 4 * q, 4, 4, tt.addr, none, (s.core (4 * q)).refTime⟩] := by
  intro u
  let m := s.setQuad q { s.quad q with ttasks := (s.quad q).ttasks.set n { tt with asked := true } }
  have hq : u.quad q = { s.quad q with ttasks := (s.quad q).ttasks.set n { tt with asked := true } } := State.quad_setQuad_self s q _
  rw [hq]
  refine ⟨rfl, ⟨fun _ => rfl, rfl, rfl, rfl⟩, ?_⟩
  exact leaves_askLeave m (dieOfCore (4 * q)) ⟨4, 0, 4 * q, 4, 4, tt.addr, none, 0⟩

/-! The order of requests for leave, and their grants (R393). -/

/-- One request goes no later than another: of higher PRIO, or of one PRIO the earlier, or of one cycle that of no higher core. -/
def leaveFirst (a b : LeaveReq) : Prop := b.prio ≤ a.prio ∧ (b.prio = a.prio → a.since ≤ b.since ∧ (a.since = b.since → a.core ≤ b.core))

theorem leaveFirst.refl (a : LeaveReq) : leaveFirst a a := ⟨le_rfl, fun _ => ⟨le_rfl, fun _ => le_rfl⟩⟩

theorem leaveFirst.trans {a b d : LeaveReq} (h : leaveFirst a b) (h' : leaveFirst b d) : leaveFirst a d := by
  unfold leaveFirst at *
  omega

theorem leaveFirst_of_before {a b : LeaveReq} (h : leaveBefore a b = true) : leaveFirst a b := by
  simp only [leaveBefore, Bool.or_eq_true, Bool.and_eq_true, decide_eq_true_eq, beq_iff_eq] at h
  unfold leaveFirst
  omega

theorem leaveFirst_of_not_before {a b : LeaveReq} (h : leaveBefore a b = false) : leaveFirst b a := by
  simp only [leaveBefore, Bool.or_eq_false_iff, Bool.and_eq_false_iff, decide_eq_false_iff_not, beq_eq_false_iff_ne] at h
  unfold leaveFirst
  omega

/-- The better of the request found so far and the next. -/
def leaveBetter (best : Option LeaveReq) (r : LeaveReq) : Option LeaveReq := match best with
  | none => some r
  | some b => if leaveBefore r b then some r else some b

theorem nextLeave_eq (d : Die) : nextLeave d = d.leaves.foldl leaveBetter none := rfl

theorem leaveBetter_some (b r : LeaveReq) : ∃ x, leaveBetter (some b) r = some x ∧ (x = b ∨ x = r) ∧ leaveFirst x b ∧ leaveFirst x r := by
  cases h : leaveBefore r b with
  | true => exact ⟨r, if_pos h, .inr rfl, leaveFirst_of_before h, .refl r⟩
  | false => exact ⟨b, if_neg (by simp [h]), .inl rfl, .refl b, leaveFirst_of_not_before h⟩

theorem foldl_leaveBetter (l : List LeaveReq) : ∀ (b x : LeaveReq), l.foldl leaveBetter (some b) = some x →
    (x = b ∨ x ∈ l) ∧ leaveFirst x b ∧ ∀ y ∈ l, leaveFirst x y := by
  induction l with
  | nil =>
    intro b x h
    cases h
    exact ⟨.inl rfl, .refl b, by simp⟩
  | cons r l ih =>
    intro b x h
    obtain ⟨z, hz, hmem, hzb, hzr⟩ := leaveBetter_some b r
    rw [List.foldl_cons, hz] at h
    obtain ⟨hx, hxz, hall⟩ := ih z x h
    refine ⟨?_, hxz.trans hzb, ?_⟩
    · rcases hx with rfl | hx
      · exact hmem.imp_right fun h => List.mem_cons.2 (.inl h)
      · exact .inr (List.mem_cons.2 (.inr hx))
    · intro y hy
      rcases List.mem_cons.1 hy with rfl | hy
      · exact hxz.trans hzr
      · exact hall y hy

theorem nextLeave_first {d : Die} {r : LeaveReq} (h : nextLeave d = some r) : r ∈ d.leaves ∧ ∀ y ∈ d.leaves, leaveFirst r y := by
  rw [nextLeave_eq] at h
  cases hl : d.leaves with
  | nil =>
    rw [hl] at h
    cases h
  | cons b l =>
    rw [hl, List.foldl_cons] at h
    obtain ⟨hmem, hb, hall⟩ := foldl_leaveBetter l b r h
    exact ⟨List.mem_cons.2 hmem, by simpa using ⟨hb, hall⟩⟩

theorem powerGrant_idle {s : State} {d : Nat} (h : nextLeave (s.die d) = none) : powerGrant d s = s := by
  unfold powerGrant
  dsimp only
  rw [h]

theorem powerGrant_next {s : State} {d : Nat} {r : LeaveReq} (h : nextLeave (s.die d) = some r) :
    powerGrant d s = if (s.die d).inuse + r.weight ≤ (s.die d).budget then grantLeave s d r else s := by
  unfold powerGrant
  dsimp only
  rw [h]

section Forced
variable {s : State} {d n : Nat} {r : LeaveReq}

theorem forcedGrant_absent (h : (s.die d).leaves[n]? = none) : forcedGrant d n s = s := by
  unfold forcedGrant
  rw [h]

variable (hr : (s.die d).leaves[n]? = some r)
include hr

theorem forcedGrant_kept (h : leaveForced s r = false ∨ ∃ y ∈ (s.die d).leaves, y.since = r.since ∧ y.core < r.core ∧ leaveForced s y = true) :
    forcedGrant d n s = s := by
  unfold forcedGrant
  rw [hr]
  refine if_neg fun hc => ?_
  simp only [Bool.and_eq_true, Bool.not_eq_true', List.any_eq_false, Bool.and_eq_true, beq_iff_eq, decide_eq_true_eq, not_and] at hc
  obtain ⟨hforced, hnone⟩ := hc
  rcases h with h | ⟨y, hy, hsince, hcore, hyf⟩
  · rw [h] at hforced
    cases hforced
  · exact hnone y hy ⟨hsince, hcore⟩ hyf

theorem forcedGrant_grants (h : leaveForced s r = true) (hno : ∀ y ∈ (s.die d).leaves, y.since = r.since → y.core < r.core → leaveForced s y = false) :
    forcedGrant d n s = grantLeave s d r := by
  unfold forcedGrant
  rw [hr]
  refine if_pos ?_
  simp only [h, Bool.true_and, Bool.not_eq_true', List.any_eq_false, Bool.and_eq_true, beq_iff_eq, decide_eq_true_eq, not_and, Bool.not_eq_true]
  exact fun y hy ⟨hsince, hcore⟩ => hno y hy hsince hcore

end Forced

/-- Leave that is granted changes no die and no memory. -/
theorem applyLeave_frame (s : State) (r : LeaveReq) : (applyLeave s r).dies = s.dies ∧ sameMemory s (applyLeave s r) := by
  have hself : s.dies = s.dies ∧ sameMemory s s := ⟨rfl, .refl s⟩
  have hsame : ∀ u : State, u.dies = s.dies →
      u.mem = s.mem → u.poison = s.poison → u.latent = s.latent → u.views = s.views → u.dies = s.dies ∧ sameMemory s u :=
    fun u hd hm hpo hla hv => ⟨hd, fun a => by rw [State.byte, hm, State.byte], hpo, hla, hv⟩
  unfold applyLeave
  split
  · exact hsame _ rfl rfl rfl rfl rfl
  · split
    · split
      · exact hsame _ rfl rfl rfl rfl rfl
      · exact hself
    · split
      · exact hself
      · split
        · exact hsame _ rfl rfl rfl rfl rfl
        · split
          · exact hsame _ rfl rfl rfl rfl rfl
          · exact hself

theorem grantLeave_spec (s : State) (d : Nat) (r : LeaveReq) : let u := grantLeave s d r
    (u.die d).inuse = (s.die d).inuse + r.weight ∧ (u.die d).leaves = (s.die d).leaves.erase r ∧ sameMemory s u := by
  intro u
  let m := s.setDie d { s.die d with leaves := (s.die d).leaves.erase r, inuse := (s.die d).inuse + r.weight }
  obtain ⟨hdies, hmem⟩ := applyLeave_frame m r
  have hdie : u.die d = { s.die d with leaves := (s.die d).leaves.erase r, inuse := (s.die d).inuse + r.weight } := by
    rw [State.die, show u.dies = m.dies from hdies]
    exact State.die_setDie_self s d _
  rw [hdie]
  exact ⟨rfl, rfl, sameMemory.trans ⟨fun _ => rfl, rfl, rfl, rfl⟩ hmem⟩

/-! The intake and the start of seeds (R249, R252). -/

section Intake
variable {s : State} {c : Nat} {l : SeedLine} {rest : List SeedLine}

theorem seedIntakeMove_empty (h : (s.core c).seedIn = []) : seedIntakeMove c s = s := by
  unfold seedIntakeMove
  dsimp only
  rw [h]

variable (h : (s.core c).seedIn = l :: rest)
include h

theorem seedIntakeMove_dropped (hno : ∀ e ∈ (s.core c).tasks, e.2.seed.joined = false) :
    seedIntakeMove c s = s.setCore c { s.core c with seedIn := rest } := by
  have hfind : ((s.core c).tasks.find? fun e => e.2.seed.joined) = none := List.find?_eq_none.2 fun e he => by simp [hno e he]
  unfold seedIntakeMove
  dsimp only
  rw [h]
  dsimp only
  rw [hfind]

theorem seedIntakeMove_taken {j : Nat} {task : Task} (hfind : ((s.core c).tasks.find? fun e => e.2.seed.joined) = some (j, task)) :
    seedIntakeMove c s = takeSeedLine (s.setCore c { s.core c with seedIn := rest }) c j task l := by
  unfold seedIntakeMove
  dsimp only
  rw [h]
  dsimp only
  rw [hfind]

end Intake

section Seed
variable {s : State} {c t : Nat} {task : Task} {b : SeedBuf} (htask : s.task? c t = some task) (hb : seedHead task = some b)

/-- Whether a task may start the seed at the head of its buffer. -/
def seedMay (task : Task) : Prop := task.cutting = false ∧ task.st = .ready ∧ seedMode task = true ∧ ep0Busy task = false

include htask

theorem seedStartMove_busy (h : ¬seedMay task) : seedStartMove c t s = s := by
  unfold seedStartMove
  rw [htask]
  refine if_pos ?_
  by_contra hc
  refine h ?_
  simpa [seedMay, and_assoc] using hc

include hb

theorem seedStartMove_may (h : seedMay task) : seedStartMove c t s = if isMatrixSeed b && !task.seed.leave then
    (if task.seed.asked then s
      else askLeave (s.setTask c t { task with seed := { task.seed with asked := true } }) (dieOfCore c) ⟨4, prioOf s task.job, c, t, 3, 0, none, 0⟩)
    else s := by
  unfold seedStartMove
  rw [htask]
  refine (if_neg (by simpa [seedMay, and_assoc] using h)).trans ?_
  rw [hb]

end Seed

/-- A seed's request for leave. -/
theorem askLeave_setTask (s : State) (c t weight prio chain seq : Nat) (task : Task) :
    let u := askLeave (s.setTask c t task) (dieOfCore c) ⟨weight, prio, c, t, chain, seq, none, 0⟩
    u = { s with cores := u.cores, dies := u.dies } ∧ u.task? c t = some task ∧
      (u.die (dieOfCore c)).leaves = (s.die (dieOfCore c)).leaves ++ [⟨weight, prio, c, t, chain, seq, none, (s.core c).refTime⟩] := by
  intro u
  refine ⟨rfl, State.task_setTask_self s c t task, ?_⟩
  refine (leaves_askLeave ..).trans ?_
  rw [refTime_setTask]
  rfl

end Sys2Proof.Machine
end

section
/-! PROOFS. What the moves of a card come to, as O50 says it (R204, R206, R291, R293, R295 to R298). -/

namespace Sys2Proof.Machine

theorem usesArray_iff (k : Card) : usesArray k = true ↔ k.op = 0xB8 ∨ k.op = 0xB9 ∨ k.op = 0xC0 ∨ (k.op = 0xBF ∧ k.bank < mcM k.card) := by
  simp [usesArray, or_assoc]

section Cards
variable {s : State} {c t seq : Nat} {task : Task} {k : Card} (htask : s.task? c t = some task)
include htask

/-! The start of a matrix card. -/

section Matrix
variable (hk : cardOf task 0 seq = some k)
include hk

/-- The bank half of a card boards, once its channels have room. -/
theorem startBank_boarded (hb : k.bank ≠ 0) (hd : k.bankDone = false) (ht : k.ticket = none) {r : Rider} {m : State}
    (hp : prepareBank s c t task k.card (some k.ty) k.bank = (.ok r, m)) (hroom : roomNow m task.job (r.chans.map Prod.fst) 1 1 = true) :
    ∃ v y, startBank s c t task k = some v ∧ v.rider? (riderKey r.part (m.partn r.part).tickets) = some y ∧ y.op = r.op ∧ y.sub = 1 ∧ y.seq = seq ∧
      y.chans = r.chans ∧ (r.part = task.part → cardAt v c t 0 seq = some { k with ticket := some (riderKey r.part (m.partn r.part).tickets) }) := by
  have hm : Looks s m := Looks.of_snd hp (looks_prepareBank ..)
  obtain ⟨⟨y, hy, hop, hsub, hyseq, hchans⟩, hcard⟩ := bankBoarded_spec hm ((cardAt_eq htask 0 seq).trans hk) (seq_of_cardOf hk) task.part r
  refine ⟨_, y, startBank_boards hb hd ht hp hroom, hy, hop, hsub, hyseq, hchans, fun hpart => ?_⟩
  rw [hpart]
  rwa [hpart] at hcard

variable (ho : isMatrixOp k.op = true) (hcut : task.cutting = false) (hst : k.st = .waiting) (hturn : chainTurn task k = true)
  (hedge : edgesClear s c task.part k = true) (hdrain : storesDrained s c t k.stamp = true)
include ho hcut hst hturn hedge hdrain

theorem cardStart_unboarded (hb : startBank s c t task k = none) : exec (.cardStart c t 0 seq) s = .next s := by
  rw [cardStart_matrix htask hk ho hcut, startMatrix_unboarded hst hturn hedge hdrain hb]

variable {m : State} {k' : Card} (hb : startBank s c t task k = some m) (hk' : cardAt m c t 0 seq = some k')
include hb hk'

theorem cardStart_starts (h : ¬(usesArray k' = true ∧ k'.leave = false)) : exec (.cardStart c t 0 seq) s = .next (putCard m c t 0 { k' with
    st := .started
    stalls := []
    recs := if k'.recs = [] then snapRecs m c k' else k'.recs
    ticket := none
    status := k'.status ||| (if k'.op = 0xBF then BitVec.ofNat 32 ((if 0 < k'.bank then 4 else 0) + (if k'.bank < mcM k'.card then 8 else 0)) else 0) }) := by
  have hseq := seq_of_cardOf hk
  rw [cardStart_matrix htask hk ho hcut, startMatrix_starts hst hturn hedge hdrain hb (by rwa [hseq]) h]
  simp only [List.isEmpty_iff]

theorem cardStart_asked (ha : usesArray k' = true) (hl : k'.leave = false) (hasked : k'.asked = true) : exec (.cardStart c t 0 seq) s = .next m := by
  have hseq := seq_of_cardOf hk
  rw [cardStart_matrix htask hk ho hcut, startMatrix_asks hst hturn hedge hdrain hb (by rwa [hseq]) ha hl, if_pos hasked]

theorem cardStart_asks (ha : usesArray k' = true) (hl : k'.leave = false) (hasked : k'.asked = false) : exec (.cardStart c t 0 seq) s =
    .next (askLeave (putCard m c t 0 { k' with asked := true }) (dieOfCore c) ⟨4, prioOf m task.job, c, t, 0, seq, none, 0⟩) := by
  have hseq := seq_of_cardOf hk
  rw [cardStart_matrix htask hk ho hcut, startMatrix_asks hst hturn hedge hdrain hb (by rwa [hseq]) ha hl, if_neg (by simp [hasked]), seq_of_cardAt hk']

end Matrix

/-! The start of an engine card. -/

section Engine
variable (hk : cardOf task 2 seq = some k) (ho : isEngineOp k.op = true) (hcut : task.cutting = false) (hst : k.st = .waiting)
  (hedge : edgesClear s c task.part k = true) (hdrain : storesDrained s c t k.stamp = true)
include hk ho hcut hst hedge hdrain

theorem cardStart_engine_asked (hop : k.op ≠ 0xD8) (hl : k.leave = false) (hasked : k.asked = true) : exec (.cardStart c t 2 seq) s = .next s := by
  rw [cardStart_engine htask hk ho hcut, startEngine_asks hst hedge hdrain hop hl, if_pos hasked]

theorem cardStart_engine_asks (hop : k.op ≠ 0xD8) (hl : k.leave = false) (hasked : k.asked = false) : exec (.cardStart c t 2 seq) s =
    .next (askLeave (putCard s c t 2 { k with asked := true }) (dieOfCore c) ⟨2, prioOf s task.job, c, t, 2, seq, none, 0⟩) := by
  rw [cardStart_engine htask hk ho hcut, startEngine_asks hst hedge hdrain hop hl, if_neg (by simp [hasked]), seq_of_cardOf hk]

/-- A start whose boarding fails withholds the card for its generator. -/
def startWithheld (s : State) (c t seq gen : Nat) (e : FaultInfo) : Prop :=
  ∃ u y x, exec (.cardStart c t 2 seq) s = .next u ∧ cardAt u c t 2 seq = some y ∧ y.st = .withheld ∧ y.fault = some x ∧
    x.cls = e.cls ∧ x.src = 1 ∧ x.gen = gen ∧ x.iter = 0 ∧ x.addr = e.addr

variable (hgo : k.op = 0xD8 ∨ k.leave = true)
include hgo

theorem cardStart_reader_fails {e : FaultInfo} {v : State} (hr : readerFor (targetLines s c task k).2 c task (sourceLines s c task k).1 = (.error e, v))
    (he : e.cls ≠ notYet.cls) : startWithheld s c t seq 0 e := by
  have hlooks : Looks s v := (looks_targetLines s c task k).trans (Looks.of_snd hr (looks_readerFor ..))
  have hat : cardAt v c t 2 seq = some k := (hlooks.cardAt c t 2 seq).trans ((cardAt_eq htask 2 seq).trans hk)
  have hseq := seq_of_cardOf hk
  refine ⟨afterRow v c t 2 (freshCard s c k) (rowErr e 0 0 v), withheldFor (freshCard s c k) 2 e 0 0, _, ?_,
    withheld_afterRow he hat hseq, rfl, rfl, rfl, rfl, rfl, rfl, rfl⟩
  rw [cardStart_engine htask hk ho hcut, startEngine_reader_fails hst hedge hdrain hgo hr]

variable {rd : Option Nat} {v : State} (hr : readerFor (targetLines s c task k).2 c task (sourceLines s c task k).1 = (.ok rd, v))
include hr

theorem cardStart_writer_fails {e : FaultInfo} {w : State} (hw : writerFor v c task (targetLines s c task k).1 = (.error e, w))
    (he : e.cls ≠ notYet.cls) : startWithheld s c t seq 2 e := by
  have hlooks : Looks s (dropCardRiders w { freshCard s c k with ticket := rd }) := (looks_targetLines s c task k).trans
    ((Looks.of_snd hr (looks_readerFor ..)).trans ((Looks.of_snd hw (looks_writerFor ..)).trans (looks_dropCardRiders ..)))
  have hat : cardAt (dropCardRiders w { freshCard s c k with ticket := rd }) c t 2 seq = some k :=
    (hlooks.cardAt c t 2 seq).trans ((cardAt_eq htask 2 seq).trans hk)
  have hseq := seq_of_cardOf hk
  refine ⟨afterRow w c t 2 (freshCard s c k) (rowErr e 2 0 (dropCardRiders w { freshCard s c k with ticket := rd })),
    withheldFor (freshCard s c k) 2 e 2 0, _, ?_,
    withheld_afterRow he hat hseq, rfl, rfl, rfl, rfl, rfl, rfl, rfl⟩
  rw [cardStart_engine htask hk ho hcut, startEngine_writer_fails hst hedge hdrain hgo hr hw]

theorem cardStart_engine_starts {wr : Option Nat} {w : State} (hw : writerFor v c task (targetLines s c task k).1 = (.ok wr, w)) :
    exec (.cardStart c t 2 seq) s = .next (putCard w c t 2 { freshCard s c k with ticket := rd, deposit := wr, boarded := true }) := by
  rw [cardStart_engine htask hk ho hcut, startEngine_starts hst hedge hdrain hgo hr hw]

end Engine

/-! The completion of a card that may have to release its scope first. -/

/-- A completion after the release of its scope: the fences go first, and the card waits until they are complete. -/
def releaseThen (s : State) (c t : Nat) (k : Card) (ends : State → Prop) (p : Prop) : Prop :=
  (sendsFences s k → ends (putCard s c t 2 { k with fences := some (pathSwitches s) })) ∧
    (¬sendsFences s k → ¬scopeReleased s k → ends s) ∧ (scopeReleased s k → p)

omit htask in
theorem releaseThen_of {ends : State → Prop} {p : Prop} (herr : ∀ v, cardReleased c t 2 k s = .error v → ends v) (hok : cardReleased c t 2 k s = .ok s → p) :
    releaseThen s c t k ends p :=
  ⟨fun h => herr _ (cardReleased_fences h), fun h h' => herr _ (cardReleased_waits h h'), fun h => hok (cardReleased_done h)⟩

omit htask in
/-- A card that is not ready to complete stays as it is, so that a card need only be followed once it is. -/
theorem completeEngine_stays (h : k.st = .started → writerDone s k = true → completeEngine c t task k s = s) : completeEngine c t task k s = s := by
  by_cases hready : k.st = .started ∧ writerDone s k = true
  · exact h hready.1 hready.2
  · exact completeEngine_unready (by simpa [or_iff_not_imp_left] using hready)

/-! The completion of a copy. -/

section Complete
variable (hst : k.st = .started) (hdep : writerDone s k = true)
include hst hdep

section Copy
variable (ho : k.op = 0xD8) (hprog : unitCount (cardRec (s.core c) k (ecSrec k.card)) ≤ k.prog) (hr : cardReleased c t 2 k s = .ok s)
include ho hprog hr

theorem completeCopy_counted {w : MemRun} {old : Nat} (hw : k.cwHeld = some (w, old)) : let u := completeEngine c t task k s
    completedAs u c t 2 k k.status ∧ bytesWritten s u w.view w.key 4 (byteOf ((old + 1) % 2 ^ 32)) := by
  intro u
  have hu : u = _ := completeEngine_copy_done hst hdep ho hprog hr (copyWord_held hw)
  rw [hu]
  exact copyDone_counted htask w old

variable (hn : k.cwHeld = none)
include hn

theorem completeCopy_plain (hcw : ecCw k.card = false) : let u := completeEngine c t task k s
    completedAs u c t 2 k k.status ∧ sameMemory s u := by
  intro u
  have hu : u = _ := completeEngine_copy_done hst hdep ho hprog hr (copyWord_unasked hn hcw)
  rw [hu]
  exact cardDone htask 0 k

variable (hcw : ecCw k.card = true) {w : MemRun} {rest : List MemRun} {v : State}
  (hd : directKeys c task.part needWord (ecCwaddr k.card) 4 s = (.ok (w :: rest), v))
include hcw hd

omit htask in
theorem completeCopy_waits (h : cwOpen v w 3 = false) : completeEngine c t task k s = s :=
  completeEngine_copy_stays hst hdep ho hprog hr (copyWord_waits hn hcw hd h)

theorem completeCopy_reads (hk : cardOf task 2 seq = some k) (h : cwOpen v w 3 = true) (hl : isLocal w.key = true) : let u := completeEngine c t task k s
    (∀ a, u.byte a = s.byte a) ∧ cardAt u c t 2 seq = some { k with cwHeld := some (w, viewRead v w.view w.key 4) } := by
  intro u
  obtain ⟨m, hm, hword⟩ := copyWord_reads (task := task) (t := t) hn hcw hd h hl
  have hu : u = _ := completeEngine_copy_stays hst hdep ho hprog hr hword
  rw [hu]
  refine ⟨fun a => (byte_putCard ..).trans (hm.byte a), ?_⟩
  have hseq := seq_of_cardOf hk
  exact cardAt_putCard_self ((hm.cardAt c t 2 seq).trans ((cardAt_eq htask 2 seq).trans hk)) hseq

end Copy

end Complete

end Cards

end Sys2Proof.Machine
end

section
/-! PROOFS. O50, assembled. -/

namespace Sys2Proof.Machine

/-- The bridge to the statement's own words for a card that starts. -/
theorem freshCard_eq (s : State) (c : Nat) (k : Card) : freshCard s c k =
    { k with st := .started, stalls := [], ticket := none, deposit := none, block := [], recs := if k.recs = [] then snapRecs s c k else k.recs } := by
  unfold freshCard
  simp only [List.isEmpty_iff]
  rfl

theorem targetLines_eq (s : State) (c : Nat) (task : Task) (k : Card) : targetLines s c task k =
    if (ecTocb k.card = true ∧ k.op = 0xD8) ∨ k.op = 0xDA then ([], (sourceLines s c task k).2)
    else sweptLines (quadOfCore c) task.part (cardRec ((dropCardRiders s k).core c) (freshCard s c k) (ecDrec k.card)) (sourceLines s c task k).2 := by
  unfold targetLines
  simp only [Bool.or_eq_true, Bool.and_eq_true, decide_eq_true_eq]

/-- Settles O50: each event is taken to the move that the model makes of it, and each move to the lemma that says what it comes to. -/
theorem engineEvents : Obligations.EngineEvents := by
  unfold Obligations.EngineEvents
  intro s c t
  refine ⟨fun task chain seq k htask hk => ⟨cardStart_over htask hk, ?cards, cardFault_kept htask hk,
      fun x hx htaken hcut hst hh => cardFault_taken htask hk hx htaken hcut hst hh, fun e m he => ?withheld⟩,
    fun q hq => congrArg Host.Outcome.next (tileTakeMove_unowned hq), fun q part ks m1 hp => ?take, fun q part n tt hp htt hn => ?run,
    fun d h => congrArg Host.Outcome.next (powerGrant_idle h), fun d r h => congrArg Host.Outcome.next (powerGrant_next h), fun d r h => nextLeave_first h,
    fun d n r hr h => congrArg Host.Outcome.next (forcedGrant_kept hr (.inl h)), fun d n r hr h => congrArg Host.Outcome.next (forcedGrant_kept hr (.inr h)),
    fun d n r hr h hno => ⟨_, congrArg Host.Outcome.next (forcedGrant_grants hr h hno), grantLeave_spec s d r⟩,
    fun d n h => congrArg Host.Outcome.next (forcedGrant_absent h),
    fun h => congrArg Host.Outcome.next (seedIntakeMove_empty h), fun l rest h hno => congrArg Host.Outcome.next (seedIntakeMove_dropped h hno),
    fun l rest j task h hfind => congrArg Host.Outcome.next (seedIntakeMove_taken h hfind), fun task b htask hb => ?seed⟩
  case withheld => exact if_neg (by simpa [waits] using he)
  case take =>
    intro x va m r good
    refine ⟨fun h => congrArg Host.Outcome.next (tileTakeMove_idle hp h), fun hsize hnew hd =>
      ⟨fun h => congrArg Host.Outcome.next (tileTakeMove_invalid hp hsize hnew hd h), fun h => ?_⟩⟩
    exact ⟨_, congrArg Host.Outcome.next (tileTakeMove_takes hp hsize hnew hd h), tileTaken_spec ..⟩
  case run =>
    intro runs clear
    have hruns : ∀ u, tileRun q n s = u → runs u := fun u hu => (cardRowMove_tile q t n s).trans hu
    refine ⟨fun h => hruns _ (tileRun_edges hp htt hn h), fun h hl ha => hruns _ ?_, fun h hl ha => ⟨_, hruns _ ?_, askTile_spec q n tt s⟩,
      fun h hl => ⟨fun e v hw => hruns _ (tileRun_error hp htt hn h hl hw), fun ps v hw => hruns _ (tileRun_ok hp htt hn h hl hw)⟩⟩
    · rw [tileRun_asks hp htt hn h hl, if_pos ha]
    · rw [tileRun_asks hp htt hn h hl, if_neg (by simp [ha])]
  case seed =>
    intro may waits
    have hmoves : ∀ u, seedStartMove c t s = u → exec (.seedStart c t) s = .next u := fun u hu => congrArg Host.Outcome.next hu
    refine ⟨fun h => hmoves _ (seedStartMove_busy htask h), fun h hw => hmoves _ ?_, fun h hw ha => hmoves _ ?_, fun h hw ha =>
      ⟨_, hmoves _ ?_, askLeave_setTask s c t 4 (prioOf s task.job) 3 0 { task with seed := { task.seed with asked := true } }⟩⟩
    · rw [seedStartMove_may htask hb h, if_neg (by simpa [waits] using hw)]
    · obtain ⟨hm, hl⟩ := hw
      rw [seedStartMove_may htask hb h, if_pos (by simp [hm, hl]), if_pos ha]
    · obtain ⟨hm, hl⟩ := hw
      rw [seedStartMove_may htask hb h, if_pos (by simp [hm, hl]), if_neg (by simp [ha])]
  case cards =>
    intro set at_ starts ends asks due completes fresh
    have hasks : ∀ (m : State) (k' : Card) (weight : Nat), exec (.cardStart c t chain seq) s = .next (askLeave (putCard m c t chain { k' with asked := true })
        (dieOfCore c) ⟨weight, prioOf m task.job, c, t, chain, seq, none, 0⟩) → asks m k' weight :=
      fun m k' weight h => ⟨_, h, askLeave_putCard m c t chain weight _ seq { k' with asked := true }⟩
    have hseq := seq_of_cardOf hk
    refine ⟨fun k' => putCard_eq htask chain k', fun ho hchain => ⟨cardStart_matrix_held htask hk ho, ?starts, ?done, ?waits⟩,
      fun ho hchain => ⟨cardStart_engine_held htask hk ho, ?asks, ?boards, ?completes⟩⟩
    case starts =>
      rintro ⟨hcut, -, hst, hedge, hdrain⟩ hturn
      subst hchain
      refine ⟨startBank_none_due, cardStart_unboarded htask hk ho hcut hst hturn hedge hdrain, fun hb hd ht r m hp =>
        ⟨startBank_full hb hd ht hp, startBank_boarded htask hk hb hd ht hp⟩, fun hb hd ht e m hp he hf => startBank_fails hb hd ht hp he hf, ?_⟩
      intro m k' hb hk' waits halves
      refine ⟨fun hw => ?_, fun hw ha => ?_, fun hw ha => ?_⟩
      · exact cardStart_starts htask hk ho hcut hst hturn hedge hdrain hb hk' (by rwa [usesArray_iff])
      · exact cardStart_asked htask hk ho hcut hst hturn hedge hdrain hb hk' ((usesArray_iff k').2 hw.1) hw.2 ha
      · exact hasks _ _ _ (cardStart_asks htask hk ho hcut hst hturn hedge hdrain hb hk' ((usesArray_iff k').2 hw.1) hw.2 ha)
    case done =>
      intro _ hst hre hrows hbank
      subst hchain hseq
      have hdone := (cardComplete_matrix htask hk ho).trans (congrArg Host.Outcome.next (completeMatrix_done hst hre hrows hbank))
      exact ⟨_, ⟨hdone, completedAs_finishCard htask 0 4 k⟩, sameMemory_finishCard s c t 0 4 k⟩
    case waits =>
      exact fun h => (cardComplete_matrix htask hk ho).trans (congrArg Host.Outcome.next (completeMatrix_waits h))
    case asks =>
      rintro ⟨hcut, -, hst, hedge, hdrain⟩ hop hl
      subst hchain
      exact ⟨cardStart_engine_asked htask hk ho hcut hst hedge hdrain hop hl,
        fun ha => hasks _ _ _ (cardStart_engine_asks htask hk ho hcut hst hedge hdrain hop hl ha)⟩
    case boards =>
      rintro ⟨hcut, -, hst, hedge, hdrain⟩ hgo m k' sl dl
      subst hchain
      have hk' : k' = freshCard s c k := (freshCard_eq s c k).symm
      have hsl : sl = sourceLines s c task k := by 
        rw [sourceLines, ← hk']
        rfl
      have hdl : dl = targetLines s c task k := by 
        rw [targetLines_eq, ← hk', ← hsl]
        rfl
      rw [hsl, hdl, hk']
      refine ⟨fun e v hr he => cardStart_reader_fails htask hk ho hcut hst hedge hdrain hgo hr he, fun rd v hr => ⟨fun hnil => ?_, fun key hrd => ?_,
        fun e w hw he => cardStart_writer_fails htask hk ho hcut hst hedge hdrain hgo hr hw he,
        fun wr w hw => ⟨cardStart_engine_starts htask hk ho hcut hst hedge hdrain hgo hr hw, fun hnil => ?_, fun key hwr => ?_⟩⟩⟩
      · rw [hnil] at hr
        exact readerFor_nil hr
      · rw [hrd] at hr
        exact readerFor_rider hr
      · rw [hnil] at hw
        exact writerFor_nil hw
      · rw [hwr] at hw
        exact writerFor_rider hw
    case completes =>
      intro settled released fences ready waitsOr counted far allDone
      subst hchain
      have hends : ∀ u, completeEngine c t task k s = u → ends u := fun u hu =>
        (cardComplete_engine htask hk ho).trans (congrArg Host.Outcome.next hu)
      have hstays : (k.st = .started → writerDone s k = true → completeEngine c t task k s = s) → ends s := fun h => hends s (completeEngine_stays h)
      subst hseq
      refine ⟨fun h => hends s (completeEngine_unready h), fun hop h => hstays fun hst hdep => completeEngine_copy_short hst hdep hop h,
        fun hready hop hprog => ?copy, fun hop h => hstays fun hst hdep => ?unwritten, fun hready hop hall => ?coll,
        fun hop h => hstays fun hst hdep => completeEngine_ring_open hst hdep hop h, fun hready hop hprog hunit => ?ring⟩
      case copy =>
        obtain ⟨-, hst, hdep⟩ := hready
        refine releaseThen_of (fun v hv => hends v (completeEngine_copy_error hst hdep hop hprog hv)) fun hr => ⟨fun w old hw => ?_, fun hn hcw => ?_,
          fun hn hcw w rest v hd => ⟨fun h => hends s (completeCopy_waits hst hdep hop hprog hr hn hcw hd h), fun h hl => ?_⟩⟩
        · obtain ⟨hkept, hword⟩ := completeCopy_counted htask hst hdep hop hprog hr hw
          exact ⟨_, ⟨hends _ rfl, hkept⟩, hword⟩
        · obtain ⟨hkept, hmem⟩ := completeCopy_plain htask hst hdep hop hprog hr hn hcw
          exact ⟨_, ⟨hends _ rfl, hkept⟩, hmem⟩
        · exact ⟨_, hends _ rfl, completeCopy_reads htask hst hdep hop hprog hr hn hcw hd hk h hl⟩
      case unwritten => rw [completeEngine_coll hst hdep hop, completeColl_unwritten h]
      case coll =>
        obtain ⟨-, hst, hdep⟩ := hready
        have hmove := completeEngine_coll (c := c) (t := t) (task := task) hst hdep hop
        refine releaseThen_of (fun v hv => hends v (hmove.trans (completeColl_error hall hv))) fun hr => ?_
        obtain ⟨hkept, hmem⟩ := collDone_spec htask hall hr
        exact ⟨_, ⟨hends _ hmove, hkept⟩, hmem⟩
      case ring =>
        obtain ⟨-, hst, hdep⟩ := hready
        obtain ⟨hkept, hmem, hrings⟩ := finishRing_spec s c t task k
        exact ⟨_, ⟨hends _ (completeEngine_ring hst hdep hop hprog hunit), hkept⟩, hmem, hrings⟩

end Sys2Proof.Machine
end

section
/-! PROOFS. Boarding: what a node makes of the rider that the checks of its card have made ready (R217 to R219, R226 to R234). -/

namespace Sys2Proof.Machine

/-! A rider enters (R218). -/

/-- The turn of a rider that has entered stands under the next ticket of its partition. -/
theorem enterRider_turn (s : State) (r : Rider) : ∃ y, (enterRider s r).2.rider? (riderKey r.part (s.partn r.part).tickets) = some y ∧
    y.seq = r.seq ∧ y.ticket = (s.partn r.part).tickets ∧ y.chans = r.chans ∧ y.standing = false ∧ y.card = r.card := by
  have hturn : ∃ y, (ticketed s r).rider? (riderKey r.part (s.partn r.part).tickets) = some y ∧
      y.seq = r.seq ∧ y.ticket = (s.partn r.part).tickets ∧ y.chans = r.chans ∧ y.standing = false ∧ y.card = r.card := by
    unfold ticketed takeTicket
    dsimp only
    split
    · exact ⟨_, State.rider_setRider_self .., rfl, rfl, rfl, rfl, rfl⟩
    · next hst => exact ⟨_, State.rider_setRider_self .., rfl, rfl, rfl, Bool.not_eq_true _ ▸ hst, rfl⟩
  rw [enterRider_eq]
  dsimp only
  split
  · exact hturn
  · exact hturn

theorem tickets_enterRider (s : State) (r : Rider) :
    ((enterRider s r).2.partn r.part).tickets = ((s.partn r.part).tickets + 1) % 2 ^ 64 := by
  have ht : (ticketed s r).partn r.part = { s.partn r.part with tickets := ((s.partn r.part).tickets + 1) % 2 ^ 64 } := by
    unfold ticketed takeTicket
    dsimp only
    split
    · exact State.partn_setPart_self ..
    · exact State.partn_setPart_self ..
  rw [enterRider_eq]
  dsimp only
  split
  · exact congrArg Part.tickets ht
  · exact congrArg Part.tickets ht

theorem joinChain_seq (task : Task) (op sub : Nat) (card : BitVec 512) (handler stand : Bool) :
    (joinChain task op sub card handler stand).2 = (chainOf task 1).tail + 1 :=
  congrArg Chain.tail (chainOf_appendCard ..)

/-! The step of a boarding node. -/

/-- The ticket of a rider that has joined chain 1, and the machine with it entered. -/
def boarded (m : State) (f : Foc) (op sub : Nat) (card : BitVec 512) (stand : Bool) (r : Rider) : Nat × State :=
  enterRider (m.setTask f.c f.t (joinChain f.task op sub card f.ph.handler stand).1) { r with seq := (chainOf f.task 1).tail + 1, handler := f.ph.handler }

/-- What a boarding node does with its rider, or with the check that has failed. -/
def boardingStep (s : State) (f : Foc) (ports : List Nat) (op sub : Nat) (card : BitVec 512) (stand : Bool) (slots pipes : Rider → Nat)
    (ready : Except FaultInfo Rider × State) : Host.Outcome State Fault Refusal :=
  match ready with
  | (.error e, u) => .next (nodeFault u f e)
  | (.ok r, m) =>
    if !roomNow m f.task.job (r.chans.map Prod.fst) (slots r) (pipes r) then .next s
    else
      let jc := joinChain f.task op sub card f.ph.handler stand
      let e := enterRider (m.setTask f.c f.t jc.1) { r with seq := jc.2, handler := f.ph.handler }
      .next (epFired e.2 f ports 0 (some (riderToken jc.2 e.1)))

section Step
variable {op sub : Nat} {stand : Bool} {w : EpW} {s : State} {f : Foc} {ops : List (Nat × Token)}

theorem fireBoard_eq (hr : epReady s f (withPred w.pm.toNat [0]) ops) : fireBoard op sub stand w s =
    if actsNull w.pm.toNat ops then .next (epFired s f (withPred w.pm.toNat [0]) 0 (some nullToken))
    else boardingStep s f (withPred w.pm.toNat [0]) op sub (tokAt ops 0).data stand slotsTaken pipesTaken
      (prepareRider s f.c f.t f.task.part op sub stand (tokAt ops 0).data) := by
  unfold fireBoard
  rw [hr.1]
  dsimp only
  rw [hr.2]
  rfl

theorem fireBmac_eq (hr : epReady s f (withPred w.pm.toNat [0]) ops) : fireBmac w s =
    if actsNull w.pm.toNat ops then .next (epFired s f (withPred w.pm.toNat [0]) 0 (some nullToken))
    else match matrixCheck s f.c 0xCD 0 0 (tokAt ops 0).data with
      | some e => .next (nodeFault s f e)
      | none => match prepareBank s f.c f.t f.task (tokAt ops 0).data none (mcM (tokAt ops 0).data) with
        | (.error e, u) => .next (if waits (some e) then s else nodeFault u f e)
        | (.ok r, m) => boardingStep s f (withPred w.pm.toNat [0]) 0xCD 0 (tokAt ops 0).data false (fun _ => 1) (fun _ => 1) (.ok r, m) := by
  unfold fireBmac
  rw [hr.1]
  dsimp only
  rw [hr.2]
  rfl

/-- A rider that has room joins chain 1 and takes the next ticket of its partition, and the node answers both. -/
theorem boardingStep_room {i : Instr} {ports : List Nat} {card : BitVec 512} {slots pipes : Rider → Nat} {r : Rider} {m : State}
    (hr : epReady s f ports ops) (hg : goodPorts ports) (hroom : roomNow m f.task.job (r.chans.map Prod.fst) (slots r) (pipes r) = true)
    (hexec : exec i s = boardingStep s f ports op sub card stand slots pipes (.ok r, m)) :
    epFires i s (boarded m f op sub card stand r).2 f (joinChain f.task op sub card f.ph.handler stand).1 ports 0
      (some (riderToken ((chainOf f.task 1).tail + 1) (m.partn r.part).tickets)) := by
  refine epFires_of_epFired hr hg ?_ (hexec.trans ?_)
  · rw [boarded, (looks_enterRider _ _).task, State.task_setTask_self]
  · simp only [boardingStep, hroom, Bool.not_true, Bool.false_eq_true, if_false, joinChain_seq]
    rfl

end Step

/-! The riders made ready (Table 11.7). -/

/-- What a card that passes its checks makes ready, of the kinds that have neither destination nor landing nor completion word. -/
theorem prepareRider_ready {s : State} {c t : Nat} {task : Task} (htask : s.task? c t = some task) {part op sub : Nat} {stand : Bool} {card : BitVec 512}
    (hop : op ≠ 0xCF) (hcard : cardCheck s c part op stand card = none)
    (hlines : (rangeLines (quadOfCore c) part (rcVbase card) (rangeNeed op) (rcLines card) s).1 = none)
    (hpad : operandBytes op card = 0 ∨ inWindow (rcSaddr card + operandBytes op card - 1) = true) (hcw : rcCw card = false)
    (hland : op = 0xC8 → rcLand card = false) (hroom : declaresRoom s task.job (if stand then 2 else 1) (if needsPipe op then 1 else 0) = true) :
    ∃ r, prepareRider s c t part op sub stand card = (.ok r, (rangeLines (quadOfCore c) part (rcVbase card) (rangeNeed op) (rcLines card) s).2.2) ∧
      r.op = (if stand then 0xD4 else op) ∧ r.sub = sub ∧ r.card = card ∧
      r.chans = byChannel (rangeLines (quadOfCore c) part (rcVbase card) (rangeNeed op) (rcLines card) s).2.1 ∧
      r.job = task.job ∧ r.rank = task.rank ∧ r.part = part ∧ r.standing = stand ∧ r.cw = none ∧ r.land = [] := by
  have hnoland : (op = 0xC8 && rcLand card) = false := by
    simpa using hland
  have hpad' : (operandBytes op card != 0 && !inWindow (rcSaddr card + operandBytes op card - 1)) = false := by
    rcases hpad with h | h <;> simp [h]
  unfold prepareRider
  rw [hcard]
  simp only [hop, hnoland, hcw, hpad', htask, hlines, hroom, cwordKey, Option.map_some, Option.getD_some, decide_false, Bool.false_and, if_false,
    Bool.false_eq_true, if_true, Bool.not_false, firstFailed, List.foldl_nil]
  exact ⟨_, rfl, rfl, rfl, rfl, rfl, rfl, rfl, rfl, rfl, rfl, rfl⟩

/-! The boarding nodes by instruction (Tables 11.3 and 11.6). -/

/-- The nodes that board a rider by the checks of Table 11.7, with opcode and SUB. -/
def boardForms (w : EpW) : List (Instr × Nat × Nat) :=
  [(.brd w, 0xC8, 0), (.bsum w, 0xC9, 0), (.bflt w, 0xCA, 0), (.bdep w, 0xCB, 0), (.bupdIadd w, 0xCC, 0), (.bupdFadd w, 0xCC, 1),
    (.bupdImin w, 0xCC, 2), (.bupdImax w, 0xCC, 3), (.bupdAnd w, 0xCC, 4), (.bupdOr w, 0xCC, 5), (.bupdXor w, 0xCC, 6), (.bupdSet w, 0xCC, 7),
    (.batt w, 0xCE, 0), (.bclone w, 0xCF, 0)]

/-- The nodes that board a standing rider. -/
def standForms (w : EpW) : List (Instr × Nat × Nat) := [(.bstandRd w, 0xC8, 0), (.bstandSum w, 0xC9, 1), (.bstandFlt w, 0xCA, 2), (.bstandAtt w, 0xCE, 3)]

theorem exec_boardForms (w : EpW) (s : State) : ∀ x ∈ boardForms w, exec x.1 s = fireBoard x.2.1 x.2.2 false w s := by
  simp only [boardForms, List.forall_mem_cons, List.not_mem_nil, false_implies, implies_true, and_true]
  exact ⟨rfl, rfl, rfl, rfl, rfl, rfl, rfl, rfl, rfl, rfl, rfl, rfl, rfl, rfl⟩

theorem exec_standForms (w : EpW) (s : State) : ∀ x ∈ standForms w, exec x.1 s = fireBoard x.2.1 x.2.2 true w s := by
  simp only [standForms, List.forall_mem_cons, List.not_mem_nil, false_implies, implies_true, and_true]
  exact ⟨rfl, rfl, rfl, rfl⟩

/-- Settles O33: each boarding node by its step, and a rider that has room by what it enters as. -/
theorem ridersBoard : Obligations.RidersBoard := by
  unfold Obligations.RidersBoard
  intro w s f ops ports card boards hr
  have hg : goodPorts ports := goodPorts_withPred (by decide) (by decide) _
  have hnull : ∀ {i : Instr}, exec i s = .next (epFired s f ports 0 (some nullToken)) → epAnswers i s f ports nullToken :=
    fun h => epFires_of_epFired hr hg (foc_task hr.1) h
  have hboards : ∀ (i : Instr) (op sub : Nat) (stand : Bool) (slots pipes : Rider → Nat) (ready : Except FaultInfo Rider × State),
      exec i s = boardingStep s f ports op sub card stand slots pipes ready → boards i op sub stand slots pipes ready := by
    intro i op sub stand slots pipes ready h
    obtain ⟨e | r, m⟩ := ready
    · exact h
    · dsimp only [boards]
      split
      · next hroom => exact h.trans (if_pos (by simp [hroom]))
      · next hroom =>
        exact ⟨joinChain_seq .., boardingStep_room hr hg (by simpa using hroom) h, tickets_enterRider .., enterRider_turn ..⟩
  have hform : ∀ {x : Instr × Nat × Nat} {stand : Bool}, exec x.1 s = fireBoard x.2.1 x.2.2 stand w s →
      if actsNull w.pm.toNat ops then epAnswers x.1 s f ports nullToken
      else boards x.1 x.2.1 x.2.2 stand slotsTaken pipesTaken (prepareRider s f.c f.t f.task.part x.2.1 x.2.2 stand card) := by
    intro x stand h
    rw [fireBoard_eq hr] at h
    split
    · next hn => exact hnull (h.trans (if_pos hn))
    · next hn => exact hboards _ _ _ _ _ _ _ (h.trans (if_neg hn))
  refine ⟨fun x hx => hform (exec_boardForms w s x hx), fun x hx => hform (exec_standForms w s x hx), ?_,
    fun op sub stand hop hcard hlines hpad hcw hland hroom => prepareRider_ready (foc_task hr.1) hop hcard hlines hpad hcw hland hroom⟩
  have hbmac : exec (.bmac w) s = fireBmac w s := rfl
  rw [fireBmac_eq hr] at hbmac
  split
  · next hn => exact hnull (hbmac.trans (if_pos hn))
  · next hn =>
    rw [if_neg hn] at hbmac
    split
    · next e he =>
      rw [he] at hbmac
      exact hbmac
    · next he =>
      rw [he] at hbmac
      dsimp only at hbmac
      split
      · next e u hbank =>
        rw [hbank] at hbmac
        split
        · next hwait => exact hbmac.trans (congrArg _ (if_pos (by simpa [waits] using hwait)))
        · next hwait => exact hbmac.trans (congrArg _ (if_neg (by simpa [waits] using hwait)))
      · next r u hbank =>
        rw [hbank] at hbmac
        exact hboards _ _ _ _ _ _ _ hbmac

end Sys2Proof.Machine
end

section
/-! PROOFS. The alighting of a rider in a core table out of order (R224, R228). -/

namespace Sys2Proof.Machine

/-- A `bsum` rider of job 0 and rank 0, boarded on core 0 and done on channel 0, where its kernel has emitted nothing. -/
def doneSum : Rider := { part := 0, ticket := 0, op := 0xC9, seq := 1, chans := [(0, { admitted := true })] }

/-- A state whose core table lists core 1 before core 0, each with a task of job 0 and rank 0; the rider's fold is still to be delivered. -/
def alightsOutOfOrder : State :=
  { State.reset with cores := [(1, { tasks := [(0, bareTask)] }), (0, { tasks := [(0, bareTask)] })], riders := [(0, doneSum)] }

/-- The rider's task is that of core 1, the first that the table lists. -/
theorem findTask_alightsOutOfOrder : findTask alightsOutOfOrder 0 0 = some (1, 0) := rfl

/-- The rider has no queued deliveries to make first. -/
theorem drainAll_alightsOutOfOrder : drainAll alightsOutOfOrder 0 doneSum = alightsOutOfOrder := rfl

/-- The buffer that its fold goes to, buffer 0 of core 0, has a slot free. -/
theorem deliverSlot_alightsOutOfOrder : (deliverSlot alightsOutOfOrder doneSum.core (rcCbn doneSum.card) (foldSlot doneSum) 0).isSome = true := by decide +kernel

/-- Its fold is delivered into a buffer of core 0, which is then listed first, so it completes in the chain of core 0's task and core 1's is
as it was. -/
theorem riderAlight_alightsOutOfOrder : (riderAlight 0 alightsOutOfOrder).task? 1 0 = some bareTask := by decide +kernel

/-- Refutes O49: in a state whose core table is not in rising order of its keys, the delivery of a fold lists the rider's core anew before its
task's, and the rider completes in the chain of another task of its job and rank. The clause on a rider of a task asks it of the task that was found
before the delivery; it says nothing of the order of the tables. -/
theorem not_sweepEvents : ¬ Obligations.SweepEvents := by
  unfold Obligations.SweepEvents
  intro h
  obtain ⟨-, -, -, -, -, -, halights, -⟩ := h alightsOutOfOrder 0 0
  obtain ⟨-, -, hdone⟩ := halights doneSum rfl
  obtain ⟨-, hends⟩ := hdone rfl rfl rfl (by decide) (by decide) rfl
  obtain ⟨-, -, hqueued⟩ := hends rfl doneSum rfl
  obtain ⟨-, hfold⟩ := hqueued (.inr (by decide))
  obtain ⟨v, hslot⟩ := Option.isSome_iff_exists.1 deliverSlot_alightsOutOfOrder
  obtain ⟨hcompletes, -⟩ := hfold v (fun _ => hslot) (fun hno => absurd ⟨.inl rfl, rfl⟩ hno)
  obtain ⟨u, ⟨hu, -, hchain⟩, -⟩ := hcompletes rfl
  obtain ⟨y, hy, hhist, -⟩ := hchain 1 0 bareTask findTask_alightsOutOfOrder rfl
  have hu' : riderAlight 0 alightsOutOfOrder = u := Host.Outcome.next.inj hu
  rw [← hu', riderAlight_alightsOutOfOrder, Option.some.injEq] at hy
  rw [← hy] at hhist
  cases hhist

end Sys2Proof.Machine
end

section
/-! PROOFS. `bcancel`, `bwait`, `cursor`, `bcfg` and `wdrive` by the answer, fault or feed that each comes to (R235 to R238, R243). -/

namespace Sys2Proof.Machine

/-! The steps of the nodes, their operands taken. -/

section Step
variable {w : EpW} {s : State} {f : Foc} {ops : List (Nat × Token)}

theorem fireCancel_eq (hr : epReady s f (withPred w.pm.toNat [0]) ops) : fireCancel w s =
    if actsNull w.pm.toNat ops then .next (epFired s f (withPred w.pm.toNat [0]) 0 (some nullToken))
    else match riderBySeq s f.task.job f.task.rank (laneVal (tokAt ops 0) 0 8) with
      | some (key, r) =>
        if cancellable r.op && !r.cancelled && (r.standing || !nothingOwed s key r) then
          let m := cancelRider s key
          .next (epFired (if r.standing then endStanding m key else m) f (withPred w.pm.toNat [0]) 0 (some (oneLane 1)))
        else .next (epFired s f (withPred w.pm.toNat [0]) 0 (some (oneLane 0)))
      | none => .next (epFired s f (withPred w.pm.toNat [0]) 0 (some (oneLane 0))) := by
  unfold fireCancel
  rw [hr.1]
  dsimp only
  rw [hr.2] <;> rfl

theorem fireWait_eq (hr : epReady s f (withPred w.pm.toNat [0]) ops) : fireWait w s =
    if actsNull w.pm.toNat ops then .next (epFired s f (withPred w.pm.toNat [0]) 0 (some nullToken))
    else if (chainOf f.task 1).tail < laneVal (tokAt ops 0) 0 8 then .next (nodeFault s f { cls := 0x05 })
    else match waitResult s f.task (laneVal (tokAt ops 0) 0 8) with
      | none => .next s
      | some d => .next (epFired (acquireAt s f.c 5) f (withPred w.pm.toNat [0]) 0
          (some (doneToken (laneVal (tokAt ops 0) 0 8) d.status.toNat d.misses d.chmask))) := by
  unfold fireWait
  rw [hr.1]
  dsimp only
  rw [hr.2] <;> rfl

/-- What `cursor` answers of a channel (R237). -/
def cursorToken (ch : Channel) (n : Nat) : Token :=
  laneToken 0x3F#16 fun l => [ch.cursor, ch.rev % 2 ^ 32, ch.rev / 2 ^ 32, ch.len, periodMax ch % 2 ^ 32, n].getD l 0

theorem fireCursor_eq (hr : epReady s f (withPred w.pm.toNat [0]) ops) : fireCursor w s =
    if actsNull w.pm.toNat ops then .next (epFired s f (withPred w.pm.toNat [0]) 0 (some nullToken))
    else if 384 ≤ (tokAt ops 0).lane 0 || (s.chan ((tokAt ops 0).lane 0)).owner != f.task.part then .next (nodeFault s f { cls := 0x0E })
    else .next (epFired s f (withPred w.pm.toNat [0]) 0 (some (cursorToken (s.chan ((tokAt ops 0).lane 0)) ((tokAt ops 0).lane 0)))) := by
  unfold fireCursor
  rw [hr.1]
  dsimp only
  rw [hr.2]
  rfl

/-- The rider that carries a kernel to every channel of a task's partition (R238). -/
def kernelRider (m : State) (f : Foc) (kid seq : Nat) (h : BitVec 128) (ws : List Word64) : Rider :=
  { part := f.task.part, ticket := 0, op := 0xD0, sub := kid, job := f.task.job, rank := f.task.rank, core := f.c, task := f.t, seq := seq
    chans := ((List.range 384).filter fun c => (m.chan c).owner = f.task.part).map fun c => (c, {})
    operand := h.toNat :: ws.map BitVec.toNat }

theorem fireBcfg_eq (hr : epReady s f (withPred w.pm.toNat [0]) ops) : let x := tokAt ops 0
    fireBcfg w s =
      if actsNull w.pm.toNat ops then .next (epFired s f (withPred w.pm.toNat [0]) 0 (some nullToken))
      else if laneVal x 0 8 / 2 ^ 57 != 0 || x.lane 2 / 16 != 0 || (x.data.extractLsb' 96 416 != 0) then .next (nodeFault s f { cls := 0x05 })
      else if laneVal x 0 8 % 2 ^ 57 % 16 != 0 then .next (nodeFault s f { cls := 0x02, addr := laneVal x 0 8 % 2 ^ 57 })
      else match loadImage true f.c f.task.part (laneVal x 0 8 % 2 ^ 57) s with
        | (.error e, m) => .next (nodeFault m f e)
        | (.ok (h, ws), m) =>
          let jc := joinChain f.task 0xD0 0 x.data f.ph.handler false
          let e := enterRider (m.setTask f.c f.t jc.1) (kernelRider m f (x.lane 2 % 16) jc.2 h ws)
          .next (epFired e.2 f (withPred w.pm.toNat [0]) 0 (some (riderToken jc.2 e.1))) := by
  intro x
  unfold fireBcfg
  rw [hr.1]
  dsimp only
  rw [hr.2]
  rfl

/-- The phase of a `wdrive` that has taken its operands. -/
def drivenPhase (f : Foc) (ports : List Nat) : Phase := setNode f.ph f.slot (advance f.nd ports)

theorem fireWdrive_eq (hr : epReady s f (withPred w.pm.toNat [0]) ops) : let ph := drivenPhase f (withPred w.pm.toNat [0])
    fireWdrive w s =
      if !isDeciding f.ph f.nd || actsNull w.pm.toNat ops then .next (fired s f ph)
      else match feedCardCheck f.task (tokAt ops 0).data with
        | some e => .next (nodeFault s f e)
        | none => match boardFeed (leaveFeed s f.c f.t) f.c f.t f.task (tokAt ops 0).data with
          | .error e => .next (if e.cls = notYet.cls then s else nodeFault s f e)
          | .ok none => .next s
          | .ok (some m) => .next (fired (joinFeed m f.c f.t (tokAt ops 0).data true) f { ph with wdrive := some (tokAt ops 0).data }) := by
  intro ph
  unfold fireWdrive
  rw [hr.1]
  dsimp only
  rw [hr.2]
  rfl

end Step

theorem goodPorts_ep (w : EpW) : goodPorts (withPred w.pm.toNat [0]) := goodPorts_withPred (by decide) (by decide) _

section Acts
variable {w : EpW} {s : State} {f : Foc} {ops : List (Nat × Token)} (hr : epReady s f (withPred w.pm.toNat [0]) ops)
include hr

/-- A node that answers and leaves the machine as it is. -/
theorem epAnswers_of_epFired {i : Instr} {x : Token} (h : exec i s = .next (epFired s f (withPred w.pm.toNat [0]) 0 (some x))) :
    epAnswers i s f (withPred w.pm.toNat [0]) x := epFires_of_epFired hr (goodPorts_ep w) (foc_task hr.1) h

/-- A null card acts on nothing but the node (R29, R66). -/
theorem controls_null (hn : actsNull w.pm.toNat ops = true) :
    ∀ i ∈ [Instr.bcancel w, .bwait w, .cursor w, .bcfg w], epAnswers i s f (withPred w.pm.toNat [0]) nullToken := by
  simp only [List.forall_mem_cons, List.not_mem_nil, false_implies, implies_true, and_true]
  exact ⟨epAnswers_of_epFired hr ((fireCancel_eq hr).trans (if_pos hn)), epAnswers_of_epFired hr ((fireWait_eq hr).trans (if_pos hn)),
    epAnswers_of_epFired hr ((fireCursor_eq hr).trans (if_pos hn)), epAnswers_of_epFired hr ((fireBcfg_eq hr).trans (if_pos hn))⟩

/-- A `wdrive` whose firing decides nothing, or whose card is null (R243). -/
theorem wdrive_idle (h : f.nd.iter + 1 ≠ phaseEnd f.ph ∨ actsNull w.pm.toNat ops = true) :
    firesFrom (.wdrive w) s s f (withPred w.pm.toNat [0]) id := by
  refine ⟨_, _, (fireWdrive_eq hr).trans (if_pos ?_), firedFrom_fired (foc_task hr.1) _, nodeFired_taken hr.1 (goodPorts_ep w) (heads_nonempty (epReady_heads hr))⟩
  rcases h with h | h <;> simp [isDeciding, h]

variable (hn : actsNull w.pm.toNat ops = false)
include hn

/-! `bcancel` (R235). -/

/-- A rider that can be cancelled is, and the node answers 1. -/
theorem bcancel_cancels {key : Nat} {r : Rider} (hfind : riderBySeq s f.task.job f.task.rank (laneVal (tokAt ops 0) 0 8) = some (key, r))
    (hkind : cancellable r.op = true) (hlive : r.cancelled = false) (howes : r.standing = true ∨ nothingOwed s key r = false) {task : Task}
    (htask : (if r.standing then endStanding (cancelRider s key) key else cancelRider s key).task? f.c f.t = some task) :
    epFires (.bcancel w) s (if r.standing then endStanding (cancelRider s key) key else cancelRider s key) f task (withPred w.pm.toNat [0]) 0 (some (oneLane 1)) := by
  refine epFires_of_epFired hr (goodPorts_ep w) htask ((fireCancel_eq hr).trans ((if_neg (by simp [hn])).trans ?_))
  rw [hfind]
  refine if_pos ?_
  rcases howes with h | h <;> simp [hkind, hlive, h]

/-- Any other number is answered 0. -/
theorem bcancel_none (h : ∀ key r, riderBySeq s f.task.job f.task.rank (laneVal (tokAt ops 0) 0 8) = some (key, r) →
    cancellable r.op = false ∨ r.cancelled = true ∨ (r.standing = false ∧ nothingOwed s key r = true)) :
    epAnswers (.bcancel w) s f (withPred w.pm.toNat [0]) (oneLane 0) := by
  refine epAnswers_of_epFired hr ((fireCancel_eq hr).trans ((if_neg (by simp [hn])).trans ?_))
  cases hfind : riderBySeq s f.task.job f.task.rank (laneVal (tokAt ops 0) 0 8) with
  | none => rfl
  | some e =>
    obtain ⟨key, r⟩ := e
    refine if_neg ?_
    rcases h key r hfind with h | h | ⟨h, h'⟩
    · simp [h]
    · simp [h]
    · simp [h, h']

/-! `bwait` (R236). -/

theorem bwait_faults (h : (chainOf f.task 1).tail < laneVal (tokAt ops 0) 0 8) : epFaults (.bwait w) s s f { cls := 0x05 } :=
  (fireWait_eq hr).trans ((if_neg (by simp [hn])).trans (if_pos h))

theorem bwait_stalls (h : laneVal (tokAt ops 0) 0 8 ≤ (chainOf f.task 1).tail) (hgoing : waitResult s f.task (laneVal (tokAt ops 0) 0 8) = none) :
    exec (.bwait w) s = .next s := by
  refine (fireWait_eq hr).trans ((if_neg (by simp [hn])).trans ((if_neg (Nat.not_lt.2 h)).trans ?_))
  rw [hgoing]

theorem bwait_answers (h : laneVal (tokAt ops 0) 0 8 ≤ (chainOf f.task 1).tail) {d : CardDone}
    (hdone : waitResult s f.task (laneVal (tokAt ops 0) 0 8) = some d) :
    epFires (.bwait w) s (forgetL1 s f.c) f f.task (withPred w.pm.toNat [0]) 0
      (some (doneToken (laneVal (tokAt ops 0) 0 8) d.status.toNat d.misses d.chmask)) := by
  refine epFires_of_epFired hr (goodPorts_ep w) ?_ ((fireWait_eq hr).trans ((if_neg (by simp [hn])).trans ((if_neg (Nat.not_lt.2 h)).trans ?_)))
  · exact (State.task_setCore_self ..).trans (foc_task hr.1)
  · rw [hdone]
    rfl

/-! `cursor` (R237). -/

theorem cursor_faults (h : 384 ≤ (tokAt ops 0).lane 0 ∨ (s.chan ((tokAt ops 0).lane 0)).owner ≠ f.task.part) : epFaults (.cursor w) s s f { cls := 0x0E } :=
  (fireCursor_eq hr).trans ((if_neg (by simp [hn])).trans (if_pos (by simpa using h)))

theorem cursor_answers (h : (tokAt ops 0).lane 0 < 384) (hown : (s.chan ((tokAt ops 0).lane 0)).owner = f.task.part) :
    epAnswers (.cursor w) s f (withPred w.pm.toNat [0]) (cursorToken (s.chan ((tokAt ops 0).lane 0)) ((tokAt ops 0).lane 0)) :=
  epAnswers_of_epFired hr ((fireCursor_eq hr).trans ((if_neg (by simp [hn])).trans (if_neg (by simp [hown, h]))))

/-! `wdrive` in its deciding firing (R243). -/

theorem exec_wdrive_deciding (hdec : f.nd.iter + 1 = phaseEnd f.ph) : exec (.wdrive w) s =
    match feedCardCheck f.task (tokAt ops 0).data with
    | some e => .next (nodeFault s f e)
    | none => match boardFeed (leaveFeed s f.c f.t) f.c f.t f.task (tokAt ops 0).data with
      | .error e => .next (if e.cls = notYet.cls then s else nodeFault s f e)
      | .ok none => .next s
      | .ok (some m) => .next (fired (joinFeed m f.c f.t (tokAt ops 0).data true) f
          { drivenPhase f (withPred w.pm.toNat [0]) with wdrive := some (tokAt ops 0).data }) :=
  (fireWdrive_eq hr).trans (if_neg (by simp [isDeciding, hdec, hn]))

/-- The task joins its feed, which stands or has been boarded. -/
theorem wdrive_joins (hdec : f.nd.iter + 1 = phaseEnd f.ph) (hsound : feedCardCheck f.task (tokAt ops 0).data = none) {m : State}
    (hfeed : boardFeed (leaveFeed s f.c f.t) f.c f.t f.task (tokAt ops 0).data = .ok (some m)) {task : Task}
    (htask : (joinFeed m f.c f.t (tokAt ops 0).data true).task? f.c f.t = some task) :
    ∃ t ph, exec (.wdrive w) s = .next t ∧ nodeFired f (withPred w.pm.toNat [0]) [] ph ∧
      FiredFrom (joinFeed m f.c f.t (tokAt ops 0).data true) f task t { ph with wdrive := some (tokAt ops 0).data } := by
  refine ⟨_, _, (exec_wdrive_deciding hr hn hdec).trans ?_, nodeFired_taken hr.1 (goodPorts_ep w) (heads_nonempty (epReady_heads hr)), firedFrom_fired htask _⟩
  rw [hsound]
  dsimp only
  rw [hfeed]
  rfl

/-! `bcfg` (R238). -/

/-- No bit of a kernel card is set but its address and KID. -/
def kernelCardSound (x : Token) : Prop := laneVal x 0 8 / 2 ^ 57 = 0 ∧ x.lane 2 / 16 = 0 ∧ x.data.extractLsb' 96 416 = 0

theorem bcfg_reserved (h : ¬kernelCardSound (tokAt ops 0)) : epFaults (.bcfg w) s s f { cls := 0x05 } := by
  refine (fireBcfg_eq hr).trans ((if_neg (by simp [hn])).trans (if_pos ?_))
  by_contra hc
  exact h (by simpa [kernelCardSound, and_assoc] using hc)

variable (hsound : kernelCardSound (tokAt ops 0))
include hsound

/-- The step of `bcfg` for a card whose bits are sound, its address in its own terms. -/
theorem fireBcfg_sound : exec (.bcfg w) s =
    if laneVal (tokAt ops 0) 0 8 % 16 ≠ 0 then .next (nodeFault s f { cls := 0x02, addr := laneVal (tokAt ops 0) 0 8 })
    else match loadImage true f.c f.task.part (laneVal (tokAt ops 0) 0 8) s with
      | (.error e, m) => .next (nodeFault m f e)
      | (.ok (h, ws), m) =>
        let jc := joinChain f.task 0xD0 0 (tokAt ops 0).data f.ph.handler false
        let e := enterRider (m.setTask f.c f.t jc.1) (kernelRider m f ((tokAt ops 0).lane 2) jc.2 h ws)
        .next (epFired e.2 f (withPred w.pm.toNat [0]) 0 (some (riderToken jc.2 e.1))) := by
  obtain ⟨haddr, hkid, hrest⟩ := hsound
  have hva : laneVal (tokAt ops 0) 0 8 % 2 ^ 57 = laneVal (tokAt ops 0) 0 8 := by omega
  have hk : (tokAt ops 0).lane 2 % 16 = (tokAt ops 0).lane 2 := by omega
  have hlt : laneVal (tokAt ops 0) 0 8 < 2 ^ 57 := by omega
  refine (fireBcfg_eq hr).trans ((if_neg (by simp [hn])).trans ((if_neg (by simpa [hkid, hrest] using hlt)).trans ?_))
  rw [hva, hk]
  simp only [bne_iff_ne]

theorem bcfg_misaligned (h : laneVal (tokAt ops 0) 0 8 % 16 ≠ 0) : epFaults (.bcfg w) s s f { cls := 0x02, addr := laneVal (tokAt ops 0) 0 8 } :=
  (fireBcfg_sound hr hn hsound).trans (if_pos h)

variable (halign : laneVal (tokAt ops 0) 0 8 % 16 = 0) {m : State}
include halign

theorem bcfg_unloaded {e : FaultInfo} (hload : loadImage true f.c f.task.part (laneVal (tokAt ops 0) 0 8) s = (.error e, m)) : epFaults (.bcfg w) s m f e := by
  refine (fireBcfg_sound hr hn hsound).trans ((if_neg (not_not.2 halign)).trans ?_)
  rw [hload]

theorem bcfg_loads {h : BitVec 128} {ws : List Word64}
    (hload : loadImage true f.c f.task.part (laneVal (tokAt ops 0) 0 8) s = (.ok (h, ws), m)) :
    let jc := joinChain f.task 0xD0 0 (tokAt ops 0).data f.ph.handler false
    let e := enterRider (m.setTask f.c f.t jc.1) (kernelRider m f ((tokAt ops 0).lane 2) jc.2 h ws)
    epFires (.bcfg w) s e.2 f jc.1 (withPred w.pm.toNat [0]) 0 (some (riderToken jc.2 e.1)) := by
  intro jc e
  refine epFires_of_epFired hr (goodPorts_ep w) ?_ ((fireBcfg_sound hr hn hsound).trans ((if_neg (not_not.2 halign)).trans ?_))
  · rw [(looks_enterRider _ _).task, State.task_setTask_self]
  · rw [hload]

end Acts

/-- A rider that asks no leave and is no standing one enters under the next ticket, and only the partition's counter changes beside. -/
theorem enterRider_plain {s : State} {r : Rider} (hask : riderAsks r = false) (hst : r.standing = false) : enterRider s r = ((s.partn r.part).tickets,
    (s.setPart r.part { s.partn r.part with tickets := ((s.partn r.part).tickets + 1) % 2 ^ 64 }).setRider (riderKey r.part (s.partn r.part).tickets)
      { r with ticket := (s.partn r.part).tickets, asked := false }) := by
  simp only [enterRider_eq, ticketed, takeTicket, hask, hst, Bool.false_eq_true, if_false]

theorem mem_kernelRider_chans (m : State) (f : Foc) (kid seq : Nat) (h : BitVec 128) (ws : List Word64) (k : Nat) :
    k ∈ (kernelRider m f kid seq h ws).chans.map Prod.fst ↔ k < 384 ∧ (m.chan k).owner = f.task.part := by
  simp [kernelRider, Function.comp_def]

/-- The machine in which a kernel has been boarded: only the issuing task, the partition's counter and the new rider differ. -/
theorem kernelBoarded (m : State) (f : Foc) (kid : Nat) (x : BitVec 512) (h : BitVec 128) (ws : List Word64) :
    let seq := (chainOf f.task 1).tail + 1
    let ticket := (m.partn f.task.part).tickets
    let u := (enterRider (m.setTask f.c f.t (joinChain f.task 0xD0 0 x f.ph.handler false).1) (kernelRider m f kid seq h ws)).2
    ∃ y, u = { m with riders := u.riders, parts := u.parts, cores := u.cores } ∧ onlyTask f.c f.t { u with cores := m.cores } u ∧
      (∀ k, k ≠ riderKey f.task.part ticket → u.rider? k = m.rider? k) ∧ (∀ k, k ≠ f.task.part → u.partn k = m.partn k) ∧
      u.rider? (riderKey f.task.part ticket) = some y ∧ y.op = 0xD0 ∧ y.sub = kid ∧ y.seq = seq ∧ y.operand = h.toNat :: ws.map BitVec.toNat ∧
      ∀ k, (k ∈ y.chans.map Prod.fst ↔ k < 384 ∧ (m.chan k).owner = f.task.part) := by
  intro seq ticket u
  have hu : u = ((m.setTask f.c f.t (joinChain f.task 0xD0 0 x f.ph.handler false).1).setPart f.task.part
      { m.partn f.task.part with tickets := (ticket + 1) % 2 ^ 64 }).setRider (riderKey f.task.part ticket)
      { kernelRider m f kid seq h ws with ticket := ticket, asked := false } :=
    congrArg Prod.snd (enterRider_plain rfl rfl)
  rw [hu]
  exact ⟨_, rfl, onlyTask_setTask .., fun k hk => tabFind_tabPut_ne _ _ hk, fun k hk => tabGet_tabPut_ne _ _ _ hk, State.rider_setRider_self .., rfl, rfl, rfl, rfl,
    mem_kernelRider_chans m f kid seq h ws⟩

end Sys2Proof.Machine
end

section
/-! PROOFS. What a rider aboard does to a line that passes: the acts of each kind, and the bytes and poison that its writes leave (R222, R226 to
R233). -/

namespace Sys2Proof.Machine

/-! The pass and what follows it (R211, R222, R234). -/

theorem looks_ite {p : Prop} [Decidable p] {s a b : State} (ha : Looks s a) (hb : Looks s b) : Looks s (if p then a else b) := by
  split
  · exact ha
  · exact hb

theorem looks_riderAdmit (key ch : Nat) (s : State) : Looks s (riderAdmit key ch s) := by
  have hadmit : ∀ r x, Looks s (admitAt s key ch r x) := by
    intro r x
    unfold admitAt
    dsimp only
    split
    · exact ⟨rfl, rfl, rfl⟩
    · exact ⟨rfl, rfl, rfl⟩
  unfold riderAdmit
  split
  · exact .refl s
  · split
    · exact .refl s
    · exact looks_ite (.refl s) (looks_ite (.refl s) (hadmit ..))

theorem looks_anchorsAt (s : State) (ch line : Nat) : Looks s (anchorsAt s ch line) := by
  refine looks_foldl (fun s e => ?_) _ s
  unfold boardAgain
  refine Looks.trans ?_ (looks_foldl (fun s a => looks_riderAdmit _ a.1 s) e.2.chans _)
  exact ⟨rfl, rfl, rfl⟩

theorem looks_moveCursor (s : State) (ch : Nat) : Looks s (moveCursor s ch) := by
  unfold moveCursor
  dsimp only
  split
  · exact ⟨rfl, rfl, rfl⟩
  · exact ⟨rfl, rfl, rfl⟩

/-- Where no error is latent a pass changes the bytes of memory by the acts of the riders aboard alone. -/
theorem pass_bytes {s : State} {n : Nat} (hslot : nextSlot (s.chan n) = .advancing) (hlat : s.latent = []) :
    let m := leaveCancelled { s with stamp := s.stamp + 1 } n
    ∃ t, exec (.pass n) s = .next t ∧ ∀ a, t.byte a = (passRiders m n (s.chan n).cursor (s.chan n).rev (aboard m n)).byte a := by
  intro m
  have hread : ∀ key len, readCheck m key len = m := readCheck_of_no_latent hlat
  have hpass : passMove n s = moveCursor (anchorsAt (passRiders m n (s.chan n).cursor (s.chan n).rev (aboard m n)) n (s.chan n).cursor) n := by
    unfold passMove
    dsimp only
    rw [if_neg (by simp [hslot])]
    change moveCursor (anchorsAt (passRiders (if _ then readCheck m _ _ else m) _ _ _ _) _ _) _ = _
    rw [hread, ite_self]
  refine ⟨_, congrArg Host.Outcome.next hpass, fun a => ?_⟩
  exact ((looks_anchorsAt ..).trans (looks_moveCursor ..)).byte a

/-! One rider at the pass of a line (R222, R231). -/

/-- The opcode by whose rules a rider acts: of a standing rider's turn that of its kind (Table 11.3). -/
def Rider.acts (r : Rider) : Nat := if r.op = 0xD4 then standKind r.sub else r.op

/-- A rider that was r, with x its share of a channel, once it has acted on one of its lines there as q with y: it has that line less to act on. -/
def actedAs (r : Rider) (x : RiderChan) (ch : Nat) (e : Nat × Nat) (rev slot : Nat) (q : Rider) (y : RiderChan) : Rider :=
  { q with chans := tabPut r.chans ch { y with todo := x.todo.filter fun t => t != e, lastRev := rev, lastAt := slot } }

theorem setRider_setRider (s : State) (k : Nat) (a b : Rider) : (s.setRider k a).setRider k b = s.setRider k b := by
  simp only [State.setRider, tabPut_tabPut]

section Pass
variable {s : State} {ch line rev key off : Nat} {r : Rider} {x : RiderChan} (hr : s.rider? key = some r) (hx : tabFind r.chans ch = some x)
include hr

theorem riderPass_held (hheld : cloneHolds s r.part r.ticket ch line = true) : riderPass s ch line rev key = s := by
  unfold riderPass
  rw [hr]
  exact if_pos hheld

variable (hfree : cloneHolds s r.part r.ticket ch line = false)
include hx hfree

section Acts
variable (hready : (x.dest.filter fun d => d.1 == line && (tabFind r.data d.2).isSome) = []) (hmine : (x.todo.filter fun e => e.1 == line) = [(line, off)])
include hready hmine

theorem riderPass_one : riderPass s ch line rev key = match actLine s key ch (linePa ch line) off rev with
    | none => s.setRider key { r with misses := r.misses + 1, status := r.status ||| 8 }
    | some v => match v.rider? key with
      | some q => v.setRider key (actedAs q (tabGet {} q.chans ch) ch (line, off) rev (v.chan ch).slot q (tabGet {} q.chans ch))
      | none => v := by
  have hx' : tabGet {} r.chans ch = x := by rw [tabGet, hx, Option.getD_some]
  unfold riderPass
  rw [hr]
  dsimp only
  rw [if_neg (by simp [hfree]), hx', hready]
  simp only [List.foldl_nil, List.isEmpty_nil, if_true, hmine, List.foldl_cons]
  cases actLine s key ch (linePa ch line) off rev with
  | none =>
    dsimp only
    rw [hr]
  | some v => rfl

theorem riderPass_misses (hact : actLine s key ch (linePa ch line) off rev = none) :
    riderPass s ch line rev key = s.setRider key { r with misses := r.misses + 1, status := r.status ||| 8 } := by
  rw [riderPass_one hr hx hfree hready hmine, hact]

/-- A rider that has acted, the machine being v but for it, was last at this place. -/
theorem riderPass_acts {v : State} {q : Rider} {y : RiderChan}
    (hact : actLine s key ch (linePa ch line) off rev = some (v.setRider key { q with chans := tabPut q.chans ch y }))
    (hq : q.chans = r.chans) (hy : y.todo = x.todo) (hv : v.chans = s.chans) :
    riderPass s ch line rev key = v.setRider key (actedAs r x ch (line, off) rev (s.chan ch).slot q y) := by
  have hslot : v.chan ch = s.chan ch := by rw [State.chan, hv, State.chan]
  rw [riderPass_one hr hx hfree hready hmine, hact]
  dsimp only
  rw [State.rider_setRider_self]
  dsimp only
  rw [setRider_setRider, tabGet_tabPut_self]
  simp only [actedAs, tabPut_tabPut, hq, hy, ← hslot]
  rfl

end Acts

/-- A rider with one destination line that it can write now writes it, and has no line of its own there. -/
theorem riderPass_writes (hready : (x.dest.filter fun d => d.1 == line && (tabFind r.data d.2).isSome) = [(line, off)])
    (hmine : (x.todo.filter fun e => e.1 == line) = []) : riderPass s ch line rev key =
      (writeClone s key (linePa ch line) off).setRider key { r with chans := tabPut r.chans ch { x with dest := x.dest.filter fun d => d != (line, off) } } := by
  have hx' : tabGet {} r.chans ch = x := by rw [tabGet, hx, Option.getD_some]
  have hdest : ∀ d : Nat × Nat, (!([(line, off)].contains d)) = (d != (line, off)) := fun d => by
    rw [Bool.eq_iff_iff]
    simp
  unfold riderPass
  rw [hr]
  dsimp only
  rw [if_neg (by simp [hfree]), hx', hready]
  simp only [List.foldl_nil, hmine, List.foldl_cons, hdest]
  rfl

end Pass

/-! The acts of riders by kind (R226 to R233). -/

section Act
variable {s : State} {ch pa rev key off : Nat} {r : Rider} {x : RiderChan} (hr : s.rider? key = some r) (hx : tabFind r.chans ch = some x) (hfeed : r.kind ≠ 3)
include hr hx hfeed

/-- What a rider that is no feed does to a line, its rider and its share of the channel found. -/
theorem actLine_eq : actLine s key ch pa off rev =
    let bad := lineBad s pa
    let line := lineOf s (r.view off) pa
    let put := fun (v : State) (q : Rider) (y : RiderChan) => some (v.setRider key { q with chans := tabPut q.chans ch y })
    let held := { r with data := tabPut r.data off line }
    if r.kind = 1 && r.acts = 0xC8 || r.acts = 0xCD then
      put s (if bad = 0 then held else { markErr held ch (r.acts == 0xCD) with bad := r.bad ++ [(off, if r.acts = 0xCD then 255 else bad)] }) x
    else if r.acts = 0xC8 then
      if rcLand r.card then
        let runs := tabGet [] r.land off
        put (restartAtomics (writeKeys (podSendRuns s runs) runs (if bad = 0 then line else poisonLine r.landFmt) (bad != 0)) runs)
          (if bad = 0 then r else markErr r ch true) x
      else if 16 ≤ x.queue.length then none
      else put s (if bad = 0 then r else markErr r ch true)
        { x with queue := x.queue ++ [(tagBytes off ch [0xFFFF, 0, 0, 0] (bad != 0) rev + (if bad = 0 then line * 2 ^ 512 else 0), bad, true)] }
    else if isKernelOp r.acts then
      if r.acts = 0xCA && 16 ≤ x.queue.length then none
      else
        let k := kernelRun 64 (kernelFeed (x.kernel.getD (kernelStart ⟨0, []⟩ 0)) (if bad = 0 then some line else none) r.operand) 0
        let q := { r with flags := r.flags ||| k.2 }
        put s (if bad = 0 then q else markErr q ch false) (kernelDrain q r.acts ch 8 { x with kernel := some k.1, fed := x.fed ++ [⟨off, rev, bad != 0⟩] })
    else if r.acts = 0xCB then put (poisonSectors (writeView s (r.view off) pa 256 (r.operand.getD off 0) false) pa (lostSectors r off)) r x
    else if r.acts = 0xCC then
      if bad = 0 then put (writeView s (r.view off) pa 256 (updLine r.sub line (r.operand.headD 0)) false) r x else put s (markErr r ch false) x
    else if r.acts = 0xCF then put s (if bad = 0 then held else { markErr held ch true with bad := r.bad ++ [(off, 255)] }) x
    else some s := by
  unfold actLine
  rw [hr]
  dsimp only
  rw [hx]
  dsimp only
  rw [if_neg hfeed]
  rfl

end Act

/-! Poison after a write of a whole line (R361). -/

/-- Sectors set in turn: each has the bit that was set, where no bit depends on another. -/
theorem tabGet_foldl_tabSet (c : Nat → Bool) (b : Nat) (g : List (Nat × Bool) → Nat → Bool) (l : List (Nat × Bool)) {n : Nat}
    (hg : ∀ m i, i < n → g m i = c i) {i : Nat} (hi : i < n) :
    tabGet false ((List.range n).foldl (fun m i => tabSet false m (b + i) (g m i)) l) (b + i) = c i := by
  induction n with
  | zero => omega
  | succ n ih =>
    rw [List.range_succ, List.foldl_append, List.foldl_cons, List.foldl_nil, tabGet_tabSet]
    by_cases h : i = n
    · rw [if_pos (by omega), hg _ _ (by omega), h]
    · rw [if_neg (by omega)]
      exact ih (fun m i hi => hg m i (by omega)) (by omega)

/-- The sectors that a mask names set in turn. -/
theorem tabGet_foldl_mask (m b : Nat) (l : List (Nat × Bool)) {n i : Nat} (hi : i < n) :
    tabGet false ((List.range n).foldl (fun l i => if m.testBit i then tabSet false l (b + i) true else l) l) (b + i) =
      (m.testBit i || tabGet false l (b + i)) := by
  have hrest : ∀ k, k ≤ i → tabGet false ((List.range k).foldl (fun l i => if m.testBit i then tabSet false l (b + i) true else l) l) (b + i) = tabGet false l (b + i) := by
    intro k hk
    induction k with
    | zero => rfl
    | succ k ih =>
      rw [List.range_succ, List.foldl_append, List.foldl_cons, List.foldl_nil, ← ih (by omega)]
      split
      · rw [tabGet_tabSet, if_neg (by omega)]
      · rfl
  induction n with
  | zero => omega
  | succ n ih =>
    rw [List.range_succ, List.foldl_append, List.foldl_cons, List.foldl_nil]
    by_cases h : i = n
    · subst h
      split
      · next ht => rw [tabGet_tabSet, if_pos rfl, ht, Bool.true_or]
      · next ht => rw [hrest i le_rfl, Bool.eq_false_iff.2 ht, Bool.false_or]
    · rw [← ih (by omega)]
      split
      · rw [tabGet_tabSet, if_neg (by omega)]
      · rfl

section Sectors
variable (s : State) (view x ch line : Nat) (p : Bool) {i : Nat} (hi : i < 8)
include hi

/-- A line written whole has the poison it is written with in each of its sectors. -/
theorem sector_writeView : tabGet false (writeView s view (linePa ch line) 256 x p).poison (linePa ch line / 32 + i) = p := by
  unfold writeView writeRun poisonAfter
  dsimp only
  rw [if_neg (by decide), show (linePa ch line + 256 - 1) / 32 + 1 - linePa ch line / 32 = 8 by unfold linePa; omega]
  refine tabGet_foldl_tabSet (fun _ => p) _ _ _ (fun m i hi => ?_) hi
  have hwhole : linePa ch line ≤ 32 * (linePa ch line / 32 + i) ∧ 32 * (linePa ch line / 32 + i) + 32 ≤ linePa ch line + 256 := by
    unfold linePa
    omega
  simp [hwhole]

theorem sector_poisonSectors (pa m : Nat) : tabGet false (poisonSectors s pa m).poison (pa / 32 + i) = (m.testBit i || tabGet false s.poison (pa / 32 + i)) :=
  tabGet_foldl_mask m (pa / 32) s.poison hi

end Sectors

/-! The words of an update (R230). -/

theorem updWord_lt (sub : Nat) {a o : Nat} (ha : a < 2 ^ 32) (ho : o < 2 ^ 32) : updWord sub a o < 2 ^ 32 := by
  unfold updWord
  split
  · exact Nat.mod_lt _ (Nat.two_pow_pos _)
  · exact roundFloat_lt (t := 0) rfl _ _ _
  · exact wrapTo_lt (typeWidth 11) _
  · exact wrapTo_lt (typeWidth 11) _
  · exact Nat.and_lt_two_pow _ ho
  · exact Nat.or_lt_two_pow ha ho
  · exact Nat.xor_lt_two_pow ha ho
  · exact ho

/-- The rule of an update by its code. -/
theorem updWord_eq (sub a o : Nat) : updWord sub a o =
    ([(a + o) % 2 ^ 32, (faddBits 0 0 a o).1, encodeInt 11 (min (decodeInt 11 a) (decodeInt 11 o)), encodeInt 11 (max (decodeInt 11 a) (decodeInt 11 o)),
      a &&& o, a ||| o, a ^^^ o].getD sub o) := by
  rcases sub with _ | _ | _ | _ | _ | _ | _ | n <;> rfl

/-- Each word of an updated line. -/
theorem bitsOf_updLine (sub line o : Nat) {j : Nat} (hj : j < 64) :
    bitsOf (updLine sub line o) (32 * j) 32 = updWord sub (bitsOf line (32 * j) 32) (bitsOf o (32 * j) 32) := by
  unfold updLine
  rw [Nat.mul_comm 32 j, bitsOf_packElems]
  simp only [List.getD_eq_getElem?_getD, List.getElem?_map, List.getElem?_range hj, Option.map_some, Option.getD_some]
  rw [Nat.mul_comm 32 j]
  exact Nat.mod_eq_of_lt (updWord_lt sub (bitsOf_lt ..) (bitsOf_lt ..))

/-! A line given to a kernel (R227). -/

/-- What one array of a tile takes of a line and its operand. -/
def feedNode (line : Option Nat) (operand : List Nat) (ph : Phase) (q : Nat) : Phase :=
  let slot := 6 * q
  let x := wordAt ph slot
  let slots := blockSlots ph.words
  let needs := stageNeeds (wordOp x) (readStage x)
  let put := fun (ph : Phase) (p : Nat) (v : Token) =>
    let nd := nodeOf ph slot
    setNode ph slot (setPortQ nd p (portQ nd p ++ [v]))
  let raw := fun (v : Nat) => (⟨BitVec.ofNat 512 v, 0xFFFF#16, false⟩ : Token)
  if x = 0 then ph
  else
    let ph := if needs.contains 0 && producers slots (4 * slot) = 0 then
        put ph 0 (match line with
          | some v => raw (bitsOf v (512 * q) 512)
          | none => nullToken) else ph
    if needs.contains 1 && producers slots (4 * slot + 1) = 0 then
      put ph 1 (match operand[q]? with
        | some v => raw v
        | none => nullToken) else ph

theorem kernelFeed_eq (ph : Phase) (line : Option Nat) (operand : List Nat) : kernelFeed ph line operand = (List.range 4).foldl (feedNode line operand) ph := by
  unfold kernelFeed
  refine congrArg (fun g => List.foldl g ph (List.range 4)) (funext fun ph => funext fun q => ?_)
  unfold feedNode
  cases line <;> cases operand[q]? <;> rfl

theorem feedNode_words (line : Option Nat) (operand : List Nat) (ph : Phase) (q : Nat) : (feedNode line operand ph q).words = ph.words := by
  unfold feedNode
  dsimp only
  split_ifs <;> rfl

theorem nodeOf_feedNode_ne (line : Option Nat) (operand : List Nat) (ph : Phase) {q n : Nat} (h : n ≠ 6 * q) :
    nodeOf (feedNode line operand ph q) n = nodeOf ph n := by
  unfold feedNode
  dsimp only
  split_ifs
  · rfl
  · rw [nodeOf_setNode_ne _ _ h, nodeOf_setNode_ne _ _ h]
  · exact nodeOf_setNode_ne _ _ h
  · exact nodeOf_setNode_ne _ _ h
  · rfl

/-- A line's quarter joins the queue of port a of its node, where that port is fed. -/
theorem portQ_feedNode (line : Option Nat) (operand : List Nat) (ph : Phase) (q : Nat) (hw : wordAt ph (6 * q) ≠ 0)
    (hneeds : (stageNeeds (wordOp (wordAt ph (6 * q))) (readStage (wordAt ph (6 * q)))).contains 0 = true)
    (hfed : producers (blockSlots ph.words) (24 * q) = 0) :
    portQ (nodeOf (feedNode line operand ph q) (6 * q)) 0 = portQ (nodeOf ph (6 * q)) 0 ++
      [match line with
        | some v => ⟨BitVec.ofNat 512 (bitsOf v (512 * q) 512), 0xFFFF#16, false⟩
        | none => nullToken] := by
  have hfed' : producers (blockSlots ph.words) (4 * (6 * q)) = 0 := by rwa [show 4 * (6 * q) = 24 * q by omega]
  unfold feedNode
  dsimp only
  rw [if_neg hw, hneeds, hfed']
  simp only [decide_true, Bool.and_self, if_true]
  split
  · rw [nodeOf_setNode_self, nodeOf_setNode_self]
    rfl
  · rw [nodeOf_setNode_self]
    rfl

/-- The nodes of the arrays below n have been fed, and no other. -/
theorem nodeOf_foldl_feedNode (line : Option Nat) (operand : List Nat) (ph : Phase) (n : Nat) :
    ((List.range n).foldl (feedNode line operand) ph).words = ph.words ∧
      ∀ m, (∀ q, q < n → m ≠ 6 * q) → nodeOf ((List.range n).foldl (feedNode line operand) ph) m = nodeOf ph m := by
  induction n with
  | zero => exact ⟨rfl, fun _ _ => rfl⟩
  | succ n ih =>
    obtain ⟨hwords, hnodes⟩ := ih
    rw [List.range_succ, List.foldl_append, List.foldl_cons, List.foldl_nil]
    exact ⟨(feedNode_words ..).trans hwords, fun m hm =>
      (nodeOf_feedNode_ne _ _ _ (hm n (by omega))).trans (hnodes m fun q hq => hm q (by omega))⟩

theorem portQ_kernelFeed (ph : Phase) (line : Option Nat) (operand : List Nat) {q : Nat} (hq : q < 4) (hw : wordAt ph (6 * q) ≠ 0)
    (hneeds : (stageNeeds (wordOp (wordAt ph (6 * q))) (readStage (wordAt ph (6 * q)))).contains 0 = true)
    (hfed : producers (blockSlots ph.words) (24 * q) = 0) :
    portQ (nodeOf (kernelFeed ph line operand) (6 * q)) 0 = portQ (nodeOf ph (6 * q)) 0 ++
      [match line with
        | some v => ⟨BitVec.ofNat 512 (bitsOf v (512 * q) 512), 0xFFFF#16, false⟩
        | none => nullToken] := by
  rw [kernelFeed_eq]
  generalize 4 = n at hq
  induction n with
  | zero => omega
  | succ n ih =>
    rw [List.range_succ, List.foldl_append, List.foldl_cons, List.foldl_nil]
    by_cases h : q = n
    · subst h
      obtain ⟨hwords, hnodes⟩ := nodeOf_foldl_feedNode line operand ph q
      have hword : wordAt ((List.range q).foldl (feedNode line operand) ph) (6 * q) = wordAt ph (6 * q) := by rw [wordAt, hwords, wordAt]
      rw [portQ_feedNode _ _ _ _ (hword ▸ hw) (by rw [hword]; exact hneeds) (by rw [hwords]; exact hfed), hnodes _ fun j hj => by omega]
    · rw [nodeOf_feedNode_ne _ _ _ (by omega)]
      exact ih (by omega)

/-- What a kernel has emitted changes the deliveries and folds of a channel, not the lines still to act on. -/
theorem kernelDrain_todo (r : Rider) (op ch n : Nat) (x : RiderChan) : (kernelDrain r op ch n x).todo = x.todo := by
  induction n generalizing x with
  | zero => rfl
  | succ n ih =>
    unfold kernelDrain
    split
    · rw [ih]
      unfold kernelAnswer
      split_ifs <;> rfl
    · rfl

end Sys2Proof.Machine
end

section
/-! PROOFS. The pass of a line by the kind of rider that acts on it (R226 to R233). -/

namespace Sys2Proof.Machine

/-! What the acts leave of the machine. -/

theorem chans_takeView (s : State) (view key n : Nat) : (takeView s view key n).chans = s.chans := by
  unfold takeView
  split
  · rfl
  · generalize blocksOf key n = l
    induction l generalizing s with
    | nil => rfl
    | cons b l ih => exact ih _

theorem chans_writeView (s : State) (view key n x : Nat) (p : Bool) : (writeView s view key n x p).chans = s.chans := chans_takeView ..

theorem chans_poisonSectors (s : State) (pa m : Nat) : (poisonSectors s pa m).chans = s.chans := rfl

theorem chans_restartAtomics (s : State) (ks : List MemRun) : (restartAtomics s ks).chans = s.chans := rfl

/-- Memory is as a write of a run leaves it, whatever else has changed. -/
theorem bytesWritten_of_mem {s t : State} (view key n x : Nat) (p : Bool) (ht : t.mem = (writeView s view key n x p).mem) :
    bytesWritten s t view key n (byteOf x) :=
  (bytesWritten_writeView s view key n x p).congr fun a => by rw [State.byte, ht, State.byte]

theorem mem_poisonSectors (s : State) (pa m : Nat) : (poisonSectors s pa m).mem = s.mem := rfl

theorem mem_restartAtomics (s : State) (ks : List MemRun) : (restartAtomics s ks).mem = s.mem := rfl

theorem mem_setRider (s : State) (key : Nat) (r : Rider) : (s.setRider key r).mem = s.mem := rfl

theorem poison_setRider (s : State) (key : Nat) (r : Rider) : (s.setRider key r).poison = s.poison := rfl

/-- Where only a rider is written, memory is as before. -/
theorem sameMemory_setRider (s : State) (key : Nat) (r : Rider) : sameMemory s (s.setRider key r) := ⟨fun _ => rfl, rfl, rfl, rfl⟩

/-- A rider whose line was lost on a channel (Table 11.12). -/
def lostLine (r : Rider) (ch : Nat) : Rider := { r with status := r.status ||| 1, chmask := r.chmask ||| 1 <<< ch }

theorem markErr_false (r : Rider) (ch : Nat) : markErr r ch false = lostLine r ch := by
  simp [markErr, lostLine]

/-- The tag of a line that a reader delivers (Table 11.10). -/
theorem tagBytes_line (off ch bad rev : Nat) : tagBytes off ch [0xFFFF, 0, 0, 0] (bad != 0) rev =
    off % 2 ^ 32 + ch * 2 ^ 32 + 0xFFFF * 2 ^ 64 + (if bad = 0 then 0 else 2 ^ 192) + rev % 2 ^ 32 * 2 ^ 224 := by
  have hbad : (bad != 0).toNat * 2 ^ 192 = if bad = 0 then 0 else 2 ^ 192 := by
    by_cases h : bad = 0 <;> simp [h]
  unfold tagBytes
  rw [hbad]
  rfl

section Kinds
variable {s : State} {ch line rev key off : Nat} {r : Rider} {x : RiderChan} (hr : s.rider? key = some r) (hx : tabFind r.chans ch = some x)
  (hfree : cloneHolds s r.part r.ticket ch line = false)
  (hready : (x.dest.filter fun d => d.1 == line && (tabFind r.data d.2).isSome) = []) (hmine : (x.todo.filter fun e => e.1 == line) = [(line, off)])
  (hfeed : r.kind ≠ 3)
include hr hx hfree hready hmine hfeed

/-! Readers (R226). -/

theorem pass_reader_misses (hop : r.acts = 0xC8) (hkind : r.kind ≠ 1) (hland : rcLand r.card = false) (hfull : 16 ≤ x.queue.length) :
    riderPass s ch line rev key = s.setRider key { r with misses := r.misses + 1, status := r.status ||| 8 } := by
  refine riderPass_misses hr hx hfree hready hmine ?_
  rw [actLine_eq hr hx hfeed]
  simp [hop, hkind, hland, hfull]

/-- The line is queued behind its tag, the tag alone where the line is lost. -/
theorem pass_reader_queues (hop : r.acts = 0xC8) (hkind : r.kind ≠ 1) (hland : rcLand r.card = false) (hroom : x.queue.length < 16) :
    let bad := lineBad s (linePa ch line)
    let tag := tagBytes off ch [0xFFFF, 0, 0, 0] (bad != 0) rev
    riderPass s ch line rev key = s.setRider key (actedAs r x ch (line, off) rev (s.chan ch).slot (if bad = 0 then r else markErr r ch true)
      { x with queue := x.queue ++ [(if bad = 0 then tag + lineOf s (r.view off) (linePa ch line) * 2 ^ 512 else tag, bad, true)] }) := by
  intro bad tag
  refine riderPass_acts hr hx hfree hready hmine ?_ (by split <;> rfl) rfl rfl
  have hslot : tag + (if bad = 0 then lineOf s (r.view off) (linePa ch line) * 2 ^ 512 else 0) =
      if bad = 0 then tag + lineOf s (r.view off) (linePa ch line) * 2 ^ 512 else tag := by
    split
    · rfl
    · exact Nat.add_zero _
  rw [actLine_eq hr hx hfeed, ← hslot]
  simp only [hop, hkind, hland, Nat.not_le.2 hroom, Bool.false_eq_true, decide_false, Bool.and_false, if_false, if_true]
  rfl

/-- The line is written where it lands, in one run of this package. -/
theorem pass_reader_lands (hop : r.acts = 0xC8) (hkind : r.kind ≠ 1) (hland : rcLand r.card = true) {k v : Nat}
    (hrun : tabGet [] r.land off = [⟨k, 256, v⟩]) (hnear : isRemote k = false) :
    let bad := lineBad s (linePa ch line)
    let old := lineOf s (r.view off) (linePa ch line)
    bytesWritten s (riderPass s ch line rev key) v k 256 (byteOf (if bad = 0 then old else poisonLine r.landFmt)) ∧
      (riderPass s ch line rev key).rider? key = some (actedAs r x ch (line, off) rev (s.chan ch).slot (if bad = 0 then r else markErr r ch true) x) := by
  intro bad old
  have hsend : podSendRuns s [⟨k, 256, v⟩] = s := by simp [podSendRuns, podSendKey, hnear]
  have hpass : riderPass s ch line rev key =
      (restartAtomics (writeView s v k 256 ((if bad = 0 then old else poisonLine r.landFmt) % 2 ^ (8 * 256)) (bad != 0)) [⟨k, 256, v⟩]).setRider key
        (actedAs r x ch (line, off) rev (s.chan ch).slot (if bad = 0 then r else markErr r ch true) x) := by
    refine riderPass_acts hr hx hfree hready hmine ?_ (by split <;> rfl) rfl ((chans_restartAtomics ..).trans (chans_writeView ..))
    rw [actLine_eq hr hx hfeed]
    simp only [hop, hkind, hland, hrun, hsend, writeKeys]
    rfl
  rw [hpass]
  refine ⟨(bytesWritten_of_mem v k 256 _ _ ((mem_setRider ..).trans (mem_restartAtomics ..))).congrBytes fun i hi => ?_, State.rider_setRider_self ..⟩
  exact (byteOf_mod _ hi).symm

/-! What is read and kept (R231, R233). -/

/-- A rider that keeps its lines and writes nothing at the pass: an engine's reader, or `bmac`. -/
theorem pass_keeps (hop : (r.acts = 0xC8 ∧ r.kind = 1) ∨ r.acts = 0xCD) :
    let bad := lineBad s (linePa ch line)
    let held := tabPut r.data off (lineOf s (r.view off) (linePa ch line))
    riderPass s ch line rev key = s.setRider key (actedAs r x ch (line, off) rev (s.chan ch).slot (if bad = 0 then { r with data := held }
      else { (if r.acts = 0xCD then markErr r ch true else lostLine r ch) with
        data := held, bad := r.bad ++ [(off, if r.acts = 0xCD then 255 else bad)] }) x) := by
  intro bad held
  refine riderPass_acts hr hx hfree hready hmine ?_ (by split_ifs <;> rfl) rfl rfl
  rw [actLine_eq hr hx hfeed]
  dsimp only
  rw [if_pos (by rcases hop with ⟨h, h'⟩ | h <;> simp [*])]
  by_cases hcd : r.acts = 0xCD
  · simp only [hcd, if_true, beq_self_eq_true]
    rfl
  · simp only [hcd, if_false, beq_eq_false_iff_ne.2 hcd, markErr_false]
    rfl

/-- A clone's source line is read and kept for its destination. -/
theorem pass_clone_reads (hop : r.acts = 0xCF) :
    let bad := lineBad s (linePa ch line)
    let held := tabPut r.data off (lineOf s (r.view off) (linePa ch line))
    riderPass s ch line rev key = s.setRider key (actedAs r x ch (line, off) rev (s.chan ch).slot (if bad = 0 then { r with data := held }
      else { markErr r ch true with data := held, bad := r.bad ++ [(off, 255)] }) x) := by
  intro bad held
  refine riderPass_acts hr hx hfree hready hmine ?_ (by split_ifs <;> rfl) rfl rfl
  rw [actLine_eq hr hx hfeed]
  simp [hop, isKernelOp]
  rfl

/-! Writes (R229, R230). -/

/-- `bdep` writes the line that it copied, and poisons the sectors that were lost as it did. -/
theorem pass_deposits (hop : r.acts = 0xCB) :
    let pa := linePa ch line
    let t := riderPass s ch line rev key
    bytesWritten s t (r.view off) pa 256 (byteOf (r.operand.getD off 0)) ∧ t.rider? key = some (actedAs r x ch (line, off) rev (s.chan ch).slot r x) ∧
      ∀ i, i < 8 → tabGet false t.poison (pa / 32 + i) = (lostSectors r off).testBit i := by
  intro pa t
  have hpass : t = (poisonSectors (writeView s (r.view off) pa 256 (r.operand.getD off 0) false) pa (lostSectors r off)).setRider key
      (actedAs r x ch (line, off) rev (s.chan ch).slot r x) := by
    refine riderPass_acts hr hx hfree hready hmine ?_ rfl rfl ((chans_poisonSectors ..).trans (chans_writeView ..))
    rw [actLine_eq hr hx hfeed]
    simp [hop, isKernelOp, pa]
  rw [hpass]
  refine ⟨bytesWritten_of_mem _ pa 256 _ false ((mem_setRider ..).trans (mem_poisonSectors ..)), State.rider_setRider_self .., fun i hi => ?_⟩
  refine (sector_poisonSectors _ hi pa _).trans ?_
  rw [sector_writeView s _ _ ch line false hi, Bool.or_false]

theorem pass_update_lost (hop : r.acts = 0xCC) (hbad : lineBad s (linePa ch line) ≠ 0) : riderPass s ch line rev key =
    s.setRider key (actedAs r x ch (line, off) rev (s.chan ch).slot (lostLine r ch) x) := by
  refine riderPass_acts hr hx hfree hready hmine ?_ rfl rfl rfl
  rw [actLine_eq hr hx hfeed]
  simp [hop, isKernelOp, hbad, markErr_false]

/-- `bupd` writes each word anew from the old one and the operand's. -/
theorem pass_updates (hop : r.acts = 0xCC) (hbad : lineBad s (linePa ch line) = 0) :
    let pa := linePa ch line
    let t := riderPass s ch line rev key
    t.rider? key = some (actedAs r x ch (line, off) rev (s.chan ch).slot r x) ∧ (∀ i, i < 8 → tabGet false t.poison (pa / 32 + i) = false) ∧
      bytesWritten s t (r.view off) pa 256 (byteOf (updLine r.sub (lineOf s (r.view off) pa) (r.operand.headD 0))) := by
  intro pa t
  have hpass : t = (writeView s (r.view off) pa 256 (updLine r.sub (lineOf s (r.view off) pa) (r.operand.headD 0)) false).setRider key
      (actedAs r x ch (line, off) rev (s.chan ch).slot r x) := by
    refine riderPass_acts hr hx hfree hready hmine ?_ rfl rfl (chans_writeView ..)
    rw [actLine_eq hr hx hfeed]
    simp [hop, isKernelOp, hbad, pa]
  rw [hpass]
  exact ⟨State.rider_setRider_self .., fun i hi => by rw [poison_setRider, sector_writeView s _ _ ch line false hi], bytesWritten_of_mem _ pa 256 _ false (mem_setRider ..)⟩

/-! Kernel riders (R227, R228). -/

theorem pass_filter_misses (hop : r.acts = 0xCA) (hfull : 16 ≤ x.queue.length) :
    riderPass s ch line rev key = s.setRider key { r with misses := r.misses + 1, status := r.status ||| 8 } := by
  refine riderPass_misses hr hx hfree hready hmine ?_
  rw [actLine_eq hr hx hfeed]
  simp [hop, isKernelOp, hfull]

/-- The line goes to the kernel, which runs, and what it has emitted is queued or folded. -/
theorem pass_kernel (hop : r.acts = 0xC9 ∨ r.acts = 0xCE ∨ (r.acts = 0xCA ∧ x.queue.length < 16)) :
    let bad := lineBad s (linePa ch line)
    let fed := kernelFeed (x.kernel.getD (kernelStart ⟨0, []⟩ 0)) (if bad = 0 then some (lineOf s (r.view off) (linePa ch line)) else none) r.operand
    ∃ fl : Flags, riderPass s ch line rev key = s.setRider key (actedAs r x ch (line, off) rev (s.chan ch).slot
      { (if bad = 0 then r else lostLine r ch) with flags := fl }
      (kernelDrain { r with flags := fl } r.acts ch 8 { x with kernel := some (kernelRun 64 fed 0).1, fed := x.fed ++ [⟨off, rev, bad != 0⟩] })) := by
  intro bad fed
  refine ⟨r.flags ||| (kernelRun 64 fed 0).2, riderPass_acts hr hx hfree hready hmine ?_ (by split <;> rfl) (kernelDrain_todo ..) rfl⟩
  rw [actLine_eq hr hx hfeed]
  have hact : (r.acts = 0xCA && 16 ≤ x.queue.length) = false ∧ isKernelOp r.acts = true ∧ r.acts ≠ 0xC8 ∧ r.acts ≠ 0xCD := by
    rcases hop with h | h | ⟨h, h'⟩ <;> simp [isKernelOp, *]
  obtain ⟨hroom, hkernel, h8, hD⟩ := hact
  simp only [h8, hD, hkernel, hroom, decide_false, Bool.and_false, Bool.or_false, Bool.false_eq_true, if_false, if_true, markErr_false]
  by_cases hbad : lineBad s (linePa ch line) = 0
  · simp only [hbad, bad, fed, if_true]
  · simp only [hbad, bad, fed, lostLine, if_false]

end Kinds

/-! A clone's destination (R231). -/

/-- A clone that has read a line's source writes it, or poison where that was lost. -/
theorem pass_clone_writes {s : State} {ch line rev key off : Nat} {r : Rider} {x : RiderChan} (hr : s.rider? key = some r) (hx : tabFind r.chans ch = some x)
    (hfree : cloneHolds s r.part r.ticket ch line = false)
    (hready : (x.dest.filter fun d => d.1 == line && (tabFind r.data d.2).isSome) = [(line, off)]) (hmine : (x.todo.filter fun e => e.1 == line) = [])
    {v : Nat} (hdata : tabFind r.data off = some v) (hmask : tabFind r.masks off = none) :
    let lost := lostSectors r off != 0
    let t := riderPass s ch line rev key
    bytesWritten s t (r.viewDest off) (linePa ch line) 256 (byteOf (if lost then poisonLine 8 else v)) ∧
      (∀ i, i < 8 → tabGet false t.poison (linePa ch line / 32 + i) = lost) ∧
      t.rider? key = some { r with chans := tabPut r.chans ch { x with dest := x.dest.filter fun d => d != (line, off) } } := by
  intro lost t
  have hwrite : writeClone s key (linePa ch line) off = writeView s (r.viewDest off) (linePa ch line) 256 (if lost then poisonLine 8 else v) lost := by
    unfold writeClone
    rw [hr]
    dsimp only
    rw [hmask, tabGet, hdata]
    cases hlost : lostSectors r off != 0 <;> simp [lost, hlost]
  have hpass : t = _ := riderPass_writes hr hx hfree hready hmine
  rw [hpass, hwrite]
  exact ⟨bytesWritten_of_mem _ _ 256 _ lost (mem_setRider ..), fun i hi => by rw [poison_setRider, sector_writeView s _ _ ch line lost hi], State.rider_setRider_self ..⟩

end Sys2Proof.Machine
end

section
/-! PROOFS. The clauses of the sweep's control instructions and of its passes, put together (R222, R226 to R238, R243). -/

namespace Sys2Proof.Machine

section Control
variable {w : EpW} {s : State} {f : Foc} {ops : List (Nat × Token)} (hr : epReady s f (withPred w.pm.toNat [0]) ops) (hn : actsNull w.pm.toNat ops = false)
include hr hn

/-- A kernel that its image gives is boarded on every channel of the partition (R238). -/
theorem bcfg_boards (hsound : kernelCardSound (tokAt ops 0)) (halign : laneVal (tokAt ops 0) 0 8 % 16 = 0) {m : State} {h : BitVec 128} {ws : List Word64}
    (hload : loadImage true f.c f.task.part (laneVal (tokAt ops 0) 0 8) s = (.ok (h, ws), m)) : ∃ u y,
      let seq := (chainOf f.task 1).tail + 1
      let ticket := (m.partn f.task.part).tickets
      epFires (.bcfg w) s u f (joinChain f.task 0xD0 0 (tokAt ops 0).data f.ph.handler false).1 (withPred w.pm.toNat [0]) 0 (some (riderToken seq ticket)) ∧
      u = { m with riders := u.riders, parts := u.parts, cores := u.cores } ∧ onlyTask f.c f.t { u with cores := m.cores } u ∧
      (∀ k, k ≠ riderKey f.task.part ticket → u.rider? k = m.rider? k) ∧ (∀ k, k ≠ f.task.part → u.partn k = m.partn k) ∧
      u.rider? (riderKey f.task.part ticket) = some y ∧ y.op = 0xD0 ∧ y.sub = (tokAt ops 0).lane 2 ∧ y.seq = seq ∧ y.operand = h.toNat :: ws.map BitVec.toNat ∧
      ∀ k, (k ∈ y.chans.map Prod.fst ↔ k < 384 ∧ (m.chan k).owner = f.task.part) := by
  have hfires := bcfg_loads hr hn hsound halign hload
  simp only [joinChain_seq] at hfires
  obtain ⟨y, hboarded⟩ := kernelBoarded m f ((tokAt ops 0).lane 2) (tokAt ops 0).data h ws
  rw [congrArg Prod.fst (enterRider_plain rfl rfl)] at hfires
  exact ⟨_, y, hfires, hboarded⟩

/-- What `wdrive` comes to in its deciding firing: a fault, a wait, or a feed that it joins (R243). -/
theorem wdrive_decides (hdec : f.nd.iter + 1 = phaseEnd f.ph) : match feedCardCheck f.task (tokAt ops 0).data with
    | some e => epFaults (.wdrive w) s s f e
    | none => match boardFeed (leaveFeed s f.c f.t) f.c f.t f.task (tokAt ops 0).data with
      | .error e => if e.cls = notYet.cls then exec (.wdrive w) s = .next s else epFaults (.wdrive w) s s f e
      | .ok none => exec (.wdrive w) s = .next s
      | .ok (some m) => ∀ task, (joinFeed m f.c f.t (tokAt ops 0).data true).task? f.c f.t = some task → ∃ t ph,
        exec (.wdrive w) s = .next t ∧ nodeFired f (withPred w.pm.toNat [0]) [] ph ∧
        FiredFrom (joinFeed m f.c f.t (tokAt ops 0).data true) f task t { ph with wdrive := some (tokAt ops 0).data } := by
  have hexec := exec_wdrive_deciding hr hn hdec
  cases hcheck : feedCardCheck f.task (tokAt ops 0).data with
  | some e =>
    rw [hcheck] at hexec
    exact hexec
  | none =>
    rw [hcheck] at hexec
    dsimp only at hexec ⊢
    cases hfeed : boardFeed (leaveFeed s f.c f.t) f.c f.t f.task (tokAt ops 0).data with
    | error e =>
      rw [hfeed] at hexec
      dsimp only at hexec ⊢
      split
      · next hwait => exact hexec.trans (congrArg _ (if_pos hwait))
      · next hfault => exact hexec.trans (congrArg _ (if_neg hfault))
    | ok o => cases o with
      | none =>
        rw [hfeed] at hexec
        exact hexec
      | some m => exact fun task htask => wdrive_joins hr hn hdec hcheck hfeed htask

end Control

/-- What a kernel's tokens of one line do (R227, R228). -/
theorem kernelAnswer_cases (r : Rider) (op ch : Nat) (x : RiderChan) (fl : FedLine) (xs : List Token) :
    (op = 0xCA → (xs.all Token.null = true → kernelAnswer r op ch x fl xs = x) ∧ (xs.all Token.null = false → kernelAnswer r op ch x fl xs =
      { x with queue := x.queue ++ [(tokensSlot (tagBytes fl.offset ch (tokenMasks xs) fl.bad fl.rev) xs, 0, true)] })) ∧
    (op ≠ 0xCA → (kernelAnswer r op ch x fl xs).folded = x.folded + 1 ∧ (kernelAnswer r op ch x fl xs).queue = x.queue) := by
  unfold kernelAnswer
  refine ⟨fun hop => ⟨fun hnull => ?_, fun hsome => ?_⟩, fun hop => ?_⟩
  · rw [if_pos hop, if_pos hnull]
  · rw [if_pos hop, if_neg (by simp [hsome])]
  · rw [if_neg hop]
    exact ⟨rfl, rfl⟩

/-- Settles O34: each control instruction by the branch it takes, a pass by the riders aboard, and each rider by the act of its kind on a line. -/
theorem sweepControl : Obligations.SweepControl := by
  refine ⟨fun w s f ops hr => ?_, fun s n => pass_bytes, fun s ch line rev key off r x hrider hx => ?_⟩
  · refine ⟨fun hn => ⟨controls_null hr hn, wdrive_idle hr (.inr hn)⟩, fun h => wdrive_idle hr (.inl h), fun hn => ?_⟩
    exact ⟨fun key r hfind hkind hlive howes task => bcancel_cancels hr hn hfind hkind hlive howes,
      bcancel_none hr hn, fun hnone => bcancel_none hr hn fun key r hfind => by simp [hnone] at hfind,
      bwait_faults hr hn, bwait_stalls hr hn, fun d h hdone => bwait_answers hr hn h hdone,
      cursor_faults hr hn, cursor_answers hr hn,
      ⟨bcfg_reserved hr hn, bcfg_misaligned hr hn, fun m hsound halign =>
        ⟨fun e => bcfg_unloaded hr hn hsound halign, fun h ws => bcfg_boards hr hn hsound halign⟩⟩,
      wdrive_decides hr hn⟩
  · refine ⟨riderPass_held hrider, fun hfree hready hmine hfeed => ?_, kernelAnswer_cases r _ ch x, fun v hfree hready hdata hmask hmine => ?_⟩
    · refine ⟨fun hop hkind hland => ⟨fun hfull => ?_, fun hroom => ?_⟩, fun hop hkind hland k v hrun hnear => ?_, fun hop => ?_,
        fun hop => ⟨fun hbad => ?_, fun hbad => ?_⟩, fun hop => ?_, fun hop => ?_, fun hop hfull => ?_, fun hop => ?_⟩
      · exact pass_reader_misses hrider hx hfree hready hmine hfeed hop hkind hland hfull
      · rw [pass_reader_queues hrider hx hfree hready hmine hfeed hop hkind hland hroom, tagBytes_line]
        exact ⟨sameMemory_setRider .., State.rider_setRider_self ..⟩
      · exact pass_reader_lands hrider hx hfree hready hmine hfeed hop hkind hland hrun hnear
      · exact pass_deposits hrider hx hfree hready hmine hfeed hop
      · rw [pass_update_lost hrider hx hfree hready hmine hfeed hop hbad]
        exact ⟨sameMemory_setRider .., State.rider_setRider_self ..⟩
      · obtain ⟨hbecomes, hclean, hwritten⟩ := pass_updates hrider hx hfree hready hmine hfeed hop hbad
        exact ⟨hbecomes, hclean, _, hwritten, fun j hj => (bitsOf_updLine _ _ _ hj).trans (updWord_eq ..)⟩
      · rw [pass_clone_reads hrider hx hfree hready hmine hfeed hop]
        exact ⟨sameMemory_setRider .., State.rider_setRider_self ..⟩
      · rw [pass_keeps hrider hx hfree hready hmine hfeed hop]
        exact ⟨sameMemory_setRider .., State.rider_setRider_self ..⟩
      · exact pass_filter_misses hrider hx hfree hready hmine hfeed hop hfull
      · obtain ⟨fl, hpass⟩ := pass_kernel hrider hx hfree hready hmine hfeed hop
        rw [hpass]
        refine ⟨sameMemory_setRider .., fun q hq hw hneeds hfed => (portQ_kernelFeed _ _ _ hq hw hneeds hfed).trans ?_, _, _, ?_, State.rider_setRider_self .., ?_⟩
        · by_cases hbad : lineBad s (linePa ch line) = 0
          · rw [if_pos hbad, if_pos hbad]
          · rw [if_neg hbad, if_neg hbad]
        · rfl
        · rfl
    · obtain ⟨hwritten, hsectors, hbecomes⟩ := pass_clone_writes hrider hx hfree hready hmine hdata hmask
      refine ⟨fun hclean => ?_, fun hlost => ?_, hbecomes⟩
      · rw [hclean] at hwritten hsectors
        exact ⟨hwritten, hsectors⟩
      · rw [bne_iff_ne.2 hlost] at hwritten hsectors
        exact ⟨hwritten, hsectors⟩

end Sys2Proof.Machine
end
